-- ==== Sys2Proof/Word.lean ====
section
/-! DEFINITION. The machine words of the J9: the 64-bit value of a queue entry or named register, the 32-bit
instruction word and handle, the byte, and the wider registers (R4, R146, R154, R229). -/

namespace Sys2Proof

/-- A 64-bit value: a queue entry, a named register, a control register, a fat pointer (R146). -/
abbrev Word := BitVec 64
/-- A 32-bit value: an instruction word, a handle (R115, R123, R233). -/
abbrev W32 := BitVec 32
/-- The unit of memory (R4, R184). -/
abbrev Byte := BitVec 8
/-- A vector register of 2,048 bits (R154). -/
abbrev VReg := BitVec 2048
/-- A predicate register of 128 bits (R154). -/
abbrev PReg := BitVec 128
/-- A wide cell of 576 bits (R229). -/
abbrev Cell576 := BitVec 576

end Sys2Proof
end

