-- ==== Sys2Proof/Forms.lean ====
section
/-! DEFINITION. What the syntax of the J9 is made of: operand sources, types and conditions of instructions, the tables of a network
image, and what the outside supplies. The state refers to these forms too, and the syntax of flits to parts of the state. -/

namespace Sys2Proof

/-- The special sources of Table 1.6 (R14). -/
inductive Special where
  | zero | one | mone | self | coreid | lanes | partid
  deriving DecidableEq, Repr

/-- A six-bit source specifier (Table 12.2, R236). -/
inductive Src where
  | q (k : BitVec 4)
  | sp (k : Special)
  | n (r : BitVec 5)
  deriving DecidableEq, Repr

/-- A destination specifier: absent, or the logical named register kept to (R236). -/
abbrev Keep := Option (BitVec 5)

/-- The sizes of `ld` and `ldx`, in the order of majors 0x10 to 0x16 (Table 12.11). -/
inductive LdTy where
  | i8 | n8 | i16 | n16 | i32 | n32 | w64
  deriving DecidableEq, Repr

/-- The sizes of `ldx`: those of `ld`, and the 128-bit form of minor 0x07 (Table 12.11). -/
inductive LdxTy where
  | ty (t : LdTy)
  | w128
  deriving DecidableEq, Repr

/-- The sizes of `st` and `stx`, in the order of their majors (Table 12.11). -/
inductive StTy where
  | w8 | w16 | w32 | w64
  deriving DecidableEq, Repr

/-- The operations of `atom` and `red` (Table 12.13); `swap` is of `atom` only. -/
inductive AtomOp where
  | add32 | add64 | minI32 | minI64 | minN32 | minN64 | maxI32 | maxI64 | maxN32 | maxN64
  | and32 | and64 | or32 | or64 | xor32 | xor64 | swap32 | swap64
  | faddF32 | faddF64 | fminF32 | fminF64 | fmaxF32 | fmaxF64
  deriving DecidableEq, Repr

/-- The kinds of a fence (R187). -/
inductive FenceKind where
  | acq | rel | ar
  deriving DecidableEq, Repr

/-- The scopes of Table 9.2 (R186), narrowest first. -/
inductive Scope where
  | ctx | core | clu | die | pkg | fab
  deriving DecidableEq, Repr

/-- The branch conditions on `q0` (Table 12.12, codes 1 to 6). -/
inductive Cond where
  | always | z | nz | lt | ge | gt | le
  deriving DecidableEq, Repr

/-- The static rounding field of a word (R218): codes 0 to 4, or 7 for `ctl.rmode.RM`. -/
inductive Rm where
  | rne | rtz | rdn | rup | rna | dyn
  deriving DecidableEq, Repr

/-- The scalar conversion codes of `fcvt` (Table 12.12). -/
inductive CTy where
  | f32 | f64 | bf16 | f16 | i32 | n32 | i64 | n64
  deriving DecidableEq, Repr

/-- The vector type codes (Table 12.12). -/
inductive VTy where
  | f32 | bf16 | f16 | i32 | n32 | i16 | n16
  deriving DecidableEq, Repr

/-- The comparison codes of `vcmp` (R336). -/
inductive VCond where
  | eq | ne | lt | le
  deriving DecidableEq, Repr

/-- The interleaved block formats that `vqnt` and `vdqnt` name (R344): NB2, NB4, NB7 and the six MX formats. -/
inductive BlkFmt where
  | nb2 | nb4 | nb7 | mx4 | mx6e2 | mx6e3 | mx8e4 | mx8e5 | mxi8
  deriving DecidableEq, Repr

/-- The kinds of unit that `fork` names (R356). -/
inductive ForkKind where
  | matrixSeq | copySeq | sharedCopy | collective | compression | memServer
  deriving DecidableEq, Repr

/-- The dispositions of `eret` (Table 8.4). -/
inductive Disp where
  | resume | restart | kill | escalate
  deriving DecidableEq, Repr

/-- The control registers of Table 12.14 but `ctl.shoot`, whose writes have rows of their own. -/
inductive Ctl where
  | flags | rmode | rot | svc | dlmiss | heapoff | accept | compat | watch0 | watch1
  | tmo | ptag | tokens | heapbase | heaplim | part
  | dmap (j : Fin 6)
  | vtbase | vtscale | vtoff | vtfloor
  | migpol | mighand | mgrhand | shoot | ptroot
  deriving DecidableEq, Repr

/-- The source of the range of `unenrol`: none (free the node), or the named pair nJ, n(J+1) (R321). -/
inductive RangeSrc where
  | free
  | pair (j : BitVec 5)
  deriving DecidableEq, Repr

/-- The B operand of `mgang` (R362): tile register, or the pair n(2 dp), n(2 dp + 1). -/
inductive MgangB where
  | tile (t : BitVec 3)
  | spad (dp : BitVec 4)
  deriving DecidableEq, Repr

/-! ### Networks as NETLOAD reads them (R117, R119, R140) -/

/-- A destination of a phase header (Table 6.8) and, when local, its counter. -/
structure PDest where
  count : Nat
  module : Nat
  part : Nat
  net : Nat := 0
  counter : Nat := 0
  deriving DecidableEq, Repr

/-- A value of a `.param` (R18, R19, R119). -/
inductive PVal where
  | int (w : Word)
  /-- A symbol of `.rodata`, and of `.data`. -/
  | ro (off : Nat)
  | data (off : Nat)
  | spad (off : Nat)
  | tx (chan : Nat)
  | rx (chan : Nat)
  deriving DecidableEq, Repr

/-- A `.buf` of a process (Table 1.7). -/
structure BufDecl where
  off : Nat
  size : Nat
  ring : Bool
  slot : Nat
  deriving DecidableEq, Repr

/-- An entry of the process section (Table 6.4). -/
structure NetProc where
  rated : Bool := false
  prio : Nat := 0
  spawned : Bool := false
  entry : Nat := 0
  spad : Nat := 0
  bufs : List BufDecl := []
  sched : List Word := []
  /-- Per end of a rated process: the parameter that names it and its count (R114). -/
  counts : List (Nat × Nat) := []
  params : List PVal := []
  deriving DecidableEq, Repr

/-- An entry of the channel section. -/
structure NetChan where
  ty : Nat
  depth : Nat
  bkind : Nat := 0
  module : Nat := 0
  rpart : Nat := 0
  ep : Vector Word 4 := Vector.replicate 4 0
  deriving DecidableEq, Repr

/-- Domains of a level (Table 6.4). -/
inductive Domain where
  | context | core | cluster | die | package | partition | fabric | host
  deriving DecidableEq, Repr

/-- A level entry. -/
structure NetLevel where
  depth : Nat
  domain : Domain
  scope : Scope
  parent : Option Nat := none
  members : List Nat := []
  deriving DecidableEq, Repr

/-- A phase header of a network record. -/
structure NetPhase where
  slot : Nat
  dests : List PDest
  deriving DecidableEq, Repr

/-- A network record with its code and data (Tables 6.3, 6.4), as NETLOAD reads it. -/
structure NetImage where
  /-- Every reserved field of its sections is zero. -/
  reservedZero : Bool := true
  types : List Word := []
  procs : List NetProc := []
  chans : List NetChan := []
  gangs : List (List Nat) := []
  levels : List NetLevel := []
  phases : List NetPhase := []
  code : List W32 := []
  /-- The `.rodata` and `.data` parts of its data image (R18). -/
  rodata : List Byte := []
  data : List Byte := []
  /-- The `.spad` image (R370) and its strictest alignment. -/
  spad : List Byte := []
  spadAlign : Nat := 16
  power : Nat := 0
  handler : Option Nat := none
  heapT1 : Bool := false
  heapPg : Nat := 0
  deriving DecidableEq, Repr

/-! ### What the outside supplies -/

/-- Output ports of a torus router, in the fixed order of R38 and R39. -/
inductive Port where
  | xp | xm | yp | ym | loc
  deriving DecidableEq, Repr

/-- A packet of the torus (R25, R38): a unicast has one destination, a multicast several. -/
structure Packet where
  id : Nat
  src : Nat
  dests : List Nat
  deriving DecidableEq, Repr

/-- A node of the containment tree of a partition that migrates (R216). -/
structure MovedNode where
  id : Nat
  parent : Nat
  depth : Nat
  count : Nat
  nchild : Nat
  ngran : Nat
  deriving DecidableEq, Repr

/-- The metadata of an enrolled granule of such a partition, by virtual address in units of 4 KiB (R216). -/
structure MovedGran where
  gran : Nat
  node : Nat
  count : Nat
  deriving DecidableEq, Repr

/-- Where an entry of a host queue lies: PCIe function (0 is PF0, k + 1 is the VF of partition k), queue number within
the function, and its place in the order in which the queue's entries are read (R46, R49, R50). -/
structure EntryRef where
  fn : Nat
  q : Nat
  idx : Nat
  deriving DecidableEq, Repr

end Sys2Proof
end

