-- ==== Sys2Proof/Machine/NMap.lean ====
section
/-! DEFINITION. Sparse tables keyed by a natural number, as plain data: a list of keys and values with keys rising. They hold
register files, process stores, channel tables and the like; an absent key reads as the table's default. -/

namespace Sys2Proof.Machine

/-- A sparse table: keys strictly rising. -/
abbrev NMap (α : Type) := List (Nat × α)

/-- The entry of a key. -/
def nget? {α : Type} (m : NMap α) (k : Nat) : Option α :=
  match m with
  | [] => none
  | (j, a) :: t => if j = k then some a else nget? t k

/-- Put a value at a key, keeping the keys rising. -/
def nset {α : Type} (m : NMap α) (k : Nat) (a : α) : NMap α :=
  match m with
  | [] => [(k, a)]
  | (j, b) :: t => if k < j then (k, a) :: (j, b) :: t else if k = j then (k, a) :: t else (j, b) :: nset t k a

/-- Remove a key. -/
def ndel {α : Type} (m : NMap α) (k : Nat) : NMap α :=
  match m with
  | [] => []
  | (j, b) :: t => if j = k then ndel t k else (j, b) :: ndel t k

/-- The entry of a key, or a default. -/
def nget {α : Type} (d : α) (m : NMap α) (k : Nat) : α := (nget? m k).getD d

/-- Change the entry of a key that has one. -/
def nmod {α : Type} (m : NMap α) (k : Nat) (f : α → α) : NMap α :=
  match m with
  | [] => []
  | (j, b) :: t => if j = k then (j, f b) :: t else (j, b) :: nmod t k f

/-- Put a value before the first that does not come before it. -/
def insertBy {α : Type} (le : α → α → Bool) (x : α) (l : List α) : List α :=
  match l with
  | [] => [x]
  | y :: t => if le x y then x :: y :: t else y :: insertBy le x t

/-- Sort a list, equal values keeping their order. -/
def sortBy {α : Type} (le : α → α → Bool) (l : List α) : List α := l.foldr (insertBy le) []

/-- The least natural number at or above `k` that is no key, looking at most `fuel` numbers ahead. -/
def nfree {α : Type} (m : NMap α) (fuel k : Nat) : Nat :=
  match fuel with
  | 0 => k
  | f + 1 => if (nget? m k).isSome then nfree m f (k + 1) else k

/-- The first element a test accepts, with its position. -/
def findAt {α : Type} (p : α → Bool) (l : List α) : Option (Nat × α) :=
  match l with
  | [] => none
  | a :: t => if p a then some (0, a) else (findAt p t).map fun r => (r.1 + 1, r.2)

/-- Remove the first element a test accepts. -/
def dropFirst {α : Type} (p : α → Bool) (l : List α) : List α :=
  match l with
  | [] => []
  | a :: t => if p a then t else a :: dropFirst p t

end Sys2Proof.Machine
end

