-- ==== Sys2Proof/Machine/Parts.lean ====
section
/-! DEFINITION. The parts of the state that a migration carries to another module (R86): processes, cores, transactions, channels,
network objects and their instances, gangs, and save images made of them; and those that go with them in State.lean. -/

namespace Sys2Proof.Machine

/-! ### Processes (R113 to R116, R146 to R156) -/

/-- Process states, Table 6.2; the code is the position. -/
inductive PState where
  | new | ready | standby | running | parked | blocked | faulted | stopped | exited | dormant
  deriving DecidableEq, Repr

/-- What holds a PARKED process (Table 6.2). -/
inductive Hold where
  /-- The switch marker: every outstanding pending result (R151); `exit` parks so as well (R306). -/
  | results
  /-- An access held by the range scoreboard or by a buffer in filling (R161): the transaction, and whether its word carries
  the switch marker. -/
  | access (txn : Nat) (sw : Bool)
  /-- The side log of the core is full (R95). -/
  | sideLog
  /-- No free completion object or scoreboard entry (R168, R348). -/
  | object
  /-- At its word, which has not issued: an `mgang` at its gang barrier (R362), or a `repar` that has taken no lock (R216). -/
  | barrier
  deriving DecidableEq, Repr

/-- What a BLOCKED process waits for: WKIND of Table 6.1. -/
inductive Wait where
  | none | send | recv | alt | pwait | waita | timed | join | gang | buffer | phase
  deriving DecidableEq, Repr

/-- Fault kinds, Table 8.2. -/
inductive Kind where
  | illegalInstr | misalignedPair | illegalOperand | unreadyOperand | powerBudget | priv | spaceInvalid | fatOverflow
  | pageFault | bufferState | peerNotResident | channelType | channelClosed | gangMismatch | gangTimeout | phaseOverrun
  | engineAbsent | migrationAbort | treeConflict | treeCapacity | uncorrectableData | coreLost | breakpoint | watch | trap
  deriving DecidableEq, Repr

/-- Delivery classes, R170. -/
inductive Cls where
  | p | c | d | a
  deriving DecidableEq, Repr

/-- The repetition state, Table 13.3. -/
structure Rep where
  active : Bool := false
  remain : Nat := 0
  b : Nat := 0
  sn : Nat := 0
  sv : Nat := 0
  pos : Nat := 0
  deriving DecidableEq, Repr

/-- The registers and slots a word reserved for the values its operation will deliver (R149, R150, R242). -/
structure Tgt where
  /-- The push count at each reservation, in push order. -/
  slots : List (BitVec 32) := []
  /-- Physical named registers, in value order. -/
  keeps : List (BitVec 5) := []
  /-- Physical vector registers, and the byte lanes the word writes. -/
  vregs : List (BitVec 5) := []
  vmask : BitVec 256 := 0
  /-- Tiles 0 to 7 and accumulators 8 to 11 of the core. -/
  mats : List Nat := []
  deriving DecidableEq, Repr

/-- A tile register: 16 rows, row r at bits [1024 r + 1023 : 1024 r], with its format tag (R361) and dirty flag (R156). -/
structure Tile where
  data : BitVec 16384 := 0
  tag : Option (BitVec 6) := none
  dirty : Bool := false
  deriving DecidableEq, Repr

/-- An accumulator tile: cell (row, col) at key 128 row + col, absent cells 0; dirty flag (R156, R229). -/
structure Acc where
  cells : NMap Cell576 := []
  dirty : Bool := false
  deriving DecidableEq, Repr

/-- What an operation delivers to its `Tgt` when it arrives. -/
structure Deliver where
  vals : List Word := []
  kept : List Word := []
  vecs : List VReg := []
  tiles : List Tile := []
  accs : List Acc := []
  flags : Word := 0
  deriving DecidableEq, Repr

/-- A 64 B fault record (Table 8.1), with the class, where it stands, and what its word reserved. -/
structure FRec where
  kind : Kind
  cls : Cls
  bword : Bool := false
  level : Nat := 0
  sub : Nat := 0
  inst : Nat := 0
  loc : Word := 0
  handle : Nat := 0
  other : W32 := 0
  addr : Word := 0
  time : Word := 0
  e5 : Word := 0
  e6 : Word := 0
  e7 : Word := 0
  fill : Tgt := {}
  txn : Nat := 0
  /-- The address of the record in the fault area. -/
  area : Nat := 0
  deriving DecidableEq, Repr

/-- What raises a record: its kind and kind-specific words (Tables 8.1 and 8.3). -/
structure Trap where
  kind : Kind
  sub : Nat := 0
  addr : Word := 0
  other : W32 := 0
  e5 : Word := 0
  e6 : Word := 0
  e7 : Word := 0
  /-- The partition and frame of an isolation event that firmware logs with it (R91). -/
  iso : Option (Nat × Nat) := none
  deriving DecidableEq, Repr

/-- Why a walk gives no page (R90, R91, R183): no valid leaf, a frame of another owner, or an entry whose line cannot be read. -/
inductive NoPage where
  | absent
  | foreign (frame : Nat)
  | damaged
  deriving DecidableEq, Repr

/-- The frame of another owner that a walk met: firmware logs it (R91). -/
def NoPage.frame : NoPage → Option Nat
  | .foreign f => some f
  | _ => none

/-- A fence of a process that still stands between an earlier and a later access (R187): the transaction number at its
issue. -/
structure FenceMark where
  kind : FenceKind
  scope : Scope
  stamp : Nat
  deriving DecidableEq, Repr

/-- The unit of an engine thread (R356). -/
structure ThreadOf where
  kind : ForkKind
  /-- The transaction of its `fork`. -/
  txn : Nat
  /-- The location of the `fork`. -/
  forkLoc : Word
  deriving DecidableEq, Repr

/-- A vector clock of the four dies (R192). -/
abbrev Clock := Vector Nat 4
def Clock.zero : Clock := Vector.replicate 4 0

/-- A process: its record (Table 6.1), the registers of Table 7.1, and what the scheduler keeps of it. An engine thread
(R356) has the same registers. -/
structure Proc where
  st : PState := .new
  /-- The state it held before it was stopped (R116). -/
  was : PState := .new
  prio : Nat := 0
  rated : Bool := false
  pinned : Bool := false
  cpyreg : Nat := 0
  gang : Nat := 0
  pc : Word := 0
  param : Word := 0
  index : Nat := 0
  inst : Nat := 0
  wkind : Wait := .none
  wobj : W32 := 0
  deadline : Word := 0
  schedBase : Word := 0
  schedLen : Nat := 0
  schedCur : Nat := 0
  flags : Word := 0
  dlmiss : Word := 0
  svc : Word := 0x2000
  regimg : Word := 0
  level : Nat := 0
  gmask : BitVec 8 := 0
  guards : Vector W32 8 := Vector.replicate 8 0
  persist : Vector Word 8 := Vector.replicate 8 0
  q : Vector Word 16 := Vector.replicate 16 0
  qPend : BitVec 16 := 0
  push : BitVec 32 := 0
  n : Vector Word 32 := Vector.replicate 32 0
  /-- Named registers marked pending, each with the transaction that will fill it (R150). -/
  nPend : List (BitVec 5 × Nat) := []
  /-- In-use vector registers; an absent one reads as 0 (R154). -/
  v : NMap VReg := []
  vPend : List (BitVec 5 × Nat) := []
  p : NMap PReg := []
  rmode : Word := 0
  rot : Word := 0
  heapoff : Word := 0
  accept : Word := 0
  compat : Word := 0
  watch0 : Word := 0
  watch1 : Word := 0
  tmo : Word := 0
  ptag : Word := 0
  rep : Rep := {}
  /-- Outstanding pending results, which the park of R151 counts. -/
  out : List Nat := []
  hold : Option Hold := none
  /-- An `exit` under way: it waits for the park of R306. -/
  exiting : Bool := false
  /-- The first cycle it may issue in after its last awaited result landed (R151). -/
  landed : Nat := 0
  /-- The `brk` it issues next acts as `nop` (R257). -/
  brkOnce : Bool := false
  /-- The `mgang` at its word whose barrier has opened, or the `repar` that has its first lock: the word issues at its next turn (R216,
  R362, R363). -/
  opened : Option Nat := none
  fences : List FenceMark := []
  /-- Cross-die messages that carry what its reads have returned, and those that its die must have applied before it accesses memory
  again: what happens-before it (R188, R189, R192). -/
  know : Clock := Clock.zero
  floor : Clock := Clock.zero
  /-- Reservation of `alt` (R131): the channel, and whether it holds the receive side. -/
  altRes : Option (Nat × Bool) := none
  /-- Records of class C that wait for the issuer's turn (R170). -/
  faults : List FRec := []
  /-- The record it stands FAULTED for. -/
  held : Option Nat := none
  /-- A handler instance: the record it was spawned with, until disposed of (R258). -/
  handles : Option Nat := none
  isHandler : Bool := false
  /-- Messages and room a firing has reserved, and what it has used of them (R114). -/
  firing : List (W32 × Nat) := []
  core : Nat := 0
  /-- It has taken a context once (R166 rule 1). -/
  started : Bool := false
  ctx : Option Nat := none
  engine : Option ThreadOf := none
  deriving DecidableEq, Repr

/-! ### Cores (R132, R133, R155 to R168) -/

/-- A barrel context: its running process and its standby slot (R132, R133). -/
structure Ctx where
  run : Option Nat := none
  standby : Option Nat := none
  loaded : Bool := false
  swapping : Bool := false
  /-- The image of the outgoing process is being written (R179). -/
  writing : Option Nat := none
  since : Nat := 0
  /-- Turns since its process was swapped in at which it issued or was PARKED (R134). -/
  turns : Nat := 0
  /-- The quantum is due: `yield` made it so, or the turns it has held the context (R134). -/
  due : Bool := false
  deriving DecidableEq, Repr

/-- States of a buffer or slot, Table 7.5. -/
inductive BState where
  | empty | filling | full | draining
  deriving DecidableEq, Repr

/-- A buffer descriptor, Table 7.5. -/
structure Buf where
  owner : Nat
  state : BState := .empty
  ring : Bool
  fills : Bool := false
  drains : Bool := false
  base : Nat
  size : Nat
  slot : Nat
  head : Nat := 0
  tail : Nat := 0
  free : Nat
  nslot : Nat
  landed : Nat := 0
  deriving DecidableEq, Repr

/-- A range scoreboard entry (R161). -/
structure SbEnt where
  txn : Nat
  lo : Nat
  len : Nat
  incoming : Bool
  /-- False for a transfer of another core into or out of this scratchpad: it drives buffers and takes no entry. -/
  own : Bool := true
  /-- A list, a route or a counter of a collective, which is no transfer into or out of a buffer (R355). -/
  quiet : Bool := false
  deriving DecidableEq, Repr

/-- States of a completion object (R168). -/
inductive ObjSt where
  | free | running | done | failed | replay
  deriving DecidableEq, Repr

/-- A completion object (R168, Table 16.1). -/
structure Obj where
  st : ObjSt := .free
  gen : Nat := 0
  issuer : Nat := 0
  txn : Nat := 0
  bytes : Nat := 0
  flags : Word := 0
  status : Word := 0
  deriving DecidableEq, Repr

/-- A TLB entry for one 64 KiB page (R92, R96): the page's entry as walked. -/
structure TlbEnt where
  part : Nat
  vpn : Nat
  frame : Nat
  w : Bool
  x : Bool
  ty : Nat
  pt : Bool
  /-- Physical address of the leaf entry. -/
  leaf : Nat
  /-- 64 KiB, 2 MiB or 1 GiB: log2 of the page's 64 KiB pages. -/
  large : Nat
  dirty : Bool := false
  deriving DecidableEq, Repr

/-- An operation retired into a side log (R94, R95): the transaction as it will be applied, and its page. -/
structure SideEnt where
  txn : Nat
  part : Nat
  vpn : Nat
  deriving DecidableEq, Repr

/-- The identity map: entry k is k, six bits an entry (R231). -/
def dmapIdentity : Vector Word 6 :=
  #v[0xA2481C61440C2040, 0x544D24503CE34C2C, 0x7DE75C6DA6585D65, 0xAA689E69648E2860, 0x74CF2C70BEEB6CAE, 0xFFEF7CEFAE78DF6D]

/-- A core (R146): what stays with it. -/
structure Core where
  ctxs : NMap Ctx := []
  /-- Ready queues by priority (R132). -/
  ready : NMap (List Nat) := []
  owner : Option Nat := none
  tiles : NMap Tile := []
  accs : NMap Acc := []
  /-- `ctl.dmap0` to `ctl.dmap5`; the cleared map is the identity (R231). -/
  dmap : Vector Word 6 := dmapIdentity
  /-- Tiles (0 to 7) and accumulators (8 to 11) marked pending or held, with the transaction. -/
  mPend : List (Nat × Nat) := []
  grant : Nat := 0
  free : Nat := 0
  bufs : NMap Buf := []
  sb : List SbEnt := []
  objs : NMap Obj := []
  tlb : List TlbEnt := []
  dirtyLog : List (Nat × Nat) := []
  sideLog : List SideEnt := []
  /-- The spare of the cluster stands in for it (R40). -/
  spare : Bool := false
  /-- Contexts that a `context` level gives one process alone (R118): the context and the process. -/
  resv : NMap Nat := []
  deriving DecidableEq, Repr

/-! ### Memory operations in flight -/

/-- The kind of access of a byte range, for faults and the ordering matrix (Table 8.3, Table 9.3). -/
inductive Acc5 where
  | load | store | atomic | reduction | fetch | engine
  deriving DecidableEq, Repr

/-- Where bytes lie after translation: a key of memory, window registers of a process, a register of space 0x7, or a
space 0x0 offset whose translation has failed so far (R94). -/
inductive Place where
  | mem (key : Nat)
  | virt (off : Nat)
  | win (proc off : Nat)
  | host7 (fn off : Nat)
  deriving DecidableEq, Repr

/-- One contiguous part of an access, with the address it was named by: space and offset. -/
structure Part8 where
  at_ : Place
  len : Nat
  va : Nat := 0
  deriving DecidableEq, Repr

/-- How a loaded value is made (R291). -/
inductive Ext where
  | zero (bytes : Nat)
  | sign (bytes : Nat)
  deriving DecidableEq, Repr

/-- Engine operations (R346 to R360). -/
inductive EngOp where
  | copy (dst src : Word) (len : Nat)
  | copyt (dst src desc : Word)
  | coll (desc : Word)
  | cmpr (dst src : Word) (len : Nat)
  | dcmp (dst src : Word) (cap : Nat)
  | fork (kind : ForkKind) (prog par : Word)
  | mig (page opts : Word)
  deriving DecidableEq, Repr

/-- What a transaction does when it is served. -/
inductive Op where
  /-- Pending core arithmetic, a schedule entry already read, and other values known at issue (R265, R274). -/
  | value (d : Deliver)
  | load (parts : List Part8) (e : Ext)
  | load2 (parts : List Part8)
  | sched (parts : List Part8) (addr : Word)
  /-- Vector loads and gathers (R328 to R331): byte lanes and the old register. -/
  | vload (lanes : List (Nat × Part8)) (old : VReg)
  /-- `vldb` (R330): the parts and the form in which they decode. -/
  | vldb (parts : List Part8) (code : Nat) (old : VReg) (pred : PReg)
  | tld (rows : List Part8) (code : BitVec 6)
  | store (parts : List Part8) (bytes : List Byte)
  /-- A read by another module (R193). -/
  | fabRead (parts : List Part8)
  | red (op : AtomOp) (parts : List Part8) (v : Word)
  | redx (int : Bool) (parts : List Part8) (v : Word)
  | atom (op : AtomOp) (parts : List Part8) (v : Word)
  | cas (wide : Bool) (parts : List Part8) (expect new : Word)
  | waita (wide : Bool) (parts : List Part8) (expect : Word)
  | wake (sc : Scope) (parts : List Part8) (n : Nat)
  | arrive (slot dest : Nat)
  | phaseLoad (module part slot count : Nat)
  | spawn (index : Nat) (param : Word) (handle : Nat)
  | send (chan : Nat) (bytes : List Byte)
  | recv (chan : Nat)
  | sendt (chan : Nat) (spad : Nat)
  | recvt (chan : Nat) (spad : Nat)
  | alt
  /-- An `altg` or `yield`: what stands before it is performed before what stands after it (R323). -/
  | order
  | chopen (ty depth : Nat)
  | bqueryW (buf : Nat)
  | chbind (chan : Nat) (parts : List Part8)
  | chinfo (chan : Nat)
  | chclose (chan : Nat) (rx : Bool)
  | enrol (node parent : Nat) (base len : Word) (reserved : Bool)
  | unenrol (node : Nat) (range : Option (Word × Word))
  | settle (node : Nat)
  | chgrd (node : Nat)
  | chgcmp (node : Nat) (snap : Word)
  | repar (node parent : Nat)
  | shoot (vpn : Nat) (deny : Bool)
  | harvest
  | join (core obj gen : Nat)
  /-- An `mgang` (R362); its reads of B in scratchpad are loads of the issuer (R364). -/
  | mgang (ab n : Nat) (ta : Nat) (tile : Option Nat) (rp desc : Word) (zero : Bool) (map : List Nat) (dp : Nat) (reads : List Part8)
  | mrest (ab cnt : Nat) (addr : Word)
  /-- The status of an `mdrain` (R366): the stores it waits for, and its flags. -/
  | mdrain (stores : List Nat) (flags : Word)
  | eng (core obj : Nat) (op : EngOp)
  deriving DecidableEq, Repr

/-- Progress of a transaction. -/
inductive Stage where
  /-- Not yet served at its home, walker or unit. -/
  | sent
  /-- Served: its values travel back. -/
  | back (d : Deliver)
  /-- Ended by a fault that its arrival reports (R170 class C). -/
  | failed (r : FRec)
  /-- In a side log (R94). -/
  | logged
  /-- Held on an unmapped page until its shoot-down (R93, R95). -/
  | heldPage (vpn : Nat)
  /-- Waits at its barrier, walker lock or partner (R130, R215, R363). -/
  | waiting
  /-- A replay entry: nothing of it happens until it is issued again (R79 to R81). What has been applied or has landed already
  keeps its values: the cached reply of an atomic. -/
  | replay (d : Option Deliver)
  deriving DecidableEq, Repr

/-- A transaction: an access, channel operation, tree request or engine operation that has issued and is not complete
(R79, R167, R198). -/
structure Txn where
  issuer : Nat
  core : Nat
  part : Nat
  inst : Nat
  loc : Word
  op : Op
  tgt : Tgt := {}
  stage : Stage := .sent
  /-- The issue cycle and the service word at issue (R107). -/
  issued : Nat := 0
  svc : Word := 0
  ptag : Word := 0
  /-- The cycle at which an unloaded machine serves or returns it (Table 7.2). -/
  due : Nat := 0
  /-- The cross-die messages that happen before its effect, or that whoever observes it must have applied (R192, R198 to R201, R205). -/
  clock : Clock := Clock.zero
  /-- The write message to another die (R192), or the flits to another module (R33), have been sent. -/
  away : Bool := false
  /-- `ctl.compat.SCA16` of the issuer at issue (R184, R185). -/
  sca : Bool := false
  /-- The single-copy atomic parts that have been served, and the bytes that a read in parts has returned (R184). -/
  unitsDone : List Nat := []
  got : NMap Byte := []
  /-- An access of another module: the module, its partition, and the number of the access there (R193, R204, R288). -/
  far : Option (Nat × Nat × Nat) := none
  /-- The deadline of a timed form. -/
  deadline : Option Word := none
  /-- It holds a power token (R157). -/
  token : Bool := false
  /-- Progress in bytes or items (R80). -/
  progress : Nat := 0
  /-- Engine working state, by operation. -/
  work : List Nat := []
  /-- Slices whose marker has arrived (R214), or locks taken (R215). -/
  marks : List Nat := []
  /-- A page type that orders it (R197): 0 normal, 1 write-combining, 2 device, 3 strongly-ordered. -/
  ptype : Nat := 0
  bword : Bool := false
  /-- `ctl.heapoff` of the issuer at issue, for an engine's accesses (R98). -/
  heapoff : Word := 0
  /-- The other side of a matched transfer, whether its ranges are taken, and the bytes of a buffered message (R128, R310). -/
  partner : Option Nat := none
  started : Bool := false
  /-- Processes whose register windows it writes, counted in their CPYREG (R166). -/
  regs : List Nat := []
  data : List Byte := []
  /-- A vector or tile access, which consists of aligned parts (R184). -/
  wide : Bool := false
  /-- The stores of one tagged word: its arrival follows the last of them (R244). -/
  kin : List Nat := []
  /-- A read that was held on a page and has not been tried again since the page's shoot-down (R93). -/
  retry : Bool := false
  /-- The process, the run of it or the firing that issued it has ended (R173, R306). -/
  left : Bool := false
  /-- Its issuer is BLOCKED on it, from its issue on or since HOME found nothing for it (R128, R129, R131). -/
  blocks : Bool := false
  deriving DecidableEq, Repr

/-- A cross-die message (R192): an update that a home die sent, with the bytes it replaced for dies that have not applied it, or
a write on its way to its home (`new` empty here: its bytes are its transaction's). -/
structure XMsg where
  src : Nat
  tag : Clock
  key : Nat
  old : List Byte
  new : List Byte
  issuer : Nat
  waiting : List Nat
  due : Nat
  /-- The process or engine operation whose write it is, and its transaction. -/
  proc : Nat := 0
  txn : Nat := 0
  /-- Dies on which an atomic or a wait has returned this write ahead of its message (R190, R191). -/
  seen : List Nat := []
  /-- The other reductions that were merged with it: issuers and transactions (R202). -/
  also : List (Nat × Nat) := []
  /-- A write to a strongly-ordered page (R197). -/
  strong : Bool := false
  deriving DecidableEq, Repr

/-- An arm of the monitor table (R300, R301): doubleword key, waiter, transaction. -/
structure Arm where
  key : Nat
  proc : Nat
  txn : Nat
  /-- Its place in the order of arming (R302). -/
  order : Nat := 0
  deriving DecidableEq, Repr

/-- A phase arrival sent to another module and not answered (R140, R379): the process and the location of its word, and where it went. -/
structure FarArrival where
  proc : Nat
  loc : Word
  bword : Bool := false
  module : Nat
  part : Nat
  deriving DecidableEq, Repr

/-! ### Channels, phases, networks -/

/-- A channel entry (Table 6.7), with what its agent keeps of it (R126 to R131, R314). -/
structure Chan where
  ty : Nat
  depth : Nat
  bkind : Nat := 0
  txopen : Bool := true
  rxopen : Bool := true
  head : Nat := 0
  tail : Nat := 0
  rxproc : Nat := 0
  module : Nat := 0
  rpart : Nat := 0
  home : Nat := 0
  buf : Word := 0
  /-- Buffered messages with their senders, oldest first, in the slots from HEAD on. -/
  msgs : List (Nat × List Byte) := []
  /-- Blocked senders and the blocked receiver, as transactions in their order. -/
  sendq : List Nat := []
  recvq : List Nat := []
  /-- Operations on their way to HOME, in order. -/
  flight : List Nat := []
  /-- Memory endpoint, engine, host queue or remote channel words (R106). -/
  ep : Vector Word 4 := Vector.replicate 4 0
  /-- Bytes the cursor stands from BASE and messages since it stood there (R106). -/
  cursor : Nat := 0
  count : Nat := 0
  /-- Messages have come in through a Buneam port: senders of another module use it (R36). -/
  fed : Bool := false
  /-- Holders of the send end that have not closed it. -/
  holders : List Nat := []
  /-- Slots reserved for a transfer that has matched and not landed, and by `alt` or a firing. -/
  resvTx : List Nat := []
  resvRx : List Nat := []
  /-- What happens before the messages sent so far (R199). -/
  clock : Clock := Clock.zero
  deriving DecidableEq, Repr

/-- A phase slot (R140 to R142). -/
structure Phase where
  holder : Nat
  dests : List PDest
  /-- Processes blocked in `pwait` or `phase`. -/
  waiters : List (Nat × Bool) := []
  /-- What happens before the arrivals counted (R200). -/
  clock : Clock := Clock.zero
  /-- An arrival of another module was counted in this round: its return acquires at `.fab` (R200). -/
  far : Bool := false
  deriving DecidableEq, Repr

/-- Where an entry of a host queue that started an instance stands, with its patch (R56). -/
structure Waiting where
  entry : EntryRef
  patch : List (Nat × Word)
  block : Option (List Word) := none
  place : List Nat := []
  mgr : Bool := false
  deriving DecidableEq, Repr

/-- A network object (R55, R56, R119). -/
structure NetObj where
  part : Nat
  img : NetImage
  codeVa : Nat
  roVa : Nat := 0
  dataVa : Nat
  /-- Channel numbers of its channel section, in order. -/
  chans : List Nat
  /-- Type indices of its `.type` directives (R124). -/
  tys : List Nat
  /-- The next instance's parameter block. -/
  block : List Word
  /-- What NETLOAD reserves for its instances: fault area, report area and parameter block, by virtual address and physical pages
  (R119, R144, R169). -/
  area : Nat := 0
  frames : List Nat := []
  running : Option Nat := none
  waiting : List Waiting := []
  deriving DecidableEq, Repr

/-- A network instance. -/
structure Inst where
  part : Nat
  obj : Nat
  mgr : Bool := false
  entry : Option EntryRef := none
  flagWord : Word := 0
  block : List Word := []
  blockVa : Nat := 0
  heapBase : Nat := 0
  heapLim : Nat := 0
  handlers : List Nat := []
  /-- Records that wait for a handler (R172). -/
  queue : List Nat := []
  /-- The fault area: virtual and physical address, and the number of records written; and the physical pages of the fault area, the
  report area and the parameter block. -/
  area : Nat := 0
  areaPa : Nat := 0
  frames : List Nat := []
  written : Nat := 0
  report : Nat := 0
  reported : Bool := false
  /-- The core-relative offset of its `.spad` image, and the cores that hold a copy (R370). -/
  spadBase : Nat := 0
  spadCores : List Nat := []
  tokens : List (Nat × Nat) := []
  slots : List Nat := []
  killed : Bool := false
  stopped : Bool := false
  deriving DecidableEq, Repr

/-- Gang states, Table 6.5. -/
inductive GangSt where
  | forming | running | saved
  deriving DecidableEq, Repr

/-- A gang: its members in `.gang` order (R121). -/
structure Gang where
  part : Nat
  cluster : Nat
  members : List Nat
  st : GangSt := .forming
  /-- Position in the order of waiting. -/
  order : Nat := 0
  /-- The `mgang`s at the barrier in their order of issue: core and transaction (R363). -/
  barrier : List (Nat × Nat) := []
  deriving DecidableEq, Repr

/-! ### Partitions -/

/-- The budget record, Table 4.1, after the Reset column is applied; the type table it names is given with it. -/
structure Budget where
  hbmq : Nat := 0
  t1q : Nat := 0
  t2q : Nat := 0
  bwrt : Nat := 0
  bwint : Nat := 0
  bwbulk : Nat := 0
  bwbg : Nat := 0
  slice : Nat := 1000
  tokens : Nat := 0
  tokcore : Nat := 4
  cmprmask : BitVec 16 := 0
  collmask : BitVec 16 := 0
  copymask : BitVec 32 := 0
  types : Nat := 0
  qbudget : Nat := 20
  detred : Bool := false
  keyslot : Nat := 0
  berylmask : BitVec 4 := 0
  typeTable : List Word := []
  vtoff : Word := 0
  vtscale : Word := 0x100000000
  vtbase : Word := 0
  vtfloor : Word := 0
  reservedZero : Bool := true
  deriving DecidableEq, Repr

/-- A node of the containment tree, Table 10.1. -/
structure Node where
  parent : Nat := 0
  live : Bool := false
  lock : Bool := false
  depth : Nat := 0
  count : Word := 0
  nchild : Nat := 0
  ngran : Nat := 0
  deriving DecidableEq, Repr

/-- Metadata of a granule, Table 10.2. -/
structure Gran where
  part : Nat
  node : Nat
  enr : Bool := true
  pend : Bool := false
  count : W32 := 0
  deriving DecidableEq, Repr

/-- A roll-up token on its way (R212): the node it will be counted at, its weight, and the granule whose PEND it clears. -/
structure Token where
  part : Nat
  node : Nat
  weight : Nat
  gran : Option Nat := none
  due : Nat := 0
  /-- The clock of the die that sent it (R213). -/
  clock : Clock := Clock.zero
  deriving DecidableEq, Repr

/-- States of a page motion, Table 5.6; a queued request has not begun. -/
inductive MotSt where
  | queued | copying | forwarding
  deriving DecidableEq, Repr

/-- A page motion (R101 to R103). -/
structure Motion where
  part : Nat
  vpn : Nat
  src : Nat := 0
  dst : Nat := 0
  leaf : Nat := 0
  st : MotSt := .queued
  /-- Lines copied: bit i for line i. -/
  bitmap : BitVec 512 := 0
  /-- The `mig` transaction that asked for it; none for a policy move. -/
  txn : Option Nat := none
  tier : Nat := 0
  stack : Nat := 0
  any : Bool := false
  due : Nat := 0
  /-- The beryl engine that runs it, by die, and the cycle at which it entered COPYING (R68, R103). -/
  eng : Nat := 0
  began : Nat := 0
  /-- Background class, no deadline (R107). -/
  svc : Word := 0x3000
  deriving DecidableEq, Repr

/-- Why a partition is being stopped (R79). -/
inductive Stop where
  | slice | preempt (e : EntryRef) | save (e : EntryRef) | migrate (e : EntryRef) (ok : Bool)
  deriving DecidableEq, Repr

/-- A stop under way: its reason, the processes, the time of step 1 and whether the save stream runs (R79, R84). -/
structure Quies where
  why : Stop
  /-- The one instance that is stopped; none for the whole partition. -/
  inst : Option Nat := none
  procs : List Nat
  since : Nat
  /-- The virtual time at which issue stopped (R75). -/
  time : Word := 0
  saving : Bool := false
  saveAt : Nat := 0
  late : Bool := false
  deriving DecidableEq, Repr

/-- What a save image holds of one core (R83): its registers, buffers, scoreboard, objects, map, contexts and queues (TLB and logs
left out), and its scratchpad. -/
structure CoreImg where
  core : Nat
  k : Core := {}
  /-- The scratchpad, as cells of memory. -/
  spad : List Host.Cell := []
  /-- Where the save area holds it: its place in the image, and where its tile registers and its scratchpad begin in that mebibyte (R82,
  R180). What stands there is what a restore reads. -/
  area : Option (Nat × Nat × Nat) := none
  deriving DecidableEq, Repr

/-- A save image (R82, R83, R180): header, cores, processes and replay entries (as transactions to be issued again). -/
structure SaveImg where
  version : Nat := 1
  romRev : BitVec 16
  part : Nat
  inst : Option Nat := none
  cores : List CoreImg
  /-- Matrix sets that a PREEMPT took out of cores before (R83). -/
  held : List CoreImg := []
  procs : NMap Proc
  replay : NMap Txn
  phases : NMap Phase
  deriving DecidableEq, Repr

/-- What a migration carries of what a partition runs (R86): its image, its instances with their network objects, gangs, channels and fault
records, and the number of identifiers and of transactions that its module has given out. -/
structure MovedRun where
  img : SaveImg
  insts : NMap Inst := []
  objs : NMap NetObj := []
  gangs : NMap Gang := []
  chans : NMap Chan := []
  recs : NMap FRec := []
  managed : List Nat := []
  ids : Nat := 0
  txns : Nat := 0
  /-- The virtual pages with the pages that held them, and pages that no virtual page names: heaps, and those of enrolled granules. -/
  frames : List (Nat × Nat) := []
  loose : List Nat := []
  /-- The bytes of those, by physical address, and of channel slots; and the granules of those, by physical address in units of 4 KiB. -/
  bytes : List Host.Cell := []
  grans : List MovedGran := []
  deriving DecidableEq, Repr

end Sys2Proof.Machine
end

