-- ==== Sys2Proof/Syntax.lean ====
section
/-! DEFINITION. The syntax of the J9: one constructor of `Instr` for each row of spec/opcode_table.json. The rows with
words are instructions (R239, Table 12.11); the others are the part's events, whose arguments name the object the event is
about and what the world outside the module supplies with it. The `L` and `S` bits of a word (R233) are not part of an
instruction: they stand in `Slot`. -/

namespace Sys2Proof

/-- What a Buneam flit carries, as far as this module acts on it (R33, R141, R193, R379, R311). -/
inductive FabMsg where
  /-- A load, store, reduction, atomic or compare-and-swap of another module, at space 0x0 offset `off` of partition `part`: from
  module `src`, partition `srcPart`, access `txn` there (R193, R204, R211, R288). A load or store says whether it is a vector or tile access, and
  whether the J7 rule governs it (R184). -/
  | read (part off len src srcPart txn : Nat) (wide sca : Bool)
  | write (part off : Nat) (bytes : List Byte) (src srcPart txn : Nat) (wide sca : Bool)
  | red (op : AtomOp) (part off v src srcPart txn : Nat)
  | redx (int : Bool) (part off : Nat) (v : Word) (src srcPart txn : Nat)
  | atom (op : AtomOp) (part off v src srcPart txn : Nat)
  | cas (wide : Bool) (part off expect new src srcPart txn : Nat)
  /-- A phase arrival for a local counter, number `n` of module `src` (R141, R379). -/
  | arrival (part slot src srcPart n : Nat)
  /-- A phase load for a local counter (R379). -/
  | phaseLoad (part slot count src srcPart : Nat)
  /-- A message sent on a local channel by a remote sender, with the module, partition and transaction that wait for the
  match, and the deadline of a timed send (R311). -/
  | chanSend (part chan src srcPart txn : Nat) (bytes : List Byte) (deadline : Option Word)
  /-- The reply of a remote load or atomic, with the bytes it read: it completes access `txn` (R204, R288). -/
  | reply (txn : Nat) (bytes : List Byte)
  /-- A remote translation fault of access `txn` (R288). -/
  | replyFault (txn : Nat)
  /-- Access `txn` met data that cannot be corrected (R31, R41, R183). -/
  | replyBad (txn : Nat)
  /-- The target has applied write `txn` (R193); a floating reduction's flags come with it (R296). -/
  | ack (txn : Nat) (flags : Word)
  /-- Arrival `n` was counted, or found its counter at zero or no instance that qualifies (R140, R379). -/
  | counted (n : Nat)
  | overrun (n : Nat)
  /-- A partition that migrates from partition `srcPart` of module `src`: its pages by virtual page with the top nine bits of their entries, their bytes
  by virtual address, its save image, what it runs, its tree, and its time registers (R75, R86, R216). -/
  | moved (part src srcPart : Nat) (pages : List (Nat × Nat)) (bytes image : List (Nat × Byte)) (run : Machine.MovedRun)
      (nodes : List MovedNode) (grans : List MovedGran) (base scale off floor : Word)
  /-- An IEEE 1588 event message in a control flit (R76). -/
  | ptp
  /-- Anything else. -/
  | other
  deriving DecidableEq, Repr

/-- A received Buneam flit (Table 2.4), the message that its payload is part of, and the results of its two checks: CRC-16, and the
AES-256-GCM tag under the key of its slot (R35). -/
structure Flit where
  hdr : W32 := 0
  seq : BitVec 16
  crc : BitVec 16 := 0
  mac : Word := 0
  payload : List Byte := []
  crcOk : Bool
  macOk : Bool
  msg : FabMsg
  deriving DecidableEq, Repr

/-- The causes of a migration abort (Table 5.7). -/
inductive AbortCause where
  | destError | cxlLoss | budget | cancel | stopped
  deriving DecidableEq, Repr

/-- How a memory access is served in an event (R42, R43, R184, R202): whole; some of its single-copy atomic parts alone; a reduction
together with others that wait for the same address, with the residue check matching or not; or a read in which an error
is detected that the check of its memory cannot correct. -/
inductive ServeHow where
  | whole
  | units (l : List Nat)
  | merged (others : List Nat) (residueOk : Bool)
  | damaged
  deriving DecidableEq, Repr

/-- A memory access that is served in an event, and how it is served. -/
structure Service where
  txn : Nat
  how : ServeHow
  deriving DecidableEq, Repr

/-- What a `netload` event says: its entry, and the record that the entry's bytes are read as. -/
structure Loading where
  entry : EntryRef
  image : NetImage
  deriving DecidableEq, Repr

/-- What a memory `keyset` event says: its entry, and the key that the wrapped bytes hold (none where they are not good). -/
structure MemKeying where
  entry : EntryRef
  key : Option Nat
  deriving DecidableEq, Repr

/-- What a Buneam `keyset` event says: its entry, the key, the far module and partition, and the session that carries the key. -/
structure LinkKeying where
  entry : EntryRef
  key : Nat
  module : Nat
  remotePart : Nat
  session : Nat
  deriving DecidableEq, Repr

/-- What a reset says: whether it is a cold one, the cores whose self-check fails, and the CXL ports whose device lacks a feature. -/
structure Restarting where
  cold : Bool
  bad : List Nat
  absent : List Nat
  deriving DecidableEq, Repr

/-- What a PTP event message says: its port, and what the clock servo makes of its stamp: a rate, a step and the lock state. -/
structure ClockServo where
  port : Nat
  ppb : Int
  step : Int
  lock : Bool
  deriving DecidableEq, Repr

/-- A Buneam port and the SPDM session that its key comes from. -/
structure LinkSession where
  port : Nat
  session : Nat
  deriving DecidableEq, Repr

/-- One constructor per row of spec/opcode_table.json: the rows with words first, then the rows that are events. -/
inductive Instr where
  -- instructions: system (Table 13.4)
  | trap (x : Src) (n : BitVec 6)
  | brk
  | eret (x : Src) (d : Disp)
  | ctlr (c : Ctl) (k : Keep)
  | ctlw (c : Ctl) (x : Src)
  | shootDown (x : Src)
  | shootDownDeny (x : Src)
  | idle
  | pwrq (k : Keep)
  | harvest (k : Keep)
  -- control transfer
  | br (d : BitVec 18)
  | bc (c : Cond) (d : BitVec 18)
  | call (d : BitVec 18)
  | calli (x : Src)
  | jmpi (x : Src)
  | ret (x : Src)
  | loop (r : BitVec 5) (d : BitVec 17)
  | rep (x : Src) (b sn sv : BitVec 4)
  | sched (k : Keep)
  | nop
  -- memory
  | ld (t : LdTy) (b : Src) (k : Keep) (d : BitVec 11)
  | ld128 (b : Src) (d : BitVec 11)
  | st (t : StTy) (b y : Src) (d : BitVec 11)
  | prfR (b : Src) (d : BitVec 11)
  | prfW (b : Src) (d : BitVec 11)
  | ldx (t : LdxTy) (x y : Src) (k : Keep)
  | stx (t : StTy) (x y z : Src)
  | tld (t : BitVec 3) (x y : Src)
  | tst (t : BitVec 3) (x y : Src)
  | vld (half : Bool) (vd : BitVec 5) (x : Src) (p : BitVec 3)
  | vst (half : Bool) (vd : BitVec 5) (x : Src) (p : BitVec 3)
  | vldb (vd : BitVec 5) (x : Src) (p : BitVec 3)
  | vgat32 (vd : BitVec 5) (x : Src) (vb : BitVec 5)
  | vgat16 (vd : BitVec 5) (x : Src) (vb : BitVec 5)
  | vsca32 (vd : BitVec 5) (x : Src) (vb : BitVec 5)
  | vsca16 (vd : BitVec 5) (x : Src) (vb : BitVec 5)
  | atom (op : AtomOp) (x y : Src) (k : Keep)
  | atomCas (wide : Bool) (x y z : Src)
  | red (op : AtomOp) (x y : Src)
  | redx (int : Bool) (x y : Src)
  | fence (k : FenceKind) (s : Scope)
  | waita (wide : Bool) (x y : Src) (k : Keep)
  | wake (s : Scope) (x y : Src)
  | phase (t : BitVec 4)
  | arrive (t : BitVec 4) (d : BitVec 3)
  | pwait (t : BitVec 4)
  | time (k : Keep)
  | waitt (x : Src)
  -- processes and channels
  | spawn (x y : Src) (k : Keep)
  | exit
  | yield
  | send (x y : Src)
  | sendT (x y : Src) (k : Keep)
  | recv (x : Src) (k : Keep)
  | recvT (x : Src) (k : Keep)
  | sendt (x y : Src)
  | sendtT (x y : Src) (k : Keep)
  | recvt (x y : Src)
  | recvtT (x y : Src) (k : Keep)
  | altg (g : BitVec 3) (x : Src)
  | alt (k : Keep)
  | altT (k : Keep)
  | chopen (x y : Src) (k : Keep)
  | chclose (x : Src)
  | chinfo (x : Src) (k : Keep)
  | chbind (x y : Src) (k : Keep)
  -- the tree
  | enrol (x y : Src) (j : BitVec 5)
  | unenrol (x : Src) (z : RangeSrc)
  | settle (x : Src) (k : Keep)
  | chgrd (x : Src) (k : Keep)
  | chgcmp (x y : Src) (k : Keep)
  | repar (x y : Src) (k : Keep)
  -- engines
  | copy (x y z : Src)
  | copyt (x y z : Src)
  | coll (x : Src)
  | cmpr (x y z : Src)
  | dcmp (x y z : Src)
  | fork (x y : Src) (e : ForkKind)
  | join (x : Src) (k : Keep)
  | migMove (x y : Src)
  | migCancel (x y : Src)
  | migPinSet (x y : Src)
  | migPinClear (x y : Src)
  | migTakePage (x y : Src)
  | migReturnPage (x y : Src)
  | hot (x : Src) (k : Keep)
  | bdeclLin (x y : Src)
  | bdeclRing (x y z : Src)
  | bstateOpen (x : Src)
  | bstateSeal (x : Src)
  | bstateRel (x : Src)
  | bquery (x : Src) (k : Keep)
  | bqueryW (x : Src) (k : Keep)
  -- integer
  | add (x y : Src) (k : Keep)
  | sub (x y : Src) (k : Keep)
  | mul (x y : Src) (k : Keep)
  | mulhI64 (x y : Src) (k : Keep)
  | mulhN64 (x y : Src) (k : Keep)
  | divI64 (x y : Src) (k : Keep)
  | divN64 (x y : Src) (k : Keep)
  | remI64 (x y : Src) (k : Keep)
  | remN64 (x y : Src) (k : Keep)
  | minI64 (x y : Src) (k : Keep)
  | minN64 (x y : Src) (k : Keep)
  | maxI64 (x y : Src) (k : Keep)
  | maxN64 (x y : Src) (k : Keep)
  | cmpI64 (x y : Src) (k : Keep)
  | cmpN64 (x y : Src) (k : Keep)
  | and (x y : Src) (k : Keep)
  | or (x y : Src) (k : Keep)
  | xor (x y : Src) (k : Keep)
  | andn (x y : Src) (k : Keep)
  | shl (x y : Src) (k : Keep)
  | shr (x y : Src) (k : Keep)
  | sar (x y : Src) (k : Keep)
  | rol (x y : Src) (k : Keep)
  | sel (x y : Src) (k : Keep)
  | neg (x : Src) (k : Keep)
  | abs (x : Src) (k : Keep)
  | not (x : Src) (k : Keep)
  | clz (x : Src) (k : Keep)
  | ctz (x : Src) (k : Keep)
  | popc (x : Src) (k : Keep)
  | li (i : BitVec 17) (k : Keep)
  | lih (x : Src) (i : BitVec 11) (k : Keep)
  | sext (x : Src) (w : BitVec 11) (k : Keep)
  | zext (x : Src) (w : BitVec 11) (k : Keep)
  | bext (x : Src) (w : BitVec 5) (lo : BitVec 6) (k : Keep)
  | addi (x : Src) (i : BitVec 11) (k : Keep)
  | bins (x : Src) (w : BitVec 5) (lo : BitVec 6) (k : Keep)
  -- pointers
  | addpImm (x : Src) (i : BitVec 11) (k : Keep)
  | addp (x y : Src) (k : Keep)
  | fmtp (x y : Src) (k : Keep)
  | peer (x y : Src) (k : Keep)
  | ptrq (x y : Src) (k : Keep)
  -- scalar float; `dbl` selects binary64
  | fadd (dbl : Bool) (x y : Src) (k : Keep) (r : Rm)
  | fsub (dbl : Bool) (x y : Src) (k : Keep) (r : Rm)
  | fmul (dbl : Bool) (x y : Src) (k : Keep) (r : Rm)
  | fma (dbl : Bool) (x y : Src) (kr : BitVec 5) (r : Rm)
  | fdiv (dbl : Bool) (x y : Src) (k : Keep) (r : Rm)
  | fsqrt (dbl : Bool) (x : Src) (k : Keep) (r : Rm)
  | frint (dbl : Bool) (x : Src) (k : Keep) (r : Rm)
  | fins (dbl : Bool) (x y : Src) (k : Keep) (r : Rm)
  | fmin (dbl : Bool) (x y : Src) (k : Keep)
  | fmax (dbl : Bool) (x y : Src) (k : Keep)
  | fabs (dbl : Bool) (x : Src) (k : Keep)
  | fneg (dbl : Bool) (x : Src) (k : Keep)
  | fcmp (dbl : Bool) (x y : Src) (k : Keep)
  | fclass (dbl : Bool) (x : Src) (k : Keep)
  | fexf (dbl : Bool) (x : Src) (k : Keep)
  | fcvt (src dst : CTy) (x : Src) (k : Keep) (r : Rm)
  -- vector
  | vadd (t : VTy) (vd va vb : BitVec 5) (p : BitVec 3)
  | vsub (t : VTy) (vd va vb : BitVec 5) (p : BitVec 3)
  | vmul (t : VTy) (vd va vb : BitVec 5) (p : BitVec 3)
  | vmin (t : VTy) (vd va vb : BitVec 5) (p : BitVec 3)
  | vmax (t : VTy) (vd va vb : BitVec 5) (p : BitVec 3)
  | vfmaF32 (vd va vb vc : BitVec 5) (p : BitVec 3)
  | vfmsF32 (vd va vb vc : BitVec 5) (p : BitVec 3)
  | vfmaBf16 (vd va vb vc : BitVec 5) (p : BitVec 3)
  | vfmsBf16 (vd va vb vc : BitVec 5) (p : BitVec 3)
  | vfmaF16 (vd va vb vc : BitVec 5) (p : BitVec 3)
  | vfmsF16 (vd va vb vc : BitVec 5) (p : BitVec 3)
  | vabs (t : VTy) (vd va : BitVec 5) (p : BitVec 3)
  | vneg (t : VTy) (vd va : BitVec 5) (p : BitVec 3)
  | vfrint (t : VTy) (vd va : BitVec 5) (p : BitVec 3)
  | vfexf (t : VTy) (vd va : BitVec 5) (p : BitVec 3)
  | vrcp (t : VTy) (vd va : BitVec 5) (p : BitVec 3)
  | vrsq (t : VTy) (vd va : BitVec 5) (p : BitVec 3)
  | vfclass (t : VTy) (vd va : BitVec 5) (p : BitVec 3)
  | vpopc (t : VTy) (vd va : BitVec 5) (p : BitVec 3)
  | vmov (half : Bool) (vd va : BitVec 5) (p : BitVec 3)
  | vand (vd va vb : BitVec 5) (p : BitVec 3)
  | vor (vd va vb : BitVec 5) (p : BitVec 3)
  | vxor (vd va vb : BitVec 5) (p : BitVec 3)
  | vshl32 (vd va vb : BitVec 5) (p : BitVec 3)
  | vshl16 (vd va vb : BitVec 5) (p : BitVec 3)
  | vshr32 (vd va vb : BitVec 5) (p : BitVec 3)
  | vshr16 (vd va vb : BitVec 5) (p : BitVec 3)
  | vsar32 (vd va vb : BitVec 5) (p : BitVec 3)
  | vsar16 (vd va vb : BitVec 5) (p : BitVec 3)
  | vcmp (c : VCond) (t : VTy) (pd : BitVec 3) (va vb : BitVec 5) (p : BitVec 3)
  | vsel (half : Bool) (vd va vb : BitVec 5) (p : BitVec 3)
  | vcvt (src dst : VTy) (vd va : BitVec 5) (p : BitVec 3)
  | vfins (t : VTy) (vd va vb : BitVec 5) (p : BitVec 3)
  | vredadd (t : VTy) (vd va : BitVec 5) (p : BitVec 3)
  | vredmin (t : VTy) (vd va : BitVec 5) (p : BitVec 3)
  | vredmax (t : VTy) (vd va : BitVec 5) (p : BitVec 3)
  | vredx (vd va : BitVec 5) (p : BitVec 3)
  | vperm (half : Bool) (vd va vb : BitVec 5) (p : BitVec 3)
  | vzip (half : Bool) (vd va vb : BitVec 5) (p : BitVec 3)
  | vunzip (half : Bool) (vd va vb : BitVec 5) (p : BitVec 3)
  | vslideup (half : Bool) (vd va n : BitVec 5) (p : BitVec 3)
  | vslidedn (half : Bool) (vd va n : BitVec 5) (p : BitVec 3)
  | vbcast (half : Bool) (vd k : BitVec 5) (p : BitVec 3)
  | pand (pd pa pb : BitVec 3)
  | por (pd pa pb : BitVec 3)
  | pnot (pd pa : BitVec 3)
  -- matrix; `ac` counts 1, 2 or 4 tiles as codes 0, 1, 2
  | mgang (ab ac : BitVec 2) (ta : BitVec 3) (b : MgangB) (nr : BitVec 5) (zero : Bool)
  | mzero (ab ac : BitVec 2)
  | mdup (ab ac : BitVec 2) (as : BitVec 2)
  | mstat
  | mrest (ab ac : BitVec 2) (dp : BitVec 4)
  | mdrain (ab ac : BitVec 2) (dp : BitVec 4) (nr : BitVec 5) (r : Rm)
  | vsplit (vd va k : BitVec 5) (p : BitVec 3)
  | vqnt (f : BlkFmt) (vd va : BitVec 5) (p : BitVec 3)
  | vdqnt (f : BlkFmt) (vd va : BitVec 5) (p : BitVec 3)
  | nopB
  -- a word that is no instruction (R239)
  | encodingNotInstruction (w : W32)
  -- host writes and the queue mapper (R49 to R51)
  | notifyWrite (fn q : Nat) (v : BitVec 64)
  | queueEnable (fn q : Nat) (w1 : BitVec 64)
  | queueDisable (fn q : Nat)
  | hostRegisterWrite (fn off : Nat) (v : BitVec 64)
  | queueSlotRelease (slot : Nat)
  | queueSlotBind (slot : Nat)
  -- commands (R54): the entry that firmware executes
  | partcreate (e : EntryRef)
  | partsplit (e : EntryRef)
  | partdestroy (e : EntryRef)
  | netload (v : Loading)
  | launch (e : EntryRef) (place : List Nat)
  | replay (e : EntryRef) (place : List Nat)
  | signalHostQueue (e : EntryRef)
  | signalPhaseArrival (e : EntryRef)
  | preempt (e : EntryRef)
  | save (e : EntryRef)
  | restore (e : EntryRef)
  | migrate (e : EntryRef) (ok : Bool)
  | keysetMemory (v : MemKeying)
  | keysetBuneam (v : LinkKeying)
  | timeset (e : EntryRef)
  | timeadj (e : EntryRef)
  | queryRevision (e : EntryRef)
  | queryPatchList (e : EntryRef)
  | queryCapacity (e : EntryRef)
  | queryBudgets (e : EntryRef)
  | queryInstanceState (e : EntryRef)
  | queryQueueState (e : EntryRef)
  -- DOE, SPDM and TDISP (R47, R59)
  | attest (fn : Nat)
  | doeDiscovery (fn : Nat)
  | ideKm (fn : Nat) (key : Nat)
  | lockInterface (fn : Nat)
  | getDeviceInterfaceReport (fn : Nat)
  | startInterface (fn : Nat)
  | stopInterface (fn : Nat)
  -- module events
  | instanceEnd (inst : Nat)
  | reset (v : Restarting)
  | thermalSlowdown (die temp : Nat)
  | slowdownLift (die temp : Nat)
  | thermalTrip (die temp : Nat)
  | ppsEdge
  | ptpEventMessage (v : ClockServo)
  -- torus (R25 to R27, R38, R39)
  | packetInject (node : Nat) (p : Packet)
  | routerGrant (node : Nat) (out : Port)
  | torusFlitReceive (node : Nat) (inp : Port) (ok : Bool)
  | multicastReserve (node : Nat) (inp : Port)
  | multicastUrgent (node : Nat) (inp : Port)
  -- Buneam, CXL and memory repair
  | buneamFlitReceive (port : Nat) (f : Flit)
  | buneamNack (port seq : Nat)
  | laneSpareSubstitution (port : Nat)
  | portRetrainEnd (port : Nat)
  | laneLossHalfRate (port : Nat)
  | cxlLinkFailure (d : Nat)
  | cxlRetrainEnd (d : Nat)
  | cxlPortLost (d : Nat)
  | coreRetire (core : Nat)
  | pseudoChannelSubstitution (stack ch : Nat)
  | pseudoChannelCopyEnd (stack : Nat) (bad : List Nat)
  | rowRepair (stack row : Nat)
  | neighbourRefresh (stack row : Nat)
  | rowRefresh (stack row : Nat)
  | stackRetrain (stack : Nat)
  | stackEmergencyRetrain (stack : Nat)
  -- results, memory servers, homes
  | pendingResultArrival (v : Service)
  | memoryServerRequest (v : Service)
  | homeWriteApply (v : Service)
  | homeAtomicApply (v : Service)
  | crossDieMessageApply (die src : Nat)
  | pageWalk (core vpn : Nat)
  | shootDownComplete (txn : Nat)
  | dirtyLogMerge (core : Nat)
  | epochEnd (part : Nat)
  | motionStart (part : Nat)
  | motionLineCopy (motion : Nat)
  | migrationAbort (motion : Nat) (cause : AbortCause)
  -- scheduler (R132 to R138)
  | contextSwap (core ctx : Nat)
  | swapComplete (core ctx : Nat)
  | registerImageWriteEnd (core ctx : Nat)
  | standbyLoad (core ctx : Nat)
  | quantumDue (core ctx : Nat)
  | workStealRound (cluster : Nat)
  | gangGrant (gang : Nat)
  | deadlockReport (inst : Nat)
  | handlerSpawn (inst : Nat)
  | classCFaultDelivery (proc : Nat)
  | deadlineExpiry (proc : Nat)
  | channelTimeout (proc : Nat)
  | channelMatch (chan : Nat)
  | transferLanded (txn : Nat)
  | ratedFiring (proc : Nat)
  | phaseArrivalCount (txn : Nat)
  | windowWriteLand (txn : Nat)
  | heldAccessProceed (proc : Nat)
  -- slices and quiescence (R77 to R84)
  | sliceEnd (part : Nat)
  | quiescenceBudgetExpiry (part : Nat)
  | saveStreamEnd (part : Nat)
  | preemptLate (part : Nat)
  -- the containment tree (R209 to R215)
  | treeWalkerRequest (txn : Nat)
  | rollupTokenCount (tok : Nat)
  | settleMarker (txn slice : Nat)
  | reparLock (txn : Nat)
  -- engines
  | engineCompletion (txn : Nat)
  | forkThreadStart (txn : Nat)
  | engineChannelDispatch (chan : Nat)
  | gangTimeout (gang : Nat)
  -- rows that follow the instructions in the table
  | securedSpdmSession (fn key : Nat)
  | linkKeyReplacement (v : LinkSession)
  | firmwareChannelRebind (part chan proc : Nat)
  | stackRetrainEnd (stack : Nat)
  | rowRepairEnd (stack row : Nat)
  | remotePhaseLoad (part slot count : Nat)
  deriving DecidableEq, Repr

/-- One word as the issue logic sees it: its L and S bits (R233) and the instruction it holds. -/
structure Slot where
  lone : Bool
  sw : Bool
  instr : Instr
  deriving DecidableEq, Repr

end Sys2Proof
end

