-- ==== Sys2Proof/WellFormed.lean ====
section
/-! DEFINITION. Well-formedness of an instruction: the encoding checks of Table 12.16 (R246, checks 4 to 7) that the types
of the syntax do not already make. An event (a row without words) has no encoding to check. -/

namespace Sys2Proof

/-- The widths in tiles of the count code `ac` (R237). -/
def acCount (ac : BitVec 2) : Nat := match ac.toNat with | 0 => 1 | 1 => 2 | _ => 4

/-- An accumulator group `ab:c` (R237): `ac` is not 3, `ab` a multiple of the count, and the group ends at a3. -/
def groupOk (ab ac : BitVec 2) : Bool :=
  ac.toNat != 3 && ab.toNat % acCount ac == 0 && decide (ab.toNat + acCount ac ≤ 4)

/-- A floating vector type (codes 0 to 2 of Table 12.12). -/
def VTy.isFloat : VTy → Bool
  | .f32 | .bf16 | .f16 => true
  | _ => false

/-- An integer scalar code of `fcvt` (Table 12.12). -/
def CTy.isInt : CTy → Bool
  | .i32 | .n32 | .i64 | .n64 => true
  | _ => false

/-- `atom` only operations, whose minors `red` reserves (Table 12.13, R294). -/
def AtomOp.isSwap : AtomOp → Bool
  | .swap32 | .swap64 => true
  | _ => false

/-- A width of `sext` and `zext` (R269). -/
def widthOk (w : BitVec 11) : Bool := decide (1 ≤ w.toNat) && decide (w.toNat ≤ 64)

/-- A field of `bext` and `bins`: width code `w` is the width minus 1, and the field ends at bit 63 (R269). -/
def bitFieldOk (w : BitVec 5) (lo : BitVec 6) : Bool := decide (lo.toNat + (w.toNat + 1) ≤ 64)

/-- The instruction is one an encoding stands for: what Table 12.16 checks of the word beyond the types of the syntax. -/
def Instr.wf : Instr → Bool
  | .bc c _ => c != .always
  | .ctlw c _ => c != .shoot
  | .ldx t _ _ k => t != .w128 || k == none
  | .red op _ _ => !op.isSwap
  | .enrol _ _ j => decide (j.toNat ≤ 30)
  | .unenrol _ (.pair j) => decide (j.toNat ≤ 30)
  | .sext _ w _ => widthOk w
  | .zext _ w _ => widthOk w
  | .bext _ w lo _ => bitFieldOk w lo
  | .bins _ w lo _ => bitFieldOk w lo
  | .fcvt s d _ _ _ => s != d && !(s.isInt && d.isInt)
  | .vabs t _ _ _ => t != .n32 && t != .n16
  | .vneg t _ _ _ => t != .n32 && t != .n16
  | .vfrint t _ _ _ => t.isFloat
  | .vfexf t _ _ _ => t.isFloat
  | .vrcp t _ _ _ => t.isFloat
  | .vrsq t _ _ _ => t.isFloat
  | .vfclass t _ _ _ => t.isFloat
  | .vfins t _ _ _ _ => t.isFloat
  | .vpopc t _ _ _ => !t.isFloat
  | .vcmp _ _ pd _ _ _ => pd != 0
  | .vcvt s d _ _ _ => s != d
  | .pand pd _ _ => pd != 0
  | .por pd _ _ => pd != 0
  | .pnot pd _ => pd != 0
  | .mgang ab ac _ _ _ _ => groupOk ab ac
  | .mzero ab ac => groupOk ab ac
  | .mdup ab ac _ => groupOk ab ac
  | .mrest ab ac _ => groupOk ab ac
  | .mdrain ab ac _ _ _ => groupOk ab ac
  | _ => true

end Sys2Proof
end

