-- ==== Sys2Proof/Decode.lean ====
section
/-! DEFINITION. The decoder and the encoder of instruction words (R233 to R246). A word is read as a natural number with
bit 0 the least significant bit (R4). Every word that is not an instruction is rejected with the name of the check of
Table 12.16 it fails; each such rejection is ILLEGAL_INSTR (R246). -/

namespace Sys2Proof

/-- Why a word is not an instruction (Table 12.16, checks 3 to 7). -/
inductive Reject where
  /-- Check 3: an unassigned major, or class A major 0x3F. -/
  | major
  /-- Check 3: an unlisted minor, mode or cond. -/
  | minor
  /-- Check 4: a reserved or unused field is nonzero. -/
  | reserved
  /-- Check 5: a reserved source code. -/
  | source
  /-- Check 5: an illegal keep, or a nonzero keep position of a form that keeps nothing. -/
  | keep
  /-- Check 6: a raw field out of its range. -/
  | range
  /-- Check 7: a named register is required. -/
  | named
  deriving DecidableEq, Repr

/-- Bits [lo + n - 1 : lo] of a word. -/
def fld (w lo n : Nat) : Nat := w / 2 ^ lo % 2 ^ n

/-- A check of the word: pass, or reject by name. -/
def need (c : Bool) (r : Reject) : Except Reject Unit := if c then .ok () else .error r

/-- A looked-up code: the value, or reject by name. -/
def code? {α : Type} (o : Option α) (r : Reject) : Except Reject α :=
  match o with
  | some a => .ok a
  | none => .error r

/-! ### Codes of the small types -/

def Special.code : Special → Nat
  | .zero => 0 | .one => 1 | .mone => 2 | .self => 3 | .coreid => 4 | .lanes => 5 | .partid => 6

def Special.ofCode : Nat → Option Special
  | 0 => some .zero | 1 => some .one | 2 => some .mone | 3 => some .self | 4 => some .coreid | 5 => some .lanes
  | 6 => some .partid | _ => none

/-- The six-bit code of a source (Table 12.2). -/
def Src.code : Src → Nat
  | .q k => k.toNat
  | .sp k => 16 + k.code
  | .n r => 32 + r.toNat

/-- The source a six-bit code selects (Table 12.2); codes 01_0111 to 01_1111 are reserved (R14). -/
def Src.ofCode (c : Nat) : Option Src :=
  if c < 16 then some (.q (BitVec.ofNat 4 c))
  else if c < 32 then (Special.ofCode (c - 16)).map .sp
  else some (.n (BitVec.ofNat 5 (c - 32)))

/-- The six-bit code of a destination (R236). -/
def keepCode : Keep → Nat
  | none => 0
  | some r => 32 + r.toNat

/-- The destination of a six-bit code: 000000 or 1nnnnn (R236). -/
def keepOf (c : Nat) : Option Keep :=
  if c = 0 then some none else if c < 32 then none else some (some (BitVec.ofNat 5 (c - 32)))

def LdTy.code : LdTy → Nat
  | .i8 => 0 | .n8 => 1 | .i16 => 2 | .n16 => 3 | .i32 => 4 | .n32 => 5 | .w64 => 6

def LdTy.ofCode : Nat → Option LdTy
  | 0 => some .i8 | 1 => some .n8 | 2 => some .i16 | 3 => some .n16 | 4 => some .i32 | 5 => some .n32 | 6 => some .w64
  | _ => none

def LdxTy.code : LdxTy → Nat
  | .ty t => t.code
  | .w128 => 7

def StTy.code : StTy → Nat
  | .w8 => 0 | .w16 => 1 | .w32 => 2 | .w64 => 3

def StTy.ofCode : Nat → Option StTy
  | 0 => some .w8 | 1 => some .w16 | 2 => some .w32 | 3 => some .w64 | _ => none

def AtomOp.code : AtomOp → Nat
  | .add32 => 0 | .add64 => 1 | .minI32 => 2 | .minI64 => 3 | .minN32 => 4 | .minN64 => 5
  | .maxI32 => 6 | .maxI64 => 7 | .maxN32 => 8 | .maxN64 => 9
  | .and32 => 10 | .and64 => 11 | .or32 => 12 | .or64 => 13 | .xor32 => 14 | .xor64 => 15
  | .swap32 => 16 | .swap64 => 17 | .faddF32 => 18 | .faddF64 => 19 | .fminF32 => 20 | .fminF64 => 21
  | .fmaxF32 => 22 | .fmaxF64 => 23

def AtomOp.ofCode : Nat → Option AtomOp
  | 0 => some .add32 | 1 => some .add64 | 2 => some .minI32 | 3 => some .minI64 | 4 => some .minN32 | 5 => some .minN64
  | 6 => some .maxI32 | 7 => some .maxI64 | 8 => some .maxN32 | 9 => some .maxN64
  | 10 => some .and32 | 11 => some .and64 | 12 => some .or32 | 13 => some .or64 | 14 => some .xor32 | 15 => some .xor64
  | 16 => some .swap32 | 17 => some .swap64 | 18 => some .faddF32 | 19 => some .faddF64 | 20 => some .fminF32
  | 21 => some .fminF64 | 22 => some .fmaxF32 | 23 => some .fmaxF64 | _ => none

def FenceKind.code : FenceKind → Nat
  | .acq => 0 | .rel => 1 | .ar => 2

def FenceKind.ofCode : Nat → Option FenceKind
  | 0 => some .acq | 1 => some .rel | 2 => some .ar | _ => none

def Scope.code : Scope → Nat
  | .ctx => 0 | .core => 1 | .clu => 2 | .die => 3 | .pkg => 4 | .fab => 5

def Scope.ofCode : Nat → Option Scope
  | 0 => some .ctx | 1 => some .core | 2 => some .clu | 3 => some .die | 4 => some .pkg | 5 => some .fab | _ => none

def Cond.code : Cond → Nat
  | .always => 0 | .z => 1 | .nz => 2 | .lt => 3 | .ge => 4 | .gt => 5 | .le => 6

def Cond.ofCode : Nat → Option Cond
  | 0 => some .always | 1 => some .z | 2 => some .nz | 3 => some .lt | 4 => some .ge | 5 => some .gt | 6 => some .le
  | _ => none

/-- The rounding code of Table 11.2; 7 selects `ctl.rmode.RM` (R218). -/
def Rm.code : Rm → Nat
  | .rne => 0 | .rtz => 1 | .rdn => 2 | .rup => 3 | .rna => 4 | .dyn => 7

def Rm.ofCode : Nat → Option Rm
  | 0 => some .rne | 1 => some .rtz | 2 => some .rdn | 3 => some .rup | 4 => some .rna | 7 => some .dyn | _ => none

def CTy.code : CTy → Nat
  | .f32 => 0 | .f64 => 1 | .bf16 => 2 | .f16 => 3 | .i32 => 4 | .n32 => 5 | .i64 => 6 | .n64 => 7

def CTy.ofCode : Nat → Option CTy
  | 0 => some .f32 | 1 => some .f64 | 2 => some .bf16 | 3 => some .f16 | 4 => some .i32 | 5 => some .n32
  | 6 => some .i64 | 7 => some .n64 | _ => none

def VTy.code : VTy → Nat
  | .f32 => 0 | .bf16 => 1 | .f16 => 2 | .i32 => 3 | .n32 => 4 | .i16 => 5 | .n16 => 6

def VTy.ofCode : Nat → Option VTy
  | 0 => some .f32 | 1 => some .bf16 | 2 => some .f16 | 3 => some .i32 | 4 => some .n32 | 5 => some .i16
  | 6 => some .n16 | _ => none

def VCond.code : VCond → Nat
  | .eq => 0 | .ne => 1 | .lt => 2 | .le => 3

def VCond.ofCode : Nat → Option VCond
  | 0 => some .eq | 1 => some .ne | 2 => some .lt | 3 => some .le | _ => none

/-- The format codes of Table 11.7 for the interleaved block formats. -/
def BlkFmt.code : BlkFmt → Nat
  | .nb2 => 0x10 | .nb4 => 0x11 | .nb7 => 0x12 | .mx4 => 0x18 | .mx6e2 => 0x19 | .mx6e3 => 0x1A | .mx8e4 => 0x1B
  | .mx8e5 => 0x1C | .mxi8 => 0x1D

def BlkFmt.ofCode : Nat → Option BlkFmt
  | 0x10 => some .nb2 | 0x11 => some .nb4 | 0x12 => some .nb7 | 0x18 => some .mx4 | 0x19 => some .mx6e2
  | 0x1A => some .mx6e3 | 0x1B => some .mx8e4 | 0x1C => some .mx8e5 | 0x1D => some .mxi8 | _ => none

def ForkKind.code : ForkKind → Nat
  | .matrixSeq => 0 | .copySeq => 1 | .sharedCopy => 2 | .collective => 3 | .compression => 4 | .memServer => 5

def ForkKind.ofCode : Nat → Option ForkKind
  | 0 => some .matrixSeq | 1 => some .copySeq | 2 => some .sharedCopy | 3 => some .collective | 4 => some .compression
  | 5 => some .memServer | _ => none

def Disp.code : Disp → Nat
  | .resume => 0 | .restart => 1 | .kill => 2 | .escalate => 3

def Disp.ofCode : Nat → Option Disp
  | 0 => some .resume | 1 => some .restart | 2 => some .kill | 3 => some .escalate | _ => none

/-- The control-register indices of Table 12.14. -/
def Ctl.code : Ctl → Nat
  | .flags => 0x00 | .rmode => 0x01 | .rot => 0x02 | .svc => 0x03 | .dlmiss => 0x04 | .heapoff => 0x05
  | .accept => 0x06 | .compat => 0x07 | .watch0 => 0x08 | .watch1 => 0x09 | .tmo => 0x0A | .ptag => 0x0B
  | .tokens => 0x0C | .heapbase => 0x0D | .heaplim => 0x0E | .part => 0x0F | .dmap j => 0x10 + j.val
  | .vtbase => 0x18 | .vtscale => 0x19 | .vtoff => 0x1A | .vtfloor => 0x1B
  | .migpol => 0x20 | .mighand => 0x21 | .mgrhand => 0x22 | .shoot => 0x23 | .ptroot => 0x24

def Ctl.ofCode : Nat → Option Ctl
  | 0x00 => some .flags | 0x01 => some .rmode | 0x02 => some .rot | 0x03 => some .svc | 0x04 => some .dlmiss
  | 0x05 => some .heapoff | 0x06 => some .accept | 0x07 => some .compat | 0x08 => some .watch0 | 0x09 => some .watch1
  | 0x0A => some .tmo | 0x0B => some .ptag | 0x0C => some .tokens | 0x0D => some .heapbase | 0x0E => some .heaplim
  | 0x0F => some .part | 0x10 => some (.dmap 0) | 0x11 => some (.dmap 1) | 0x12 => some (.dmap 2)
  | 0x13 => some (.dmap 3) | 0x14 => some (.dmap 4) | 0x15 => some (.dmap 5)
  | 0x18 => some .vtbase | 0x19 => some .vtscale | 0x1A => some .vtoff | 0x1B => some .vtfloor
  | 0x20 => some .migpol | 0x21 => some .mighand | 0x22 => some .mgrhand | 0x23 => some .shoot | 0x24 => some .ptroot
  | _ => none

def boolCode (b : Bool) : Nat := if b then 1 else 0

/-! ### Field readers -/

/-- A source field at bit `lo`. -/
def src (w lo : Nat) : Except Reject Src := code? (Src.ofCode (fld w lo 6)) .source

/-- A keep field at bit `lo`. -/
def kp (w lo : Nat) : Except Reject Keep := code? (keepOf (fld w lo 6)) .keep

/-- A keep position of a form that keeps nothing, at bit `lo`. -/
def noKeep (w lo : Nat) : Except Reject Unit := need (fld w lo 6 == 0) .keep

/-- An unused field. -/
def zero (w lo n : Nat) : Except Reject Unit := need (fld w lo n == 0) .reserved

/-- A field of five bits that names a register. -/
def r5 (w lo : Nat) : BitVec 5 := BitVec.ofNat 5 (fld w lo 5)

/-- A field of three bits. -/
def b3 (w lo : Nat) : BitVec 3 := BitVec.ofNat 3 (fld w lo 3)

/-- The displacement of an AM word. -/
def imm11 (w : Nat) : BitVec 11 := BitVec.ofNat 11 (fld w 0 11)

def bit (w lo : Nat) : Bool := fld w lo 1 == 1

/-! ### Class A (Tables 12.3 to 12.6) -/

/-- Major 0x00, system (Table 13.4). -/
def decSystem (w : Nat) : Except Reject Instr :=
  match fld w 0 5 with
  | 1 => do noKeep w 5; let x ← src w 17; .ok (.trap x (BitVec.ofNat 6 (fld w 11 6)))
  | 2 => do zero w 17 6; zero w 11 6; noKeep w 5; .ok .brk
  | 3 => do noKeep w 5; let x ← src w 17; let d ← code? (Disp.ofCode (fld w 11 6)) .range; .ok (.eret x d)
  | 4 => do zero w 17 6; let k ← kp w 5; let c ← code? (Ctl.ofCode (fld w 11 6)) .range; .ok (.ctlr c k)
  | 5 => do
      noKeep w 5
      let x ← src w 17
      let c ← code? (Ctl.ofCode (fld w 11 6)) .range
      if c = .shoot then .ok (.shootDown x) else .ok (.ctlw c x)
  | 6 => do zero w 17 6; zero w 11 6; noKeep w 5; .ok .idle
  | 7 => do zero w 17 6; zero w 11 6; let k ← kp w 5; .ok (.pwrq k)
  | 8 => do zero w 17 6; zero w 11 6; let k ← kp w 5; .ok (.harvest k)
  | _ => .error .minor

/-- Majors 0x01 to 0x07, control (Table 13.2). -/
def decBranch (w : Nat) : Except Reject Instr := do
  let c ← code? (Cond.ofCode (fld w 18 5)) .minor
  let d := BitVec.ofNat 18 (fld w 0 18)
  if c = .always then .ok (.br d) else .ok (.bc c d)

def decCall (w : Nat) : Except Reject Instr := do
  need (fld w 18 5 == 0) .minor
  .ok (.call (BitVec.ofNat 18 (fld w 0 18)))

def decJump (w : Nat) : Except Reject Instr := do
  need (decide (fld w 0 5 < 3)) .minor
  zero w 11 6; noKeep w 5
  let x ← src w 17
  match fld w 0 5 with
  | 0 => .ok (.calli x)
  | 1 => .ok (.jmpi x)
  | _ => .ok (.ret x)

def decLoop (w : Nat) : Except Reject Instr := do
  need (decide (32 ≤ fld w 17 6)) .named
  .ok (.loop (r5 w 17) (BitVec.ofNat 17 (fld w 0 17)))

def decRep (w : Nat) : Except Reject Instr := do
  zero w 0 5
  let x ← src w 17
  .ok (.rep x (BitVec.ofNat 4 (fld w 13 4)) (BitVec.ofNat 4 (fld w 9 4)) (BitVec.ofNat 4 (fld w 5 4)))

def decSched (w : Nat) : Except Reject Instr := do
  zero w 0 17
  let k ← kp w 17
  .ok (.sched k)

def decNop (w : Nat) : Except Reject Instr := do
  zero w 0 23
  .ok .nop

/-- Majors 0x10 to 0x17, loads (Table 14.2). -/
def decLd (t : LdTy) (w : Nat) : Except Reject Instr := do
  let b ← src w 17
  let k ← kp w 11
  .ok (.ld t b k (imm11 w))

def decLd128 (w : Nat) : Except Reject Instr := do
  noKeep w 11
  let b ← src w 17
  .ok (.ld128 b (imm11 w))

def decSt (t : StTy) (w : Nat) : Except Reject Instr := do
  let b ← src w 17
  let y ← src w 11
  .ok (.st t b y (imm11 w))

def decPrf (w : Nat) : Except Reject Instr := do
  need (decide (fld w 11 6 < 2)) .range
  let b ← src w 17
  if fld w 11 6 = 0 then .ok (.prfR b (imm11 w)) else .ok (.prfW b (imm11 w))

def decLdxStx (w : Nat) : Except Reject Instr :=
  if fld w 0 5 = 7 then do
    noKeep w 5
    let x ← src w 17
    let y ← src w 11
    .ok (.ldx .w128 x y none)
  else if fld w 0 5 < 7 then do
    let x ← src w 17
    let y ← src w 11
    let k ← kp w 5
    let t ← code? (LdTy.ofCode (fld w 0 5)) .minor
    .ok (.ldx (.ty t) x y k)
  else do
    need (decide (16 ≤ fld w 0 5)) .minor
    let t ← code? (StTy.ofCode (fld w 0 5 - 16)) .minor
    let x ← src w 17
    let y ← src w 11
    let z ← src w 5
    .ok (.stx t x y z)

def decTile (w : Nat) : Except Reject Instr := do
  need (decide (fld w 0 5 < 2)) .minor
  zero w 8 3
  let x ← src w 17
  let y ← src w 11
  if fld w 0 5 = 0 then .ok (.tld (b3 w 5) x y) else .ok (.tst (b3 w 5) x y)

/-- Major 0x1F, vector memory (Table 15.2). -/
def decVecMem (w : Nat) : Except Reject Instr :=
  let m := fld w 0 5
  if m < 5 then do
    zero w 10 1; zero w 11 3
    let x ← src w 17
    let p := b3 w 14
    let vd := r5 w 5
    match m with
    | 0 => .ok (.vld false vd x p)
    | 1 => .ok (.vld true vd x p)
    | 2 => .ok (.vst false vd x p)
    | 3 => .ok (.vst true vd x p)
    | _ => .ok (.vldb vd x p)
  else do
    need (decide (m < 9)) .minor
    zero w 10 1; zero w 16 1
    let x ← src w 17
    let vb := r5 w 11
    let vd := r5 w 5
    match m with
    | 5 => .ok (.vgat32 vd x vb)
    | 6 => .ok (.vgat16 vd x vb)
    | 7 => .ok (.vsca32 vd x vb)
    | _ => .ok (.vsca16 vd x vb)

/-- Majors 0x20 to 0x22 (Table 14.3). -/
def decAtom (w : Nat) : Except Reject Instr := do
  let op ← code? (AtomOp.ofCode (fld w 0 5)) .minor
  let x ← src w 17
  let y ← src w 11
  let k ← kp w 5
  .ok (.atom op x y k)

def decCas (w : Nat) : Except Reject Instr := do
  need (decide (fld w 0 5 < 2)) .minor
  let x ← src w 17
  let y ← src w 11
  let z ← src w 5
  .ok (.atomCas (bit w 0) x y z)

def decRed (w : Nat) : Except Reject Instr :=
  if fld w 0 5 = 0x18 ∨ fld w 0 5 = 0x1A then do
    noKeep w 5
    let x ← src w 17
    let y ← src w 11
    .ok (.redx (fld w 0 5 == 0x1A) x y)
  else do
    let op ← code? (AtomOp.ofCode (fld w 0 5)) .minor
    need (!op.isSwap) .minor
    noKeep w 5
    let x ← src w 17
    let y ← src w 11
    .ok (.red op x y)

/-- Majors 0x23 to 0x26 (Table 14.5). -/
def decFence (w : Nat) : Except Reject Instr := do
  let k ← code? (FenceKind.ofCode (fld w 3 2)) .range
  let s ← code? (Scope.ofCode (fld w 0 3)) .range
  zero w 17 6; zero w 11 6; noKeep w 5
  .ok (.fence k s)

def decWait (w : Nat) : Except Reject Instr :=
  if fld w 0 5 < 2 then do
    let x ← src w 17
    let y ← src w 11
    let k ← kp w 5
    .ok (.waita (bit w 0) x y k)
  else do
    need (decide (8 ≤ fld w 0 5)) .minor
    let s ← code? (Scope.ofCode (fld w 0 5 - 8)) .minor
    noKeep w 5
    let x ← src w 17
    let y ← src w 11
    .ok (.wake s x y)

def decPhase (w : Nat) : Except Reject Instr := do
  need (decide (fld w 0 5 < 3)) .minor
  zero w 17 6; zero w 15 2
  let t := BitVec.ofNat 4 (fld w 11 4)
  if fld w 0 5 = 1 then do
    zero w 8 3
    .ok (.arrive t (b3 w 5))
  else do
    noKeep w 5
    if fld w 0 5 = 0 then .ok (.phase t) else .ok (.pwait t)

def decTime (w : Nat) : Except Reject Instr :=
  match fld w 0 5 with
  | 0 => do zero w 17 6; zero w 11 6; let k ← kp w 5; .ok (.time k)
  | 1 => do zero w 11 6; noKeep w 5; let x ← src w 17; .ok (.waitt x)
  | _ => .error .minor

/-- Majors 0x28 to 0x2C (Tables 14.8 and 14.9). -/
def decProc (w : Nat) : Except Reject Instr :=
  match fld w 0 5 with
  | 0 => do let x ← src w 17; let y ← src w 11; let k ← kp w 5; .ok (.spawn x y k)
  | 1 => do zero w 17 6; zero w 11 6; noKeep w 5; .ok .exit
  | 2 => do zero w 17 6; zero w 11 6; noKeep w 5; .ok .yield
  | _ => .error .minor

def decSendRecv (w : Nat) : Except Reject Instr :=
  match fld w 0 5 with
  | 0 => do noKeep w 5; let x ← src w 17; let y ← src w 11; .ok (.send x y)
  | 1 => do let x ← src w 17; let y ← src w 11; let k ← kp w 5; .ok (.sendT x y k)
  | 2 => do zero w 11 6; let x ← src w 17; let k ← kp w 5; .ok (.recv x k)
  | 3 => do zero w 11 6; let x ← src w 17; let k ← kp w 5; .ok (.recvT x k)
  | _ => .error .minor

def decTileChan (w : Nat) : Except Reject Instr :=
  match fld w 0 5 with
  | 0 => do noKeep w 5; let x ← src w 17; let y ← src w 11; .ok (.sendt x y)
  | 1 => do let x ← src w 17; let y ← src w 11; let k ← kp w 5; .ok (.sendtT x y k)
  | 2 => do noKeep w 5; let x ← src w 17; let y ← src w 11; .ok (.recvt x y)
  | 3 => do let x ← src w 17; let y ← src w 11; let k ← kp w 5; .ok (.recvtT x y k)
  | _ => .error .minor

def decAlt (w : Nat) : Except Reject Instr :=
  match fld w 0 5 with
  | 0 => do zero w 14 3; noKeep w 5; let x ← src w 17; .ok (.altg (b3 w 11) x)
  | 1 => do zero w 17 6; zero w 11 6; let k ← kp w 5; .ok (.alt k)
  | 2 => do zero w 17 6; zero w 11 6; let k ← kp w 5; .ok (.altT k)
  | _ => .error .minor

def decChan (w : Nat) : Except Reject Instr :=
  match fld w 0 5 with
  | 0 => do let x ← src w 17; let y ← src w 11; let k ← kp w 5; .ok (.chopen x y k)
  | 1 => do zero w 11 6; noKeep w 5; let x ← src w 17; .ok (.chclose x)
  | 2 => do zero w 11 6; let x ← src w 17; let k ← kp w 5; .ok (.chinfo x k)
  | 3 => do let x ← src w 17; let y ← src w 11; let k ← kp w 5; .ok (.chbind x y k)
  | _ => .error .minor

/-- Major 0x30, the tree (Table 14.15). -/
def decTree (w : Nat) : Except Reject Instr :=
  match fld w 0 5 with
  | 0 => do
      let x ← src w 17
      let y ← src w 11
      need (decide (32 ≤ fld w 5 6)) .named
      need (decide (fld w 5 6 ≤ 62)) .range
      .ok (.enrol x y (r5 w 5))
  | 1 => do
      zero w 11 6
      let x ← src w 17
      if fld w 5 6 = 16 then .ok (.unenrol x .free)
      else do
        need (decide (32 ≤ fld w 5 6)) .named
        need (decide (fld w 5 6 ≤ 62)) .range
        .ok (.unenrol x (.pair (r5 w 5)))
  | 2 => do zero w 11 6; let x ← src w 17; let k ← kp w 5; .ok (.settle x k)
  | 3 => do zero w 11 6; let x ← src w 17; let k ← kp w 5; .ok (.chgrd x k)
  | 4 => do let x ← src w 17; let y ← src w 11; let k ← kp w 5; .ok (.chgcmp x y k)
  | 5 => do let x ← src w 17; let y ← src w 11; let k ← kp w 5; .ok (.repar x y k)
  | _ => .error .minor

/-- Majors 0x31 to 0x36 (Tables 16.3 and 14.13). -/
def decCopy (w : Nat) : Except Reject Instr := do
  need (decide (fld w 0 5 < 2)) .minor
  let x ← src w 17
  let y ← src w 11
  let z ← src w 5
  if fld w 0 5 = 0 then .ok (.copy x y z) else .ok (.copyt x y z)

def decColl (w : Nat) : Except Reject Instr := do
  need (fld w 0 5 == 0) .minor
  zero w 11 6; zero w 5 6
  let x ← src w 17
  .ok (.coll x)

def decCmpr (w : Nat) : Except Reject Instr := do
  need (decide (fld w 0 5 < 2)) .minor
  let x ← src w 17
  let y ← src w 11
  let z ← src w 5
  if fld w 0 5 = 0 then .ok (.cmpr x y z) else .ok (.dcmp x y z)

def decFork (w : Nat) : Except Reject Instr :=
  match fld w 0 5 with
  | 0 => do
      zero w 8 3
      let x ← src w 17
      let y ← src w 11
      let e ← code? (ForkKind.ofCode (fld w 5 3)) .range
      .ok (.fork x y e)
  | 1 => do zero w 11 6; let x ← src w 17; let k ← kp w 5; .ok (.join x k)
  | _ => .error .minor

def decMig (w : Nat) : Except Reject Instr :=
  match fld w 0 5 with
  | 0 => do noKeep w 5; let x ← src w 17; let y ← src w 11; .ok (.migMove x y)
  | 1 => do zero w 11 6; let x ← src w 17; let k ← kp w 5; .ok (.hot x k)
  | _ => .error .minor

def decBuf (w : Nat) : Except Reject Instr :=
  match fld w 0 5 with
  | 0 => do zero w 5 6; let x ← src w 17; let y ← src w 11; .ok (.bdeclLin x y)
  | 1 => do let x ← src w 17; let y ← src w 11; let z ← src w 5; .ok (.bdeclRing x y z)
  | 2 => do zero w 11 6; noKeep w 5; let x ← src w 17; .ok (.bstateOpen x)
  | 3 => do zero w 11 6; noKeep w 5; let x ← src w 17; .ok (.bstateSeal x)
  | 4 => do zero w 11 6; noKeep w 5; let x ← src w 17; .ok (.bstateRel x)
  | 5 => do zero w 11 6; let x ← src w 17; let k ← kp w 5; .ok (.bquery x k)
  | 6 => do zero w 11 6; let x ← src w 17; let k ← kp w 5; .ok (.bqueryW x k)
  | _ => .error .minor

/-- Class A by major (Table 12.11a). -/
def decA (w : Nat) : Except Reject Instr :=
  match fld w 23 6 with
  | 0x00 => decSystem w
  | 0x01 => decBranch w
  | 0x02 => decCall w
  | 0x03 => decJump w
  | 0x04 => decLoop w
  | 0x05 => decRep w
  | 0x06 => decSched w
  | 0x07 => decNop w
  | 0x10 => decLd .i8 w
  | 0x11 => decLd .n8 w
  | 0x12 => decLd .i16 w
  | 0x13 => decLd .n16 w
  | 0x14 => decLd .i32 w
  | 0x15 => decLd .n32 w
  | 0x16 => decLd .w64 w
  | 0x17 => decLd128 w
  | 0x18 => decSt .w8 w
  | 0x19 => decSt .w16 w
  | 0x1A => decSt .w32 w
  | 0x1B => decSt .w64 w
  | 0x1C => decPrf w
  | 0x1D => decLdxStx w
  | 0x1E => decTile w
  | 0x1F => decVecMem w
  | 0x20 => decAtom w
  | 0x21 => decCas w
  | 0x22 => decRed w
  | 0x23 => decFence w
  | 0x24 => decWait w
  | 0x25 => decPhase w
  | 0x26 => decTime w
  | 0x28 => decProc w
  | 0x29 => decSendRecv w
  | 0x2A => decTileChan w
  | 0x2B => decAlt w
  | 0x2C => decChan w
  | 0x30 => decTree w
  | 0x31 => decCopy w
  | 0x32 => decColl w
  | 0x33 => decCmpr w
  | 0x34 => decFork w
  | 0x35 => decMig w
  | 0x36 => decBuf w
  | _ => .error .major

/-! ### Class B (Tables 12.7 to 12.10) -/

/-- A binary BR form. -/
def br2 (w : Nat) (f : Src → Src → Keep → Instr) : Except Reject Instr := do
  let x ← src w 17
  let y ← src w 11
  let k ← kp w 5
  .ok (f x y k)

/-- A unary BR form: y must be zero. -/
def br1 (w : Nat) (f : Src → Keep → Instr) : Except Reject Instr := do
  zero w 11 6
  let x ← src w 17
  let k ← kp w 5
  .ok (f x k)

/-- Major 0x00, integer arithmetic (Table 13.7). -/
def decInt (w : Nat) : Except Reject Instr :=
  match fld w 0 5 with
  | 0 => br2 w .add | 1 => br2 w .sub | 2 => br2 w .mul | 3 => br2 w .mulhI64 | 4 => br2 w .mulhN64
  | 5 => br2 w .divI64 | 6 => br2 w .divN64 | 7 => br2 w .remI64 | 8 => br2 w .remN64
  | 9 => br2 w .minI64 | 10 => br2 w .minN64 | 11 => br2 w .maxI64 | 12 => br2 w .maxN64
  | 13 => br2 w .cmpI64 | 14 => br2 w .cmpN64
  | _ => .error .minor

/-- Major 0x01, logic, shifts and `sel` (R266). -/
def decLogic (w : Nat) : Except Reject Instr :=
  match fld w 0 5 with
  | 0 => br2 w .and | 1 => br2 w .or | 2 => br2 w .xor | 3 => br2 w .andn | 4 => br2 w .shl | 5 => br2 w .shr
  | 6 => br2 w .sar | 7 => br2 w .rol | 8 => br2 w .sel
  | _ => .error .minor

/-- Major 0x02, unary integer (R267). -/
def decUnary (w : Nat) : Except Reject Instr :=
  match fld w 0 5 with
  | 0 => br1 w .neg | 1 => br1 w .abs | 2 => br1 w .not | 3 => br1 w .clz | 4 => br1 w .ctz | 5 => br1 w .popc
  | _ => .error .minor

/-- Majors 0x03 to 0x0A, BI forms (R22, R268, R269, R270). -/
def decLi (w : Nat) : Except Reject Instr := do
  let k ← kp w 11
  .ok (.li (BitVec.ofNat 17 (fld w 17 6 * 2 ^ 11 + fld w 0 11)) k)

def decBi (w : Nat) (f : Src → BitVec 11 → Keep → Instr) : Except Reject Instr := do
  let x ← src w 17
  let k ← kp w 11
  .ok (f x (imm11 w) k)

def decExt (w : Nat) (f : Src → BitVec 11 → Keep → Instr) : Except Reject Instr := do
  let x ← src w 17
  let k ← kp w 11
  need (widthOk (imm11 w)) .range
  .ok (f x (imm11 w) k)

def decField (w : Nat) (f : Src → BitVec 5 → BitVec 6 → Keep → Instr) : Except Reject Instr := do
  let x ← src w 17
  let k ← kp w 11
  need (bitFieldOk (r5 w 6) (BitVec.ofNat 6 (fld w 0 6))) .range
  .ok (f x (r5 w 6) (BitVec.ofNat 6 (fld w 0 6)) k)

/-- Major 0x11, pointers (R270 to R273). -/
def decPtr (w : Nat) : Except Reject Instr :=
  match fld w 0 5 with
  | 0 => br2 w .addp | 1 => br2 w .fmtp | 2 => br2 w .peer | 3 => br2 w .ptrq
  | _ => .error .minor

/-- Majors 0x18 and 0x19 (Table 13.8). -/
def decFArith (dbl : Bool) (w : Nat) : Except Reject Instr := do
  let r ← code? (Rm.ofCode (fld w 0 3)) .range
  match fld w 3 2 with
  | 0 => br2 w (fun x y k => .fadd dbl x y k r)
  | 1 => br2 w (fun x y k => .fsub dbl x y k r)
  | 2 => br2 w (fun x y k => .fmul dbl x y k r)
  | _ => do
      let x ← src w 17
      let y ← src w 11
      need (decide (32 ≤ fld w 5 6)) .named
      .ok (.fma dbl x y (r5 w 5) r)

/-- Majors 0x1A and 0x1B (Table 13.8). -/
def decFDiv (dbl : Bool) (w : Nat) : Except Reject Instr := do
  let r ← code? (Rm.ofCode (fld w 0 3)) .range
  match fld w 3 2 with
  | 0 => br2 w (fun x y k => .fdiv dbl x y k r)
  | 1 => br1 w (fun x k => .fsqrt dbl x k r)
  | 2 => br1 w (fun x k => .frint dbl x k r)
  | _ => br2 w (fun x y k => .fins dbl x y k r)

/-- Majors 0x1C and 0x1D (R279). -/
def decFMisc (dbl : Bool) (w : Nat) : Except Reject Instr :=
  match fld w 0 5 with
  | 0 => br2 w (.fmin dbl) | 1 => br2 w (.fmax dbl) | 2 => br1 w (.fabs dbl) | 3 => br1 w (.fneg dbl)
  | 4 => br2 w (.fcmp dbl) | 5 => br1 w (.fclass dbl) | 6 => br1 w (.fexf dbl)
  | _ => .error .minor

/-- Major 0x1E (R283). -/
def decFcvt (w : Nat) : Except Reject Instr := do
  need (fld w 3 2 == 0) .minor
  let r ← code? (Rm.ofCode (fld w 0 3)) .range
  let s ← code? (CTy.ofCode (fld w 14 3)) .range
  let d ← code? (CTy.ofCode (fld w 11 3)) .range
  need (s != d && !(s.isInt && d.isInt)) .range
  let x ← src w 17
  let k ← kp w 5
  .ok (.fcvt s d x k r)

/-- A vector type in the minor field that a form accepts (R240). -/
def vty (w : Nat) (accept : VTy → Bool) : Except Reject VTy := do
  let t ← code? (VTy.ofCode (fld w 3 5)) .range
  need (accept t) .range
  .ok t

/-- Majors 0x20 to 0x24 and 0x30: three registers and a type (Table 15.4). -/
def decV3 (w : Nat) (accept : VTy → Bool) (f : VTy → BitVec 5 → BitVec 5 → BitVec 5 → BitVec 3 → Instr) :
    Except Reject Instr := do
  let t ← vty w accept
  .ok (f t (r5 w 18) (r5 w 13) (r5 w 8) (b3 w 0))

/-- Majors 0x25 to 0x2A: four registers (R333). -/
def decV4 (w : Nat) (f : BitVec 5 → BitVec 5 → BitVec 5 → BitVec 5 → BitVec 3 → Instr) : Except Reject Instr :=
  .ok (f (r5 w 18) (r5 w 13) (r5 w 8) (r5 w 3) (b3 w 0))

/-- A unary vector form with a type. -/
def decV2 (w : Nat) (accept : VTy → Bool) (f : VTy → BitVec 5 → BitVec 5 → BitVec 3 → Instr) : Except Reject Instr := do
  let t ← vty w accept
  .ok (f t (r5 w 18) (r5 w 13) (b3 w 0))

def anyVTy (_ : VTy) : Bool := true
def absVTy (t : VTy) : Bool := t != .n32 && t != .n16

/-- Major 0x2B (R334). -/
def decVUnary (w : Nat) : Except Reject Instr :=
  match fld w 8 5 with
  | 0 => decV2 w absVTy .vabs
  | 1 => decV2 w absVTy .vneg
  | 2 => decV2 w VTy.isFloat .vfrint
  | 3 => decV2 w VTy.isFloat .vfexf
  | 4 => decV2 w VTy.isFloat .vrcp
  | 5 => decV2 w VTy.isFloat .vrsq
  | 6 => decV2 w VTy.isFloat .vfclass
  | 7 => decV2 w (fun t => !t.isFloat) .vpopc
  | 8 => do
      need (decide (fld w 3 5 < 2)) .range
      .ok (.vmov (bit w 3) (r5 w 18) (r5 w 13) (b3 w 0))
  | _ => .error .minor

/-- A vector form with its width in the minor, or none: registers and predicate only. -/
def v3 (w : Nat) (f : BitVec 5 → BitVec 5 → BitVec 5 → BitVec 3 → Instr) : Except Reject Instr :=
  .ok (f (r5 w 18) (r5 w 13) (r5 w 8) (b3 w 0))

/-- Major 0x2C (R335). -/
def decVLogic (w : Nat) : Except Reject Instr :=
  match fld w 3 5 with
  | 0 => v3 w .vand | 1 => v3 w .vor | 2 => v3 w .vxor
  | 3 => v3 w .vshl32 | 4 => v3 w .vshl16 | 5 => v3 w .vshr32 | 6 => v3 w .vshr16 | 7 => v3 w .vsar32
  | 8 => v3 w .vsar16
  | _ => .error .minor

/-- Major 0x2D (R336). -/
def decVcmp (w : Nat) : Except Reject Instr := do
  let t ← vty w anyVTy
  let c ← code? (VCond.ofCode (fld w 21 2)) .range
  need (fld w 18 3 != 0) .range
  .ok (.vcmp c t (b3 w 18) (r5 w 13) (r5 w 8) (b3 w 0))

/-- Major 0x2E (R337). -/
def decVsel (w : Nat) : Except Reject Instr := do
  need (decide (fld w 3 5 < 2)) .minor
  v3 w (.vsel (bit w 3))

/-- Major 0x2F (R338). -/
def decVcvt (w : Nat) : Except Reject Instr := do
  let s ← code? (VTy.ofCode (fld w 8 5)) .range
  let d ← code? (VTy.ofCode (fld w 3 5)) .range
  need (s != d) .range
  .ok (.vcvt s d (r5 w 18) (r5 w 13) (b3 w 0))

/-- Major 0x31 (R340). -/
def decVred (w : Nat) : Except Reject Instr :=
  match fld w 8 5 with
  | 0 => decV2 w anyVTy .vredadd
  | 1 => decV2 w anyVTy .vredmin
  | 2 => decV2 w anyVTy .vredmax
  | 3 => do
      need (fld w 3 5 == 0) .range
      .ok (.vredx (r5 w 18) (r5 w 13) (b3 w 0))
  | _ => .error .minor

/-- Major 0x32 (R341). -/
def decVperm (w : Nat) : Except Reject Instr :=
  match fld w 4 4 with
  | 0 => v3 w (.vperm (bit w 3))
  | 1 => v3 w (.vzip (bit w 3))
  | 2 => v3 w (.vunzip (bit w 3))
  | 3 => v3 w (.vslideup (bit w 3))
  | 4 => v3 w (.vslidedn (bit w 3))
  | 5 => do
      zero w 13 5
      .ok (.vbcast (bit w 3) (r5 w 18) (r5 w 8) (b3 w 0))
  | _ => .error .minor

/-- Major 0x33 (R342). -/
def decPred (w : Nat) : Except Reject Instr := do
  need (decide (fld w 3 5 < 3)) .minor
  zero w 0 3; zero w 21 2; zero w 16 2; zero w 11 2
  need (fld w 18 3 != 0) .range
  match fld w 3 5 with
  | 0 => .ok (.pand (b3 w 18) (b3 w 13) (b3 w 8))
  | 1 => .ok (.por (b3 w 18) (b3 w 13) (b3 w 8))
  | _ => do
      zero w 8 3
      .ok (.pnot (b3 w 18) (b3 w 13))

/-- The accumulator group fields of a BM word (R237). -/
def group (w : Nat) : Except Reject (BitVec 2 × BitVec 2) := do
  let ab := BitVec.ofNat 2 (fld w 21 2)
  let ac := BitVec.ofNat 2 (fld w 19 2)
  need (groupOk ab ac) .range
  .ok (ab, ac)

/-- Major 0x38 (R362). -/
def decMgang (w : Nat) : Except Reject Instr := do
  zero w 0 4; zero w 4 1
  let g ← group w
  if fld w 6 1 = 1 then
    .ok (.mgang g.1 g.2 (b3 w 16) (.spad (BitVec.ofNat 4 (fld w 12 4))) (r5 w 7) (bit w 5))
  else do
    zero w 15 1
    .ok (.mgang g.1 g.2 (b3 w 16) (.tile (b3 w 12)) (r5 w 7) (bit w 5))

/-- Major 0x39 (R365). -/
def decMhouse (w : Nat) : Except Reject Instr := do
  zero w 0 4
  match fld w 4 3 with
  | 0 => do
      zero w 16 3; zero w 12 4; zero w 7 5
      let g ← group w
      .ok (.mzero g.1 g.2)
  | 1 => do
      zero w 18 1; zero w 12 4; zero w 7 5
      let g ← group w
      .ok (.mdup g.1 g.2 (BitVec.ofNat 2 (fld w 16 2)))
  | 2 => do
      zero w 7 16
      .ok .mstat
  | 3 => do
      zero w 16 3; zero w 7 5
      let g ← group w
      .ok (.mrest g.1 g.2 (BitVec.ofNat 4 (fld w 12 4)))
  | _ => .error .minor

/-- Major 0x3A (R366). -/
def decMdrain (w : Nat) : Except Reject Instr := do
  zero w 0 4; zero w 16 3
  let r ← code? (Rm.ofCode (fld w 4 3)) .range
  let g ← group w
  .ok (.mdrain g.1 g.2 (BitVec.ofNat 4 (fld w 12 4)) (r5 w 7) r)

/-- Major 0x3B (R343 to R345). DEDUCED (log entry 136): a code that `vqnt` and `vdqnt` do not have is an illegal word, as R344 says; R228
names ILLEGAL_OPERAND. -/
def decQuant (w : Nat) : Except Reject Instr :=
  match fld w 3 5 with
  | 0 => .ok (.vsplit (r5 w 18) (r5 w 13) (r5 w 8) (b3 w 0))
  | 1 => do
      let f ← code? (BlkFmt.ofCode (fld w 8 5)) .range
      .ok (.vqnt f (r5 w 18) (r5 w 13) (b3 w 0))
  | 2 => do
      let f ← code? (BlkFmt.ofCode (fld w 8 5)) .range
      .ok (.vdqnt f (r5 w 18) (r5 w 13) (b3 w 0))
  | _ => .error .minor

def decNopB (w : Nat) : Except Reject Instr := do
  need (fld w 0 5 == 0) .minor
  zero w 5 18
  .ok .nopB

/-- Class B by major (Table 12.11a). -/
def decB (w : Nat) : Except Reject Instr :=
  match fld w 23 6 with
  | 0x00 => decInt w
  | 0x01 => decLogic w
  | 0x02 => decUnary w
  | 0x03 => decLi w
  | 0x04 => decBi w .lih
  | 0x05 => decExt w .sext
  | 0x06 => decExt w .zext
  | 0x07 => decField w .bext
  | 0x08 => decBi w .addi
  | 0x09 => decField w .bins
  | 0x10 => decBi w .addpImm
  | 0x11 => decPtr w
  | 0x18 => decFArith false w
  | 0x19 => decFArith true w
  | 0x1A => decFDiv false w
  | 0x1B => decFDiv true w
  | 0x1C => decFMisc false w
  | 0x1D => decFMisc true w
  | 0x1E => decFcvt w
  | 0x20 => decV3 w anyVTy .vadd
  | 0x21 => decV3 w anyVTy .vsub
  | 0x22 => decV3 w anyVTy .vmul
  | 0x23 => decV3 w anyVTy .vmin
  | 0x24 => decV3 w anyVTy .vmax
  | 0x25 => decV4 w .vfmaF32
  | 0x26 => decV4 w .vfmsF32
  | 0x27 => decV4 w .vfmaBf16
  | 0x28 => decV4 w .vfmsBf16
  | 0x29 => decV4 w .vfmaF16
  | 0x2A => decV4 w .vfmsF16
  | 0x2B => decVUnary w
  | 0x2C => decVLogic w
  | 0x2D => decVcmp w
  | 0x2E => decVsel w
  | 0x2F => decVcvt w
  | 0x30 => decV3 w VTy.isFloat .vfins
  | 0x31 => decVred w
  | 0x32 => decVperm w
  | 0x33 => decPred w
  | 0x38 => decMgang w
  | 0x39 => decMhouse w
  | 0x3A => decMdrain w
  | 0x3B => decQuant w
  | 0x3F => decNopB w
  | _ => .error .major

/-- The instruction of a word, L and S aside (R233, R238, R246). -/
def decodeWord (w : Nat) : Except Reject Instr := if fld w 29 1 = 0 then decA w else decB w

/-- A word with its L and S bits (R233). -/
def decodeSlot (w : Nat) : Except Reject Slot := do
  let i ← decodeWord w
  .ok { lone := bit w 31, sw := bit w 30, instr := i }

/-- What the host asks the decoder: the instruction of an opcode-table word of `nbits` bits. The row's one word lies at
bits [31:0]; bits the table does not give are 0. -/
def decodeTableWord (nbits w : Nat) : Option Instr :=
  match decodeWord (w % 2 ^ (min nbits 32)) with
  | .ok i => some i
  | .error _ => none

/-! ### The encoder, from the same tables -/

def encAM (maj b y : Nat) (d : BitVec 11) : Nat := maj * 2 ^ 23 + b * 2 ^ 17 + y * 2 ^ 11 + d.toNat
def encAX (maj x y z m : Nat) : Nat := maj * 2 ^ 23 + x * 2 ^ 17 + y * 2 ^ 11 + z * 2 ^ 5 + m
def encBR (maj x y k m : Nat) : Nat := 2 ^ 29 + maj * 2 ^ 23 + x * 2 ^ 17 + y * 2 ^ 11 + k * 2 ^ 5 + m
def encBI (maj x k i : Nat) : Nat := 2 ^ 29 + maj * 2 ^ 23 + x * 2 ^ 17 + k * 2 ^ 11 + i
def encBV (maj vd va vb vc p : Nat) : Nat :=
  2 ^ 29 + maj * 2 ^ 23 + vd * 2 ^ 18 + va * 2 ^ 13 + vb * 2 ^ 8 + vc * 2 ^ 3 + p
def encBM (maj ab ac t dp nr m : Nat) : Nat :=
  2 ^ 29 + maj * 2 ^ 23 + ab * 2 ^ 21 + ac * 2 ^ 19 + t * 2 ^ 16 + dp * 2 ^ 12 + nr * 2 ^ 7 + m * 2 ^ 4

def encBR2 (maj m : Nat) (x y : Src) (k : Keep) : Nat := encBR maj x.code y.code (keepCode k) m
def encBR1 (maj m : Nat) (x : Src) (k : Keep) : Nat := encBR maj x.code 0 (keepCode k) m
def encV3 (maj m : Nat) (vd va vb : BitVec 5) (p : BitVec 3) : Nat := encBV maj vd.toNat va.toNat vb.toNat m p.toNat

/-- Bits [29:0] of an instruction's word; none for an event, which has no word. -/
def encode : Instr → Option Nat
  | .trap x n => some (encAX 0 x.code n.toNat 0 1)
  | .brk => some (encAX 0 0 0 0 2)
  | .eret x d => some (encAX 0 x.code d.code 0 3)
  | .ctlr c k => some (encAX 0 0 c.code (keepCode k) 4)
  | .ctlw c x => some (encAX 0 x.code c.code 0 5)
  | .shootDown x => some (encAX 0 x.code 0x23 0 5)
  | .shootDownDeny x => some (encAX 0 x.code 0x23 0 5)
  | .idle => some (encAX 0 0 0 0 6)
  | .pwrq k => some (encAX 0 0 0 (keepCode k) 7)
  | .harvest k => some (encAX 0 0 0 (keepCode k) 8)
  | .br d => some (0x01 * 2 ^ 23 + d.toNat)
  | .bc c d => some (0x01 * 2 ^ 23 + c.code * 2 ^ 18 + d.toNat)
  | .call d => some (0x02 * 2 ^ 23 + d.toNat)
  | .calli x => some (encAX 0x03 x.code 0 0 0)
  | .jmpi x => some (encAX 0x03 x.code 0 0 1)
  | .ret x => some (encAX 0x03 x.code 0 0 2)
  | .loop r d => some (0x04 * 2 ^ 23 + (32 + r.toNat) * 2 ^ 17 + d.toNat)
  | .rep x b sn sv => some (0x05 * 2 ^ 23 + x.code * 2 ^ 17 + b.toNat * 2 ^ 13 + sn.toNat * 2 ^ 9 + sv.toNat * 2 ^ 5)
  | .sched k => some (0x06 * 2 ^ 23 + keepCode k * 2 ^ 17)
  | .nop => some (0x07 * 2 ^ 23)
  | .ld t b k d => some (encAM (0x10 + t.code) b.code (keepCode k) d)
  | .ld128 b d => some (encAM 0x17 b.code 0 d)
  | .st t b y d => some (encAM (0x18 + t.code) b.code y.code d)
  | .prfR b d => some (encAM 0x1C b.code 0 d)
  | .prfW b d => some (encAM 0x1C b.code 1 d)
  | .ldx t x y k => some (encAX 0x1D x.code y.code (keepCode k) t.code)
  | .stx t x y z => some (encAX 0x1D x.code y.code z.code (0x10 + t.code))
  | .tld t x y => some (encAX 0x1E x.code y.code t.toNat 0)
  | .tst t x y => some (encAX 0x1E x.code y.code t.toNat 1)
  | .vld h vd x p => some (encAX 0x1F x.code (p.toNat * 8) vd.toNat (boolCode h))
  | .vst h vd x p => some (encAX 0x1F x.code (p.toNat * 8) vd.toNat (2 + boolCode h))
  | .vldb vd x p => some (encAX 0x1F x.code (p.toNat * 8) vd.toNat 4)
  | .vgat32 vd x vb => some (encAX 0x1F x.code vb.toNat vd.toNat 5)
  | .vgat16 vd x vb => some (encAX 0x1F x.code vb.toNat vd.toNat 6)
  | .vsca32 vd x vb => some (encAX 0x1F x.code vb.toNat vd.toNat 7)
  | .vsca16 vd x vb => some (encAX 0x1F x.code vb.toNat vd.toNat 8)
  | .atom op x y k => some (encAX 0x20 x.code y.code (keepCode k) op.code)
  | .atomCas wd x y z => some (encAX 0x21 x.code y.code z.code (boolCode wd))
  | .red op x y => some (encAX 0x22 x.code y.code 0 op.code)
  | .redx int x y => some (encAX 0x22 x.code y.code 0 (0x18 + 2 * boolCode int))
  | .fence k s => some (encAX 0x23 0 0 0 (k.code * 8 + s.code))
  | .waita wd x y k => some (encAX 0x24 x.code y.code (keepCode k) (boolCode wd))
  | .wake s x y => some (encAX 0x24 x.code y.code 0 (8 + s.code))
  | .phase t => some (encAX 0x25 0 t.toNat 0 0)
  | .arrive t d => some (encAX 0x25 0 t.toNat d.toNat 1)
  | .pwait t => some (encAX 0x25 0 t.toNat 0 2)
  | .time k => some (encAX 0x26 0 0 (keepCode k) 0)
  | .waitt x => some (encAX 0x26 x.code 0 0 1)
  | .spawn x y k => some (encAX 0x28 x.code y.code (keepCode k) 0)
  | .exit => some (encAX 0x28 0 0 0 1)
  | .yield => some (encAX 0x28 0 0 0 2)
  | .send x y => some (encAX 0x29 x.code y.code 0 0)
  | .sendT x y k => some (encAX 0x29 x.code y.code (keepCode k) 1)
  | .recv x k => some (encAX 0x29 x.code 0 (keepCode k) 2)
  | .recvT x k => some (encAX 0x29 x.code 0 (keepCode k) 3)
  | .sendt x y => some (encAX 0x2A x.code y.code 0 0)
  | .sendtT x y k => some (encAX 0x2A x.code y.code (keepCode k) 1)
  | .recvt x y => some (encAX 0x2A x.code y.code 0 2)
  | .recvtT x y k => some (encAX 0x2A x.code y.code (keepCode k) 3)
  | .altg g x => some (encAX 0x2B x.code g.toNat 0 0)
  | .alt k => some (encAX 0x2B 0 0 (keepCode k) 1)
  | .altT k => some (encAX 0x2B 0 0 (keepCode k) 2)
  | .chopen x y k => some (encAX 0x2C x.code y.code (keepCode k) 0)
  | .chclose x => some (encAX 0x2C x.code 0 0 1)
  | .chinfo x k => some (encAX 0x2C x.code 0 (keepCode k) 2)
  | .chbind x y k => some (encAX 0x2C x.code y.code (keepCode k) 3)
  | .enrol x y j => some (encAX 0x30 x.code y.code (32 + j.toNat) 0)
  | .unenrol x .free => some (encAX 0x30 x.code 0 16 1)
  | .unenrol x (.pair j) => some (encAX 0x30 x.code 0 (32 + j.toNat) 1)
  | .settle x k => some (encAX 0x30 x.code 0 (keepCode k) 2)
  | .chgrd x k => some (encAX 0x30 x.code 0 (keepCode k) 3)
  | .chgcmp x y k => some (encAX 0x30 x.code y.code (keepCode k) 4)
  | .repar x y k => some (encAX 0x30 x.code y.code (keepCode k) 5)
  | .copy x y z => some (encAX 0x31 x.code y.code z.code 0)
  | .copyt x y z => some (encAX 0x31 x.code y.code z.code 1)
  | .coll x => some (encAX 0x32 x.code 0 0 0)
  | .cmpr x y z => some (encAX 0x33 x.code y.code z.code 0)
  | .dcmp x y z => some (encAX 0x33 x.code y.code z.code 1)
  | .fork x y e => some (encAX 0x34 x.code y.code e.code 0)
  | .join x k => some (encAX 0x34 x.code 0 (keepCode k) 1)
  | .migMove x y => some (encAX 0x35 x.code y.code 0 0)
  | .migCancel x y => some (encAX 0x35 x.code y.code 0 0)
  | .migPinSet x y => some (encAX 0x35 x.code y.code 0 0)
  | .migPinClear x y => some (encAX 0x35 x.code y.code 0 0)
  | .migTakePage x y => some (encAX 0x35 x.code y.code 0 0)
  | .migReturnPage x y => some (encAX 0x35 x.code y.code 0 0)
  | .hot x k => some (encAX 0x35 x.code 0 (keepCode k) 1)
  | .bdeclLin x y => some (encAX 0x36 x.code y.code 0 0)
  | .bdeclRing x y z => some (encAX 0x36 x.code y.code z.code 1)
  | .bstateOpen x => some (encAX 0x36 x.code 0 0 2)
  | .bstateSeal x => some (encAX 0x36 x.code 0 0 3)
  | .bstateRel x => some (encAX 0x36 x.code 0 0 4)
  | .bquery x k => some (encAX 0x36 x.code 0 (keepCode k) 5)
  | .bqueryW x k => some (encAX 0x36 x.code 0 (keepCode k) 6)
  | .add x y k => some (encBR2 0 0 x y k)
  | .sub x y k => some (encBR2 0 1 x y k)
  | .mul x y k => some (encBR2 0 2 x y k)
  | .mulhI64 x y k => some (encBR2 0 3 x y k)
  | .mulhN64 x y k => some (encBR2 0 4 x y k)
  | .divI64 x y k => some (encBR2 0 5 x y k)
  | .divN64 x y k => some (encBR2 0 6 x y k)
  | .remI64 x y k => some (encBR2 0 7 x y k)
  | .remN64 x y k => some (encBR2 0 8 x y k)
  | .minI64 x y k => some (encBR2 0 9 x y k)
  | .minN64 x y k => some (encBR2 0 10 x y k)
  | .maxI64 x y k => some (encBR2 0 11 x y k)
  | .maxN64 x y k => some (encBR2 0 12 x y k)
  | .cmpI64 x y k => some (encBR2 0 13 x y k)
  | .cmpN64 x y k => some (encBR2 0 14 x y k)
  | .and x y k => some (encBR2 1 0 x y k)
  | .or x y k => some (encBR2 1 1 x y k)
  | .xor x y k => some (encBR2 1 2 x y k)
  | .andn x y k => some (encBR2 1 3 x y k)
  | .shl x y k => some (encBR2 1 4 x y k)
  | .shr x y k => some (encBR2 1 5 x y k)
  | .sar x y k => some (encBR2 1 6 x y k)
  | .rol x y k => some (encBR2 1 7 x y k)
  | .sel x y k => some (encBR2 1 8 x y k)
  | .neg x k => some (encBR1 2 0 x k)
  | .abs x k => some (encBR1 2 1 x k)
  | .not x k => some (encBR1 2 2 x k)
  | .clz x k => some (encBR1 2 3 x k)
  | .ctz x k => some (encBR1 2 4 x k)
  | .popc x k => some (encBR1 2 5 x k)
  | .li i k => some (encBI 3 (i.toNat / 2 ^ 11) (keepCode k) (i.toNat % 2 ^ 11))
  | .lih x i k => some (encBI 4 x.code (keepCode k) i.toNat)
  | .sext x w k => some (encBI 5 x.code (keepCode k) w.toNat)
  | .zext x w k => some (encBI 6 x.code (keepCode k) w.toNat)
  | .bext x w lo k => some (encBI 7 x.code (keepCode k) (w.toNat * 64 + lo.toNat))
  | .addi x i k => some (encBI 8 x.code (keepCode k) i.toNat)
  | .bins x w lo k => some (encBI 9 x.code (keepCode k) (w.toNat * 64 + lo.toNat))
  | .addpImm x i k => some (encBI 0x10 x.code (keepCode k) i.toNat)
  | .addp x y k => some (encBR2 0x11 0 x y k)
  | .fmtp x y k => some (encBR2 0x11 1 x y k)
  | .peer x y k => some (encBR2 0x11 2 x y k)
  | .ptrq x y k => some (encBR2 0x11 3 x y k)
  | .fadd dbl x y k r => some (encBR2 (0x18 + boolCode dbl) r.code x y k)
  | .fsub dbl x y k r => some (encBR2 (0x18 + boolCode dbl) (8 + r.code) x y k)
  | .fmul dbl x y k r => some (encBR2 (0x18 + boolCode dbl) (16 + r.code) x y k)
  | .fma dbl x y kr r => some (encBR2 (0x18 + boolCode dbl) (24 + r.code) x y (some kr))
  | .fdiv dbl x y k r => some (encBR2 (0x1A + boolCode dbl) r.code x y k)
  | .fsqrt dbl x k r => some (encBR1 (0x1A + boolCode dbl) (8 + r.code) x k)
  | .frint dbl x k r => some (encBR1 (0x1A + boolCode dbl) (16 + r.code) x k)
  | .fins dbl x y k r => some (encBR2 (0x1A + boolCode dbl) (24 + r.code) x y k)
  | .fmin dbl x y k => some (encBR2 (0x1C + boolCode dbl) 0 x y k)
  | .fmax dbl x y k => some (encBR2 (0x1C + boolCode dbl) 1 x y k)
  | .fabs dbl x k => some (encBR1 (0x1C + boolCode dbl) 2 x k)
  | .fneg dbl x k => some (encBR1 (0x1C + boolCode dbl) 3 x k)
  | .fcmp dbl x y k => some (encBR2 (0x1C + boolCode dbl) 4 x y k)
  | .fclass dbl x k => some (encBR1 (0x1C + boolCode dbl) 5 x k)
  | .fexf dbl x k => some (encBR1 (0x1C + boolCode dbl) 6 x k)
  | .fcvt s d x k r => some (encBR 0x1E x.code (s.code * 8 + d.code) (keepCode k) r.code)
  | .vadd t vd va vb p => some (encV3 0x20 t.code vd va vb p)
  | .vsub t vd va vb p => some (encV3 0x21 t.code vd va vb p)
  | .vmul t vd va vb p => some (encV3 0x22 t.code vd va vb p)
  | .vmin t vd va vb p => some (encV3 0x23 t.code vd va vb p)
  | .vmax t vd va vb p => some (encV3 0x24 t.code vd va vb p)
  | .vfmaF32 vd va vb vc p => some (encV3 0x25 vc.toNat vd va vb p)
  | .vfmsF32 vd va vb vc p => some (encV3 0x26 vc.toNat vd va vb p)
  | .vfmaBf16 vd va vb vc p => some (encV3 0x27 vc.toNat vd va vb p)
  | .vfmsBf16 vd va vb vc p => some (encV3 0x28 vc.toNat vd va vb p)
  | .vfmaF16 vd va vb vc p => some (encV3 0x29 vc.toNat vd va vb p)
  | .vfmsF16 vd va vb vc p => some (encV3 0x2A vc.toNat vd va vb p)
  | .vabs t vd va p => some (encV3 0x2B t.code vd va 0 p)
  | .vneg t vd va p => some (encV3 0x2B t.code vd va 1 p)
  | .vfrint t vd va p => some (encV3 0x2B t.code vd va 2 p)
  | .vfexf t vd va p => some (encV3 0x2B t.code vd va 3 p)
  | .vrcp t vd va p => some (encV3 0x2B t.code vd va 4 p)
  | .vrsq t vd va p => some (encV3 0x2B t.code vd va 5 p)
  | .vfclass t vd va p => some (encV3 0x2B t.code vd va 6 p)
  | .vpopc t vd va p => some (encV3 0x2B t.code vd va 7 p)
  | .vmov h vd va p => some (encV3 0x2B (boolCode h) vd va 8 p)
  | .vand vd va vb p => some (encV3 0x2C 0 vd va vb p)
  | .vor vd va vb p => some (encV3 0x2C 1 vd va vb p)
  | .vxor vd va vb p => some (encV3 0x2C 2 vd va vb p)
  | .vshl32 vd va vb p => some (encV3 0x2C 3 vd va vb p)
  | .vshl16 vd va vb p => some (encV3 0x2C 4 vd va vb p)
  | .vshr32 vd va vb p => some (encV3 0x2C 5 vd va vb p)
  | .vshr16 vd va vb p => some (encV3 0x2C 6 vd va vb p)
  | .vsar32 vd va vb p => some (encV3 0x2C 7 vd va vb p)
  | .vsar16 vd va vb p => some (encV3 0x2C 8 vd va vb p)
  | .vcmp c t pd va vb p => some (encBV 0x2D (c.code * 8 + pd.toNat) va.toNat vb.toNat t.code p.toNat)
  | .vsel h vd va vb p => some (encV3 0x2E (boolCode h) vd va vb p)
  | .vcvt s d vd va p => some (encBV 0x2F vd.toNat va.toNat s.code d.code p.toNat)
  | .vfins t vd va vb p => some (encV3 0x30 t.code vd va vb p)
  | .vredadd t vd va p => some (encV3 0x31 t.code vd va 0 p)
  | .vredmin t vd va p => some (encV3 0x31 t.code vd va 1 p)
  | .vredmax t vd va p => some (encV3 0x31 t.code vd va 2 p)
  | .vredx vd va p => some (encV3 0x31 0 vd va 3 p)
  | .vperm h vd va vb p => some (encV3 0x32 (boolCode h) vd va vb p)
  | .vzip h vd va vb p => some (encV3 0x32 (2 + boolCode h) vd va vb p)
  | .vunzip h vd va vb p => some (encV3 0x32 (4 + boolCode h) vd va vb p)
  | .vslideup h vd va n p => some (encV3 0x32 (6 + boolCode h) vd va n p)
  | .vslidedn h vd va n p => some (encV3 0x32 (8 + boolCode h) vd va n p)
  | .vbcast h vd k p => some (encV3 0x32 (10 + boolCode h) vd 0 k p)
  | .pand pd pa pb => some (encBV 0x33 pd.toNat pa.toNat pb.toNat 0 0)
  | .por pd pa pb => some (encBV 0x33 pd.toNat pa.toNat pb.toNat 1 0)
  | .pnot pd pa => some (encBV 0x33 pd.toNat pa.toNat 0 2 0)
  | .mgang ab ac t (.tile b) nr z => some (encBM 0x38 ab.toNat ac.toNat t.toNat b.toNat nr.toNat (2 * boolCode z))
  | .mgang ab ac t (.spad dp) nr z =>
      some (encBM 0x38 ab.toNat ac.toNat t.toNat dp.toNat nr.toNat (4 + 2 * boolCode z))
  | .mzero ab ac => some (encBM 0x39 ab.toNat ac.toNat 0 0 0 0)
  | .mdup ab ac s => some (encBM 0x39 ab.toNat ac.toNat s.toNat 0 0 1)
  | .mstat => some (encBM 0x39 0 0 0 0 0 2)
  | .mrest ab ac dp => some (encBM 0x39 ab.toNat ac.toNat 0 dp.toNat 0 3)
  | .mdrain ab ac dp nr r => some (encBM 0x3A ab.toNat ac.toNat 0 dp.toNat nr.toNat r.code)
  | .vsplit vd va k p => some (encV3 0x3B 0 vd va k p)
  | .vqnt f vd va p => some (encBV 0x3B vd.toNat va.toNat f.code 1 p.toNat)
  | .vdqnt f vd va p => some (encBV 0x3B vd.toNat va.toNat f.code 2 p.toNat)
  | .nopB => some (encBR 0x3F 0 0 0 0)
  | _ => none

/-- The whole word of a slot: L at bit 31, S at bit 30 (R233). -/
def encodeSlot (s : Slot) : Option Nat :=
  (encode s.instr).map fun w => boolCode s.lone * 2 ^ 31 + boolCode s.sw * 2 ^ 30 + w

/-- The constructors whose word is also another row's word: the decoder gives the first of them (`ctlw` to `ctl.shoot` is
one word whatever its operand, and so is `mig`). -/
def Instr.canonical : Instr → Bool
  | .shootDownDeny _ => false
  | .migCancel _ _ | .migPinSet _ _ | .migPinClear _ _ | .migTakePage _ _ | .migReturnPage _ _ => false
  | _ => true

end Sys2Proof
end

