-- ==== Sys2Proof/Config.lean ====
section
/-! DEFINITION. What an implementation fixes and the spec leaves open: the free values. Each is an opaque constant: no proof
can see a value of it (log entry 6). -/

namespace Sys2Proof.Config

/-- A free word, one for each number drawn from the state's counter (log entry 6). -/
opaque freeWord : Nat → Word

/-- A free choice between two outcomes, one for each number drawn from the state's counter (log entry 6). -/
opaque freeBit : Nat → Bool

/-- Which of the two bracketing values `fexf` gives for an input, by format width (R282): true for the upper. Fixed for each
input by the part. -/
opaque exfUpper : Nat → Nat → Bool

/-- The result of `vrcp` for an input, among those R334 allows, by lane format width: a choice of up to five values. -/
opaque rcpChoice : Nat → Nat → Nat

/-- The result of `vrsq` for an input, likewise (R334). -/
opaque rsqChoice : Nat → Nat → Nat

/-- What `vldb` and `vdqnt` write for the MXINT8 element 0x80 under X = 254: its value −2^128 is no binary32 value, and R330 and R345
state no other result (log entry 122). -/
opaque mxiLeast : BitVec 32

/-- The memory row that an address of a stack lies in: the spec gives no row addressing (log entry 26). -/
opaque rowOf : Nat → Nat

/-- Packet buffers of a ring input beyond the bubble buffer and one more (R26). -/
opaque ringBuffers : Nat

/-- Core cycles of a flit time (R39). -/
opaque flitTime : Nat

/-- Bytes that the device attached to a CXL root port reports, fixed at bring-up; 0 where none is configured (R29, R30). -/
opaque cxlCapacity : Nat → Nat

/-- The top public key that HKDF-SHA-256 gives from a seed (R58); the spec does not define the derivation further. -/
opaque identityKey : BitVec 256 → BitVec 256

/-- SHA-256, which Table 3.8 names and the spec does not define. -/
opaque sha256 : List (BitVec 8) → BitVec 256

/-- The routing table that firmware fills: the Buneam port for a destination module and partition, modulo 24 (R32). -/
opaque routeOf : Nat → Nat → Nat

end Sys2Proof.Config
end

