-- ==== Sys2Proof/Machine/Flags.lean ====
section
/-! DEFINITION. Numeric flags (Table 11.3) and IEEE arithmetic (R217 to R221, R274 to R284): every operation computes its
exact result and rounds it once. A finite value is a sign, a natural significand and a binary exponent. -/

namespace Sys2Proof.Machine

/-- Flag bits of Table 11.3. -/
def fNV : Word := 0x01
def fDZ : Word := 0x02
def fOF : Word := 0x04
def fUF : Word := 0x08
def fNX : Word := 0x10
def fAOVF : Word := 0x20
def fSAT : Word := 0x40

/-- A flag when a condition holds. -/
def flagIf (c : Bool) (f : Word) : Word := if c then f else 0

/-- A floating layout: exponent and fraction widths (Table 11.1). -/
structure Fmt where
  ebits : Nat
  fbits : Nat
  deriving DecidableEq, Repr

def binary32 : Fmt := { ebits := 8, fbits := 23 }
def binary64 : Fmt := { ebits := 11, fbits := 52 }
def bfloat16 : Fmt := { ebits := 8, fbits := 7 }
def float16 : Fmt := { ebits := 5, fbits := 10 }

/-- The format of a scalar form: `dbl` selects binary64 (R274). -/
def scalarFmt (dbl : Bool) : Fmt := if dbl then binary64 else binary32

def Fmt.width (f : Fmt) : Nat := 1 + f.ebits + f.fbits
def Fmt.bias (f : Fmt) : Int := 2 ^ (f.ebits - 1) - 1
/-- The exponent of the least normal number. -/
def Fmt.emin (f : Fmt) : Int := 1 - f.bias
/-- The exponent of the smallest subnormal. -/
def Fmt.qmin (f : Fmt) : Int := f.emin - f.fbits
def Fmt.signBit (f : Fmt) : Nat := 2 ^ (f.ebits + f.fbits)
/-- Magnitude bits of infinity. -/
def Fmt.inf (f : Fmt) : Nat := (2 ^ f.ebits - 1) * 2 ^ f.fbits
/-- The canonical NaN (Table 11.1). -/
def Fmt.nan (f : Fmt) : Nat := f.inf + 2 ^ (f.fbits - 1)

/-- The low bits that an operand of the format occupies (R247). -/
def Fmt.take (f : Fmt) (x : Nat) : Nat := x % 2 ^ f.width

def fneg? (f : Fmt) (x : Nat) : Bool := x / f.signBit % 2 == 1
def fmag (f : Fmt) (x : Nat) : Nat := x % f.signBit
def isNaN (f : Fmt) (x : Nat) : Bool := f.inf < fmag f x
/-- Signalling: the top fraction bit is 0 (R220). -/
def isSNaN (f : Fmt) (x : Nat) : Bool := isNaN f x && x / 2 ^ (f.fbits - 1) % 2 == 0
def isInf (f : Fmt) (x : Nat) : Bool := fmag f x == f.inf
def isZero (f : Fmt) (x : Nat) : Bool := fmag f x == 0
/-- Make a NaN quiet, sign and payload kept (R220). -/
def quiet (f : Fmt) (x : Nat) : Nat := if x / 2 ^ (f.fbits - 1) % 2 == 0 then x + 2 ^ (f.fbits - 1) else x

/-- Significand of a finite operand. -/
def fman (f : Fmt) (x : Nat) : Nat :=
  if fmag f x < 2 ^ f.fbits then fmag f x else fmag f x % 2 ^ f.fbits + 2 ^ f.fbits
/-- Exponent of the significand's unit. -/
def fexp (f : Fmt) (x : Nat) : Int :=
  if fmag f x < 2 ^ f.fbits then f.qmin else f.qmin + (fmag f x / 2 ^ f.fbits : Nat) - 1

/-- With the sign bit. -/
def withSign (f : Fmt) (neg : Bool) (mag : Nat) : Nat := if neg then f.signBit + mag else mag

/-- Whether rounding moves a truncated magnitude up: `n` the kept part, `rem` what is cut of a unit `2 ^ sh` (Table 11.2). -/
def roundUp (rm : Rm) (neg : Bool) (n rem sh : Nat) : Bool :=
  match rm with
  | .rne => decide (2 ^ sh < 2 * rem) || (2 * rem == 2 ^ sh && n % 2 == 1)
  | .rna => decide (2 ^ sh ≤ 2 * rem) && rem != 0
  | .rtz => false
  | .rdn => neg && rem != 0
  | .rup => !neg && rem != 0
  | .dyn => false

/-- `m × 2^e` in units of `2^q`: the kept part and whether it is inexact. -/
def roundAt (rm : Rm) (neg : Bool) (m : Nat) (e q : Int) : Nat × Bool :=
  if q ≤ e then (m * 2 ^ (e - q).toNat, false)
  else
    let sh := (q - e).toNat
    let n := m / 2 ^ sh
    let rem := m % 2 ^ sh
    (if roundUp rm neg n rem sh then n + 1 else n, rem != 0)

/-- The result of an overflow (R219). -/
def overflowMag (f : Fmt) (rm : Rm) (neg : Bool) : Nat :=
  match rm with
  | .rtz => f.inf - 1
  | .rdn => if neg then f.inf else f.inf - 1
  | .rup => if neg then f.inf - 1 else f.inf
  | _ => f.inf

/-- `RoundF`: the exact `±m × 2^e` in the format, with OF, UF and NX (R219). -/
def roundF (f : Fmt) (rm : Rm) (neg : Bool) (m : Nat) (e : Int) : Nat × Word :=
  if m = 0 then (withSign f neg 0, 0)
  else
    let top := e + (Nat.log2 m : Nat)
    let q := max (top - f.fbits) f.qmin
    let r := roundAt rm neg m e q
    let mag := (q - f.qmin).toNat * 2 ^ f.fbits + r.1
    if f.inf ≤ mag then (withSign f neg (overflowMag f rm neg), fOF ||| fNX)
    else
      -- tiny after rounding: the result with an unbounded exponent lies below the least normal number
      let wide := roundAt rm neg m e (top - f.fbits)
      let tiny := decide (top < f.emin) && !(decide (top + 1 = f.emin) && wide.1 == 2 ^ (f.fbits + 1))
      (withSign f neg mag, flagIf r.2 fNX ||| flagIf (r.2 && tiny) fUF)

/-- Under `ctl.rmode`, and with RNA read as RNE: the mode of arithmetic forms but `frint` (R218). -/
def arithRm (rm : Rm) : Rm := match rm with | .rna => .rne | r => r

/-- Invalid operation without a NaN operand (R220). -/
def invalid (f : Fmt) : Nat × Word := (f.nan, fNV)

/-- The NaN an operation returns: the first NaN of its operands, quieted, with NV if any signals (R220). -/
def nanOf (f : Fmt) (xs : List Nat) : Option (Nat × Word) :=
  match xs.find? (isNaN f) with
  | some x => some (quiet f x, flagIf (xs.any (isSNaN f)) fNV)
  | none => none

/-- Sum of two signed values `±m × 2^e` at a common exponent, as an integer and the exponent. -/
def sumAt (n₁ : Bool) (m₁ : Nat) (e₁ : Int) (n₂ : Bool) (m₂ : Nat) (e₂ : Int) : Int × Int :=
  let e := min e₁ e₂
  let a : Int := m₁ * 2 ^ (e₁ - e).toNat
  let b : Int := m₂ * 2 ^ (e₂ - e).toNat
  ((if n₁ then -a else a) + (if n₂ then -b else b), e)

/-- The sign of an exact zero sum: the common sign of the addends, else +0 but under RDN (R275). -/
def zeroSign (rm : Rm) (n₁ n₂ : Bool) : Bool := if n₁ == n₂ then n₁ else decide (rm = .rdn)

/-- `fadd` (R275). -/
def fAdd (f : Fmt) (rm : Rm) (x y : Nat) : Nat × Word :=
  match nanOf f [x, y] with
  | some r => r
  | none =>
    if isInf f x then if isInf f y && fneg? f x != fneg? f y then invalid f else (x, 0)
    else if isInf f y then (y, 0)
    else
      let s := sumAt (fneg? f x) (fman f x) (fexp f x) (fneg? f y) (fman f y) (fexp f y)
      if s.1 = 0 then (withSign f (zeroSign rm (fneg? f x) (fneg? f y)) 0, 0)
      else roundF f rm (decide (s.1 < 0)) s.1.natAbs s.2

/-- The operand with its sign inverted. -/
def flipSign (f : Fmt) (x : Nat) : Nat := if fneg? f x then x - f.signBit else x + f.signBit

/-- `fsub` (R275): a NaN operand keeps its sign. -/
def fSub (f : Fmt) (rm : Rm) (x y : Nat) : Nat × Word :=
  if isNaN f y then fAdd f rm x y else fAdd f rm x (flipSign f y)

/-- `fmul` (R275). -/
def fMul (f : Fmt) (rm : Rm) (x y : Nat) : Nat × Word :=
  match nanOf f [x, y] with
  | some r => r
  | none =>
    let neg := fneg? f x != fneg? f y
    if isInf f x || isInf f y then if isZero f x || isZero f y then invalid f else (withSign f neg f.inf, 0)
    else if isZero f x || isZero f y then (withSign f neg 0, 0)
    else roundF f rm neg (fman f x * fman f y) (fexp f x + fexp f y)

/-- `fma`: x × y + z with one rounding (R275). An invalid product with a NaN addend sets NV and returns the addend. -/
def fFma (f : Fmt) (rm : Rm) (x y z : Nat) : Nat × Word :=
  let badProduct := (isInf f x && isZero f y) || (isZero f x && isInf f y)
  match nanOf f [x, y, z] with
  | some r => (r.1, r.2 ||| flagIf badProduct fNV)
  | none =>
    if badProduct then invalid f
    else
      let neg := fneg? f x != fneg? f y
      if isInf f x || isInf f y then
        if isInf f z && fneg? f z != neg then invalid f else (withSign f neg f.inf, 0)
      else if isInf f z then (z, 0)
      else
        let s := sumAt neg (fman f x * fman f y) (fexp f x + fexp f y) (fneg? f z) (fman f z) (fexp f z)
        if s.1 = 0 then (withSign f (zeroSign rm neg (fneg? f z)) 0, 0)
        else roundF f rm (decide (s.1 < 0)) s.1.natAbs s.2

/-- A quotient or root cut to an integer, with a sticky bit below it when something was cut. -/
def sticky (q : Nat) (cut : Bool) : Nat := 2 * q + (if cut then 1 else 0)

/-- `fdiv` (R276). -/
def fDiv (f : Fmt) (rm : Rm) (x y : Nat) : Nat × Word :=
  match nanOf f [x, y] with
  | some r => r
  | none =>
    let neg := fneg? f x != fneg? f y
    if isInf f x then if isInf f y then invalid f else (withSign f neg f.inf, 0)
    else if isInf f y then (withSign f neg 0, 0)
    else if isZero f y then if isZero f x then invalid f else (withSign f neg f.inf, fDZ)
    else if isZero f x then (withSign f neg 0, 0)
    else
      let k := 2 * f.fbits + 8
      let n := fman f x * 2 ^ k
      roundF f rm neg (sticky (n / fman f y) (n % fman f y != 0)) (fexp f x - fexp f y - k - 1)

/-- Integer square root, one result bit a step from bit `k` down. -/
def isqrtFrom (n : Nat) (k r : Nat) : Nat :=
  let c := r + 2 ^ k
  let r' := if c * c ≤ n then c else r
  match k with
  | 0 => r'
  | j + 1 => isqrtFrom n j r'

/-- The greatest number whose square is at most `n`. -/
def isqrt (n : Nat) : Nat := isqrtFrom n (Nat.log2 n / 2 + 1) 0

/-- `fsqrt` (R276). -/
def fSqrt (f : Fmt) (rm : Rm) (x : Nat) : Nat × Word :=
  match nanOf f [x] with
  | some r => r
  | none =>
    if isZero f x then (x, 0)
    else if fneg? f x then invalid f
    else if isInf f x then (x, 0)
    else
      let odd := fexp f x % 2 != 0
      let m := if odd then 2 * fman f x else fman f x
      let e := if odd then fexp f x - 1 else fexp f x
      let k := f.fbits + 8
      let n := m * 2 ^ (2 * k)
      let r := isqrt n
      roundF f rm false (sticky r (r * r != n)) (e / 2 - k - 1)

/-- A finite value rounded to an integer magnitude under a mode, and whether it was inexact. -/
def toIntMag (f : Fmt) (rm : Rm) (x : Nat) : Nat × Bool := roundAt rm (fneg? f x) (fman f x) (fexp f x) 0

/-- `frint` (R277): no NX, OF or UF. -/
def fRint (f : Fmt) (rm : Rm) (x : Nat) : Nat × Word :=
  match nanOf f [x] with
  | some r => r
  | none =>
    if isInf f x || isZero f x || decide (0 ≤ fexp f x) then (x, 0)
    else ((roundF f .rne (fneg? f x) (toIntMag f rm x).1 0).1, 0)

/-- `fins`: x × 2^k (R278). Beyond 2^13 the exponent only says overflow or underflow. -/
def fIns (f : Fmt) (rm : Rm) (x : Nat) (k : Int) : Nat × Word :=
  match nanOf f [x] with
  | some r => r
  | none =>
    if isInf f x || isZero f x then (x, 0)
    else roundF f rm (fneg? f x) (fman f x) (fexp f x + max (-8192) (min 8192 k))

/-- Order of two numbers that are not NaN: as signed magnitudes, −0 and +0 told apart. -/
def fkey (f : Fmt) (x : Nat) : Int := if fneg? f x then -(fmag f x : Int) - 1 else fmag f x

/-- minimumNumber and maximumNumber (R220). -/
def fMinMax (f : Fmt) (max : Bool) (x y : Nat) : Nat × Word :=
  let nv := flagIf (isSNaN f x || isSNaN f y) fNV
  if isNaN f x then if isNaN f y then (quiet f x, nv) else (y, nv)
  else if isNaN f y then (x, nv)
  else (if decide (fkey f x ≤ fkey f y) != max then x else y, nv)

/-- Quiet comparison: 1 less, 2 equal, 4 greater, 8 unordered (R280). -/
def fCmp (f : Fmt) (x y : Nat) : Nat × Word :=
  let nv := flagIf (isSNaN f x || isSNaN f y) fNV
  if isNaN f x || isNaN f y then (8, nv)
  else if isZero f x && isZero f y then (2, nv)
  else (if fkey f x < fkey f y then 1 else if fkey f x = fkey f y then 2 else 4, nv)

/-- `fclass` mask (R281). -/
def fClass (f : Fmt) (x : Nat) : Nat :=
  if isNaN f x then if isSNaN f x then 2 ^ 8 else 2 ^ 9
  else if isInf f x then if fneg? f x then 2 ^ 0 else 2 ^ 7
  else if isZero f x then if fneg? f x then 2 ^ 3 else 2 ^ 4
  else if fmag f x < 2 ^ f.fbits then if fneg? f x then 2 ^ 2 else 2 ^ 5
  else if fneg? f x then 2 ^ 1 else 2 ^ 6

/-! ### 2^x on [−0.5, 0.5] (R282) -/

/-- Fixed-point precision of the evaluation of 2^x. -/
def expBits : Nat := 320

/-- Product of the factors 2^(2^−i) for the set bits of a fraction: `c` is 2^(2^−i) at the bit of weight `w = 2^(k−1−i)`,
in fixed point. -/
def expProd (fuel num w c acc : Nat) : Nat :=
  match fuel with
  | 0 => acc
  | n + 1 =>
    let c' := isqrt (c * 2 ^ expBits)
    let acc' := if num / w % 2 = 1 then acc * c' / 2 ^ expBits else acc
    if w = 1 then acc' else expProd n num (w / 2) c' acc'

/-- 2^(num / 2^k) for 0 ≤ num < 2^k in fixed point, cut down; k > 0. -/
def exp2Fix (num k : Nat) : Nat := expProd k num (2 ^ (k - 1)) (2 * 2 ^ expBits) (2 ^ expBits)

/-- The greatest value of the format at or below 2^x, for a nonzero finite x of magnitude at most 0.5. -/
def exf2Below (f : Fmt) (x : Nat) : Nat :=
  let one := (f.bias).toNat * 2 ^ f.fbits
  let tiny := decide (fexp f x + (Nat.log2 (fman f x) : Nat) < -((f.fbits : Int) + 8))
  if tiny then if fneg? f x then one - 1 else one
  else
    let k := (-(fexp f x)).toNat
    if fneg? f x then
      -- 2^x = 2^(1 − |x|) / 2, in [0.5, 1)
      let v := exp2Fix (2 ^ k - fman f x) k
      (f.bias - 1).toNat * 2 ^ f.fbits + (v / 2 ^ (expBits - f.fbits) - 2 ^ f.fbits)
    else
      let v := exp2Fix (fman f x) k
      one + (v / 2 ^ (expBits - f.fbits) - 2 ^ f.fbits)

/-- Whether |x| ≤ 0.5. -/
def inExfDomain (f : Fmt) (x : Nat) : Bool := decide (fmag f x ≤ ((f.bias).toNat - 1) * 2 ^ f.fbits)

/-- `fexf` (R282): one of the two bracketing values, by the part's free choice. -/
def fExf (f : Fmt) (x : Nat) : Nat × Word :=
  match nanOf f [x] with
  | some r => r
  | none =>
    if !inExfDomain f x then invalid f
    else if isZero f x then ((f.bias).toNat * 2 ^ f.fbits, 0)
    else (if Config.exfUpper f.width x then exf2Below f x + 1 else exf2Below f x, fNX)

/-! ### Conversions (R220, R221, R283) -/

/-- Between floating formats: NaN payloads by their top bits, quieted, NV if signalling. -/
def fConv (src dst : Fmt) (rm : Rm) (x : Nat) : Nat × Word :=
  if isNaN src x then
    let pay := x % 2 ^ src.fbits
    let pay' := if dst.fbits ≤ src.fbits then pay / 2 ^ (src.fbits - dst.fbits) else pay * 2 ^ (dst.fbits - src.fbits)
    (withSign dst (fneg? src x) (quiet dst (dst.inf + pay')), flagIf (isSNaN src x) fNV)
  else if isInf src x then (withSign dst (fneg? src x) dst.inf, 0)
  else roundF dst rm (fneg? src x) (fman src x) (fexp src x)

/-- A float to an integer range, saturating (R221): the integer and the flags. -/
def fToInt (f : Fmt) (rm : Rm) (lo hi : Int) (x : Nat) : Int × Word :=
  if isNaN f x then (0, fNV ||| fSAT)
  else if isInf f x then (if fneg? f x then lo else hi, fNV ||| fSAT)
  else
    -- a magnitude of 2^80 or more is out of every range
    if 80 ≤ fexp f x then (if fneg? f x then lo else hi, fNV ||| fSAT)
    else
      let r := toIntMag f rm x
      let v : Int := if fneg? f x then -(r.1 : Int) else r.1
      if v < lo then (lo, fNV ||| fSAT) else if hi < v then (hi, fNV ||| fSAT) else (v, flagIf r.2 fNX)

/-- An integer to a float (R221). -/
def fOfInt (f : Fmt) (rm : Rm) (v : Int) : Nat × Word := roundF f rm (decide (v < 0)) v.natAbs 0

end Sys2Proof.Machine
end

