-- ==== Sys2Proof/Machine/State.lean ====
section
/-! DEFINITION. The state of the J9: everything the spec gives the machine (INVENTORY.md, ## State), the reasons a step can
stop, and the state after reset. -/

namespace Sys2Proof.Machine

/-- A record of an event ring (R30, R35, R45, R52, R55, R84, R103, R110, R144, R174); `tag` is the TAG of the entry that started the
instance (R53). -/
inductive Event where
  | deadlock (inst report tag : Nat)
  | preemptLate (part : Nat)
  | instanceEnd (inst : Nat) (flags : Word) (tag : Nat)
  | fault (r : FRec)
  | migration (bytes : List Byte)
  | isolation (part frame : Nat)
  | portLost (d : Nat)
  | thermalTrip
  | ready
  | cxlAbsent (d : Nat)
  | patchSkipped (slot : Nat)
  | portDown (port : Nat)
  | parity (stack row : Nat)
  deriving DecidableEq, Repr

/-- A partition (R61 to R91, R99, R115, R123, R140, R207). -/
structure Part where
  level : Nat
  parent : Option Nat := none
  timeShared : Bool := false
  clusters : BitVec 64 := 0
  budget : Budget := {}
  queues : Nat := 0
  ptroot : Word := 0
  vtbase : Word := 0
  vtscale : Word := 0x100000000
  vtoff : Word := 0
  vtfloor : Word := 0
  migpol : Word := 0x0000_03E8_C008_1000
  mighand : Word := 0
  mgrhand : Word := 0
  /-- Granted pages by tier: first page and count (R91). -/
  grants : List (Nat × Nat × Nat) := []
  /-- Tier-0 pages that firmware keeps: save area, node table, spill table (R82, R207, R301): first page and count. -/
  resv : List (Nat × Nat) := []
  /-- Physical pages in use though no entry of its tables maps them: heaps, page tables, destinations of motions, pages the
  manager has taken from a pool and not returned (R91, R359). -/
  used : List Nat := []
  /-- The virtual page at which firmware lays out what it maps next (log entry 8). -/
  vnext : Nat := 1
  chans : NMap Chan := []
  nextProc : Nat := 1
  nodes : NMap Node := [(0, { live := true })]
  freeNodes : Nat := 1048575
  phases : NMap Phase := []
  spill : List Arm := []
  /-- Its event ring, and the ring's address in host memory. -/
  ring : List Event := []
  ringAddr : Nat := 0
  quies : Option Quies := none
  images : List SaveImg := []
  /-- Rotation (R77): it is the running child since this cycle. -/
  slice : Option Nat := none
  /-- The cores of a time-shared child that is off its slice, as its save area holds them (R83). -/
  off : List CoreImg := []
  /-- Pages of its save area whose bytes stand in the region of the other stack: the page and where it stands (R112). -/
  redirected : List (Nat × Nat) := []
  epochAt : Nat := 0
  migrated : Bool := false
  deriving DecidableEq, Repr

/-! ### The module -/

/-- A command with its arguments (Table 3.6); what an argument gives the address of is read from memory. `invalid`: an opcode or a
kind that Table 3.6 does not have. -/
inductive Cmd where
  | partcreate (mask : BitVec 64) (budget queues ring : Nat)
  | partsplit (parent : Nat) (mask : BitVec 64) (timeShared : Bool) (budget queues ring : Nat)
  | partdestroy (part : Nat)
  | netload (addr len : Nat)
  | launch (obj block : Nat)
  | replay (obj patch count : Nat)
  | signalHost (inst : Nat) (handle : W32) (v : Word)
  | signalPhase (inst slot dest : Nat)
  | preempt (part : Nat) (inst : Option Nat)
  | save (part : Nat) (dst len : Nat)
  | restore (img : Nat) (mask : BitVec 64)
  | migrate (part module : Nat)
  | keysetMemory (slot addr : Nat)
  | keysetBuneam (slot addr : Nat)
  | timeset (t : Word)
  | timeadj (ppb step : Int)
  | query (sel : Nat) (arg : Nat)
  | attest
  | invalid
  deriving DecidableEq, Repr

/-- Status codes, Table 3.5. -/
inductive Status where
  | pending | ok | busy | invalid | priv | nospace | notfound | locked | badsig | recovery | aborted
  deriving DecidableEq, Repr

/-- A command entry as the device has read it (Table 3.4), and the host address of its slot. -/
structure Entry where
  cmd : Cmd
  part : Nat := 0
  tag : Nat := 0
  fence : Bool := false
  reservedZero : Bool := true
  status : Status := .pending
  result : Word := 0
  slot : Nat := 0
  deriving DecidableEq, Repr

/-- A queue (R49 to R51): descriptor of Table 3.2, notify register of Table 3.3 and what the mapper keeps. -/
structure Queue where
  base : Word := 0
  enable : Bool := false
  cls : Nat := 2
  log2size : Nat := 6
  tail : Nat := 0
  head : Nat := 0
  /-- Entries it has read, and their number: by it an entry is named. -/
  entries : NMap Entry := []
  seen : Nat := 0
  bound : Bool := false
  consumed : Nat := 0
  boundAt : Nat := 0
  pending : Bool := false
  deriving DecidableEq, Repr

/-- TDISP interface states (R47). -/
inductive Tdisp where
  | unlocked | locked | run | error
  deriving DecidableEq, Repr

/-- A substitution in the repair log (R40). -/
inductive Repair where
  | core (c : Nat)
  | channel (stack ch : Nat)
  | lane (port : Nat)
  | row (stack row : Nat)
  deriving DecidableEq, Repr

/-- The configuration record of flash (R60) and its checks. -/
structure Config where
  good : Bool := true
  clusters : BitVec 64 := BitVec.allOnes 64
  spares : BitVec 64 := BitVec.allOnes 64
  power : Nat := 2600
  ports : BitVec 24 := BitVec.allOnes 24
  cxl : BitVec 4 := BitVec.allOnes 4
  minRev : BitVec 16 := 0x0100
  deriving DecidableEq, Repr

/-- A TDISP interface report: the partition's budgets and its key-slot binding (Table 3.8). -/
structure Report where
  budget : Budget
  keyslot : Nat
  deriving DecidableEq, Repr

/-- The choices of an SPDM session (R59). -/
inductive SpdmAlg where
  | hssLmsSha256 | sha256 | ecdheSecp384r1 | aes256gcm | dmtf
  deriving DecidableEq, Repr

/-- Attested measurements (Table 3.8): what the digests are of, the digests by index from 1 on, the choices of R59, the certificate and the
leaf that signed them (R58). -/
structure Meas where
  rom : BitVec 16
  image : List Byte
  /-- The code of the patch slots; none for an empty or skipped one. -/
  patches : List (Option (List Byte))
  algs : List SpdmAlg
  /-- The top key of the HSS key (R58), and the certificate that binds it. -/
  key : BitVec 256
  cert : BitVec 256
  config : Config
  repairs : List Repair
  iface : Option Report := none
  digests : List (BitVec 256) := []
  topLeaf : Nat
  leaf : Nat
  deriving DecidableEq, Repr

/-- A PCIe function (R46, R47, R59). -/
structure Fn where
  enabled : Bool := false
  tdisp : Tdisp := .unlocked
  ideKey : Option Nat := none
  /-- The wrapping key of the most recent secured SPDM session (R71). -/
  session : Option Nat := none
  /-- The choices of that session (R59). -/
  algs : List SpdmAlg := []
  /-- The interface report it last returned, whether a DOE discovery was answered, and the measurements it last returned. -/
  report : Option Report := none
  discovered : Bool := false
  measured : Option Meas := none
  deriving DecidableEq, Repr

/-- A flit sent: its sequence number, key slot, payload length in units of 8 B, nonce (session identifier and count of flits under the
key) and message (R33, R34). -/
structure SentFlit where
  seq : Nat
  slot : Nat
  units : Nat
  session : Nat
  count : Nat
  msg : FabMsg
  deriving DecidableEq, Repr

/-- A Buneam port (R32 to R37, R76). -/
structure BPort where
  lanes : Nat := 4
  spare : Bool := true
  retrain : Bool := false
  half : Bool := false
  down : Bool := false
  key : Option Nat := none
  /-- The session identifier set with the link key, and the flits sent under it (R34). -/
  session : Nat := 0
  sent : Nat := 0
  txSeq : BitVec 16 := 0
  rxSeq : BitVec 16 := 0
  /-- The last 512 flits sent, oldest first. -/
  replay : List SentFlit := []
  /-- Flits waiting at the sender: key slot, payload length and message. -/
  queue : List (Nat × Nat × FabMsg) := []
  macFail : Option Nat := none
  /-- Negative acknowledgements sent, and flits sent again on those received (R35). -/
  nacks : Nat := 0
  resent : Nat := 0
  stamp : Option Word := none
  deriving DecidableEq, Repr

/-- An entry of the Buneam key table (R72). -/
structure BKey where
  localPart : Nat
  module : Nat
  remotePart : Nat
  key : Nat
  session : Nat
  /-- Flits sent under the key (R34). -/
  sent : Nat := 0
  deriving DecidableEq, Repr

/-- A CXL root port (R30, R31). -/
structure Cxl where
  /-- Its device requires a feature that Table 2.3 does not name, and is not configured. -/
  absent : Bool := false
  retraining : Bool := false
  attempts : Nat := 0
  lost : Bool := false
  /-- Lines in the bad-line list of its controller, by address (R104). -/
  bad : List Nat := []
  deriving DecidableEq, Repr

/-- A memory stack and its base die (R28, R40, R41, R110 to R112). -/
structure Stack where
  /-- The pseudo-channel the spare stands for, and one being copied. -/
  substituted : Option Nat := none
  copying : Option Nat := none
  /-- Lines in the bad-line list, by address. -/
  bad : List Nat := []
  /-- Rows under repair and rows repaired. -/
  repairing : List Nat := []
  repaired : List Nat := []
  /-- Activation counters with their parity bit good or not; refreshes queued. -/
  acts : NMap (Nat × Bool) := []
  refresh : List Nat := []
  logged : Nat := 0
  retraining : Bool := false
  /-- A retrain waits for a save stream (R111). -/
  retrainWaits : Bool := false
  /-- A save stream was redirected to the other stack of the die (R112). -/
  redirected : Bool := false
  deriving DecidableEq, Repr

/-- A packet at a router input: the cycle of its arrival, its place in the order of arrivals, and the output branches that a
multicast has reserved. -/
structure Waiter where
  pkt : Packet
  since : Nat := 0
  order : Nat := 0
  reserved : List Port := []
  urgent : Bool := false
  deriving DecidableEq, Repr

/-- A torus router (R25 to R27, R38, R39): the packets of each input, those on the link to it, and per output the input served
last. -/
structure Router where
  inputs : NMap (List Waiter) := []
  links : NMap (List Packet) := []
  last : NMap Nat := []
  arrivals : Nat := 0
  delivered : List Nat := []
  retransmits : Nat := 0
  deriving DecidableEq, Repr

/-- A patch slot of flash (R52). -/
structure Patch where
  target : BitVec 16
  good : Bool
  code : List Byte := []
  deriving DecidableEq, Repr

/-- One move of the machine's schedule: an issue turn of the next context, a span of core cycles with nothing issued, an
issue turn of an engine thread, or an event. The schedule is plain data of the state: which agent moves next (R108, R132,
R190). -/
inductive Move where
  | turn
  | tick (cc : Nat)
  | engine (thread : Nat)
  | event (i : Instr)
  /-- The host writes its memory (R50). -/
  | host (addr : Nat) (bytes : List Byte)
  /-- The host writes a configuration record to flash (R57, R60). -/
  | flash (config : Config)
  /-- The parity bit of a row's activation counter fails (R110). -/
  | parity (stack row : Nat)
  /-- A double-bit error is detected in the registers that the next word of a running process reads (R42). -/
  | upset (proc : Nat)
  /-- A 128 B line of memory or of a scratchpad comes to hold an error that its check will detect and cannot correct (R42). -/
  | decay (key : Nat)
  deriving DecidableEq, Repr

/-- Module flash (R40, R45, R52, R58, R60). -/
structure Flash where
  config : Config := {}
  repairGood : Bool := true
  repairs : List Repair := []
  patches : NMap Patch := []
  /-- The device certificate, by the top public key that it binds. -/
  cert : BitVec 256 := 0
  topLeaf : Nat := 1
  deriving DecidableEq, Repr

/-- A compute die: slowing (R44), vector clock (R192). -/
structure Die where
  slow : Bool := false
  clock : Clock := Clock.zero
  deriving DecidableEq, Repr

/-- A node slice and cluster agent (R92, R105, R136, R301). -/
structure Cluster where
  monitors : List Arm := []
  tlb : List TlbEnt := []
  nextSteal : Nat := 0
  /-- Requests at the slice's memory servers, in their order of arrival: 8 contexts, then a queue of 64 (R105). -/
  reqs : List Nat := []
  deriving DecidableEq, Repr

/-- A shared engine (R68, R92, R95, R356): key 1024 kind + unit number. -/
structure Engine where
  tlb : List TlbEnt := []
  sideLog : List SideEnt := []
  /-- Its running thread and those that wait for it, in fork order. -/
  forks : List Nat := []
  last : Nat := 0
  deriving DecidableEq, Repr

/-- The word in issue, latched by the step for its meaning: the process, where the word stands, what follows it, and the
process as it stood before the pair, with its core in a B word's case (R148). -/
structure Issue where
  proc : Nat
  loc : Word
  next : Word
  bword : Bool := false
  sw : Bool := false
  pre : Proc
  kpre : Option Core := none
  /-- The A word of the pair has hit a watch (R177). -/
  hit : Bool := false
  deriving DecidableEq, Repr

/-- The machine. -/
structure State where
  /-- Memory by key: physical addresses below 2^51, and the regions of Machine/Ops.lean above them. -/
  mem : List Host.Cell
  time : Word
  timeRem : Nat
  cycle : Nat
  /-- Cores below this number have had their turns of the cycle. -/
  turnCore : Nat
  timePpb : Int
  timeSlew : Int
  ppsLatch : Word
  recovery : Bool
  /-- The host has been told that the device is ready (R45). -/
  hostTold : Bool
  stopped : Bool
  romRev : BitVec 16
  romImage : List Byte
  /-- What the physically unclonable function gives, and the seed that firmware reconstructed from it at reset (R58). -/
  puf : BitVec 256
  seed : BitVec 256
  /-- Patch slots copied into patch RAM, with their code (R52). -/
  patchRam : NMap (List Byte)
  /-- The counter is locked to the time of the other modules (R76). -/
  timeLock : Bool
  lowerUsed : Nat
  flash : Flash
  dies : NMap Die
  queues : NMap Queue
  lastBound : Nat
  fns : NMap Fn
  ring : List Event
  /-- Records of the event rings of partitions that have been destroyed; the rings lie in host memory (R63, R103, R178). -/
  pastRing : List (Nat × Event)
  ports : NMap BPort
  keys : NMap BKey
  memKeys : NMap Nat
  cxl : NMap Cxl
  mbds : NMap Stack
  routers : NMap Router
  parts : NMap Part
  objs : NMap NetObj
  insts : NMap Inst
  gangs : NMap Gang
  procs : NMap Proc
  cores : NMap Core
  clusters : NMap Cluster
  engines : NMap Engine
  txns : NMap Txn
  recs : NMap FRec
  managed : List Nat
  /-- Phase arrivals sent to other modules and not answered (R140, R379). -/
  farArr : NMap FarArrival
  /-- Save images that SAVE has written (R83). -/
  saved : List SaveImg
  xmsgs : List XMsg
  /-- Lines of memory and of scratchpads with an error that their check will detect and cannot correct (R42). -/
  flaws : List Nat
  windows : NMap (List (Nat × Word))
  hot : NMap Nat
  lineCount : NMap Nat
  grans : NMap Gran
  tokens : NMap Token
  motions : NMap Motion
  nextTxn : Nat
  nextId : Nat
  fresh : Nat
  moduleId : Nat
  agenda : List Move
  auto : Bool
  issue : Option Issue
  raised : Option Trap
  deriving DecidableEq, Repr

/-- Why the machine stops. -/
inductive Fault where
  /-- Raised by the meaning of an instruction word executed with no process in issue: a state that `step` never makes.
  Safe: the hardware issues a word only from a context or an engine thread. -/
  | noProcess
  deriving DecidableEq, Repr

/-- Why the model gives no next state. -/
inductive Refusal where
  /-- Raised by the dispatch for an instruction without a meaning yet. Safe. -/
  | notModelled (mnemonic : String)
  deriving DecidableEq, Repr

/-- The state after reset (R45 step 6): ready, nothing created, every table empty. Values the spec does not give are in
notes/assumptions/1.md to 3.md. -/
def State.reset : State where
  mem := []
  time := 0
  timeRem := 0
  cycle := 0
  turnCore := 0
  timePpb := 0
  timeSlew := 0
  ppsLatch := 0
  recovery := false
  hostTold := true
  stopped := false
  romRev := 0x0100
  romImage := []
  puf := 0
  seed := 0
  timeLock := false
  patchRam := []
  lowerUsed := 0
  flash := {}
  dies := []
  queues := []
  lastBound := 0
  fns := []
  ring := []
  pastRing := []
  ports := []
  keys := []
  memKeys := []
  cxl := []
  mbds := []
  routers := []
  parts := []
  objs := []
  insts := []
  gangs := []
  procs := []
  cores := []
  clusters := []
  engines := []
  txns := []
  recs := []
  managed := []
  farArr := []
  saved := []
  xmsgs := []
  flaws := []
  windows := []
  hot := []
  lineCount := []
  grans := []
  tokens := []
  motions := []
  nextTxn := 1
  nextId := 1
  fresh := 0
  moduleId := 0
  agenda := []
  auto := true
  issue := none
  raised := none

end Sys2Proof.Machine
end

