-- ==== Sys2Proof/Machine/Mem.lean ====
section
/-! DEFINITION. Memory as plain data: cells of an address and a byte, addresses strictly rising, no cell that equals what an
unlisted address reads as. One key space holds every store of bytes: physical memory (R29), the scratchpads (R159), host
memory (space 0x6) and the space 0x0 of other modules that space 0x5 names (R288). -/

namespace Sys2Proof.Machine

/-- What an address that nothing has written reads as (log entry 3). -/
def unlisted : Byte := 0

/-- Keys of a core's scratchpad (R160). -/
def spadKey (core off : Nat) : Nat := 2 ^ 52 + core * 2 ^ 18 + off
/-- Keys of host memory (space 0x6). -/
def hostKey (off : Nat) : Nat := 2 ^ 64 + off
/-- Keys of space 0x0 of the partition that module `m` holds for space 0x5 (R288). -/
def fabKey (m off : Nat) : Nat := 2 ^ 80 + m * 2 ^ 41 + off

/-- One byte of memory. -/
def readByte (m : List Host.Cell) (k : Nat) : Byte := nget unlisted m k

/-- Write one byte, keeping the canonical form. -/
def writeByte (m : List Host.Cell) (k : Nat) (b : Byte) : List Host.Cell := if b = unlisted then ndel m k else nset m k b

/-- `n` bytes from `k` up. -/
def readBytes (m : List Host.Cell) (k n : Nat) : List Byte :=
  match n with
  | 0 => []
  | j + 1 => readByte m k :: readBytes m (k + 1) j

/-- Write bytes from `k` up. -/
def writeBytes (m : List Host.Cell) (k : Nat) (bs : List Byte) : List Host.Cell :=
  match bs with
  | [] => m
  | b :: t => writeBytes (writeByte m k b) (k + 1) t

/-- Make `n` bytes from `k` up zero. -/
def clearBytes (m : List Host.Cell) (k n : Nat) : List Host.Cell :=
  match m with
  | [] => []
  | c :: t => if k ≤ c.1 ∧ c.1 < k + n then clearBytes t k n else c :: clearBytes t k n

/-- The cells of `n` bytes from `k` up. -/
def cellsIn (m : List Host.Cell) (k n : Nat) : List Host.Cell :=
  match m with
  | [] => []
  | c :: t => if k ≤ c.1 ∧ c.1 < k + n then c :: cellsIn t k n else cellsIn t k n

/-- Put cells back at their addresses. -/
def putCells (m : List Host.Cell) (cs : List Host.Cell) : List Host.Cell :=
  match cs with
  | [] => m
  | c :: t => putCells (writeByte m c.1 c.2) t

/-- Keys strictly rising from a lower bound, no unlisted value listed. -/
def wfFrom (lo : Nat) (m : List Host.Cell) : Bool :=
  match m with
  | [] => true
  | c :: t => decide (lo ≤ c.1) && c.2 != unlisted && wfFrom (c.1 + 1) t

/-- The canonical form of memory. -/
def Memory.wf (m : List Host.Cell) : Bool := wfFrom 0 m

/-- Little-endian value of bytes (R4). -/
def leNat (bs : List Byte) : Nat :=
  match bs with
  | [] => 0
  | b :: t => b.toNat + 256 * leNat t

/-- The `n` low bytes of a value, least significant first (R4). -/
def leBytes (n v : Nat) : List Byte :=
  match n with
  | 0 => []
  | j + 1 => BitVec.ofNat 8 v :: leBytes j (v / 256)

/-- A 64-bit word of memory. -/
def readWord (m : List Host.Cell) (k : Nat) : Word := BitVec.ofNat 64 (leNat (readBytes m k 8))

/-- Write a 64-bit word. -/
def writeWord (m : List Host.Cell) (k : Nat) (w : Word) : List Host.Cell := writeBytes m k (leBytes 8 w.toNat)

/-- Bits [hi:lo] of a value. -/
def bits (w : Nat) (hi lo : Nat) : Nat := w / 2 ^ lo % 2 ^ (hi + 1 - lo)

end Sys2Proof.Machine
end

