-- ==== Sys2Proof/Machine/Ops.lean ====
section
/-! DEFINITION. The named operations of the machine: access to the parts of the state, time, the scheduler's queues, the
delivery of values to what a word reserved, the ends of channels, the end of a process, and the one operation that takes a
fault (R169 to R175) with the return from it beside it (R173, R258). -/

namespace Sys2Proof.Machine

/-! ### Parts of the state -/

def State.proc (s : State) (k : Nat) : Proc := nget {} s.procs k
def State.setProc (s : State) (k : Nat) (p : Proc) : State := { s with procs := nset s.procs k p }
def State.core (s : State) (c : Nat) : Core := nget {} s.cores c
def State.setCore (s : State) (c : Nat) (k : Core) : State := { s with cores := nset s.cores c k }
def State.part (s : State) (p : Nat) : Part := nget { level := 0 } s.parts p
def State.setPart (s : State) (p : Nat) (q : Part) : State := { s with parts := nset s.parts p q }
def State.cluster (s : State) (c : Nat) : Cluster := nget {} s.clusters c
def State.setCluster (s : State) (c : Nat) (k : Cluster) : State := { s with clusters := nset s.clusters c k }
def State.engine (s : State) (e : Nat) : Engine := nget {} s.engines e
def State.setEngine (s : State) (e : Nat) (k : Engine) : State := { s with engines := nset s.engines e k }
def State.die (s : State) (d : Nat) : Die := nget {} s.dies d
def State.setDie (s : State) (d : Nat) (k : Die) : State := { s with dies := nset s.dies d k }
def State.fn (s : State) (f : Nat) : Fn := nget {} s.fns f
def State.setFn (s : State) (f : Nat) (k : Fn) : State := { s with fns := nset s.fns f k }
def State.port (s : State) (b : Nat) : BPort := nget {} s.ports b
def State.setPort (s : State) (b : Nat) (k : BPort) : State := { s with ports := nset s.ports b k }
def State.mbd (s : State) (k : Nat) : Stack := nget {} s.mbds k
def State.setMbd (s : State) (k : Nat) (m : Stack) : State := { s with mbds := nset s.mbds k m }
def State.setInst (s : State) (i : Nat) (v : Inst) : State := { s with insts := nset s.insts i v }
def State.inst (s : State) (i : Nat) : Inst := nget { part := 0, obj := 0 } s.insts i
def State.setTxn (s : State) (t : Nat) (v : Txn) : State := { s with txns := nset s.txns t v }

/-- Change a process in place. -/
def State.modProc (s : State) (k : Nat) (f : Proc → Proc) : State := s.setProc k (f (s.proc k))
def State.modCore (s : State) (c : Nat) (f : Core → Core) : State := s.setCore c (f (s.core c))
def State.modPart (s : State) (p : Nat) (f : Part → Part) : State := s.setPart p (f (s.part p))
/-- Change an instance that is live. -/
def State.modInst (s : State) (i : Nat) (f : Inst → Inst) : State := { s with insts := nmod s.insts i f }
/-- Change a transaction that exists. -/
def State.modTxn (s : State) (t : Nat) (f : Txn → Txn) : State := { s with txns := nmod s.txns t f }

/-- A context of a core. -/
def Core.ctx (c : Core) (j : Nat) : Ctx := nget {} c.ctxs j
def Core.setCtx (c : Core) (j : Nat) (x : Ctx) : Core := { c with ctxs := nset c.ctxs j x }
def Core.queue (c : Core) (prio : Nat) : List Nat := nget [] c.ready prio
def Core.setQueue (c : Core) (prio : Nat) (l : List Nat) : Core := { c with ready := nset c.ready prio l }
def Core.obj (c : Core) (j : Nat) : Obj := nget {} c.objs j
def Core.setObj (c : Core) (j : Nat) (o : Obj) : Core := { c with objs := nset c.objs j o }

/-- Partition and process number of a handle (R115). An engine thread (R356) has the key of its transaction above 2^32 and
its issuer's handle below it. -/
def partOf (h : Nat) : Nat := h / 2 ^ 26 % 64
def numOf (h : Nat) : Nat := h % 2 ^ 26
def handleOf (part num : Nat) : Nat := part * 2 ^ 26 + num
def engineKey (txn issuer : Nat) : Nat := (txn + 1) * 2 ^ 32 + issuer % 2 ^ 32
/-- The process that a key stands for: itself, or the issuer of an engine thread. -/
def ownerOf (k : Nat) : Nat := k % 2 ^ 32

/-- Cluster and die of a core, die of a cluster (R24). -/
def clusterOf (core : Nat) : Nat := core / 8
def dieOfNode (node : Nat) : Nat := 2 * (node / 8 / 4) + node % 8 / 4
def dieOf (core : Nat) : Nat := dieOfNode (clusterOf core)
/-- The node of a die with a die-local number (R24). -/
def nodeOfDie (die loc : Nat) : Nat := 8 * (4 * (die / 2) + loc / 4) + 4 * (die % 2) + loc % 4

/-- The channel of a partition. -/
def State.chan? (s : State) (part ch : Nat) : Option Chan := nget? (s.part part).chans ch
def State.setChan (s : State) (part ch : Nat) (c : Chan) : State :=
  s.modPart part fun q => { q with chans := nset q.chans ch c }
def State.modChan (s : State) (part ch : Nat) (f : Chan → Chan) : State :=
  s.modPart part fun q => { q with chans := nmod q.chans ch f }

/-- The type table entry of a channel (Table 6.6), and its size in bytes. -/
def chanTy (s : State) (part : Nat) (c : Chan) : Nat := ((s.part part).budget.typeTable.getD c.ty 0).toNat
def tyBytes (w : Nat) : Nat := bits w 31 16

/-- Where firmware lays the message slots of a channel and the register image of a process: memory of its own, which no page table
maps (log entry 89). A channel's slots take 16 MiB of it, an image 16 KiB. -/
def bufKey (part ch : Nat) : Nat := 2 ^ 56 + (part * 2 ^ 24 + ch) * 2 ^ 24
def imgKey (k : Nat) : Nat := 2 ^ 55 + k % 2 ^ 32 * 2 ^ 14

/-- A message goes into the slot at TAIL of a buffered channel, each slot BYTES rounded up to 64 B (R125). -/
def State.putSlot (s : State) (part ch sender : Nat) (bs : List Byte) : State :=
  match s.chan? part ch with
  | none => s
  | some c =>
    let size := (tyBytes (chanTy s part c) + 63) / 64 * 64
    let s : State := { s with mem := writeBytes s.mem (bufKey part ch + c.tail * size) bs }
    s.setChan part ch { c with msgs := c.msgs ++ [(sender, bs)], tail := (c.tail + 1) % max 1 c.depth }

/-- The oldest message leaves its slot. -/
def Chan.dropMsg (c : Chan) (n : Nat) : Chan := { c with msgs := c.msgs.drop n, head := (c.head + n) % max 1 c.depth }

/-- A new transaction. -/
def State.newTxn (s : State) (t : Txn) : State × Nat :=
  ({ s with txns := nset s.txns s.nextTxn t, nextTxn := s.nextTxn + 1 }, s.nextTxn)

/-- Remove a transaction. -/
def State.dropTxn (s : State) (t : Nat) : State := { s with txns := ndel s.txns t }

/-- Records of the module's event ring. -/
def State.ringDev (s : State) (e : Event) : State := { s with ring := s.ring ++ [e] }
/-- The isolation event of a walk that met a page of another owner (R91). -/
def State.isolate (s : State) (part : Nat) (f : Option Nat) : State :=
  match f with | some f => s.ringDev (.isolation part f) | none => s

/-- A free word: the value of an opaque constant at a number that is used once (log entry 6). -/
def State.draw (s : State) : State × Word := ({ s with fresh := s.fresh + 1 }, Config.freeWord s.fresh)

/-! ### Clocks (R192) -/

/-- An entry of a vector clock. -/
def clk (v : Clock) (e : Nat) : Nat := v.toList.getD e 0
/-- The least clock at or above two. -/
def Clock.join (a b : Clock) : Clock := Vector.ofFn fun e : Fin 4 => max (clk a e.val) (clk b e.val)
/-- Every message that `a` counts is counted by `b`. -/
def Clock.le (a b : Clock) : Bool := [0, 1, 2, 3].all fun e => decide (clk a e ≤ clk b e)
/-- The clock with one more message of die `d`. -/
def Clock.bump (a : Clock) (d : Nat) : Clock := Vector.ofFn fun e : Fin 4 => if e.val = d then clk a d + 1 else clk a e.val

/-- A message carries a write of process `k` from before transaction `t`. -/
def XMsg.below (m : XMsg) (k t : Nat) : Bool := (m.proc == k && decide (m.txn < t)) || m.also.any fun e => e.1 == k && decide (e.2 < t)
/-- It carries the write of one transaction. -/
def XMsg.ofTxn (m : XMsg) (t : Nat) : Bool := m.txn == t || m.also.any fun e => e.2 == t

/-- Tags of the messages that carry writes of process `k`, those of transactions below `t`, to dies that have not applied them. -/
def State.tagsOf (s : State) (k t : Nat) : Clock :=
  (s.xmsgs.filter (·.below k t)).foldl (fun c m => c.join m.tag) Clock.zero
/-- What happens before an operation `t` of a process that orders all that precedes it: what its die has applied, what its reads
have returned, and its own writes (R188, R198, R199). -/
def State.pastOf (s : State) (k t : Nat) : Clock :=
  let p := s.proc k
  (((s.die (dieOf p.core)).clock.join p.know).join p.floor).join (s.tagsOf k t)
/-- A process accesses memory again only once its die has applied these messages. -/
def State.raiseFloor (s : State) (k : Nat) (c : Clock) : State :=
  if c = Clock.zero ∨ (nget? s.procs k).isNone then s else s.modProc k fun p => { p with floor := p.floor.join c }
/-- What a read has returned to a process. -/
def State.learn (s : State) (k : Nat) (c : Clock) : State :=
  if c = Clock.zero ∨ (nget? s.procs k).isNone then s else s.modProc k fun p => { p with know := p.know.join c }

/-! ### Time (R5, R54, R74) -/

/-- Units of the device counter's remainder in a nanosecond: 7 × 10^9, a nominal cycle being 4 × 10^9 of them. -/
def nsUnits : Nat := 7000000000

/-- Let `n` core cycles pass: the device counter gains 4/7 ns a cycle, adjusted by the frequency offset, and a pending
negative phase step is taken as a slew of at most 100 ppm (R54). -/
def State.advance (s : State) (n : Nat) : State :=
  let gain : Int := n * (4 * (1000000000 + s.timePpb))
  let slew : Int := min (-s.timeSlew) (n * 400000)
  let total : Nat := s.timeRem + (gain - slew).toNat
  { s with
    cycle := s.cycle + n
    timeSlew := s.timeSlew + slew
    time := s.time + BitVec.ofNat 64 (total / nsUnits)
    timeRem := total % nsUnits }

/-- VirtualTime of a partition (R74). -/
def virtualTime (s : State) (part : Nat) : Word :=
  let q := s.part part
  let d := s.time - q.vtbase
  let v := BitVec.ofNat 64 (d.toNat * q.vtscale.toNat / 2 ^ 32) + q.vtoff
  if v.toNat < q.vtfloor.toNat then q.vtfloor else v

/-! ### The scheduler's queues (R116, R132, R133) -/

/-- Append a process to its core's ready queue, or put it at the head (R132). -/
def State.enqueue (s : State) (k : Nat) (head : Bool) : State :=
  let p := s.proc k
  s.modCore p.core fun c =>
    c.setQueue p.prio (if head then k :: c.queue p.prio else c.queue p.prio ++ [k])

/-- Take a process out of its core's ready queue. -/
def State.dequeue (s : State) (k : Nat) : State :=
  let p := s.proc k
  s.modCore p.core fun c => c.setQueue p.prio ((c.queue p.prio).filter (· != k))

/-- A process that is not a gang member gives up its context; its image is then written (R116, R179). -/
def State.leaveCtx (s : State) (k : Nat) : State :=
  let p := s.proc k
  match p.ctx with
  | none => s
  | some j =>
    let s := s.modCore p.core fun c =>
      c.setCtx j { c.ctx j with run := none, writing := some k, due := false }
    s.modProc k fun p => { p with ctx := none }

/-- The same for one that ends: nothing of it is written (R116). -/
def State.freeCtx (s : State) (k : Nat) : State :=
  let p := s.proc k
  match p.ctx with
  | none => s
  | some j =>
    let s := s.modCore p.core fun c => c.setCtx j { c.ctx j with run := none, due := false }
    s.modProc k fun p => { p with ctx := none }

/-- Set the state of a process; one that is STOPPED takes it when it resumes (R116). -/
def Proc.setSt (p : Proc) (st : PState) : Proc := if p.st = .stopped then { p with was := st } else { p with st := st }

/-- A network with a runnable process is no longer in the deadlock it may have reported; its handlers do not count (R143). -/
def State.newEpisode (s : State) (k : Nat) : State :=
  let p := s.proc k
  if (s.inst p.inst).reported && !p.isHandler then s.modInst p.inst fun i => { i with reported := false } else s

/-- A process becomes READY: at the tail of its queue or at the head; one that keeps its context, a gang member, runs on
(Table 6.2). -/
def State.ready (s : State) (k : Nat) (head : Bool) : State :=
  let p := s.proc k
  let s := s.newEpisode k
  if p.st = .stopped then s.setProc k { p with was := .ready, wkind := .none, deadline := 0 }
  else if p.engine.isSome then
    if p.st = .exited then s else s.setProc k { p with st := .running, wkind := .none, deadline := 0, landed := s.cycle + 1 }
  else if p.ctx.isSome then
    s.setProc k { p with st := (if p.hold.isSome then .parked else .running), wkind := .none, deadline := 0 }
  else (s.setProc k { p with st := .ready, wkind := .none, deadline := 0 }).enqueue k head

/-- Block a process; unless it is a gang member its context goes to the standby (R116). -/
def State.block (s : State) (k : Nat) (w : Wait) (obj : W32) (deadline : Word) : State :=
  let s := s.modProc k fun p => { p with st := .blocked, wkind := w, wobj := obj, deadline := deadline }
  if (s.proc k).gang = 0 then s.leaveCtx k else s

/-- What a process has issued turns out to wait: an armed `waita`, an `alt` with no guard ready, a channel operation that finds nothing
at HOME. The process is BLOCKED from now on, wherever it stands; one that is FAULTED stays so (R128, R131, R300, Table 6.2). -/
def State.blockLate (s : State) (k : Nat) (w : Wait) (obj : W32) (deadline : Word) : State :=
  let p := s.proc k
  match p.st with
  | .running | .parked => s.block k w obj deadline
  | .ready | .standby =>
    let s := s.dequeue k
    let free (e : Nat × Ctx) : Nat × Ctx :=
      if e.2.standby = some k then (e.1, { e.2 with standby := none, loaded := false, swapping := false }) else e
    let s := s.modCore p.core fun c => { c with ctxs := c.ctxs.map free }
    s.setProc k { p with st := .blocked, wkind := w, wobj := obj, deadline := deadline }
  | .stopped =>
    if p.was = .running ∨ p.was = .parked ∨ p.was = .ready ∨ p.was = .standby then
      s.setProc k { p with was := .blocked, wkind := w, wobj := obj, deadline := deadline }
    else s
  | _ => s
def State.blockArmed (s : State) (k : Nat) : State := s.blockLate k .waita 0 0

/-- A parked process runs on; one that is STOPPED meanwhile does so when it resumes (R116). -/
def Proc.run (p : Proc) : Proc :=
  if p.st = .parked then { p with st := .running }
  else if p.st = .stopped ∧ p.was = .parked then { p with was := .running }
  else p

/-- The park of R151 is over when no awaited result is outstanding: the process runs again at a turn after this cycle. -/
def State.unpark (s : State) (k : Nat) : State :=
  let p := s.proc k
  if p.out = [] ∧ p.hold = some .results then s.setProc k { p.run with hold := none, landed := s.cycle + 1 } else s

/-- End a hold of another kind: the process issues again. -/
def State.release (s : State) (k : Nat) : State :=
  let p := s.proc k
  s.setProc k { p.run with hold := none }

/-! ### Registers -/

/-- Physical number of a logical name under a rotation base (R153). -/
def rotName (base : Nat) (k : BitVec 5) : BitVec 5 :=
  if k.toNat < 16 then k else BitVec.ofNat 5 (16 + (k.toNat - 16 + base) % 16)

def Proc.nbase (p : Proc) : Nat := p.rot.toNat % 16
def Proc.vbase (p : Proc) : Nat := p.rot.toNat / 2 ^ 8 % 16
/-- The physical named and vector registers of a logical name (R153). -/
def Proc.nphys (p : Proc) (k : BitVec 5) : BitVec 5 := rotName p.nbase k
def Proc.vphys (p : Proc) (k : BitVec 5) : BitVec 5 := rotName p.vbase k

/-- Read and write a physical named register; a write cancels a pending keep to it (R150). -/
def Proc.nget (p : Proc) (r : BitVec 5) : Word := p.n[r.toNat]
def Proc.nset (p : Proc) (r : BitVec 5) (w : Word) : Proc :=
  { p with n := p.n.set r.toNat w, nPend := p.nPend.filter fun e => e.1 != r }

/-- The ring slot that `qk` names: (P − k) mod 16 (R149). -/
def Proc.slotOf (p : Proc) (k : BitVec 4) : BitVec 4 := p.push.setWidth 4 - k
def Proc.qget (p : Proc) (k : BitVec 4) : Word := p.q[(p.slotOf k).toNat]
def Proc.qpend (p : Proc) (k : BitVec 4) : Bool := p.qPend.getLsbD (p.slotOf k).toNat

/-- Write the slot of a push count, setting or clearing its pending bit. -/
def Proc.setSlot (p : Proc) (at_ : BitVec 32) (w : Word) (pend : Bool) : Proc :=
  let i := (at_.setWidth 4).toNat
  have : i < 16 := (at_.setWidth 4).isLt
  { p with
    q := p.q.set i w
    qPend := if pend then p.qPend ||| (1#16 <<< i) else p.qPend &&& ~~~(1#16 <<< i) }

/-- `Push` of a value (Table 1.8, R149): the count advances, the slot it then names is written, and a kept physical register
is written with it. -/
def Proc.pushVal (p : Proc) (w : Word) (k : Option (BitVec 5)) : Proc :=
  let p := { p with push := p.push + 1 }
  let p := p.setSlot p.push w false
  match k with
  | none => p
  | some r => p.nset r w

/-- `PushPending` of a slot and perhaps a kept physical register for transaction `t` (Table 1.8, R149, R150). -/
def Proc.pushPend (p : Proc) (t : Nat) (k : Option (BitVec 5)) : Proc × Tgt :=
  let p := { p with push := p.push + 1 }
  let p := p.setSlot p.push 0 true
  match k with
  | none => (p, { slots := [p.push] })
  | some r =>
    ({ p with nPend := (r, t) :: p.nPend.filter fun e => e.1 != r }, { slots := [p.push], keeps := [r] })

/-- A vector register, an absent one reading as 0 (R154). -/
def Proc.vget (p : Proc) (r : BitVec 5) : VReg := Machine.nget 0 p.v r.toNat
def Proc.vset (p : Proc) (r : BitVec 5) (x : VReg) : Proc := { p with v := Machine.nset p.v r.toNat x }
/-- A predicate register; p0 reads as all ones (R154). -/
def Proc.pget (p : Proc) (r : BitVec 3) : PReg := if r = 0 then BitVec.allOnes 128 else Machine.nget 0 p.p r.toNat
def Proc.pset (p : Proc) (r : BitVec 3) (x : PReg) : Proc := { p with p := Machine.nset p.p r.toNat x }

/-! ### Delivery of values (R149, R150, R242) -/

/-- Fill one reserved slot, unless a later push has reused it (R149). -/
def Proc.fillSlot (p : Proc) (at_ : BitVec 32) (w : Word) : Proc :=
  if (p.push - at_).toNat < 16 then p.setSlot at_ w false else p

/-- Fill a kept register, unless a later write cancelled the keep (R150). -/
def Proc.fillKeep (p : Proc) (t : Nat) (r : BitVec 5) (w : Word) : Proc :=
  if p.nPend.any (fun e => e.1 == r && e.2 == t) then p.nset r w else p

/-- Bits of a vector register that a mask of byte lanes covers. -/
def byteMask (m : BitVec 256) : VReg :=
  BitVec.ofNat 2048 ((List.range 256).foldl (fun a i => if m.getLsbD i then a + 255 * 2 ^ (8 * i) else a) 0)

/-- Fill the lanes of a vector register that a word writes, and set its in-use flag. -/
def Proc.fillVec (p : Proc) (t : Nat) (mask : BitVec 256) (r : BitVec 5) (x : VReg) : Proc :=
  let m := byteMask mask
  { p.vset r ((p.vget r &&& ~~~m) ||| (x &&& m)) with vPend := p.vPend.filter fun e => !(e.1 == r && e.2 == t) }

/-- Values for the reserved slots, keeps and vector registers, in order. -/
def Proc.fill (p : Proc) (t : Nat) (g : Tgt) (d : Deliver) : Proc :=
  let p := (g.slots.zip d.vals).foldl (fun p e => p.fillSlot e.1 e.2) p
  let p := (g.keeps.zip d.kept).foldl (fun p e => p.fillKeep t e.1 e.2) p
  (g.vregs.zip d.vecs).foldl (fun p e => p.fillVec t g.vmask e.1 e.2) p

/-- Write a tile or accumulator that an operation delivers, unless the set was released meanwhile: in use and dirty (R155,
R156). -/
def Core.fillMats (c : Core) (t : Nat) (mats : List Nat) (tiles : List Tile) (accs : List Acc) : Core :=
  let mine := mats.filter fun m => c.mPend.contains (m, t)
  let tm := mine.filter (· < 8)
  let am := mine.filter (8 ≤ ·)
  let c := (tm.zip tiles).foldl (fun c e => { c with tiles := nset c.tiles e.1 { e.2 with dirty := true } }) c
  let c := (am.zip accs).foldl (fun c e => { c with accs := nset c.accs (e.1 - 8) { e.2 with dirty := true } }) c
  { c with mPend := c.mPend.filter fun e => e.2 != t }

/-! ### The register image (R179, Table 8.7) -/

/-- The repetition word at 0x2310 (Table 13.3). -/
def Rep.word (r : Rep) : Nat :=
  r.remain % 2 ^ 24 * 2 ^ 40 + r.b % 16 * 2 ^ 36 + r.sn % 16 * 2 ^ 32 + r.sv % 16 * 2 ^ 28 + r.pos % 16 * 2 ^ 24
    + (if r.active then 1 else 0)

/-- What is written of a process at each offset of its image: the queue by name, named registers by physical number, pending and in-use
bits, the control registers, and the predicates and vectors in use. -/
def Proc.image (p : Proc) : List (Nat × List Byte) :=
  let ws (l : List Word) : List Byte := l.flatMap fun w => leBytes 8 w.toNat
  let mask (n : Nat) (f : Nat → Bool) : Nat := (List.range n).foldl (fun a i => if f i then a + 2 ^ i else a) 0
  let pend := mask 16 (fun k => p.qpend (BitVec.ofNat 4 k)) + 2 ^ 16 * mask 32 fun r => p.nPend.any fun e => e.1.toNat == r
  let use := mask 32 (fun r => (Machine.nget? p.v r).isSome) + 2 ^ 32 * mask 8 fun r => (Machine.nget? p.p r).isSome
  [(0x0000, ws ((List.range 16).map fun k => p.qget (BitVec.ofNat 4 k))), (0x0080, ws p.n.toList),
   (0x0180, leBytes 8 pend), (0x0188, leBytes 8 use),
   (0x0190, ws [p.flags, p.rmode, p.rot, p.svc, p.dlmiss, p.heapoff, p.accept, p.compat, p.watch0, p.watch1]),
   (0x2300, ws [p.tmo, p.ptag] ++ leBytes 8 p.rep.word ++ leBytes 8 p.push.toNat)] ++
    (p.p.map fun e => (0x0200 + 16 * e.1, leBytes 16 e.2.toNat)) ++ p.v.map fun e => (0x0300 + 256 * e.1, leBytes 256 e.2.toNat)

/-- Codes of the states, Table 6.2, and WKIND of Table 6.1. -/
def PState.code : PState → Nat
  | .new => 0 | .ready => 1 | .standby => 2 | .running => 3 | .parked => 4 | .blocked => 5 | .faulted => 6 | .stopped => 7
  | .exited => 8 | .dormant => 9
def Wait.code : Wait → Nat
  | .none => 0 | .send => 1 | .recv => 2 | .alt => 3 | .pwait => 4 | .waita => 5 | .timed => 6 | .join => 7 | .gang => 8
  | .buffer => 9 | .phase => 10

/-- The 256 bytes of a process record (Table 6.1). -/
def Proc.record (p : Proc) (k : Nat) : List Byte :=
  let bit (b : Bool) (n : Nat) : Nat := if b then 2 ^ n else 0
  let g (i : Nat) : Nat := (p.guards.toList.getD i 0).toNat
  let ws : List Nat :=
    [k % 2 ^ 32 * 2 ^ 32 + p.st.code * 2 ^ 28 + p.prio % 8 * 2 ^ 25 + bit p.rated 24 + bit p.pinned 23 + bit (p.accept.getLsbD 0) 22 +
       bit (decide (p.cpyreg ≠ 0)) 21 + p.gang % 2 ^ 16,
     p.pc.toNat, p.param.toNat, p.index % 2 ^ 32 * 2 ^ 32 + p.inst % 2 ^ 32, p.wkind.code * 2 ^ 60 + p.wobj.toNat, p.deadline.toNat,
     p.schedBase.toNat, p.schedLen % 2 ^ 32 * 2 ^ 32 + p.schedCur % 2 ^ 32, p.flags.toNat,
     p.dlmiss.toNat % 2 ^ 32 * 2 ^ 32 + p.svc.toNat % 2 ^ 14, p.regimg.toNat, p.level % 2 ^ 32 * 2 ^ 32 + p.gmask.toNat] ++
    ((List.range 4).map fun j => g (2 * j) + g (2 * j + 1) * 2 ^ 32) ++ List.replicate 8 0 ++ p.persist.toList.map BitVec.toNat
  ws.flatMap (leBytes 8)

/-- Write the image of a process at REGIMG, where it has one. -/
def State.writeImg (s : State) (k : Nat) : State :=
  let p := s.proc k
  if p.regimg = 0 then s else { s with mem := p.image.foldl (fun m e => writeBytes m (p.regimg.toNat + e.1) e.2) s.mem }

/-- A value that arrives for a switched-out process is written into its image (R179). -/
def State.lateImg (s : State) (k : Nat) : State :=
  let p := s.proc k
  if p.ctx.isSome || p.engine.isSome || !p.started then s else s.writeImg k

/-- A transaction has outlived its issuer: the process has exited, or the firing that issued it has ended (R178, R306). -/
def State.outlived (s : State) (x : Txn) : Bool :=
  let p := s.proc x.issuer
  (x.left || p.st == .exited || p.st == .dormant) && p.engine.isNone

/-- A transaction delivers its values: to the process, wherever its registers lie, and to its core; flags are ORed into the
record, or into the instance's flag word once the issuer has exited (R149, R150, R178). -/
def State.deliver (s : State) (t : Nat) (x : Txn) (d : Deliver) : State :=
  let p := s.proc x.issuer
  let s :=
    if s.outlived x then s.modInst x.inst fun i => { i with flagWord := i.flagWord ||| d.flags }
    else (s.setProc x.issuer { p.fill t x.tgt d with flags := p.flags ||| d.flags, out := p.out.filter (· != t) }).lateImg x.issuer
  let s := if x.tgt.mats = [] then s else s.modCore x.core fun c => c.fillMats t x.tgt.mats d.tiles d.accs
  s.unpark x.issuer

/-! ### Fault records (R169, R170) -/

/-- Codes of Table 8.2. -/
def Kind.code : Kind → Nat
  | .illegalInstr => 0x01 | .misalignedPair => 0x02 | .illegalOperand => 0x03 | .unreadyOperand => 0x04
  | .powerBudget => 0x05 | .priv => 0x06 | .spaceInvalid => 0x07 | .fatOverflow => 0x08 | .pageFault => 0x09
  | .bufferState => 0x0A | .peerNotResident => 0x0B | .channelType => 0x0C | .channelClosed => 0x0D
  | .gangMismatch => 0x0E | .gangTimeout => 0x0F | .phaseOverrun => 0x10 | .engineAbsent => 0x11
  | .migrationAbort => 0x12 | .treeConflict => 0x13 | .treeCapacity => 0x14 | .uncorrectableData => 0x15
  | .coreLost => 0x16 | .breakpoint => 0x17 | .watch => 0x18 | .trap => 0x20

/-- The eight words of a record (Table 8.1). -/
def FRec.words (r : FRec) : List Nat :=
  [r.kind.code * 2 ^ 48 + (if r.cls = .d then 2 ^ 47 else 0) + (if r.bword then 2 ^ 46 else 0) + r.level % 4 * 2 ^ 44
      + r.sub % 256 * 2 ^ 32 + r.inst % 2 ^ 32,
   r.loc.toNat, r.handle % 2 ^ 32 * 2 ^ 32 + r.other.toNat, r.addr.toNat, r.time.toNat, r.e5.toNat, r.e6.toNat, r.e7.toNat]

/-- The 64 bytes of a record. -/
def FRec.bytes (r : FRec) : List Byte := r.words.flatMap (leBytes 8)

/-- A record of a trap of process `k`. -/
def mkRec (s : State) (k : Nat) (cls : Cls) (t : Trap) (loc : Word) (bword : Bool) : FRec :=
  { kind := t.kind, cls := cls, bword := bword, sub := t.sub, inst := (s.proc k).inst, loc := loc, handle := k % 2 ^ 32,
    other := t.other, addr := t.addr, time := s.time, e5 := t.e5, e6 := t.e6, e7 := t.e7 }

/-- Write a record in its instance's fault area of 64 records (R169). -/
def State.writeRec (s : State) (r : FRec) : State × FRec :=
  let i := s.inst r.inst
  let slot := i.written % 64 * 64
  let r := { r with area := i.area + slot }
  ({ s with mem := if i.areaPa = 0 then s.mem else writeBytes s.mem (i.areaPa + slot) r.bytes }.modInst r.inst
      fun i => { i with written := i.written + 1 }, r)

/-- An engine thread ends FAILED: its completion object keeps the record, delivered in class C at observation (R356). LOC names the
engine word, and w7 the location of the `fork`. -/
def State.failThread (s : State) (k : Nat) (t : Trap) (loc : Word) (bword : Bool) : State :=
  let p := s.proc k
  match p.engine with
  | none => s
  | some e =>
    if p.st = .exited then s
    else
      match nget? s.txns e.txn with
      | none => s.setProc k { p with st := .exited }
      | some x =>
        let r := { mkRec s x.issuer .c { t with sub := t.sub % 128 + 128, e7 := e.forkLoc } loc bword with txn := e.txn }
        let s := s.setProc k { p with st := .exited, out := [] }
        s.modTxn e.txn fun x => { x with stage := .failed r }

/-- What a record says of its failure. -/
def FRec.trap (r : FRec) : Trap :=
  { kind := r.kind, sub := r.sub, addr := r.addr, other := r.other, e5 := r.e5, e6 := r.e6, e7 := r.e7 }

/-- A failure known after issue (class C): the record is written now and waits for the issuer's turn (R170). What the word
reserved stays pending. An engine thread ends FAILED (R183, R356). -/
def State.failC (s : State) (t : Nat) (x : Txn) (r : FRec) : State :=
  if (s.proc x.issuer).engine.isSome then s.failThread x.issuer r.trap r.loc r.bword
  else
    let w := s.writeRec r
    w.1.modProc x.issuer fun p =>
      { p with faults := p.faults ++ [{ w.2 with fill := x.tgt, txn := t }], out := p.out.filter (· != t) }

/-! ### Channels: ends that close (R126, R314) -/

/-- A transaction that has been served: its values travel, or it has ended. -/
def Txn.performed (x : Txn) : Bool :=
  match x.stage with
  | .back _ | .failed _ => true
  | _ => false

/-- What a process that an operation blocks as it issues shows in WKIND (Table 6.1); a `waita` blocks its process once it is armed. -/
def Op.wkind : Op → Wait
  | .send .. | .sendt .. => .send
  | .recv .. | .recvt .. => .recv
  | .alt => .alt
  | .join .. => .join
  | .bqueryW .. => .buffer
  | _ => .none

/-- The issuer of a transaction is blocked on it. -/
def State.blockedOn (s : State) (x : Txn) : Bool :=
  let p := s.proc x.issuer
  x.blocks && !x.left && (if p.st = .stopped then p.was else p.st) == .blocked && p.wkind == x.op.wkind

/-- The handle of a channel's end (R123). -/
def endHandle (c : Chan) (ch : Nat) (rx : Bool) : Nat := (if rx then 2 ^ 31 else 0) + c.ty % 128 * 2 ^ 24 + ch % 2 ^ 24

/-- What a process that waits for a channel operation shows in WOBJ: the handle of the end (Table 6.1). -/
def State.waitObj (s : State) (x : Txn) : W32 :=
  match x.op with
  | .send ch _ | .sendt ch _ | .recv ch | .recvt ch _ => match s.chan? x.part ch with
    | some c => BitVec.ofNat 32 (endHandle c ch (match x.op with | .recv .. | .recvt .. => true | _ => false))
    | none => 0
  | _ => 0

/-- A process that goes on waits again where something that it has issued has come to wait meanwhile. -/
def State.waitAgain (s : State) (k : Nat) : State :=
  match s.txns.find? fun e => e.2.issuer == k && !e.2.left && !e.2.performed &&
      (e.2.blocks || (match e.2.op, e.2.stage with | .waita .., .waiting => true | _, _ => false)) with
  | some e => s.blockLate k (match e.2.op with | .waita .. => .waita | o => o.wkind) (s.waitObj e.2) (e.2.deadline.getD 0)
  | none => s

/-- Messages are on their way to HOME. -/
def State.sending (s : State) (c : Chan) : Bool :=
  c.flight.any fun t => match nget? s.txns t with
    | some x => (match x.op with | .send .. | .sendt .. => true | _ => false)
    | none => false

/-- No message is there and none will come: TXOPEN is 0 and COUNT is 0 (R126). -/
def State.ranDry (s : State) (c : Chan) : Bool := !c.txopen && c.msgs.isEmpty && c.sendq.isEmpty && !s.sending c

/-- A channel operation that acts on the receive end. -/
def Op.rx : Op → Bool
  | .recv .. | .recvt .. => true
  | _ => false

/-- A wait of a send or receive ends with a class C record (R126, R170, R310). -/
def State.failWait (s : State) (part ch t : Nat) (kind : Kind) (addr : Word := 0) : State :=
  match nget? s.txns t, s.chan? part ch with
  | some x, some c =>
    let r := mkRec s x.issuer .c { kind := kind, addr := addr, other := BitVec.ofNat 32 (endHandle c ch x.op.rx) } x.loc x.bword
    let on := s.blockedOn x
    let s := ((if x.issuer = 0 then s else s.failC t x r)).dropTxn t
    let drop (p : Nat → Bool) : State :=
      s.modChan part ch fun c =>
        { c with
          sendq := c.sendq.filter (· != t), recvq := c.recvq.filter (· != t)
          resvTx := if x.op.rx then c.resvTx else dropFirst p c.resvTx
          resvRx := if x.op.rx then dropFirst p c.resvRx else c.resvRx }
    let s := drop (· == ownerOf x.issuer)
    if on then s.ready x.issuer false else s
  | _, _ => s

/-- A wait that a closed or rebound end breaks (R126). -/
def State.breakWait (s : State) (part ch t : Nat) : State := s.failWait part ch t .channelClosed

/-- Free a channel's entry once both ends are closed (R314). -/
def State.reapChan (s : State) (part ch : Nat) : State :=
  match s.chan? part ch with
  | none => s
  | some c =>
    if !c.txopen && !c.rxopen && c.flight == [] then s.modPart part fun q => { q with chans := ndel q.chans ch } else s

/-- Process `k` closes its send end: the last close makes TXOPEN 0, and receivers blocked on an empty channel see it. -/
def State.closeTx (s : State) (part ch k : Nat) : State :=
  match s.chan? part ch with
  | none => s
  | some c =>
    let c := { c with holders := c.holders.filter (· != k) }
    let c := { c with txopen := !c.holders.isEmpty }
    let s := s.setChan part ch c
    if c.txopen then s
    else
      let s := if c.msgs.isEmpty && !s.sending c then c.recvq.foldl (fun s t => s.breakWait part ch t) s else s
      s.reapChan part ch

/-- The holder closes the receive end: messages are discarded, and every blocked send fails. -/
def State.closeRx (s : State) (part ch : Nat) : State :=
  match s.chan? part ch with
  | none => s
  | some c =>
    let s := s.setChan part ch { c with rxopen := false, rxproc := 0, msgs := [], head := 0, tail := 0 }
    let s := (c.sendq ++ c.recvq).foldl (fun s t => s.breakWait part ch t) s
    s.reapChan part ch

/-- Close every end that process `k` holds (R126). -/
def State.closeAll (s : State) (k : Nat) : State :=
  let part := partOf k
  (s.part part).chans.foldl (fun s e =>
    let s := if e.2.holders.contains k then s.closeTx part e.1 k else s
    if e.2.rxproc = k ∧ e.2.rxopen then s.closeRx part e.1 else s) s

/-- A rated process stands DORMANT on a receive end that is closed and empty (Table 6.2). -/
def dormantOver (s : State) (e : Nat × Proc) : Bool :=
  e.2.st == .dormant && e.2.firing.any fun f =>
    decide (f.1.toNat / 2 ^ 31 = 1) && (match s.chan? (partOf e.1) (f.1.toNat % 2 ^ 24) with
      | none => true
      | some c => s.ranDry c || (!c.rxopen && c.msgs.isEmpty))

/-- Such a process ends, and the ends it holds close, which may end the next. -/
def State.endDormants (s : State) : Nat → State
  | 0 => s
  | n + 1 =>
    match s.procs.find? (dormantOver s) with
    | none => s
    | some e => ((s.modProc e.1 fun p => { p with st := .exited }).closeAll e.1).endDormants n

/-- Let go of what an `alt` holds for the process (R131). -/
def State.dropAlt (s : State) (k : Nat) : State :=
  match (s.proc k).altRes with
  | none => s
  | some (ch, rx) =>
    let s := s.modChan (partOf k) ch fun c =>
      { c with resvTx := if rx then c.resvTx else dropFirst (· == k) c.resvTx
               resvRx := if rx then dropFirst (· == k) c.resvRx else c.resvRx }
    s.modProc k fun p => { p with altRes := none }

/-! ### The end of a process (R155, R306) -/

/-- Release the matrix set of a core: every register and flag cleared, the map the identity (R155, R231). -/
def Core.releaseMatrix (c : Core) : Core :=
  { c with owner := none, tiles := [], accs := [], dmap := dmapIdentity, mPend := [] }

/-- The matrix set goes when its owner ends. -/
def State.releaseMatrix (s : State) (k : Nat) : State :=
  let c := (s.proc k).core
  if (s.core c).owner = some k then s.modCore c Core.releaseMatrix else s

/-- A transfer is in flight on a range of a core's scratchpad. -/
def Core.inFlight (c : Core) (lo len : Nat) : Bool := c.sb.any fun e => decide (e.lo < lo + len) && decide (lo < e.lo + e.len)

/-- Waits of `bquery.w` on buffers that are gone end with ILLEGAL_OPERAND in class C (R319). -/
def State.breakQueries (s : State) (core : Nat) : State :=
  s.txns.foldl (fun s e =>
    match e.2.op with
    | .bqueryW b =>
      if e.2.core = core ∧ (nget? (s.core core).bufs b).isNone then
        let s := s.failC e.1 e.2 (mkRec s e.2.issuer .c { kind := .illegalOperand } e.2.loc e.2.bword)
        (s.dropTxn e.1).ready e.2.issuer false
      else s
    | _ => s) s

/-- Free the buffers a process owns (R306); those with a transfer in flight are freed when it retires, and are left to it
here as ownerless. -/
def State.freeBufs (s : State) (k : Nat) : State :=
  let core := (s.proc k).core
  let s := s.modCore core fun c =>
    { c with bufs := (c.bufs.filter fun e => e.2.owner != k || c.inFlight e.2.base e.2.size).map fun e =>
        if e.2.owner = k then (e.1, { e.2 with owner := 0 }) else e }
  s.breakQueries core

/-- Drop the waits of a process that ends: channel operations, arms and phase waits. A message that it has sent without blocking is
on its way and stays so (R129), and a transfer that has matched goes on until it lands (R128, R173). -/
def State.dropWaits (s : State) (k : Nat) : State :=
  let part := partOf k
  let mine := (s.txns.filter fun e => e.2.issuer == k && (match e.2.op with
    | .send .. => e.2.blocks && !e.2.performed
    | .recv .. | .sendt .. | .recvt .. => !e.2.performed
    | .alt | .bqueryW .. | .waita .. | .join .. => true
    | .mgang .. => e.2.stage == .waiting
    | .repar .. => e.2.stage == .sent
    | _ => false)).map Prod.fst
  let held := (s.txns.filter fun e => mine.contains e.1 && e.2.token).length
  let s := s.modCore (s.proc k).core fun c => { c with free := c.free + held }
  let s := { s with txns := s.txns.filter fun e => !mine.contains e.1 }
  let s := s.modPart part fun q =>
    { q with
      chans := q.chans.map fun e =>
        (e.1, { e.2 with sendq := e.2.sendq.filter (!mine.contains ·), recvq := e.2.recvq.filter (!mine.contains ·),
                         flight := e.2.flight.filter (!mine.contains ·), resvTx := e.2.resvTx.filter (· != k),
                         resvRx := e.2.resvRx.filter (· != k) })
      spill := q.spill.filter (·.proc != k)
      phases := q.phases.map fun e => (e.1, { e.2 with waiters := e.2.waiters.filter (·.1 != k) }) }
  { s with
    clusters := s.clusters.map fun e => (e.1, { e.2 with monitors := e.2.monitors.filter (·.proc != k) })
    gangs := s.gangs.map fun e => (e.1, { e.2 with barrier := e.2.barrier.filter fun b => !mine.contains b.2 }) }

/-- A partition whose contexts do not issue: it is being stopped as a whole, or is off its slice (R77, R79). -/
def State.halted (s : State) (part : Nat) : Bool :=
  let q := s.part part
  (match q.quies with | some z => z.inst.isNone | none => false) || (q.timeShared && q.slice.isNone)

/-- A process of which nothing issues and no operation is matched: it is STOPPED. -/
def State.isStopped (s : State) (k : Nat) : Bool := (s.proc k).st == .stopped

/-- A process that has exited; engine operations that it issued may still run. -/
def State.ended (s : State) (k : Nat) : Bool :=
  match nget? s.procs k with | some p => p.st == .exited | none => true

/-- The issue turn of a process that may issue comes later in this cycle. What lands in a cycle is usable from the next one on (R151): it
lands after the turn. -/
def State.beforeTurn (s : State) (k : Nat) : Bool :=
  let p := s.proc k
  match p.ctx with
  | some j => p.st == .running && !p.exiting && p.hold.isNone && decide (p.landed ≤ s.cycle) && s.cycle % 8 == j &&
      decide (s.turnCore ≤ p.core)
  | none => false

/-- A transaction of which nothing arrives now: its set has been saved, until the resume (R81), or its issuer's turn comes first (R151).
That of a process that has exited stops with its partition or its instance. -/
def State.frozen (s : State) (x : Txn) : Bool :=
  let k := ownerOf x.issuer
  let q := s.part x.part
  let off := s.beforeTurn x.issuer || s.isStopped k || (x.issuer != 0 && s.ended k && ((q.timeShared && q.slice.isNone) || (s.inst x.inst).stopped))
  match q.quies with
  | some z => if z.procs.contains k then z.saving || s.beforeTurn x.issuer else off
  | none => off

/-- Take a process out of every place that schedules it. -/
def State.unschedule (s : State) (k : Nat) : State :=
  let s := (s.dequeue k).freeCtx k
  s.modCore (s.proc k).core fun c =>
    { c with ctxs := c.ctxs.map fun e =>
        (e.1, { e.2 with
          standby := if e.2.standby = some k then none else e.2.standby
          loaded := e.2.loaded && e.2.standby != some k
          swapping := e.2.swapping && e.2.run != some k
          writing := if e.2.writing = some k then none else e.2.writing
          run := if e.2.run = some k then none else e.2.run }) }

/-- A process that ends gives up the context that a `context` level kept for it. -/
def State.dropResv (s : State) (k : Nat) : State :=
  s.modCore (s.proc k).core fun c => if c.resv.any fun e => e.2 == k then { c with resv := c.resv.filter fun e => e.2 != k } else c

/-- The members of a process's gang, or the process alone (R121). -/
def State.mates (s : State) (k : Nat) : List Nat :=
  match s.gangs.find? fun e => e.2.members.contains k with | some g => g.2.members | none => [k]

/-- A process that has ended gives up its places; a gang's contexts are freed when its last member has exited (Table 6.5). -/
def State.vacate (s : State) (k : Nat) (dormant : Bool) : State :=
  let l := if dormant then [k] else s.mates k
  if l.all fun j => j == k || (s.proc j).st == .exited || (nget? s.procs j).isNone then l.foldl State.unschedule s else s.dequeue k

/-- What a process that ends, or starts again, leaves under way goes on without it (R173, R306). -/
def State.leaveTxns (s : State) (k : Nat) : State :=
  { s with txns := s.txns.map fun (e : Nat × Txn) => if e.2.issuer = k then (e.1, { e.2 with left := true }) else e }

/-- The buffers of a process that starts again: those that its network declares are EMPTY, the others are freed, which ends the waits on
them (Table 8.4, R319; log entry 125). -/
def State.resetBufs (s : State) (k : Nat) : State :=
  let p := s.proc k
  let v := s.inst p.inst
  let l : List BufDecl := match nget? s.objs v.obj with | some o => (o.img.procs.getD p.index {}).bufs | none => []
  let preset (b : Buf) : Bool := l.any fun d => v.spadBase + d.off == b.base && d.size == b.size
  let again (e : Nat × Buf) : Nat × Buf :=
    if e.2.owner ≠ k then e
    else if preset e.2 then
      (e.1, { e.2 with state := .empty, fills := false, drains := false, head := 0, tail := 0, free := e.2.nslot, landed := 0 })
    else (e.1, { e.2 with owner := 0 })
  let s := s.modCore p.core fun c =>
    { c with bufs := (c.bufs.filter fun (e : Nat × Buf) => e.2.owner != k || preset e.2 || c.inFlight e.2.base e.2.size).map again }
  s.breakQueries p.core

/-- What a firing holds of its ends, for each its declared count (R114). -/
def State.reserveFiring (s : State) (k : Nat) : State :=
  (s.proc k).firing.foldl (fun s e =>
    let l := List.replicate e.2 k
    s.modChan (partOf k) (e.1.toNat % 2 ^ 24) fun c =>
      if e.1.toNat / 2 ^ 31 = 1 then { c with resvRx := c.resvRx ++ l } else { c with resvTx := c.resvTx ++ l }) s

/-- The steps of R306 after the park: ends closed, a firing's n24 to n31 written back, the matrix set and buffers released;
the process is EXITED, or DORMANT after a firing (Table 6.2). DESIGN CHOICE (log entry 90): a rated process that goes DORMANT keeps its
ends open for its next firing. -/
def State.endProc (s : State) (k : Nat) (dormant : Bool) : State :=
  let p := s.proc k
  let s := s.dropAlt k
  let s := if dormant then s else s.closeAll k
  let s := s.releaseMatrix k
  let s := s.freeBufs k
  let s := ((s.dropWaits k).vacate k dormant).leaveTxns k
  let s := if dormant then s else s.dropResv k
  s.modProc k fun q =>
    { q with
      st := if dormant then .dormant else .exited
      persist := if dormant then Vector.ofFn fun i : Fin 8 => p.nget (p.nphys (BitVec.ofNat 5 (24 + i.val))) else q.persist
      wkind := .none, deadline := 0, hold := none, exiting := false, out := [], faults := [], held := none,
      rep := {}, gmask := 0 }

/-! ### Escalation (R172 to R174) -/

/-- The key of a queue: 65,536 times its function plus its number. -/
def queueKey (fn q : Nat) : Nat := fn * 2 ^ 16 + q
def State.queue (s : State) (key : Nat) : Queue := nget {} s.queues key
def State.setQueue (s : State) (key : Nat) (q : Queue) : State := { s with queues := nset s.queues key q }

/-- Status codes, Table 3.5. -/
def Status.code : Status → Nat
  | .pending => 0 | .ok => 1 | .busy => 2 | .invalid => 3 | .priv => 4 | .nospace => 5 | .notfound => 6 | .locked => 7
  | .badsig => 8 | .recovery => 9 | .aborted => 10

/-- An entry that a queue has read. -/
def State.entry? (s : State) (e : EntryRef) : Option Entry := nget? (s.queue (queueKey e.fn e.q)).entries e.idx

/-- Complete a queue entry: STATUS and RESULT are written to its slot (R50, R53). -/
def State.complete (s : State) (e : EntryRef) (st : Status) (result : Word) : State :=
  match s.entry? e with
  | none => s
  | some x =>
    { s with
      mem := writeBytes s.mem (hostKey (x.slot + 6)) (leBytes 2 st.code ++ leBytes 8 result.toNat)
      queues := nmod s.queues (queueKey e.fn e.q) fun q =>
        { q with entries := nmod q.entries e.idx fun x => { x with status := st, result := result } } }

/-- TAG of the entry that started an instance (R53). -/
def State.entryTag (s : State) (inst : Nat) : Nat :=
  ((s.inst inst).entry.bind fun e => (s.entry? e).map Entry.tag).getD 0

/-- The 64 bytes of a record of a partition's event ring: Table 8.1 for a fault, Table 5.7 for a page motion; the other kinds follow
Table 8.1 in KIND, INST, ADDR and TIME, with TAG in word 1 and the flags in word 5 (log entry 94). -/
def Event.bytes (e : Event) (now : Word) : List Byte :=
  let rec_ (kind inst tag addr fl : Nat) : List Byte :=
    [kind * 2 ^ 48 + inst % 2 ^ 32, tag, 0, addr, now.toNat, fl, 0, 0].flatMap (leBytes 8)
  match e with
  | .fault r => r.bytes
  | .migration bs => bs
  | .deadlock i report tag => rec_ 0xFF01 i tag report 0
  | .preemptLate _ => rec_ 0xFF02 0 0 0 0
  | .instanceEnd i fl tag => rec_ 0xFF03 i tag 0 fl.toNat
  | _ => []

/-- A record goes to a partition's event ring: into the next slot in host memory (log entry 94). -/
def State.ringPart (s : State) (p : Nat) (e : Event) : State :=
  let q := s.part p
  let s : State := if q.ringAddr = 0 then s
    else { s with mem := writeBytes s.mem (hostKey (q.ringAddr + 64 * q.ring.length)) (e.bytes s.time) }
  s.modPart p fun q => { q with ring := q.ring ++ [e] }

/-- Firmware kills an instance: every process of it ends; INSTANCE_END completes its entry with ABORTED (R174, R178). -/
def State.killInst (s : State) (i : Nat) : State :=
  let s := s.procs.foldl (fun s e =>
    if e.2.inst = i ∧ e.2.st ≠ .exited ∧ e.2.engine.isNone then s.endProc e.1 false else s) s
  let gone := (s.recs.filter fun e => e.2.inst == i).map Prod.fst
  let s := { s with recs := s.recs.filter fun e => e.2.inst != i, managed := s.managed.filter (!gone.contains ·) }
  s.modInst i fun v => { v with killed := true, queue := [], handlers := [] }

/-- The record as it stands in its fault area follows a change of its LEVEL or SUB (R169, R173). -/
def State.rewriteRec (s : State) (r : FRec) : State :=
  let i := s.inst r.inst
  if i.areaPa = 0 ∨ r.area < i.area then s
  else { s with mem := writeBytes s.mem (i.areaPa + (r.area - i.area)) r.bytes }

/-- A record reaches firmware: the instance is killed and the record goes to the event ring (R174). -/
def State.toFirmware (s : State) (id : Nat) : State :=
  match nget? s.recs id with
  | none => s
  | some r =>
    let r := { r with level := 2 }
    ((s.rewriteRec r).ringPart (partOf r.handle) (.fault r)).killInst r.inst

/-- The manager of a partition: the process that holds the receive end of the channel in `ctl.mgrhand` (R174). -/
def isManager (s : State) (k : Nat) : Bool :=
  let h := (s.part (partOf k)).mgrhand.toNat % 2 ^ 32
  h != 0 && (match s.chan? (partOf k) (h % 2 ^ 24) with | some c => c.rxproc == k && c.rxopen | none => false)

/-- Post a 64 B record of the hardware on a channel: into a free slot, or to a receiver that is blocked on a channel of depth 0. None
where the channel is closed, absent or full. -/
def State.post (s : State) (part ch : Nat) (bs : List Byte) : Option State :=
  match s.chan? part ch with
  | none => none
  | some c =>
    if !c.rxopen then none
    else if c.depth = 0 then
      if c.sendq == [] && decide (c.resvTx.length < c.recvq.length) then
        let x : Txn := { issuer := 0, core := c.home, part := part, inst := 0, loc := 0, op := .send ch bs, issued := s.cycle
                         due := s.cycle, progress := bs.length }
        some ((s.newTxn x).1.setChan part ch { c with sendq := [s.nextTxn] })
      else none
    else if c.depth ≤ c.msgs.length + c.resvTx.length then none
    else some (s.putSlot part ch 0 bs)

/-- A record goes up to the manager's channel as one 64 B message, or to firmware where there is none or it is full
(R174). -/
def State.toManager (s : State) (id sub : Nat) : State :=
  match nget? s.recs id with
  | none => s
  | some r =>
    let part := partOf r.handle
    let h := (s.part part).mgrhand.toNat % 2 ^ 32
    let r := { r with level := 1, sub := if sub = 0 then r.sub else sub }
    let s := { s with recs := nset s.recs id r }.rewriteRec r
    match (if h = 0 then none else s.post part (h % 2 ^ 24) r.bytes) with
    | none => s.toFirmware id
    | some s => { s with managed := s.managed ++ [id] }

/-- Raise the level of a record by one disposition: from the handler to the manager, from the manager to firmware. -/
def State.escalate (s : State) (id sub : Nat) : State :=
  match nget? s.recs id with
  | none => s
  | some r => if r.level = 0 then s.toManager id sub else s.toFirmware id

/-- The handler process that a network declares, by index (R117). -/
def handlerIndex (s : State) (i : Nat) : Option Nat :=
  match nget? s.insts i with
  | none => none
  | some v => match nget? s.objs v.obj with | none => none | some o => o.img.handler

/-- Send a new record on its way (R172, R174): the manager's own faults to firmware together with the records it holds, a
handler's to the manager together with the record it handles, the others to the network's handler queue of 16, or to the manager where there is no handler. -/
def State.route (s : State) (id : Nat) : State :=
  match nget? s.recs id with
  | none => s
  | some r =>
    let p := s.proc r.handle
    if isManager s r.handle then
      let held := s.managed.filter fun j => match nget? s.recs j with | some q => partOf q.handle == partOf r.handle | none => false
      let s := held.foldl (fun s j => s.toFirmware j) s
      ({ s with recs := nset s.recs id { r with level := 2 } }).toFirmware id
    else if p.isHandler then
      let s := match p.handles with | some j => s.escalate j 0 | none => s
      let s := s.modProc r.handle fun p => { p with handles := none }
      ({ s with recs := nset s.recs id r }).toManager id 0
    else if (handlerIndex s r.inst).isNone then s.toManager id 0
    else if (s.inst r.inst).queue.length < 16 then s.modInst r.inst fun i => { i with queue := i.queue ++ [id] }
    else s.toManager id 1

/-- File a record: number it, write it unless it was written when its failure was known, and send it on its way. -/
def State.file (s : State) (r : FRec) : State × Nat :=
  let id := s.nextId
  let s := { s with nextId := s.nextId + 1 }
  let w := if r.area = 0 then s.writeRec r else (s, r)
  ({ w.1 with recs := nset w.1.recs id w.2 }.route id, id)

/-! ### Taking a fault and the return from it -/

/-- TAKING A FAULT, the one operation for every record that stops its process (R116, R169, R170, R172): the record is
written, the process is FAULTED with its program counter at `pc` (on the word for classes P, after it for A and C), and a
process that is not a gang member gives up its context. -/
def State.takeFault (s : State) (k : Nat) (r : FRec) (pc : Word) : State :=
  if (s.proc k).engine.isSome then
    s.failThread k r.trap r.loc r.bword
  else
    let s := (s.dequeue k).modProc k fun p =>
      { p with st := .faulted, pc := pc, hold := none, wkind := .none, deadline := 0, held := some s.nextId }
    let s := if (s.proc k).gang = 0 then s.leaveCtx k else s
    (s.file r).1

/-- A handler instance that ends without disposing of its record escalates it (R173), and no longer counts among those that run
(R172). -/
def State.endHandler (s : State) (k : Nat) : State :=
  let p := s.proc k
  if !p.isHandler then s
  else
    let s := match p.handles with | some id => s.escalate id 0 | none => s
    s.modInst p.inst fun i => { i with handlers := i.handlers.filter (· != k) }

/-- A deferred record: the issuer is not parked (class D, R175). -/
def State.deferRec (s : State) (k : Nat) (t : Trap) (loc : Word) (bword : Bool := false) : State :=
  (s.file (mkRec s k .d t loc bword)).1

/-- Deferred page faults of stores and reductions go to the partition manager (R94); those of the manager itself and of a handler take
the way of their other records (R174). -/
def State.deferToManager (s : State) (k : Nat) (t : Trap) (loc : Word) (bword : Bool := false) : State :=
  let id := s.nextId
  let w := { s with nextId := s.nextId + 1 }.writeRec (mkRec s k .d t loc bword)
  let s : State := { w.1 with recs := nset w.1.recs id w.2 }
  if isManager s k || (s.proc k).isHandler then s.route id else s.toManager id 0

/-- Registers at the start of a process or firing (R147): parameters in n0 to n7, n24 to n31 for a firing, all else zero. -/
def Proc.start (p : Proc) (params : List Word) (pc : Word) : Proc :=
  let n := (List.range 6).foldl (fun n i => if h : i + 2 < 32 then n.set (i + 2) (params.getD i 0) h else n)
    ((Vector.replicate 32 (0 : Word)).set 0 p.param |>.set 1 (BitVec.ofNat 64 p.index))
  let n := if p.rated then
      (List.range 8).foldl (fun n i => if h : i + 24 < 32 then n.set (i + 24) (p.persist.toList.getD i 0) h else n) n
    else n
  { p with
    pc := pc, n := n, q := Vector.replicate 16 0, qPend := 0, push := 0, nPend := [], v := [], vPend := [], p := [],
    flags := 0, rot := 0, rmode := 0, accept := 0, heapoff := 0, compat := 0, watch0 := 0, watch1 := 0, tmo := 0, ptag := 0,
    rep := {}, out := [], hold := none, exiting := false, brkOnce := false, opened := none, fences := [], altRes := none, faults := [],
    gmask := 0, wkind := .none, deadline := 0 }

/-- The declared parameters of process `index` of an instance: its six words of the parameter block, as they stand in memory (R119,
R147). -/
def paramsOf (s : State) (i : Inst) (index : Nat) : List Word :=
  (List.range 6).map fun k =>
    let o := 8192 + 48 * index + 8 * k
    match i.frames[o / 2 ^ 16]? with
    | some f => readWord s.mem (f * 2 ^ 16 + o % 2 ^ 16)
    | none => i.block.getD (6 * index + k) 0

/-- The entry point of process `index`: a fat pointer into the object's code (R115, R117). -/
def entryOf (s : State) (i : Inst) (index : Nat) : Word :=
  match nget? s.objs i.obj with
  | none => 0
  | some o => BitVec.ofNat 64 (o.codeVa + (o.img.procs.getD index {}).entry)

/-- Tiles and accumulators that transaction `t` still marks pending are filled with 0; a tile keeps its format tag. -/
def Core.zeroMats (c : Core) (t : Nat) (mats : List Nat) : Core :=
  let c := (mats.filter fun m => c.mPend.contains (m, t)).foldl (fun (c : Core) m =>
    if m < 8 then { c with tiles := nset c.tiles m { nget {} c.tiles m with data := 0, dirty := true } }
    else { c with accs := nset c.accs (m - 8) { dirty := true } }) c
  { c with mPend := c.mPend.filter fun e => e.2 != t }

/-- Fill with 0 what a failed word reserved (Table 8.4, resume of class C). -/
def State.fillZero (s : State) (k : Nat) (r : FRec) : State :=
  let z : Deliver :=
    { vals := List.replicate r.fill.slots.length 0
      kept := List.replicate r.fill.keeps.length 0
      vecs := List.replicate r.fill.vregs.length 0 }
  let s := (s.modProc k fun p => p.fill r.txn r.fill z).lateImg k
  if r.fill.mats = [] then s
  else s.modCore (s.proc k).core fun c => c.zeroMats r.txn r.fill.mats

/-- A process stands FAULTED for the loss of its core. -/
def State.coreGone (s : State) (k : Nat) : Bool :=
  match (s.proc k).held.bind (nget? s.recs) with | some q => q.kind == .coreLost | none => false

/-- RETURN FROM A FAULT: dispose of a record by one of the dispositions of Table 8.4 (R173, R258). DEDUCED (log entry 126): Table 6.2
gives READY for a restart and Table 8.4 NEW; the model takes NEW. -/
def State.dispose (s : State) (id : Nat) (d : Disp) : State :=
  match nget? s.recs id with
  | none => s
  | some r =>
    let k := r.handle
    let p := s.proc k
    let drop (s : State) : State := { s with recs := ndel s.recs id, managed := s.managed.filter (· != id) }
    -- a loss of the core that was recorded first refuses the resume of an earlier record (R182, R258)
    let d := if d = .resume ∧ (r.kind = .coreLost ∨ (r.cls ≠ .d ∧ s.coreGone k)) then .kill else d
    let mine := decide (p.held = some id)
    match d with
    | .resume =>
      if !mine then drop s
      else
        let s := if r.cls = .c then s.fillZero k r else s
        let s := s.modProc k fun p => { p with held := none, brkOnce := p.brkOnce || decide (r.kind = .breakpoint) }
        ((drop s).ready k false).waitAgain k
    | .restart =>
      if p.st = .exited then drop s
      else
        let s := s.releaseMatrix k
        let s := s.resetBufs k
        -- what is still on its way no longer finds the slots it was issued for
        let s : State := { s with txns := s.txns.map fun e => if e.2.issuer = k then (e.1, { e.2 with tgt := {} }) else e }
        -- nor does it wait any more; only a gang member keeps its context
        let s := ((s.dropAlt k).dropWaits k).leaveTxns k
        let s := if p.rated then s.reserveFiring k else s
        let s := if p.gang = 0 then s.unschedule k else s
        let i := s.inst p.inst
        let s := s.modProc k fun p =>
          { p.start (paramsOf s i p.index) (entryOf s i p.index) with held := none }
        let s := (drop s).newEpisode k
        let st : PState := if (s.proc k).ctx.isSome then .running else .new
        if p.st = .stopped then s.modProc k fun q => { q with st := .stopped, was := st }
        else if p.gang ≠ 0 then s.modProc k fun q => { q with st := st }
        else (s.modProc k fun q => { q with st := .new }).enqueue k false
    | .kill => ((drop s).endHandler k).endProc k false
    | .escalate => s.escalate id 0

/-! ### The end of a word: faults and holds -/

/-- Why a word does not issue. -/
inductive Abort where
  | trap (t : Trap)
  | hold (h : Hold)
  /-- It does not issue at this turn: a table walk that it needs waits for its memory (R110, R111). -/
  | wait
  | stop (f : Fault)
  deriving DecidableEq, Repr

/-- The process whose word is in issue. -/
def State.cur (s : State) : Except Abort Issue :=
  match s.issue with
  | some i => .ok i
  | none => .error (.stop .noProcess)

/-- Raise a precise fault at the word in issue: the word and its pair do nothing, and the program counter stays on it
(R20, R170 class P). The latch is emptied, which tells the step that the word did not issue. -/
def State.raise (s : State) (t : Trap) : State :=
  match s.issue with
  | none => s
  | some i =>
    let s := { s with issue := none, raised := some t }
    let s := match t.iso with | some f => s.ringDev (.isolation f.1 f.2) | none => s
    s.takeFault i.proc (mkRec s i.proc .p t i.loc i.bword) i.loc

/-- A fault of a word that has taken effect (class A, R170): the program counter stands after it. A second watch of a pair
adds no record (R177). -/
def State.raiseAfter (s : State) (t : Trap) : State :=
  match s.issue with
  | none => s
  | some i =>
    if s.raised.isSome || i.hit then s
    else
      let s := { s with raised := some t }
      s.takeFault i.proc (mkRec s i.proc .a t i.loc i.bword) i.next

/-- The word is held at issue: its process is PARKED with the program counter on it (Table 6.2). -/
def State.holdWord (s : State) (h : Hold) : State :=
  match s.issue with
  | none => s
  | some i => { s with issue := none }.modProc i.proc fun p => { p with st := .parked, hold := some h }

/-- The outcome of a word: its effect, a fault taken, a hold, or a stop of the model. -/
def finish (s : State) (r : Except Abort State) : Host.Outcome State Fault Refusal :=
  match r with
  | .ok t => .next t
  | .error (.trap t) => .next (s.raise t)
  | .error (.hold h) => .next (s.holdWord h)
  | .error .wait => .next { s with issue := none }
  | .error (.stop f) => .fault f

/-- A check in the order of a word's faults. -/
def check (c : Bool) (t : Trap) : Except Abort Unit := if c then .ok () else .error (.trap t)

/-- Change the process in issue. -/
def State.modCur (s : State) (f : Proc → Proc) : State :=
  match s.issue with
  | none => s
  | some i => s.modProc i.proc f

end Sys2Proof.Machine
end

