-- ==== Sys2Proof/Machine/Operands.lean ====
section
/-! DEFINITION. Operand forms (R13, R14, R236, R247): sources, keeps, pushes, pending pushes, the power tokens of heavy forms
and privilege, shared by every meaning. -/

namespace Sys2Proof.Machine

/-- The six-bit code of a source, for the extra word of UNREADY_OPERAND (Tables 8.3 and 12.2). -/
def srcCode : Src → Nat
  | .q k => k.toNat
  | .sp .zero => 16 | .sp .one => 17 | .sp .mone => 18 | .sp .self => 19 | .sp .coreid => 20 | .sp .lanes => 21
  | .sp .partid => 22
  | .n r => 32 + r.toNat

/-- Values of the special sources (Table 1.6); an engine thread has its issuer's. -/
def specialVal (k : Nat) (p : Proc) : Special → Word
  | .zero => 0
  | .one => 1
  | .mone => BitVec.allOnes 64
  | .self => BitVec.ofNat 64 (k % 2 ^ 32)
  | .coreid => BitVec.ofNat 64 p.core
  | .lanes => 64
  | .partid => BitVec.ofNat 64 (partOf k)

/-- Reading a pending slot or register: UNREADY_OPERAND, where an engine thread stalls (R21, R149, R356). -/
def unready (i : Issue) (code : Nat) : Abort :=
  if i.pre.engine.isSome then .hold .results
  else .trap { kind := .unreadyOperand, e5 := BitVec.ofNat 64 code }

/-- `ReadOperand` (Table 1.8): the value as it stood before the word or pair (R148). -/
def readSrc (i : Issue) (x : Src) : Except Abort Word :=
  match x with
  | .q k => if i.pre.qpend k then .error (unready i (srcCode x)) else .ok (i.pre.qget k)
  | .sp k => .ok (specialVal i.proc i.pre k)
  | .n r =>
    if i.pre.nPend.any (fun e => e.1 == i.pre.nphys r) then .error (unready i (srcCode x))
    else .ok (i.pre.nget (i.pre.nphys r))

/-- `q0` of a conditional form. -/
def readQ0 (i : Issue) : Except Abort Word := readSrc i (.q 0)

/-- The physical register of a keep, resolved at issue (R247). -/
def Issue.keep (i : Issue) (k : Keep) : Option (BitVec 5) := k.map i.pre.nphys

/-- Push a turn-ready result and keep it. -/
def State.push (s : State) (i : Issue) (w : Word) (k : Keep) : State := s.modProc i.proc fun p => p.pushVal w (i.keep k)

/-- OR flags into `ctl.flags` (`SetFlag`, R219). -/
def State.setFlags (s : State) (i : Issue) (f : Word) : State := s.modProc i.proc fun p => { p with flags := p.flags ||| f }

/-- Manager privilege: a process of a network launched from a manager queue or from PF0 (R174). -/
def State.isMgr (s : State) (k : Nat) : Bool := (s.inst (s.proc k).inst).mgr

/-- PRIV unless the issuer has manager privilege (R246 check 8). -/
def needMgr (s : State) (i : Issue) : Except Abort Unit := check (s.isMgr i.proc) { kind := .priv }

/-- The transaction of a word in issue. -/
def mkTxn (s : State) (i : Issue) (op : Op) (lat : Nat) : Txn :=
  { issuer := i.proc, core := i.pre.core, part := partOf i.proc, inst := i.pre.inst, loc := i.loc, op := op
    issued := s.cycle, svc := i.pre.svc, ptag := i.pre.ptag, due := s.cycle + lat
    clock := (s.die (dieOf i.pre.core)).clock, bword := i.bword, heapoff := i.pre.heapoff, sca := i.pre.compat.getLsbD 0 }

/-- Issue an operation that pushes one pending entry. -/
def State.issuePend (s : State) (i : Issue) (x : Txn) (k : Keep) : State :=
  let t := s.nextTxn
  let r := (s.proc i.proc).pushPend t (i.keep k)
  (s.newTxn { x with tgt := r.2 }).1.setProc i.proc { r.1 with out := r.1.out ++ [t] }

/-- The issuer is held at its word, which has not issued (R216, R362). -/
def State.holdAtWord (s : State) (i : Issue) : State :=
  s.modProc i.proc fun p => { p with st := if p.st = .running then .parked else p.st, hold := some .barrier }

/-- A word at which its issuer was held issues: its slot is pushed, pending until its transaction completes, or with 0 where that has
ended by now. -/
def State.issueOpened (s : State) (i : Issue) (t : Nat) (k : Keep) : State :=
  let s := s.modProc i.proc fun p => { p with opened := none }
  match nget? s.txns t with
  | some x =>
    let r := (s.proc i.proc).pushPend t (i.keep k)
    (s.setTxn t { x with tgt := { r.2 with mats := x.tgt.mats } }).setProc i.proc { r.1 with out := r.1.out ++ [t] }
  | none => s.push i 0 k

/-- Issue an operation that pushes two pending entries, the keep taking the first value (R235, R291). -/
def State.issuePend2 (s : State) (i : Issue) (x : Txn) (k : Keep) : State :=
  let t := s.nextTxn
  let a := (s.proc i.proc).pushPend t (i.keep k)
  let b := a.1.pushPend t none
  (s.newTxn { x with tgt := { a.2 with slots := a.2.slots ++ b.2.slots } }).1.setProc i.proc { b.1 with out := b.1.out ++ [t] }

/-- Issue an operation that pushes nothing and that no park waits for. -/
def State.issueQuiet (s : State) (x : Txn) : State := (s.newTxn x).1

/-- A pending result whose value is known at issue: core arithmetic (R265, R274). -/
def State.pushLater (s : State) (i : Issue) (w : Word) (fl : Word) (k : Keep) (lat : Nat) : State :=
  let d : Deliver := { vals := [w], kept := [w], flags := fl }
  s.issuePend i (mkTxn s i (.value d) lat) k

/-- `ctl.tokens` of a core (Table 7.3). -/
def Core.tokens (c : Core) : Word := BitVec.ofNat 64 (c.grant % 256 * 256 + c.free % 256)

/-- POWER_BUDGET when a heavy operation finds FREE = 0 (R157). -/
def needToken (s : State) (i : Issue) : Except Abort Unit :=
  check (decide (0 < (s.core i.pre.core).free)) { kind := .powerBudget, e5 := (s.core i.pre.core).tokens }

/-- Take a token from the core, and return it (R157, R158). -/
def State.takeToken (s : State) (core : Nat) : State := s.modCore core fun c => { c with free := c.free - 1 }
def State.giveToken (s : State) (core : Nat) : State := s.modCore core fun c => { c with free := c.free + 1 }

/-- A turn-ready form of one source. -/
def form1 (s : State) (x : Src) (k : Keep) (f : Word → Word) : Except Abort State := do
  let i ← s.cur
  let a ← readSrc i x
  .ok (s.push i (f a) k)

/-- A turn-ready form of two sources. -/
def form2 (s : State) (x y : Src) (k : Keep) (f : Word → Word → Word) : Except Abort State := do
  let i ← s.cur
  let a ← readSrc i x
  let b ← readSrc i y
  .ok (s.push i (f a b) k)

/-- A pending form of two sources with flags set at arrival. -/
def form2Later (s : State) (x y : Src) (k : Keep) (lat : Nat) (f : Word → Word → Word × Word) : Except Abort State := do
  let i ← s.cur
  let a ← readSrc i x
  let b ← readSrc i y
  .ok (s.pushLater i (f a b).1 (f a b).2 k lat)

/-- The rounding mode of a static field (R218). -/
def Issue.rm (i : Issue) (r : Rm) : Rm :=
  match r with
  | .dyn => (match i.pre.rmode.toNat % 8 with | 1 => .rtz | 2 => .rdn | 3 => .rup | 4 => .rna | _ => .rne)
  | r => r

/-- A turn-ready floating form of one source: low bits in, result zero-extended, flags ORed (R247, R274). -/
def float1 (s : State) (dbl : Bool) (x : Src) (k : Keep) (f : Issue → Fmt → Nat → Nat × Word) : Except Abort State := do
  let i ← s.cur
  let a ← readSrc i x
  let r := f i (scalarFmt dbl) ((scalarFmt dbl).take a.toNat)
  .ok ((s.push i (BitVec.ofNat 64 r.1) k).setFlags i r.2)

/-- A turn-ready floating form of two sources. -/
def float2 (s : State) (dbl : Bool) (x y : Src) (k : Keep) (f : Issue → Fmt → Nat → Nat → Nat × Word) :
    Except Abort State := do
  let i ← s.cur
  let a ← readSrc i x
  let b ← readSrc i y
  let r := f i (scalarFmt dbl) ((scalarFmt dbl).take a.toNat) ((scalarFmt dbl).take b.toNat)
  .ok ((s.push i (BitVec.ofNat 64 r.1) k).setFlags i r.2)

end Sys2Proof.Machine
end

