-- ==== Sys2Proof/Machine/Integer.lean ====
section
/-! DEFINITION. Integer instructions (R22, R264 to R269) and pointer instructions (R270 to R273). -/

namespace Sys2Proof.Machine

/-- Bits [127:64] of the signed product (Table 13.7). -/
def mulhI (a b : Word) : Word := BitVec.ofInt 64 (a.toInt * b.toInt / 2 ^ 64)
/-- Bits [127:64] of the natural product. -/
def mulhN (a b : Word) : Word := BitVec.ofNat 64 (a.toNat * b.toNat / 2 ^ 64)

/-- Signed quotient toward zero; all ones and DZ for a zero divisor (R265). -/
def divI (a b : Word) : Word × Word :=
  if b = 0 then (BitVec.allOnes 64, fDZ) else (BitVec.ofInt 64 (Int.tdiv a.toInt b.toInt), 0)
def divN (a b : Word) : Word × Word := if b = 0 then (BitVec.allOnes 64, fDZ) else (BitVec.ofNat 64 (a.toNat / b.toNat), 0)
/-- The remainder takes the dividend's sign; x and DZ for a zero divisor (R265). -/
def remI (a b : Word) : Word × Word := if b = 0 then (a, fDZ) else (BitVec.ofInt 64 (Int.tmod a.toInt b.toInt), 0)
def remN (a b : Word) : Word × Word := if b = 0 then (a, fDZ) else (BitVec.ofNat 64 (a.toNat % b.toNat), 0)

/-- −1, 0 or +1 (Table 13.7). -/
def cmp3 (lt eq : Bool) : Word := if lt then BitVec.allOnes 64 else if eq then 0 else 1

/-- `SignExtend` and `ZeroExtend` of the low `n` bits (Table 1.8). -/
def signExt (x : Word) (n : Nat) : Word :=
  let v := x.toNat % 2 ^ n
  if 2 ^ n ≤ 2 * v then BitVec.ofInt 64 ((v : Int) - 2 ^ n) else BitVec.ofNat 64 v
def zeroExt (x : Word) (n : Nat) : Word := BitVec.ofNat 64 (x.toNat % 2 ^ n)

/-- Leading zeros of the low `n` bits (R267). -/
def clzN (x : Nat) : Nat → Nat
  | 0 => 0
  | n + 1 => if x / 2 ^ n % 2 = 1 then 0 else clzN x n + 1
/-- Trailing zeros, at most `fuel` (R267). -/
def ctzN (x : Nat) : Nat → Nat
  | 0 => 0
  | n + 1 => if x % 2 = 1 then 0 else ctzN (x / 2) n + 1
/-- Ones among the low `n` bits (R267). -/
def popN (x : Nat) : Nat → Nat
  | 0 => 0
  | n + 1 => x % 2 + popN (x / 2) n

/-- A rotation to the left by y mod 64 (R266). -/
def rolW (x y : Word) : Word := x.rotateLeft (y.toNat % 64)

/-- x with the field at `lo` of `w` bits replaced by the low bits of `v` (R269). -/
def insField (x v : Word) (w lo : Nat) : Word :=
  let m := 2 ^ w
  BitVec.ofNat 64 (x.toNat % 2 ^ lo + v.toNat % m * 2 ^ lo + x.toNat / (2 ^ lo * m) * (2 ^ lo * m))

def execAdd (x y : Src) (k : Keep) (s : State) := finish s (form2 s x y k fun a b => a + b)
def execSub (x y : Src) (k : Keep) (s : State) := finish s (form2 s x y k fun a b => a - b)
def execMul (x y : Src) (k : Keep) (s : State) := finish s (form2 s x y k fun a b => a * b)
def execMulhI64 (x y : Src) (k : Keep) (s : State) := finish s (form2 s x y k mulhI)
def execMulhN64 (x y : Src) (k : Keep) (s : State) := finish s (form2 s x y k mulhN)
def execDivI64 (x y : Src) (k : Keep) (s : State) := finish s (form2Later s x y k 36 divI)
def execDivN64 (x y : Src) (k : Keep) (s : State) := finish s (form2Later s x y k 36 divN)
def execRemI64 (x y : Src) (k : Keep) (s : State) := finish s (form2Later s x y k 36 remI)
def execRemN64 (x y : Src) (k : Keep) (s : State) := finish s (form2Later s x y k 36 remN)
def execMinI64 (x y : Src) (k : Keep) (s : State) := finish s (form2 s x y k fun a b => if a.slt b then a else b)
def execMinN64 (x y : Src) (k : Keep) (s : State) := finish s (form2 s x y k fun a b => if a.ult b then a else b)
def execMaxI64 (x y : Src) (k : Keep) (s : State) := finish s (form2 s x y k fun a b => if a.slt b then b else a)
def execMaxN64 (x y : Src) (k : Keep) (s : State) := finish s (form2 s x y k fun a b => if a.ult b then b else a)
def execCmpI64 (x y : Src) (k : Keep) (s : State) := finish s (form2 s x y k fun a b => cmp3 (a.slt b) (a == b))
def execCmpN64 (x y : Src) (k : Keep) (s : State) := finish s (form2 s x y k fun a b => cmp3 (a.ult b) (a == b))

def execAnd (x y : Src) (k : Keep) (s : State) := finish s (form2 s x y k fun a b => a &&& b)
def execOr (x y : Src) (k : Keep) (s : State) := finish s (form2 s x y k fun a b => a ||| b)
def execXor (x y : Src) (k : Keep) (s : State) := finish s (form2 s x y k fun a b => a ^^^ b)
def execAndn (x y : Src) (k : Keep) (s : State) := finish s (form2 s x y k fun a b => a &&& ~~~b)
def execShl (x y : Src) (k : Keep) (s : State) := finish s (form2 s x y k fun a b => a <<< (b.toNat % 64))
def execShr (x y : Src) (k : Keep) (s : State) := finish s (form2 s x y k fun a b => a >>> (b.toNat % 64))
def execSar (x y : Src) (k : Keep) (s : State) := finish s (form2 s x y k fun a b => a.sshiftRight (b.toNat % 64))
def execRol (x y : Src) (k : Keep) (s : State) := finish s (form2 s x y k rolW)

/-- `sel` reads q0 after x and y (R266). -/
def execSel (x y : Src) (k : Keep) (s : State) := finish s do
  let i ← s.cur
  let a ← readSrc i x
  let b ← readSrc i y
  let c ← readQ0 i
  .ok (s.push i (if c = 0 then b else a) k)

def execNeg (x : Src) (k : Keep) (s : State) := finish s (form1 s x k fun a => -a)
def execAbs (x : Src) (k : Keep) (s : State) := finish s (form1 s x k fun a => if a.msb then -a else a)
def execNot (x : Src) (k : Keep) (s : State) := finish s (form1 s x k fun a => ~~~a)
def execClz (x : Src) (k : Keep) (s : State) := finish s (form1 s x k fun a => BitVec.ofNat 64 (clzN a.toNat 64))
def execCtz (x : Src) (k : Keep) (s : State) := finish s (form1 s x k fun a => BitVec.ofNat 64 (ctzN a.toNat 64))
def execPopc (x : Src) (k : Keep) (s : State) := finish s (form1 s x k fun a => BitVec.ofNat 64 (popN a.toNat 64))

/-- `li` (R268). -/
def execLi (imm : BitVec 17) (k : Keep) (s : State) := finish s do
  let i ← s.cur
  .ok (s.push i (imm.signExtend 64) k)
/-- `lih` (R268). -/
def execLih (x : Src) (imm : BitVec 11) (k : Keep) (s : State) :=
  finish s (form1 s x k fun a => (a <<< 11) ||| imm.setWidth 64)
def execSext (x : Src) (w : BitVec 11) (k : Keep) (s : State) := finish s (form1 s x k fun a => signExt a w.toNat)
def execZext (x : Src) (w : BitVec 11) (k : Keep) (s : State) := finish s (form1 s x k fun a => zeroExt a w.toNat)
/-- `bext` (R269): the width code is the width minus 1. -/
def execBext (x : Src) (w : BitVec 5) (lo : BitVec 6) (k : Keep) (s : State) :=
  finish s (form1 s x k fun a => zeroExt (a >>> lo.toNat) (w.toNat + 1))
/-- `addi` (R22). -/
def execAddi (x : Src) (imm : BitVec 11) (k : Keep) (s : State) := finish s (form1 s x k fun a => a + imm.signExtend 64)
/-- `bins` reads q0 after x (R269). -/
def execBins (x : Src) (w : BitVec 5) (lo : BitVec 6) (k : Keep) (s : State) := finish s do
  let i ← s.cur
  let a ← readSrc i x
  let v ← readQ0 i
  .ok (s.push i (insField a v (w.toNat + 1) lo.toNat) k)

/-! ### Fat pointers (R19, R270 to R273) -/

/-- Fields of a fat pointer: space, format code, block-length log2, offset. -/
def pSpace (p : Word) : Nat := p.toNat / 2 ^ 60
def pFmt (p : Word) : Nat := p.toNat / 2 ^ 54 % 64
def pBl (p : Word) : Nat := p.toNat / 2 ^ 51 % 8
def pOff (p : Word) : Nat := p.toNat % 2 ^ 51

/-- Reserved format codes (R228). -/
def fmtReserved (c : Nat) : Bool :=
  (13 ≤ c && c ≤ 15) || c == 0x13 || c == 0x17 || c == 0x1E || c == 0x1F || 0x28 ≤ c
/-- Split block formats (Table 11.7). -/
def fmtSplit (c : Nat) : Bool := (0x14 ≤ c && c ≤ 0x16) || (0x20 ≤ c && c ≤ 0x25)

/-- `addp`: the offset moves, and FAT_OVERFLOW when it leaves 0 to 2^51 − 1 (R270). -/
def addOff (p : Word) (delta : Int) : Except Abort Word :=
  let off : Int := pOff p + delta
  if 0 ≤ off ∧ off < 2 ^ 51 then .ok (BitVec.ofNat 64 (p.toNat / 2 ^ 51 * 2 ^ 51 + off.toNat))
  else .error (.trap { kind := .fatOverflow, addr := p })

def execAddpImm (x : Src) (imm : BitVec 11) (k : Keep) (s : State) := finish s do
  let i ← s.cur
  let p ← readSrc i x
  let r ← addOff p imm.toInt
  .ok (s.push i r k)
def execAddp (x y : Src) (k : Keep) (s : State) := finish s do
  let i ← s.cur
  let p ← readSrc i x
  let d ← readSrc i y
  let r ← addOff p d.toInt
  .ok (s.push i r k)

/-- `fmtp` (R271). -/
def execFmtp (x y : Src) (k : Keep) (s : State) := finish s do
  let i ← s.cur
  let p ← readSrc i x
  let f ← readSrc i y
  check (f.toNat < 2 ^ 9 && !fmtReserved (f.toNat % 64) && (f.toNat / 64 == 0 || fmtSplit (f.toNat % 64)))
    { kind := .illegalOperand, addr := f }
  .ok (s.push i (BitVec.ofNat 64 (pSpace p * 2 ^ 60 + f.toNat % 64 * 2 ^ 54 + f.toNat / 64 * 2 ^ 51 + pOff p)) k)

/-- The process number `peer` names: a member of the issuer's gang, or a handle (R272). -/
def peerTarget (s : State) (i : Issue) (x : Word) : Except Abort Nat :=
  if x.toNat < 2 ^ 63 then do
    check (decide (x.toNat < 64) && i.pre.gang != 0) { kind := .illegalOperand, addr := x }
    match nget? s.gangs i.pre.gang with
    | none => .error (.trap { kind := .illegalOperand, addr := x })
    | some g =>
      match g.members[x.toNat]? with
      | none => .error (.trap { kind := .illegalOperand, addr := x })
      | some m => .ok (numOf m)
  else do
    check (x.toNat / 2 ^ 32 % 2 ^ 31 == 0) { kind := .illegalOperand, addr := x }
    .ok (numOf (x.toNat % 2 ^ 32))

/-- `peer` (R272): every ILLEGAL_OPERAND comes before PEER_NOT_RESIDENT. -/
def execPeer (x y : Src) (k : Keep) (s : State) := finish s do
  let i ← s.cur
  let a ← readSrc i x
  let b ← readSrc i y
  let num ← peerTarget s i a
  check (decide (b.toNat < 2 ^ 21)) { kind := .illegalOperand, addr := b }
  check (decide (a.toNat < 2 ^ 63) || partOf (a.toNat % 2 ^ 32) == partOf i.proc)
    { kind := .peerNotResident, other := a.setWidth 32, addr := a }
  .ok (s.push i (BitVec.ofNat 64 (4 * 2 ^ 60 + num * 2 ^ 21 + b.toNat)) k)

/-- `ptrq` (R273). -/
def execPtrq (x y : Src) (k : Keep) (s : State) := finish s do
  let i ← s.cur
  let p ← readSrc i x
  let f ← readSrc i y
  check (decide (f.toNat ≤ 4)) { kind := .illegalOperand, addr := f }
  let good := decide (pSpace p < 8) && !fmtReserved (pFmt p) && (pBl p == 0 || fmtSplit (pFmt p))
  .ok (s.push i (BitVec.ofNat 64 (match f.toNat with
    | 0 => pSpace p | 1 => pFmt p | 2 => pBl p | 3 => pOff p | _ => if good then 1 else 0)) k)

end Sys2Proof.Machine
end

