-- ==== Sys2Proof/Machine/Address.lean ====
section
/-! DEFINITION. Effective addresses and spaces (R285 to R290), translation (R87 to R98), windows (R165, R166), the buffer
rules and the scoreboard as an access meets them (R161 to R164), and the watch registers (R177). -/

namespace Sys2Proof.Machine

/-! ### Places (R24, R25, R29, R87) -/

/-- The node that a physical address has its home slice at (R87). -/
def homeNode (pa : Nat) : Nat :=
  if pa < 2 ^ 44 then nodeOfDie (pa / 2 ^ 16 % 8 / 2) (bits pa 22 19)
  else nodeOfDie (pa / 2 ^ 42 % 4) (bits pa 22 19)

/-- The capacity of a CXL window of 4 TiB: none where the configuration record disables its port, or
its device is not configured (R30, R60). The module takes 14 TiB
in all (R1); what a port reports beyond that is left out. -/
def cxlBytes (s : State) (d : Nat) : Nat :=
  let cap (e : Nat) : Nat := if s.flash.config.cxl.getLsbD e && !(nget {} s.cxl e).absent then min (Config.cxlCapacity e) (2 ^ 42) else 0
  min (cap d) (14 * 2 ^ 40 - ((List.range d).map cap).foldl (· + ·) 0)

/-- The tier of a physical address; none in a hole or beyond the capacity of a CXL window (R29). -/
def tierOf (s : State) (pa : Nat) : Option Nat :=
  if pa < 0x8000000000 then some 0
  else if 0x20000000000 ≤ pa ∧ pa < 0x40000000000 then some 1
  else if 0x100000000000 ≤ pa ∧ pa < 0x200000000000 then
    (if pa % 2 ^ 42 < cxlBytes s (pa / 2 ^ 42 % 4) then some 2 else none)
  else none

/-- The stack or root port of a page in its tier (R87). -/
def stackOf (pa : Nat) : Nat := if pa < 0x100000000000 then pa / 2 ^ 16 % 8 else pa / 2 ^ 42 % 4

/-- The die that a memory key has its home at: a physical address, or the scratchpad of a core. -/
def homeDie (key : Nat) : Nat :=
  if key < 2 ^ 51 then dieOfNode (homeNode key) else dieOf ((key - 2 ^ 52) / 2 ^ 18 % 512)

/-- Steps of one ring dimension, the crossings among them weighing 16 cc (R25, Table 2.1). -/
def ringCost (a b : Nat) : Nat :=
  let up := (b + 8 - a) % 8
  let go (n : Nat) (f : Nat → Nat) : Nat :=
    (List.range n).foldl (fun acc i => acc + (if f i / 4 == f (i + 1) / 4 then 4 else 16)) 0
  if up ≤ 4 then go up (fun i => (a + i) % 8) else go (8 - up) (fun i => (a + 8 - i) % 8)

/-- Unloaded torus latency between two nodes (Table 2.1). -/
def torus (a b : Nat) : Nat := 8 + ringCost (a % 8) (b % 8) + ringCost (a / 8) (b / 8)

/-- Unloaded latency of an access from a core to a key (Table 7.2; log entry 15). -/
def latency (core key : Nat) : Nat :=
  if 2 ^ 52 ≤ key ∧ key < 2 ^ 64 then
    let c := (key - 2 ^ 52) / 2 ^ 18 % 512
    if c = core then 12 else if c / 8 = core / 8 then 24 else 24 + 2 * torus (core / 8) (c / 8)
  else if key < 2 ^ 51 then 16 + 2 * torus (core / 8) (homeNode key) + 245
  else 1000

/-! ### Page motion as a reader sees it (R101, R102) -/

/-- The motion whose source page holds a physical address. -/
def State.motionOf (s : State) (pa : Nat) : Option Motion :=
  (s.motions.find? fun e => e.2.st != .queued && e.2.src == pa / 2 ^ 16).map Prod.snd

/-- Where the current contents of an address lie: the source while copying, the destination once it forwards. The source
is complete throughout copying (R101). -/
def State.live (s : State) (key : Nat) : Nat :=
  if key < 2 ^ 51 then
    match s.motionOf key with
    | some m => if m.st = .forwarding then m.dst * 2 ^ 16 + key % 2 ^ 16 else key
    | none => key
  else key

/-! ### Lines that cannot be read (R31, R41, R42, R101, R103) -/

/-- A read of the line of a key is uncorrectable: the line holds an error that its check cannot correct (R42), its controller lists it
(R41), or its CXL port is lost (R31). -/
def State.badAt (s : State) (pa : Nat) : Bool :=
  s.flaws.contains (pa / 128 * 128) ||
    (if pa < 2 ^ 44 then (s.mbd (stackOf pa)).bad.contains (pa / 128 * 128)
    else if pa < 2 ^ 51 then
      let c := nget {} s.cxl (pa / 2 ^ 42 % 4)
      c.lost || c.bad.contains (pa / 128 * 128)
    else false)

/-- The destination of a line that a motion in COPYING has copied. -/
def State.copied (s : State) (key : Nat) : Option Nat :=
  if 2 ^ 51 ≤ key then none
  else
    match s.motionOf key with
    | some m => if m.st = .copying ∧ m.bitmap.getLsbD (key % 2 ^ 16 / 128) then some (m.dst * 2 ^ 16 + key % 2 ^ 16) else none
    | none => none

/-- Where a read of an address is served (Table 5.5): a line that has been copied at the destination, unless an error there sends the read
back to the source (R103). -/
def State.readPlace (s : State) (key : Nat) : Nat :=
  match s.copied key with
  | some d => if s.badAt d then s.live key else d
  | none => s.live key

/-- Where a write of an address is applied (Table 5.5): at both places once its line has been copied. -/
def State.writePlaces (s : State) (key : Nat) : List Nat := s.live key :: (s.copied key).toList

/-! ### Memory servers (R105) -/

/-- A transfer at a memory endpoint that has started: it is served as bulk (R105, R311). -/
def Txn.atEnd (x : Txn) : Bool :=
  match x.op, x.stage with
  | .sendt .., .back _ | .recvt .., .back _ => x.started && x.partner.isNone
  | _, _ => false

/-- The requests at a slice that have not been served. -/
def State.slots (s : State) (c : Nat) : List Nat :=
  (s.cluster c).reqs.filter fun t => match nget? s.txns t with | some x => x.stage == .sent || x.atEnd | none => false

/-- A context of a slice serves a request at once: one of the 8 that holds it, or one that is free. -/
def State.serves (s : State) (c t : Nat) : Bool := decide ((s.slots c).length < 8) || ((s.slots c).take 8).contains t

/-! ### Waits of the memory itself (R31, R40, R110 to R112) -/

/-- The pseudo-channel of a tier-0 address (R87). -/
def channelOf (pa : Nat) : Nat := pa / 2 ^ 7 % 64

/-- A request to an address waits: its port, stack, channel or row is out of service for a while. `act`: it activates its row,
which waits for a queued neighbour refresh (R110). -/
def State.memBusy (s : State) (pa : Nat) (act : Bool := true) : Bool :=
  if pa < 2 ^ 44 then
    let m := s.mbd (stackOf pa)
    m.retraining || (decide (pa < 0x8000000000) && m.copying == some (channelOf pa)) ||
      m.repairing.contains (Config.rowOf pa) || (act && m.refresh.contains (Config.rowOf pa))
  else if pa < 2 ^ 51 then (nget {} s.cxl (pa / 2 ^ 42 % 4)).retraining
  else false

/-! ### Counting (R99, R110) -/

/-- An activation of the row of an address: its counter steps; one that is saturated, or whose parity fails, queues a refresh of the
neighbours, and a parity failure is logged (R110). -/
def State.activate (s : State) (key : Nat) : State :=
  if 2 ^ 44 ≤ key then s
  else
    let m := s.mbd (stackOf key)
    let r := Config.rowOf key
    let c := nget (0, true) m.acts r
    let v := if c.2 then min 2047 (c.1 + 1) else 2047
    let m := { m with acts := nset m.acts r (v, c.2)
                      refresh := if v == 2047 && !m.refresh.contains r then m.refresh ++ [r] else m.refresh
                      logged := if c.2 then m.logged else m.logged + 1 }
    s.setMbd (stackOf key) m

/-- A page of an instance's heap: it keeps no hotness (R98). -/
def State.heapPage (s : State) (pg : Nat) : Bool :=
  s.insts.any fun e => decide (e.2.heapBase / 2 ^ 16 ≤ pg) && decide (pg < (e.2.heapBase + e.2.heapLim) / 2 ^ 16)

/-- A line access served to a page: every sixteenth adds 1 to the page's hotness. -/
def State.countHot (s : State) (key : Nat) : State :=
  if 2 ^ 51 ≤ key then s
  else
    let pg := key / 2 ^ 16
    let n := nget 0 s.lineCount pg + 1
    if s.heapPage pg then s
    else if n % 16 = 0 then { s with lineCount := ndel s.lineCount pg, hot := nset s.hot pg (min 255 (nget 0 s.hot pg + 1)) }
    else { s with lineCount := nset s.lineCount pg n }

/-- A line access, which activates the row as well: the spec gives no row-buffer policy (log entry 123). -/
def State.countLine (s : State) (key : Nat) : State := (s.countHot key).activate key

/-! ### The table walk (R89 to R91) -/

/-- A table entry. -/
def State.pte (s : State) (pa : Nat) : Nat := leNat (readBytes s.mem (s.live pa) 8)

def pteV (e : Nat) : Bool := bits e 63 63 == 1
def pteLeaf (e : Nat) : Bool := bits e 62 62 == 1
def pteAddr (e : Nat) : Nat := bits e 50 8 * 256
/-- Reserved fields are zero. -/
def pteClean (e : Nat) : Bool := bits e 53 51 == 0 && bits e 7 0 == 0

/-- The address of the leaf entry of a virtual page and the log2 of the 64 KiB pages it maps; none where an entry on the way
is invalid or breaks a LEAF rule (R90). -/
def State.leafOf (s : State) (part vpn : Nat) : Option (Nat × Nat) :=
  let off := vpn * 2 ^ 16
  let a1 := (s.part part).ptroot.toNat + 8 * bits off 50 39
  let e1 := s.pte a1
  if !(pteV e1 && pteClean e1 && !pteLeaf e1) then none
  else
    let a2 := pteAddr e1 + 8 * bits off 38 30
    let e2 := s.pte a2
    if !(pteV e2 && pteClean e2) then none
    else if pteLeaf e2 then some (a2, 14)
    else
      let a3 := pteAddr e2 + 8 * bits off 29 21
      let e3 := s.pte a3
      if !(pteV e3 && pteClean e3) then none
      else if pteLeaf e3 then some (a3, 5)
      else
        let a4 := pteAddr e3 + 8 * bits off 20 16
        let e4 := s.pte a4
        if pteV e4 && pteClean e4 && pteLeaf e4 then some (a4, 0) else none

/-- The entries that a walk reads, in order. -/
def State.walkKeys (s : State) (part vpn : Nat) : List Nat :=
  let off := vpn * 2 ^ 16
  let down (e : Nat) : Bool := pteV e && pteClean e && !pteLeaf e
  let a1 := (s.part part).ptroot.toNat + 8 * bits off 50 39
  if !down (s.pte a1) then [a1]
  else
    let a2 := pteAddr (s.pte a1) + 8 * bits off 38 30
    if !down (s.pte a2) then [a1, a2]
    else
      let a3 := pteAddr (s.pte a2) + 8 * bits off 29 21
      if !down (s.pte a3) then [a1, a2, a3] else [a1, a2, a3, pteAddr (s.pte a3) + 8 * bits off 20 16]

/-- The entry that maps a page or would map it: the last one of its walk, below level 1. -/
def State.slotOf (s : State) (part vpn : Nat) : Option Nat :=
  match s.walkKeys part vpn with
  | _ :: t => t.getLast?
  | [] => none

/-- A walk waits while the memory of an entry on its way does (R111), or while no memory-server context of that entry's slice is free
(R92, R105). -/
def State.walkBusy (s : State) (part vpn : Nat) : Bool :=
  (s.walkKeys part vpn).any fun a => s.memBusy (s.readPlace a) || (decide (s.live a < 2 ^ 51) && !s.serves (homeNode (s.live a)) 0)

/-- The line accesses of a walk are counted as any are (R99, R110). -/
def State.countWalk (s : State) (part vpn : Nat) : State := (s.walkKeys part vpn).foldl (fun s a => s.countLine (s.readPlace a)) s

/-- A page of a partition's grants (R91). -/
def State.owns (s : State) (part frame : Nat) : Bool :=
  (s.part part).grants.any fun g => decide (g.2.1 ≤ frame) && decide (frame < g.2.1 + g.2.2)

/-- A walk (R89 to R91): the entry for the page, or why there is none. -/
def State.walk (s : State) (part vpn : Nat) : Except NoPage TlbEnt :=
  if (s.walkKeys part vpn).any fun a => s.badAt (s.readPlace a) then .error .damaged
  else match s.leafOf part vpn with
  | none => .error .absent
  | some (a, lg) =>
    let e := s.pte a
    let frame := pteAddr e / 2 ^ 16 / 2 ^ lg * 2 ^ lg + vpn % 2 ^ lg
    if (tierOf s (frame * 2 ^ 16)).isNone then .error .absent
    else if !s.owns part frame then .error (.foreign frame)
    else .ok { part := part, vpn := vpn, frame := frame, w := bits e 59 59 == 1, x := bits e 58 58 == 1
               ty := bits e 61 60, pt := bits e 55 55 == 1, leaf := a, large := lg }

/-- The entry of a page in a TLB. -/
def tlbFind (l : List TlbEnt) (part vpn : Nat) : Option TlbEnt := l.find? fun e => e.part == part && e.vpn == vpn

/-- Enter a page, the oldest entry leaving a full TLB (log entry 25). -/
def tlbFill (l : List TlbEnt) (cap : Nat) (e : TlbEnt) : List TlbEnt :=
  let l := l.filter fun f => !(f.part == e.part && f.vpn == e.vpn)
  (if l.length < cap then l else l.drop 1) ++ [e]

/-- Translate a page for a core: its TLB, the cluster's, then a walk, which fills both (R92). -/
def State.lookup (s : State) (core part vpn : Nat) : State × Except NoPage TlbEnt :=
  match tlbFind (s.core core).tlb part vpn with
  | some e => (s, .ok e)
  | none =>
    match tlbFind (s.cluster (clusterOf core)).tlb part vpn with
    | some e => (s.modCore core fun c => { c with tlb := tlbFill c.tlb 64 { e with dirty := false } }, .ok e)
    | none =>
      match s.walk part vpn with
      | .error f => (s.countWalk part vpn, .error f)
      | .ok e =>
        let s := s.countWalk part vpn
        let k := s.cluster (clusterOf core)
        let s := s.setCluster (clusterOf core) { k with tlb := tlbFill k.tlb 2048 e }
        (s.modCore core fun c => { c with tlb := tlbFill c.tlb 64 e }, .ok e)

/-! ### Dirty pages (R96) -/

/-- Set D in the entries of the pages a list names, whether or not they are still valid: the manager that has taken a page away
learns so that it was written (R93, R96). -/
def State.setD (s : State) (l : List (Nat × Nat)) : State :=
  l.foldl (fun s e =>
    match s.slotOf e.1 e.2 with
    | none => s
    | some a =>
      let k := s.live a + 7
      { s with mem := writeByte s.mem k (readByte s.mem k ||| 0x02) }) s

/-- The cluster agent merges a core's dirty log and empties it (R96). -/
def State.mergeLog (s : State) (core : Nat) : State :=
  (s.setD (s.core core).dirtyLog).modCore core fun c => { c with dirtyLog := [] }

/-- A core store to a page whose TLB entry is not yet marked dirty marks it and logs the page. A log of 256 entries is merged
first: it holds no more. -/
def State.markDirty (s : State) (core part vpn : Nat) : State :=
  match tlbFind (s.core core).tlb part vpn with
  | none => s
  | some e =>
    if e.dirty then s
    else
      let s := if 256 ≤ (s.core core).dirtyLog.length then s.mergeLog core else s
      s.modCore core fun c =>
        { c with
          tlb := c.tlb.map fun f => if f.part == part && f.vpn == vpn then { f with dirty := true } else f
          dirtyLog := c.dirtyLog ++ [(part, vpn)] }

/-! ### Units and their TLBs (R68, R92, R96, R356) -/

/-- The number of a fork kind (R356). -/
def kindCode : ForkKind → Nat
  | .matrixSeq => 0 | .copySeq => 1 | .sharedCopy => 2 | .collective => 3 | .compression => 4 | .memServer => 5

/-- The shared engine of a kind that serves a core (R68): of the core's die, or of any die where that has none in the mask;
which of them follows from the core's number. Engines are numbered over the dies. -/
def engineNo (s : State) (part : Nat) (k : ForkKind) (core : Nat) : Option Nat :=
  let b := (s.part part).budget
  let m := match k with
    | .sharedCopy => b.copymask.toNat | .collective => b.collmask.toNat | .compression => b.cmprmask.toNat | _ => 0
  let per := match k with | .sharedCopy => 8 | _ => 4
  let all_ := (List.range (4 * per)).filter fun j => m / 2 ^ j % 2 == 1
  let near := all_.filter fun j => j / per == dieOf core
  let l := if near.isEmpty then all_ else near
  l[core % max 1 l.length]?

/-- The unit of a kind that serves a core: its own, its slice's, or a shared engine (R348, R356); none where the kind is
absent. -/
def unitKey (s : State) (part : Nat) (k : ForkKind) (core : Nat) : Option Nat :=
  (match k with
    | .matrixSeq | .copySeq => some core
    | .memServer => some (clusterOf core)
    | k => engineNo s part k core).map fun n => 1024 * kindCode k + n

/-- The side log of the unit that issued an operation (R94): a core's, or a shared engine's for its threads. -/
def unitOf (s : State) (k : Nat) : Option Nat :=
  match (s.proc k).engine with
  | none => none
  | some e => match e.kind with | .matrixSeq | .copySeq => none | u => unitKey s (partOf k) u (s.proc k).core

/-- Translate a page for a shared engine: its own TLB, else a walk; a dirty entry that leaves is flushed (R92, R96). -/
def State.lookupEng (s : State) (u part vpn : Nat) : State × Except NoPage TlbEnt :=
  match tlbFind (s.engine u).tlb part vpn with
  | some e => (s, .ok e)
  | none =>
    match s.walk part vpn with
    | .error f => (s.countWalk part vpn, .error f)
    | .ok e =>
      let s := s.countWalk part vpn
      let g := s.engine u
      let out := if g.tlb.length < 512 then [] else g.tlb.take 1
      let s := s.setD ((out.filter TlbEnt.dirty).map fun t => (t.part, t.vpn))
      (s.setEngine u { g with tlb := tlbFill g.tlb 512 e }, .ok e)

/-- A shared engine's write marks its entry dirty. -/
def State.dirtyEng (s : State) (u part vpn : Nat) : State :=
  let g := s.engine u
  s.setEngine u { g with tlb := g.tlb.map fun t => if t.part == part && t.vpn == vpn then { t with dirty := true } else t }

/-- Translate a page for the unit an access comes from: a core, or a shared engine. -/
def State.unitLookup (s : State) (u : Option Nat) (core part vpn : Nat) : State × Except NoPage TlbEnt :=
  match u with
  | some k => s.lookupEng k part vpn
  | none => s.lookup core part vpn

/-- The translation of a page waits: no TLB of the unit holds it, and its walk waits for its memory. -/
def State.unitBusy (s : State) (u : Option Nat) (core part vpn : Nat) : Bool :=
  (match u with
    | some k => (tlbFind (s.engine k).tlb part vpn).isNone
    | none => (tlbFind (s.core core).tlb part vpn).isNone && (tlbFind (s.cluster (clusterOf core)).tlb part vpn).isNone) &&
    s.walkBusy part vpn

/-- A write of a unit makes its page dirty: in a core's log, or in a shared engine's TLB (R96). -/
def State.unitDirty (s : State) (u : Option Nat) (core part vpn : Nat) : State :=
  match u with
  | some k => s.dirtyEng k part vpn
  | none => s.markDirty core part vpn

/-! ### Kinds and forms -/

/-- The forms of Table 14.1, with vector and tile memory (R328, R361). -/
inductive Form where
  | scalar | vector | tile | atom | redx | waita
  deriving DecidableEq, Repr

/-- Spaces a form permits (Table 14.1). -/
def permitted (f : Form) (sp : Nat) : Bool :=
  match f with
  | .scalar => true
  | .vector => sp != 7
  | .tile => sp < 4
  | .atom => sp < 4 || sp == 5
  | .redx => sp < 2 || sp == 5
  | .waita => sp < 4

/-- Access codes of Table 8.3. -/
def accCode : Acc5 → Nat
  | .load => 1 | .store => 2 | .atomic => 3 | .reduction => 4 | .fetch => 5 | .engine => 6

/-- An access that writes, and one that reads, its bytes as a buffer and a watch see it. -/
def Acc5.writes : Acc5 → Bool
  | .store | .atomic | .reduction | .engine => true
  | _ => false
def Acc5.reads : Acc5 → Bool
  | .load | .atomic | .reduction | .fetch => true
  | _ => false
/-- An access whose page fault is deferred (R94). -/
def Acc5.deferred : Acc5 → Bool
  | .store | .reduction | .engine => true
  | _ => false

/-- The name of an offset in a space: what ADDR holds. -/
def fatOf (sp off : Nat) : Nat := sp * 2 ^ 60 + off % 2 ^ 51

/-! ### Buffers and the scoreboard as an access meets them (R161, R163, R164) -/

/-- Ranges overlap. -/
def overlap (a alen b blen : Nat) : Bool := decide (a < b + blen) && decide (b < a + alen)

/-- The state of ring slot `i` (R164). -/
def Buf.slotState (b : Buf) (i : Nat) : BState :=
  let used := b.nslot - b.free - (if b.fills then 1 else 0)
  if (i + b.nslot - b.head) % b.nslot < used then (if b.drains && i == b.head then .draining else .full)
  else if b.fills && i == b.tail then .filling
  else .empty

/-- The states of the slots of a buffer that a range touches, each with the part of the range in it. -/
def Buf.touched (b : Buf) (lo len : Nat) : List (BState × Nat × Nat) :=
  if !overlap b.base b.size lo len then []
  else if !b.ring then [(b.state, lo, len)]
  else
    ((List.range b.nslot).filter fun i => overlap (b.base + i * b.slot) b.slot lo len).map fun i =>
      let a := max lo (b.base + i * b.slot)
      (b.slotState i, a, min (lo + len) (b.base + (i + 1) * b.slot) - a)

/-- Whether a scratchpad access is held, or BUFFER_STATE (Table 7.6, R161). -/
def spadAccess (c : Core) (lo len : Nat) (rd wr : Bool) : Except Unit Bool :=
  let inc (a n : Nat) (own : Bool) : Bool := c.sb.any fun e => e.incoming && e.own == own && overlap e.lo e.len a n
  let bad := c.bufs.any fun e => (e.2.touched lo len).any fun t =>
    match t.1 with
    | .empty => true
    | .filling => (wr && (inc t.2.1 t.2.2 true || inc t.2.1 t.2.2 false)) || (rd && inc t.2.1 t.2.2 false)
    | _ => wr
  if bad then .error ()
  else .ok ((rd && inc lo len true) || (wr && c.sb.any fun e => e.own && overlap e.lo e.len lo len))

/-! ### Peer windows (R165, R166) -/

/-- The regions of a window (Table 7.7). -/
inductive WRegion where
  | spad | n | v | t | a | reserved
  deriving DecidableEq, Repr

def wRegion (o len : Nat) : WRegion :=
  if o + len ≤ 0x3F800 then .spad
  else if 0x40000 ≤ o ∧ o + len ≤ 0x40100 then .n
  else if 0x50000 ≤ o ∧ o + len ≤ 0x52000 then .v
  else if 0x70000 ≤ o ∧ o + len ≤ 0x74000 then .t
  else if 0x80000 ≤ o ∧ o + len ≤ 0x110000 then .a
  else .reserved

/-- The rules of R166 in their order, for a program's access. -/
def windowCheck (s : State) (i : Issue) (f : Form) (wr : Bool) (off len : Nat) : Except Abort (Nat × WRegion) := do
  let at_ : Word := BitVec.ofNat 64 (fatOf 4 off)
  check (off / 2 ^ 47 == 0) { kind := .spaceInvalid, addr := at_ }
  let k := handleOf (partOf i.proc) (bits off 46 21)
  let alive := (nget? s.procs k).isSome && (s.proc k).started && (s.proc k).st != .exited && (s.proc k).st != .dormant
  check alive { kind := .peerNotResident, other := BitVec.ofNat 32 k, addr := at_ }
  let r := wRegion (off % 2 ^ 21) len
  let p := s.proc k
  let reg := r != .spad
  check (r != .reserved && ((r != .t && r != .a) || (s.core p.core).owner == some k)) { kind := .spaceInvalid, addr := at_ }
  check (!reg || (f == .scalar && len == 8 && off % 8 == 0)) { kind := .illegalOperand, addr := at_ }
  check (!reg || wr || p.ctx.isSome) { kind := .peerNotResident, other := BitVec.ofNat 32 k, addr := at_ }
  check (!reg || !wr || p.accept.getLsbD 0) { kind := .illegalOperand, addr := at_ }
  .ok (k, r)

/-- A register that a window names, as an eight-byte word; physical numbering. -/
def State.winRead (s : State) (k o : Nat) : Word :=
  let p := s.proc k
  let c := s.core p.core
  match wRegion o 8 with
  | .n => p.nget (BitVec.ofNat 5 ((o - 0x40000) / 8))
  | .v => (p.vget (BitVec.ofNat 5 ((o - 0x50000) / 256))).extractLsb' ((o - 0x50000) % 256 * 8) 64
  | .t => (nget {} c.tiles ((o - 0x70000) / 2048)).data.extractLsb' ((o - 0x70000) % 2048 * 8) 64
  | .a =>
    let x := o - 0x80000
    (nget 0 (nget {} c.accs (x / 0x24000)).cells (x % 0x24000 / 72)).extractLsb' (x % 72 * 8) 64
  | _ => 0

/-- Put 64 bits into a wider register at a bit position. -/
def putBits {w : Nat} (r : BitVec w) (pos : Nat) (v : Word) : BitVec w :=
  (r &&& ~~~((BitVec.allOnes 64).setWidth w <<< pos)) ||| (v.setWidth w <<< pos)

/-- A write through a window: it lands as a write of the register would, cancelling a pending keep (R150, R156). -/
def State.winWrite (s : State) (k o : Nat) (v : Word) : State :=
  let p := s.proc k
  match wRegion o 8 with
  | .n => (s.modProc k fun p => p.nset (BitVec.ofNat 5 ((o - 0x40000) / 8)) v).lateImg k
  | .v =>
    let r := BitVec.ofNat 5 ((o - 0x50000) / 256)
    (s.modProc k fun p => p.vset r (putBits (p.vget r) ((o - 0x50000) % 256 * 8) v)).lateImg k
  | .t =>
    let j := (o - 0x70000) / 2048
    s.modCore p.core fun c =>
      let t := nget {} c.tiles j
      { c with tiles := nset c.tiles j { t with data := putBits t.data ((o - 0x70000) % 2048 * 8) v, dirty := true } }
  | .a =>
    let x := o - 0x80000
    let j := x / 0x24000
    s.modCore p.core fun c =>
      let a := nget {} c.accs j
      let cell := x % 0x24000 / 72
      { c with accs := nset c.accs j { cells := nset a.cells cell (putBits (nget 0 a.cells cell) (x % 72 * 8) v)
                                       dirty := true } }
  | _ => s

/-! ### SpaceCheck (R160, R166, R288, R289) -/

/-- The slot of the key table that binds a partition to a module, the lowest one (R288). -/
def State.bound (s : State) (part m : Nat) : Option BKey :=
  (s.keys.find? fun e => e.2.localPart == part && e.2.module == m).map Prod.snd

/-- The Buneam port to a partition of another module (R32). -/
def fabPort (m part : Nat) : Nat := Config.routeOf m part % 24

/-- The port that an access of a partition to space 0x5 crosses. -/
def State.portOf (s : State) (part : Nat) (l : List Part8) : Option Nat :=
  l.findSome? fun p => match p.at_ with
    | .mem k =>
      if 2 ^ 80 ≤ k then
        let m := (k - 2 ^ 80) / 2 ^ 41
        some (fabPort m (match s.bound part m with | some b => b.remotePart | none => 0))
      else none
    | _ => none

/-- The PCIe function of a partition (R46). -/
def fnOf (part : Nat) : Nat := part + 1

/-- Offsets of space 0x7 that name a register of the partition's queues (R289). -/
def queueReg (s : State) (part off : Nat) : Bool :=
  (decide (off < 0x10000) && decide (off / 8 < (s.part part).queues)) ||
    (decide (0x10000 ≤ off) && decide ((off - 0x10000) / 16 < (s.part part).queues))

/-- The checks of a space that translation does not make; a window also gives its target. -/
def spaceCheck (s : State) (i : Issue) (f : Form) (wr : Bool) (sp off len : Nat) :
    Except Abort (Option (Nat × WRegion)) := do
  let bad : Trap := { kind := .spaceInvalid, addr := BitVec.ofNat 64 (fatOf sp off) }
  if sp = 2 then do
    check (decide (off + len ≤ 0x3F800)) bad
    .ok none
  else if sp = 3 then do
    check (decide (off + len ≤ 2 ^ 21) && decide (off % 2 ^ 18 + len ≤ 0x3F800)) bad
    .ok none
  else if sp = 4 then (windowCheck s i f wr off len).map some
  else if sp = 5 then do
    check (off / 2 ^ 41 != s.moduleId && (s.bound (partOf i.proc) (off / 2 ^ 41)).isSome) bad
    .ok none
  else if sp = 7 then do
    check (s.isMgr i.proc && queueReg s (partOf i.proc) off) bad
    .ok none
  else .ok none

/-- The side log of the unit that a process issues from (R94). -/
def State.sideLogOf (s : State) (k : Nat) : List SideEnt :=
  match unitOf s k with | some u => (s.engine u).sideLog | none => (s.core (s.proc k).core).sideLog

/-! ### EffAddr and translation (R285, R98) -/

/-- An access that has passed its checks: the state with TLBs filled and dirty pages marked, where its bytes lie, how long it
takes unloaded, whether the scoreboard holds it, the page type that orders it, and the first page that failed for a deferred
form; and the address of the first page whose walk met data that cannot be corrected: the word issues and fails in class C (R42, R183). -/
structure Access where
  st : State
  parts : List Part8 := []
  lat : Nat := 0
  wait : Bool := false
  ptype : Nat := 0
  logged : Option Nat := none
  bad : Option Nat := none

/-- Pieces of an access that lie within one page, by offset and, for the heap, by distance from the heap's start. -/
def pieces (fuel off rel len : Nat) : List (Nat × Nat) :=
  match fuel with
  | 0 => []
  | f + 1 =>
    if len = 0 then []
    else
      let n := min len (min (2 ^ 16 - off % 2 ^ 16) (2 ^ 16 - rel % 2 ^ 16))
      (off, n) :: pieces f (off + n) (rel + n) (len - n)

/-- Distance of a space 0x1 offset from `ctl.heapoff` (R98). -/
def heapRel (p : Proc) (off : Nat) : Nat := (off + 2 ^ 51 - p.heapoff.toNat % 2 ^ 51) % 2 ^ 51

/-- A page fault (R94, Table 8.3): ADDR names the first byte that faults. -/
def pageFault (k : Acc5) (size va part : Nat) (iso : Option Nat) : Trap :=
  { kind := .pageFault, addr := BitVec.ofNat 64 va, e5 := BitVec.ofNat 64 (accCode k + size % 256 * 256)
    iso := iso.map fun f => (part, f) }

/-- Translate one piece of a global access for a core. -/
def globalPiece (a : Access) (i : Issue) (core : Nat) (k : Acc5) (size sp off n : Nat) : Except Abort Access :=
  let part := partOf i.proc
  let inst := a.st.inst i.pre.inst
  let va := fatOf sp off
  let rel := heapRel i.pre off
  if sp = 1 ∧ rel < inst.heapLim then
    let key := inst.heapBase + rel
    .ok { a with parts := a.parts ++ [{ at_ := .mem key, len := n, va := va }], lat := max a.lat (latency core key) }
  else
    let u := unitOf a.st i.proc
    let vpn := off / 2 ^ 16
    let r := a.st.unitLookup u core part vpn
    let good : Bool := match r.2 with
      | .ok e => if k == Acc5.fetch then e.x else !k.writes || (e.w && (!e.pt || a.st.isMgr i.proc))
      | .error _ => false
    if a.st.unitBusy u core part vpn then .error .wait
    else match r.2 with
    | .ok e =>
      if good then
        let key := e.frame * 2 ^ 16 + off % 2 ^ 16
        let s := if k.writes then r.1.unitDirty u core part vpn else r.1
        .ok { a with st := s, parts := a.parts ++ [{ at_ := .mem key, len := n, va := va }]
                     lat := max a.lat (latency core key), ptype := max a.ptype e.ty }
      else if k.deferred then
        .ok { a with st := r.1
                     parts := a.parts ++ [{ at_ := .virt off, len := n, va := va }]
                     logged := some (a.logged.getD vpn) }
      else .error (.trap (pageFault k size va part none))
    | .error .damaged =>
      if k == Acc5.fetch then .error (.trap { kind := .uncorrectableData, addr := BitVec.ofNat 64 va })
      else .ok { a with st := r.1, parts := a.parts ++ [{ at_ := .virt off, len := n, va := va }], bad := some (a.bad.getD va) }
    | .error e =>
      if k.deferred then
        .ok { a with st := r.1.isolate part e.frame
                     parts := a.parts ++ [{ at_ := .virt off, len := n, va := va }]
                     logged := some (a.logged.getD vpn) }
      else .error (.trap (pageFault k size va part e.frame))

/-- A scratchpad access: BUFFER_STATE, or held by the scoreboard of the core that owns it. -/
def spadPiece (a : Access) (core owner : Nat) (rd wr : Bool) (va off len : Nat) : Except Abort Access :=
  match spadAccess (a.st.core owner) off len rd wr with
  | .error () => .error (.trap { kind := .bufferState, addr := BitVec.ofNat 64 va })
  | .ok w =>
    let key := spadKey owner off
    .ok { a with parts := a.parts ++ [{ at_ := .mem key, len := len, va := va }], wait := a.wait || w
                 lat := max a.lat (latency core key) }

/-- Place an access that has passed SpaceCheck. -/
def placeAccess (s : State) (i : Issue) (k : Acc5) (w : Option (Nat × WRegion)) (sp off len : Nat) : Except Abort Access :=
  let core := i.pre.core
  let va := fatOf sp off
  let one (p : Place) (lat pt : Nat) : Except Abort Access :=
    .ok { st := s, parts := [{ at_ := p, len := len, va := va }], lat := lat, ptype := pt }
  if sp = 2 then spadPiece { st := s } core core k.reads k.writes va off len
  else if sp = 3 then
    spadPiece { st := s } core (clusterOf core * 8 + off / 2 ^ 18) k.reads k.writes va (off % 2 ^ 18) len
  else if sp = 4 then
    match w with
    | some (t, .spad) => spadPiece { st := s } core (s.proc t).core k.reads k.writes va (off % 2 ^ 21) len
    | some (t, _) => one (.win t (off % 2 ^ 21)) (latency core (spadKey (s.proc t).core 0)) 0
    | none => .ok { st := s }
  else if sp = 5 then one (.mem (fabKey (off / 2 ^ 41) (off % 2 ^ 41))) 1000 0
  else if sp = 6 then one (.mem (hostKey off)) 1000 0
  else if sp = 7 then one (.host7 (fnOf (partOf i.proc)) off) 1000 2
  else
    (pieces 4 off (if sp = 1 then heapRel i.pre off else 0) len).foldlM
      (fun a e => globalPiece a i core k len sp e.1 e.2) { st := s }

/-- SPACE_INVALID of a space and FAT_OVERFLOW of a range, in the order of R171 and R290: SPACE_INVALID first. In a window FAT_OVERFLOW comes
first, and then the rules of R166 in their own order (R285). A space 0x5 offset outside 51 bits names no module (log entry 36). -/
def spaceRange (s : State) (i : Issue) (f : Form) (wr : Bool) (sp : Nat) (off : Int) (len : Nat) :
    Except Abort (Option (Nat × WRegion)) := do
  let o := (off % 2 ^ 51).toNat
  let inside := decide (0 ≤ off) && decide (off < 2 ^ 51)
  let first := sp == 2 || sp == 3 || sp == 7 || (sp == 5 && inside)
  let w ← if first then spaceCheck s i f wr sp (if inside then o else o + 2 ^ 51) len else .ok none
  check (decide (0 ≤ off) && decide (off + len ≤ 2 ^ 51)) { kind := .fatOverflow, addr := BitVec.ofNat 64 (fatOf sp o) }
  if first then .ok w else spaceCheck s i f wr sp o len

/-- `EffAddr` (R285) with the fault order of R290. -/
def effAddr (s : State) (i : Issue) (f : Form) (k : Acc5) (p : Word) (delta : Int) (len : Nat) (aligned : Bool) :
    Except Abort Access := do
  let off : Int := pOff p + delta
  let sp := pSpace p
  let here : Word := BitVec.ofNat 64 (fatOf sp (off % 2 ^ 51).toNat)
  check (!aligned || off % len == 0) { kind := .illegalOperand, addr := here }
  check (decide (8 ≤ sp) || permitted f sp) { kind := .illegalOperand, addr := here }
  check (sp != 7 || ((len == 4 || len == 8) && off % len == 0)) { kind := .illegalOperand, addr := here }
  check (decide (sp < 8)) { kind := .spaceInvalid, addr := here }
  let w ← spaceRange s i f k.writes sp off len
  let a ← placeAccess s i k w sp off.toNat len
  if a.logged.isSome && decide (64 ≤ (a.st.sideLogOf i.proc).length) then
    .error (if i.pre.engine.isNone then .hold .sideLog else .wait)
  else .ok a

/-! ### Watches (R177) -/

/-- The watch that an access of space 0x0 bytes touches, the lower number first: its number and mode. -/
def watchHit (p : Proc) (rd wr : Bool) (l : List Part8) : Option Nat :=
  let hit (w : Word) : Bool :=
    let n := 2 ^ bits w.toNat 61 58
    let lo := bits w.toNat 50 0 / n * n
    (((bits w.toNat 63 62) % 2 == 1 && wr) || ((bits w.toNat 63 62) / 2 == 1 && rd)) &&
      l.any fun e => e.va / 2 ^ 60 == 0 && overlap (e.va % 2 ^ 51) e.len lo n
  if hit p.watch0 then some 0 else if hit p.watch1 then some 1 else none

/-- After its effect, an access that touches a watched range raises WATCH; an engine thread's does not. -/
def State.watch (s : State) (i : Issue) (rd wr : Bool) (l : List Part8) : State :=
  if i.pre.engine.isSome then s
  else
    match watchHit i.pre rd wr l with
    | none => s
    | some n =>
      s.raiseAfter { kind := .watch, sub := n, addr := BitVec.ofNat 64 ((l.head?.map Part8.va).getD 0) }

end Sys2Proof.Machine
end

