-- ==== Sys2Proof/Machine/Fabric.lean ====
section
/-! DEFINITION. Buneam flits (R33) and sending (R32, R34, R35, R72). -/

namespace Sys2Proof.Machine

/-! ### The flit (Table 2.4) -/

/-- The fields of HDR; what a kind or a virtual channel stands for the spec does not say. -/
def hdrKind (h : W32) : Nat := bits h.toNat 31 26
def hdrVc (h : W32) : Nat := bits h.toNat 25 24
def hdrSlot (h : W32) : Nat := bits h.toNat 23 16
/-- Payload bytes: the field counts units of 8 B, less one. -/
def hdrBytes (h : W32) : Nat := 8 * (bits h.toNat 15 8 + 1)

/-- The 144 bytes of a flit. -/
def flitBytes (f : Flit) : List Byte :=
  leBytes 4 f.hdr.toNat ++ leBytes 2 f.seq.toNat ++ leBytes 2 f.crc.toNat ++ leBytes 8 f.mac.toNat ++
    (f.payload ++ List.replicate 128 0).take 128

/-! ### Sending -/

/-- The bytes that a message carries. -/
def msgBytes : FabMsg → List Byte
  | .write _ _ bs .. | .reply _ bs => bs
  | .chanSend _ _ _ _ _ bs _ => bs
  | _ => []

/-- The flits of a message: payload length in units of 8 B minus 1, and the message on the last one (Table 2.4). -/
def msgFlits (m : FabMsg) : List (Nat × FabMsg) :=
  let n := (msgBytes m).length
  List.replicate ((n - 1) / 128) (15, .other) ++ [(((n - 1) % 128) / 8, m)]

/-- The session identifier and the flit count under the key of a slot, of the link key for a slot that is not filled (R34, R72). -/
def State.nonce (s : State) (port slot : Nat) : Nat × Nat :=
  match nget? s.keys slot with
  | some k => (k.session, k.sent)
  | none => ((s.port port).session, (s.port port).sent)

/-- One more flit under the key of a slot. -/
def State.countFlit (s : State) (port slot : Nat) : State :=
  match nget? s.keys slot with
  | some k => { s with keys := nset s.keys slot { k with sent := k.sent + 1 } }
  | none => s.setPort port { s.port port with sent := (s.port port).sent + 1 }

/-- Put a flit on a port: numbered, kept in the replay store of 512, and counted under its key. It waits at the sender while the port
retrains, and, so that the count never reaches 2^48, until firmware has replaced the key; it is lost on a port that is down. -/
def State.emit (s : State) (port slot : Nat) (f : Nat × FabMsg) : State :=
  let p := s.port port
  let n := s.nonce port slot
  if p.down then s
  else if p.retrain || !p.queue.isEmpty || decide (2 ^ 48 ≤ n.2 + 1) then s.setPort port { p with queue := p.queue ++ [(slot, f)] }
  else
    let l := p.replay ++ [{ seq := p.txSeq.toNat, slot := slot, units := f.1, session := n.1, count := n.2, msg := f.2 }]
    (s.setPort port { p with txSeq := p.txSeq + 1, replay := l.drop (l.length - 512) }).countFlit port slot

/-- The messages that waited at a port's sender go. -/
def State.flushPort (s : State) (port : Nat) : State :=
  let l := (s.port port).queue
  l.foldl (fun s e => s.emit port e.1 e.2) (s.setPort port { s.port port with queue := [] })

/-- The key slot for a partition of another module: the lowest that binds it (R72, R288). -/
def State.slotFor (s : State) (m part : Nat) : Nat :=
  match s.keys.find? fun e => e.2.module == m && e.2.remotePart == part with | some e => e.1 | none => 0

/-- Send a message to a partition of another module by the routing table (R32). -/
def State.sendFab (s : State) (m part : Nat) (msg : FabMsg) : State :=
  (msgFlits msg).foldl (fun s f => s.emit (fabPort m part) (s.slotFor m part) f) s

end Sys2Proof.Machine
end

