-- ==== Sys2Proof/Machine/Formats.lean ====
section
/-! DEFINITION. Block formats, quantisation, the wide cell and the drain (R221 to R232). -/

namespace Sys2Proof.Machine

/-! ### Format codes (R223, R225, R228) -/

/-- An element grid of MX (Table 11.6): floating with exponent and fraction widths and a bias, or INT8. -/
inductive Elem where
  | fp (ebits fbits bias : Nat)
  | int8
  deriving DecidableEq, Repr

/-- A block format: NB with its m, or MX (Table 11.5). -/
inductive Blk where
  | nb (m : Nat)
  | mx (e : Elem)
  deriving DecidableEq, Repr

/-- NB formats in the order of their codes, and MX formats likewise. -/
def nbOf (k : Nat) : Blk := .nb (match k with | 0 => 2 | 1 => 4 | _ => 7)
def mxOf (k : Nat) : Blk :=
  .mx (match k with | 0 => .fp 2 1 1 | 1 => .fp 2 3 1 | 2 => .fp 3 2 3 | 3 => .fp 4 3 7 | 4 => .fp 5 2 15 | _ => .int8)

/-- The block format of a code, and whether it is split (Table 11.7). -/
def blkOfCode (c : Nat) : Option (Blk × Bool) :=
  if 0x10 ≤ c ∧ c ≤ 0x12 then some (nbOf (c - 0x10), false)
  else if 0x14 ≤ c ∧ c ≤ 0x16 then some (nbOf (c - 0x14), true)
  else if 0x18 ≤ c ∧ c ≤ 0x1D then some (mxOf (c - 0x18), false)
  else if 0x20 ≤ c ∧ c ≤ 0x25 then some (mxOf (c - 0x20), true)
  else none

/-- The format that `vqnt` and `vdqnt` name (R344). -/
def blkOfName : BlkFmt → Blk
  | .nb2 => nbOf 0 | .nb4 => nbOf 1 | .nb7 => nbOf 2
  | .mx4 => mxOf 0 | .mx6e2 => mxOf 1 | .mx6e3 => mxOf 2 | .mx8e4 => mxOf 3 | .mx8e5 => mxOf 4 | .mxi8 => mxOf 5

/-- Elements of a block, element width, and bytes of its elements and scale (Table 11.5). -/
def Blk.count : Blk → Nat | .nb _ => 16 | .mx _ => 32
def Blk.width : Blk → Nat
  | .nb m => m + 1
  | .mx (.fp e f _) => 1 + e + f
  | .mx .int8 => 8
def Blk.eb (b : Blk) : Nat := b.count * b.width / 8
def Blk.sb : Blk → Nat | .nb _ => 2 | .mx _ => 1

/-- Address of the element field and of the scale of block `b` (R223). -/
def Blk.elemAt (f : Blk) (split : Bool) (base bl b : Nat) : Nat :=
  if split then
    let g := 2 ^ (bl + 3)
    base + b / g * g * (f.eb + f.sb) + b % g * f.eb
  else base + b * (f.eb + f.sb) + f.sb
def Blk.scaleAt (f : Blk) (split : Bool) (base bl b : Nat) : Nat :=
  if split then
    let g := 2 ^ (bl + 3)
    base + b / g * g * (f.eb + f.sb) + g * f.eb + b % g * f.sb
  else base + b * (f.eb + f.sb)

/-- Element `i` of an element field. -/
def Blk.elem (f : Blk) (field i : Nat) : Nat := field / 2 ^ (f.width * i) % 2 ^ f.width

/-! ### Reading elements as binary32 (R222, R226) -/

/-- A binary32 pattern of an exact value. -/
def b32 (neg : Bool) (m : Nat) (e : Int) : Nat := (roundF binary32 .rne neg m e).1

/-- EMAX and XMAX of an element grid (Table 11.6). -/
def Elem.emax : Elem → Nat
  | .fp e f bias => if f == 3 && e == 4 then 8 else if e == 5 then 15 else 2 ^ e - 1 - bias
  | .int8 => 0
def Elem.xmax (e : Elem) : Nat := 254 - e.emax

/-- The pattern that stands for −2^128, the MXINT8 element 0x80 under X = 254: no binary32 pattern (R226). -/
def belowAll : Nat := 2 ^ 32

/-- An element of an MX block under a scale that is not 0xFF and already clamped. -/
def Elem.value (e : Elem) (x v : Nat) : Nat :=
  match e with
  | .int8 =>
    let n : Int := if v < 128 then v else (v : Int) - 256
    if v = 128 ∧ x = 254 then belowAll else b32 (decide (n < 0)) n.natAbs (x - 127 - 6)
  | .fp eb fb bias =>
    let neg := v / 2 ^ (eb + fb) % 2 == 1
    let ex := v / 2 ^ fb % 2 ^ eb
    let fr := v % 2 ^ fb
    let sign := if neg then 2 ^ 31 else 0
    if eb = 4 ∧ ex = 15 ∧ fr = 7 then sign + binary32.inf + fr * 2 ^ 20
    else if eb = 5 ∧ ex = 31 then sign + binary32.inf + fr * 2 ^ 21
    else if ex = 0 then b32 neg fr ((1 : Int) - bias - fb + x - 127)
    else b32 neg (2 ^ fb + fr) ((ex : Int) - bias - fb + x - 127)

/-- Element `i` of a block as a binary32 value (R222, R226). -/
def Blk.value (f : Blk) (scale field i : Nat) : Nat :=
  let v := f.elem field i
  match f with
  | .nb m =>
    if scale / 256 = 255 then binary32.nan
    else
      let n : Int := if v < 2 ^ m then v else (v : Int) - 2 ^ (m + 1)
      if v = 2 ^ m then 0
      else b32 (decide (n < 0)) n.natAbs ((scale / 256 : Nat) - 127 - (m - 1) - (scale / 4 ^ (i / 4) % 4 : Nat))
  | .mx e =>
    if scale = 255 then binary32.nan else e.value (min scale e.xmax) v

/-- Reading a block whose scale is clamped sets SAT (R226). -/
def Blk.scaleFlag (f : Blk) (scale : Nat) : Word :=
  match f with
  | .nb _ => 0
  | .mx e => flagIf (decide (e.xmax < scale ∧ scale ≠ 255)) fSAT

/-- The binary32 pattern that `vldb` and `vdqnt` write for an element (R330, R345). -/
def written32 (v : Nat) : Nat := if v = belowAll then Config.mxiLeast.toNat else v

/-! ### Quantisation (R224, R227) -/

/-- An exact value to be quantised. -/
inductive Exact where
  | nan (signalling : Bool)
  | inf (neg : Bool)
  | num (neg : Bool) (m : Nat) (e : Int)
  deriving DecidableEq, Repr

def exactOf32 (x : Nat) : Exact :=
  if isNaN binary32 x then .nan (isSNaN binary32 x)
  else if isInf binary32 x then .inf (fneg? binary32 x)
  else .num (fneg? binary32 x) (fman binary32 x) (fexp binary32 x)

def Exact.isNan : Exact → Bool | .nan _ => true | _ => false
def Exact.isSig : Exact → Bool | .nan s => s | _ => false
def Exact.isZero : Exact → Bool | .num _ m _ => m == 0 | _ => false
def Exact.neg : Exact → Bool | .nan _ => false | .inf n => n | .num n _ _ => n

/-- Floor of the base-2 logarithm of a magnitude that is not zero; infinity is beyond every exponent. -/
def Exact.log2 : Exact → Int
  | .num _ m e => (Nat.log2 m : Int) + e
  | _ => 100000

/-- The magnitude is greater. -/
def Exact.magLt (a b : Exact) : Bool :=
  match a, b with
  | .num _ m e, .num _ n g => if e ≤ g then decide (m < n * 2 ^ (g - e).toNat) else decide (m * 2 ^ (e - g).toNat < n)
  | .num .., .inf _ => true
  | _, _ => false

/-- The largest magnitude of a block. -/
def maxMag (l : List Exact) : Exact := l.foldl (fun a b => if a.magLt b then b else a) (.num false 0 0)

/-- A magnitude rounded to units of `2 ^ q` by RNE, and whether it is inexact; infinity is beyond every limit. -/
def Exact.units (x : Exact) (q : Int) : Nat × Bool :=
  match x with
  | .num _ m e => roundAt .rne false m e q
  | _ => (2 ^ 600, true)

/-- `QuantNB` (R224): scale word, elements and flags. -/
def quantNB (m : Nat) (xs : List Exact) : Nat × List Nat × Word :=
  if xs.any Exact.isNan then (0xFF00, xs.map fun _ => 0, flagIf (xs.any Exact.isSig) fNV)
  else
    let top := 2 ^ m - 1
    let q (e s : Int) : Int := e - 127 - (m - 1) - s
    let big := maxMag xs
    let e : Int :=
      if big.isZero then 0
      else
        let e := max 0 (min 254 (big.log2 + 127))
        if e < 254 ∧ top < (big.units (q e 0)).1 then e + 1 else e
    let step (g : Nat) : Nat :=
      let four := (xs.drop (4 * g)).take 4
      let fits (s : Nat) : Bool := four.all fun x => decide ((x.units (q e s)).1 ≤ top)
      if fits 3 then 3 else if fits 2 then 2 else if fits 1 then 1 else 0
    let one (i : Nat) (x : Exact) : Nat × Word :=
      let r := x.units (q e (step (i / 4)))
      let big1 := decide (top < r.1)
      let v := min r.1 top
      ((if x.neg && v != 0 then 2 ^ (m + 1) - v else v), flagIf big1 fSAT ||| flagIf (big1 || r.2) fNX)
    let el := xs.zipIdx.map fun p => one p.2 p.1
    (e.toNat * 256 + step 0 + step 1 * 4 + step 2 * 16 + step 3 * 64, el.map Prod.fst,
      el.foldl (fun a p => a ||| p.2) 0)

/-- Exponent of the unit of an element grid: its smallest subnormal (Table 11.6). -/
def Elem.unit : Elem → Int
  | .fp _ fb bias => 1 - (bias : Int) - fb
  | .int8 => -6

/-- MAXE in units. -/
def Elem.maxe : Elem → Nat
  | .int8 => 127
  | .fp eb fb _ =>
    let e := if fb = 3 && eb = 4 then (15 : Nat) else if eb = 5 then 30 else 2 ^ eb - 1
    let f := if fb = 3 && eb = 4 then (6 : Nat) else 2 ^ fb - 1
    (2 ^ fb + f) * 2 ^ (e - 1)

/-- `RoundElem` of a magnitude divided by `2 ^ sh`, in units, and whether it is inexact (R227). -/
def Elem.round (g : Elem) (x : Exact) (sh : Int) : Nat × Bool :=
  match x with
  | .num _ m e =>
    match g with
    | .int8 => roundAt .rne false m (e - sh) g.unit
    | .fp _ fb _ =>
      let ulp := if m = 0 then g.unit else max g.unit ((Nat.log2 m : Int) + e - sh - fb)
      let r := roundAt .rne false m (e - sh) ulp
      (r.1 * 2 ^ (ulp - g.unit).toNat, r.2)
  | _ => (2 ^ 600, true)

/-- The element bits of a magnitude in units. -/
def Elem.bits (g : Elem) (neg : Bool) (k : Nat) : Nat :=
  match g with
  | .int8 => if neg && k != 0 then 256 - k else k
  | .fp eb fb _ =>
    let mag := if k < 2 ^ fb then k else (Nat.log2 k - fb + 1) * 2 ^ fb + (k / 2 ^ (Nat.log2 k - fb) - 2 ^ fb)
    if neg && k != 0 then 2 ^ (eb + fb) + mag else mag

/-- `QuantMX` (R227): scale byte, elements and flags. -/
def quantMX (g : Elem) (xs : List Exact) : Nat × List Nat × Word :=
  if xs.any Exact.isNan then (0xFF, xs.map fun _ => 0, flagIf (xs.any Exact.isSig) fNV)
  else
    let big := maxMag xs
    if big.isZero then (127, xs.map fun _ => 0, 0)
    else
      let x : Int := max 0 (min g.xmax (big.log2 - g.emax + 127))
      let x := if x < g.xmax ∧ g.maxe < (g.round big (x - 127)).1 then x + 1 else x
      let el := xs.map fun v =>
        let r := g.round v (x - 127)
        let big1 := decide (g.maxe < r.1)
        (g.bits v.neg (min r.1 g.maxe), flagIf big1 fSAT ||| flagIf (big1 || r.2) fNX)
      (x.toNat, el.map Prod.fst, el.foldl (fun a p => a ||| p.2) 0)

/-- Quantise one block: scale, elements and flags. -/
def Blk.quant (f : Blk) (xs : List Exact) : Nat × List Nat × Word :=
  match f with
  | .nb m => quantNB m xs
  | .mx e => quantMX e xs

/-- The element field of a block's elements. -/
def Blk.field (f : Blk) (el : List Nat) : Nat := el.zipIdx.foldl (fun a p => a + p.1 * 2 ^ (f.width * p.2)) 0

/-! ### The wide cell (R229, R230, R232, R297) -/

def cellMax : Int := 2 ^ 575 - 1
def cellMin : Int := -(2 ^ 575)

/-- Add to a cell: exact, or the end of the range with AOVF. -/
def cellAdd (c : Int) (d : Int) : Int × Word :=
  let v := c + d
  if cellMax < v then (cellMax, fAOVF) else if v < cellMin then (cellMin, fAOVF) else (v, 0)

/-- Saturate a cell toward a sign. -/
def cellSat (neg : Bool) : Int × Word := (if neg then cellMin else cellMax, fAOVF)

/-- A binary32 finite value in units of 2^-298. -/
def units32 (x : Nat) : Int :=
  let v : Int := (fman binary32 x * 2 ^ (fexp binary32 x + 298).toNat : Nat)
  if fneg? binary32 x then -v else v

/-- Add a binary32 term to a cell (R297). -/
def cellAdd32 (c : Int) (x : Nat) : Int × Word :=
  if isNaN binary32 x then (c, fNV)
  else if isInf binary32 x then cellSat (fneg? binary32 x)
  else cellAdd c (units32 x)

/-- Add an integer term of weight 2^0. -/
def cellAddInt (c v : Int) : Int × Word := cellAdd c (v * 2 ^ 298)

/-- Sign, magnitude and exponent of an operand that is no NaN and no infinity: a binary32 value, or −2^128. -/
def opNeg (a : Nat) : Bool := a == belowAll || fneg? binary32 a
def opMan (a : Nat) : Nat := if a = belowAll then 1 else fman binary32 a
def opExp (a : Nat) : Int := if a = belowAll then 128 else fexp binary32 a

/-- Add the product of two operands (R230). -/
def cellMac (c : Int) (a b : Nat) : Int × Word :=
  let nan (x : Nat) : Bool := x != belowAll && isNaN binary32 x
  let inf (x : Nat) : Bool := x != belowAll && isInf binary32 x
  let zero (x : Nat) : Bool := x != belowAll && isZero binary32 x
  if nan a || nan b then (c, fNV)
  else if inf a || inf b then
    if zero a || zero b then (c, fNV) else cellSat (opNeg a != opNeg b)
  else
    let m : Int := (opMan a * opMan b * 2 ^ (opExp a + opExp b + 298).toNat : Nat)
    cellAdd c (if opNeg a != opNeg b then -m else m)

/-- The exact value of a cell. -/
def cellExact (c : Int) : Exact := .num (decide (c < 0)) c.natAbs (-298)

/-- A cell rounded once to a floating format (R232). -/
def cellRound (f : Fmt) (rm : Rm) (c : Int) : Nat × Word := roundF f rm (decide (c < 0)) c.natAbs (-298)

end Sys2Proof.Machine
end

