-- ==== Sys2Proof/Machine/Queues.lean ====
section
/-! DEFINITION. The host queues (R49 to R51): notify registers and descriptors, the active slots and their binding. A queue is
keyed by 65,536 times its function plus its number. DESIGN CHOICE (log entry 93): that key is the global queue number of R51, which the
spec does not define. Function 0 is PF0 and function k + 1 is VF(k + 1), of partition k (R46). -/

namespace Sys2Proof.Machine

/-- A queue exists: the one firmware queue of PF0, or a queue granted to the partition of an enabled function (R46, R49). -/
def queueExists (s : State) (fn q : Nat) : Bool :=
  if fn = 0 then q == 0 else (s.fn fn).enabled && decide (q < (s.part (fn - 1)).queues)

/-- The ring is empty: every covered entry has been begun. -/
def Queue.empty (q : Queue) : Bool := q.head == q.tail
def Queue.size (q : Queue) : Nat := 2 ^ q.log2size

/-- A write of TAIL: what it covers may be read; a queue with no slot is marked pending (R50, R51). -/
def State.notify (s : State) (key v : Nat) : State :=
  let q := s.queue key
  s.setQueue key { q with tail := v % 2 ^ 16 % q.size, pending := q.pending || !q.bound }

/-- Word 1 of a descriptor (Table 3.2). -/
def Queue.word1 (q : Queue) : Nat := (if q.enable then 2 ^ 7 else 0) + q.cls % 4 * 2 ^ 5 + q.log2size % 32

/-- CLASS and LOG2SIZE are taken while ENABLE is 0; a LOG2SIZE outside 6 to 16 is not (R50). -/
def Queue.setFields (q : Queue) (v : Nat) : Queue :=
  if q.enable then q
  else { q with cls := bits v 6 5, log2size := if 6 ≤ bits v 4 0 ∧ bits v 4 0 ≤ 16 then bits v 4 0 else q.log2size }

/-- A write of word 1 of a descriptor: a 0 to 1 write of ENABLE sets the head to 0, a write of 0 unbinds the queue (R50). -/
def State.writeWord1 (s : State) (key v : Nat) : State :=
  let q := (s.queue key).setFields v
  if v.testBit 7 then s.setQueue key (if q.enable then q else { q with enable := true, head := 0, consumed := 0 })
  else s.setQueue key { q with enable := false, bound := false }

/-- A write of BASE, ignored while ENABLE is 1. -/
def State.writeBase (s : State) (key v : Nat) : State :=
  let q := s.queue key
  if q.enable then s else s.setQueue key { q with base := BitVec.ofNat 64 (v / 64 * 64) }

/-- The register of a function's BAR0 at an 8-aligned offset: the queue's key, and 0 for a notify register, 1 and 2 for the words
of a descriptor. -/
def regAt (fn off : Nat) : Nat × Nat :=
  if off < 0x10000 then (queueKey fn (off / 8), 0) else (queueKey fn ((off - 0x10000) / 16), 1 + (off - 0x10000) / 8 % 2)

/-- A register as it reads; TAIL is write-only. -/
def State.regRead (s : State) (fn off : Nat) : Nat :=
  let r := regAt fn off
  let q := s.queue r.1
  match r.2 with
  | 0 => 0
  | 1 => q.base.toNat
  | _ => q.word1

/-- A write of a register. -/
def State.regWrite (s : State) (fn off v : Nat) : State :=
  let r := regAt fn off
  match r.2 with
  | 0 => s.notify r.1 v
  | 1 => s.writeBase r.1 v
  | _ => s.writeWord1 r.1 v

/-- A write of 4 or 8 bytes within a register (R289); the upper half of a notify register is reserved. -/
def State.regBytes (s : State) (fn off : Nat) (bs : List Byte) : State :=
  let o := off / 8 * 8
  let n := leNat bs
  if 8 ≤ bs.length then s.regWrite fn o n
  else if (regAt fn o).2 = 0 then (if off % 8 = 0 then s.regWrite fn o n else s)
  else
    let old := s.regRead fn o
    s.regWrite fn o (if off % 8 = 0 then old / 2 ^ 32 * 2 ^ 32 + n % 2 ^ 32 else old % 2 ^ 32 + n % 2 ^ 32 * 2 ^ 32)

/-! ### Host writes -/

/-- NOTIFY_WRITE (R50). -/
def execNotifyWrite (fn q : Nat) (v : BitVec 64) (s : State) : Host.Outcome State Fault Refusal :=
  if queueExists s fn q then .next (s.notify (queueKey fn q) v.toNat) else .next s

/-- QUEUE_ENABLE (R50): a write of word 1 with ENABLE 1. -/
def execQueueEnable (fn q : Nat) (w1 : BitVec 64) (s : State) : Host.Outcome State Fault Refusal :=
  if queueExists s fn q then .next (s.writeWord1 (queueKey fn q) (w1.toNat ||| 2 ^ 7)) else .next s

/-- QUEUE_DISABLE (R50): an entry begun runs to its end, the queue is unbound, and later entries stay unread. -/
def execQueueDisable (fn q : Nat) (s : State) : Host.Outcome State Fault Refusal :=
  if queueExists s fn q then
    let k := queueKey fn q
    .next (s.setQueue k { s.queue k with enable := false, bound := false })
  else .next s

/-- HOST_REGISTER_WRITE (R49, R50): BASE, CLASS and LOG2SIZE of a descriptor; every other offset ignores it. -/
def execHostRegisterWrite (fn off : Nat) (v : BitVec 64) (s : State) : Host.Outcome State Fault Refusal :=
  let r := regAt fn (off / 8 * 8)
  if off < 0x10000 ∨ !queueExists s fn ((off - 0x10000) / 16) then .next s
  else if r.2 = 1 then .next (s.writeBase r.1 v.toNat)
  else .next (s.setQueue r.1 ((s.queue r.1).setFields v.toNat))

/-! ### The mapper (R51) -/

/-- Core cycles in a microsecond (R5). -/
def usCc : Nat := 1750

/-- Queues that hold one of the 64 active slots, by key; slot k is the k-th. -/
def boundQueues (s : State) : List Nat := (s.queues.filter fun e => e.2.bound).map Prod.fst

/-- Another queue is pending. -/
def othersPending (s : State) (key : Nat) : Bool := s.queues.any fun e => e.1 != key && e.2.pending && e.2.enable

/-- A bound queue gives its slot up. -/
def releases (s : State) (key : Nat) : Bool :=
  let q := s.queue key
  q.bound && (q.empty || (othersPending s key && (decide (64 ≤ q.consumed) || decide (q.boundAt + 20 * usCc ≤ s.cycle))))

/-- QUEUE_SLOT_RELEASE (R51): a queue released with entries unread is pending again. -/
def execQueueSlotRelease (slot : Nat) (s : State) : Host.Outcome State Fault Refusal :=
  match (boundQueues s)[slot]? with
  | none => .next s
  | some k =>
    if releases s k then
      let q := s.queue k
      .next (s.setQueue k { q with bound := false, pending := q.pending || !q.empty })
    else .next s

/-- The next pending queue after the last one bound, round-robin in the global order. -/
def nextPending (s : State) : Option Nat :=
  let l := (s.queues.filter fun e => e.2.pending && e.2.enable && !e.2.bound).map Prod.fst
  match l.find? (s.lastBound < ·) with
  | some k => some k
  | none => l.head?

/-- QUEUE_SLOT_BIND (R51): a free slot is bound to the next pending queue. -/
def execQueueSlotBind (slot : Nat) (s : State) : Host.Outcome State Fault Refusal :=
  if slot < 64 ∧ (boundQueues s).length ≤ slot then
    match nextPending s with
    | none => .next s
    | some k =>
      .next { s.setQueue k { s.queue k with bound := true, pending := false, consumed := 0, boundAt := s.cycle } with
              lastBound := k }
  else .next s

end Sys2Proof.Machine
end

