-- ==== Sys2Proof/Machine/Home.lean ====
section
/-! DEFINITION. What happens at the homes of memory: which transaction may be served next (R101, R187, R192 to R197), how a
die sees a byte (R190 to R192), and the effect of a served load, store, reduction, atomic, arm and wake (R91 to R101,
R183, R294 to R302). -/

namespace Sys2Proof.Machine

/-! ### Footprints and roles (R194, R323) -/

/-- The bytes a memory operation names. -/
def Op.parts : Op → List Part8
  | .load l _ | .load2 l | .sched l _ | .vldb l _ _ _ | .tld l _ | .store l _ | .red _ l _ | .redx _ l _ | .atom _ l _
  | .cas _ l _ _ | .waita _ l _ | .wake _ l _ | .fabRead l | .mgang _ _ _ _ _ _ _ _ _ l => l
  | .vload l _ => l.map Prod.snd
  | _ => []

/-- Roles of Table 9.3. -/
inductive Role where
  | ld | st | at_ | rd | ei | ch | se | wa | none
  deriving DecidableEq, Repr

def Op.role : Op → Role
  | .load .. | .load2 .. | .sched .. | .vload .. | .vldb .. | .tld .. | .fabRead .. => .ld
  | .store .. => .st
  | .atom .. | .cas .. => .at_
  | .red .. | .redx .. => .rd
  | .mgang _ _ _ none .. => .ld
  | .eng .. | .mgang .. | .mrest .. => .ei
  | .settle .. => .se
  | .waita .. => .wa
  | .value .. | .harvest | .shoot .. | .join .. | .bqueryW .. | .phaseLoad .. | .mdrain .. => .none
  | _ => .ch

/-- A role that reads or writes memory itself. -/
def Role.mem : Role → Bool
  | .ld | .st | .at_ | .rd => true
  | _ => false
def Role.write : Role → Bool
  | .st | .at_ | .rd => true
  | _ => false

def placeMeets (a b : Part8) : Bool :=
  (match a.at_, b.at_ with
   | .mem j, .mem k => overlap j a.len k b.len
   | .win p o, .win q r => p == q && overlap o a.len r b.len
   | _, _ => false) || (a.va / 2 ^ 60 == b.va / 2 ^ 60 && overlap (a.va % 2 ^ 60) a.len (b.va % 2 ^ 60) b.len)

/-- Two accesses share a byte. -/
def sharesByte (a b : List Part8) : Bool := a.any fun p => b.any fun q => placeMeets p q

/-- Two accesses name one 128 B line of a space. -/
def sameLineVa (a b : List Part8) : Bool :=
  a.any fun p => b.any fun q => p.va / 2 ^ 60 == q.va / 2 ^ 60 && overlap (p.va / 128) ((p.va % 128 + p.len + 127) / 128) (q.va / 128)
    ((q.va % 128 + q.len + 127) / 128)

/-- Two accesses touch one 128 B line, by place or by name: an access of another module may not have been translated yet (R193). -/
def sharesLine (a b : List Part8) : Bool :=
  let grow (p : Part8) : Part8 :=
    match p.at_ with
    | .mem k => { p with at_ := .mem (k / 128 * 128), len := k % 128 + p.len + (128 - (k % 128 + p.len) % 128) % 128 }
    | _ => p
  sharesByte (a.map grow) (b.map grow) || sameLineVa a b

/-! ### Fences (R187) -/

/-- An access outside the module: it is reached only at scope `.fab` (R186, R196). -/
def Txn.external (x : Txn) : Bool := x.op.parts.any fun p => match p.at_ with | .mem k => decide (2 ^ 64 ≤ k) | _ => false

/-- A scope that reaches beyond the die, on which every write becomes visible at one moment (R191). -/
def wideScope (sc : Scope) : Bool := sc == .pkg || sc == .fab

/-- A fence between transactions `u` and `t` of one process that orders a role before another. A fence of scope `.ctx` orders
nothing for another process, but flushes write-combining stores; one narrower than `.fab` orders no access outside the module
(R186, R187, R197). -/
def fenceOrders (f : FenceMark) (u t : Nat) (a b : Role) (ext wc : Bool) : Bool :=
  decide (u < f.stamp) && decide (f.stamp ≤ t) && (!ext || f.scope == .fab) &&
    (f.scope != .ctx || (wc && f.kind != .acq)) &&
    (match f.kind with
     | .acq => a == .ld || a == .at_ || a == .wa
     | .rel => b.write || b == .ei || b == .ch || b == .se
     | .ar => true)

/-- A fence narrower than a die orders nothing that anyone sees where no other process lies inside its scope (R187). -/
def State.fencesOf (s : State) (k : Nat) : List FenceMark :=
  let c := (s.proc k).core
  let others (same : Nat → Bool) : Bool := s.procs.any fun e => e.1 != k && e.2.st != .exited && same e.2.core
  (s.proc k).fences.filter fun f => match f.scope with
    | .core => others (· == c)
    | .clu => others fun j => clusterOf j == clusterOf c
    | _ => true

/-- A fence that lets no later load, store or atomic pass an earlier reduction (R202; notes b of R194 to R196). -/
def fenceRed (f : FenceMark) (u t : Nat) (a b : Role) (ext : Bool) : Bool :=
  decide (u < f.stamp) && decide (f.stamp ≤ t) && (!ext || f.scope == .fab) && f.kind != .acq && a == .rd && b.mem

/-- A floating reduction (R203). -/
def atomFloat : AtomOp → Bool
  | .faddF32 | .faddF64 | .fminF32 | .fminF64 | .fmaxF32 | .fmaxF64 => true
  | _ => false
def Op.floatRed : Op → Bool
  | .red op _ _ => atomFloat op
  | _ => false

/-- Whether transaction `u` of a process must be performed before its later transaction `t` (Tables 9.3 and 9.4; page types R197). -/
def keptBefore (det : Bool) (fences : List FenceMark) (u : Nat) (a : Txn) (t : Nat) (b : Txn) : Bool :=
  let ra := a.op.role
  let rb := b.op.role
  let byte := sharesByte a.op.parts b.op.parts
  let ext := a.external || b.external
  let cell :=
    match ra, rb with
    | .ld, .ld | .ld, .st | .ld, .at_ | .ld, .rd => byte
    | .st, .ld | .at_, .ld | .st, .rd | .at_, .rd => byte
    | .st, .st => !(a.ptype == 1 && b.ptype == 1) && (byte || sharesLine a.op.parts b.op.parts)
    | .st, .at_ | .at_, .st | .at_, .at_ => byte || sharesLine a.op.parts b.op.parts
    | .rd, .rd => det && a.op.floatRed && b.op.floatRed && sharesLine a.op.parts b.op.parts
    | .ld, .ei | .st, .ei | .at_, .ei | .rd, .ei | .ld, .ch | .st, .ch | .at_, .ch | .rd, .ch => true
    | .st, .se | .at_, .se | .rd, .se => !ext
    | .ch, .none => false
    | .ch, _ => true
    | .se, .st | .se, .at_ | .se, .rd | .se, .ei | .se, .ch | .se, .se => !ext
    | .wa, .none => false
    | .wa, _ => !ext
    | _, _ => false
  let strong := (a.ptype == 3 || b.ptype == 3) && (ra.mem || ra == .wa) && rb != .none
  let typed := (decide (2 ≤ a.ptype) && decide (2 ≤ b.ptype)) || strong
  -- a load to a line behind an operation of a side log waits for it (R95)
  let side := (a.stage == .logged || (a.started && ra.write && ra != .at_)) && rb == .ld && sameLineVa a.op.parts b.op.parts
  cell || typed || side ||
    ((ra.mem || ra == .wa) && fences.any fun f => fenceOrders f u t ra rb ext (a.ptype == 1) || fenceRed f u t ra rb ext)

/-- The release fences of package or fabric scope before `t` are met: the process's earlier writes are visible on every die, and
its own die has applied what it has read (R187, R192); `fence.ar` holds later loads too (note e of R194). An access of a strongly-ordered
page stands between such fences (R197). -/
def State.relDone (s : State) (t : Nat) (x : Txn) : Bool :=
  let p := s.proc x.issuer
  let r := x.op.role
  let later := r.write || r == .ei || r == .ch || r == .se
  let met (n : Nat) : Bool := (s.xmsgs.all fun m => !m.below x.issuer n) && p.know.le (s.die (dieOf x.core)).clock
  (!(later || r == .ld || r == .wa) ||
    ((x.ptype != 3 || met t) && s.xmsgs.all fun m => !(m.strong && m.below x.issuer t))) &&
  p.fences.all fun f => !(f.kind != .acq && wideScope f.scope && decide (f.stamp ≤ t) && (later || (f.kind == .ar && r == .ld))) ||
    met f.stamp

/-- The die of a process has applied what happens before the access `t`: what synchronisation has brought, and behind an acquire
fence of package or fabric scope what its earlier reads have returned (R188, R189). -/
def State.upToDate (s : State) (t : Nat) (x : Txn) : Bool :=
  let p := s.proc x.issuer
  let v := (s.die (dieOf x.core)).clock
  p.floor.le v &&
    (p.know.le v || !p.fences.any fun f => f.kind != .rel && wideScope f.scope && decide (f.stamp ≤ t))

/-- Every earlier transaction of the issuer that must precede `t` has been performed, as its fences' scopes ask. -/
def State.ordered (s : State) (t : Nat) (x : Txn) : Bool :=
  let det := (s.part x.part).budget.detred
  let fences := s.fencesOf x.issuer
  s.relDone t x && s.txns.all fun e => !(e.2.issuer == x.issuer && decide (e.1 < t) && !e.2.performed && keptBefore det fences e.1 e.2 t x)

/-- Every earlier access of the issuer has been performed: what a channel operation, an arrival or an engine waits for. -/
def State.earlierDone (s : State) (t : Nat) (x : Txn) : Bool :=
  s.txns.all fun e => !(e.2.issuer == x.issuer && decide (e.1 < t) && e.2.op.role.mem && !e.2.performed)

/-! ### Lines -/

/-- The 128 B lines of a key range. -/
def linesOf (key len : Nat) : List Nat :=
  (List.range ((key + len + 127) / 128 - key / 128)).map fun i => (key / 128 + i) * 128

/-! ### How a die sees a byte (R190 to R192) -/

/-- A byte as die `d` sees it: its home's, but for updates the die has not applied, unless a later write came from the die
itself or an atomic or wait of the die has returned it (R190, R191). -/
def State.viewByte (s : State) (d key : Nat) : Byte :=
  let k := s.live key
  if s.xmsgs.isEmpty || 2 ^ 51 ≤ k || homeDie k == d then readByte s.mem k
  else
    let l := s.xmsgs.filter fun m => decide (m.key ≤ k) && decide (k < m.key + m.new.length)
    let newest := l.reverse.takeWhile fun m => m.issuer != d && !m.seen.contains d
    match (newest.reverse.filter fun m => m.waiting.contains d).head? with
    | none => readByte s.mem k
    | some m => m.old.getD (k - m.key) 0

def State.viewBytes (s : State) (d key : Nat) : Nat → List Byte
  | 0 => []
  | n + 1 => s.viewByte d key :: s.viewBytes d (key + 1) n

/-- The bytes of one part. -/
def State.partBytes (s : State) (d : Nat) (p : Part8) : List Byte :=
  match p.at_ with
  | .mem k => s.viewBytes d k p.len
  | .virt _ => List.replicate p.len 0
  | .win k o => (leBytes 8 (s.winRead k o).toNat).take p.len
  | .host7 f o => ((leBytes 8 (s.regRead f (o / 8 * 8))).drop (o % 8)).take p.len
def State.allBytes (s : State) (d : Nat) (l : List Part8) : List Byte := l.flatMap (s.partBytes d)

/-- A message carries a write to some byte of a list of parts that die `d` has not applied. -/
def State.unapplied (s : State) (d : Nat) (l : List Part8) (m : XMsg) : Bool :=
  m.waiting.contains d && !m.new.isEmpty && l.any fun p => match p.at_ with
    | .mem k => decide (k < 2 ^ 51) && overlap (s.live k) p.len m.key m.new.length
    | _ => false

/-- The messages that carry what a read on die `d` returns ahead of them: those of the die's own writes, of writes returned before,
or of every write where the read is made at the home (`all_`). -/
def State.seenTags (s : State) (d : Nat) (l : List Part8) (all_ : Bool) : Clock :=
  (s.xmsgs.filter fun m => s.unapplied d l m && (all_ || m.issuer == d || m.seen.contains d)).foldl (fun c m => c.join m.tag) Clock.zero

/-- The messages of all writes that die `d` sees ahead of them. A process of the die may have learned of any of them through what another
process of the die has written (R189, R192). -/
def State.aheadTags (s : State) (d : Nat) : Clock :=
  (s.xmsgs.filter fun m => m.waiting.contains d && !m.new.isEmpty && (m.issuer == d || m.seen.contains d)).foldl (fun c m => c.join m.tag) Clock.zero

/-- The writes that an atomic or a wait of die `d` has returned are visible on the die from then on (R190, R191). -/
def State.markSeen (s : State) (d : Nat) (l : List Part8) : State :=
  { s with xmsgs := s.xmsgs.map fun m => if s.unapplied d l m && !m.seen.contains d then { m with seen := d :: m.seen } else m }

/-- A part whose read is uncorrectable: the address of its first bad line. -/
def State.badPart (s : State) (l : List Part8) : Option Nat :=
  (l.find? fun p => match p.at_ with
    | .mem k => (linesOf k p.len).any fun a => s.badAt (s.readPlace a)
    | _ => false).map Part8.va

/-- The physical lines that a read or a write of a line touches, in a motion both for a write (R101). -/
def State.linePlaces (s : State) (wr : Bool) (a : Nat) : List Nat := if wr then s.writePlaces a else [s.readPlace a]

/-- A part that waits for its memory. -/
def State.busyPart (s : State) (l : List Part8) (wr : Bool := false) : Bool :=
  l.any fun p => match p.at_ with
    | .mem k => decide (k < 2 ^ 51) && (linesOf k p.len).any fun a => (s.linePlaces wr a).any s.memBusy
    | .virt _ => true
    | _ => false

/-! ### Counting (R99, R110, R211, R212) -/

/-- The line accesses of a read or a write: one for its page's hotness, and an activation wherever the line stands (R99, R101, R110). -/
def State.countLines (s : State) (l : List Part8) (wr : Bool := false) : State :=
  l.foldl (fun s p => match p.at_ with
    | .mem k => (linesOf k p.len).foldl (fun s a => (s.linePlaces wr a).foldl State.activate (s.countHot (s.live a))) s
    | _ => s) s

/-- A write applied to a granule: an enrolled one with no token pending sends one (R212). -/
def State.bump (s : State) (g : Nat) : State :=
  match nget? s.grans g with
  | none => s
  | some v =>
    if !v.enr || v.pend then s
    else
      { s with grans := nset s.grans g { v with pend := true, count := v.count + 1 }
               tokens := nset s.tokens s.nextId { part := v.part, node := v.node, weight := 1, gran := some g
                                                  due := s.cycle + 200, clock := (s.die (homeDie (g * 4096))).clock }
               nextId := s.nextId + 1 }

/-- Granules of a key range. -/
def granulesOf (key len : Nat) : List Nat :=
  if 2 ^ 51 ≤ key || len == 0 then [] else (List.range ((key + len - 1) / 4096 - key / 4096 + 1)).map (key / 4096 + ·)

/-! ### Applying bytes (R41, R101, R190, R192) -/

/-- Who writes: the die, the process or engine operation, and its transaction. -/
structure Who where
  die : Nat
  proc : Nat := 0
  txn : Nat := 0
  /-- The reductions merged with it, and whether it writes a strongly-ordered page. -/
  also : List (Nat × Nat) := []
  strong : Bool := false
  deriving DecidableEq, Repr

/-- The writer of a transaction. -/
def Txn.who (x : Txn) (t : Nat) : Who := { die := dieOf x.core, proc := x.issuer, txn := t, strong := x.ptype == 3 }

/-- A die sends a message to every other die, tagged with its clock (R192). -/
def State.sendMsg (s : State) (src : Nat) (m : XMsg) : State :=
  let d := s.die src
  let c := d.clock.bump src
  let s := s.setDie src { d with clock := c }
  { s with xmsgs := s.xmsgs ++ [{ m with src := src, tag := c, waiting := [0, 1, 2, 3].filter (· != src) }] }

/-- The update that a home die sends to the others (R192). -/
def State.sendUpdate (s : State) (w : Who) (key : Nat) (old new : List Byte) : State :=
  let h := homeDie key
  s.sendMsg h { src := h, tag := Clock.zero, key := key, old := old, new := new, issuer := w.die, waiting := [], due := s.cycle + 64
                proc := w.proc, txn := w.txn, also := w.also, strong := w.strong }

/-- A line's entry of the bad-line list of its controller (R41, R104). -/
def State.listBad (s : State) (a : Nat) (bad : Bool) : State :=
  let s : State := { s with flaws := s.flaws.filter (· != a) }
  if a < 2 ^ 44 then
    let m := s.mbd (stackOf a)
    if m.bad.contains a == bad then s
    else s.setMbd (stackOf a) { m with bad := if bad then m.bad ++ [a] else m.bad.filter (· != a) }
  else if a < 2 ^ 51 then
    let d := a / 2 ^ 42 % 4
    let c := nget {} s.cxl d
    if c.bad.contains a == bad then s
    else { s with cxl := nset s.cxl d { c with bad := if bad then c.bad ++ [a] else c.bad.filter (· != a) } }
  else s

/-- A write of whole lines takes their addresses off the bad-line lists, wherever they stand (R41, R101), and leaves no error in them. -/
def State.clearLines (s : State) (key len : Nat) : State :=
  ((linesOf key len).filter fun a => decide (key ≤ a) && decide (a + 128 ≤ key + len)).foldl (fun s a =>
    (s.writePlaces a).foldl (fun s a => s.listBad a false) s) s

/-- Write bytes at a key: at the home's current location, at both while a motion copies and the line is copied, with the
tree bump and the update to the other dies. A full line takes its address off the bad-line list. -/
def State.applyBytes (s : State) (w : Who) (key : Nat) (bs : List Byte) : State :=
  if bs.isEmpty then s
  else if 2 ^ 51 ≤ key then { s with mem := writeBytes s.mem key bs }.clearLines key bs.length
  else
    let k := s.live key
    let old := readBytes s.mem k bs.length
    let s := s.sendUpdate w k old bs
    let s : State := { s with mem := writeBytes s.mem k bs }
    let s : State := if s.motions.isEmpty then s else
      { s with mem := bs.zipIdx.foldl (fun mem b => match s.copied (k + b.2) with | some d => writeByte mem d b.1 | none => mem) s.mem }
    (granulesOf k bs.length).foldl State.bump (s.clearLines k bs.length)

/-- Write bytes into register windows, which may start and end inside a doubleword. -/
def State.winPoke (s : State) (k o : Nat) (bs : List Byte) : State :=
  bs.zipIdx.foldl (fun s b =>
    let a := (o + b.2) / 8 * 8
    let j := (o + b.2) % 8
    let old := (s.winRead k a).toNat
    s.winWrite k a (BitVec.ofNat 64 (old - bits old (8 * j + 7) (8 * j) * 2 ^ (8 * j) + b.1.toNat * 2 ^ (8 * j)))) s

/-- Write the bytes of a list of parts. A register of space 0x7 takes the value a host write would give it (R289). -/
def State.applyParts (s : State) (w : Who) (l : List Part8) (bs : List Byte) : State :=
  match l with
  | [] => s
  | p :: t =>
    let mine := bs.take p.len
    let s :=
      match p.at_ with
      | .mem k => s.applyBytes w k mine
      | .virt _ => s
      | .win k o => if o % 8 = 0 ∧ p.len = 8 then s.winWrite k o (BitVec.ofNat 64 (leNat mine)) else s.winPoke k o mine
      | .host7 f o => s.regBytes f o mine
    s.applyParts w t (bs.drop p.len)

/-! ### Crossing windows (R204) -/

/-- The link of a write queue that a request crosses: by home die and issuing die, or Buneam by module, for a request that comes in as
for one that goes out; none at home. -/
def linkOf (x : Txn) (l : List Part8) : Option Nat :=
  match l, x.far with
  | _, some f => some (2048 + f.1)
  | { at_ := .mem k, .. } :: _, none =>
    if k < 2 ^ 51 then
      let h := homeDie k
      if h = dieOf x.core then none else some (h * 4 + dieOf x.core)
    else if 2 ^ 80 ≤ k then some (16 + (k - 2 ^ 80) / 2 ^ 41)
    else none
  | _, none => none

/-- A sender has room for one more atomic or reduction on its link: fewer than 256 of its own are unanswered there. Requests that come in
were held back by the other module. -/
def State.windowRoom (s : State) (x : Txn) : Bool :=
  if x.far.isSome || !(x.op.role == .at_ || x.op.role == .rd) then true
  else match linkOf x x.op.parts with
  | none => true
  | some l => decide ((s.txns.filter fun e => e.2.far.isNone && (e.2.op.role == .at_ || e.2.op.role == .rd) && e.2.away &&
      linkOf e.2 e.2.op.parts == some l).length < 256)

/-- The requester tag of a transaction. -/
def Txn.tag (x : Txn) (t : Nat) : Nat := match x.far with | some f => f.2.1 * 2 ^ 64 + f.2.2 | none => t

/-- Enter the cached reply of an applied atomic. The oldest entry of a full window has been answered: its requester holds no more than 256
unanswered. -/
def State.cacheReply (s : State) (t : Nat) (x : Txn) (w : Word) : State :=
  match linkOf x x.op.parts with
  | none => s
  | some l =>
    let r := nget [] s.windows l ++ [(x.tag t, w)]
    { s with windows := nset s.windows l (r.drop (r.length - 256)) }

/-- The requester has received the reply: its entry is freed. Of a request that came in, that is not seen here. -/
def State.uncache (s : State) (t : Nat) (x : Txn) : State :=
  match (if x.far.isSome then none else linkOf x x.op.parts) with
  | none => s
  | some l =>
    let r := (nget [] s.windows l).filter fun e => e.1 != t
    { s with windows := if r.isEmpty then ndel s.windows l else nset s.windows l r }

/-! ### The way of a write to its home (R192) -/

/-- No die holds 64 unapplied messages of a die: it may send one more. -/
def State.dieRoom (s : State) (src : Nat) : Bool :=
  [0, 1, 2, 3].all fun d => decide ((s.xmsgs.filter fun m => m.src == src && m.waiting.contains d).length < 64)

/-- The dies at which the bytes of an access have their homes. -/
def State.homesOf (s : State) (l : List Part8) : List Nat :=
  (l.filterMap fun p => match p.at_ with
    | .mem k => if k < 2 ^ 51 then some (homeDie (s.live k)) else if k < 2 ^ 64 then some (homeDie k) else none
    | .win k _ => some (dieOf (s.proc k).core)
    | _ => none).eraseDups

/-- Homes of a write on dies other than its issuer's. -/
def State.farHomes (s : State) (x : Txn) : List Nat := (s.homesOf x.op.parts).filter (· != dieOf x.core)

/-- A write of a side log that a shoot-down has retried: it is applied in the order of its log alone (R95). -/
def Txn.retried (x : Txn) : Bool := x.started && x.op.role.write

/-- An access of the memory of another module (R193, R288). -/
def Txn.fab (x : Txn) : Bool := x.op.parts.any fun p => match p.at_ with | .mem k => decide (2 ^ 80 ≤ k) | _ => false

/-- The Buneam port that an access crosses is down, or its flits wait while it retrains (R36, R37). DESIGN CHOICE (log entry 133): an access
whose flits have not gone waits until the port carries traffic again. -/
def State.portBusy (s : State) (x : Txn) : Bool :=
  match s.portOf x.part x.op.parts with
  | some b => (s.port b).down || (s.port b).retrain
  | none => false

/-- The write may set out for its home as a message (R192); an access of another module, in flits (R33). -/
def State.canSend (s : State) (t : Nat) (x : Txn) : Bool :=
  x.stage == .sent && !x.away && (x.retried || (s.ordered t x && s.upToDate t x)) &&
    s.windowRoom x && (if x.fab then !s.portBusy x else x.op.role.write && !(s.farHomes x).isEmpty && s.dieRoom (dieOf x.core))

/-- It sets out: the message goes to every other die. -/
def State.sendWrite (s : State) (t : Nat) (x : Txn) : State :=
  let d := dieOf x.core
  (s.sendMsg d { src := d, tag := Clock.zero, key := 0, old := [], new := [], issuer := d, waiting := [], due := s.cycle
                 proc := x.issuer, txn := t, strong := x.ptype == 3 }).setTxn t { x with away := true }

/-- The message of a write has been applied at each of its homes. -/
def State.atHome (s : State) (t : Nat) (x : Txn) : Bool :=
  let h := s.farHomes x
  h.isEmpty || (x.away && s.xmsgs.all fun m => !(m.ofTxn t && m.new.isEmpty && h.any m.waiting.contains))

/-- A home die may send one more update. -/
def State.linkRoom (s : State) (l : List Part8) : Bool :=
  l.all fun p => match p.at_ with
    | .mem k => decide (2 ^ 51 ≤ k) || s.dieRoom (homeDie (s.live k))
    | _ => true

/-! ### Deadlines and tags (R109, R244) -/

/-- A request that completes after its deadline adds 1 to `ctl.dlmiss` of its issuer, or of the process whose engine program it is,
saturating (R109). -/
def State.miss (s : State) (x : Txn) : State :=
  let dl := x.svc.toNat % 4096
  if dl = 0 ∨ s.cycle ≤ x.issued + 64 * dl then s
  else s.modProc (ownerOf x.issuer) fun p => { p with dlmiss := BitVec.ofNat 64 (min 0xFFFFFFFF (p.dlmiss.toNat + 1)) }

/-- A tagged operation whose effect is complete, in the last of its stores, is one arrival, sent to its destination (R244); it carries what
happens before it (R200). -/
def State.tagArrival (s : State) (x : Txn) (past : Clock) : State :=
  if x.ptag.getLsbD 8 && !x.kin.any (nget? s.txns · |>.isSome) then
    (s.newTxn { x with op := .arrive (bits x.ptag.toNat 7 4) (bits x.ptag.toNat 3 1), tgt := {}, stage := .sent
                       due := s.cycle + 16, token := false, ptag := 0, started := true
                       clock := past }).1
  else s

/-- An access of an engine operation to another module or to a register window: a transaction of its own, whose issuer no process has. -/
def State.fromEngine (s : State) (x : Txn) : Bool := decide (2 ^ 32 ≤ x.issuer) && x.far.isNone && (nget? s.procs x.issuer).isNone

/-- The engine operation whose access it is. -/
def Txn.lineOp (x : Txn) : Nat := x.issuer / 2 ^ 32 - 1

/-- The numeric flags of an engine operation's access go to its completion object (R168, R178). -/
def State.objFlags (s : State) (t : Nat) (f : Word) : State :=
  match (nget? s.txns t).map Txn.op with
  | some (.eng c j _) => s.modCore c fun k => let o := k.obj j; k.setObj j { o with flags := o.flags ||| f }
  | _ => s

/-- ORs flags into the record of the issuer, or of its instance once it has exited or its firing has ended (R178, R306). -/
def State.giveFlags (s : State) (x : Txn) (f : Word) : State :=
  if f = 0 ∨ x.far.isSome then s
  else if s.fromEngine x then s.objFlags x.lineOp f
  else if s.outlived x then
    s.modInst x.inst fun i => { i with flagWord := i.flagWord ||| f }
  else s.modProc x.issuer fun p => { p with flags := p.flags ||| f }

/-! ### Combination (R294 to R297) -/

def atomWide : AtomOp → Bool
  | .add64 | .minI64 | .minN64 | .maxI64 | .maxN64 | .and64 | .or64 | .xor64 | .swap64 | .faddF64 | .fminF64 | .fmaxF64 => true
  | _ => false
def atomBytes (o : AtomOp) : Nat := if atomWide o then 8 else 4

/-- `new ← F(old, v)` on w-bit naturals, with flags (Table 14.4). -/
def atomApply (o : AtomOp) (a b : Nat) : Nat × Word :=
  let w := 8 * atomBytes o
  let sx (v : Nat) : Int := if v < 2 ^ (w - 1) then v else (v : Int) - 2 ^ w
  let fm := if atomWide o then binary64 else binary32
  match o with
  | .add32 | .add64 => ((a + b) % 2 ^ w, 0)
  | .minI32 | .minI64 => (if sx b < sx a then b else a, 0)
  | .maxI32 | .maxI64 => (if sx a < sx b then b else a, 0)
  | .minN32 | .minN64 => (min a b, 0)
  | .maxN32 | .maxN64 => (max a b, 0)
  | .and32 | .and64 => (a &&& b, 0)
  | .or32 | .or64 => (a ||| b, 0)
  | .xor32 | .xor64 => (a ^^^ b, 0)
  | .swap32 | .swap64 => (b, 0)
  | .faddF32 | .faddF64 => fAdd fm .rne a b
  | .fminF32 | .fminF64 => fMinMax fm false a b
  | .fmaxF32 | .fmaxF64 => fMinMax fm true a b

/-- The pushed old value: sign-extended for the signed 32-bit minimum and maximum (R294). -/
def atomPushed (o : AtomOp) (a : Nat) : Word :=
  match o with
  | .minI32 | .maxI32 => (BitVec.ofNat 32 a).signExtend 64
  | _ => BitVec.ofNat 64 a

/-! ### Accesses of another module (R33, R193, R288) -/

/-- The request for one part of an access, the `j`-th, whose bytes begin at `pos`. -/
def fabAsk (s : State) (t : Nat) (x : Txn) (j pos : Nat) (p : Part8) : Option (Nat × Nat × FabMsg) :=
  match p.at_ with
  | .mem k =>
    if k < 2 ^ 80 then none
    else
      let m := (k - 2 ^ 80) / 2 ^ 41
      let off := (k - 2 ^ 80) % 2 ^ 41
      let n := 256 * t + j
      (s.bound x.part m).map fun b => (m, b.remotePart, match x.op with
        | .store _ bs => .write b.remotePart off ((bs.drop pos).take p.len) s.moduleId x.part n (decide (8 < bs.length)) x.sca
        | .red op _ v => .red op b.remotePart off v.toNat s.moduleId x.part n
        | .redx int _ v => .redx int b.remotePart off v s.moduleId x.part n
        | .atom op _ v => .atom op b.remotePart off v.toNat s.moduleId x.part n
        | .cas wide _ y z => .cas wide b.remotePart off y.toNat z.toNat s.moduleId x.part n
        | _ => .read b.remotePart off p.len s.moduleId x.part n x.wide x.sca)
  | _ => none

/-- The requests of an access go: one for each part. -/
def State.askFab (s : State) (t : Nat) (x : Txn) : State :=
  (x.op.parts.zipIdx.foldl (fun (a : State × Nat) e =>
    (match fabAsk s t x e.2 a.2 e.1 with | some m => a.1.sendFab m.1 m.2.1 m.2.2 | none => a.1, a.2 + e.1.len)) (s, 0)).1

/-- A write sets out for its home, or an access for another module. -/
def State.setOut (s : State) (t : Nat) (x : Txn) : State :=
  if x.fab then (s.askFab t x).setTxn t { x with away := true } else s.sendWrite t x

/-- The value a load delivers (R291). -/
def Ext.make (e : Ext) (bs : List Byte) : Word :=
  match e with
  | .zero _ => BitVec.ofNat 64 (leNat bs)
  | .sign n => if leNat bs < 2 ^ (8 * n - 1) then BitVec.ofNat 64 (leNat bs) else BitVec.ofInt 64 ((leNat bs : Int) - 2 ^ (8 * n))

/-! ### Monitors (R300 to R302) -/

/-- The doubleword a monitor stands for: the home's key in spaces 0x0 and 0x1, so that it moves with the page. -/
def monitorKey (s : State) (l : List Part8) : Nat :=
  match l with
  | { at_ := .mem k, .. } :: _ => s.live k / 8 * 8
  | _ => 0

/-- The cluster whose monitor table holds an arm for a key (R300). -/
def monitorCluster (key : Nat) : Nat := if key < 2 ^ 51 then homeNode key else (key - 2 ^ 52) / 2 ^ 18 % 512 / 8

/-- A process lies inside scope `sc` of a core (R186). -/
def inScope (sc : Scope) (core other : Nat) : Bool :=
  match sc with
  | .ctx => false
  | .core => core == other
  | .clu => core / 8 == other / 8
  | .die => dieOf core == dieOf other
  | .pkg | .fab => true

/-- Enter an arm: the cluster's table, else the partition's spill table, else not at all (R301). -/
def State.arm (s : State) (part : Nat) (a : Arm) : Option State :=
  let c := monitorCluster a.key
  let k := s.cluster c
  if k.monitors.length < 256 then some (s.setCluster c { k with monitors := k.monitors ++ [a] })
  else if (s.part part).spill.length < 65536 then some (s.modPart part fun q => { q with spill := q.spill ++ [a] })
  else none

/-- A `waita` of a process stands armed. -/
def State.armed (s : State) (k : Nat) : Bool :=
  s.txns.any fun e => e.2.issuer == k && e.2.op.role == .wa && e.2.stage == .waiting

/-- End an armed wait on an address with a status (Table 14.6): its process is READY, unless another of its waits stands armed. -/
def State.endWait (s : State) (t : Nat) (status : Word) : State :=
  match nget? s.txns t with
  | none => s
  | some x =>
    let s := (s.deliver t x { vals := [status], kept := [status] }).dropTxn t
    if s.armed x.issuer then s else s.ready x.issuer false

/-- Wake up to `n` waiters on a doubleword in the order they were armed, all of them for 0 (R302), whichever table holds them. -/
def State.wakeAll (s : State) (part key : Nat) (sc : Scope) (core n : Nat) (past : Clock) : State :=
  let mine := (s.cluster (monitorCluster key)).monitors ++ (s.part part).spill
  let hit := (mine.filter fun a => a.key == key && partOf a.proc == part && inScope sc core (s.proc a.proc).core)
  let hit := sortBy (fun a b => decide (a.order ≤ b.order)) hit
  let hit := if n = 0 then hit else hit.take n
  hit.foldl (fun s a =>
    let c := monitorCluster key
    let k := s.cluster c
    let s := s.setCluster c { k with monitors := k.monitors.filter fun b => b.txn != a.txn }
    let s := s.modPart part fun q => { q with spill := q.spill.filter fun b => b.txn != a.txn }
    (s.endWait a.txn 0).raiseFloor a.proc past) s

/-! ### Serving (R105, R183, R291 to R302) -/

/-- A class C record of a transaction. -/
def recC (s : State) (x : Txn) (t : Trap) : FRec := mkRec s x.issuer .c t x.loc x.bword

/-- The record of a failed read. -/
def badRead (s : State) (x : Txn) (va : Nat) : FRec := recC s x { kind := .uncorrectableData, addr := BitVec.ofNat 64 va }

/-- A store of a tagged word is discarded or fails: the word, which is never complete, makes no arrival (R244). -/
def State.breakTag (s : State) (x : Txn) : State :=
  x.kin.foldl (fun s u => match nget? s.txns u with | some y => s.setTxn u { y with ptag := 0 } | none => s) s

/-- An access of an engine operation fails: the operation ends with its record (R183). -/
def State.failLine (s : State) (x : Txn) (t : Trap) : State :=
  s.modTxn x.lineOp fun y => { y with stage := .failed (recC s y t) }

/-- A failure of a write at its home: the issuer's record; a requester of another module gets its answer as the transaction arrives. -/
def State.failT (s : State) (t : Nat) (x : Txn) (r : FRec) : State :=
  if x.far.isSome then s.setTxn t { x with stage := .failed r }
  else if s.fromEngine x then (s.failLine x r.trap).dropTxn t
  else ((s.failC t x r).breakTag x).dropTxn t

/-- Byte lanes put into a vector register image. -/
def putLanes (old : VReg) (lanes : List (Nat × List Byte)) : VReg :=
  lanes.foldl (fun v l =>
    let n := 8 * l.2.length
    let m : VReg := (BitVec.allOnes n).setWidth 2048 <<< (8 * l.1)
    (v &&& ~~~m) ||| ((BitVec.ofNat 2048 (leNat l.2)) <<< (8 * l.1))) old

/-- Row bytes of a matrix format in its interleaved form, and the columns a cycle takes in `mgang` (Table 16.6); none for a
code that is no matrix format (R361). -/
def rowOfCode (code : Nat) : Option (Nat × Nat) :=
  match blkOfCode code with
  | some (f, _) =>
    some (64 / f.count * (f.eb + f.sb), match f with | .nb 2 => 64 | .nb 4 => 32 | .mx (.fp 2 1 1) => 32 | _ => 16)
  | none => if code = 0x01 then some (64, 16) else if code = 0x0B ∨ code = 0x0C then some (128, 4) else none

/-- A tile from the bytes of its rows in interleaved form (log entry 30). -/
def tileOf (bs : List Byte) (code : BitVec 6) : Tile :=
  let rb := ((rowOfCode code.toNat).map Prod.fst).getD 0
  { data := BitVec.ofNat 16384 ((List.range 16).foldl (fun a r => a + leNat ((bs.drop (rb * r)).take rb) * 2 ^ (1024 * r)) 0)
    tag := some code
    dirty := true }

/-- A plain element of `vldb` as binary32, exact (R330). -/
def plainValue (code x : Nat) : Nat :=
  if code = 0x01 then
    let n : Int := if x < 128 then x else (x : Int) - 256
    b32 (decide (n < 0)) n.natAbs 0
  else if code = 0x0B then x * 2 ^ 16
  else if code = 0x0C then
    if isNaN float16 x then withSign binary32 (fneg? float16 x) (binary32.inf + x % 2 ^ 10 * 2 ^ 13)
    else (fConv float16 binary32 .rne x).1
  else x

/-- `vldb` (R330): the lanes of the blocks read, or of the plain elements read in their order, where the predicate is set. -/
def vldbValue (code : Nat) (bs : List Byte) (old : VReg) (pred : PReg) : VReg × Word :=
  match blkOfCode code with
  | none =>
    let n := if code = 0x01 then 1 else if code = 0x09 then 4 else 2
    let act := (List.range 64).filter fun i => pred.getLsbD i
    (putLanes old (act.zipIdx.map fun e => (4 * e.1, leBytes 4 (plainValue code (leNat ((bs.drop (n * e.2)).take n))))), 0)
  | some (f, _) =>
    let size := f.eb + f.sb
    let scale (i : Nat) : Nat := leNat ((bs.drop (i / f.count * size)).take f.sb)
    ((List.range 64).foldl (fun a i =>
      let v := f.value (scale i) (leNat ((bs.drop (i / f.count * size + f.sb)).take f.eb)) (i % f.count)
      if pred.getLsbD i then putLanes a [(4 * i, leBytes 4 (written32 v))] else a) old,
      (List.range (64 / f.count)).foldl (fun a b => a ||| f.scaleFlag (scale (f.count * b))) 0)

/-! ### Single-copy atomicity (R184) -/

/-- The aligned parts of `g` bytes that a byte range meets, as first byte of the access and length. -/
def chunks (g : Nat) : Nat → Nat → Nat → Nat → List (Nat × Nat)
  | 0, _, _, _ => []
  | f + 1, pos, a, n =>
    if n = 0 then []
    else
      let m := min n (g - a % g)
      (pos, m) :: chunks g f (pos + m) (a + m) (n - m)

/-- The single-copy atomic parts of an access (R184): an aligned scalar is one, a misaligned one its bytes, a 128-bit load two parts of
8 B; a vector or tile access is its aligned parts of 8 B; under the J7 rule the parts have 16 B; an atomic or a reduction is indivisible. -/
def Txn.units (x : Txn) : List (Nat × Nat) :=
  let l := x.op.parts
  let n := (l.map Part8.len).foldl (· + ·) 0
  let g := if x.sca then 16 else 8
  let a := (l.head?.map Part8.va).getD 0
  let scalar : Bool := match x.op with | .load .. | .load2 .. | .sched .. | .fabRead .. => !x.wide | .store .. => !x.wide && decide (n ≤ 8) | _ => false
  if x.op.role = .at_ ∨ x.op.role = .rd then [(0, n)]
  else if scalar ∧ a % max 1 n ≠ 0 then (List.range n).map fun j => (j, 1)
  else if n ≤ 8 ∧ scalar then [(0, n)]
  else (l.foldl (fun r p => (r.1 ++ chunks g (p.len + 1) r.2 p.va p.len, r.2 + p.len)) ([], 0)).1

/-- A part that starts some bytes further on. -/
def Part8.at (p : Part8) (j n : Nat) : Part8 :=
  { at_ := (match p.at_ with
      | .mem k => .mem (k + j) | .virt o => .virt (o + j) | .win k o => .win k (o + j) | .host7 f o => .host7 f (o + j))
    len := n, va := p.va + j }

/-- The `n` bytes from `j` on of a list of parts. -/
def cutParts : List Part8 → Nat → Nat → List Part8
  | [], _, _ => []
  | p :: t, j, n =>
    if n = 0 then []
    else if p.len ≤ j then cutParts t (j - p.len) n
    else
      let m := min n (p.len - j)
      p.at j m :: cutParts t 0 (n - m)

/-- The places of one single-copy atomic part. -/
def Txn.unitParts (x : Txn) (j : Nat) : List Part8 :=
  match x.units[j]? with
  | some e => cutParts x.op.parts e.1 e.2
  | none => []

/-- The parts that an event serves: those named that are left, or all that are left. One that overlaps an earlier part of the same store is
not applied before it: of a scatter, the highest lane's value remains (R331). -/
def Txn.unitsFor (x : Txn) (how : ServeHow) : List Nat :=
  let left := (List.range x.units.length).filter (!x.unitsDone.contains ·)
  match how with
  | .units l =>
    left.foldl (fun now j =>
      if l.contains j && (x.op.role != .st || (left.takeWhile (· != j)).all fun i => now.contains i || !sharesByte (x.unitParts i) (x.unitParts j))
      then now ++ [j] else now) []
  | _ => left

/-- The bytes of a read, those that earlier parts have returned among them. -/
def State.readAll (s : State) (x : Txn) : List Byte :=
  let bs := s.allBytes (dieOf x.core) x.op.parts
  if x.got.isEmpty then bs else bs.zipIdx.map fun b => (nget? x.got b.2).getD b.1

/-- What a read delivers. -/
def State.readValue (s : State) (x : Txn) : Deliver :=
  let bs := s.readAll x
  match x.op with
  | .load _ e => let v := e.make bs; { vals := [v], kept := [v] }
  | .load2 _ => { vals := [BitVec.ofNat 64 (leNat (bs.take 8)), BitVec.ofNat 64 (leNat (bs.drop 8))] }
  | .sched _ _ => let v := BitVec.ofNat 64 (leNat bs); { vals := [v], kept := [v] }
  | .vload lanes old =>
    { vecs := [putLanes old (lanes.foldl (fun r e => (r.1 ++ [(e.1, r.2.take e.2.len)], r.2.drop e.2.len)) ([], bs)).1] }
  | .vldb _ code old pred =>
    let v := vldbValue code bs old pred
    { vecs := [v.1], flags := v.2 }
  | .tld _ code => { tiles := [tileOf bs code] }
  | _ => {}

/-- The scoreboard of the core that owns a scratchpad holds an access: an earlier incoming transfer overlaps it, or, for one
that writes, any (R161). -/
def State.sbHeld (s : State) (t : Nat) (x : Txn) : Bool :=
  x.op.parts.any fun p => match p.at_ with
    | .mem k =>
      decide (2 ^ 52 ≤ k) && decide (k < 2 ^ 64) &&
        (s.core ((k - 2 ^ 52) / 2 ^ 18)).sb.any fun e =>
          e.own && decide (e.txn < t) && overlap e.lo e.len (k % 2 ^ 18) p.len && (e.incoming || x.op.role.write)
    | _ => false

/-- An `mgang` in flight, but for `mine`, reads a tile of a core: its own operands, and after the opening the B tiles of its cluster
(R361). -/
def State.tileHeld (s : State) (core t : Nat) (mine : Option Nat := none) : Bool :=
  s.txns.any fun e => mine != some e.1 &&
    match e.2.op with
    | .mgang _ n ta tile .. =>
      (e.2.core == core && (ta == t || tile == some t)) ||
        (e.2.stage != .waiting && tile == some t && clusterOf e.2.core == clusterOf core && decide (core % 8 < n / 16))
    | _ => false

/-- A window access to a tile or accumulator that is pending or held waits (R364). -/
def State.matHeld (s : State) (l : List Part8) : Bool :=
  l.any fun p => match p.at_ with
    | .win k o =>
      let c := (s.proc k).core
      (match wRegion o 8 with
        | .t => (s.core c).mPend.any (fun e => e.1 == (o - 0x70000) / 2048) || s.tileHeld c ((o - 0x70000) / 2048)
        | .a => (s.core c).mPend.any (fun e => e.1 == 8 + (o - 0x80000) / 0x24000)
        | _ => false)
    | _ => false

/-! ### Memory servers (R105) -/

/-- The slices at which an access of device memory is served. -/
def State.slicesOf (s : State) (l : List Part8) : List Nat :=
  (l.filterMap fun p => match p.at_ with | .mem k => if k < 2 ^ 51 then some (homeNode (s.live k)) else none | _ => none).eraseDups

/-- The slices of some bytes whose memory servers have no context for request `t` yet. -/
def State.unserved (s : State) (t : Nat) (l : List Part8) : List Nat := (s.slicesOf l).filter fun c => !s.serves c t

/-- Why a row of a bulk access is not served: its memory, port or side log is busy; or a fault. -/
inductive RowStop where
  | wait
  /-- The memory servers of these slices have no context for it yet (R105). -/
  | full (l : List Nat)
  | bad (t : Trap)
  deriving DecidableEq, Repr

/-- A request is in one of the 8 contexts of each of its slices. -/
def State.inServer (s : State) (t : Nat) (x : Txn) : Bool :=
  (s.slicesOf x.op.parts).all fun c => ((s.slots c).take 8).contains t

/-- The slices that a request has still to reach and that have room among their contexts and their queue of 64. -/
def State.toEnter (s : State) (t : Nat) (x : Txn) : List Nat :=
  (s.slicesOf x.op.parts).filter fun c => !(s.slots c).contains t && decide ((s.slots c).length < 72)

/-- A request may reach a slice. -/
def State.canEnter (s : State) (t : Nat) (x : Txn) : Bool :=
  x.stage == .sent && (x.retried || s.ordered t x) && !(s.toEnter t x).isEmpty

/-- A request takes its place at a slice. -/
def State.enterAt (s : State) (c t : Nat) : State := s.setCluster c { s.cluster c with reqs := s.slots c ++ [t] }

/-- A bulk request enters the queues of slices that have room. -/
def State.queueAt (s : State) (t : Nat) (l : List Nat) : State :=
  (l.filter fun c => !(s.slots c).contains t && decide ((s.slots c).length < 72)).foldl (fun s c => s.enterAt c t) s

/-- A request reaches its slices. -/
def State.enter (s : State) (t : Nat) (x : Txn) : State := (s.toEnter t x).foldl (fun s c => s.enterAt c t) s

/-- It leaves them: a line of an engine or of a bulk transfer has been served. -/
def State.leaveServers (s : State) (t : Nat) : State :=
  if s.clusters.any fun e => e.2.reqs.contains t then
    { s with clusters := s.clusters.map fun (e : Nat × Cluster) => (e.1, { e.2 with reqs := e.2.reqs.filter (· != t) }) }
  else s

/-! ### Accesses that other modules make here (R193, R204, R211, R288) -/

/-- The operation on other parts. -/
def Op.withParts (o : Op) (l : List Part8) : Op :=
  match o with
  | .fabRead _ => .fabRead l
  | .store _ bs => .store l bs
  | .red op _ v => .red op l v
  | .redx int _ v => .redx int l v
  | .atom op _ v => .atom op l v
  | .cas wide _ y z => .cas wide l y z
  | o => o

/-- The pages of an access that has not been translated. -/
def virtPages (l : List Part8) : List (Nat × Nat) :=
  l.flatMap fun p => match p.at_ with | .virt o => pieces (p.len / 2 ^ 16 + 4) o 0 p.len | _ => []

/-- An access of another module is translated here (R288), once its walks may run (R110, R111). -/
def State.canPlace (s : State) (x : Txn) : Bool :=
  x.far.isSome && x.stage == .sent && !(virtPages x.op.parts).isEmpty &&
    (virtPages x.op.parts).all fun e => !s.walkBusy x.part (e.1 / 2 ^ 16)

/-- Its translation: a fault goes back to the requester and drops the access, with the isolation event of a page that is not the
partition's (R91); a write makes its pages dirty (R96). -/
def State.placeFar (s : State) (t : Nat) (x : Txn) : State :=
  match x.far with
  | none => s
  | some f =>
    let w := x.op.role.write
    let l := virtPages x.op.parts
    let s := l.foldl (fun s e => s.countWalk x.part (e.1 / 2 ^ 16)) s
    let r : Except NoPage (List Part8) := l.mapM fun (e : Nat × Nat) =>
      match s.walk x.part (e.1 / 2 ^ 16) with
      | .ok p => if (!w || p.w) && !p.pt then .ok { at_ := .mem (p.frame * 2 ^ 16 + e.1 % 2 ^ 16), len := e.2, va := e.1 } else .error .absent
      | .error i => .error i
    match r with
    | .error .damaged => (s.dropTxn t).sendFab f.1 f.2.1 (.replyBad f.2.2)
    | .error i => ((s.isolate x.part i.frame).dropTxn t).sendFab f.1 f.2.1 (.replyFault f.2.2)
    | .ok p =>
      let s := if w then s.setD (l.map fun e => (x.part, e.1 / 2 ^ 16)) else s
      s.setTxn t { x with op := x.op.withParts p, core := nodeOfDie (homeDie (monitorKey s p)) 0 * 8 }

/-- The bytes that answer an access. -/
def Txn.answer (x : Txn) (d : Deliver) : List Byte :=
  match x.op with
  | .atom op _ _ => leBytes (atomBytes op) (d.vals.headD 0).toNat
  | .cas wide _ _ _ => leBytes (if wide then 8 else 4) (d.vals.headD 0).toNat
  | _ => x.data

/-- The answer to an access of another module: what it read, or that it is applied and visible on every die (R193). -/
def State.answerFar (s : State) (t : Nat) (x : Txn) (f : Nat × Nat × Nat) : State :=
  match x.stage with
  | .back d =>
    if s.xmsgs.any (·.ofTxn t) then s
    else (s.dropTxn t).sendFab f.1 f.2.1 (if x.op.role == .st || x.op.role == .rd then .ack f.2.2 d.flags else .reply f.2.2 (x.answer d))
  | .failed _ => (s.dropTxn t).sendFab f.1 f.2.1 (.replyBad f.2.2)
  | _ => s

/-- Whether a memory transaction can be served now. -/
def State.canServe (s : State) (t : Nat) (x : Txn) : Bool :=
  x.stage == .sent && s.inServer t x && (x.retried || (s.ordered t x && (x.away || s.upToDate t x))) && (!x.fab || x.away) && !s.busyPart x.op.parts x.op.role.write && !s.portBusy x &&
    !s.sbHeld t x && !s.matHeld x.op.parts &&
    (!x.op.role.write || (s.atHome t x && s.linkRoom x.op.parts))

/-- A place whose memory has an error-correcting code that may meet an error it cannot correct: SRAM, HBM4 or LPDDR6 (R42). -/
def coded (l : List Part8) : Bool := l.any fun p => match p.at_ with
  | .mem k => decide (k < 2 ^ 44) || (decide (2 ^ 52 ≤ k) && decide (k < 2 ^ 64))
  | .win .. => true
  | _ => false

/-- A read fails on data that cannot be corrected. -/
def State.failRead (s : State) (t : Nat) (x : Txn) (va : Nat) : State :=
  let tr : Trap := { kind := .uncorrectableData, addr := BitVec.ofNat 64 (match x.op with | .sched _ a => a.toNat | _ => va) }
  s.setTxn t { x with stage := .failed (recC s x tr) }

/-- The address of the first byte of an access. -/
def firstVa (l : List Part8) : Nat := (l.head?.map Part8.va).getD 0

/-- Lines of a read that a motion has copied: it reads them at the destination. -/
def State.copiedLines (s : State) (l : List Part8) : List Nat :=
  l.flatMap fun p => match p.at_ with
    | .mem k => if k < 2 ^ 51 then (linesOf k p.len).filterMap fun a => (s.copied a).filter fun d => !s.badAt d else []
    | _ => []

/-- What comes of a read in which its memory detects an error that it cannot correct: at the destination of a motion in COPYING the read
is served again from the source (R103); any other read fails. -/
def State.upsetRead (s : State) (how : ServeHow) (l : List Part8) : State × Bool :=
  if !(how == .damaged && coded l) then (s, false)
  else
    let c := s.copiedLines l
    ({ s with flaws := s.flaws ++ c }, c.isEmpty)

/-- Serve a read: its values start back, or a part of it has been read, or it fails on data it cannot correct. -/
def State.serveRead (s : State) (t : Nat) (x : Txn) (how : ServeHow := .whole) : State :=
  let h := s.upsetRead how x.op.parts
  let s := h.1
  match s.badPart x.op.parts with
  | some va => s.failRead t x va
  | none =>
    if h.2 then s.failRead t x (firstVa x.op.parts)
    else
      let d := dieOf x.core
      let now := x.unitsFor how
      let u := (s.countLines x.op.parts).learn x.issuer (s.aheadTags d)
      if now.length + x.unitsDone.length < x.units.length then
        let bs := s.allBytes d x.op.parts
        let got := now.foldl (fun g j => match x.units[j]? with
          | some e => ((bs.drop e.1).take e.2).zipIdx.foldl (fun g b => nset g (e.1 + b.2) b.1) g
          | none => g) x.got
        if now.isEmpty then s else u.setTxn t { x with unitsDone := x.unitsDone ++ now, got := got }
      else u.setTxn t { x with stage := .back (s.readValue x), data := match x.op with | .fabRead _ => s.readAll x | _ => x.data }

/-- A write that meets a lost CXL port fails at its issuer (R31). -/
def lostPart (s : State) (l : List Part8) : Option Nat :=
  (l.find? fun p => match p.at_ with
    | .mem k => decide (2 ^ 44 ≤ s.live k) && decide (s.live k < 2 ^ 51) && (nget {} s.cxl (s.live k / 2 ^ 42 % 4)).lost
    | _ => false).map Part8.va

/-- A write that fails at its home: on a lost CXL port (R31), or a reduction on a listed bad line: it reads the line, and the error goes to
its issuer as for any reader. DESIGN CHOICE (log entry 111): R41 names reads and full-line writes alone. -/
def State.badWrite (s : State) (o : Op) : Option Nat :=
  match lostPart s o.parts with
  | some va => some va
  | none => if o.role = .rd then s.badPart o.parts else none

/-- The messages that carry the writes of one transaction. -/
def State.tagsOfTxn (s : State) (t : Nat) : Clock := (s.xmsgs.filter (·.ofTxn t)).foldl (fun c m => c.join m.tag) Clock.zero

/-- End a write: acknowledged, its tagged arrival made. One of another module is acknowledged as it arrives (R193). -/
def State.endWrite (s : State) (t : Nat) (x : Txn) (fl : Word) : State :=
  if x.far.isSome then s.setTxn t { x with stage := .back { flags := fl } }
  else (((s.miss x).giveFlags x fl).dropTxn t).tagArrival x ((t :: x.kin).foldl (fun c u => c.join (s.tagsOfTxn u)) Clock.zero)

/-- The bytes that a reduction of one element leaves, from those at its home, with its flags. -/
def State.redBytes (s : State) (op : AtomOp) (l : List Part8) (v : Nat) : List Byte × Word :=
  let r := atomApply op (leNat (l.flatMap (s.partBytes (homeDie (monitorKey s l))))) v
  (leBytes (atomBytes op) r.1, r.2)
def State.redxBytes (s : State) (int : Bool) (l : List Part8) (v : Word) : List Byte × Word :=
  let cell : Cell576 := BitVec.ofNat 576 (leNat (l.flatMap (s.partBytes (homeDie (monitorKey s l)))))
  let r := if int then cellAddInt cell.toInt v.toInt else cellAdd32 cell.toInt (v.toNat % 2 ^ 32)
  (leBytes 72 (BitVec.ofInt 576 r.1).toNat, r.2)

/-- Apply the parts of a store that an event serves. -/
def State.serveStore (s : State) (t : Nat) (x : Txn) (l : List Part8) (bs : List Byte) (how : ServeHow) : State :=
  let now := x.unitsFor how
  if now.length = x.units.length then (s.applyParts (x.who t) l bs).endWrite t x 0
  else
    let s := now.foldl (fun s j => match x.units[j]? with
      | some e => s.applyParts (x.who t) (cutParts l e.1 e.2) ((bs.drop e.1).take e.2)
      | none => s) s
    if now.length + x.unitsDone.length < x.units.length then s.setTxn t { x with unitsDone := x.unitsDone ++ now }
    else
      -- the last part of a full-line store (R41, R183)
      (l.foldl (fun s p => match p.at_ with | .mem k => s.clearLines (s.live k) p.len | _ => s) s).endWrite t x 0

/-- The reply an earlier attempt of a transaction left in its link's window (R81, R204). -/
def State.cached (s : State) (t : Nat) (x : Txn) : Option Word :=
  match linkOf x x.op.parts with
  | none => none
  | some l => ((nget [] s.windows l).find? fun e => e.1 == x.tag t).map Prod.snd

/-- End a reduction with its flags; that of another module enters its tag, with the flags as its reply (R204). -/
def State.endRed (s : State) (t : Nat) (x : Txn) (fl : Word) : State :=
  (if x.far.isSome then s.cacheReply t x fl else s).endWrite t x fl

/-- Apply a store or a reduction at its home (R101, R292, R296, R297). A reduction of another module whose tag is present is not applied
again (R204). -/
def State.serveWrite (s : State) (t : Nat) (x : Txn) (how : ServeHow := .whole) : State :=
  match s.badWrite x.op, (if x.far.isSome && x.op.role == .rd then s.cached t x else none) with
  | _, some fl => s.endWrite t x fl
  | some va, none => s.failT t x (badRead s x va)
  | none, none =>
    let h := if x.op.role = .rd then s.upsetRead how x.op.parts else (s, false)
    let s := h.1
    let c := s.countLines x.op.parts true
    if h.2 then s.failT t x (badRead s x (firstVa x.op.parts))
    else match x.op with
    | .store l bs => c.serveStore t x l bs how
    | .red op l v =>
      let r := s.redBytes op l (v.toNat % 2 ^ (8 * atomBytes op))
      (c.applyParts (x.who t) l r.1).endRed t x r.2
    | .redx int l v =>
      let r := s.redxBytes int l v
      (c.applyParts (x.who t) l r.1).endRed t x r.2
    | _ => s

/-- Two reductions that wait for one address may be merged, unless the partition asks for a fixed order (R202, R203). -/
def State.mergeable (s : State) (x y : Txn) : Bool :=
  !(s.part x.part).budget.detred && !(s.part y.part).budget.detred &&
    (match x.op, y.op with
     | .red o l _, .red p m _ => o == p && l.map Part8.at_ == m.map Part8.at_
     | .redx a l _, .redx b m _ => a == b && l.map Part8.at_ == m.map Part8.at_
     | _, _ => false)

/-- The operand of a reduction. -/
def Op.redArg : Op → Word
  | .red _ _ v | .redx _ _ v => v
  | _ => 0

/-- Apply reductions as one: their operands are combined by the reduction's own operation, and the result is applied once; each issuer gets
the flags of the merged result (R202, R296). Cells add exactly, so their terms are added in turn (R297). A residue mismatch discards the
result, and every issuer gets UNCORRECTABLE_DATA (R43). -/
def State.serveMerged (s : State) (t : Nat) (x : Txn) (more : List (Nat × Txn)) (ok : Bool) : State :=
  let all_ := (t, x) :: more
  if !ok || (s.badWrite x.op).isSome then all_.foldl (fun s e => s.failT e.1 e.2 (badRead s e.2 (firstVa e.2.op.parts))) s
  else
    let c := s.countLines x.op.parts true
    let w : Who := { x.who t with also := more.map fun e => (e.2.issuer, e.1), strong := all_.any (·.2.ptype == 3) }
    match x.op with
    | .red op l v =>
      let n := 2 ^ (8 * atomBytes op)
      let m := more.foldl (fun (a : Nat × Word) e => let r := atomApply op a.1 (e.2.op.redArg.toNat % n); (r.1, a.2 ||| r.2)) (v.toNat % n, 0)
      let r := s.redBytes op l m.1
      all_.foldl (fun s e => s.endRed e.1 e.2 (m.2 ||| r.2)) (c.applyParts w l r.1)
    | .redx int l _ =>
      let r := all_.foldl (fun (a : State × Word) e =>
        let r := a.1.redxBytes int l e.2.op.redArg
        (a.1.applyParts w l r.1, a.2 ||| r.2)) (c, 0)
      all_.foldl (fun s e => s.endRed e.1 e.2 r.2) r.1
    | _ => s

/-- Stores of one process to a line of a write-combining page that wait behind one being applied are merged with it (R197). -/
def State.combine (s : State) (x : Txn) : State :=
  if x.ptype != 1 then s
  else
    s.txns.foldl (fun s e =>
      if e.2.issuer == x.issuer && e.2.ptype == 1 && e.2.op.role == .st && sharesLine x.op.parts e.2.op.parts && s.canServe e.1 e.2 then
        s.serveWrite e.1 e.2
      else s) s

/-- Execute an atomic once at the write queue (R204, R294, R295): its old value starts back. One that was applied already
returns the cached reply (R81). -/
def State.serveAtomic (s : State) (t : Nat) (x : Txn) : State :=
  match s.cached t x, s.badPart x.op.parts with
  | some w, _ => s.setTxn t { x with stage := .back { vals := [w], kept := match x.op with | .cas .. => [] | _ => [w] } }
  | none, some va => s.setTxn t { x with stage := .failed (badRead s x va) }
  | none, none =>
    let d := dieOf x.core
    let seen := (s.seenTags d x.op.parts true).join (s.aheadTags d)
    let c := (((s.countLines x.op.parts true).miss x).markSeen d x.op.parts).learn x.issuer seen
    let old (l : List Part8) : Nat := leNat (l.flatMap (s.partBytes (homeDie (monitorKey s l))))
    match x.op with
    | .atom op l v =>
      let a := old l
      let r := atomApply op a (v.toNat % 2 ^ (8 * atomBytes op))
      let w := atomPushed op a
      ((c.applyParts (x.who t) l (leBytes (atomBytes op) r.1)).cacheReply t x w).setTxn t
        { x with stage := .back { vals := [w], kept := [w], flags := r.2 } }
    | .cas wide l y z =>
      let n := if wide then 8 else 4
      let a := old l
      let w : Word := BitVec.ofNat 64 a
      let c := if a = y.toNat % 2 ^ (8 * n) then c.applyParts (x.who t) l (leBytes n (z.toNat % 2 ^ (8 * n))) else c
      (c.cacheReply t x w).setTxn t { x with stage := .back { vals := [w] } }
    | _ => s

/-- The compare and arm of a `waita`, one step at the home (R300). -/
def State.serveArm (s : State) (t : Nat) (x : Txn) (how : ServeHow := .whole) : State :=
  match x.op with
  | .waita wide l e =>
    let h := s.upsetRead how l
    let s := h.1.miss x
    match (if h.2 then some (firstVa l) else s.badPart l) with
    | some va => s.setTxn t { x with stage := .failed (badRead s x va) }
    | none =>
      let n := if wide then 8 else 4
      let key := monitorKey s l
      let d := dieOf x.core
      let seen := s.seenTags d l true
      let s := s.countLines l
      let back (w : Word) := s.setTxn t { x with stage := .back { vals := [w], kept := [w] } }
      if leNat (l.flatMap (s.partBytes (homeDie key))) != e.toNat % 2 ^ (8 * n) then
        -- an acquire read of the word (R201)
        (((s.markSeen d l).learn x.issuer seen).raiseFloor x.issuer seen).setTxn t { x with stage := .back { vals := [1], kept := [1] } }
      else
        match s.arm x.part { key := key, proc := x.issuer, txn := t, order := s.nextId } with
        | some s => ({ s with nextId := s.nextId + 1 }.setTxn t { x with stage := .waiting }).blockArmed x.issuer
        | none => back 2
  | _ => s

/-- A `wake` at its home. -/
def State.serveWake (s : State) (t : Nat) (x : Txn) : State :=
  match x.op with
  | .wake sc l n => (s.wakeAll x.part (monitorKey s l) sc x.core n (s.pastOf x.issuer t)).dropTxn t
  | _ => s

end Sys2Proof.Machine
end

