-- ==== Sys2Proof/Machine/Memory.lean ====
section
/-! DEFINITION. Loads, stores, prefetches, atomics, reductions, fences, waits on address and `sched` (R254, R291 to R302). -/

namespace Sys2Proof.Machine

/-- Append an operation to its unit's side log. -/
def State.logSide (s : State) (k : Nat) (e : SideEnt) : State :=
  match unitOf s k with
  | some u => let g := s.engine u; s.setEngine u { g with sideLog := g.sideLog ++ [e] }
  | none => s.modCore (s.proc k).core fun c => { c with sideLog := c.sideLog ++ [e] }

/-- The transaction of an access that has passed its checks. -/
def accessTxn (i : Issue) (a : Access) (op : Op) : Txn :=
  let x := { mkTxn a.st i op a.lat with ptype := a.ptype }
  match a.bad with
  | some va => { x with stage := .failed (badRead a.st x va) }
  | none => x

/-- The issuer of an access that the scoreboard holds is parked until the access proceeds (R161). -/
def State.holdAccess (s : State) (i : Issue) (a : Access) (t : Nat) : State :=
  if a.wait && i.pre.engine.isNone then
    s.modProc i.proc fun p => { p with st := if p.st = .running then .parked else p.st, hold := some (.access t i.sw) }
  else s

/-- A load has issued: hold it if need be, and raise a watch. -/
def State.afterLoad (s : State) (i : Issue) (a : Access) (t : Nat) : State :=
  (s.holdAccess i a t).watch i true false a.parts

/-- Issue a store or reduction that has passed its checks: on its way, held by the scoreboard, or retired into the side log
with a deferred record to the manager (R94). -/
def State.issueWrite (s : State) (i : Issue) (a : Access) (k : Acc5) (op : Op) (size : Nat) : State :=
  let t := s.nextTxn
  match a.logged with
  | none => (s.issueQuiet (accessTxn i a op)).holdAccess i a t
  | some vpn =>
    if a.bad.isSome then s.issueQuiet (accessTxn i a op)
    else
    let s := s.issueQuiet { accessTxn i a op with stage := .logged }
    let s := s.logSide i.proc { txn := t, part := partOf i.proc, vpn := vpn }
    let va := ((a.parts.find? fun p => match p.at_ with | .virt _ => true | _ => false).map Part8.va).getD 0
    s.deferToManager i.proc (pageFault k size va (partOf i.proc) none) i.loc i.bword

/-! ### Loads (R291) -/

/-- Bytes and extension of a load type. -/
def ldBytes : LdTy → Nat
  | .i8 | .n8 => 1 | .i16 | .n16 => 2 | .i32 | .n32 => 4 | .w64 => 8
def ldExt : LdTy → Ext
  | .i8 => .sign 1 | .i16 => .sign 2 | .i32 => .sign 4
  | .n8 => .zero 1 | .n16 => .zero 2 | .n32 => .zero 4 | .w64 => .zero 8

/-- A load of one value. -/
def loadOne (s : State) (i : Issue) (t : LdTy) (p : Word) (delta : Int) (k : Keep) : Except Abort State := do
  let a ← effAddr s i .scalar .load p delta (ldBytes t) false
  .ok ((a.st.issuePend i (accessTxn i a (.load a.parts (ldExt t))) k).afterLoad i a s.nextTxn)

/-- A 128-bit load: two slots. -/
def loadTwo (s : State) (i : Issue) (p : Word) (delta : Int) : Except Abort State := do
  let a ← effAddr s i .scalar .load p delta 16 false
  .ok ((a.st.issuePend2 i (accessTxn i a (.load2 a.parts)) none).afterLoad i a s.nextTxn)

def execLd (t : LdTy) (b : Src) (k : Keep) (d : BitVec 11) (s : State) := finish s do
  let i ← s.cur
  let p ← readSrc i b
  loadOne s i t p (d.toInt * ldBytes t) k

def execLd128 (b : Src) (d : BitVec 11) (s : State) := finish s do
  let i ← s.cur
  let p ← readSrc i b
  loadTwo s i p (d.toInt * 16)

/-- `ldx`: y counts elements of the access size (R285). -/
def execLdx (t : LdxTy) (x y : Src) (k : Keep) (s : State) := finish s do
  let i ← s.cur
  let p ← readSrc i x
  let n ← readSrc i y
  match t with
  | .ty t => loadOne s i t p (n.toInt * ldBytes t) k
  | .w128 => loadTwo s i p (n.toInt * 16)

/-! ### Stores (R292) -/

def stBytes : StTy → Nat
  | .w8 => 1 | .w16 => 2 | .w32 => 4 | .w64 => 8

/-- A scalar store of the low bytes of a value. -/
def storeOne (s : State) (i : Issue) (t : StTy) (p : Word) (delta : Int) (v : Word) : Except Abort State := do
  let n := stBytes t
  let a ← effAddr s i .scalar .store p delta n false
  .ok ((a.st.issueWrite i a .store (.store a.parts (leBytes n v.toNat)) n).watch i false true a.parts)

def execSt (t : StTy) (b y : Src) (d : BitVec 11) (s : State) := finish s do
  let i ← s.cur
  let p ← readSrc i b
  let v ← readSrc i y
  storeOne s i t p (d.toInt * stBytes t) v

def execStx (t : StTy) (x y z : Src) (s : State) := finish s do
  let i ← s.cur
  let p ← readSrc i x
  let n ← readSrc i y
  let v ← readSrc i z
  storeOne s i t p (n.toInt * stBytes t) v

/-! ### Prefetch (R293): no effect that this state holds, and no fault but an unready base -/

def prefetch (s : State) (b : Src) : Except Abort State := do
  let i ← s.cur
  let _ ← readSrc i b
  .ok s
def execPrfR (b : Src) (_d : BitVec 11) (s : State) := finish s (prefetch s b)
def execPrfW (b : Src) (_d : BitVec 11) (s : State) := finish s (prefetch s b)

/-! ### Atomics and reductions (R294 to R298) -/

def execAtom (op : AtomOp) (x y : Src) (k : Keep) (s : State) := finish s do
  let i ← s.cur
  let p ← readSrc i x
  let v ← readSrc i y
  let a ← effAddr s i .atom .atomic p 0 (atomBytes op) true
  .ok (((a.st.issuePend i (accessTxn i a (.atom op a.parts v)) k).holdAccess i a s.nextTxn).watch i true true a.parts)

def execAtomCas (wide : Bool) (x y z : Src) (s : State) := finish s do
  let i ← s.cur
  let p ← readSrc i x
  let v ← readSrc i y
  let w ← readSrc i z
  let a ← effAddr s i .atom .atomic p 0 (if wide then 8 else 4) true
  .ok (((a.st.issuePend i (accessTxn i a (.cas wide a.parts v w)) none).holdAccess i a s.nextTxn).watch i true true a.parts)

def execRed (op : AtomOp) (x y : Src) (s : State) := finish s do
  let i ← s.cur
  let p ← readSrc i x
  let v ← readSrc i y
  let a ← effAddr s i .atom .reduction p 0 (atomBytes op) true
  .ok ((a.st.issueWrite i a .reduction (.red op a.parts v) (atomBytes op)).watch i true true a.parts)

/-- `redx`: a 72 B cell, 8-aligned and within one page (R297). -/
def execRedx (int : Bool) (x y : Src) (s : State) := finish s do
  let i ← s.cur
  let p ← readSrc i x
  let v ← readSrc i y
  check (pOff p % 8 == 0 && decide (pOff p % 2 ^ 16 + 72 ≤ 2 ^ 16)) { kind := .illegalOperand, addr := p }
  let a ← effAddr s i .redx .reduction p 0 72 false
  .ok ((a.st.issueWrite i a .reduction (.redx int a.parts v) 72).watch i true true a.parts)

/-! ### Fences (R187, R299) -/

/-- A fence stands between the accesses issued before and after it. Earlier fences are forgotten once nothing of the issuer is
outstanding or on its way to another die; what their acquires bring then stands in `floor`. -/
def State.addFence (s : State) (k : Nat) (kind : FenceKind) (sc : Scope) : State :=
  let idle := (s.txns.all fun e => e.2.issuer != k || e.2.performed) && s.xmsgs.all fun m => !m.below k s.nextTxn
  s.modProc k fun p =>
    { p with
      floor := if idle && p.fences.any fun f => f.kind != .rel && wideScope f.scope then p.floor.join p.know else p.floor
      fences := (if idle then [] else p.fences) ++ [{ kind := kind, scope := sc, stamp := s.nextTxn }] }

def execFence (k : FenceKind) (sc : Scope) (s : State) := finish s do
  let i ← s.cur
  .ok (s.addFence i.proc k sc)

/-! ### Waits on address (R300 to R302) -/

def execWaita (wide : Bool) (x y : Src) (k : Keep) (s : State) := finish s do
  let i ← s.cur
  let p ← readSrc i x
  let v ← readSrc i y
  let a ← effAddr s i .waita .load p 0 (if wide then 8 else 4) true
  .ok (a.st.issuePend i (accessTxn i a (.waita wide a.parts v)) k)

def execWake (sc : Scope) (x y : Src) (s : State) := finish s do
  let i ← s.cur
  let p ← readSrc i x
  let n ← readSrc i y
  let a ← effAddr s i .waita .load p 0 8 true
  .ok ((a.st.addFence i.proc .rel sc).issueQuiet (accessTxn i a (.wake sc a.parts n.toNat)))

/-! ### Schedule tables (R139, R254) -/

/-- `sched`: the entry at the cursor, which steps at issue; 0 at the end of the table. A read that cannot complete fails in
class C with the entry's address. -/
def execSched (k : Keep) (s : State) := finish s do
  let i ← s.cur
  if i.pre.schedLen ≤ i.pre.schedCur then .ok (s.pushLater i 0 0 k 100)
  else
    let va := i.pre.schedBase + BitVec.ofNat 64 (8 * i.pre.schedCur)
    let s := s.modProc i.proc fun p => { p with schedCur := p.schedCur + 1 }
    let part := partOf i.proc
    let r := s.lookup i.pre.core part (pOff va / 2 ^ 16)
    if s.unitBusy none i.pre.core part (pOff va / 2 ^ 16) then .error .wait
    else match r.2 with
    | .ok e =>
      let key := e.frame * 2 ^ 16 + pOff va % 2 ^ 16
      .ok (r.1.issuePend i (mkTxn r.1 i (.sched [{ at_ := .mem key, len := 8, va := pOff va }] va)
        (latency i.pre.core key)) k)
    | .error f =>
      let s := r.1.isolate part f.frame
      let x := mkTxn s i (.sched [] va) 100
      let tr : Trap := if f = .damaged then { kind := .uncorrectableData, addr := va } else { kind := .pageFault, addr := va, e5 := 0x801 }
      .ok (s.issuePend i { x with stage := .failed (recC s x tr) } k)

/-! ### Arrival and service (events) -/

/-- Return what a transaction holds of the machine when it ends: its power token. -/
def State.settleTxn (s : State) (x : Txn) : State := if x.token then s.giveToken x.core else s

/-- PENDING_RESULT_ARRIVAL (R149, R150, R151, R242): values fill what the word reserved; what an engine operation reads of another module
waits for its engine; a failure goes to the issuer in
class C; a transaction whose values are already known arrives as it is. -/
def State.arrive (s : State) (t : Nat) : State :=
  match nget? s.txns t with
  | none => s
  | some x =>
    match x.far with
    | some f => s.answerFar t x f
    | none =>
    if s.fromEngine x then s
    else
    match x.stage with
    | .back d =>
      let s := ((if x.op.role = .ld then s.miss x else s).uncache t x).settleTxn x
      let on := s.blockedOn x
      let s := (s.deliver t x d).dropTxn t
      if on then s.ready x.issuer false else s
    | .failed r =>
      let on := s.blockedOn x
      let s := ((s.uncache t x).settleTxn x).failC t x r
      let s := s.dropTxn t
      let s := if on then s.ready x.issuer false else s
      s.unpark x.issuer
    | .sent =>
      match x.op with
      | .value d => (((s.settleTxn x).deliver t x d).dropTxn t)
      | _ => s
    | _ => s

/-- A read of a scratchpad, a window, another module or host memory is served where it arrives (R298); one of device memory
waits for its home's memory server. -/
def Op.direct (o : Op) : Bool := o.parts.all fun p => match p.at_ with | .mem k => decide (2 ^ 51 ≤ k) | _ => true

/-- HOME_WRITE_APPLY (R101, R184, R192, R197, R202): a store or reduction sets out for a home on another die; once it is there it is
applied: whole, in parts, or merged with another that waits. Register windows have an event of their own. -/
def execHomeWriteApply (v : Service) (s : State) : Host.Outcome State Fault Refusal :=
  match nget? s.txns v.txn with
  | none => .next s
  | some x =>
    let win := x.op.parts.any fun p => match p.at_ with | .win .. => true | _ => false
    if !(x.op.role == .st || x.op.role == .rd) || win then .next s
    else if s.canServe v.txn x then
      match v.how with
      | .merged l ok =>
        if x.op.role = .st then .next ((s.serveWrite v.txn x).combine x)
        else
          let more := (l.eraseDups.filter (· != v.txn)).filterMap fun u => (nget? s.txns u).map fun y => (u, y)
          if more ≠ [] ∧ more.all fun e => s.canServe e.1 e.2 && s.mergeable x e.2 then .next (s.serveMerged v.txn x more ok) else .next s
      | _ => .next (s.serveWrite v.txn x v.how)
    else if s.canSend v.txn x then .next (s.setOut v.txn x)
    else if s.canPlace x then .next (s.placeFar v.txn x)
    else if s.canEnter v.txn x then .next (s.enter v.txn x)
    else .next s

/-- HOME_ATOMIC_APPLY (R192, R204): an atomic sets out for a home on another die; it is executed once there; for a tag already in
the window, the cached reply goes back again. -/
def execHomeAtomicApply (v : Service) (s : State) : Host.Outcome State Fault Refusal :=
  match nget? s.txns v.txn with
  | none => .next s
  | some x =>
    if x.op.role ≠ .at_ then .next s
    else if s.canServe v.txn x then
      let h := if (s.cached v.txn x).isNone then s.upsetRead v.how x.op.parts else (s, false)
      if h.2 then .next (h.1.failRead v.txn x (firstVa x.op.parts)) else .next (h.1.serveAtomic v.txn x)
    else if s.canSend v.txn x then .next (s.setOut v.txn x)
    else if s.canPlace x then .next (s.placeFar v.txn x)
    else if s.canEnter v.txn x then .next (s.enter v.txn x)
    else .next s

/-- A window write lands at the next issue turn of a target that holds a context, before the target's own word issues there; in the
register image of one that is switched out, at once (R166). -/
def landable (s : State) (l : List Part8) : Bool :=
  l.all fun p => match p.at_ with
    | .win k _ =>
      (nget? s.procs k).isSome &&
        (match (s.proc k).ctx with
          | some j => (s.proc k).st == .exited || (s.cycle % 8 == j && decide (s.turnCore ≤ (s.proc k).core))
          | none => true)
    | _ => true

/-- WINDOW_WRITE_LAND (R166): a register-window write reaches its target, unless the target has exited meanwhile. -/
def execWindowWriteLand (t : Nat) (s : State) : Host.Outcome State Fault Refusal :=
  match nget? s.txns t with
  | none => .next s
  | some x =>
    let gone := x.op.parts.any fun p => match p.at_ with | .win k _ => (s.proc k).st == .exited | _ => false
    let win := x.op.parts.any fun p => match p.at_ with | .win .. => true | _ => false
    if !win || x.op.role != .st then .next s
    else if s.canServe t x ∧ landable s x.op.parts then
      if gone then .next (s.dropTxn t) else .next (s.serveWrite t x)
    else if s.canSend t x then .next (s.setOut t x)
    else .next s

/-- HELD_ACCESS_PROCEED (R161): the overlapping operations have retired, and the process issues again. -/
def execHeldAccessProceed (k : Nat) (s : State) : Host.Outcome State Fault Refusal :=
  match (s.proc k).hold with
  | some (.access t sw) =>
    let held := match nget? s.txns t with | some x => s.sbHeld t x | none => false
    if held then .next s
    else if sw && (s.proc k).out != [] then .next (s.modProc k fun p => { p with hold := some .results })
    else .next (s.release k)
  | some .sideLog => if (s.sideLogOf k).length < 64 then .next (s.release k) else .next s
  | _ => .next s

/-- CROSS_DIE_MESSAGE_APPLY (R192): the oldest unapplied message of `src` at a die, once its tag allows. -/
def execCrossDieMessageApply (d src : Nat) (s : State) : Host.Outcome State Fault Refusal :=
  match findAt (fun m : XMsg => m.src == src && m.waiting.contains d) s.xmsgs with
  | none => .next s
  | some (_, m) =>
    let v := (s.die d).clock
    if clk m.tag src = clk v src + 1 ∧ [0, 1, 2, 3].all fun e => e == src || decide (clk m.tag e ≤ clk v e) then
      let c := Vector.ofFn fun e : Fin 4 => if e.val = src then clk m.tag src else clk v e.val
      let q := s.die d
      let s := s.setDie d { q with clock := c }
      .next { s with xmsgs := (s.xmsgs.map fun n =>
                if n == m then { n with waiting := n.waiting.filter (· != d) } else n).filter fun n => !n.waiting.isEmpty }
    else .next s

end Sys2Proof.Machine
end

