-- ==== Sys2Proof/Machine/Sync.lean ====
section
/-! DEFINITION. Phases (R140 to R142, R200, R303, R379) and time (R74, R304). -/

namespace Sys2Proof.Machine

/-! ### Phase counters (R140 to R142, R379) -/

/-- A destination whose counter this slot's own instance holds here. -/
def ownDest (s : State) (part : Nat) (d : PDest) : Bool := d.module == s.moduleId && d.part == part && d.net == 0

/-- The slot's line is high: every counter of the partition for it on this package is zero (R141). -/
def Phase.high (f : Phase) (s : State) (part : Nat) : Bool := f.dests.all fun d => !ownDest s part d || d.counter == 0

def State.phase? (s : State) (part slot : Nat) : Option Phase := nget? (s.part part).phases slot
def State.setPhase (s : State) (part slot : Nat) (f : Phase) : State :=
  s.modPart part fun q => { q with phases := nset q.phases slot f }

/-- The counter of a destination in another instance: the first local destination of the slot's holder (R142, R379). -/
def State.foreign (s : State) (part slot net : Nat) : Option Nat :=
  match s.phase? part slot with
  | none => none
  | some f => if net = 0 ∨ f.holder = net then (findAt (fun d : PDest => ownDest s part d) f.dests).map Prod.fst else none

/-- Change one counter of a slot. -/
def Phase.count (f : Phase) (i : Nat) (g : Nat → Nat) : Phase :=
  { f with dests := f.dests.zipIdx.map fun e => if e.2 = i then { e.1 with counter := g e.1.counter } else e.1 }

/-- Load the counter of another instance or module with a header's COUNT: it sets and never adds (R379). -/
def State.loadForeign (s : State) (part slot : Nat) (d : PDest) : State :=
  if d.module != s.moduleId then s.sendFab d.module d.part (.phaseLoad d.part slot d.count s.moduleId part)
  else
    match s.foreign d.part slot d.net, s.phase? d.part slot with
    | some i, some f => s.setPhase d.part slot (f.count i fun _ => d.count)
    | _, _ => s

/-- Load every counter of a slot from its header (R140, R303). -/
def State.loadPhase (s : State) (part slot : Nat) : State :=
  match s.phase? part slot with
  | none => s
  | some f =>
    let s := s.setPhase part slot
      { f with dests := f.dests.map fun d => if ownDest s part d then { d with counter := d.count } else d
               far := false }
    f.dests.foldl (fun s d => if ownDest s part d then s else s.loadForeign part slot d) s

/-- The scope of the acquire of a return on a slot's line: that of the arrivals of the round (R200). -/
def Phase.scope (f : Phase) : Scope := if f.far then .fab else .pkg

/-- The line has risen: every process in `pwait` or `phase` is released as after an acquire, then the counters are reloaded
once if one of them is in `phase` (R141, R200). -/
def State.riseLine (s : State) (part slot : Nat) : State :=
  match s.phase? part slot with
  | none => s
  | some f =>
    if !f.high s part || f.waiters.isEmpty then s
    else
      let s := s.setPhase part slot { f with waiters := [] }
      let s := f.waiters.foldl (fun s w => ((s.addFence w.1 .acq f.scope).raiseFloor w.1 f.clock).ready w.1 false) s
      if f.waiters.any Prod.snd then s.loadPhase part slot else s

/-- Take one from a local counter; none where it stands at zero (R140). What happens before the arrival happens before every
return on the line (R200). -/
def State.countDown (s : State) (part slot i : Nat) (past : Clock) : Option State :=
  match s.phase? part slot with
  | none => none
  | some f =>
    match f.dests[i]? with
    | none => none
    | some d =>
      if d.counter = 0 then none else some ((s.setPhase part slot { f.count i fun n => n - 1 with clock := f.clock.join past }).riseLine part slot)

/-- An arrival goes to another module, which answers whether it was counted (R141, R379). -/
def State.sendArrival (s : State) (part slot : Nat) (d : PDest) (who : Txn) : State :=
  let a : FarArrival := { proc := ownerOf who.issuer, loc := who.loc, bword := who.bword, module := d.module, part := d.part }
  let n := s.nextId
  ({ s with farArr := nset s.farArr n a, nextId := n + 1 }).sendFab d.module d.part (.arrival d.part slot s.moduleId part n)

/-- An arrival of a transaction's word reaches destination `dest` of a slot of a partition; none where it overruns here. -/
def State.arriveAt (s : State) (part slot dest : Nat) (past : Clock) (who : Txn) : Option State :=
  match s.phase? part slot with
  | none => none
  | some f =>
    match f.dests[dest]? with
    | none => none
    | some d =>
      if ownDest s part d then s.countDown part slot dest past
      else if d.module != s.moduleId then some (s.sendArrival part slot d who)
      else
        match s.foreign d.part slot d.net with
        | none => none
        | some i => s.countDown d.part slot i past

/-- PHASE_ARRIVAL_COUNT (R140): an arrival whose earlier accesses are done is counted, or dropped with PHASE_OVERRUN. -/
def execPhaseArrivalCount (t : Nat) (s : State) : Host.Outcome State Fault Refusal :=
  match nget? s.txns t with
  | none => .next s
  | some x =>
    match x.op with
    | .arrive slot dest =>
      if x.stage != .sent || s.frozen x || (!x.started && !s.ordered t x) then .next s
      else
        let past := if x.started then x.clock else s.pastOf x.issuer t
        let s := s.dropTxn t
        -- a slot that another instance holds by now has no counter of the issuer's (R142)
        let mine := match s.phase? x.part slot with | some f => f.holder == x.inst | none => false
        match (if mine then s.arriveAt x.part slot dest past x else none) with
        | some s => .next s
        | none => .next (s.deferRec (ownerOf x.issuer) { kind := .phaseOverrun } x.loc x.bword)
    | _ => .next s

/-- REMOTE_PHASE_LOAD (R379): a load from another module, or nothing where no instance qualifies. -/
def execRemotePhaseLoad (part slot count : Nat) (s : State) : Host.Outcome State Fault Refusal :=
  match s.foreign part slot 0, s.phase? part slot with
  | some i, some f => .next ((s.setPhase part slot (f.count i fun _ => count)).riseLine part slot)
  | _, _ => .next s

/-! ### The phase forms (R303) -/

/-- The issuer's network record carries a header for the slot, whose entry its instance holds. -/
def heldPhase (s : State) (i : Issue) (slot : Nat) : Except Abort Phase :=
  let v := s.inst i.pre.inst
  let has := match nget? s.objs v.obj with | some o => o.img.phases.any fun h => h.slot == slot | none => false
  match s.phase? (partOf i.proc) slot with
  | some f => if has && f.holder == i.pre.inst then .ok f else .error (.trap { kind := .illegalOperand })
  | none => .error (.trap { kind := .illegalOperand })

/-- `arrive`: a release fence, then one arrival that does not block. -/
def execArrive (t : BitVec 4) (d : BitVec 3) (s : State) := finish s do
  let i ← s.cur
  let f ← heldPhase s i t.toNat
  check (decide (d.toNat < f.dests.length)) { kind := .illegalOperand }
  let far := match f.dests[d.toNat]? with | some e => e.module != s.moduleId | none => false
  let s := s.addFence i.proc .rel (if far then .fab else .pkg)
  .ok (s.issueQuiet (mkTxn s i (.arrive t.toNat d.toNat) 16))

/-- `pwait` and `phase`: return on a high line, else wait for it. -/
def waitLine (s : State) (slot : Nat) (reload : Bool) : Except Abort State := do
  let i ← s.cur
  let f ← heldPhase s i slot
  if f.high s (partOf i.proc) then
    let s := (s.addFence i.proc .acq f.scope).raiseFloor i.proc f.clock
    .ok (if reload then s.loadPhase (partOf i.proc) slot else s)
  else
    let s := s.setPhase (partOf i.proc) slot { f with waiters := f.waiters ++ [(i.proc, reload)] }
    .ok (s.block i.proc (if reload then .phase else .pwait) (BitVec.ofNat 32 slot) 0)
def execPwait (t : BitVec 4) (s : State) := finish s (waitLine s t.toNat false)
def execPhase (t : BitVec 4) (s : State) := finish s (waitLine s t.toNat true)

/-! ### Time (R304) -/

def execTime (k : Keep) (s : State) := finish s do
  let i ← s.cur
  .ok (s.push i (virtualTime s (partOf i.proc)) k)

def execWaitt (x : Src) (s : State) := finish s do
  let i ← s.cur
  let d ← readSrc i x
  if d.toNat ≤ (virtualTime s (partOf i.proc)).toNat then .ok s else .ok (s.block i.proc .timed 0 d)

end Sys2Proof.Machine
end

