-- ==== Sys2Proof/Machine/Buffers.lean ====
section
/-! DEFINITION. Scratchpad buffers and the range scoreboard (R161 to R164) and their forms (R317 to R319). -/

namespace Sys2Proof.Machine

/-! ### Events of a buffer (Table 7.6, R164) -/

/-- FULL or DRAINING slots of a ring. -/
def Buf.used (b : Buf) : Nat := b.nslot - b.free - (if b.fills then 1 else 0)

/-- The state of a linear buffer, or of the ring slot at HEAD. -/
def Buf.headState (b : Buf) : BState := if b.ring then b.slotState b.head else b.state

/-- An incoming transfer starts. -/
def Buf.inStart (b : Buf) : Option Buf :=
  if b.ring then
    if b.fills then some b else if b.free = 0 then none else some { b with free := b.free - 1, fills := true, landed := 0 }
  else match b.state with
    | .empty => some { b with state := .filling, landed := 0 }
    | .filling => some b
    | _ => none

/-- The filling buffer or slot becomes FULL. -/
def Buf.filled (b : Buf) : Buf :=
  if b.ring then { b with fills := false, tail := (b.tail + 1) % b.nslot, landed := 0 }
  else { b with state := .full, landed := 0 }

/-- `n` bytes of an incoming transfer have landed. -/
def Buf.land (b : Buf) (n : Nat) : Buf :=
  if (if b.ring then b.fills else b.state == .filling) then
    if b.slot ≤ b.landed + n then b.filled else { b with landed := b.landed + n }
  else b

/-- The head slot, or the buffer, becomes EMPTY. -/
def Buf.emptied (b : Buf) : Buf :=
  if b.ring then { b with drains := false, head := (b.head + 1) % b.nslot, free := b.free + 1 }
  else { b with state := .empty, landed := 0 }

/-- An outgoing transfer starts. -/
def Buf.outStart (b : Buf) : Option Buf :=
  if b.headState = .full then some (if b.ring then { b with drains := true } else { b with state := .draining }) else none

/-- An outgoing transfer completes. -/
def Buf.outDone (b : Buf) : Buf := if b.headState = .draining then b.emptied else b

/-- `bstate.open`. -/
def Buf.opened (b : Buf) : Option Buf :=
  if b.ring then if b.fills then none else b.inStart else if b.state = .empty then b.inStart else none

/-- `bstate.seal`; `busy`: an incoming transfer is in flight. -/
def Buf.sealed (b : Buf) (busy : Bool) : Option Buf :=
  if (if b.ring then b.fills else b.state == .filling) && !busy then some b.filled else none

/-- `bstate.rel`; `busy`: an outgoing transfer is in flight. -/
def Buf.released (b : Buf) (busy : Bool) : Option Buf :=
  match b.headState with
  | .full => some b.emptied
  | .draining => if busy then none else some b.emptied
  | _ => none

/-! ### Buffers and entries of a core -/

/-- The declared buffer that holds an offset. -/
def Core.bufAt (c : Core) (off : Nat) : Option (Nat × Buf) :=
  c.bufs.find? fun e => decide (e.2.base ≤ off) && decide (off < e.2.base + e.2.size)

/-- A transfer in one direction is in flight on a buffer. -/
def Core.busy (c : Core) (b : Buf) (incoming : Bool) : Bool :=
  c.sb.any fun e => e.incoming == incoming && overlap e.lo e.len b.base b.size

/-- Start a transfer on a range: the buffers it touches change state, or none does (BUFFER_STATE). -/
def Core.startRange (c : Core) (incoming : Bool) (lo len : Nat) : Option Core :=
  c.bufs.foldlM (fun c e =>
    if overlap lo len e.2.base e.2.size then
      (if incoming then e.2.inStart else e.2.outStart).map fun b => { c with bufs := nset c.bufs e.1 b }
    else some c) c

/-- Enter a range of a transfer. -/
def Core.enter (c : Core) (t : Nat) (incoming : Bool) (lo len : Nat) (own : Bool) (quiet : Bool := false) : Core :=
  { c with sb := c.sb ++ [{ txn := t, lo := lo, len := len, incoming := incoming, own := own, quiet := quiet }] }

/-- A free entry of the 128 of the scoreboard (R161). -/
def Core.sbRoom (c : Core) (n : Nat) : Bool := decide ((c.sb.filter SbEnt.own).length + n ≤ 128)

/-- A range of transaction `t` has retired: bytes landed, or the outgoing buffer emptied; the entry goes. -/
def Core.retire (c : Core) (t : Nat) (incoming : Bool) (lo len : Nat) : Core :=
  let c := { c with sb := dropFirst (fun e => e.txn == t && e.incoming == incoming && e.lo == lo && e.len == len) c.sb }
  let c := { c with
    bufs := c.bufs.map fun (e : Nat × Buf) =>
      if overlap lo len e.2.base e.2.size then
        (e.1, if incoming then e.2.land (min (lo + len) (e.2.base + e.2.size) - max lo e.2.base) else e.2.outDone)
      else e }
  { c with bufs := c.bufs.filter fun e => e.2.owner != 0 || c.inFlight e.2.base e.2.size }

/-- The word of Table 14.14. -/
def Buf.word (b : Buf) (idx : Nat) : Word :=
  let st := match b.headState with | .empty => 0 | .filling => 1 | .full => 2 | .draining => 3
  let ring := if b.ring then b.head * 2 ^ 56 + b.tail * 2 ^ 48 + b.free * 2 ^ 40 + b.nslot * 2 ^ 32 + 2 ^ 29 else 2 ^ 32
  BitVec.ofNat 64 (ring + st * 2 ^ 30 + (if b.fills then 2 ^ 28 else 0) + (if b.drains then 2 ^ 27 else 0) + idx * 2 ^ 18
    + b.landed)

/-- End the waits of `bquery.w` on buffers of a core that are FULL now (R319). -/
def State.pokeBufs (s : State) (core : Nat) : State :=
  (s.txns.filter fun e => e.2.core == core).foldl (fun s e =>
    match e.2.op, e.2.stage with
    | .bqueryW j, .waiting =>
      match nget? (s.core core).bufs j with
      | some b =>
        if b.headState = .full then
          ((s.deliver e.1 e.2 { vals := [b.word j], kept := [b.word j] }).dropTxn e.1).ready e.2.issuer false
        else s
      | none => s
    | _, _ => s) s

/-- Retire a range on a core, with what waits for it. -/
def State.retire (s : State) (core t : Nat) (incoming : Bool) (lo len : Nat) : State :=
  ((s.modCore core fun c => c.retire t incoming lo len).breakQueries core).pokeBufs core

/-! ### bdecl (R162, R317) -/

/-- Lowest free descriptor index. -/
def Core.freeBuf (c : Core) : Nat := nfree c.bufs 65 0

def declare (s : State) (x : Src) (y : Src) (slot : Issue → Except Abort (Option Word)) : Except Abort State := do
  let i ← s.cur
  let p ← readSrc i x
  let n ← readSrc i y
  let z ← slot i
  let c := s.core i.pre.core
  let base := pOff p
  let size := n.toNat
  let sl := match z with | some w => w.toNat | none => size
  let bad : Trap := { kind := .illegalOperand, addr := p }
  check (pSpace p == 2) bad
  check (decide (c.freeBuf < 64)) bad
  check (base % 16 == 0 && size % 16 == 0 && size != 0) bad
  check (sl != 0 && sl % 16 == 0 && size % sl == 0 && decide (size / sl ≤ 255)) bad
  check (!c.bufs.any fun e => overlap base size e.2.base e.2.size) bad
  check (decide (base + size ≤ 0x3F800)) { kind := .spaceInvalid, addr := p }
  let j := c.freeBuf
  let b : Buf := { owner := i.proc, ring := z.isSome, base := base, size := size, slot := sl, free := size / sl
                   nslot := size / sl }
  .ok ((s.modCore i.pre.core fun c => { c with bufs := nset c.bufs j b }).push i (BitVec.ofNat 64 j) none)

def execBdeclLin (x y : Src) (s : State) := finish s (declare s x y fun _ => .ok none)
def execBdeclRing (x y z : Src) (s : State) := finish s (declare s x y fun i => (readSrc i z).map some)

/-! ### bstate and bquery (R318, R319) -/

/-- The buffer that a pointer lies in. -/
def ptrBuf (s : State) (i : Issue) (p : Word) : Except Abort (Nat × Buf) :=
  match (if pSpace p = 2 then (s.core i.pre.core).bufAt (pOff p) else none) with
  | some e => .ok e
  | none => .error (.trap { kind := .illegalOperand, addr := p })

def bstate (s : State) (x : Src) (f : Core → Buf → Option Buf) : Except Abort State := do
  let i ← s.cur
  let p ← readSrc i x
  let (j, b) ← ptrBuf s i p
  check (b.owner == i.proc) { kind := .illegalOperand, addr := p }
  match f (s.core i.pre.core) b with
  | none => .error (.trap { kind := .bufferState, addr := p })
  | some b => .ok ((s.modCore i.pre.core fun c => { c with bufs := nset c.bufs j b }).pokeBufs i.pre.core)

def execBstateOpen (x : Src) (s : State) := finish s (bstate s x fun _ b => b.opened)
def execBstateSeal (x : Src) (s : State) := finish s (bstate s x fun c b => b.sealed (c.busy b true))
def execBstateRel (x : Src) (s : State) := finish s (bstate s x fun c b => b.released (c.busy b false))

def execBquery (x : Src) (k : Keep) (s : State) := finish s do
  let i ← s.cur
  let p ← readSrc i x
  let (j, b) ← ptrBuf s i p
  .ok (s.push i (b.word j) k)

def execBqueryW (x : Src) (k : Keep) (s : State) := finish s do
  let i ← s.cur
  let p ← readSrc i x
  let (j, b) ← ptrBuf s i p
  if b.headState = .full then .ok (s.pushLater i (b.word j) 0 k 12)
  else
    let t := { mkTxn s i (.bqueryW j) 0 with stage := .waiting }
    .ok ((s.issuePend i t k).block i.proc .buffer (BitVec.ofNat 32 j) 0)

end Sys2Proof.Machine
end

