-- ==== Sys2Proof/Machine/Channels.lean ====
section
/-! DEFINITION. Channels (R123 to R131, R308 to R316): issue of their forms, the match at HOME, landing, timeouts, guards and
rebinding; and the processes that `spawn` starts and `exit` ends (R305, R306). -/

namespace Sys2Proof.Machine

/-! ### Types and handles (R123, R308) -/

def tyTile (w : Nat) : Bool := bits w 15 15 == 1

/-- Step 1 of R308. -/
def chanFind (s : State) (i : Issue) (h : Word) : Except Abort (Nat × Chan) :=
  match (if h.toNat < 2 ^ 32 then s.chan? (partOf i.proc) (h.toNat % 2 ^ 24) else none) with
  | some c => .ok (h.toNat % 2 ^ 24, c)
  | none => .error (.trap { kind := .illegalOperand, addr := h })

/-- The type index of a handle fits its channel (step 2 of R308). -/
def chanIndex (c : Chan) (h : Word) : Bool := bits h.toNat 30 24 == c.ty

def badType (h : Word) : Trap := { kind := .channelType, other := h.setWidth 32 }

/-- Steps 1 to 3 of R308 for a transfer. -/
def chanCheck (s : State) (i : Issue) (h : Word) (rx tile : Bool) : Except Abort (Nat × Chan) := do
  let (ch, c) ← chanFind s i h
  check (chanIndex c h && (bits h.toNat 31 31 == 1) == rx && tyTile (chanTy s (partOf i.proc) c) == tile) (badType h)
  check (!rx || c.rxproc == ownerOf i.proc) (badType h)
  check (if rx then c.bkind != 2 && c.bkind != 4 else c.bkind != 3) (badType h)
  check (c.bkind != 1 || tile) (badType h)
  .ok (ch, c)

/-- Step 4 of R308. -/
def chanOpen (s : State) (c : Chan) (h : Word) (rx : Bool) : Except Abort Unit :=
  check (if rx then !s.ranDry c else c.rxopen) { kind := .channelClosed, other := h.setWidth 32 }

/-! ### Room, messages and reservations (R114, R129, R131) -/

/-- Reservations of processes other than `k`. -/
def others (l : List Nat) (k : Nat) : Nat := (l.filter (· != k)).length

/-- A buffered message that `k` may take. -/
def Chan.hasMsg (c : Chan) (k : Nat) : Bool := decide (others c.resvRx k < c.msgs.length)
/-- A slot that `k` may fill. -/
def Chan.hasRoom (c : Chan) (k : Nat) : Bool := decide (c.msgs.length + others c.resvTx k < c.depth)
/-- A blocked receiver of a depth-0 channel that `k` may match. -/
def Chan.hasReceiver (c : Chan) (k : Nat) : Bool := decide (others c.resvTx k < c.recvq.length)
/-- A blocked sender that `k` may match. -/
def Chan.hasSender (c : Chan) (k : Nat) : Bool := decide (others c.resvRx k < c.sendq.length)

/-- Hold a message, slot or partner for `k`. -/
def Chan.reserve (c : Chan) (k : Nat) (rx : Bool) : Chan :=
  if rx then { c with resvRx := c.resvRx ++ [k] } else { c with resvTx := c.resvTx ++ [k] }

/-- Use up one reservation of `k`. -/
def Chan.useResv (c : Chan) (k : Nat) (rx : Bool) : Chan :=
  if rx then { c with resvRx := dropFirst (· == k) c.resvRx } else { c with resvTx := dropFirst (· == k) c.resvTx }

/-- A process holds a reservation on a side. -/
def Chan.holds (c : Chan) (k : Nat) (rx : Bool) : Bool := if rx then c.resvRx.contains k else c.resvTx.contains k

/-! ### Timeouts (R130, R131) -/

/-- The first sender in the queue that `p` accepts. -/
def State.firstSender (s : State) (c : Chan) (p : Nat → Bool) : Option (Nat × Txn) :=
  (c.sendq.find? fun t => match nget? s.txns t with
    | some x => p (ownerOf x.issuer) && !s.isStopped (ownerOf x.issuer)
    | none => false).bind fun t =>
    (nget? s.txns t).map fun x => (t, x)

/-- What a matched receive delivers: the first 8 bytes, the status of a timed form, and the kept registers. -/
def recvDeliver (x : Txn) (bs : List Byte) (status : Word) : Deliver :=
  let word (j : Nat) : Word := BitVec.ofNat 64 (leNat ((bs.drop (8 * j)).take 8))
  { vals := match x.op with
      | .recv _ => if x.deadline.isSome then [word 0, status] else [word 0]
      | _ => [status]
    kept := match x.op with
      | .recv _ => (List.range x.tgt.keeps.length).map word
      | _ => [status] }

/-- What a matched send delivers: the status of a timed form. -/
def sendDeliver (status : Word) : Deliver := { vals := [status], kept := [status] }

/-- Take an operation out of the queues of its channel, its reservation used. -/
def State.leaveQueue (s : State) (ch t : Nat) (x : Txn) : State :=
  s.modChan x.part ch fun c =>
    { c.useResv (ownerOf x.issuer) x.op.rx with
      sendq := c.sendq.filter (· != t), recvq := c.recvq.filter (· != t) }

/-- The timed operation `t` of a channel has not matched, and nothing is held for it or by it (R130, R131, R310). -/
def canExpire (s : State) (part ch t : Nat) (x : Txn) : Bool :=
  match s.chan? part ch with
  | none => false
  | some c =>
    let k := ownerOf x.issuer
    -- a message that has left waits for the far end, and for its own deadline alone where the port is down (R36)
    if x.stage = .waiting then c.bkind == 4 && (s.port (fabPort c.module c.rpart)).down
    else if x.op.rx then
      c.recvq.contains t && (decide (0 < c.depth) || c.resvTx.isEmpty) && !(c.hasMsg k || (c.depth == 0 && (s.firstSender c c.hasReceiver).isSome)) &&
        c.bkind != 1
    else
      c.sendq.contains t && !(c.sendq.take (c.resvRx.length - c.msgs.length)).contains t && c.bkind != 1 && !(0 < c.depth && c.hasRoom k) &&
        !(c.depth == 0 && c.hasReceiver k && c.recvq.any fun r => match nget? s.txns r with
          | some y => !s.isStopped (ownerOf y.issuer)
          | none => false)

/-- A timed operation that its deadline has overtaken at HOME returns status 1 (R130). -/
def State.expireOp (s : State) (t : Nat) : State :=
  match nget? s.txns t with
  | none => s
  | some x =>
    match x.op, x.deadline with
    | .send ch _, some d | .recv ch, some d | .sendt ch _, some d | .recvt ch _, some d =>
      if canExpire s x.part ch t x && decide (d.toNat ≤ (virtualTime s x.part).toNat) then
        let v : Deliver := if x.op.rx then recvDeliver x [] 1 else sendDeliver 1
        (s.leaveQueue ch t x).setTxn t { x with stage := .back v, ptag := 0, due := s.cycle + 16 }
      else s
    | _, _ => s

/-- Timed operations at the HOME of a channel whose deadlines have passed expire (R130). -/
def State.expireDue (s : State) (part ch : Nat) : State :=
  match s.chan? part ch with
  | none => s
  | some c => (c.sendq ++ c.recvq).foldl State.expireOp s

/-- An `alt`'s reservation is let go: timeouts that it disarmed are armed again, and those whose deadline has passed expire at once
(R131). -/
def State.letGo (s : State) (k : Nat) : State :=
  match (s.proc k).altRes with
  | none => s
  | some (ch, _) => (s.dropAlt k).expireDue (partOf k) ch

/-- The reservation of an `alt` as the next channel operation finds it: used by a transfer on its own end, else let go (R131). -/
def State.nextOp (s : State) (k ch : Nat) (rx : Bool) : State :=
  match (s.proc k).altRes with
  | none => s
  | some r => if r = (ch, rx) then s.modProc k fun p => { p with altRes := none } else s.letGo k

/-- A firing that goes beyond its declared counts (R114). -/
def firingOver (s : State) (i : Issue) (ch : Nat) (c : Chan) (rx : Bool) : Bool :=
  i.pre.rated && i.pre.firing.any (fun e => e.1.toNat == endHandle c ch rx) &&
    decide (((if rx then c.resvRx else c.resvTx).filter (· == i.proc)).length ≤
      (s.txns.filter fun e => e.2.issuer == i.proc && !e.2.performed &&
        (match e.2.op with
         | .send j _ | .sendt j _ => j == ch && !rx
         | .recv j | .recvt j _ => j == ch && rx
         | _ => false)).length)

/-! ### Issue (R308 to R311) -/

/-- Reserve a slot and a run of kept registers for a message of more than 8 bytes, and perhaps a status slot (R235, R309). -/
def Proc.pushRecv (p : Proc) (t : Nat) (ks : List (BitVec 5)) (timed : Bool) : Proc × Tgt :=
  let a := p.pushPend t none
  let q := { a.1 with nPend := ks.map (fun r => (r, t)) ++ a.1.nPend.filter fun e => !ks.contains e.1 }
  if timed then
    let b := q.pushPend t none
    (b.1, { slots := a.2.slots ++ b.2.slots, keeps := ks })
  else (q, { slots := a.2.slots, keeps := ks })

/-- Put an operation on its way to HOME: what it finds there decides whether its issuer blocks (R128, R129). A tile transfer blocks its
issuer until it has landed (R310). DEDUCED (log entry 127): until then the issuer goes on, as process C of Table 6.9 does. -/
def State.launchOp (s : State) (i : Issue) (ch : Nat) (h : Word) (rx : Bool) (t : Nat) (timed : Bool) : State :=
  let part := partOf i.proc
  match s.chan? part ch with
  | none => s
  | some c =>
    let tile := tyTile (chanTy s part c)
    let way := if c.home = i.pre.core then 0 else torus (clusterOf i.pre.core) (clusterOf c.home)
    let s := (s.setChan part ch { c with flight := c.flight ++ [t] }).modTxn t fun x => { x with due := s.cycle + way, blocks := tile }
    if tile then s.block i.proc (if rx then .recv else .send) (h.setWidth 32) (if timed then i.pre.tmo else 0) else s

/-- An operation that waits at HOME: its issuer is BLOCKED (R128, R129); a sender of another module is told that its message waits there
(R311). -/
def State.blockOp (s : State) (part ch t : Nat) : State :=
  match nget? s.txns t, s.chan? part ch with
  | some x, some c =>
    if x.blocks || x.left || !(c.sendq.contains t || c.recvq.contains t) then s
    else if x.issuer = 0 then
      match x.marks with
      | [m, p, r] => s.sendFab m p (.reply r [2])
      | _ => s
    else (s.setTxn t { x with blocks := true }).blockLate x.issuer x.op.wkind (s.waitObj x) (x.deadline.getD 0)
  | _, _ => s

/-- The registers nK on that a message of `n` bytes fills. -/
def keepRun (i : Issue) (k : Keep) (n : Nat) : Except Abort (List (BitVec 5)) :=
  match k with
  | none => if n ≤ 8 then .ok [] else .error (.trap { kind := .illegalOperand })
  | some r =>
    let m := max 1 ((n + 7) / 8)
    if r.toNat + m ≤ 32 then .ok ((List.range m).map fun j => i.pre.nphys (BitVec.ofNat 5 (r.toNat + j)))
    else .error (.trap { kind := .illegalOperand })

/-- The bytes of a register message (R309). -/
def sendBytes (i : Issue) (y : Src) (n : Nat) : Except Abort (List Byte) :=
  if n ≤ 8 then do
    let v ← readSrc i y
    .ok (leBytes n v.toNat)
  else
    match y with
    | .n r =>
      let m := (n + 7) / 8
      if r.toNat + m ≤ 32 then do
        let ws ← (List.range m).mapM fun j => readSrc i (.n (BitVec.ofNat 5 (r.toNat + j)))
        .ok ((ws.flatMap fun w => leBytes 8 w.toNat).take n)
      else .error (.trap { kind := .illegalOperand })
    | _ => .error (.trap { kind := .illegalOperand })

/-- The transaction of a channel operation. -/
def chanTxn (s : State) (i : Issue) (op : Op) (timed : Bool) (n : Nat) : Txn :=
  { mkTxn s i op 16 with
    deadline := if timed then some i.pre.tmo else none, progress := n
    ptag := match op with | .send .. | .sendt .. => i.pre.ptag | _ => 0 }

/-- Issue a transfer: with a status slot when it is timed (a receive has its own). -/
def State.issueSend (s : State) (i : Issue) (x : Txn) (timed : Bool) (k : Keep) : State :=
  if timed then s.issuePend i x k else s.issueQuiet x

def sendForm (s : State) (x y : Src) (timed : Bool) (k : Keep) : Except Abort State := do
  let i ← s.cur
  let h ← readSrc i x
  let _ ← readSrc i y
  let (ch, c) ← chanCheck s i h false false
  let n := tyBytes (chanTy s (partOf i.proc) c)
  let bs ← sendBytes i y n
  check (!firingOver s i ch c false) { kind := .illegalOperand, addr := h }
  chanOpen s c h false
  .ok ((s.issueSend i (chanTxn s i (.send ch bs) timed n) timed k).launchOp i ch h false s.nextTxn timed)

def execSend (x y : Src) (s : State) := finish s (sendForm s x y false none)
def execSendT (x y : Src) (k : Keep) (s : State) := finish s (sendForm s x y true k)

def recvForm (s : State) (x : Src) (timed : Bool) (k : Keep) : Except Abort State := do
  let i ← s.cur
  let h ← readSrc i x
  let (ch, c) ← chanCheck s i h true false
  let n := tyBytes (chanTy s (partOf i.proc) c)
  let ks ← keepRun i k n
  check (!firingOver s i ch c true) { kind := .illegalOperand, addr := h }
  chanOpen s c h true
  let t := s.nextTxn
  let r := (s.proc i.proc).pushRecv t ks timed
  let s := (s.newTxn { chanTxn s i (.recv ch) timed n with tgt := r.2 }).1.setProc i.proc { r.1 with out := r.1.out ++ [t] }
  .ok (s.launchOp i ch h true t timed)

def execRecv (x : Src) (k : Keep) (s : State) := finish s (recvForm s x false k)
def execRecvT (x : Src) (k : Keep) (s : State) := finish s (recvForm s x true k)

/-- `sendt` and `recvt` (R310). -/
def tileForm (s : State) (x y : Src) (rx timed : Bool) (k : Keep) : Except Abort State := do
  let i ← s.cur
  let h ← readSrc i x
  let p ← readSrc i y
  let (ch, c) ← chanCheck s i h rx true
  let n := tyBytes (chanTy s (partOf i.proc) c)
  check (pSpace p == 2 && pOff p % 16 == 0) { kind := .illegalOperand, addr := p }
  check (!firingOver s i ch c rx) { kind := .illegalOperand, addr := h }
  check (decide (pOff p + n ≤ 0x3F800)) { kind := .spaceInvalid, addr := p }
  chanOpen s c h rx
  let op : Op := if rx then .recvt ch (pOff p) else .sendt ch (pOff p)
  .ok ((s.issueSend i (chanTxn s i op timed n) timed k).launchOp i ch h rx s.nextTxn timed)

def execSendt (x y : Src) (s : State) := finish s (tileForm s x y false false none)
def execSendtT (x y : Src) (k : Keep) (s : State) := finish s (tileForm s x y false true k)
def execRecvt (x y : Src) (s : State) := finish s (tileForm s x y true false none)
def execRecvtT (x y : Src) (k : Keep) (s : State) := finish s (tileForm s x y true true k)

/-! ### The match at HOME (R128, R129, R310, R311) -/

/-- The scratchpad range of a tile side. -/
def Txn.range (x : Txn) : Option (Nat × Bool) :=
  match x.op with
  | .sendt _ o => some (o, false)
  | .recvt _ o => some (o, true)
  | _ => none

/-- A free scoreboard entry for a side. -/
def sideRoom (s : State) (x : Txn) : Bool :=
  match x.range with
  | none => true
  | some _ => (s.core x.core).sbRoom 1

/-- A side's buffers may start their transition. -/
def sideBufs (s : State) (x : Txn) : Bool :=
  match x.range with
  | none => true
  | some (o, inc) => ((s.core x.core).startRange inc o x.progress).isSome

/-- Start a side: transitions and scoreboard entry. -/
def State.startSide (s : State) (t : Nat) (x : Txn) : State :=
  match x.range with
  | none => s
  | some (o, inc) =>
    match (s.core x.core).startRange inc o x.progress with
    | none => s
    | some c => s.setCore x.core (c.enter t inc o x.progress true)

/-- Unloaded time of a transfer between two cores (R145). -/
def transferTime (a b n : Nat) : Nat := 16 + torus (clusterOf a) (clusterOf b) + 2 * ((n + 63) / 64 - 1)

/-- The content of a message as its sender holds it. -/
def State.content (s : State) (x : Txn) : List Byte :=
  match x.op with
  | .send _ bs => bs
  | .sendt _ o => readBytes s.mem (spadKey x.core o) x.progress
  | _ => []

/-- A line of what a tile's sender holds that cannot be read (R42). -/
def State.badSource (s : State) (x : Txn) : Option Nat :=
  match x.op with
  | .sendt _ o => s.badPart [{ at_ := .mem (spadKey x.core o), len := x.progress, va := 2 * 2 ^ 60 + o }]
  | _ => none

/-- A line of the oldest message of a channel, in its slot, that cannot be read (R42, R125). -/
def State.badSlot (s : State) (part ch : Nat) (c : Chan) : Option Nat :=
  let n := tyBytes (chanTy s part c)
  let at_ := bufKey part ch + c.head * ((n + 63) / 64 * 64)
  s.badPart [{ at_ := .mem at_, len := n, va := at_ }]

/-- What happens before a channel operation: all that its issuer's order gives (R199), or what a message of another module brings. -/
def State.sideClock (s : State) (t : Nat) (x : Txn) : Clock := if x.issuer = 0 then x.clock else s.pastOf x.issuer t

/-- A rendezvous, or a message that a blocked receiver of a buffered channel takes directly (R128, R129): both sides leave the
queues, and the data travels. What precedes the send happens before what follows the receive, and the other way round on a
channel of depth 0 (R199). -/
def State.matchPair (s : State) (ch t : Nat) (x : Txn) (r : Nat) (y : Txn) : State :=
  let s := ((s.leaveQueue ch t x).leaveQueue ch r y).startSide t x
  let s := s.startSide r y
  let due := s.cycle + transferTime x.core y.core x.progress
  let sent := s.sideClock t x
  let taken := s.sideClock r y
  let s := s.raiseFloor y.issuer sent
  let s := if ((s.chan? x.part ch).map Chan.depth) = some 0 then s.raiseFloor x.issuer taken else s
  let s := s.setTxn t { x with stage := .back (sendDeliver 0), partner := some r, started := true, due := due }
  s.setTxn r { y with stage := .back (recvDeliver y (s.content x) 0), partner := some t, started := true, due := due }

/-- A sender fills a slot. -/
def State.putMsg (s : State) (ch t : Nat) (x : Txn) : State :=
  let bs := s.content x
  let s := (s.leaveQueue ch t x).startSide t x
  let sent := s.sideClock t x
  let s := (s.putSlot x.part ch (ownerOf x.issuer) bs).modChan x.part ch fun c => { c with clock := c.clock.join sent }
  s.setTxn t { x with stage := .back (sendDeliver 0), started := true, due := s.cycle + transferTime x.core x.core x.progress }

/-- A receiver takes the oldest message. -/
def State.takeMsg (s : State) (ch r : Nat) (y : Txn) (bs : List Byte) : State :=
  let s := (s.leaveQueue ch r y).startSide r y
  let s := s.raiseFloor y.issuer (((s.chan? y.part ch).map Chan.clock).getD Clock.zero)
  let s := s.modChan y.part ch (·.dropMsg 1)
  s.setTxn r { y with stage := .back (recvDeliver y bs 0), started := true, data := bs
                      due := s.cycle + transferTime y.core y.core y.progress }

/-- The cursor of a memory endpoint steps after a message (R106). -/
def Chan.stepCursor (c : Chan) : Chan :=
  let n := c.count + 1
  if c.ep[3].toNat ≠ 0 ∧ c.ep[3].toNat ≤ n then { c with cursor := 0, count := 0 }
  else { c with cursor := c.cursor + c.ep[2].toNat, count := n }

/-- A side that is alone starts: a memory endpoint needs no partner (R311). Its message has the place that the cursor then names,
and the cursor steps (R106). -/
def State.startAlone (s : State) (ch t : Nat) (x : Txn) : State :=
  let s := (s.leaveQueue ch t x).startSide t x
  let place := ((s.chan? x.part ch).map Chan.cursor).getD 0
  let s := s.modChan x.part ch Chan.stepCursor
  s.setTxn t { x with
    work := [place]
    stage := .back (if x.op.rx then recvDeliver x [] 0 else sendDeliver 0), started := true
    due := s.cycle + 1000 }

/-- The far end of a channel finds no room or receiver for a message, or a port that is down leaves the end blocked: the sender is BLOCKED
(R36, R311). -/
def State.blockFar (s : State) (t : Nat) : State :=
  match nget? s.txns t with
  | some x =>
    if x.blocks || x.left || x.stage != .waiting then s
    else (s.setTxn t { x with blocks := true }).blockLate x.issuer x.op.wkind (s.waitObj x) (x.deadline.getD 0)
  | none => s

/-- A message leaves for the channel's remote HOME, which decides its match (R311). -/
def State.sendRemote (s : State) (ch t : Nat) (x : Txn) (c : Chan) : State :=
  let bs := s.content x
  let s := (s.leaveQueue ch t x).startSide t x
  let s := s.sendFab c.module c.rpart (.chanSend c.rpart (c.ep[0].toNat % 2 ^ 24) s.moduleId x.part (256 * t) bs x.deadline)
  let s := s.setTxn t { x with stage := .waiting, started := true }
  if (s.port (fabPort c.module c.rpart)).down then s.blockFar t else s

/-- A side whose buffer is in a wrong state, or whose message cannot be read, leaves the queue with its record. -/
def State.sideFault (s : State) (part ch t : Nat) (x : Txn) : Option State :=
  if !sideBufs s x then some (s.failWait part ch t .bufferState)
  else (s.badSource x).map fun va => s.failWait part ch t .uncorrectableData (BitVec.ofNat 64 va)

/-- One thing that a channel's state makes happen: a wait broken, a message put or taken, a rendezvous. None: it is at rest, or
a side waits for a scoreboard entry with its match kept. -/
def State.chanStep (s : State) (part ch : Nat) : Option State :=
  match s.chan? part ch with
  | none => none
  | some c =>
    let broken : Option Nat :=
      if !c.rxopen then c.sendq.head?
      else if s.ranDry c then c.recvq.head? else none
    match broken with
    | some t => some (s.breakWait part ch t)
    | none =>
      let recv : Option (Nat × Txn) := (c.recvq.head?.bind fun r => (nget? s.txns r).map fun y => (r, y)).filter fun e =>
        !s.isStopped (ownerOf e.2.issuer)
      let room := if c.bkind = 0 ∨ c.bkind = 2 ∨ c.bkind = 3 then s.firstSender c c.hasRoom else none
      let solo := if c.bkind = 1 ∨ c.bkind = 4 then s.firstSender c fun _ => true else none
      match recv, solo with
      | some (r, y), none =>
        if c.bkind = 1 then (s.sideFault part ch r y).or (if sideRoom s y then some (s.startAlone ch r y) else none)
        else if c.hasMsg (ownerOf y.issuer) then
          match s.badSlot part ch c with
          | some va => some (s.failWait part ch r .uncorrectableData (BitVec.ofNat 64 va))
          | none => (s.sideFault part ch r y).or
              (if sideRoom s y then some (s.takeMsg ch r y (c.msgs.headD (0, [])).2) else none)
        else
          match s.firstSender c fun k => 0 < c.depth || c.hasReceiver k with
          | none => none
          | some (t, x) =>
            ((s.sideFault part ch t x).or (s.sideFault part ch r y)).or
              (if sideRoom s x && sideRoom s y && (x.core != y.core || x.range.isNone || (s.core x.core).sbRoom 2) then
                some (s.matchPair ch t x r y)
              else none)
      | _, some (t, x) =>
        (s.sideFault part ch t x).or
          (if sideRoom s x then some (if c.bkind = 1 then s.startAlone ch t x else s.sendRemote ch t x c) else none)
      | none, none =>
        match room with
        | none => none
        | some (t, x) => (s.sideFault part ch t x).or (if sideRoom s x then some (s.putMsg ch t x) else none)

/-- Let a channel come to rest: every step takes an operation out of a queue. -/
def State.settleChan (s : State) (part ch : Nat) : Nat → State
  | 0 => s
  | n + 1 => match s.chanStep part ch with | some s => s.settleChan part ch n | none => s

def State.pumpChan (s : State) (part ch : Nat) : State :=
  match s.chan? part ch with
  | none => s
  | some c => s.settleChan part ch (c.sendq.length + c.recvq.length + 1)

/-- Every channel comes to rest: after scoreboard entries were freed. -/
def State.pumpAll (s : State) : State :=
  s.parts.foldl (fun s p => p.2.chans.foldl (fun s c =>
    if c.2.sendq.isEmpty && c.2.recvq.isEmpty then s else s.pumpChan p.1 c.1) s) s

/-! ### Guards (R131, R312) -/

/-- A guard is ready for process `k`. -/
def guardReady (s : State) (k : Nat) (h : Nat) : Bool :=
  match s.chan? (partOf k) (h % 2 ^ 24) with
  | none => true
  | some c =>
    if h / 2 ^ 31 % 2 = 1 then
      c.hasMsg k || c.hasSender k || s.ranDry c
    else (0 < c.depth && c.hasRoom k) || c.hasReceiver k || !c.rxopen

/-- The guards that an `alt` was issued with: numbers and handles, in ascending order. -/
def Txn.guards (x : Txn) : List (Nat × Nat) := x.work.map fun w => (w / 2 ^ 32, w % 2 ^ 32)

/-- The guards that a process has armed, as an `alt` carries them. -/
def Proc.armed (p : Proc) : List Nat :=
  ((List.range 8).filter fun j => p.gmask.getLsbD j).map fun j => j * 2 ^ 32 + (p.guards.toList.getD j 0).toNat

/-- The lowest-numbered ready guard of an `alt` of process `k`. -/
def readyGuard (s : State) (k : Nat) (x : Txn) : Option (Nat × Nat) := x.guards.find? fun g => guardReady s k g.2

/-- Guards of an `alt` as bits of GMASK. -/
def Txn.gbits (x : Txn) : BitVec 8 := x.guards.foldl (fun m g => m ||| (1#8 <<< g.1)) 0

/-- Hold what made a guard ready. A firing's own reservations stand already. -/
def State.takeGuard (s : State) (k h : Nat) : State :=
  let rx := decide (h / 2 ^ 31 % 2 = 1)
  let ch := h % 2 ^ 24
  match s.chan? (partOf k) ch with
  | none => s
  | some c =>
    let open_ := if rx then c.hasMsg k || c.hasSender k else c.rxopen
    if open_ && !c.holds k rx then
      (s.setChan (partOf k) ch (c.reserve k rx)).modProc k fun p => { p with altRes := some (ch, rx) }
    else s

/-- An `alt` returns: its guards are disarmed (R131, R312). -/
def State.endAlt (s : State) (t : Nat) (x : Txn) (w : Word) : State :=
  (s.modProc x.issuer fun p => { p with gmask := p.gmask &&& ~~~x.gbits }).setTxn t
    { x with stage := .back { vals := [w], kept := [w] }, due := s.cycle + 16 }

/-- No guard of an `alt` is ready: its process is BLOCKED, with its guards armed in the record. -/
def State.altWaits (s : State) (t : Nat) (x : Txn) : State :=
  let s := s.modProc x.issuer fun p => { p with gmask := p.gmask ||| x.gbits }
  (s.setTxn t { x with stage := .waiting, blocks := true }).blockLate x.issuer .alt
    (BitVec.ofNat 32 ((x.guards.find? fun g => g.1 == 0).map Prod.snd |>.getD 0)) (x.deadline.getD 0)

/-- An `alt` whose earlier accesses are performed looks at its guards (R131, R323): the lowest that is ready is held for it; at its deadline
it returns 8; else it waits, and its process is BLOCKED. -/
def State.tryAlt (s : State) (t : Nat) (x : Txn) : State :=
  let k := x.issuer
  match readyGuard s k x with
  | some (j, h) => (s.takeGuard k h).endAlt t x (BitVec.ofNat 64 j)
  | none =>
    match x.deadline with
    | some d => if d.toNat ≤ (virtualTime s x.part).toNat then s.endAlt t x 8 else s.altWaits t x
    | none => s.altWaits t x

/-- After a change of channels: rated processes that wait on an end now closed and empty end (Table 6.2), and waiting `alt`s whose
guards are ready return (R131). -/
def State.wakeAlts (s : State) : State :=
  let s := s.endDormants s.procs.length
  s.txns.foldl (fun s e =>
    match e.2.op, e.2.stage with
    | .alt, .waiting =>
      match (if s.isStopped e.2.issuer then none else readyGuard s e.2.issuer e.2) with
      | none => s
      | some (j, h) => (s.takeGuard e.2.issuer h).endAlt e.1 e.2 (BitVec.ofNat 64 j)
    | _, _ => s) s

/-- After a change of a channel: it comes to rest, and guards are looked at. -/
def State.chanChanged (s : State) (part ch : Nat) : State := (s.pumpChan part ch).wakeAlts

/-- `altg` and `yield` stand in the order of their issuer as channel operations (Table 14.16). -/
def State.issueOrder (s : State) (i : Issue) : State := s.issueQuiet { mkTxn s i .order 0 with ptag := 0 }

def execAltg (g : BitVec 3) (x : Src) (s : State) := finish s do
  let i ← s.cur
  let h ← readSrc i x
  let (_, c) ← chanFind s i h
  check (chanIndex c h) (badType h)
  .ok ((s.modProc i.proc fun p =>
    { p with guards := p.guards.set g.toNat (h.setWidth 32), gmask := p.gmask ||| (1#8 <<< g.toNat) }).issueOrder i)

/-- `alt`: the guards go with it to HOME, and no longer stand armed. -/
def altForm (s : State) (timed : Bool) (k : Keep) : Except Abort State := do
  let i ← s.cur
  check (timed || i.pre.gmask != 0) { kind := .illegalOperand }
  let x := { mkTxn s i .alt 0 with work := i.pre.armed, deadline := if timed then some i.pre.tmo else none }
  .ok ((s.issuePend i x k).modProc i.proc fun p => { p with gmask := 0 })

/-- The reservation of an earlier `alt` is let go, and the guards are looked at. -/
def State.startAlt (s : State) (t : Nat) (x : Txn) : State := ((s.letGo x.issuer).pumpAll).tryAlt t x

def execAlt (k : Keep) (s : State) := finish s (altForm s false k)
def execAltT (k : Keep) (s : State) := finish s (altForm s true k)

/-! ### chopen, chclose, chinfo, chbind (R313 to R316) -/

def execChopen (x y : Src) (k : Keep) (s : State) := finish s do
  let i ← s.cur
  let t ← readSrc i x
  let d ← readSrc i y
  check (decide (t.toNat < (s.part (partOf i.proc)).budget.types)) { kind := .illegalOperand, addr := t }
  check (decide (d.toNat ≤ 255)) { kind := .illegalOperand, addr := d }
  .ok (s.issuePend i (mkTxn s i (.chopen t.toNat d.toNat) 100) k)

/-- The channel of a `chopen` whose earlier accesses are performed (R313, R323): a buffered one finds its buffer free or not as the part
decides (the pool's size is not given). -/
def State.openChan (s : State) (t : Nat) (x : Txn) (ty depth : Nat) : State :=
  let n := nfree (s.part x.part).chans ((s.part x.part).chans.length + 1) 1
  let free := depth = 0 || Config.freeBit s.fresh
  let s : State := if depth = 0 then s else { s with fresh := s.fresh + 1 }
  let back (s : State) (w : Word) : State := s.setTxn t { x with stage := .back { vals := [w], kept := [w] } }
  if decide (2 ^ 24 ≤ n) || !free then back s 0
  else
    let k := ownerOf x.issuer
    let c : Chan := { ty := ty, depth := depth, rxproc := k, home := x.core, holders := [k]
                      buf := if depth = 0 then 0 else BitVec.ofNat 64 (bufKey x.part n) }
    back (s.setChan x.part n c) (BitVec.ofNat 64 (endHandle c n false))

def execChclose (x : Src) (s : State) := finish s do
  let i ← s.cur
  let h ← readSrc i x
  let (ch, c) ← chanFind s i h
  check (chanIndex c h) (badType h)
  let rx := bits h.toNat 31 31 == 1
  let k := ownerOf i.proc
  let closing := s.txns.any fun e => e.2.issuer == i.proc && e.2.op == .chclose ch rx
  check (!closing && (if rx then c.rxproc == k && c.rxopen else c.holders.contains k)) { kind := .illegalOperand, addr := h }
  let t := s.nextTxn
  .ok ((s.issueQuiet (mkTxn s i (.chclose ch rx) 16)).modChan (partOf i.proc) ch fun c => { c with flight := c.flight ++ [t] })

/-- `chinfo`: read at HOME. -/
def execChinfo (x : Src) (k : Keep) (s : State) := finish s do
  let i ← s.cur
  let h ← readSrc i x
  let (ch, c) ← chanFind s i h
  check (chanIndex c h) (badType h)
  let t := s.nextTxn
  .ok ((s.issuePend i (mkTxn s i (.chinfo ch) 16) k).modChan (partOf i.proc) ch fun c => { c with flight := c.flight ++ [t] })

/-- The word of Table 14.11. -/
def chanWord (c : Chan) : Word :=
  let b (p : Bool) (k : Nat) : Nat := if p then 2 ^ k else 0
  BitVec.ofNat 64 (c.ty % 128 * 2 ^ 24 + b (!c.recvq.isEmpty) 22 + b (!c.sendq.isEmpty) 21 + b c.rxopen 20 + b c.txopen 19
    + c.bkind % 8 * 2 ^ 16 + c.depth % 256 * 2 ^ 8 + c.msgs.length % 256)

/-- `chbind`: the descriptor is read once, as a load of the issuer (R316), which brings it to the binding. -/
def execChbind (x y : Src) (k : Keep) (s : State) := finish s do
  let i ← s.cur
  needMgr s i
  let h ← readSrc i x
  let p ← readSrc i y
  let (ch, c) ← chanFind s i h
  check (chanIndex c h) (badType h)
  check (decide (pSpace p ≤ 2) && pOff p % 8 == 0) { kind := .illegalOperand, addr := p }
  let a ← effAddr s i .scalar .load p 0 64 false
  check c.rxopen { kind := .channelClosed, other := h.setWidth 32 }
  let t := a.st.nextTxn
  let s := a.st.issueQuiet { accessTxn i a (.fabRead a.parts) with partner := some (t + 1), ptag := 0 }
  let s := s.issuePend i { mkTxn s i (.chbind ch a.parts) (a.lat + 80) with partner := some t } k
  .ok ((s.modChan (partOf i.proc) ch fun c => { c with flight := c.flight ++ [t + 1] }).afterLoad i a t)

/-- The checks of R316 on a descriptor of eight words. -/
def bindOk (s : State) (part : Nat) (c : Chan) (w : Nat → Nat) : Bool :=
  let k := w 0 % 8
  let h := w 0 / 2 ^ 32
  (k != 0 || (partOf h == part && (nget? s.procs h).isSome && (s.proc h).st != .exited)) &&
    (k != 2 || !tyTile (chanTy s part c)) &&
    (k != 4 || s.keys.any fun e => e.2.localPart == part && e.2.module == bits (w 1) 31 22 && e.2.remotePart == bits (w 1) 21 16) &&
    decide (k ≤ 4)

/-- The read of a descriptor arrives at its `chbind` (R316): the checks are made, and only then may the binding reach HOME. -/
def State.takeBinding (s : State) (t : Nat) (x : Txn) (b : Nat) : State :=
  match nget? s.txns b, x.stage with
  | none, .back _ | none, .failed _ => (s.uncache t x).dropTxn t
  | some y, .back _ =>
    let s := ((s.miss x).uncache t x).dropTxn t
    let ch : Nat := match y.op with | .chbind ch _ => ch | _ => 0
    let w (j : Nat) : Nat := leNat ((x.data.drop (8 * j)).take 8)
    match s.chan? y.part ch with
    | none => s
    | some c =>
      if bindOk s y.part c w then s.setTxn b { y with data := x.data, partner := none }
      else
        (s.setTxn b { y with stage := .failed (recC s y
          { kind := .illegalOperand, addr := BitVec.ofNat 64 (firstVa x.op.parts) }) }).modChan y.part ch fun c =>
            { c with flight := c.flight.filter (· != b) }
  | some y, .failed r =>
    let ch : Nat := match y.op with | .chbind ch _ => ch | _ => 0
    (((s.uncache t x).dropTxn t).setTxn b { y with stage := .failed r }).modChan y.part ch fun c =>
      { c with flight := c.flight.filter (· != b) }
  | _, _ => s

/-- Write a binding (R127): a receiver blocked under the old one sees its end closed; messages and senders carry over. Only a process
binding names a new holder of the end, and what an `alt` or a firing of the former one held there is free again (R131, R316; log entry
88). -/
def State.rebind (s : State) (part ch : Nat) (w : Nat → Nat) : State :=
  match s.chan? part ch with
  | none => s
  | some c =>
    let k := w 0 % 8
    let h := w 0 / 2 ^ 32
    let s := c.recvq.foldl (fun s t => s.breakWait part ch t) s
    let moves := decide (k = 0) && decide (h ≠ c.rxproc)
    let s := if moves && (s.proc c.rxproc).altRes == some (ch, true) then s.modProc c.rxproc fun p => { p with altRes := none } else s
    let c := (s.chan? part ch).getD c
    s.setChan part ch
      { c with
        bkind := k, rxproc := if k = 0 then h else c.rxproc
        resvRx := if moves then c.resvRx.filter (· != c.rxproc) else c.resvRx
        home := if k = 0 then (s.proc h).core else c.home
        module := bits (w 1) 31 22, rpart := bits (w 1) 21 16
        ep := #v[BitVec.ofNat 64 (w 4), BitVec.ofNat 64 (w 5), BitVec.ofNat 64 (w 6), BitVec.ofNat 64 (w 7)]
        cursor := 0, count := 0 }

/-- An operation that has reached HOME (R125 to R127), the next of its issuer after an `alt` (R131). -/
def State.canAdmit (s : State) (part ch t : Nat) (x : Txn) : State :=
  let stay (s : State) (f : Chan → Chan) : State := s.modChan part ch f
  let k := ownerOf x.issuer
  match x.op with
  | .send .. | .sendt .. => stay (s.nextOp k ch false) fun c => { c with sendq := c.sendq ++ [t] }
  | .recv .. | .recvt .. =>
    -- a receive issued under a binding that has been replaced since finds its end closed (R127)
    let s := stay (s.nextOp k ch true) fun c => { c with recvq := c.recvq ++ [t] }
    match s.chan? part ch with
    | some c => if c.rxproc == k then s else s.breakWait part ch t
    | none => s
  | .chclose _ rx =>
    let s := (s.letGo k).dropTxn t
    if rx then s.closeRx part ch else s.closeTx part ch k
  | .chinfo _ =>
    let s := s.letGo k
    match s.chan? part ch with
    | none => s
    | some c => s.setTxn t { x with stage := .back { vals := [chanWord c], kept := [chanWord c] } }
  | .chbind .. =>
    ((s.letGo k).rebind part ch fun j => leNat ((x.data.drop (8 * j)).take 8)).setTxn t { x with stage := .back { vals := [0], kept := [0] } }
  | _ => s

/-- An operation on its way may reach HOME: its earlier accesses are performed, its issuer is not STOPPED, and the descriptor of a
`chbind` has been read. -/
def State.mayArrive (s : State) (t : Nat) : Bool :=
  match nget? s.txns t with
  | some x => x.issuer == 0 || (s.ordered t x && !s.isStopped (ownerOf x.issuer) && !(match x.op with
      | .chbind .. => x.data.isEmpty
      | _ => false))
  | none => false

/-- The operation that reaches HOME next: of those that may, the one whose way is over first (R126). -/
def State.nextArrival (s : State) (c : Chan) : Option Nat :=
  let due (t : Nat) : Nat := match nget? s.txns t with | some x => x.due | none => 0
  (c.flight.filter s.mayArrive).foldl (fun (a : Option Nat) t =>
    match a with
    | none => some t
    | some b => if due t < due b then some t else some b) none

/-! ### HOME's events -/

/-- CHANNEL_MATCH: an operation on its way whose earlier accesses are performed reaches HOME, the channel comes to rest, and the issuer of
one that waits there is BLOCKED. The channel is named by its partition and number. -/
def execChannelMatch (chan : Nat) (s : State) : Host.Outcome State Fault Refusal :=
  let part := chan / 2 ^ 24
  let ch := chan % 2 ^ 24
  match s.chan? part ch with
  | none => .next s
  | some c =>
    match s.nextArrival c with
    | none => .next (s.chanChanged part ch)
    | some t =>
      let s := (s.setChan part ch { c with flight := c.flight.filter (· != t) }).expireDue part ch
      match nget? s.txns t with
      | none => .next s
      | some x => .next ((((s.canAdmit part ch t x).chanChanged part ch).expireOp t).blockOp part ch t |>.reapChan part ch)

/-- CHANNEL_TIMEOUT: the deadline of a process's timed transfer is reached at HOME before a match. -/
def execChannelTimeout (k : Nat) (s : State) : Host.Outcome State Fault Refusal :=
  .next ((s.txns.filter fun e => e.2.issuer == k && e.2.op.wkind != .none).foldl (fun s e => s.expireOp e.1) s |>.wakeAlts)

/-- DEADLINE_EXPIRY (R116, R131): virtual time has reached the deadline of a process in `waitt`, `idle` or `alt.t`. -/
def execDeadlineExpiry (k : Nat) (s : State) : Host.Outcome State Fault Refusal :=
  let p := s.proc k
  let due := decide (p.deadline.toNat ≤ (virtualTime s (partOf k)).toNat)
  if p.st != .blocked || !due then .next s
  else if p.wkind = .timed then .next (s.ready k false)
  else if p.wkind = .alt then
    match s.txns.find? fun e => e.2.issuer == k && e.2.op == .alt && e.2.stage == .waiting && e.2.deadline.isSome with
    | some (t, x) => .next (s.endAlt t x 8)
    | none => .next s
  else .next s

/-! ### Landing (R128, R163, R311) -/

/-- The word in issue that an operation came from, for its later accesses. -/
def Txn.issue (s : State) (x : Txn) : Issue :=
  { proc := x.issuer, loc := x.loc, next := x.loc, bword := x.bword, pre := { s.proc x.issuer with heapoff := x.heapoff } }

/-- The rows of a tile at a memory endpoint, from where its message stands: pointer and length of each (R106). -/
def Chan.rows (c : Chan) (place n : Nat) : List (Word × Nat) :=
  (List.range 16).map fun r => (c.ep[0] + BitVec.ofNat 64 (place + r * c.ep[1].toNat), n / 16)

/-- Write a row at an endpoint as a store of the issuer: applied, or in the side log while that has room (R94, R95, R311). It waits for
its memory as any store does (R110 to R112). -/
def State.writeRow (s : State) (t : Nat) (x : Txn) (p : Word) (bs : List Byte) : Except RowStop State :=
  let i := x.issue s
  match effAddr s { i with pre := { i.pre with engine := some { kind := .copySeq, txn := 0, forkLoc := 0 } } } .vector .store p 0
      bs.length false with
  | .error (.trap t) => .ok (s.deferRec (ownerOf x.issuer) t x.loc x.bword)
  | .error _ => .error .wait
  | .ok a =>
    match a.logged with
    | none =>
      if a.st.busyPart a.parts true || !a.st.linkRoom a.parts || a.st.portBusy { x with op := .store a.parts [] } ||
          !(a.st.homesOf a.parts).all fun h => (s.pastOf x.issuer t).le (a.st.die h).clock then .error .wait
      else if a.st.unserved t a.parts ≠ [] then .error (.full (a.st.unserved t a.parts))
      else
        match lostPart a.st a.parts with
        | some va => .error (.bad { kind := .uncorrectableData, addr := BitVec.ofNat 64 va })
        | none => .ok ((((a.st.countLines a.parts true).miss x).applyParts (x.who t) a.parts bs))
    | some vpn =>
      if 64 ≤ (s.core x.core).sideLog.length then .error .wait
      else
        let t := s.nextTxn
        let s := a.st.issueQuiet { x with op := .store a.parts bs, tgt := {}, stage := .logged, ptag := 0, partner := none }
        let s := s.modCore x.core fun c => { c with sideLog := c.sideLog ++ [{ txn := t, part := x.part, vpn := vpn }] }
        .ok (s.deferToManager (ownerOf x.issuer) (pageFault .store bs.length (fatOf (pSpace p) (pOff p)) x.part none) x.loc x.bword)

/-- Read the rows of an endpoint, each where its memory and memory servers are free; else what keeps it from that. -/
def State.readRows (s : State) (t : Nat) (x : Txn) (l : List (Word × Nat)) : Except RowStop (State × List Byte) :=
  l.foldlM (fun a r =>
    match effAddr a.1 (x.issue a.1) .vector .load r.1 0 r.2 false with
    | .error (.trap t) => .error (.bad t)
    | .error _ => .error .wait
    | .ok b =>
      if b.st.busyPart b.parts || b.st.portBusy { x with op := .load b.parts (.zero 1) } then .error .wait
      else if b.st.unserved t b.parts ≠ [] then .error (.full (b.st.unserved t b.parts))
      else
        match b.st.badPart b.parts with
        | some va => .error (.bad { kind := .uncorrectableData, addr := BitVec.ofNat 64 va })
        | none =>
          let d := dieOf x.core
          .ok (((b.st.countLines b.parts).miss x).learn x.issuer (b.st.seenTags d b.parts false), a.2 ++ b.st.allBytes d b.parts))
    (s, [])

/-- End one side of a transfer: its range retires, its values arrive, its arrival is made, and it is READY. -/
def State.endSide (s : State) (t : Nat) (x : Txn) (d : Deliver) : State :=
  let s := match x.range with
    | some (o, inc) => if x.started then s.retire x.core t inc o x.progress else s
    | none => s
  if x.issuer = 0 then
    match x.marks with
    | [m, p, r] => (s.sendFab m p (.reply r [BitVec.ofNat 8 ((d.vals.headD 0).toNat)])).dropTxn t
    | _ => s.dropTxn t
  else
    let on := s.blockedOn x
    let s := ((s.deliver t x d).dropTxn t).tagArrival x (s.pastOf x.issuer t)
    if on then s.ready x.issuer false else s

/-- A transfer fails on the way: class C at its issuer, its range released (R311). -/
def State.failSide (s : State) (t : Nat) (x : Txn) (tr : Trap) : State :=
  let s := match x.range with
    | some (o, inc) => if x.started then s.retire x.core t inc o x.progress else s
    | none => s
  let on := s.blockedOn x
  let s := (s.failC t x (recC s x tr)).dropTxn t
  if on then s.ready x.issuer false else s

/-- The partner of a transfer that is part of it no longer waits for another match. -/
def State.unmatch (s : State) (t : Nat) : State :=
  match nget? s.txns t with
  | none => s
  | some x =>
    let s := match x.range with
      | some (o, inc) => if x.started then s.retire x.core t inc o x.progress else s
      | none => s
    let s := s.setTxn t { x with stage := .sent, partner := none, started := false, data := [] }
    match x.op with
    | .send ch _ | .sendt ch _ => s.modChan x.part ch fun c => { c with sendq := t :: c.sendq }
    | .recv ch | .recvt ch _ => s.modChan x.part ch fun c => { c with recvq := t :: c.recvq }
    | _ => s

/-- A tile lands from the scratchpad of side `t` in that of side `u`. A source line that cannot be read fails the sender, and the receiver
waits for another message (R42, R183). -/
def State.landTile (s : State) (t : Nat) (x : Txn) (d : Deliver) (u : Nat) (y : Txn) (o : Nat) (e : Deliver) : State :=
  match s.badSource x with
  | some va => (s.failSide t x { kind := .uncorrectableData, addr := BitVec.ofNat 64 va }).unmatch u
  | none =>
    let s : State := { s with mem := writeBytes s.mem (spadKey y.core o) ((s.content x).take y.progress) }
    (s.endSide u y e).endSide t x d

/-- What becomes of a transfer at a memory endpoint that is not served: it waits, enters the queues of its memory servers, is held on its
page, or fails (R42, R93, R105, R311). -/
def State.stopRows (s : State) (t : Nat) (x : Txn) (r : RowStop) : State :=
  match r with
  | .wait => s
  | .full l => s.queueAt t l
  | .bad tr =>
    let s := match tr.iso with | some f => s.ringDev (.isolation f.1 f.2) | none => s
    if tr.kind = .pageFault ∧ x.op.rx then s.setTxn t { x with stage := .heldPage (pOff tr.addr / 2 ^ 16), retry := false }
    else s.failSide t x tr

/-- Land a transfer of one channel, both sides of a rendezvous together. -/
def State.landOp (s : State) (t : Nat) : State :=
  match nget? s.txns t with
  | none => s
  | some x =>
    let other := x.partner.bind fun u => (nget? s.txns u).map fun y => (u, y)
    -- a side that waits as a replay entry holds its partner (R81)
    let held := match other with
      | some (_, y) => (match y.stage with | .replay _ => true | _ => false)
      | none => false
    if held then s else match x.stage, x.op with
    | .back d, .recvt ch o =>
      if !x.started then s.endSide t x d
      else
        match x.partner, other with
        | some _, some (u, y) => s.landTile u y (sendDeliver 0) t x o d
        | some _, none => s.endSide t x d
        | none, _ =>
          let put (s : State) (bs : List Byte) : State :=
            ({ s with mem := writeBytes s.mem (spadKey x.core o) bs } : State).endSide t x d
          match s.chan? x.part ch with
          | none => put s x.data
          | some c =>
            if c.bkind = 1 ∧ x.data = [] then
              match s.readRows t x (c.rows (x.work.getD 0 0) x.progress) with
              | .ok (s, bs) => put s bs
              | .error r => s.stopRows t x r
            else put s x.data
    | .back d, .sendt ch _ =>
      match other with
      | some (u, y) =>
        match y.op, y.stage with
        | .recvt _ o, .back e => s.landTile t x d u y o e
        | _, _ => s.endSide t x d
      | none =>
        match (if x.partner.isNone then s.chan? x.part ch else none) with
        | none => s.endSide t x d
        | some c =>
          if c.bkind = 1 ∧ x.started then
            match s.badSource x with
            | some va => s.failSide t x { kind := .uncorrectableData, addr := BitVec.ofNat 64 va }
            | none =>
              let bs := s.content x
              match (c.rows (x.work.getD 0 0) x.progress).zipIdx.foldlM (fun s r =>
                s.writeRow t x r.1.1 ((bs.drop (r.2 * (x.progress / 16))).take (x.progress / 16))) s with
              | .ok s => s.endSide t x d
              | .error r => s.stopRows t x r
          else s.endSide t x d
    | .back d, .send .. =>
      match other with
      | some (u, y) => match y.stage with | .back e => (s.endSide u y e).endSide t x d | _ => s.endSide t x d
      | none => s.endSide t x d
    | .back d, .recv _ =>
      match other with
      | some (u, y) => match y.stage with | .back e => (s.endSide t x d).endSide u y e | _ => s.endSide t x d
      | none => s.endSide t x d
    | _, _ => s

/-- TRANSFER_LANDED (R128): the last byte lands. -/
def execTransferLanded (t : Nat) (s : State) : Host.Outcome State Fault Refusal :=
  match nget? s.txns t with
  | none => .next s
  | some x => if s.frozen x then .next s else .next (s.landOp t).pumpAll.wakeAlts

/-! ### spawn (R118, R305) -/

/-- Level entries of a network that cover a process, and the innermost of them. -/
def levelOf (img : NetImage) (index : Nat) : Option Nat :=
  let l := img.levels.zipIdx.filter fun e => e.1.members.contains index
  (l.foldl (fun (a : Option (Nat × Nat)) e =>
    match a with
    | none => some (e.1.depth, e.2)
    | some b => if b.1 < e.1.depth then some (e.1.depth, e.2) else a) none).map Prod.snd

/-- A domain that is the cluster or narrower (PINNED). -/
def narrowDomain : Domain → Bool
  | .context | .core | .cluster => true
  | _ => false

/-- Two cores share an instance of a domain. -/
def sameDomain (d : Domain) (a b : Nat) : Bool :=
  match d with
  | .context | .core => a == b
  | .cluster => clusterOf a == clusterOf b
  | .die => dieOf a == dieOf b
  | _ => true

/-- The clusters of a mask, in ascending node number. -/
def clustersOf (m : BitVec 64) : List Nat := (List.range 64).filter fun c => m.getLsbD c

/-- Cores of a partition. -/
def coresOf (s : State) (part : Nat) : List Nat := (List.range 512).filter fun c => (s.part part).clusters.getLsbD (clusterOf c)

/-- Clusters on which a partition's own networks may run: those it has given no child (R62), and their cores. -/
def ownClusters (s : State) (part : Nat) : List Nat :=
  (clustersOf (s.part part).clusters).filter fun c =>
    !s.parts.any fun e => e.2.parent == some part && e.2.clusters.getLsbD c
def ownCores (s : State) (part : Nat) : List Nat :=
  let l := ownClusters s part
  (coresOf s part).filter fun c => l.contains (clusterOf c)

/-- Members of a level and of every level inside it. -/
def deepMembers (img : NetImage) : Nat → Nat → List Nat
  | 0, _ => []
  | f + 1, l =>
    (match img.levels[l]? with | some v => v.members | none => []) ++
      (img.levels.zipIdx.filter fun e => e.1.parent == some l).flatMap fun e => deepMembers img f e.2

def ctxLevel (img : NetImage) (p : Nat) : Bool := img.levels.any fun l => l.domain == .context && l.members.contains p

/-- Contexts of a core that a `context` level may take. -/
def spareCtxs (s : State) (core : Nat) : List Nat :=
  let c := s.core core
  (List.range 8).filter fun j => (c.ctx j).run.isNone && (c.ctx j).standby.isNone && (nget? c.resv j).isNone

/-- Cores on which process `index` may join the processes of its instance: each level that covers it stays within the instance of its
domain that its members, those that have ended too, have been given, and a `context` level finds a context (R118). -/
def joinCores (s : State) (inst index : Nat) (img : NetImage) : List Nat :=
  let near := (List.range img.levels.length).filter fun l => (deepMembers img 8 l).contains index &&
    ((img.levels[l]?).map NetLevel.domain) != some .context
  let with_ (l : Nat) : List Nat :=
    ((s.procs.filter fun e => e.2.inst == inst && e.2.engine.isNone && (deepMembers img 8 l).contains e.2.index).map fun e => e.2.core)
  (ownCores s (s.inst inst).part).filter fun c =>
    (near.all fun l => (with_ l).all (sameDomain (((img.levels[l]?).map NetLevel.domain).getD .partition) · c)) &&
      (!ctxLevel img index || !(spareCtxs s c).isEmpty)

/-- A process takes the context that a `context` level gives it alone (R118). -/
def State.keepCtx (s : State) (img : NetImage) (index core k : Nat) : State :=
  if ctxLevel img index then
    match (spareCtxs s core).head? with
    | some j => s.modCore core fun c => { c with resv := nset c.resv j k }
    | none => s
  else s

/-- Put `.buf` descriptors of a process on its core, EMPTY (N17, R162). DESIGN CHOICE (log entry 132): none is refused for want of a
descriptor or for an overlap. -/
def State.presetBufs (s : State) (core k base : Nat) (l : List BufDecl) : State :=
  l.foldl (fun s b =>
    let sl := if b.ring then b.slot else b.size
    let n := b.size / max 1 sl
    let d : Buf := { owner := k, ring := b.ring, base := base + b.off, size := b.size, slot := sl, free := n, nslot := n }
    s.modCore core fun c => { c with bufs := nset c.bufs c.freeBuf d }) s

/-- A core that comes to hold a process of an instance holds a copy of its `.spad` image (R370). -/
def State.spadCopy (s : State) (inst core : Nat) : State :=
  let v := s.inst inst
  match nget? s.objs v.obj with
  | none => s
  | some o =>
    if o.img.spad == [] || v.spadCores.contains core then s
    else
      let s := s.modInst inst fun v => { v with spadCores := v.spadCores ++ [core] }
      { s with mem := writeBytes s.mem (spadKey core v.spadBase) o.img.spad }

/-- Where the schedule table of a process lies: after the data image, in process order (R139). -/
def schedAt (o : NetObj) (index : Nat) : Nat :=
  o.dataVa + (o.img.data.length + 7) / 8 * 8 + 8 * ((o.img.procs.take index).foldl (fun n d => n + d.sched.length) 0)

/-- A process record of an instance (Table 6.1), NEW and in its core's queue; a rated one is DORMANT until it fires, and a gang member
waits for its gang to start (WKIND 8). DESIGN CHOICE (log entry 135): LEVEL of a process in no level entry is 0xFFFFFFFF. -/
def State.makeProc (s : State) (k inst index core : Nat) (param : Word) (gang : Nat) : State :=
  let v := s.inst inst
  match nget? s.objs v.obj with
  | none => s
  | some o =>
    let d := o.img.procs.getD index {}
    let lv := levelOf o.img index
    let dom := lv.bind fun l => (o.img.levels[l]?).map NetLevel.domain
    let p : Proc :=
      { st := if d.rated then .dormant else .new, prio := d.prio, rated := d.rated
        pinned := (match dom with | some x => narrowDomain x | none => false), gang := gang, param := param, index := index
        inst := inst, schedBase := BitVec.ofNat 64 (schedAt o index), schedLen := d.sched.length, level := lv.getD 0xFFFFFFFF, core := core
        regimg := BitVec.ofNat 64 (imgKey k)
        firing := d.counts.map fun e => (((paramsOf s v index).getD e.1 0).setWidth 32, e.2) }
    let p := p.start (paramsOf s v index) (entryOf s v index)
    let p := if decide (gang ≠ 0) && !d.rated then { p with wkind := .gang } else p
    let s := ((s.setProc k p).spadCopy inst core).presetBufs core k v.spadBase d.bufs
    if d.rated || decide (gang ≠ 0) then s else s.enqueue k false

/-- The lowest free process number of a partition, from the last given on (R115). -/
def State.freeNum (s : State) (part : Nat) : Nat :=
  let n := (s.part part).nextProc
  nfree (s.procs.map fun e => (numOf e.1, partOf e.1 == part)) (s.procs.length + 1) n

/-- `spawn`: the checks of R305 at issue; the process starts when the earlier accesses are done. -/
def execSpawn (x y : Src) (k : Keep) (s : State) := finish s do
  let i ← s.cur
  let n ← readSrc i x
  let v ← readSrc i y
  let img := match nget? s.objs (s.inst i.pre.inst).obj with | some o => o.img | none => {}
  check (decide (n.toNat < img.procs.length) && (img.procs.getD n.toNat {}).spawned &&
    !img.gangs.any (·.contains n.toNat)) { kind := .illegalOperand, addr := n }
  .ok (s.issuePend i (mkTxn s i (.spawn n.toNat v 0) 200) k)

/-- Start the process of a `spawn`: placed within the domain instance of the issuer's innermost level and of the levels that cover the
process itself (R118, R305). -/
def State.startSpawn (s : State) (t : Nat) (x : Txn) (index : Nat) (param : Word) : State :=
  let p := s.proc x.issuer
  let img := match nget? s.objs (s.inst x.inst).obj with | some o => o.img | none => {}
  let dom := ((img.levels[p.level]?).map NetLevel.domain).getD .partition
  let cores := (joinCores s x.inst index img).filter fun c => sameDomain dom p.core c
  let (s, w) := s.draw
  let num := s.freeNum x.part
  if cores = [] ∨ 2 ^ 26 ≤ num ∨ dom = .context then s.setTxn t { x with stage := .back { vals := [0], kept := [0] } }
  else
    let h := handleOf x.part num
    let core := cores.getD (w.toNat % cores.length) 0
    let s := s.modPart x.part fun q => { q with nextProc := num + 1 }
    let past := s.pastOf x.issuer t
    let s := (((s.makeProc h x.inst index core param 0).keepCtx img index core h).newEpisode h).raiseFloor h past
    -- the new process holds the ends its parameters name
    let s := (paramsOf s (s.inst x.inst) index).zipIdx.foldl (fun (s : State) e =>
      match (img.procs.getD index {}).params[e.2]? with
      | some (.tx _) => s.modChan x.part (e.1.toNat % 2 ^ 24) fun c => { c with holders := c.holders ++ [h], txopen := true }
      | _ => s) s
    s.setTxn t { x with stage := .back { vals := [BitVec.ofNat 64 h], kept := [BitVec.ofNat 64 h] } }

/-! ### exit (R306) -/

/-- What an `exit` still waits for: pending results but for engine statuses, copies into its windows, channel operations on their way, and
the accesses that the closing of its ends comes after, its write-combining stores among them (R306, R323). -/
def exitBusy (s : State) (k : Nat) : Bool :=
  let p := s.proc k
  (s.txns.any fun e => e.2.issuer == k && e.2.op.role.mem && !e.2.performed) ||
  p.out.any (fun t => match nget? s.txns t with | some x => (match x.op with | .eng .. => false | _ => true) | none => false) ||
    decide (0 < p.cpyreg) ||
    s.txns.any fun e => e.2.issuer == k && (match e.2.op with
      | .send .. | .sendt .. | .recv .. | .recvt .. | .chclose .. | .chbind .. => true
      | _ => false)

/-- A blocked sender's message is discarded: its send completes. -/
def State.discardSend (s : State) (ch t : Nat) : State :=
  match nget? s.txns t with
  | none => s
  | some x => (s.leaveQueue ch t x).setTxn t { x with stage := .back (sendDeliver 0), due := s.cycle + 16 }

/-- Messages of a firing's inputs that it did not receive are discarded, of a channel of depth 0 those that its blocked senders hold,
and its reservations let go (R114). -/
def State.endFiring (s : State) (k : Nat) : State :=
  (s.proc k).firing.foldl (fun s e =>
    let ch := e.1.toNat % 2 ^ 24
    let rx := decide (e.1.toNat / 2 ^ 31 = 1)
    match s.chan? (partOf k) ch with
    | none => s
    | some c =>
      let n := (c.resvRx.filter (· == k)).length
      if rx then
        let s := s.setChan (partOf k) ch { c.dropMsg n with resvRx := c.resvRx.filter (· != k) }
        (c.sendq.take (n - c.msgs.length)).foldl (fun s t => s.discardSend ch t) s
      else s.setChan (partOf k) ch { c with resvTx := c.resvTx.filter (· != k) }) s

/-- The end of an `exit` whose park is over. -/
def State.finishExit (s : State) (k : Nat) : State :=
  let p := s.proc k
  match p.engine with
  | some e =>
    -- an engine thread ends DONE; its status is its n2
    let s := s.setProc k { p with st := .exited, exiting := false, hold := none }
    s.modTxn e.txn fun x => { x with stage := .back { vals := [p.nget 2] } }
  | none =>
    let chans := ((s.part (partOf k)).chans).map Prod.fst
    let s := if p.rated then s.endFiring k else s
    let s := ((s.letGo k).endHandler k).endProc k p.rated
    chans.foldl (fun s ch => s.pumpChan (partOf k) ch) s |>.wakeAlts

/-- A parked `exit` ends when nothing is outstanding. -/
def State.tryExit (s : State) (k : Nat) : State :=
  if (s.proc k).exiting && !s.isStopped k && !exitBusy s k then s.finishExit k else s

def execExit (s : State) := finish s do
  let i ← s.cur
  let s := s.addFence i.proc .rel .pkg
  if exitBusy s i.proc then
    .ok (s.modProc i.proc fun p => { p with st := if p.engine.isSome then p.st else .parked, hold := some .results, exiting := true })
  else .ok (s.finishExit i.proc)

/-! ### Waiting (R261, R307) -/

/-- `yield` (R307): the quantum is due at once, and an `alt` reservation is let go (R131). -/
def State.yieldNow (s : State) (i : Issue) : State :=
  let s := s.letGo i.proc
  let s := s.issueOrder i
  match i.pre.ctx with
  | none => s
  | some j => s.modCore i.pre.core fun c => c.setCtx j { c.ctx j with due := true }

def execYield (s : State) := finish s do
  let i ← s.cur
  .ok (s.yieldNow i)

/-- `idle` (R261): block until `ctl.tmo`, or yield when it has passed. -/
def execIdle (s : State) := finish s do
  let i ← s.cur
  if i.pre.tmo.toNat ≤ (virtualTime s (partOf i.proc)).toNat then .ok (s.yieldNow i)
  else .ok (s.block i.proc .timed 0 i.pre.tmo)

end Sys2Proof.Machine
end

