-- ==== Sys2Proof/Machine/Control.lean ====
section
/-! DEFINITION. Control transfer (R248 to R255) and system instructions (R256 to R263). -/

namespace Sys2Proof.Machine

/-! ### Jumps (R248) -/

/-- Make `t` the address of the next word the context fetches. -/
def State.jump (s : State) (t : Word) : State :=
  match s.issue with
  | none => s
  | some i => { s with issue := some { i with next := t } }

/-- A relative target: the displacement in words from the word or pair, FAT_OVERFLOW outside the offset's range. -/
def relTarget (i : Issue) (disp : Int) : Except Abort Word := addOff i.loc (4 * disp)

/-- A register target: space 0x0, 4-aligned; the format bits are dropped. -/
def regTarget (t : Word) : Except Abort Word := do
  check (pSpace t == 0) { kind := .spaceInvalid, addr := t }
  check (t.toNat % 4 == 0) { kind := .illegalOperand, addr := t }
  .ok (BitVec.ofNat 64 (pOff t))

/-- The condition of `bc` on q0 (Table 12.12). -/
def condHolds (c : Cond) (v : Word) : Bool :=
  match c with
  | .always => true
  | .z => v == 0
  | .nz => v != 0
  | .lt => v.msb
  | .ge => !v.msb
  | .gt => !v.msb && v != 0
  | .le => v.msb || v == 0

/-- `br` and `bc`: q0 is read even where the condition is `always` (R249). -/
def branch (s : State) (c : Cond) (d : BitVec 18) : Except Abort State := do
  let i ← s.cur
  let v ← readQ0 i
  if condHolds c v then
    let t ← relTarget i d.toInt
    .ok (s.jump t)
  else .ok s

def execBr (d : BitVec 18) (s : State) := finish s (branch s .always d)
def execBc (c : Cond) (d : BitVec 18) (s : State) := finish s (branch s c d)

/-- `call`: the return address goes to q0 and n15 (R250). -/
def execCall (d : BitVec 18) (s : State) := finish s do
  let i ← s.cur
  let t ← relTarget i d.toInt
  .ok ((s.push i i.next (some 15)).jump t)
def execCalli (x : Src) (s : State) := finish s do
  let i ← s.cur
  let a ← readSrc i x
  let t ← regTarget a
  .ok ((s.push i i.next (some 15)).jump t)

/-- `jmpi` and `ret` (R250). -/
def jumpReg (s : State) (x : Src) : Except Abort State := do
  let i ← s.cur
  let a ← readSrc i x
  let t ← regTarget a
  .ok (s.jump t)
def execJmpi (x : Src) (s : State) := finish s (jumpReg s x)
def execRet (x : Src) (s : State) := finish s (jumpReg s x)

/-- `loop`: decrement, push, branch while not zero (R251). -/
def execLoop (r : BitVec 5) (d : BitVec 17) (s : State) := finish s do
  let i ← s.cur
  let a ← readSrc i (.n r)
  if a - 1 = 0 then .ok (s.push i (a - 1) (some r))
  else
    let t ← relTarget i d.toInt
    .ok ((s.push i (a - 1) (some r)).jump t)

/-- `rep` (R252): a pass count of 0 skips the body. -/
def execRep (x : Src) (b sn sv : BitVec 4) (s : State) := finish s do
  let i ← s.cur
  let n ← readSrc i x
  check (decide (n.toNat < 2 ^ 24)) { kind := .illegalOperand, addr := n }
  if n = 0 then
    let t ← addOff i.next (8 * ((b.toNat : Int) + 1))
    .ok (s.jump t)
  else
    .ok (s.modProc i.proc fun p =>
      { p with rep := { active := true, remain := n.toNat, b := b.toNat, sn := sn.toNat, sv := sv.toNat, pos := 0 } })

def execNop (s : State) := finish s (s.cur.map fun _ => s)
def execNopB (s : State) := finish s (s.cur.map fun _ => s)

/-! ### Traps and returns (R256 to R258) -/

/-- `trap`: a TRAP record in class A (R176, R256). -/
def execTrap (x : Src) (n : BitVec 6) (s : State) := finish s do
  let i ← s.cur
  let a ← readSrc i x
  .ok (s.raiseAfter { kind := .trap, sub := n.toNat, e5 := a })

/-- `brk`: BREAKPOINT on the word, but a `nop` at the first issue after a resume from it (R257). -/
def execBrk (s : State) := finish s do
  let i ← s.cur
  if i.pre.brkOnce then .ok (s.modProc i.proc fun p => { p with brkOnce := false })
  else .error (.trap { kind := .breakpoint })

/-- The record of process `h` that the issuer holds: a handler instance the one it was spawned with, the manager every one
escalated to it (R258). -/
def heldRec (s : State) (i : Issue) (h : Nat) : Option Nat :=
  let mine := match i.pre.handles with | some id => [id] | none => []
  let mgr := if s.isMgr i.proc then s.managed.filter (fun id =>
    match nget? s.recs id with | some r => partOf r.handle == partOf i.proc | none => false) else []
  (mine ++ mgr).find? fun id => match nget? s.recs id with | some r => r.handle == h | none => false

/-- `eret` (R258). -/
def execEret (x : Src) (d : Disp) (s : State) := finish s do
  let i ← s.cur
  check (i.pre.isHandler || s.isMgr i.proc) { kind := .priv }
  let a ← readSrc i x
  match heldRec s i (a.toNat % 2 ^ 32) with
  | none => .error (.trap { kind := .illegalOperand, other := a.setWidth 32, addr := a })
  | some id =>
    let s := s.modProc i.proc fun p => { p with handles := if p.handles = some id then none else p.handles }
    .ok (s.dispose id d)

/-! ### Control registers (R243, R244, R259, R260) -/

/-- The matrix set: its owner, or an unowned set that the issuer takes (R155). -/
def State.claimMatrix (s : State) (i : Issue) : Except Abort State :=
  match (s.core i.pre.core).owner with
  | none => .ok (s.modCore i.pre.core fun c => { c with owner := some i.proc })
  | some k => if k = i.proc then .ok s else .error (.trap { kind := .illegalOperand })

/-- The value of a control register (R259); a write-only register reads as 0. -/
def ctlValue (s : State) (i : Issue) (c : Ctl) : Word :=
  let q := s.part (partOf i.proc)
  let v := s.inst i.pre.inst
  match c with
  | .flags => i.pre.flags
  | .rmode => i.pre.rmode
  | .rot => i.pre.rot
  | .svc => i.pre.svc
  | .dlmiss => i.pre.dlmiss
  | .heapoff => i.pre.heapoff
  | .accept => i.pre.accept
  | .compat => i.pre.compat
  | .watch0 => i.pre.watch0
  | .watch1 => i.pre.watch1
  | .tmo => i.pre.tmo
  | .ptag => i.pre.ptag
  | .tokens => (s.core i.pre.core).tokens
  | .heapbase => BitVec.ofNat 64 v.heapBase
  | .heaplim => BitVec.ofNat 64 v.heapLim
  | .part => BitVec.ofNat 64 (q.level % 4 * 64 + partOf i.proc)
  | .dmap j => (s.core i.pre.core).dmap[j]
  | .vtbase => q.vtbase
  | .vtscale => q.vtscale
  | .vtoff => q.vtoff
  | .vtfloor => q.vtfloor
  | .migpol => q.migpol
  | .mighand => q.mighand
  | .mgrhand => q.mgrhand
  | .shoot => 0
  | .ptroot => q.ptroot

/-- Reading or writing `ctl.dmap0` to `ctl.dmap5` is a matrix instruction (R155, R243). -/
def ctlMatrix (s : State) (i : Issue) (c : Ctl) : Except Abort State :=
  match c with
  | .dmap _ => s.claimMatrix i
  | _ => .ok s

/-- `ctlr` (R259). -/
def execCtlr (c : Ctl) (k : Keep) (s : State) := finish s do
  let i ← s.cur
  check (c != .ptroot || s.isMgr i.proc) { kind := .priv }
  let s ← ctlMatrix s i c
  .ok (s.push i (ctlValue s i c) k)

/-- Who may write a register (R260 step 2): nobody below firmware, the manager, or anyone. -/
def ctlReadOnly : Ctl → Bool
  | .dlmiss | .tokens | .heapbase | .heaplim | .part | .vtbase | .vtscale | .vtoff | .vtfloor | .ptroot => true
  | _ => false
def ctlManager : Ctl → Bool
  | .migpol | .mighand | .mgrhand | .shoot => true
  | _ => false

/-- Bits of a register that are not reserved (R6). -/
def ctlMask : Ctl → Word
  | .flags => 0x7F
  | .rmode => 0x7
  | .rot => 0xF0F
  | .svc => 0x3FFF
  | .heapoff => 0x7FFFFFFFFFFFF
  | .accept => 0x1
  | .compat => 0x1
  | .watch0 | .watch1 => 0xFC07FFFFFFFFFFFF
  | .ptag => 0x1FE
  | .migpol => 0x0000FFFFFFFFFF01
  | .mighand | .mgrhand => 0xFFFFFFFF
  | _ => BitVec.allOnes 64

/-- A write of a register's fields. -/
def ctlStore (s : State) (i : Issue) (c : Ctl) (v : Word) : State :=
  let w := v &&& ctlMask c
  let proc (f : Proc → Proc) := s.modProc i.proc f
  let part (f : Part → Part) := s.modPart (partOf i.proc) f
  match c with
  | .flags => proc fun p => { p with flags := w }
  | .rmode => proc fun p => { p with rmode := w }
  | .rot => proc fun p => { p with rot := w }
  | .svc => proc fun p => { p with svc := w }
  | .heapoff => proc fun p => { p with heapoff := w }
  | .accept => proc fun p => { p with accept := w }
  | .compat => proc fun p => { p with compat := w }
  | .watch0 => proc fun p => { p with watch0 := w }
  | .watch1 => proc fun p => { p with watch1 := w }
  | .tmo => proc fun p => { p with tmo := w }
  | .ptag => proc fun p => { p with ptag := w }
  | .dmap j => s.modCore i.pre.core fun k => { k with dmap := k.dmap.set j w }
  | .migpol => part fun q => { q with migpol := w }
  | .mighand => part fun q => { q with mighand := w }
  | .mgrhand => part fun q => { q with mgrhand := w }
  | _ => s

/-- `ctlw` (R260): privilege, then the operand, then values a register forbids. -/
def execCtlw (c : Ctl) (x : Src) (s : State) := finish s do
  let i ← s.cur
  check (!ctlReadOnly c && (!ctlManager c || s.isMgr i.proc)) { kind := .priv }
  let a ← readSrc i x
  check (c != .rmode || decide (a.toNat % 8 < 5)) { kind := .illegalOperand, addr := a }
  let s ← ctlMatrix s i c
  .ok (ctlStore s i c a)

/-- `ctlw` to `ctl.shoot`: the shoot-down of a page starts; a pending 0 arrives when it is complete (R93, R95, R260). The
latency is the bound that R93 gives unloaded, 4 µs. -/
def shootWord (s : State) (x : Src) : Except Abort State := do
  let i ← s.cur
  needMgr s i
  let a ← readSrc i x
  .ok (s.issuePend i (mkTxn s i (.shoot (bits a.toNat 50 16) (a.msb)) 7000) none)
def execShootDown (x : Src) (s : State) := finish s (shootWord s x)
def execShootDownDeny (x : Src) (s : State) := finish s (shootWord s x)

/-! ### Power (R262) -/

/-- The power word (Table 13.5) with the sensor reading `temp`. -/
def powerWord (s : State) (core temp : Nat) : Word :=
  BitVec.ofNat 64 (temp % 256 * 2 ^ 48 + (if (s.die (dieOf core)).slow then 2 ^ 47 else 0)) + (s.core core).tokens

/-- `pwrq` (R262): TEMP is a free value, since the spec gives no model of the sensor. -/
def execPwrq (k : Keep) (s : State) := finish s do
  let i ← s.cur
  let d := s.draw
  .ok (d.1.push i (powerWord s i.pre.core d.2.toNat) k)

/-- `harvest` (R263): a pending 0 that arrives when every log of the partition is merged (R96). -/
def execHarvest (k : Keep) (s : State) := finish s do
  let i ← s.cur
  needMgr s i
  .ok (s.issuePend i (mkTxn s i .harvest 100) k)

/-! ### Words that are no instruction -/

/-- A word that fails an encoding check raises ILLEGAL_INSTR precisely (R238, R246). -/
def execEncodingNotInstruction (_w : W32) (s : State) := finish s do
  let _ ← s.cur
  .error (.trap { kind := .illegalInstr })

end Sys2Proof.Machine
end

