-- ==== Sys2Proof/Machine/Vector.lean ====
section
/-! DEFINITION. Vector instructions (R324 to R345): vector memory, lane arithmetic, reductions, permutes, predicates and
quantisation. -/

namespace Sys2Proof.Machine

/-! ### Lanes (R154, R324, R325) -/

/-- Lane width of a type. -/
def laneWidth : VTy → Nat
  | .f32 | .i32 | .n32 => 32
  | _ => 16

/-- Lane width of a `.32` or `.16` suffix. -/
def halfWidth (half : Bool) : Nat := if half then 16 else 32

/-- The floating layout of a type. -/
def laneFmt : VTy → Option Fmt
  | .f32 => some binary32 | .bf16 => some bfloat16 | .f16 => some float16 | _ => none

/-- A signed integer type. -/
def laneSigned : VTy → Bool
  | .i32 | .i16 => true
  | _ => false

/-- The range of an integer type. -/
def laneLo (t : VTy) : Int := if (laneSigned t) then -2 ^ ((laneWidth t) - 1) else 0
def laneHi (t : VTy) : Int := if (laneSigned t) then 2 ^ ((laneWidth t) - 1) - 1 else 2 ^ (laneWidth t) - 1

/-- Lane `i` of a register. -/
def laneAt (w : Nat) (v : VReg) (i : Nat) : Nat := v.toNat / 2 ^ (w * i) % 2 ^ w

/-- A lane as a signed integer. -/
def sLane (w x : Nat) : Int := if x < 2 ^ (w - 1) then x else (x : Int) - 2 ^ w

/-- A lane as the integer of its type. -/
def laneInt (t : VTy) (x : Nat) : Int := if (laneSigned t) then sLane (laneWidth t) x else x

/-- The low `w` bits of an integer. -/
def wrapLane (w : Nat) (v : Int) : Nat := (v % 2 ^ w).toNat

/-- Compute the active lanes; the others keep what they hold. Flags are the OR over the active lanes (R324, R326). -/
def mapLanes (w : Nat) (p : PReg) (old : VReg) (f : Nat → Nat × Word) : VReg × Word :=
  let r := (List.range (2048 / w)).foldl (fun (a : Nat × Word) i =>
    if p.getLsbD i then
      let v := f i
      (a.1 + v.1 % 2 ^ w * 2 ^ (w * i), a.2 ||| v.2)
    else (a.1 + laneAt w old i * 2 ^ (w * i), a.2)) (0, 0)
  (BitVec.ofNat 2048 r.1, r.2)

/-- The bytes of the lanes that a form writes. -/
def laneBytes (w : Nat) (act : Nat → Bool) : BitVec 256 :=
  BitVec.ofNat 256 ((List.range (2048 / w)).foldl (fun a i =>
    if act i then a + (2 ^ (w / 8) - 1) * 2 ^ (w / 8 * i) else a) 0)

/-- Every byte of a register. -/
def wholeReg : BitVec 256 := BitVec.allOnes 256

/-- A register pending on an earlier operation raises UNREADY_OPERAND where it is read (R242, R325). -/
def freeV (i : Issue) (r : BitVec 5) : Except Abort Unit :=
  if i.pre.vPend.any (fun e => e.1 == i.pre.vphys r) then .error (unready i r.toNat) else .ok ()

/-- A destination that is pending, be it on the A word of the pair, is written by no other instruction (R242, R325). -/
def freeW (s : State) (i : Issue) (r : BitVec 5) : Except Abort Unit :=
  if (s.proc i.proc).vPend.any (fun e => e.1 == i.pre.vphys r) then .error (unready i r.toNat) else .ok ()

/-- A source register (R154, R325). -/
def readV (i : Issue) (r : BitVec 5) : Except Abort VReg := do
  freeV i r
  .ok (i.pre.vget (i.pre.vphys r))

/-- What `vd` held. -/
def Issue.oldV (i : Issue) (r : BitVec 5) : VReg := i.pre.vget (i.pre.vphys r)

/-- A turn-ready result and its flags (R325, R326). -/
def State.putV (s : State) (i : Issue) (vd : BitVec 5) (r : VReg × Word) : State :=
  (s.modProc i.proc fun p => p.vset (i.pre.vphys vd) r.1).setFlags i r.2

/-- Issue an operation that marks `vd` pending; a heavy one also pushes one pending entry (R242, R327). -/
def State.issueVec (s : State) (i : Issue) (x : Txn) (vd : BitVec 5) (mask : BitVec 256) (heavy : Bool) : State :=
  let t := s.nextTxn
  let r := if heavy then (s.proc i.proc).pushPend t none else (s.proc i.proc, {})
  let ph := i.pre.vphys vd
  let p := { r.1 with vPend := (ph, t) :: r.1.vPend, out := r.1.out ++ [t] }
  (s.newTxn { x with tgt := { r.2 with vregs := [ph], vmask := mask } }).1.setProc i.proc p

/-- A pending result (R325). -/
def State.laterV (s : State) (i : Issue) (vd : BitVec 5) (mask : BitVec 256) (r : VReg × Word) (lat : Nat) : State :=
  s.issueVec i (mkTxn s i (.value { vecs := [r.1], flags := r.2 }) lat) vd mask false

/-- A heavy form: a token, and one entry that holds 0 (R157, R158, R327). -/
def State.heavyV (s : State) (i : Issue) (vd : BitVec 5) (r : VReg × Word) (lat : Nat) : State :=
  let x := { mkTxn s i (.value { vals := [0], vecs := [r.1], flags := r.2 }) lat with token := true }
  (s.issueVec i x vd wholeReg true).takeToken i.pre.core

/-- A pending lane form, heavy where it is marked so and selects p0. -/
def State.laneForm (s : State) (i : Issue) (vd : BitVec 5) (w : Nat) (p : BitVec 3) (r : VReg × Word) (lat : Nat)
    (heavy : Bool) : Except Abort State :=
  if heavy && p == 0 then do
    needToken s i
    .ok (s.heavyV i vd r lat)
  else .ok (s.laterV i vd (laneBytes w fun j => (i.pre.pget p).getLsbD j) r lat)

/-- The mode of lane arithmetic (R326). -/
def Issue.vrm (i : Issue) : Rm := arithRm (i.rm .dyn)

/-! ### Vector memory (R328 to R331) -/

/-- Runs of active lanes: the first lane and the count. -/
def runs (p : PReg) (i : Nat) : Nat → List (Nat × Nat)
  | 0 => []
  | n + 1 =>
    let t := runs p (i + 1) n
    if p.getLsbD i then
      match t with
      | (j, k) :: u => if j = i + 1 then (i, k + 1) :: u else (i, 1) :: t
      | [] => [(i, 1)]
    else t

/-- Join two accesses of one form. -/
def Access.join (a b : Access) : Access :=
  { st := b.st, parts := a.parts ++ b.parts, lat := max a.lat b.lat, wait := a.wait || b.wait, ptype := max a.ptype b.ptype
    bad := match a.bad with | some v => some v | none => b.bad
    logged := match a.logged with | some v => some v | none => b.logged }

/-- The checks of R285 but for translation, over every range of a form. -/
def rangeChecks (s : State) (i : Issue) (f : Form) (k : Acc5) (p : Word) (l : List (Int × Nat)) :
    Except Abort (List ((Int × Nat) × Option (Nat × WRegion))) := do
  let sp := pSpace p
  let off (d : Int) : Int := pOff p + d
  if l.isEmpty then .ok []
  else do
    check (decide (8 ≤ sp) || permitted f sp) { kind := .illegalOperand, addr := p }
    check (decide (sp < 8)) { kind := .spaceInvalid, addr := p }
    l.mapM fun e => do
      let w ← spaceRange s i f k.writes sp (off e.1) e.2
      .ok (e, w)

/-- The checks, and the places of the ranges in their order. -/
def rangeAccess (s : State) (i : Issue) (f : Form) (k : Acc5) (p : Word) (l : List (Int × Nat)) : Except Abort Access := do
  let ws ← rangeChecks s i f k p l
  ws.foldlM (fun (a : Access) e => do
    let b ← placeAccess a.st i k e.2 (pSpace p) ((pOff p : Int) + e.1.1).toNat e.1.2
    .ok (a.join b)) { st := s }

/-- The ranges of a vector access. -/
def vecAccess (s : State) (i : Issue) (k : Acc5) (p : Word) (l : List (Int × Nat)) : Except Abort Access :=
  rangeAccess s i .vector k p l

/-- Parts with the byte of the register that each starts at. -/
def withLanes (start : Nat) (l : List Part8) : List (Nat × Part8) :=
  match l with
  | [] => []
  | p :: t => (start, p) :: withLanes (start + p.len) t

/-- Ranges of the active lanes of a whole register: register byte, offset and length. -/
def laneRanges (w : Nat) (p : PReg) : List (Nat × Nat) :=
  (runs p 0 (2048 / w)).map fun e => (w / 8 * e.1, w / 8 * e.2)

/-- The first parts that make up `n` bytes, and the rest. -/
def takeBytes (n : Nat) : List Part8 → List Part8 × List Part8
  | [] => ([], [])
  | q :: u => if n = 0 then ([], q :: u) else let r := takeBytes (n - q.len) u; (q :: r.1, r.2)

/-- Give the parts of an access back to the ranges they came from. -/
def shareParts (l : List (Nat × Nat)) (ps : List Part8) : List (Nat × Part8) :=
  match l with
  | [] => []
  | (b, n) :: t =>
    let r := takeBytes n ps
    withLanes b r.1 ++ shareParts t r.2

/-- `vld` (R329). -/
def execVld (half : Bool) (vd : BitVec 5) (x : Src) (p : BitVec 3) (s : State) := finish s do
  let i ← s.cur
  freeW s i vd
  let a ← readSrc i x
  let w := halfWidth half
  let pr := i.pre.pget p
  let l := laneRanges w pr
  check (l.isEmpty || pOff a % (w / 8) == 0) { kind := .illegalOperand, addr := a }
  let c ← vecAccess s i .load a (l.map fun e => ((e.1 : Int), e.2))
  let t := s.nextTxn
  let op : Op := .vload (shareParts l c.parts) (i.oldV vd)
  .ok ((c.st.issueVec i (accessTxn i c op) vd (laneBytes w fun j => pr.getLsbD j) false).afterLoad i c t)

/-- Bytes of a register from a byte on. -/
def regBytes (v : VReg) (b n : Nat) : List Byte := leBytes n (v.toNat / 2 ^ (8 * b))

/-- Issue a vector store: its translated parts as one store, and one side-log entry for each faulting page (R94, R329). A tagged word is one
arrival, once all of them have been applied; one that stores nothing is complete at once (R244). -/
def State.issueVst (s : State) (i : Issue) (c : Access) (l : List (Part8 × List Byte)) : Except Abort State :=
  let virt (p : Part8) : Option Nat := match p.at_ with | .virt o => some (o / 2 ^ 16) | _ => none
  let good := l.filter fun e => (virt e.1).isNone
  let pages := (l.filterMap fun e => virt e.1).foldl (fun a v => if a.contains v then a else a ++ [v]) []
  if c.bad.isSome then .ok (c.st.issueQuiet (accessTxn i c (.store (l.map Prod.fst) (l.flatMap Prod.snd))))
  else if 64 < (s.sideLogOf i.proc).length + pages.length then .error (.hold .sideLog)
  else
    let t := c.st.nextTxn
    let n := pages.length + if good.isEmpty then 0 else 1
    let kin := if i.pre.ptag.getLsbD 8 && decide (1 < n) then (List.range n).map (t + ·) else []
    let x : Txn := { accessTxn i c (.store (good.map Prod.fst) (good.flatMap Prod.snd)) with wide := true, kin := kin }
    let s :=
      if l.isEmpty then c.st.tagArrival x x.clock
      else if good.isEmpty then c.st
      else (c.st.issueQuiet x).holdAccess i c t
    .ok (pages.foldl (fun (s : State) v =>
      let mine := l.filter fun e => virt e.1 == some v
      let u := s.nextTxn
      let y : Txn := { accessTxn i c (.store (mine.map Prod.fst) (mine.flatMap Prod.snd)) with wide := true, stage := .logged, kin := kin }
      let s := (s.issueQuiet y).logSide i.proc { txn := u, part := partOf i.proc, vpn := v }
      let va := ((mine.head?).map fun e => e.1.va).getD 0
      s.deferToManager i.proc (pageFault .store ((mine.map fun e => e.1.len).foldl (· + ·) 0) va (partOf i.proc) none) i.loc i.bword) s)

/-- `vst` (R329). -/
def execVst (half : Bool) (vd : BitVec 5) (x : Src) (p : BitVec 3) (s : State) := finish s do
  let i ← s.cur
  let v ← readV i vd
  let a ← readSrc i x
  let w := halfWidth half
  let l := laneRanges w (i.pre.pget p)
  check (l.isEmpty || pOff a % (w / 8) == 0) { kind := .illegalOperand, addr := a }
  let c ← vecAccess s i .store a (l.map fun e => ((e.1 : Int), e.2))
  let s ← s.issueVst i c ((shareParts l c.parts).map fun e => (e.2, regBytes v e.1 e.2.len))
  .ok (s.watch i false true c.parts)

/-- Element size of a plain format code that `vldb` takes (R330). -/
def plainSize (code : Nat) : Option Nat :=
  if code = 0x01 then some 1 else if code = 0x09 then some 4 else if code = 0x0B ∨ code = 0x0C then some 2 else none

/-- `vldb` (R330): plain elements under the predicate, or whole interleaved blocks. -/
def execVldb (vd : BitVec 5) (x : Src) (p : BitVec 3) (s : State) := finish s do
  let i ← s.cur
  freeW s i vd
  let a ← readSrc i x
  let code := pFmt a
  let pr := i.pre.pget p
  let bad : Trap := { kind := .illegalOperand, addr := a }
  check (pBl a == 0) bad
  let l ← (match plainSize code, blkOfCode code with
    | some n, _ =>
      let r := (runs pr 0 64).map fun e => ((n * e.1 : Nat), n * e.2)
      if r.isEmpty || pOff a % n == 0 then .ok r else .error (.trap bad)
    | none, some (f, false) => .ok [(0, 64 / f.count * (f.eb + f.sb))]
    | none, _ => .error (.trap bad) : Except Abort (List (Nat × Nat)))
  let c ← vecAccess s i .load a (l.map fun e => ((e.1 : Int), e.2))
  let t := s.nextTxn
  let op : Op := .vldb c.parts code (i.oldV vd) pr
  .ok ((c.st.issueVec i { accessTxn i c op with due := s.cycle + c.lat + 8 } vd (laneBytes 32 fun j => pr.getLsbD j) false).afterLoad
    i c t)

/-- The offsets of the lanes of a gather or scatter (R331). -/
def gatherAt (w : Nat) (idx : VReg) : List (Int × Nat) :=
  (List.range (2048 / w)).map fun j => (sLane w (laneAt w idx j) * (w / 8 : Nat), w / 8)

/-- Every lane aligned: the first that is not decides the fault. -/
def gatherAlign (p : Word) (l : List (Int × Nat)) : Except Abort Unit :=
  match l.find? fun e => ((pOff p : Int) + e.1) % e.2 != 0 with
  | some e => .error (.trap { kind := .illegalOperand, addr := BitVec.ofNat 64 (fatOf (pSpace p) (((pOff p : Int) + e.1) % 2 ^ 51).toNat) })
  | none => .ok ()

/-- `vgat` (R331). -/
def gather (s : State) (w : Nat) (vd : BitVec 5) (x : Src) (vb : BitVec 5) : Except Abort State := do
  let i ← s.cur
  let idx ← readV i vb
  freeW s i vd
  let a ← readSrc i x
  let l := gatherAt w idx
  gatherAlign a l
  let c ← vecAccess s i .load a l
  let t := s.nextTxn
  let op : Op := .vload (shareParts ((List.range (2048 / w)).map fun j => (w / 8 * j, w / 8)) c.parts) (i.oldV vd)
  .ok ((c.st.issueVec i (accessTxn i c op) vd wholeReg false).afterLoad i c t)
def execVgat32 (vd : BitVec 5) (x : Src) (vb : BitVec 5) (s : State) := finish s (gather s 32 vd x vb)
def execVgat16 (vd : BitVec 5) (x : Src) (vb : BitVec 5) (s : State) := finish s (gather s 16 vd x vb)

/-- `vsca` (R331): lanes are applied in ascending order. -/
def scatter (s : State) (w : Nat) (vd : BitVec 5) (x : Src) (vb : BitVec 5) : Except Abort State := do
  let i ← s.cur
  let idx ← readV i vb
  let v ← readV i vd
  let a ← readSrc i x
  let l := gatherAt w idx
  gatherAlign a l
  let c ← vecAccess s i .store a l
  let ps := shareParts ((List.range (2048 / w)).map fun j => (w / 8 * j, w / 8)) c.parts
  let s ← s.issueVst i c (ps.map fun e => (e.2, regBytes v e.1 e.2.len))
  .ok (s.watch i false true c.parts)
def execVsca32 (vd : BitVec 5) (x : Src) (vb : BitVec 5) (s : State) := finish s (scatter s 32 vd x vb)
def execVsca16 (vd : BitVec 5) (x : Src) (vb : BitVec 5) (s : State) := finish s (scatter s 16 vd x vb)

/-! ### Lane arithmetic (R332, R333) -/

/-- A form of two registers: floating lanes pending, integer lanes turn-ready. -/
def arith (s : State) (t : VTy) (vd va vb : BitVec 5) (p : BitVec 3) (heavy : Bool)
    (ff : Fmt → Rm → Nat → Nat → Nat × Word) (fi : Int → Int → Int) : Except Abort State := do
  let i ← s.cur
  let a ← readV i va
  let b ← readV i vb
  freeW s i vd
  let w := (laneWidth t)
  let pr := i.pre.pget p
  match (laneFmt t) with
  | some f =>
    let r := mapLanes w pr (i.oldV vd) fun j => ff f i.vrm (laneAt w a j) (laneAt w b j)
    s.laneForm i vd w p r 16 heavy
  | none =>
    .ok (s.putV i vd (mapLanes w pr (i.oldV vd) fun j => (wrapLane w (fi ((laneInt t) (laneAt w a j)) ((laneInt t) (laneAt w b j))), 0)))

def execVadd (t : VTy) (vd va vb : BitVec 5) (p : BitVec 3) (s : State) := finish s (arith s t vd va vb p false fAdd (· + ·))
def execVsub (t : VTy) (vd va vb : BitVec 5) (p : BitVec 3) (s : State) := finish s (arith s t vd va vb p false fSub (· - ·))
def execVmul (t : VTy) (vd va vb : BitVec 5) (p : BitVec 3) (s : State) := finish s (arith s t vd va vb p true fMul (· * ·))
def execVmin (t : VTy) (vd va vb : BitVec 5) (p : BitVec 3) (s : State) :=
  finish s (arith s t vd va vb p false (fun f _ => fMinMax f false) min)
def execVmax (t : VTy) (vd va vb : BitVec 5) (p : BitVec 3) (s : State) :=
  finish s (arith s t vd va vb p false (fun f _ => fMinMax f true) max)

/-- `vfma` and `vfms` (R333): a NaN addend keeps its sign. -/
def fused (s : State) (f : Fmt) (neg : Bool) (vd va vb vc : BitVec 5) (p : BitVec 3) : Except Abort State := do
  let i ← s.cur
  let a ← readV i va
  let b ← readV i vb
  let c ← readV i vc
  freeW s i vd
  let w := f.width
  let addend (x : Nat) : Nat := if neg && !isNaN f x then flipSign f x else x
  let r := mapLanes w (i.pre.pget p) (i.oldV vd) fun j =>
    fFma f i.vrm (laneAt w a j) (laneAt w b j) (addend (laneAt w c j))
  s.laneForm i vd w p r 24 true

def execVfmaF32 (vd va vb vc : BitVec 5) (p : BitVec 3) (s : State) := finish s (fused s binary32 false vd va vb vc p)
def execVfmsF32 (vd va vb vc : BitVec 5) (p : BitVec 3) (s : State) := finish s (fused s binary32 true vd va vb vc p)
def execVfmaBf16 (vd va vb vc : BitVec 5) (p : BitVec 3) (s : State) := finish s (fused s bfloat16 false vd va vb vc p)
def execVfmsBf16 (vd va vb vc : BitVec 5) (p : BitVec 3) (s : State) := finish s (fused s bfloat16 true vd va vb vc p)
def execVfmaF16 (vd va vb vc : BitVec 5) (p : BitVec 3) (s : State) := finish s (fused s float16 false vd va vb vc p)
def execVfmsF16 (vd va vb vc : BitVec 5) (p : BitVec 3) (s : State) := finish s (fused s float16 true vd va vb vc p)

/-! ### Unary lane forms (R334) -/

/-- A turn-ready form of one register. -/
def unaryNow (s : State) (w : Nat) (vd va : BitVec 5) (p : BitVec 3) (g : Nat → Nat) : Except Abort State := do
  let i ← s.cur
  let a ← readV i va
  freeW s i vd
  .ok (s.putV i vd (mapLanes w (i.pre.pget p) (i.oldV vd) fun j => (g (laneAt w a j), 0)))

/-- A pending floating form of one register. A type that is no float has no encoding. -/
def unaryLater (s : State) (t : VTy) (vd va : BitVec 5) (p : BitVec 3) (lat : Nat) (g : Fmt → Rm → Nat → Nat × Word) :
    Except Abort State := do
  let i ← s.cur
  match (laneFmt t) with
  | none => .error (.trap { kind := .illegalInstr })
  | some f =>
    let a ← readV i va
    freeW s i vd
    let r := mapLanes (laneWidth t) (i.pre.pget p) (i.oldV vd) fun j => g f (i.rm .dyn) (laneAt (laneWidth t) a j)
    .ok (s.laterV i vd (laneBytes (laneWidth t) fun j => (i.pre.pget p).getLsbD j) r lat)

def execVabs (t : VTy) (vd va : BitVec 5) (p : BitVec 3) (s : State) :=
  finish s (unaryNow s (laneWidth t) vd va p fun x => match (laneFmt t) with
    | some f => fmag f x
    | none => (sLane (laneWidth t) x).natAbs % 2 ^ (laneWidth t))
def execVneg (t : VTy) (vd va : BitVec 5) (p : BitVec 3) (s : State) :=
  finish s (unaryNow s (laneWidth t) vd va p fun x => match (laneFmt t) with
    | some f => flipSign f x
    | none => wrapLane (laneWidth t) (-(x : Int)))
def execVfrint (t : VTy) (vd va : BitVec 5) (p : BitVec 3) (s : State) := finish s (unaryLater s t vd va p 16 fRint)
def execVfexf (t : VTy) (vd va : BitVec 5) (p : BitVec 3) (s : State) :=
  finish s (unaryLater s t vd va p 24 fun f _ x => fExf f x)

/-- One of two bracketing values, by the part's free choice; ±∞ where the exact value is beyond the largest finite one. -/
def bracket (f : Fmt) (neg : Bool) (upper : Bool) (r : Rm → Nat × Word) : Nat × Word :=
  let lo := r .rtz
  let hi := r (if neg then .rdn else .rup)
  if lo.2 &&& fNX = 0 then (lo.1, lo.2)
  else if hi.2 &&& fOF ≠ 0 then (withSign f neg f.inf, fOF ||| fNX)
  else
    let v := if upper then hi.1 else lo.1
    (v, fNX ||| flagIf (decide (fmag f v < 2 ^ f.fbits)) fUF)

/-- `vrcp` of a lane. -/
def rcpLane (f : Fmt) (x : Nat) : Nat × Word :=
  bracket f (fneg? f x) (Config.rcpChoice f.width x % 2 == 1) fun rm => fDiv f rm ((f.bias).toNat * 2 ^ f.fbits) x

/-- 1 / √x of a positive finite value under a mode. -/
def rootInv (f : Fmt) (rm : Rm) (x : Nat) : Nat × Word :=
  let odd := fexp f x % 2 != 0
  let m := if odd then 2 * fman f x else fman f x
  let e := if odd then fexp f x - 1 else fexp f x
  let k := 2 * f.fbits + 16
  let r := isqrt (2 ^ (2 * k) / m)
  roundF f rm false (sticky r (r * r * m != 2 ^ (2 * k))) (-(e / 2) - k - 1)

/-- `vrsq` of a lane. -/
def rsqLane (f : Fmt) (x : Nat) : Nat × Word :=
  match nanOf f [x] with
  | some r => r
  | none =>
    if isZero f x then (withSign f (fneg? f x) f.inf, fDZ)
    else if fneg? f x then invalid f
    else if isInf f x then (0, 0)
    else bracket f false (Config.rsqChoice f.width x % 2 == 1) fun rm => rootInv f rm x

def execVrcp (t : VTy) (vd va : BitVec 5) (p : BitVec 3) (s : State) :=
  finish s (unaryLater s t vd va p 32 fun f _ x => rcpLane f x)
def execVrsq (t : VTy) (vd va : BitVec 5) (p : BitVec 3) (s : State) :=
  finish s (unaryLater s t vd va p 32 fun f _ x => rsqLane f x)
def execVfclass (t : VTy) (vd va : BitVec 5) (p : BitVec 3) (s : State) :=
  finish s (unaryNow s (laneWidth t) vd va p fun x => match (laneFmt t) with | some f => fClass f x | none => 0)
/-- The count of ones of a natural number. -/
def ones (w x : Nat) : Nat := (List.range w).foldl (fun n i => n + x / 2 ^ i % 2) 0
def execVpopc (t : VTy) (vd va : BitVec 5) (p : BitVec 3) (s : State) :=
  finish s (unaryNow s (laneWidth t) vd va p (ones (laneWidth t)))
def execVmov (half : Bool) (vd va : BitVec 5) (p : BitVec 3) (s : State) :=
  finish s (unaryNow s (halfWidth half) vd va p id)

/-! ### Logic, shifts, comparison, selection (R335 to R337) -/

/-- A turn-ready form of two registers. -/
def binaryNow (s : State) (w : Nat) (vd va vb : BitVec 5) (p : BitVec 3) (g : Nat → Nat → Nat) : Except Abort State := do
  let i ← s.cur
  let a ← readV i va
  let b ← readV i vb
  freeW s i vd
  .ok (s.putV i vd (mapLanes w (i.pre.pget p) (i.oldV vd) fun j => (g (laneAt w a j) (laneAt w b j), 0)))

def execVand (vd va vb : BitVec 5) (p : BitVec 3) (s : State) := finish s (binaryNow s 32 vd va vb p (· &&& ·))
def execVor (vd va vb : BitVec 5) (p : BitVec 3) (s : State) := finish s (binaryNow s 32 vd va vb p (· ||| ·))
def execVxor (vd va vb : BitVec 5) (p : BitVec 3) (s : State) := finish s (binaryNow s 32 vd va vb p (· ^^^ ·))
def shlLane (w a b : Nat) : Nat := a * 2 ^ (b % w) % 2 ^ w
def shrLane (w a b : Nat) : Nat := a / 2 ^ (b % w)
def sarLane (w a b : Nat) : Nat := wrapLane w (sLane w a / 2 ^ (b % w))
def execVshl32 (vd va vb : BitVec 5) (p : BitVec 3) (s : State) := finish s (binaryNow s 32 vd va vb p (shlLane 32))
def execVshl16 (vd va vb : BitVec 5) (p : BitVec 3) (s : State) := finish s (binaryNow s 16 vd va vb p (shlLane 16))
def execVshr32 (vd va vb : BitVec 5) (p : BitVec 3) (s : State) := finish s (binaryNow s 32 vd va vb p (shrLane 32))
def execVshr16 (vd va vb : BitVec 5) (p : BitVec 3) (s : State) := finish s (binaryNow s 16 vd va vb p (shrLane 16))
def execVsar32 (vd va vb : BitVec 5) (p : BitVec 3) (s : State) := finish s (binaryNow s 32 vd va vb p (sarLane 32))
def execVsar16 (vd va vb : BitVec 5) (p : BitVec 3) (s : State) := finish s (binaryNow s 16 vd va vb p (sarLane 16))

/-- A comparison of two lanes: whether it holds, and NV for a signalling NaN. -/
def cmpLane (c : VCond) (t : VTy) (a b : Nat) : Bool × Word :=
  let of (lt eq : Bool) : Bool := match c with | .eq => eq | .ne => !eq | .lt => lt | .le => lt || eq
  match (laneFmt t) with
  | some f =>
    let r := fCmp f a b
    if r.1 = 8 then (c == .ne, r.2) else (of (r.1 == 1) (r.1 == 2), r.2)
  | none => (of (decide ((laneInt t) a < (laneInt t) b)) ((laneInt t) a == (laneInt t) b), 0)

def execVcmp (c : VCond) (t : VTy) (pd : BitVec 3) (va vb : BitVec 5) (p : BitVec 3) (s : State) := finish s do
  let i ← s.cur
  let a ← readV i va
  let b ← readV i vb
  let w := (laneWidth t)
  let pr := i.pre.pget p
  let r := (List.range (2048 / w)).foldl (fun (acc : Nat × Word) j =>
    if pr.getLsbD j then
      let v := cmpLane c t (laneAt w a j) (laneAt w b j)
      (if v.1 then acc.1 + 2 ^ j else acc.1, acc.2 ||| v.2)
    else acc) (0, 0)
  .ok ((s.modProc i.proc fun q => q.pset pd (BitVec.ofNat 128 r.1)).setFlags i r.2)

/-- `vsel`: every lane is written (R337). -/
def execVsel (half : Bool) (vd va vb : BitVec 5) (p : BitVec 3) (s : State) := finish s do
  let i ← s.cur
  let a ← readV i va
  let b ← readV i vb
  freeW s i vd
  let w := halfWidth half
  let pr := i.pre.pget p
  .ok (s.putV i vd (mapLanes w (BitVec.allOnes 128) 0 fun j => (if pr.getLsbD j then laneAt w a j else laneAt w b j, 0)))

/-! ### Conversion and scaling (R338, R339) -/

/-- The conversion of one lane (R338). -/
def convLane (src dst : VTy) (rm : Rm) (x : Nat) : Nat × Word :=
  match (laneFmt src), (laneFmt dst) with
  | some f, some g => fConv f g rm x
  | some f, none =>
    let r := fToInt f rm (laneLo dst) (laneHi dst) x
    (wrapLane (laneWidth dst) r.1, r.2)
  | none, some g => fOfInt g rm ((laneInt src) x)
  | none, none =>
    let v := (laneInt src) x
    if v < (laneLo dst) then (wrapLane (laneWidth dst) (laneLo dst), fSAT)
    else if (laneHi dst) < v then (wrapLane (laneWidth dst) (laneHi dst), fSAT)
    else (wrapLane (laneWidth dst) v, 0)

/-- `vcvt`: where lanes narrow, the upper half is written 0 whatever the predicate. -/
def execVcvt (src dst : VTy) (vd va : BitVec 5) (p : BitVec 3) (s : State) := finish s do
  let i ← s.cur
  let a ← readV i va
  freeW s i vd
  let w := (laneWidth dst)
  let upper (j : Nat) : Bool := (laneWidth src) == 32 && w == 16 && decide (64 ≤ j)
  let pr := i.pre.pget p
  let act (j : Nat) : Bool := upper j || pr.getLsbD j
  let r := mapLanes w (BitVec.ofNat 128 ((List.range 128).foldl (fun n j => if act j then n + 2 ^ j else n) 0)) (i.oldV vd) fun j =>
    if upper j then (0, 0) else convLane src dst (i.rm .dyn) (laneAt (laneWidth src) a j)
  .ok (s.laterV i vd (laneBytes w act) r 16)

/-- `vfins` (R339). -/
def execVfins (t : VTy) (vd va vb : BitVec 5) (p : BitVec 3) (s : State) := finish s do
  let i ← s.cur
  match (laneFmt t) with
  | none => .error (.trap { kind := .illegalInstr })
  | some f =>
    let a ← readV i va
    let b ← readV i vb
    freeW s i vd
    let w := (laneWidth t)
    .ok (s.putV i vd (mapLanes w (i.pre.pget p) (i.oldV vd) fun j => fIns f i.vrm (laneAt w a j) (sLane w (laneAt w b j))))

/-! ### Lane reductions (R340) -/

/-- The exact sum of floating lanes, rounded once. -/
def sumLanes (f : Fmt) (rm : Rm) (l : List Nat) : Nat × Word :=
  match nanOf f l with
  | some r => r
  | none =>
    let inf (neg : Bool) : Bool := l.any fun x => isInf f x && fneg? f x == neg
    if inf true && inf false then invalid f
    else if inf true then (withSign f true f.inf, 0)
    else if inf false then (f.inf, 0)
    else
      let v : Int := l.foldl (fun n x =>
        let m : Int := (fman f x * 2 ^ (fexp f x - f.qmin).toNat : Nat)
        if fneg? f x then n - m else n + m) 0
      if v = 0 then
        let neg := l.all fun x => isZero f x && fneg? f x
        let pos := l.all fun x => isZero f x && !fneg? f x
        (withSign f (if pos || l.isEmpty then false else neg || decide (rm = .rdn)) 0, 0)
      else roundF f rm (decide (v < 0)) v.natAbs f.qmin

/-- The least or greatest of floating lanes. -/
def extremeLanes (f : Fmt) (max : Bool) (l : List Nat) : Nat × Word :=
  match l with
  | [] => (withSign f max f.inf, 0)
  | x :: t => t.foldl (fun a y => let r := fMinMax f max a.1 y; (r.1, a.2 ||| r.2)) (fMinMax f max x x)

/-- A reduction of the active lanes into lane 0; the other lanes are written 0. -/
def reduce (s : State) (t : VTy) (vd va : BitVec 5) (p : BitVec 3) (ff : Fmt → Rm → List Nat → Nat × Word)
    (fi : List Int → Int) : Except Abort State := do
  let i ← s.cur
  let a ← readV i va
  freeW s i vd
  let w := (laneWidth t)
  let l := ((List.range (2048 / w)).filter fun j => (i.pre.pget p).getLsbD j).map (laneAt w a)
  let r := match (laneFmt t) with
    | some f => ff f i.vrm l
    | none => (wrapLane w (fi (l.map (laneInt t))), 0)
  .ok (s.laterV i vd wholeReg (BitVec.ofNat 2048 r.1, r.2) (if (laneFmt t).isSome then 40 else 16))

def execVredadd (t : VTy) (vd va : BitVec 5) (p : BitVec 3) (s : State) :=
  finish s (reduce s t vd va p sumLanes fun l => l.foldl (· + ·) 0)
def execVredmin (t : VTy) (vd va : BitVec 5) (p : BitVec 3) (s : State) :=
  finish s (reduce s t vd va p (fun f _ => extremeLanes f false) fun l => l.foldl min (laneHi t))
def execVredmax (t : VTy) (vd va : BitVec 5) (p : BitVec 3) (s : State) :=
  finish s (reduce s t vd va p (fun f _ => extremeLanes f true) fun l => l.foldl max (laneLo t))

/-- `vredx`: the exact sum as a wide cell. -/
def execVredx (vd va : BitVec 5) (p : BitVec 3) (s : State) := finish s do
  let i ← s.cur
  let a ← readV i va
  freeW s i vd
  let l := ((List.range 64).filter fun j => (i.pre.pget p).getLsbD j).map (laneAt 32 a)
  let r := l.foldl (fun (c : Int × Word) x => let v := cellAdd32 c.1 x; (v.1, c.2 ||| v.2)) (0, 0)
  .ok (s.laterV i vd wholeReg ((BitVec.ofInt 576 r.1).setWidth 2048, r.2) 40)

/-! ### Permutes, slides and broadcast (R341) -/

/-- A permute: lane `j` of `vd` from a function of both sources; none keeps it. -/
def permute (s : State) (w : Nat) (vd va : BitVec 5) (vb : Option (BitVec 5)) (p : BitVec 3)
    (g : VReg → VReg → Nat → Option Nat) : Except Abort State := do
  let i ← s.cur
  let a ← readV i va
  let b ← (match vb with | some r => readV i r | none => .ok 0 : Except Abort VReg)
  freeW s i vd
  let old := i.oldV vd
  .ok (s.putV i vd (mapLanes w (i.pre.pget p) old fun j => ((g a b j).getD (laneAt w old j), 0)))

def execVperm (half : Bool) (vd va vb : BitVec 5) (p : BitVec 3) (s : State) :=
  let w := halfWidth half
  finish s (permute s w vd va (some vb) p fun a b j => some (laneAt w a (laneAt w b j % (2048 / w))))
def execVzip (half : Bool) (vd va vb : BitVec 5) (p : BitVec 3) (s : State) :=
  let w := halfWidth half
  finish s (permute s w vd va (some vb) p fun a b j => some (if j % 2 = 0 then laneAt w a (j / 2) else laneAt w b (j / 2)))
def execVunzip (half : Bool) (vd va vb : BitVec 5) (p : BitVec 3) (s : State) :=
  let w := halfWidth half
  let h := 2048 / w / 2
  finish s (permute s w vd va (some vb) p fun a b j => some (if j < h then laneAt w a (2 * j) else laneAt w b (2 * (j - h) + 1)))
def execVslideup (half : Bool) (vd va n : BitVec 5) (p : BitVec 3) (s : State) :=
  let w := halfWidth half
  finish s (permute s w vd va none p fun a _ j => if n.toNat ≤ j then some (laneAt w a (j - n.toNat)) else none)
def execVslidedn (half : Bool) (vd va n : BitVec 5) (p : BitVec 3) (s : State) :=
  let w := halfWidth half
  finish s (permute s w vd va none p fun a _ j => if j + n.toNat < 2048 / w then some (laneAt w a (j + n.toNat)) else none)
def execVbcast (half : Bool) (vd k : BitVec 5) (p : BitVec 3) (s : State) := finish s do
  let i ← s.cur
  freeW s i vd
  let v ← readSrc i (.n k)
  let w := halfWidth half
  .ok (s.putV i vd (mapLanes w (i.pre.pget p) (i.oldV vd) fun _ => (v.toNat, 0)))

/-! ### Predicates (R342) -/

def predForm (s : State) (pd : BitVec 3) (f : Proc → PReg) : Except Abort State := do
  let i ← s.cur
  .ok (s.modProc i.proc fun p => p.pset pd (f i.pre))
def execPand (pd pa pb : BitVec 3) (s : State) := finish s (predForm s pd fun p => p.pget pa &&& p.pget pb)
def execPor (pd pa pb : BitVec 3) (s : State) := finish s (predForm s pd fun p => p.pget pa ||| p.pget pb)
def execPnot (pd pa : BitVec 3) (s : State) := finish s (predForm s pd fun p => ~~~(p.pget pa))

/-! ### Quantisation (R343 to R345) -/

/-- The duplication map as one number, entry k at bits [6k + 5 : 6k] (R231). -/
def dmapNat (v : Vector Word 6) : Nat := v.toList.zipIdx.foldl (fun a e => a + e.1.toNat * 2 ^ (64 * e.2)) 0
def dmapAt (v : Vector Word 6) (k : Nat) : Nat := dmapNat v / 2 ^ (6 * k) % 64
def dmapSet (v : Vector Word 6) (k x : Nat) : Vector Word 6 :=
  let n := dmapNat v - dmapAt v k * 2 ^ (6 * k) + x % 64 * 2 ^ (6 * k)
  Vector.ofFn fun j : Fin 6 => BitVec.ofNat 64 (n / 2 ^ (64 * j.val))

/-- The halves of a channel: h rounded, g the exact rest; NaN and infinity go to both (R343). -/
def halves (v : Nat) : Nat × Nat × Word :=
  if isNaN binary32 v then (quiet binary32 v, quiet binary32 v, flagIf (isSNaN binary32 v) fNV)
  else if isInf binary32 v then (v, v, 0)
  else
    let h := (fMul binary32 .rne v 0x3F000000).1
    (h, (fSub binary32 .rne v h).1, 0)

def execVsplit (vd va k : BitVec 5) (p : BitVec 3) (s : State) := finish s do
  let i ← s.cur
  let a ← readV i va
  freeW s i vd
  let w ← readSrc i (.n k)
  let n := w.toNat
  let src := n % 64
  let dst := bits n 13 8
  check (n == src + dst * 256 && src != dst) { kind := .illegalOperand, addr := w }
  let s ← s.claimMatrix i
  let v := halves (laneAt 32 a src)
  let pr := i.pre.pget p
  let act (j : Nat) : Bool := j == src || j == dst || pr.getLsbD j
  let r := mapLanes 32 (BitVec.ofNat 128 ((List.range 64).foldl (fun n j => if act j then n + 2 ^ j else n) 0)) (i.oldV vd) fun j =>
    if j = src then (v.1, 0) else if j = dst then (v.2.1, 0) else (laneAt 32 a j, 0)
  let s := s.modCore i.pre.core fun c => { c with dmap := dmapSet c.dmap dst src }
  .ok (s.laterV i vd (laneBytes 32 act) (r.1, v.2.2) 16)

/-- `vqnt` (R344). -/
def execVqnt (f : BlkFmt) (vd va : BitVec 5) (p : BitVec 3) (s : State) := finish s do
  let i ← s.cur
  let a ← readV i va
  freeW s i vd
  let g := blkOfName f
  let pr := i.pre.pget p
  let xs := (List.range 64).map fun j => exactOf32 (if pr.getLsbD j then laneAt 32 a j else 0)
  let bs := (List.range (64 / g.count)).map fun b => g.quant ((xs.drop (g.count * b)).take g.count)
  let out := bs.flatMap fun q => leBytes g.sb q.1 ++ leBytes g.eb (g.field q.2.1)
  let fl := bs.foldl (fun acc q => acc ||| q.2.2) 0
  .ok (s.laterV i vd wholeReg (BitVec.ofNat 2048 (leNat out), fl) 40)

/-- `vdqnt` (R345). -/
def execVdqnt (f : BlkFmt) (vd va : BitVec 5) (p : BitVec 3) (s : State) := finish s do
  let i ← s.cur
  let a ← readV i va
  freeW s i vd
  let g := blkOfName f
  let size := g.eb + g.sb
  let block (j : Nat) : Nat := a.toNat / 2 ^ (8 * (j / g.count * size))
  let scale (j : Nat) : Nat := block j % 2 ^ (8 * g.sb)
  let r := mapLanes 32 (i.pre.pget p &&& BitVec.ofNat 128 (2 ^ 64 - 1)) (i.oldV vd) fun j =>
    (written32 (g.value (scale j) (block j / 2 ^ (8 * g.sb) % 2 ^ (8 * g.eb)) (j % g.count)), 0)
  -- every block is read, whatever the predicate (R226)
  let sat := (List.range (64 / g.count)).foldl (fun f b => f ||| g.scaleFlag (scale (g.count * b))) 0
  .ok (s.laterV i vd (laneBytes 32 fun j => (i.pre.pget p).getLsbD j) (r.1, sat) 24)

end Sys2Proof.Machine
end

