-- ==== Sys2Proof/Machine/Matrix.lean ====
section
/-! DEFINITION. Tile memory, the joint multiply and the accumulators (R155, R156, R229 to R232, R361 to R366). -/

namespace Sys2Proof.Machine

/-! ### The matrix set -/

/-- The matrix set as a word reads it: for a B word as it stood before the pair (R148). -/
def State.matrix (s : State) (i : Issue) : Core := i.kpre.getD (s.core i.pre.core)

/-- One of a list of tiles (0 to 7) and accumulators (8 to 11) is pending on a transaction that counts: UNREADY_OPERAND (R242). -/
def matPend (c : Core) (i : Issue) (counts : Nat → Bool) (l : List Nat) : Except Abort Unit :=
  match l.find? fun m => c.mPend.any fun e => e.1 == m && counts e.2 with
  | some m => .error (unready i m)
  | none => .ok ()

/-- The registers that a word reads, as they stood before its pair (R148): what the issuer's own opened `mgang` holds is not pending there,
for its pair is only now in issue. -/
def matReady (s : State) (i : Issue) (l : List Nat) : Except Abort Unit := matPend (s.matrix i) i (i.pre.opened != some ·) l

/-- The registers that a word writes: no other instruction writes one while it is pending, be it on the A word of the pair. -/
def matFree (s : State) (i : Issue) (l : List Nat) : Except Abort Unit := matPend (s.core i.pre.core) i (fun _ => true) l

/-- The accumulators of a group (R237). -/
def groupOf (ab ac : BitVec 2) : List Nat := (List.range (acCount ac)).map fun j => 8 + ab.toNat + j

/-- ILLEGAL_OPERAND for a register value. -/
def badMat (w : Word) : Trap := { kind := .illegalOperand, addr := w }

/-- A tile or an accumulator of a core; one that nothing has written is clear. -/
def Core.tile (c : Core) (t : Nat) : Tile := nget {} c.tiles t
def Core.acc (c : Core) (a : Nat) : Acc := nget {} c.accs a

/-- Issue a matrix operation that marks registers of the set pending until it completes; `push` gives it a pending slot. -/
def State.issueMat (s : State) (i : Issue) (x : Txn) (mats : List Nat) (push : Bool) : State :=
  let t := s.nextTxn
  let r := if push then (s.proc i.proc).pushPend t none else (s.proc i.proc, {})
  let s := (s.newTxn { x with tgt := { r.2 with mats := mats } }).1.setProc i.proc { r.1 with out := r.1.out ++ [t] }
  s.modCore i.pre.core fun c => { c with mPend := c.mPend ++ mats.map fun m => (m, t) }

/-! ### Tile memory (R361) -/

/-- The block format of a split code. -/
def splitOf (code : Nat) : Option Blk :=
  match blkOfCode code with
  | some (f, true) => some f
  | _ => none

/-- The ranges of a tile in memory, in the order of its interleaved rows: for a split code the scale and the element field of
each block (R223); else 16 rows a pitch apart. -/
def tileRanges (code bl : Nat) (pitch : Int) : List (Int × Nat) :=
  match splitOf code with
  | some f =>
    (List.range (16 * (64 / f.count))).flatMap fun b =>
      [((f.scaleAt true 0 bl b : Nat), f.sb), ((f.elemAt true 0 bl b : Nat), f.eb)]
  | none => (List.range 16).map fun (r : Nat) => ((r : Int) * pitch, ((rowOfCode code).map Prod.fst).getD 0)

/-- What a tile form checks of its pointer and pitch: the format has rows, a split code takes no pitch, any other no block
length (R223, R361). -/
def matForm (code : Nat) (p y : Word) : Except Abort Unit := do
  check ((rowOfCode code).isSome) (badMat p)
  check ((splitOf code).isNone || y == 0) (badMat y)
  check ((splitOf code).isSome || pBl p == 0) (badMat p)

/-- `tld` (R361). -/
def execTld (t : BitVec 3) (x y : Src) (s : State) := finish s do
  let i ← s.cur
  let p ← readSrc i x
  let w ← readSrc i y
  matFree s i [t.toNat]
  check (!s.tileHeld i.pre.core t.toNat i.pre.opened) { kind := .unreadyOperand, e5 := BitVec.ofNat 64 t.toNat }
  let s ← s.claimMatrix i
  matForm (pFmt p) p w
  let c ← rangeAccess s i .tile .load p (tileRanges (pFmt p) (pBl p) w.toInt)
  let u := s.nextTxn
  .ok ((c.st.issueMat i (accessTxn i c (.tld c.parts (BitVec.ofNat 6 (pFmt p)))) [t.toNat] false).afterLoad i c u)

/-- The code that `tst` stores in: the tile's tag, or for 0x00 the tag's interleaved form. -/
def storeCode (tag : Option (BitVec 6)) (code : Nat) : Option Nat :=
  match tag with
  | none => none
  | some g =>
    let c := g.toNat
    if code = 0 then some (if 0x14 ≤ c ∧ c ≤ 0x16 then c - 4 else if 0x20 ≤ c ∧ c ≤ 0x25 then c - 8 else c)
    else if code = c then some c
    else none

/-- The rows of a tile as bytes, in interleaved form. -/
def tileBytes (t : Tile) (rb : Nat) : List Byte :=
  (List.range 16).flatMap fun r => leBytes rb (t.data.toNat / 2 ^ (1024 * r))

/-- The bytes of each part of a list of parts. -/
def dealBytes (l : List Part8) (bs : List Byte) : List (Part8 × List Byte) :=
  match l with
  | [] => []
  | p :: t => (p, bs.take p.len) :: dealBytes t (bs.drop p.len)

/-- `tst` (R361): nothing is pushed. -/
def execTst (t : BitVec 3) (x y : Src) (s : State) := finish s do
  let i ← s.cur
  let p ← readSrc i x
  let w ← readSrc i y
  matReady s i [t.toNat]
  let s ← s.claimMatrix i
  let v := (s.matrix i).tile t.toNat
  match storeCode v.tag (pFmt p) with
  | none => .error (.trap (badMat p))
  | some code => do
    matForm code p w
    let rb := ((rowOfCode code).map Prod.fst).getD 0
    check ((splitOf code).isSome || decide ((rb : Int) ≤ w.toInt)) (badMat w)
    let c ← rangeAccess s i .tile .store p (tileRanges code (pBl p) w.toInt)
    let s ← s.issueVst i c (dealBytes c.parts (tileBytes v rb))
    .ok (s.watch i false true c.parts)

/-! ### The joint multiply (R362 to R364) -/

/-- The 64 operands of a row in interleaved form, with the flags of reading them (R222, R226). -/
def rowValues (code row : Nat) : List (Nat × Word) :=
  (List.range 64).map fun k =>
    match blkOfCode code with
    | some (f, _) =>
      let b := row / 2 ^ (8 * (k / f.count * (f.eb + f.sb)))
      let scale := b % 2 ^ (8 * f.sb)
      (f.value scale (b / 2 ^ (8 * f.sb) % 2 ^ (8 * f.eb)) (k % f.count), f.scaleFlag scale)
    | none =>
      let n := ((rowOfCode code).map Prod.fst).getD 0 / 64
      (plainValue code (row / 2 ^ (8 * n * k) % 2 ^ (8 * n)), 0)

/-- Row `r` of a tile. -/
def Tile.row (t : Tile) (r : Nat) : Nat := t.data.toNat / 2 ^ (1024 * r) % 2 ^ 1024

/-- Fields of the scratchpad descriptor (Table 16.7), and where column `c` of B lies from the base. -/
def descRot (d : Word) : Nat := bits d.toNat 39 36
def colAt (d : Word) (c : Nat) : Nat :=
  c / 16 * bits d.toNat 35 18 + c % 16 * bits d.toNat 17 0 + 4 * (c % 16 * descRot d % 8)

/-- The tag of a member's A tile, or of the tile it supplies as B. -/
def State.tagOf (s : State) (core t : Nat) : Option (BitVec 6) := ((s.core core).tile t).tag

/-- What the members compare at the opening (R363). -/
def mgangKey (s : State) (x : Txn) : Option (Nat × Option (BitVec 6) × Bool × Bool × Nat × Word × Word) :=
  match x.op with
  | .mgang _ n ta tile rp desc zero _ dp _ => some (n, s.tagOf x.core ta, tile.isSome, zero, dp, rp, desc)
  | _ => none

/-- One multiply of 16 rows by N columns into the cells of a group (R364): the accumulators it writes, in order. -/
def mgangCompute (s : State) (x : Txn) : Deliver :=
  match x.op with
  | .mgang ab n ta tile rp desc zero map _ _ =>
    let c := s.core x.core
    let code := ((c.tile ta).tag.map BitVec.toNat).getD 0
    let rb := ((rowOfCode code).map Prod.fst).getD 0
    let clu := clusterOf x.core * 8
    let bRow (j : Nat) : Nat :=
      match tile with
      | some t => ((s.core (clu + j / 16)).tile t).row (j % 16)
      | none =>
        let o := pOff rp + colAt desc j
        leNat (readBytes s.mem (spadKey (clu + o / 2 ^ 18) (o % 2 ^ 18)) rb)
    let rows := (List.range 16).map fun r => rowValues code ((c.tile ta).row r)
    let cols := (List.range n).map fun j => rowValues code (bRow j)
    let take (v : List (Nat × Word)) : List Nat := map.map fun k => (v.getD k (0, 0)).1
    let av := rows.map fun r => r.map Prod.fst
    let bv := cols.map take
    let read := (rows ++ cols).foldl (fun a v => v.foldl (fun a e => a ||| e.2) a) 0
    let group := x.tgt.mats.length
    let tiles := if zero then group else min group ((n + 127) / 128)
    let one (j : Nat) : Acc × Word :=
      let old : NMap Cell576 := if zero then [] else (c.acc (ab + j)).cells
      let r := (List.range 2048).foldl (fun (a : NMap Cell576 × Word) key =>
        let col := 128 * j + key % 128
        let was := (nget 0 old key).toInt
        let v : Int × Word :=
          if col < n then
            ((av.getD (key / 128) []).zip (bv.getD col [])).foldl (fun m e =>
              let w := cellMac m.1 e.1 e.2
              (w.1, m.2 ||| w.2)) (was, 0)
          else (was, 0)
        (if v.1 = 0 then a.1 else (key, BitVec.ofInt 576 v.1) :: a.1, a.2 ||| v.2)) ([], 0)
      ({ cells := r.1.reverse, dirty := true }, r.2)
    let done := (List.range tiles).map one
    { vals := [0], accs := done.map Prod.fst, flags := done.foldl (fun a e => a ||| e.2) read }
  | _ => {}

/-- What an `mgang` whose operands can be read comes to: its values, or a line of B that cannot be read (R42, R183). -/
def mgangStage (s : State) (x : Txn) : Stage :=
  match s.badPart x.op.parts with
  | some va => .failed (badRead s x va)
  | none => .back (mgangCompute s x)

/-- Columns a cycle takes for the tag of a member's A tile (Table 16.6). -/
def colsPerCycle (s : State) (core ta : Nat) : Nat :=
  match s.tagOf core ta with
  | some g => ((rowOfCode g.toNat).map Prod.snd).getD 1
  | none => 1

/-- Undo an `mgang` that waits at its barrier (R79, R363): its token is back, its accumulators are no longer pending, and its
issuer, whose program counter stands on the word, is no longer held. Its slot is pushed only when the word issues, after the opening
(log entry 31). -/
def State.undoMgang (s : State) (t : Nat) : State :=
  match nget? s.txns t with
  | none => s
  | some x =>
    let s : State := { s with
      gangs := s.gangs.map fun e => (e.1, { e.2 with barrier := e.2.barrier.filter fun b => b.2 != t }) }
    let s := ((if x.token then s.giveToken x.core else s).dropTxn t).modCore x.core fun c =>
      { c with mPend := c.mPend.filter fun e => e.2 != t }
    s.release x.issuer

/-- Undo an `mgang` and raise a fault at its word in class P (R363). The word in issue itself ends its issue. -/
def State.failMgang (s : State) (t : Nat) (tr : Trap) : State :=
  match nget? s.txns t with
  | none => s
  | some x =>
    let s := s.undoMgang t
    let s : State := match s.issue with
      | some i => if i.proc = x.issuer then { s with issue := none, raised := some tr } else s
      | none => s
    s.takeFault x.issuer (mkRec s x.issuer .p tr x.loc x.bword) x.loc

/-- A member's pass begins at the opening, and its issuer is no longer held: its word, or pair, issues at its turn (R362). What it
computes is known at once, or where it reads scratchpad that earlier accesses of the issuer have still to reach, after those. -/
def State.passMgang (s : State) (t : Nat) (st : Stage) : State :=
  match nget? s.txns t with
  | some x =>
    match x.op with
    | .mgang _ n ta .. =>
      let lat := 24 + (n + colsPerCycle s x.core ta - 1) / colsPerCycle s x.core ta
      (s.setTxn t { x with stage := st, due := s.cycle + lat }).modProc x.issuer fun p =>
        { p.run with hold := none, opened := some t, landed := s.cycle + 1 }
    | _ => s
  | none => s

/-- The first `mgang` of each core of the cluster at the barrier of a gang, in the order of its members; none while a core has
none. -/
def barrierHeads (s : State) (g : Gang) : Option (List (Nat × Nat × Txn)) :=
  let heads := (List.range 8).filterMap fun j => g.barrier.find? fun e => e.1 == g.cluster * 8 + j
  if heads.length < 8 then none
  else
    let l := g.members.zipIdx.filterMap fun m =>
      (heads.find? fun e => match nget? s.txns e.2 with | some x => x.issuer == m.1 | none => false).bind fun e =>
        (nget? s.txns e.2).map fun x => (m.2, e.2, x)
    if l.length = 8 then some l else none

/-- A member of the opening differs from the first: in its key, or by the tag of a tile it supplies as B. -/
def mgangDiffers (s : State) (first x : Txn) : Bool :=
  mgangKey s x != mgangKey s first ||
    (match first.op with
      | .mgang _ n ta (some t) .. => decide (x.core % 8 < n / 16) && s.tagOf x.core t != s.tagOf first.core ta
      | _ => false)

/-- The opening of a gang barrier (R363, R364): every core's member has issued. All agree and compute, or all raise
GANG_MISMATCH. -/
def State.openBarrier (s : State) (g : Nat) : State :=
  match nget? s.gangs g with
  | none => s
  | some v =>
    match barrierHeads s v with
    | none => s
    | some l =>
      match l with
      | [] => s
      | h :: _ =>
        match l.find? fun e => mgangDiffers s h.2.2 e.2.2 with
        | some bad =>
          l.foldl (fun u e =>
            let k := mgangKey s e.2.2
            let n := (k.map fun q => q.1).getD 0
            let code := ((k.bind fun q => q.2.1).map BitVec.toNat).getD 0
            u.failMgang e.2.1 { kind := .gangMismatch, other := BitVec.ofNat 32 g, e5 := BitVec.ofNat 64 n, e6 := BitVec.ofNat 64 code
                                e7 := BitVec.ofNat 64 bad.1 }) s
        | none =>
          let out := l.map fun e =>
            (e.2.1, if e.2.2.op.role != .ld || s.canServe e.2.1 { e.2.2 with stage := .sent } then mgangStage s e.2.2 else .sent)
          let u : State := { s with
            gangs := nset s.gangs g { v with barrier := v.barrier.filter fun b => !out.any fun e => e.1 == b.2 } }
          out.foldl (fun u e => u.passMgang e.1 e.2) u

/-- The issuer's gang has a member on each core of its cluster (R121, R362). -/
def gangFull (s : State) (i : Issue) : Bool :=
  match nget? s.gangs i.pre.gang with
  | none => false
  | some g =>
    i.pre.gang != 0 && g.members.contains i.proc &&
      (List.range 8).all fun j => g.members.any fun k => (s.proc k).core == clusterOf i.pre.core * 8 + j

/-- Operands of an `mgang`: N, and the descriptor pair. -/
structure MgangIn where
  i : Issue
  n : Word
  base : Word
  desc : Word

/-- Its operands and pending registers (UNREADY_OPERAND), then check 1 of R362. -/
def mgangOperands (s : State) (ab ac : BitVec 2) (ta : BitVec 3) (b : MgangB) (nr : BitVec 5) : Except Abort MgangIn := do
  let i ← s.cur
  let n ← readSrc i (.n nr)
  let pair ← (match b with
    | .tile _ => .ok (0, 0)
    | .spad dp => do
      let x ← readSrc i (.n (BitVec.ofNat 5 (2 * dp.toNat)))
      let y ← readSrc i (.n (BitVec.ofNat 5 (2 * dp.toNat + 1)))
      .ok (x, y) : Except Abort (Word × Word))
  matReady s i (ta.toNat :: (match b with | .tile t => [t.toNat] | .spad _ => []))
  matFree s i (groupOf ab ac)
  let _ ← s.claimMatrix i
  .ok { i := i, n := n, base := pair.1, desc := pair.2 }

/-- Checks 2 to 5 of R362, the scratchpad of B as a load meets it, POWER_BUDGET, and the issue to the barrier. -/
def mgangIssue (s : State) (m : MgangIn) (ab ac : BitVec 2) (ta : BitVec 3) (b : MgangB) (zero : Bool) :
    Except Abort State := do
  let i := m.i
  let core := i.pre.core
  let cnt := acCount ac
  let n := m.n.toNat
  check (gangFull s i) { kind := .illegalOperand }
  match ((s.matrix i).tile ta.toNat).tag with
  | none => .error (.trap { kind := .illegalOperand })
  | some tag => do
    let tiles := match b with | .tile _ => true | .spad _ => false
    check (decide (0 < n) && n % 16 == 0 && decide (n ≤ 128 * cnt) && (!tiles || decide (n ≤ 128))) (badMat m.n)
    let code := tag.toNat
    check (tiles || (pSpace m.base == 3 && pFmt m.base == code && (pBl m.base == 0 || (splitOf code).isSome)))
      (badMat m.base)
    check (tiles || (m.desc.toNat / 2 ^ 40 == 0 && decide (descRot m.desc < 8) && bits m.desc.toNat 35 18 % 16 == 0))
      (badMat m.desc)
    let rb := ((rowOfCode code).map Prod.fst).getD 0
    let c ← (if tiles then .ok { st := s } else
      rangeAccess s i .tile .load m.base ((List.range n).map fun j => ((colAt m.desc j : Nat), rb)) : Except Abort Access)
    if c.wait then .error (.hold .object)
    else do
      needToken s i
      let t := s.nextTxn
      let dp := match b with | .tile t => t.toNat | .spad d => d.toNat
      let map := (List.range 64).map (dmapAt (s.matrix i).dmap)
      let tile := match b with | .tile t => some t.toNat | .spad _ => none
      let x := { mkTxn s i (.mgang ab.toNat n ta.toNat tile m.base m.desc zero map dp c.parts) 0 with stage := .waiting, token := true }
      let s := (s.newTxn { x with tgt := { mats := groupOf ab ac } }).1.takeToken core
      let s := s.modCore core fun c => { c with mPend := c.mPend ++ (groupOf ab ac).map fun a => (a, t) }
      let s := s.holdAtWord i
      let s : State := { s with gangs := nmod s.gangs i.pre.gang fun g => { g with barrier := g.barrier ++ [(core, t)] } }
      let s := s.openBarrier i.pre.gang
      -- the word waits at the barrier without issuing, or has opened it and issues
      match (s.proc i.proc).opened with
      | some u => .ok (s.issueOpened i u none)
      | none => .ok { s with issue := none }

/-- `mgang` (R362): it takes an unowned set, even where a later check fails. One whose barrier has opened issues. -/
def execMgang (ab ac : BitVec 2) (ta : BitVec 3) (b : MgangB) (nr : BitVec 5) (zero : Bool) (s : State) :=
  match s.issue.bind fun i => i.pre.opened.map fun t => (i, t) with
  | some (i, t) => finish s (.ok (s.issueOpened i t none))
  | none =>
    match mgangOperands s ab ac ta b nr with
    | .error e => finish s (.error e)
    | .ok m =>
      let u := s.modCore m.i.pre.core fun c => { c with owner := some (c.owner.getD m.i.proc) }
      finish u (mgangIssue u m ab ac ta b zero)

/-- GANG_TIMEOUT (R363): 65,536 cc after the first issue at a barrier that has not opened, every waiting member raises it. -/
def execGangTimeout (g : Nat) (s : State) : Host.Outcome State Fault Refusal :=
  match nget? s.gangs g with
  | none => .next s
  | some v =>
    let late := v.barrier.any fun e => match nget? s.txns e.2 with
      | some x => decide (x.issued + 65536 ≤ s.cycle)
      | none => false
    if late then .next (v.barrier.foldl (fun s e => s.failMgang e.2 { kind := .gangTimeout, other := BitVec.ofNat 32 g }) s) else .next s

/-! ### Accumulators (R365) -/

/-- A form that writes a group with values known at issue: 4 cc a tile, a pending 0. -/
def writeGroup (s : State) (i : Issue) (ab ac : BitVec 2) (v : Acc) : State :=
  let n := acCount ac
  let x := mkTxn s i (.value { vals := [0], accs := List.replicate n { v with dirty := true } }) (4 * n)
  s.issueMat i x (groupOf ab ac) true

def execMzero (ab ac : BitVec 2) (s : State) := finish s do
  let i ← s.cur
  matFree s i (groupOf ab ac)
  let s ← s.claimMatrix i
  .ok (writeGroup s i ab ac {})

/-- `mdup`: aS is read before any write, so it may lie in the group. -/
def execMdup (ab ac : BitVec 2) (as : BitVec 2) (s : State) := finish s do
  let i ← s.cur
  matFree s i (groupOf ab ac)
  matReady s i [8 + as.toNat]
  let s ← s.claimMatrix i
  .ok (writeGroup s i ab ac ((s.matrix i).acc as.toNat))

/-- Flags of a numbered register file as bits. -/
def useBits {α : Type} (m : NMap α) (n : Nat) (f : α → Bool) : Nat :=
  (List.range n).foldl (fun a j => match nget? m j with | some v => if f v then a + 2 ^ j else a | none => a) 0

/-- Table 16.9. -/
def mstatWord (c : Core) : Word :=
  let owner := match c.owner with | some k => k % 2 ^ 32 | none => 0
  let dups := ((List.range 64).filter fun k => dmapAt c.dmap k != k).length
  BitVec.ofNat 64 (owner * 2 ^ 32 + useBits c.accs 4 (fun _ => true) * 2 ^ 28 + useBits c.accs 4 Acc.dirty * 2 ^ 24
    + useBits c.tiles 8 (fun _ => true) * 2 ^ 16 + useBits c.tiles 8 Tile.dirty * 2 ^ 8 + dups)

def execMstat (s : State) := finish s do
  let i ← s.cur
  let s ← s.claimMatrix i
  .ok (s.pushLater i (mstatWord { s.matrix i with owner := (s.core i.pre.core).owner }) 0 none 4)

/-- Bytes of an accumulator tile in window order (R165, R365). -/
def accBytes : Nat := 147456

/-- `mrest`: the pointer is checked at issue; what the load meets is class C. -/
def execMrest (ab ac : BitVec 2) (dp : BitVec 4) (s : State) := finish s do
  let i ← s.cur
  needMgr s i
  let p ← readSrc i (.n (BitVec.ofNat 5 (2 * dp.toNat)))
  matFree s i (groupOf ab ac)
  let s ← s.claimMatrix i
  let n := acCount ac
  let _ ← rangeChecks s i .vector .load p ((List.range n).map fun j => (((accBytes * j : Nat) : Int), accBytes))
  let all_ : Part8 := { at_ := .virt (pOff p), len := accBytes * n, va := fatOf (pSpace p) (pOff p) }
  .ok ((s.issueMat i (mkTxn s i (.mrest ab.toNat n p) 300) (groupOf ab ac) true).watch i true false [all_])

/-- The places of a tile's bytes, piece by piece of at most 64 KiB, for a load at its service. -/
def restAccess (s : State) (x : Txn) (p : Word) (j : Nat) : Except Abort Access :=
  let i : Issue := { proc := x.issuer, loc := x.loc, next := x.loc, pre := { s.proc x.issuer with heapoff := x.heapoff } }
  rangeAccess s i .vector .load p
    ([((0 : Int), 65536), (65536, 65536), (131072, 16384)].map fun e => (e.1 + accBytes * j, e.2))

/-- An accumulator from its bytes. -/
def accOf (bs : List Byte) : Acc :=
  let r := (List.range 2048).foldl (fun (a : NMap Cell576 × List Byte) key =>
    let v : Cell576 := BitVec.ofNat 576 (leNat (a.2.take 72))
    (if v = 0 then a.1 else (key, v) :: a.1, a.2.drop 72)) ([], bs)
  { cells := r.1.reverse, dirty := true }

/-- The load of `mrest`: tiles in their order, up to one that faults; the tiles before it are written. None while a tile's
memory is busy or held. -/
def State.serveRest (s : State) (t : Nat) (x : Txn) : Option State :=
  match x.op with
  | .mrest _ n p =>
    if x.stage != .sent || !s.earlierDone t x then none
    else
      let row (s : State) (l : List Acc) (j : Nat) : State × List Acc × Option RowStop :=
        match restAccess s x p j with
        | .error (.trap e) => (s, l, some (.bad e))
        | .error _ => (s, l, some .wait)
        | .ok c =>
          if c.wait || c.st.busyPart c.parts then (s, l, some .wait)
          else if c.st.unserved t c.parts ≠ [] then (s, l, some (.full (c.st.unserved t c.parts)))
          else
            match c.st.badPart c.parts with
            | some va => (c.st, l, some (.bad { kind := .uncorrectableData, addr := BitVec.ofNat 64 va }))
            | none => ((c.st.countLines c.parts).miss x, l ++ [accOf (c.st.allBytes (dieOf x.core) c.parts)], none)
      let r := (List.range n).foldl (fun (a : State × List Acc × Option RowStop) j =>
        match a.2.2 with
        | some _ => a
        | none => row a.1 a.2.1 j) (s, [], none)
      match r.2.2 with
      | none => some (r.1.setTxn t { x with stage := .back { vals := [0], accs := r.2.1 } })
      | some .wait => none
      | some (.full l) => some (s.queueAt t l)
      | some (.bad e) =>
        let s := match e.iso with | some f => r.1.ringDev (.isolation f.1 f.2) | none => r.1
        let s := s.modCore x.core fun c =>
          (x.tgt.mats.zip r.2.1).foldl (fun c m =>
            if c.mPend.contains (m.1, t) then
              { c with accs := nset c.accs (m.1 - 8) m.2, mPend := c.mPend.filter fun e => e != (m.1, t) }
            else c) c
        some (s.setTxn t { x with stage := .failed (recC s x e) })
  | _ => none

/-! ### Drain (R232, R366) -/

/-- Element bytes of a drained row, its scale bytes, and flags. -/
def drainRow (code : Nat) (rm : Rm) (cells : List Int) : List Byte × List Byte × Word :=
  match splitOf code with
  | some f =>
    (List.range (cells.length / 32)).foldl (fun (a : List Byte × List Byte × Word) b =>
      let q := f.quant (((cells.drop (32 * b)).take 32).map cellExact)
      (a.1 ++ leBytes f.eb (f.field q.2.1), a.2.1 ++ leBytes f.sb q.1, a.2.2 ||| q.2.2)) ([], [], 0)
  | none =>
    let fm := if code = 0x09 then binary32 else bfloat16
    cells.foldl (fun (a : List Byte × List Byte × Word) c =>
      let v := cellRound fm rm c
      (a.1 ++ leBytes (fm.width / 8) v.1, a.2.1, a.2.2 ||| v.2)) ([], [], 0)

/-- Every store of a drain has been applied at its home or stands in a side log. -/
def State.drained (s : State) (l : List Nat) : Bool :=
  l.all fun t => match nget? s.txns t with | some x => x.stage == .logged | none => true

/-- `mdrain` (R366). -/
def execMdrain (ab ac : BitVec 2) (dp : BitVec 4) (nr : BitVec 5) (r : Rm) (s : State) := finish s do
  let i ← s.cur
  let p ← readSrc i (.n (BitVec.ofNat 5 (2 * dp.toNat)))
  let code := pFmt p
  let mx := decide (0x20 ≤ code) && decide (code ≤ 0x25)
  let z ← (if mx then readSrc i (.n (BitVec.ofNat 5 (2 * dp.toNat + 1))) else .ok 0 : Except Abort Word)
  let w ← readSrc i (.n nr)
  matReady s i (groupOf ab ac)
  let s ← s.claimMatrix i
  check (mx || ((code == 0x09 || code == 0x0B) && pBl p == 0)) (badMat p)
  check (!mx || (pFmt z == 0x26 && pBl z == 0)) (badMat z)
  let n := bits w.toNat 9 0
  check (bits w.toNat 15 10 == 0 && decide (0 < n) && decide (n ≤ 128 * acCount ac) && (!mx || n % 32 == 0)) (badMat w)
  let core := s.matrix i
  let rows := (List.range 16).map fun row => drainRow code (i.rm r) ((List.range n).map fun c =>
    (nget 0 (core.acc (ab.toNat + c / 128)).cells (128 * row + c % 128)).toInt)
  let eb := ((rows.head?.map fun v => v.1.length)).getD 0
  let sb := ((rows.head?.map fun v => v.2.1.length)).getD 0
  let ep := bits w.toNat 47 16
  let sp := bits w.toNat 63 48
  check (ep == 0 || decide (eb ≤ ep)) (badMat w)
  check (!mx || sp == 0 || decide (sb ≤ sp)) (badMat w)
  let at_ (pitch len : Nat) : List (Int × Nat) :=
    (List.range 16).map fun (row : Nat) => (((row * (if pitch = 0 then len else pitch) : Nat) : Int), len)
  let a ← rangeAccess s i .tile .store p (at_ ep eb)
  let b ← (if mx then rangeAccess a.st i .tile .store z (at_ sp sb) else .ok { st := a.st } : Except Abort Access)
  let c := a.join b
  let first := c.st.nextTxn
  let s ← c.st.issueVst i c (dealBytes c.parts (rows.flatMap (fun v => v.1) ++ rows.flatMap (fun v => v.2.1)))
  let stores := (List.range (s.nextTxn - first)).map (first + ·)
  let fl := rows.foldl (fun f v => f ||| v.2.2) 0
  .ok ((s.issuePend i (mkTxn s i (.mdrain stores fl) c.lat) none).watch i false true c.parts)

end Sys2Proof.Machine
end

