-- ==== Sys2Proof/Machine/Tree.lean ====
section
/-! DEFINITION. The containment tree (R207 to R216, R320 to R322): issue of its forms, the walkers, roll-up tokens, settle
markers and re-parenting. -/

namespace Sys2Proof.Machine

/-! ### Nodes -/

def State.node? (s : State) (part n : Nat) : Option Node := nget? (s.part part).nodes n
def State.setNode (s : State) (part n : Nat) (v : Node) : State := s.modPart part fun q => { q with nodes := nset q.nodes n v }

/-- A node exists. -/
def State.liveNode (s : State) (part n : Nat) : Bool := match s.node? part n with | some v => v.live | none => false

/-- Add to a node's COUNT, saturating (R207). -/
def State.countNode (s : State) (part n k : Nat) : State :=
  s.modPart part fun q =>
    { q with nodes := nmod q.nodes n fun v => { v with count := BitVec.ofNat 64 (min (2 ^ 64 - 1) (v.count.toNat + k)) } }

/-- The chain of a node up to the root, at most 16 nodes. -/
def State.chainFrom (s : State) (part : Nat) : Nat → Nat → List Nat
  | 0, _ => []
  | f + 1, n => if n = 0 then [0] else n :: (match s.node? part n with | some v => s.chainFrom part f v.parent | none => [])

def State.chain (s : State) (part n : Nat) : List Nat := s.chainFrom part 16 n

/-- Add 1 to every node of a chain. -/
def State.countChain (s : State) (part n : Nat) : State := (s.chain part n).foldl (fun s m => s.countNode part m 1) s

/-- `n` lies under `top`, or is it. -/
def State.under (s : State) (part n top : Nat) : Bool := (s.chain part n).contains top

/-- The die of a node's walker (R207). -/
def walkerDie (n : Nat) : Nat := n % 4

/-! ### Issue (R209, R320) -/

/-- A node operand. -/
def nodeOf (w : Word) (alloc : Bool) : Except Abort Nat := do
  check (decide (w.toNat < 2 ^ 20) || (alloc && w.toNat == 0xFFFFFFFF)) { kind := .illegalOperand, addr := w }
  .ok w.toNat

/-- The range of `enrol` and `unenrol`. -/
def rangeCheck (b l : Word) : Except Abort Unit := do
  check (decide (pSpace b ≤ 1) && pOff b % 4096 == 0) { kind := .illegalOperand, addr := b }
  check (l.toNat % 4096 == 0 && decide (4096 ≤ l.toNat) && decide (l.toNat ≤ 2 ^ 30) && decide (pOff b + l.toNat ≤ 2 ^ 51))
    { kind := .illegalOperand, addr := l }

/-- `enrol x, y, nJ`: a free node is reserved at issue (R209). -/
def execEnrol (x y : Src) (j : BitVec 5) (s : State) := finish s do
  let i ← s.cur
  let a ← readSrc i x
  let b ← readSrc i y
  let p ← readSrc i (.n j)
  let l ← readSrc i (.n (j + 1))
  let n ← nodeOf a true
  let m ← nodeOf b false
  rangeCheck p l
  let part := partOf i.proc
  let left := (s.part part).freeNodes
  check (n != 0xFFFFFFFF || decide (0 < left)) { kind := .treeCapacity, addr := a }
  let s := if 0 < left then s.modPart part fun q => { q with freeNodes := left - 1 } else s
  .ok (s.issuePend i (mkTxn s i (.enrol n m p l (decide (0 < left))) 400) none)

def execUnenrol (x : Src) (z : RangeSrc) (s : State) := finish s do
  let i ← s.cur
  let a ← readSrc i x
  let r ← (match z with
    | .free => .ok none
    | .pair j => do
      let p ← readSrc i (.n j)
      let l ← readSrc i (.n (j + 1))
      .ok (some (p, l)) : Except Abort (Option (Word × Word)))
  let n ← nodeOf a false
  check (n != 0) { kind := .illegalOperand, addr := a }
  match r with
  | some (p, l) => rangeCheck p l
  | none => .ok ()
  .ok (s.issuePend i (mkTxn s i (.unenrol n r) 400) none)

/-- A tree form of one node. -/
def treeForm (s : State) (x : Src) (k : Keep) (op : Nat → Op) (fence : Bool) : Except Abort State := do
  let i ← s.cur
  let a ← readSrc i x
  let n ← nodeOf a false
  let s := if fence then s.addFence i.proc .rel .pkg else s
  .ok (s.issuePend i (mkTxn s i (op n) 400) k)

/-- `settle` acts as `fence.rel.pkg` at its issuer (R214). -/
def execSettle (x : Src) (k : Keep) (s : State) := finish s (treeForm s x k Op.settle true)
def execChgrd (x : Src) (k : Keep) (s : State) := finish s (treeForm s x k Op.chgrd false)

def execChgcmp (x y : Src) (k : Keep) (s : State) := finish s do
  let i ← s.cur
  let a ← readSrc i x
  let b ← readSrc i y
  let n ← nodeOf a false
  .ok (s.issuePend i (mkTxn s i (.chgcmp n b) 400) k)

/-- `repar` (R215). It acts as `fence.rel.pkg` at its issuer, for it settles. Until it takes its first lock its program counter stands on it
(R216), so no later word of its process has issued: the word issues when the lock is taken (DEDUCED, log entry 119). -/
def execRepar (x y : Src) (k : Keep) (s : State) :=
  match s.issue.bind fun i => i.pre.opened.map fun t => (i, t) with
  | some (i, t) => finish s (.ok (s.issueOpened i t k))
  | none =>
    finish s do
      let i ← s.cur
      let a ← readSrc i x
      let b ← readSrc i y
      let n ← nodeOf a false
      let m ← nodeOf b false
      check (n != 0) { kind := .illegalOperand, addr := a }
      .ok { (((s.addFence i.proc .rel .pkg).newTxn (mkTxn s i (.repar n m) 800)).1.holdAtWord i) with issue := none }

/-- A `repar` that has not taken its first lock is withdrawn, and its program counter is left on it (R216). -/
def State.undoRepar (s : State) (t : Nat) : State :=
  match nget? s.txns t with
  | none => s
  | some x => (s.dropTxn t).release x.issuer

/-- A `repar` has taken its first lock, or failed before it: its word issues at its issuer's turn. -/
def State.openRepar (s : State) (t : Nat) (x : Txn) : State :=
  if x.left then s else (s.release x.issuer).modProc x.issuer fun p => { p with opened := some t, landed := s.cycle + 1 }

/-! ### The walker (R209, R210, R214, R321) -/

/-- TREE_CONFLICT at the walker. -/
def State.conflict (s : State) (t : Nat) (x : Txn) (sub node : Nat) : State :=
  s.setTxn t { x with stage := .failed (recC s x { kind := .treeConflict, sub := sub, addr := BitVec.ofNat 64 node }) }

/-- A walker form completes with a value. -/
def State.walked (s : State) (t : Nat) (x : Txn) (w : Word) : State :=
  s.setTxn t { x with stage := .back { vals := [w], kept := [w] } }

/-- The physical granules of a range now, each once, or the first address that cannot be translated and why. -/
def State.granules (s : State) (x : Txn) (b l : Word) : Except (Nat × NoPage) (List Nat) :=
  let p := s.proc x.issuer
  let v := s.inst x.inst
  List.eraseDups <$> ((List.range (l.toNat / 4096)).mapM fun j =>
    let off := pOff b + 4096 * j
    let rel := heapRel p off
    if pSpace b = 1 ∧ rel < v.heapLim then .ok (s.live (v.heapBase + rel) / 4096)
    else
      match s.walk x.part (off / 2 ^ 16) with
      | .ok e => .ok (s.live (e.frame * 2 ^ 16 + off % 2 ^ 16) / 4096)
      | .error e => .error (fatOf (pSpace b) off, e))

/-- A range that cannot be translated: PAGE_FAULT in class C, or UNCORRECTABLE_DATA of its walk (R183, R320); firmware logs a page of
another owner (R91). -/
def State.rangeFault (s : State) (t : Nat) (x : Txn) (e : Nat × NoPage) : State :=
  let tr : Trap := if e.2 = .damaged then { kind := .uncorrectableData, addr := BitVec.ofNat 64 e.1 } else pageFault .load 0 e.1 x.part none
  (s.setTxn t { x with stage := .failed (recC s x tr) }).isolate x.part e.2.frame

/-- The walks of a range wait for their memory (R111). -/
def State.rangeBusy (s : State) (x : Txn) (b l : Word) : Bool :=
  (List.range ((pOff b % 2 ^ 16 + l.toNat + 2 ^ 16 - 1) / 2 ^ 16)).any fun j =>
    let off := pOff b / 2 ^ 16 * 2 ^ 16 + 2 ^ 16 * j
    !(pSpace b = 1 && decide (heapRel (s.proc x.issuer) off < (s.inst x.inst).heapLim)) && s.walkBusy x.part (off / 2 ^ 16)

/-- Return the node reserved for an `enrol` that creates none (R209). -/
def State.giveNode (s : State) (part : Nat) (reserved : Bool) : State :=
  if reserved then s.modPart part fun q => { q with freeNodes := q.freeNodes + 1 } else s

/-- Granule entries of a partition. -/
def State.enrolledAt (s : State) (part g : Nat) : Option Nat :=
  match nget? s.grans g with
  | some v => if v.enr && v.part == part then some v.node else none
  | none => none

def State.doEnrol (s : State) (t : Nat) (x : Txn) (node parent : Nat) (b l : Word) (reserved : Bool) : State :=
  let part := x.part
  let n := if node = 0xFFFFFFFF then nfree (s.part part).nodes ((s.part part).nodes.length + 1) 0 else node
  let fresh := !s.liveNode part n
  let pd := match s.node? part parent with | some v => v.depth | none => 0
  let own := match s.node? part n with | some v => v.parent | none => 0
  if (fresh && !s.liveNode part parent) || (!fresh && own != parent) then (s.giveNode part reserved).conflict t x 3 n
  else if fresh && decide (15 < pd + 1) then (s.giveNode part reserved).conflict t x 2 n
  else if fresh && !reserved then
    s.setTxn t { x with stage := .failed (recC s x { kind := .treeCapacity, addr := BitVec.ofNat 64 n }) }
  else
    match s.granules x b l with
    | .error va => (s.giveNode part reserved).rangeFault t x va
    | .ok gs =>
      if gs.any fun g => match s.enrolledAt part g with | some m => m != n || fresh | none => false then
        (s.giveNode part reserved).conflict t x 4 n
      else
        let s := if fresh then
            (s.setNode part n { parent := parent, live := true, depth := pd + 1 }).modPart part fun q =>
              { q with nodes := nmod q.nodes parent fun v => { v with nchild := v.nchild + 1 } }
          else s.giveNode part reserved
        let new := gs.filter fun g => (s.enrolledAt part g).isNone
        -- PEND is about the node of now: a token still bound for an earlier node of a granule clears nothing here (R212, R321)
        let bound (g : Nat) : Bool := s.tokens.any fun e => e.2.gran == some g && e.2.node == n && e.2.part == part
        let s : State := { s with
          grans := new.foldl (fun m g =>
            nset m g { part := part, node := n, enr := true, pend := bound g
                       count := (match nget? m g with | some v => v.count | none => 0) }) s.grans
          tokens := s.tokens.map fun e =>
            (e.1, if e.2.part == part && e.2.node != n && e.2.gran.any new.contains then { e.2 with gran := none } else e.2) }
        let s := s.modPart part fun q =>
          { q with nodes := nmod q.nodes n fun v => { v with ngran := v.ngran + new.length } }
        (s.countChain part n).walked t x (BitVec.ofNat 64 n)

/-- Detach granules from the tree. -/
def State.detach (s : State) (part n : Nat) (gs : List Nat) : State :=
  let s := { s with grans := gs.foldl (fun m g => nmod m g fun v => { v with enr := false }) s.grans }
  s.modPart part fun q => { q with nodes := nmod q.nodes n fun v => { v with ngran := v.ngran - gs.length } }

def State.doUnenrol (s : State) (t : Nat) (x : Txn) (n : Nat) (r : Option (Word × Word)) : State :=
  let part := x.part
  match s.node? part n with
  | none => s.conflict t x 3 n
  | some v =>
    match r with
    | none =>
      if v.nchild != 0 || v.ngran != 0 then s.conflict t x 5 n
      else if s.tokens.any fun e => e.2.part == part && e.2.node == n then s
      else
        let s := s.modPart part fun q =>
          { q with freeNodes := q.freeNodes + 1
                   nodes := nmod (ndel q.nodes n) v.parent fun u => { u with nchild := u.nchild - 1 } }
        (s.countChain part v.parent).walked t x 0
    | some (b, l) =>
      match s.granules x b l with
      | .error va => s.rangeFault t x va
      | .ok gs =>
        if gs.all fun g => s.enrolledAt part g == some n then ((s.detach part n gs).countChain part n).walked t x 0
        else s.conflict t x 3 n

/-- A walker request waits while a node it names, or its chain, is locked by a re-parent (R215). -/
def State.lockedChain (s : State) (part n : Nat) : Bool :=
  (s.chain part n).any fun m => match s.node? part m with | some v => v.lock | none => false

/-- TREE_WALKER_REQUEST: an `enrol`, `unenrol`, `chgrd` or `chgcmp` is carried out at its walker. -/
def execTreeWalkerRequest (t : Nat) (s : State) : Host.Outcome State Fault Refusal :=
  match nget? s.txns t with
  | none => .next s
  | some x =>
    if x.stage != .sent || !s.ordered t x then .next s
    else
      match x.op with
      | .enrol n p b l r =>
        if s.lockedChain x.part p || (n != 0xFFFFFFFF && s.lockedChain x.part n) || s.rangeBusy x b l then .next s
        else .next (s.doEnrol t x n p b l r)
      | .unenrol n r =>
        if s.lockedChain x.part n || (match r with | some (b, l) => s.rangeBusy x b l | none => false) then .next s else .next (s.doUnenrol t x n r)
      | .chgrd n =>
        if s.lockedChain x.part n then .next s
        else match s.node? x.part n with
          | some v => .next (s.walked t x v.count)
          | none => .next (s.conflict t x 3 n)
      | .chgcmp n w =>
        if s.lockedChain x.part n then .next s
        else match s.node? x.part n with
          | some v => .next (s.walked t x (if v.count = w then 0 else 1))
          | none => .next (s.conflict t x 3 n)
      | _ => .next s

/-! ### Settle (R214) -/

/-- Tokens of a partition not yet counted at a node they will reach. -/
def State.tokensUnder (s : State) (part n : Nat) : List Nat :=
  (s.tokens.filter fun e => e.2.part == part && s.under part e.2.node n).map Prod.fst

/-- A die has applied every cross-die write at or below a clock, but those of its own. -/
def State.caughtUp (s : State) (d : Nat) (c : Vector Nat 4) : Bool :=
  [0, 1, 2, 3].all fun e => e == d || decide (clk c e ≤ clk (s.die d).clock e)

/-- A settle completes once all 64 markers have arrived and every token they preceded is counted at its node. -/
def State.trySettle (s : State) (t : Nat) (x : Txn) (n : Nat) : State :=
  if x.stage != .waiting || s.lockedChain x.part n then s
  else if !s.liveNode x.part n then s.conflict t x 3 n
  else if decide (64 ≤ x.marks.length) && x.work.all (fun k => !(s.tokensUnder x.part n).contains k) then s.walked t x 0
  else s

/-- SETTLE_MARKER: the marker of a settle reaches a slice of the module, which has applied the cross-die writes it follows and
has sent its pending tokens ahead of it. The marker carries the clock of the moment at which the fence has passed. -/
def execSettleMarker (t slice : Nat) (s : State) : Host.Outcome State Fault Refusal :=
  match nget? s.txns t with
  | none => .next s
  | some x =>
    match x.op with
    | .settle n =>
      let x : Option Txn :=
        match x.stage with
        | .sent => if s.ordered t x then some { x with stage := .waiting, clock := (s.die (dieOf x.core)).clock } else none
        | .waiting => some x
        | _ => none
      match x with
      | none => .next s
      | some x =>
        if 64 ≤ slice ∨ x.marks.contains slice ∨ !s.caughtUp (dieOfNode slice) x.clock then .next ((s.setTxn t x).trySettle t x n)
        else
          let here := (s.tokensUnder x.part n).filter fun k => match nget? s.tokens k with
            | some v => (match v.gran with | some g => homeNode (g * 4096) == slice | none => true)
            | none => false
          let x := { x with marks := x.marks ++ [slice], work := x.work ++ here.filter (!x.work.contains ·) }
          .next ((s.setTxn t x).trySettle t x n)
    | _ => .next s

/-- Settles that a change of tokens or locks may have completed. -/
def State.trySettles (s : State) : State :=
  s.txns.foldl (fun s e => match e.2.op with | .settle n => s.trySettle e.1 e.2 n | _ => s) s

/-- A token that has been counted goes on to a node. The walker forwards it together with one that waits there already, as one increment, and
what waits for it waits for that one (R212, R214). -/
def State.forward (s : State) (k : Nat) (v : Token) (node : Nat) (merge : Bool) : State :=
  match (if merge then s.tokens.find? fun e => e.1 != k && e.2.part == v.part && e.2.node == node && e.2.gran.isNone else none) with
  | some (j, w) =>
    let u : Token := { w with weight := w.weight + v.weight, clock := w.clock.join v.clock }
    { s with
      tokens := nset (ndel s.tokens k) j u
      txns := s.txns.map fun e => (e.1, match e.2.op with
        | .settle _ => { e.2 with work := e.2.work.map fun n => if n = k then j else n }
        | _ => e.2) }
  | none => { s with tokens := nset s.tokens k { v with node := node, gran := none, due := s.cycle + 50 } }

/-- ROLLUP_TOKEN_COUNT (R212, R213): a token is counted at its node, clears the granule's PEND, and climbs to the parent; those that the
settle of a re-parent counts are kept apart, for they climb the new chain (R215). -/
def State.countToken (s : State) (k : Nat) (merge : Bool := true) : State :=
  match nget? s.tokens k with
  | none => s
  | some v =>
    match s.node? v.part v.node with
    | none => { s with tokens := ndel s.tokens k }
    | some nd =>
      let s := s.countNode v.part v.node v.weight
      let s := match v.gran with
        | some g => { s with grans := nmod s.grans g fun u => { u with pend := false } }
        | none => s
      if v.node = 0 then { s with tokens := ndel s.tokens k }
      else s.forward k v nd.parent merge

def execRollupTokenCount (k : Nat) (s : State) : Host.Outcome State Fault Refusal :=
  match nget? s.tokens k with
  | none => .next s
  | some v =>
    let held := match s.node? v.part v.node with | some nd => nd.lock | none => false
    if held || !s.caughtUp (walkerDie v.node) v.clock then .next s else .next (s.countToken k).trySettles

/-! ### Re-parenting (R215) -/

/-- The nodes that a re-parent locks, in ascending id: the node and both chains. -/
def State.lockSet (s : State) (part n p : Nat) : List Nat :=
  let l := s.chain part n ++ s.chain part p
  sortBy (fun a b => decide (a ≤ b)) (l.foldl (fun a m => if a.contains m then a else a ++ [m]) [])

def State.setLock (s : State) (part : Nat) (l : List Nat) (v : Bool) : State :=
  s.modPart part fun q => { q with nodes := q.nodes.map fun e => (e.1, if l.contains e.1 then { e.2 with lock := v } else e.2) }

/-- The nodes of a subtree. -/
def State.subtree (s : State) (part n : Nat) : List (Nat × Node) := (s.part part).nodes.filter fun e => s.under part e.1 n

/-- Count the tokens of a subtree up to its top: the settle inside a re-parent. Each climbs at most 16 nodes. -/
def State.drainTokens (s : State) (part n : Nat) : Nat → State
  | 0 => s
  | f + 1 => ((s.tokensUnder part n).foldl (fun s k => s.countToken k false) s).drainTokens part n f

/-- Tokens that have been counted at a node go on to its parent of now: those that the settle of a re-parent counted there climb the new
chain. -/
def State.climbOn (s : State) (part n : Nat) (l : List Nat) : State :=
  match s.node? part n with
  | none => s
  | some v => { s with tokens := s.tokens.map fun e => if l.contains e.1 then (e.1, { e.2 with node := v.parent }) else e }

/-- Steps 3 to 6, once every lock is held and the subtree is settled. -/
def State.moveNode (s : State) (t : Nat) (x : Txn) (n p : Nat) : State :=
  let part := x.part
  match s.node? part n, s.node? part p with
  | some v, some u =>
    let sub := s.subtree part n
    let deep := sub.foldl (fun d e => max d e.2.depth) v.depth
    if s.under part p n then (s.setLock part x.marks false).conflict t x 1 n
    else if 15 < u.depth + 1 + (deep - v.depth) then (s.setLock part x.marks false).conflict t x 2 n
    else
      let chains := s.lockSet part v.parent p
      let old := v.parent
      let s := s.modPart part fun q =>
        { q with nodes := q.nodes.map fun e =>
                   if sub.any (fun d => d.1 == e.1) then
                     (e.1, { e.2 with depth := e.2.depth - v.depth + (u.depth + 1), parent := if e.1 = n then p else e.2.parent })
                   else e }
      let s := s.modPart part fun q => { q with nodes := nmod q.nodes old fun w => { w with nchild := w.nchild - 1 } }
      let s := s.modPart part fun q => { q with nodes := nmod q.nodes p fun w => { w with nchild := w.nchild + 1 } }
      let s := chains.foldl (fun s m => s.countNode part m 1) s
      (s.setLock part x.marks false).walked t x 0
  | _, _ => (s.setLock part x.marks false).conflict t x 3 n

/-- REPAR_LOCK: take the next lock in ascending node id, or, with all of them held and the subtree settled, move the node. -/
def execReparLock (t : Nat) (s : State) : Host.Outcome State Fault Refusal :=
  match nget? s.txns t with
  | none => .next s
  | some x =>
    match x.op with
    | .repar n p =>
      let first := x.stage == .sent && s.ordered t x
      if !first && x.stage != .waiting then .next s
      else if first && (!s.liveNode x.part n || !s.liveNode x.part p) then .next ((s.conflict t x 3 n).openRepar t x)
      else
        let x := if first then { x with stage := .waiting, clock := (s.die (dieOf x.core)).clock } else x
        match (s.lockSet x.part n p).filter fun m => !x.marks.contains m with
        | m :: _ =>
          let taken := match s.node? x.part m with | some v => v.lock | none => true
          if taken then .next s
          else
            let s := (s.setLock x.part [m] true).setTxn t { x with marks := x.marks ++ [m] }
            .next (if first then s.openRepar t x else s)
        | [] =>
          let ready (c : Clock) : Bool := [0, 1, 2, 3].all fun d => s.caughtUp d c
          if ready x.clock && s.tokens.all fun k => !(k.2.part == x.part && s.under x.part k.2.node n) || ready k.2.clock then
            .next ((((s.drainTokens x.part n 16).moveNode t x n p).climbOn x.part n (s.tokensUnder x.part n)).trySettles)
          else .next s
    | _ => .next s

/-- Granules of a page that goes back to a pool: detached, with one bump on each node concerned (R210). -/
def State.detachPage (s : State) (part frame : Nat) : State :=
  let gs := (List.range 16).map fun j => frame * 16 + j
  let ns := gs.filterMap fun g => (s.enrolledAt part g).map fun n => (n, g)
  let nodes := ns.foldl (fun a e => if a.contains e.1 then a else a ++ [e.1]) []
  let s := nodes.foldl (fun s n => (s.detach part n ((ns.filter fun e => e.1 == n).map Prod.snd)).countChain part n) s
  { s with grans := s.grans.filter fun e => !gs.contains e.1 }

end Sys2Proof.Machine
end

