-- ==== Sys2Proof/Machine/Motion.lean ====
section
/-! DEFINITION. Pages at work: shoot-down and side logs (R93 to R95), dirty state (R96), hotness and policy (R99, R100), page
motion (R101 to R104) and the page operations of `mig` and `hot` (R359, R360). -/

namespace Sys2Proof.Machine

/-! ### Parts of operations in flight -/

/-- Change every part of an operation. -/
def Op.mapParts (f : Part8 → Part8) : Op → Op
  | .load l e => .load (l.map f) e
  | .load2 l => .load2 (l.map f)
  | .sched l a => .sched (l.map f) a
  | .vldb l c o p => .vldb (l.map f) c o p
  | .tld l c => .tld (l.map f) c
  | .store l b => .store (l.map f) b
  | .red o l v => .red o (l.map f) v
  | .redx i l v => .redx i (l.map f) v
  | .atom o l v => .atom o (l.map f) v
  | .cas w l e n => .cas w (l.map f) e n
  | .waita w l e => .waita w (l.map f) e
  | .wake s l n => .wake s (l.map f) n
  | .vload l o => .vload (l.map fun e => (e.1, f e.2)) o
  | .chbind c l => .chbind c (l.map f)
  | .mgang ab n ta b rp d z m dp l => .mgang ab n ta b rp d z m dp (l.map f)
  | o => o

/-- Rewrite a part that lies in one physical page to another. -/
def moveKey (src dst : Nat) (k : Nat) : Nat := if k < 2 ^ 51 ∧ k / 2 ^ 16 = src then dst * 2 ^ 16 + k % 2 ^ 16 else k
def movePart (src dst : Nat) (p : Part8) : Part8 :=
  match p.at_ with
  | .mem k => { p with at_ := .mem (moveKey src dst k) }
  | _ => p

/-! ### Mapped pages and pools (R91) -/

/-- A mapped page: virtual page, frame, leaf entry address, large, pinned. -/
structure Mapped where
  vpn : Nat
  frame : Nat
  leaf : Nat
  large : Bool
  pin : Bool
  deriving DecidableEq, Repr

/-- The leaf at a table entry: a run of 64 KiB pages. -/
def mappedRun (a e vpn lg : Nat) : List Mapped :=
  let f := pteAddr e / 2 ^ 16 / 2 ^ lg * 2 ^ lg
  (List.range (2 ^ lg)).map fun j =>
    { vpn := vpn + j, frame := f + j, leaf := a, large := decide (0 < lg), pin := bits e 56 56 == 1 }

/-- The entries of a table that are not zero: their numbers, and they. A table lies in at most two pages. -/
def State.tableEntries (s : State) (base n : Nat) : List (Nat × Nat) :=
  let hi := base + 8 * n
  let mid := min hi ((base / 2 ^ 16 + 1) * 2 ^ 16)
  let part (lo hi : Nat) : List Nat := (cellsIn s.mem (s.live lo) (hi - lo)).map fun c => (lo - base + (c.1 - s.live lo)) / 8
  let l := part base mid ++ (if mid < hi then part mid hi else [])
  (l.foldr (fun i l => if l.head? = some i then l else i :: l) []).map fun i => (i, s.pte (base + 8 * i))

/-- Every page that a partition's tables map (R89, R90). -/
def State.mapped (s : State) (part : Nat) : List Mapped :=
  let ok (e : Nat) : Bool := pteV e && pteClean e
  (s.tableEntries (s.part part).ptroot.toNat 4096).flatMap fun t1 =>
    if !ok t1.2 || pteLeaf t1.2 then []
    else (s.tableEntries (pteAddr t1.2) 512).flatMap fun t2 =>
      let v2 := t1.1 * 2 ^ 23 + t2.1 * 2 ^ 14
      if !ok t2.2 then []
      else if pteLeaf t2.2 then mappedRun (pteAddr t1.2 + 8 * t2.1) t2.2 v2 14
      else (s.tableEntries (pteAddr t2.2) 512).flatMap fun t3 =>
        let v3 := v2 + t3.1 * 2 ^ 5
        if !ok t3.2 then []
        else if pteLeaf t3.2 then mappedRun (pteAddr t2.2 + 8 * t3.1) t3.2 v3 5
        else (s.tableEntries (pteAddr t3.2) 32).flatMap fun t4 =>
          if ok t4.2 && pteLeaf t4.2 then mappedRun (pteAddr t3.2 + 8 * t4.1) t4.2 (v3 + t4.1) 0 else []

/-- Pages of a partition that are in no pool: in use, or mapped. -/
def State.busyPages (s : State) (part : Nat) : List Nat :=
  let m := (s.mapped part).map Mapped.frame
  (s.part part).used ++ m.filter fun f => !(s.part part).used.contains f

/-- Numbers of [a, a + n) that leave remainder `k` modulo 8. -/
def countMod (a n k : Nat) : Nat := (a + n + 7 - k % 8) / 8 - (a + 7 - k % 8) / 8

/-- The stack or port of a frame. -/
def frameStack (f : Nat) : Nat := stackOf (f * 2 ^ 16)

/-- Free pages of a pool. -/
def State.freePages (s : State) (part tier st : Nat) : Nat :=
  let total := ((s.part part).grants.filter fun g => g.1 == tier).foldl (fun n g =>
    n + (if tier = 2 then (if frameStack g.2.1 = st then g.2.2 else 0) else countMod g.2.1 g.2.2 st)) 0
  let used := (s.busyPages part).filter fun f => frameStack f == st &&
    (s.part part).grants.any fun g => g.1 == tier && decide (g.2.1 ≤ f) && decide (f < g.2.1 + g.2.2)
  total - used.length

/-- The first free frame of a stack in a grant, from a place on, wrapping; a grant of one page has one place. -/
def scanPage (busy : List Nat) (first count st : Nat) : Nat → Nat → Option Nat
  | 0, _ => none
  | n + 1, j =>
    let f := first + (if count = 1 then 0 else j % count)
    if frameStack f = st ∧ !busy.contains f then some f else scanPage busy first count st n (j + 1)

/-- A page of the pool of a tier and stack; which one, the part chooses freely. -/
def State.pickPage (s : State) (part tier st : Nat) : State × Option Nat :=
  let busy := s.busyPages part
  let (s, w) := s.draw
  let found := ((s.part part).grants.filter fun g => g.1 == tier && decide (0 < g.2.2)).findSome? fun g =>
    scanPage busy g.2.1 g.2.2 st (8 * (busy.length + 1) + 8) w.toNat
  match found with
  | none => (s, none)
  | some f => (s.modPart part fun q => { q with used := q.used ++ [f] }, some f)

/-- Return a page to its pool. -/
def State.returnPage (s : State) (part frame : Nat) : State :=
  (s.detachPage part frame).modPart part fun q => { q with used := q.used.filter (· != frame) }

/-! ### Dirty state (R96, R97) -/

/-- Set a bit of the top byte of a table entry, or clear it: D is bit 1 of byte 7, PIN bit 0. MOT is bit 6 of byte 6. -/
def State.pteBit (s : State) (leaf byte : Nat) (m : Byte) (v : Bool) : State :=
  let k := s.live leaf + byte
  let b := readByte s.mem k
  { s with mem := writeByte s.mem k (if v then b ||| m else b &&& ~~~m) }

/-- Flush the dirty entries of an engine TLB that a test picks. -/
def State.flushEng (s : State) (u : Nat) (p : TlbEnt → Bool) : State :=
  let e := s.engine u
  let d := e.tlb.filter fun t => t.dirty && p t
  let s := s.setD (d.map fun t => (t.part, t.vpn))
  s.setEngine u { e with tlb := e.tlb.map fun t => if p t then { t with dirty := false } else t }

/-- DIRTY_LOG_MERGE (R96): at 128 entries the cluster agent sets D and empties the log. -/
def execDirtyLogMerge (core : Nat) (s : State) : Host.Outcome State Fault Refusal :=
  if 128 ≤ (s.core core).dirtyLog.length then .next (s.mergeLog core) else .next s

/-- `harvest` (R96, R263): every log of the partition is merged and every engine TLB flushed. -/
def State.harvest (s : State) (part : Nat) : State :=
  let s := s.cores.foldl (fun s c =>
    let mine := c.2.dirtyLog.filter fun e => e.1 == part
    (s.setD mine).modCore c.1 fun k => { k with dirtyLog := k.dirtyLog.filter fun e => e.1 != part }) s
  s.engines.foldl (fun s e => s.flushEng e.1 fun t => t.part == part) s

/-- PAGE_WALK (R92): a walk of the table fills the TLBs of a core and its cluster. -/
def execPageWalk (core vpn : Nat) (s : State) : Host.Outcome State Fault Refusal :=
  match (s.core core).ctxs.findSome? fun e => e.2.run with
  | none => .next s
  | some k =>
    if s.unitBusy none core (partOf k) vpn then .next s
    else
      let r := s.lookup core (partOf k) vpn
      .next (r.1.isolate (partOf k) (match r.2 with | .error f => f.frame | .ok _ => none))

/-! ### Shoot-down (R93, R95) -/

/-- Entries of one page, or of a large page that holds it. -/
def entCovers (part vpn : Nat) (e : TlbEnt) : Bool :=
  e.part == part && (e.vpn == vpn || (decide (0 < e.large) && e.vpn / 2 ^ e.large == vpn / 2 ^ e.large))

/-- Drop a page from every TLB, engine dirty state going to the table first. -/
def State.dropTlbs (s : State) (part vpn : Nat) : State :=
  let p := entCovers part vpn
  let s := s.engines.foldl (fun s e => s.flushEng e.1 p) s
  { s with
    cores := s.cores.map fun e => (e.1, { e.2 with tlb := e.2.tlb.filter fun t => !p t })
    clusters := s.clusters.map fun e => (e.1, { e.2 with tlb := e.2.tlb.filter fun t => !p t })
    engines := s.engines.map fun e => (e.1, { e.2 with tlb := e.2.tlb.filter fun t => !p t }) }

/-- A page lies in the page that a shoot-down names: the same, or another 64 KiB part of a large page (R93). -/
def State.shotCovers (s : State) (part shot vpn : Nat) : Bool :=
  shot == vpn || (match s.leafOf part shot with
    | some (_, lg) => decide (0 < lg) && shot / 2 ^ lg == vpn / 2 ^ lg
    | none => false)

/-- Translate the untranslated parts of a logged write again, for the unit of its log: the state with TLBs filled and pages dirty,
the parts, and the first page that still fails. -/
def State.retryParts (s : State) (u : Option Nat) (x : Txn) (l : List Part8) : State × List Part8 × Option Nat :=
  let mgr := s.isMgr (ownerOf x.issuer)
  l.foldl (fun a p =>
    match p.at_ with
    | .virt off =>
      let vpn := off / 2 ^ 16
      let r := a.1.unitLookup u x.core x.part vpn
      match r.2 with
      | .ok e =>
        if e.w && (!e.pt || mgr) then
          (r.1.unitDirty u x.core x.part vpn, a.2.1 ++ [{ p with at_ := .mem (e.frame * 2 ^ 16 + off % 2 ^ 16) }], a.2.2)
        else (r.1, a.2.1 ++ [p], some (a.2.2.getD vpn))
      | .error f => (r.1.isolate x.part f.frame, a.2.1 ++ [p], some (a.2.2.getD vpn))
    | _ => (a.1, a.2.1 ++ [p], a.2.2)) (s, [], none)

/-- The address of the first byte of an access that has no place yet. -/
def virtVa (l : List Part8) : Nat := ((l.find? fun p => match p.at_ with | .virt _ => true | _ => false).map Part8.va).getD 0

/-- The page fault of a logged write (Table 8.3). -/
def logFault (x : Txn) (l : List Part8) : Trap :=
  let k : Acc5 := match x.op with | .red .. | .redx .. => .reduction | _ => if x.op.parts.isEmpty then .engine else .store
  pageFault k ((l.map Part8.len).foldl (· + ·) 0) (virtVa l) x.part none

/-- A side-log entry under DENY is discarded, and its issuer is parked at its next turn with the deferred record (R95). -/
def State.denyEnt (s : State) (t : Nat) (x : Txn) : State :=
  let k := ownerOf x.issuer
  let r := mkRec s k .d (logFault x x.op.parts) x.loc x.bword
  ((s.breakTag x).dropTxn t).modProc k fun p => { p with faults := p.faults ++ [r] }

/-- The side log of a unit: a core's, or a shared engine's. -/
def State.setLog (s : State) (u : Sum Nat Nat) (l : List SideEnt) : State :=
  match u with
  | .inl c => s.modCore c fun k => { k with sideLog := l }
  | .inr e => s.setEngine e { s.engine e with sideLog := l }

/-- Every side-log entry with its unit, the logs in their order and each log oldest first. -/
def State.logEnts (s : State) : List (Sum Nat Nat × SideEnt) :=
  (s.cores.flatMap fun c => c.2.sideLog.map fun e => (.inl c.1, e)) ++ s.engines.flatMap fun g => g.2.sideLog.map fun e => (.inr g.1, e)

/-- Retry one entry of a side log, or discard it under DENY (R95): a write whose pages are all there leaves the log for its home; one
that still faults stays, and the manager gets a record of that page (R94). -/
def State.retryEnt (s : State) (u : Sum Nat Nat) (e : SideEnt) (deny : Bool) : State :=
  let l := (match u with | .inl c => (s.core c).sideLog | .inr g => (s.engine g).sideLog).filter (·.txn != e.txn)
  match nget? s.txns e.txn with
  | none => s.setLog u l
  | some x =>
    if deny then (s.setLog u l).denyEnt e.txn x
    else
      let r := s.retryParts (match u with | .inl _ => none | .inr g => some g) x x.op.parts
      let op := x.op.mapParts fun p => (r.2.1.find? fun q => q.va == p.va).getD p
      let s := r.1.setTxn e.txn { x with op := op, stage := if r.2.2.isSome then .logged else .sent, started := true, due := s.cycle }
      match r.2.2 with
      | some v => (s.setLog u (l ++ [{ e with vpn := v }])).deferToManager (ownerOf x.issuer) (logFault x op.parts) x.loc x.bword
      | none => s.setLog u l

/-- A read held on the page is to be retried: it goes on where its page is there now, or ends under DENY (R311, R348). -/
def State.retryHeld (s : State) (part vpn : Nat) (deny : Bool) : State :=
  s.txns.foldl (fun s e =>
    match e.2.stage with
    | .heldPage v =>
      if e.2.part != part || !s.shotCovers part vpn v then s
      else
        let there := match s.walk part v with | .ok _ => true | .error _ => false
        let iso := match s.walk part v with | .error f => f.frame | .ok _ => none
        if !deny && !there then s.isolate part iso
        else match e.2.op with
        | .recvt .. =>
          if deny then s.failSide e.1 e.2 (pageFault .load 0 (v * 2 ^ 16) part none)
          else s.setTxn e.1 { e.2 with stage := .back (recvDeliver e.2 [] 0), retry := true }
        | _ =>
          if deny then s.setTxn e.1 { e.2 with stage := .failed (recC s e.2 (pageFault .load 0 (v * 2 ^ 16) part none)) }
          else s.setTxn e.1 { e.2 with stage := .sent, retry := true }
    | _ => s) s

/-- A motion whose page has been shot down comes to rest: the source returns to its pool (Table 5.6). -/
def State.restMotion (s : State) (part vpn : Nat) : State :=
  match s.motions.find? fun e => e.2.part == part && e.2.vpn == vpn && e.2.st == .forwarding with
  | none => s
  | some (id, m) =>
    let s : State := { s with
      motions := ndel s.motions id
      txns := s.txns.map fun e => (e.1, { e.2 with op := e.2.op.mapParts (movePart m.src m.dst) }) }
    s.modPart part fun q => { q with used := q.used.filter (· != m.src) }

/-- An access that a shoot-down has retried is still on its way: a write of a side log not yet applied, or a held read that has not
been tried again. -/
def Txn.retrying (y : Txn) : Bool := y.retry || (y.retried && y.stage == .sent)

/-- The reads held on a page. -/
def State.heldReads (s : State) (part vpn : Nat) : List Nat :=
  (s.txns.filter fun e => match e.2.stage with | .heldPage v => e.2.part == part && s.shotCovers part vpn v | _ => false).map Prod.fst

/-- The next step of a shoot-down that has dropped the page from the TLBs: the next side-log entry of the page is retried once the
one before it has been applied; then the reads held on it are retried, and when each has been, the shoot-down is complete (R93). -/
def State.shootStep (s : State) (t : Nat) (x : Txn) (vpn : Nat) (deny : Bool) : State :=
  let open_ := x.marks.any fun u => match nget? s.txns u with | some y => y.retrying | none => false
  if open_ then s
  else
    match s.logEnts.find? fun e => e.2.part == x.part && s.shotCovers x.part vpn e.2.vpn && !x.marks.contains e.2.txn with
    | some (u, e) =>
      if s.walkBusy x.part e.vpn then s
      else (s.setTxn t { x with marks := x.marks ++ [e.txn] }).retryEnt u e deny
    | none =>
      if s.walkBusy x.part vpn then s
      else if (s.heldReads x.part vpn).any (!x.marks.contains ·) then
        (s.setTxn t { x with marks := x.marks ++ s.heldReads x.part vpn }).retryHeld x.part vpn deny
      else
        let s := s.restMotion x.part vpn
        if x.issuer = 0 then s.dropTxn t
        else (s.setTxn t { x with stage := .back { vals := [0], kept := [0] } }).arrive t

/-- SHOOT_DOWN_COMPLETE (R93): the page leaves every TLB, engine dirty state going to the table first; then its side-log entries
and the reads held on it are retried, and the pending 0 arrives. -/
def execShootDownComplete (t : Nat) (s : State) : Host.Outcome State Fault Refusal :=
  match nget? s.txns t with
  | none => .next s
  | some x =>
    match x.op with
    | .shoot vpn deny =>
      if x.stage != .sent then .next s
      else if x.started then .next (s.shootStep t x vpn deny)
      else if !s.earlierDone t x then .next s
      else .next ((s.dropTlbs x.part vpn).setTxn t { x with started := true })
    | _ => .next s

/-! ### Destinations (R100, R359) -/

def frameTier (s : State) (f : Nat) : Nat := (tierOf s (f * 2 ^ 16)).getD 0

/-- The stacks of the die of a CXL port, the one with more free pages of a tier first, the lower on a tie. -/
def State.portStacks (s : State) (part tier d : Nat) : List Nat :=
  if s.freePages part tier (2 * d) < s.freePages part tier (2 * d + 1) then [2 * d + 1, 2 * d] else [2 * d, 2 * d + 1]

/-- The stack or port a move goes to; none where no pool has a page. -/
def State.destOf (s : State) (part frame tier : Nat) (any : Bool) (st : Nat) : Option Nat :=
  let own := if frameTier s frame = 2 then (s.portStacks part tier (frameStack frame)).headD 0 else frameStack frame
  let die := own / 2
  let l :=
    if !any then [st]
    else if tier = 0 then [own]
    else if tier = 1 then own :: ([2 * die, 2 * die + 1].filter (· != own))
    else
      let d := if frameTier s frame = 2 then frameStack frame else frameStack frame / 2
      d :: ([0, 1, 2, 3].filter (· != d))
  l.find? fun k => decide (0 < s.freePages part tier k)

/-- The coldest tier-0 page of a stack that may be demoted (R100). Of equally cold ones the lowest virtual page is taken: the model's
choice, as R100 breaks ties for candidates only (log entry 86). -/
def State.coldest (s : State) (part st : Nat) : Option Mapped :=
  let lim := bits (s.part part).migpol.toNat 23 16
  let l := (s.mapped part).filter fun m =>
    frameTier s m.frame == 0 && frameStack m.frame == st && !m.large && !m.pin && !s.heapPage m.frame && decide (nget 0 s.hot m.frame ≤ lim) &&
      !s.motions.any fun e => e.2.part == part && e.2.vpn == m.vpn
  l.foldl (fun (a : Option Mapped) m =>
    match a with
    | none => some m
    | some b => if nget 0 s.hot m.frame < nget 0 s.hot b.frame then some m else a) none

/-- Queue a move. -/
def State.queueMove (s : State) (m : Motion) : State :=
  { s with motions := nset s.motions s.nextId m, nextId := s.nextId + 1 }

/-- A demotion goes beneath the same stack, else to any tier-1 stack of the die, else to tier 2; there is none where no pool of
those takes the page (R100). -/
def State.demotion (s : State) (part : Nat) (v : Mapped) : Option Motion :=
  match s.destOf part v.frame 1 true 0 with
  | some k => some { part := part, vpn := v.vpn, tier := 1, stack := k }
  | none => (s.destOf part v.frame 2 true 0).map fun _ => { part := part, vpn := v.vpn, tier := 2, any := true }

/-! ### Motion (R101 to R104) -/

/-- The status of a `mig` (Table 16.6 of R359). -/
def State.migDone (s : State) (txn : Option Nat) (w : Nat) : State :=
  match txn with
  | none => s
  | some t => s.modTxn t fun x => { x with stage := .back { vals := [BitVec.ofNat 64 w], kept := [BitVec.ofNat 64 w] } }

/-- Causes of Table 5.7. -/
def causeCode : AbortCause → Nat
  | .destError => 1 | .cxlLoss => 2 | .budget => 3 | .cancel => 4 | .stopped => 5

/-- Send a 64 B migration record on the channel of `ctl.mighand`, or to the event ring (R103). -/
def State.migRecord (s : State) (part : Nat) (bs : List Byte) : State :=
  let h := (s.part part).mighand.toNat % 2 ^ 32
  match (if h = 0 then none else s.post part (h % 2 ^ 24) bs) with
  | none => s.ringPart part (.migration bs)
  | some s => s.chanChanged part (h % 2 ^ 24)

/-- Ones of a bitmap. -/
def popCount (b : BitVec 512) : Nat := (List.range 512).foldl (fun n i => if b.getLsbD i then n + 1 else n) 0

/-- The record of Table 5.7. -/
def State.abortBytes (s : State) (m : Motion) (c : AbortCause) : List Byte :=
  let copying := m.st = .copying
  let w : List Nat := [0x12 * 2 ^ 48 + causeCode c * 2 ^ 40, m.vpn * 2 ^ 16,
    (if copying then m.src else match s.walk m.part m.vpn with | .ok e => e.frame | .error _ => 0) * 2 ^ 16,
    (if copying then m.dst * 2 ^ 16 else 0), (if copying then popCount m.bitmap else 0), s.time.toNat, 0, 0]
  w.flatMap (leBytes 8)

/-- End a motion in COPYING, or a request that has not begun (R103). -/
def State.abortMotion (s : State) (id : Nat) (m : Motion) (c : AbortCause) : State :=
  let bs := s.abortBytes m c
  let s : State := { s with motions := ndel s.motions id }
  let s := if m.st = .copying then
      (s.pteBit m.leaf 6 0x40 false).modPart m.part fun q => { q with used := q.used.filter (· != m.dst) }
    else s
  (s.migRecord m.part bs).migDone m.txn (1 + 256 * causeCode c)

/-- MIGRATION_ABORT: a motion in COPYING aborts for a cause that holds; that of the budget, once 1 ms has passed (R103). -/
def execMigrationAbort (id : Nat) (c : AbortCause) (s : State) : Host.Outcome State Fault Refusal :=
  match nget? s.motions id with
  | none => .next s
  | some m =>
    let holds : Bool :=
      match c with
      | .destError => m.st == .copying
      | .budget => m.st == .copying && decide (m.began + 1750000 ≤ s.cycle)
      | .cxlLoss => m.st == .copying && frameTier s m.dst == 2 && (nget {} s.cxl (frameStack m.dst)).lost
      | .cancel => m.st != .forwarding && s.txns.any fun e => match e.2.op with
        | .eng _ _ (.mig p o) => e.2.part == m.part && o.toNat % 8 == 1 && pOff p / 2 ^ 16 == m.vpn
        | _ => false
      | .stopped => m.st != .forwarding && (s.part m.part).migrated
    if holds then .next (s.abortMotion id m c) else .next s

/-- Motions of a partition in flight. -/
def State.moving (s : State) (part : Nat) : Nat := (s.motions.filter fun e => e.2.part == part && e.2.st != .queued).length

/-- MAXMOT, 1 to 64 (Table 5.4). -/
def State.maxMot (s : State) (part : Nat) : Nat := min 64 (max 1 (bits (s.part part).migpol.toNat 15 8))

/-- The beryl engine of a motion, by die: that of the source's stack if the partition's mask holds it, else the lowest one of the
mask (R68). DESIGN CHOICE (log entry 124): a tier-2 page lies in no stack; its die is that of its CXL port. -/
def State.berylOf (s : State) (part frame : Nat) : Option Nat :=
  let m := (s.part part).budget.berylmask
  let near := if frameTier s frame = 2 then frameStack frame else frameStack frame / 2
  if m.getLsbD near then some near else [0, 1, 2, 3].find? m.getLsbD

/-- A beryl engine runs at most 64 page motions (R1). -/
def State.berylRoom (s : State) (eng : Nat) : Bool :=
  decide ((s.motions.filter fun e => e.2.st != .queued && e.2.eng == eng).length < 64)

/-- The page of a motion that takes it out of a tier-0 stack. -/
def State.leavesStack (s : State) (part st : Nat) (m : Motion) : Bool :=
  m.part == part && m.tier != 0 &&
    (match (if m.st = .queued then ((s.walk part m.vpn).toOption.map TlbEnt.frame) else some m.src) with
     | some f => frameTier s f == 0 && frameStack f == st
     | none => false)

/-- Demotions from a tier-0 stack, queued or under way, and promotions to it that have not taken their page: policy sees the pool as
these will leave it (R100). -/
def State.demoting (s : State) (part st : Nat) : Nat := (s.motions.filter fun e => s.leavesStack part st e.2).length
def State.promised (s : State) (part st : Nat) : Nat :=
  (s.motions.filter fun e => e.2.part == part && e.2.st == .queued && e.2.tier == 0 && e.2.stack == st && !e.2.any).length

/-- Where a queued move stands: none, and it waits; or the state after it has begun, or has ended. Taken against the page's present place,
it may end at once; a `mig` that finds a tier-0 pool full has the coldest page demoted first (R100, R359). Pages of a heap count as
pinned (R98). -/
def State.startMove (s : State) (id : Nat) (m : Motion) : Option State :=
  if s.walkBusy m.part m.vpn then none
  else
  let w := s.walk m.part m.vpn
  let s := s.countWalk m.part m.vpn
  let ended : State := { s with motions := ndel s.motions id }
  let stop (w : Nat) : Option State := some (ended.migDone m.txn w)
  match w with
  | .error .damaged => some (match m.txn with
    | some t => ended.modTxn t fun x =>
        { x with stage := .failed (recC s x { kind := .uncorrectableData, addr := BitVec.ofNat 64 (m.vpn * 2 ^ 16) }) }
    | none => ended)
  | .error f => some ((ended.isolate m.part f.frame).migDone m.txn 3)
  | .ok e =>
    let pin := bits (s.pte e.leaf) 56 56 == 1 || s.heapPage e.frame
    let there := frameTier s e.frame == m.tier && (m.any || frameStack e.frame == m.stack)
    if pin || decide (0 < e.large) then stop 3
    else if there then stop 2
    else match s.berylOf m.part e.frame with
    | none => stop 3
    | some eng =>
      if !s.berylRoom eng then none
      else match s.destOf m.part e.frame m.tier m.any m.stack with
      | some k =>
        match s.pickPage m.part m.tier k with
        | (s, none) => some ({ s with motions := ndel s.motions id }.migDone m.txn 3)
        | (s, some f) =>
          let s := s.pteBit e.leaf 6 0x40 true
          some { s with motions := nset s.motions id { m with
            src := e.frame, dst := f, leaf := e.leaf, st := .copying, bitmap := 0, eng := eng, began := s.cycle } }
      | none =>
        if m.tier = 0 ∧ (m.any ∨ m.txn.isNone) then
          let st := if m.any then
              (if frameTier s e.frame = 2 then (s.portStacks m.part 0 (frameStack e.frame)).headD 0 else frameStack e.frame)
            else m.stack
          if 0 < s.demoting m.part st then none
          else if m.txn.isNone then stop 3
          else
            match (s.coldest m.part st).bind (s.demotion m.part) with
            | some d => some (s.queueMove d)
            | none => stop 3
        else stop 3

/-- MOTION_START (R101, R102, R359): the first request that may begin, those of `mig` ahead of policy moves, and a demotion ahead of the
promotion that needs its page. No move begins while the partition is being moved to another module (R86). -/
def execMotionStart (part : Nat) (s : State) : Host.Outcome State Fault Refusal :=
  let free := fun (e : Nat × Motion) => e.2.part == part && e.2.st == .queued &&
    !s.motions.any fun d => d.2.part == part && d.2.vpn == e.2.vpn && (d.2.st != .queued)
  let l := s.motions.filter free
  let l := l.filter (·.2.txn.isSome) ++ l.filter (fun e => e.2.txn.isNone && e.2.tier != 0) ++ l.filter fun e => e.2.txn.isNone && e.2.tier == 0
  if s.maxMot part ≤ s.moving part ∨ (s.part part).migrated then .next s
  else .next ((l.findSome? fun e => s.startMove e.1 e.2).getD s)

/-- The least line not copied. -/
def nextLine (b : BitVec 512) : Option Nat := (List.range 512).find? fun i => !b.getLsbD i

/-- A settle whose marker has passed the destination's slice and not the source's still waits for the tokens that the commit carries there
(R102, R214). -/
def State.followTokens (s : State) (m : Motion) : NMap Txn :=
  let src := homeNode (m.src * 2 ^ 16)
  let dst := homeNode (m.dst * 2 ^ 16)
  let moved := (s.tokens.filter fun e => match e.2.gran with | some g => g / 16 == m.src | none => false).map Prod.fst
  if moved = [] then s.txns
  else s.txns.map fun (e : Nat × Txn) => match e.2.op with
    | .settle n =>
      if e.2.stage = .waiting ∧ e.2.marks.contains dst ∧ !e.2.marks.contains src then
        (e.1, { e.2 with work := e.2.work ++ (moved.filter fun k => (s.tokensUnder e.2.part n).contains k && !e.2.work.contains k) })
      else e
    | _ => e

/-- Commit a motion whose last line is copied: metadata and monitor arms move, the entry names the destination, and the
page is shot down (R102, R300, R385). -/
def State.commitMotion (s : State) (id : Nat) (m : Motion) : State :=
  let mvG (g : Nat) : Nat := if g / 16 = m.src then m.dst * 16 + g % 16 else g
  let here := s.grans.filter fun e => e.1 / 16 == m.src
  let s : State := { s with
    grans := here.foldl (fun a e => nset a (mvG e.1) e.2) (s.grans.filter fun e => e.1 / 16 != m.src)
    tokens := s.tokens.map fun e => (e.1, { e.2 with gran := e.2.gran.map mvG })
    txns := s.followTokens m
    xmsgs := s.xmsgs.map fun x => if x.new.isEmpty then x else { x with key := moveKey m.src m.dst x.key }
    hot := match nget? s.hot m.src with | some h => nset (ndel s.hot m.src) m.dst h | none => ndel s.hot m.dst }
  let arms := s.clusters.flatMap fun c => c.2.monitors.filter fun a => a.key / 2 ^ 16 == m.src
  let s : State := { s with
    clusters := s.clusters.map fun c => (c.1, { c.2 with monitors := c.2.monitors.filter fun a => a.key / 2 ^ 16 != m.src }) }
  -- an arm that finds the table full spills; where the spill table is full too its waiter is released (R300, R301)
  let s := arms.foldl (fun s a => (s.arm (partOf a.proc) { a with key := moveKey m.src m.dst a.key }).getD (s.endWait a.txn 2)) s
  let s := s.modPart m.part fun q => { q with spill := q.spill.map fun a => { a with key := moveKey m.src m.dst a.key } }
  let moved (f : Nat) : Nat := if f = m.src then m.dst else f
  let e := s.pte m.leaf
  let e' := e - pteAddr e - (if bits e 54 54 = 1 then 2 ^ 54 else 0) + m.dst * 2 ^ 16
  let s : State := { s with mem := writeBytes s.mem (s.live m.leaf) (leBytes 8 e') }
  let s : State := { s with
    motions := nset s.motions id { m with st := .forwarding }
    insts := s.insts.map fun e => (e.1, { e.2 with areaPa := moveKey m.src m.dst e.2.areaPa, frames := e.2.frames.map moved })
    objs := s.objs.map fun e => (e.1, { e.2 with frames := e.2.frames.map moved }) }
  let s := (s.newTxn { issuer := 0, core := 0, part := m.part, inst := 0, loc := 0, op := .shoot m.vpn false
                       due := s.cycle + 7000 }).1
  s.migDone m.txn 0

/-- MOTION_LINE_COPY (R101, R104): the next line goes to the destination; a bad line is written as zero and listed there. -/
def execMotionLineCopy (id : Nat) (s : State) : Host.Outcome State Fault Refusal :=
  match nget? s.motions id with
  | none => .next s
  | some m =>
    if m.st != .copying then .next s
    else
      match nextLine m.bitmap with
      | none => .next (s.commitMotion id m)
      | some i =>
        let a := m.src * 2 ^ 16 + 128 * i
        let b := m.dst * 2 ^ 16 + 128 * i
        if s.memBusy a || s.memBusy b || (lostPart s [{ at_ := .mem b, len := 128 }]).isSome then .next s
        else
          let bad := s.badAt a
          let s : State := { s with mem := writeBytes s.mem b (if bad then List.replicate 128 0 else readBytes s.mem a 128) }
          let s := ((s.listBad b bad).activate a).activate b
          let m := { m with bitmap := m.bitmap ||| (1#512 <<< i), due := s.cycle + 64 }
          let s : State := { s with motions := nset s.motions id m }
          .next (if (nextLine m.bitmap).isNone then s.commitMotion id m else s)

/-! ### Epochs (R99, R100) -/

/-- The promotions of an epoch, with the demotions they need first. -/
def State.policy (s : State) (part : Nat) : State :=
  let pol := (s.part part).migpol.toNat
  let slots := s.maxMot part - (s.motions.filter fun e => e.2.part == part).length
  let l := (s.mapped part).filter fun m => frameTier s m.frame != 0 && !m.large && !m.pin && !s.heapPage m.frame &&
    decide (bits pol 31 24 ≤ nget 0 s.hot m.frame) && !s.motions.any fun e => e.2.part == part && e.2.vpn == m.vpn
  let l := sortBy (fun a b => decide (nget 0 s.hot b.frame < nget 0 s.hot a.frame) ||
    (nget 0 s.hot a.frame == nget 0 s.hot b.frame && decide (a.vpn ≤ b.vpn))) l
  (l.take slots).foldl (fun s m =>
    let st := if frameTier s m.frame = 2 then (s.portStacks part 0 (frameStack m.frame)).headD 0 else frameStack m.frame
    let go : Motion := { part := part, vpn := m.vpn, tier := 0, stack := st }
    if s.promised part st < s.freePages part 0 st + s.demoting part st then s.queueMove go
    else
      match (s.coldest part st).bind (s.demotion part) with
      | some d => (s.queueMove d).queueMove go
      | none => s) s

/-- EPOCH_END: policy under AUTO, then every counter of the partition is halved. -/
def execEpochEnd (part : Nat) (s : State) : Host.Outcome State Fault Refusal :=
  match nget? s.parts part with
  | none => .next s
  | some q =>
    if s.cycle < q.epochAt then .next s
    else
      let s := if q.migpol.getLsbD 0 && !q.migrated then s.policy part else s
      let s : State := { s with hot := (s.hot.map fun e => (e.1, if s.owns part e.1 then e.2 / 2 else e.2)).filter fun e => e.2 != 0 }
      .next (s.modPart part fun q => { q with epochAt := s.cycle + bits q.migpol.toNat 47 32 * 1750 })

/-! ### mig and hot (R359, R360) -/

/-- The move of a page that a cancel stops. -/
def State.cancelMove (s : State) (part vpn : Nat) : State × Nat :=
  match s.motions.find? fun e => e.2.part == part && e.2.vpn == vpn && e.2.st != .forwarding with
  | some (id, m) => (s.abortMotion id m .cancel, 0)
  | none => (s, 4)

/-- A `mig` reaches its beryl engine: its status, or none while its move is under way. -/
def State.migGo (s : State) (t : Nat) (x : Txn) (page opts : Word) : State × Option Word :=
  let s := if opts.toNat % 8 < 4 ∧ opts.toNat % 8 ≠ 1 then
      (s.countWalk x.part (pOff page / 2 ^ 16)).isolate x.part
        (match s.walk x.part (pOff page / 2 ^ 16) with | .error f => f.frame | .ok _ => none)
    else s
  let o := opts.toNat
  let tier := bits o 4 3
  let st := bits o 7 5
  let vpn := pOff page / 2 ^ 16
  let frame := pOff page / 2 ^ 16
  let mapped := s.walk x.part vpn
  let pin (v : Bool) : State × Option Word :=
    match mapped with
    | .ok e => (s.pteBit e.leaf 7 0x01 v, some 0)
    | .error _ => (s, some 3)
  if o % 8 = 0 then
    match mapped with
    | .error _ => (s, some 3)
    | .ok e =>
      -- behind a motion of the page the request waits, and is taken against the page as that leaves it
      let moves := s.motions.any fun d => d.2.part == x.part && d.2.vpn == vpn
      if !moves ∧ (bits (s.pte e.leaf) 56 56 = 1 ∨ 0 < e.large ∨ s.heapPage e.frame) then (s, some 3)
      else ((s.queueMove { part := x.part, vpn := vpn, tier := tier, stack := st, any := o.testBit 8, txn := some t }).setTxn t
        { x with stage := .waiting }, none)
  else if o % 8 = 1 then
    let r := s.cancelMove x.part vpn
    (r.1, some (BitVec.ofNat 64 r.2))
  else if o % 8 = 2 then pin true
  else if o % 8 = 3 then pin false
  else if o % 8 = 4 then
    match s.pickPage x.part tier st with
    | (s, some f) => (s, some (BitVec.ofNat 64 (f * 2 ^ 16)))
    | (s, none) => (s, some 0)
  else
    let inUse := (s.part x.part).used.contains frame && !((s.mapped x.part).map Mapped.frame).contains frame
    if s.owns x.part frame && (tierOf s (frame * 2 ^ 16)).isSome && inUse then (s.returnPage x.part frame, some 0)
    else (s, some 3)

/-- `hot`: the counter of the physical page now, 0 for a heap page. -/
def execHot (x : Src) (k : Keep) (s : State) := finish s do
  let i ← s.cur
  let p ← readSrc i x
  check (decide (pSpace p ≤ 1)) { kind := .illegalOperand, addr := p }
  if pSpace p = 1 ∧ heapRel i.pre (pOff p) < (s.inst i.pre.inst).heapLim then .ok (s.pushLater i 0 0 k 100)
  else
    let vpn := pOff p / 2 ^ 16
    let va := fatOf (pSpace p) (pOff p)
    let r := s.lookup i.pre.core (partOf i.proc) vpn
    if s.unitBusy none i.pre.core (partOf i.proc) vpn then .error .wait
    else match r.2 with
    | .error .damaged =>
      let x := mkTxn s i (.value {}) 100
      let t : Trap := { kind := .uncorrectableData, addr := BitVec.ofNat 64 va }
      .ok (r.1.issuePend i { x with stage := .failed (recC s x t) } k)
    | .error f => .error (.trap (pageFault .load 0 va (partOf i.proc) f.frame))
    | .ok e =>
      let pg := r.1.live (e.frame * 2 ^ 16) / 2 ^ 16
      .ok (r.1.pushLater i (BitVec.ofNat 64 (nget 0 r.1.hot pg)) 0 k 100)

end Sys2Proof.Machine
end

