-- ==== Sys2Proof/Machine/Engines.lean ====
section
/-! DEFINITION. Engines (R167, R168, R198, R346 to R359, R380): completion objects, the lines of a transfer, copies,
compression, collectives, engine programs, and the arrival of pending results. -/

namespace Sys2Proof.Machine

/-! ### Lines (R348, R349) -/

/-- Why an engine does not go on at a line. -/
inductive EngStop where
  /-- The page, and the frame of another owner that its walk met (R91). -/
  | page (vpn : Nat) (iso : Option Nat)
  /-- Memory, a walk or a side log is busy, or an answer of another module is outstanding. -/
  | wait
  /-- The memory servers of these slices have no context for it yet (R105). -/
  | full (l : List Nat)
  /-- It asks another module for bytes first (R193). -/
  | ask (y : Txn)
  | bad (t : Trap)
  deriving DecidableEq, Repr

/-- The beryl engine that takes a `mig` of a core, by die: that of its own die, else one of the mask's, by the core's number (R68). -/
def berylFor (s : State) (part core : Nat) : Option Nat :=
  let m := (s.part part).budget.berylmask
  let l := [0, 1, 2, 3].filter fun d => m.getLsbD d
  if m.getLsbD (dieOf core) then some (dieOf core) else l[core % max 1 l.length]?

/-- The shared unit that executes an operation; none for the core copy unit (R348). -/
def engUnit (s : State) (x : Txn) (op : EngOp) : Option Nat :=
  let pads (a b : Word) : Bool := [a, b].any fun p => decide (2 ≤ pSpace p) && decide (pSpace p ≤ 4)
  match op with
  | .copy d r _ | .copyt d r _ => if pads d r then none else unitKey s x.part .sharedCopy x.core
  | .coll _ => unitKey s x.part .collective x.core
  | .cmpr .. | .dcmp .. => unitKey s x.part .compression x.core
  | .fork k _ _ => unitKey s x.part k x.core
  | .mig .. => (berylFor s x.part x.core).map fun d => 6 * 1024 + d

/-- The die that a unit stands on (R68). -/
def engDie (x : Txn) (u : Option Nat) : Nat :=
  match u with
  | none => dieOf x.core
  | some k => if k / 1024 = 2 then k % 1024 / 8 else if k / 1024 = 6 then k % 1024 else k % 1024 / 4

/-- The clock of an engine operation as a writer: its messages are its own, not its issuer's (R187, R198). -/
def engWho (x : Txn) (t : Nat) (u : Option Nat) : Who := { die := engDie x u, proc := engineKey t x.issuer, txn := t }

/-- What happens before whatever follows the observation of an engine operation (R198): its own writes, and what its die has applied. -/
def State.engPast (s : State) (x : Txn) (t : Nat) (u : Option Nat) : Clock :=
  let k := engineKey t x.issuer
  ((s.die (engDie x u)).clock.join (s.tagsOf k s.nextTxn)).join (s.proc k).know

/-- Parts of a line: the state with TLBs filled, the parts, the first page that cannot be used, and whether a walk waits. -/
structure Line where
  st : State
  parts : List Part8 := []
  miss : Option Nat := none
  /-- A walk waits for its memory (R111). -/
  busy : Bool := false
  /-- The frame of another owner that the walk of the missing page met (R91). -/
  iso : Option Nat := none
  /-- The address of a page whose walk met data that cannot be corrected (R183). -/
  bad : Option Nat := none

/-- Translate one piece of a global line for a unit. -/
def Line.piece (a : Line) (x : Txn) (u : Option Nat) (w : Bool) (sp off n : Nat) : Line :=
  let va := fatOf sp off
  let inst := a.st.inst x.inst
  let rel := (off + 2 ^ 51 - x.heapoff.toNat % 2 ^ 51) % 2 ^ 51
  let vpn := off / 2 ^ 16
  let put (s : State) (p : Place) : Line := { a with st := s, parts := a.parts ++ [{ at_ := p, len := n, va := va }] }
  if sp = 1 ∧ rel < inst.heapLim then put a.st (.mem (inst.heapBase + rel))
  else
    let r := a.st.unitLookup u x.core x.part vpn
    let busy := a.busy || a.st.unitBusy u x.core x.part vpn
    match r.2 with
    | .ok e =>
      if !w || (e.w && (!e.pt || a.st.isMgr (ownerOf x.issuer))) then
        let s := if !w then r.1 else r.1.unitDirty u x.core x.part vpn
        { put s (.mem (e.frame * 2 ^ 16 + off % 2 ^ 16)) with busy := busy }
      else { put r.1 (.virt off) with miss := some (a.miss.getD vpn), busy := busy }
    | .error .damaged => { put r.1 (.virt off) with bad := some (a.bad.getD va), busy := busy }
    | .error f =>
      { put (r.1.isolate x.part f.frame) (.virt off) with miss := some (a.miss.getD vpn), iso := a.iso.or f.frame, busy := busy }

/-- What is wrong with a write of a collective or of an element of a tensor copy to a register window (R166, R352); the other commands
have had their windows checked as they issued. -/
def winBad (s : State) (x : Txn) (k o n : Nat) : Option Kind :=
  let p := s.proc k
  let r := wRegion o n
  let late : Bool := match x.op with | .eng _ _ (.coll _) | .eng _ _ (.copyt ..) => true | _ => false
  if !late then none
  else if (nget? s.procs k).isNone || !p.started || p.st == .exited || p.st == .dormant then some .peerNotResident
  else if (r == .t || r == .a) && (s.core p.core).owner != some k then some .spaceInvalid
  else if n % 8 != 0 || o % 8 != 0 || !p.accept.getLsbD 0 then some .illegalOperand
  else none

/-- Where the `n` bytes of a line lie. `pin`: the core, plus one, whose scratchpad a window was found to name at issue. -/
def State.engParts (s : State) (x : Txn) (u : Option Nat) (w : Bool) (pin : Nat) (p : Word) (n : Nat) :
    Except EngStop Line :=
  let sp := pSpace p
  let off := pOff p
  let va := fatOf sp off
  let bad (k : Kind) : Except EngStop Line := .error (.bad { kind := k, addr := BitVec.ofNat 64 va })
  let one (q : Place) : Except EngStop Line := .ok { st := s, parts := [{ at_ := q, len := n, va := va }] }
  if 8 ≤ sp then bad .spaceInvalid
  else if 2 ^ 51 < off + n then bad .fatOverflow
  else if sp < 2 then
    let rel := if sp = 1 then (off + 2 ^ 51 - x.heapoff.toNat % 2 ^ 51) % 2 ^ 51 else 0
    let a : Line := (pieces (n / 2 ^ 15 + 4) off rel n).foldl (fun a e => a.piece x u w sp e.1 e.2) { st := s }
    match a.bad with
    | some va => if a.busy then .error .wait else .error (.bad { kind := .uncorrectableData, addr := BitVec.ofNat 64 va })
    | none => if a.busy then .error .wait else .ok a
  else if sp = 2 then if off + n ≤ 0x3F800 then one (.mem (spadKey x.core off)) else bad .spaceInvalid
  else if sp = 3 then
    if off + n ≤ 2 ^ 21 ∧ off % 2 ^ 18 + n ≤ 0x3F800 then
      one (.mem (spadKey (clusterOf x.core * 8 + off / 2 ^ 18) (off % 2 ^ 18)))
    else bad .spaceInvalid
  else if sp = 4 then
    let k := handleOf x.part (bits off 46 21)
    let r := wRegion (off % 2 ^ 21) n
    if 2 ^ 47 ≤ off ∨ r = .reserved then bad .spaceInvalid
    else if r = .spad then
      if pin ≠ 0 then one (.mem (spadKey (pin - 1) (off % 2 ^ 21)))
      else if (nget? s.procs k).isNone || !(s.proc k).started || (s.proc k).st == .exited then bad .peerNotResident
      else one (.mem (spadKey (s.proc k).core (off % 2 ^ 21)))
    else if !w then bad .illegalOperand
    else
      match winBad s x k (off % 2 ^ 21) n with
      | some kind => bad kind
      | none => one (.win k (off % 2 ^ 21))
  else if sp = 5 then
    if off / 2 ^ 41 != s.moduleId && (s.bound x.part (off / 2 ^ 41)).isSome then one (.mem (fabKey (off / 2 ^ 41) (off % 2 ^ 41)))
    else bad .spaceInvalid
  else if sp = 6 then one (.mem (hostKey off))
  else bad .illegalOperand

/-- Parts in the memory of another module. -/
def fabParts (l : List Part8) : Bool := l.any fun p => match p.at_ with | .mem k => decide (2 ^ 80 ≤ k) | _ => false

/-- A transaction of its own for an access of engine operation `t` to another module or to a register window. -/
def lineTxn (s : State) (t : Nat) (x : Txn) (op : Op) : Txn :=
  { x with issuer := engineKey t x.issuer, op := op, tgt := {}, ptag := 0, token := false, marks := [], work := [], data := [], regs := []
           progress := 0, stage := .sent, started := false, away := false, retry := false, wide := true, sca := false, due := s.cycle }

/-- What another module has answered to an access of engine operation `t`; where it has not been asked, it is asked. -/
def State.answered (s : State) (t : Nat) (x : Txn) (op : Op) : Except EngStop Txn :=
  match s.txns.find? fun e => e.2.issuer == engineKey t x.issuer && e.2.op == op with
  | none => .error (.ask (lineTxn s t x op))
  | some (_, y) =>
    match y.stage with
    | .back _ => .ok y
    | .failed r => .error (.bad r.trap)
    | _ => .error .wait

/-- The answers that a line has used are forgotten. -/
def State.dropLines (s : State) (t : Nat) (x : Txn) : State :=
  let l := s.txns.filter fun e => e.2.issuer == engineKey t x.issuer && s.fromEngine e.2 && e.2.performed
  l.foldl (fun s e => (s.uncache e.1 e.2).dropTxn e.1) s

/-- An engine's access of device memory is served once a context of each slice it reaches is its own, or free (R105). -/
def State.atServers (s : State) (t : Nat) (l : List Part8) : Except EngStop Unit :=
  let no := s.unserved t l
  if no = [] then .ok () else .error (.full (no.filter fun c => !(s.slots c).contains t))

/-- Read a line: an unmapped page waits, bad data ends the operation (R183, R348). -/
def State.engRead (s : State) (t : Nat) (x : Txn) (u : Option Nat) (pin : Nat) (p : Word) (n : Nat) :
    Except EngStop (State × List Byte) := do
  let a ← s.engParts x u false pin p n
  match a.miss with
  | some v => .error (.page v a.iso)
  | none =>
    let d := engDie x u
    if fabParts a.parts then do
      let y ← a.st.answered t x (.fabRead a.parts)
      .ok (a.st.miss x, y.data)
    else if a.st.busyPart a.parts || !(a.st.seenTags d a.parts false).le (a.st.die d).clock then .error .wait
    else do
      a.st.atServers t a.parts
      match a.st.badPart a.parts with
      | some va => .error (.bad { kind := .uncorrectableData, addr := BitVec.ofNat 64 va })
      | none => .ok ((a.st.countLines a.parts).miss x, a.st.allBytes d a.parts)

/-- Bytes that land in a scratchpad count in the buffer they land in (R80, R351). -/
def State.landBytes (s : State) (l : List Part8) : State :=
  l.foldl (fun s p => match p.at_ with
    | .mem k =>
      if 2 ^ 52 ≤ k ∧ k < 2 ^ 64 then
        let lo := k % 2 ^ 18
        (s.modCore ((k - 2 ^ 52) / 2 ^ 18) fun c =>
          { c with bufs := c.bufs.map fun (e : Nat × Buf) =>
              if overlap lo p.len e.2.base e.2.size then
                (e.1, e.2.land (min (lo + p.len) (e.2.base + e.2.size) - max lo e.2.base))
              else e })
      else s
    | _ => s) s

/-- The side log that a unit's operation goes to. -/
def State.engLog (s : State) (x : Txn) (u : Option Nat) : List SideEnt :=
  match u with | some k => (s.engine k).sideLog | none => (s.core x.core).sideLog

/-- The completion object of an engine operation collects its numeric flags, and the bytes done (R168, R178). -/
def State.noteObj (s : State) (x : Txn) (f : Word) (done : Nat) : State :=
  match x.op with
  | .eng c j _ => s.modCore c fun k => let o := k.obj j; k.setObj j { o with flags := o.flags ||| f, bytes := done }
  | _ => s

/-- A write of engine operation `x` at its home (R292, R296, R297). -/
def State.engServe (s : State) (t : Nat) (x y : Txn) (w : Who) : State :=
  let c := s.countLines y.op.parts true
  match y.op with
  | .store l bs => (c.applyParts w l bs).endWrite t y 0
  | .red op l v =>
    let r := s.redBytes op l (v.toNat % 2 ^ (8 * atomBytes op))
    ((c.applyParts w l r.1).endWrite t y 0).noteObj x r.2 x.progress
  | .redx int l v =>
    let r := s.redxBytes int l v
    ((c.applyParts w l r.1).endWrite t y 0).noteObj x r.2 x.progress
  | _ => s

/-- Apply a store or reduction of a line; a faulting one retires into the unit's side log (R94, R348). `s0` is the state before the
step that reads the line and writes it: the write waits for what its memory was busy with then. The homes must have applied
what happens before the operation (R192, R198). A write to another module goes in flits of its own, and the operation is complete once it
has been acknowledged (R193, R198). -/
def State.engApply (s s0 : State) (x : Txn) (t0 : Nat) (u : Option Nat) (pin : Nat) (p : Word) (n : Nat) (mk : List Part8 → Op) :
    Except EngStop State := do
  let a ← s.engParts x u true pin p n
  let t := a.st.nextTxn
  let y : Txn := { x with op := mk a.parts, tgt := {}, ptag := 0, token := false, marks := [], work := [], data := []
                          progress := 0, stage := .sent }
  match a.miss with
  | some v =>
    if 64 ≤ (a.st.engLog x u).length then .error .wait
    else
      let s := (a.st.newTxn { y with stage := .logged }).1
      let e : SideEnt := { txn := t, part := x.part, vpn := v }
      let s := match u with
        | some k => let g := s.engine k; s.setEngine k { g with sideLog := g.sideLog ++ [e] }
        | none => s.modCore x.core fun c => { c with sideLog := c.sideLog ++ [e] }
      .ok (s.deferToManager (ownerOf x.issuer) (pageFault .engine n (fatOf (pSpace p) (pOff p)) x.part none) x.loc x.bword)
  | none =>
    if fabParts a.parts then .ok (a.st.newTxn (lineTxn a.st t0 x (mk a.parts))).1
    else if s0.busyPart a.parts true || !a.st.linkRoom a.parts || a.st.matHeld a.parts ||
        !(a.st.homesOf a.parts).all fun h => x.clock.le (a.st.die h).clock then .error .wait
    else do
      a.st.atServers t0 a.parts
      match a.st.badWrite y.op with
      | some va => .error (.bad { kind := .uncorrectableData, addr := BitVec.ofNat 64 va })
      | none =>
        match a.parts, y.op with
        | [{ at_ := .win .., .. }], .store .. =>
          -- it lands at its target's issue turn, as a program's write does (R166)
          .ok (a.st.newTxn (lineTxn a.st t0 x y.op)).1
        | _, _ => .ok (((a.st.newTxn y).1.engServe t x y (engWho x t0 u)).landBytes a.parts)

/-- Write the bytes of a line. -/
def State.engWrite (s s0 : State) (x : Txn) (t0 : Nat) (u : Option Nat) (pin : Nat) (p : Word) (bs : List Byte) :
    Except EngStop State :=
  if bs.isEmpty then .ok s else s.engApply s0 x t0 u pin p bs.length fun l => .store l bs

/-- What stands at the bytes of parts; none where a part has no place yet. -/
def State.oldBytes (s : State) (d : Nat) (l : List Part8) : List (Option Byte) :=
  l.flatMap fun p => match p.at_ with
    | .virt _ => List.replicate p.len none
    | .win k o => (List.range p.len).map fun j =>
        some (BitVec.ofNat 8 ((s.winRead k ((o + j) / 8 * 8)).toNat / 2 ^ (8 * ((o + j) % 8))))
    | _ => (s.partBytes d p).map some

/-- The bytes a write leaves where the spec lets a byte end with its old value or the new one: a free bit decides (R351, R352,
log entry 45). -/
def State.mixOld (s : State) (d : Nat) (l : List Part8) (bs : List Byte) (open_ : Nat → Bool) : List Byte :=
  let old := s.oldBytes d l
  bs.zipIdx.map fun b => if open_ b.2 && !Config.freeBit (s.fresh + b.2) then ((old.getD b.2 none).getD b.1) else b.1

/-- The place of a byte of a list of parts. -/
def keyAt : List Part8 → Nat → Option Nat
  | [], _ => none
  | p :: t, j => if j < p.len then (match p.at_ with | .mem k => some (k + j) | _ => none) else keyAt t (j - p.len)

/-- Add bytes to a pointer's offset. -/
def ptrAdd (p : Word) (n : Nat) : Word := p + BitVec.ofNat 64 n

/-- Bytes up to the end of a 128 B line. -/
def lineLeft (p : Word) : Nat := 128 - pOff p % 128

/-- A little-endian word of bytes. -/
def wordAt (bs : List Byte) (j : Nat) : Nat := leNat ((bs.drop (8 * j)).take 8)

/-! ### Scratchpad ranges (R161, R163) -/

/-- A scratchpad range that an operation takes. -/
structure SpadRange where
  core : Nat
  incoming : Bool
  lo : Nat
  len : Nat
  addr : Word := 0
  /-- No transfer of a buffer: what a collective keeps beside its items (R355). -/
  quiet : Bool := false

/-- Start the buffers of every range, or of none. -/
def startRanges (s : State) (l : List SpadRange) : Except Trap State :=
  (l.filter fun r => !r.quiet).foldlM (fun s r => match (s.core r.core).startRange r.incoming r.lo r.len with
    | some c => .ok (s.setCore r.core c)
    | none => .error { kind := .bufferState, addr := r.addr }) s

/-- Enter the ranges of a transaction of a core. -/
def State.enterRanges (s : State) (t core : Nat) (l : List SpadRange) : State :=
  l.foldl (fun s r => s.modCore r.core fun c => c.enter t r.incoming r.lo r.len (r.core == core) r.quiet) s

/-- Entries that ranges take of the issuing core's scoreboard; an operation that would need more than there are takes all of them. -/
def ownRanges (core : Nat) (l : List SpadRange) : Nat := min 128 (l.filter fun r => r.core == core).length

/-- The ranges of a transaction retire: its entries go, and an outgoing buffer is emptied. -/
def Core.leave (c : Core) (t : Nat) : Core :=
  let mine := c.sb.filter fun e => e.txn == t
  let c := { c with sb := c.sb.filter fun e => e.txn != t }
  let c := { c with
    bufs := c.bufs.map fun (e : Nat × Buf) =>
      if mine.any fun m => !m.incoming && !m.quiet && overlap m.lo m.len e.2.base e.2.size then (e.1, e.2.outDone) else e }
  { c with bufs := c.bufs.filter fun e => e.2.owner != 0 || c.inFlight e.2.base e.2.size }

def State.leaveRanges (s : State) (t : Nat) : State :=
  s.cores.foldl (fun s e =>
    if e.2.sb.any fun m => m.txn == t then ((s.modCore e.1 fun c => c.leave t).breakQueries e.1).pokeBufs e.1 else s) s

/-! ### Descriptors as they read at issue (R161, R163, R351) -/

/-- Where the bytes of a descriptor lie: a scratchpad, or device memory that a walk finds. -/
def State.peekKeys (s : State) (core part : Nat) (heapoff : Word) (inst : Nat) (p : Word) (n : Nat) : Option (List Nat) :=
  (List.range n).mapM fun j =>
    let o := pOff p + j
    let rel := (o + 2 ^ 51 - heapoff.toNat % 2 ^ 51) % 2 ^ 51
    if pSpace p = 2 then (if o < 0x3F800 then some (spadKey core o) else none)
    else if pSpace p = 3 then (if o < 2 ^ 21 ∧ o % 2 ^ 18 < 0x3F800 then some (spadKey (clusterOf core * 8 + o / 2 ^ 18) (o % 2 ^ 18)) else none)
    else if pSpace p = 1 ∧ rel < (s.inst inst).heapLim then some ((s.inst inst).heapBase + rel)
    else if pSpace p ≤ 1 then (match s.walk part (o / 2 ^ 16) with | .ok e => some (e.frame * 2 ^ 16 + o % 2 ^ 16) | .error _ => none)
    else none

/-- The byte that a store on its way leaves at a key, if it writes there. -/
def storeAt (x : Txn) (k : Nat) : Option Byte :=
  match x.op with
  | .store l bs =>
    (l.foldl (fun (a : Option Byte × Nat) p => match p.at_ with
      | .mem q => (if q ≤ k ∧ k < q + p.len then bs[a.2 + (k - q)]? else a.1, a.2 + p.len)
      | _ => (a.1, a.2 + p.len)) (none, 0)).1
  | _ => none

/-- A descriptor as its issuer reads it at issue: what its die sees, with its own stores that are on their way. None where it
cannot be read then; the engine meets it later. -/
def State.peek (s : State) (i : Issue) (p : Word) (n : Nat) : Option (List Byte) :=
  (s.peekKeys i.pre.core (partOf i.proc) i.pre.heapoff i.pre.inst p n).map fun l => l.map fun k =>
    let mine := (s.txns.filter fun e => e.2.issuer == i.proc && e.2.stage == .sent).foldl
      (fun (a : Option Byte) e => (storeAt e.2 k).or a) none
    mine.getD (s.viewByte (dieOf i.pre.core) k)

/-! ### Copies (R351, R352) -/

/-- A place lies among the source bytes of a copy whose ends are in spaces 0x0 and 0x1, which may name one page (R351). -/
def aliased (s : State) (x : Txn) (dst src : Word) (len k : Nat) : Bool :=
  let off := pOff src
  if pSpace dst = 0 ∧ pSpace src = 1 then
    let a := (s.inst x.inst).heapBase + (off + 2 ^ 51 - x.heapoff.toNat % 2 ^ 51) % 2 ^ 51
    decide (a ≤ k) && decide (k < a + len)
  else if pSpace dst = 1 ∧ pSpace src = 0 then
    (List.range (len / 2 ^ 16 + 2)).any fun j => match s.walk x.part (off / 2 ^ 16 + j) with
      | .ok e =>
        let o := (off / 2 ^ 16 + j) * 2 ^ 16 + k % 2 ^ 16
        e.frame == k / 2 ^ 16 && decide (off ≤ o) && decide (o < off + len)
      | .error _ => false
  else false

/-- One line of a copy. -/
def State.copyLine (s : State) (t : Nat) (x : Txn) (u : Option Nat) (dst src : Word) (len : Nat) : Except EngStop State := do
  let d := ptrAdd dst x.progress
  let r := ptrAdd src x.progress
  let n := min (len - x.progress) (min (lineLeft d) (lineLeft r))
  let s0 := s
  let (s, bs) ← s.engRead t x u (x.marks.getD 1 0) r n
  if bs.isEmpty then .ok (s.setTxn t { x with progress := x.progress + n })
  else if pSpace d = pSpace r ∨ 2 ≤ pSpace d ∨ 2 ≤ pSpace r then do
    let s ← s.engWrite s0 x t u (x.marks.getD 0 0) d bs
    .ok (s.setTxn t { x with progress := x.progress + n })
  else do
    let u' ← s.engApply s0 x t u (x.marks.getD 0 0) d n fun l =>
      .store l (s.mixOld (engDie x u) l bs fun j => match keyAt l j with | some k => aliased s x dst src len k | none => false)
    .ok ({ u' with fresh := u'.fresh + n }.setTxn t { x with progress := x.progress + n })

/-- A signed 32-bit field. -/
def sgn32 (n : Nat) : Int := if n < 2 ^ 31 then n else (n : Int) - 2 ^ 32

/-- Dimensions of a `copyt` descriptor as working state holds them: extent, source stride and destination stride. -/
def dims : List Nat → List (Nat × Int × Int)
  | c :: a :: b :: t => (c, sgn32 a, sgn32 b) :: dims t
  | _ => []

/-- Offsets of element `e` at both ends, dimension 0 innermost. -/
def elemOff (l : List (Nat × Int × Int)) (e : Nat) : Int × Int :=
  match l with
  | [] => (0, 0)
  | (c, a, b) :: t =>
    let r := elemOff t (e / c)
    ((e % c : Nat) * a + r.1, (e % c : Nat) * b + r.2)

/-- The least and greatest offset over a list of extents and strides. -/
def spanOf (l : List (Nat × Int)) : Int × Int :=
  l.foldl (fun a e =>
    let v := e.2 * ((e.1 : Int) - 1)
    (a.1 + min 0 v, a.2 + max 0 v)) (0, 0)

/-- The scratchpad of an end in space 2, 3 or 4, with the offset there. -/
def padOf (s : State) (core part : Nat) (p : Word) : Option (Nat × Nat) :=
  let o := pOff p
  if pSpace p = 2 then some (core, o)
  else if pSpace p = 3 ∧ o < 2 ^ 21 then some (clusterOf core * 8 + o / 2 ^ 18, o % 2 ^ 18)
  else if pSpace p = 4 ∧ o % 2 ^ 21 < 0x40000 then some ((s.proc (handleOf part (bits o 46 21))).core, o % 2 ^ 21)
  else none

/-- The range that a strided end spans in a scratchpad. -/
def spanRange (s : State) (core part : Nat) (p : Word) (incoming : Bool) (l : List (Nat × Int)) (size : Nat) : List SpadRange :=
  match padOf s core part p with
  | none => []
  | some (c, o) =>
    let b := spanOf l
    let lo := ((o : Int) + b.1).toNat
    [{ core := c, incoming := incoming, lo := lo, len := ((o : Int) + b.2).toNat + size - lo, addr := p }]

/-- The process whose register windows a write of `n` bytes at a pointer touches (R166 rule 7). -/
def regsAt (part : Nat) (p : Word) (n : Nat) : List Nat :=
  if pSpace p = 4 ∧ n ≠ 0 ∧ 0x40000 < pOff p % 2 ^ 21 + n then [handleOf part (bits (pOff p) 46 21)] else []

/-- The whole numbers of [0, c) that put `j × a` into [lo, hi). -/
def stepsIn (c : Nat) (a lo hi : Int) : Nat × Nat :=
  if a = 0 then (if lo ≤ 0 ∧ 0 < hi then (0, c) else (0, 0))
  else
    let l := if 0 < a then -((-lo) / a) else -((hi - 1) / (-a))
    let h := if 0 < a then (hi - 1) / a else (-lo) / (-a)
    (l.toNat, (h + 1).toNat - l.toNat)

/-- Some element of a strided end starts at an offset of [lo, hi); past 4,096 candidates of one dimension it is taken that one does. -/
def strideHits : List (Nat × Int) → Int → Int → Bool
  | [], lo, hi => decide (lo ≤ 0) && decide (0 < hi)
  | (c, a) :: t, lo, hi =>
    let b := spanOf t
    let r := stepsIn c a (lo - b.2) (hi - b.1)
    let n := min r.2 (c - r.1)
    decide (4096 < n) || (List.range n).any fun j => strideHits t (lo - (r.1 + j : Nat) * a) (hi - (r.1 + j : Nat) * a)

/-- The processes of a partition whose register windows a tensor copy writes (R166 rule 7). -/
def strideRegs (s : State) (part : Nat) (p : Word) (size : Nat) (l : List (Nat × Int)) : List Nat :=
  if pSpace p != 4 then []
  else (s.procs.filter fun e => partOf e.1 == part && e.2.engine.isNone &&
    strideHits l ((e.1 % 2 ^ 26 : Nat) * 2 ^ 21 + 0x40000 - pOff p - size + 1) ((e.1 % 2 ^ 26 : Nat) * 2 ^ 21 + 0x110000 - pOff p)).map Prod.fst

/-- Outstanding copies into the register windows of processes are counted in their CPYREG. -/
def State.countRegs (s : State) (l : List Nat) : State :=
  l.foldl (fun s k => if (nget? s.procs k).isSome then s.modProc k fun p => { p with cpyreg := p.cpyreg + 1 } else s) s
def State.uncountRegs (s : State) (l : List Nat) : State :=
  l.foldl (fun s k => if (nget? s.procs k).isSome then s.modProc k fun p => { p with cpyreg := p.cpyreg - 1 } else s) s

/-- Take the ranges and register targets that a descriptor gives, unless they were taken at issue (`marks` is then not empty). -/
def State.lateRanges (s : State) (t : Nat) (x : Txn) (l : List SpadRange) : Except EngStop State :=
  if x.marks ≠ [] then .ok s
  else if !(s.core x.core).sbRoom (ownRanges x.core l) then .error .wait
  else
    match startRanges s l with
    | .error tr => .error (.bad tr)
    | .ok s => .ok (s.enterRanges t x.core l)

/-- The head of a `copyt` descriptor (Table 16.4): the log2 of the element size, and the dimensions. -/
def copytHead (h : List Byte) : Option (Nat × Nat) :=
  let w0 := wordAt h 0
  let el := bits w0 7 4
  let nd := w0 % 16
  if w0 / 256 ≠ 0 ∨ wordAt h 1 ≠ 0 ∨ 6 < el ∨ nd = 0 ∨ 8 < nd then none else some (el, nd)

/-- Its dimensions: extent, source stride and destination stride as they stand in working state, after the element size and the total. -/
def copytDims (el nd : Nat) (b : List Byte) : Option (List Nat) :=
  let f := (List.range nd).map fun d => (wordAt b (2 * d), wordAt b (2 * d + 1))
  let total : Nat := f.foldl (fun n e => n * (e.1 % 2 ^ 32)) (2 ^ el)
  if f.any (fun e => e.1 % 2 ^ 32 == 0 || e.2 % 2 ^ 32 != 0) || decide (2 ^ 48 ≤ total) then none
  else some (2 ^ el :: total :: f.flatMap fun e => [e.1 % 2 ^ 32, e.1 / 2 ^ 32, e.2 / 2 ^ 32])

/-- The scratchpad ranges of a tensor copy, from its working state. -/
def copytRanges (s : State) (core part : Nat) (dst src : Word) (w : List Nat) : List SpadRange :=
  match w with
  | size :: _ :: l =>
    spanRange s core part dst true ((dims l).map fun e => (e.1, e.2.2)) size ++
      spanRange s core part src false ((dims l).map fun e => (e.1, e.2.1)) size
  | _ => []

/-- The processes whose register windows it writes. -/
def copytRegs (s : State) (part : Nat) (dst : Word) (w : List Nat) : List Nat :=
  match w with
  | size :: _ :: l => strideRegs s part dst size ((dims l).map fun e => (e.1, e.2.2))
  | _ => []

/-- Read and check a `copyt` descriptor. -/
def State.copytStart (s : State) (t : Nat) (x : Txn) (u : Option Nat) (dst src desc : Word) : Except EngStop State := do
  let bad : EngStop := .bad { kind := .illegalOperand, addr := desc }
  let (s, h) ← s.engRead t x u 0 desc 16
  match copytHead h with
  | none => .error bad
  | some (el, nd) =>
    let (s, b) ← s.engRead t x u 0 (ptrAdd desc 16) (16 * nd)
    match copytDims el nd b with
    | none => .error bad
    | some w =>
      let s ← s.lateRanges t x (copytRanges s x.core x.part dst src w)
      let more := (copytRegs s x.part dst w).filter (!x.regs.contains ·)
      .ok ((s.countRegs more).setTxn t { x with work := w, regs := x.regs ++ more })

/-- A range of a scratchpad lies within one linear buffer or ring slot, or touches none (R351). -/
def Core.oneSlot (c : Core) (lo len : Nat) : Bool :=
  c.bufs.all fun e => !overlap lo len e.2.base e.2.size ||
    (decide (e.2.base ≤ lo) && decide (lo + len ≤ e.2.base + e.2.size) &&
      (lo - e.2.base) / e.2.slot == (lo + len - 1 - e.2.base) / e.2.slot)

/-- A pointer moved by a signed offset; none outside the offset's range. -/
def ptrMove (p : Word) (d : Int) : Option Word :=
  let o : Int := pOff p + d
  if 0 ≤ o ∧ o < 2 ^ 51 then some (BitVec.ofNat 64 (p.toNat - pOff p + o.toNat)) else none

/-- The rules of R351 that an end's operand breaks: space 0x7, a register region as a source, a buffer's edge. -/
def endOperand (s : State) (core part : Nat) (write : Bool) (p : Word) (len : Nat) : Bool :=
  let reg (o : Nat) : Bool := match wRegion (o % 2 ^ 21) 1 with | .n | .v | .t | .a => true | _ => false
  pSpace p != 7 && (write || pSpace p != 4 || (!reg (pOff p) && !reg (pOff p + len - 1))) &&
    (len == 0 || (match padOf s core part p with | some (c, o) => (s.core c).oneSlot o len | none => true))

/-- Byte `j` of the destination of element `e` lies in that of an earlier element. -/
def covered (size : Nat) (l : List (Nat × Int × Int)) (e j : Nat) : Bool :=
  let o := (elemOff l e).2 + j
  (List.range e).any fun i => decide ((elemOff l i).2 ≤ o) && decide (o < (elemOff l i).2 + size)

/-- One element of a tensor copy. -/
def State.copytElem (s : State) (t : Nat) (x : Txn) (u : Option Nat) (dst src : Word) (size : Nat) (l : List (Nat × Int × Int)) :
    Except EngStop State :=
  let o := elemOff l (x.progress / size)
  match ptrMove dst o.2, ptrMove src o.1 with
  | some d, some r =>
    let bad : EngStop := .bad { kind := .illegalOperand, addr := d }
    let regs := pSpace d == 4 && decide (0x40000 ≤ pOff d % 2 ^ 21)
    if pOff d % size ≠ 0 ∨ pOff r % size ≠ 0 then .error bad
    else if !(endOperand s x.core x.part true d size && endOperand s x.core x.part false r size) || (regs && size % 8 != 0) ||
        (pSpace d == pSpace r && overlap (pOff d) size (pOff r) size) then .error bad
    else do
      let s0 := s
      let (s, bs) ← s.engRead t x u 0 r size
      let e := x.progress / size
      if (List.range size).any (covered size l e) then
        let u' ← s.engApply s0 x t u 0 d size fun p => .store p (s.mixOld (engDie x u) p bs (covered size l e))
        .ok ({ u' with fresh := u'.fresh + size }.setTxn t { x with progress := x.progress + size })
      else
        let s ← s.engWrite s0 x t u 0 d bs
        .ok (s.setTxn t { x with progress := x.progress + size })
  | none, _ => .error (.bad { kind := .fatOverflow, addr := dst })
  | _, none => .error (.bad { kind := .fatOverflow, addr := src })

/-! ### Compression (R353, R354) -/

/-- The record of a line: the first test that holds. -/
def lineRecord (first : Bool) (prev bs : List Byte) : List Byte :=
  if bs.all (· == 0) then [0x00]
  else if !first && bs == prev then [0x03]
  else if (List.range 8).all fun j => (bs.drop (8 * j)).take 8 == bs.take 8 then 0x02 :: bs.take 8
  else 0x01 :: bs

/-- One line of `cmpr`, then the header; working state: the stream's length so far, and 1 once the header is written. -/
def State.cmprLine (s : State) (t : Nat) (x : Txn) (u : Option Nat) (dst src : Word) (len : Nat) : Except EngStop State := do
  let pos := x.work.getD 0 16
  let s0 := s
  if x.progress < len then
    let (s, bs) ← s.engRead t x u (x.marks.getD 1 0) (ptrAdd src x.progress) 64
    let r := lineRecord (x.progress == 0) x.data bs
    let s ← s.engWrite s0 x t u (x.marks.getD 0 0) (ptrAdd dst pos) r
    .ok (s.setTxn t { x with progress := x.progress + 64, data := bs, work := [pos + r.length, 0] })
  else
    let h := leBytes 8 (len / 64 * 2 ^ 32 + 0x434A395A) ++ leBytes 8 pos
    let s ← s.engWrite s0 x t u (x.marks.getD 0 0) dst h
    .ok (s.setTxn t { x with work := [pos, 1] })

/-- One record of `dcmp`, after the header; working state: lines, stream length and lines done. -/
def State.dcmpLine (s : State) (t : Nat) (x : Txn) (u : Option Nat) (dst src : Word) (cap : Nat) : Except EngStop State := do
  let pin := x.marks.getD 1 0
  let s0 := s
  match x.work with
  | [lines, clen, done] =>
    let pos := x.progress
    let at_ := ptrAdd src pos
    let bad : EngStop := .bad { kind := .illegalOperand, addr := at_ }
    if clen < pos + 1 then .error bad
    else
      let (s, tag) ← s.engRead t x u pin at_ 1
      let k := (tag.headD 0).toNat
      let n := if k = 1 then 64 else if k = 2 then 8 else 0
      if 4 ≤ k || (k == 3 && done == 0) || decide (clen < pos + 1 + n) then .error bad
      else
        let (s, pay) ← (if n = 0 then .ok (s, []) else s.engRead t x u pin (ptrAdd at_ 1) n : Except EngStop (State × List Byte))
        let line := if k = 0 then List.replicate 64 0 else if k = 3 then x.data else if k = 2 then
          (List.range 8).flatMap fun _ => pay else pay
        let s ← s.engWrite s0 x t u (x.marks.getD 0 0) (ptrAdd dst (64 * done)) line
        .ok (s.setTxn t { x with progress := pos + 1 + n, data := line, work := [lines, clen, done + 1] })
  | _ =>
    let (s, h) ← s.engRead t x u pin src 16
    let w0 := wordAt h 0
    if w0 % 2 ^ 32 ≠ 0x434A395A ∨ cap < w0 / 2 ^ 32 * 64 then .error (.bad { kind := .illegalOperand, addr := src })
    else
      -- the source range grows to the stream's length where the header reads otherwise than at issue (R161)
      let s := match padOf s x.core x.part src with
        | some (c, _) => s.modCore c fun k => { k with sb := k.sb.map fun (e : SbEnt) =>
            if e.txn = t ∧ !e.incoming then { e with len := max e.len (min (wordAt h 1) (0x3F800 - e.lo)) } else e }
        | none => s
      .ok (s.setTxn t { x with progress := 16, work := [w0 / 2 ^ 32, wordAt h 1, 0] })

/-! ### Collectives (R355, R380) -/

/-- Working state of a collective: the descriptor's eight words, the items listed, and four words a destination. -/
def cw (x : Txn) (j : Nat) : Nat := x.work.getD j 0
def collOp (x : Txn) : Nat := bits (cw x 0) 63 56
def collDests (x : Txn) : List (Nat × Nat × Nat × Nat) :=
  (List.range (bits (cw x 0) 39 32)).map fun d => (cw x (9 + 4 * d), cw x (10 + 4 * d), cw x (11 + 4 * d), cw x (12 + 4 * d))
/-- Bytes in all of a multicast or reduction, or items of a dispatch. -/
def collTotal (x : Txn) : Nat := if collOp x = 2 then cw x 2 / 2 ^ 32 else cw x 2 % 2 ^ 32

/-- The reduction of ROP and RFMT, and the element size; none for `redx` and for codes that are not listed. -/
def collRed (rop rfmt : Nat) : Option AtomOp :=
  match rfmt with
  | 0x05 => [AtomOp.add32, .minI32, .maxI32][rop]?
  | 0x07 => [AtomOp.add64, .minI64, .maxI64][rop]?
  | 0x09 => [AtomOp.faddF32, .fminF32, .fmaxF32][rop]?
  | 0x0A => [AtomOp.faddF64, .fminF64, .fmaxF64][rop]?
  | _ => none

def collSize (rfmt : Nat) : Nat := if rfmt = 0x05 ∨ rfmt = 0x09 then 4 else 8

/-- The eight words of a collective's descriptor (Table 16.5), where they are legal. -/
def collHead (h : List Byte) : Option (List Nat) :=
  let w := (List.range 8).map (wordAt h)
  let w0 := w.getD 0 0
  let op := bits w0 63 56
  let rfmt := bits w0 55 48
  let rop := bits w0 47 40
  let nd := bits w0 39 32
  let bytes := w.getD 2 0 % 2 ^ 32
  let red := (collRed rop rfmt).isSome || (rop == 3 && rfmt == 0x09)
  if 2 < op || nd == 0 || decide (64 < nd) || w0 % 2 ^ 32 != 0 || w.getD 6 0 != 0 || w.getD 7 0 != 0 ||
      (op == 1 && (!red || bytes % collSize rfmt != 0)) || (op == 2 && (bytes % 16 != 0 || decide (65536 < bytes))) then none
  else some w

/-- Working state of a collective from its words and destination table, where that is legal. -/
def collWork (w : List Nat) (e : List Byte) : Option (List Nat) :=
  let nd := bits (w.getD 0 0) 39 32
  let v := (List.range (4 * nd)).map (wordAt e)
  if (List.range nd).any fun d => v.getD (4 * d + 2) 0 % 2 ^ 32 != 0 || v.getD (4 * d + 3) 0 / 2 ^ 9 != 0 then none
  else some (w ++ [0] ++ v)

/-- Bytes that a collective writes at a destination. -/
def collOut (y : Txn) (d : Nat × Nat × Nat × Nat) : Nat :=
  if collOp y = 2 then d.2.2.1 / 2 ^ 32 * (16 + cw y 2 % 2 ^ 32)
  else if collOp y = 1 ∧ bits (cw y 0) 47 40 = 3 then collTotal y / 4 * 72 else collTotal y

/-- The scratchpad ranges of a collective. -/
def collRanges (s : State) (y : Txn) : List SpadRange :=
  let range (p : Word) (inc : Bool) (n : Nat) : List SpadRange :=
    match padOf s y.core y.part p with
    | some (c, o) => if n = 0 then [] else [{ core := c, incoming := inc, lo := o, len := n, addr := p }]
    | none => []
  let quiet (l : List SpadRange) : List SpadRange := l.map fun r => { r with quiet := true }
  -- beside its items a dispatch reads its route, and writes its overflow list and the counters of its destinations
  let more := if collOp y = 2 then
      quiet (range (BitVec.ofNat 64 (cw y 4)) false (16 * collTotal y) ++ range (BitVec.ofNat 64 (cw y 5)) true (4 * collTotal y) ++
        (((collDests y).map fun d => d.2.1).eraseDups.flatMap fun f => range (BitVec.ofNat 64 f) true 8))
    else []
  range (BitVec.ofNat 64 (cw y 1)) false (if collOp y = 2 then collTotal y * (cw y 2 % 2 ^ 32) else collTotal y) ++
    ((collDests y).flatMap fun d => range (BitVec.ofNat 64 d.1) true (collOut y d)) ++ more

/-- The processes whose register windows a collective writes. -/
def collRegs (y : Txn) : List Nat := ((collDests y).flatMap fun d => regsAt y.part (BitVec.ofNat 64 d.1) (collOut y d)).eraseDups

/-- Read and check a collective's descriptor and destination table. -/
def State.collStart (s : State) (t : Nat) (x : Txn) (u : Option Nat) (desc : Word) : Except EngStop State := do
  let bad : EngStop := .bad { kind := .illegalOperand, addr := desc }
  let (s, h) ← s.engRead t x u 0 desc 64
  match collHead h with
  | none => .error bad
  | some w =>
    let (s, e) ← s.engRead t x u 0 (BitVec.ofNat 64 (w.getD 3 0)) (32 * bits (w.getD 0 0) 39 32)
    match collWork w e with
    | none => .error bad
    | some v =>
      let y := { x with work := v }
      let s ← s.lateRanges t x (collRanges s y)
      let more := (collRegs y).filter (!x.regs.contains ·)
      .ok ((s.countRegs more).setTxn t { y with regs := x.regs ++ more })

/-- One element of a reduction at one destination (R296, R297). -/
def State.collElem (s s0 : State) (x : Txn) (t : Nat) (u : Option Nat) (base : Word) (v : Word) : Except EngStop State :=
  let rfmt := bits (cw x 0) 55 48
  let size := collSize rfmt
  let bad (p : Word) : Except EngStop State := .error (.bad { kind := .illegalOperand, addr := p })
  match collRed (bits (cw x 0) 47 40) rfmt with
  | some op =>
    let p := ptrAdd base x.progress
    if !permitted .atom (pSpace p) && decide (pSpace p < 8) || pOff p % size != 0 then bad p
    else s.engApply s0 x t u 0 p size fun l => .red op l v
  | none =>
    let p := ptrAdd base (x.progress / 4 * 72)
    if !permitted .redx (pSpace p) && decide (pSpace p < 8) || pOff p % 8 != 0 || decide (2 ^ 16 < pOff p % 2 ^ 16 + 72) then bad p
    else s.engApply s0 x t u 0 p 72 fun l => .redx false l v

/-- `atom.add.n64` of 1 at a slot counter: its old value. -/
def State.fillSlot (s s0 : State) (x : Txn) (t : Nat) (u : Option Nat) (p : Word) : Except EngStop (State × Nat) := do
  let bad : EngStop := .bad { kind := .illegalOperand, addr := p }
  if !permitted .atom (pSpace p) && decide (pSpace p < 8) || pOff p % 8 != 0 then .error bad
  else
    let a ← s.engParts x u true 0 p 8
    match a.miss with
    | some v => .error (.page v a.iso)
    | none =>
      if fabParts a.parts then do
        let y ← a.st.answered t x (.atom .add64 a.parts 1)
        .ok (a.st, match y.stage with | .back d => (d.vals.headD 0).toNat | _ => 0)
      else if s0.busyPart a.parts true || !a.st.linkRoom a.parts ||
          !(a.st.homesOf a.parts).all fun h => x.clock.le (a.st.die h).clock then .error .wait
      else do
        a.st.atServers t a.parts
        match a.st.badPart a.parts with
        | some va => .error (.bad { kind := .uncorrectableData, addr := BitVec.ofNat 64 va })
        | none =>
          let old := leNat (a.st.allBytes (homeDie (monitorKey a.st a.parts)) a.parts)
          .ok (((a.st.countLines a.parts true).miss x).applyParts (engWho x t u) a.parts (leBytes 8 (old + 1)), old)

/-- How far the item at the progress of a dispatch has come: the choices that were counted and found full, or a slot that was taken, with
the choice, the destination and the slot (R355). It stands in `Txn.data`. -/
inductive Item where
  | tried (n : Nat)
  | taken (choice dest slot : Nat)
  deriving DecidableEq, Repr

def itemOf (x : Txn) : Item :=
  match x.data with
  | [] => .tried 0
  | [n] => .tried n.toNat
  | c :: d :: l => .taken c.toNat d.toNat (leNat l)

/-- One step of an item of a dispatch: the next choice is counted; an item whose slot was taken is written there, and one that no choice
takes goes to the overflow list. A first choice that was counted stays counted where the second is no destination. -/
def State.dispatch (s : State) (t : Nat) (x : Txn) (u : Option Nat) : Except EngStop State := do
  let i := x.progress
  let s0 := s
  let bytes := cw x 2 % 2 ^ 32
  let (s, r) ← s.engRead t x u 0 (ptrAdd (BitVec.ofNat 64 (cw x 4)) (16 * i)) 16
  match itemOf x with
  | .taken c d n =>
    let (s, item) ← (if bytes = 0 then .ok (s, []) else s.engRead t x u 0 (ptrAdd (BitVec.ofNat 64 (cw x 1)) (i * bytes)) bytes :
      Except EngStop (State × List Byte))
    let h := leBytes 8 (i * 2 ^ 32 + s.moduleId * 2 ^ 22 + x.part * 2 ^ 16 + c * 2 ^ 8) ++ leBytes 8 (wordAt r 1)
    let base := ((collDests x)[d]?.map Prod.fst).getD 0
    let s ← s.engWrite s0 x t u 0 (ptrAdd (BitVec.ofNat 64 base) (n * (16 + bytes))) (h ++ item)
    .ok (s.setTxn t { x with progress := i + 1, data := [] })
  | .tried k =>
    let l := ([(1, wordAt r 0 % 256), (2, bits (wordAt r 0) 15 8)].drop k).filter fun e => e.2 != 255
    match l with
    | [] =>
      let n := cw x 8
      let s ← s.engWrite s0 x t u 0 (ptrAdd (BitVec.ofNat 64 (cw x 5)) (4 * n)) (leBytes 4 i)
      .ok (s.setTxn t { x with progress := i + 1, data := [], work := x.work.set 8 (n + 1) })
    | (c, d) :: _ =>
      match (collDests x)[d]? with
      | none => .ok (s.setTxn t { x with stage := .failed (recC s x { kind := .illegalOperand, addr := BitVec.ofNat 64 (cw x 4 + 16 * i) }) })
      | some e =>
        let (s, n) ← s.fillSlot s0 x t u (BitVec.ofNat 64 e.2.1)
        .ok (s.setTxn t { x with data := if n < e.2.2.1 / 2 ^ 32 then BitVec.ofNat 8 c :: BitVec.ofNat 8 d :: leBytes 8 n else [BitVec.ofNat 8 c] })

/-- One line, element or item of a collective. -/
def State.collLine (s : State) (t : Nat) (x : Txn) (u : Option Nat) : Except EngStop State := do
  let src : Word := BitVec.ofNat 64 (cw x 1)
  let s0 := s
  if collOp x = 2 then s.dispatch t x u
  else if collOp x = 1 then
    let size := collSize (bits (cw x 0) 55 48)
    let (s, bs) ← s.engRead t x u 0 (ptrAdd src x.progress) size
    let s ← (collDests x).foldlM (fun s d => s.collElem s0 x t u (BitVec.ofNat 64 d.1) (BitVec.ofNat 64 (leNat bs))) s
    .ok (s.setTxn t { x with progress := x.progress + size })
  else
    let n := min (collTotal x - x.progress) (lineLeft (ptrAdd src x.progress))
    let (s, bs) ← s.engRead t x u 0 (ptrAdd src x.progress) n
    let s ← (collDests x).foldlM (fun s d => s.engWrite s0 x t u 0 (ptrAdd (BitVec.ofNat 64 d.1) x.progress) bs) s
    .ok (s.setTxn t { x with progress := x.progress + n })

/-- The arrivals that close a collective: one for each destination whose PTAG has EN (R355, R380). -/
def State.collArrivals (s : State) (x : Txn) (past : Clock) : State :=
  (collDests x).foldl (fun s d =>
    let p := d.2.2.2
    if p.testBit 8 then
      -- a slot that another instance holds by now has no counter of the issuer's (R142)
      let mine := match s.phase? x.part (bits p 7 4) with | some f => f.holder == x.inst | none => false
      match (if mine then s.arriveAt x.part (bits p 7 4) (bits p 3 1) past x else none) with
      | some s => s
      | none => s.deferRec (ownerOf x.issuer) { kind := .phaseOverrun } x.loc x.bword
    else s) s

/-! ### Running an operation (R80, R198, R347) -/

/-- The status of an operation that has nothing left to do (Table 16.2). -/
def engStatus (x : Txn) (op : EngOp) : Option Word :=
  match op with
  | .copy _ _ n => if x.progress = n then some 0 else none
  | .copyt .. => match x.work with | _ :: total :: _ => if x.progress = total then some 0 else none | _ => none
  | .cmpr .. => match x.work with | [pos, 1] => some (BitVec.ofNat 64 pos) | _ => none
  | .dcmp .. => match x.work with | [lines, _, done] => if done = lines then some (BitVec.ofNat 64 (64 * lines)) else none | _ => none
  | .coll _ => if x.work ≠ [] ∧ x.progress = collTotal x then some (BitVec.ofNat 64 (cw x 8)) else none
  | .fork .. | .mig .. => none

/-- One line, element or item. -/
def State.engLine (s : State) (t : Nat) (x : Txn) (op : EngOp) : Except EngStop State :=
  let u := engUnit s x op
  match op with
  | .copy d r n => s.copyLine t x u d r n
  | .copyt d r z =>
    match x.work with
    | size :: _ :: l => s.copytElem t x u d r size (dims l)
    | _ => s.copytStart t x u d r z
  | .cmpr d r n => s.cmprLine t x u d r n
  | .dcmp d r n => s.dcmpLine t x u d r n
  | .coll z => if x.work = [] then s.collStart t x u z else s.collLine t x u
  | .mig p o =>
    let vpn := pOff p / 2 ^ 16
    let looks := o.toNat % 8 = 0 ∨ o.toNat % 8 = 2 ∨ o.toNat % 8 = 3
    if looks ∧ s.walkBusy x.part vpn then .error .wait
    else if looks ∧ s.walk x.part vpn = .error .damaged then .error (.bad { kind := .uncorrectableData, addr := p })
    else match s.migGo t x p o with
    | (s, some w) => .ok (s.setTxn t { x with stage := .back { vals := [w] } })
    | (s, none) => .ok s
  | .fork .. => .error .wait

/-- A step of an operation; none where it cannot go on now or has nothing left. It starts once the accesses before its command
word are performed and visible on the die of its unit (R198). -/
def State.engStep (s : State) (t : Nat) : Option State :=
  match nget? s.txns t with
  | none => none
  | some x =>
    match x.op with
    | .eng _ _ op =>
      let past := if x.started then x.clock else s.pastOf x.issuer t
      if x.stage != .sent || (engStatus x op).isSome ||
          !(x.started || (s.ordered t x && past.le (s.die (engDie x (engUnit s x op))).clock)) then none
      else
        let x := { x with started := true, clock := past, retry := false }
        match s.engLine t x op with
        | .ok s => some (((s.dropLines t x).leaveServers t).noteObj x 0 ((nget? s.txns t).map Txn.progress |>.getD 0))
        | .error .wait => if (nget? s.txns t).any Txn.retry then some (s.setTxn t x) else none
        | .error (.ask y) => some ((s.setTxn t x).newTxn y).1
        | .error (.full l) =>
          let l := l.filter fun c => decide ((s.slots c).length < 72)
          if l = [] then none else some (l.foldl (fun s c => s.enterAt c t) (s.setTxn t x))
        | .error (.page v iso) => some ((s.isolate x.part iso).setTxn t { x with stage := .heldPage v })
        | .error (.bad tr) => some (s.setTxn t { x with stage := .failed (recC s x tr) })
    | _ => none

/-- Steps until the operation stops. -/
def State.engRun (s : State) (t : Nat) : Nat → State
  | 0 => s
  | n + 1 => match s.engStep t with | some s => s.engRun t n | none => s

/-- A bound on the steps an operation can take from where it stands. -/
def engFuel (x : Txn) : Nat :=
  match x.op with
  | .eng _ _ (.copy _ _ n) => n / 64 + 4
  | .eng _ _ (.copyt ..) => 2 ^ 48
  | .eng _ _ (.cmpr _ _ n) => n / 64 + 2
  | .eng _ _ (.dcmp _ _ n) => n / 64 + 2
  | .eng _ _ (.coll _) => 2 ^ 34
  | _ => 1

/-! ### Completion (R168, R347, R349, R357) -/

/-- Joins that wait for an object. -/
def State.joins (s : State) (core obj gen : Nat) : List (Nat × Txn) :=
  s.txns.filter fun e => e.2.op == .join core obj gen && e.2.stage == .waiting

/-- An operation completes: ranges retire, its token returns, its object is freed by the observation, its tagged arrival is
made, and its status, or its record, reaches the issuer and a `join` that waits. -/
def State.endEng (s : State) (t : Nat) (x : Txn) (core obj : Nat) (r : Except FRec Word) : State :=
  let o := (s.core core).obj obj
  let fl := if o.txn = t then o.flags else 0
  let js := s.joins core obj o.gen
  let s := (s.dropLines t x).leaveRanges t
  let s := s.uncountRegs x.regs
  let s := s.settleTxn x
  let s := if o.txn = t then s.modCore core fun c => c.setObj obj { gen := o.gen } else s
  let past := s.engPast x t (match x.op with | .eng _ _ op => engUnit s x op | _ => none)
  let s := s.tagArrival x past
  let s := (s.raiseFloor x.issuer past)
  let s := js.foldl (fun (s : State) (j : Nat × Txn) => s.raiseFloor j.2.issuer past) s
  let gone := (s.proc x.issuer).st = .exited || (nget? s.procs x.issuer).isNone
  let s := match r with
    | .ok w =>
      let s := (s.deliver t x { vals := [w], flags := fl }).dropTxn t
      js.foldl (fun (s : State) (j : Nat × Txn) => (s.deliver j.1 j.2 { vals := [w], kept := [w] }).dropTxn j.1) s
    | .error f =>
      let s := js.foldl (fun (s : State) (j : Nat × Txn) => s.modProc j.2.issuer fun p =>
        { p with nPend := p.nPend.map fun e => if e.2 = j.1 then (e.1, t) else e, out := p.out.filter (· != j.1) }) s
      let y := { x with tgt := { x.tgt with slots := x.tgt.slots ++ js.flatMap fun (j : Nat × Txn) => j.2.tgt.slots
                                            keeps := x.tgt.keeps ++ js.flatMap fun (j : Nat × Txn) => j.2.tgt.keeps } }
      let s := s.giveFlags x fl
      let s := if gone then s else (s.failC t y f).unpark x.issuer
      js.foldl (fun (s : State) (j : Nat × Txn) => s.dropTxn j.1) (s.dropTxn t)
  let s := js.foldl (fun (s : State) (j : Nat × Txn) => s.ready j.2.issuer false) s
  (x.regs.foldl State.tryExit s).pumpAll.wakeAlts

/-- The accesses of an engine thread are over (R198 join edge). -/
def State.threadQuiet (s : State) (k : Nat) : Bool :=
  s.txns.all fun e => e.2.issuer != k || !e.2.op.role.mem || e.2.performed || e.2.stage == .logged

/-- ENGINE_COMPLETION: what is left of the operation lands, and it completes, unless it must wait. -/
def execEngineCompletion (t : Nat) (s : State) : Host.Outcome State Fault Refusal :=
  match nget? s.txns t with
  | none => .next s
  | some x =>
    let s := s.engRun t (engFuel x)
    match nget? s.txns t with
    | none => .next s
    | some x =>
      match x.op with
      | .eng core obj op =>
        let thread := engineKey t x.issuer
        let isFork := match op with | .fork .. => true | _ => false
        if !s.threadQuiet thread || s.frozen x then .next s
        else
          let off (s : State) : State :=
            if isFork then
              let s := s.noteObj x (s.proc thread).flags x.progress
              let s : State := { s with procs := ndel s.procs thread }
              match engUnit s x op with
              | some u => let g := s.engine u; s.setEngine u { g with forks := g.forks.filter (· != t) }
              | none => s
            else s
          match x.stage with
          | .back d =>
            -- the status of a collective waits for the answers of other modules (R380)
            if (match op with | .coll _ => x.work.any fun n => (nget? s.farArr n).isSome | _ => false) then .next s
            else .next ((off s).endEng t x core obj (.ok (d.vals.headD 0)))
          | .failed r => .next ((off s).endEng t x core obj (.error r))
          | .sent =>
            match engStatus x op with
            | some w =>
              match op with
              | .coll _ =>
                let u := s.collArrivals x (s.engPast x t (engUnit s x op))
                let far := (u.farArr.filter fun e => decide (s.nextId ≤ e.1)).map Prod.fst
                if far = [] then .next (u.endEng t x core obj (.ok w))
                else .next (u.setTxn t { x with stage := .back { vals := [w] }, work := far })
              | _ => .next (s.endEng t x core obj (.ok w))
            | none => .next s
          | _ => .next s
      | _ => .next s

/-! ### Issue (R346, R348) -/

def badOp (p : Word) : Trap := { kind := .illegalOperand, addr := p }

/-- A kind of engine that the partition's masks hold (R69). -/
def needEngine (s : State) (i : Issue) (k : ForkKind) : Except Abort Unit :=
  check (unitKey s (partOf i.proc) k i.pre.core).isSome { kind := .engineAbsent }

/-- One byte of a window range, under the rules of R166 in their order. -/
def windowByte (s : State) (i : Issue) (off total : Nat) : Except Abort Unit := do
  let at_ : Word := BitVec.ofNat 64 (fatOf 4 off)
  check (off / 2 ^ 47 == 0) { kind := .spaceInvalid, addr := at_ }
  let k := handleOf (partOf i.proc) (bits off 46 21)
  let p := s.proc k
  check ((nget? s.procs k).isSome && p.started && p.st != .exited && p.st != .dormant)
    { kind := .peerNotResident, other := BitVec.ofNat 32 k, addr := at_ }
  let r := wRegion (off % 2 ^ 21) 1
  check (r != .reserved && ((r != .t && r != .a) || (s.core p.core).owner == some k)) { kind := .spaceInvalid, addr := at_ }
  check (r == .spad || total % 8 == 0) { kind := .illegalOperand, addr := at_ }
  check (r == .spad || p.accept.getLsbD 0) { kind := .illegalOperand, addr := at_ }

/-- The first and last byte of a range (R348 step 5). -/
def endRange (s : State) (i : Issue) (p : Word) (len total : Nat) : Except Abort Unit := do
  let sp := pSpace p
  let o := pOff p
  if len = 0 then .ok ()
  else do
    check (decide (sp < 8)) { kind := .spaceInvalid, addr := p }
    check (decide (o + len ≤ 2 ^ 51)) { kind := .fatOverflow, addr := p }
    if sp = 4 then do
      windowByte s i o total
      windowByte s i (o + len - 1) total
    else do
      let _ ← spaceCheck s i .vector true sp o 1
      let _ ← spaceCheck s i .vector true sp (o + len - 1) 1
      .ok ()

/-- The lowest-numbered free completion object of a pool (R168). -/
def Core.freeObj (c : Core) (shared : Bool) : Option Nat :=
  ((List.range (if shared then 64 else 128)).map fun j => if shared then j + 128 else j).find? fun j => (c.obj j).st == .free

/-- A command that has passed its checks but for the buffers, the token and the object. -/
structure EngCmd where
  op : EngOp
  heavy : Bool
  shared : Bool
  ranges : List SpadRange := []
  /-- Scoreboard entries that the engine will take when it has read its descriptor. -/
  later : Nat := 0
  marks : List Nat := []
  /-- Processes whose register windows it writes. -/
  regs : List Nat := []
  lat : Nat := 100

/-- The completion handle (Table 16.1). -/
def handleWord (core gen obj : Nat) : Word := BitVec.ofNat 64 (core % 512 * 2 ^ 16 + gen % 256 * 2 ^ 8 + obj % 256)

/-- Take an object, push the handle, and set the operation going. -/
def State.takeObj (s : State) (i : Issue) (e : EngCmd) (j : Nat) : State :=
  let core := i.pre.core
  let t := s.nextTxn
  let gen := (((s.core core).obj j).gen + 1) % 256
  let s := s.modCore core fun c => c.setObj j { st := .running, gen := gen, issuer := i.proc, txn := t }
  let s := s.enterRanges t core e.ranges
  let s := if e.heavy then s.takeToken core else s
  let x := { mkTxn s i (.eng core j e.op) e.lat with token := e.heavy, marks := e.marks, regs := e.regs }
  (((s.countRegs e.regs).push i (handleWord core gen j) none).issuePend i x none)

/-- The rest of an issue: BUFFER_STATE, POWER_BUDGET, then an object and scoreboard entries, for which the context waits. -/
def State.beginEng (s : State) (i : Issue) (e : EngCmd) : Except Abort State := do
  let r ← (match startRanges s e.ranges with | .ok s => .ok s | .error t => .error (.trap t) : Except Abort State)
  if e.heavy then needToken s i else .ok ()
  match (s.core i.pre.core).freeObj e.shared with
  | none => .error (.hold .object)
  | some j =>
    if !(s.core i.pre.core).sbRoom (ownRanges i.pre.core e.ranges + e.later) then .error (.hold .object)
    else .ok (r.takeObj i e j)

/-- The scratchpad range of an end. -/
def endSpad (s : State) (i : Issue) (p : Word) (incoming : Bool) (len : Nat) : List SpadRange :=
  if len = 0 then []
  else match padOf s i.pre.core (partOf i.proc) p with
    | some (c, o) => [{ core := c, incoming := incoming, lo := o, len := len, addr := p }]
    | none => []

/-- The core, plus one, of the scratchpad that a window end names. -/
def endPin (s : State) (i : Issue) (p : Word) : Nat :=
  if pSpace p = 4 then match padOf s i.pre.core (partOf i.proc) p with | some (c, _) => c + 1 | none => 0 else 0

/-- An end in space 2, 3 or 4. -/
def onChip (p : Word) : Bool := decide (2 ≤ pSpace p) && decide (pSpace p ≤ 4)

/-- The command of `copy` (R351): its ranges in scratchpads, pins and register targets. -/
def copyCmd (s : State) (i : Issue) (d r : Word) (len : Nat) : EngCmd :=
  { op := .copy d r len, heavy := true, shared := !(onChip d || onChip r)
    ranges := endSpad s i d true len ++ endSpad s i r false len
    marks := [endPin s i d, endPin s i r], regs := regsAt (partOf i.proc) d len, lat := 24 + len / 64 }

/-- The command of `copyt` (R352): the ranges are those of the descriptor as it reads now; where it cannot be read yet the engine
takes them (log entry 87). -/
def copytCmd (s : State) (i : Issue) (d r v : Word) : EngCmd :=
  let core := i.pre.core
  let part := partOf i.proc
  let w := do
    let h ← (s.peek i v 16).bind copytHead
    (s.peek i (ptrAdd v 16) (16 * h.2)).bind (copytDims h.1 h.2)
  { op := .copyt d r v, heavy := true, shared := !(onChip d || onChip r)
    regs := match w with | some l => copytRegs s part d l | none => regsAt part d 1
    ranges := match w with | some l => copytRanges s core part d r l | none => []
    later := if w.isSome then 0 else ownRanges core (endSpad s i d true 1 ++ endSpad s i r false 1)
    marks := if w.isSome then [0] else [] }

/-- The command of `coll` (R355), in the same way. -/
def collCmd (s : State) (i : Issue) (v : Word) : EngCmd :=
  let w := do
    let h ← (s.peek i v 64).bind collHead
    (s.peek i (BitVec.ofNat 64 (h.getD 3 0)) (32 * bits (h.getD 0 0) 39 32)).bind (collWork h)
  let y : Option Txn := w.map fun l => { mkTxn s i .alt 0 with work := l }
  { op := .coll v, heavy := true, shared := true
    ranges := match y with | some y => collRanges s y | none => []
    regs := match y with | some y => collRegs y | none => []
    marks := if y.isSome then [0] else [] }

/-- Bytes that `cmpr` or `dcmp` of `len` bytes writes and reads at most (R353, R354). -/
def pressOut (len : Nat) (expand : Bool) : Nat := if expand then len else len / 64 * 65 + 16
def pressIn (len : Nat) (expand : Bool) : Nat := if expand then 16 else len

/-- The command of `cmpr` and `dcmp`; the stream of `dcmp` has the length that its header gives now (R161). -/
def pressCmd (s : State) (i : Issue) (d r : Word) (len : Nat) (expand : Bool) : EngCmd :=
  let stream := match (if expand then s.peek i r 16 else none) with
    | some h => if wordAt h 0 % 2 ^ 32 = 0x434A395A then max 16 (min (wordAt h 1) (2 ^ 18)) else 16
    | none => 16
  { op := if expand then .dcmp d r len else .cmpr d r len, heavy := true, shared := true
    ranges := endSpad s i d true (pressOut len expand) ++ endSpad s i r false (if expand then stream else len)
    marks := [endPin s i d, endPin s i r], regs := regsAt (partOf i.proc) d (pressOut len expand)
    lat := 24 + len / 64 }

def execCopy (x y z : Src) (s : State) := finish s do
  let i ← s.cur
  let d ← readSrc i x
  let r ← readSrc i y
  let n ← readSrc i z
  let len := n.toNat
  let core := i.pre.core
  let part := partOf i.proc
  check (decide (len < 2 ^ 40)) (badOp n)
  check (endOperand s core part true d len) (badOp d)
  check (endOperand s core part false r len) (badOp r)
  check (!(pSpace d == pSpace r && overlap (pOff d) len (pOff r) len)) (badOp d)
  let unit := onChip d || onChip r
  if unit then .ok () else needEngine s i .sharedCopy
  endRange s i d len len
  endRange s i r len len
  let t := s.nextTxn
  let s ← s.beginEng i (copyCmd s i d r len)
  match nget? s.txns t with
  | none => .ok s
  | some v =>
    match v.op with
    | .eng c j _ => .ok (if len = 0 then s.endEng t v c j (.ok 0) else s)
    | _ => .ok s

/-- A descriptor pointer (R352, R355). -/
def descOk (p : Word) : Bool := decide (pSpace p ≤ 2) && pOff p % 16 == 0

def execCopyt (x y z : Src) (s : State) := finish s do
  let i ← s.cur
  let d ← readSrc i x
  let r ← readSrc i y
  let v ← readSrc i z
  let core := i.pre.core
  let part := partOf i.proc
  check (endOperand s core part true d 0) (badOp d)
  check (endOperand s core part false r 1) (badOp r)
  check (descOk v) (badOp v)
  let unit := onChip d || onChip r
  if unit then .ok () else needEngine s i .sharedCopy
  endRange s i d 1 0
  endRange s i r 1 0
  endRange s i v 16 16
  s.beginEng i (copytCmd s i d r v)

def execColl (x : Src) (s : State) := finish s do
  let i ← s.cur
  let v ← readSrc i x
  check (descOk v) (badOp v)
  needEngine s i .collective
  endRange s i v 64 64
  s.beginEng i (collCmd s i v)

/-- `cmpr` and `dcmp`. The stream of `dcmp` has no stated length: its header is checked at issue. -/
def pressForm (s : State) (x y z : Src) (expand : Bool) : Except Abort State := do
  let i ← s.cur
  let d ← readSrc i x
  let r ← readSrc i y
  let n ← readSrc i z
  let len := n.toNat
  let core := i.pre.core
  let part := partOf i.proc
  let out := pressOut len expand
  let inp := pressIn len expand
  check (decide (len < 2 ^ 40) && (expand || len % 64 == 0)) (badOp n)
  check (endOperand s core part true d out) (badOp d)
  check (endOperand s core part false r inp) (badOp r)
  check (!(pSpace d == pSpace r && overlap (pOff d) out (pOff r) inp)) (badOp d)
  needEngine s i .compression
  endRange s i d out out
  endRange s i r inp inp
  s.beginEng i (pressCmd s i d r len expand)
def execCmpr (x y z : Src) (s : State) := finish s (pressForm s x y z false)
def execDcmp (x y z : Src) (s : State) := finish s (pressForm s x y z true)

/-! ### Engine programs (R356, R358) -/

/-- Threads that a unit runs at once: a sequencer one, a memory-server slice 8, a shared engine 16 (R105, R351, R356). -/
def forkCap : ForkKind → Nat
  | .matrixSeq | .copySeq => 1
  | .memServer => 8
  | _ => 16

def execFork (x y : Src) (e : ForkKind) (s : State) := finish s do
  let i ← s.cur
  let p ← readSrc i x
  let v ← readSrc i y
  match unitKey s (partOf i.proc) e i.pre.core with
  | none => .error (.trap { kind := .engineAbsent })
  | some u =>
    let t := s.nextTxn
    let s ← s.beginEng i { op := .fork e p v, heavy := false, shared := true }
    let g := s.engine u
    .ok (s.setEngine u { g with forks := g.forks ++ [t] })

/-- Start the thread of a transaction: n0 the parameter, n1 its completion handle, every other register 0. -/
def State.startThread (s : State) (t : Nat) (x : Txn) (kind : ForkKind) (prog par : Word) (handle : Word) : State :=
  let past := s.pastOf x.issuer t
  let s := s.setTxn t { x with started := true, clock := past }
  match regTarget prog with
  | .ok pc =>
    let p : Proc :=
      { st := .running, was := .running, inst := x.inst, core := x.core, pc := pc, svc := x.svc, started := true
        engine := some { kind := kind, txn := t, forkLoc := x.loc }, landed := s.cycle + 1, floor := past
        n := (Vector.replicate 32 (0 : Word)).set 0 par |>.set 1 handle }
    s.setProc (engineKey t x.issuer) p
  | .error a =>
    let tr : Trap := match a with | .trap tr => tr | _ => { kind := .illegalOperand }
    let r := { recC s x { tr with sub := tr.sub + 128, e7 := x.loc } with loc := prog }
    s.modTxn t fun x => { x with stage := .failed r }

/-- FORK_THREAD_START: the first fork of a unit that waits, once the unit is free. -/
def execForkThreadStart (t : Nat) (s : State) : Host.Outcome State Fault Refusal :=
  match nget? s.txns t with
  | none => .next s
  | some x =>
    match x.op with
    | .eng core obj (.fork kind prog par) =>
      match engUnit s x (.fork kind prog par) with
      | none => .next s
      | some u =>
        let l := (s.engine u).forks
        let begun (k : Nat) : Bool := match nget? s.txns k with | some y => y.started | none => false
        let go := (l.filter begun).length < forkCap kind && (l.find? fun k => !begun k) == some t && x.stage == .sent &&
          s.ordered t x
        if go then .next (s.startThread t x kind prog par (handleWord core ((s.core core).obj obj).gen obj)) else .next s
    | _ => .next s

/-- The number of a kind (R356), from an endpoint's word. -/
def kindOf (n : Nat) : Option ForkKind :=
  [ForkKind.matrixSeq, .copySeq, .sharedCopy, .collective, .compression, .memServer][n]?

/-- A thread that a message starts, as a `fork` by the sender would. -/
def State.threadFor (s : State) (part core sender : Nat) (loc : Word) (kind : ForkKind) (u : Nat) (prog : Word) (bs : List Byte)
    (j : Nat) : State :=
  let k := if sender = 0 then handleOf part 0 else sender
  let p := s.proc k
  let t := s.nextTxn
  let gen := (((s.core core).obj j).gen + 1) % 256
  let par := BitVec.ofNat 64 (leNat (bs.take 8))
  let s := s.modCore core fun c => c.setObj j { st := .running, gen := gen, issuer := k, txn := t }
  let x : Txn := { issuer := k, core := core, part := part, inst := p.inst, loc := loc, op := .eng core j (.fork kind prog par)
                   issued := s.cycle, svc := p.svc, due := s.cycle, clock := (s.die (dieOf core)).clock }
  let s := (s.newTxn x).1
  let g := s.engine u
  (s.setEngine u { g with forks := g.forks ++ [t] }).startThread t x kind prog par (handleWord core gen j)

/-- ENGINE_CHANNEL_DISPATCH (R358): the oldest message of an engine-bound channel starts a thread when a unit of its kind is
free; on a channel of depth 0 the sender's rendezvous completes then. -/
def execEngineChannelDispatch (chan : Nat) (s : State) : Host.Outcome State Fault Refusal :=
  let part := chan / 2 ^ 24
  let ch := chan % 2 ^ 24
  match s.chan? part ch with
  | none => .next s
  | some c =>
    match (if c.bkind = 2 then kindOf (c.ep[0].toNat % 8) else none) with
    | none => .next s
    | some kind =>
      let direct : Option (Nat × Txn) := if c.msgs.isEmpty then s.firstSender c fun _ => true else none
      let msg : Option (Nat × Word × List Byte) :=
        match c.msgs, direct with
        | m :: _, _ => some (m.1, 0, m.2)
        | [], some (_, x) => some (ownerOf x.issuer, x.loc, s.content x)
        | [], none => none
      match msg with
      | none => .next s
      | some (sender, loc, bs) =>
        let core := if sender = 0 then c.home else (s.proc sender).core
        match unitKey s part kind core, (s.core core).freeObj true with
        | some u, some j =>
          if forkCap kind ≤ (s.engine u).forks.length ∨ s.halted part then .next s
          else
            let s := match direct with
              | some (t, x) => (s.leaveQueue ch t x).setTxn t { x with stage := .back (sendDeliver 0), started := true, due := s.cycle + 16 }
              | none => s.modChan part ch (·.dropMsg 1)
            .next ((s.threadFor part core sender loc kind u c.ep[1] bs j).chanChanged part ch)
        | _, _ => .next s

/-! ### join (R357) -/

/-- The core on which the object of a handle stands: the one it names, or the issuer's own once a RESTORE has moved both, which
keeps the core number within the cluster (R181). -/
def handleCore (s : State) (i : Issue) (h : Word) : Nat :=
  let core := bits h.toNat 24 16
  let o := (s.core i.pre.core).obj (h.toNat % 256)
  if core % 8 = i.pre.core % 8 ∧ o.issuer = i.proc ∧ o.st ≠ .free ∧ o.gen = bits h.toNat 15 8 then i.pre.core else core

def execJoin (x : Src) (k : Keep) (s : State) := finish s do
  let i ← s.cur
  let h ← readSrc i x
  let core := handleCore s i h
  let gen := bits h.toNat 15 8
  let obj := h.toNat % 256
  check (decide (h.toNat < 2 ^ 25) && decide (obj < 192)) (badOp h)
  let o := (s.core core).obj obj
  if o.st = .free ∨ o.gen ≠ gen then .ok (s.pushLater i (BitVec.allOnes 64) 0 k 12)
  else do
    check (o.issuer == i.proc) (badOp h)
    let x := { mkTxn s i (.join core obj gen) 0 with stage := .waiting }
    .ok ((s.issuePend i x k).block i.proc .join (h.setWidth 32) 0)

/-! ### mig (R359) -/

/-- A tier in which the module has populated capacity (R29, R30); R28 gives every stack its LPDDR6. -/
def tierThere (s : State) (tier : Nat) : Bool :=
  match tier with
  | 0 | 1 => true
  | 2 => [0, 1, 2, 3].any fun d => decide (0 < cxlBytes s d)
  | _ => false

/-- Every `mig` word: the operation is selected by the low bits of y. -/
def migForm (s : State) (x y : Src) : Except Abort State := do
  let i ← s.cur
  let p ← readSrc i x
  let o ← readSrc i y
  let op := o.toNat % 8
  let tier := bits o.toNat 4 3
  let st := bits o.toNat 7 5
  let any := o.toNat.testBit 8
  check (pSpace p == 0) (badOp p)
  check (decide (o.toNat < 2 ^ 9) && decide (op ≤ 5)) (badOp o)
  check ((op != 0 && op != 4) || tierThere s tier) (badOp o)
  check (!((op == 0 && !any || op == 4) && tier == 2 && decide (4 ≤ st))) (badOp o)
  check ((op != 4 && op != 5) || s.isMgr i.proc) { kind := .priv }
  check ((s.part (partOf i.proc)).budget.berylmask != 0) { kind := .engineAbsent }
  s.beginEng i { op := .mig p o, heavy := false, shared := true, lat := 200 }
def execMigMove (x y : Src) (s : State) := finish s (migForm s x y)
def execMigCancel (x y : Src) (s : State) := finish s (migForm s x y)
def execMigPinSet (x y : Src) (s : State) := finish s (migForm s x y)
def execMigPinClear (x y : Src) (s : State) := finish s (migForm s x y)
def execMigTakePage (x y : Src) (s : State) := finish s (migForm s x y)
def execMigReturnPage (x y : Src) (s : State) := finish s (migForm s x y)

/-! ### Memory servers and arrival (R105, R149, R242) -/

/-- Where an engine operation reads next: an error there that cannot be corrected ends it (R42, R183). -/
def engSource (x : Txn) (op : EngOp) : Option Word :=
  match op with
  | .copy _ r _ | .cmpr _ r _ | .dcmp _ r _ => some (ptrAdd r x.progress)
  | .copyt _ _ z => some z
  | .coll z => some (if x.work = [] then z else ptrAdd (BitVec.ofNat 64 (cw x 1)) x.progress)
  | .fork .. | .mig .. => none

/-- MEMORY_SERVER_REQUEST (R105): a read, an arm or a wake reaches its home's slice, and a server there serves it when it has one of
the 8 contexts; an engine goes on with the next line of a bulk transfer. -/
def execMemoryServerRequest (v : Service) (s : State) : Host.Outcome State Fault Refusal :=
  match nget? s.txns v.txn with
  | none => .next s
  | some x =>
    match x.op with
    | .eng _ _ op =>
      match (if v.how = .damaged ∧ x.stage = .sent ∧ x.started then engSource x op else none) with
      | some va => .next (s.setTxn v.txn { x with stage := .failed (recC s x { kind := .uncorrectableData, addr := va }) })
      | none => .next ((s.engStep v.txn).getD s)
    | .mgang .. => .next s
    | _ =>
      if x.op.role == .ld || x.op.role == .wa || (match x.op with | .wake .. => true | _ => false) then
        if s.canServe v.txn x then
          match x.op with
          | .waita .. => .next (s.serveArm v.txn x v.how)
          | .wake .. => .next (s.serveWake v.txn x)
          | _ => .next (s.serveRead v.txn x v.how)
        else if s.canPlace x then .next (s.placeFar v.txn x)
        else if s.canEnter v.txn x then .next (s.enter v.txn x)
        else .next s
      else .next s

/-- PENDING_RESULT_ARRIVAL (R149, R150, R151, R242): values fill what the word reserved. A read of a scratchpad, a window,
another module or host memory is served where it arrives (R298); a `spawn` starts its process; a transfer lands; a `harvest`
has merged its logs. -/
def execPendingResultArrival (v : Service) (s : State) : Host.Outcome State Fault Refusal :=
  match nget? s.txns v.txn with
  | none => .next s
  | some x =>
    let frozen := s.frozen x
    let s : State :=
      if frozen then s
      else match x.op with
      | .spawn n w _ => if x.stage == .sent && s.ordered v.txn x then (s.startSpawn v.txn x n w).arrive v.txn else s.arrive v.txn
      | .chopen ty n => if x.stage == .sent && s.ordered v.txn x then (s.openChan v.txn x ty n).arrive v.txn else s.arrive v.txn
      | .alt => if x.stage == .sent && s.ordered v.txn x && !s.isStopped x.issuer then s.startAlt v.txn x else s.arrive v.txn
      | .order => if x.stage == .sent && s.ordered v.txn x then s.dropTxn v.txn else s
      | .harvest =>
        if x.stage == .sent then ((s.harvest x.part).setTxn v.txn { x with stage := .back { vals := [0], kept := [0] } }).arrive v.txn
        else s.arrive v.txn
      | .send .. | .recv .. | .sendt .. | .recvt .. => (s.landOp v.txn).pumpAll.wakeAlts
      | .eng .. | .join .. | .bqueryW .. => s
      | .mgang .. =>
        if x.stage != .sent then s.arrive v.txn
        else if s.canServe v.txn x then (s.setTxn v.txn { x with stage := mgangStage s x }).arrive v.txn
        else s
      | .mrest .. => ((s.serveRest v.txn x).getD s).arrive v.txn
      | .mdrain l f =>
        if x.stage == .sent && s.drained l then
          (s.setTxn v.txn { x with stage := .back { vals := [0], kept := [0], flags := f } }).arrive v.txn
        else s
      | _ =>
        if x.far.isNone && x.partner.isSome && x.op.role == .ld && x.performed then s.takeBinding v.txn x (x.partner.getD 0)
        else if x.op.role == .ld && x.fab && s.canSend v.txn x then s.setOut v.txn x
        else if x.op.role == .ld && x.op.direct && s.canServe v.txn x then (let u := s.serveRead v.txn x v.how; if x.partner.isSome && x.far.isNone then u else u.arrive v.txn)
        else s.arrive v.txn
    .next (if frozen then s else s.tryExit x.issuer)

end Sys2Proof.Machine
end

