-- ==== Sys2Proof/Machine/Sched.lean ====
section
/-! DEFINITION. The scheduler: standbys and swaps (R132 to R135, R179), gangs (R121, R122), work donation (R136 to R138),
handlers (R172), failures delivered at a turn (R170), rated firings (R114) and the deadlock report (R143, R144). -/

namespace Sys2Proof.Machine

/-! ### Gangs that wait (R121) -/

/-- The highest priority of a gang's members. -/
def gangPrio (s : State) (g : Gang) : Nat := g.members.foldl (fun a k => max a (s.proc k).prio) 0

/-- A gang waits on a cluster for its contexts, at or above a priority: the cluster gives no freed context to such a process. -/
def gangWaits (s : State) (clu prio : Nat) : Bool :=
  s.gangs.any fun e => e.2.st == .forming && e.2.cluster == clu && decide (prio ≤ gangPrio s e.2)

/-! ### Choosing a standby (R133) -/

/-- The priority of a standby, or that of no process. -/
def standbyBelow (s : State) (x : Ctx) (prio : Nat) : Bool :=
  match x.standby with
  | some k => decide ((s.proc k).prio < prio)
  | none => true

/-- `HighestQueued`: the highest priority, then queue order. -/
def highestQueued (s : State) (c : Core) : Option Nat :=
  [7, 6, 5, 4, 3, 2, 1, 0].findSome? fun q => (c.queue q).find? fun k => !s.isStopped k

/-- The better of two displaceable contexts: the lower running priority, then the longer running, then the higher number. -/
def displaceBefore (a b : Nat × Nat × Nat) : Bool :=
  decide (a.1 < b.1) || (a.1 == b.1 && (decide (a.2.1 < b.2.1) || (a.2.1 == b.2.1 && decide (b.2.2 < a.2.2))))

/-- `ContextFor` (R133). A context whose image is being written takes no standby (R179). -/
def contextFor (s : State) (core k : Nat) : Option Nat :=
  let c := s.core core
  let p := s.proc k
  let kept : Option Nat := (c.resv.find? fun e => e.2 == k).map Prod.fst
  let usable (j : Nat) : Bool :=
    !(c.ctx j).swapping && (c.ctx j).writing.isNone &&
      (match kept with | some i => i == j | none => (nget? c.resv j).isNone)
  let free := (List.range 8).find? fun j =>
    usable j && (c.ctx j).run.isNone && standbyBelow s (c.ctx j) p.prio && !gangWaits s (clusterOf core) p.prio
  let lower := (List.range 8).filterMap fun j =>
    match (c.ctx j).run with
    | some r =>
      if usable j && (s.proc r).gang == 0 && decide ((s.proc r).prio < p.prio) && standbyBelow s (c.ctx j) p.prio then
        some ((s.proc r).prio, (c.ctx j).since, j)
      else none
    | none => none
  let best := lower.foldl (fun (a : Option (Nat × Nat × Nat)) e =>
    match a with | none => some e | some b => if displaceBefore e b then some e else some b) none
  let equal := (List.range 8).find? fun j =>
    match (c.ctx j).run with
    | some r => usable j && (s.proc r).gang == 0 && (s.proc r).prio == p.prio && (c.ctx j).standby.isNone
    | none => false
  match free, best, equal with
  | some j, _, _ => some j
  | none, some b, _ => some b.2.2
  | none, none, e => e

/-- A queued process goes into the standby slot of a context; a standby of lower priority returns to the head of its queue. -/
def State.loadStandby (s : State) (core ctx k : Nat) : State :=
  let s := match ((s.core core).ctx ctx).standby with
    | some b => (s.modProc b fun p => { p with st := .ready }).enqueue b true
    | none => s
  let s := (s.dequeue k).modProc k fun p => { p with st := .standby }
  s.modCore core fun c => c.setCtx ctx { c.ctx ctx with standby := some k, loaded := true }

/-- STANDBY_LOAD (R133, Table 6.2): the highest queued process has been loaded into the standby slot of the context that
`ContextFor` names. -/
def execStandbyLoad (core ctx : Nat) (s : State) : Host.Outcome State Fault Refusal :=
  match highestQueued s (s.core core) with
  | none => .next s
  | some k => if contextFor s core k = some ctx then .next (s.loadStandby core ctx k) else .next s

/-- `Refill` of R133 carried out on a core: what its own slots would take next. -/
def State.refill (s : State) (core : Nat) : Nat → State
  | 0 => s
  | n + 1 =>
    match highestQueued s (s.core core) with
    | none => s
    | some k => match contextFor s core k with | some j => (s.loadStandby core j k).refill core n | none => s

/-! ### Swaps (R133, R134, R179) -/

/-- A process of the same priority waits for a running one: in the core's queue, or already in the context's standby slot, without which
the bound of R135 would not hold for 9 to 16 processes (DEDUCED; log entry 91). -/
def equalWaits (s : State) (core : Nat) (x : Ctx) (r : Nat) : Bool :=
  (s.core core).queue (s.proc r).prio != [] || (match x.standby with | some b => (s.proc b).prio == (s.proc r).prio | none => false)

/-- The quantum of a context's process is due (R134). -/
def quantumDue (s : State) (core : Nat) (x : Ctx) (r : Nat) : Bool :=
  (s.proc r).gang == 0 && (x.due || (decide (64 ≤ x.turns) && equalWaits s core x r))

/-- QUANTUM_DUE (R134). -/
def execQuantumDue (core ctx : Nat) (s : State) : Host.Outcome State Fault Refusal :=
  let x := (s.core core).ctx ctx
  match x.run with
  | some r => if quantumDue s core x r && !s.isStopped r then .next (s.modCore core fun c => c.setCtx ctx { x with due := true }) else .next s
  | none => .next s

/-- Vector results of a process are outstanding: a swap waits for them (R242). -/
def State.vecWaits (s : State) (k : Nat) : Bool := (s.proc k).vPend.any fun e => (nget? s.txns e.2).isSome

/-- The loaded standby takes the context at its turn (R133): no process runs there, or one that ended, or of lower priority, or
whose quantum is due. A swap waits for vector results (R242), and a gang member keeps its context (R122). -/
def swapNow (s : State) (core ctx : Nat) : Bool :=
  let x := (s.core core).ctx ctx
  match x.standby with
  | none => false
  | some b =>
    x.loaded && !x.swapping && !s.isStopped b &&
      (match x.run with
        | none => !gangWaits s (clusterOf core) (s.proc b).prio && (match x.writing with | some k => !s.vecWaits k | none => true)
        | some r =>
          let p := s.proc r
          p.gang == 0 && !s.vecWaits r && p.st != .stopped &&
            (p.st == .blocked || p.st == .exited || decide (p.prio < (s.proc b).prio) || quantumDue s core x r))

/-- The swap of a context begins. A displaced process is queued at the head where a higher priority takes its place, else at
the tail, and keeps its park. -/
def State.swap (s : State) (core ctx : Nat) : State :=
  let x := (s.core core).ctx ctx
  let s := match x.run, x.standby with
    | some r, some b =>
      let p := s.proc r
      let head := decide (p.prio < (s.proc b).prio)
      let s := s.leaveCtx r
      if p.st = PState.running ∨ p.st = PState.parked then (s.modProc r fun p => { p with st := .ready }).enqueue r head else s
    | _, _ => s
  s.modCore core fun c => c.setCtx ctx { c.ctx ctx with swapping := true, since := s.cycle, due := false }

/-- CONTEXT_SWAP (R133): at the context's issue turn. -/
def execContextSwap (core ctx : Nat) (s : State) : Host.Outcome State Fault Refusal :=
  if s.cycle % 8 = ctx ∧ swapNow s core ctx then .next (s.swap core ctx) else .next s

/-- SWAP_COMPLETE (R132): 3 cc later the standby runs, or stays PARKED on a park it brought along. -/
def execSwapComplete (core ctx : Nat) (s : State) : Host.Outcome State Fault Refusal :=
  let x := (s.core core).ctx ctx
  match x.standby with
  | some k =>
    if x.swapping && decide (x.since + 3 ≤ s.cycle) then
      let s := s.modCore core fun c =>
        c.setCtx ctx { x with run := some k, standby := none, loaded := false, swapping := false, since := s.cycle, turns := 0 }
      .next (s.modProc k fun p =>
        { p.setSt (if p.hold.isSome then PState.parked else PState.running) with ctx := some ctx, core := core, started := true })
    else .next s
  | none => .next s

/-- REGISTER_IMAGE_WRITE_END (R179): the image of the outgoing process stands at REGIMG, and the standby slot may be loaded again. -/
def execRegisterImageWriteEnd (core ctx : Nat) (s : State) : Host.Outcome State Fault Refusal :=
  match ((s.core core).ctx ctx).writing with
  | some k =>
    if s.vecWaits k then .next s
    else .next ((s.writeImg k).modCore core fun c => c.setCtx ctx { c.ctx ctx with writing := none })
  | none => .next s

/-! ### Gangs (R121) -/

/-- A context that a gang may take: no process runs there, and its standby, if any, is not above the gang. -/
def freeForGang (s : State) (prio core ctx : Nat) : Bool :=
  let x := (s.core core).ctx ctx
  x.run.isNone && !x.swapping && x.writing.isNone && (nget? (s.core core).resv ctx).isNone && standbyBelow s x (prio + 1)

/-- One member takes the lowest free context of its core; its registers stand at its entry or as restored. -/
def State.grantMember (s : State) (prio k : Nat) : Option State :=
  let core := (s.proc k).core
  match (List.range 8).find? (freeForGang s prio core) with
  | none => none
  | some j =>
    let s := match ((s.core core).ctx j).standby with
      | some b => (s.modProc b fun p => { p with st := .ready }).enqueue b true
      | none => s
    let s := s.modCore core fun c => c.setCtx j { run := some k, since := s.cycle }
    some (s.modProc k fun p =>
      let st := if p.st = .new ∨ p.st = .ready then (if p.hold.isSome then PState.parked else PState.running) else p.st
      { p with st := st, ctx := some j, started := true, landed := s.cycle + 1, wkind := if p.wkind = .gang then .none else p.wkind })

/-- All living members take a context, or none does. -/
def State.grantGang (s : State) (g : Gang) : Option State :=
  (g.members.filter fun k => (s.proc k).st != .exited).foldl
    (fun (a : Option State) k => a.bind fun s => s.grantMember (gangPrio s g) k) (some s)

/-- GANG_GRANT (R121): all contexts together, gangs of a cluster in the order in which they began waiting. -/
def execGangGrant (gang : Nat) (s : State) : Host.Outcome State Fault Refusal :=
  match nget? s.gangs gang with
  | none => .next s
  | some g =>
    let first := s.gangs.all fun e => e.1 == gang || e.2.st != .forming || e.2.cluster != g.cluster || decide (g.order < e.2.order)
    if g.st = .forming ∧ first ∧ !g.members.any s.isStopped ∧ !s.halted g.part then
      match s.grantGang g with
      | some t => .next { t with gangs := nset t.gangs gang { g with st := .running } }
      | none => .next s
    else .next s

/-! ### Work donation (R136 to R138) -/

/-- A core that can take a process at once. -/
def idleCtx (c : Core) : Nat := ((List.range 8).filter fun j => (c.ctx j).run.isNone && (c.ctx j).standby.isNone).length

def coresIn (clu : Nat) : List Nat := (List.range 8).map fun j => clu * 8 + j

/-- Queued processes of a core, from the tails of its queues, lowest priority first. -/
def shipOrder (c : Core) : List Nat := (List.range 8).flatMap fun q => (c.queue q).reverse

/-- A process that may be shipped to a cluster (R137). -/
def mayShip (s : State) (part thief k : Nat) : Bool :=
  let p := s.proc k
  let img := match nget? s.objs (s.inst p.inst).obj with | some o => o.img | none => {}
  let dom := ((img.levels[p.level]?).map NetLevel.domain).getD .partition
  partOf k == part && p.st == .new && p.gang == 0 && !p.pinned && p.cpyreg == 0 && sameDomain dom p.core (thief * 8) &&
    !(s.core p.core).bufs.any fun e => e.2.owner == k

/-- Move a NEW process to another core: the HOME of every channel it receives on goes first (R138). -/
def State.ship (s : State) (k core : Nat) : State :=
  let s := s.dequeue k
  let s := s.modPart (partOf k) fun q =>
    { q with chans := q.chans.map fun e => if e.2.rxproc = k then (e.1, { e.2 with home := core }) else e }
  ((s.modProc k fun p => { p with core := core }).spadCopy (s.proc k).inst core).enqueue k false

/-- WORK_STEAL_ROUND (R136, R137): the first victim with work it may ship ships up to 4 of what its own slots would not take next; both
clusters are ones on which the partition's own networks run (R62). A round that finds nothing is followed by a wait of 2 µs. -/
def execWorkStealRound (clu : Nat) (s : State) : Host.Outcome State Fault Refusal :=
  let idle := (coresIn clu).filter fun c => 0 < idleCtx (s.core c)
  let busy := (coresIn clu).any fun c => (shipOrder (s.core c)) != []
  if idle = [] ∨ busy ∨ s.cycle < (s.cluster clu).nextSteal then .next s
  else
    let victims := (List.range 63).map fun j => (clu + 1 + j) % 64
    let parts := s.parts.filter fun e => (ownClusters s e.1).contains clu
    let found := victims.findSome? fun v =>
      parts.findSome? fun e =>
        if !(ownClusters s e.1).contains v then none
        else
          let l := ((coresIn v).flatMap fun c => shipOrder ((s.refill c 4096).core c)).filter (mayShip s e.1 clu)
          let l := sortBy (fun a b => decide ((s.proc a).prio ≤ (s.proc b).prio)) l
          if l = [] then none else some (l.take 4)
    match found with
    | some l => .next (l.zipIdx.foldl (fun s e => s.ship e.1 (idle.getD (e.2 % idle.length) (clu * 8))) s)
    | none => .next (s.setCluster clu { s.cluster clu with nextSteal := s.cycle + 3500 })

/-! ### Handlers and failures (R170, R172) -/

/-- Start a handler instance of a network, its n2 and for a fault its n3 replaced (R144, R172). Its core is the part's choice. -/
def State.spawnHandler (s : State) (inst : Nat) (idx : Nat) (n2 : Word) (n3 : Option Word) (id : Option Nat) : State :=
  let v := s.inst inst
  let (s, w) := s.draw
  let img := match nget? s.objs v.obj with | some o => o.img | none => {}
  let cores := joinCores s inst idx img
  let cores := if cores = [] then ownCores s v.part else cores
  let num := s.freeNum v.part
  let k := handleOf v.part num
  let core := cores.getD (w.toNat % max 1 cores.length) 0
  let s := s.modPart v.part fun q => { q with nextProc := num + 1 }
  let s := (s.makeProc k inst idx core (BitVec.ofNat 64 (v.blockVa + 48 * idx)) 0).keepCtx img idx core k
  let s := s.modProc k fun p => { p with n := (p.n.set 2 n2).set 3 (n3.getD p.n[3]), isHandler := true, handles := id }
  s.modInst inst fun i => { i with handlers := i.handlers ++ [k] }

/-- HANDLER_SPAWN (R172): the oldest queued record, at most 4 handler instances at once. -/
def execHandlerSpawn (inst : Nat) (s : State) : Host.Outcome State Fault Refusal :=
  let v := s.inst inst
  match v.queue, handlerIndex s inst with
  | id :: t, some idx =>
    if v.handlers.length < 4 ∧ !v.stopped ∧ !s.halted v.part then
      let s := s.modInst inst fun i => { i with queue := t }
      match nget? s.recs id with
      | none => .next s
      | some r => .next (s.spawnHandler inst idx (BitVec.ofNat 64 r.area) (some (BitVec.ofNat 64 r.handle)) (some id))
    else .next s
  | _, _ => .next s

/-- The word at which a process is held is undone: its program counter stands on it (R79, R216, R363). -/
def State.undoHeld (s : State) (k : Nat) : State :=
  if (s.proc k).hold ≠ some .barrier then s
  else
    s.txns.foldl (fun s e =>
      if e.2.issuer ≠ k then s
      else
        match e.2.op, e.2.stage with
        | .mgang .., .waiting => s.undoMgang e.1
        | .repar .., .sent => s.undoRepar e.1
        | _, _ => s) s

/-- The first failure that waits for a process becomes its fault (R170): the program counter stands where it had reached. -/
def State.deliverC (s : State) (k : Nat) : State :=
  let p := s.proc k
  match p.faults with
  | [] => s
  | r :: t => ((s.undoHeld k).modProc k fun p => { p with faults := t }).takeFault k r p.pc

/-- CLASS_C_FAULT_DELIVERY (R170): at a turn at which the issuer holds its context and is not BLOCKED. -/
def execClassCFaultDelivery (k : Nat) (s : State) : Host.Outcome State Fault Refusal :=
  let p := s.proc k
  if p.ctx.isSome ∧ (p.st = .running ∨ p.st = .parked) then .next (s.deliverC k) else .next s

/-! ### Rated firings (R114) -/

/-- The declared count of one end is there: messages or a blocked sender, room or a blocked receiver. -/
def endReady (s : State) (k : Nat) (e : W32 × Nat) : Bool :=
  match s.chan? (partOf k) (e.1.toNat % 2 ^ 24) with
  | none => false
  | some c =>
    if e.1.toNat / 2 ^ 31 = 1 then
      decide (others c.resvRx k + e.2 ≤ (if c.depth = 0 then c.sendq.length else c.msgs.length))
    else if c.depth = 0 then decide (others c.resvTx k + e.2 ≤ c.recvq.length)
    else decide (c.msgs.length + others c.resvTx k + e.2 ≤ c.depth)

/-- RATED_FIRING (R114, R147): messages and room are reserved, the registers are those of a start, and the process is NEW. -/
def execRatedFiring (k : Nat) (s : State) : Host.Outcome State Fault Refusal :=
  let p := s.proc k
  if p.st = .dormant ∧ p.firing.all (endReady s k) ∧ !s.halted (partOf k) then
    let s := s.reserveFiring k
    let i := s.inst p.inst
    .next ((s.setProc k { (p.start (paramsOf s i p.index) (entryOf s i p.index)) with st := .new }).enqueue k false)
  else .next s

/-! ### Deadlock (R143, R144) -/

/-- Processes of an instance that count for a deadlock: its own, DORMANT ones among them, but for handlers and those that have ended.
The spec names no way to make a subnet, so a network has none. -/
def networkProcs (s : State) (inst : Nat) : List (Nat × Proc) :=
  s.procs.filter fun e =>
    e.2.inst == inst && e.2.engine.isNone && !e.2.isHandler && e.2.st != .exited &&
      handlerIndex s inst != some e.2.index

/-- A channel end lies in a network wholly: the other end is held there, and no endpoint outside is bound. -/
def innerChan (s : State) (inst : Nat) (part h : Nat) : Bool :=
  match s.chan? part (h % 2 ^ 24) with
  | none => false
  | some c =>
    let inside (k : Nat) : Bool := (s.proc k).inst == inst
    -- senders that no process of the partition stands for are on the far side of a port (R36)
    c.bkind == 0 && !c.fed && (if h / 2 ^ 31 % 2 = 1 then !c.holders.isEmpty && c.holders.all inside else inside c.rxproc)

/-- External traffic is pending on a channel that a network uses: on its way to HOME from outside or to a bound end, or commands on the
host queue that feeds it (R143). -/
def pendingOutside (s : State) (inst part : Nat) (c : Chan) : Bool :=
  let inside (k : Nat) : Bool := (s.proc k).inst == inst
  let q : Queue := nget {} s.queues ((part + 1) * 2 ^ 16 + c.ep[0].toNat)
  (c.holders.any inside || inside c.rxproc) &&
    (c.flight != [] || (c.bkind != 0 && c.msgs != []) ||
      (c.sendq.any fun t => match nget? s.txns t with | some x => !inside (ownerOf x.issuer) | none => false) ||
      (c.bkind == 3 && (q.head != q.tail || q.entries.any fun e => e.2.status == .pending)))

/-- A process waits on channels of its own network only, with no timeout. -/
def stuckOn (s : State) (inst : Nat) (e : Nat × Proc) : Bool :=
  let p := e.2
  p.st == .blocked && p.deadline == 0 &&
    (match p.wkind with
      | .send | .recv => innerChan s inst (partOf e.1) p.wobj.toNat
      | .alt => (List.range 8).all fun j => !p.gmask.getLsbD j || innerChan s inst (partOf e.1) (p.guards.toList.getD j 0).toNat
      | _ => false)

/-- The conditions of R143 hold, and the episode has not been reported. A process whose matched message is on its way waits for
no partner any more, so a transfer under way prevents the report (log entry 80). -/
def deadlocked (s : State) (inst : Nat) : Bool :=
  let l := networkProcs s inst
  !(s.inst inst).reported && l != [] && l.all (stuckOn s inst) &&
    !s.txns.any (fun e => e.2.inst == inst && (match e.2.op with | .eng .. => true | _ => false)) &&
    !(s.part (s.inst inst).part).chans.any fun c => pendingOutside s inst (s.inst inst).part c.2

/-- The words of a deadlock report (Table 6.11). -/
def deadlockWords (s : State) (inst : Nat) (l : List (Nat × Proc)) : List Nat :=
  (0xFF01 * 2 ^ 48 + min l.length 65535 * 2 ^ 32 + inst % 2 ^ 32) :: s.time.toNat :: List.replicate 6 0 ++
    (l.take 252).flatMap fun e =>
      let ch := if e.2.wkind = .alt then e.2.guards[0] else e.2.wobj
      [e.1 % 2 ^ 32 * 2 ^ 32 + ch.toNat, e.2.wkind.code * 2 ^ 60]

/-- DEADLOCK_REPORT (R144): the report is written, its record goes to the event ring, and a handler instance is spawned with
the report's address. -/
def execDeadlockReport (inst : Nat) (s : State) : Host.Outcome State Fault Refusal :=
  if (nget? s.insts inst).isSome ∧ deadlocked s inst ∧ !s.halted (s.inst inst).part then
    let v := s.inst inst
    let bs := (deadlockWords s inst (networkProcs s inst)).flatMap (leBytes 8)
    let s : State := { s with mem := if v.areaPa = 0 then s.mem else writeBytes s.mem (v.areaPa + 4096) bs }
    let s := (s.modInst inst fun i => { i with reported := true }).ringPart v.part (.deadlock inst v.report (s.entryTag inst))
    match handlerIndex s inst with
    | some idx => .next (s.spawnHandler inst idx (BitVec.ofNat 64 v.report) none none)
    | none => .next s
  else .next s

end Sys2Proof.Machine
end

