-- ==== Sys2Proof/Machine/Slices.lean ====
section
/-! DEFINITION. Time-shared children and their rotation (R77, R78), quiescence (R79 to R81), save images as the machine holds them
(R82, R83, R180) and the resume (R81, R85, R116, R181). -/

namespace Sys2Proof.Machine

/-! ### Cores as a save area holds them (R83) -/

/-- A matrix register that has been saved, or loaded from an image, is clean (R156). -/
def Core.clean (c : Core) : Core :=
  { c with tiles := c.tiles.map fun e => (e.1, { e.2 with dirty := false })
           accs := c.accs.map fun e => (e.1, { e.2 with dirty := false }) }

/-- A core as its save area holds it; TLB and logs are not carried over (R181). -/
def coreImg (s : State) (c : Nat) : CoreImg :=
  { core := c
    k := Core.clean { s.core c with tlb := [], dirtyLog := [], sideLog := [] }
    spad := cellsIn s.mem (spadKey c 0) (2 ^ 18) }

/-- Put an image into its core. -/
def State.loadCore (s : State) (g : CoreImg) : State :=
  let c := s.core g.core
  let s : State := { s with mem := putCells (clearBytes s.mem (spadKey g.core 0) (2 ^ 18)) g.spad }
  s.setCore g.core { g.k with tlb := c.tlb, dirtyLog := c.dirtyLog, sideLog := c.sideLog, spare := c.spare }

/-- The first `n` pages of runs. -/
def takeAreas : Nat → List (Nat × Nat) → List (Nat × Nat)
  | _, [] => []
  | n, r :: t => if n = 0 then [] else (r.1, min n r.2) :: takeAreas (n - r.2) t

/-- The pages of the save area of a partition, 16 for each core of its clusters (R82). -/
def areaPages (s : State) (part : Nat) : List Nat :=
  let q := s.part part
  (takeAreas (128 * (clustersOf q.clusters).length) q.resv).flatMap fun r => (List.range r.2).map fun j => r.1 + j

/-- What the save area holds at a place of an image, by offset in its mebibyte; a page whose stream was redirected stands in the region of
the other stack (R112). -/
def areaCells (s : State) (part pos : Nat) : List Host.Cell :=
  let pages := areaPages s part
  (List.range 16).flatMap fun j =>
    match pages[16 * pos + j]? with
    | none => []
    | some f =>
      let r := (((s.part part).redirected.find? fun e => e.1 == f).map Prod.snd).getD f
      (cellsIn s.mem (r * 2 ^ 16) (2 ^ 16)).map fun c => ((j * 2 ^ 16 + c.1 % 2 ^ 16, c.2) : Host.Cell)

/-- A core as its place in the save area has it (R112, R180). -/
def CoreImg.fromArea (s : State) (part : Nat) (g : CoreImg) : CoreImg :=
  match g.area with
  | none => g
  | some (pos, t, o) =>
    let cs := areaCells s part pos
    let word (lo n : Nat) : Nat := leNat ((List.range n).map fun j => readByte cs (lo + j))
    { g with
      area := none
      spad := (cs.filter fun c => decide (o ≤ c.1) && decide (c.1 < o + 2 ^ 18)).map fun c => ((spadKey g.core (c.1 - o), c.2) : Host.Cell)
      k := { g.k with
        tiles := g.k.tiles.map fun e => (e.1, { e.2 with data := .ofNat _ (word (t + 2048 * e.1) 2048) })
        accs := g.k.accs.map fun e =>
          (e.1, { e.2 with cells := e.2.cells.map fun c => (c.1, .ofNat _ (word (t + 16384 + 147456 * e.1 + 72 * c.1) 72)) }) } }

/-- What a partition's save area held is written over or used: firmware has the redirected pages again. -/
def State.dropArea (s : State) (part : Nat) : State :=
  let read (l : List CoreImg) : List CoreImg := l.map (CoreImg.fromArea s part)
  s.modPart part fun q =>
    { q with off := read q.off, images := q.images.map fun g => { g with cores := read g.cores }, redirected := [] }

/-- Put a child's cores into place; a core with no image is blank. -/
def State.loadCores (s : State) (part : Nat) (l : List CoreImg) : State :=
  let l := l.map (CoreImg.fromArea s part)
  (ownCores s part).foldl (fun s c => s.loadCore ((l.find? fun g => g.core == c).getD { core := c })) s

/-- The images of the cores that run a partition's own networks (R62). -/
def coreImgs (s : State) (part : Nat) : List CoreImg := (ownCores s part).map (coreImg s)

/-- A partition's cores as they are: of a time-shared child that is off its slice, as its save area has them. -/
def imgsNow (s : State) (part : Nat) : List CoreImg :=
  let q := s.part part
  if q.timeShared && q.slice.isNone then
    (ownCores s part).map fun c => ((q.off.find? fun g => g.core == c).map (CoreImg.fromArea s part)).getD { core := c }
  else coreImgs s part

/-- Do something to a partition with its own cores in place: at once, or for a child that is off its slice in its save area. -/
def State.withCores (s : State) (part : Nat) (f : State → State) : State :=
  let q := s.part part
  if !(q.timeShared && q.slice.isNone) then f s
  else
    let now := coreImgs s part
    let t := f (s.loadCores part q.off)
    let t := t.modPart part fun q => { q with off := coreImgs t part }
    now.foldl State.loadCore t

/-! ### Stopping (R79, R116) -/

/-- Processes and engine threads of a partition, or of one instance of it, that have not ended. -/
def setOf (s : State) (part : Nat) (inst : Option Nat) : List Nat :=
  (s.procs.filter fun e =>
    partOf (ownerOf e.1) == part && e.2.st != .exited && (match inst with | some i => e.2.inst == i | none => true)).map Prod.fst

/-- Processes that have exited while engine operations that they issued are still under way: the set takes those in too (R79). -/
def endedOf (s : State) (part : Nat) (inst : Option Nat) : List Nat :=
  ((s.txns.filter fun e =>
    e.2.part == part && e.2.issuer != 0 && s.ended (ownerOf e.2.issuer) && !(s.inst e.2.inst).stopped &&
      (match inst with | some i => e.2.inst == i | none => true)).map fun e => ownerOf e.2.issuer).eraseDups

/-- A process is STOPPED and remembers its state. -/
def State.stopProc (s : State) (k : Nat) : State :=
  s.modProc k fun p => if p.st = .stopped then p else { p with st := .stopped, was := p.st }

/-- Steps 1 and 2 of R79: issue stops, and every `mgang` that waits at its barrier is withdrawn; so is every `repar` that has taken no
lock (R216). Engine threads of the set run on (R350). -/
def State.beginQuies (s : State) (part : Nat) (inst : Option Nat) (why : Stop) : State :=
  let l := (setOf s part inst).filter fun k => !(s.inst (s.proc k).inst).stopped && (s.proc k).engine.isNone
  let m := endedOf s part inst
  let s := l.foldl State.stopProc s
  let waits := (s.txns.filter fun e =>
    l.contains e.2.issuer && e.2.stage == .waiting && (match e.2.op with | .mgang .. => true | _ => false)).map Prod.fst
  let s := waits.foldl State.undoMgang s
  let moves := (s.txns.filter fun e =>
    l.contains e.2.issuer && e.2.stage == .sent && (match e.2.op with | .repar .. => true | _ => false)).map Prod.fst
  let s := moves.foldl State.undoRepar s
  s.modPart part fun q => { q with quies := some { why := why, inst := inst, procs := l ++ m, since := s.cycle, time := virtualTime s part } }

/-- A transaction that step 3 waits for: it is on its way, served or not (Table 4.3). Waits for another process, a page motion
or a shoot-down are not. -/
def outstanding (l : List Nat) (x : Txn) : Bool :=
  l.contains (ownerOf x.issuer) &&
    (match x.stage with
      | .sent => (match x.op with | .send .. | .recv .. | .sendt .. | .recvt .. | .chclose .. | .chinfo .. | .chbind .. | .alt => false | _ => true)
      | .back _ | .failed _ | .heldPage _ => true
      -- a settle whose markers are out is a load on its way (R216)
      | .waiting => (match x.op with | .settle _ => true | _ => false)
      | _ => false)

/-- A `repar` that has taken its first lock: step 3 waits for it, beyond the budget too (R216). -/
def movesNode (l : List Nat) (x : Txn) : Bool :=
  l.contains (ownerOf x.issuer) && (match x.op with | .repar .. => x.stage != .sent | _ => false)

/-- The budget of a partition in core cycles. -/
def quiesBudget (s : State) (part : Nat) : Nat := (s.part part).budget.qbudget * usCc

/-- What a transaction becomes when the budget is over (Table 4.3): pending arithmetic and a pass of the matrix slice complete, a
failure is delivered, a load is issued again from the start, and so are a `settle` and a tree read, which count as loads (R216); anything
else is a replay entry that keeps what it has done. -/
def State.intoReplay (s : State) (t : Nat) : State :=
  match nget? s.txns t with
  | none => s
  | some x =>
    let tree : Bool := match x.op with | .settle _ | .chgrd _ | .chgcmp .. => true | _ => false
    let y := if tree then { x with marks := [], work := [] } else x
    let keep (d : Option Deliver) : State := s.setTxn t { y with stage := .replay d }
    let s' : State :=
      match x.stage, x.op with
      | .sent, .value _ => s.arrive t
      | .back _, .mgang .. => s.arrive t
      | .sent, .mgang .. => (s.setTxn t { x with stage := mgangStage s x }).arrive t
      | .failed _, .eng .. => s
      | .failed _, _ => s.arrive t
      | .back d, _ => if tree ∨ x.op.role = .ld then keep none else keep (some d)
      | _, _ => keep none
    match x.op with
    | .eng core obj _ =>
      (match (s.core core).obj obj with
        | o => if o.txn = t ∧ o.st = .running then s'.modCore core fun c => c.setObj obj { o with st := .replay } else s')
    | _ => s'

/-- Gangs of a set in one state go to another, every member together (Table 6.5). -/
def State.setGangs (s : State) (l : List Nat) (a b : GangSt) : State :=
  { s with gangs := s.gangs.map fun e =>
      if e.2.st = a ∧ e.2.members.any l.contains then (e.1, { e.2 with st := b }) else e }

/-- The engine threads of a set that still run when its budget ends: each stops at its next word boundary (R350). -/
def threadsOf (s : State) (part : Nat) (z : Quies) : List Nat :=
  (setOf s part z.inst).filter fun k => (s.proc k).engine.isSome && z.procs.contains (ownerOf k)

/-- QUIESCENCE_BUDGET_EXPIRY: step 3 ends, at once when nothing is outstanding, and the state is saved (steps 4 and 5). -/
def execQuiescenceBudgetExpiry (part : Nat) (s : State) : Host.Outcome State Fault Refusal :=
  match (s.part part).quies with
  | none => .next s
  | some z =>
    let l := (s.txns.filter fun e => outstanding z.procs e.2).map Prod.fst
    if !z.saving && !(s.txns.any fun e => movesNode z.procs e.2) && (l == [] || decide (z.since + quiesBudget s part ≤ s.cycle)) then
      let ts := threadsOf s part z
      let s := (l.foldl State.intoReplay (ts.foldl State.stopProc s)).setGangs z.procs .running .saved
      .next (s.modPart part fun q => { q with quies := some { z with saving := true, saveAt := s.cycle, procs := z.procs ++ ts } })
    else .next s

/-- The stacks on which the save area of a partition lies. -/
def streamStacks (s : State) (part : Nat) : List Nat := ((areaPages s part).map fun f => stackOf (f * 2 ^ 16)).eraseDups

/-- A pre-emption save stream is being written to the save area of a partition (R111). -/
def Quies.streams (z : Quies) : Bool := z.saving && (match z.why with | .slice | .preempt _ => true | _ => false)

/-- A pre-emption save stream of a partition that a test picks is being written to a stack, and, but for `late`, its 100 µs are not yet
over (R84, R111). -/
def streamOn (s : State) (stack : Nat) (late : Bool) (p : Nat → Bool := fun _ => true) : Bool :=
  s.parts.any fun e => p e.1 && match e.2.quies with
    | some z => z.streams && (late || decide (s.cycle < z.saveAt + 100 * usCc)) && (streamStacks s e.1).contains stack
    | none => false

/-- Retrains that waited for the save stream of a partition, and for no other, begin (R111). -/
def State.startRetrains (s : State) (part : Nat) : State :=
  (streamStacks s part).foldl (fun s k =>
    let m := s.mbd k
    if m.retrainWaits && !streamOn s k false (· != part) then s.setMbd k { m with retraining := true, retrainWaits := false } else s) s

/-- A save stream of a slice end that has not ended 100 µs after step 3 has missed its deadline (R84). -/
def Quies.misses (z : Quies) (cyc : Nat) : Bool := z.saving && z.why == .slice && !z.late && decide (z.saveAt + 100 * usCc < cyc)

/-- PREEMPT_LATE (R84): the deadline of the save stream is missed. A retrain that waits for the stream begins (R111). -/
def execPreemptLate (part : Nat) (s : State) : Host.Outcome State Fault Refusal :=
  match (s.part part).quies with
  | none => .next s
  | some z =>
    if z.misses s.cycle then
      .next (((s.modPart part fun q => { q with quies := some { z with late := true } }).ringPart part (.preemptLate part)).startRetrains
        part)
    else .next s

/-! ### Resuming (R81, R116) -/

/-- A replay entry is issued again (R81). -/
def State.reissue (s : State) (t : Nat) : State :=
  match nget? s.txns t with
  | none => s
  | some x =>
    match x.stage with
    | .replay d =>
      let s := s.setTxn t { x with stage := (match d with | some d => Stage.back d | none => .sent), due := s.cycle + 16 }
      match x.op with
      | .eng core obj _ =>
        let o := (s.core core).obj obj
        if o.txn = t ∧ o.st = .replay then s.modCore core fun c => c.setObj obj { o with st := .running } else s
      | _ => s
    | _ => s

/-- A process returns to the state it held (R116). One that is READY and holds no context takes its place in its queue. -/
def State.unstop (s : State) (k : Nat) : State :=
  let p := s.proc k
  if p.st ≠ .stopped then s
  else
    let c := s.core p.core
    let queued := (c.queue p.prio).contains k || c.ctxs.any fun e => e.2.standby == some k || e.2.run == some k
    let s := s.setProc k { p with st := p.was, was := .new }
    if (p.was = .ready ∨ p.was = .new) ∧ p.engine.isNone then
      if p.ctx.isSome then s.setProc k { p with st := (if p.hold.isSome then PState.parked else .running), was := .new }
      else if queued || (decide (p.gang ≠ 0)) then s else s.enqueue k false
    else s

/-- Replay entries are issued before any context issues; then the processes go on. -/
def State.resume (s : State) (part : Nat) (l : List Nat) : State :=
  let ts := (s.txns.filter fun e => l.contains (ownerOf e.2.issuer)).map Prod.fst
  let s := ts.foldl State.reissue s
  let s := (l.foldl State.unstop s).setGangs l .saved .running
  let s := s.modPart part fun q => { q with quies := none, migrated := false }
  (l.foldl State.tryExit s).pumpAll.wakeAlts

/-! ### The rotation (R77, R78) -/

/-- A child has a running instance. -/
def State.runs (s : State) (part : Nat) : Bool := s.insts.any fun e => e.2.part == part && !e.2.killed && !e.2.stopped

/-- The time-shared children of a parent, ascending. -/
def rotation (s : State) (parent : Option Nat) : List Nat :=
  (s.parts.filter fun e => e.2.timeShared && e.2.parent == parent).map Prod.fst

/-- The child whose slice comes after `part`: ascending, children with no running instance skipped, itself last. -/
def nextChild (s : State) (part : Nat) : Option Nat :=
  let l := (rotation s (s.part part).parent).filter s.runs
  match l.find? fun k => part < k with
  | some k => some k
  | none => l.head?

/-- A child's cores are put in place and its slice begins; a stop that ended off its slice left it STOPPED. -/
def State.beginSlice (s : State) (part : Nat) : State :=
  let q := s.part part
  let s := if q.slice.isSome then s else s.loadCores part q.off
  let s := (s.dropArea part).modPart part fun q => { q with slice := some s.cycle, off := [] }
  let held (k : Nat) : Bool := (s.inst (s.proc k).inst).stopped
  s.resume part ((setOf s part none).filter (fun k => !held k) ++ endedOf s part none)

/-- SLICE_END (R77): SLICE has passed, or the running child has no running instance. A slice is renewed where no other child has
one; where none has, the rotation stands still; else quiescence begins. -/
def execSliceEnd (part : Nat) (s : State) : Host.Outcome State Fault Refusal :=
  let q := s.part part
  match q.slice with
  | none => .next s
  | some c =>
    if q.quies.isSome then .next s
    else if s.runs part && decide (s.cycle < c + q.budget.slice * usCc) then .next s
    else
      match nextChild s part with
      | none => .next (s.modPart part fun q => { q with slice := none, off := coreImgs s part })
      | some k =>
        if k = part then .next (s.modPart part fun q => { q with slice := some s.cycle })
        else .next (s.beginQuies part none .slice)

/-- A child with a first instance joins the rotation: its slice begins where no sibling runs and no switch is under way (R77). -/
def State.joinRotation (s : State) (part : Nat) : State :=
  let q := s.part part
  if !q.timeShared || q.slice.isSome then s
  else if (rotation s q.parent).any fun k => (s.part k).slice.isSome then s
  else s.beginSlice part

/-! ### Images (R83, R180) -/

/-- The matrix set of a core that a process of the set owns: what a PREEMPT takes out of the core beside the contexts. -/
def matrixImg (s : State) (l : List Nat) (c : Nat) : Option CoreImg :=
  let k := s.core c
  match k.owner with
  | some o =>
    if l.contains o then
      some { core := c, k := Core.clean { owner := some o, tiles := k.tiles, accs := k.accs, dmap := k.dmap, mPend := k.mPend } }
    else none
  | none => none

/-- The set that a partition's PREEMPT images hold, of instances that have not ended; processes that had exited with engine operations
under way are in it. -/
def preempted (s : State) (part : Nat) : List (Nat × Proc) :=
  let ks := (s.part part).images.flatMap fun g => g.procs.map Prod.fst
  s.procs.filter fun e => ks.contains e.1 && (e.2.st == .stopped || e.2.st == .exited) && (s.inst e.2.inst).stopped

/-- The matrix sets that PREEMPTs took out of cores, of processes of a list. -/
def heldSets (s : State) (part : Nat) (l : List Nat) : List CoreImg :=
  ((s.part part).images.flatMap SaveImg.cores).filter fun g => match g.k.owner with | some o => l.contains o | none => false

/-- The image of the set of a stop: a whole partition, what it has PREEMPTed among it, or one instance. -/
def wholeImage (s : State) (part : Nat) (z : Quies) : SaveImg :=
  let old := if z.inst.isSome then [] else (preempted s part).map Prod.fst
  let ks := z.procs ++ old.filter (!z.procs.contains ·)
  { romRev := s.romRev, part := part, inst := z.inst, cores := imgsNow s part
    held := (heldSets s part old).map (CoreImg.fromArea s part), procs := ks.map fun k => (k, s.proc k)
    replay := s.txns.filter fun e => ks.contains (ownerOf e.2.issuer), phases := (s.part part).phases }

/-! ### The bytes of an image (R83, R180) -/

/-- Bytes laid down one after another: how many, and those that are not zero by offset. -/
structure ImgBuf where
  len : Nat := 0
  cells : List Host.Cell := []

def ImgBuf.at_ (b : ImgBuf) (n : Nat) (l : List (Nat × List Byte)) : ImgBuf :=
  { len := b.len + n
    cells := b.cells ++ l.flatMap fun e =>
      (e.2.zipIdx.filter fun x => x.1 != unlisted).map fun x => ((b.len + e.1 + x.2, x.1) : Host.Cell) }
def ImgBuf.put (b : ImgBuf) (bs : List Byte) : ImgBuf := b.at_ bs.length [(0, bs)]
def ImgBuf.words (b : ImgBuf) (l : List Nat) : ImgBuf := b.put (l.flatMap (leBytes 8))

/-- A buffer descriptor, as words. -/
def Buf.words (b : Buf) : List Nat :=
  let bit (c : Bool) : Nat := if c then 1 else 0
  let st : Nat := match b.state with | .empty => 0 | .filling => 1 | .full => 2 | .draining => 3
  [b.owner, st, bit b.ring, bit b.fills, bit b.drains, b.base, b.size, b.slot, b.head, b.tail, b.free, b.nslot, b.landed]

/-- KIND of a replay entry (Table 4.4): the tree's settles and reads are loads (R216), and so is the read of an `mrest`. None for what is
no transaction of Table 4.3: a channel operation that has not begun, a wait, a join. -/
def replayKind (x : Txn) : Option Nat :=
  match x.op with
  | .arrive .. => some 5
  | .eng .. => some 6
  | .sendt .. | .recvt .. => if x.started then some 6 else none
  | .settle _ | .chgrd _ | .chgcmp .. | .mrest .. => some 1
  | _ => match x.op.role with | .ld => some 1 | .st => some 2 | .rd => some 3 | .at_ => some 4 | _ => none

/-- A transaction is a replay entry (R79, Table 4.3). -/
def Txn.isReplay (x : Txn) : Bool := (match x.stage with | .replay _ => true | _ => false) && (replayKind x).isSome

/-- The 32 bytes of a replay entry (Table 4.4). The transaction number is the requester tag and, modulo 2^16, the sequence number of an
atomic (log entry 95); an engine operation is named by its completion handle (Table 16.1), `gen` being the GEN of its object, and a
`sendt` or `recvt`, of which nothing lands before all of it does, by its own scratchpad address. -/
def replayWords (gen : Nat) (t : Nat) (x : Txn) : List Nat :=
  let k := (replayKind x).getD 0
  let slot : Nat := match x.op with | .arrive sl _ => sl | _ => (x.tgt.slots.headD 0).toNat % 16
  let obj : Nat := match x.op with
    | .eng c o _ => c % 512 * 2 ^ 16 + gen % 256 * 2 ^ 8 + o % 256
    | .sendt _ o | .recvt _ o => 2 * 2 ^ 60 + o
    | _ => (x.op.parts.head?.map Part8.va).getD 0
  let off : Nat := match x.op with | .eng .. => x.progress | _ => 0
  [ownerOf x.issuer % 2 ^ 32 * 2 ^ 32 + k * 2 ^ 24 + (if k = 1 ∨ k = 5 then slot % 256 * 2 ^ 16 else 0) + (if k = 4 then t % 2 ^ 16 else 0),
   obj, off, if k = 4 then t % 2 ^ 32 * 2 ^ 32 else 0]

/-- The 512 bytes of the state of a thread (R350): queue, named registers, program counter and repetition state. -/
def threadBytes (p : Proc) : List (Nat × List Byte) :=
  (p.image.filter fun e => decide (e.1 < 0x0200)) ++
    [(0x01E0, leBytes 8 p.pc.toNat ++ leBytes 8 p.rep.word ++ leBytes 8 p.push.toNat)]

/-- The replay entries of an image on a core. -/
def replayOf (img : SaveImg) (core : Nat) : NMap Txn := img.replay.filter fun e => e.2.core == core && e.2.isReplay

/-- What comes first of a core: the header, the process records and the register images (R180). -/
def coreRegs (img : SaveImg) (b : ImgBuf) (g : CoreImg) : ImgBuf :=
  let ps := img.procs.filter fun e => e.2.core == g.core && e.2.engine.isNone && e.2.st != .exited
  let b := b.words [img.version, img.romRev.toNat, img.part, g.core % 8, ps.length, g.k.bufs.length, g.k.sb.length,
    (replayOf img g.core).length]
  let b := ps.foldl (fun b e => b.put (e.2.record e.1)) b
  ps.foldl (fun (b : ImgBuf) e => b.at_ 9728 e.2.image) b

/-- The tile and accumulator registers, and the duplication maps. -/
def coreMats (b : ImgBuf) (g : CoreImg) : ImgBuf :=
  let b := b.at_ (8 * 2048) (g.k.tiles.map fun e => (2048 * e.1, leBytes 2048 e.2.data.toNat))
  let b := b.at_ (4 * 147456) (g.k.accs.flatMap fun e => e.2.cells.map fun c => (147456 * e.1 + 72 * c.1, leBytes 72 c.2.toNat))
  b.words (g.k.dmap.toList.map BitVec.toNat)

/-- What comes before the scratchpad. -/
def coreHead (img : SaveImg) (b : ImgBuf) (g : CoreImg) : ImgBuf :=
  (coreMats (coreRegs img b g) g).words (g.k.bufs.flatMap fun e => e.1 :: e.2.words)

/-- What an image holds of one core, in the order of R180. The spec gives the order and the layouts of the process record, the register
image and the replay entry; the rest of the layout is the model's (log entry 60). -/
def coreBytes (img : SaveImg) (b : ImgBuf) (g : CoreImg) : ImgBuf :=
  let ts := replayOf img g.core
  let b := (coreHead img b g).at_ (2 ^ 18) (g.spad.map fun c => (c.1 - spadKey g.core 0, [c.2]))
  let b := b.words (g.k.sb.flatMap fun e => [e.txn, e.lo, e.len, if e.incoming then 1 else 0])
  let b := ts.foldl (fun (b : ImgBuf) e =>
    let gen : Nat := match e.2.op with | .eng _ o _ => (nget {} g.k.objs o).gen | _ => 0
    let b := b.words (replayWords gen e.1 e.2)
    match img.procs.find? fun p => p.1 == engineKey e.1 e.2.issuer with
    | some p => b.at_ 512 (threadBytes p.2)
    | none => b) b
  b.put ((List.range 16).flatMap fun j => (List.range 8).flatMap fun d =>
    leBytes 2 (match nget? img.phases j with | some f => ((f.dests[d]?).map PDest.counter).getD 0 | none => 0))

/-- The image of a partition, one core after another, as SAVE writes it; then the matrix sets of what it has PREEMPTed, each after its core
and its owner. -/
def imageBytes (img : SaveImg) : ImgBuf :=
  img.held.foldl (fun b g => coreMats (b.words [g.core, g.k.owner.getD 0]) g) (img.cores.foldl (coreBytes img) {})

/-- The cores of an image with where the save area holds them. -/
def areaImgs (img : SaveImg) : List CoreImg :=
  img.cores.zipIdx.map fun e => { e.1 with area := some (e.2, (coreRegs img {} e.1).len, (coreHead img {} e.1).len) }

/-- The `j`-th page of the region that firmware holds back in the LPDDR6 packages of a stack, and the first one that is free (R112). -/
def regionPage (stack j : Nat) : Nat := 0x2000000 + 33554432 - 8 * 2048 + 8 * j + stack
def freeRegion (s : State) (stack : Nat) : Nat :=
  let used := s.parts.flatMap fun e => e.2.redirected.map Prod.snd
  regionPage stack (((List.range 2048).find? fun j => !used.contains (regionPage stack j)).getD 0)

/-- Write one page of an image: to its page of the save area, or, where the stream to its stack was redirected, into the region of the
other stack of the die (R112). -/
def State.areaPage (s : State) (part f : Nat) (cells : List Host.Cell) : State :=
  let st := stackOf (f * 2 ^ 16)
  let r := if (s.mbd st).redirected then freeRegion s (st + 1 - 2 * (st % 2)) else f
  let put : List Host.Cell := cells.map fun c => ((r * 2 ^ 16 + c.1 % 2 ^ 16, c.2) : Host.Cell)
  let s : State := { s with mem := putCells (clearBytes s.mem (r * 2 ^ 16) (2 ^ 16)) put }
  if r = f then s else s.modPart part fun q => { q with redirected := q.redirected ++ [(f, r)] }

/-- The image goes to the save area, a mebibyte for each core (R82, R83); a redirection ends with the stream. -/
def State.saveArea (s : State) (part : Nat) (img : SaveImg) : State :=
  let pages := areaPages s part
  let s := s.dropArea part
  let s := img.cores.zipIdx.foldl (fun s e =>
    let b := coreBytes img {} e.1
    (List.range 16).foldl (fun (s : State) j => match pages[16 * e.2 + j]? with
      | some f => s.areaPage part f (b.cells.filter fun c => c.1 / 2 ^ 16 == j)
      | none => s) s) s
  (streamStacks s part).foldl (fun s k =>
    if streamOn s k true (· != part) then s else s.setMbd k { s.mbd k with redirected := false }) s

/-- PREEMPT (R83): contexts and matrix sets of the stopped instances are released; the image keeps the sets. Processes, objects,
buffers and scratchpad ranges stand where they are until a RESTORE. `l` says where the save area holds the cores. -/
def State.takeImage (s : State) (part : Nat) (z : Quies) (l : List CoreImg) : State :=
  let imgs := ((ownCores s part).filterMap (matrixImg s z.procs)).map fun g =>
    { g with area := (l.find? fun e => e.core == g.core).bind CoreImg.area }
  let s := imgs.foldl (fun s g => s.modCore g.core Core.releaseMatrix) s
  let was (k : Nat) : Nat × Proc := (k, s.proc k)
  let procs := z.procs.map was
  let s := z.procs.foldl (fun s k => (s.unschedule k).modProc k fun p => { p with ctx := none }) s
  let s : State := { s with
    gangs := s.gangs.map fun e => if e.2.members.any z.procs.contains then (e.1, { e.2 with st := .saved }) else e
    insts := s.insts.map fun e =>
      if e.2.part = part ∧ (z.inst = none ∨ z.inst = some e.1) then (e.1, { e.2 with stopped := true }) else e }
  let img : SaveImg := { romRev := s.romRev, part := part, inst := z.inst, cores := imgs, procs := procs, replay := [],
                         phases := (s.part part).phases }
  s.modPart part fun q => { q with images := q.images ++ [img], quies := none }

end Sys2Proof.Machine
end

