-- ==== Sys2Proof/Machine/Records.lean ====
section
/-! DEFINITION. What firmware reads from host or partition memory: queue entries (R50, R53, R54), the budget record (R64), and the
network record (R117), with the reading of it that a NETLOAD goes by. -/

namespace Sys2Proof.Machine

/-! ### Memory that an argument names -/

/-- Bytes of a partition's space 0x0 as parts; none where a page does not permit the access. -/
def State.vaParts (s : State) (part off len : Nat) (write : Bool) : Option (List Part8) :=
  ((pieces (len / 2 ^ 16 + 2) off 0 len).mapM fun (p : Nat × Nat) =>
    match s.walk part (p.1 / 2 ^ 16) with
    | .ok e => if (!write || e.w) && !e.pt then some { at_ := .mem (e.frame * 2 ^ 16 + p.1 % 2 ^ 16), len := p.2, va := p.1 } else none
    | .error _ => none)

/-- Bytes of host memory. -/
def State.hostBytes (s : State) (addr len : Nat) : List Byte := readBytes s.mem (hostKey addr) len

/-- Bytes at an address that is of the host (space 0x6) or of the partition (space 0x0); none where it is of neither, or a page is not
mapped (log entry 96). -/
def State.readArg (s : State) (part addr len : Nat) : Option (List Byte) :=
  if addr / 2 ^ 60 = 6 then some (s.hostBytes (addr % 2 ^ 51) len)
  else if addr / 2 ^ 60 = 0 then
    (s.vaParts part (addr % 2 ^ 51) len false).map fun l =>
      l.flatMap fun p => match p.at_ with | .mem k => readBytes s.mem (s.live k) p.len | _ => []
  else none

/-- Word `j` of bytes. -/
def recWord (bs : List Byte) (j : Nat) : Nat := leNat ((bs.drop (8 * j)).take 8)
def wordsOf (bs : List Byte) (n : Nat) : List Nat := (List.range n).map (recWord bs)

/-! ### Queue entries (Table 3.4) -/

/-- The command of an opcode with its argument words, how many of them it has, and whether the bits that it does not use are zero. The
spec lists the arguments (Table 3.6) and gives no layout: each takes one word, in the order of the list (log entry 96). The number of the
instance or of the queue that a QUERY asks about, which Table 3.6 does not list, is word 1 (DESIGN CHOICE, log entry 128). -/
def decodeCmd (op : Nat) (a : Nat → Nat) : Cmd × Nat × Bool :=
  let int (n : Nat) : Int := (BitVec.ofNat 64 n).toInt
  match op with
  | 0x01 => (.partcreate (BitVec.ofNat 64 (a 0)) (a 1) (a 2) (a 3), 4, true)
  | 0x02 => (.partsplit (a 0) (BitVec.ofNat 64 (a 1)) ((a 2).testBit 0) (a 3) (a 4) (a 5), 6, a 2 / 2 == 0)
  | 0x03 => (.partdestroy (a 0), 1, true)
  | 0x10 => (.netload (a 0) (a 1), 2, true)
  | 0x11 => (.launch (a 0) (a 1), 2, true)
  | 0x12 => (.replay (a 0) (a 1) (a 2), 3, true)
  | 0x13 =>
    if a 1 = 0 then (.signalHost (a 0) (BitVec.ofNat 32 (a 2)) (BitVec.ofNat 64 (a 3)), 4, a 2 / 2 ^ 32 == 0)
    else if a 1 = 1 then (.signalPhase (a 0) (bits (a 2) 3 0) (bits (a 2) 6 4), 4, a 2 / 2 ^ 7 == 0)
    else (.invalid, 6, true)
  | 0x20 => (.preempt (a 0) (if a 1 = 0xFFFFFFFF then none else some (a 1)), 2, true)
  | 0x21 => (.save (a 0) (a 1) (a 2), 3, true)
  | 0x22 => (.restore (a 0) (BitVec.ofNat 64 (a 1)), 2, true)
  | 0x23 => (.migrate (a 0) (a 1), 2, true)
  | 0x30 =>
    if a 1 = 0 then (.keysetMemory (a 0) (a 2), 3, true)
    else if a 1 = 1 then (.keysetBuneam (a 0) (a 2), 3, true)
    else (.invalid, 6, true)
  | 0x31 => (.timeset (BitVec.ofNat 64 (a 0)), 1, true)
  | 0x32 => (.timeadj (int (a 0)) (int (a 1)), 2, true)
  | 0x40 =>
    -- selectors 0 to 3 name nothing but themselves; of the two that do, word 1 is the number (DESIGN CHOICE, log entry 128)
    if a 0 ≤ 3 then (.query (a 0) 0, 1, true) else if a 0 ≤ 5 then (.query (a 0) (a 1), 2, true) else (.query (a 0) 0, 6, true)
  | 0x41 => (.attest, 6, true)
  | _ => (.invalid, 6, true)

/-- The entry in a slot of host memory. -/
def State.readEntry (s : State) (slot : Nat) : Entry :=
  let bs := s.hostBytes slot 64
  let b (j : Nat) : Nat := (bs.getD j 0).toNat
  let a (j : Nat) : Nat := recWord bs (2 + j)
  let r := decodeCmd (b 0) a
  { cmd := r.1, part := b 4, tag := b 2 + 256 * b 3, fence := (b 1).testBit 0, slot := slot
    reservedZero := b 1 / 2 == 0 && b 5 == 0 && r.2.2 && (List.range 6).all fun j => decide (j < r.2.1) || a j == 0 }

/-! ### The budget record (Table 4.1) -/

/-- The budget record at a host address, with the type table that it names. -/
def State.readBudget (s : State) (addr : Nat) : Budget :=
  let w := recWord (s.hostBytes addr 128)
  let n := bits (w 7) 39 32
  { hbmq := w 0, t1q := w 1, t2q := w 2
    bwrt := bits (w 3) 31 24, bwint := bits (w 3) 23 16, bwbulk := bits (w 3) 15 8, bwbg := bits (w 3) 7 0
    slice := bits (w 4) 63 32
    tokens := bits (w 5) 47 16, tokcore := bits (w 5) 15 8
    cmprmask := BitVec.ofNat 16 (bits (w 6) 63 48), collmask := BitVec.ofNat 16 (bits (w 6) 47 32)
    copymask := BitVec.ofNat 32 (bits (w 6) 31 0)
    types := n, qbudget := bits (w 7) 31 24, detred := (w 7).testBit 16, keyslot := bits (w 7) 13 8
    berylmask := BitVec.ofNat 4 (bits (w 7) 3 0)
    typeTable := (wordsOf (s.hostBytes (w 8 / 64 * 64) (8 * n)) n).map (BitVec.ofNat 64)
    vtoff := BitVec.ofNat 64 (w 9), vtscale := BitVec.ofNat 64 (w 10), vtbase := BitVec.ofNat 64 (w 11)
    vtfloor := BitVec.ofNat 64 (w 12)
    reservedZero := bits (w 3) 63 32 == 0 && bits (w 4) 31 0 == 0 && bits (w 5) 63 48 == 0 && bits (w 5) 7 0 == 0 &&
      bits (w 7) 63 40 == 0 && bits (w 7) 23 17 == 0 && bits (w 7) 15 14 == 0 && bits (w 7) 7 4 == 0 && w 8 % 64 == 0 &&
      w 13 == 0 && w 14 == 0 && w 15 == 0 }

/-! ### The network record (Tables 6.3, 6.4, 6.8) -/

/-- Fields of the 64 B header. -/
structure NetHeader where
  reserved : Nat
  version : Nat
  magic : Nat
  nproc : Nat
  nchan : Nat
  ngang : Nat
  nlevel : Nat
  nphase : Nat
  procs : Nat
  chans : Nat
  gangs : Nat
  levels : Nat
  phases : Nat
  sched : Nat
  code : Nat
  codeLen : Nat
  data : Nat
  dataLen : Nat
  power : Nat
  handler : Option Nat
  heapT1 : Bool
  heapPg : Nat
  deriving DecidableEq, Repr

def readHeader (bs : List Byte) : NetHeader :=
  let w (j hi lo : Nat) : Nat := bits (recWord bs j) hi lo
  { reserved := w 0 63 48, version := w 0 47 32, magic := w 0 31 0
    nproc := w 1 63 48, nchan := w 1 47 32, ngang := w 1 31 16, nlevel := w 1 15 8, nphase := w 1 7 0
    procs := w 2 63 32, chans := w 2 31 0, gangs := w 3 63 32, levels := w 3 31 0, phases := w 4 63 32, sched := w 4 31 0
    code := w 5 63 32, codeLen := w 5 31 0, data := w 6 63 32, dataLen := w 6 31 0, power := w 7 63 48
    handler := if w 7 47 32 = 0xFFFF then none else some (w 7 47 32), heapT1 := w 7 31 31 == 1, heapPg := w 7 30 0 }

/-- `n` gangs from an offset on: member count and member indices (Table 6.4). -/
def readGangs (bs : List Byte) : Nat → Nat → List (List Nat)
  | 0, _ => []
  | n + 1, off =>
    let m := min (leNat ((bs.drop off).take 8)) 65535
    ((List.range m).map fun j => leNat ((bs.drop (off + 8 + 2 * j)).take 2)) :: readGangs bs n (off + 8 + 2 * m)

/-- `n` schedule tables from an offset on: entry count and entries. -/
def readTables (bs : List Byte) : Nat → Nat → List (List Word)
  | 0, _ => []
  | n + 1, off =>
    let m := min (leNat ((bs.drop off).take 8)) (bs.length / 8)
    ((wordsOf (bs.drop (off + 8)) m).map (BitVec.ofNat 64)) :: readTables bs n (off + 8 + 8 * m)

/-- A destination of a phase header (Table 6.8). -/
def readDest (w : Nat) : PDest := { count := bits w 63 48, module := bits w 47 38, part := bits w 37 32, net := bits w 31 0 }

/-- `n` phase headers from an offset on, and whether their reserved bits are zero. -/
def readPhases (bs : List Byte) : Nat → Nat → List NetPhase × Bool
  | 0, _ => ([], true)
  | n + 1, off =>
    let w := leNat ((bs.drop off).take 8)
    let m := bits w 59 56 + 1
    let r := readPhases bs n (off + 8 + 8 * m)
    ({ slot := bits w 63 60, dests := (wordsOf (bs.drop (off + 8)) m).map readDest } :: r.1, bits w 55 0 == 0 && r.2)

/-- Offsets are 8-aligned, counts within their ranges, and the sections of fixed length lie inside the record. -/
def shapeOk (bs : List Byte) : Bool :=
  let h := readHeader bs
  decide (64 ≤ bs.length) && [h.procs, h.chans, h.gangs, h.levels, h.phases, h.sched, h.code, h.data].all (fun o => o % 8 == 0) &&
    decide (1 ≤ h.nproc) && decide (h.nphase ≤ 16) && h.codeLen % 4 == 0 &&
    [(h.procs, 32 * h.nproc), (h.chans, 16 * h.nchan), (h.gangs, 8 * h.ngang), (h.levels, 16 * h.nlevel), (h.phases, 8 * h.nphase),
     (h.code, h.codeLen), (h.data, h.dataLen)].all fun e => e.2 == 0 || decide (e.1 + e.2 ≤ bs.length)

/-- A network image is a reading of the bytes of a record: it agrees with the header, and with every section whose layout the spec
gives. What lies where in the 32 B of a process, the 16 B of a channel and of a level, and where the `.type` list and the `.spad`
image stand, the spec does not say: any reading of those is one (log entry 97). -/
def imgReads (bs : List Byte) (img : NetImage) : Bool :=
  let h := readHeader bs
  let data := (bs.drop h.data).take h.dataLen
  let tables := readTables bs h.nproc h.sched
  img.procs.length == h.nproc && img.chans.length == h.nchan && img.levels.length == h.nlevel &&
    img.gangs == readGangs bs h.ngang h.gangs && img.phases == (readPhases bs h.nphase h.phases).1 &&
    img.code.flatMap (fun w => leBytes 4 w.toNat) == (bs.drop h.code).take h.codeLen &&
    (img.data ++ img.rodata == data || img.rodata ++ img.data == data) &&
    img.procs.all (fun p => p.sched == [] || tables.contains p.sched) &&
    img.power == h.power && img.handler == h.handler && img.heapT1 == h.heapT1 && img.heapPg == h.heapPg

/-- The reading that the machine's own schedule goes by: nothing where the spec does not say where it stands. -/
def plainImage (bs : List Byte) : NetImage :=
  let h := readHeader bs
  { procs := List.replicate h.nproc {}, chans := List.replicate h.nchan { ty := 0, depth := 0 }
    levels := List.replicate h.nlevel { depth := 1, domain := .host, scope := .fab }
    gangs := readGangs bs h.ngang h.gangs, phases := (readPhases bs h.nphase h.phases).1
    code := (List.range (h.codeLen / 4)).map fun j => BitVec.ofNat 32 (leNat ((bs.drop (h.code + 4 * j)).take 4))
    data := (bs.drop h.data).take h.dataLen, power := h.power, handler := h.handler, heapT1 := h.heapT1, heapPg := h.heapPg }

end Sys2Proof.Machine
end

