-- ==== Sys2Proof/Machine/Firmware.lean ====
section
/-! DEFINITION. What the firmware does for a command as such (R50, R53, R54, R57): an entry begins, its queue is checked, it
completes; and the pages, tables and partitions that firmware keeps (R61 to R65, R82, R89 to R91). -/

namespace Sys2Proof.Machine

/-! ### A command begins and completes (R48, R50, R53, R54, R57) -/

/-- The partition that a function serves; none for PF0. -/
def partOfFn (fn : Nat) : Option Nat := if fn = 0 then none else some (fn - 1)

/-- The entry at the head of a queue's ring, as host memory holds it (R49). -/
def State.headEntry (s : State) (q : Queue) : Entry := s.readEntry (q.base.toNat + 64 * q.head)

/-- Entry `e` may begin: its queue holds a slot, it is the next that the queue reads and a notify has covered it, and no earlier entry
of the queue is open where it carries FENCE. In recovery the firmware queue of PF0 alone is served (R57). -/
def State.nextEntry (s : State) (e : EntryRef) : Option Entry :=
  let q := s.queue (queueKey e.fn e.q)
  if q.bound && q.enable && q.seen == e.idx && q.head != q.tail && (!s.recovery || (e.fn == 0 && e.q == 0)) then
    let x := s.headEntry q
    if x.fence && q.entries.any (fun f => f.2.status == .pending) then none else some x
  else none

/-- The device reads the entry. -/
def State.beginEntry (s : State) (e : EntryRef) : State :=
  let k := queueKey e.fn e.q
  let q := s.queue k
  s.setQueue k { q with head := (q.head + 1) % q.size, consumed := q.consumed + 1, seen := q.seen + 1
                        entries := nset q.entries e.idx (s.headEntry q) }

/-- Where a command is accepted (Table 3.6). -/
inductive From where
  | f | fm | fmu
  deriving DecidableEq, Repr

def From.accepts (w : From) (e : EntryRef) : Bool :=
  match w with
  | .f => e.fn == 0
  | .fm => e.fn == 0 || e.q == 0
  | .fmu => true

/-- Complete with INVALID where no rule numbers the failed check: RESULT is open. -/
def State.invalid (s : State) (e : EntryRef) : State := let d := s.draw; d.1.complete e .invalid d.2

/-- An interface that R48 protects: the partition's own, or its parent's. -/
def lockedPart (s : State) (part : Nat) : Bool :=
  let l (p : Nat) : Bool := match (s.fn (fnOf p)).tdisp with | .locked | .run => true | _ => false
  l part || (match (s.part part).parent with | some p => l p | none => false)

/-- The prologue of every command: the entry begins and fails on a reserved field, in recovery, on an opcode that no queue carries (R54),
on a queue that does not carry it, or, from PF0, on a locked interface. Otherwise the body runs, with the partition the queue serves.
Any other entry, or none, leaves the machine as it is. DESIGN CHOICE (log entry 98): the spec does not say which status wins where
several failures apply, nor RESULT of a completion other than OK and INVALID; the model takes the order above, and 0. -/
def runCmd (s : State) (e : EntryRef) (w : From) (query : Bool) (mine : Cmd → Bool) (locks : Entry → Option Nat)
    (body : State → Entry → State) : Host.Outcome State Fault Refusal :=
  match s.nextEntry e with
  | none => .next s
  | some x =>
    let bad := match x.cmd with | .invalid | .attest => true | _ => false
    let attest := match x.cmd with | .attest => true | _ => false
    if !bad && !mine x.cmd then .next s
    else
      let s := s.beginEntry e
      if !x.reservedZero then .next (s.invalid e)
      else if s.recovery && !query && !attest then .next (s.complete e .recovery 0)
      else if bad then .next (s.invalid e)
      else if !w.accepts e then .next (s.complete e .priv 0)
      else if e.fn = 0 && (match locks x with | some p => lockedPart s p | none => false) then .next (s.complete e .locked 0)
      else .next (body s x)

/-- The partition a command acts on: the queue's own, or the PART byte on PF0 (Table 3.4). -/
def targetPart (e : EntryRef) (x : Entry) : Nat := (partOfFn e.fn).getD x.part

def State.partLive (s : State) (part : Nat) : Bool := (nget? s.parts part).isSome

/-! ### Grants of pages (R29, R91, R112) -/

/-- Pages of a tier that are populated: first page and count of each run. The last 2,048 pages of each LPDDR6 stack are held back
for redirected save streams (R112). -/
def populated (s : State) (tier : Nat) : List (Nat × Nat) :=
  match tier with
  | 0 => [(0, 8388608)]
  | 1 => [(0x2000000, 33554432 - 8 * 2048)]
  | _ => [0, 1, 2, 3].map fun d => (0x10000000 + d * 0x4000000, cxlBytes s d / 2 ^ 16)

/-- Take a run of pages out of runs. -/
def cutRun (first count : Nat) (l : List (Nat × Nat)) : List (Nat × Nat) :=
  l.flatMap fun r =>
    let hi := min (first + count) (r.1 + r.2)
    let lo := max first r.1
    if hi ≤ lo then [r]
    else [(r.1, lo - r.1), (hi, r.1 + r.2 - hi)].filter fun x => 0 < x.2

/-- The lowest `n` pages of runs, as runs; none where there are fewer. -/
def takeRuns (n : Nat) (l : List (Nat × Nat)) : Option (List (Nat × Nat)) :=
  match l with
  | [] => if n = 0 then some [] else none
  | r :: t =>
    if n = 0 then some []
    else if n ≤ r.2 then some [(r.1, n)]
    else (takeRuns (n - r.2) t).map fun l => r :: l

def countRuns (l : List (Nat × Nat)) : Nat := l.foldl (fun n r => n + r.2) 0

/-- Pages of a tier that no partition has been granted, or that a parent may give a child: its grants but those in use. -/
def grantable (s : State) (parent : Option Nat) (tier : Nat) : List (Nat × Nat) :=
  match parent with
  | none =>
    (s.parts.filter fun e => e.2.level == 1).foldl (fun l e =>
      let held := ((rotationAll s e.1).flatMap fun p => (s.part p).grants.filterMap fun g => if g.1 = tier then some g.2 else none) ++
        (if tier = 0 then (rotationAll s e.1).flatMap fun p => (s.part p).resv else [])
      held.foldl (fun l r => cutRun r.1 r.2 l) l) (populated s tier)
  | some p =>
    (s.busyPages p).foldl (fun l f => cutRun f 1 l)
      ((s.part p).grants.filterMap fun g => if g.1 = tier then some g.2 else none)
where
  rotationAll (s : State) (p : Nat) : List Nat := p :: (s.parts.filter fun e => e.2.parent == some p).map Prod.fst

/-! ### Page tables (R89, R90) -/

/-- A free page of the partition in a tier, from any stack, zeroed. -/
def State.anyPage (s : State) (part tier : Nat) : Option (State × Nat) :=
  [0, 1, 2, 3, 4, 5, 6, 7].findSome? fun st =>
    if 0 < s.freePages part tier st then
      match s.pickPage part tier st with
      | (s, some f) => some ({ s with mem := clearBytes s.mem (f * 2 ^ 16) (2 ^ 16) }, f)
      | (_, none) => none
    else none

/-- A table entry: valid, with its low fields. -/
def pteWord (leaf w x pin : Bool) (addr : Nat) : Nat :=
  2 ^ 63 + (if leaf then 2 ^ 62 else 0) + (if w then 2 ^ 59 else 0) + (if x then 2 ^ 58 else 0) + (if pin then 2 ^ 56 else 0) + addr

/-- The table that an entry names; a new one of zeros, in a page of its own, where it is invalid. -/
def State.subTable (s : State) (part pa : Nat) : Option (State × Nat) :=
  let e := s.pte pa
  if pteV e then some (s, pteAddr e)
  else
    (s.anyPage part 0).map fun r =>
      ({ r.1 with mem := writeBytes r.1.mem (r.1.live pa) (leBytes 8 (pteWord false false false false (r.2 * 2 ^ 16))) }, r.2 * 2 ^ 16)

/-- Write the leaf entry of a 64 KiB page. -/
def State.mapEntry (s : State) (part vpn e : Nat) : Option State := do
  let off := vpn * 2 ^ 16
  let (s, t2) ← s.subTable part ((s.part part).ptroot.toNat + 8 * bits off 50 39)
  let (s, t3) ← s.subTable part (t2 + 8 * bits off 38 30)
  let (s, t4) ← s.subTable part (t3 + 8 * bits off 29 21)
  let pa := t4 + 8 * bits off 20 16
  some { s with mem := writeBytes s.mem (s.live pa) (leBytes 8 e) }

/-- Map a page with its permissions. -/
def State.mapPage (s : State) (part vpn frame : Nat) (w x pin : Bool) : Option State :=
  s.mapEntry part vpn (pteWord true w x pin (frame * 2 ^ 16))

/-- The first run of `n` unmapped virtual pages at or above `v`. -/
def State.freeRun (s : State) (part n : Nat) : Nat → Nat → Nat
  | 0, v => v
  | f + 1, v => if (List.range n).any fun j => (s.leafOf part (v + j)).isSome then s.freeRun part n f (v + 1) else v

/-- Map `n` new pages at the next free virtual pages: the first of them, and the frames. DESIGN CHOICE (log entry 99): the spec does not
say from which tier the pages of an image come; the model takes tier 0. -/
def State.mapRun (s : State) (part n : Nat) (w x pin : Bool) : Option (State × Nat × List Nat) := do
  let v := s.freeRun part n 4096 (s.part part).vnext
  let r ← (List.range n).foldlM (fun (a : State × List Nat) j => do
    let (t, f) ← a.1.anyPage part 0
    let t ← t.mapPage part (v + j) f w x pin
    some (t, a.2 ++ [f])) (s, [])
  some (r.1.modPart part fun q => { q with vnext := v + n }, v, r.2)

/-- Write bytes over the frames of a run. -/
def writeRun (m : List Host.Cell) (frames : List Nat) (bs : List Byte) : List Host.Cell :=
  match frames with
  | [] => m
  | f :: t => writeRun (writeBytes m (f * 2 ^ 16) (bs.take (2 ^ 16))) t (bs.drop (2 ^ 16))

/-- What a command of the host writes into memory counts as a host write (R211). -/
def State.bumpRange (s : State) (k n : Nat) : State := (granulesOf k n).foldl State.bump s

/-- Pages that hold `n` bytes. -/
def pagesFor (n : Nat) : Nat := (n + 65535) / 65536

/-! ### Budgets (R64, R65) -/

/-- Fields written as zero take their Reset value (Table 4.1). -/
def Budget.norm (b : Budget) (now : Word) : Budget :=
  { b with
    slice := if b.slice = 0 then 1000 else b.slice
    tokcore := if b.tokcore = 0 then 4 else b.tokcore
    qbudget := if b.qbudget = 0 then 20 else b.qbudget
    vtscale := if b.vtscale = 0 then 0x100000000 else b.vtscale
    vtbase := if b.vtbase = 0 then now else b.vtbase }

/-- Pages that firmware keeps of a partition: save area, node table and spill table (R82, R207, R301). -/
def reservedPages (mask : BitVec 64) : Nat := 128 * (clustersOf mask).length + 512 + 16

/-- The pages a creation grants (R65, R91): a level-1 partition's whole quota out of the capacity left; a child's quota, or as
many of its parent's free pages as there are, `least` of them at least (log entry 79). -/
def grantFrom (parent : Option Nat) (least n : Nat) (l : List (Nat × Nat)) : Option (List (Nat × Nat)) :=
  match parent with
  | none => takeRuns n l
  | some _ => if countRuns l < min n least then none else takeRuns (min n (countRuns l)) l

/-- The limits of R64 and R65 against the parent and the siblings, and a VTBASE above the device time (R74): the status of the first that
fails. The pool of 2,048 tokens at 2,600 W scales with the power limit of the configuration record (log entry 100). -/
def budgetFails (s : State) (parent : Option Nat) (ts : Bool) (mask : BitVec 64) (b : Budget) : Option Status :=
  let sibs := (s.parts.filter fun e => e.2.parent == parent).map Prod.snd
  let sum (f : Budget → Nat) : Nat := sibs.foldl (fun n q => n + f q.budget) (f b)
  let top : Budget := match parent with
    | some p => (s.part p).budget
    | none => { tokens := 2048 * s.flash.config.power / 2600, tokcore := 16, cmprmask := BitVec.allOnes 16, collmask := BitVec.allOnes 16
                copymask := BitVec.allOnes 32, berylmask := BitVec.allOnes 4 }
  let most : Status := if parent.isNone then .nospace else .invalid
  let pages (t : Nat) (f : Budget → Nat) : Bool :=
    decide (sum f ≤ match parent with | some _ => f top | none => countRuns (populated s t))
  let apart := sibs.filter fun q => !(ts && q.timeShared)
  let meets (q : Part) : Bool :=
    (q.budget.cmprmask &&& b.cmprmask) != 0 || (q.budget.collmask &&& b.collmask) != 0 ||
      (q.budget.copymask &&& b.copymask) != 0 || (q.budget.berylmask &&& b.berylmask) != 0
  let checks : List (Bool × Status) :=
    [(b.reservedZero, .invalid), (decide (b.hbmq ≤ 8388608), .invalid),
     (decide (50 ≤ b.slice) && decide (b.slice ≤ 100000), .invalid), (decide (1 ≤ b.tokcore) && decide (b.tokcore ≤ 16), .invalid),
     (decide (1 ≤ b.types) && decide (b.types ≤ 128) && b.typeTable.length == b.types, .invalid),
     (decide (1 ≤ b.qbudget) && decide (b.qbudget ≤ 255), .invalid), (decide (b.vtbase.toNat ≤ s.time.toNat), .invalid), (decide (b.keyslot ≤ 63), .invalid),
     (decide (sum Budget.bwrt ≤ 256) && decide (sum Budget.bwint ≤ 256) && decide (sum Budget.bwbulk ≤ 256) &&
       decide (sum Budget.bwbg ≤ 256), .invalid),
     (pages 0 Budget.hbmq && pages 1 Budget.t1q && pages 2 Budget.t2q, most),
     (decide (sum Budget.tokens ≤ top.tokens), most), (decide (b.tokcore ≤ top.tokcore), .invalid),
     ((b.cmprmask &&& ~~~top.cmprmask) == 0 && (b.collmask &&& ~~~top.collmask) == 0 && (b.copymask &&& ~~~top.copymask) == 0 &&
       (b.berylmask &&& ~~~top.berylmask) == 0, .invalid),
     (!apart.any meets, .invalid), (!s.parts.any fun e => e.2.budget.keyslot == b.keyslot, .invalid),
     (decide (reservedPages mask ≤ b.hbmq), .nospace)]
  (checks.find? fun c => !c.1).map Prod.snd

/-- Complete a command that a check has failed. -/
def State.failCmd (s : State) (e : EntryRef) (st : Status) : State :=
  if st = .invalid then s.invalid e else s.complete e st 0

/-! ### Creation (R61, R62, R82) -/

/-- Queues granted on the device, the firmware queue among them (R49). -/
def queuesGranted (s : State) : Nat := s.parts.foldl (fun n e => n + e.2.queues) 1

/-- Make a partition of a checked budget: identifier, pages, level-1 table, memory key, function and queues. -/
def State.makePart (s : State) (e : EntryRef) (level : Nat) (parent : Option Nat) (ts : Bool) (mask : BitVec 64) (b : Budget)
    (queues ring : Nat) : State :=
  let id := nfree s.parts 64 0
  let give (tier n : Nat) : Option (List (Nat × Nat)) := grantFrom parent (if tier = 0 then reservedPages mask else 0) n (grantable s parent tier)
  match budgetFails s parent ts mask b, give 0 b.hbmq, give 1 b.t1q, give 2 b.t2q with
  | some st, _, _, _ => s.failCmd e st
  | none, some g0, some g1, some g2 =>
    if 64 ≤ id ∨ 4096 < queuesGranted s + queues then s.complete e .nospace 0
    else
      let orig := s
      let rs := (takeRuns (reservedPages mask) g0).getD []
      let p0 := rs.foldl (fun l r => cutRun r.1 r.2 l) g0
      let tag (t : Nat) (l : List (Nat × Nat)) : List (Nat × Nat × Nat) := l.map fun r => (t, r.1, r.2)
      -- a child's pages leave its parent's grants
      let s := match parent with
        | none => s
        | some p =>
          let left (q : Part) (t : Nat) (l : List (Nat × Nat)) : List (Nat × Nat × Nat) :=
            tag t (l.foldl (fun m (r : Nat × Nat) => cutRun r.1 r.2 m)
              (q.grants.filterMap fun (g : Nat × Nat × Nat) => if g.1 = t then some g.2 else none))
          s.modPart p fun q => { q with grants := left q 0 g0 ++ left q 1 g1 ++ left q 2 g2 }
      let q : Part :=
        { level := level, parent := parent, timeShared := ts, clusters := mask, budget := b, queues := queues, ringAddr := ring
          vtbase := b.vtbase, vtscale := b.vtscale, vtoff := b.vtoff, vtfloor := b.vtfloor
          grants := tag 0 p0 ++ tag 1 g1 ++ tag 2 g2, resv := rs, epochAt := s.cycle }
      let s := s.setPart id q
      match s.anyPage id 0 with
      | none => orig.complete e .nospace 0
      | some (s, root) =>
        let s := s.modPart id fun q => { q with ptroot := BitVec.ofNat 64 (root * 2 ^ 16) }
        let s : State := { s with memKeys := nset s.memKeys b.keyslot s.nextId, nextId := s.nextId + 1 }
        let s := s.setFn (fnOf id) { enabled := true }
        let s := (List.range queues).foldl (fun (s : State) k =>
          let key := queueKey (fnOf id) k
          s.setQueue key { entries := (s.queue key).entries, seen := (s.queue key).seen }) s
        s.complete e .ok (BitVec.ofNat 64 id)
  | none, _, _, _ => s.complete e .nospace 0

/-- PARTCREATE (R61, R62, R64, R65). -/
def execPartcreate (e : EntryRef) (s : State) : Host.Outcome State Fault Refusal :=
  runCmd s e .f false (fun c => match c with | .partcreate .. => true | _ => false) (fun _ => none) fun s x =>
    match x.cmd with
    | .partcreate mask addr queues ring =>
      let taken := s.parts.any fun q => q.2.level == 1 && (q.2.clusters &&& mask) != 0
      if mask = 0 ∨ taken ∨ (mask &&& ~~~s.flash.config.clusters) ≠ 0 then s.invalid e
      else s.makePart e 1 none false mask ((s.readBudget addr).norm s.time) queues ring
    | _ => s

/-- A parent's instance is placed on one of the clusters. -/
def placedOn (s : State) (part : Nat) (mask : BitVec 64) : Bool :=
  s.procs.any fun e => partOf e.1 == part && e.2.engine.isNone && e.2.st != .exited && mask.getLsbD (clusterOf e.2.core)

/-- PARTSPLIT (R61, R62). -/
def execPartsplit (e : EntryRef) (s : State) : Host.Outcome State Fault Refusal :=
  runCmd s e .fm false (fun c => match c with | .partsplit .. => true | _ => false)
    (fun x => match x.cmd with | .partsplit p .. => some p | _ => none) fun s x =>
    match x.cmd with
    | .partsplit p mask ts addr queues ring =>
      let q := s.part p
      let clash := s.parts.any fun c =>
        c.2.parent == some p && (c.2.clusters &&& mask) != 0 && !(ts && c.2.timeShared)
      if !s.partLive p then s.complete e .notfound 0
      else if q.level ≠ 1 ∨ (e.fn ≠ 0 ∧ fnOf p ≠ e.fn) ∨ mask = 0 ∨ (mask &&& ~~~q.clusters) ≠ 0 ∨ clash then s.invalid e
      else if placedOn s p mask then s.complete e .nospace 0
      else s.makePart e 2 (some p) ts mask ((s.readBudget addr).norm s.time) queues ring
    | _ => s

/-! ### Destruction (R63) -/

/-- Read the next `n` entries of a queue, and complete each with ABORTED. -/
def State.abortNext (s : State) (fn q : Nat) : Nat → State
  | 0 => s
  | n + 1 =>
    let e : EntryRef := { fn := fn, q := q, idx := (s.queue (queueKey fn q)).seen }
    ((s.beginEntry e).complete e .aborted 0).abortNext fn q n

/-- Entries of a partition's queues that have not completed: those under way, and those that a notify has covered. -/
def State.abortEntries (s : State) (part : Nat) : State :=
  let fn := fnOf part
  (s.queues.filter fun e => e.1 / 2 ^ 16 == fn).foldl (fun s e =>
    let j := e.1 % 2 ^ 16
    let s := (e.2.entries.filter fun f => f.2.status == .pending).foldl (fun s f =>
      s.complete { fn := fn, q := j, idx := f.1 } .aborted 0) s
    let s := if e.2.enable then s.abortNext fn j ((e.2.tail + e.2.size - e.2.head) % e.2.size) else s
    s.setQueue e.1 { s.queue e.1 with enable := false, bound := false, pending := false }) s

/-- The entry that waits for a stop (R79). -/
def Stop.entry : Stop → Option EntryRef
  | .slice => none
  | .preempt e | .save e => some e
  | .migrate e _ => some e

/-- Complete with ABORTED the entries of a partition's instances, the waiting entries of its objects, and the entry, of whatever queue,
that waits for its stop. -/
def State.abortRuns (s : State) (part : Nat) : State :=
  let es := (s.insts.filter fun e => e.2.part == part).filterMap fun e => e.2.entry
  let ws := (s.objs.filter fun e => e.2.part == part).flatMap fun e => e.2.waiting.map Waiting.entry
  let zs := (((s.part part).quies.bind fun z => z.why.entry).toList)
  (es ++ ws ++ zs).foldl (fun s e => s.complete e .aborted 0) s

/-- Take everything of a partition out of the machine: processes, transactions, records and tables. -/
def State.clearPart (s : State) (part : Nat) : State :=
  let q := s.part part
  let mine (f : Nat) : Bool := s.owns part f
  let txn (t : Nat) : Bool := match nget? s.txns t with | some x => x.part == part | none => false
  let tlb (l : List TlbEnt) : List TlbEnt := l.filter fun e => e.part != part
  let arms (l : List Arm) : List Arm := l.filter fun a => partOf a.proc != part
  { s with
    cores := s.cores.map fun e =>
      (e.1, { (if q.clusters.getLsbD (clusterOf e.1) && (!q.timeShared || q.slice.isSome) then
                 ({ tlb := e.2.tlb, spare := e.2.spare } : Core) else e.2) with tlb := tlb e.2.tlb })
    clusters := s.clusters.map fun e => (e.1, { e.2 with tlb := tlb e.2.tlb, monitors := arms e.2.monitors })
    engines := s.engines.map fun e =>
      (e.1, { e.2 with tlb := tlb e.2.tlb, sideLog := e.2.sideLog.filter (·.part != part), forks := e.2.forks.filter (!txn ·) })
    windows := s.windows.map fun e => (e.1, e.2.filter fun w => !txn w.1)
    xmsgs := s.xmsgs.filter fun m => !mine (m.key / 2 ^ 16)
    gangs := s.gangs.filter fun e => e.2.part != part
    motions := s.motions.filter fun e => e.2.part != part
    grans := s.grans.filter fun e => e.2.part != part
    tokens := s.tokens.filter fun e => e.2.part != part
    hot := s.hot.filter fun e => !mine e.1
    lineCount := s.lineCount.filter fun e => !mine e.1
    recs := s.recs.filter fun e => partOf e.2.handle != part
    managed := s.managed.filter fun id => match nget? s.recs id with | some r => partOf r.handle != part | none => false
    procs := s.procs.filter fun e => partOf e.1 != part
    txns := s.txns.filter fun e => e.2.part != part
    insts := s.insts.filter fun e => e.2.part != part
    objs := s.objs.filter fun e => e.2.part != part }

/-- Zero every page of a partition in every tier. -/
def State.scrub (s : State) (part : Nat) : State :=
  let q := s.part part
  let runs := q.resv ++ q.grants.map Prod.snd
  { s with mem := runs.foldl (fun m r => clearBytes m (r.1 * 2 ^ 16) (r.2 * 2 ^ 16)) s.mem }

/-- The page motions of a partition abort with CAUSE 5 (R103). -/
def State.stopMotions (s : State) (part : Nat) : State :=
  (s.motions.filter fun v => v.2.part == part && v.2.st != .forwarding).foldl (fun s v => s.abortMotion v.1 v.2 .stopped) s

/-- The last records of a partition's event ring: its instances end (R178). -/
def State.lastWords (s : State) (part : Nat) : List Event :=
  (s.insts.filter fun e => e.2.part == part).map fun e =>
    Event.instanceEnd e.1 ((s.procs.filter fun p => p.2.inst == e.1 && p.2.engine.isNone).foldl (fun f p => f ||| p.2.flags) e.2.flagWord)
      (s.entryTag e.1)

/-- The steps of R63 for one partition that has no children. Its pages go back to where they came from. -/
def State.destroyOne (s : State) (part : Nat) : State :=
  let q := s.part part
  let fn := fnOf part
  let s := (s.setFn fn { s.fn fn with tdisp := .error }).stopMotions part
  let s := (s.lastWords part).foldl (fun s e => s.ringPart part e) s
  let past := s.pastRing ++ (s.part part).ring.map fun e => (part, e)
  let s := s.abortRuns part
  let s := (s.abortEntries part).scrub part
  let s := s.clearPart part
  let s : State := { s with memKeys := ndel s.memKeys q.budget.keyslot, keys := s.keys.filter fun e => e.2.localPart != part }
  let next := if q.slice.isSome then nextChild s part else none
  let s : State := { s with parts := ndel s.parts part, pastRing := past }
  let s := match q.parent with
    | none => s
    | some p => s.modPart p fun r => { r with grants := r.grants ++ q.grants ++ q.resv.map fun (g : Nat × Nat) => (0, g.1, g.2) }
  let s := s.setFn fn { s.fn fn with enabled := false, session := none, ideKey := none }
  match next with
  | some k => if k = part then s else s.beginSlice k
  | none => s

/-- R63: children first, in ascending order. -/
def State.destroyPart (s : State) (part : Nat) : State :=
  let kids := (s.parts.filter fun e => e.2.parent == some part).map Prod.fst
  (kids.foldl State.destroyOne s).destroyOne part

/-- PARTDESTROY: accepted from PF0 in every interface state (R48). -/
def execPartdestroy (e : EntryRef) (s : State) : Host.Outcome State Fault Refusal :=
  runCmd s e .fm false (fun c => match c with | .partdestroy _ => true | _ => false) (fun _ => none) fun s x =>
    match x.cmd with
    | .partdestroy p =>
      if !s.partLive p then s.complete e .notfound 0
      else if e.fn ≠ 0 ∧ (s.part p).parent ≠ partOfFn e.fn then s.invalid e
      else (s.destroyPart p).complete e .ok 0
    | _ => s

end Sys2Proof.Machine
end

