-- ==== Sys2Proof/Machine/Launch.lean ====
section
/-! DEFINITION. Networks: NETLOAD (R55, R114, R117, R119, R124, R305, R367, R384), placement and LAUNCH (R67, R98, R118, R121, R139,
R142, R147, R370, R378, R379), REPLAY (R56), SIGNAL (R55, R311) and the end of an instance (R56, R178). -/

namespace Sys2Proof.Machine

/-! ### NETLOAD -/

/-- The fields of a type entry that must agree (R124): BYTES, TILE, FMT and COUNT. -/
def typeFields (w : Word) : Nat := w.toNat % 2 ^ 32 - (if w.getLsbD 14 then 2 ^ 14 else 0)

/-- The lowest-numbered entry of the partition's table that matches each type of a network (R124). -/
def matchTypes (s : State) (part : Nat) (img : NetImage) : Option (List Nat) :=
  img.types.mapM fun w => (findAt (fun v => typeFields v == typeFields w) (s.part part).budget.typeTable).map Prod.fst

/-- Receive ends that the parameters of the processes name, by process. -/
def rxNames (img : NetImage) : List (Nat × Nat) :=
  img.procs.zipIdx.flatMap fun e => e.1.params.filterMap fun v => match v with | .rx c => some (e.2, c) | _ => none

/-- What NETLOAD rejects without a numbered check: a receive end named by two processes (R367) or by a spawned one (R305), and a
count above 1 on a depth-0 channel (R114). -/
def netBad (img : NetImage) : Bool :=
  let rx := rxNames img
  let twice := rx.any fun a => rx.any fun b => a.2 == b.2 && a.1 != b.1
  let spawned := rx.any fun a => (img.procs.getD a.1 {}).spawned
  let many := img.procs.any fun p => p.counts.any fun c =>
    decide (1 < c.2) && (match p.params[c.1]? with
      | some (.rx k) | some (.tx k) => (match img.chans[k]? with | some d => d.depth == 0 | none => false)
      | _ => false)
  twice || spawned || many

/-- Entries of all schedule tables (R139). -/
def schedCount (img : NetImage) : Nat := img.procs.foldl (fun n p => n + p.sched.length) 0

/-- Bytes of the data image with the schedule tables after it. -/
def dataBytes (img : NetImage) : Nat := (img.data.length + 7) / 8 * 8 + 8 * schedCount img

/-- The word of a parameter (R19, R119). A `.spad` symbol stands with base 0 until LAUNCH. -/
def paramWord (o : NetObj) (v : PVal) : Word :=
  let h (rx : Bool) (c : Nat) : Nat :=
    (if rx then 2 ^ 31 else 0) + (match o.img.chans[c]? with | some d => o.tys.getD d.ty 0 | none => 0) * 2 ^ 24 + o.chans.getD c 0
  match v with
  | .int w => w
  | .ro off => BitVec.ofNat 64 (o.roVa + off)
  | .data off => BitVec.ofNat 64 (o.dataVa + off)
  | .spad off => BitVec.ofNat 64 (fatOf 2 off)
  | .tx c => BitVec.ofNat 64 (h false c)
  | .rx c => BitVec.ofNat 64 (h true c)

/-- The parameter block of a network object (R119). -/
def paramBlock (o : NetObj) : List Word :=
  o.img.procs.flatMap fun p => (List.range 6).map fun k => match p.params[k]? with | some v => paramWord o v | none => 0

/-- Channel `n` of a partition as NETLOAD or LAUNCH makes it: open, empty, with no holders. -/
def freshChan (part n : Nat) (o : NetObj) (c : NetChan) : Chan :=
  { ty := o.tys.getD c.ty 0, depth := c.depth, bkind := c.bkind, module := c.module, rpart := c.rpart, ep := c.ep
    buf := if c.depth = 0 then 0 else BitVec.ofNat 64 (bufKey part n) }

/-- The lowest free channel numbers of a partition. -/
def freeChans (m : NMap Chan) : Nat → Nat → List Nat
  | 0, _ => []
  | n + 1, k => let j := nfree m (m.length + 1) k; j :: freeChans m n (j + 1)

/-- Bytes of the fault area, the report area and the parameter block of an instance (R119, R144, R169). -/
def areaBytes (img : NetImage) : Nat := 8192 + 48 * img.procs.length

/-- Code and data are placed: pages for the code, executable, for `.rodata`, read-only, for `.data`, writable (R18), and their
bytes, and pages for the areas of its instances; and where each stands. -/
def State.placeImage (s : State) (part : Nat) (img : NetImage) : Option (State × Nat × Nat × Nat × Nat × List Nat) := do
  let code := img.code.flatMap fun w => leBytes 4 w.toNat
  let (s, vc, fc) ← s.mapRun part (pagesFor code.length) false true false
  let (s, vr, fr) ← s.mapRun part (pagesFor img.rodata.length) false false false
  let (s, vd, fd) ← s.mapRun part (pagesFor (dataBytes img)) true false false
  let (s, va, fa) ← s.mapRun part (pagesFor (areaBytes img)) true false true
  some ({ s with mem := writeRun (writeRun (writeRun s.mem fc code) fr img.rodata) fd img.data }, vc * 2 ^ 16, vr * 2 ^ 16,
    vd * 2 ^ 16, va * 2 ^ 16, fa)

/-- A record that passes the checks on its header: magic, version, reserved fields and shape. -/
def headerOk (bs : List Byte) : Bool :=
  let h := readHeader bs
  h.magic == 0x394D494E && h.version == 1 && h.reserved == 0 && shapeOk bs && (readPhases bs h.nphase h.phases).2

/-- The bytes of the record that a NETLOAD at the head of a queue names. -/
def netloadBytes (s : State) (e : EntryRef) : Option (List Byte) :=
  match s.nextEntry e with
  | some x => (match x.cmd with | .netload addr len => s.readArg (targetPart e x) addr len | _ => none)
  | none => none

/-- A move that gives a reading which the bytes of the record do not bear out is none. -/
def misread (s : State) (e : EntryRef) (img : NetImage) : Bool :=
  match netloadBytes s e with | some bs => headerOk bs && !imgReads bs img | none => false

/-- NETLOAD: the checks of R55 in order, on the bytes of the record and, where the spec gives no layout, on the reading `img` of them
(log entry 97). DESIGN CHOICE (log entry 92): a channel's type index counts the network's own `.type` list, so check 4 bounds it by the
number of the network's types. -/
def execNetload (v : Loading) (s : State) : Host.Outcome State Fault Refusal :=
  if misread s v.entry v.image then .next s
  else
  runCmd s v.entry .fm false (fun c => match c with | .netload .. => true | _ => false) (fun _ => none) fun s x =>
    match x.cmd with
    | .netload addr len =>
      let part := targetPart v.entry x
      match (if s.partLive part then s.readArg part addr len else some []) with
      | none => s.invalid v.entry
      | some bs =>
      let h := readHeader bs
      if !s.partLive part then s.complete v.entry .notfound 0
      else if h.magic ≠ 0x394D494E then s.complete v.entry .invalid 1
      else if h.version ≠ 1 then s.complete v.entry .invalid 2
      else if h.reserved ≠ 0 then s.complete v.entry .invalid 3
      else if !shapeOk bs then s.invalid v.entry
      else if !v.image.reservedZero || !(readPhases bs h.nphase h.phases).2 then s.complete v.entry .invalid 3
      else
        match matchTypes s part v.image with
        | none => s.complete v.entry .invalid 4
        | some tys =>
          if v.image.chans.any (fun c => decide (tys.length ≤ c.ty)) || v.image.levels.any (fun l => decide (8 < l.depth)) then
            s.complete v.entry .invalid 4
          else if netBad v.image then s.invalid v.entry
          else
            match s.placeImage part v.image with
            | none => s.complete v.entry .nospace 5
            | some (t, code, ro, data, area, frames) =>
              if (s.part part).budget.tokcore < v.image.power then s.complete v.entry .nospace 6
              else
                let nums := freeChans (t.part part).chans v.image.chans.length 1
                let id := nfree t.objs (t.objs.length + 1) 1
                let o : NetObj := { part := part, img := v.image, codeVa := code, roVa := ro, dataVa := data, chans := nums
                                    tys := tys, block := [], area := area, frames := frames }
                let t := (nums.zip v.image.chans).foldl (fun s c => s.setChan part c.1 (freshChan part c.1 o c.2)) t
                ({ t with objs := nset t.objs id { o with block := paramBlock o } }).complete v.entry .ok (BitVec.ofNat 64 id)
    | _ => s

/-! ### Placement (R118, R121) -/

/-- Processes that LAUNCH starts (R305). -/
def startable (img : NetImage) : List Nat := (img.procs.zipIdx.filter fun e => !e.1.spawned).map Prod.snd

def inGang (img : NetImage) (p : Nat) : Bool := img.gangs.any (·.contains p)
def inLevel (img : NetImage) (p : Nat) : Bool := img.levels.any (·.members.contains p)
/-- A placement, one core for each process of the network, keeps every constraint as to the processes `on` placed so far: own clusters,
levels inside their parents, gangs whole on a cluster with a context for each member, a context for each `context` level, and the
processes that no level covers in rotation over the clusters. -/
def placeOkOn (s : State) (part : Nat) (img : NetImage) (on place : List Nat) : Bool :=
  let own := ownClusters s part
  let core (p : Nat) : Nat := place.getD p 0
  let free := on.filter fun p => !inLevel img p && !inGang img p
  let together (l : List Nat) (d : Domain) : Bool :=
    match l.filter on.contains with
    | [] => true
    | a :: t => t.all fun b => sameDomain d (core a) (core b)
  place.length == img.procs.length && own != [] && on.all (fun p => decide (core p < 512) && own.contains (clusterOf (core p))) &&
    (List.range img.levels.length).all (fun l => together (deepMembers img 8 l) (((img.levels[l]?).map NetLevel.domain).getD .partition)) &&
    img.gangs.all (fun g => decide (g.length ≤ 64) && together g .cluster) &&
    free.zipIdx.all (fun e => clusterOf (core e.1) == own.getD (e.2 % own.length) 0) &&
    on.all fun p =>
      let c := core p
      let solo := on.filter fun q => core q == c && (inGang img q || ctxLevel img q)
      let kept := solo.filter (ctxLevel img)
      decide (solo.length ≤ 8) && decide (kept.length ≤ (spareCtxs s c).length)

/-- The same for every process that LAUNCH starts. -/
def placeOk (s : State) (part : Nat) (img : NetImage) (place : List Nat) : Bool := placeOkOn s part img (startable img) place

/-- The first placement that keeps the constraints, core by core for each process in turn: there is one whenever any keeps them. -/
def searchPlace (s : State) (part : Nat) (img : NetImage) : List Nat → List Nat → List Nat → Option (List Nat)
  | [], _, place => some place
  | p :: t, on, place =>
    (ownCores s part).findSome? fun c =>
      if placeOkOn s part img (on ++ [p]) (place.set p c) then searchPlace s part img t (on ++ [p]) (place.set p c) else none

/-- Give the members of a set one label. -/
def joinLabels (l : List Nat) (ms : List Nat) : List Nat :=
  let ks := ms.map fun m => l.getD m 0
  match ks with
  | [] => l
  | k :: _ => l.map fun x => if ks.contains x then k else x

/-- A placement that firmware tries of itself: sets that must share a cluster or a core go together, clusters and cores in turn. -/
def ownPlace (s : State) (part : Nat) (img : NetImage) : List Nat :=
  let own := ownClusters s part
  let n := img.procs.length
  let lv (ds : List Domain) : List (List Nat) :=
    (List.range img.levels.length).filterMap fun l =>
      match img.levels[l]? with
      | some v => if ds.contains v.domain then some (deepMembers img 8 l) else none
      | none => none
  let clu := (lv [.context, .core, .cluster, .die] ++ img.gangs).foldl joinLabels (List.range n)
  let cor := (lv [.context, .core]).foldl joinLabels (List.range n)
  -- clusters by label, cores by label, free processes seen, groups seen
  let r := (List.range n).foldl (fun (a : NMap Nat × NMap Nat × Nat × Nat × List Nat) p =>
    let (cs, ks, f, g, out) := a
    let lone := !inLevel img p && !inGang img p
    let cl := clu.getD p 0
    let c := (nget? cs cl).getD (own.getD ((if lone then f else g) % max 1 own.length) 0)
    let k := (nget? ks (cor.getD p 0)).getD (c * 8 + p % 8)
    let spawned := (img.procs.getD p {}).spawned
    (if lone then cs else nset cs cl c, if spawned then ks else nset ks (cor.getD p 0) k,
      if lone && !spawned then f + 1 else f, if (nget? cs cl).isNone && !lone then g + 1 else g, out ++ [k])) ([], [], 0, 0, [])
  r.2.2.2.2

/-- The placement of a launch: the part's choice where it keeps the constraints, else one that firmware finds; none where no placement
keeps them. -/
def choosePlace (s : State) (part : Nat) (img : NetImage) (place : List Nat) : Option (List Nat) :=
  if placeOk s part img place then some place
  else
    let l := ownPlace s part img
    if placeOk s part img l then some l
    else searchPlace s part img (startable img) [] (List.replicate img.procs.length 0)

/-! ### What LAUNCH allocates (R67, R98, R370) -/

/-- The lowest offset for a `.spad` image on a set of cores (R370). -/
def spadOffset (s : State) (part : Nat) (img : NetImage) (cores : List Nat) : Option Nat :=
  let al := max 16 img.spadAlign
  let up (n : Nat) : Nat := (n + al - 1) / al * al
  let len := img.spad.length
  let busy := (s.insts.filter fun e => e.2.part == part && e.2.spadCores.any cores.contains).map fun e =>
    (e.2.spadBase, match nget? s.objs e.2.obj with | some o => o.img.spad.length | none => 0)
  let o := busy.foldl (fun o _ =>
    match busy.find? fun b => overlap o len b.1 b.2 with
    | some b => up (b.1 + b.2)
    | none => o) (up 0x400)
  if o + len ≤ 0x3F800 ∧ !busy.any (fun b => overlap o len b.1 b.2) then some o else none

/-- A contiguous heap of `n` free pages of a tier: its first page (R98). -/
def heapRun (s : State) (part tier n : Nat) : Option Nat :=
  let runs := (s.busyPages part).foldl (fun l f => cutRun f 1 l)
    ((s.part part).grants.filterMap fun g => if g.1 = tier then some g.2 else none)
  (runs.find? fun r => n ≤ r.2).map Prod.fst

/-- Tokens charged to a partition by its live instances (R67). -/
def tokensUsed (s : State) (part : Nat) : Nat :=
  (s.insts.filter fun e => e.2.part == part).foldl (fun n e => e.2.tokens.foldl (fun n t => n + t.2) n) 0

/-- Write bytes of a partition's virtual memory, page by page; fuel counts pages. -/
def State.vaWrite (s : State) (part : Nat) : Nat → Nat → List Byte → State
  | 0, _, _ => s
  | f + 1, va, bs =>
    let n := 2 ^ 16 - va % 2 ^ 16
    let s : State := match s.walk part (va / 2 ^ 16) with
      | .ok e =>
        let k := s.live (e.frame * 2 ^ 16 + va % 2 ^ 16)
        ({ s with mem := writeBytes s.mem k (bs.take n) } : State).bumpRange k (bs.take n).length
      | .error _ => s
    if bs.length ≤ n then s else s.vaWrite part f (va + n) (bs.drop n)

/-- A parameter block as the instance starts with it: `.spad` symbols get their offset (R19, R370). DESIGN CHOICE (log entry 131): a word
that a host's block or a patch gives for such a symbol is fixed where it is the symbol's own pointer. -/
def fixBlock (o : NetObj) (base : Nat) (b : List Word) : List Word :=
  b.zipIdx.map fun e =>
    match (o.img.procs.getD (e.2 / 6) ({} : NetProc)).params[e.2 % 6]? with
    | some (PVal.spad off) => if e.1 = BitVec.ofNat 64 (fatOf 2 off) then BitVec.ofNat 64 (fatOf 2 (base + off)) else e.1
    | _ => e.1

/-- A patch on a block (R56). -/
def patchBlock (b : List Word) (l : List (Nat × Word)) : List Word := l.foldl (fun b e => b.set (e.1 / 8) e.2) b

/-- Why the phases of a network cannot be loaded: a `.pdest` that names this module (R378), a slot that a live instance holds
(R142), a remote destination that no instance qualifies for, which the other module knows (R379). -/
def phaseFails (s : State) (part : Nat) (img : NetImage) : Option Status :=
  let far := img.phases.any fun f => f.dests.any fun d => d.module != s.moduleId
  if img.phases.any fun f => (f.dests.drop 1).any fun d => d.module == s.moduleId && d.net == 0 then some .invalid
  else if img.phases.any fun f => (s.phase? part f.slot).isSome then some .nospace
  else if far && !Config.freeBit s.fresh then some .notfound
  else none

/-! ### Starting an instance -/

/-- A process takes hold of the ends that its parameters name (R126, R367). -/
def State.holdEnds (s : State) (part : Nat) (o : NetObj) (k index core : Nat) : State :=
  (o.img.procs.getD index {}).params.foldl (fun s v =>
    match v with
    | .tx c => s.modChan part (o.chans.getD c 0) fun ch => { ch with holders := ch.holders ++ [k] }
    | .rx c => s.modChan part (o.chans.getD c 0) fun ch => { ch with rxproc := k, home := core }
    | _ => s) s

/-- The number that gang `j` of an instance gets, one above the last in use. -/
def gangKey (s : State) (j : Nat) : Nat := s.gangs.foldl (fun a e => max a e.1) 0 + 1 + j

/-- Start one process of an instance: record, ends, and the context that a `context` level keeps for it. -/
def State.startProc (s : State) (part inst : Nat) (o : NetObj) (blockVa : Nat) (gang : Nat) (index core : Nat) : State × Nat :=
  let num := s.freeNum part
  let k := handleOf part num
  let s := s.modPart part fun q => { q with nextProc := num + 1 }
  let s := (s.makeProc k inst index core (BitVec.ofNat 64 (blockVa + 48 * index)) gang).holdEnds part o k index core
  (s.keepCtx o.img index core k, k)

/-- The gangs of a started instance (R121): forming, in the order in which they begin to wait. -/
def State.startGangs (s : State) (part : Nat) (img : NetImage) (base : Nat) (ks : List (Nat × Nat)) : State :=
  img.gangs.zipIdx.foldl (fun s g =>
    let ms := g.1.filterMap fun p => (ks.find? fun e => e.1 == p).map Prod.snd
    let clu := clusterOf (s.proc (ms.headD 0)).core
    { s with gangs := nset s.gangs (base + g.2) { part := part, cluster := clu, members := ms, order := s.nextId }
             nextId := s.nextId + 1 }) s

/-- The phase slots of an instance, held from its start, with every counter loaded (R140, R142). -/
def State.startPhases (s : State) (part inst : Nat) (img : NetImage) : State :=
  let s := img.phases.foldl (fun s f => s.setPhase part f.slot { holder := inst, dests := f.dests }) s
  img.phases.foldl (fun s f => s.loadPhase part f.slot) s

/-- Place and start an instance, or the status with which its entry completes. -/
def State.startRun (s : State) (id : Nat) (w : Waiting) : Except Status State :=
  match nget? s.objs id with
  | none => .error .notfound
  | some o =>
    let part := o.part
    let img := o.img
    match choosePlace s part img w.place with
    | none => .error .nospace
    | some place =>
      let on := startable img
      let cores := (on.map fun p => place.getD p 0).eraseDups
      let b := (s.part part).budget
      let full := cores.any (fun c => decide (b.tokcore < (s.core c).grant + img.power)) ||
        decide (b.tokens < tokensUsed s part + img.power * cores.length)
      match full, spadOffset s part img cores, phaseFails s part img with
      | true, _, _ => .error .nospace
      | _, none, _ => .error .nospace
      | _, _, some st => .error st
      | false, some base, none =>
        let s : State := { s with fresh := s.fresh + 1 }
        let block := fixBlock o base (w.block.getD o.block)
        let tier := if img.heapT1 then 1 else 0
        match (if img.heapPg = 0 then some 0 else heapRun s part tier img.heapPg) with
        | none => .error .nospace
        | some heap =>
          let inst := s.nextId
          let gbase := gangKey s 0
          let vi : Inst :=
            { part := part, obj := id, mgr := w.mgr, entry := some w.entry, block := block, blockVa := o.area + 8192
              heapBase := heap * 2 ^ 16, heapLim := img.heapPg * 2 ^ 16, area := o.area, areaPa := o.frames.headD 0 * 2 ^ 16
              frames := o.frames, report := o.area + 4096, spadBase := base, tokens := cores.map fun c => (c, img.power)
              slots := img.phases.map NetPhase.slot }
          let s : State := { s with
            nextId := s.nextId + 1
            insts := nset s.insts inst vi
            objs := nset s.objs id { o with running := some inst }
            mem := writeRun s.mem o.frames (List.replicate 8192 0 ++ block.flatMap fun w => leBytes 8 w.toNat) }
          let s := o.frames.zipIdx.foldl (fun s f => s.bumpRange (f.1 * 2 ^ 16) (min 65536 (8192 + 8 * block.length - 65536 * f.2))) s
          let s := s.modPart part fun q => { q with used := q.used ++ (List.range img.heapPg).map (heap + ·) }
          let s := cores.foldl (fun s c => s.modCore c fun k => { k with grant := k.grant + img.power, free := k.free + img.power }) s
          let s := (o.chans.zip img.chans).foldl (fun s c => s.setChan part c.1 (freshChan part c.1 o c.2)) s
          let sched := img.procs.flatMap fun p => p.sched.flatMap fun w => leBytes 8 w.toNat
          let s := s.vaWrite part (pagesFor sched.length + 1) (schedAt o 0) sched
          let r := on.foldl (fun (a : State × List (Nat × Nat)) p =>
            let g := match findAt (·.contains p) img.gangs with | some e => gbase + e.1 | none => 0
            let t := a.1.startProc part inst o vi.blockVa g p (place.getD p 0)
            (t.1, a.2 ++ [(p, t.2)])) (s, [])
          .ok ((r.1.startGangs part img gbase r.2).startPhases part inst img)

/-- Start the oldest waiting entries of an object until one runs (R56). DESIGN CHOICE (log entry 101): the patch of an entry that completes
NOSPACE at its turn stays in the next-instance block, which the spec leaves open. -/
def State.startNext (s : State) (id : Nat) : Nat → State
  | 0 => s
  | n + 1 =>
    match nget? s.objs id with
    | none => s
    | some o =>
      match o.running, o.waiting with
      | none, w :: t =>
        let o := { o with waiting := t, block := patchBlock o.block w.patch }
        let s : State := { s with objs := nset s.objs id o }
        match s.startRun id w with
        | .ok s => s
        | .error st => ({ s with fresh := s.fresh + 1 }.failCmd w.entry st).startNext id n
      | _, _ => s

/-- Accept an entry for an object: at most four wait behind the running instance (R56). It starts at once where none runs; a child
that is off its slice starts in its save area and then joins the rotation (R77). -/
def State.accept (s : State) (e : EntryRef) (part id : Nat) (w : Waiting) : State :=
  match nget? s.objs id with
  | none => s.complete e .notfound 0
  | some o =>
    if o.part ≠ part then s.complete e .notfound 0
    else if (o.running.isSome || !o.waiting.isEmpty) && decide (4 ≤ o.waiting.length) then s.complete e .busy 0
    else
      let s : State := { s with objs := nset s.objs id { o with waiting := o.waiting ++ [w] } }
      let s := s.withCores part fun s => s.startNext id (o.waiting.length + 1)
      if s.runs part then s.joinRotation part else s

/-- LAUNCH (R55, R118): the entry completes when the instance ends. -/
def execLaunch (e : EntryRef) (place : List Nat) (s : State) : Host.Outcome State Fault Refusal :=
  runCmd s e .fmu false (fun c => match c with | .launch .. => true | _ => false) (fun _ => none) fun s x =>
    match x.cmd with
    | .launch id addr =>
      let n := match nget? s.objs id with | some o => 6 * o.img.procs.length | none => 0
      let go (b : Option (List Word)) : State :=
        s.accept e (targetPart e x) id { entry := e, patch := [], block := b, place := place, mgr := e.fn == 0 || e.q == 0 }
      if addr = 0 then go none
      else
        match s.readArg (targetPart e x) addr (8 * n) with
        | none => s.invalid e
        | some bs => go (some ((wordsOf bs n).map (BitVec.ofNat 64)))
    | _ => s

/-- REPLAY (R56): a patch outside the block is INVALID at acceptance. -/
def execReplay (e : EntryRef) (place : List Nat) (s : State) : Host.Outcome State Fault Refusal :=
  runCmd s e .fmu false (fun c => match c with | .replay .. => true | _ => false) (fun _ => none) fun s x =>
    match x.cmd with
    | .replay id addr count =>
      let n := match nget? s.objs id with | some o => 48 * o.img.procs.length | none => 0
      match s.readArg (targetPart e x) addr (16 * count) with
      | none => s.invalid e
      | some bs =>
      let patch := (List.range count).map fun j => (recWord bs (2 * j), BitVec.ofNat 64 (recWord bs (2 * j + 1)))
      if (nget? s.objs id).isSome && patch.any (fun p => p.1 % 8 != 0 || decide (n ≤ p.1)) then s.invalid e
      else s.accept e (targetPart e x) id { entry := e, patch := patch, place := place, mgr := e.fn == 0 || e.q == 0 }
    | _ => s

/-! ### SIGNAL (R55, R311) -/

/-- An instance of a partition that has not ended. -/
def liveInst (s : State) (part inst : Nat) : Bool :=
  match nget? s.insts inst with | some v => v.part == part && !v.killed | none => false

/-- A message from outside enters a channel at its HOME, under the service word `svc`; `marks` names who waits for its match, and
`dl` is a deadline (R311). -/
def State.inject (s : State) (part ch : Nat) (bs : List Byte) (marks : List Nat) (svc : Word := 0) (dl : Option Word := none) : State :=
  match s.chan? part ch with
  | none => s
  | some c =>
    let n := tyBytes (chanTy s part c)
    let x : Txn := { issuer := 0, core := c.home, part := part, inst := 0, loc := 0, op := .send ch bs, issued := s.cycle
                     due := s.cycle, progress := n, marks := marks, svc := svc, deadline := dl }
    let t := s.nextTxn
    (((s.newTxn x).1.setChan part ch { c with sendq := c.sendq ++ [t] }).chanChanged part ch).blockOp part ch t

/-- SIGNAL of kind 0: eight bytes to the receive end of a channel bound to the queue that carries the command. -/
def execSignalHostQueue (e : EntryRef) (s : State) : Host.Outcome State Fault Refusal :=
  runCmd s e .fmu false (fun c => match c with | .signalHost .. => true | _ => false) (fun _ => none) fun s x =>
    match x.cmd with
    | .signalHost inst h v =>
      let part := targetPart e x
      let ch := h.toNat % 2 ^ 24
      if !liveInst s part inst then s.complete e .notfound 0
      else
        match s.chan? part ch with
        | none => s.complete e .notfound 0
        | some c =>
          let fits := c.bkind == 3 && c.rxopen && bits h.toNat 30 24 == c.ty && e.fn == fnOf part && c.ep[0].toNat == e.q
          if !fits then s.invalid e
          else
            let n := tyBytes (chanTy s part c)
            -- host-queue traffic has the CLASS of its descriptor (R107)
            let svc : Word := BitVec.ofNat 64 ((s.queue (queueKey e.fn e.q)).cls * 2 ^ 12)
            (s.inject part ch ((leBytes 8 v.toNat ++ List.replicate n 0).take n) [] svc).complete e .ok 0
    | _ => s

/-- SIGNAL of kind 1: one arrival at a destination of a slot that the instance holds, on this module and not at zero. DESIGN CHOICE (log
entry 102): an arrival for another instance that does not hold the slot has no issuer for the deferred record of R142, and SIGNAL
completes INVALID as for a counter at zero. -/
def execSignalPhaseArrival (e : EntryRef) (s : State) : Host.Outcome State Fault Refusal :=
  runCmd s e .fmu false (fun c => match c with | .signalPhase .. => true | _ => false) (fun _ => none) fun s x =>
    match x.cmd with
    | .signalPhase inst slot dest =>
      let part := targetPart e x
      match s.phase? part slot with
      | none => s.complete e .notfound 0
      | some f =>
        if !liveInst s part inst || f.holder != inst then s.complete e .notfound 0
        else
          let here := match f.dests[dest]? with | some d => d.module == s.moduleId | none => false
          match (if here then s.arriveAt part slot dest Clock.zero { issuer := 0, core := 0, part := part, inst := inst, loc := 0, op := .alt } else none) with
          | some s => s.complete e .ok 0
          | none => s.invalid e
    | _ => s

/-! ### The end of an instance (R56, R178) -/

/-- Every process of an instance has ended, or is a rated one that stands DORMANT with nothing to fire on when every resident
process has ended; no engine operation or token of it is outstanding, and no record waits for a handler. -/
def instDone (s : State) (inst : Nat) : Bool :=
  let v := s.inst inst
  let ps := s.procs.filter fun e => e.2.inst == inst && e.2.engine.isNone
  let left := ps.filter fun e => e.2.st != .exited
  let resident := ps.any fun e => !e.2.rated && !e.2.isHandler
  let rest := left.all fun e => e.2.st == .dormant && resident && !e.2.firing.all (endReady s e.1)
  (v.killed || (rest && v.queue.isEmpty)) &&
    !s.txns.any fun e => e.2.inst == inst && (e.2.token || (match e.2.op with | .eng .. => true | _ => false))

/-- INSTANCE_END: the entry completes, tokens and slots return, the 0xFF03 record carries the flags, and the object's oldest waiting
entry starts. The heap goes back to its pool; the areas that NETLOAD reserved stay with the object. -/
def execInstanceEnd (inst : Nat) (s : State) : Host.Outcome State Fault Refusal :=
  match nget? s.insts inst with
  | none => .next s
  | some v =>
    if !instDone s inst || v.stopped || s.halted v.part then .next s
    else
      let ps := s.procs.filter fun e => e.2.inst == inst && e.2.engine.isNone
      let s := ps.foldl (fun s e => if e.2.st = .exited then s else s.endProc e.1 false) s
      let fl := ps.foldl (fun f e => f ||| e.2.flags) v.flagWord
      let s := s.ringPart v.part (.instanceEnd inst fl (s.entryTag inst))
      let s := v.tokens.foldl (fun s t =>
        s.modCore t.1 fun c => { c with grant := c.grant - t.2, free := c.free - min c.free t.2 }) s
      let s := s.modPart v.part fun q =>
        { q with phases := q.phases.filter fun e => e.2.holder != inst }
      -- the heap goes back to its pool (R98, R210), and the engines flush their dirty state (R96)
      let s := (List.range (v.heapLim / 2 ^ 16)).foldl (fun (s : State) j => s.returnPage v.part (v.heapBase / 2 ^ 16 + j)) s
      let s := s.engines.foldl (fun (s : State) g => s.flushEng g.1 fun t => t.part == v.part) s
      let s : State := { s with
        gangs := s.gangs.filter fun g => !g.2.members.all fun k => (s.proc k).inst == inst
        objs := nmod s.objs v.obj fun o => { o with running := none }
        insts := ndel s.insts inst }
      let s := match v.entry with
        | some e => s.complete e (if v.killed then .aborted else .ok) (BitVec.ofNat 64 inst)
        | none => s
      let n := match nget? s.objs v.obj with | some o => o.waiting.length | none => 0
      .next (s.startNext v.obj n)

end Sys2Proof.Machine
end

