-- ==== Sys2Proof/Machine/Commands.lean ====
section
/-! DEFINITION. Stopping and restoring partitions (R83 to R86, R112, R121, R181), the end of the save stream (R84), keys (R71, R72),
the device time (R54, R75) and QUERY (R54, R57). -/

namespace Sys2Proof.Machine

/-! ### Commands that stop or restore a partition -/

/-- A command that stops or restores a partition waits while a stop is under way, or while a child that runs is off its slice
(R78). -/
def partWaits (s : State) (part : Nat) : Bool :=
  let q := s.part part
  q.quies.isSome || (q.timeShared && q.slice.isNone && s.runs part)

/-- The common part of these commands: the target partition is the queue's own, or on PF0 the one that the entry names. Where a command
names another partition than its queue's own, that of the queue counts (Table 3.4); on PF0 the partition in ARGS counts where PART names
another (DESIGN CHOICE, log entry 134). -/
def stopCmd (s : State) (e : EntryRef) (mine : Cmd → Bool) (target : Entry → Nat) (locks : Bool)
    (body : State → Nat → Cmd → State) : Host.Outcome State Fault Refusal :=
  let part (x : Entry) : Nat := (partOfFn e.fn).getD (target x)
  match s.nextEntry e with
  | none => .next s
  | some x =>
    if mine x.cmd && partWaits s (part x) then .next s
    else
      runCmd s e .fm false mine (fun x => if locks then some (part x) else none) fun s x =>
        if !s.partLive (part x) then s.complete e .notfound 0 else body s (part x) x.cmd

/-- PREEMPT (R83): quiescence of one instance, or of all; an instance that is stopped already stays so. -/
def execPreempt (e : EntryRef) (s : State) : Host.Outcome State Fault Refusal :=
  stopCmd s e (fun c => match c with | .preempt .. => true | _ => false)
    (fun x => match x.cmd with | .preempt p _ => p | _ => 0) false fun s part c =>
    match c with
    | .preempt _ none => s.beginQuies part none (.preempt e)
    | .preempt _ (some i) =>
      if !liveInst s part i then s.complete e .notfound 0
      else if (s.inst i).stopped then s.complete e .ok 0
      else s.beginQuies part (some i) (.preempt e)
    | _ => s

/-- SAVE (R83): quiescence of the partition, whose image the end of the stream copies. -/
def execSave (e : EntryRef) (s : State) : Host.Outcome State Fault Refusal :=
  stopCmd s e (fun c => match c with | .save .. => true | _ => false)
    (fun x => match x.cmd with | .save p .. => p | _ => 0) true fun s part c =>
    match c with
    | .save _ dst _ =>
      if dst / 2 ^ 60 = 0 ∨ dst / 2 ^ 60 = 6 then s.beginQuies part none (.save e) else s.invalid e
    | _ => s

/-- The key entry by which a partition reaches module `m`, over a port that is up (R36, R72), where the partition that takes it there has its
number: an image is restored to the partition that it names (R83, R85). -/
def linkTo (s : State) (part m : Nat) : Option BKey :=
  (s.bound part m).filter fun k => m != s.moduleId && k.remotePart == part && !(s.port (fabPort m k.remotePart)).down

/-- MIGRATE (R86): page motions abort and the partition is quiesced. `ok` says whether what the destination does succeeds: it lies
outside. The transfer needs a key entry and a port that is up. -/
def execMigrate (e : EntryRef) (ok : Bool) (s : State) : Host.Outcome State Fault Refusal :=
  stopCmd s e (fun c => match c with | .migrate .. => true | _ => false)
    (fun x => match x.cmd with | .migrate p _ => p | _ => 0) true fun s part c =>
    match c with
    | .migrate _ m =>
      let s := (s.stopMotions part).modPart part fun q => { q with migrated := true }
      s.beginQuies part none (.migrate e (ok && (linkTo s part m).isSome))
    | _ => s

/-! ### Moving a stopped set to other cores (R85, R181) -/

/-- A core under a map of clusters: same core number within the cluster. -/
def mapCore (m : List (Nat × Nat)) (c : Nat) : Nat :=
  match m.find? fun r => r.1 == clusterOf c with
  | some r => r.2 * 8 + c % 8
  | none => c

/-- A memory key under the map: scratchpads move with their cores. -/
def mapKey (m : List (Nat × Nat)) (k : Nat) : Nat :=
  if 2 ^ 52 ≤ k ∧ k < spadKey 512 0 then spadKey (mapCore m ((k - 2 ^ 52) / 2 ^ 18)) (k % 2 ^ 18) else k

/-- An operation under the map. -/
def Op.mapCores (m : List (Nat × Nat)) (o : Op) : Op :=
  match o.mapParts fun p => match p.at_ with | .mem k => { p with at_ := .mem (mapKey m k) } | _ => p with
  | .eng core obj op => .eng (mapCore m core) obj op
  | .join core obj gen => .join (mapCore m core) obj gen
  | o => o

def Txn.mapCores (m : List (Nat × Nat)) (x : Txn) : Txn := { x with core := mapCore m x.core, op := x.op.mapCores m }

/-- A process comes back without a context: one that ran, was parked or stood by is READY (R116, R121). -/
def Proc.back (p : Proc) (m : List (Nat × Nat)) : Proc :=
  let was := if p.engine.isSome then p.was
    else match p.was with | .running | .parked | .standby => .ready | w => w
  if p.st = .exited then { p with core := mapCore m p.core }
  else { p with st := .stopped, was := was, ctx := none, core := mapCore m p.core }

/-- Clusters of a list of processes, ascending. -/
def clustersUsed (l : List (Nat × Proc)) : List Nat :=
  (List.range 64).filter fun c => l.any fun e => e.2.engine.isNone && clusterOf e.2.core == c


/-- Token charges of instances under the map. -/
def State.moveTokens (s : State) (insts : List Nat) (m : List (Nat × Nat)) : State :=
  insts.foldl (fun s i =>
    let s := (s.inst i).tokens.foldl (fun s t =>
      let s := s.modCore t.1 fun c => { c with grant := c.grant - t.2 }
      s.modCore (mapCore m t.1) fun c => { c with grant := c.grant + t.2 }) s
    s.modInst i fun v => { v with tokens := v.tokens.map fun t => (mapCore m t.1, t.2), spadCores := v.spadCores.map (mapCore m) }) s

/-- FREE of a partition's cores: GRANT less the tokens that outstanding operations hold, replays among them (R157, R158). -/
def State.countTokens (s : State) (part : Nat) : State :=
  (ownCores s part).foldl (fun s c =>
    let held := (s.txns.filter fun e => e.2.core == c && e.2.token).length
    s.modCore c fun k => { k with free := k.grant - held }) s

/-- Arms on a scratchpad follow it to the table of its new cluster. -/
def State.moveArms (s : State) (l : List Nat) (m : List (Nat × Nat)) : State :=
  let mine (a : Arm) : Bool := l.contains (ownerOf a.proc) && mapKey m a.key != a.key
  let moved := s.clusters.flatMap fun e => e.2.monitors.filter mine
  let s : State := { s with clusters := s.clusters.map fun e => (e.1, { e.2 with monitors := e.2.monitors.filter (!mine ·) }) }
  moved.foldl (fun s a =>
    let a := { a with key := mapKey m a.key }
    let c := monitorCluster a.key
    s.setCluster c { s.cluster c with monitors := (s.cluster c).monitors ++ [a] }) s

/-- Forks of a set wait for, or run on, the engines that serve their cores now (R68, R350). -/
def State.moveForks (s : State) (part : Nat) (l : List Nat) : State :=
  let mine (t : Nat) : Bool := match nget? s.txns t with | some x => l.contains (ownerOf x.issuer) | none => true
  let s : State := { s with engines := s.engines.map fun e => (e.1, { e.2 with forks := e.2.forks.filter (!mine ·) }) }
  (s.txns.filter fun e => e.2.part == part && l.contains (ownerOf e.2.issuer)).foldl (fun s e =>
    match e.2.op with
    | .eng _ _ (.fork k p q) =>
      match engUnit s e.2 (.fork k p q) with
      | some u => let g := s.engine u; s.setEngine u { g with forks := g.forks ++ [e.1] }
      | none => s
    | _ => s) s

/-- What a core holds of a set of processes: buffers, scoreboard, objects, kept contexts, the owner of its matrix set, the scratchpad
ranges that buffers and `.spad` images take, and the scratchpad. -/
structure CoreSet where
  bufs : NMap Buf := []
  sb : List SbEnt := []
  objs : NMap Obj := []
  resv : NMap Nat := []
  owner : Option Nat := none
  ranges : List (Nat × Nat) := []
  spad : List Host.Cell := []

/-- What a test on processes and one on instances pick of a core. -/
def takeCore (s : State) (k : Core) (spad : List Host.Cell) (c : Nat) (mine inst : Nat → Bool) : CoreSet :=
  let bufs := k.bufs.filter fun e => mine e.2.owner
  { bufs := bufs
    sb := k.sb.filter fun e => match nget? s.txns e.txn with | some x => mine (ownerOf x.issuer) | none => false
    objs := k.objs.filter fun e => e.2.st != .free && mine e.2.issuer
    resv := k.resv.filter fun e => mine e.2
    owner := k.owner.filter mine
    ranges := (bufs.map fun e => (e.2.base, e.2.size)) ++ (s.insts.filter fun v => inst v.1 && v.2.spadCores.contains c).map fun v =>
      (v.2.spadBase, match nget? s.objs v.2.obj with | some o => o.img.spad.length | none => 0)
    spad := spad }

/-- Two sets cannot stand on one core: a buffer or object number, a scratchpad range or the matrix set is taken by both, or the contexts
kept are more than eight. -/
def CoreSet.meets (a b : CoreSet) : Bool :=
  a.bufs.any (fun e => (nget? b.bufs e.1).isSome) || a.objs.any (fun e => (nget? b.objs e.1).isSome) ||
    a.ranges.any (fun r => b.ranges.any fun t => overlap r.1 r.2 t.1 t.2) || (a.owner.isSome && b.owner.isSome) ||
    decide (8 < a.resv.length + b.resv.length)

/-- No two of a list can stand on one core. -/
def anyMeet : List CoreSet → Bool
  | [] => false
  | a :: t => t.any a.meets || anyMeet t

/-- Sets by the cluster that they come from, ascending. -/
def byCluster (sets : List (Nat × CoreSet)) : List (Nat × List (Nat × CoreSet)) :=
  (List.range 64).filterMap fun c =>
    let l := sets.filter fun e => clusterOf e.1 == c
    if l.isEmpty then none else some (c, l)

/-- What may stand on one core together: no two of it meet, and the contexts that it keeps are at most eight. -/
def together (l : List CoreSet) : Bool := !anyMeet l && decide (l.foldl (fun n g => n + g.resv.length) 0 ≤ 8)

/-- A cluster for each cluster that sets come from, of those that `may` names for it: on each core, what is `rest` there and what else
goes there can stand together, and a core's number within its cluster stays (R85, R181). None where there is no such placement. DESIGN
CHOICE (log entry 61): which one is taken where there are several, the spec does not say. -/
def placeSets (rest : Nat → CoreSet) (may : Nat → Nat → List Nat) :
    List (Nat × List (Nat × CoreSet)) → Nat → List (Nat × CoreSet) → Option (List (Nat × Nat))
  | [], _, _ => some []
  | (c, l) :: t, i, placed =>
    (may i c).findSome? fun d =>
      let placed := placed ++ l.map fun e => (d * 8 + e.1 % 8, e.2)
      let ok := (coresIn d).all fun k => together (rest k :: (placed.filter fun e => e.1 == k).map Prod.snd)
      if ok then (placeSets rest may t (i + 1) placed).map ((c, d) :: ·) else none

/-- The clusters of a mask as the `i`-th cluster of a set tries them: the sets go to the mask's clusters in turn where they can. -/
def turnOf (mask : BitVec 64) (i : Nat) : List Nat :=
  let ms := clustersOf mask
  ms.drop (i % ms.length) ++ ms.take (i % ms.length)

/-- The bytes of scratchpad `d` outside ranges become zero. -/
def clearSpad (m : List Host.Cell) (d : Nat) (keep : List (Nat × Nat)) : List Host.Cell :=
  let lo := spadKey d 0
  m.filter fun c => decide (c.1 < lo) || decide (lo + 2 ^ 18 ≤ c.1) || keep.any fun r => decide (lo + r.1 ≤ c.1) && decide (c.1 < lo + r.1 + r.2)

/-- Put what core `c` held into core `d`, at the same offsets; bytes in the ranges of what stands there already stay. -/
def State.putCore (s : State) (c d : Nat) (g : CoreSet) (keep : List (Nat × Nat)) : State :=
  let free (o : Nat) : Bool := !keep.any fun r => decide (r.1 ≤ o) && decide (o < r.1 + r.2)
  let cells := (g.spad.filter fun x => free (x.1 - spadKey c 0)).map fun x => ((spadKey d (x.1 - spadKey c 0), x.2) : Host.Cell)
  let s : State := { s with mem := putCells s.mem cells }
  s.modCore d fun k =>
    { k with bufs := g.bufs.foldl (fun b e => nset b e.1 e.2) k.bufs, sb := k.sb ++ g.sb
             objs := g.objs.foldl (fun b e => nset b e.1 e.2) k.objs, resv := g.resv.foldl (fun r e => nset r e.1 e.2) k.resv }

/-- Put sets into the core they all go to: what is there already is `rest`. -/
def State.putCores (s : State) (d : Nat) (rest : CoreSet) (l : List (Nat × CoreSet)) : State :=
  let s : State := { s with mem := clearSpad s.mem d rest.ranges }
  (l.foldl (fun (a : State × List (Nat × Nat)) e => (a.1.putCore e.1 d e.2 a.2, a.2 ++ e.2.ranges)) (s, rest.ranges)).1

/-- The sets of cores that move, by the core that each goes to. -/
def byTarget (m : List (Nat × Nat)) (sets : List (Nat × CoreSet)) : List (Nat × List (Nat × CoreSet)) :=
  ((sets.map fun e => mapCore m e.1).eraseDups).map fun d => (d, sets.filter fun e => mapCore m e.1 == d)

/-- The set's things on each of its cores, and what else stands on a core. -/
def setsOf (s : State) (l insts : List Nat) : List (Nat × CoreSet) :=
  (((l.map fun k => (s.proc k).core).eraseDups)).map fun c =>
    (c, takeCore s (s.core c) (cellsIn s.mem (spadKey c 0) (2 ^ 18)) c l.contains insts.contains)
def restOf (s : State) (l insts : List Nat) (d : Nat) : CoreSet :=
  takeCore s (s.core d) [] d (fun k => !l.contains k) (fun i => !insts.contains i)

/-- Move a stopped set and the instances it belongs to. -/
def State.moveSet (s : State) (part : Nat) (l insts : List Nat) (m : List (Nat × Nat)) : State :=
  let sets := (setsOf s l insts).filter fun e => mapCore m e.1 != e.1
  let s := sets.foldl (fun s e => s.modCore e.1 fun k =>
    { k with bufs := k.bufs.filter fun b => !l.contains b.2.owner, sb := k.sb.filter (!e.2.sb.contains ·)
             objs := k.objs.filter fun o => !(o.2.st != .free && l.contains o.2.issuer), resv := k.resv.filter fun r => !l.contains r.2 }) s
  let s := (byTarget m sets).foldl (fun s e => s.putCores e.1 (restOf s l insts e.1) e.2) s
  let s := (s.moveTokens insts m).moveArms l m
  let s : State := { s with
    txns := s.txns.map fun e => if l.contains (ownerOf e.2.issuer) then (e.1, e.2.mapCores m) else e
    gangs := s.gangs.map fun e =>
      if e.2.members.any l.contains then (e.1, { e.2 with cluster := clusterOf (mapCore m (e.2.cluster * 8)) }) else e
    procs := s.procs.map fun e => if l.contains (ownerOf e.1) then (e.1, { e.2 with core := mapCore m e.2.core }) else e }
  (s.moveForks part l).modPart part fun q =>
    { q with
      chans := q.chans.map fun e => if l.contains e.2.rxproc then (e.1, { e.2 with home := mapCore m e.2.home }) else e
      spill := q.spill.map fun a => if l.contains (ownerOf a.proc) then { a with key := mapKey m a.key } else a }

/-- Saved gangs of a set wait for their contexts again, in the order of R121. -/
def State.formGangs (s : State) (l : List Nat) : State :=
  s.gangs.foldl (fun s e =>
    if e.2.members.any l.contains then
      { s with gangs := nset s.gangs e.1 { (nget e.2 s.gangs e.1) with st := .forming, order := s.nextId }, nextId := s.nextId + 1 }
    else s) s

/-- A matrix set goes back into its core. -/
def State.putMatrix (s : State) (m : List (Nat × Nat)) (g : CoreImg) : State :=
  s.modCore (mapCore m g.core) fun c =>
    { c with owner := g.k.owner, tiles := g.k.tiles, accs := g.k.accs, dmap := g.k.dmap, mPend := g.k.mPend }

/-! ### RESTORE -/

/-- A mask that RESTORE may use: clusters on which the partition's own networks run (R62; log entry 130). -/
def maskOk (s : State) (part : Nat) (mask : BitVec 64) : Bool := (clustersOf mask).all (ownClusters s part).contains

/-- RESTORE with image address 0 (R85): the preempted instances go on, in their former clusters, which the partition must still have, or in
those of the mask; NOSPACE where these cannot hold them. DESIGN CHOICE (log entries 129, 130): the spec gives no status for a partition that
has nothing PREEMPTed, nor for a mask with clusters that are not the partition's own; the model takes NOTFOUND and INVALID. -/
def State.restoreHeld (s : State) (e : EntryRef) (part : Nat) (mask : BitVec 64) : State :=
  let q := s.part part
  let set := preempted s part
  let l := set.map Prod.fst
  let insts := (set.map fun p => p.2.inst).eraseDups
  if q.images = [] then s.complete e .notfound 0
  else if !maskOk s part mask then s.invalid e
  else
    let mats := (heldSets s part l).map (CoreImg.fromArea s part)
    let sets := setsOf s l insts ++ mats.map fun g => (g.core, { owner := g.k.owner })
    let own := ownClusters s part
    let may (i c : Nat) : List Nat := if mask = 0 then [c].filter own.contains else turnOf mask i
    match placeSets (restOf s l insts) may (byCluster sets) 0 [] with
    | none => s.complete e .nospace 0
    | some m =>
      let s := s.moveSet part l insts m
      let s := mats.foldl (fun s g => s.putMatrix m g) s
      let s : State := { s with
        insts := s.insts.map fun v => if v.2.part = part then (v.1, { v.2 with stopped := false }) else v
        procs := s.procs.map fun p => if l.contains p.1 then (p.1, p.2.back []) else p }
      let s := (((s.formGangs l).modPart part fun q => { q with images := [] }).dropArea part).countTokens part
      (s.resume part l).complete e .ok (BitVec.ofNat 64 part)

/-- Channel operations of an image that no queue holds any more are on their way to HOME again; arms are made afresh. -/
def State.rejoin (s : State) (part : Nat) : State :=
  let held (c : Chan) (t : Nat) : Bool := c.sendq.contains t || c.recvq.contains t || c.flight.contains t
  s.txns.foldl (fun s e =>
    if e.2.part ≠ part then s
    else
      match e.2.op, e.2.stage with
      | .send ch _, .sent | .recv ch, .sent | .sendt ch _, .sent | .recvt ch _, .sent | .chclose ch _, .sent | .chinfo ch, .sent
      | .chbind ch _, .sent =>
        s.modChan part ch fun c => if held c e.1 then c else { c with flight := c.flight ++ [e.1] }
      | .waita .., .waiting => s.setTxn e.1 { e.2 with stage := .sent }
      | _, _ => s) s

/-- An image is placed on the clusters of a mask and resumed (R85): it replaces what the partition runs by the processes of the image whose
instances have not ended. None where the mask cannot hold them. -/
def State.restoreSet (s : State) (part : Nat) (img : SaveImg) (mask : BitVec 64) : Option State :=
  let live (i : Nat) : Bool := liveInst s part i
  let set := img.procs.filter fun p => live p.2.inst
  let l := set.map Prod.fst
  let insts := (set.map fun p => p.2.inst).eraseDups
  let used := (clustersUsed set).flatMap fun c => (List.range 8).map (c * 8 + ·)
  let cores := img.cores.filter fun g => used.contains g.core
  let mats := (img.held ++ cores).filter fun g => match g.k.owner with | some o => l.contains o | none => false
  let sets := cores.map fun g => (g.core, takeCore s g.k g.spad g.core l.contains insts.contains)
  let extra := (img.held.filter fun g => used.contains g.core).map fun g => (g.core, ({ owner := g.k.owner.filter l.contains } : CoreSet))
  -- a mask of no cluster holds none of the processes: mask 0 means the former clusters with address 0 alone (R85)
  (placeSets (fun _ => {}) (fun i _ => turnOf mask i) (byCluster (sets ++ extra)) 0 []).map fun m =>
    let s := (setOf s part none).foldl State.unschedule s
    let s := (ownCores s part).foldl (fun s c => s.modCore c fun k =>
      { k.releaseMatrix with bufs := [], sb := [], objs := [], resv := [], ctxs := [], ready := [] }) s
    let s : State := { s with
      procs := set.foldl (fun ps p => nset ps p.1 (p.2.back m)) (s.procs.filter fun p => partOf (ownerOf p.1) != part)
      txns := (img.replay.filter fun x => live x.2.inst).foldl (fun ts x => nset ts x.1 (x.2.mapCores m))
        (s.txns.filter fun x => x.2.part != part || x.2.issuer == 0) }
    let s := (byTarget m sets).foldl (fun s t => s.putCores t.1 {} t.2) s
    let s := mats.foldl (fun s g => s.putMatrix m g) s
    let s := s.modPart part fun q =>
      { q with
        phases := img.phases.filter fun f => live f.2.holder
        images := []
        chans := q.chans.map fun c =>
          let keep (t : Nat) : Bool := (nget? s.txns t).isSome
          (c.1, { c.2 with
            sendq := c.2.sendq.filter keep, recvq := c.2.recvq.filter keep, flight := c.2.flight.filter keep
            home := if l.contains c.2.rxproc then (s.proc c.2.rxproc).core else c.2.home }) }
    let s := ((((s.moveTokens insts m).moveArms l m).moveForks part l).rejoin part).dropArea part
    let s : State := { s with
      gangs := s.gangs.map fun g =>
        if g.2.members.any l.contains then (g.1, { g.2 with cluster := clusterOf (s.proc (g.2.members.headD 0)).core, barrier := [] })
        else g
      insts := s.insts.map fun v => if insts.contains v.1 then (v.1, { v.2 with stopped := false }) else v }
    ((s.formGangs l).countTokens part).resume part l

/-- RESTORE of an image: NOSPACE where the mask cannot hold it. -/
def State.restoreImage (s : State) (e : EntryRef) (part : Nat) (img : SaveImg) (mask : BitVec 64) : State :=
  if !maskOk s part mask then s.invalid e
  else
    match s.restoreSet part img mask with
    | none => s.complete e .nospace 0
    | some s => s.complete e .ok (BitVec.ofNat 64 part)

/-- The bytes of a buffer, zeros among them. -/
def ImgBuf.bytes (b : ImgBuf) : List Byte := (List.range b.len).map (readByte b.cells)

/-- The image that stands at an address: one that SAVE has written, with its bytes still there. -/
def savedAt (s : State) (part addr : Nat) : Option SaveImg :=
  s.saved.find? fun g => let b := imageBytes g; s.readArg part addr b.len == some b.bytes

/-- The partition of the image at an address, by its header. -/
def imagePart (s : State) (part addr : Nat) : Option Nat := (s.readArg part addr 64).map fun bs => recWord bs 2

/-- RESTORE of the image at an address (R85): a header of another format version or ROM major revision is INVALID, one whose partition
does not exist NOTFOUND; bytes that are no whole image fail the image check. -/
def State.restoreAt (s : State) (e : EntryRef) (part addr : Nat) (mask : BitVec 64) : State :=
  match s.readArg part addr 64 with
  | none => s.invalid e
  | some h =>
    if recWord h 0 ≠ 1 ∨ recWord h 1 / 256 ≠ s.romRev.toNat / 256 then s.invalid e
    else if !s.partLive (recWord h 2) then s.complete e .notfound 0
    else if recWord h 2 ≠ part then s.invalid e
    else
      match savedAt s part addr with
      | none => s.complete e .badsig 0
      | some g => s.restoreImage e part g mask

/-- RESTORE (R85). A child that is off its slice and runs nothing is restored in its save area, and then joins the rotation. -/
def execRestore (e : EntryRef) (s : State) : Host.Outcome State Fault Refusal :=
  stopCmd s e (fun c => match c with | .restore .. => true | _ => false)
    (fun x => match x.cmd with | .restore 0 _ => x.part | .restore a _ => (imagePart s x.part a).getD x.part | _ => x.part) true
    fun s part c =>
    match c with
    | .restore addr mask =>
      let s := s.withCores part fun s => if addr = 0 then s.restoreHeld e part mask else s.restoreAt e part addr mask
      if s.runs part then s.joinRotation part else s
    | _ => s

/-! ### The end of a save stream (R84) -/

/-- The bytes of a save image go to an address of the host or of the partition. -/
def State.writeImage (s : State) (part dst : Nat) (b : ImgBuf) : State :=
  let off := dst % 2 ^ 51
  if dst / 2 ^ 60 = 6 then
    { s with mem := putCells (clearBytes s.mem (hostKey off) b.len) (b.cells.map fun c => ((hostKey (off + c.1), c.2) : Host.Cell)) }
  else s.vaWrite part (pagesFor b.len + 1) off b.bytes

/-- SAVE copies the image (R83): none where it is longer than the length named (log entry 103). What is saved is clean (R156). -/
def State.saveTo (s : State) (part dst len : Nat) (img : SaveImg) : Option (State × Nat) :=
  let b := imageBytes img
  if len < b.len then none
  else
    let s := s.writeImage part dst b
    let s := img.cores.foldl (fun s g => s.modCore g.core Core.clean) s
    some ({ s with saved := s.saved ++ [img] }, b.len)

/-- The pages of a partition, each large one as pages of 64 KiB, with the top bits of their entries (Table 5.2), and their bytes by
virtual address (R86). -/
def movedPages (s : State) (part : Nat) : List (Nat × Nat) × List (Nat × Byte) :=
  let l := s.mapped part
  (l.map fun p => (p.vpn, bits (s.pte p.leaf) 63 55),
    l.flatMap fun p => (cellsIn s.mem (p.frame * 2 ^ 16) (2 ^ 16)).map fun c => (p.vpn * 2 ^ 16 + c.1 % 2 ^ 16, c.2))

/-- The node table of a partition, and the metadata of its granules by virtual address (R216). -/
def movedNodes (s : State) (part : Nat) : List MovedNode :=
  ((s.part part).nodes.filter fun e => e.2.live).map fun e =>
    { id := e.1, parent := e.2.parent, depth := e.2.depth, count := e.2.count.toNat, nchild := e.2.nchild, ngran := e.2.ngran }
def movedGrans (s : State) (part : Nat) : List MovedGran :=
  (s.mapped part).flatMap fun p => (List.range 16).filterMap fun j =>
    ((nget? s.grans (p.frame * 16 + j)).filter fun g => g.enr && g.part == part).map fun g =>
      { gran := p.vpn * 16 + j, node := g.node, count := g.count.toNat }

/-- What the partition runs, and what no virtual page names (R86, R216). -/
def movedRun (s : State) (part : Nat) (img : SaveImg) : MovedRun :=
  let named := (s.mapped part).map fun p => (p.vpn, p.frame)
  let insts := s.insts.filter fun e => e.2.part == part
  let heaps := insts.flatMap fun e => (List.range (e.2.heapLim / 2 ^ 16)).map (e.2.heapBase / 2 ^ 16 + ·)
  let grans : NMap Gran := s.grans.filter fun e => e.2.part == part && e.2.enr && !named.any fun f => f.2 == e.1 / 16
  let loose : List Nat := (heaps ++ grans.map fun (e : Nat × Gran) => e.1 / 16).eraseDups
  { img := img, insts := insts, objs := s.objs.filter fun e => e.2.part == part, gangs := s.gangs.filter fun e => e.2.part == part
    chans := (s.part part).chans, recs := s.recs.filter fun e => partOf e.2.handle == part, managed := s.managed
    ids := s.nextId, txns := s.nextTxn, frames := named, loose := loose
    bytes := loose.flatMap (fun f => cellsIn s.mem (f * 2 ^ 16) (2 ^ 16)) ++ cellsIn s.mem (bufKey part 0) (2 ^ 48)
    grans := grans.map fun (e : Nat × Gran) => { gran := e.1, node := e.2.node, count := e.2.count.toNat } }

/-- The pages, the image, what runs, the tree and the time registers leave for the destination module under its key slot (R75, R86, R216). -/
def State.sendMoved (s : State) (part m : Nat) (z : Quies) : Option State :=
  (linkTo s part m).map fun k =>
    let q := s.part part
    let pg := movedPages s part
    let img := wholeImage s part z
    s.sendFab m k.remotePart
      (.moved k.remotePart s.moduleId part pg.1 pg.2 (imageBytes img).cells (movedRun s part img) (movedNodes s part) (movedGrans s part)
        q.vtbase q.vtscale q.vtoff z.time)

/-- The command of an entry that waits for its stop. -/
def State.cmdOf (s : State) (e : EntryRef) : Option Cmd := (s.entry? e).map Entry.cmd

/-- SAVE_STREAM_END: the state is saved. After a slice the next child is restored; a PREEMPT releases its contexts; a SAVE copies the
image and the partition goes on; a MIGRATE destroys the source, or resumes it where a step has failed. -/
def execSaveStreamEnd (part : Nat) (s : State) : Host.Outcome State Fault Refusal :=
  match (s.part part).quies with
  | none => .next s
  | some z =>
    if !z.saving then .next s
    else
      let img := wholeImage s part z
      -- a stream that ends late has missed its deadline all the same
      let s := if z.misses s.cycle then s.ringPart part (.preemptLate part) else s
      let s := if z.streams then (s.saveArea part img).startRetrains part else s
      match z.why with
      | .slice =>
        let s := s.modPart part fun q => { q with off := areaImgs img, slice := none, quies := none }
        match nextChild s part with
        | some k => .next (s.beginSlice k)
        | none => .next s
      | .preempt e => .next ((s.withCores part fun s => s.takeImage part z (areaImgs img)).complete e .ok 0)
      | .save e =>
        match s.cmdOf e with
        | some (.save _ dst len) =>
          .next (s.withCores part fun s =>
            match s.saveTo part dst len img with
            | some (s, n) => (s.resume part z.procs).complete e .ok (BitVec.ofNat 64 n)
            | none => (s.resume part z.procs).complete e .nospace 0)
        | _ => .next (s.resume part z.procs)
      | .migrate e ok =>
        let m : Nat := match s.cmdOf e with | some (.migrate _ m) => m | _ => s.moduleId
        match (if ok then s.sendMoved part m z else none) with
        -- roll-up tokens under way are counted first: a granule that moves has none pending (R212, R216)
        | some t =>
          if s.tokens.any fun k => k.2.part == part then .next s
          else .next (((t.modPart part fun q => { q with quies := none }).destroyPart part).complete e .ok 0)
        | none => .next ((s.resume part z.procs).complete e .aborted 0)

/-! ### Keys (R70 to R72) -/

/-- The partition holds a page of its own (R71): mapped pages, heaps, network objects or live instances. -/
def ownPages (s : State) (part : Nat) : Bool :=
  s.mapped part != [] || s.objs.any (fun o => o.2.part == part) || s.insts.any fun v => v.2.part == part

/-- The areas that firmware keeps are written with zeros, and the node table holds the root alone (R71). -/
def State.clearAreas (s : State) (part : Nat) : State :=
  let q := s.part part
  let root := q.ptroot.toNat / 2 ^ 16
  let m := q.resv.foldl (fun m r => clearBytes m (r.1 * 2 ^ 16) (r.2 * 2 ^ 16)) s.mem
  let s : State := { s with
    mem := clearBytes m (root * 2 ^ 16) (2 ^ 16)
    grans := s.grans.filter fun e => e.2.part != part
    tokens := s.tokens.filter fun e => e.2.part != part }
  s.modPart part fun q =>
    { q with nodes := [(0, { live := true })], freeNodes := 1048575, spill := [], chans := [], images := [], used := [root] }

/-- KEYSET of kind 0 (R71): `key` is what the wrapped key at the address unwraps to under the key of the session; none where it does
not. -/
def execKeysetMemory (v : MemKeying) (s : State) : Host.Outcome State Fault Refusal :=
  runCmd s v.entry .fm false (fun c => match c with | .keysetMemory .. => true | _ => false) (fun x => some (targetPart v.entry x)) fun s x =>
    let part := targetPart v.entry x
    match x.cmd with
    | .keysetMemory slot _ =>
      if !s.partLive part then s.complete v.entry .notfound 0
      else if slot ≠ (s.part part).budget.keyslot ∨ ownPages s part ∨ (s.fn v.entry.fn).session = none then s.invalid v.entry
      else
        match v.key with
        | none => s.complete v.entry .badsig 0
        | some k =>
          let s := s.clearAreas part
          ({ s with memKeys := nset s.memKeys slot k }).complete v.entry .ok 0
    | _ => s

/-- KEYSET of kind 1 (R72): one entry of the key table of 256. The SPDM session between the two modules' firmware, which lies outside,
gives the key, the remote module and partition, and the session identifier. -/
def execKeysetBuneam (v : LinkKeying) (s : State) : Host.Outcome State Fault Refusal :=
  runCmd s v.entry .fm false (fun c => match c with | .keysetBuneam .. => true | _ => false) (fun x => some (targetPart v.entry x)) fun s x =>
    let p := targetPart v.entry x
    match x.cmd with
    | .keysetBuneam slot _ =>
      if 256 ≤ slot then s.invalid v.entry
      else if !s.partLive p then s.complete v.entry .notfound 0
      else
        let k : BKey := { localPart := p, module := v.module, remotePart := v.remotePart, key := v.key, session := v.session }
        -- flits that a key near its last count held back go (R34)
        (({ s with keys := nset s.keys slot k } : State).flushPort (fabPort v.module v.remotePart)).complete v.entry .ok 0
    | _ => s

/-! ### Device time (R54, R75) -/

/-- TIMESET (R75): every floor rises to the virtual time reached, then the counter is set. -/
def State.setTime (s : State) (t : Word) : State :=
  { s with parts := s.parts.map fun e => (e.1, { e.2 with vtfloor := virtualTime s e.1 }), time := t, timeRem := 0 }

def execTimeset (e : EntryRef) (s : State) : Host.Outcome State Fault Refusal :=
  runCmd s e .f false (fun c => match c with | .timeset _ => true | _ => false) (fun _ => none) fun s x =>
    match x.cmd with
    | .timeset t => (s.setTime t).complete e .ok 0
    | _ => s

/-- TIMEADJ (R54): a positive phase step is added at once, a negative one is left to be slewed by. -/
def State.adjTime (s : State) (ppb step : Int) : State :=
  if 0 ≤ step then { s with timePpb := ppb, time := s.time + BitVec.ofInt 64 step }
  else { s with timePpb := ppb, timeSlew := s.timeSlew + step * nsUnits }

def execTimeadj (e : EntryRef) (s : State) : Host.Outcome State Fault Refusal :=
  runCmd s e .f false (fun c => match c with | .timeadj .. => true | _ => false) (fun _ => none) fun s x =>
    match x.cmd with
    | .timeadj ppb step => if ppb < -100000 ∨ 100000 < ppb then s.invalid e else (s.adjTime ppb step).complete e .ok 0
    | _ => s

/-! ### QUERY (R54, R57) -/

/-- A QUERY of one selector, by its position in Table 3.6; `there` is false where what it names does not exist. RESULT is
selector-specific. The spec gives the revision, and for the budgets the sum of the deadline misses (R109); the rest is open, but that
bit 63 of the capacity says whether the counter is locked (R76; log entry 104). A selector that Table 3.6 does not have is a bad argument:
it is served with the last of the six, and in recovery too (R57). -/
def queryCmd (s : State) (e : EntryRef) (sel : Nat) (there : State → Nat → Nat → Bool) (result : State → Nat → State × Word) :
    Host.Outcome State Fault Refusal :=
  runCmd s e .fmu true (fun c => match c with | .query k _ => k == sel || (sel == 5 && decide (5 < k)) | _ => false) (fun _ => none)
    fun s x =>
    match x.cmd with
    | .query k arg =>
      if 5 < k then s.invalid e
      else if there s (targetPart e x) arg then let r := result s (targetPart e x); r.1.complete e .ok r.2 else s.complete e .notfound 0
    | _ => s

/-- Deadline misses of a partition's processes (R109). -/
def missSum (s : State) (part : Nat) : Nat :=
  (s.procs.filter fun e => partOf e.1 == part && e.2.engine.isNone).foldl (fun n e => n + e.2.dlmiss.toNat) 0

def execQueryRevision (e : EntryRef) (s : State) : Host.Outcome State Fault Refusal :=
  queryCmd s e 0 (fun _ _ _ => true) fun s _ => (s, s.romRev.setWidth 64)
def execQueryPatchList (e : EntryRef) (s : State) : Host.Outcome State Fault Refusal :=
  queryCmd s e 1 (fun _ _ _ => true) fun s _ => s.draw
def execQueryCapacity (e : EntryRef) (s : State) : Host.Outcome State Fault Refusal :=
  queryCmd s e 2 (fun _ _ _ => true) fun s _ =>
    let d := s.draw
    (d.1, (d.2 &&& 0x7FFFFFFFFFFFFFFF) ||| (if s.timeLock then 0x8000000000000000 else 0))
def execQueryBudgets (e : EntryRef) (s : State) : Host.Outcome State Fault Refusal :=
  queryCmd s e 3 (fun s p _ => s.partLive p) fun s p => (s, BitVec.ofNat 64 (missSum s p))
def execQueryInstanceState (e : EntryRef) (s : State) : Host.Outcome State Fault Refusal :=
  queryCmd s e 4 (fun s p i => liveInst s p i) fun s _ => s.draw
def execQueryQueueState (e : EntryRef) (s : State) : Host.Outcome State Fault Refusal :=
  queryCmd s e 5 (fun s p q => queueExists s (fnOf p) q) fun s _ => s.draw

end Sys2Proof.Machine
end

