-- ==== Sys2Proof/Machine/Float.lean ====
section
/-! DEFINITION. Scalar floating-point instructions (R274 to R283). -/

namespace Sys2Proof.Machine

def execFadd (dbl : Bool) (x y : Src) (k : Keep) (r : Rm) (s : State) :=
  finish s (float2 s dbl x y k fun i f a b => fAdd f (arithRm (i.rm r)) a b)
def execFsub (dbl : Bool) (x y : Src) (k : Keep) (r : Rm) (s : State) :=
  finish s (float2 s dbl x y k fun i f a b => fSub f (arithRm (i.rm r)) a b)
def execFmul (dbl : Bool) (x y : Src) (k : Keep) (r : Rm) (s : State) :=
  finish s (float2 s dbl x y k fun i f a b => fMul f (arithRm (i.rm r)) a b)

/-- `fma`: the named keep is the addend, read third, and the destination (R275). -/
def execFma (dbl : Bool) (x y : Src) (kr : BitVec 5) (r : Rm) (s : State) := finish s do
  let i ← s.cur
  let a ← readSrc i x
  let b ← readSrc i y
  let c ← readSrc i (.n kr)
  let f := scalarFmt dbl
  let v := fFma f (arithRm (i.rm r)) (f.take a.toNat) (f.take b.toNat) (f.take c.toNat)
  .ok ((s.push i (BitVec.ofNat 64 v.1) (some kr)).setFlags i v.2)

/-- `fdiv`: 16 cc in binary32, 28 cc in binary64 (R274, R276). -/
def execFdiv (dbl : Bool) (x y : Src) (k : Keep) (r : Rm) (s : State) := finish s do
  let i ← s.cur
  let a ← readSrc i x
  let b ← readSrc i y
  let f := scalarFmt dbl
  let v := fDiv f (arithRm (i.rm r)) (f.take a.toNat) (f.take b.toNat)
  .ok (s.pushLater i (BitVec.ofNat 64 v.1) v.2 k (if dbl then 28 else 16))

/-- `fsqrt`: 16 cc in binary32, 32 cc in binary64 (R274, R276). -/
def execFsqrt (dbl : Bool) (x : Src) (k : Keep) (r : Rm) (s : State) := finish s do
  let i ← s.cur
  let a ← readSrc i x
  let f := scalarFmt dbl
  let v := fSqrt f (arithRm (i.rm r)) (f.take a.toNat)
  .ok (s.pushLater i (BitVec.ofNat 64 v.1) v.2 k (if dbl then 32 else 16))

def execFrint (dbl : Bool) (x : Src) (k : Keep) (r : Rm) (s : State) :=
  finish s (float1 s dbl x k fun i f a => fRint f (i.rm r) a)

/-- `fins`: y is a signed integer, not a float (R278). -/
def execFins (dbl : Bool) (x y : Src) (k : Keep) (r : Rm) (s : State) := finish s do
  let i ← s.cur
  let a ← readSrc i x
  let b ← readSrc i y
  let f := scalarFmt dbl
  let v := fIns f (arithRm (i.rm r)) (f.take a.toNat) b.toInt
  .ok ((s.push i (BitVec.ofNat 64 v.1) k).setFlags i v.2)

def execFmin (dbl : Bool) (x y : Src) (k : Keep) (s : State) := finish s (float2 s dbl x y k fun _ f a b => fMinMax f false a b)
def execFmax (dbl : Bool) (x y : Src) (k : Keep) (s : State) := finish s (float2 s dbl x y k fun _ f a b => fMinMax f true a b)
def execFabs (dbl : Bool) (x : Src) (k : Keep) (s : State) := finish s (float1 s dbl x k fun _ f a => (fmag f a, 0))
def execFneg (dbl : Bool) (x : Src) (k : Keep) (s : State) := finish s (float1 s dbl x k fun _ f a => (flipSign f a, 0))
def execFcmp (dbl : Bool) (x y : Src) (k : Keep) (s : State) := finish s (float2 s dbl x y k fun _ f a b => fCmp f a b)
def execFclass (dbl : Bool) (x : Src) (k : Keep) (s : State) := finish s (float1 s dbl x k fun _ f a => (fClass f a, 0))
def execFexf (dbl : Bool) (x : Src) (k : Keep) (s : State) := finish s (float1 s dbl x k fun _ f a => fExf f a)

/-- The floating format of a conversion code, and the range of an integer code (Table 12.12). -/
def ctyFmt : CTy → Option Fmt
  | .f32 => some binary32 | .f64 => some binary64 | .bf16 => some bfloat16 | .f16 => some float16 | _ => none
def ctyLo : CTy → Int
  | .i32 => -2 ^ 31 | .i64 => -2 ^ 63 | _ => 0
def ctyHi : CTy → Int
  | .i32 => 2 ^ 31 - 1 | .n32 => 2 ^ 32 - 1 | .i64 => 2 ^ 63 - 1 | .n64 => 2 ^ 64 - 1 | _ => 0
/-- The integer an integer code reads from a source (R283). -/
def ctyInt (t : CTy) (a : Word) : Int :=
  match t with
  | .i32 => (a.setWidth 32).toInt
  | .n32 => a.toNat % 2 ^ 32
  | .i64 => a.toInt
  | _ => a.toNat

/-- `fcvt` (R283): between floating formats, from or to an integer. -/
def convert (src dst : CTy) (rm : Rm) (a : Word) : Word × Word :=
  match ctyFmt src, ctyFmt dst with
  | some f, some g => let r := fConv f g rm (f.take a.toNat); (BitVec.ofNat 64 r.1, r.2)
  | some f, none => let r := fToInt f rm (ctyLo dst) (ctyHi dst) (f.take a.toNat); (BitVec.ofInt 64 r.1, r.2)
  | none, some g => let r := fOfInt g rm (ctyInt src a); (BitVec.ofNat 64 r.1, r.2)
  | none, none => (a, 0)

def execFcvt (src dst : CTy) (x : Src) (k : Keep) (r : Rm) (s : State) := finish s do
  let i ← s.cur
  let a ← readSrc i x
  let v := convert src dst (i.rm r) a
  .ok ((s.push i v.1 k).setFlags i v.2)

end Sys2Proof.Machine
end

