-- ==== Sys2Proof/Machine/Security.lean ====
section
/-! DEFINITION. What a DOE mailbox serves (R47, R57 to R59): discovery, IDE keys, the TDISP interface, secured sessions and
attestation. Keys stand as numbers, and an interface report as the values it is made of (log entry 9). -/

namespace Sys2Proof.Machine

/-! ### Mailboxes -/

/-- A function with a mailbox: PF0, or an enabled VF (R46). -/
def hasMailbox (s : State) (fn : Nat) : Bool := fn == 0 || (decide (fn ≤ 64) && (s.fn fn).enabled)

/-- A mailbox outside recovery, where every object type is served (R57). -/
def serves (s : State) (fn : Nat) : Bool := hasMailbox s fn && !s.recovery

/-- DOE_DISCOVERY: the three object types of R47 are returned. -/
def execDoeDiscovery (fn : Nat) (s : State) : Host.Outcome State Fault Refusal :=
  if serves s fn then .next (s.setFn fn { s.fn fn with discovered := true }) else .next s

/-- IDE_KM: the key of the link stream on PF0, of a selective stream on a VF. -/
def execIdeKm (fn key : Nat) (s : State) : Host.Outcome State Fault Refusal :=
  if serves s fn then .next (s.setFn fn { s.fn fn with ideKey := some key }) else .next s

/-- The choices of every session (R59). -/
def spdmAlgs : List SpdmAlg := [.hssLmsSha256, .sha256, .ecdheSecp384r1, .aes256gcm, .dmtf]

/-- SECURED_SPDM_SESSION (R59, R71): the most recent session gives the wrapping key of the function. -/
def execSecuredSpdmSession (fn key : Nat) (s : State) : Host.Outcome State Fault Refusal :=
  if serves s fn then .next (s.setFn fn { s.fn fn with session := some key, algs := spdmAlgs }) else .next s

/-! ### The TDISP interface of a VF (R47) -/

/-- A TDISP message to a VF in one of the states that accept it. Which states those are R47 does not say. DESIGN CHOICE, log entry 105:
a lock is accepted when unlocked, a start when locked, a stop in every state, a report when locked or running; another message
changes nothing. -/
def tdispMsg (s : State) (fn : Nat) (from_ : List Tdisp) (f : Fn → Fn) : Host.Outcome State Fault Refusal :=
  if fn ≠ 0 ∧ serves s fn ∧ from_.contains (s.fn fn).tdisp then .next (s.setFn fn (f (s.fn fn))) else .next s

def execLockInterface (fn : Nat) (s : State) : Host.Outcome State Fault Refusal :=
  tdispMsg s fn [.unlocked] fun f => { f with tdisp := .locked }
def execStartInterface (fn : Nat) (s : State) : Host.Outcome State Fault Refusal :=
  tdispMsg s fn [.locked] fun f => { f with tdisp := .run }
def execStopInterface (fn : Nat) (s : State) : Host.Outcome State Fault Refusal :=
  tdispMsg s fn [.unlocked, .locked, .run, .error] fun f => { f with tdisp := .unlocked }

/-- The interface report of a function's partition (Table 3.8). -/
def ifaceReport (s : State) (fn : Nat) : Report :=
  let b := (s.part (fn - 1)).budget
  { budget := b, keyslot := b.keyslot }

def execGetDeviceInterfaceReport (fn : Nat) (s : State) : Host.Outcome State Fault Refusal :=
  tdispMsg s fn [.locked, .run] fun f => { f with report := some (ifaceReport s fn) }

/-! ### Attestation (R58, R59) -/

/-- Signatures that one tree allows. -/
def treeLeaves : Nat := 32768

/-- A fresh lower tree, signed with the next leaf of the top tree. A device whose top tree is exhausted stays in recovery, where no VF is
enabled (R57). R58 does not say when it enters recovery if the tree is found exhausted while it runs. DESIGN CHOICE, log entry 106: at
once. -/
def State.newTree (s : State) : State :=
  if s.flash.topLeaf < treeLeaves then
    { s with flash := { s.flash with topLeaf := s.flash.topLeaf + 1 }, lowerUsed := 0 }
  else
    { s with recovery := true, lowerUsed := treeLeaves, fns := s.fns.map fun e => if e.1 = 0 then e else (e.1, { e.2 with enabled := false }) }

/-- The next leaf of the lower tree, which is regenerated when it is exhausted; none where no leaf is left. -/
def State.sign (s : State) : State × Option Nat :=
  let s := if s.lowerUsed < treeLeaves then s else s.newTree
  if s.lowerUsed < treeLeaves then ({ s with lowerUsed := s.lowerUsed + 1 }, some s.lowerUsed) else (s, none)

/-! The bytes that a digest is taken over: of records whose layout the spec does not give, their fields as words (log entry 107). -/

def wordBytes (l : List Nat) : List Byte := l.flatMap (leBytes 8)

def Config.bytes (c : Config) : List Byte :=
  wordBytes [c.clusters.toNat, c.spares.toNat, c.power, c.ports.toNat, c.cxl.toNat, c.minRev.toNat]

def Repair.bytes : Repair → List Byte
  | .core c => wordBytes [0, c, 0]
  | .channel st ch => wordBytes [1, st, ch]
  | .lane b => wordBytes [2, b, 0]
  | .row st r => wordBytes [3, st, r]

def Budget.bytes (b : Budget) : List Byte :=
  wordBytes ([b.hbmq, b.t1q, b.t2q, b.bwrt, b.bwint, b.bwbulk, b.bwbg, b.slice, b.tokens, b.tokcore, b.cmprmask.toNat, b.collmask.toNat,
    b.copymask.toNat, b.types, b.qbudget, b.detred.toNat, b.keyslot, b.berylmask.toNat, b.vtoff.toNat, b.vtscale.toNat, b.vtbase.toNat,
    b.vtfloor.toNat] ++ b.typeTable.map BitVec.toNat)

/-- The digests of Table 3.8, index 1 first; index 12 on a VF alone. -/
def Meas.digest (m : Meas) : List (BitVec 256) :=
  [Config.sha256 (leBytes 2 m.rom.toNat ++ m.image)] ++
    m.patches.map (fun p => match p with | some code => Config.sha256 code | none => 0) ++
    [Config.sha256 m.config.bytes, Config.sha256 (m.repairs.flatMap Repair.bytes)] ++
    (match m.iface with | some r => [Config.sha256 (r.budget.bytes ++ wordBytes [r.keyslot])] | none => [])

/-- The measurements of Table 3.8, with the interface report on a VF. -/
def measure (s : State) (fn leaf : Nat) : Meas :=
  let m : Meas :=
    { rom := s.romRev, image := s.romImage
      patches := (List.range 8).map fun k => nget? s.patchRam k
      algs := spdmAlgs, key := Config.identityKey s.seed, cert := s.flash.cert
      config := s.flash.config
      repairs := s.flash.repairs
      iface := if fn = 0 then none else some (ifaceReport s fn)
      topLeaf := s.flash.topLeaf
      leaf := leaf }
  { m with digests := m.digest }

/-- ATTEST (R59): served in recovery on PF0 as well (R57). -/
def execAttest (fn : Nat) (s : State) : Host.Outcome State Fault Refusal :=
  if hasMailbox s fn then
    match s.sign with
    | (s, some leaf) => .next (s.setFn fn { s.fn fn with measured := some (measure s fn leaf) })
    | (s, none) => .next s
  else .next s

end Sys2Proof.Machine
end

