-- ==== Sys2Proof/Machine/Migration.lean ====
section
/-! DEFINITION. A partition arrives from another module (R73, R75, R86, R216): its pages, its tree and its time registers, and what it runs,
which is restored under R85. Identifiers and transaction numbers that its own module had given out are shifted past those of this one. -/

namespace Sys2Proof.Machine

/-- Nodes and granules of a partition that migrates here, its pages in place: every count is as it was (R216). -/
def State.settleTree (s : State) (part : Nat) (nodes : List MovedNode) (grans : List MovedGran) : State :=
  let s := s.modPart part fun q =>
    { q with
      nodes := nodes.foldl (fun m n => nset m n.id
        { parent := n.parent, live := true, depth := n.depth, count := BitVec.ofNat 64 n.count, nchild := n.nchild, ngran := n.ngran })
        q.nodes
      freeNodes := 1048576 - max 1 nodes.length }
  grans.foldl (fun s g =>
    match s.walk part (g.gran / 16) with
    | .ok p => { s with grans := nset s.grans (p.frame * 16 + g.gran % 16)
                          { part := part, node := g.node, count := BitVec.ofNat 32 g.count } }
    | .error _ => s) s

/-- Pages of a partition that migrates here are mapped and take their bytes; its tree and its time registers are set (R73, R75, R216). -/
def State.settleMoved (s : State) (part : Nat) (pages : List (Nat × Nat)) (bytes : List (Nat × Byte)) (nodes : List MovedNode)
    (grans : List MovedGran) (base scale off floor : Word) : State :=
  if !s.partLive part then s
  else
    let s := pages.foldl (fun s e =>
      if (s.leafOf part e.1).isSome then s
      else
        (do let (t, f) ← s.anyPage part 0
            t.mapEntry part e.1 (e.2 * 2 ^ 55 + f * 2 ^ 16)).getD s) s
    let s := bytes.foldl (fun s e =>
      match s.walk part (e.1 / 2 ^ 16) with
      | .ok p => { s with mem := writeByte s.mem (p.frame * 2 ^ 16 + e.1 % 2 ^ 16) e.2 }
      | .error _ => s) s
    (s.settleTree part nodes grans).modPart part fun q => { q with vtbase := base, vtscale := scale, vtoff := off, vtfloor := floor }

/-! ### What it runs -/

/-- How far the numbers of another module are shifted: identifiers, transactions, gangs. -/
structure Shift where
  id : Nat
  txn : Nat
  gang : Nat
  /-- Its pages with those that take their place here. -/
  frames : List (Nat × Nat)
  deriving DecidableEq, Repr

def Shift.frame (v : Shift) (f : Nat) : Nat := ((v.frames.find? fun e => e.1 == f).map Prod.snd).getD f

/-- The place of bytes here: of memory, in the page that took the place of theirs. -/
def Shift.part (v : Shift) (p : Part8) : Part8 :=
  match p.at_ with
  | .mem k => if k < 2 ^ 51 then { p with at_ := .mem (v.frame (k / 2 ^ 16) * 2 ^ 16 + k % 2 ^ 16) } else p
  | _ => p

/-- The key of a process here: an engine thread's names its fork. -/
def Shift.proc (v : Shift) (k : Nat) (p : Proc) : Nat :=
  match p.engine with | some g => engineKey (g.txn + v.txn) (ownerOf k) | none => k

def FRec.shift (v : Shift) (r : FRec) : FRec := { r with inst := r.inst + v.id, txn := if r.txn = 0 then 0 else r.txn + v.txn }

/-- A process: what it has observed is in place here. -/
def Proc.shift (v : Shift) (p : Proc) : Proc :=
  { p with
    inst := p.inst + v.id
    gang := if p.gang = 0 then 0 else p.gang + v.gang
    nPend := p.nPend.map fun e => (e.1, e.2 + v.txn)
    vPend := p.vPend.map fun e => (e.1, e.2 + v.txn)
    out := p.out.map (· + v.txn)
    hold := match p.hold with | some (.access t sw) => some (.access (t + v.txn) sw) | h => h
    opened := p.opened.map (· + v.txn)
    held := p.held.map (· + v.id)
    handles := p.handles.map (· + v.id)
    faults := p.faults.map (FRec.shift v)
    engine := p.engine.map fun g => { g with txn := g.txn + v.txn }
    fences := [], know := Clock.zero, floor := Clock.zero }

/-- A transaction, to be issued again. -/
def Txn.shift (v : Shift) (cyc : Nat) (x : Txn) : Txn :=
  { x with
    inst := x.inst + v.id
    op := match x.op.mapParts v.part with | .mdrain l f => .mdrain (l.map (· + v.txn)) f | o => o
    partner := x.partner.map (· + v.txn)
    kin := x.kin.map (· + v.txn)
    issued := cyc, due := cyc, clock := Clock.zero }

def CoreImg.shift (v : Shift) (g : CoreImg) : CoreImg :=
  { g with
    area := none
    k := { g.k with
      sb := g.k.sb.map fun e => { e with txn := e.txn + v.txn }
      objs := g.k.objs.map fun e => (e.1, { e.2 with txn := e.2.txn + v.txn })
      mPend := g.k.mPend.map fun e => (e.1, e.2 + v.txn) } }

def Chan.shift (v : Shift) (c : Chan) : Chan :=
  { c with sendq := c.sendq.map (· + v.txn), recvq := c.recvq.map (· + v.txn), flight := c.flight.map (· + v.txn), clock := Clock.zero }

def Inst.shift (v : Shift) (i : Inst) : Inst :=
  { i with
    obj := i.obj + v.id, entry := none, queue := i.queue.map (· + v.id), frames := i.frames.map v.frame
    heapBase := v.frame (i.heapBase / 2 ^ 16) * 2 ^ 16
    areaPa := if i.areaPa = 0 then 0 else v.frame (i.areaPa / 2 ^ 16) * 2 ^ 16 + i.areaPa % 2 ^ 16 }

def NetObj.shift (v : Shift) (o : NetObj) : NetObj :=
  { o with frames := o.frames.map v.frame, running := o.running.map (· + v.id), waiting := [] }

def Gang.shift (g : Gang) : Gang := { g with barrier := [] }

def SaveImg.shift (v : Shift) (cyc : Nat) (g : SaveImg) : SaveImg :=
  { g with
    cores := g.cores.map (CoreImg.shift v), held := g.held.map (CoreImg.shift v)
    procs := g.procs.foldl (fun m e => nset m (v.proc e.1 e.2) (e.2.shift v)) []
    replay := g.replay.map fun e => (e.1 + v.txn, e.2.shift v cyc)
    phases := g.phases.map fun e => (e.1, { e.2 with holder := e.2.holder + v.id, clock := Clock.zero }) }

/-- Keys and values of a map put into another. -/
def merge {α : Type} (m l : NMap α) : NMap α := l.foldl (fun m e => nset m e.1 e.2) m

/-- Pages here for those that no virtual page names: a run of them for each heap, one for each of the others; none where there are too
few. -/
def State.looseFrames (s : State) (part : Nat) (run : MovedRun) : Option (State × List (Nat × Nat)) := do
  let a ← run.insts.foldlM (fun (a : State × List (Nat × Nat)) e =>
    let n := e.2.heapLim / 2 ^ 16
    let tier := match nget? run.objs e.2.obj with | some o => if o.img.heapT1 then 1 else 0 | none => 0
    if n = 0 then some a
    else
      (heapRun a.1 part tier n).map fun f =>
        (a.1.modPart part fun q => { q with used := q.used ++ (List.range n).map (f + ·) },
          a.2 ++ (List.range n).map fun j => (e.2.heapBase / 2 ^ 16 + j, f + j))) (s, [])
  run.loose.foldlM (fun (a : State × List (Nat × Nat)) f =>
    if a.2.any fun e => e.1 == f then some a else (a.1.anyPage part 0).map fun r => (r.1, a.2 ++ [(f, r.2)])) a

/-- What a partition ran goes on here (R85, R86), on its own clusters; it stays where it is not restored (log entry 113). -/
def State.settleRun (s : State) (part : Nat) (run : MovedRun) : State :=
  match s.looseFrames part run with
  | none => s
  | some (t, loose) =>
    let named := run.frames.filterMap fun e => match t.walk part e.1 with | .ok p => some (e.2, p.frame) | .error _ => none
    let v : Shift := { id := t.nextId, txn := t.nextTxn, gang := t.gangs.foldl (fun a e => max a e.1) 0, frames := named ++ loose }
    let cell (c : Host.Cell) : Host.Cell := if c.1 < 2 ^ 51 then (v.frame (c.1 / 2 ^ 16) * 2 ^ 16 + c.1 % 2 ^ 16, c.2) else c
    let t : State := { t with
      mem := putCells t.mem (run.bytes.map cell)
      insts := merge t.insts (run.insts.map fun e => (e.1 + v.id, e.2.shift v))
      objs := merge t.objs (run.objs.map fun e => (e.1 + v.id, e.2.shift v))
      gangs := merge t.gangs (run.gangs.map fun e => (e.1 + v.gang, e.2.shift))
      recs := merge t.recs (run.recs.map fun e => (e.1 + v.id, e.2.shift v))
      managed := t.managed ++ (run.managed.filter fun id => (nget? run.recs id).isSome).map (· + v.id)
      grans := merge t.grans (run.grans.map fun g => (v.frame (g.gran / 16) * 16 + g.gran % 16,
        { part := part, node := g.node, count := BitVec.ofNat 32 g.count }))
      nextId := t.nextId + run.ids, nextTxn := t.nextTxn + run.txns }
    -- a restore moves the charges of an instance from the cores that it comes from
    let t := run.insts.foldl (fun s e => e.2.tokens.foldl (fun s c => s.modCore c.1 fun k => { k with grant := k.grant + c.2 }) s) t
    let t := t.modPart part fun q => { q with chans := merge q.chans (run.chans.map fun e => (e.1, e.2.shift v)) }
    let mask := (ownClusters t part).foldl (fun (m : BitVec 64) c => m ||| (1#64 <<< c)) 0
    let img := run.img.shift v t.cycle
    if (t.restoreSet part img mask).isNone then s
    else
      let t := t.withCores part fun t => (t.restoreSet part img mask).getD t
      if t.runs part then t.joinRotation part else t

end Sys2Proof.Machine
end

