-- ==== Sys2Proof/Machine/Links.lean ====
section
/-! DEFINITION. Buneam receiving and port events (R33 to R37, R72, R141, R193, R211, R288, R311, R379), the rebinding of a channel
(R36), and the CXL ports (R31). -/

namespace Sys2Proof.Machine

/-! ### Accesses that other modules make here (R193, R204, R211, R288) -/

/-- An access of another module becomes a transaction of this one, which is translated here and served at its home. One requester's
accesses have one issuer, whose number no process has. -/
def State.takeAccess (s : State) (port part off len : Nat) (f : Nat × Nat × Nat) (wide sca : Bool) (op : List Part8 → Op) : State :=
  if !s.partLive part then s.sendFab f.1 f.2.1 (.replyFault f.2.2)
  else if len = 0 then s
  else
    (s.newTxn { issuer := (f.1 * 64 + f.2.1 + 1) * 2 ^ 32, core := nodeOfDie (port / 6) 0 * 8, part := part, inst := 0, loc := 0
                op := op [{ at_ := .virt off, len := len, va := off }], issued := s.cycle, due := s.cycle, far := some f, wide := wide, sca := sca }).1

/-! ### Answers of other modules -/

/-- What a write leaves in the bytes that stand in for another module's memory, if it was applied there. -/
def State.lostBytes (s : State) : Op → List Byte
  | .store _ bs => bs
  | .red op l v => (s.redBytes op l (v.toNat % 2 ^ (8 * atomBytes op))).1
  | .redx int l v => (s.redxBytes int l v).1
  | _ => []

/-- The answer to part `j` of an access: the bytes found there, or that a write is applied, with its flags (R296). With the last one the
access is served. -/
def State.takeReply (s : State) (n : Nat) (bs : List Byte) (fl : Word) : State :=
  let t := n / 256
  match nget? s.txns t with
  | none => s
  | some x =>
    match x.stage, x.op with
    | .waiting, .send .. | .waiting, .sendt .. =>
      if bs = [2] then s.blockFar t
      else s.setTxn t { x with stage := .back (sendDeliver (BitVec.ofNat 64 (bs.headD 0).toNat)), due := s.cycle }
    | .sent, _ =>
      if !x.fab || !x.away then s
      else
        let s : State := match x.op.parts[n % 256]? with
          | some { at_ := .mem k, .. } => if x.op.role = .ld ∨ x.op.role = .at_ then { s with mem := writeBytes s.mem k bs } else s
          | _ => s
        let x := { x with marks := n % 256 :: x.marks.filter (· != n % 256) }
        if x.marks.length < x.op.parts.length then s.setTxn t x
        else if x.op.role = .ld then s.serveRead t x
        else if x.op.role = .at_ then s.serveAtomic t x
        else (s.applyParts (x.who t) x.op.parts (s.lostBytes x.op)).endWrite t x fl
    | _, _ => s

/-- The number of an access kind in a record (Table 8.3). -/
def accOfRole : Role → Acc5
  | .at_ => .atomic | .rd => .reduction | .st => .store | _ => .load

/-- An access that another module turns away: a translation fault (R288) is class C for a load or atomic, and deferred for a store or
reduction, which is dropped; data that cannot be corrected is class C (R31, R183). -/
def State.remoteFault (s : State) (n : Nat) (bad : Bool) : State :=
  let t := n / 256
  match nget? s.txns t with
  | none => s
  | some x =>
    let p := x.op.parts.getD (n % 256) { at_ := .virt 0, len := 0 }
    if !x.fab then s
    else if bad then
      if x.op.role.write && x.op.role != .at_ then s.failT t x (badRead s x p.va) else s.setTxn t { x with stage := .failed (badRead s x p.va) }
    else
      let size := x.op.parts.foldl (fun n p => n + p.len) 0
      let tr := { pageFault (accOfRole x.op.role) size (p.va % 2 ^ 41) x.part none with sub := 1 }
      if x.op.role.write && x.op.role != .at_ then ((s.deferRec (ownerOf x.issuer) tr x.loc x.bword).breakTag x).dropTxn t
      else s.setTxn t { x with stage := .failed (recC s x tr) }

/-! ### Receiving (R33, R35, R72) -/

/-- The local partition that a message is for, and the module and partition that send it where it says so; none for a control flit,
and for an answer to nothing. -/
def msgPair (s : State) : FabMsg → Option (Nat × Option (Nat × Nat))
  | .read p _ _ m r _ _ _ | .write p _ _ m r _ _ _ | .red _ p _ _ m r _ | .redx _ p _ _ m r _ | .atom _ p _ _ m r _ | .cas _ p _ _ _ m r _
  | .arrival p _ m r _ | .phaseLoad p _ _ m r | .chanSend p _ m r _ _ _ => some (p, some (m, r))
  | .reply n _ | .replyFault n | .replyBad n | .ack n _ =>
    (nget? s.txns (n / 256)).map fun x => (x.part,
      match x.op with
      | .send ch _ | .sendt ch _ => (s.chan? x.part ch).map fun c => (c.module, c.rpart)
      | _ => x.op.parts.findSome? fun p => match p.at_ with
        | .mem k => if 2 ^ 80 ≤ k then (s.bound x.part ((k - 2 ^ 80) / 2 ^ 41)).map fun b => (b.module, b.remotePart) else none
        | _ => none)
  | .counted n | .overrun n => (nget? s.farArr n).map fun a => (partOf a.proc, some (a.module, a.part))
  | .moved p m r .. => some (p, some (m, r))
  | .ptp | .other => none

/-- The key slot of a flit is bound to the two partitions that it passes between (R72). -/
def slotBound (s : State) (f : Flit) : Bool :=
  match msgPair s f.msg with
  | none => true
  | some (p, q) => match nget? s.keys (hdrSlot f.hdr) with
    | some k => k.localPart == p && (match q with | some (m, r) => k.module == m && k.remotePart == r | none => true)
    | none => false

/-- The MAC of a flit is right: its tag, or zero where no key encrypts it (Table 2.4). -/
def macGood (s : State) (port : Nat) (f : Flit) : Bool :=
  if (nget? s.keys (hdrSlot f.hdr)).isNone && (s.port port).key.isNone then f.mac == 0 else f.macOk

/-- An arrival of another module counts in the round of a slot (R200). -/
def State.farRound (s : State) (part slot : Nat) : State :=
  match s.phase? part slot with
  | some f => s.setPhase part slot { f with far := true }
  | none => s

/-- What a flit brings about. -/
def State.deliverFab (s : State) (port : Nat) (m : FabMsg) : State :=
  match m with
  | .read p off len src sp n wide sca => s.takeAccess port p off len (src, sp, n) wide sca .fabRead
  | .write p off bs src sp n wide sca => s.takeAccess port p off bs.length (src, sp, n) wide sca fun l => .store l bs
  | .red op p off v src sp n => s.takeAccess port p off (atomBytes op) (src, sp, n) false false fun l => .red op l (BitVec.ofNat 64 v)
  | .redx int p off v src sp n => s.takeAccess port p off 72 (src, sp, n) false false fun l => .redx int l v
  | .atom op p off v src sp n => s.takeAccess port p off (atomBytes op) (src, sp, n) false false fun l => .atom op l (BitVec.ofNat 64 v)
  | .cas wide p off y z src sp n =>
    s.takeAccess port p off (if wide then 8 else 4) (src, sp, n) false false fun l => .cas wide l (BitVec.ofNat 64 y) (BitVec.ofNat 64 z)
  | .arrival p slot src sp n =>
    match (s.foreign p slot 0).bind fun i => (s.farRound p slot).countDown p slot i Clock.zero with
    | some s => s.sendFab src sp (.counted n)
    | none => s.sendFab src sp (.overrun n)
  | .phaseLoad p slot n .. => match s.foreign p slot 0, s.phase? p slot with
    | some i, some f => (s.setPhase p slot (f.count i fun _ => n)).riseLine p slot
    | _, _ => s
  | .chanSend p ch src sp n bs dl => (s.inject p ch bs [src, sp, n] 0 dl).modChan p ch fun c => { c with fed := true }
  | .reply n bs => s.takeReply n bs 0
  | .ack n fl => s.takeReply n [] fl
  | .replyFault n => s.remoteFault n false
  | .replyBad n => s.remoteFault n true
  | .counted n => { s with farArr := ndel s.farArr n }
  | .overrun n => match nget? s.farArr n with
    | some a => ({ s with farArr := ndel s.farArr n } : State).deferRec a.proc { kind := .phaseOverrun } a.loc a.bword
    | none => s
  | .moved p _ sp pages bytes _ run nodes grans base scale off floor =>
    let s := s.settleMoved p pages bytes nodes grans base scale off floor
    if p = sp ∧ s.partLive p then s.settleRun p run else s
  | .ptp => s.setPort port { s.port port with stamp := some s.time }
  | .other => s

/-- Remote accesses whose reply is outstanding on a port. -/
def outstandingOn (s : State) (port : Nat) : List (Nat × Txn) :=
  s.txns.filter fun e => s.portOf e.2.part e.2.op.parts == some port &&
    (match e.2.stage with | .sent | .back _ => true | _ => false)

/-- A port goes down, and firmware is told (R35, R36, R288): its keys are discarded; a load or atomic outstanding on it fails in class C,
a store or reduction leaves a deferred record, applied or not. -/
def State.portDown (s : State) (port : Nat) : State :=
  let l := outstandingOn s port
  let s := l.foldl (fun s e =>
    let x := e.2
    let tr : Trap := { kind := .uncorrectableData, addr := BitVec.ofNat 64 ((x.op.parts.headD { at_ := .virt 0, len := 0 }).va) }
    if x.op.role.write && x.op.role != .at_ then
      let done := Config.freeBit s.fresh
      let s : State := { s with fresh := s.fresh + 1 }
      let s := if done then s.applyParts (x.who e.1) x.op.parts (s.lostBytes x.op) else s
      if s.fromEngine x then (s.failLine x tr).dropTxn e.1
      else ((s.deferRec (ownerOf x.issuer) tr x.loc x.bword).breakTag x).dropTxn e.1
    else s.setTxn e.1 { x with stage := .failed (recC s x tr) }) s
  -- an arrival whose answer is lost is waited for no longer (log entry 118)
  let s : State := { s with
    keys := s.keys.filter fun k => fabPort k.2.module k.2.remotePart != port
    farArr := s.farArr.filter fun e => fabPort e.2.module e.2.part != port }
  let s := (s.setPort port { s.port port with down := true, key := none, macFail := none, replay := [], queue := [] }).ringDev (.portDown port)
  -- an end that is bound through it is left blocked (R36)
  s.txns.foldl (fun s e => match e.2.op with
    | .send ch _ | .sendt ch _ =>
      let here := match s.chan? e.2.part ch with | some c => c.bkind == 4 && fabPort c.module c.rpart == port | none => false
      if here then s.blockFar e.1 else s
    | _ => s) s

/-- BUNEAM_FLIT_RECEIVE (R35): CRC, then MAC; a flit out of sequence follows a discarded one, or repeats a delivered one. -/
def execBuneamFlitReceive (port : Nat) (f : Flit) (s : State) : Host.Outcome State Fault Refusal :=
  let p := s.port port
  if 24 ≤ port ∨ p.down ∨ f.seq ≠ p.rxSeq then .next s
  else if !f.crcOk then .next (s.setPort port { p with nacks := p.nacks + 1 })
  else if !(macGood s port f && slotBound s f) then
    if p.macFail = some f.seq.toNat then .next (s.portDown port)
    else .next (s.setPort port { p with nacks := p.nacks + 1, macFail := some f.seq.toNat })
  else .next ((s.setPort port { p with rxSeq := p.rxSeq + 1, macFail := none }).deliverFab port f.msg).pumpAll.wakeAlts

/-- BUNEAM_NACK (R35): the flits held from the named sequence number on are sent again. -/
def execBuneamNack (port seq : Nat) (s : State) : Host.Outcome State Fault Refusal :=
  let p := s.port port
  if 24 ≤ port ∨ p.down then .next s
  else .next (s.setPort port { p with resent := p.resent + (p.replay.dropWhile fun e => e.seq != seq).length })

/-- PTP_EVENT_MESSAGE (R76): the port stamps an event message, and the boundary clock disciplines the counter by it: a frequency offset of
at most 100 ppm and a phase step, and whether the counter is then locked (log entry 108). -/
def execPtpEventMessage (v : ClockServo) (s : State) : Host.Outcome State Fault Refusal :=
  if 24 ≤ v.port ∨ (s.port v.port).down then .next s
  else
    let s := s.setPort v.port { s.port v.port with stamp := some s.time }
    .next { s.adjTime (max (-100000) (min v.ppb 100000)) v.step with timeLock := v.lock }

/-! ### Lanes and keys (R34, R37) -/

/-- LANE_SPARE_SUBSTITUTION: the spare replaces a lane, the port retrains, and firmware records it (R40). -/
def execLaneSpareSubstitution (port : Nat) (s : State) : Host.Outcome State Fault Refusal :=
  let p := s.port port
  if 24 ≤ port ∨ p.down ∨ !p.spare then .next s
  else
    let s := s.setPort port { p with spare := false, retrain := true }
    .next { s with flash := { s.flash with repairs := s.flash.repairs ++ [.lane port] } }

/-- PORT_RETRAIN_END: the flits that waited at the sender flow. -/
def execPortRetrainEnd (port : Nat) (s : State) : Host.Outcome State Fault Refusal :=
  let p := s.port port
  if !p.retrain then .next s
  else .next ((s.setPort port { p with retrain := false }).flushPort port)

/-- LANE_LOSS_HALF_RATE: two lanes, at half rate. -/
def execLaneLossHalfRate (port : Nat) (s : State) : Host.Outcome State Fault Refusal :=
  let p := s.port port
  if 24 ≤ port ∨ p.down ∨ p.spare then .next s else .next (s.setPort port { p with lanes := 2, half := true })

/-- LINK_KEY_REPLACEMENT (R34, R35, R60): a new key and session identifier for the link and for the key table entries that use it, their flit
counts at zero, and the flits that waited for it go. A port that is down carries traffic again, from sequence number 0, only under a new
session; one that the configuration record does not enable stays down. -/
def execLinkKeyReplacement (v : LinkSession) (s : State) : Host.Outcome State Fault Refusal :=
  let p := s.port v.port
  if 24 ≤ v.port ∨ !s.flash.config.ports.getLsbD v.port ∨ (p.down ∧ v.session = p.session) then .next s
  else
    let q := if p.down then { p with down := false, txSeq := 0, rxSeq := 0, replay := [] } else p
    let k := s.nextId
    let s : State := { s with
      nextId := k + 1
      keys := s.keys.map fun e =>
        if fabPort e.2.module e.2.remotePart = v.port then (e.1, { e.2 with key := k, session := v.session, sent := 0 }) else e }
    .next ((s.setPort v.port { q with key := some k, session := v.session, sent := 0 }).flushPort v.port)

/-- FIRMWARE_CHANNEL_REBIND (R36): a channel bound through a port that went down is bound to a process, and what is blocked on it
goes on. -/
def execFirmwareChannelRebind (part chan proc : Nat) (s : State) : Host.Outcome State Fault Refusal :=
  match s.chan? part chan with
  | none => .next s
  | some c =>
    let held := s.txns.filter fun e => e.2.part == part && e.2.stage == .waiting &&
      (match e.2.op with | .send j _ | .sendt j _ => j == chan | _ => false)
    if c.bkind = 4 ∧ (s.port (fabPort c.module c.rpart)).down ∧ partOf proc = part ∧ (nget? s.procs proc).isSome ∧
        (s.proc proc).st ≠ .exited then
      let s := s.rebind part chan fun j => if j = 0 then proc * 2 ^ 32 else 0
      -- a send that waited for a match at the far end offers its message again
      let s := held.foldl (fun s e =>
        let s := if e.2.started then
            (match e.2.range with | some (o, inc) => s.retire e.2.core e.1 inc o e.2.progress | none => s)
          else s
        (s.setTxn e.1 { e.2 with stage := .sent, started := false }).modChan part chan fun c => { c with sendq := c.sendq ++ [e.1] }) s
      .next (held.foldl (fun s e => s.blockOp part chan e.1) (s.chanChanged part chan))
    else .next s

/-! ### CXL ports (R31) -/

def State.cxlPort (s : State) (d : Nat) : Cxl := nget {} s.cxl d
def State.setCxl (s : State) (d : Nat) (c : Cxl) : State := { s with cxl := nset s.cxl d c }

/-- CXL_LINK_FAILURE of a port that the configuration record enables (R60): it retrains, up to three times; requests to its window
wait. -/
def execCxlLinkFailure (d : Nat) (s : State) : Host.Outcome State Fault Refusal :=
  let c := s.cxlPort d
  if 4 ≤ d ∨ s.flash.config.cxl.getLsbD d = false ∨ c.lost ∨ 3 ≤ c.attempts then .next s
  else .next (s.setCxl d { c with retraining := true, attempts := c.attempts + 1 })

/-- CXL_RETRAIN_END: the requests that waited proceed. -/
def execCxlRetrainEnd (d : Nat) (s : State) : Host.Outcome State Fault Refusal :=
  let c := s.cxlPort d
  if c.retraining then .next (s.setCxl d { c with retraining := false, attempts := 0 }) else .next s

/-- Bytes of a port's window. -/
def State.inWindow (s : State) (d : Nat) (l : List Part8) : Bool := l.any fun p => match p.at_ with
  | .mem k => decide (2 ^ 44 ≤ s.live k) && decide (s.live k < 2 ^ 51) && s.live k / 2 ^ 42 % 4 == d
  | _ => false

/-- What a lost port leaves of an access of its window (R31): a read outstanding fails; a store or reduction that a memory server has
accepted is applied or not. -/
def State.loseAccess (s : State) (d t : Nat) (x : Txn) : State :=
  if !s.inWindow d x.op.parts then s
  else
    match x.stage, x.op.role with
    | .sent, .ld | .back _, .ld => s.setTxn t { x with stage := .failed (badRead s x (firstVa x.op.parts)) }
    | .sent, .st | .sent, .rd =>
      if (s.slicesOf x.op.parts).any fun c => (s.slots c).contains t then
        let done := Config.freeBit s.fresh
        let s : State := { s with fresh := s.fresh + 1 }
        if done then s.serveWrite t x else s.endWrite t x 0
      else s
    | _, _ => s

/-- CXL_PORT_LOST: retraining has failed. Reads of the window outstanding fail, and those and writes that come later fail as they are
served; motions with their destination there abort (R103), and the host is told. -/
def execCxlPortLost (d : Nat) (s : State) : Host.Outcome State Fault Refusal :=
  let c := s.cxlPort d
  if !c.retraining then .next s
  else
    let s := s.txns.foldl (fun s e => s.loseAccess d e.1 e.2) s
    let s := s.setCxl d { c with retraining := false, lost := true }
    let l := s.motions.filter fun m => m.2.st == .copying && frameTier s m.2.dst == 2 && frameStack m.2.dst == d
    .next ((l.foldl (fun s m => s.abortMotion m.1 m.2 .cxlLoss) s).ringDev (.portLost d))

end Sys2Proof.Machine
end

