-- ==== Sys2Proof/Machine/Module.lean ====
section
/-! DEFINITION. The module as a whole: reset (R40, R45, R52, R57, R58, R60), temperature and the 1PPS edge (R44, R76, R262), the
retirement of a core (R40, R182), and the memory stacks (R40, R41, R110 to R112). -/

namespace Sys2Proof.Machine

/-! ### Reset (R45) -/

/-- The spare of a core's cluster is free and allowed (R40, R60). -/
def spareFree (s : State) (core : Nat) : Bool :=
  s.flash.config.spares.getLsbD (clusterOf core) && (coresIn (clusterOf core)).all fun c => !(s.core c).spare

/-- Patch slots that firmware copies into patch RAM, with their code: of eight, those whose signature is good and whose target is the ROM's
revision (R52). -/
def loadedPatches (s : State) : NMap (List Byte) :=
  (s.flash.patches.filter fun e => decide (e.1 < 8) && e.2.good && e.2.target == s.romRev).map fun e => (e.1, e.2.code.take 65536)

/-- The filled slots that it skips. -/
def skippedPatches (s : State) : List Nat :=
  (s.flash.patches.filter fun e => decide (e.1 < 8) && !(e.2.good && e.2.target == s.romRev)).map Prod.fst

/-- A substitution of the repair log is applied again (R40). -/
def State.applyRepair (s : State) (r : Repair) : State :=
  match r with
  | .core c => s.modCore c fun k => { k with spare := true }
  | .channel st ch => s.setMbd st { s.mbd st with substituted := some ch }
  | .lane b => s.setPort b { s.port b with spare := false }
  | .row st row => s.setMbd st { s.mbd st with repaired := (s.mbd st).repaired ++ [row] }

/-- A substitution goes into the repair log (R40). -/
def State.logRepair (s : State) (r : Repair) : State := { s with flash := { s.flash with repairs := s.flash.repairs ++ [r] } }

/-- A core that fails its self-check takes the spare of its cluster, where that is free (R40, R45; log entry 109). -/
def State.selfCheck (s : State) (core : Nat) : State :=
  if 512 ≤ core ∨ !spareFree s core then s else (s.applyRepair (.core core)).logRepair (.core core)

/-- The records of flash let the module leave recovery (R45, R57, R60). -/
def flashGood (s : State) : Bool := s.flash.config.good && s.flash.repairGood && decide (s.flash.config.minRev.toNat ≤ s.romRev.toNat)

/-- The machine after a reset: the ROM, flash, host memory and what other modules hold stay, and everything else stands as at power-on
(log entries 1 to 3). The steps of R45: the seed is reconstructed, the records of flash are verified, a CXL device that needs an absent
feature is left out, the cores check themselves, the repair log is applied, and the host is told, unless the module is in recovery. -/
def State.restart (s : State) (bad absent : List Nat) : State :=
  let t : State := { State.reset with
    mem := s.mem.filter fun c => decide (2 ^ 64 ≤ c.1)
    romRev := s.romRev
    romImage := s.romImage
    puf := s.puf
    seed := s.puf
    flash := s.flash
    saved := s.saved
    moduleId := s.moduleId
    ring := s.ring
    fresh := s.fresh
    nextId := s.nextId
    agenda := s.agenda
    auto := s.auto }
  let t : State := { t with recovery := !flashGood t, patchRam := loadedPatches t }
  let t := (skippedPatches t).foldl (fun t k => t.ringDev (.patchSkipped k)) t
  let t := t.newTree
  let t := (absent.filter fun d => decide (d < 4) && t.flash.config.cxl.getLsbD d).foldl (fun t d =>
    ({ t with cxl := nset t.cxl d { absent := true } } : State).ringDev (.cxlAbsent d)) t
  let t := if t.flash.repairGood then t.flash.repairs.foldl State.applyRepair t else t
  let t := bad.foldl State.selfCheck t
  let t := ((List.range 24).filter fun b => !t.flash.config.ports.getLsbD b).foldl (fun t b => t.setPort b { t.port b with down := true }) t
  if t.recovery then { t with hostTold := false } else { t with hostTold := true }.ringDev .ready

/-- RESET (R45), with the cores that fail their self-check and the CXL ports whose devices need an absent feature (R30). A cold and a warm
reset differ in nothing that the spec names. -/
def execReset (v : Restarting) (s : State) : Host.Outcome State Fault Refusal := .next (s.restart v.bad v.absent)

/-! ### Temperature and the 1PPS edge (R44, R76, R262) -/

/-- THERMAL_SLOWDOWN: the die has reached 105 °C. -/
def execThermalSlowdown (die temp : Nat) (s : State) : Host.Outcome State Fault Refusal :=
  if die < 4 ∧ 105 ≤ temp then .next (s.setDie die { s.die die with slow := true }) else .next s

/-- SLOWDOWN_LIFT: no earlier than the die falls below 105 °C. -/
def execSlowdownLift (die temp : Nat) (s : State) : Host.Outcome State Fault Refusal :=
  if die < 4 ∧ temp < 105 then .next (s.setDie die { s.die die with slow := false }) else .next s

/-- THERMAL_TRIP: at 115 °C firmware stops the module and tells the host. -/
def execThermalTrip (die temp : Nat) (s : State) : Host.Outcome State Fault Refusal :=
  if die < 4 ∧ 115 ≤ temp then .next ({ s with stopped := true }.ringDev .thermalTrip) else .next s

/-- PPS_EDGE: the device counter is latched. -/
def execPpsEdge (s : State) : Host.Outcome State Fault Refusal := .next { s with ppsLatch := s.time }

/-! ### A core that is lost (R182) -/

/-- A process that moves to the spare: NEW, or rated and DORMANT. -/
def movesOver (p : Proc) : Bool :=
  let st := if p.st = .stopped then p.was else p.st
  st == .new || (p.rated && st == .dormant)

/-- The processes of a core that are lost, and the other members of their gangs. -/
def lostProcs (s : State) (core : Nat) : List Nat × List Nat :=
  let here := (s.procs.filter fun e => e.2.core == core && e.2.engine.isNone && e.2.st != .exited && !movesOver e.2).map Prod.fst
  let mates := (s.gangs.filter fun g => g.2.members.any fun k => (s.proc k).core == core && (s.proc k).st != .exited).flatMap fun g =>
    g.2.members.filter fun k => !here.contains k && (s.proc k).st != .exited && (nget? s.procs k).isSome
  (here, mates.eraseDups)

/-- The engine operations of a lost core end FAILED, those of processes that have ended or are DORMANT too: their tokens are back before the
spare begins, and a fork is no longer among those of its engine (R182). -/
def State.failEngines (s : State) (core : Nat) : State :=
  let s := s.txns.foldl (fun s e =>
    match e.2.op with
    | .eng c obj _ =>
      if c = core then s.endEng e.1 e.2 c obj (.error (recC s e.2 { kind := .coreLost, e5 := BitVec.ofNat 64 core })) else s
    | _ => s) s
  { s with
    engines := s.engines.map fun e => (e.1, { e.2 with forks := e.2.forks.filter fun t => (nget? s.txns t).isSome })
    procs := s.procs.map fun e => match e.2.engine with
      | some g => if (nget? s.txns g.txn).isNone then (e.1, { e.2 with st := .exited }) else e
      | none => e }

/-- What a lost process has sent and the module carries out all the same: writes, what the tree's walkers have been asked for, and a `repar`
that holds locks, which ends by releasing them (R215, R216). -/
def goesOn (x : Txn) : Bool :=
  x.op.role.write || (match x.op with | .enrol .. | .unenrol .. | .shoot .. | .arrive .. => true | .repar .. => x.stage != .sent | _ => false)

/-- The transactions of a lost process: what goes on does so with nobody to receive its results, and nothing is left of the others. -/
def State.loseTxns (s : State) (k : Nat) : State :=
  let mine := s.txns.filter fun e => e.2.issuer == k
  let s := mine.foldl (fun s e =>
    match e.2.op, e.2.partner with
    | .eng .., _ => s
    | _, some u => s.unmatch u
    | _, none => s) s
  { s with
    txns := (s.txns.filter fun e => e.2.issuer != k || goesOn e.2).map fun e =>
      if e.2.issuer = k then (e.1, { e.2 with tgt := {} }) else e }

/-- A process of a lost core: its state is gone. -/
def Proc.lost (p : Proc) : Proc :=
  { p with q := Vector.replicate 16 0, qPend := 0, n := Vector.replicate 32 0, nPend := [], v := [], vPend := [], p := [], rep := {}
           out := [], hold := none, exiting := false, faults := [], fences := [] }

/-- A CORE_LOST record for one process (R182). -/
def State.coreLost (s : State) (core k : Nat) : State :=
  let s := s.dropWaits k
  let p := s.proc k
  let r := mkRec s k .c { kind := .coreLost, e5 := BitVec.ofNat 64 core } p.pc false
  let stopped := p.st = .stopped
  let s := s.takeFault k r p.pc
  if stopped then s.modProc k fun p => { p with st := .stopped, was := .faulted } else s

/-- CORE_RETIRE (R40, R182). -/
def execCoreRetire (core : Nat) (s : State) : Host.Outcome State Fault Refusal :=
  if 512 ≤ core ∨ !spareFree s core then .next s
  else
    let l := lostProcs s core
    let s := l.1.foldl (fun s k => (s.dropAlt k).loseTxns k) (s.failEngines core)
    let s := l.1.foldl (fun s k => ((s.unschedule k).modProc k Proc.lost)) s
    -- the spare: queues of processes that have never run, their kept contexts and the charges of the instances
    let s := s.modCore core fun c =>
      { ready := c.ready.map fun e => (e.1, e.2.filter fun k => !l.1.contains k), resv := c.resv.filter fun e => !l.1.contains e.2
        grant := c.grant, free := c.grant, spare := true, dirtyLog := c.dirtyLog, sideLog := c.sideLog }
    let held := (s.insts.filter fun v => v.2.spadCores.contains core).map Prod.fst
    let s : State := { s with mem := clearBytes s.mem (spadKey core 0) (2 ^ 18) }
    let s := held.foldl (fun s i => (s.modInst i fun v => { v with spadCores := v.spadCores.filter (· != core) }).spadCopy i core) s
    let s := (l.1 ++ l.2).foldl (fun s k => s.coreLost core k) s
    .next ((s.logRepair (.core core)).pumpAll.wakeAlts)

/-! ### Memory stacks (R40, R41, R110 to R112) -/

/-- Change a stack, where it exists and a condition holds. -/
def onStack (s : State) (k : Nat) (c : Stack → Bool) (f : Stack → Stack) : Host.Outcome State Fault Refusal :=
  if k < 8 && c (s.mbd k) then .next (s.setMbd k (f (s.mbd k))) else .next s

/-- PSEUDO_CHANNEL_SUBSTITUTION: requests to the channel wait while it is copied to the spare. -/
def execPseudoChannelSubstitution (stack ch : Nat) (s : State) : Host.Outcome State Fault Refusal :=
  onStack s stack (fun m => decide (ch < 64) && m.substituted.isNone && m.copying.isNone) fun m => { m with copying := some ch }

/-- PSEUDO_CHANNEL_COPY_END (R41): the lines of the channel that were uncorrectable are zero and listed. -/
def execPseudoChannelCopyEnd (stack : Nat) (bad : List Nat) (s : State) : Host.Outcome State Fault Refusal :=
  let m := s.mbd stack
  match m.copying with
  | none => .next s
  | some ch =>
    let l := (bad.filter fun a => decide (a < 0x8000000000) && a % 128 == 0 && stackOf a == stack && channelOf a == ch &&
      !m.bad.contains a).eraseDups
    let s : State := { s with
      mem := l.foldl (fun mem a => clearBytes mem a 128) s.mem }
    .next ((s.setMbd stack { m with copying := none, substituted := some ch, bad := m.bad ++ l }).logRepair (.channel stack ch))

/-- ROW_REPAIR: accesses to the row wait. -/
def execRowRepair (stack row : Nat) (s : State) : Host.Outcome State Fault Refusal :=
  onStack s stack (fun m => !m.repairing.contains row) fun m => { m with repairing := m.repairing ++ [row] }

/-- ROW_REPAIR_END: the row's data has moved with it. -/
def execRowRepairEnd (stack row : Nat) (s : State) : Host.Outcome State Fault Refusal :=
  let m := s.mbd stack
  if !m.repairing.contains row then .next s
  else
    .next ((s.setMbd stack { m with repairing := m.repairing.filter (· != row), repaired := m.repaired ++ [row] }).logRepair (.row stack row))

/-- A refresh of a row resets its counter. -/
def Stack.refreshed (m : Stack) (row : Nat) : Stack := { m with acts := ndel m.acts row }

/-- NEIGHBOUR_REFRESH (R110): rows ±1 and ±2 of a queued row; a counter whose parity failed is then reset itself. -/
def execNeighbourRefresh (stack row : Nat) (s : State) : Host.Outcome State Fault Refusal :=
  onStack s stack (fun m => m.refresh.contains row) fun m =>
    let near (r : Nat) : Bool := r != row && decide (r ≤ row + 2) && decide (row ≤ r + 2)
    let m := { m with acts := m.acts.filter fun e => !near e.1 }
    let ok := (nget (0, true) m.acts row).2
    let m := { m with refresh := m.refresh.filter (· != row) }
    if ok then m else m.refreshed row

/-- ROW_REFRESH (R110). -/
def execRowRefresh (stack row : Nat) (s : State) : Host.Outcome State Fault Refusal :=
  onStack s stack (fun _ => true) fun m => m.refreshed row

/-- The parity bit of a row's counter fails: the counter is treated as saturated, and firmware is told (R110). -/
def State.parityFails (s : State) (stack row : Nat) : State :=
  if 8 ≤ stack then s
  else
    let m := s.mbd stack
    let c := nget (0, true) m.acts row
    (s.setMbd stack { m with acts := nset m.acts row (c.1, false), refresh := if m.refresh.contains row then m.refresh else m.refresh ++ [row]
                             logged := m.logged + 1 }).ringDev (.parity stack row)

/-- A line of memory, or of the L2 that holds it, or of a scratchpad comes to hold an error that the check of its memory will detect and cannot
correct: every reader of the line meets it, until a write of the whole line clears it (R42). -/
def State.decays (s : State) (k : Nat) : State :=
  let a := k / 128 * 128
  if (a < 2 ^ 51 ∨ (2 ^ 52 ≤ a ∧ a < 2 ^ 64)) ∧ !s.flaws.contains a then { s with flaws := s.flaws ++ [a] } else s

/-- STACK_RETRAIN (R111): at once, or after the save stream. -/
def execStackRetrain (stack : Nat) (s : State) : Host.Outcome State Fault Refusal :=
  onStack s stack (fun m => !m.retraining) fun m =>
    if streamOn s stack false then { m with retrainWaits := true } else { m with retraining := true, retrainWaits := false }

/-- STACK_EMERGENCY_RETRAIN (R112): at once; what is left of a save stream goes to the other stack of the die. -/
def execStackEmergencyRetrain (stack : Nat) (s : State) : Host.Outcome State Fault Refusal :=
  onStack s stack (fun _ => true) fun m =>
    { m with retraining := true, retrainWaits := false, redirected := m.redirected || streamOn s stack true }

/-- STACK_RETRAIN_END: the requests that waited proceed. -/
def execStackRetrainEnd (stack : Nat) (s : State) : Host.Outcome State Fault Refusal :=
  onStack s stack (fun m => m.retraining) fun m => { m with retraining := false }

end Sys2Proof.Machine
end

