-- ==== Sys2Proof/Machine/Torus.lean ====
section
/-! DEFINITION. The torus as packets and routers (R24 to R27, R38, R39). An input is named by the side it comes from. -/

namespace Sys2Proof.Machine

/-! ### Routes (R25) -/

def portCode : Port → Nat
  | .xp => 0 | .xm => 1 | .yp => 2 | .ym => 3 | .loc => 4

/-- The ports in the fixed order of R38. -/
def portList : List Port := [.xp, .xm, .yp, .ym, .loc]

/-- Along one ring from `a` to `b`: upward, where that is the shorter way or both are 4 long. -/
def ringUp (a b : Nat) : Bool := decide ((b + 8 - a) % 8 ≤ 4)

/-- The output of a router toward a node: along the row first, then along the column. -/
def nextPort (node dest : Nat) : Port :=
  if node % 8 ≠ dest % 8 then (if ringUp (node % 8) (dest % 8) then .xp else .xm)
  else if node / 8 ≠ dest / 8 then (if ringUp (node / 8) (dest / 8) then .yp else .ym)
  else .loc

/-- The neighbour that an output leads to. -/
def neighbour (node : Nat) : Port → Nat
  | .xp => node / 8 * 8 + (node % 8 + 1) % 8
  | .xm => node / 8 * 8 + (node % 8 + 7) % 8
  | .yp => (node / 8 + 1) % 8 * 8 + node % 8
  | .ym => (node / 8 + 7) % 8 * 8 + node % 8
  | .loc => node

/-- The input of the neighbour that an output leads to. -/
def oppositePort : Port → Port
  | .xp => .xm | .xm => .xp | .yp => .ym | .ym => .yp | .loc => .loc

/-- The outputs that a packet needs at a router, in port order. -/
def branches (node : Nat) (p : Packet) : List Port := portList.filter fun o => p.dests.any fun d => nextPort node d == o

/-- The copy of a packet that leaves by an output. -/
def branchOf (p : Packet) (node : Nat) (o : Port) : Packet := { p with dests := p.dests.filter fun d => nextPort node d == o }

/-- A packet that was issued to several destinations, or goes several ways. -/
def isMulti (p : Packet) : Bool := decide (1 < p.dests.length)

/-! ### Buffers (R26) -/

def State.router (s : State) (n : Nat) : Router := nget {} s.routers n
def State.setRouter (s : State) (n : Nat) (r : Router) : State := { s with routers := nset s.routers n r }
def Router.input (r : Router) (p : Port) : List Waiter := nget [] r.inputs (portCode p)
def Router.link (r : Router) (p : Port) : List Packet := nget [] r.links (portCode p)

/-- Packet buffers of a ring input, the bubble buffer among them. -/
def ringCapacity : Nat := Config.ringBuffers + 2

/-- A packet on input `inp` travels along the ring of output `out` already. -/
def sameRing (inp out : Port) : Bool := out == (oppositePort inp) && out != .loc

/-- Buffers taken at the input that an output leads to: packets there and on the link. -/
def taken (s : State) (node : Nat) (out : Port) : Nat :=
  let r := s.router (neighbour node out)
  (r.input (oppositePort out)).length + (r.link (oppositePort out)).length

/-- The bubble rule: a packet that enters a ring leaves a buffer free behind it; one on its way along the ring may take the
last. -/
def mayEnter (s : State) (node : Nat) (inp out : Port) : Bool :=
  out == .loc || decide (taken s node out + (if sameRing inp out then 1 else 2) ≤ ringCapacity)

/-- Packets that wait or travel, by number. -/
def packetIds (s : State) : List Nat :=
  s.routers.flatMap fun e => (e.2.inputs.flatMap fun i => i.2.map fun w => w.pkt.id) ++ e.2.links.flatMap fun l => l.2.map Packet.id

/-- A packet arrives at an input of a router. -/
def State.arriveAtRouter (s : State) (node : Nat) (inp : Port) (p : Packet) : State :=
  let r := s.router node
  let w : Waiter := { pkt := p, since := s.cycle, order := r.arrivals }
  s.setRouter node { r with inputs := nset r.inputs (portCode inp) (r.input inp ++ [w]), arrivals := r.arrivals + 1 }

/-- PACKET_INJECT (R26): a node's packet comes to its router once every ring it enters there keeps a buffer free. -/
def execPacketInject (node : Nat) (p : Packet) (s : State) : Host.Outcome State Fault Refusal :=
  if node < 64 ∧ p.src = node ∧ p.dests ≠ [] ∧ p.dests.all (fun d => decide (d < 64)) ∧ p.dests.eraseDups = p.dests ∧
      !(packetIds s).contains p.id ∧ (branches node p).all (mayEnter s node .loc) then
    .next (s.arriveAtRouter node .loc p)
  else .next s

/-! ### Arbitration (R38, R39) -/

/-- Multicasts at the heads of a router's inputs that have reserved nothing. -/
def openMulticasts (r : Router) (node : Nat) : List (Port × Waiter) :=
  portList.filterMap fun p => match (r.input p).head? with
    | some w => if isMulti w.pkt && w.reserved.isEmpty && branches node w.pkt != [] then some (p, w) else none
    | none => none

/-- The urgent multicasts of a router in their order of arrival. -/
def urgents (r : Router) (node : Nat) : List (Port × Waiter) :=
  sortBy (fun a b => decide (a.2.order ≤ b.2.order)) ((openMulticasts r node).filter fun e => e.2.urgent)

/-- An output that a multicast has reserved. -/
def reservedBy (r : Router) (out : Port) : Option Port := portList.find? fun p => match (r.input p).head? with
  | some w => w.reserved.contains out
  | none => false

/-- An input that requests an output: a multicast that has reserved it, or a unicast at the head that it leads on. -/
def requests (s : State) (node : Nat) (out inp : Port) : Bool :=
  let r := s.router node
  match (r.input inp).head? with
  | none => false
  | some w =>
    if isMulti w.pkt then w.reserved.contains out
    else (branches node w.pkt).contains out && (reservedBy r out).isNone && mayEnter s node inp out &&
      !(urgents r node).any fun e => (branches node e.2.pkt).contains out

/-- The inputs in the order in which an output offers its next grant. -/
def offerOrder (r : Router) (out : Port) : List Port :=
  let k := match nget? r.last (portCode out) with | some j => j + 1 | none => 0
  (List.range 5).map fun j => portList.getD ((k + j) % 5) .loc

/-- A unicast that waits for an output at an input which the output offers its next grant before `inp`. -/
def waitsBefore (s : State) (node : Nat) (inp out : Port) : Bool :=
  let r := s.router node
  ((offerOrder r out).takeWhile (· != inp)).any fun q =>
    requests s node out q && (match (r.input q).head? with | some w => !isMulti w.pkt | none => false)

/-- MULTICAST_RESERVE (R38, R39): all branches together, where each is free and may be entered, and no urgent multicast that
arrived earlier, or any where this one is not urgent, needs one of them. One that is not urgent passes over no unicast whose turn at an
output comes first, so none is passed over more than four times. -/
def execMulticastReserve (node : Nat) (inp : Port) (s : State) : Host.Outcome State Fault Refusal :=
  let r := s.router node
  match r.input inp with
  | w :: t =>
    let l := branches node w.pkt
    let ahead := (urgents r node).filter fun e => e.1 != inp && (!w.urgent || decide (e.2.order < w.order))
    let free := l.all fun o => (reservedBy r o).isNone && mayEnter s node inp o &&
      (w.urgent || !waitsBefore s node inp o) && !ahead.any fun e => (branches node e.2.pkt).contains o
    if isMulti w.pkt && w.reserved.isEmpty && free then
      .next (s.setRouter node { r with inputs := nset r.inputs (portCode inp) ({ w with reserved := l, urgent := false } :: t) })
    else .next s
  | [] => .next s

/-- MULTICAST_URGENT (R39): 64 flit times at the router without its branches. -/
def execMulticastUrgent (node : Nat) (inp : Port) (s : State) : Host.Outcome State Fault Refusal :=
  let r := s.router node
  match r.input inp with
  | w :: t =>
    if isMulti w.pkt && w.reserved.isEmpty && !w.urgent && decide (w.since + 64 * Config.flitTime ≤ s.cycle) then
      .next (s.setRouter node { r with inputs := nset r.inputs (portCode inp) ({ w with urgent := true } :: t) })
    else .next s
  | [] => .next s

/-- The head of an input leaves by an output: its copy travels on, or is delivered; the packet has gone once every branch has. -/
def State.passPacket (s : State) (node : Nat) (inp out : Port) : State :=
  let r := s.router node
  match r.input inp with
  | [] => s
  | w :: t =>
    let left := w.reserved.filter (· != out)
    let l := if left.isEmpty then t else { w with reserved := left } :: t
    let r := { r with inputs := nset r.inputs (portCode inp) l, last := nset r.last (portCode out) (portCode inp) }
    if out = .loc then s.setRouter node { r with delivered := r.delivered ++ [w.pkt.id] }
    else
      let s := s.setRouter node r
      let n := neighbour node out
      let q := s.router n
      s.setRouter n { q with links := nset q.links (portCode (oppositePort out)) (q.link (oppositePort out) ++ [branchOf w.pkt node out]) }

/-- ROUTER_GRANT (R39). -/
def execRouterGrant (node : Nat) (out : Port) (s : State) : Host.Outcome State Fault Refusal :=
  match (offerOrder (s.router node) out).find? (requests s node out) with
  | some inp => .next (s.passPacket node inp out)
  | none => .next s

/-- TORUS_FLIT_RECEIVE (R27): the next packet of a link arrives; one that fails its check is sent again. -/
def execTorusFlitReceive (node : Nat) (inp : Port) (ok : Bool) (s : State) : Host.Outcome State Fault Refusal :=
  let r := s.router node
  match r.link inp with
  | [] => .next s
  | p :: t =>
    if ok then .next ((s.setRouter node { r with links := nset r.links (portCode inp) t }).arriveAtRouter node inp p)
    else .next (s.setRouter node { r with retransmits := r.retransmits + 1 })

end Sys2Proof.Machine
end

