-- ==== Sys2Proof/Machine/Dispatch.lean ====
section
/-! DEFINITION. The meaning of every constructor of `Instr`: instruction words, then the events of the machine. -/

namespace Sys2Proof.Machine

def exec (i : Instr) (s : State) : Host.Outcome State Fault Refusal :=
  match i with
  | .trap x n => Sys2Proof.Machine.execTrap x n s
  | .brk => Sys2Proof.Machine.execBrk s
  | .eret x d => Sys2Proof.Machine.execEret x d s
  | .ctlr c k => Sys2Proof.Machine.execCtlr c k s
  | .ctlw c x => Sys2Proof.Machine.execCtlw c x s
  | .shootDown x => Sys2Proof.Machine.execShootDown x s
  | .shootDownDeny x => Sys2Proof.Machine.execShootDownDeny x s
  | .idle => Sys2Proof.Machine.execIdle s
  | .pwrq k => Sys2Proof.Machine.execPwrq k s
  | .harvest k => Sys2Proof.Machine.execHarvest k s
  | .br d => Sys2Proof.Machine.execBr d s
  | .bc c d => Sys2Proof.Machine.execBc c d s
  | .call d => Sys2Proof.Machine.execCall d s
  | .calli x => Sys2Proof.Machine.execCalli x s
  | .jmpi x => Sys2Proof.Machine.execJmpi x s
  | .ret x => Sys2Proof.Machine.execRet x s
  | .loop r d => Sys2Proof.Machine.execLoop r d s
  | .rep x b sn sv => Sys2Proof.Machine.execRep x b sn sv s
  | .sched k => Sys2Proof.Machine.execSched k s
  | .nop => Sys2Proof.Machine.execNop s
  | .ld t b k d => Sys2Proof.Machine.execLd t b k d s
  | .ld128 b d => Sys2Proof.Machine.execLd128 b d s
  | .st t b y d => Sys2Proof.Machine.execSt t b y d s
  | .prfR b d => Sys2Proof.Machine.execPrfR b d s
  | .prfW b d => Sys2Proof.Machine.execPrfW b d s
  | .ldx t x y k => Sys2Proof.Machine.execLdx t x y k s
  | .stx t x y z => Sys2Proof.Machine.execStx t x y z s
  | .tld t x y => Sys2Proof.Machine.execTld t x y s
  | .tst t x y => Sys2Proof.Machine.execTst t x y s
  | .vld half vd x p => Sys2Proof.Machine.execVld half vd x p s
  | .vst half vd x p => Sys2Proof.Machine.execVst half vd x p s
  | .vldb vd x p => Sys2Proof.Machine.execVldb vd x p s
  | .vgat32 vd x vb => Sys2Proof.Machine.execVgat32 vd x vb s
  | .vgat16 vd x vb => Sys2Proof.Machine.execVgat16 vd x vb s
  | .vsca32 vd x vb => Sys2Proof.Machine.execVsca32 vd x vb s
  | .vsca16 vd x vb => Sys2Proof.Machine.execVsca16 vd x vb s
  | .atom op x y k => Sys2Proof.Machine.execAtom op x y k s
  | .atomCas wide x y z => Sys2Proof.Machine.execAtomCas wide x y z s
  | .red op x y => Sys2Proof.Machine.execRed op x y s
  | .redx int x y => Sys2Proof.Machine.execRedx int x y s
  | .fence k sc => Sys2Proof.Machine.execFence k sc s
  | .waita wide x y k => Sys2Proof.Machine.execWaita wide x y k s
  | .wake sc x y => Sys2Proof.Machine.execWake sc x y s
  | .phase t => Sys2Proof.Machine.execPhase t s
  | .arrive t d => Sys2Proof.Machine.execArrive t d s
  | .pwait t => Sys2Proof.Machine.execPwait t s
  | .time k => Sys2Proof.Machine.execTime k s
  | .waitt x => Sys2Proof.Machine.execWaitt x s
  | .spawn x y k => Sys2Proof.Machine.execSpawn x y k s
  | .exit => Sys2Proof.Machine.execExit s
  | .yield => Sys2Proof.Machine.execYield s
  | .send x y => Sys2Proof.Machine.execSend x y s
  | .sendT x y k => Sys2Proof.Machine.execSendT x y k s
  | .recv x k => Sys2Proof.Machine.execRecv x k s
  | .recvT x k => Sys2Proof.Machine.execRecvT x k s
  | .sendt x y => Sys2Proof.Machine.execSendt x y s
  | .sendtT x y k => Sys2Proof.Machine.execSendtT x y k s
  | .recvt x y => Sys2Proof.Machine.execRecvt x y s
  | .recvtT x y k => Sys2Proof.Machine.execRecvtT x y k s
  | .altg g x => Sys2Proof.Machine.execAltg g x s
  | .alt k => Sys2Proof.Machine.execAlt k s
  | .altT k => Sys2Proof.Machine.execAltT k s
  | .chopen x y k => Sys2Proof.Machine.execChopen x y k s
  | .chclose x => Sys2Proof.Machine.execChclose x s
  | .chinfo x k => Sys2Proof.Machine.execChinfo x k s
  | .chbind x y k => Sys2Proof.Machine.execChbind x y k s
  | .enrol x y j => Sys2Proof.Machine.execEnrol x y j s
  | .unenrol x z => Sys2Proof.Machine.execUnenrol x z s
  | .settle x k => Sys2Proof.Machine.execSettle x k s
  | .chgrd x k => Sys2Proof.Machine.execChgrd x k s
  | .chgcmp x y k => Sys2Proof.Machine.execChgcmp x y k s
  | .repar x y k => Sys2Proof.Machine.execRepar x y k s
  | .copy x y z => Sys2Proof.Machine.execCopy x y z s
  | .copyt x y z => Sys2Proof.Machine.execCopyt x y z s
  | .coll x => Sys2Proof.Machine.execColl x s
  | .cmpr x y z => Sys2Proof.Machine.execCmpr x y z s
  | .dcmp x y z => Sys2Proof.Machine.execDcmp x y z s
  | .fork x y e => Sys2Proof.Machine.execFork x y e s
  | .join x k => Sys2Proof.Machine.execJoin x k s
  | .migMove x y => Sys2Proof.Machine.execMigMove x y s
  | .migCancel x y => Sys2Proof.Machine.execMigCancel x y s
  | .migPinSet x y => Sys2Proof.Machine.execMigPinSet x y s
  | .migPinClear x y => Sys2Proof.Machine.execMigPinClear x y s
  | .migTakePage x y => Sys2Proof.Machine.execMigTakePage x y s
  | .migReturnPage x y => Sys2Proof.Machine.execMigReturnPage x y s
  | .hot x k => Sys2Proof.Machine.execHot x k s
  | .bdeclLin x y => Sys2Proof.Machine.execBdeclLin x y s
  | .bdeclRing x y z => Sys2Proof.Machine.execBdeclRing x y z s
  | .bstateOpen x => Sys2Proof.Machine.execBstateOpen x s
  | .bstateSeal x => Sys2Proof.Machine.execBstateSeal x s
  | .bstateRel x => Sys2Proof.Machine.execBstateRel x s
  | .bquery x k => Sys2Proof.Machine.execBquery x k s
  | .bqueryW x k => Sys2Proof.Machine.execBqueryW x k s
  | .add x y k => Sys2Proof.Machine.execAdd x y k s
  | .sub x y k => Sys2Proof.Machine.execSub x y k s
  | .mul x y k => Sys2Proof.Machine.execMul x y k s
  | .mulhI64 x y k => Sys2Proof.Machine.execMulhI64 x y k s
  | .mulhN64 x y k => Sys2Proof.Machine.execMulhN64 x y k s
  | .divI64 x y k => Sys2Proof.Machine.execDivI64 x y k s
  | .divN64 x y k => Sys2Proof.Machine.execDivN64 x y k s
  | .remI64 x y k => Sys2Proof.Machine.execRemI64 x y k s
  | .remN64 x y k => Sys2Proof.Machine.execRemN64 x y k s
  | .minI64 x y k => Sys2Proof.Machine.execMinI64 x y k s
  | .minN64 x y k => Sys2Proof.Machine.execMinN64 x y k s
  | .maxI64 x y k => Sys2Proof.Machine.execMaxI64 x y k s
  | .maxN64 x y k => Sys2Proof.Machine.execMaxN64 x y k s
  | .cmpI64 x y k => Sys2Proof.Machine.execCmpI64 x y k s
  | .cmpN64 x y k => Sys2Proof.Machine.execCmpN64 x y k s
  | .and x y k => Sys2Proof.Machine.execAnd x y k s
  | .or x y k => Sys2Proof.Machine.execOr x y k s
  | .xor x y k => Sys2Proof.Machine.execXor x y k s
  | .andn x y k => Sys2Proof.Machine.execAndn x y k s
  | .shl x y k => Sys2Proof.Machine.execShl x y k s
  | .shr x y k => Sys2Proof.Machine.execShr x y k s
  | .sar x y k => Sys2Proof.Machine.execSar x y k s
  | .rol x y k => Sys2Proof.Machine.execRol x y k s
  | .sel x y k => Sys2Proof.Machine.execSel x y k s
  | .neg x k => Sys2Proof.Machine.execNeg x k s
  | .abs x k => Sys2Proof.Machine.execAbs x k s
  | .not x k => Sys2Proof.Machine.execNot x k s
  | .clz x k => Sys2Proof.Machine.execClz x k s
  | .ctz x k => Sys2Proof.Machine.execCtz x k s
  | .popc x k => Sys2Proof.Machine.execPopc x k s
  | .li im k => Sys2Proof.Machine.execLi im k s
  | .lih x im k => Sys2Proof.Machine.execLih x im k s
  | .sext x w k => Sys2Proof.Machine.execSext x w k s
  | .zext x w k => Sys2Proof.Machine.execZext x w k s
  | .bext x w lo k => Sys2Proof.Machine.execBext x w lo k s
  | .addi x im k => Sys2Proof.Machine.execAddi x im k s
  | .bins x w lo k => Sys2Proof.Machine.execBins x w lo k s
  | .addpImm x im k => Sys2Proof.Machine.execAddpImm x im k s
  | .addp x y k => Sys2Proof.Machine.execAddp x y k s
  | .fmtp x y k => Sys2Proof.Machine.execFmtp x y k s
  | .peer x y k => Sys2Proof.Machine.execPeer x y k s
  | .ptrq x y k => Sys2Proof.Machine.execPtrq x y k s
  | .fadd dbl x y k r => Sys2Proof.Machine.execFadd dbl x y k r s
  | .fsub dbl x y k r => Sys2Proof.Machine.execFsub dbl x y k r s
  | .fmul dbl x y k r => Sys2Proof.Machine.execFmul dbl x y k r s
  | .fma dbl x y kr r => Sys2Proof.Machine.execFma dbl x y kr r s
  | .fdiv dbl x y k r => Sys2Proof.Machine.execFdiv dbl x y k r s
  | .fsqrt dbl x k r => Sys2Proof.Machine.execFsqrt dbl x k r s
  | .frint dbl x k r => Sys2Proof.Machine.execFrint dbl x k r s
  | .fins dbl x y k r => Sys2Proof.Machine.execFins dbl x y k r s
  | .fmin dbl x y k => Sys2Proof.Machine.execFmin dbl x y k s
  | .fmax dbl x y k => Sys2Proof.Machine.execFmax dbl x y k s
  | .fabs dbl x k => Sys2Proof.Machine.execFabs dbl x k s
  | .fneg dbl x k => Sys2Proof.Machine.execFneg dbl x k s
  | .fcmp dbl x y k => Sys2Proof.Machine.execFcmp dbl x y k s
  | .fclass dbl x k => Sys2Proof.Machine.execFclass dbl x k s
  | .fexf dbl x k => Sys2Proof.Machine.execFexf dbl x k s
  | .fcvt src dst x k r => Sys2Proof.Machine.execFcvt src dst x k r s
  | .vadd t vd va vb p => Sys2Proof.Machine.execVadd t vd va vb p s
  | .vsub t vd va vb p => Sys2Proof.Machine.execVsub t vd va vb p s
  | .vmul t vd va vb p => Sys2Proof.Machine.execVmul t vd va vb p s
  | .vmin t vd va vb p => Sys2Proof.Machine.execVmin t vd va vb p s
  | .vmax t vd va vb p => Sys2Proof.Machine.execVmax t vd va vb p s
  | .vfmaF32 vd va vb vc p => Sys2Proof.Machine.execVfmaF32 vd va vb vc p s
  | .vfmsF32 vd va vb vc p => Sys2Proof.Machine.execVfmsF32 vd va vb vc p s
  | .vfmaBf16 vd va vb vc p => Sys2Proof.Machine.execVfmaBf16 vd va vb vc p s
  | .vfmsBf16 vd va vb vc p => Sys2Proof.Machine.execVfmsBf16 vd va vb vc p s
  | .vfmaF16 vd va vb vc p => Sys2Proof.Machine.execVfmaF16 vd va vb vc p s
  | .vfmsF16 vd va vb vc p => Sys2Proof.Machine.execVfmsF16 vd va vb vc p s
  | .vabs t vd va p => Sys2Proof.Machine.execVabs t vd va p s
  | .vneg t vd va p => Sys2Proof.Machine.execVneg t vd va p s
  | .vfrint t vd va p => Sys2Proof.Machine.execVfrint t vd va p s
  | .vfexf t vd va p => Sys2Proof.Machine.execVfexf t vd va p s
  | .vrcp t vd va p => Sys2Proof.Machine.execVrcp t vd va p s
  | .vrsq t vd va p => Sys2Proof.Machine.execVrsq t vd va p s
  | .vfclass t vd va p => Sys2Proof.Machine.execVfclass t vd va p s
  | .vpopc t vd va p => Sys2Proof.Machine.execVpopc t vd va p s
  | .vmov half vd va p => Sys2Proof.Machine.execVmov half vd va p s
  | .vand vd va vb p => Sys2Proof.Machine.execVand vd va vb p s
  | .vor vd va vb p => Sys2Proof.Machine.execVor vd va vb p s
  | .vxor vd va vb p => Sys2Proof.Machine.execVxor vd va vb p s
  | .vshl32 vd va vb p => Sys2Proof.Machine.execVshl32 vd va vb p s
  | .vshl16 vd va vb p => Sys2Proof.Machine.execVshl16 vd va vb p s
  | .vshr32 vd va vb p => Sys2Proof.Machine.execVshr32 vd va vb p s
  | .vshr16 vd va vb p => Sys2Proof.Machine.execVshr16 vd va vb p s
  | .vsar32 vd va vb p => Sys2Proof.Machine.execVsar32 vd va vb p s
  | .vsar16 vd va vb p => Sys2Proof.Machine.execVsar16 vd va vb p s
  | .vcmp c t pd va vb p => Sys2Proof.Machine.execVcmp c t pd va vb p s
  | .vsel half vd va vb p => Sys2Proof.Machine.execVsel half vd va vb p s
  | .vcvt src dst vd va p => Sys2Proof.Machine.execVcvt src dst vd va p s
  | .vfins t vd va vb p => Sys2Proof.Machine.execVfins t vd va vb p s
  | .vredadd t vd va p => Sys2Proof.Machine.execVredadd t vd va p s
  | .vredmin t vd va p => Sys2Proof.Machine.execVredmin t vd va p s
  | .vredmax t vd va p => Sys2Proof.Machine.execVredmax t vd va p s
  | .vredx vd va p => Sys2Proof.Machine.execVredx vd va p s
  | .vperm half vd va vb p => Sys2Proof.Machine.execVperm half vd va vb p s
  | .vzip half vd va vb p => Sys2Proof.Machine.execVzip half vd va vb p s
  | .vunzip half vd va vb p => Sys2Proof.Machine.execVunzip half vd va vb p s
  | .vslideup half vd va n p => Sys2Proof.Machine.execVslideup half vd va n p s
  | .vslidedn half vd va n p => Sys2Proof.Machine.execVslidedn half vd va n p s
  | .vbcast half vd k p => Sys2Proof.Machine.execVbcast half vd k p s
  | .pand pd pa pb => Sys2Proof.Machine.execPand pd pa pb s
  | .por pd pa pb => Sys2Proof.Machine.execPor pd pa pb s
  | .pnot pd pa => Sys2Proof.Machine.execPnot pd pa s
  | .mgang ab ac ta b nr zero => Sys2Proof.Machine.execMgang ab ac ta b nr zero s
  | .mzero ab ac => Sys2Proof.Machine.execMzero ab ac s
  | .mdup ab ac as => Sys2Proof.Machine.execMdup ab ac as s
  | .mstat => Sys2Proof.Machine.execMstat s
  | .mrest ab ac dp => Sys2Proof.Machine.execMrest ab ac dp s
  | .mdrain ab ac dp nr r => Sys2Proof.Machine.execMdrain ab ac dp nr r s
  | .vsplit vd va k p => Sys2Proof.Machine.execVsplit vd va k p s
  | .vqnt f vd va p => Sys2Proof.Machine.execVqnt f vd va p s
  | .vdqnt f vd va p => Sys2Proof.Machine.execVdqnt f vd va p s
  | .nopB => Sys2Proof.Machine.execNopB s
  | .encodingNotInstruction w => Sys2Proof.Machine.execEncodingNotInstruction w s
  | .notifyWrite fn q v => Sys2Proof.Machine.execNotifyWrite fn q v s
  | .queueEnable fn q w1 => Sys2Proof.Machine.execQueueEnable fn q w1 s
  | .queueDisable fn q => Sys2Proof.Machine.execQueueDisable fn q s
  | .hostRegisterWrite fn off v => Sys2Proof.Machine.execHostRegisterWrite fn off v s
  | .queueSlotRelease slot => Sys2Proof.Machine.execQueueSlotRelease slot s
  | .queueSlotBind slot => Sys2Proof.Machine.execQueueSlotBind slot s
  | .partcreate e => Sys2Proof.Machine.execPartcreate e s
  | .partsplit e => Sys2Proof.Machine.execPartsplit e s
  | .partdestroy e => Sys2Proof.Machine.execPartdestroy e s
  | .netload v => Sys2Proof.Machine.execNetload v s
  | .launch e place => Sys2Proof.Machine.execLaunch e place s
  | .replay e place => Sys2Proof.Machine.execReplay e place s
  | .signalHostQueue e => Sys2Proof.Machine.execSignalHostQueue e s
  | .signalPhaseArrival e => Sys2Proof.Machine.execSignalPhaseArrival e s
  | .preempt e => Sys2Proof.Machine.execPreempt e s
  | .save e => Sys2Proof.Machine.execSave e s
  | .restore e => Sys2Proof.Machine.execRestore e s
  | .migrate e ok => Sys2Proof.Machine.execMigrate e ok s
  | .keysetMemory v => Sys2Proof.Machine.execKeysetMemory v s
  | .keysetBuneam v => Sys2Proof.Machine.execKeysetBuneam v s
  | .timeset e => Sys2Proof.Machine.execTimeset e s
  | .timeadj e => Sys2Proof.Machine.execTimeadj e s
  | .queryRevision e => Sys2Proof.Machine.execQueryRevision e s
  | .queryPatchList e => Sys2Proof.Machine.execQueryPatchList e s
  | .queryCapacity e => Sys2Proof.Machine.execQueryCapacity e s
  | .queryBudgets e => Sys2Proof.Machine.execQueryBudgets e s
  | .queryInstanceState e => Sys2Proof.Machine.execQueryInstanceState e s
  | .queryQueueState e => Sys2Proof.Machine.execQueryQueueState e s
  | .attest fn => Sys2Proof.Machine.execAttest fn s
  | .doeDiscovery fn => Sys2Proof.Machine.execDoeDiscovery fn s
  | .ideKm fn key => Sys2Proof.Machine.execIdeKm fn key s
  | .lockInterface fn => Sys2Proof.Machine.execLockInterface fn s
  | .getDeviceInterfaceReport fn => Sys2Proof.Machine.execGetDeviceInterfaceReport fn s
  | .startInterface fn => Sys2Proof.Machine.execStartInterface fn s
  | .stopInterface fn => Sys2Proof.Machine.execStopInterface fn s
  | .instanceEnd inst => Sys2Proof.Machine.execInstanceEnd inst s
  | .reset v => Sys2Proof.Machine.execReset v s
  | .thermalSlowdown die temp => Sys2Proof.Machine.execThermalSlowdown die temp s
  | .slowdownLift die temp => Sys2Proof.Machine.execSlowdownLift die temp s
  | .thermalTrip die temp => Sys2Proof.Machine.execThermalTrip die temp s
  | .ppsEdge => Sys2Proof.Machine.execPpsEdge s
  | .ptpEventMessage v => Sys2Proof.Machine.execPtpEventMessage v s
  | .packetInject node p => Sys2Proof.Machine.execPacketInject node p s
  | .routerGrant node out => Sys2Proof.Machine.execRouterGrant node out s
  | .torusFlitReceive node inp ok => Sys2Proof.Machine.execTorusFlitReceive node inp ok s
  | .multicastReserve node inp => Sys2Proof.Machine.execMulticastReserve node inp s
  | .multicastUrgent node inp => Sys2Proof.Machine.execMulticastUrgent node inp s
  | .buneamFlitReceive port f => Sys2Proof.Machine.execBuneamFlitReceive port f s
  | .buneamNack port seq => Sys2Proof.Machine.execBuneamNack port seq s
  | .laneSpareSubstitution port => Sys2Proof.Machine.execLaneSpareSubstitution port s
  | .portRetrainEnd port => Sys2Proof.Machine.execPortRetrainEnd port s
  | .laneLossHalfRate port => Sys2Proof.Machine.execLaneLossHalfRate port s
  | .cxlLinkFailure d => Sys2Proof.Machine.execCxlLinkFailure d s
  | .cxlRetrainEnd d => Sys2Proof.Machine.execCxlRetrainEnd d s
  | .cxlPortLost d => Sys2Proof.Machine.execCxlPortLost d s
  | .coreRetire core => Sys2Proof.Machine.execCoreRetire core s
  | .pseudoChannelSubstitution stack ch => Sys2Proof.Machine.execPseudoChannelSubstitution stack ch s
  | .pseudoChannelCopyEnd stack bad => Sys2Proof.Machine.execPseudoChannelCopyEnd stack bad s
  | .rowRepair stack row => Sys2Proof.Machine.execRowRepair stack row s
  | .neighbourRefresh stack row => Sys2Proof.Machine.execNeighbourRefresh stack row s
  | .rowRefresh stack row => Sys2Proof.Machine.execRowRefresh stack row s
  | .stackRetrain stack => Sys2Proof.Machine.execStackRetrain stack s
  | .stackEmergencyRetrain stack => Sys2Proof.Machine.execStackEmergencyRetrain stack s
  | .pendingResultArrival v => Sys2Proof.Machine.execPendingResultArrival v s
  | .memoryServerRequest v => Sys2Proof.Machine.execMemoryServerRequest v s
  | .homeWriteApply v => Sys2Proof.Machine.execHomeWriteApply v s
  | .homeAtomicApply v => Sys2Proof.Machine.execHomeAtomicApply v s
  | .crossDieMessageApply die src => Sys2Proof.Machine.execCrossDieMessageApply die src s
  | .pageWalk core vpn => Sys2Proof.Machine.execPageWalk core vpn s
  | .shootDownComplete txn => Sys2Proof.Machine.execShootDownComplete txn s
  | .dirtyLogMerge core => Sys2Proof.Machine.execDirtyLogMerge core s
  | .epochEnd part => Sys2Proof.Machine.execEpochEnd part s
  | .motionStart part => Sys2Proof.Machine.execMotionStart part s
  | .motionLineCopy motion => Sys2Proof.Machine.execMotionLineCopy motion s
  | .migrationAbort motion cause => Sys2Proof.Machine.execMigrationAbort motion cause s
  | .contextSwap core ctx => Sys2Proof.Machine.execContextSwap core ctx s
  | .swapComplete core ctx => Sys2Proof.Machine.execSwapComplete core ctx s
  | .registerImageWriteEnd core ctx => Sys2Proof.Machine.execRegisterImageWriteEnd core ctx s
  | .standbyLoad core ctx => Sys2Proof.Machine.execStandbyLoad core ctx s
  | .quantumDue core ctx => Sys2Proof.Machine.execQuantumDue core ctx s
  | .workStealRound cluster => Sys2Proof.Machine.execWorkStealRound cluster s
  | .gangGrant gang => Sys2Proof.Machine.execGangGrant gang s
  | .deadlockReport inst => Sys2Proof.Machine.execDeadlockReport inst s
  | .handlerSpawn inst => Sys2Proof.Machine.execHandlerSpawn inst s
  | .classCFaultDelivery proc => Sys2Proof.Machine.execClassCFaultDelivery proc s
  | .deadlineExpiry proc => Sys2Proof.Machine.execDeadlineExpiry proc s
  | .channelTimeout proc => Sys2Proof.Machine.execChannelTimeout proc s
  | .channelMatch chan => Sys2Proof.Machine.execChannelMatch chan s
  | .transferLanded txn => Sys2Proof.Machine.execTransferLanded txn s
  | .ratedFiring proc => Sys2Proof.Machine.execRatedFiring proc s
  | .phaseArrivalCount txn => Sys2Proof.Machine.execPhaseArrivalCount txn s
  | .windowWriteLand txn => Sys2Proof.Machine.execWindowWriteLand txn s
  | .heldAccessProceed proc => Sys2Proof.Machine.execHeldAccessProceed proc s
  | .sliceEnd part => Sys2Proof.Machine.execSliceEnd part s
  | .quiescenceBudgetExpiry part => Sys2Proof.Machine.execQuiescenceBudgetExpiry part s
  | .saveStreamEnd part => Sys2Proof.Machine.execSaveStreamEnd part s
  | .preemptLate part => Sys2Proof.Machine.execPreemptLate part s
  | .treeWalkerRequest txn => Sys2Proof.Machine.execTreeWalkerRequest txn s
  | .rollupTokenCount tok => Sys2Proof.Machine.execRollupTokenCount tok s
  | .settleMarker txn slice => Sys2Proof.Machine.execSettleMarker txn slice s
  | .reparLock txn => Sys2Proof.Machine.execReparLock txn s
  | .engineCompletion txn => Sys2Proof.Machine.execEngineCompletion txn s
  | .forkThreadStart txn => Sys2Proof.Machine.execForkThreadStart txn s
  | .engineChannelDispatch chan => Sys2Proof.Machine.execEngineChannelDispatch chan s
  | .gangTimeout gang => Sys2Proof.Machine.execGangTimeout gang s
  | .securedSpdmSession fn key => Sys2Proof.Machine.execSecuredSpdmSession fn key s
  | .linkKeyReplacement v => Sys2Proof.Machine.execLinkKeyReplacement v s
  | .firmwareChannelRebind part chan proc => Sys2Proof.Machine.execFirmwareChannelRebind part chan proc s
  | .stackRetrainEnd stack => Sys2Proof.Machine.execStackRetrainEnd stack s
  | .rowRepairEnd stack row => Sys2Proof.Machine.execRowRepairEnd stack row s
  | .remotePhaseLoad part slot count => Sys2Proof.Machine.execRemotePhaseLoad part slot count s

end Sys2Proof.Machine
end

