-- ==== Sys2Proof/Machine/Turn.lean ====
section
/-! DEFINITION. An issue turn (R132, R148, R151, R170, R171): the choice of the next context, the fetch, the checks of Table
12.16 that the word alone decides, the execution of a lone word or pair, the repetition state (R252, R253) and the switch
marker. -/

namespace Sys2Proof.Machine

/-! ### Fetch (R248) -/

/-- The bytes of a word: a page with X = 1, or a precise fault. The line of a slot is one line access (R99); where its memory waits,
so does the fetch (R111). -/
def State.fetch (s : State) (i : Issue) (pc : Word) : Except Abort (State × Nat) := do
  let a ← globalPiece { st := s } i i.pre.core .fetch 4 0 (pOff pc) 4
  if a.st.busyPart a.parts then .error .wait
  else match a.st.badPart a.parts with
  | some va => .error (.trap { kind := .uncorrectableData, addr := BitVec.ofNat 64 va })
  | none => .ok (if pc.toNat % 8 = 0 then a.st.countLines a.parts else a.st, leNat (a.st.allBytes (dieOf i.pre.core) a.parts))

/-! ### Checks decided from the words (R171 classes 2 and 3, R234, R245, R246, R253) -/

/-- Forms marked E in Table 12.11: an engine program may use them (R245). -/
def engineLegal : Instr → Bool
  | .ctlr .. | .br .. | .bc .. | .jmpi .. | .loop .. | .nop | .nopB => true
  | .ld .. | .ld128 .. | .st .. | .prfR .. | .prfW .. | .ldx .. | .stx .. => true
  | .atom .. | .atomCas .. | .red .. | .redx .. | .fence .. | .wake .. | .arrive .. | .exit | .send .. | .recv .. => true
  | .add .. | .sub .. | .mul .. | .mulhI64 .. | .mulhN64 .. | .divI64 .. | .divN64 .. | .remI64 .. | .remN64 .. => true
  | .minI64 .. | .minN64 .. | .maxI64 .. | .maxN64 .. | .cmpI64 .. | .cmpN64 .. => true
  | .and .. | .or .. | .xor .. | .andn .. | .shl .. | .shr .. | .sar .. | .rol .. | .sel .. => true
  | .neg .. | .abs .. | .not .. | .clz .. | .ctz .. | .popc .. => true
  | .li .. | .lih .. | .sext .. | .zext .. | .bext .. | .bins .. | .addi .. => true
  | .addpImm .. | .addp .. | .fmtp .. | .ptrq .. => true
  | .fadd .. | .fsub .. | .fmul .. | .fma .. | .fdiv .. | .fsqrt .. | .frint .. | .fins .. => true
  | .fmin .. | .fmax .. | .fabs .. | .fneg .. | .fcmp .. | .fclass .. | .fexf .. | .fcvt .. => true
  | _ => false

/-- Privilege decided by the word and the issuer alone (R246 check 8, R260 step 2). -/
def wordPriv (s : State) (i : Issue) : Instr → Bool
  | .eret .. => i.pre.isHandler || s.isMgr i.proc
  | .harvest _ | .shootDown _ | .shootDownDeny _ | .mrest .. | .chbind .. => s.isMgr i.proc
  | .ctlr c _ => c != .ptroot || s.isMgr i.proc
  | .ctlw c _ => !ctlReadOnly c && (!ctlManager c || s.isMgr i.proc)
  | _ => true

/-- Forms that R253 forbids in a repetition's body: A words of majors 0x00 to 0x07 but `nop`, and forms marked Blk. -/
def repForbids : Instr → Bool
  | .trap .. | .brk | .eret .. | .ctlr .. | .ctlw .. | .shootDown _ | .shootDownDeny _ | .idle | .pwrq _ | .harvest _ => true
  | .br _ | .bc .. | .call _ | .calli _ | .jmpi _ | .ret _ | .loop .. | .rep .. | .sched _ => true
  | .waita .. | .phase _ | .pwait _ | .waitt _ | .send .. | .sendT .. | .recv .. | .recvT .. => true
  | .sendt .. | .sendtT .. | .recvt .. | .recvtT .. | .alt _ | .altT _ | .join .. | .bqueryW .. => true
  | _ => false

/-- Checks 3 to 8 of a word: its instruction, or the trap. -/
def wordChecks (s : State) (i : Issue) (w : Nat) : Except Trap Instr :=
  match decodeWord w with
  | .error _ => .error { kind := .illegalInstr }
  | .ok x =>
    if i.pre.engine.isSome && !engineLegal x then .error { kind := .illegalInstr }
    else if !wordPriv s i x then .error { kind := .priv }
    else .ok x

/-- What is fetched and decoded: the first word, the B word of a pair, and the switch marker. -/
structure Fetched where
  a : Instr
  b : Option Instr
  sw : Bool

/-- Why a slot does not issue: a trap, and whether the B word is at fault; or its fetch waits. -/
inductive NoIssue where
  | trap (t : Trap) (bword : Bool)
  | wait
  deriving DecidableEq, Repr

/-- Fetch and decode at the program counter. -/
def State.fetchDecode (s : State) (i : Issue) : State × Except NoIssue Fetched :=
  match s.fetch i i.loc with
  | .error (.trap t) => (s, .error (.trap t false))
  | .error _ => (s, .error .wait)
  | .ok (s, w) =>
    -- the first slot of a repetition is a pair's, and aligned (R252)
    if i.pre.rep.active && i.loc.toNat % 8 != 0 then (s, .error (.trap { kind := .misalignedPair } false))
    else if bit w 31 then
      (s, match wordChecks s i w with
        | .error t => .error (.trap t false)
        | .ok x =>
          -- a lone word has no place in the body of a repetition (log entry 17); one that R253 forbids there is so told (R171)
          if i.pre.rep.active && !repForbids x then .error (.trap { kind := .illegalInstr } false)
          else .ok { a := x, b := none, sw := bit w 30 })
    else if i.loc.toNat % 8 != 0 then (s, .error (.trap { kind := .misalignedPair } false))
    else if bit w 29 then (s, .error (.trap { kind := .illegalInstr } false))
    else
      match s.fetch i (i.loc + 4) with
      | .error (.trap t) => (s, .error (.trap t true))
      | .error _ => (s, .error .wait)
      | .ok (s, v) =>
        if bit v 31 || !bit v 29 || bit v 30 then (s, .error (.trap { kind := .illegalInstr } true))
        else (s, match wordChecks s i w with
          | .error t => .error (.trap t false)
          | .ok x =>
            match wordChecks s { i with bword := true } v with
            | .error t => .error (.trap t true)
            | .ok y => .ok { a := x, b := some y, sw := bit w 30 })

/-! ### Execution -/

/-- Run one word. The latch is empty afterwards where the word did not issue. -/
def runWord (s : State) (i : Issue) (x : Instr) : Host.Outcome State Fault Refusal :=
  if i.pre.rep.active && repForbids x then
    .next ({ s with issue := some i }.raise { kind := .illegalOperand, sub := 1 })
  else exec x { s with issue := some i }

/-- The B word of a pair whose A word has issued. Where it does not issue, neither does the A word (R148): the fault or hold
is taken from the state before the pair. An `mgang` that stays at its gang barrier, or fails there with the other members, is so
without the A word's effect: its pair issues after the opening. -/
def runB (s0 s : State) (i : Issue) (y : Instr) : Host.Outcome State Fault Refusal :=
  let j := { i with bword := true, kpre := some (s0.core i.pre.core), hit := s.raised.isSome }
  match runWord { s with raised := none } j y with
  | .next u =>
    if u.issue.isSome then .next (if s.raised.isSome then { u with raised := s.raised } else u)
    else
      match u.raised with
      | some t => if t.kind = .gangMismatch then runWord s0 j y else .next ({ s0 with issue := some j }.raise t)
      | none =>
        match (u.proc i.proc).hold with
        | some .barrier => runWord s0 j y
        | some h => .next ({ s0 with issue := some j }.holdWord h)
        | none => .next { s0 with issue := none }
  | r => r

/-- Run what was fetched: a lone word or a pair (R148). -/
def runFetched (s : State) (i : Issue) (f : Fetched) : Host.Outcome State Fault Refusal :=
  match runWord s i f.a with
  | .next t =>
    match t.issue, f.b with
    | some j, some y => runB s t j y
    | _, _ => .next t
  | r => r

/-- The repetition after its slot has issued (R252): the new state and bases, and where the next fetch is. -/
def repAfter (p : Proc) (loc next : Word) : Rep × Word × Word :=
  let r := p.rep
  if !r.active then (r, p.rot, next)
  else if r.pos < r.b then ({ r with pos := r.pos + 1 }, p.rot, next)
  else
    let rot := BitVec.ofNat 64 ((p.nbase + r.sn) % 16 + (p.vbase + r.sv) % 16 * 256)
    if 1 < r.remain then ({ r with remain := r.remain - 1, pos := 0 }, rot, loc - BitVec.ofNat 64 (8 * r.pos))
    else ({ r with active := false, remain := 0 }, rot, next)

/-- The end of a turn whose word or pair has issued: the program counter and the repetition go on, and a switch marker parks
the process while results are outstanding (R151). -/
def State.commit (s : State) (k : Nat) (pre : Proc) (i : Issue) (sw : Bool) : State :=
  let sw := sw && pre.engine.isNone
  let p := s.proc k
  let r := if pre.rep.active then repAfter pre i.loc i.next else (p.rep, p.rot, i.next)
  if p.st = .exited ∨ p.st = .dormant then s
  else
    let p := { p with pc := r.2.2, rep := r.1, rot := r.2.1 }
    if sw && p.out != [] && p.hold.isNone && !p.exiting then
      s.setProc k { p with st := if p.st = .running then .parked else p.st, hold := some .results }
    else s.setProc k p

/-- A turn at which a word issues, or its process comes to be PARKED on it, counts towards the quantum (R134). -/
def State.countTurn (s : State) (k : Nat) : State :=
  let p := s.proc k
  match p.ctx with
  | some j => s.modCore p.core fun c => c.setCtx j { c.ctx j with turns := (c.ctx j).turns + 1 }
  | none => s

/-- One issue of a process: its lone word or pair. A turn at which a fetch or a walk waits does not count (R134). -/
def State.issueWord (s : State) (k : Nat) : Host.Outcome State Fault Refusal :=
  let s := if (s.proc k).hold = some .object then s.release k else s
  let p := s.proc k
  let i : Issue := { proc := k, loc := p.pc, next := p.pc, pre := p }
  let f := s.fetchDecode i
  let s : State := { f.1 with raised := none }
  let done (s : State) : State := { s with issue := none, raised := none }
  match f.2 with
  | .error (.trap t b) => .next (done ({ s with issue := some { i with bword := b } }.raise t))
  | .error .wait => .next (done s)
  | .ok f =>
    let i := { i with next := p.pc + (if f.b.isSome then 8 else 4), sw := f.sw }
    match runFetched s i f with
    | .next t =>
      match t.issue with
      | some j => .next (done ((t.commit k p j f.sw).countTurn k))
      | none => .next (done (if (t.proc k).hold.isSome then t.countTurn k else t))
    | r => r

/-! ### Turns -/

/-- Register-window writes that have reached the context land at its issue turn (R166). -/
def State.landWindows (s : State) (k : Nat) : State :=
  s.txns.foldl (fun s e =>
    let mine := e.2.op.parts.any fun p => match p.at_ with | .win j _ => j == k | _ => false
    if mine && decide (e.2.op.role = .st) && (nget? s.txns e.1).isSome && decide (e.2.due ≤ s.cycle) && s.canServe e.1 e.2 then s.serveWrite e.1 e.2 else s) s

/-- A process makes use of an issue turn in a cycle: it issues, has a failure delivered, or ends an `exit`. -/
def State.usesTurn (s : State) (k cyc : Nat) : Bool :=
  let p := s.proc k
  -- a window write lands at the turn (R166)
  if (s.txns.any fun e => decide (e.2.op.role = .st) && decide (e.2.due ≤ cyc) && s.canServe e.1 e.2 &&
      e.2.op.parts.any fun q => match q.at_ with | .win j _ => j == k | _ => false) then true
  else if p.st = .running ∨ p.st = .parked then
    p.faults != [] || (p.exiting && !exitBusy s k) ||
      (!p.exiting && (decide (p.st = .running) && decide (p.landed ≤ cyc) || decide (p.hold = some .object)))
  else false

/-- What happens at a turn that is used: a swap, or an issue of the running process. -/
inductive TurnUse where
  | swap (core ctx : Nat)
  | run (core k : Nat)
  deriving DecidableEq, Repr

/-- The use a core makes of the turn of a cycle (`AtTurn` of R133). -/
def State.turnOf (s : State) (core cyc : Nat) : Option TurnUse :=
  let x := (s.core core).ctx (cyc % 8)
  if swapNow s core (cyc % 8) then some (.swap core (cyc % 8))
  else
    match x.run with
    | some k => if !x.swapping && s.usesTurn k cyc then some (.run core k) else none
    | none => none

/-- The next turn that is used, at most `n` cycles on. -/
def State.nextTurn (s : State) (cyc from_ : Nat) : Nat → Option (Nat × TurnUse)
  | 0 => none
  | n + 1 =>
    match s.cores.findSome? fun e => if from_ ≤ e.1 then s.turnOf e.1 cyc else none with
    | some u => some (cyc, u)
    | none => s.nextTurn (cyc + 1) 0 n

/-- Turns of context `j` after cycle `a` and up to cycle `b`. -/
def turnsIn (a b j : Nat) : Nat := (b + 8 - j) / 8 - (a + 8 - j) / 8

/-- A PARKED process uses up the turns of its context that pass (R134). -/
def State.countParked (s : State) (cyc : Nat) : State :=
  { s with cores := s.cores.map fun e => (e.1, { e.2 with ctxs := e.2.ctxs.map fun x =>
      match x.2.run with
      | some r => if (s.proc r).st = .parked then (x.1, { x.2 with turns := x.2.turns + turnsIn s.cycle cyc x.1 }) else x
      | none => x }) }

/-- Let time pass up to a cycle. -/
def State.upTo (s : State) (cyc : Nat) : State :=
  if s.cycle < cyc then { (s.countParked cyc).advance (cyc - s.cycle) with turnCore := 0 } else s

/-- The turn of a process: window writes land, then a failure is delivered (R170), an `exit` ends, or a word issues. -/
def State.takeTurn (s : State) (k : Nat) : Host.Outcome State Fault Refusal :=
  let s := s.landWindows k
  let p := s.proc k
  if !(p.st == .running || p.st == .parked) then .next s
  else if p.faults != [] then .next (s.deliverC k)
  else if p.exiting then .next (s.tryExit k)
  else if (p.st = .running ∧ p.landed ≤ s.cycle) ∨ p.hold = some .object then s.issueWord k
  else .next s

/-- The next issue turn that is used; eight cycles pass where none is. -/
def State.turn (s : State) : Host.Outcome State Fault Refusal :=
  match s.nextTurn s.cycle s.turnCore 8 with
  | none => .next (s.upTo (s.cycle + 8))
  | some (cyc, .swap c j) => .next (({ s.upTo cyc with turnCore := c + 1 }).swap c j)
  | some (cyc, .run c k) => ({ s.upTo cyc with turnCore := c + 1 }).takeTurn k

/-- A register that the next word of a process reads holds an error that its code detects and cannot correct (R42, R183): the
record, at that word, is delivered at the process's issue turn; an engine thread ends FAILED. -/
def State.upset (s : State) (k : Nat) : State :=
  let p := s.proc k
  let t : Trap := { kind := .uncorrectableData }
  if !(p.st == .running || p.st == .parked) then s
  else if p.engine.isSome then s.failThread k t p.pc false
  else
    let w := s.writeRec (mkRec s k .c t p.pc false)
    w.1.modProc k fun p => { p with faults := p.faults ++ [w.2] }

/-- An issue turn of an engine thread (R356): none while it is held or has ended. -/
def State.engineTurn (s : State) (k : Nat) : Host.Outcome State Fault Refusal :=
  let p := s.proc k
  if p.engine.isNone then .next s
  else if p.exiting then .next (s.tryExit k)
  else if p.st = .running ∧ p.landed ≤ s.cycle then s.issueWord k
  else .next s

end Sys2Proof.Machine
end

