-- ==== Sys2Proof/Machine/Auto.lean ====
section
/-! DEFINITION. The moves of the machine's schedule, and the move that an empty agenda leaves to the machine itself: the first
internal event that is due on an unloaded machine, else an issue turn (log entries 4 and 15). -/

namespace Sys2Proof.Machine

/-- An event as the change that it makes. -/
abbrev Change := State → Host.Outcome State Fault Refusal

/-- A meaning as a change of state where it changes the state. -/
def changed (s : State) (r : Host.Outcome State Fault Refusal) : Option State :=
  match r with
  | .next t => if t = s then none else some t
  | _ => none

/-- One move. After a thermal trip nothing happens but a reset (R44). -/
def State.move (s : State) (m : Move) : Host.Outcome State Fault Refusal :=
  match m with
  | .event i => if s.stopped && !(match i with | .reset .. => true | _ => false) then .next s else exec i s
  | .turn => if s.stopped then .next s else s.turn
  | .tick n => if s.stopped then .next s else .next (s.upTo (s.cycle + n))
  | .engine k => if s.stopped then .next s else s.engineTurn k
  | .upset k => if s.stopped then .next s else .next (s.upset k)
  | .flash c => if s.stopped then .next s else .next { s with flash := { s.flash with config := c } }
  | .host a bs => .next { s with mem := writeBytes s.mem (hostKey (a % 2 ^ 51)) bs }
  | .decay k => if s.stopped then .next s else .next (s.decays k)
  | .parity st row => if s.stopped then .next s else .next (s.parityFails st row)

/-! ### What may happen of itself -/

/-- Events by which a transaction goes on. -/
def txnEvents (t : Nat) (x : Txn) : List Change :=
  match x.op with
  | .arrive .. => [execPhaseArrivalCount t]
  | .shoot .. => [execShootDownComplete t, execPendingResultArrival ⟨t, .whole⟩]
  | .settle _ => (List.range 64).map (execSettleMarker t ·) ++ [execPendingResultArrival ⟨t, .whole⟩]
  | .enrol .. | .unenrol .. | .chgrd .. | .chgcmp .. => [execTreeWalkerRequest t, execPendingResultArrival ⟨t, .whole⟩]
  | .repar .. => [execReparLock t, execPendingResultArrival ⟨t, .whole⟩]
  | .eng .. => [execForkThreadStart t, execMemoryServerRequest ⟨t, .whole⟩, execEngineCompletion t]
  | .send .. | .recv .. | .sendt .. | .recvt .. => [execTransferLanded t]
  | .store .. | .red .. | .redx .. => [execHomeWriteApply ⟨t, .whole⟩, execWindowWriteLand t]
  | .atom .. | .cas .. => [execHomeAtomicApply ⟨t, .whole⟩, execPendingResultArrival ⟨t, .whole⟩]
  | _ => [execMemoryServerRequest ⟨t, .whole⟩, execPendingResultArrival ⟨t, .whole⟩]

/-- Events of the contexts of a core. -/
def coreEvents (c : Nat) : List Change :=
  execDirtyLogMerge c ::
    (List.range 8).flatMap fun j => [execSwapComplete c j, execRegisterImageWriteEnd c j, execStandbyLoad c j]

/-- Events of a process. -/
def procEvents (k : Nat) : List Change :=
  [execDeadlineExpiry k, execChannelTimeout k, execHeldAccessProceed k, execRatedFiring k]

/-- Events of a partition: its channels, its page motions, its slice and its stop. -/
def partEvents (s : State) (p : Nat) (q : Part) : List Change :=
  (q.chans.flatMap fun c =>
    let here := c.2.flight == [] || c.2.flight.any fun t => match nget? s.txns t with | some x => decide (x.due ≤ s.cycle) | none => true
    (if here then [execChannelMatch (p * 2 ^ 24 + c.1)] else []) ++ [execEngineChannelDispatch (p * 2 ^ 24 + c.1)]) ++
    [execMotionStart p, execEpochEnd p, execSliceEnd p, execQuiescenceBudgetExpiry p, execPreemptLate p, execSaveStreamEnd p]

/-- Events of an instance. -/
def instEvents (i : Nat) : List Change := [execHandlerSpawn i, execDeadlockReport i, execInstanceEnd i]

/-- The command at the head of a queue. What comes from outside the module is as an unloaded machine would find it: a network whose
sections all have the layout that the spec gives, a new key, and a destination of a MIGRATE that does not answer (log entry 110). -/
def entryEvent (s : State) (e : EntryRef) (x : Entry) : Change :=
  let part := targetPart e x
  match x.cmd with
  | .partcreate .. | .invalid | .attest => execPartcreate e
  | .partsplit .. => execPartsplit e
  | .partdestroy _ => execPartdestroy e
  | .netload a n => execNetload ⟨e, plainImage ((s.readArg part a n).getD [])⟩
  | .launch .. => execLaunch e []
  | .replay .. => execReplay e []
  | .signalHost .. => execSignalHostQueue e
  | .signalPhase .. => execSignalPhaseArrival e
  | .preempt .. => execPreempt e
  | .save .. => execSave e
  | .restore .. => execRestore e
  | .migrate .. => execMigrate e false
  | .keysetMemory .. => execKeysetMemory ⟨e, some s.nextId⟩
  | .keysetBuneam .. => execKeysetBuneam ⟨e, s.nextId, s.moduleId, part, s.nextId⟩
  | .timeset _ => execTimeset e
  | .timeadj .. => execTimeadj e
  | .query 0 _ => execQueryRevision e
  | .query 1 _ => execQueryPatchList e
  | .query 2 _ => execQueryCapacity e
  | .query 3 _ => execQueryBudgets e
  | .query 4 _ => execQueryInstanceState e
  | .query _ _ => execQueryQueueState e

def queueEvents (s : State) (k : Nat) (q : Queue) : List Change :=
  let e : EntryRef := { fn := k / 2 ^ 16, q := k % 2 ^ 16, idx := q.seen }
  match s.nextEntry e with
  | some x => [entryEvent s e x]
  | none => []

/-- Updates between dies that have had their time (R192). -/
def messageEvents (s : State) : List Change :=
  (s.xmsgs.filter fun m => decide (m.due ≤ s.cycle)).flatMap fun m => m.waiting.map fun d => execCrossDieMessageApply d m.src

/-- What may happen of itself, in the order in which it is tried. -/
def dueEvents (s : State) : List Change :=
  ((s.txns.filter fun e => decide (e.2.due ≤ s.cycle)).flatMap fun e => txnEvents e.1 e.2) ++ messageEvents s ++
    (s.tokens.filter fun e => decide (e.2.due ≤ s.cycle)).map (fun e => execRollupTokenCount e.1) ++
    s.cores.flatMap (fun e => coreEvents e.1) ++ s.procs.flatMap (fun e => procEvents e.1) ++ [execChannelTimeout 0] ++
    s.gangs.flatMap (fun e => [execGangGrant e.1, execGangTimeout e.1]) ++ s.parts.flatMap (fun e => partEvents s e.1 e.2) ++
    (s.motions.filter fun e => decide (e.2.due ≤ s.cycle)).map (fun e => execMotionLineCopy e.1) ++
    s.mbds.flatMap (fun e => e.2.refresh.map (execNeighbourRefresh e.1)) ++
    s.insts.flatMap (fun e => instEvents e.1) ++ s.queues.flatMap (fun e => queueEvents s e.1 e.2) ++
    (List.range 64).flatMap fun k => [execQueueSlotRelease k, execQueueSlotBind k]

/-- The move of an empty agenda. -/
def State.autoMove (s : State) : Host.Outcome State Fault Refusal :=
  if s.stopped then .next s
  else
    match (dueEvents s).findSome? fun f => changed s (f s) with
    | some t => .next t
    | none =>
      match (s.procs.filter fun e => e.2.engine.isSome).findSome? fun e => changed s (s.engineTurn e.1) with
      | some t => .next t
      | none => s.turn

end Sys2Proof.Machine
end

