-- ==== Sys2Proof/Machine/Step.lean ====
section
/-! DEFINITION. One step: the next move of the agenda, or the machine's own (log entry 4); and the state in which a given word
is the next to issue. -/

namespace Sys2Proof.Machine

def step (s : State) : Host.Outcome State Fault Refusal :=
  match s.agenda with
  | m :: t => { s with agenda := t }.move m
  | [] => if s.auto then s.autoMove else s.move .turn

/-- The two words that stand at the program counter for one word: a lone word alone, an A word of a pair with `nop.b` after it,
a B word of a pair after the A word `nop`. -/
def fetchWords (v : Nat) : Nat × Nat :=
  if v / 2 ^ 31 % 2 = 1 then (v, 0)
  else if v / 2 ^ 29 % 2 = 0 then (v, 0x3F800000)
  else (0x03800000, v)

/-- The state with a word where the next step fetches: partition 0 with process 1 running on context 0 of core 0, its page in
that core's TLB, and an issue turn next on the agenda (log entry 12). -/
def State.withFetchWord (s : State) (nbits w : Nat) : State :=
  let v := fetchWords (w % 2 ^ (min nbits 32))
  let e : TlbEnt := { part := 0, vpn := 1, frame := 1, w := true, x := true, ty := 0, pt := false, leaf := 0, large := 0 }
  let p : Proc := { st := .running, pc := 0x10000, inst := 0, core := 0, ctx := some 0, started := true }
  let c : Core := { s.core 0 with ctxs := nset (s.core 0).ctxs 0 { run := some 1 }, tlb := [e] }
  { s with
    mem := writeBytes s.mem 0x10000 (leBytes 4 v.1 ++ leBytes 4 v.2)
    stopped := false
    parts := nset s.parts 0 { level := 1, clusters := 1 }
    procs := nset s.procs 1 p
    cores := nset s.cores 0 c
    cycle := s.cycle - s.cycle % 8
    turnCore := 0
    agenda := [.turn] }

end Sys2Proof.Machine
end

