-- ==== Sys2Proof/Safety.lean ====
section
/-! DEFINITION. The terms of the statements: the invariant of a safe run, what a vector form gives, and when a command
may begin. -/

namespace Sys2Proof.Machine

/-- What every step keeps: memory stands in its canonical form, and no word is in issue between steps. -/
structure State.Inv (s : State) : Prop where
  mem : Memory.wf s.mem = true
  issue : s.issue = none
  raised : s.raised = none

/-- A word completes at once with a vector register of lanes of `w` bits: lane `j` of `vd` is `g j` where `act j` holds, and
what it was elsewhere; no other register of the issuer, no other process, no core and no byte of memory changes, and flags are
only added. -/
def LaneResult (s : State) (i : Issue) (vd : BitVec 5) (w : Nat) (act : Nat → Bool) (g : Nat → Nat)
    (r : Host.Outcome State Fault Refusal) : Prop :=
  ∃ t, r = .next t ∧ t = { s with procs := t.procs } ∧ (∀ k, k ≠ i.proc → t.proc k = s.proc k) ∧
    (let p := s.proc i.proc
     let q := t.proc i.proc
     q = { p with v := q.v, flags := q.flags } ∧ q.flags &&& p.flags = p.flags ∧
     (∀ j < 2048 / w, laneAt w (q.vget (i.pre.vphys vd)) j = if act j then g j % 2 ^ w else laneAt w (i.oldV vd) j) ∧
     ∀ r, r ≠ i.pre.vphys vd → q.vget r = p.vget r) ∧
    ∀ a, readByte t.mem a = readByte s.mem a

/-- A word issues as a pending form that will deliver a vector register of lanes of `w` bits to `vd`: the new transaction
carries the whole register, and nothing of memory changes. -/
def LanePending (s : State) (i : Issue) (vd : BitVec 5) (w : Nat) (act : Nat → Bool) (g : Nat → Nat)
    (r : Host.Outcome State Fault Refusal) : Prop :=
  ∃ t x d v, r = .next t ∧ t.issue = s.issue ∧ (i.pre.vphys vd, s.nextTxn) ∈ (t.proc i.proc).vPend ∧
    nget? t.txns s.nextTxn = some x ∧ x.tgt.vregs = [i.pre.vphys vd] ∧ x.op = .value d ∧ d.vecs = [v] ∧
    (∀ j < 2048 / w, laneAt w v j = if act j then g j % 2 ^ w else laneAt w (i.oldV vd) j) ∧
    ∀ a, readByte t.mem a = readByte s.mem a

/-- The parts of the machine that an engine command needs at issue are free: the buffers that its ranges touch take them, a
completion object and scoreboard entries are left, and for a heavy command a power token. -/
structure EngReady (s : State) (i : Issue) (e : EngCmd) : Prop where
  ranges : (startRanges s e.ranges).isOk = true
  token : e.heavy = true → 0 < (s.core i.pre.core).free
  object : ((s.core i.pre.core).freeObj e.shared).isSome = true
  room : (s.core i.pre.core).sbRoom (ownRanges i.pre.core e.ranges + e.later) = true

/-- A word issues as an engine command: the lowest free object of its pool runs for the issuer, the operation stands as a transaction,
its handle is pushed, and a pending status after it; no byte of memory changes. -/
def EngIssued (s : State) (i : Issue) (e : EngCmd) (r : Host.Outcome State Fault Refusal) : Prop :=
  ∃ t j, r = .next t ∧ t.issue = s.issue ∧ (s.core i.pre.core).freeObj e.shared = some j ∧
    ((t.core i.pre.core).obj j).st = .running ∧ ((t.core i.pre.core).obj j).issuer = i.proc ∧
    (nget? t.txns s.nextTxn).map Txn.op = some (.eng i.pre.core j e.op) ∧
    (t.proc i.proc).qget 1 = handleWord i.pre.core ((((s.core i.pre.core).obj j).gen + 1) % 256) j ∧
    (t.proc i.proc).qpend 1 = false ∧ (t.proc i.proc).qpend 0 = true ∧ t.mem = s.mem

/-- A command may begin: it is the next of a queue that holds a slot, its reserved fields are zero, and the module is not in
recovery. -/
structure CmdReady (s : State) (e : EntryRef) (x : Entry) : Prop where
  next : s.nextEntry e = some x
  zero : x.reservedZero = true
  live : s.recovery = false

end Sys2Proof.Machine
end

