-- ==== Sys2Proof/Certificates/Slice0/Obligations.lean ====
section
/-! DEFINITION. The statements for the provers (OBLIGATIONS.json): what each instruction does, what it leaves unchanged, what
taking a fault saves, what the machine keeps. -/

section Slice0
open Sys2Proof Sys2Proof.Machine

/-- O1: The integer forms of two sources, and those of one, push their result. With x and y readable, each of add, sub, mul, mulh, min, max, cmp, and, or, xor, andn, shl, shr, sar and rol completes: the next state is the state with the 64-bit result pushed and kept. mulh gives bits [127:64] of the 128-bit product, shifts take y mod 64, cmp gives -1, 0 or 1. neg, abs, not, popc, clz and ctz of x complete in the same way. -/
def Obligations.BinaryResults : Prop :=
  ∀ (s : State) (i : Issue) (x y : Src) (k : Keep) (a b : Word),
    s.issue = some i → readSrc i x = .ok a → readSrc i y = .ok b →
    (exec (.add x y k) s = .next (s.push i (a + b) k)) ∧
    (exec (.sub x y k) s = .next (s.push i (a - b) k)) ∧
    (exec (.mul x y k) s = .next (s.push i (a * b) k)) ∧
    (exec (.mulhI64 x y k) s =
      .next (s.push i ((a.signExtend 128 * b.signExtend 128).extractLsb' 64 64) k)) ∧
    (exec (.mulhN64 x y k) s =
      .next (s.push i ((a.setWidth 128 * b.setWidth 128).extractLsb' 64 64) k)) ∧
    (exec (.minI64 x y k) s = .next (s.push i (if a.toInt ≤ b.toInt then a else b) k)) ∧
    (exec (.minN64 x y k) s = .next (s.push i (if a.toNat ≤ b.toNat then a else b) k)) ∧
    (exec (.maxI64 x y k) s = .next (s.push i (if b.toInt ≤ a.toInt then a else b) k)) ∧
    (exec (.maxN64 x y k) s = .next (s.push i (if b.toNat ≤ a.toNat then a else b) k)) ∧
    (exec (.cmpI64 x y k) s =
      .next (s.push i (if a.toInt < b.toInt then -1 else if a = b then 0 else 1) k)) ∧
    (exec (.cmpN64 x y k) s =
      .next (s.push i (if a.toNat < b.toNat then -1 else if a = b then 0 else 1) k)) ∧
    (exec (.and x y k) s = .next (s.push i (a &&& b) k)) ∧
    (exec (.or x y k) s = .next (s.push i (a ||| b) k)) ∧
    (exec (.xor x y k) s = .next (s.push i (a ^^^ b) k)) ∧
    (exec (.andn x y k) s = .next (s.push i (a &&& ~~~b) k)) ∧
    (exec (.shl x y k) s = .next (s.push i (a <<< (b.toNat % 64)) k)) ∧
    (exec (.shr x y k) s = .next (s.push i (a >>> (b.toNat % 64)) k)) ∧
    (exec (.sar x y k) s = .next (s.push i (a.sshiftRight (b.toNat % 64)) k)) ∧
    (exec (.rol x y k) s = .next (s.push i (a.rotateLeft (b.toNat % 64)) k)) ∧
    (exec (.neg x k) s = .next (s.push i (0 - a) k)) ∧
    (exec (.abs x k) s = .next (s.push i (BitVec.ofNat 64 a.toInt.natAbs) k)) ∧
    (exec (.not x k) s = .next (s.push i (~~~a) k)) ∧
    (exec (.popc x k) s = .next (s.push i (BitVec.ofNat 64 ((List.range 64).countP fun j => a.getLsbD j)) k)) ∧
    (∃ n : Nat, exec (.clz x k) s = .next (s.push i (BitVec.ofNat 64 n) k) ∧ n ≤ 64 ∧ a.toNat < 2 ^ (64 - n) ∧
      (a ≠ 0 → 2 ^ (63 - n) ≤ a.toNat)) ∧
    (∃ n : Nat, exec (.ctz x k) s = .next (s.push i (BitVec.ofNat 64 n) k) ∧ n ≤ 64 ∧ a.toNat % 2 ^ n = 0 ∧
      (a ≠ 0 → n < 64 ∧ a.getLsbD n = true) ∧ (a = 0 → n = 64))

/-- O2: The unary integer forms push their result, and a nonzero y field is no instruction. With x readable, neg, abs, not, clz, ctz and popc complete and push at once: 0 - x (so -2^63 gives -2^63), |x| signed (likewise), the complement, the number of leading zeros (64 for 0), of trailing zeros (64 for 0), of ones. A B word of major 0x02 with a nonzero y field decodes to no instruction, so that the checks of its issue raise ILLEGAL_INSTR for every issuer, as does the form of a word that is no instruction. -/
def Obligations.UnaryResults : Prop :=
  (∀ (s : State) (i : Issue) (x : Src) (k : Keep) (a : Word), s.issue = some i → readSrc i x = .ok a →
    (exec (.neg x k) s = .next (s.push i (0 - a) k)) ∧
    (exec (.abs x k) s = .next (s.push i (BitVec.ofNat 64 a.toInt.natAbs) k)) ∧
    (exec (.not x k) s = .next (s.push i (~~~a) k)) ∧
    (∃ n : Nat, exec (.clz x k) s = .next (s.push i (BitVec.ofNat 64 n) k) ∧ n ≤ 64 ∧ a.toNat < 2 ^ (64 - n) ∧
      (a ≠ 0 → 2 ^ (63 - n) ≤ a.toNat)) ∧
    (∃ n : Nat, exec (.ctz x k) s = .next (s.push i (BitVec.ofNat 64 n) k) ∧ n ≤ 64 ∧ a.toNat % 2 ^ n = 0 ∧
      (a ≠ 0 → n < 64 ∧ a.getLsbD n = true) ∧ (a = 0 → n = 64)) ∧
    (exec (.popc x k) s = .next (s.push i (BitVec.ofNat 64 ((List.range 64).countP fun j => a.getLsbD j)) k))) ∧
  (∀ w : Nat, fld w 29 1 = 1 → fld w 23 6 = 2 → fld w 11 6 ≠ 0 → (∃ r, decodeWord w = .error r) ∧
    ∀ (s : State) (i : Issue), wordChecks s i w = .error { kind := .illegalInstr }) ∧
  (∀ (s : State) (i : Issue) (w : W32), s.issue = some i →
    exec (.encodingNotInstruction w) s = .next (s.raise { kind := .illegalInstr }))

/-- O3: Immediate, extension, bit-field and select forms push their result. li, lih, addi, sext, zext, bext, bins and sel complete on readable sources with the pushed value the spec gives: sign-extended immediate; x shifted by 11 with the immediate below; the sum modulo 2^64; the low w bits of x extended; the field of w + 1 bits at lo; x with that field replaced by q0's low bits, bit by bit; x or y by q0. -/
def Obligations.ImmediateResults : Prop :=
  ∀ (s : State) (i : Issue) (x y : Src) (k : Keep) (a b c : Word),
    s.issue = some i → readSrc i x = .ok a → readSrc i y = .ok b → readSrc i (.q 0) = .ok c →
    (∀ m : BitVec 17, exec (.li m k) s = .next (s.push i (m.signExtend 64) k)) ∧
    (∀ m : BitVec 11, exec (.lih x m k) s = .next (s.push i ((a <<< 11) ||| m.setWidth 64) k)) ∧
    (∀ m : BitVec 11, exec (.addi x m k) s = .next (s.push i (a + m.signExtend 64) k)) ∧
    (∀ m : BitVec 11, widthOk m = true →
      exec (.sext x m k) s = .next (s.push i ((a.setWidth m.toNat).signExtend 64) k) ∧
      exec (.zext x m k) s = .next (s.push i ((a.setWidth m.toNat).setWidth 64) k)) ∧
    (∀ (w : BitVec 5) (lo : BitVec 6), bitFieldOk w lo = true →
      exec (.bext x w lo k) s = .next (s.push i ((a.extractLsb' lo.toNat (w.toNat + 1)).setWidth 64) k) ∧
      ∃ v : Word, exec (.bins x w lo k) s = .next (s.push i v k) ∧
        ∀ j < 64, v.getLsbD j =
          if lo.toNat ≤ j ∧ j < lo.toNat + (w.toNat + 1) then c.getLsbD (j - lo.toNat) else a.getLsbD j) ∧
    (exec (.sel x y k) s = .next (s.push i (if c = 0 then b else a) k))

/-- O4: Division and remainder reserve a pending slot and deliver the quotient or remainder. With x and y readable, div and rem complete as pending forms: the next state is the one with one pending entry pushed whose transaction, when it arrives, delivers the value and the flags. The quotient truncates toward zero, the remainder takes the dividend's sign, -2^63 divided by -1 gives -2^63 and 0, a zero divisor gives all ones and x with DZ set and no fault. -/
def Obligations.DivisionForms : Prop :=
  ∀ (s : State) (i : Issue) (x y : Src) (k : Keep) (a b : Word),
    s.issue = some i → readSrc i x = .ok a → readSrc i y = .ok b →
    let gives (e : Instr) (w fl : Word) : Prop :=
      ∃ t : State, exec e s = .next t ∧ t = s.pushLater i w fl k 36 ∧ t.issue = some i ∧
        (nget? t.txns s.nextTxn).map Txn.op = some (.value { vals := [w], kept := [w], flags := fl })
    gives (.divI64 x y k) (if b = 0 then BitVec.allOnes 64 else a.sdiv b) (if b = 0 then fDZ else 0) ∧
    gives (.divN64 x y k) (if b = 0 then BitVec.allOnes 64 else a / b) (if b = 0 then fDZ else 0) ∧
    gives (.remI64 x y k) (if b = 0 then a else a.srem b) (if b = 0 then fDZ else 0) ∧
    gives (.remN64 x y k) (if b = 0 then a else a % b) (if b = 0 then fDZ else 0)

/-- O5: Pointer forms push their result or raise the fault the rule names. addp moves the offset field alone, and raises FAT_OVERFLOW where the exact sum leaves 0 to 2^51 - 1. fmtp replaces bits [59:51]. ptrq pushes the field that y chooses. peer makes a window pointer for a member of the issuer's gang or for a process of its partition. -/
def Obligations.PointerResults : Prop :=
  ∀ (s : State) (i : Issue) (x y : Src) (k : Keep) (p d : Word),
    s.issue = some i → readSrc i x = .ok p → readSrc i y = .ok d →
    let moved (e : Instr) (delta : Int) : Prop :=
      ((0 ≤ (pOff p : Int) + delta ∧ (pOff p : Int) + delta < 2 ^ 51) →
        ∃ w : Word, exec e s = .next (s.push i w k) ∧ (pOff w : Int) = pOff p + delta ∧ w.toNat / 2 ^ 51 = p.toNat / 2 ^ 51) ∧
      (¬ (0 ≤ (pOff p : Int) + delta ∧ (pOff p : Int) + delta < 2 ^ 51) →
        exec e s = .next (s.raise { kind := .fatOverflow, addr := p }))
    (∀ m : BitVec 11, moved (.addpImm x m k) m.toInt) ∧
    moved (.addp x y k) d.toInt ∧
    (d.toNat < 2 ^ 9 → fmtReserved (d.toNat % 64) = false → (d.toNat / 64 = 0 ∨ fmtSplit (d.toNat % 64) = true) →
      ∃ w : Word, exec (.fmtp x y k) s = .next (s.push i w k) ∧ pSpace w = pSpace p ∧ pFmt w = d.toNat % 64 ∧
        pBl w = d.toNat / 64 ∧ pOff w = pOff p) ∧
    (d.toNat ≤ 3 → exec (.ptrq x y k) s = .next (s.push i (BitVec.ofNat 64
      (if d.toNat = 0 then p.toNat / 2 ^ 60 else if d.toNat = 1 then p.toNat / 2 ^ 54 % 64
       else if d.toNat = 2 then p.toNat / 2 ^ 51 % 8 else p.toNat % 2 ^ 51)) k)) ∧
    (d.toNat = 4 → ∃ w : Word, exec (.ptrq x y k) s = .next (s.push i w k) ∧
      (w = 1 ↔ pSpace p ≤ 7 ∧ fmtReserved (pFmt p) = false ∧ (pBl p = 0 ∨ fmtSplit (pFmt p) = true)) ∧ (w = 1 ∨ w = 0)) ∧
    (4 < d.toNat → exec (.ptrq x y k) s = .next (s.raise { kind := .illegalOperand, addr := d })) ∧
    (d.toNat < 2 ^ 21 → 2 ^ 63 ≤ p.toNat → p.toNat / 2 ^ 32 % 2 ^ 31 = 0 → partOf (p.toNat % 2 ^ 32) = partOf i.proc →
      exec (.peer x y k) s = .next (s.push i (BitVec.ofNat 64 (4 * 2 ^ 60 + numOf (p.toNat % 2 ^ 32) * 2 ^ 21 + d.toNat)) k)) ∧
    (∀ (g : Gang) (m : Nat), d.toNat < 2 ^ 21 → p.toNat < 64 → i.pre.gang ≠ 0 → nget? s.gangs i.pre.gang = some g →
      g.members[p.toNat]? = some m →
      exec (.peer x y k) s = .next (s.push i (BitVec.ofNat 64 (4 * 2 ^ 60 + numOf m * 2 ^ 21 + d.toNat)) k))

/-- O6: Scalar floating-point forms complete with the result and flags of their operation. With their sources readable, the turn-ready floating forms push the result of their operation on the low bits of the sources, zero-extended, and OR its flags; fma's addend is its keep; fdiv and fsqrt are pending, for 16 cc in binary32 and 28 and 32 cc in binary64; fcvt converts between the named formats. -/
def Obligations.ScalarFloatResults : Prop :=
  ∀ (s : State) (i : Issue) (x y : Src) (k : Keep) (kr : BitVec 5) (a b c : Word) (dbl : Bool) (r : Rm),
    s.issue = some i → readSrc i x = .ok a → readSrc i y = .ok b → readSrc i (.n kr) = .ok c →
    let f : Fmt := if dbl then binary64 else binary32
    let lo (v : Word) : Nat := v.toNat % 2 ^ (if dbl then 64 else 32)
    let now (e : Instr) (v : Nat × Word) (k : Keep) : Prop :=
      exec e s = .next ((s.push i (BitVec.ofNat 64 v.1) k).setFlags i v.2)
    now (.fadd dbl x y k r) (fAdd f (arithRm (i.rm r)) (lo a) (lo b)) k ∧
    now (.fsub dbl x y k r) (fSub f (arithRm (i.rm r)) (lo a) (lo b)) k ∧
    now (.fmul dbl x y k r) (fMul f (arithRm (i.rm r)) (lo a) (lo b)) k ∧
    now (.fma dbl x y kr r) (fFma f (arithRm (i.rm r)) (lo a) (lo b) (lo c)) (some kr) ∧
    now (.frint dbl x k r) (fRint f (i.rm r) (lo a)) k ∧
    now (.fins dbl x y k r) (fIns f (arithRm (i.rm r)) (lo a) b.toInt) k ∧
    now (.fmin dbl x y k) (fMinMax f false (lo a) (lo b)) k ∧
    now (.fmax dbl x y k) (fMinMax f true (lo a) (lo b)) k ∧
    now (.fabs dbl x k) (lo a % 2 ^ (if dbl then 63 else 31), 0) k ∧
    now (.fneg dbl x k) ((lo a + 2 ^ (if dbl then 63 else 31)) % 2 ^ (if dbl then 64 else 32), 0) k ∧
    now (.fcmp dbl x y k) (fCmp f (lo a) (lo b)) k ∧
    now (.fexf dbl x k) (fExf f (lo a)) k ∧
    (∀ (src dst : CTy), exec (.fcvt src dst x k r) s =
      .next ((s.push i (convert src dst (i.rm r) a).1 k).setFlags i (convert src dst (i.rm r) a).2)) ∧
    (let v := fDiv f (arithRm (i.rm r)) (lo a) (lo b)
     exec (.fdiv dbl x y k r) s = .next (s.pushLater i (BitVec.ofNat 64 v.1) v.2 k (if dbl then 28 else 16))) ∧
    (let v := fSqrt f (arithRm (i.rm r)) (lo a)
     exec (.fsqrt dbl x k r) s = .next (s.pushLater i (BitVec.ofNat 64 v.1) v.2 k (if dbl then 32 else 16)))

/-- O7: fclass pushes the mask of the class of its operand. With x readable, fclass completes and pushes exactly the mask of Table R281: bit 0 for minus infinity, 1 minus normal, 2 minus subnormal, 3 minus zero, 4 plus zero, 5 plus subnormal, 6 plus normal, 7 plus infinity, 8 a signalling NaN, 9 a quiet NaN, by the sign, exponent and fraction fields of the operand in its format; no flag changes. -/
def Obligations.ClassOfFloat : Prop :=
  ∀ (s : State) (i : Issue) (x : Src) (k : Keep) (a : Word) (dbl : Bool), s.issue = some i → readSrc i x = .ok a →
    let fr := if dbl then 52 else 23
    let ex := if dbl then 11 else 8
    let m := a.toNat % 2 ^ fr
    let e := a.toNat / 2 ^ fr % 2 ^ ex
    let neg := a.getLsbD (fr + ex)
    let c : Nat :=
      if e = 2 ^ ex - 1 then
        if m = 0 then (if neg then 0 else 7) else if 2 ^ (fr - 1) ≤ m then 9 else 8
      else if e = 0 then
        if m = 0 then (if neg then 3 else 4) else (if neg then 2 else 5)
      else (if neg then 1 else 6)
    exec (.fclass dbl x k) s = .next ((s.push i (BitVec.ofNat 64 (2 ^ c)) k).setFlags i 0) ∧
    ((s.push i (BitVec.ofNat 64 (2 ^ c)) k).setFlags i 0) = s.push i (BitVec.ofNat 64 (2 ^ c)) k

/-- O8: fcmp gives exactly one of four bits. The mask of fcmp is 1, 2, 4 or 8; it is 8 exactly where an operand is a NaN; the two zeros compare equal; it sets no flag but NV; exchanging the operands exchanges less and greater. -/
def Obligations.CompareMask : Prop :=
  ∀ (dbl : Bool) (a b : Nat),
    let f := scalarFmt dbl
    a < 2 ^ f.width → b < 2 ^ f.width →
    ((fCmp f a b).1 = 1 ∨ (fCmp f a b).1 = 2 ∨ (fCmp f a b).1 = 4 ∨ (fCmp f a b).1 = 8) ∧
    ((fCmp f a b).1 = 8 ↔ (isNaN f a = true ∨ isNaN f b = true)) ∧
    (isZero f a = true → isZero f b = true → (fCmp f a b).1 = 2) ∧
    ((fCmp f a b).2 &&& ~~~fNV = 0) ∧
    ((fCmp f a b).1 = 1 ↔ (fCmp f b a).1 = 4)

/-- O9: A pushed result is q0, the older results move up by one, and a keep writes one named register. After a push of w with keep k, q0 holds w and is not pending, q(j+1) holds what qj held with its pending bit for j below 15, the kept physical register holds w and is no longer pending, every other named register holds what it held, and every other process, every core and every byte of memory is unchanged. -/
def Obligations.PushEffect : Prop :=
  ∀ (s : State) (i : Issue) (w : Word) (k : Keep),
    let p := s.proc i.proc
    let q := (s.push i w k).proc i.proc
    q.qget 0 = w ∧ q.qpend 0 = false ∧
    (∀ j : BitVec 4, j.toNat < 15 → q.qget (j + 1) = p.qget j ∧ q.qpend (j + 1) = p.qpend j) ∧
    (∀ r, k = some r → q.nget (i.pre.nphys r) = w ∧ ∀ e ∈ q.nPend, e.1 ≠ i.pre.nphys r) ∧
    (∀ r : BitVec 5, i.keep k ≠ some r → q.nget r = p.nget r ∧ ∀ t, ((r, t) ∈ q.nPend ↔ (r, t) ∈ p.nPend)) ∧
    q = { p with q := q.q, qPend := q.qPend, push := p.push + 1, n := q.n, nPend := q.nPend } ∧
    s.push i w k = { s with procs := (s.push i w k).procs } ∧
    (∀ j, j ≠ i.proc → (s.push i w k).proc j = s.proc j)

/-- O10: A keep on a pending instruction marks its register, and a later write cancels it. A pending issue that keeps into r marks physical r pending, so a read of r from then on raises UNREADY_OPERAND. The value that arrives fills the queue slot and r where the mark still stands. A write of r by a push that keeps into it, or through a register window, removes the mark, and the value that arrives afterwards fills its slot and leaves r unchanged. -/
def Obligations.PendingKeep : Prop :=
  ∀ (p : Proc) (t : Nat) (r : BitVec 5) (w v : Word),
    let a := p.pushPend t (some r)
    (∀ i : Issue, i.pre = a.1 → ∀ l : BitVec 5, a.1.nphys l = r → i.pre.engine = none →
      readSrc i (.n l) = .error (.trap { kind := .unreadyOperand, e5 := BitVec.ofNat 64 (32 + l.toNat) })) ∧
    ((a.1.fill t a.2 { vals := [w], kept := [w] }).nget r = w ∧ (a.1.fill t a.2 { vals := [w], kept := [w] }).qget 0 = w ∧
      (a.1.fill t a.2 { vals := [w], kept := [w] }).qpend 0 = false) ∧
    (let b := a.1.pushVal v (some r)
     let c := b.fill t a.2 { vals := [w], kept := [w] }
     c.nget r = v ∧ c.qget 1 = w ∧ c.qpend 1 = false ∧ c.qget 0 = v) ∧
    (∀ (s : State) (k : Nat), s.proc k = a.1 →
      let b := (s.winWrite k (0x40000 + 8 * r.toNat) v).proc k
      let c := b.fill t a.2 { vals := [w], kept := [w] }
      c.nget r = v ∧ c.qget 0 = w ∧ c.qpend 0 = false)

/-- O11: A read of a pending slot raises UNREADY_OPERAND and the word does nothing. Where x names a pending slot or register, an add of it raises UNREADY_OPERAND with the source's code, whatever y is; where x is readable and y is not, y's code is named. -/
def Obligations.UnreadyRead : Prop :=
  ∀ (s : State) (i : Issue) (x y : Src) (k : Keep), s.issue = some i → i.pre.engine = none →
    let pending (z : Src) : Prop :=
      (∃ j, z = .q j ∧ i.pre.qpend j = true) ∨ (∃ r, z = .n r ∧ ∃ t, (i.pre.nphys r, t) ∈ i.pre.nPend)
    let trap (z : Src) : Trap := { kind := .unreadyOperand, e5 := BitVec.ofNat 64 (Src.code z) }
    (pending x → exec (.add x y k) s = .next (s.raise (trap x))) ∧
    (¬ pending x → pending y → exec (.add x y k) s = .next (s.raise (trap y))) ∧
    (¬ pending x → ¬ pending y → ∃ a b, exec (.add x y k) s = .next (s.push i (a + b) k))

/-- O12: What a turn-ready integer word leaves unchanged. Where one of the integer, logic, unary, immediate, bit-field or pointer forms issues (its latch stands after it), nothing of the machine changes but the issuer's ring, push count, named registers and their marks: every named register but the kept one, every flag and control register, every vector, predicate and matrix register, every other process and core, and every byte of memory reads as before. -/
def Obligations.AluFrame : Prop :=
  ∀ (s t : State) (i : Issue) (e : Instr) (x y : Src) (k : Keep), s.issue = some i →
    (e ∈ [.add x y k, .sub x y k, .mul x y k, .mulhI64 x y k, .mulhN64 x y k, .minI64 x y k, .minN64 x y k, .maxI64 x y k,
          .maxN64 x y k, .cmpI64 x y k, .cmpN64 x y k, .and x y k, .or x y k, .xor x y k, .andn x y k, .shl x y k,
          .shr x y k, .sar x y k, .rol x y k, .sel x y k, .neg x k, .abs x k, .not x k, .clz x k, .ctz x k, .popc x k,
          .addp x y k, .fmtp x y k, .peer x y k, .ptrq x y k] ∨
     (∃ m, e = .li m k) ∨ (∃ m, e = .lih x m k ∨ e = .sext x m k ∨ e = .zext x m k ∨ e = .addi x m k ∨ e = .addpImm x m k) ∨
     (∃ w lo, e = .bext x w lo k ∨ e = .bins x w lo k)) →
    exec e s = .next t → t.issue.isSome = true →
    t = { s with procs := t.procs } ∧ (∀ j, j ≠ i.proc → t.proc j = s.proc j) ∧
    (let p := s.proc i.proc
     let q := t.proc i.proc
     q = { p with q := q.q, qPend := q.qPend, push := p.push + 1, n := q.n, nPend := q.nPend } ∧
     ∀ r : BitVec 5, i.keep k ≠ some r → q.nget r = p.nget r) ∧
    ∀ a, readByte t.mem a = readByte s.mem a

/-- O13: What a turn-ready floating word leaves unchanged. Where one of the turn-ready floating forms issues, nothing changes but the issuer's ring, push count, kept register and flags, and no flag that stood is cleared; every byte of memory reads as before. -/
def Obligations.FloatFrame : Prop :=
  ∀ (s t : State) (i : Issue) (e : Instr) (x y : Src) (k : Keep) (dbl : Bool) (r : Rm) (kr : BitVec 5) (c d : CTy), s.issue = some i →
    (e ∈ [.fadd dbl x y k r, .fsub dbl x y k r, .fmul dbl x y k r, .frint dbl x k r, .fins dbl x y k r, .fmin dbl x y k,
          .fmax dbl x y k, .fabs dbl x k, .fneg dbl x k, .fcmp dbl x y k, .fclass dbl x k, .fexf dbl x k, .fcvt c d x k r] ∨
     (e = .fma dbl x y kr r ∧ k = some kr)) →
    exec e s = .next t → t.issue.isSome = true →
    t = { s with procs := t.procs } ∧ (∀ j, j ≠ i.proc → t.proc j = s.proc j) ∧
    (let p := s.proc i.proc
     let q := t.proc i.proc
     q = { p with q := q.q, qPend := q.qPend, push := p.push + 1, n := q.n, nPend := q.nPend, flags := q.flags } ∧
     q.flags &&& p.flags = p.flags ∧ ∀ r : BitVec 5, i.keep k ≠ some r → q.nget r = p.nget r) ∧
    ∀ a, readByte t.mem a = readByte s.mem a

/-- O14: Jumps, calls, loops, repetitions and nops complete. With their operands readable and the target's offset in range: br and a bc whose condition holds on q0 make the displacement from the word's own address the next fetch address, and a bc whose condition does not leaves it; call and calli push the return address and keep it in n15; jmpi and ret go to a 4-aligned space 0x0 pointer, its format bits dropped; loop pushes and keeps n - 1 and branches while it is not zero; rep starts a repetition, or skips the body for a count of 0; nop and nop.b change nothing. -/
def Obligations.ControlTransfer : Prop :=
  ∀ (s : State) (i : Issue) (x : Src) (a q : Word), s.issue = some i → readSrc i x = .ok a → readSrc i (.q 0) = .ok q →
    let go (u : State) (w : Word) : State := { u with issue := some { i with next := w } }
    let inRange (d : Int) : Prop := 0 ≤ (pOff i.loc : Int) + 4 * d ∧ (pOff i.loc : Int) + 4 * d < 2 ^ 51
    let target (d : Int) : Word := BitVec.ofNat 64 (i.loc.toNat / 2 ^ 51 * 2 ^ 51 + ((pOff i.loc : Int) + 4 * d).toNat)
    (∀ d : BitVec 18, inRange d.toInt →
      exec (.br d) s = .next (go s (target d.toInt)) ∧
      exec (.call d) s = .next (go (s.push i i.next (some 15)) (target d.toInt)) ∧
      exec (.bc .z d) s = .next (if q = 0 then go s (target d.toInt) else s) ∧
      exec (.bc .nz d) s = .next (if q ≠ 0 then go s (target d.toInt) else s) ∧
      exec (.bc .lt d) s = .next (if q.toInt < 0 then go s (target d.toInt) else s) ∧
      exec (.bc .ge d) s = .next (if 0 ≤ q.toInt then go s (target d.toInt) else s) ∧
      exec (.bc .gt d) s = .next (if 0 < q.toInt then go s (target d.toInt) else s) ∧
      exec (.bc .le d) s = .next (if q.toInt ≤ 0 then go s (target d.toInt) else s)) ∧
    (pSpace a = 0 → a.toNat % 4 = 0 →
      exec (.jmpi x) s = .next (go s (BitVec.ofNat 64 (pOff a))) ∧
      exec (.ret x) s = .next (go s (BitVec.ofNat 64 (pOff a))) ∧
      exec (.calli x) s = .next (go (s.push i i.next (some 15)) (BitVec.ofNat 64 (pOff a)))) ∧
    (∀ (r : BitVec 5) (d : BitVec 17) (n : Word), readSrc i (.n r) = .ok n → inRange d.toInt →
      exec (.loop r d) s =
        .next (if n = 1 then s.push i 0 (some r) else go (s.push i (n - 1) (some r)) (target d.toInt))) ∧
    (∀ (b sn sv : BitVec 4), 0 < a.toNat → a.toNat < 2 ^ 24 →
      exec (.rep x b sn sv) s = .next (s.modProc i.proc fun p =>
        { p with rep := { active := true, remain := a.toNat, b := b.toNat, sn := sn.toNat, sv := sv.toNat, pos := 0 } })) ∧
    (∀ (b sn sv : BitVec 4), a = 0 → pOff i.next + 8 * (b.toNat + 1) < 2 ^ 51 →
      exec (.rep x b sn sv) s =
        .next (go s (BitVec.ofNat 64 (i.next.toNat / 2 ^ 51 * 2 ^ 51 + (pOff i.next + 8 * (b.toNat + 1)))))) ∧
    exec .nop s = .next s ∧ exec .nopB s = .next s

/-- O15: brk raises BREAKPOINT in class P, and is a nop once after a resume from it. brk (major 0x00, minor 0x02, x, y and z zero) raises BREAKPOINT precisely: the process is FAULTED with its program counter on the brk. A resume of that record sets the mark under which the next brk issued by the process changes nothing but the mark; without the mark it raises again. -/
def Obligations.BreakAndTrap : Prop :=
  (∀ w : Nat, decodeWord w = .ok .brk ↔ fld w 29 1 = 0 ∧ fld w 23 6 = 0 ∧ fld w 0 5 = 2 ∧ fld w 17 6 = 0 ∧ fld w 11 6 = 0 ∧
    fld w 5 6 = 0) ∧
  (∀ (s : State) (i : Issue), s.issue = some i → i.pre.brkOnce = false → exec .brk s = .next (s.raise { kind := .breakpoint })) ∧
  (∀ (s : State) (i : Issue), s.issue = some i → i.pre.brkOnce = true →
    exec .brk s = .next (s.modProc i.proc fun p => { p with brkOnce := false })) ∧
  (∀ (s : State) (i : Issue), s.issue = some i → (s.proc i.proc).engine = none → (s.proc i.proc).isHandler = false →
    handlerIndex s i.pre.inst ≠ none → isManager s i.proc = false → (s.proc i.proc).inst = i.pre.inst →
    (s.inst i.pre.inst).queue.length < 16 → i.proc < 2 ^ 32 →
    let t := s.raise { kind := .breakpoint }
    (t.proc i.proc).st = .faulted ∧ (t.proc i.proc).pc = i.loc ∧ t.issue = none) ∧
  (∀ (s : State) (id : Nat) (r : FRec), nget? s.recs id = some r → r.kind = .breakpoint → (s.proc r.handle).held = some id →
    ((s.dispose id .resume).proc r.handle).brkOnce = true)

/-- O16: trap takes a TRAP record in class A, with the program counter after it. With x readable, trap completes by raising TRAP after its effect, with SUB the trap number and EXTRA w5 the operand. Where its pair has raised nothing before, the issuer is no engine thread, handler or manager, and its network has a handler with room: the issuer is FAULTED with its program counter after the word, and the record it stands FAULTED for, of class A, is in the handler queue. With x a pending queue slot UNREADY_OPERAND is raised in its place. -/
def Obligations.TrapAfterEffect : Prop :=
  (∀ (s : State) (i : Issue) (x : Src) (n : BitVec 6) (a : Word), s.issue = some i → readSrc i x = .ok a →
    exec (.trap x n) s = .next (s.raiseAfter { kind := .trap, sub := n.toNat, e5 := a })) ∧
  (∀ (s : State) (i : Issue) (x : Src) (n : BitVec 6) (a : Word), s.issue = some i → readSrc i x = .ok a → s.raised = none →
    i.hit = false → (s.proc i.proc).engine = none → (s.proc i.proc).isHandler = false →
    handlerIndex s (s.proc i.proc).inst ≠ none → isManager s i.proc = false →
    (s.inst (s.proc i.proc).inst).queue.length < 16 → i.proc < 2 ^ 32 →
    ∃ (t : State) (r : FRec), exec (.trap x n) s = .next t ∧ t.issue = some i ∧ (t.proc i.proc).st = .faulted ∧
      (t.proc i.proc).pc = i.next ∧ (t.proc i.proc).held = some s.nextId ∧ nget? t.recs s.nextId = some r ∧ r.kind = .trap ∧
      r.cls = .a ∧ r.sub = n.toNat ∧ r.e5 = a ∧ r.loc = i.loc ∧ r.handle = i.proc ∧
      s.nextId ∈ (t.inst (s.proc i.proc).inst).queue) ∧
  (∀ (s : State) (i : Issue) (j : BitVec 4) (n : BitVec 6), s.issue = some i → i.pre.qpend j = true → i.pre.engine = none →
    exec (.trap (.q j) n) s = .next (s.raise { kind := .unreadyOperand, e5 := BitVec.ofNat 64 j.toNat }))

/-- O17: A precise fault saves where it stands, changes the state of the process, and leaves its registers. Raising a trap at the word in issue of a process that is no engine thread, no handler and no manager: the word no longer issues; the process is FAULTED with its program counter on the word and its wait kind cleared; its record has the trap's kind and words, class P, the word's location, the process's handle and the device time; ring, push count, named, vector and predicate registers and flags are as they were; a process that is no gang member has no context any more; other processes keep everything. -/
def Obligations.TakingFault : Prop :=
  ∀ (s : State) (i : Issue) (tr : Trap), s.issue = some i → (s.proc i.proc).engine = none → (s.proc i.proc).isHandler = false →
    handlerIndex s (s.proc i.proc).inst ≠ none → isManager s i.proc = false →
    (s.inst (s.proc i.proc).inst).queue.length < 16 → i.proc < 2 ^ 32 →
    let t := s.raise tr
    let p := s.proc i.proc
    let q := t.proc i.proc
    t.issue = none ∧ q.st = .faulted ∧ q.pc = i.loc ∧ q.wkind = .none ∧ q.held = some s.nextId ∧
    q.q = p.q ∧ q.qPend = p.qPend ∧ q.push = p.push ∧ q.n = p.n ∧ q.nPend = p.nPend ∧ q.v = p.v ∧ q.p = p.p ∧
    q.flags = p.flags ∧ q.rmode = p.rmode ∧ q.rot = p.rot ∧ q.rep = p.rep ∧
    (p.gang = 0 → q.ctx = none) ∧ (p.gang ≠ 0 → q.ctx = p.ctx) ∧
    (∃ r, nget? t.recs s.nextId = some r ∧ r.kind = tr.kind ∧ r.cls = .p ∧ r.sub = tr.sub ∧ r.addr = tr.addr ∧
      r.other = tr.other ∧ r.e5 = tr.e5 ∧ r.e6 = tr.e6 ∧ r.e7 = tr.e7 ∧ r.loc = i.loc ∧ r.handle = i.proc ∧ r.time = s.time ∧
      r.inst = p.inst ∧ r.bword = i.bword) ∧
    (∀ j, j ≠ i.proc → t.proc j = s.proc j)

/-- O18: A record is written at its slot of the fault area, and nowhere else. Writing a record of an instance whose fault area stands at physical address P puts its 64 bytes at P + 64 * (n mod 64), n the records written before, leaves every other byte as it was, and counts the record; the first word holds the kind in [63:48], DEFER in bit 47, the B-word bit in 46, the level in [45:44], SUB in [39:32] and the instance in [31:0]. -/
def Obligations.RecordInMemory : Prop :=
  ∀ (s : State) (r : FRec), let v := s.inst r.inst
    let at_ := v.areaPa + v.written % 64 * 64
    let t := (s.writeRec r).1
    let w := (s.writeRec r).2
    (v.areaPa ≠ 0 → readBytes t.mem at_ 64 = w.bytes ∧
      (∀ a, (a < at_ ∨ at_ + 64 ≤ a) → readByte t.mem a = readByte s.mem a) ∧
      readWord t.mem (at_ + 8) = w.loc ∧ readWord t.mem (at_ + 24) = w.addr ∧ readWord t.mem (at_ + 32) = w.time ∧
      (r.level < 4 → r.sub < 256 → r.inst < 2 ^ 32 →
        let w0 := (readWord t.mem at_).toNat
        bits w0 63 48 = r.kind.code ∧ bits w0 47 47 = (if r.cls = .d then 1 else 0) ∧
        bits w0 46 46 = (if r.bword then 1 else 0) ∧ bits w0 45 44 = r.level ∧ bits w0 39 32 = r.sub ∧ bits w0 31 0 = r.inst)) ∧
    (v.areaPa = 0 → t.mem = s.mem) ∧ w.area = v.area + v.written % 64 * 64 ∧
    w = { r with area := w.area } ∧ t.procs = s.procs

/-- O19: eret disposes of the record that its issuer holds, or raises PRIV or ILLEGAL_OPERAND. eret with each disposition completes for a handler instance that was spawned with the record of the named process, and for a manager that is no handler and to which that record has been escalated: the record is disposed of and the issuer goes on. A process that is neither gets PRIV; a handler or manager that holds no record of the named process gets ILLEGAL_OPERAND. Disposed of with resume, a process FAULTED for a record that is neither CORE_LOST nor of class C, without a context and with no operation that blocks it, is READY where its program counter stands, keeps its registers, and the record is gone; with kill it is EXITED; with escalate a record of level 0 rises to level 1 as a message of the manager's channel, where that is open with a slot free. -/
def Obligations.ReturnFromFault : Prop :=
  (∀ (s : State) (i : Issue) (x : Src) (a : Word) (id : Nat) (r : FRec) (d : Disp), s.issue = some i →
    readSrc i x = .ok a → nget? s.recs id = some r → r.handle = a.toNat % 2 ^ 32 →
    (i.pre.isHandler = true ∧ i.pre.handles = some id ∨
      i.pre.isHandler = false ∧ i.pre.handles = none ∧ s.isMgr i.proc = true ∧ s.managed = [id] ∧
        partOf r.handle = partOf i.proc) →
    ∃ u : State, exec (.eret x d) s = .next (u.dispose id d) ∧ (u.dispose id d).issue = some i ∧ u = { s with procs := u.procs } ∧
      (∀ k, k ≠ i.proc → u.proc k = s.proc k) ∧ (u.proc i.proc).handles ≠ some id) ∧
  (∀ (s : State) (i : Issue) (x : Src) (d : Disp), s.issue = some i → i.pre.isHandler = false → s.isMgr i.proc = false →
    exec (.eret x d) s = .next (s.raise { kind := .priv })) ∧
  (∀ (s : State) (i : Issue) (x : Src) (a : Word) (d : Disp), s.issue = some i →
    (i.pre.isHandler = true ∨ s.isMgr i.proc = true) → readSrc i x = .ok a →
    (∀ id r, (i.pre.handles = some id ∨ id ∈ s.managed) → nget? s.recs id = some r → r.handle ≠ a.toNat % 2 ^ 32) →
    exec (.eret x d) s = .next (s.raise { kind := .illegalOperand, other := a.setWidth 32, addr := a })) ∧
  (∀ (s : State) (id : Nat) (r : FRec), nget? s.recs id = some r → r.kind ≠ .coreLost → r.cls ≠ .c →
    let p := s.proc r.handle
    p.held = some id → p.st = .faulted → p.ctx = none → p.engine = none → s.coreGone r.handle = false →
    (∀ e ∈ s.txns, e.2.issuer = r.handle → e.2.blocks = false ∧ e.2.stage ≠ .waiting) →
    let t := s.dispose id .resume
    let q := t.proc r.handle
    q.st = .ready ∧ q.pc = p.pc ∧ q.n = p.n ∧ q.q = p.q ∧ q.push = p.push ∧ q.held = none ∧
    nget? t.recs id = none ∧ r.handle ∈ (t.core p.core).queue p.prio) ∧
  (∀ (s : State) (id : Nat) (r : FRec), nget? s.recs id = some r →
    ((s.dispose id .kill).proc r.handle).st = .exited) ∧
  (∀ (s : State) (id : Nat) (r : FRec) (h : Nat) (c : Chan), nget? s.recs id = some r → r.level = 0 →
    let part := partOf r.handle
    (s.part part).mgrhand.toNat % 2 ^ 32 = h → h ≠ 0 → s.chan? part (h % 2 ^ 24) = some c → c.rxopen = true →
    c.msgs.length + c.resvTx.length < c.depth →
    let t := s.dispose id .escalate
    nget? t.recs id = some { r with level := 1 } ∧ id ∈ t.managed ∧
    (t.chan? part (h % 2 ^ 24)).map Chan.msgs = some (c.msgs ++ [(0, ({ r with level := 1 } : FRec).bytes)]))

/-- O20: ctlw writes the fields of a register that are not reserved, ctlr reads them, and privilege is checked first. For a register that is neither read-only nor the manager's: a ctlw of a readable a (with a legal rounding mode, and the matrix set free or the issuer's for dmap) completes, and the register's value is then a without its reserved bits; for the manager's registers the same holds of a manager; ctlr pushes the register's value; a write of a read-only register, or of the manager's by another process, and a read of ctl.ptroot by one, raise PRIV. -/
def Obligations.ControlRegisters : Prop :=
  (∀ (s : State) (i : Issue) (c : Ctl) (x : Src) (a : Word), s.issue = some i → readSrc i x = .ok a → c ≠ .shoot →
    ctlReadOnly c = false → (ctlManager c = true → s.isMgr i.proc = true) → (c = .rmode → a.toNat % 8 < 5) →
    i.pre.core = (s.proc i.proc).core → ((s.core i.pre.core).owner = none ∨ (s.core i.pre.core).owner = some i.proc) →
    ∃ t : State, exec (.ctlw c x) s = .next t ∧ t.issue = some i ∧ t.mem = s.mem ∧
      ctlValue t { i with pre := t.proc i.proc } c = a &&& ctlMask c ∧
      (∀ d, d ≠ c → d ≠ .tokens → ctlValue t { i with pre := t.proc i.proc } d = ctlValue s { i with pre := s.proc i.proc } d)) ∧
  (∀ (s : State) (i : Issue) (c : Ctl) (k : Keep), s.issue = some i → (c = .ptroot → s.isMgr i.proc = true) →
    ((s.core i.pre.core).owner = none ∨ (s.core i.pre.core).owner = some i.proc) →
    ∃ u : State, exec (.ctlr c k) s = .next (u.push i (ctlValue s i c) k) ∧ u.mem = s.mem ∧ u.procs = s.procs) ∧
  (∀ (s : State) (i : Issue) (c : Ctl) (x : Src), s.issue = some i →
    (ctlReadOnly c = true ∨ ctlManager c = true ∧ s.isMgr i.proc = false) →
    exec (.ctlw c x) s = .next (s.raise { kind := .priv })) ∧
  (∀ (s : State) (i : Issue) (k : Keep), s.issue = some i → s.isMgr i.proc = false →
    exec (.ctlr .ptroot k) s = .next (s.raise { kind := .priv }))

/-- O21: idle, yield, pwrq, harvest, the shoot-downs, time and waitt complete. time pushes the partition's virtual time. waitt of a deadline that has passed changes nothing, and of one still to come blocks its issuer with it. yield, and idle where the deadline of ctl.tmo has passed, let an alt reservation go, take their place in the order of channel operations and make the quantum of the issuer's context due. A word that is no instruction raises ILLEGAL_INSTR. idle with its deadline still to come blocks its issuer with it. pwrq pushes a word whose low half is the token register and whose bit 47 tells whether the die is slowed (its temperature is the model's free value). harvest and both shoot-downs of a manager push one pending entry, and raise PRIV for any other process. -/
def Obligations.SystemWords : Prop :=
  ∀ (s : State) (i : Issue), s.issue = some i →
    let now := (virtualTime s (partOf i.proc)).toNat
    let blocks (e : Instr) (d : Word) : Prop := ∃ t : State, exec e s = .next t ∧ t.issue = some i ∧
      (t.proc i.proc).st = .blocked ∧ (t.proc i.proc).wkind = .timed ∧ (t.proc i.proc).deadline = d ∧ t.mem = s.mem
    (∀ k : Keep, exec (.time k) s = .next (s.push i (virtualTime s (partOf i.proc)) k)) ∧
    (∀ (x : Src) (a : Word), readSrc i x = .ok a →
      (a.toNat ≤ now → exec (.waitt x) s = .next s) ∧ (now < a.toNat → blocks (.waitt x) a)) ∧
    exec .yield s = .next (s.yieldNow i) ∧
    (∀ w : W32, exec (.encodingNotInstruction w) s = .next (s.raise { kind := .illegalInstr })) ∧
    (i.pre.tmo.toNat ≤ now → exec .idle s = .next (s.yieldNow i)) ∧
    (now < i.pre.tmo.toNat → blocks .idle i.pre.tmo) ∧
    (∀ j, i.pre.ctx = some j → (s.proc i.proc).altRes = none →
      s.yieldNow i = (s.issueOrder i).modCore i.pre.core fun c => c.setCtx j { c.ctx j with due := true }) ∧
    (∀ k : Keep, ∃ (u : State) (w : Word), exec (.pwrq k) s = .next (u.push i w k) ∧ u = { s with fresh := s.fresh + 1 } ∧
      w.setWidth 32 = (s.core i.pre.core).tokens.setWidth 32 ∧ w.getLsbD 47 = (s.die (dieOf i.pre.core)).slow) ∧
    (s.isMgr i.proc = true →
      (∀ k : Keep, exec (.harvest k) s = .next (s.issuePend i (mkTxn s i .harvest 100) k)) ∧
      ∀ (x : Src) (a : Word), readSrc i x = .ok a → ∀ e ∈ [Instr.shootDown x, Instr.shootDownDeny x],
        exec e s = .next (s.issuePend i (mkTxn s i (.shoot (bits a.toNat 50 16) a.msb) 7000) none)) ∧
    (s.isMgr i.proc = false → ∀ (k : Keep) (x : Src),
      ∀ e ∈ [Instr.harvest k, Instr.shootDown x, Instr.shootDownDeny x], exec e s = .next (s.raise { kind := .priv }))

/-- O22: A pending issue reserves a slot, marks its keep, and makes one transaction; nothing else changes. Issuing a transaction with one pending entry: q0 is pending, older results move up by one, the kept register is marked with the transaction, the transaction stands at the next number with those reservations, the issuer counts it as outstanding; no named register changes its value, and no byte of memory, other process or core changes. -/
def Obligations.PendingIssue : Prop :=
  ∀ (s : State) (i : Issue) (x : Txn) (k : Keep),
    let t := s.issuePend i x k
    let p := s.proc i.proc
    let q := t.proc i.proc
    q.qpend 0 = true ∧ q.push = p.push + 1 ∧ q.n = p.n ∧ q.out = p.out ++ [s.nextTxn] ∧
    (∀ j : BitVec 4, j.toNat < 15 → q.qget (j + 1) = p.qget j ∧ q.qpend (j + 1) = p.qpend j) ∧
    (∀ r, k = some r → (i.pre.nphys r, s.nextTxn) ∈ q.nPend) ∧ (k = none → q.nPend = p.nPend) ∧
    q = { p with q := q.q, qPend := q.qPend, push := q.push, nPend := q.nPend, out := q.out } ∧
    (∃ y, nget? t.txns s.nextTxn = some y ∧ y.op = x.op ∧ y.tgt.slots = [p.push + 1] ∧
      y.tgt.keeps = (match k with | some r => [i.pre.nphys r] | none => []) ∧ y = { x with tgt := y.tgt }) ∧
    t = { s with procs := t.procs, txns := t.txns, nextTxn := s.nextTxn + 1 } ∧
    (∀ j, j ≠ i.proc → t.proc j = s.proc j) ∧ (∀ u, u ≠ s.nextTxn → nget? t.txns u = nget? s.txns u) ∧
    ∀ a, readByte t.mem a = readByte s.mem a

/-- O23: Loads, prefetches, atomics and waits on an address issue. With operands readable and the access passing the checks of EffAddr, ld, ld128, ldx, the atomics, compare-and-swap and waita complete: their transaction, with the places of the access, stands with the reserved entries; waita blocks nothing before its compare. A displacement counts units of the access size; the index of ldx counts elements. A prefetch changes nothing. -/
def Obligations.LoadAndAtomicIssue : Prop :=
  ∀ (s : State) (i : Issue) (x y z : Src) (k : Keep) (p n v : Word), s.issue = some i →
    readSrc i x = .ok p → readSrc i y = .ok n → readSrc i z = .ok v →
    let loaded (a : Access) (t : LdTy) : State :=
      (a.st.issuePend i (accessTxn i a (.load a.parts (ldExt t))) k).afterLoad i a s.nextTxn
    let loaded2 (a : Access) : State := (a.st.issuePend2 i (accessTxn i a (.load2 a.parts)) none).afterLoad i a s.nextTxn
    (∀ (t : LdTy) (d : BitVec 11) (a : Access), effAddr s i .scalar .load p (d.toInt * ldBytes t) (ldBytes t) false = .ok a →
      exec (.ld t x k d) s = .next (loaded a t)) ∧
    (∀ (d : BitVec 11) (a : Access), effAddr s i .scalar .load p (d.toInt * 16) 16 false = .ok a →
      exec (.ld128 x d) s = .next (loaded2 a)) ∧
    (∀ (t : LdTy) (a : Access), effAddr s i .scalar .load p (n.toInt * ldBytes t) (ldBytes t) false = .ok a →
      exec (.ldx (.ty t) x y k) s = .next (loaded a t)) ∧
    (∀ a : Access, effAddr s i .scalar .load p (n.toInt * 16) 16 false = .ok a →
      exec (.ldx .w128 x y k) s = .next (loaded2 a)) ∧
    (∀ d : BitVec 11, exec (.prfR x d) s = .next s ∧ exec (.prfW x d) s = .next s) ∧
    (∀ (op : AtomOp) (a : Access), effAddr s i .atom .atomic p 0 (atomBytes op) true = .ok a →
      exec (.atom op x y k) s = .next
        (((a.st.issuePend i (accessTxn i a (.atom op a.parts n)) k).holdAccess i a s.nextTxn).watch i true true a.parts)) ∧
    (∀ (wide : Bool) (a : Access), effAddr s i .atom .atomic p 0 (if wide then 8 else 4) true = .ok a →
      exec (.atomCas wide x y z) s = .next
        (((a.st.issuePend i (accessTxn i a (.cas wide a.parts n v)) none).holdAccess i a s.nextTxn).watch i true true a.parts)) ∧
    (∀ (wide : Bool) (a : Access), effAddr s i .waita .load p 0 (if wide then 8 else 4) true = .ok a →
      exec (.waita wide x y k) s = .next
        (a.st.issuePend i (accessTxn i a (.waita wide a.parts n)) k))

/-- O24: Stores, reductions, fences, wakes and sched issue. With operands readable and the access passing the checks, st, stx, red and redx send the low bytes of the value (redx a 72 B cell, 8-aligned and within a page) as one transaction and push nothing; a fence stands in the issuer's fence list with its kind, scope and place in issue order; wake is a release of its scope followed by the wake. sched pushes the pending entry at its cursor and steps the cursor, and 0 at the end of the table, where the cursor stays. -/
def Obligations.StoreAndFenceIssue : Prop :=
  ∀ (s : State) (i : Issue) (x y z : Src) (k : Keep) (p n v : Word), s.issue = some i →
    readSrc i x = .ok p → readSrc i y = .ok n → readSrc i z = .ok v →
    (∀ (t : StTy) (d : BitVec 11) (a : Access), effAddr s i .scalar .store p (d.toInt * stBytes t) (stBytes t) false = .ok a →
      exec (.st t x y d) s = .next
        ((a.st.issueWrite i a .store (.store a.parts (leBytes (stBytes t) n.toNat)) (stBytes t)).watch i false true a.parts)) ∧
    (∀ (t : StTy) (a : Access), effAddr s i .scalar .store p (n.toInt * stBytes t) (stBytes t) false = .ok a →
      exec (.stx t x y z) s = .next
        ((a.st.issueWrite i a .store (.store a.parts (leBytes (stBytes t) v.toNat)) (stBytes t)).watch i false true a.parts)) ∧
    (∀ (op : AtomOp) (a : Access), effAddr s i .atom .reduction p 0 (atomBytes op) true = .ok a →
      exec (.red op x y) s = .next
        ((a.st.issueWrite i a .reduction (.red op a.parts n) (atomBytes op)).watch i true true a.parts)) ∧
    (∀ (int : Bool) (a : Access), effAddr s i .redx .reduction p 0 72 false = .ok a → pOff p % 8 = 0 →
      pOff p % 2 ^ 16 + 72 ≤ 2 ^ 16 →
      exec (.redx int x y) s = .next ((a.st.issueWrite i a .reduction (.redx int a.parts n) 72).watch i true true a.parts)) ∧
    (∀ (f : FenceKind) (sc : Scope), ∃ t : State, exec (.fence f sc) s = .next t ∧ t = { s with procs := t.procs } ∧
      (t.proc i.proc).fences.getLast? = some { kind := f, scope := sc, stamp := s.nextTxn } ∧
      (t.proc i.proc) = { s.proc i.proc with fences := (t.proc i.proc).fences, floor := (t.proc i.proc).floor }) ∧
    (∀ (sc : Scope) (a : Access), effAddr s i .waita .load p 0 8 true = .ok a →
      exec (.wake sc x y) s = .next
        ((a.st.addFence i.proc .rel sc).issueQuiet (accessTxn i a (.wake sc a.parts n.toNat)))) ∧
    (i.pre.schedLen ≤ i.pre.schedCur → exec (.sched k) s = .next (s.pushLater i 0 0 k 100)) ∧
    (i.pre = s.proc i.proc → i.pre.schedCur < i.pre.schedLen →
      s.unitBusy none i.pre.core (partOf i.proc) (pOff (i.pre.schedBase + BitVec.ofNat 64 (8 * i.pre.schedCur)) / 2 ^ 16) = false → ∃ t : State, exec (.sched k) s = .next t ∧ t.issue = some i ∧
      (t.proc i.proc).schedCur = i.pre.schedCur + 1 ∧ (t.proc i.proc).qpend 0 = true ∧
      (∀ e, tlbFind (s.core i.pre.core).tlb (partOf i.proc) (pOff (i.pre.schedBase + BitVec.ofNat 64 (8 * i.pre.schedCur)) / 2 ^ 16) =
          some e → ∃ y, nget? t.txns s.nextTxn = some y ∧ ∃ q va, y.op = .sched [q] va ∧ q.len = 8 ∧
          q.at_ = .mem (e.frame * 2 ^ 16 + pOff (i.pre.schedBase + BitVec.ofNat 64 (8 * i.pre.schedCur)) % 2 ^ 16)))

/-- O25: A scalar access that fails a check faults precisely, in the order of R290. A store whose base is readable: misaligned atomics, reserved spaces, scratchpad offsets beyond the limit and, in the other spaces, offsets outside 51 bits raise ILLEGAL_OPERAND, SPACE_INVALID, SPACE_INVALID and FAT_OVERFLOW in that order, each naming the address, and nothing of the machine changes but by the fault entry. -/
def Obligations.AccessFaults : Prop :=
  ∀ (s : State) (i : Issue) (x y : Src) (d : BitVec 11) (p v : Word) (op : AtomOp), s.issue = some i →
    readSrc i x = .ok p → readSrc i y = .ok v →
    let off : Int := pOff p + d.toInt * 8
    (8 ≤ pSpace p → ∃ w, exec (.st .w64 x y d) s = .next (s.raise { kind := .spaceInvalid, addr := w })) ∧
    ((pSpace p < 2 ∨ pSpace p = 4 ∨ pSpace p = 6) → (off < 0 ∨ 2 ^ 51 < off + 8) →
      ∃ w, exec (.st .w64 x y d) s = .next (s.raise { kind := .fatOverflow, addr := w })) ∧
    ((pSpace p = 2 ∧ (off < 0 ∨ 0x3F800 < off + 8) ∨ pSpace p = 3 ∧ (off < 0 ∨ 2 ^ 21 < off + 8 ∨ 0x3F800 < off % 2 ^ 18 + 8)) →
      ∃ w, exec (.st .w64 x y d) s = .next (s.raise { kind := .spaceInvalid, addr := w }) ∧
        (0 ≤ off → off < 2 ^ 51 → w = BitVec.ofNat 64 (pSpace p * 2 ^ 60 + off.toNat))) ∧
    (pOff p % atomBytes op ≠ 0 →
      exec (.atom op x y none) s =
        .next (s.raise { kind := .illegalOperand, addr := BitVec.ofNat 64 (pSpace p * 2 ^ 60 + pOff p) })) ∧
    (pOff p % atomBytes op = 0 → (pSpace p = 4 ∨ pSpace p = 6 ∨ pSpace p = 7) →
      exec (.atom op x y none) s =
        .next (s.raise { kind := .illegalOperand, addr := BitVec.ofNat 64 (pSpace p * 2 ^ 60 + pOff p) }))

/-- O26: Phase and buffer words complete. For a slot that the issuer's network declares and its instance holds: arrive sends one arrival after a release fence; pwait and phase go on over an acquire fence of the scope of the arrivals, with what happened before the arrivals applied, where the line is high (phase reloading the counters), and else block and are listed at the slot. bdecl declares the lowest free descriptor, EMPTY and owned by the issuer, and pushes its index; bstate.open, seal and rel of the owner make the transition of Table 7.6; bquery pushes the buffer's word, and bquery.w waits for a FULL buffer. -/
def Obligations.PhaseAndBufferWords : Prop :=
  ∀ (s : State) (i : Issue) (x y z : Src) (k : Keep) (p n m : Word), s.issue = some i →
    readSrc i x = .ok p → readSrc i y = .ok n → readSrc i z = .ok m →
    (∀ (t : BitVec 4) (f : Phase), heldPhase s i t.toNat = .ok f →
      (∀ (d : BitVec 3) (e : PDest), f.dests[d.toNat]? = some e →
        ∃ u : State, exec (.arrive t d) s = .next u ∧ u.issue = some i ∧ u.mem = s.mem ∧
          (nget? u.txns s.nextTxn).map Txn.op = some (.arrive t.toNat d.toNat) ∧
          (u.proc i.proc).fences.getLast? =
            some { kind := .rel, scope := (if e.module = s.moduleId then .pkg else .fab), stamp := s.nextTxn }) ∧
      (f.high s (partOf i.proc) = true →
        exec (.pwait t) s = .next ((s.addFence i.proc .acq f.scope).raiseFloor i.proc f.clock) ∧
        exec (.phase t) s =
          .next (((s.addFence i.proc .acq f.scope).raiseFloor i.proc f.clock).loadPhase (partOf i.proc) t.toNat)) ∧
      (f.high s (partOf i.proc) = false → ∀ again : Bool,
        ∃ u : State, exec (if again then .phase t else .pwait t) s = .next u ∧ u.issue = some i ∧ (u.proc i.proc).st = .blocked ∧
          (u.proc i.proc).wkind = (if again then .phase else .pwait) ∧
          (u.phase? (partOf i.proc) t.toNat) = some { f with waiters := f.waiters ++ [(i.proc, again)] })) ∧
    (let c := s.core i.pre.core
     let j := c.freeBuf
     pSpace p = 2 → j < 64 → pOff p % 16 = 0 → 0 < n.toNat → n.toNat % 16 = 0 → pOff p + n.toNat ≤ 0x3F800 →
     (c.bufs.all fun e => !overlap (pOff p) n.toNat e.2.base e.2.size) = true →
     (∃ (u : State) (b : Buf), exec (.bdeclLin x y) s = .next (u.push i (BitVec.ofNat 64 j) none) ∧ nget? (u.core i.pre.core).bufs j = some b ∧
        b.owner = i.proc ∧ b.headState = .empty ∧ b.base = pOff p ∧ b.size = n.toNat ∧ b.ring = false ∧ u.mem = s.mem) ∧
     (0 < m.toNat → m.toNat % 16 = 0 → n.toNat % m.toNat = 0 → n.toNat / m.toNat ≤ 255 →
      ∃ (u : State) (b : Buf), exec (.bdeclRing x y z) s = .next (u.push i (BitVec.ofNat 64 j) none) ∧ nget? (u.core i.pre.core).bufs j = some b ∧
        b.owner = i.proc ∧ b.headState = .empty ∧ b.base = pOff p ∧ b.size = n.toNat ∧ b.ring = true ∧ b.slot = m.toNat ∧
        b.nslot = n.toNat / m.toNat ∧ b.free = b.nslot ∧ u.mem = s.mem)) ∧
    (∀ (j : Nat) (b b' : Buf), ptrBuf s i p = .ok (j, b) → b.owner = i.proc →
      let put : State := s.modCore i.pre.core fun c => { c with bufs := nset c.bufs j b' }
      (b.opened = some b' → exec (.bstateOpen x) s = .next (put.pokeBufs i.pre.core)) ∧
      (b.sealed ((s.core i.pre.core).busy b true) = some b' → exec (.bstateSeal x) s = .next (put.pokeBufs i.pre.core)) ∧
      (b.released ((s.core i.pre.core).busy b false) = some b' → exec (.bstateRel x) s = .next (put.pokeBufs i.pre.core))) ∧
    (∀ (j : Nat) (b : Buf), ptrBuf s i p = .ok (j, b) →
      exec (.bquery x k) s = .next (s.push i (b.word j) k) ∧
      (b.headState = .full → exec (.bqueryW x k) s = .next (s.pushLater i (b.word j) 0 k 12)) ∧
      (b.headState ≠ .full → exec (.bqueryW x k) s =
        .next ((s.issuePend i { mkTxn s i (.bqueryW j) 0 with stage := .waiting } k).block i.proc .buffer (BitVec.ofNat 32 j) 0)))

/-- O27: Turn-ready vector forms write the active lanes of vd and nothing else. With the source registers and vd not pending: each turn-ready form (integer arithmetic, abs, neg, class, population count, move, logic, shifts, vfins, permutes, slides, broadcast) completes, each active lane of vd holds the value of the form on its source lanes, the inactive lanes hold what they held, and nothing else changes but the flags; vsel writes every lane by the predicate. -/
def Obligations.VectorLanesNow : Prop :=
  ∀ (s : State) (i : Issue) (vd va vb n : BitVec 5) (p : BitVec 3) (k : BitVec 5) (kv : Word) (half : Bool), s.issue = some i →
    freeW s i vd = .ok () → freeV i va = .ok () → freeV i vb = .ok () → readSrc i (.n k) = .ok kv →
    let a := i.oldV va
    let b := i.oldV vb
    let on (j : Nat) : Bool := (i.pre.pget p).getLsbD j
    let h := if half then 16 else 32
    let lanes (w : Nat) (act : Nat → Bool) (g : Nat → Nat) (e : Instr) : Prop := LaneResult s i vd w act g (exec e s)
    (∀ t : VTy, t.isFloat = false →
      let w := laneWidth t
      let x (j : Nat) := laneInt t (laneAt w a j)
      let y (j : Nat) := laneInt t (laneAt w b j)
      lanes w on (fun j => wrapLane w (x j + y j)) (.vadd t vd va vb p) ∧
      lanes w on (fun j => wrapLane w (x j - y j)) (.vsub t vd va vb p) ∧
      lanes w on (fun j => wrapLane w (x j * y j)) (.vmul t vd va vb p) ∧
      lanes w on (fun j => wrapLane w (min (x j) (y j))) (.vmin t vd va vb p) ∧
      lanes w on (fun j => wrapLane w (max (x j) (y j))) (.vmax t vd va vb p) ∧
      lanes w on (fun j => (sLane w (laneAt w a j)).natAbs) (.vabs t vd va p) ∧
      lanes w on (fun j => wrapLane w (-(laneAt w a j : Int))) (.vneg t vd va p) ∧
      lanes w on (fun j => (List.range w).countP fun m => (laneAt w a j).testBit m) (.vpopc t vd va p)) ∧
    (∀ (t : VTy) (f : Fmt), laneFmt t = some f →
      let w := laneWidth t
      lanes w on (fun j => laneAt w a j % 2 ^ (w - 1)) (.vabs t vd va p) ∧
      lanes w on (fun j => laneAt w a j + 2 ^ (w - 1)) (.vneg t vd va p) ∧
      lanes w on (fun j => fClass f (laneAt w a j)) (.vfclass t vd va p) ∧
      lanes w on (fun j => (fIns f i.vrm (laneAt w a j) (sLane w (laneAt w b j))).1) (.vfins t vd va vb p)) ∧
    lanes h on (fun j => laneAt h a j) (.vmov half vd va p) ∧
    lanes 32 on (fun j => laneAt 32 a j &&& laneAt 32 b j) (.vand vd va vb p) ∧
    lanes 32 on (fun j => laneAt 32 a j ||| laneAt 32 b j) (.vor vd va vb p) ∧
    lanes 32 on (fun j => laneAt 32 a j ^^^ laneAt 32 b j) (.vxor vd va vb p) ∧
    lanes 32 on (fun j => laneAt 32 a j <<< (laneAt 32 b j % 32)) (.vshl32 vd va vb p) ∧
    lanes 16 on (fun j => laneAt 16 a j <<< (laneAt 16 b j % 16)) (.vshl16 vd va vb p) ∧
    lanes 32 on (fun j => laneAt 32 a j >>> (laneAt 32 b j % 32)) (.vshr32 vd va vb p) ∧
    lanes 16 on (fun j => laneAt 16 a j >>> (laneAt 16 b j % 16)) (.vshr16 vd va vb p) ∧
    lanes 32 on (fun j => wrapLane 32 (sLane 32 (laneAt 32 a j) >>> (laneAt 32 b j % 32))) (.vsar32 vd va vb p) ∧
    lanes 16 on (fun j => wrapLane 16 (sLane 16 (laneAt 16 a j) >>> (laneAt 16 b j % 16))) (.vsar16 vd va vb p) ∧
    lanes h (fun _ => true) (fun j => if on j then laneAt h a j else laneAt h b j) (.vsel half vd va vb p) ∧
    lanes h on (fun j => laneAt h a (laneAt h b j % (2048 / h))) (.vperm half vd va vb p) ∧
    lanes h on (fun j => if j % 2 = 0 then laneAt h a (j / 2) else laneAt h b (j / 2)) (.vzip half vd va vb p) ∧
    lanes h on (fun j => if j < 1024 / h then laneAt h a (2 * j) else laneAt h b (2 * (j - 1024 / h) + 1)) (.vunzip half vd va vb p) ∧
    lanes h (fun j => on j && decide (n.toNat ≤ j)) (fun j => laneAt h a (j - n.toNat)) (.vslideup half vd va n p) ∧
    lanes h (fun j => on j && decide (j + n.toNat < 2048 / h)) (fun j => laneAt h a (j + n.toNat)) (.vslidedn half vd va n p) ∧
    lanes h on (fun _ => kv.toNat) (.vbcast half vd k p)

/-- O28: Pending vector forms mark vd and deliver the active lanes. With the sources and vd not pending (and, for the heavy forms of an unpredicated multiply, a power token free): each floating lane form completes, marks vd pending for a new transaction, and that transaction delivers a register whose active lanes hold the form's value and whose other lanes hold what vd held. vcvt from 32 to 16 bits also writes the upper 64 lanes, with zero. -/
def Obligations.VectorLanesLater : Prop :=
  ∀ (s : State) (i : Issue) (vd va vb vc : BitVec 5) (p : BitVec 3), s.issue = some i →
    freeW s i vd = .ok () → freeV i va = .ok () → freeV i vb = .ok () → freeV i vc = .ok () →
    (p ≠ 0 ∨ 0 < (s.core i.pre.core).free) →
    let a := i.oldV va
    let b := i.oldV vb
    let c := i.oldV vc
    let on (j : Nat) : Bool := (i.pre.pget p).getLsbD j
    (∀ (t : VTy) (f : Fmt), laneFmt t = some f →
      let w := laneWidth t
      let lanes (g : Nat → Nat) (e : Instr) : Prop := LanePending s i vd w on g (exec e s)
      lanes (fun j => (fAdd f i.vrm (laneAt w a j) (laneAt w b j)).1) (.vadd t vd va vb p) ∧
      lanes (fun j => (fSub f i.vrm (laneAt w a j) (laneAt w b j)).1) (.vsub t vd va vb p) ∧
      lanes (fun j => (fMul f i.vrm (laneAt w a j) (laneAt w b j)).1) (.vmul t vd va vb p) ∧
      lanes (fun j => (fMinMax f false (laneAt w a j) (laneAt w b j)).1) (.vmin t vd va vb p) ∧
      lanes (fun j => (fMinMax f true (laneAt w a j) (laneAt w b j)).1) (.vmax t vd va vb p) ∧
      lanes (fun j => (fRint f (i.rm .dyn) (laneAt w a j)).1) (.vfrint t vd va p) ∧
      lanes (fun j => (fExf f (laneAt w a j)).1) (.vfexf t vd va p) ∧
      lanes (fun j => (rcpLane f (laneAt w a j)).1) (.vrcp t vd va p) ∧
      lanes (fun j => (rsqLane f (laneAt w a j)).1) (.vrsq t vd va p)) ∧
    (∀ (f : Fmt) (neg : Bool) (e : Instr),
      (e, f, neg) ∈ [(Instr.vfmaF32 vd va vb vc p, binary32, false), (.vfmsF32 vd va vb vc p, binary32, true),
        (.vfmaBf16 vd va vb vc p, bfloat16, false), (.vfmsBf16 vd va vb vc p, bfloat16, true),
        (.vfmaF16 vd va vb vc p, float16, false), (.vfmsF16 vd va vb vc p, float16, true)] →
      LanePending s i vd f.width on (fun j => (fFma f i.vrm (laneAt f.width a j) (laneAt f.width b j)
        (if neg && !isNaN f (laneAt f.width c j) then flipSign f (laneAt f.width c j) else laneAt f.width c j)).1) (exec e s)) ∧
    (∀ src dst : VTy,
      let w := laneWidth dst
      let up (j : Nat) : Bool := laneWidth src == 32 && w == 16 && decide (64 ≤ j)
      LanePending s i vd w (fun j => up j || on j)
        (fun j => if up j then 0 else (convLane src dst (i.rm .dyn) (laneAt (laneWidth src) a j)).1)
        (exec (.vcvt src dst vd va p) s))

/-- O29: Vector reductions, comparisons, predicate logic, splitting and quantising complete. With their registers not pending: the reductions deliver the reduction of the active lanes in lane 0 and zero elsewhere (vredx an exact 576-bit cell); vcmp writes bit j of pd by lane j, cleared where the lane is inactive; pand, por and pnot write all 128 bits; vsplit delivers the rounded half of lane src in lane src and the exact rest in lane dst and enters src at dst of the duplication map; vqnt delivers the blocks of the active lanes' values; vdqnt the values of the blocks. -/
def Obligations.VectorReduceAndQuantise : Prop :=
  ∀ (s : State) (i : Issue) (vd va vb k : BitVec 5) (p : BitVec 3) (kv : Word), s.issue = some i →
    freeW s i vd = .ok () → freeV i va = .ok () → freeV i vb = .ok () → readSrc i (.n k) = .ok kv →
    let a := i.oldV va
    let b := i.oldV vb
    let on (j : Nat) : Bool := (i.pre.pget p).getLsbD j
    let active (w : Nat) : List Nat := ((List.range (2048 / w)).filter on).map (laneAt w a)
    let gives (v : VReg) (e : Instr) : Prop := ∃ (t : State) (x : Txn), exec e s = .next t ∧ t.issue = some i ∧ t.mem = s.mem ∧
      nget? t.txns s.nextTxn = some x ∧ x.tgt.vregs = [i.pre.vphys vd] ∧ ∃ d, x.op = .value d ∧ d.vecs = [v]
    (∀ t : VTy, t.isFloat = false →
      let w := laneWidth t
      gives (BitVec.ofNat 2048 (wrapLane w ((active w).map (laneInt t)).sum)) (.vredadd t vd va p) ∧
      gives (BitVec.ofNat 2048 (wrapLane w (((active w).map (laneInt t)).foldl min (laneHi t)))) (.vredmin t vd va p) ∧
      gives (BitVec.ofNat 2048 (wrapLane w (((active w).map (laneInt t)).foldl max (laneLo t)))) (.vredmax t vd va p)) ∧
    (∀ (t : VTy) (f : Fmt), laneFmt t = some f →
      gives (BitVec.ofNat 2048 (sumLanes f i.vrm (active (laneWidth t))).1) (.vredadd t vd va p) ∧
      gives (BitVec.ofNat 2048 (extremeLanes f false (active (laneWidth t))).1) (.vredmin t vd va p) ∧
      gives (BitVec.ofNat 2048 (extremeLanes f true (active (laneWidth t))).1) (.vredmax t vd va p)) ∧
    gives ((BitVec.ofInt 576 ((((List.range 64).filter on).map (laneAt 32 a)).foldl (fun c x => (cellAdd32 c x).1) 0)).setWidth 2048)
      (.vredx vd va p) ∧
    (∀ (c : VCond) (t : VTy) (pd : BitVec 3), pd ≠ 0 → ∃ u : State, exec (.vcmp c t pd va vb p) s = .next u ∧ u.issue = some i ∧
      u.mem = s.mem ∧ ∀ j < 128, ((u.proc i.proc).pget pd).getLsbD j =
        (decide (j < 2048 / laneWidth t) && on j && (cmpLane c t (laneAt (laneWidth t) a j) (laneAt (laneWidth t) b j)).1)) ∧
    (∀ pd pa pb : BitVec 3, pd ≠ 0 →
      let one (e : Instr) (v : PReg) : Prop := ∃ u : State, exec e s = .next u ∧ (u.proc i.proc).pget pd = v ∧ u.issue = some i ∧
        ∀ r, r ≠ pd → (u.proc i.proc).pget r = (s.proc i.proc).pget r
      one (.pand pd pa pb) (i.pre.pget pa &&& i.pre.pget pb) ∧ one (.por pd pa pb) (i.pre.pget pa ||| i.pre.pget pb) ∧
      one (.pnot pd pa) (~~~(i.pre.pget pa))) ∧
    (∀ src dst : Nat, src < 64 → dst < 64 → src ≠ dst → kv.toNat = src + 256 * dst →
      ((s.core i.pre.core).owner = none ∨ (s.core i.pre.core).owner = some i.proc) →
      ∃ (u : State) (x : Txn) (d : Deliver) (v : VReg), exec (.vsplit vd va k p) s = .next u ∧ u.issue = some i ∧ nget? u.txns s.nextTxn = some x ∧ x.op = .value d ∧
        d.vecs = [v] ∧ laneAt 32 v src = (halves (laneAt 32 a src)).1 % 2 ^ 32 ∧
        laneAt 32 v dst = (halves (laneAt 32 a src)).2.1 % 2 ^ 32 ∧
        (∀ j < 64, j ≠ src → j ≠ dst → on j = true → laneAt 32 v j = laneAt 32 a j) ∧
        dmapAt (u.core i.pre.core).dmap dst = src ∧ (u.core i.pre.core).owner = some i.proc) ∧
    (∀ f : BlkFmt, let g := blkOfName f
      gives (BitVec.ofNat 2048 (leNat ((List.range (64 / g.count)).flatMap fun m =>
        let q := g.quant ((List.range g.count).map fun l => exactOf32 (if on (g.count * m + l) then laneAt 32 a (g.count * m + l) else 0))
        leBytes g.sb q.1 ++ leBytes g.eb (g.field q.2.1)))) (.vqnt f vd va p) ∧
      LanePending s i vd 32 (fun j => decide (j < 64) && on j) (fun j =>
        let o := a.toNat / 2 ^ (8 * (j / g.count * (g.eb + g.sb)))
        written32 (g.value (o % 2 ^ (8 * g.sb)) (o / 2 ^ (8 * g.sb) % 2 ^ (8 * g.eb)) (j % g.count))) (exec (.vdqnt f vd va p) s))

/-- O30: Vector and tile memory words issue. With registers not pending, an aligned base and the access passing its checks: vld, vldb and the gathers mark vd pending for a load of the active lanes' bytes; vst and the scatters send the bytes of those lanes; tld marks its tile pending and tst sends its rows, both taking the matrix set. -/
def Obligations.VectorMemoryIssue : Prop :=
  ∀ (s : State) (i : Issue) (vd vb : BitVec 5) (x y : Src) (p : BitVec 3) (a n : Word) (half : Bool) (c : Access), s.issue = some i →
    freeW s i vd = .ok () → freeV i vd = .ok () → freeV i vb = .ok () → readSrc i x = .ok a → readSrc i y = .ok n →
    let w := if half then 16 else 32
    let pr := i.pre.pget p
    let l := laneRanges w pr
    let flat (l : List (Nat × Nat)) : List (Int × Nat) := l.map fun e => ((e.1 : Int), e.2)
    let every : List (Nat × Nat) := (List.range (2048 / w)).map fun j => (w / 8 * j, w / 8)
    (pOff a % (w / 8) = 0 → vecAccess s i .load a (flat l) = .ok c → exec (.vld half vd x p) s = .next
      ((c.st.issueVec i (accessTxn i c (.vload (shareParts l c.parts) (i.oldV vd))) vd (laneBytes w fun j => pr.getLsbD j)
        false).afterLoad i c s.nextTxn)) ∧
    (∀ u, pOff a % (w / 8) = 0 → vecAccess s i .store a (flat l) = .ok c →
      s.issueVst i c ((shareParts l c.parts).map fun e => (e.2, regBytes (i.oldV vd) e.1 e.2.len)) = .ok u →
      exec (.vst half vd x p) s = .next (u.watch i false true c.parts)) ∧
    (∀ f, pBl a = 0 → plainSize (pFmt a) = none → blkOfCode (pFmt a) = some (f, false) →
      vecAccess s i .load a [(0, 64 / f.count * (f.eb + f.sb))] = .ok c → exec (.vldb vd x p) s = .next
        ((c.st.issueVec i { accessTxn i c (.vldb c.parts (pFmt a) (i.oldV vd) pr) with due := s.cycle + c.lat + 8 } vd
          (laneBytes 32 fun j => pr.getLsbD j) false).afterLoad i c s.nextTxn)) ∧
    (∀ m, pBl a = 0 → plainSize (pFmt a) = some m → pOff a % m = 0 →
      vecAccess s i .load a (flat ((runs pr 0 64).map fun e => (m * e.1, m * e.2))) = .ok c → exec (.vldb vd x p) s = .next
        ((c.st.issueVec i { accessTxn i c (.vldb c.parts (pFmt a) (i.oldV vd) pr) with due := s.cycle + c.lat + 8 } vd
          (laneBytes 32 fun j => pr.getLsbD j) false).afterLoad i c s.nextTxn)) ∧
    (gatherAlign a (gatherAt w (i.oldV vb)) = .ok () → vecAccess s i .load a (gatherAt w (i.oldV vb)) = .ok c →
      exec (if half then .vgat16 vd x vb else .vgat32 vd x vb) s = .next
        ((c.st.issueVec i (accessTxn i c (.vload (shareParts every c.parts) (i.oldV vd))) vd wholeReg false).afterLoad i c
          s.nextTxn)) ∧
    (∀ u, gatherAlign a (gatherAt w (i.oldV vb)) = .ok () → vecAccess s i .store a (gatherAt w (i.oldV vb)) = .ok c →
      s.issueVst i c ((shareParts every c.parts).map fun e => (e.2, regBytes (i.oldV vd) e.1 e.2.len)) = .ok u →
      exec (if half then .vsca16 vd x vb else .vsca32 vd x vb) s = .next (u.watch i false true c.parts)) ∧
    (∀ (t : BitVec 3) (v : State), matFree s i [t.toNat] = .ok () → matReady s i [t.toNat] = .ok () → s.claimMatrix i = .ok v →
      (s.tileHeld i.pre.core t.toNat i.pre.opened = false → matForm (pFmt a) a n = .ok () →
        rangeAccess v i .tile .load a (tileRanges (pFmt a) (pBl a) n.toInt) = .ok c → exec (.tld t x y) s = .next
          ((c.st.issueMat i (accessTxn i c (.tld c.parts (BitVec.ofNat 6 (pFmt a)))) [t.toNat] false).afterLoad i c v.nextTxn)) ∧
      (∀ (code rb m : Nat) (u : State), let r := (v.matrix i).tile t.toNat
        storeCode r.tag (pFmt a) = some code → matForm code a n = .ok () → rowOfCode code = some (rb, m) →
        ((splitOf code).isSome = true ∨ (rb : Int) ≤ n.toInt) →
        rangeAccess v i .tile .store a (tileRanges code (pBl a) n.toInt) = .ok c →
        v.issueVst i c (dealBytes c.parts (tileBytes r rb)) = .ok u →
        exec (.tst t x y) s = .next (u.watch i false true c.parts)))

/-- O31: Matrix words complete on a set that is free or the issuer's, and fault on another's. With the accumulators of the group not pending: mzero and mdup push a pending 0 whose arrival makes the group zero or copies of the source, mstat pushes the set's word, mrest of a manager goes to load the group, and mdrain sends the rounded rows and pushes a pending 0; mzero, mdup and mstat leave the set owned by the issuer, and raise ILLEGAL_OPERAND on a set that another process owns. The first mgang of a gang of a full cluster to reach the barrier, with tiles for both operands, takes a token and waits there; one whose barrier has opened issues, and pushes a pending entry for its pass. -/
def Obligations.MatrixWords : Prop :=
  ∀ (s : State) (i : Issue) (ab ac : BitVec 2), s.issue = some i → matReady s i (groupOf ab ac) = .ok () → matFree s i (groupOf ab ac) = .ok () →
    let core := i.pre.core
    let mine := (s.core core).owner = none ∨ (s.core core).owner = some i.proc
    let calm := i.pre.watch0 = 0 ∧ i.pre.watch1 = 0
    (mine →
      (∃ (t : State) (x : Txn), exec (.mzero ab ac) s = .next t ∧ t.issue = some i ∧ (t.core core).owner = some i.proc ∧ t.mem = s.mem ∧
        nget? t.txns s.nextTxn = some x ∧ x.tgt.mats = groupOf ab ac ∧
        ∃ d, x.op = .value d ∧ d.vals = [0] ∧ d.accs = List.replicate (acCount ac) { cells := [], dirty := true }) ∧
      (∀ as : BitVec 2, matReady s i [8 + as.toNat] = .ok () →
        ∃ (t : State) (x : Txn), exec (.mdup ab ac as) s = .next t ∧ t.issue = some i ∧ (t.core core).owner = some i.proc ∧ t.mem = s.mem ∧
          nget? t.txns s.nextTxn = some x ∧ x.tgt.mats = groupOf ab ac ∧
          ∃ d, x.op = .value d ∧ d.vals = [0] ∧
            d.accs = List.replicate (acCount ac) { (s.matrix i).acc as.toNat with dirty := true }) ∧
      (∃ u : State, exec .mstat s = .next (u.pushLater i (mstatWord { s.matrix i with owner := some i.proc }) 0 none 4) ∧
        (u.core core).owner = some i.proc ∧ u.mem = s.mem) ∧
      (∀ (dp : BitVec 4) (p : Word), s.isMgr i.proc = true → readSrc i (.n (BitVec.ofNat 5 (2 * dp.toNat))) = .ok p →
        pSpace p = 0 → pOff p + accBytes * acCount ac ≤ 2 ^ 51 →
        ∃ t : State, exec (.mrest ab ac dp) s = .next t ∧ t.issue = some i ∧
          (calm → ∃ x, nget? t.txns s.nextTxn = some x ∧ x.op = .mrest ab.toNat (acCount ac) p ∧ x.tgt.mats = groupOf ab ac ∧
            t.mem = s.mem)) ∧
      (∀ (dp : BitVec 4) (nr : BitVec 5) (r : Rm) (p w : Word) (u : State) (a : Access),
        readSrc i (.n (BitVec.ofNat 5 (2 * dp.toNat))) = .ok p → readSrc i (.n nr) = .ok w → s.claimMatrix i = .ok u →
        (pFmt p = 0x09 ∨ pFmt p = 0x0B) → pBl p = 0 → 0 < w.toNat → w.toNat ≤ 128 * acCount ac →
        let len := (if pFmt p = 0x09 then 4 else 2) * w.toNat
        rangeAccess u i .tile .store p ((List.range 16).map fun row => (((row * len : Nat) : Int), len)) = .ok a →
        (∀ q ∈ a.parts, ∀ o, q.at_ ≠ .virt o) → (a.st.sideLogOf i.proc).length ≤ 64 →
        ∃ t : State, exec (.mdrain ab ac dp nr r) s = .next t ∧ t.issue = some i ∧
          (calm → ∃ n y l f, nget? t.txns n = some y ∧ y.op = .mdrain l f ∧ y.issuer = i.proc)) ∧
      (∀ (dp : BitVec 4) (nr : BitVec 5) (r : Rm) (p z w : Word) (f : Blk) (u : State) (a b : Access),
        readSrc i (.n (BitVec.ofNat 5 (2 * dp.toNat))) = .ok p → readSrc i (.n (BitVec.ofNat 5 (2 * dp.toNat + 1))) = .ok z →
        readSrc i (.n nr) = .ok w → s.claimMatrix i = .ok u → splitOf (pFmt p) = some f → 0x20 ≤ pFmt p → pFmt p ≤ 0x25 →
        pFmt z = 0x26 → pBl z = 0 → 0 < w.toNat → w.toNat ≤ 128 * acCount ac → w.toNat % 32 = 0 →
        let rows (len : Nat) : List (Int × Nat) := (List.range 16).map fun row => (((row * len : Nat) : Int), len)
        rangeAccess u i .tile .store p (rows (w.toNat / 32 * f.eb)) = .ok a →
        rangeAccess a.st i .tile .store z (rows (w.toNat / 32 * f.sb)) = .ok b →
        (∀ q ∈ a.parts ++ b.parts, ∀ o, q.at_ ≠ .virt o) → (b.st.sideLogOf i.proc).length ≤ 64 →
        ∃ t : State, exec (.mdrain ab ac dp nr r) s = .next t ∧ t.issue = some i ∧
          (calm → ∃ n y l f, nget? t.txns n = some y ∧ y.op = .mdrain l f ∧ y.issuer = i.proc))) ∧
    (∀ (ta : BitVec 3) (b : MgangB) (nr : BitVec 5) (zero : Bool) (t : Nat) (x : Txn), i.pre.opened = some t →
      nget? s.txns t = some x → ∃ u : State, exec (.mgang ab ac ta b nr zero) s = .next u ∧ u.issue = some i ∧
        (u.proc i.proc).opened = none ∧ (u.proc i.proc).qpend 0 = true ∧ u.mem = s.mem ∧
        (nget? u.txns t).map (fun y => y.tgt.slots) = some [(s.proc i.proc).push + 1]) ∧
    (∀ (ta tb : BitVec 3) (nr : BitVec 5) (zero : Bool) (m : MgangIn) (g : Gang) (tag : BitVec 6),
      mgangOperands s ab ac ta (.tile tb) nr = .ok m → i.pre.opened = none → (s.proc i.proc).opened = none →
      gangFull s i = true → ((s.matrix i).tile ta.toNat).tag = some tag →
      0 < m.n.toNat → m.n.toNat % 16 = 0 → m.n.toNat ≤ 128 → 0 < (s.core core).free →
      nget? s.gangs i.pre.gang = some g → g.barrier = [] →
      ∃ t : State, exec (.mgang ab ac ta (.tile tb) nr zero) s = .next t ∧ t.issue = none ∧ (t.proc i.proc).hold = some .barrier ∧
        nget? t.gangs i.pre.gang = some { g with barrier := [(core, s.nextTxn)] } ∧
        (t.core core).owner = some i.proc ∧ (t.core core).free = (s.core core).free - 1) ∧
    (∀ k, (s.core core).owner = some k → k ≠ i.proc →
      exec (.mzero ab ac) s = .next (s.raise { kind := .illegalOperand }) ∧
      exec .mstat s = .next (s.raise { kind := .illegalOperand }))

/-- O32: Channel and process words complete. A transfer whose handle names an end of the right kind that the issuer may use, with its operands in order and the far end open, sets out for HOME. A guard is armed; alt and alt.t set out with the armed guards and push a pending entry; where they are served, they return the lowest ready guard, alt.t returns 8 where its deadline has passed, and else they wait; chopen pushes a pending entry, and where it is served with depth 0 it makes the lowest free channel number, of which it returns the send handle; chclose, chinfo and a manager's chbind set out for HOME, the last with the load of its descriptor; spawn of a declared process sets out; exit ends a process that nothing holds back. -/
def Obligations.ChannelWords : Prop :=
  ∀ (s : State) (i : Issue) (x y : Src) (k : Keep) (h v : Word), s.issue = some i →
    readSrc i x = .ok h → readSrc i y = .ok v →
    let part := partOf i.proc
    (∀ (ch : Nat) (c : Chan) (bs : List Byte), chanCheck s i h false false = .ok (ch, c) →
      sendBytes i y (tyBytes (chanTy s part c)) = .ok bs → firingOver s i ch c false = false → chanOpen s c h false = .ok () →
      exec (.send x y) s = .next ((s.issueSend i (chanTxn s i (.send ch bs) false (tyBytes (chanTy s part c))) false none).launchOp
        i ch h false s.nextTxn false) ∧
      exec (.sendT x y k) s = .next ((s.issueSend i (chanTxn s i (.send ch bs) true (tyBytes (chanTy s part c))) true k).launchOp
        i ch h false s.nextTxn true)) ∧
    (∀ (ch : Nat) (c : Chan) (ks : List (BitVec 5)) (timed : Bool), chanCheck s i h true false = .ok (ch, c) →
      keepRun i k (tyBytes (chanTy s part c)) = .ok ks → firingOver s i ch c true = false → chanOpen s c h true = .ok () →
      let r := (s.proc i.proc).pushRecv s.nextTxn ks timed
      exec (if timed then .recvT x k else .recv x k) s = .next
        (((s.newTxn { chanTxn s i (.recv ch) timed (tyBytes (chanTy s part c)) with tgt := r.2 }).1.setProc i.proc
          { r.1 with out := r.1.out ++ [s.nextTxn] }).launchOp i ch h true s.nextTxn timed)) ∧
    (∀ (ch : Nat) (c : Chan) (rx timed : Bool), chanCheck s i h rx true = .ok (ch, c) → pSpace v = 2 → pOff v % 16 = 0 →
      firingOver s i ch c rx = false → pOff v + tyBytes (chanTy s part c) ≤ 0x3F800 → chanOpen s c h rx = .ok () →
      exec (if rx then (if timed then .recvtT x y k else .recvt x y) else (if timed then .sendtT x y k else .sendt x y)) s = .next
        ((s.issueSend i (chanTxn s i (if rx then .recvt ch (pOff v) else .sendt ch (pOff v)) timed (tyBytes (chanTy s part c)))
          timed (if timed then k else none)).launchOp i ch h rx s.nextTxn timed)) ∧
    (∀ (g : BitVec 3) (ch : Nat) (c : Chan), chanFind s i h = .ok (ch, c) → chanIndex c h = true →
      exec (.altg g x) s = .next ((s.modProc i.proc fun p =>
        { p with guards := p.guards.set g.toNat (h.setWidth 32), gmask := p.gmask ||| (1#8 <<< g.toNat) }).issueOrder i)) ∧
    (∀ timed : Bool, (timed = true ∨ i.pre.gmask ≠ 0) → exec (if timed then .altT k else .alt k) s = .next
      ((s.issuePend i { mkTxn s i .alt 0 with work := i.pre.armed, deadline := if timed then some i.pre.tmo else none } k).modProc
        i.proc fun p => { p with gmask := 0 })) ∧
    (∀ (t : Nat) (w : Txn), let u := (s.letGo w.issuer).pumpAll
      let late : Prop := ∃ d, w.deadline = some d ∧ d.toNat ≤ (virtualTime u w.part).toNat
      (∀ j hd, readyGuard u w.issuer w = some (j, hd) →
        s.startAlt t w = (u.takeGuard w.issuer hd).endAlt t w (BitVec.ofNat 64 j)) ∧
      (readyGuard u w.issuer w = none → late → s.startAlt t w = u.endAlt t w 8) ∧
      (readyGuard u w.issuer w = none → ¬ late →
        nget? (s.startAlt t w).txns t = some { w with stage := .waiting, blocks := true })) ∧
    (h.toNat < (s.part part).budget.types → v.toNat ≤ 255 →
      exec (.chopen x y k) s = .next (s.issuePend i (mkTxn s i (.chopen h.toNat v.toNat) 100) k)) ∧
    (∀ (t ty : Nat) (w : Txn), let n := nfree (s.part w.part).chans ((s.part w.part).chans.length + 1) 1
      n < 2 ^ 24 → ∃ c : Chan, (s.openChan t w ty 0).chan? w.part n = some c ∧ c.ty = ty ∧ c.depth = 0 ∧
        c.rxproc = ownerOf w.issuer ∧ c.holders = [ownerOf w.issuer] ∧ c.txopen = true ∧ c.rxopen = true ∧
        let e := BitVec.ofNat 64 (endHandle c n false)
        nget? (s.openChan t w ty 0).txns t = some { w with stage := .back { vals := [e], kept := [e] } }) ∧
    (∀ (ch : Nat) (c : Chan), chanFind s i h = .ok (ch, c) → chanIndex c h = true →
      (∀ rx : Bool, (bits h.toNat 31 31 = 1 ↔ rx = true) →
        (s.txns.any fun e => e.2.issuer == i.proc && e.2.op == .chclose ch rx) = false →
        (if rx then c.rxproc = ownerOf i.proc ∧ c.rxopen = true else ownerOf i.proc ∈ c.holders) →
        exec (.chclose x) s = .next ((s.issueQuiet (mkTxn s i (.chclose ch rx) 16)).modChan part ch fun c =>
          { c with flight := c.flight ++ [s.nextTxn] })) ∧
      exec (.chinfo x k) s = .next ((s.issuePend i (mkTxn s i (.chinfo ch) 16) k).modChan part ch fun c =>
        { c with flight := c.flight ++ [s.nextTxn] }) ∧
      (∀ a : Access, s.isMgr i.proc = true → pSpace v ≤ 2 → pOff v % 8 = 0 → effAddr s i .scalar .load v 0 64 false = .ok a →
        c.rxopen = true → let t := a.st.nextTxn
        let u := a.st.issueQuiet { accessTxn i a (.fabRead a.parts) with partner := some (t + 1), ptag := 0 }
        exec (.chbind x y k) s = .next
          (((u.issuePend i { mkTxn u i (.chbind ch a.parts) (a.lat + 80) with partner := some t } k).modChan part ch fun c =>
            { c with flight := c.flight ++ [t + 1] }).afterLoad i a t))) ∧
    (∀ o d, nget? s.objs (s.inst i.pre.inst).obj = some o → o.img.procs[h.toNat]? = some d → d.spawned = true →
      (o.img.gangs.any fun g => g.contains h.toNat) = false →
      exec (.spawn x y k) s = .next (s.issuePend i (mkTxn s i (.spawn h.toNat v 0) 200) k)) ∧
    (exitBusy (s.addFence i.proc .rel .pkg) i.proc = false →
      exec .exit s = .next ((s.addFence i.proc .rel .pkg).finishExit i.proc) ∧
      ((s.proc i.proc).engine = none → (s.proc i.proc).rated = false → ∃ t : State, exec .exit s = .next t ∧ (t.proc i.proc).st = .exited))

/-- O33: Containment-tree words issue, with their operand faults. With node operands below 2^20 (or, for the first of enrol, the allocating code) and a legal range: enrol reserves a free node where there is one and pushes a pending entry; unenrol of a node other than 0, settle, chgrd and chgcmp push one, settle and repar acting as a release fence of package scope. repar of a node other than 0 stands at its word until its first lock or its refusal, and then issues and pushes its pending entry. A node operand of any of the six that is neither raises ILLEGAL_OPERAND, as node 0 does for unenrol and repar; an allocating enrol with no free node left raises TREE_CAPACITY. -/
def Obligations.TreeWords : Prop :=
  ∀ (s : State) (i : Issue) (x y : Src) (k : Keep) (j : BitVec 5) (a b p l : Word), s.issue = some i →
    readSrc i x = .ok a → readSrc i y = .ok b → readSrc i (.n j) = .ok p → readSrc i (.n (j + 1)) = .ok l →
    let part := partOf i.proc
    let free := (s.part part).freeNodes
    let rel := s.addFence i.proc .rel .pkg
    let bad (e : Instr) (w : Word) : Prop := exec e s = .next (s.raise { kind := .illegalOperand, addr := w })
    (rangeCheck p l = .ok () → b.toNat < 2 ^ 20 →
      (0 < free → (a.toNat < 2 ^ 20 ∨ a.toNat = 0xFFFFFFFF) →
        let u := s.modPart part fun q => { q with freeNodes := free - 1 }
        exec (.enrol x y j) s = .next (u.issuePend i (mkTxn u i (.enrol a.toNat b.toNat p l true) 400) none)) ∧
      (free = 0 → a.toNat < 2 ^ 20 →
        exec (.enrol x y j) s = .next (s.issuePend i (mkTxn s i (.enrol a.toNat b.toNat p l false) 400) none)) ∧
      (free = 0 → a.toNat = 0xFFFFFFFF → exec (.enrol x y j) s = .next (s.raise { kind := .treeCapacity, addr := a }))) ∧
    (a.toNat < 2 ^ 20 →
      (0 < a.toNat →
        exec (.unenrol x .free) s = .next (s.issuePend i (mkTxn s i (.unenrol a.toNat none) 400) none) ∧
        (rangeCheck p l = .ok () →
          exec (.unenrol x (.pair j)) s = .next (s.issuePend i (mkTxn s i (.unenrol a.toNat (some (p, l))) 400) none)) ∧
        (b.toNat < 2 ^ 20 →
          (i.pre.opened = none → exec (.repar x y k) s = .next
            { ((rel.newTxn (mkTxn s i (.repar a.toNat b.toNat) 800)).1.holdAtWord i) with issue := none }) ∧
          (∀ t, i.pre.opened = some t → exec (.repar x y k) s = .next (s.issueOpened i t k)))) ∧
      (a = 0 → bad (.unenrol x .free) a ∧ bad (.unenrol x (.pair j)) a ∧
        (i.pre.opened = none → b.toNat < 2 ^ 20 → bad (.repar x y k) a)) ∧
      exec (.settle x k) s = .next (rel.issuePend i (mkTxn rel i (.settle a.toNat) 400) k) ∧
      exec (.chgrd x k) s = .next (s.issuePend i (mkTxn s i (.chgrd a.toNat) 400) k) ∧
      exec (.chgcmp x y k) s = .next (s.issuePend i (mkTxn s i (.chgcmp a.toNat b) 400) k)) ∧
    (2 ^ 20 ≤ a.toNat → bad (.settle x k) a ∧ bad (.chgrd x k) a ∧ bad (.chgcmp x y k) a ∧ (i.pre.opened = none → bad (.repar x y k) a) ∧
      bad (.unenrol x .free) a ∧ bad (.unenrol x (.pair j)) a ∧ (a.toNat ≠ 0xFFFFFFFF → bad (.enrol x y j) a)) ∧
    (2 ^ 20 ≤ b.toNat → (i.pre.opened = none → a.toNat < 2 ^ 20 → bad (.repar x y k) b) ∧
      ((a.toNat < 2 ^ 20 ∨ a.toNat = 0xFFFFFFFF) → bad (.enrol x y j) b))

/-- O34: Engine command words issue. With operands that pass the checks of their command, an engine of the kind in the partition's masks, a completion object free, room in the scoreboard, buffers that take the ranges, and for a heavy command a power token (EngReady): copy of at least one byte, copyt, coll, cmpr, dcmp, fork and every mig command issue as one engine operation whose object is RUNNING for the issuer, push its handle and reserve its status (EngIssued); a copy of no bytes completes at once. join of an object of the issuer blocks for it, and returns all ones at once for a free or reused one. hot pushes the counter of a mapped page, and 0 for a page of the heap. -/
def Obligations.EngineWords : Prop :=
  ∀ (s : State) (i : Issue) (x y z : Src) (k : Keep) (d r n : Word), s.issue = some i →
    readSrc i x = .ok d → readSrc i y = .ok r → readSrc i z = .ok n →
    let core := i.pre.core
    let part := partOf i.proc
    let len := n.toNat
    let apart (a b : Nat) : Prop := (pSpace d == pSpace r && overlap (pOff d) a (pOff r) b) = false
    let chip := onChip d || onChip r
    (len < 2 ^ 40 → endOperand s core part true d len = true → endOperand s core part false r len = true →
      apart len len → (chip = false → (unitKey s part .sharedCopy core).isSome = true) →
      endRange s i d len len = .ok () → endRange s i r len len = .ok () → EngReady s i (copyCmd s i d r len) →
      (0 < len → EngIssued s i (copyCmd s i d r len) (exec (.copy x y z) s)) ∧
      (len = 0 → ∃ t : State, exec (.copy x y z) s = .next t ∧ t.issue = some i ∧ nget? t.txns s.nextTxn = none)) ∧
    (endOperand s core part true d 0 = true → endOperand s core part false r 1 = true →
      descOk n = true → (chip = false → (unitKey s part .sharedCopy core).isSome = true) → endRange s i d 1 0 = .ok () →
      endRange s i r 1 0 = .ok () → endRange s i n 16 16 = .ok () → EngReady s i (copytCmd s i d r n) →
      EngIssued s i (copytCmd s i d r n) (exec (.copyt x y z) s)) ∧
    (descOk d = true → (unitKey s part .collective core).isSome = true → endRange s i d 64 64 = .ok () →
      EngReady s i (collCmd s i d) → EngIssued s i (collCmd s i d) (exec (.coll x) s)) ∧
    (∀ expand : Bool, let out := pressOut len expand
      let inp := pressIn len expand
      len < 2 ^ 40 → (expand = true ∨ len % 64 = 0) → endOperand s core part true d out = true →
      endOperand s core part false r inp = true → apart out inp → (unitKey s part .compression core).isSome = true →
      endRange s i d out out = .ok () → endRange s i r inp inp = .ok () → EngReady s i (pressCmd s i d r len expand) →
      EngIssued s i (pressCmd s i d r len expand) (exec (if expand then .dcmp x y z else .cmpr x y z) s)) ∧
    (∀ e : ForkKind, let cmd : EngCmd := { op := .fork e d r, heavy := false, shared := true }
      (unitKey s part e core).isSome = true → EngReady s i cmd → EngIssued s i cmd (exec (.fork x y e) s)) ∧
    (let cmd : EngCmd := { op := .mig d r, heavy := false, shared := true, lat := 200 }
     let tier := bits r.toNat 4 3
     pSpace d = 0 → r.toNat < 2 ^ 9 → r.toNat % 8 ≤ 5 →
     ((r.toNat % 8 = 0 ∨ r.toNat % 8 = 4) → tierThere s tier = true) →
     ((r.toNat % 8 = 0 ∧ r.toNat.testBit 8 = false ∨ r.toNat % 8 = 4) → tier = 2 → bits r.toNat 7 5 < 4) →
     ((r.toNat % 8 = 4 ∨ r.toNat % 8 = 5) → s.isMgr i.proc = true) → (s.part part).budget.berylmask ≠ 0 → EngReady s i cmd →
     ∀ e ∈ [Instr.migMove x y, .migCancel x y, .migPinSet x y, .migPinClear x y, .migTakePage x y, .migReturnPage x y],
       EngIssued s i cmd (exec e s)) ∧
    (let o := (s.core (handleCore s i d)).obj (d.toNat % 256)
     d.toNat < 2 ^ 25 → d.toNat % 256 < 192 →
     ((o.st = .free ∨ o.gen ≠ bits d.toNat 15 8) → exec (.join x k) s = .next (s.pushLater i (BitVec.ofNat 64 (2 ^ 64 - 1)) 0 k 12)) ∧
     (o.st ≠ .free → o.gen = bits d.toNat 15 8 → o.issuer = i.proc → exec (.join x k) s = .next
       ((s.issuePend i { mkTxn s i (.join (handleCore s i d) (d.toNat % 256) (bits d.toNat 15 8)) 0 with stage := .waiting } k).block
         i.proc .join (d.setWidth 32) 0))) ∧
    (let heap := pSpace d = 1 ∧ heapRel i.pre (pOff d) < (s.inst i.pre.inst).heapLim
     pSpace d ≤ 1 →
     (heap → exec (.hot x k) s = .next (s.pushLater i 0 0 k 100)) ∧
     (¬ heap → s.unitBusy none core part (pOff d / 2 ^ 16) = false → ∀ e, (s.lookup core part (pOff d / 2 ^ 16)).2 = .ok e → ∃ u : State, u = (s.lookup core part (pOff d / 2 ^ 16)).1 ∧
       exec (.hot x k) s = .next (u.pushLater i (BitVec.ofNat 64 (nget 0 u.hot (u.live (e.frame * 2 ^ 16) / 2 ^ 16))) 0 k 100)))

/-- O35: An engine operation takes the lowest free object, pushes its handle, then a pending status. Where an engine command without scratchpad ranges begins: the lowest-numbered free object of its pool is RUNNING with its generation raised by one modulo 256, for the issuer; q1 is the handle of core, generation and object, q0 a pending status; a heavy command has taken one power token, and needs one; with every object in use the context waits and nothing is taken. -/
def Obligations.EngineObject : Prop :=
  ∀ (s : State) (i : Issue) (e : EngCmd), e.ranges = [] → e.later = 0 →
    let core := i.pre.core
    let c := s.core core
    (c.sb.filter SbEnt.own).length ≤ 128 →
    (∀ j, c.freeObj e.shared = some j → (e.heavy = true → 0 < c.free) →
      ∃ t, s.beginEng i e = .ok t ∧ ((t.core core).obj j).st = .running ∧
        ((t.core core).obj j).gen = ((c.obj j).gen + 1) % 256 ∧ ((t.core core).obj j).issuer = i.proc ∧
        (t.core core).free = (if e.heavy then c.free - 1 else c.free) ∧
        (t.proc i.proc).qget 1 = handleWord core (((c.obj j).gen + 1) % 256) j ∧ (t.proc i.proc).qpend 1 = false ∧
        (t.proc i.proc).qpend 0 = true ∧ (∀ m, m ≠ j → (t.core core).obj m = c.obj m) ∧ t.mem = s.mem ∧
        (nget? t.txns s.nextTxn).map Txn.op = some (.eng core j e.op) ∧ (c.obj j).st = .free) ∧
    (e.heavy = true → c.free = 0 → s.beginEng i e = .error (.trap { kind := .powerBudget, e5 := c.tokens })) ∧
    (c.freeObj e.shared = none → (e.heavy = true → 0 < c.free) → s.beginEng i e = .error (.hold .object))

/-- O36: A store or reduction that may be served changes the bytes at its place and no other byte. HOME_WRITE_APPLY of a whole store of one place, or of an integer or floating reduction of one element with no cross-die message under way, which its home may serve, on no lost port (for a reduction also no bad line), with no page in motion: the stored bytes stand at the place, least significant first, or the old value combined with the operand; every byte outside reads as before, the canonical form is kept, and the transaction is gone. A write that may not be served yet sets out for another die where it can, is translated where it came from another module, enters its slice where there is room, and else stays; memory is unchanged then but for what a dirty page of another module's write marks in its table. -/
def Obligations.StoreApplied : Prop :=
  (∀ (s : State) (t : Nat) (x : Txn) (key va : Nat) (bs : List Byte), nget? s.txns t = some x →
    x.op = .store [{ at_ := .mem key, len := bs.length, va := va }] bs → s.motions = [] → s.canServe t x = true →
    lostPart s x.op.parts = none → x.ptag.getLsbD 8 = false → x.far = none → x.unitsDone = [] →
    ∃ u : State, exec (.homeWriteApply ⟨t, .whole⟩) s = .next u ∧ readBytes u.mem key bs.length = bs ∧
      (∀ a, (a < key ∨ key + bs.length ≤ a) → readByte u.mem a = readByte s.mem a) ∧ nget? u.txns t = none ∧
      (Memory.wf s.mem = true → Memory.wf u.mem = true)) ∧
  (∀ (s : State) (t : Nat) (x : Txn) (key va : Nat) (op : AtomOp) (v : Word), nget? s.txns t = some x →
    x.op = .red op [{ at_ := .mem key, len := atomBytes op, va := va }] v → s.motions = [] → s.xmsgs = [] →
    s.canServe t x = true → s.badWrite x.op = none → x.ptag.getLsbD 8 = false → x.far = none →
    let n := atomBytes op
    ∃ u : State, exec (.homeWriteApply ⟨t, .whole⟩) s = .next u ∧
      readBytes u.mem key n = leBytes n (atomApply op (leNat (readBytes s.mem key n)) (v.toNat % 2 ^ (8 * n))).1 ∧
      (∀ a, (a < key ∨ key + n ≤ a) → readByte u.mem a = readByte s.mem a) ∧ nget? u.txns t = none) ∧
  (∀ (s : State) (t : Nat) (x : Txn) (how : ServeHow), nget? s.txns t = some x → (x.op.role = .st ∨ x.op.role = .rd) →
    (∀ p ∈ x.op.parts, ∀ k o, p.at_ ≠ .win k o) → s.canServe t x = false →
    exec (.homeWriteApply ⟨t, how⟩) s = .next
      (if s.canSend t x then s.setOut t x else if s.canPlace x then s.placeFar t x
       else if s.canEnter t x then s.enter t x else s))

/-- O37: An atomic at its home replaces the word once and starts its old value back. HOME_ATOMIC_APPLY of an atomic or compare-and-swap of one place that its home may serve, with good data, not yet applied and with no update or motion under way: memory holds the combined value (for a compare-and-swap the new one where the compare succeeds, else what it held), every byte outside the word reads as before, and the transaction carries the old value back, sign-extended for the signed 32-bit minimum and maximum. -/
def Obligations.AtomicApplied : Prop :=
  ∀ (s : State) (t : Nat) (x : Txn) (key va : Nat), nget? s.txns t = some x → s.motions = [] → s.xmsgs = [] →
    s.canServe t x = true → s.badPart x.op.parts = none → s.cached t x = none →
    (∀ (op : AtomOp) (v : Word), x.op = .atom op [{ at_ := .mem key, len := atomBytes op, va := va }] v →
      let n := atomBytes op
      let old := leNat (readBytes s.mem key n)
      let r := atomApply op old (v.toNat % 2 ^ (8 * n))
      ∃ u : State, exec (.homeAtomicApply ⟨t, .whole⟩) s = .next u ∧ readBytes u.mem key n = leBytes n r.1 ∧
        (∀ a, (a < key ∨ key + n ≤ a) → readByte u.mem a = readByte s.mem a) ∧
        (nget? u.txns t).map Txn.stage = some (.back { vals := [atomPushed op old], kept := [atomPushed op old], flags := r.2 })) ∧
    (∀ (wide : Bool) (y z : Word), x.op = .cas wide [{ at_ := .mem key, len := if wide then 8 else 4, va := va }] y z →
      let n := if wide then 8 else 4
      let old := leNat (readBytes s.mem key n)
      ∃ u : State, exec (.homeAtomicApply ⟨t, .whole⟩) s = .next u ∧
        leNat (readBytes u.mem key n) = (if old = y.toNat % 2 ^ (8 * n) then z.toNat % 2 ^ (8 * n) else old) ∧
        (∀ a, (a < key ∨ key + n ≤ a) → readByte u.mem a = readByte s.mem a) ∧
        (nget? u.txns t).map Txn.stage = some (.back { vals := [BitVec.ofNat 64 old] }))

/-- O38: The combining operations of the integer atomics. Add wraps modulo 2^w; the signed and natural minimum and maximum choose by the w-bit order; and, or and xor act bit by bit; swap gives the operand. -/
def Obligations.CombinedValues : Prop :=
  (∀ a b : BitVec 64,
    (atomApply .add64 a.toNat b.toNat).1 = (a + b).toNat ∧
    (atomApply .minI64 a.toNat b.toNat).1 = (if a.toInt ≤ b.toInt then a else b).toNat ∧
    (atomApply .maxI64 a.toNat b.toNat).1 = (if b.toInt ≤ a.toInt then a else b).toNat ∧
    (atomApply .minN64 a.toNat b.toNat).1 = min a.toNat b.toNat ∧ (atomApply .maxN64 a.toNat b.toNat).1 = max a.toNat b.toNat ∧
    (atomApply .and64 a.toNat b.toNat).1 = (a &&& b).toNat ∧ (atomApply .or64 a.toNat b.toNat).1 = (a ||| b).toNat ∧
    (atomApply .xor64 a.toNat b.toNat).1 = (a ^^^ b).toNat ∧ (atomApply .swap64 a.toNat b.toNat).1 = b.toNat) ∧
  (∀ a b : BitVec 32,
    (atomApply .add32 a.toNat b.toNat).1 = (a + b).toNat ∧
    (atomApply .minI32 a.toNat b.toNat).1 = (if a.toInt ≤ b.toInt then a else b).toNat ∧
    (atomApply .maxI32 a.toNat b.toNat).1 = (if b.toInt ≤ a.toInt then a else b).toNat ∧
    (atomApply .and32 a.toNat b.toNat).1 = (a &&& b).toNat ∧ (atomApply .xor32 a.toNat b.toNat).1 = (a ^^^ b).toNat ∧
    atomPushed .minI32 a.toNat = a.signExtend 64 ∧ atomPushed .add32 a.toNat = a.setWidth 64)

/-- O39: A served load carries its bytes, extended, and its arrival fills the reserved slot. MEMORY_SERVER_REQUEST of a load that may be served whole and whose data are good: memory is unchanged and the transaction carries the bytes of its place as its die sees them, little-endian, sign- or zero-extended. PENDING_RESULT_ARRIVAL of a transaction whose values are on their way, for a running issuer in its context: the reserved slot holds the value and is no longer pending, unless sixteen later pushes have reused it, the kept register holds it where its mark stands, the transaction is gone, and memory is unchanged. -/
def Obligations.ReadAndArrival : Prop :=
  (∀ (s : State) (t : Nat) (x : Txn) (p : Part8) (e : Ext), nget? s.txns t = some x → x.op = .load [p] e →
    s.canServe t x = true → s.badPart [p] = none → x.unitsDone = [] → x.got = [] →
    ∃ (u : State) (d : Deliver), exec (.memoryServerRequest ⟨t, .whole⟩) s = .next u ∧ u.mem = s.mem ∧
      (nget? u.txns t).map Txn.stage = some (.back d) ∧ d.vals = [e.make (s.partBytes (dieOf x.core) p)] ∧ d.kept = d.vals) ∧
  (∀ (bs : List Byte), bs.length = 4 →
    (Ext.zero 4).make bs = BitVec.ofNat 64 (leNat bs) ∧ (Ext.sign 4).make bs = (BitVec.ofNat 32 (leNat bs)).signExtend 64) ∧
  (∀ (s : State) (t : Nat) (x : Txn) (d : Deliver) (w : Word) (c : BitVec 32) (l : List Part8) (e : Ext) (how : ServeHow),
    nget? s.txns t = some x → x.op = .load l e → x.far = none → (s.proc x.issuer).ctx.isSome = true → x.stage = .back d → d.vals = [w] → d.kept = [w] → s.frozen x = false → x.tgt.slots = [c] → x.partner = none → x.left = false →
    x.tgt.vregs = [] → x.tgt.mats = [] → (s.proc x.issuer).st = .running → (s.proc x.issuer).exiting = false →
    let p := s.proc x.issuer
    ∃ u : State, exec (.pendingResultArrival ⟨t, how⟩) s = .next u ∧ nget? u.txns t = none ∧ u.mem = s.mem ∧
      (let q := u.proc x.issuer
       ((p.push - c).toNat < 16 → q.q[(c.setWidth 4).toNat] = w ∧ q.qPend.getLsbD (c.setWidth 4).toNat = false) ∧
       (16 ≤ (p.push - c).toNat → q.q = p.q ∧ q.qPend = p.qPend) ∧ q.push = p.push ∧
       (∀ r, x.tgt.keeps = [r] → (if (r, t) ∈ p.nPend then q.nget r = w else q.nget r = p.nget r)) ∧
       (x.tgt.keeps = [] → q.n = p.n)))

/-- O40: Cross-die application, held accesses, window writes, phase arrivals and deadlines. CROSS_DIE_MESSAGE_APPLY of the next message of a source whose other tags are applied steps the die's clock entry for the source to its tag and no other. HELD_ACCESS_PROCEED releases a context whose access, or side log, is free. WINDOW_WRITE_LAND of a doubleword to a named register writes it, at an issue turn of a target that holds a context, and then no byte of memory. PHASE_ARRIVAL_COUNT of an arrival under way takes one from the counter of a destination that its instance holds here, or raises PHASE_OVERRUN at zero. REMOTE_PHASE_LOAD sets the counter. DEADLINE_EXPIRY makes a process READY whose timed wait is over; CHANNEL_TIMEOUT gives a timed receive that may expire status 1. -/
def Obligations.HomeAndProcessEvents : Prop :=
  (∀ (s : State) (d src n : Nat) (m : XMsg), findAt (fun m : XMsg => m.src == src && m.waiting.contains d) s.xmsgs = some (n, m) →
    src < 4 → clk m.tag src = clk (s.die d).clock src + 1 →
    (∀ e, e < 4 → e ≠ src → clk m.tag e ≤ clk (s.die d).clock e) →
    ∃ u : State, exec (.crossDieMessageApply d src) s = .next u ∧ u.mem = s.mem ∧ clk (u.die d).clock src = clk m.tag src ∧
      ∀ e, e < 4 → e ≠ src → clk (u.die d).clock e = clk (s.die d).clock e) ∧
  (∀ (s : State) (k t : Nat), (s.proc k).st = .parked →
    ((s.proc k).hold = some (.access t false) ∧ nget? s.txns t = none ∨
     (s.proc k).hold = some .sideLog ∧ (s.sideLogOf k).length < 64) →
    ∃ u : State, exec (.heldAccessProceed k) s = .next u ∧ (u.proc k).st = .running ∧ (u.proc k).hold = none ∧
      (u.proc k).pc = (s.proc k).pc ∧ u.mem = s.mem) ∧
  (∀ (s : State) (t k : Nat) (x : Txn) (r : BitVec 5) (va : Nat) (v : Word), nget? s.txns t = some x →
    x.op = .store [{ at_ := .win k (0x40000 + 8 * r.toNat), len := 8, va := va }] (leBytes 8 v.toNat) → s.canServe t x = true →
    nget? s.procs k = some (s.proc k) → (s.proc k).st ≠ .exited → x.issuer ≠ k → x.ptag.getLsbD 8 = false → x.far = none →
    x.unitsDone = [] → (∀ j, (s.proc k).ctx = some j → s.cycle % 8 = j ∧ s.turnCore ≤ (s.proc k).core) →
    ∃ u : State, exec (.windowWriteLand t) s = .next u ∧ (u.proc k).nget r = v ∧ nget? u.txns t = none ∧
      ((s.proc k).ctx.isSome = true → u.mem = s.mem)) ∧
  (∀ (s : State) (t slot dest : Nat) (x : Txn) (f : Phase) (d : PDest), nget? s.txns t = some x → x.op = .arrive slot dest →
    x.started = true → x.stage = .sent → s.frozen x = false → s.phase? x.part slot = some f → f.holder = x.inst → f.dests[dest]? = some d → ownDest s x.part d = true →
    (0 < d.counter → f.waiters = [] →
      ∃ u : State, exec (.phaseArrivalCount t) s = .next u ∧ u.phase? x.part slot =
        some { f.count dest fun n => n - 1 with clock := f.clock.join x.clock }) ∧
    (d.counter = 0 → exec (.phaseArrivalCount t) s = .next ((s.dropTxn t).deferRec (ownerOf x.issuer)
      { kind := .phaseOverrun } x.loc x.bword))) ∧
  (∀ (s : State) (part slot count j : Nat) (f : Phase), s.foreign part slot 0 = some j → s.phase? part slot = some f →
    f.waiters = [] → ∃ u : State, exec (.remotePhaseLoad part slot count) s = .next u ∧
      u.phase? part slot = some (f.count j fun _ => count)) ∧
  (∀ (s : State) (k : Nat), let p := s.proc k
    p.st = .blocked → p.wkind = .timed → p.ctx = none → p.engine = none →
    p.deadline.toNat ≤ (virtualTime s (partOf k)).toNat →
    ∃ u : State, exec (.deadlineExpiry k) s = .next u ∧ (u.proc k).st = .ready ∧ (u.proc k).wkind = .none ∧
      k ∈ (u.core p.core).queue p.prio ∧ u.mem = s.mem) ∧
  (∀ (s : State) (k t ch : Nat) (x : Txn) (d : Word), (s.txns.filter fun e => e.2.issuer == k && e.2.op.wkind != .none) = [(t, x)] →
    nget? s.txns t = some x → x.op = .recv ch → x.deadline = some d → d.toNat ≤ (virtualTime s x.part).toNat →
    canExpire s x.part ch t x = true → (∀ e ∈ s.txns, e.2.op ≠ .alt) → (∀ e ∈ s.procs, e.2.st ≠ .dormant) →
    ∃ (u : State) (v : Deliver), exec (.channelTimeout k) s = .next u ∧ (nget? u.txns t).map Txn.stage = some (.back v) ∧
      v.vals.getLast? = some 1)

/-- O41: Channel matches and landings, walker requests, tokens, markers and locks. CHANNEL_MATCH of a send that reaches a buffered channel with room and nobody waiting appends its message and writes it to the slot at TAIL, and no other byte of memory. TRANSFER_LANDED ends a send whose message has been taken. TREE_WALKER_REQUEST gives a chgrd the node's count and a chgcmp 0 or 1. ROLLUP_TOKEN_COUNT adds the token's weight to its node, clears the granule's mark and moves the token to the parent, alone or as the weight of a token that climbs to it already, or ends it at the root. SETTLE_MARKER records the slice. REPAR_LOCK of a repar that may begin takes the lowest lock of its set. -/
def Obligations.ChannelAndTreeEvents : Prop :=
  (∀ (s : State) (part ch t : Nat) (c : Chan) (x : Txn) (bs : List Byte), ch < 2 ^ 24 → s.chan? part ch = some c → c.flight = [t] →
    nget? s.txns t = some x → x.op = .send ch bs → x.part = part → x.deadline = none → x.stage = .sent → s.ordered t x = true →
    s.isStopped (ownerOf x.issuer) = false → c.bkind = 0 → c.txopen = true → c.rxopen = true → c.sendq = [] → c.recvq = [] →
    c.resvTx = [] → c.msgs.length < c.depth → (∀ e ∈ s.txns, e.2.op ≠ .alt) → (∀ e ∈ s.procs, e.2.st ≠ .dormant) →
    let slot := bufKey part ch + c.tail * ((tyBytes (chanTy s part c) + 63) / 64 * 64)
    ∃ (u : State) (c' : Chan), exec (.channelMatch (part * 2 ^ 24 + ch)) s = .next u ∧ u.chan? part ch = some c' ∧
      c'.msgs = c.msgs ++ [(ownerOf x.issuer, bs)] ∧ c'.sendq = [] ∧ c'.flight = [] ∧ readBytes u.mem slot bs.length = bs ∧
      ∀ a, (a < slot ∨ slot + bs.length ≤ a) → readByte u.mem a = readByte s.mem a) ∧
  (∀ (s : State) (t ch : Nat) (x : Txn) (bs : List Byte) (d : Deliver), nget? s.txns t = some x → x.op = .send ch bs →
    x.stage = .back d → x.partner = none → x.issuer ≠ 0 → s.frozen x = false → x.ptag.getLsbD 8 = false →
    (s.proc x.issuer).ctx.isSome = true → (∀ p ∈ s.parts, p.2.chans = []) → (∀ e ∈ s.txns, e.2.op ≠ .alt) →
    (∀ e ∈ s.procs, e.2.st ≠ .dormant) →
    ∃ u : State, exec (.transferLanded t) s = .next u ∧ nget? u.txns t = none ∧ u.mem = s.mem) ∧
  (∀ (s : State) (t n : Nat) (x : Txn) (v : Node) (w : Word), nget? s.txns t = some x → x.stage = .sent → s.ordered t x = true →
    s.node? x.part n = some v → s.lockedChain x.part n = false →
    (x.op = .chgrd n → exec (.treeWalkerRequest t) s = .next (s.setTxn t { x with stage := .back { vals := [v.count], kept := [v.count] } })) ∧
    (x.op = .chgcmp n w → ∃ r : Word, exec (.treeWalkerRequest t) s =
      .next (s.setTxn t { x with stage := .back { vals := [r], kept := [r] } }) ∧ (r = 0 ↔ v.count = w) ∧ (r = 0 ∨ r = 1))) ∧
  (∀ (s : State) (k : Nat) (v : Token) (nd : Node), nget? s.tokens k = some v → s.node? v.part v.node = some nd → nd.lock = false →
    s.caughtUp (walkerDie v.node) v.clock = true → (∀ e ∈ s.txns, ∀ n, e.2.op ≠ .settle n) →
    ∃ u : State, exec (.rollupTokenCount k) s = .next u ∧ u.mem = s.mem ∧
      (∃ nd', u.node? v.part v.node = some nd' ∧ nd'.count = BitVec.ofNat 64 (min (2 ^ 64 - 1) (nd.count.toNat + v.weight))) ∧
      (∀ g y, v.gran = some g → nget? s.grans g = some y → nget? u.grans g = some { y with pend := false }) ∧
      (v.node = 0 → nget? u.tokens k = none) ∧
      (v.node ≠ 0 → (∃ v', nget? u.tokens k = some v' ∧ v'.node = nd.parent ∧ v'.gran = none ∧ v'.weight = v.weight) ∨
        ∃ j w w', (j, w) ∈ s.tokens ∧ j ≠ k ∧ w.part = v.part ∧ w.node = nd.parent ∧ w.gran = none ∧
          nget? u.tokens k = none ∧ nget? u.tokens j = some w' ∧ w'.node = nd.parent ∧ w'.weight = w.weight + v.weight)) ∧
  (∀ (s : State) (t n slice : Nat) (x : Txn), nget? s.txns t = some x → x.op = .settle n → x.stage = .waiting → slice < 64 →
    slice ∉ x.marks → x.marks.length < 63 → s.caughtUp (dieOfNode slice) x.clock = true → s.liveNode x.part n = true →
    ∃ (u : State) (y : Txn), exec (.settleMarker t slice) s = .next u ∧ nget? u.txns t = some y ∧ y.marks = x.marks ++ [slice] ∧
      y.stage = .waiting) ∧
  (∀ (s : State) (t n p m : Nat) (l : List Nat) (x : Txn) (v : Node), nget? s.txns t = some x → x.op = .repar n p → x.stage = .sent →
    s.ordered t x = true → s.liveNode x.part n = true → s.liveNode x.part p = true → x.marks = [] →
    s.lockSet x.part n p = m :: l → s.node? x.part m = some v → v.lock = false →
    ∃ (u : State) (y : Txn) (w : Node), exec (.reparLock t) s = .next u ∧ nget? u.txns t = some y ∧ y.marks = [m] ∧ y.stage = .waiting ∧
      u.node? x.part m = some w ∧ w.lock = true)

/-- O42: Engine completion, thread start, channel dispatch and the gang timeout. ENGINE_COMPLETION of a copy, tensor copy, compression or expansion whose status is known ends it with that status. FORK_THREAD_START of the first waiting fork of a unit with room starts its thread at the program, n0 the parameter and n1 the handle. ENGINE_CHANNEL_DISPATCH takes the oldest message of a buffered engine channel and starts a thread where a unit and an object are free. GANG_TIMEOUT, 65,536 cycles after the issue of the one mgang that waits at a barrier, undoes it and leaves its issuer FAULTED with the program counter on it. -/
def Obligations.EngineEvents : Prop :=
  (∀ (s : State) (t core obj : Nat) (x : Txn) (op : EngOp) (w : Word), nget? s.txns t = some x → (∀ d, op ≠ .coll d) →
    x.op = .eng core obj op → x.stage = .sent → engStatus x op = some w → s.frozen x = false →
    s.threadQuiet (engineKey t x.issuer) = true →
    exec (.engineCompletion t) s = .next (s.endEng t x core obj (.ok w))) ∧
  (∀ (s : State) (t core obj u : Nat) (x : Txn) (kind : ForkKind) (prog par pc : Word), nget? s.txns t = some x →
    x.op = .eng core obj (.fork kind prog par) → x.stage = .sent → s.ordered t x = true → regTarget prog = .ok pc →
    engUnit s x (.fork kind prog par) = some u → (s.engine u).forks = [t] → x.started = false →
    ∃ v : State, exec (.forkThreadStart t) s = .next v ∧
      (let p := v.proc (engineKey t x.issuer)
       p.st = .running ∧ p.pc = pc ∧ p.nget 0 = par ∧ p.nget 1 = handleWord core ((s.core core).obj obj).gen obj ∧
       (∀ r : BitVec 5, 2 ≤ r.toNat → p.nget r = 0) ∧ p.engine = some { kind := kind, txn := t, forkLoc := x.loc }) ∧
      v.mem = s.mem) ∧
  (∀ (s : State) (part ch u j : Nat) (c : Chan) (kind : ForkKind) (m : Nat × List Byte) (rest : List (Nat × List Byte)),
    ch < 2 ^ 24 → s.chan? part ch = some c → c.bkind = 2 → kindOf (c.ep[0].toNat % 8) = some kind → c.msgs = m :: rest →
    let core := if m.1 = 0 then c.home else (s.proc m.1).core
    unitKey s part kind core = some u → (s.core core).freeObj true = some j → (s.engine u).forks.length < forkCap kind →
    s.halted part = false →
    exec (.engineChannelDispatch (part * 2 ^ 24 + ch)) s = .next
      (((s.modChan part ch fun c => c.dropMsg 1).threadFor part core m.1 0 kind u c.ep[1] m.2 j).chanChanged part ch)) ∧
  (∀ (s : State) (g t core : Nat) (v : Gang) (x : Txn), nget? s.gangs g = some v → v.barrier = [(core, t)] →
    nget? s.txns t = some x → x.issued + 65536 ≤ s.cycle → s.issue = none → (s.proc x.issuer).engine = none →
    (s.proc x.issuer).isHandler = false → handlerIndex s (s.proc x.issuer).inst ≠ none → isManager s x.issuer = false →
    (s.inst (s.proc x.issuer).inst).queue.length < 16 → x.issuer < 2 ^ 32 →
    ∃ u : State, exec (.gangTimeout g) s = .next u ∧ (u.proc x.issuer).st = .faulted ∧ (u.proc x.issuer).pc = x.loc ∧
      nget? u.txns t = none)

/-- O43: Standbys, quanta, swaps, gang grants and a steal. STANDBY_LOAD puts the highest queued process of a core into the standby slot of the context that ContextFor names, and a standby it displaces goes to the head of its queue. QUANTUM_DUE marks the context of a process outside a gang that has been charged 64 of its turns since it was swapped in while another of its priority is queued or stands by for the context. CONTEXT_SWAP at the context's turn begins the swap; the displaced process is READY, at the head of its queue below a higher priority and at the tail otherwise. SWAP_COMPLETE 3 cc later runs the standby, or leaves it parked on the park it brought. REGISTER_IMAGE_WRITE_END, with no vector result of the process on its way, ends the write of the register image at the process's REGIMG and frees the slot. GANG_GRANT of the first FORMING gang of its cluster, where every core has as many contexts that may be granted as living members stand on it, gives every living member a context and makes the gang RUNNING. WORK_STEAL_ROUND ships the one process of the next victim that may be shipped, once the victim's own standby slots are filled, to an idle core of the thief. -/
def Obligations.SchedulerSwaps : Prop :=
  (∀ (s : State) (core ctx k : Nat), highestQueued s (s.core core) = some k → contextFor s core k = some ctx →
    (s.proc k).core = core →
    ∃ u : State, exec (.standbyLoad core ctx) s = .next u ∧ ((u.core core).ctx ctx).standby = some k ∧
      ((u.core core).ctx ctx).loaded = true ∧ (u.proc k).st = .standby ∧ k ∉ (u.core core).queue (s.proc k).prio ∧ u.mem = s.mem ∧
      ∀ b, ((s.core core).ctx ctx).standby = some b → (s.proc b).core = core →
        (u.proc b).st = .ready ∧ (u.core core).queue (s.proc b).prio = b :: (s.core core).queue (s.proc b).prio) ∧
  (∀ (s : State) (core ctx r : Nat), ((s.core core).ctx ctx).run = some r → (s.proc r).gang = 0 → (s.proc r).st ≠ .stopped →
    64 ≤ ((s.core core).ctx ctx).turns → equalWaits s core ((s.core core).ctx ctx) r = true →
    exec (.quantumDue core ctx) s = .next (s.modCore core fun c => c.setCtx ctx { c.ctx ctx with due := true })) ∧
  (∀ (s : State) (core ctx b : Nat), s.cycle % 8 = ctx → ((s.core core).ctx ctx).standby = some b →
    ((s.core core).ctx ctx).loaded = true → ((s.core core).ctx ctx).swapping = false → (s.proc b).st ≠ .stopped →
    (((s.core core).ctx ctx).run = none → (∀ g ∈ s.gangs, g.2.st ≠ .forming) →
      (∀ k, ((s.core core).ctx ctx).writing = some k → s.vecWaits k = false) →
      ∃ u : State, exec (.contextSwap core ctx) s = .next u ∧ ((u.core core).ctx ctx).swapping = true ∧
        ((u.core core).ctx ctx).since = s.cycle ∧ u.procs = s.procs) ∧
    (∀ r, ((s.core core).ctx ctx).run = some r → (s.proc r).core = core → (s.proc r).ctx = some ctx → (s.proc r).gang = 0 →
      (s.proc r).vPend = [] → (s.proc r).st = .running →
      ((s.proc r).prio < (s.proc b).prio ∨ ((s.core core).ctx ctx).due = true) →
      ∃ u : State, exec (.contextSwap core ctx) s = .next u ∧ ((u.core core).ctx ctx).swapping = true ∧ (u.proc r).st = .ready ∧
        (u.proc r).ctx = none ∧ (u.core core).queue (s.proc r).prio =
          if (s.proc r).prio < (s.proc b).prio then r :: (s.core core).queue (s.proc r).prio
          else (s.core core).queue (s.proc r).prio ++ [r])) ∧
  (∀ (s : State) (core ctx k : Nat), ((s.core core).ctx ctx).standby = some k → ((s.core core).ctx ctx).swapping = true →
    ((s.core core).ctx ctx).since + 3 ≤ s.cycle → (s.proc k).st = .standby →
    ∃ u : State, exec (.swapComplete core ctx) s = .next u ∧ ((u.core core).ctx ctx).run = some k ∧
      ((u.core core).ctx ctx).standby = none ∧ ((u.core core).ctx ctx).swapping = false ∧ (u.proc k).ctx = some ctx ∧
      (u.proc k).st = (if (s.proc k).hold.isSome then PState.parked else PState.running) ∧ (u.proc k).pc = (s.proc k).pc ∧
      u.mem = s.mem) ∧
  (∀ (s : State) (core ctx k : Nat), ((s.core core).ctx ctx).writing = some k → s.vecWaits k = false →
    exec (.registerImageWriteEnd core ctx) s =
      .next ((s.writeImg k).modCore core fun c => c.setCtx ctx { c.ctx ctx with writing := none })) ∧
  (∀ (s : State) (gang : Nat) (g : Gang), nget? s.gangs gang = some g → g.st = .forming →
    (∀ e ∈ s.gangs, e.1 ≠ gang → e.2.st = .forming → e.2.cluster = g.cluster → g.order < e.2.order) →
    (∀ k ∈ g.members, (s.proc k).st ≠ .stopped) → s.halted g.part = false → g.members.Nodup →
    (∀ core, (g.members.filter fun k => (s.proc k).st != .exited && (s.proc k).core == core).length ≤
      ((List.range 8).filter (freeForGang s (gangPrio s g) core)).length) →
    ∃ u : State, exec (.gangGrant gang) s = .next u ∧ (nget? u.gangs gang).map Gang.st = some .running ∧
      ∀ k ∈ g.members, (s.proc k).st ≠ .exited → (u.proc k).ctx.isSome = true) ∧
  (∀ (s : State) (clu part k d : Nat) (q : Part) (l : List Nat), s.parts = [(part, q)] → q.parent ≠ some part → clu < 64 →
    q.clusters.getLsbD clu = true →
    q.clusters.getLsbD ((clu + 1) % 64) = true → (s.cluster clu).nextSteal ≤ s.cycle →
    (coresIn clu).filter (fun c => 0 < idleCtx (s.core c)) = d :: l → (∀ c ∈ coresIn clu, shipOrder (s.core c) = []) →
    ((coresIn ((clu + 1) % 64)).flatMap fun c => shipOrder ((s.refill c 4096).core c)).filter (mayShip s part clu) = [k] →
    ∃ u : State, exec (.workStealRound clu) s = .next u ∧ (u.proc k).core = d ∧ (u.proc k).st = .new ∧
      k ∈ (u.core d).queue (s.proc k).prio)

/-- O44: Handler spawn, delivery of a failure at a turn, rated firing and the deadlock report. HANDLER_SPAWN takes the oldest queued record, while fewer than 4 handler processes of the network run, and starts one with n2 the record's address and n3 the faulting handle. CLASS_C_FAULT_DELIVERY gives a process that holds its context the first failure that waits for it, with the program counter where it had reached. RATED_FIRING makes a DORMANT process whose ends are ready NEW at its entry with its registers as at a start. DEADLOCK_REPORT of a network with no handler, found deadlocked and not yet reported, writes the report and adds its record, with the tag of the network's launch, to the event ring, and marks the network reported. -/
def Obligations.HandlersAndFirings : Prop :=
  (∀ (s : State) (inst id idx : Nat) (t : List Nat) (r : FRec) (v : Inst) (o : NetObj), nget? s.insts inst = some v →
    v.queue = id :: t → handlerIndex s inst = some idx → v.handlers.length < 4 → v.stopped = false → s.halted v.part = false →
    nget? s.recs id = some r → nget? s.objs v.obj = some o → (o.img.procs.getD idx {}).rated = false → v.part < 64 →
    s.freeNum v.part < 2 ^ 26 →
    let k := handleOf v.part (s.freeNum v.part)
    ∃ u : State, exec (.handlerSpawn inst) s = .next u ∧ (u.proc k).st = .new ∧ (u.proc k).isHandler = true ∧
      (u.proc k).n[2] = BitVec.ofNat 64 r.area ∧ (u.proc k).n[3] = BitVec.ofNat 64 r.handle ∧
      (u.proc k).pc = entryOf s v idx ∧ (u.inst inst).queue = t ∧ (u.inst inst).handlers = v.handlers ++ [k]) ∧
  (∀ (s : State) (k : Nat) (r : FRec) (t : List FRec), (s.proc k).ctx.isSome = true →
    ((s.proc k).st = .running ∨ (s.proc k).st = .parked) → (s.proc k).faults = r :: t →
    exec (.classCFaultDelivery k) s = .next ((s.modProc k fun p => { p with faults := t }).takeFault k r (s.proc k).pc)) ∧
  (∀ (s : State) (k : Nat), let p := s.proc k
    p.st = .dormant → p.firing.all (endReady s k) = true → s.halted (partOf k) = false →
    ∃ u : State, exec (.ratedFiring k) s = .next u ∧ (u.proc k).st = .new ∧ (u.proc k).pc = entryOf s (s.inst p.inst) p.index ∧
      (u.proc k).n[0] = p.param ∧ (u.proc k).n[1] = BitVec.ofNat 64 p.index ∧ (∀ r : Fin 8, (p.rated = true →
        (u.proc k).n[24 + r.val] = p.persist[r.val])) ∧ k ∈ (u.core p.core).queue p.prio ∧ u.mem = s.mem) ∧
  (∀ (s : State) (inst : Nat) (v : Inst), nget? s.insts inst = some v → deadlocked s inst = true → s.halted v.part = false →
    handlerIndex s inst = none →
    ∃ u : State, exec (.deadlockReport inst) s = .next u ∧ (u.inst inst).reported = true ∧
      (u.part v.part).ring = (s.part v.part).ring ++ [.deadlock inst v.report (s.entryTag inst)] ∧
      (v.areaPa ≠ 0 → v.areaPa + 4104 ≤ 2 ^ 64 → readBytes u.mem (v.areaPa + 4096) 8 =
        leBytes 8 (0xFF01 * 2 ^ 48 + min (networkProcs s inst).length 65535 * 2 ^ 32 + inst % 2 ^ 32)) ∧ u.procs = s.procs)

/-- O45: The end of a slice, the quiescence budget, a late stream and the end of the stream. SLICE_END of the running child begins quiescence where another child has the next slice and renews the slice where none has. The beginning of quiescence makes every live process of the partition STOPPED and keeps what it was. QUIESCENCE_BUDGET_EXPIRY ends step 3 when nothing is outstanding or the budget has passed, with the engine threads that still run taken into the set, and waits beyond it for a re-parent that has taken a lock. PREEMPT_LATE reports a slice's stream that has taken 100 µs. SAVE_STREAM_END: the stream of a slice or of a PREEMPT is written to the partition's save area, a slice's stream that has taken 100 µs is reported if it has not been, and the next child begins its slice; a PREEMPT completes with its image kept; a SAVE whose image is no longer than the length completes with the number of bytes stored, and with NOSPACE otherwise; a MIGRATE to a module bound to the partition over a port that is up is sent, its source destroyed, and completes OK; one that failed or has no such module completes ABORTED. -/
def Obligations.SliceEvents : Prop :=
  (∀ (s : State) (part c k : Nat), (s.part part).slice = some c → (s.part part).quies = none →
    (s.runs part = false ∨ c + (s.part part).budget.slice * 1750 ≤ s.cycle) → nextChild s part = some k →
    exec (.sliceEnd part) s = .next (if k = part then s.modPart part fun q => { q with slice := some s.cycle }
      else s.beginQuies part none .slice)) ∧
  (∀ (s : State) (part k : Nat) (why : Stop) (p : Proc), (∀ e ∈ s.txns, e.2.stage ≠ .waiting ∧ ∀ n m, e.2.op ≠ .repar n m) → nget? s.procs k = some p →
    partOf (ownerOf k) = part → p.st ≠ .exited → p.st ≠ .stopped → p.engine = none → (s.inst p.inst).stopped = false →
    let u := s.beginQuies part none why
    (u.proc k).st = .stopped ∧ (u.proc k).was = p.st ∧ u.mem = s.mem ∧ s.txns = u.txns ∧
      ∃ z, (u.part part).quies = some z ∧ z.why = why ∧ k ∈ z.procs ∧ z.since = s.cycle ∧ z.time = virtualTime s part ∧ z.saving = false) ∧
  (∀ (s : State) (part : Nat) (z : Quies), (s.part part).quies = some z → z.saving = false →
    (if s.txns.any fun e => movesNode z.procs e.2 then exec (.quiescenceBudgetExpiry part) s = .next s else
    (s.txns.filter fun e => outstanding z.procs e.2) = [] ∨ z.since + (s.part part).budget.qbudget * 1750 ≤ s.cycle →
    ∃ u : State, exec (.quiescenceBudgetExpiry part) s = .next u ∧
      ∃ y, (u.part part).quies = some { z with saving := true, saveAt := y, procs := z.procs ++ threadsOf s part z })) ∧
  (∀ (s : State) (part : Nat) (z : Quies), (s.part part).quies = some z → z.saving = true → z.why = .slice → z.late = false →
    z.saveAt + 100 * 1750 < s.cycle →
    ∃ u : State, exec (.preemptLate part) s = .next u ∧ (u.part part).ring = (s.part part).ring ++ [.preemptLate part] ∧
      (u.part part).quies = some { z with late := true } ∧
      u.mem = (if (s.part part).ringAddr = 0 then s.mem
        else writeBytes s.mem (hostKey ((s.part part).ringAddr + 64 * (s.part part).ring.length)) ((Event.preemptLate part).bytes s.time))) ∧
  (∀ (s : State) (part : Nat) (z : Quies), (s.part part).quies = some z → z.saving = true →
    let img := wholeImage s part z
    let late := if z.misses s.cycle then s.ringPart part (.preemptLate part) else s
    let u := (late.saveArea part img).startRetrains part
    (z.why = .slice → let v := u.modPart part fun q => { q with off := areaImgs img, slice := none, quies := none }
      ∀ k, nextChild v part = some k → exec (.saveStreamEnd part) s = .next (v.beginSlice k)) ∧
    (∀ e, z.why = .preempt e →
      exec (.saveStreamEnd part) s = .next ((u.withCores part fun t => t.takeImage part z (areaImgs img)).complete e .ok 0)) ∧
    (∀ e dst len, z.why = .save e → s.cmdOf e = some (.save part dst len) →
      ((s.part part).timeShared = false ∨ (s.part part).slice.isSome = true) →
      let b := imageBytes img
      (b.len ≤ len → ∃ u : State,
        exec (.saveStreamEnd part) s = .next ((u.resume part z.procs).complete e .ok (BitVec.ofNat 64 b.len)) ∧
          u.mem = (s.writeImage part dst b).mem ∧ u.txns = s.txns ∧ u.procs = s.procs ∧ u.saved = s.saved ++ [img]) ∧
      (len < b.len → exec (.saveStreamEnd part) s = .next ((s.resume part z.procs).complete e .nospace 0))) ∧
    (∀ e ok p m, z.why = .migrate e ok → s.cmdOf e = some (.migrate p m) →
      (ok = false ∨ linkTo s part m = none →
        exec (.saveStreamEnd part) s = .next ((s.resume part z.procs).complete e .aborted 0)) ∧
      (∀ key, ok = true → linkTo s part m = some key → (∀ k ∈ s.tokens, k.2.part ≠ part) →
        let q := s.part part
        let pg := movedPages s part
        let t := s.sendFab m key.remotePart (.moved key.remotePart s.moduleId part pg.1 pg.2 (imageBytes img).cells
          (movedRun s part img) (movedNodes s part) (movedGrans s part) q.vtbase q.vtscale q.vtoff z.time)
        exec (.saveStreamEnd part) s =
          .next (((t.modPart part fun q => { q with quies := none }).destroyPart part).complete e .ok 0))))

/-- O46: Partition commands: create, split, destroy, preempt, save, restore, migrate. A command that may begin on PF0, with reserved fields zero, outside recovery and on an unlocked interface, is consumed and has its effect: PARTCREATE and PARTSPLIT make a partition of the mask and the normalised budget; PARTDESTROY removes it and zeroes its pages; PREEMPT, SAVE and MIGRATE begin a stop; RESTORE of the instances that PREEMPT stopped, to the clusters they stood on, takes their images and resumes them. An entry that completes carries its status and result, and they stand in its slot of host memory. A reserved field that is not zero completes INVALID; every command but QUERY completes RECOVERY in recovery. -/
def Obligations.PartitionCommands : Prop :=
  (∀ (s : State) (e : EntryRef) (st : Status) (w : Word) (x : Entry), s.entry? e = some x →
    (s.complete e st w).entry? e = some { x with status := st, result := w } ∧ (s.complete e st w).parts = s.parts ∧
      readBytes (s.complete e st w).mem (hostKey (x.slot + 6)) 2 = leBytes 2 st.code ∧
      readBytes (s.complete e st w).mem (hostKey (x.slot + 8)) 8 = leBytes 8 w.toNat) ∧
  (∀ (s : State) (e : EntryRef) (x : Entry), s.nextEntry e = some x → x.cmd = .partdestroy 0 →
    (x.reservedZero = false → ∃ u : State, exec (.partdestroy e) s = .next u ∧ (u.entry? e).map Entry.status = some .invalid ∧
      u.parts = s.parts) ∧
    (x.reservedZero = true → s.recovery = true → exec (.partdestroy e) s = .next ((s.beginEntry e).complete e .recovery 0))) ∧
  (∀ (s : State) (e : EntryRef) (x : Entry), CmdReady s e x → e.fn = 0 →
    (∀ mask addr queues ring, x.cmd = .partcreate mask addr queues ring → mask ≠ 0 → mask &&& ~~~s.flash.config.clusters = 0 →
      (∀ q ∈ s.parts, q.2.level = 1 → q.2.clusters &&& mask = 0) →
      exec (.partcreate e) s = .next ((s.beginEntry e).makePart e 1 none false mask ((s.readBudget addr).norm s.time) queues ring)) ∧
    (∀ p mask ts addr queues ring, x.cmd = .partsplit p mask ts addr queues ring → s.partLive p = true → lockedPart s p = false →
      (s.part p).level = 1 → mask ≠ 0 → mask &&& ~~~(s.part p).clusters = 0 → placedOn s p mask = false →
      (∀ c ∈ s.parts, c.2.parent = some p → c.2.clusters &&& mask ≠ 0 → ts = true ∧ c.2.timeShared = true) →
      exec (.partsplit e) s = .next ((s.beginEntry e).makePart e 2 (some p) ts mask ((s.readBudget addr).norm s.time) queues ring)) ∧
    (∀ p, x.cmd = .partdestroy p → s.partLive p = true → (∀ c ∈ s.parts, c.2.parent ≠ some p) → (s.part p).slice = none →
      ∃ u : State, exec (.partdestroy e) s = .next u ∧ nget? u.parts p = none ∧ (∀ k ∈ u.procs, partOf k.1 ≠ p) ∧
        (∀ t ∈ u.txns, t.2.part ≠ p) ∧
        ∀ g ∈ (s.part p).resv ++ (s.part p).grants.map Prod.snd, ∀ a, a < 2 ^ 64 → g.1 * 2 ^ 16 ≤ a → a < (g.1 + g.2) * 2 ^ 16 →
          readByte u.mem a = 0)) ∧
  (∀ (s : State) (e : EntryRef) (level : Nat) (parent : Option Nat) (ts : Bool) (mask : BitVec 64) (b : Budget) (queues ring p : Nat)
    (q : Part), parent ≠ some p → nget? s.parts p = none → nget? (s.makePart e level parent ts mask b queues ring).parts p = some q →
    q.level = level ∧ q.parent = parent ∧ q.timeShared = ts ∧ q.clusters = mask ∧ q.budget = b ∧ q.queues = queues ∧ q.ringAddr = ring ∧
      q.vtbase = b.vtbase ∧ q.vtscale = b.vtscale ∧ q.vtfloor = b.vtfloor) ∧
  (∀ (s : State) (e : EntryRef) (x : Entry) (p : Nat), CmdReady s e x → e.fn = 0 → s.partLive p = true → partWaits s p = false →
    (x.cmd = .preempt p none → exec (.preempt e) s = .next ((s.beginEntry e).beginQuies p none (.preempt e))) ∧
    (∀ i, x.cmd = .preempt p (some i) → liveInst s p i = true → (s.inst i).stopped = false →
      exec (.preempt e) s = .next ((s.beginEntry e).beginQuies p (some i) (.preempt e))) ∧
    (∀ dst len, x.cmd = .save p dst len → dst / 2 ^ 60 = 0 ∨ dst / 2 ^ 60 = 6 → lockedPart s p = false →
      exec (.save e) s = .next ((s.beginEntry e).beginQuies p none (.save e))) ∧
    (∀ m ok, x.cmd = .migrate p m → lockedPart s p = false → (∀ v ∈ s.motions, v.2.part ≠ p) → ∃ u : State,
      exec (.migrate e ok) s = .next (u.beginQuies p none (.migrate e (ok && (linkTo s p m).isSome))) ∧
      u = (s.beginEntry e).modPart p fun q => { q with migrated := true }) ∧
    (x.cmd = .restore 0 0 → x.part = p → lockedPart s p = false → (s.part p).timeShared = false → (s.part p).images ≠ [] →
      (∀ g ∈ (s.part p).images, g.cores = []) →
      let l := (preempted s p).map Prod.fst
      let insts := ((preempted s p).map fun k => k.2.inst).eraseDups
      (placeSets (restOf s l insts) (fun _ c => [c].filter (ownClusters s p).contains) (byCluster (setsOf s l insts)) 0 []).isSome = true →
      ∃ u : State, (let t := (u.resume p l).complete e .ok (BitVec.ofNat 64 p)
          exec (.restore e) s = .next (if t.runs p then t.joinRotation p else t)) ∧ (u.part p).images = [] ∧
        ∀ v ∈ u.insts, v.2.part = p → v.2.stopped = false))

/-- O47: NETLOAD, LAUNCH, REPLAY, SIGNAL and the end of an instance. NETLOAD, of an image whose bytes can be read, rejects magic, version, reserved fields and types in that order with RESULT 1 to 4 and pages or tokens that are not there with NOSPACE and RESULT 5 or 6, and otherwise makes a network object whose number is RESULT. LAUNCH and REPLAY of an object with a running instance wait behind it, at most four, else BUSY; of an object that none runs, where the processes can be placed and the tokens, the scratchpad, the phase slots and the heap are there, they start an instance. SIGNAL puts eight bytes at the receive end of a channel bound to the queue, or takes one arrival of a phase slot at a destination of its own; one at a counter of zero is INVALID. INSTANCE_END of an instance whose processes have all ended removes it, leaves the object idle, completes its entry with OK and the instance number, and records the end with the flags and the entry's tag. -/
def Obligations.NetworkCommands : Prop :=
  (∀ (s : State) (e : EntryRef) (x : Entry) (addr len : Nat) (bs : List Byte) (img : NetImage), CmdReady s e x → e.fn = 0 →
    x.cmd = .netload addr len → s.partLive (targetPart e x) = true → s.readArg (targetPart e x) addr len = some bs →
    let h := readHeader bs
    let p := targetPart e x
    (h.magic ≠ 0x394D494E → exec (.netload ⟨e, img⟩) s = .next ((s.beginEntry e).complete e .invalid 1)) ∧
    (h.magic = 0x394D494E → h.version ≠ 1 → exec (.netload ⟨e, img⟩) s = .next ((s.beginEntry e).complete e .invalid 2)) ∧
    (h.magic = 0x394D494E → h.version = 1 → h.reserved ≠ 0 →
      exec (.netload ⟨e, img⟩) s = .next ((s.beginEntry e).complete e .invalid 3)) ∧
    (headerOk bs = true → imgReads bs img = true →
      (img.reservedZero = false → exec (.netload ⟨e, img⟩) s = .next ((s.beginEntry e).complete e .invalid 3)) ∧
      (img.reservedZero = true → matchTypes s p img = none →
        exec (.netload ⟨e, img⟩) s = .next ((s.beginEntry e).complete e .invalid 4)) ∧
      (∀ tys, img.reservedZero = true → matchTypes s p img = some tys → (∀ c ∈ img.chans, c.ty < tys.length) →
        (∀ l ∈ img.levels, l.depth ≤ 8) → netBad img = false →
        ((s.beginEntry e).placeImage p img = none → exec (.netload ⟨e, img⟩) s = .next ((s.beginEntry e).complete e .nospace 5)) ∧
        (((s.beginEntry e).placeImage p img).isSome = true → (s.part p).budget.tokcore < img.power →
          exec (.netload ⟨e, img⟩) s = .next ((s.beginEntry e).complete e .nospace 6)) ∧
        (((s.beginEntry e).placeImage p img).isSome = true → img.power ≤ (s.part p).budget.tokcore →
          ∃ (t u : State) (code ro data area id : Nat) (frames : List Nat) (o : NetObj),
            (s.beginEntry e).placeImage p img = some (t, code, ro, data, area, frames) ∧
            exec (.netload ⟨e, img⟩) s = .next (u.complete e .ok (BitVec.ofNat 64 id)) ∧
            nget? u.objs id = some o ∧ o.img = img ∧ o.part = p ∧ o.codeVa = code ∧ o.roVa = ro ∧ o.dataVa = data ∧ o.area = area ∧
            o.frames = frames ∧ o.tys = tys ∧ o.running = none ∧ o.waiting = [] ∧ o.block = paramBlock { o with block := [] } ∧
            u.mem = t.mem)))) ∧
  (∀ (s : State) (e : EntryRef) (x : Entry) (id : Nat) (o : NetObj) (place : List Nat), CmdReady s e x →
    nget? s.objs id = some o → o.part = targetPart e x → (s.part o.part).timeShared = false →
    let runs (i : Instr) (w : Waiting) (block : List Word) : Prop :=
      (o.running.isSome = true → 4 ≤ o.waiting.length → exec i s = .next ((s.beginEntry e).complete e .busy 0)) ∧
      (o.running.isSome = true → o.waiting.length < 4 → exec i s =
        .next { s.beginEntry e with objs := nset s.objs id { o with waiting := o.waiting ++ [w] } }) ∧
      (o.running = none → o.waiting = [] →
        let a : State := { s.beginEntry e with objs := nset s.objs id { o with waiting := [], block := block } }
        ∀ (at_ : List Nat) (base heap : Nat), choosePlace a o.part o.img w.place = some at_ →
          let cores := ((startable o.img).map fun p => at_.getD p 0).eraseDups
          (∀ c ∈ cores, (s.core c).grant + o.img.power ≤ (s.part o.part).budget.tokcore) →
          tokensUsed s o.part + o.img.power * cores.length ≤ (s.part o.part).budget.tokens →
          spadOffset a o.part o.img cores = some base → phaseFails a o.part o.img = none →
          (if o.img.heapPg = 0 then some 0 else heapRun a o.part (if o.img.heapT1 then 1 else 0) o.img.heapPg) = some heap →
          ∃ (t : State) (v : Inst), exec i s = .next (if t.runs o.part then t.joinRotation o.part else t) ∧
            nget? t.insts s.nextId = some v ∧ v.part = o.part ∧ v.obj = id ∧ v.entry = some e ∧ v.spadBase = base ∧
            v.heapBase = heap * 2 ^ 16 ∧ v.tokens = cores.map (fun c => (c, o.img.power)) ∧
            (nget? t.objs id).bind NetObj.running = some s.nextId)
    (∀ addr, x.cmd = .launch id addr →
      let n := 6 * o.img.procs.length
      let w (b : Option (List Word)) : Waiting :=
        { entry := e, patch := [], block := b, place := place, mgr := e.fn == 0 || e.q == 0 }
      (addr = 0 → runs (.launch e place) (w none) o.block) ∧
      (∀ bs, addr ≠ 0 → s.readArg (targetPart e x) addr (8 * n) = some bs →
        runs (.launch e place) (w (some ((wordsOf bs n).map (BitVec.ofNat 64)))) o.block)) ∧
    (∀ addr count bs, x.cmd = .replay id addr count → s.readArg (targetPart e x) addr (16 * count) = some bs →
      let patch := (List.range count).map fun j => (recWord bs (2 * j), BitVec.ofNat 64 (recWord bs (2 * j + 1)))
      (∀ p ∈ patch, p.1 % 8 = 0 ∧ p.1 < 48 * o.img.procs.length) →
      runs (.replay e place) { entry := e, patch := patch, place := place, mgr := e.fn == 0 || e.q == 0 } (patchBlock o.block patch))) ∧
  (∀ (s : State) (e : EntryRef) (x : Entry), CmdReady s e x →
    (∀ inst (h : W32) (v : Word) (ch : Chan), x.cmd = .signalHost inst h v → liveInst s (targetPart e x) inst = true →
      s.chan? (targetPart e x) (h.toNat % 2 ^ 24) = some ch → ch.bkind = 3 → ch.rxopen = true → bits h.toNat 30 24 = ch.ty →
      e.fn = fnOf (targetPart e x) → ch.ep[0].toNat = e.q →
      let n := tyBytes (chanTy s (targetPart e x) ch)
      exec (.signalHostQueue e) s = .next (((s.beginEntry e).inject (targetPart e x) (h.toNat % 2 ^ 24)
        ((leBytes 8 v.toNat ++ List.replicate n 0).take n) []
        (BitVec.ofNat 64 ((s.queue (queueKey e.fn e.q)).cls * 2 ^ 12))).complete e .ok 0)) ∧
    (∀ inst slot dest f d, x.cmd = .signalPhase inst slot dest → s.phase? (targetPart e x) slot = some f →
      liveInst s (targetPart e x) inst = true → f.holder = inst → f.dests[dest]? = some d →
      ownDest s (targetPart e x) d = true →
      (d.counter ≠ 0 → exec (.signalPhaseArrival e) s =
        .next ((((s.beginEntry e).setPhase (targetPart e x) slot
          { f.count dest (fun n => n - 1) with clock := f.clock.join Clock.zero }).riseLine (targetPart e x) slot).complete e .ok 0)) ∧
      (d.counter = 0 → exec (.signalPhaseArrival e) s = .next ((s.beginEntry e).invalid e)))) ∧
  (∀ (s : State) (inst : Nat) (v : Inst) (o : NetObj) (e : EntryRef) (x : Entry), nget? s.insts inst = some v → v.stopped = false →
    v.killed = false → v.queue = [] → s.halted v.part = false → (∀ p ∈ s.procs, p.2.inst = inst → p.2.st = .exited) →
    (∀ t ∈ s.txns, t.2.inst ≠ inst) → nget? s.objs v.obj = some o → o.waiting = [] → v.entry = some e → s.entry? e = some x →
    let fl := (s.procs.filter fun p => p.2.inst == inst && p.2.engine.isNone).foldl (fun f p => f ||| p.2.flags) v.flagWord
    ∃ u : State, exec (.instanceEnd inst) s = .next u ∧ nget? u.insts inst = none ∧
      nget? u.objs v.obj = some { o with running := none } ∧
      u.entry? e = some { x with status := .ok, result := BitVec.ofNat 64 inst } ∧
      (u.part v.part).ring = (s.part v.part).ring ++ [.instanceEnd inst fl x.tag])

/-- O48: KEYSET, TIMESET, TIMEADJ and QUERY. KEYSET of kind 0 on a partition without pages of its own sets the key of its slot and clears its areas; a key that does not unwrap is BADSIG. KEYSET of kind 1 sets one entry of the key table to the key, the remote module and partition and the session it names, and sends what a key near its last count held back. TIMESET sets the device counter and no partition's virtual time goes back. TIMEADJ takes a positive step at once and leaves a negative one to be slewed by; an offset beyond 100 ppm is INVALID. QUERY answers each selector, in recovery too: selector 0 with the ROM revision, 3 with the partition's sum of misses, 2 with bit 63 for the lock of the clock; where the spec gives RESULT no value it is free; what is not there is NOTFOUND, and a selector above 5 INVALID. -/
def Obligations.DeviceCommands : Prop :=
  (∀ (s : State) (e : EntryRef) (x : Entry), CmdReady s e x → (e.fn = 0 ∨ e.q = 0) →
    (e.fn = 0 → lockedPart s (targetPart e x) = false) →
    (∀ slot addr key, x.cmd = .keysetMemory slot addr → s.partLive (targetPart e x) = true →
      slot = (s.part (targetPart e x)).budget.keyslot → ownPages s (targetPart e x) = false → (s.fn e.fn).session ≠ none →
      exec (.keysetMemory ⟨e, key⟩) s = .next (match key with
        | none => (s.beginEntry e).complete e .badsig 0
        | some k =>
          let a := (s.beginEntry e).clearAreas (targetPart e x)
          ({ a with memKeys := nset a.memKeys slot k }).complete e .ok 0)) ∧
    (∀ slot addr key m rp ses, x.cmd = .keysetBuneam slot addr → slot < 256 → s.partLive (targetPart e x) = true →
      exec (.keysetBuneam ⟨e, key, m, rp, ses⟩) s = .next ((({ s.beginEntry e with
        keys := nset s.keys slot { localPart := targetPart e x, module := m, remotePart := rp, key := key, session := ses } } :
          State).flushPort (fabPort m rp)).complete e .ok 0))) ∧
  (∀ (s : State) (e : EntryRef) (x : Entry), CmdReady s e x → e.fn = 0 →
    (∀ t, x.cmd = .timeset t → ∃ u : State, exec (.timeset e) s = .next u ∧ u.time = t ∧
      ∀ p q, nget? s.parts p = some q → (u.part p).vtfloor = virtualTime s p ∧ (virtualTime s p).toNat ≤ (virtualTime u p).toNat) ∧
    (∀ ppb step, x.cmd = .timeadj ppb step →
      (-100000 ≤ ppb → ppb ≤ 100000 → ∃ u : State, exec (.timeadj e) s = .next u ∧ u.timePpb = ppb ∧
        (0 ≤ step → u.time = s.time + BitVec.ofInt 64 step ∧ u.timeSlew = s.timeSlew) ∧
        (step < 0 → u.time = s.time ∧ u.timeSlew = s.timeSlew + step * 7000000000)) ∧
      (ppb < -100000 ∨ 100000 < ppb → ∃ w, exec (.timeadj e) s = .next ((s.beginEntry e).draw.1.complete e .invalid w)))) ∧
  (∀ (s : State) (e : EntryRef) (x : Entry), s.nextEntry e = some x → x.reservedZero = true →
    let free (i : Instr) : Prop := ∃ w, exec i s = .next ((s.beginEntry e).draw.1.complete e .ok w)
    let absent (i : Instr) : Prop := exec i s = .next ((s.beginEntry e).complete e .notfound 0)
    (∀ a, x.cmd = .query 0 a → exec (.queryRevision e) s = .next ((s.beginEntry e).complete e .ok (s.romRev.setWidth 64))) ∧
    (∀ a, x.cmd = .query 1 a → free (.queryPatchList e)) ∧
    (∀ a, x.cmd = .query 2 a → ∃ w : Word, exec (.queryCapacity e) s = .next ((s.beginEntry e).draw.1.complete e .ok w) ∧
      w.getLsbD 63 = s.timeLock) ∧
    (∀ a, x.cmd = .query 3 a → if s.partLive (targetPart e x) then
        exec (.queryBudgets e) s = .next ((s.beginEntry e).complete e .ok (BitVec.ofNat 64 (missSum (s.beginEntry e) (targetPart e x))))
      else absent (.queryBudgets e)) ∧
    (∀ a, x.cmd = .query 4 a →
      if liveInst s (targetPart e x) a then free (.queryInstanceState e) else absent (.queryInstanceState e)) ∧
    (∀ a, x.cmd = .query 5 a →
      if queueExists s (fnOf (targetPart e x)) a then free (.queryQueueState e) else absent (.queryQueueState e)) ∧
    (∀ k a, 5 < k → x.cmd = .query k a → exec (.queryQueueState e) s = .next ((s.beginEntry e).invalid e)))

/-- O49: Queue registers and slots, DOE objects, the TDISP interface, attestation and a link key. A write of a notify register moves the tail modulo the ring and marks a queue with no slot pending; ENABLE from 0 to 1 sets the head to 0; a disabled queue holds no slot; BASE and the fields are taken while ENABLE is 0. A slot is released where its queue is empty, or used up while another is pending, and bound to the next pending queue. DOE serves discovery, IDE keys and sessions; LOCK, START and STOP move the interface; a report holds the budgets; ATTEST uses one leaf and measures the ROM, its image, the configuration, the repairs, the key and its certificate. A new link key, of a port the configuration enables and, where the port is down, of a new session, counts flits from zero, brings the port up and lets the flits that wait go. -/
def Obligations.HostAndSecurityEvents : Prop :=
  (∀ (s : State) (fn q : Nat) (v : BitVec 64), queueExists s fn q = true →
    let k := queueKey fn q
    let r := s.queue k
    exec (.notifyWrite fn q v) s = .next (s.setQueue k { r with
      tail := v.toNat % 2 ^ 16 % 2 ^ r.log2size
      pending := r.pending || !r.bound }) ∧
    (r.enable = false → ∃ u : State, exec (.queueEnable fn q v) s = .next u ∧ (u.queue k).enable = true ∧ (u.queue k).head = 0 ∧
      (u.queue k).base = r.base ∧ (u.queue k).cls = v.toNat / 32 % 4 ∧
      (u.queue k).log2size = if 6 ≤ v.toNat % 32 ∧ v.toNat % 32 ≤ 16 then v.toNat % 32 else r.log2size) ∧
    exec (.queueDisable fn q) s = .next (s.setQueue k { r with enable := false, bound := false }) ∧
    (r.enable = false →
      exec (.hostRegisterWrite fn (0x10000 + 16 * q) v) s =
        .next (s.setQueue k { r with base := BitVec.ofNat 64 (v.toNat / 64 * 64) }) ∧
      ∃ u : State, exec (.hostRegisterWrite fn (0x10008 + 16 * q) v) s = .next u ∧ (u.queue k).cls = v.toNat / 32 % 4 ∧
        (u.queue k).enable = false ∧ (u.queue k).base = r.base)) ∧
  (∀ (s : State) (slot k : Nat), (boundQueues s)[slot]? = some k → (s.queue k).bound = true →
    ((s.queue k).head = (s.queue k).tail ∨ othersPending s k = true ∧
      (64 ≤ (s.queue k).consumed ∨ (s.queue k).boundAt + 20 * 1750 ≤ s.cycle)) →
    exec (.queueSlotRelease slot) s = .next (s.setQueue k { s.queue k with
      bound := false
      pending := (s.queue k).pending || decide ((s.queue k).head ≠ (s.queue k).tail) })) ∧
  (∀ (s : State) (slot k : Nat), slot < 64 → (boundQueues s).length ≤ slot → nextPending s = some k →
    ∃ u : State, exec (.queueSlotBind slot) s = .next u ∧ (u.queue k).bound = true ∧ (u.queue k).pending = false ∧
      (u.queue k).consumed = 0 ∧ (u.queue k).boundAt = s.cycle ∧ u.lastBound = k) ∧
  (∀ (s : State) (fn key : Nat), serves s fn = true →
    exec (.doeDiscovery fn) s = .next (s.setFn fn { s.fn fn with discovered := true }) ∧
    exec (.ideKm fn key) s = .next (s.setFn fn { s.fn fn with ideKey := some key }) ∧
    exec (.securedSpdmSession fn key) s = .next (s.setFn fn { s.fn fn with session := some key, algs := spdmAlgs }) ∧
    (fn ≠ 0 →
      ((s.fn fn).tdisp = .unlocked → exec (.lockInterface fn) s = .next (s.setFn fn { s.fn fn with tdisp := .locked })) ∧
      ((s.fn fn).tdisp = .locked → exec (.startInterface fn) s = .next (s.setFn fn { s.fn fn with tdisp := .run })) ∧
      exec (.stopInterface fn) s = .next (s.setFn fn { s.fn fn with tdisp := .unlocked }) ∧
      ((s.fn fn).tdisp = .locked ∨ (s.fn fn).tdisp = .run →
        let b := (s.part (fn - 1)).budget
        exec (.getDeviceInterfaceReport fn) s =
          .next (s.setFn fn { s.fn fn with report := some { budget := b, keyslot := b.keyslot } })))) ∧
  (∀ (s : State) (fn : Nat), hasMailbox s fn = true → s.lowerUsed < 32768 →
    ∃ (u : State) (m : Meas), exec (.attest fn) s = .next u ∧ (u.fn fn).measured = some m ∧ m.leaf = s.lowerUsed ∧
      m.rom = s.romRev ∧ m.image = s.romImage ∧ m.config = s.flash.config ∧ m.repairs = s.flash.repairs ∧
      m.key = Config.identityKey s.seed ∧ m.cert = s.flash.cert ∧ m.iface.isSome = decide (fn ≠ 0) ∧ u.lowerUsed = s.lowerUsed + 1) ∧
  (∀ (s : State) (port session : Nat), port < 24 → s.flash.config.ports.getLsbD port = true →
    ((s.port port).down = true → session ≠ (s.port port).session) →
    ∃ u : State, exec (.linkKeyReplacement ⟨port, session⟩) s = .next (u.flushPort port) ∧ (u.port port).key = some s.nextId ∧
      (u.port port).session = session ∧ (u.port port).sent = 0 ∧ (u.port port).down = false ∧
      (u.port port).queue = (s.port port).queue)

/-- O50: Walks, dirty logs, shoot-downs, epochs and the motion of a page. PAGE_WALK enters the walked page in the core's TLB; a leaf that names a page the partition does not own is logged. DIRTY_LOG_MERGE at 128 entries empties the log. SHOOT_DOWN_COMPLETE, after the issuer's earlier accesses, drops the page from every TLB; then each logged access of the page is tried again, after the last one the held reads, and when these have been tried the source of a finished motion goes back and 0 is delivered. EPOCH_END halves the counters of the partition's pages alone and sets the next epoch. MOTION_START takes a beryl engine and a destination page and sets MOT in the leaf. MOTION_LINE_COPY copies the least line not yet copied; with the last one the motion is forwarding and the shoot-down of its page is on its way. MIGRATION_ABORT removes a motion in COPYING, at a destination error or 1 ms after it began, and records it. -/
def Obligations.PageEvents : Prop :=
  (∀ (s : State) (core k vpn : Nat) (e : TlbEnt), ((s.core core).ctxs.findSome? fun x => x.2.run) = some k →
    tlbFind (s.core core).tlb (partOf k) vpn = none → tlbFind (s.cluster (clusterOf core)).tlb (partOf k) vpn = none →
    s.walk (partOf k) vpn = .ok e → s.unitBusy none core (partOf k) vpn = false →
    ∃ u : State, exec (.pageWalk core vpn) s = .next u ∧ tlbFind (u.core core).tlb (partOf k) vpn = some e ∧ u.mem = s.mem) ∧
  (∀ (s : State) (core k vpn f : Nat), ((s.core core).ctxs.findSome? fun x => x.2.run) = some k →
    tlbFind (s.core core).tlb (partOf k) vpn = none → tlbFind (s.cluster (clusterOf core)).tlb (partOf k) vpn = none →
    s.walk (partOf k) vpn = .error (.foreign f) → s.unitBusy none core (partOf k) vpn = false →
    ∃ u : State, exec (.pageWalk core vpn) s = .next (u.ringDev (.isolation (partOf k) f)) ∧ u.cores = s.cores ∧ u.mem = s.mem) ∧
  (∀ (s : State) (core : Nat), 128 ≤ (s.core core).dirtyLog.length →
    ∃ u : State, exec (.dirtyLogMerge core) s = .next u ∧ (u.core core).dirtyLog = [] ∧ u.procs = s.procs) ∧
  (∀ (s : State) (part vpn : Nat), let u := s.dropTlbs part vpn
    (∀ c ∈ u.cores, ∀ t ∈ c.2.tlb, entCovers part vpn t = false) ∧ (∀ c ∈ u.clusters, ∀ t ∈ c.2.tlb, entCovers part vpn t = false) ∧
    (∀ c ∈ u.engines, ∀ t ∈ c.2.tlb, entCovers part vpn t = false)) ∧
  (∀ (s : State) (t vpn : Nat) (deny : Bool) (x : Txn), nget? s.txns t = some x → x.op = .shoot vpn deny → x.stage = .sent →
    (x.started = false → s.earlierDone t x = true →
      exec (.shootDownComplete t) s =
        .next ((s.dropTlbs x.part vpn).setTxn t { x with started := true })) ∧
    (x.started = true → (∀ u ∈ x.marks, ∀ y, nget? s.txns u = some y → y.retrying = false) →
      (∀ v e, (s.logEnts.find? fun e => e.2.part == x.part && s.shotCovers x.part vpn e.2.vpn && !x.marks.contains e.2.txn) =
          some (v, e) → s.walkBusy x.part e.vpn = false →
        exec (.shootDownComplete t) s = .next ((s.setTxn t { x with marks := x.marks ++ [e.txn] }).retryEnt v e deny)) ∧
      (s.walkBusy x.part vpn = false →
        (∀ e ∈ s.logEnts, e.2.part ≠ x.part ∨ s.shotCovers x.part vpn e.2.vpn = false ∨ e.2.txn ∈ x.marks) →
        let held := s.heldReads x.part vpn
        ((∃ h ∈ held, h ∉ x.marks) → exec (.shootDownComplete t) s =
          .next ((s.setTxn t { x with marks := x.marks ++ held }).retryHeld x.part vpn deny)) ∧
        (x.issuer ≠ 0 → (∀ h ∈ held, h ∈ x.marks) → exec (.shootDownComplete t) s =
          .next (((s.restMotion x.part vpn).setTxn t { x with stage := .back { vals := [0], kept := [0] } }).arrive t))))) ∧
  (∀ (s : State) (part : Nat) (q : Part), nget? s.parts part = some q → q.epochAt ≤ s.cycle → q.migpol.getLsbD 0 = false →
    (s.hot.map Prod.fst).Nodup →
    ∃ u : State, exec (.epochEnd part) s = .next u ∧ (∀ f, nget 0 u.hot f = if s.owns part f then nget 0 s.hot f / 2 else nget 0 s.hot f) ∧
      (u.part part).epochAt = s.cycle + bits q.migpol.toNat 47 32 * 1750 ∧ u.mem = s.mem) ∧
  (∀ (s : State) (id k f eng : Nat) (m : Motion) (e : TlbEnt), s.motions = [(id, m)] → m.st = .queued → s.walk m.part m.vpn = .ok e →
    e.large = 0 → bits (s.pte e.leaf) 56 56 = 0 → frameTier s e.frame ≠ m.tier →
    s.berylOf m.part e.frame = some eng → s.destOf m.part e.frame m.tier m.any m.stack = some k →
    (s.pickPage m.part m.tier k).2 = some f → s.walkBusy m.part m.vpn = false → (s.part m.part).migrated = false →
    s.heapPage e.frame = false →
    ∃ u : State, exec (.motionStart m.part) s = .next u ∧ nget? u.motions id = some { m with
        src := e.frame
        dst := f
        leaf := e.leaf
        st := .copying
        bitmap := 0
        eng := eng
        began := s.cycle } ∧
      readByte u.mem (s.live e.leaf + 6) = readByte s.mem (s.live e.leaf + 6) ||| 0x40 ∧
      ∀ a, a ≠ s.live e.leaf + 6 → readByte u.mem a = readByte s.mem a) ∧
  (∀ (s : State) (id i : Nat) (m : Motion), nget? s.motions id = some m → m.st = .copying → nextLine m.bitmap = some i →
    s.memBusy (m.src * 2 ^ 16 + 128 * i) = false → s.memBusy (m.dst * 2 ^ 16 + 128 * i) = false →
    s.badAt (m.src * 2 ^ 16 + 128 * i) = false → lostPart s [{ at_ := .mem (m.dst * 2 ^ 16 + 128 * i), len := 128 }] = none →
    let b := m.bitmap ||| (1#512 <<< i)
    (nextLine b ≠ none → ∃ u : State, exec (.motionLineCopy id) s = .next u ∧
      u.mem = writeBytes s.mem (m.dst * 2 ^ 16 + 128 * i) (readBytes s.mem (m.src * 2 ^ 16 + 128 * i) 128) ∧
      ∃ d, nget? u.motions id = some { m with bitmap := b, due := d }) ∧
    (nextLine b = none → (∀ c ∈ s.clusters, ∀ a ∈ c.2.monitors, a.key / 2 ^ 16 ≠ m.src) →
      ∃ u : State, exec (.motionLineCopy id) s = .next u ∧
      (nget? u.motions id).map Motion.st = some .forwarding ∧
      (nget? u.txns s.nextTxn).map Txn.op = some (.shoot m.vpn false))) ∧
  (∀ (s : State) (id : Nat) (m : Motion), nget? s.motions id = some m → m.st = .copying →
    (m.began + 1750000 ≤ s.cycle → exec (.migrationAbort id .budget) s = .next (s.abortMotion id m .budget)) ∧
    exec (.migrationAbort id .destError) s = .next (s.abortMotion id m .destError) ∧
    ∀ c, (s.part m.part).mighand.toNat % 2 ^ 32 = 0 → nget? (s.abortMotion id m c).motions id = none ∧
      ((s.abortMotion id m c).part m.part).ring = (s.part m.part).ring ++ [.migration (s.abortBytes m c)])

/-- O51: Packets on the torus: injection, arbitration, multicast and retransmission. PACKET_INJECT of a new packet whose rings keep a buffer free puts it at the local input. ROUTER_GRANT passes the packet of the first requesting input after the one served last: a unicast is delivered, or travels on the link to the neighbour. TORUS_FLIT_RECEIVE takes the next packet of the link to the input, and sends one that fails its check again. MULTICAST_RESERVE takes all branches together where each is free and no other input has a packet. MULTICAST_URGENT marks a multicast that has waited 64 flit times. -/
def Obligations.TorusEvents : Prop :=
  (∀ (s : State) (node : Nat) (p : Packet), node < 64 → p.src = node → p.dests ≠ [] → (∀ d ∈ p.dests, d < 64) →
    p.dests.eraseDups = p.dests → p.id ∉ packetIds s → (∀ o ∈ branches node p, mayEnter s node .loc o = true) →
    ∃ u : State, exec (.packetInject node p) s = .next u ∧ (u.router node).input .loc = (s.router node).input .loc ++
      [{ pkt := p, since := s.cycle, order := (s.router node).arrivals }]) ∧
  (∀ (s : State) (node : Nat) (out inp : Port) (w : Waiter) (t : List Waiter), (s.router node).input inp = w :: t →
    w.reserved = [] → (offerOrder (s.router node) out).find? (requests s node out) = some inp →
    ∃ u : State, exec (.routerGrant node out) s = .next u ∧ (u.router node).input inp = t ∧
      nget? (u.router node).last (portCode out) = some (portCode inp) ∧
      (out = .loc → (u.router node).delivered = (s.router node).delivered ++ [w.pkt.id]) ∧
      (out ≠ .loc → (u.router (neighbour node out)).link (oppositePort out) =
        (s.router (neighbour node out)).link (oppositePort out) ++ [branchOf w.pkt node out])) ∧
  (∀ (s : State) (node : Nat) (inp : Port) (p : Packet) (t : List Packet), (s.router node).link inp = p :: t →
    (∃ u : State, exec (.torusFlitReceive node inp true) s = .next u ∧ (u.router node).link inp = t ∧
      ∃ w : Waiter, (u.router node).input inp = (s.router node).input inp ++ [w] ∧ w.pkt = p) ∧
    ∃ u : State, exec (.torusFlitReceive node inp false) s = .next u ∧ (u.router node).link inp = p :: t ∧
      (u.router node).retransmits = (s.router node).retransmits + 1) ∧
  (∀ (s : State) (node : Nat) (inp : Port) (w : Waiter) (t : List Waiter), (s.router node).input inp = w :: t → 1 < w.pkt.dests.length →
    w.reserved = [] →
    ((∀ o ∈ branches node w.pkt, reservedBy (s.router node) o = none ∧ mayEnter s node inp o = true) →
      (∀ p, p ≠ inp → ((s.router node).input p).head? = none) →
      ∃ u : State, exec (.multicastReserve node inp) s = .next u ∧
        (u.router node).input inp = { w with reserved := branches node w.pkt, urgent := false } :: t) ∧
    (w.urgent = false → w.since + 64 * Config.flitTime ≤ s.cycle →
      ∃ u : State, exec (.multicastUrgent node inp) s = .next u ∧ (u.router node).input inp = { w with urgent := true } :: t)) ∧
  (∀ a b : Nat, a < 64 → b < 64 → a ≠ b → ∃ o, nextPort a b = o ∧ o ≠ .loc ∧
    (a % 8 ≠ b % 8 → o = .xp ∨ o = .xm) ∧ (a % 8 = b % 8 → o = .yp ∨ o = .ym))

/-- O52: Buneam flits, lanes, rebinding and the CXL ports. A flit in sequence that passes CRC and MAC and whose key slot fits its pair of partitions is delivered and the sequence number advances; one that fails its CRC, or its MAC once, is answered by a negative acknowledgement, and a second MAC failure of the same flit takes the port down. BUNEAM_NACK resends from the named flit. PTP_EVENT_MESSAGE latches the counter and disciplines the clock. A spare lane is used once, and without one the port goes to half rate. FIRMWARE_CHANNEL_REBIND binds a channel whose port is down to a process. A CXL port retrains at most three times and is then lost, a read under way to it failing. -/
def Obligations.LinkEvents : Prop :=
  (∀ (s : State) (port : Nat) (f : Flit), port < 24 → (s.port port).down = false → f.seq = (s.port port).rxSeq →
    let p := s.port port
    (f.crcOk = false → exec (.buneamFlitReceive port f) s = .next (s.setPort port { p with nacks := p.nacks + 1 })) ∧
    (f.crcOk = true → macGood s port f = true → slotBound s f = true → exec (.buneamFlitReceive port f) s =
      .next (((s.setPort port { p with rxSeq := p.rxSeq + 1, macFail := none }).deliverFab port f.msg).pumpAll.wakeAlts)) ∧
    (f.crcOk = true → (macGood s port f = false ∨ slotBound s f = false) →
      (p.macFail ≠ some f.seq.toNat → exec (.buneamFlitReceive port f) s =
        .next (s.setPort port { p with nacks := p.nacks + 1, macFail := some f.seq.toNat })) ∧
      (p.macFail = some f.seq.toNat → ∃ u : State, exec (.buneamFlitReceive port f) s = .next u ∧ (u.port port).down = true ∧
        (u.port port).key = none))) ∧
  (∀ (s : State) (port : Nat), port < 24 → (s.port port).down = false →
    let p := s.port port
    (∀ seq, exec (.buneamNack port seq) s =
      .next (s.setPort port { p with resent := p.resent + (p.replay.dropWhile fun e => e.seq != seq).length })) ∧
    (∀ ppb step lock, exec (.ptpEventMessage ⟨port, ppb, step, lock⟩) s =
      .next { (s.setPort port { p with stamp := some s.time }).adjTime (max (-100000) (min ppb 100000)) step with timeLock := lock }) ∧
    (p.spare = true → ∃ u : State, exec (.laneSpareSubstitution port) s = .next u ∧ (u.port port).spare = false ∧
      (u.port port).retrain = true ∧ (u.port port).lanes = p.lanes ∧ u.flash.repairs = s.flash.repairs ++ [.lane port]) ∧
    (p.spare = false → exec (.laneLossHalfRate port) s = .next (s.setPort port { p with lanes := 2, half := true }))) ∧
  (∀ (s : State) (port : Nat), (s.port port).retrain = true →
    exec (.portRetrainEnd port) s = .next ((s.setPort port { s.port port with retrain := false }).flushPort port)) ∧
  (∀ (s : State) (part ch k : Nat) (c : Chan), s.chan? part ch = some c → c.bkind = 4 →
    (s.port (fabPort c.module c.rpart)).down = true → partOf k = part → nget? s.procs k = some (s.proc k) →
    (s.proc k).st ≠ .exited → (∀ e ∈ s.txns, e.2.stage ≠ .waiting) →
    exec (.firmwareChannelRebind part ch k) s =
      .next ((s.rebind part ch fun j => if j = 0 then k * 2 ^ 32 else 0).chanChanged part ch)) ∧
  (∀ (s : State) (d : Nat), d < 4 → s.flash.config.cxl.getLsbD d = true → (s.cxlPort d).lost = false →
    ((s.cxlPort d).attempts < 3 → ∃ u : State, exec (.cxlLinkFailure d) s = .next u ∧ (u.cxlPort d).retraining = true ∧
      (u.cxlPort d).attempts = (s.cxlPort d).attempts + 1) ∧
    ((s.cxlPort d).retraining = true →
      (∃ u : State, exec (.cxlRetrainEnd d) s = .next u ∧ (u.cxlPort d).retraining = false ∧ (u.cxlPort d).lost = false) ∧
      ((∀ m ∈ s.motions, m.2.st ≠ .copying) →
        ((∀ e ∈ s.txns, s.inWindow d e.2.op.parts = false) → ∃ u : State, exec (.cxlPortLost d) s = .next u ∧
          (u.cxlPort d).lost = true ∧ (u.cxlPort d).retraining = false ∧ u.ring = s.ring ++ [.portLost d] ∧ u.txns = s.txns) ∧
        ∀ t x, s.txns = [(t, x)] → s.inWindow d x.op.parts = true → x.stage = .sent → x.op.role = .ld →
          ∃ u : State, exec (.cxlPortLost d) s = .next u ∧ (u.cxlPort d).lost = true ∧
            nget? u.txns t = some { x with stage := .failed (badRead s x (firstVa x.op.parts)) })))

/-- O53: Reset, temperature, the 1PPS edge, a retired core and the memory stacks. RESET leaves nothing running, device time 0 and memory clear below host memory, keeps flash (the repair log growing by what the self-check replaces), enters recovery where flash's records are not good, and tells the host where it does not. A die at 105 °C is slowed and is lifted below it; at 115 °C the module stops. PPS_EDGE latches the counter. CORE_RETIRE of a core that no process has used and no engine operation came from, while no engine thread runs, puts the spare in place. A pseudo-channel is copied to the spare and its bad lines are zero and listed. A repaired row is recorded. Refreshes reset counters of neighbours, and of the row itself. A retrain begins at once where no save stream is being written to the stack, and ends. -/
def Obligations.ModuleEvents : Prop :=
  (∀ (s : State) (cold : Bool) (bad absent : List Nat), ∃ u : State, exec (.reset ⟨cold, bad, absent⟩) s = .next u ∧ u.procs = [] ∧ u.parts = [] ∧ u.txns = [] ∧
    u.insts = [] ∧ u.time = 0 ∧ u.romRev = s.romRev ∧ u.flash.config = s.flash.config ∧ s.flash.repairs <+: u.flash.repairs ∧
    (bad = [] → u.flash.repairs = s.flash.repairs) ∧ u.hostTold = !u.recovery ∧
    (flashGood s = false → u.recovery = true) ∧ (∀ a, a < 2 ^ 64 → readByte u.mem a = 0) ∧
    (∀ a, 2 ^ 64 ≤ a → readByte u.mem a = readByte s.mem a)) ∧
  (∀ (s : State) (die temp : Nat), die < 4 →
    (105 ≤ temp → exec (.thermalSlowdown die temp) s = .next (s.setDie die { s.die die with slow := true })) ∧
    (temp < 105 → exec (.slowdownLift die temp) s = .next (s.setDie die { s.die die with slow := false })) ∧
    (115 ≤ temp → exec (.thermalTrip die temp) s = .next ({ s with stopped := true }.ringDev .thermalTrip))) ∧
  (∀ s : State, exec .ppsEdge s = .next { s with ppsLatch := s.time }) ∧
  (∀ (s : State) (core : Nat), core < 512 → spareFree s core = true → lostProcs s core = ([], []) →
    (∀ e ∈ s.txns, ∀ obj op, e.2.op ≠ .eng core obj op) → (∀ e ∈ s.procs, e.2.engine = none) →
    ∃ u : State, exec (.coreRetire core) s = .next (u.pumpAll.wakeAlts) ∧ (u.core core).spare = true ∧
      (u.core core).grant = (s.core core).grant ∧ (u.core core).free = (s.core core).grant ∧ (u.core core).bufs = [] ∧
      u.procs = s.procs ∧ u.flash.repairs = s.flash.repairs ++ [.core core]) ∧
  (∀ (s : State) (k : Nat), k < 8 →
    let m := s.mbd k
    let gives (i : Instr) (n : Stack) : Prop := exec i s = .next (s.setMbd k n)
    (∀ ch, ch < 64 → m.substituted = none → m.copying = none →
      gives (.pseudoChannelSubstitution k ch) { m with copying := some ch }) ∧
    (∀ (ch : Nat) (bad : List Nat), m.copying = some ch → ∃ u : State, exec (.pseudoChannelCopyEnd k bad) s = .next u ∧
      (u.mbd k).substituted = some ch ∧ (u.mbd k).copying = none ∧ u.flash.repairs = s.flash.repairs ++ [.channel k ch] ∧
      ∀ a ∈ bad, a < 0x8000000000 → a % 128 = 0 → stackOf a = k → channelOf a = ch → a ∉ m.bad →
        a ∈ (u.mbd k).bad ∧ ∀ j < 128, readByte u.mem (a + j) = 0) ∧
    (∀ row, row ∉ m.repairing → gives (.rowRepair k row) { m with repairing := m.repairing ++ [row] }) ∧
    (∀ row, row ∈ m.repairing → ∃ u : State, exec (.rowRepairEnd k row) s = .next u ∧ row ∉ (u.mbd k).repairing ∧
      row ∈ (u.mbd k).repaired ∧ u.flash.repairs = s.flash.repairs ++ [.row k row]) ∧
    (∀ row, row ∈ m.refresh → ∃ u : State, exec (.neighbourRefresh k row) s = .next u ∧ row ∉ (u.mbd k).refresh ∧
      ∀ r, r ≠ row → r ≤ row + 2 → row ≤ r + 2 → nget? (u.mbd k).acts r = none) ∧
    (∀ row, ∃ u : State, exec (.rowRefresh k row) s = .next u ∧ nget? (u.mbd k).acts row = none ∧
      ∀ r, r ≠ row → nget? (u.mbd k).acts r = nget? m.acts r) ∧
    (m.retraining = false → (∀ p ∈ s.parts, p.2.quies = none) →
      gives (.stackRetrain k) { m with retraining := true, retrainWaits := false }) ∧
    (∃ u : State, exec (.stackEmergencyRetrain k) s = .next u ∧ (u.mbd k).retraining = true) ∧
    (m.retraining = true → gives (.stackRetrainEnd k) { m with retraining := false }))

/-- O54: After a thermal trip nothing happens but a reset. Once a die at 115 °C has stopped the module, every step but a reset leaves the machine as it is, apart from the move it takes off the agenda and what the host writes in its own memory; a reset runs. -/
def Obligations.StoppedMachine : Prop :=
  (∀ (s : State) (die temp : Nat), die < 4 → 115 ≤ temp → ∃ u : State, exec (.thermalTrip die temp) s = .next u ∧ u.stopped = true) ∧
  (∀ s : State, s.stopped = true → s.agenda = [] → step s = .next s) ∧
  (∀ (s : State) (m : Move) (l : List Move), s.stopped = true → s.agenda = m :: l → (∀ cold bad absent, m ≠ .event (.reset ⟨cold, bad, absent⟩)) → (∀ a bs, m ≠ .host a bs) →
    step s = .next { s with agenda := l }) ∧
  (∀ (s : State) (cold : Bool) (bad absent : List Nat) (l : List Move), s.stopped = true →
    s.agenda = .event (.reset ⟨cold, bad, absent⟩) :: l →
    ∃ u : State, step s = .next u ∧ u.stopped = false ∧ u.procs = [] ∧ u.agenda = l)

/-- O55: What a reset leaves. After reset nothing has been created: no partition, network object, instance, process, transaction, page motion, record or queue entry stands, no module is in recovery, and the agenda is empty. That the device counter starts at 0, that memory reads as 0 and that every core's registers are 0 are the model's choices (log entries 1 to 3). -/
def Obligations.ResetState : Prop :=
  let s := State.reset
  s.parts = [] ∧ s.objs = [] ∧ s.insts = [] ∧ s.procs = [] ∧ s.gangs = [] ∧ s.txns = [] ∧ s.recs = [] ∧ s.motions = [] ∧
    s.grans = [] ∧ s.tokens = [] ∧ s.queues = [] ∧ s.xmsgs = [] ∧ s.recovery = false ∧ s.stopped = false ∧ s.agenda = [] ∧
    s.issue = none ∧ s.time = 0 ∧ (∀ a, readByte s.mem a = 0) ∧
    (∀ c, (s.core c).owner = none ∧ (s.core c).dmap = dmapIdentity ∧ (s.core c).bufs = [] ∧ ∀ j, ((s.core c).ctx j).run = none) ∧
    (∀ k, (s.mbd k).retraining = false ∧ (s.mbd k).bad = []) ∧ (∀ d, clk (s.die d).clock 0 = 0 ∧ (s.die d).slow = false)

/-- O56: The invariant holds after reset. In the state after reset memory stands in its canonical form and no word is in issue (State.Inv; the canonical form is the model's own, log entry 3). -/
def Obligations.ResetInvariant : Prop := State.reset.Inv

/-- O57: Every step keeps the invariant. From every state in which memory stands in its canonical form and no word is in issue, whatever the agenda holds, a step that answers a next state answers one with the same two properties: no instruction, event, turn or engine turn leaves a word half issued, a fault half raised or memory out of order (State.Inv, the model's own form: log entries 3 and 7). -/
def Obligations.StepInvariant : Prop := ∀ s t : State, s.Inv → step s = .next t → t.Inv

/-- O58: A step runs what the fetched words decode to. Where the next move is an issue turn and it falls to process k of a core, running, with no failure to be delivered and not ending, the step is the issue of its next word, once the window writes that have reached it have landed; the move of an engine thread is the issue of its next word. Where the issuer is not repeating, a lone word at its program counter that decodes to a permitted instruction x makes the issue that of exec x on the state with the word latched, after which the program counter stands where the issue's next word is (commit), the switch marker parks the process while results are outstanding, and the turn counts; a pair of two words runs its A word so and then its B word. -/
def Obligations.StepRunsDecoded : Prop :=
  (∀ (s : State) (l : List Move) (core k cyc : Nat), s.agenda = .turn :: l → s.stopped = false →
    let s1 : State := { s with agenda := l }
    s1.nextTurn s1.cycle s1.turnCore 8 = some (cyc, .run core k) →
    let s2 := ({ s1.upTo cyc with turnCore := core + 1 } : State).landWindows k
    (s2.proc k).st = .running → (s2.proc k).landed ≤ s2.cycle → (s2.proc k).faults = [] → (s2.proc k).exiting = false →
    step s = s2.issueWord k) ∧
  (∀ (s : State) (l : List Move) (k : Nat), s.agenda = .engine k :: l → s.stopped = false → (s.proc k).engine.isSome = true →
    (s.proc k).exiting = false → (s.proc k).st = .running → (s.proc k).landed ≤ s.cycle →
    step s = ({ s with agenda := l } : State).issueWord k) ∧
  (∀ (s : State) (k : Nat), (s.proc k).hold ≠ some .object → (s.proc k).rep.active = false →
    let p := s.proc k
    let i : Issue := { proc := k, loc := p.pc, next := p.pc, pre := p }
    let may (x : Instr) : Prop := p.engine.isSome = true → engineLegal x = true
    let after (sw : Bool) (r : Host.Outcome State Fault Refusal) : Host.Outcome State Fault Refusal :=
      match r with
      | .next u =>
        match u.issue with
        | some j => .next { (u.commit k p j sw).countTurn k with issue := none, raised := none }
        | none => .next { (if (u.proc k).hold.isSome then u.countTurn k else u) with issue := none, raised := none }
      | r => r
    (∀ (t : State) (w : Nat) (x : Instr), s.fetch i p.pc = .ok (t, w) → fld w 31 1 = 1 → decodeWord w = .ok x → may x →
      wordPriv t i x = true →
      let sw := fld w 30 1 == 1
      s.issueWord k = after sw (exec x { t with
        raised := none
        issue := some { i with next := p.pc + 4, sw := sw } })) ∧
    (∀ (t t' : State) (w v : Nat) (x y : Instr), s.fetch i p.pc = .ok (t, w) → fld w 31 1 = 0 → p.pc.toNat % 8 = 0 →
      fld w 29 1 = 0 → t.fetch i (p.pc + 4) = .ok (t', v) → fld v 31 1 = 0 → fld v 29 1 = 1 → fld v 30 1 = 0 →
      decodeWord w = .ok x → decodeWord v = .ok y → may x → may y → wordPriv t' i x = true →
      wordPriv t' { i with bword := true } y = true →
      let sw := fld w 30 1 == 1
      let j : Issue := { i with next := p.pc + 8, sw := sw }
      s.issueWord k = after sw
        (match exec x { t' with raised := none, issue := some j } with
          | .next u =>
            match u.issue with
            | some m => runB { t' with raised := none } u m y
            | none => .next u
          | r => r)) ∧
    ∀ (u : State) (j : Issue) (sw : Bool), (u.proc k).st ≠ .exited → (u.proc k).st ≠ .dormant →
      (sw = false → u.commit k p j sw = u.setProc k { u.proc k with pc := j.next }) ∧
      (sw = true → p.engine = none → (u.proc k).out ≠ [] → (u.proc k).hold = none → (u.proc k).exiting = false →
        (u.proc k).st = .running →
        u.commit k p j sw = u.setProc k { u.proc k with
          pc := j.next
          st := .parked
          hold := some .results }))

/-- O59: Words written out from the spec decode to what they stand for. One word of each of several families, put together from the fields of its encoding, decodes to its instruction; words with a reserved field that is not zero decode to none. -/
def Obligations.DecodeWords : Prop :=
  let lone (w : Nat) (sw : Bool) (x : Instr) : Prop := decodeSlot w = .ok { lone := true, sw := sw, instr := x }
  lone 0xA1FE06D4 false (.li (BitVec.ofInt 17 (-300)) none) ∧
  lone 0x8253FFFD false (.loop 9 (BitVec.ofInt 17 (-3))) ∧
  lone 0xAC520801 false (.fadd false (.n 9) (.q 1) none .rtz) ∧
  lone 0x80488801 false (.trap (.n 4) 17) ∧
  lone 0x8A494802 false (.ld .i32 (.n 4) (some 9) 2) ∧
  lone 0x90C92CC1 false (.atomCas true (.n 4) (.n 5) (.n 6)) ∧
  lone 0x9180000B false (.fence .rel .die) ∧
  lone 0xD4C40002 true (.recv (.n 2) none) ∧
  lone 0xD8534540 true (.enrol (.n 9) (.n 8) 10) ∧
  lone 0xB6CD0900 false (.vcmp .lt .f32 3 8 9 0) ∧
  lone 0xBC082560 false (.mgang 0 1 0 (.spad 2) 10 true) ∧
  lone 0x98D14D40 false (.copy (.n 8) (.n 9) (.n 10)) ∧
  decodeSlot 0x4AC40000 = .ok { lone := false, sw := true, instr := .ld .n32 (.n 2) none 0 } ∧
  decodeSlot 0x28451004 = .ok { lone := false, sw := false, instr := .addpImm (.n 2) 4 (some 2) } ∧
  (∀ w ∈ [0x80000000, 0xAC520805, 0xBC001510, 0xBC980000], ∃ r, decodeSlot w = .error r)

/-- O60: Decoding and encoding agree on every well-formed instruction and every word. For every well-formed instruction that owns its word, with every operand at every value the encoding admits, decoding its encoding gives it back, with any L and S bits; and every 30-bit word that decodes to an instruction is that instruction's encoding, the instruction being well formed. No bit of an encoding is dropped and no reserved field is let through. -/
def Obligations.RoundTrip : Prop :=
  (∀ (x : Instr) (w : Nat), x.wf = true → x.canonical = true → encode x = some w →
    w < 2 ^ 30 ∧ decodeWord w = .ok x ∧
      ∀ lone sw, (encodeSlot { lone := lone, sw := sw, instr := x }).map decodeSlot =
        some (.ok { lone := lone, sw := sw, instr := x })) ∧
  (∀ (w : Nat) (x : Instr), w < 2 ^ 30 → decodeWord w = .ok x → x.wf = true ∧ x.canonical = true ∧ encode x = some w)

end Slice0
end

