-- ==== Sys2Proof/Laws/NMap.lean ====
section
/-! SUPPORT. What the operations on finite maps give back: the entry just put, the others as before. They hold of any list, in
order or not. -/

namespace Sys2Proof.Machine

theorem nget?_nset_same {α : Type} (m : NMap α) (k : Nat) (a : α) : nget? (nset m k a) k = some a := by
  induction m with
  | nil => simp [nset, nget?]
  | cons e t ih =>
    obtain ⟨j, b⟩ := e
    unfold nset
    split
    · simp [nget?]
    · split
      · simp [nget?]
      · rename_i h1 h2
        simp [nget?, Ne.symm h2, ih]

theorem nget?_nset_other {α : Type} (m : NMap α) {k j : Nat} (a : α) (h : j ≠ k) : nget? (nset m k a) j = nget? m j := by
  induction m with
  | nil => simp [nset, nget?, Ne.symm h]
  | cons e t ih =>
    obtain ⟨i, b⟩ := e
    unfold nset
    split
    · simp [nget?, Ne.symm h]
    · split
      · rename_i h2
        subst h2
        simp [nget?, Ne.symm h]
      · by_cases hi : i = j <;> simp [nget?, hi, ih]

theorem nget?_nset {α : Type} (m : NMap α) (k j : Nat) (a : α) :
    nget? (nset m k a) j = if j = k then some a else nget? m j := by
  by_cases h : j = k
  · subst h; simp [nget?_nset_same]
  · simp [h, nget?_nset_other m a h]

theorem nget?_ndel {α : Type} (m : NMap α) (k j : Nat) : nget? (ndel m k) j = if j = k then none else nget? m j := by
  induction m with
  | nil => simp [ndel, nget?]
  | cons e t ih =>
    obtain ⟨i, b⟩ := e
    unfold ndel
    by_cases hi : i = k
    · subst hi
      simp only [if_true, ih]
      by_cases hj : j = i
      · simp [hj]
      · simp [hj, nget?, Ne.symm hj]
    · by_cases hj : i = j
      · subst hj
        simp [hi, nget?]
      · simp [hi, nget?, hj, ih]

theorem nget?_nmod {α : Type} (m : NMap α) (k j : Nat) (f : α → α) :
    nget? (nmod m k f) j = if j = k then (nget? m j).map f else nget? m j := by
  induction m with
  | nil => simp [nmod, nget?]
  | cons e t ih =>
    obtain ⟨i, b⟩ := e
    unfold nmod
    by_cases hi : i = k
    · subst hi
      by_cases hj : j = i
      · simp [hj, nget?]
      · simp [hj, nget?, Ne.symm hj]
    · by_cases hj : i = j
      · subst hj
        simp [hi, nget?]
      · simp [hi, nget?, hj, ih]

@[simp] theorem nget_nset_same {α : Type} (d : α) (m : NMap α) (k : Nat) (a : α) : nget d (nset m k a) k = a := by
  simp [nget, nget?_nset_same]

theorem nget_nset {α : Type} (d : α) (m : NMap α) (k j : Nat) (a : α) :
    nget d (nset m k a) j = if j = k then a else nget d m j := by
  by_cases h : j = k
  · subst h; simp
  · simp [nget, nget?_nset_other m a h, h]

theorem nget_nset_other {α : Type} (d : α) (m : NMap α) {k j : Nat} (a : α) (h : j ≠ k) :
    nget d (nset m k a) j = nget d m j := by simp [nget_nset, h]

/-- The second of two entries at one key stands. -/
theorem nset_nset {α : Type} (m : NMap α) (k : Nat) (a b : α) : nset (nset m k a) k b = nset m k b := by
  induction m with
  | nil => simp [nset]
  | cons e t ih =>
    obtain ⟨j, c⟩ := e
    by_cases h1 : k < j
    · simp [nset, h1]
    · by_cases h2 : k = j
      · subst h2; simp [nset]
      · simp [nset, h1, h2, ih]

/-- A property of every entry holds of an entry that is looked up. -/
theorem mem_of_nget? {α : Type} {m : NMap α} {k : Nat} {a : α} (h : nget? m k = some a) : (k, a) ∈ m := by
  induction m with
  | nil => simp [nget?] at h
  | cons e t ih =>
    obtain ⟨j, b⟩ := e
    by_cases hj : j = k
    · subst hj
      simp [nget?] at h
      simp [h]
    · simp [nget?, hj] at h
      exact List.mem_cons_of_mem _ (ih h)

end Sys2Proof.Machine
end

