-- ==== Sys2Proof/Laws/Memory.lean ====
section
/-! SUPPORT. Memory: what a read after a write gives, what a write leaves alone, and that every operation keeps the canonical
form (`Memory.wf`). -/

namespace Sys2Proof.Machine

/-! ### Reads after writes -/

theorem readByte_writeByte (m : List Host.Cell) (k j : Nat) (b : Byte) :
    readByte (writeByte m k b) j = if j = k then b else readByte m j := by
  unfold readByte writeByte
  split
  · rename_i h
    by_cases hj : j = k
    · simp [nget, nget?_ndel, hj, h]
    · simp [nget, nget?_ndel, hj]
  · exact nget_nset _ _ _ _ _

@[simp] theorem readByte_writeByte_same (m : List Host.Cell) (k : Nat) (b : Byte) : readByte (writeByte m k b) k = b := by
  simp [readByte_writeByte]

theorem readByte_writeByte_other (m : List Host.Cell) {k j : Nat} (b : Byte) (h : j ≠ k) :
    readByte (writeByte m k b) j = readByte m j := by simp [readByte_writeByte, h]

/-- A write of bytes leaves every address outside them alone. -/
theorem readByte_writeBytes_other (m : List Host.Cell) (k j : Nat) (bs : List Byte) (h : j < k ∨ k + bs.length ≤ j) :
    readByte (writeBytes m k bs) j = readByte m j := by
  induction bs generalizing m k with
  | nil => rfl
  | cons b t ih =>
    unfold writeBytes
    simp only [List.length_cons] at h
    rw [ih (writeByte m k b) (k + 1) (by omega), readByte_writeByte_other _ _ (by omega)]

/-- A written byte reads back. -/
theorem readByte_writeBytes_at (m : List Host.Cell) (k i : Nat) (bs : List Byte) (h : i < bs.length) :
    readByte (writeBytes m k bs) (k + i) = bs[i] := by
  induction bs generalizing m k i with
  | nil => simp at h
  | cons b t ih =>
    unfold writeBytes
    cases i with
    | zero => simp [readByte_writeBytes_other (writeByte m k b) (k + 1) k t (Or.inl (by omega))]
    | succ i =>
      have := ih (writeByte m k b) (k + 1) i (by simpa using h)
      simpa [Nat.add_assoc, Nat.add_comm 1 i] using this

theorem readBytes_length (m : List Host.Cell) (k n : Nat) : (readBytes m k n).length = n := by
  induction n generalizing k with
  | zero => rfl
  | succ n ih => simp [readBytes, ih]

/-- Written bytes read back. -/
theorem readBytes_writeBytes (m : List Host.Cell) (k : Nat) (bs : List Byte) :
    readBytes (writeBytes m k bs) k bs.length = bs := by
  induction bs generalizing m k with
  | nil => rfl
  | cons b t ih =>
    simp only [List.length_cons, readBytes, writeBytes]
    rw [ih, readByte_writeBytes_other _ _ _ _ (Or.inl (by omega)), readByte_writeByte_same]

/-- Bytes are cleared, and nothing else is. -/
theorem readByte_clearBytes (m : List Host.Cell) (k n j : Nat) :
    readByte (clearBytes m k n) j = if k ≤ j ∧ j < k + n then unlisted else readByte m j := by
  induction m with
  | nil => simp [clearBytes, readByte, nget, nget?]
  | cons c t ih =>
    obtain ⟨i, b⟩ := c
    unfold clearBytes
    by_cases hc : k ≤ i ∧ i < k + n
    · simp only [hc, and_self, if_true, ih]
      by_cases hj : k ≤ j ∧ j < k + n
      · simp [hj]
      · have : i ≠ j := by rintro rfl; exact hj hc
        simp [hj, readByte, nget, nget?, this]
    · simp only [hc, if_false]
      by_cases hij : i = j
      · subst hij; simp [hc, readByte, nget, nget?]
      · have h1 : readByte ((i, b) :: clearBytes t k n) j = readByte (clearBytes t k n) j := by
          simp [readByte, nget, nget?, hij]
        have h2 : readByte ((i, b) :: t) j = readByte t j := by simp [readByte, nget, nget?, hij]
        rw [h1, h2, ih]

theorem readByte_cellsIn (m : List Host.Cell) (k n j : Nat) :
    readByte (cellsIn m k n) j = if k ≤ j ∧ j < k + n then readByte m j else unlisted := by
  induction m with
  | nil => simp [cellsIn, readByte, nget, nget?]
  | cons c t ih =>
    obtain ⟨i, b⟩ := c
    unfold cellsIn
    by_cases hc : k ≤ i ∧ i < k + n
    · simp only [hc, and_self, if_true]
      by_cases hij : i = j
      · subst hij; simp [hc, readByte, nget, nget?]
      · have h1 : readByte ((i, b) :: cellsIn t k n) j = readByte (cellsIn t k n) j := by
          simp [readByte, nget, nget?, hij]
        have h2 : readByte ((i, b) :: t) j = readByte t j := by simp [readByte, nget, nget?, hij]
        rw [h1, h2, ih]
    · simp only [hc, if_false, ih]
      by_cases hj : k ≤ j ∧ j < k + n
      · have : i ≠ j := by rintro rfl; exact hc hj
        simp [hj, readByte, nget, nget?, this]
      · simp [hj]

/-! ### The canonical form -/

theorem wfFrom_mono {a b : Nat} {m : List Host.Cell} (h : b ≤ a) (hm : wfFrom a m = true) : wfFrom b m = true := by
  cases m with
  | nil => rfl
  | cons c t =>
    simp only [wfFrom, Bool.and_eq_true, decide_eq_true_eq] at hm ⊢
    exact ⟨⟨by omega, hm.1.2⟩, hm.2⟩

theorem wfFrom_nset {lo k : Nat} {b : Byte} {m : List Host.Cell} (hb : b ≠ unlisted) (hk : lo ≤ k)
    (hm : wfFrom lo m = true) : wfFrom lo (nset m k b) = true := by
  induction m generalizing lo with
  | nil => simp [nset, wfFrom, hk, hb]
  | cons c t ih =>
    obtain ⟨j, a⟩ := c
    simp only [wfFrom, Bool.and_eq_true, decide_eq_true_eq] at hm
    unfold nset
    split
    · rename_i h
      simp only [wfFrom, Bool.and_eq_true, decide_eq_true_eq]
      exact ⟨⟨hk, by simpa using hb⟩, ⟨by omega, hm.1.2⟩, hm.2⟩
    · split
      · rename_i h1 h2
        subst h2
        simp only [wfFrom, Bool.and_eq_true, decide_eq_true_eq]
        exact ⟨⟨hk, by simpa using hb⟩, hm.2⟩
      · rename_i h1 h2
        simp only [wfFrom, Bool.and_eq_true, decide_eq_true_eq]
        exact ⟨hm.1, ih (by omega) hm.2⟩

theorem wfFrom_ndel {lo k : Nat} {m : List Host.Cell} (hm : wfFrom lo m = true) : wfFrom lo (ndel m k) = true := by
  induction m generalizing lo with
  | nil => rfl
  | cons c t ih =>
    obtain ⟨j, a⟩ := c
    simp only [wfFrom, Bool.and_eq_true, decide_eq_true_eq] at hm
    unfold ndel
    split
    · exact ih (wfFrom_mono (by omega) hm.2)
    · simp only [wfFrom, Bool.and_eq_true, decide_eq_true_eq]
      exact ⟨hm.1, ih hm.2⟩

theorem wfFrom_filter {lo : Nat} (p : Host.Cell → Bool) {m : List Host.Cell} (hm : wfFrom lo m = true) :
    wfFrom lo (m.filter p) = true := by
  induction m generalizing lo with
  | nil => rfl
  | cons c t ih =>
    simp only [wfFrom, Bool.and_eq_true, decide_eq_true_eq] at hm
    rw [List.filter_cons]
    split
    · simp only [wfFrom, Bool.and_eq_true, decide_eq_true_eq]
      exact ⟨hm.1, ih hm.2⟩
    · exact ih (wfFrom_mono (by omega) hm.2)

theorem wfFrom_clearBytes {lo : Nat} (k n : Nat) {m : List Host.Cell} (hm : wfFrom lo m = true) :
    wfFrom lo (clearBytes m k n) = true := by
  induction m generalizing lo with
  | nil => rfl
  | cons c t ih =>
    simp only [wfFrom, Bool.and_eq_true, decide_eq_true_eq] at hm
    unfold clearBytes
    split
    · exact ih (wfFrom_mono (by omega) hm.2)
    · simp only [wfFrom, Bool.and_eq_true, decide_eq_true_eq]
      exact ⟨hm.1, ih hm.2⟩

theorem Memory.wf_writeByte {m : List Host.Cell} (k : Nat) (b : Byte) (h : Memory.wf m = true) :
    Memory.wf (writeByte m k b) = true := by
  unfold writeByte Memory.wf at *
  split
  · exact wfFrom_ndel h
  · rename_i hb; exact wfFrom_nset hb (Nat.zero_le k) h

theorem Memory.wf_writeBytes {m : List Host.Cell} (k : Nat) (bs : List Byte) (h : Memory.wf m = true) :
    Memory.wf (writeBytes m k bs) = true := by
  induction bs generalizing m k with
  | nil => exact h
  | cons b t ih => exact ih (k + 1) (Memory.wf_writeByte k b h)

theorem Memory.wf_writeWord {m : List Host.Cell} (k : Nat) (w : Word) (h : Memory.wf m = true) :
    Memory.wf (writeWord m k w) = true := Memory.wf_writeBytes k _ h

theorem Memory.wf_clearBytes {m : List Host.Cell} (k n : Nat) (h : Memory.wf m = true) :
    Memory.wf (clearBytes m k n) = true := wfFrom_clearBytes k n h

theorem Memory.wf_putCells {m : List Host.Cell} (cs : List Host.Cell) (h : Memory.wf m = true) :
    Memory.wf (putCells m cs) = true := by
  induction cs generalizing m with
  | nil => exact h
  | cons c t ih => exact ih (Memory.wf_writeByte c.1 c.2 h)

theorem Memory.wf_filter {m : List Host.Cell} (p : Host.Cell → Bool) (h : Memory.wf m = true) :
    Memory.wf (m.filter p) = true := wfFrom_filter p h

theorem Memory.wf_foldl {α : Type} (l : List α) (f : List Host.Cell → α → List Host.Cell)
    (hf : ∀ m a, Memory.wf m = true → Memory.wf (f m a) = true) {m : List Host.Cell} (h : Memory.wf m = true) :
    Memory.wf (l.foldl f m) = true := by
  induction l generalizing m with
  | nil => exact h
  | cons a t ih => exact ih (hf m a h)

/-- Two canonical memories that read alike are the same list. -/
theorem wfFrom_ext {lo : Nat} {m n : List Host.Cell} (hm : wfFrom lo m = true) (hn : wfFrom lo n = true)
    (h : ∀ k, readByte m k = readByte n k) : m = n := by
  have below : ∀ (l : List Host.Cell) (a k : Nat), wfFrom a l = true → k < a → readByte l k = unlisted := by
    intro l
    induction l with
    | nil => intros; rfl
    | cons c t ih =>
      intro a k hl hk
      simp only [wfFrom, Bool.and_eq_true, decide_eq_true_eq] at hl
      have hne : c.1 ≠ k := by omega
      have := ih (c.1 + 1) k hl.2 (by omega)
      simpa [readByte, nget, nget?, hne] using this
  induction m generalizing lo n with
  | nil =>
    cases n with
    | nil => rfl
    | cons c t =>
      simp only [wfFrom, Bool.and_eq_true, decide_eq_true_eq, bne_iff_ne] at hn
      have := h c.1
      simp [readByte, nget, nget?] at this
      exact absurd this.symm hn.1.2
  | cons c t ih =>
    simp only [wfFrom, Bool.and_eq_true, decide_eq_true_eq, bne_iff_ne] at hm
    cases n with
    | nil =>
      have := h c.1
      simp [readByte, nget, nget?] at this
      exact absurd this hm.1.2
    | cons d u =>
      simp only [wfFrom, Bool.and_eq_true, decide_eq_true_eq, bne_iff_ne] at hn
      have hc := h c.1
      have hd := h d.1
      have rc : readByte (c :: t) c.1 = c.2 := by simp [readByte, nget, nget?]
      have rd : readByte (d :: u) d.1 = d.2 := by simp [readByte, nget, nget?]
      have e1 : c.1 = d.1 := by
        rcases Nat.lt_trichotomy c.1 d.1 with l | e | g
        · have : readByte (d :: u) c.1 = unlisted := below (d :: u) d.1 c.1 (by simp [wfFrom, hn.1.2, hn.2]) l
          rw [rc, this] at hc; exact absurd hc hm.1.2
        · exact e
        · have : readByte (c :: t) d.1 = unlisted := below (c :: t) c.1 d.1 (by simp [wfFrom, hm.1.2, hm.2]) g
          rw [rd, this] at hd; exact absurd hd.symm hn.1.2
      have e2 : c.2 = d.2 := by rw [rc, e1, rd] at hc; exact hc
      have e : c = d := Prod.ext e1 e2
      subst e
      congr 1
      refine ih hm.2 hn.2 fun k => ?_
      by_cases hk : c.1 = k
      · rw [below t (c.1 + 1) k hm.2 (by omega), below u (c.1 + 1) k hn.2 (by omega)]
      · simpa [readByte, nget, nget?, hk] using h k

theorem Memory.ext_of_wf {m n : List Host.Cell} (hm : Memory.wf m = true) (hn : Memory.wf n = true)
    (h : ∀ k, readByte m k = readByte n k) : m = n := wfFrom_ext hm hn h

end Sys2Proof.Machine
end

