-- ==== Sys2Proof/Laws/State.lean ====
section
/-! SUPPORT. The updates of State: what each writes reads back, and every other field, and every other key, is as before. One
lemma per field per update; changes in place (`modProc` and its like) are rewritten to the update they are. -/

namespace Sys2Proof.Machine

/-! ### Changes in place -/

@[simp] theorem State.modProc_eq (s : State) (k : Nat) (f : Proc → Proc) : s.modProc k f = s.setProc k (f (s.proc k)) := rfl
@[simp] theorem State.modCore_eq (s : State) (c : Nat) (f : Core → Core) : s.modCore c f = s.setCore c (f (s.core c)) := rfl
@[simp] theorem State.modPart_eq (s : State) (p : Nat) (f : Part → Part) : s.modPart p f = s.setPart p (f (s.part p)) := rfl
@[simp] theorem State.setChan_eq (s : State) (part ch : Nat) (c : Chan) :
    s.setChan part ch c = s.setPart part { s.part part with chans := nset (s.part part).chans ch c } := rfl
@[simp] theorem State.modChan_eq (s : State) (part ch : Nat) (f : Chan → Chan) :
    s.modChan part ch f = s.setPart part { s.part part with chans := nmod (s.part part).chans ch f } := rfl
@[simp] theorem State.ringPart_eq (s : State) (p : Nat) (e : Event) :
    s.ringPart p e = { s.setPart p { s.part p with ring := (s.part p).ring ++ [e] } with
      mem := if (s.part p).ringAddr = 0 then s.mem
        else writeBytes s.mem (hostKey ((s.part p).ringAddr + 64 * (s.part p).ring.length)) (e.bytes s.time) } := by
  by_cases h : (s.part p).ringAddr = 0
  · simp only [State.ringPart, if_pos h]; rfl
  · simp only [State.ringPart, if_neg h]; rfl

/-! ### What is read after an update -/

@[simp] theorem State.proc_setProc_same (s : State) (k : Nat) (p : Proc) : (s.setProc k p).proc k = p := nget_nset_same _ _ _ _
theorem State.proc_setProc (s : State) (k : Nat) (p : Proc) (j : Nat) : (s.setProc k p).proc j = if j = k then p else s.proc j :=
  nget_nset _ _ _ _ _
theorem State.proc_setProc_other (s : State) (k : Nat) (p : Proc) {j : Nat} (h : j ≠ k) : (s.setProc k p).proc j = s.proc j :=
  nget_nset_other _ _ _ h
@[simp] theorem State.core_setCore_same (s : State) (c : Nat) (x : Core) : (s.setCore c x).core c = x := nget_nset_same _ _ _ _
theorem State.core_setCore (s : State) (c : Nat) (x : Core) (j : Nat) : (s.setCore c x).core j = if j = c then x else s.core j :=
  nget_nset _ _ _ _ _
theorem State.core_setCore_other (s : State) (c : Nat) (x : Core) {j : Nat} (h : j ≠ c) : (s.setCore c x).core j = s.core j :=
  nget_nset_other _ _ _ h
@[simp] theorem State.part_setPart_same (s : State) (p : Nat) (q : Part) : (s.setPart p q).part p = q := nget_nset_same _ _ _ _
theorem State.part_setPart (s : State) (p : Nat) (q : Part) (j : Nat) : (s.setPart p q).part j = if j = p then q else s.part j :=
  nget_nset _ _ _ _ _
theorem State.part_setPart_other (s : State) (p : Nat) (q : Part) {j : Nat} (h : j ≠ p) : (s.setPart p q).part j = s.part j :=
  nget_nset_other _ _ _ h
@[simp] theorem State.cluster_setCluster_same (s : State) (c : Nat) (x : Cluster) : (s.setCluster c x).cluster c = x := nget_nset_same _ _ _ _
theorem State.cluster_setCluster (s : State) (c : Nat) (x : Cluster) (j : Nat) : (s.setCluster c x).cluster j = if j = c then x else s.cluster j :=
  nget_nset _ _ _ _ _
theorem State.cluster_setCluster_other (s : State) (c : Nat) (x : Cluster) {j : Nat} (h : j ≠ c) : (s.setCluster c x).cluster j = s.cluster j :=
  nget_nset_other _ _ _ h
@[simp] theorem State.engine_setEngine_same (s : State) (e : Nat) (x : Engine) : (s.setEngine e x).engine e = x := nget_nset_same _ _ _ _
theorem State.engine_setEngine (s : State) (e : Nat) (x : Engine) (j : Nat) : (s.setEngine e x).engine j = if j = e then x else s.engine j :=
  nget_nset _ _ _ _ _
theorem State.engine_setEngine_other (s : State) (e : Nat) (x : Engine) {j : Nat} (h : j ≠ e) : (s.setEngine e x).engine j = s.engine j :=
  nget_nset_other _ _ _ h
@[simp] theorem State.die_setDie_same (s : State) (d : Nat) (x : Die) : (s.setDie d x).die d = x := nget_nset_same _ _ _ _
theorem State.die_setDie (s : State) (d : Nat) (x : Die) (j : Nat) : (s.setDie d x).die j = if j = d then x else s.die j :=
  nget_nset _ _ _ _ _
theorem State.die_setDie_other (s : State) (d : Nat) (x : Die) {j : Nat} (h : j ≠ d) : (s.setDie d x).die j = s.die j :=
  nget_nset_other _ _ _ h
@[simp] theorem State.fn_setFn_same (s : State) (f : Nat) (x : Fn) : (s.setFn f x).fn f = x := nget_nset_same _ _ _ _
theorem State.fn_setFn (s : State) (f : Nat) (x : Fn) (j : Nat) : (s.setFn f x).fn j = if j = f then x else s.fn j :=
  nget_nset _ _ _ _ _
theorem State.fn_setFn_other (s : State) (f : Nat) (x : Fn) {j : Nat} (h : j ≠ f) : (s.setFn f x).fn j = s.fn j :=
  nget_nset_other _ _ _ h
@[simp] theorem State.port_setPort_same (s : State) (b : Nat) (x : BPort) : (s.setPort b x).port b = x := nget_nset_same _ _ _ _
theorem State.port_setPort (s : State) (b : Nat) (x : BPort) (j : Nat) : (s.setPort b x).port j = if j = b then x else s.port j :=
  nget_nset _ _ _ _ _
theorem State.port_setPort_other (s : State) (b : Nat) (x : BPort) {j : Nat} (h : j ≠ b) : (s.setPort b x).port j = s.port j :=
  nget_nset_other _ _ _ h
@[simp] theorem State.mbd_setMbd_same (s : State) (k : Nat) (m : Stack) : (s.setMbd k m).mbd k = m := nget_nset_same _ _ _ _
theorem State.mbd_setMbd (s : State) (k : Nat) (m : Stack) (j : Nat) : (s.setMbd k m).mbd j = if j = k then m else s.mbd j :=
  nget_nset _ _ _ _ _
theorem State.mbd_setMbd_other (s : State) (k : Nat) (m : Stack) {j : Nat} (h : j ≠ k) : (s.setMbd k m).mbd j = s.mbd j :=
  nget_nset_other _ _ _ h
@[simp] theorem State.inst_setInst_same (s : State) (i : Nat) (v : Inst) : (s.setInst i v).inst i = v := nget_nset_same _ _ _ _
theorem State.inst_setInst (s : State) (i : Nat) (v : Inst) (j : Nat) : (s.setInst i v).inst j = if j = i then v else s.inst j :=
  nget_nset _ _ _ _ _
theorem State.inst_setInst_other (s : State) (i : Nat) (v : Inst) {j : Nat} (h : j ≠ i) : (s.setInst i v).inst j = s.inst j :=
  nget_nset_other _ _ _ h
@[simp] theorem State.queue_setQueue_same (s : State) (k : Nat) (q : Queue) : (s.setQueue k q).queue k = q := nget_nset_same _ _ _ _
theorem State.queue_setQueue (s : State) (k : Nat) (q : Queue) (j : Nat) : (s.setQueue k q).queue j = if j = k then q else s.queue j :=
  nget_nset _ _ _ _ _
theorem State.queue_setQueue_other (s : State) (k : Nat) (q : Queue) {j : Nat} (h : j ≠ k) : (s.setQueue k q).queue j = s.queue j :=
  nget_nset_other _ _ _ h
@[simp] theorem State.router_setRouter_same (s : State) (n : Nat) (r : Router) : (s.setRouter n r).router n = r := nget_nset_same _ _ _ _
theorem State.router_setRouter (s : State) (n : Nat) (r : Router) (j : Nat) : (s.setRouter n r).router j = if j = n then r else s.router j :=
  nget_nset _ _ _ _ _
theorem State.router_setRouter_other (s : State) (n : Nat) (r : Router) {j : Nat} (h : j ≠ n) : (s.setRouter n r).router j = s.router j :=
  nget_nset_other _ _ _ h

/-! ### Fields that an update leaves -/

@[simp] theorem State.setProc_mem (s : State) (k : Nat) (p : Proc) : (s.setProc k p).mem = s.mem := rfl
@[simp] theorem State.setProc_time (s : State) (k : Nat) (p : Proc) : (s.setProc k p).time = s.time := rfl
@[simp] theorem State.setProc_timeRem (s : State) (k : Nat) (p : Proc) : (s.setProc k p).timeRem = s.timeRem := rfl
@[simp] theorem State.setProc_cycle (s : State) (k : Nat) (p : Proc) : (s.setProc k p).cycle = s.cycle := rfl
@[simp] theorem State.setProc_turnCore (s : State) (k : Nat) (p : Proc) : (s.setProc k p).turnCore = s.turnCore := rfl
@[simp] theorem State.setProc_timePpb (s : State) (k : Nat) (p : Proc) : (s.setProc k p).timePpb = s.timePpb := rfl
@[simp] theorem State.setProc_timeSlew (s : State) (k : Nat) (p : Proc) : (s.setProc k p).timeSlew = s.timeSlew := rfl
@[simp] theorem State.setProc_ppsLatch (s : State) (k : Nat) (p : Proc) : (s.setProc k p).ppsLatch = s.ppsLatch := rfl
@[simp] theorem State.setProc_recovery (s : State) (k : Nat) (p : Proc) : (s.setProc k p).recovery = s.recovery := rfl
@[simp] theorem State.setProc_hostTold (s : State) (k : Nat) (p : Proc) : (s.setProc k p).hostTold = s.hostTold := rfl
@[simp] theorem State.setProc_stopped (s : State) (k : Nat) (p : Proc) : (s.setProc k p).stopped = s.stopped := rfl
@[simp] theorem State.setProc_romRev (s : State) (k : Nat) (p : Proc) : (s.setProc k p).romRev = s.romRev := rfl
@[simp] theorem State.setProc_romImage (s : State) (k : Nat) (p : Proc) : (s.setProc k p).romImage = s.romImage := rfl
@[simp] theorem State.setProc_puf (s : State) (k : Nat) (p : Proc) : (s.setProc k p).puf = s.puf := rfl
@[simp] theorem State.setProc_seed (s : State) (k : Nat) (p : Proc) : (s.setProc k p).seed = s.seed := rfl
@[simp] theorem State.setProc_patchRam (s : State) (k : Nat) (p : Proc) : (s.setProc k p).patchRam = s.patchRam := rfl
@[simp] theorem State.setProc_timeLock (s : State) (k : Nat) (p : Proc) : (s.setProc k p).timeLock = s.timeLock := rfl
@[simp] theorem State.setProc_lowerUsed (s : State) (k : Nat) (p : Proc) : (s.setProc k p).lowerUsed = s.lowerUsed := rfl
@[simp] theorem State.setProc_flash (s : State) (k : Nat) (p : Proc) : (s.setProc k p).flash = s.flash := rfl
@[simp] theorem State.setProc_dies (s : State) (k : Nat) (p : Proc) : (s.setProc k p).dies = s.dies := rfl
@[simp] theorem State.setProc_queues (s : State) (k : Nat) (p : Proc) : (s.setProc k p).queues = s.queues := rfl
@[simp] theorem State.setProc_lastBound (s : State) (k : Nat) (p : Proc) : (s.setProc k p).lastBound = s.lastBound := rfl
@[simp] theorem State.setProc_fns (s : State) (k : Nat) (p : Proc) : (s.setProc k p).fns = s.fns := rfl
@[simp] theorem State.setProc_ring (s : State) (k : Nat) (p : Proc) : (s.setProc k p).ring = s.ring := rfl
@[simp] theorem State.setProc_pastRing (s : State) (k : Nat) (p : Proc) : (s.setProc k p).pastRing = s.pastRing := rfl
@[simp] theorem State.setProc_ports (s : State) (k : Nat) (p : Proc) : (s.setProc k p).ports = s.ports := rfl
@[simp] theorem State.setProc_keys (s : State) (k : Nat) (p : Proc) : (s.setProc k p).keys = s.keys := rfl
@[simp] theorem State.setProc_memKeys (s : State) (k : Nat) (p : Proc) : (s.setProc k p).memKeys = s.memKeys := rfl
@[simp] theorem State.setProc_cxl (s : State) (k : Nat) (p : Proc) : (s.setProc k p).cxl = s.cxl := rfl
@[simp] theorem State.setProc_mbds (s : State) (k : Nat) (p : Proc) : (s.setProc k p).mbds = s.mbds := rfl
@[simp] theorem State.setProc_routers (s : State) (k : Nat) (p : Proc) : (s.setProc k p).routers = s.routers := rfl
@[simp] theorem State.setProc_parts (s : State) (k : Nat) (p : Proc) : (s.setProc k p).parts = s.parts := rfl
@[simp] theorem State.setProc_objs (s : State) (k : Nat) (p : Proc) : (s.setProc k p).objs = s.objs := rfl
@[simp] theorem State.setProc_insts (s : State) (k : Nat) (p : Proc) : (s.setProc k p).insts = s.insts := rfl
@[simp] theorem State.setProc_gangs (s : State) (k : Nat) (p : Proc) : (s.setProc k p).gangs = s.gangs := rfl
@[simp] theorem State.setProc_cores (s : State) (k : Nat) (p : Proc) : (s.setProc k p).cores = s.cores := rfl
@[simp] theorem State.setProc_clusters (s : State) (k : Nat) (p : Proc) : (s.setProc k p).clusters = s.clusters := rfl
@[simp] theorem State.setProc_engines (s : State) (k : Nat) (p : Proc) : (s.setProc k p).engines = s.engines := rfl
@[simp] theorem State.setProc_txns (s : State) (k : Nat) (p : Proc) : (s.setProc k p).txns = s.txns := rfl
@[simp] theorem State.setProc_recs (s : State) (k : Nat) (p : Proc) : (s.setProc k p).recs = s.recs := rfl
@[simp] theorem State.setProc_managed (s : State) (k : Nat) (p : Proc) : (s.setProc k p).managed = s.managed := rfl
@[simp] theorem State.setProc_farArr (s : State) (k : Nat) (p : Proc) : (s.setProc k p).farArr = s.farArr := rfl
@[simp] theorem State.setProc_saved (s : State) (k : Nat) (p : Proc) : (s.setProc k p).saved = s.saved := rfl
@[simp] theorem State.setProc_xmsgs (s : State) (k : Nat) (p : Proc) : (s.setProc k p).xmsgs = s.xmsgs := rfl
@[simp] theorem State.setProc_flaws (s : State) (k : Nat) (p : Proc) : (s.setProc k p).flaws = s.flaws := rfl
@[simp] theorem State.setProc_windows (s : State) (k : Nat) (p : Proc) : (s.setProc k p).windows = s.windows := rfl
@[simp] theorem State.setProc_hot (s : State) (k : Nat) (p : Proc) : (s.setProc k p).hot = s.hot := rfl
@[simp] theorem State.setProc_lineCount (s : State) (k : Nat) (p : Proc) : (s.setProc k p).lineCount = s.lineCount := rfl
@[simp] theorem State.setProc_grans (s : State) (k : Nat) (p : Proc) : (s.setProc k p).grans = s.grans := rfl
@[simp] theorem State.setProc_tokens (s : State) (k : Nat) (p : Proc) : (s.setProc k p).tokens = s.tokens := rfl
@[simp] theorem State.setProc_motions (s : State) (k : Nat) (p : Proc) : (s.setProc k p).motions = s.motions := rfl
@[simp] theorem State.setProc_nextTxn (s : State) (k : Nat) (p : Proc) : (s.setProc k p).nextTxn = s.nextTxn := rfl
@[simp] theorem State.setProc_nextId (s : State) (k : Nat) (p : Proc) : (s.setProc k p).nextId = s.nextId := rfl
@[simp] theorem State.setProc_fresh (s : State) (k : Nat) (p : Proc) : (s.setProc k p).fresh = s.fresh := rfl
@[simp] theorem State.setProc_moduleId (s : State) (k : Nat) (p : Proc) : (s.setProc k p).moduleId = s.moduleId := rfl
@[simp] theorem State.setProc_agenda (s : State) (k : Nat) (p : Proc) : (s.setProc k p).agenda = s.agenda := rfl
@[simp] theorem State.setProc_auto (s : State) (k : Nat) (p : Proc) : (s.setProc k p).auto = s.auto := rfl
@[simp] theorem State.setProc_issue (s : State) (k : Nat) (p : Proc) : (s.setProc k p).issue = s.issue := rfl
@[simp] theorem State.setProc_raised (s : State) (k : Nat) (p : Proc) : (s.setProc k p).raised = s.raised := rfl
@[simp] theorem State.setProc_core (s : State) (k : Nat) (p : Proc) (j : Nat) : (s.setProc k p).core j = s.core j := rfl
@[simp] theorem State.setProc_part (s : State) (k : Nat) (p : Proc) (j : Nat) : (s.setProc k p).part j = s.part j := rfl
@[simp] theorem State.setProc_cluster (s : State) (k : Nat) (p : Proc) (j : Nat) : (s.setProc k p).cluster j = s.cluster j := rfl
@[simp] theorem State.setProc_engine (s : State) (k : Nat) (p : Proc) (j : Nat) : (s.setProc k p).engine j = s.engine j := rfl
@[simp] theorem State.setProc_die (s : State) (k : Nat) (p : Proc) (j : Nat) : (s.setProc k p).die j = s.die j := rfl
@[simp] theorem State.setProc_fn (s : State) (k : Nat) (p : Proc) (j : Nat) : (s.setProc k p).fn j = s.fn j := rfl
@[simp] theorem State.setProc_port (s : State) (k : Nat) (p : Proc) (j : Nat) : (s.setProc k p).port j = s.port j := rfl
@[simp] theorem State.setProc_mbd (s : State) (k : Nat) (p : Proc) (j : Nat) : (s.setProc k p).mbd j = s.mbd j := rfl
@[simp] theorem State.setProc_inst (s : State) (k : Nat) (p : Proc) (j : Nat) : (s.setProc k p).inst j = s.inst j := rfl
@[simp] theorem State.setProc_queue (s : State) (k : Nat) (p : Proc) (j : Nat) : (s.setProc k p).queue j = s.queue j := rfl
@[simp] theorem State.setProc_router (s : State) (k : Nat) (p : Proc) (j : Nat) : (s.setProc k p).router j = s.router j := rfl

@[simp] theorem State.setCore_mem (s : State) (c : Nat) (x : Core) : (s.setCore c x).mem = s.mem := rfl
@[simp] theorem State.setCore_time (s : State) (c : Nat) (x : Core) : (s.setCore c x).time = s.time := rfl
@[simp] theorem State.setCore_timeRem (s : State) (c : Nat) (x : Core) : (s.setCore c x).timeRem = s.timeRem := rfl
@[simp] theorem State.setCore_cycle (s : State) (c : Nat) (x : Core) : (s.setCore c x).cycle = s.cycle := rfl
@[simp] theorem State.setCore_turnCore (s : State) (c : Nat) (x : Core) : (s.setCore c x).turnCore = s.turnCore := rfl
@[simp] theorem State.setCore_timePpb (s : State) (c : Nat) (x : Core) : (s.setCore c x).timePpb = s.timePpb := rfl
@[simp] theorem State.setCore_timeSlew (s : State) (c : Nat) (x : Core) : (s.setCore c x).timeSlew = s.timeSlew := rfl
@[simp] theorem State.setCore_ppsLatch (s : State) (c : Nat) (x : Core) : (s.setCore c x).ppsLatch = s.ppsLatch := rfl
@[simp] theorem State.setCore_recovery (s : State) (c : Nat) (x : Core) : (s.setCore c x).recovery = s.recovery := rfl
@[simp] theorem State.setCore_hostTold (s : State) (c : Nat) (x : Core) : (s.setCore c x).hostTold = s.hostTold := rfl
@[simp] theorem State.setCore_stopped (s : State) (c : Nat) (x : Core) : (s.setCore c x).stopped = s.stopped := rfl
@[simp] theorem State.setCore_romRev (s : State) (c : Nat) (x : Core) : (s.setCore c x).romRev = s.romRev := rfl
@[simp] theorem State.setCore_romImage (s : State) (c : Nat) (x : Core) : (s.setCore c x).romImage = s.romImage := rfl
@[simp] theorem State.setCore_puf (s : State) (c : Nat) (x : Core) : (s.setCore c x).puf = s.puf := rfl
@[simp] theorem State.setCore_seed (s : State) (c : Nat) (x : Core) : (s.setCore c x).seed = s.seed := rfl
@[simp] theorem State.setCore_patchRam (s : State) (c : Nat) (x : Core) : (s.setCore c x).patchRam = s.patchRam := rfl
@[simp] theorem State.setCore_timeLock (s : State) (c : Nat) (x : Core) : (s.setCore c x).timeLock = s.timeLock := rfl
@[simp] theorem State.setCore_lowerUsed (s : State) (c : Nat) (x : Core) : (s.setCore c x).lowerUsed = s.lowerUsed := rfl
@[simp] theorem State.setCore_flash (s : State) (c : Nat) (x : Core) : (s.setCore c x).flash = s.flash := rfl
@[simp] theorem State.setCore_dies (s : State) (c : Nat) (x : Core) : (s.setCore c x).dies = s.dies := rfl
@[simp] theorem State.setCore_queues (s : State) (c : Nat) (x : Core) : (s.setCore c x).queues = s.queues := rfl
@[simp] theorem State.setCore_lastBound (s : State) (c : Nat) (x : Core) : (s.setCore c x).lastBound = s.lastBound := rfl
@[simp] theorem State.setCore_fns (s : State) (c : Nat) (x : Core) : (s.setCore c x).fns = s.fns := rfl
@[simp] theorem State.setCore_ring (s : State) (c : Nat) (x : Core) : (s.setCore c x).ring = s.ring := rfl
@[simp] theorem State.setCore_pastRing (s : State) (c : Nat) (x : Core) : (s.setCore c x).pastRing = s.pastRing := rfl
@[simp] theorem State.setCore_ports (s : State) (c : Nat) (x : Core) : (s.setCore c x).ports = s.ports := rfl
@[simp] theorem State.setCore_keys (s : State) (c : Nat) (x : Core) : (s.setCore c x).keys = s.keys := rfl
@[simp] theorem State.setCore_memKeys (s : State) (c : Nat) (x : Core) : (s.setCore c x).memKeys = s.memKeys := rfl
@[simp] theorem State.setCore_cxl (s : State) (c : Nat) (x : Core) : (s.setCore c x).cxl = s.cxl := rfl
@[simp] theorem State.setCore_mbds (s : State) (c : Nat) (x : Core) : (s.setCore c x).mbds = s.mbds := rfl
@[simp] theorem State.setCore_routers (s : State) (c : Nat) (x : Core) : (s.setCore c x).routers = s.routers := rfl
@[simp] theorem State.setCore_parts (s : State) (c : Nat) (x : Core) : (s.setCore c x).parts = s.parts := rfl
@[simp] theorem State.setCore_objs (s : State) (c : Nat) (x : Core) : (s.setCore c x).objs = s.objs := rfl
@[simp] theorem State.setCore_insts (s : State) (c : Nat) (x : Core) : (s.setCore c x).insts = s.insts := rfl
@[simp] theorem State.setCore_gangs (s : State) (c : Nat) (x : Core) : (s.setCore c x).gangs = s.gangs := rfl
@[simp] theorem State.setCore_procs (s : State) (c : Nat) (x : Core) : (s.setCore c x).procs = s.procs := rfl
@[simp] theorem State.setCore_clusters (s : State) (c : Nat) (x : Core) : (s.setCore c x).clusters = s.clusters := rfl
@[simp] theorem State.setCore_engines (s : State) (c : Nat) (x : Core) : (s.setCore c x).engines = s.engines := rfl
@[simp] theorem State.setCore_txns (s : State) (c : Nat) (x : Core) : (s.setCore c x).txns = s.txns := rfl
@[simp] theorem State.setCore_recs (s : State) (c : Nat) (x : Core) : (s.setCore c x).recs = s.recs := rfl
@[simp] theorem State.setCore_managed (s : State) (c : Nat) (x : Core) : (s.setCore c x).managed = s.managed := rfl
@[simp] theorem State.setCore_farArr (s : State) (c : Nat) (x : Core) : (s.setCore c x).farArr = s.farArr := rfl
@[simp] theorem State.setCore_saved (s : State) (c : Nat) (x : Core) : (s.setCore c x).saved = s.saved := rfl
@[simp] theorem State.setCore_xmsgs (s : State) (c : Nat) (x : Core) : (s.setCore c x).xmsgs = s.xmsgs := rfl
@[simp] theorem State.setCore_flaws (s : State) (c : Nat) (x : Core) : (s.setCore c x).flaws = s.flaws := rfl
@[simp] theorem State.setCore_windows (s : State) (c : Nat) (x : Core) : (s.setCore c x).windows = s.windows := rfl
@[simp] theorem State.setCore_hot (s : State) (c : Nat) (x : Core) : (s.setCore c x).hot = s.hot := rfl
@[simp] theorem State.setCore_lineCount (s : State) (c : Nat) (x : Core) : (s.setCore c x).lineCount = s.lineCount := rfl
@[simp] theorem State.setCore_grans (s : State) (c : Nat) (x : Core) : (s.setCore c x).grans = s.grans := rfl
@[simp] theorem State.setCore_tokens (s : State) (c : Nat) (x : Core) : (s.setCore c x).tokens = s.tokens := rfl
@[simp] theorem State.setCore_motions (s : State) (c : Nat) (x : Core) : (s.setCore c x).motions = s.motions := rfl
@[simp] theorem State.setCore_nextTxn (s : State) (c : Nat) (x : Core) : (s.setCore c x).nextTxn = s.nextTxn := rfl
@[simp] theorem State.setCore_nextId (s : State) (c : Nat) (x : Core) : (s.setCore c x).nextId = s.nextId := rfl
@[simp] theorem State.setCore_fresh (s : State) (c : Nat) (x : Core) : (s.setCore c x).fresh = s.fresh := rfl
@[simp] theorem State.setCore_moduleId (s : State) (c : Nat) (x : Core) : (s.setCore c x).moduleId = s.moduleId := rfl
@[simp] theorem State.setCore_agenda (s : State) (c : Nat) (x : Core) : (s.setCore c x).agenda = s.agenda := rfl
@[simp] theorem State.setCore_auto (s : State) (c : Nat) (x : Core) : (s.setCore c x).auto = s.auto := rfl
@[simp] theorem State.setCore_issue (s : State) (c : Nat) (x : Core) : (s.setCore c x).issue = s.issue := rfl
@[simp] theorem State.setCore_raised (s : State) (c : Nat) (x : Core) : (s.setCore c x).raised = s.raised := rfl
@[simp] theorem State.setCore_proc (s : State) (c : Nat) (x : Core) (j : Nat) : (s.setCore c x).proc j = s.proc j := rfl
@[simp] theorem State.setCore_part (s : State) (c : Nat) (x : Core) (j : Nat) : (s.setCore c x).part j = s.part j := rfl
@[simp] theorem State.setCore_cluster (s : State) (c : Nat) (x : Core) (j : Nat) : (s.setCore c x).cluster j = s.cluster j := rfl
@[simp] theorem State.setCore_engine (s : State) (c : Nat) (x : Core) (j : Nat) : (s.setCore c x).engine j = s.engine j := rfl
@[simp] theorem State.setCore_die (s : State) (c : Nat) (x : Core) (j : Nat) : (s.setCore c x).die j = s.die j := rfl
@[simp] theorem State.setCore_fn (s : State) (c : Nat) (x : Core) (j : Nat) : (s.setCore c x).fn j = s.fn j := rfl
@[simp] theorem State.setCore_port (s : State) (c : Nat) (x : Core) (j : Nat) : (s.setCore c x).port j = s.port j := rfl
@[simp] theorem State.setCore_mbd (s : State) (c : Nat) (x : Core) (j : Nat) : (s.setCore c x).mbd j = s.mbd j := rfl
@[simp] theorem State.setCore_inst (s : State) (c : Nat) (x : Core) (j : Nat) : (s.setCore c x).inst j = s.inst j := rfl
@[simp] theorem State.setCore_queue (s : State) (c : Nat) (x : Core) (j : Nat) : (s.setCore c x).queue j = s.queue j := rfl
@[simp] theorem State.setCore_router (s : State) (c : Nat) (x : Core) (j : Nat) : (s.setCore c x).router j = s.router j := rfl

@[simp] theorem State.setPart_mem (s : State) (p : Nat) (q : Part) : (s.setPart p q).mem = s.mem := rfl
@[simp] theorem State.setPart_time (s : State) (p : Nat) (q : Part) : (s.setPart p q).time = s.time := rfl
@[simp] theorem State.setPart_timeRem (s : State) (p : Nat) (q : Part) : (s.setPart p q).timeRem = s.timeRem := rfl
@[simp] theorem State.setPart_cycle (s : State) (p : Nat) (q : Part) : (s.setPart p q).cycle = s.cycle := rfl
@[simp] theorem State.setPart_turnCore (s : State) (p : Nat) (q : Part) : (s.setPart p q).turnCore = s.turnCore := rfl
@[simp] theorem State.setPart_timePpb (s : State) (p : Nat) (q : Part) : (s.setPart p q).timePpb = s.timePpb := rfl
@[simp] theorem State.setPart_timeSlew (s : State) (p : Nat) (q : Part) : (s.setPart p q).timeSlew = s.timeSlew := rfl
@[simp] theorem State.setPart_ppsLatch (s : State) (p : Nat) (q : Part) : (s.setPart p q).ppsLatch = s.ppsLatch := rfl
@[simp] theorem State.setPart_recovery (s : State) (p : Nat) (q : Part) : (s.setPart p q).recovery = s.recovery := rfl
@[simp] theorem State.setPart_hostTold (s : State) (p : Nat) (q : Part) : (s.setPart p q).hostTold = s.hostTold := rfl
@[simp] theorem State.setPart_stopped (s : State) (p : Nat) (q : Part) : (s.setPart p q).stopped = s.stopped := rfl
@[simp] theorem State.setPart_romRev (s : State) (p : Nat) (q : Part) : (s.setPart p q).romRev = s.romRev := rfl
@[simp] theorem State.setPart_romImage (s : State) (p : Nat) (q : Part) : (s.setPart p q).romImage = s.romImage := rfl
@[simp] theorem State.setPart_puf (s : State) (p : Nat) (q : Part) : (s.setPart p q).puf = s.puf := rfl
@[simp] theorem State.setPart_seed (s : State) (p : Nat) (q : Part) : (s.setPart p q).seed = s.seed := rfl
@[simp] theorem State.setPart_patchRam (s : State) (p : Nat) (q : Part) : (s.setPart p q).patchRam = s.patchRam := rfl
@[simp] theorem State.setPart_timeLock (s : State) (p : Nat) (q : Part) : (s.setPart p q).timeLock = s.timeLock := rfl
@[simp] theorem State.setPart_lowerUsed (s : State) (p : Nat) (q : Part) : (s.setPart p q).lowerUsed = s.lowerUsed := rfl
@[simp] theorem State.setPart_flash (s : State) (p : Nat) (q : Part) : (s.setPart p q).flash = s.flash := rfl
@[simp] theorem State.setPart_dies (s : State) (p : Nat) (q : Part) : (s.setPart p q).dies = s.dies := rfl
@[simp] theorem State.setPart_queues (s : State) (p : Nat) (q : Part) : (s.setPart p q).queues = s.queues := rfl
@[simp] theorem State.setPart_lastBound (s : State) (p : Nat) (q : Part) : (s.setPart p q).lastBound = s.lastBound := rfl
@[simp] theorem State.setPart_fns (s : State) (p : Nat) (q : Part) : (s.setPart p q).fns = s.fns := rfl
@[simp] theorem State.setPart_ring (s : State) (p : Nat) (q : Part) : (s.setPart p q).ring = s.ring := rfl
@[simp] theorem State.setPart_pastRing (s : State) (p : Nat) (q : Part) : (s.setPart p q).pastRing = s.pastRing := rfl
@[simp] theorem State.setPart_ports (s : State) (p : Nat) (q : Part) : (s.setPart p q).ports = s.ports := rfl
@[simp] theorem State.setPart_keys (s : State) (p : Nat) (q : Part) : (s.setPart p q).keys = s.keys := rfl
@[simp] theorem State.setPart_memKeys (s : State) (p : Nat) (q : Part) : (s.setPart p q).memKeys = s.memKeys := rfl
@[simp] theorem State.setPart_cxl (s : State) (p : Nat) (q : Part) : (s.setPart p q).cxl = s.cxl := rfl
@[simp] theorem State.setPart_mbds (s : State) (p : Nat) (q : Part) : (s.setPart p q).mbds = s.mbds := rfl
@[simp] theorem State.setPart_routers (s : State) (p : Nat) (q : Part) : (s.setPart p q).routers = s.routers := rfl
@[simp] theorem State.setPart_objs (s : State) (p : Nat) (q : Part) : (s.setPart p q).objs = s.objs := rfl
@[simp] theorem State.setPart_insts (s : State) (p : Nat) (q : Part) : (s.setPart p q).insts = s.insts := rfl
@[simp] theorem State.setPart_gangs (s : State) (p : Nat) (q : Part) : (s.setPart p q).gangs = s.gangs := rfl
@[simp] theorem State.setPart_procs (s : State) (p : Nat) (q : Part) : (s.setPart p q).procs = s.procs := rfl
@[simp] theorem State.setPart_cores (s : State) (p : Nat) (q : Part) : (s.setPart p q).cores = s.cores := rfl
@[simp] theorem State.setPart_clusters (s : State) (p : Nat) (q : Part) : (s.setPart p q).clusters = s.clusters := rfl
@[simp] theorem State.setPart_engines (s : State) (p : Nat) (q : Part) : (s.setPart p q).engines = s.engines := rfl
@[simp] theorem State.setPart_txns (s : State) (p : Nat) (q : Part) : (s.setPart p q).txns = s.txns := rfl
@[simp] theorem State.setPart_recs (s : State) (p : Nat) (q : Part) : (s.setPart p q).recs = s.recs := rfl
@[simp] theorem State.setPart_managed (s : State) (p : Nat) (q : Part) : (s.setPart p q).managed = s.managed := rfl
@[simp] theorem State.setPart_farArr (s : State) (p : Nat) (q : Part) : (s.setPart p q).farArr = s.farArr := rfl
@[simp] theorem State.setPart_saved (s : State) (p : Nat) (q : Part) : (s.setPart p q).saved = s.saved := rfl
@[simp] theorem State.setPart_xmsgs (s : State) (p : Nat) (q : Part) : (s.setPart p q).xmsgs = s.xmsgs := rfl
@[simp] theorem State.setPart_flaws (s : State) (p : Nat) (q : Part) : (s.setPart p q).flaws = s.flaws := rfl
@[simp] theorem State.setPart_windows (s : State) (p : Nat) (q : Part) : (s.setPart p q).windows = s.windows := rfl
@[simp] theorem State.setPart_hot (s : State) (p : Nat) (q : Part) : (s.setPart p q).hot = s.hot := rfl
@[simp] theorem State.setPart_lineCount (s : State) (p : Nat) (q : Part) : (s.setPart p q).lineCount = s.lineCount := rfl
@[simp] theorem State.setPart_grans (s : State) (p : Nat) (q : Part) : (s.setPart p q).grans = s.grans := rfl
@[simp] theorem State.setPart_tokens (s : State) (p : Nat) (q : Part) : (s.setPart p q).tokens = s.tokens := rfl
@[simp] theorem State.setPart_motions (s : State) (p : Nat) (q : Part) : (s.setPart p q).motions = s.motions := rfl
@[simp] theorem State.setPart_nextTxn (s : State) (p : Nat) (q : Part) : (s.setPart p q).nextTxn = s.nextTxn := rfl
@[simp] theorem State.setPart_nextId (s : State) (p : Nat) (q : Part) : (s.setPart p q).nextId = s.nextId := rfl
@[simp] theorem State.setPart_fresh (s : State) (p : Nat) (q : Part) : (s.setPart p q).fresh = s.fresh := rfl
@[simp] theorem State.setPart_moduleId (s : State) (p : Nat) (q : Part) : (s.setPart p q).moduleId = s.moduleId := rfl
@[simp] theorem State.setPart_agenda (s : State) (p : Nat) (q : Part) : (s.setPart p q).agenda = s.agenda := rfl
@[simp] theorem State.setPart_auto (s : State) (p : Nat) (q : Part) : (s.setPart p q).auto = s.auto := rfl
@[simp] theorem State.setPart_issue (s : State) (p : Nat) (q : Part) : (s.setPart p q).issue = s.issue := rfl
@[simp] theorem State.setPart_raised (s : State) (p : Nat) (q : Part) : (s.setPart p q).raised = s.raised := rfl
@[simp] theorem State.setPart_proc (s : State) (p : Nat) (q : Part) (j : Nat) : (s.setPart p q).proc j = s.proc j := rfl
@[simp] theorem State.setPart_core (s : State) (p : Nat) (q : Part) (j : Nat) : (s.setPart p q).core j = s.core j := rfl
@[simp] theorem State.setPart_cluster (s : State) (p : Nat) (q : Part) (j : Nat) : (s.setPart p q).cluster j = s.cluster j := rfl
@[simp] theorem State.setPart_engine (s : State) (p : Nat) (q : Part) (j : Nat) : (s.setPart p q).engine j = s.engine j := rfl
@[simp] theorem State.setPart_die (s : State) (p : Nat) (q : Part) (j : Nat) : (s.setPart p q).die j = s.die j := rfl
@[simp] theorem State.setPart_fn (s : State) (p : Nat) (q : Part) (j : Nat) : (s.setPart p q).fn j = s.fn j := rfl
@[simp] theorem State.setPart_port (s : State) (p : Nat) (q : Part) (j : Nat) : (s.setPart p q).port j = s.port j := rfl
@[simp] theorem State.setPart_mbd (s : State) (p : Nat) (q : Part) (j : Nat) : (s.setPart p q).mbd j = s.mbd j := rfl
@[simp] theorem State.setPart_inst (s : State) (p : Nat) (q : Part) (j : Nat) : (s.setPart p q).inst j = s.inst j := rfl
@[simp] theorem State.setPart_queue (s : State) (p : Nat) (q : Part) (j : Nat) : (s.setPart p q).queue j = s.queue j := rfl
@[simp] theorem State.setPart_router (s : State) (p : Nat) (q : Part) (j : Nat) : (s.setPart p q).router j = s.router j := rfl

@[simp] theorem State.setCluster_mem (s : State) (c : Nat) (x : Cluster) : (s.setCluster c x).mem = s.mem := rfl
@[simp] theorem State.setCluster_time (s : State) (c : Nat) (x : Cluster) : (s.setCluster c x).time = s.time := rfl
@[simp] theorem State.setCluster_timeRem (s : State) (c : Nat) (x : Cluster) : (s.setCluster c x).timeRem = s.timeRem := rfl
@[simp] theorem State.setCluster_cycle (s : State) (c : Nat) (x : Cluster) : (s.setCluster c x).cycle = s.cycle := rfl
@[simp] theorem State.setCluster_turnCore (s : State) (c : Nat) (x : Cluster) : (s.setCluster c x).turnCore = s.turnCore := rfl
@[simp] theorem State.setCluster_timePpb (s : State) (c : Nat) (x : Cluster) : (s.setCluster c x).timePpb = s.timePpb := rfl
@[simp] theorem State.setCluster_timeSlew (s : State) (c : Nat) (x : Cluster) : (s.setCluster c x).timeSlew = s.timeSlew := rfl
@[simp] theorem State.setCluster_ppsLatch (s : State) (c : Nat) (x : Cluster) : (s.setCluster c x).ppsLatch = s.ppsLatch := rfl
@[simp] theorem State.setCluster_recovery (s : State) (c : Nat) (x : Cluster) : (s.setCluster c x).recovery = s.recovery := rfl
@[simp] theorem State.setCluster_hostTold (s : State) (c : Nat) (x : Cluster) : (s.setCluster c x).hostTold = s.hostTold := rfl
@[simp] theorem State.setCluster_stopped (s : State) (c : Nat) (x : Cluster) : (s.setCluster c x).stopped = s.stopped := rfl
@[simp] theorem State.setCluster_romRev (s : State) (c : Nat) (x : Cluster) : (s.setCluster c x).romRev = s.romRev := rfl
@[simp] theorem State.setCluster_romImage (s : State) (c : Nat) (x : Cluster) : (s.setCluster c x).romImage = s.romImage := rfl
@[simp] theorem State.setCluster_puf (s : State) (c : Nat) (x : Cluster) : (s.setCluster c x).puf = s.puf := rfl
@[simp] theorem State.setCluster_seed (s : State) (c : Nat) (x : Cluster) : (s.setCluster c x).seed = s.seed := rfl
@[simp] theorem State.setCluster_patchRam (s : State) (c : Nat) (x : Cluster) : (s.setCluster c x).patchRam = s.patchRam := rfl
@[simp] theorem State.setCluster_timeLock (s : State) (c : Nat) (x : Cluster) : (s.setCluster c x).timeLock = s.timeLock := rfl
@[simp] theorem State.setCluster_lowerUsed (s : State) (c : Nat) (x : Cluster) : (s.setCluster c x).lowerUsed = s.lowerUsed := rfl
@[simp] theorem State.setCluster_flash (s : State) (c : Nat) (x : Cluster) : (s.setCluster c x).flash = s.flash := rfl
@[simp] theorem State.setCluster_dies (s : State) (c : Nat) (x : Cluster) : (s.setCluster c x).dies = s.dies := rfl
@[simp] theorem State.setCluster_queues (s : State) (c : Nat) (x : Cluster) : (s.setCluster c x).queues = s.queues := rfl
@[simp] theorem State.setCluster_lastBound (s : State) (c : Nat) (x : Cluster) : (s.setCluster c x).lastBound = s.lastBound := rfl
@[simp] theorem State.setCluster_fns (s : State) (c : Nat) (x : Cluster) : (s.setCluster c x).fns = s.fns := rfl
@[simp] theorem State.setCluster_ring (s : State) (c : Nat) (x : Cluster) : (s.setCluster c x).ring = s.ring := rfl
@[simp] theorem State.setCluster_pastRing (s : State) (c : Nat) (x : Cluster) : (s.setCluster c x).pastRing = s.pastRing := rfl
@[simp] theorem State.setCluster_ports (s : State) (c : Nat) (x : Cluster) : (s.setCluster c x).ports = s.ports := rfl
@[simp] theorem State.setCluster_keys (s : State) (c : Nat) (x : Cluster) : (s.setCluster c x).keys = s.keys := rfl
@[simp] theorem State.setCluster_memKeys (s : State) (c : Nat) (x : Cluster) : (s.setCluster c x).memKeys = s.memKeys := rfl
@[simp] theorem State.setCluster_cxl (s : State) (c : Nat) (x : Cluster) : (s.setCluster c x).cxl = s.cxl := rfl
@[simp] theorem State.setCluster_mbds (s : State) (c : Nat) (x : Cluster) : (s.setCluster c x).mbds = s.mbds := rfl
@[simp] theorem State.setCluster_routers (s : State) (c : Nat) (x : Cluster) : (s.setCluster c x).routers = s.routers := rfl
@[simp] theorem State.setCluster_parts (s : State) (c : Nat) (x : Cluster) : (s.setCluster c x).parts = s.parts := rfl
@[simp] theorem State.setCluster_objs (s : State) (c : Nat) (x : Cluster) : (s.setCluster c x).objs = s.objs := rfl
@[simp] theorem State.setCluster_insts (s : State) (c : Nat) (x : Cluster) : (s.setCluster c x).insts = s.insts := rfl
@[simp] theorem State.setCluster_gangs (s : State) (c : Nat) (x : Cluster) : (s.setCluster c x).gangs = s.gangs := rfl
@[simp] theorem State.setCluster_procs (s : State) (c : Nat) (x : Cluster) : (s.setCluster c x).procs = s.procs := rfl
@[simp] theorem State.setCluster_cores (s : State) (c : Nat) (x : Cluster) : (s.setCluster c x).cores = s.cores := rfl
@[simp] theorem State.setCluster_engines (s : State) (c : Nat) (x : Cluster) : (s.setCluster c x).engines = s.engines := rfl
@[simp] theorem State.setCluster_txns (s : State) (c : Nat) (x : Cluster) : (s.setCluster c x).txns = s.txns := rfl
@[simp] theorem State.setCluster_recs (s : State) (c : Nat) (x : Cluster) : (s.setCluster c x).recs = s.recs := rfl
@[simp] theorem State.setCluster_managed (s : State) (c : Nat) (x : Cluster) : (s.setCluster c x).managed = s.managed := rfl
@[simp] theorem State.setCluster_farArr (s : State) (c : Nat) (x : Cluster) : (s.setCluster c x).farArr = s.farArr := rfl
@[simp] theorem State.setCluster_saved (s : State) (c : Nat) (x : Cluster) : (s.setCluster c x).saved = s.saved := rfl
@[simp] theorem State.setCluster_xmsgs (s : State) (c : Nat) (x : Cluster) : (s.setCluster c x).xmsgs = s.xmsgs := rfl
@[simp] theorem State.setCluster_flaws (s : State) (c : Nat) (x : Cluster) : (s.setCluster c x).flaws = s.flaws := rfl
@[simp] theorem State.setCluster_windows (s : State) (c : Nat) (x : Cluster) : (s.setCluster c x).windows = s.windows := rfl
@[simp] theorem State.setCluster_hot (s : State) (c : Nat) (x : Cluster) : (s.setCluster c x).hot = s.hot := rfl
@[simp] theorem State.setCluster_lineCount (s : State) (c : Nat) (x : Cluster) : (s.setCluster c x).lineCount = s.lineCount := rfl
@[simp] theorem State.setCluster_grans (s : State) (c : Nat) (x : Cluster) : (s.setCluster c x).grans = s.grans := rfl
@[simp] theorem State.setCluster_tokens (s : State) (c : Nat) (x : Cluster) : (s.setCluster c x).tokens = s.tokens := rfl
@[simp] theorem State.setCluster_motions (s : State) (c : Nat) (x : Cluster) : (s.setCluster c x).motions = s.motions := rfl
@[simp] theorem State.setCluster_nextTxn (s : State) (c : Nat) (x : Cluster) : (s.setCluster c x).nextTxn = s.nextTxn := rfl
@[simp] theorem State.setCluster_nextId (s : State) (c : Nat) (x : Cluster) : (s.setCluster c x).nextId = s.nextId := rfl
@[simp] theorem State.setCluster_fresh (s : State) (c : Nat) (x : Cluster) : (s.setCluster c x).fresh = s.fresh := rfl
@[simp] theorem State.setCluster_moduleId (s : State) (c : Nat) (x : Cluster) : (s.setCluster c x).moduleId = s.moduleId := rfl
@[simp] theorem State.setCluster_agenda (s : State) (c : Nat) (x : Cluster) : (s.setCluster c x).agenda = s.agenda := rfl
@[simp] theorem State.setCluster_auto (s : State) (c : Nat) (x : Cluster) : (s.setCluster c x).auto = s.auto := rfl
@[simp] theorem State.setCluster_issue (s : State) (c : Nat) (x : Cluster) : (s.setCluster c x).issue = s.issue := rfl
@[simp] theorem State.setCluster_raised (s : State) (c : Nat) (x : Cluster) : (s.setCluster c x).raised = s.raised := rfl
@[simp] theorem State.setCluster_proc (s : State) (c : Nat) (x : Cluster) (j : Nat) : (s.setCluster c x).proc j = s.proc j := rfl
@[simp] theorem State.setCluster_core (s : State) (c : Nat) (x : Cluster) (j : Nat) : (s.setCluster c x).core j = s.core j := rfl
@[simp] theorem State.setCluster_part (s : State) (c : Nat) (x : Cluster) (j : Nat) : (s.setCluster c x).part j = s.part j := rfl
@[simp] theorem State.setCluster_engine (s : State) (c : Nat) (x : Cluster) (j : Nat) : (s.setCluster c x).engine j = s.engine j := rfl
@[simp] theorem State.setCluster_die (s : State) (c : Nat) (x : Cluster) (j : Nat) : (s.setCluster c x).die j = s.die j := rfl
@[simp] theorem State.setCluster_fn (s : State) (c : Nat) (x : Cluster) (j : Nat) : (s.setCluster c x).fn j = s.fn j := rfl
@[simp] theorem State.setCluster_port (s : State) (c : Nat) (x : Cluster) (j : Nat) : (s.setCluster c x).port j = s.port j := rfl
@[simp] theorem State.setCluster_mbd (s : State) (c : Nat) (x : Cluster) (j : Nat) : (s.setCluster c x).mbd j = s.mbd j := rfl
@[simp] theorem State.setCluster_inst (s : State) (c : Nat) (x : Cluster) (j : Nat) : (s.setCluster c x).inst j = s.inst j := rfl
@[simp] theorem State.setCluster_queue (s : State) (c : Nat) (x : Cluster) (j : Nat) : (s.setCluster c x).queue j = s.queue j := rfl
@[simp] theorem State.setCluster_router (s : State) (c : Nat) (x : Cluster) (j : Nat) : (s.setCluster c x).router j = s.router j := rfl

@[simp] theorem State.setEngine_mem (s : State) (e : Nat) (x : Engine) : (s.setEngine e x).mem = s.mem := rfl
@[simp] theorem State.setEngine_time (s : State) (e : Nat) (x : Engine) : (s.setEngine e x).time = s.time := rfl
@[simp] theorem State.setEngine_timeRem (s : State) (e : Nat) (x : Engine) : (s.setEngine e x).timeRem = s.timeRem := rfl
@[simp] theorem State.setEngine_cycle (s : State) (e : Nat) (x : Engine) : (s.setEngine e x).cycle = s.cycle := rfl
@[simp] theorem State.setEngine_turnCore (s : State) (e : Nat) (x : Engine) : (s.setEngine e x).turnCore = s.turnCore := rfl
@[simp] theorem State.setEngine_timePpb (s : State) (e : Nat) (x : Engine) : (s.setEngine e x).timePpb = s.timePpb := rfl
@[simp] theorem State.setEngine_timeSlew (s : State) (e : Nat) (x : Engine) : (s.setEngine e x).timeSlew = s.timeSlew := rfl
@[simp] theorem State.setEngine_ppsLatch (s : State) (e : Nat) (x : Engine) : (s.setEngine e x).ppsLatch = s.ppsLatch := rfl
@[simp] theorem State.setEngine_recovery (s : State) (e : Nat) (x : Engine) : (s.setEngine e x).recovery = s.recovery := rfl
@[simp] theorem State.setEngine_hostTold (s : State) (e : Nat) (x : Engine) : (s.setEngine e x).hostTold = s.hostTold := rfl
@[simp] theorem State.setEngine_stopped (s : State) (e : Nat) (x : Engine) : (s.setEngine e x).stopped = s.stopped := rfl
@[simp] theorem State.setEngine_romRev (s : State) (e : Nat) (x : Engine) : (s.setEngine e x).romRev = s.romRev := rfl
@[simp] theorem State.setEngine_romImage (s : State) (e : Nat) (x : Engine) : (s.setEngine e x).romImage = s.romImage := rfl
@[simp] theorem State.setEngine_puf (s : State) (e : Nat) (x : Engine) : (s.setEngine e x).puf = s.puf := rfl
@[simp] theorem State.setEngine_seed (s : State) (e : Nat) (x : Engine) : (s.setEngine e x).seed = s.seed := rfl
@[simp] theorem State.setEngine_patchRam (s : State) (e : Nat) (x : Engine) : (s.setEngine e x).patchRam = s.patchRam := rfl
@[simp] theorem State.setEngine_timeLock (s : State) (e : Nat) (x : Engine) : (s.setEngine e x).timeLock = s.timeLock := rfl
@[simp] theorem State.setEngine_lowerUsed (s : State) (e : Nat) (x : Engine) : (s.setEngine e x).lowerUsed = s.lowerUsed := rfl
@[simp] theorem State.setEngine_flash (s : State) (e : Nat) (x : Engine) : (s.setEngine e x).flash = s.flash := rfl
@[simp] theorem State.setEngine_dies (s : State) (e : Nat) (x : Engine) : (s.setEngine e x).dies = s.dies := rfl
@[simp] theorem State.setEngine_queues (s : State) (e : Nat) (x : Engine) : (s.setEngine e x).queues = s.queues := rfl
@[simp] theorem State.setEngine_lastBound (s : State) (e : Nat) (x : Engine) : (s.setEngine e x).lastBound = s.lastBound := rfl
@[simp] theorem State.setEngine_fns (s : State) (e : Nat) (x : Engine) : (s.setEngine e x).fns = s.fns := rfl
@[simp] theorem State.setEngine_ring (s : State) (e : Nat) (x : Engine) : (s.setEngine e x).ring = s.ring := rfl
@[simp] theorem State.setEngine_pastRing (s : State) (e : Nat) (x : Engine) : (s.setEngine e x).pastRing = s.pastRing := rfl
@[simp] theorem State.setEngine_ports (s : State) (e : Nat) (x : Engine) : (s.setEngine e x).ports = s.ports := rfl
@[simp] theorem State.setEngine_keys (s : State) (e : Nat) (x : Engine) : (s.setEngine e x).keys = s.keys := rfl
@[simp] theorem State.setEngine_memKeys (s : State) (e : Nat) (x : Engine) : (s.setEngine e x).memKeys = s.memKeys := rfl
@[simp] theorem State.setEngine_cxl (s : State) (e : Nat) (x : Engine) : (s.setEngine e x).cxl = s.cxl := rfl
@[simp] theorem State.setEngine_mbds (s : State) (e : Nat) (x : Engine) : (s.setEngine e x).mbds = s.mbds := rfl
@[simp] theorem State.setEngine_routers (s : State) (e : Nat) (x : Engine) : (s.setEngine e x).routers = s.routers := rfl
@[simp] theorem State.setEngine_parts (s : State) (e : Nat) (x : Engine) : (s.setEngine e x).parts = s.parts := rfl
@[simp] theorem State.setEngine_objs (s : State) (e : Nat) (x : Engine) : (s.setEngine e x).objs = s.objs := rfl
@[simp] theorem State.setEngine_insts (s : State) (e : Nat) (x : Engine) : (s.setEngine e x).insts = s.insts := rfl
@[simp] theorem State.setEngine_gangs (s : State) (e : Nat) (x : Engine) : (s.setEngine e x).gangs = s.gangs := rfl
@[simp] theorem State.setEngine_procs (s : State) (e : Nat) (x : Engine) : (s.setEngine e x).procs = s.procs := rfl
@[simp] theorem State.setEngine_cores (s : State) (e : Nat) (x : Engine) : (s.setEngine e x).cores = s.cores := rfl
@[simp] theorem State.setEngine_clusters (s : State) (e : Nat) (x : Engine) : (s.setEngine e x).clusters = s.clusters := rfl
@[simp] theorem State.setEngine_txns (s : State) (e : Nat) (x : Engine) : (s.setEngine e x).txns = s.txns := rfl
@[simp] theorem State.setEngine_recs (s : State) (e : Nat) (x : Engine) : (s.setEngine e x).recs = s.recs := rfl
@[simp] theorem State.setEngine_managed (s : State) (e : Nat) (x : Engine) : (s.setEngine e x).managed = s.managed := rfl
@[simp] theorem State.setEngine_farArr (s : State) (e : Nat) (x : Engine) : (s.setEngine e x).farArr = s.farArr := rfl
@[simp] theorem State.setEngine_saved (s : State) (e : Nat) (x : Engine) : (s.setEngine e x).saved = s.saved := rfl
@[simp] theorem State.setEngine_xmsgs (s : State) (e : Nat) (x : Engine) : (s.setEngine e x).xmsgs = s.xmsgs := rfl
@[simp] theorem State.setEngine_flaws (s : State) (e : Nat) (x : Engine) : (s.setEngine e x).flaws = s.flaws := rfl
@[simp] theorem State.setEngine_windows (s : State) (e : Nat) (x : Engine) : (s.setEngine e x).windows = s.windows := rfl
@[simp] theorem State.setEngine_hot (s : State) (e : Nat) (x : Engine) : (s.setEngine e x).hot = s.hot := rfl
@[simp] theorem State.setEngine_lineCount (s : State) (e : Nat) (x : Engine) : (s.setEngine e x).lineCount = s.lineCount := rfl
@[simp] theorem State.setEngine_grans (s : State) (e : Nat) (x : Engine) : (s.setEngine e x).grans = s.grans := rfl
@[simp] theorem State.setEngine_tokens (s : State) (e : Nat) (x : Engine) : (s.setEngine e x).tokens = s.tokens := rfl
@[simp] theorem State.setEngine_motions (s : State) (e : Nat) (x : Engine) : (s.setEngine e x).motions = s.motions := rfl
@[simp] theorem State.setEngine_nextTxn (s : State) (e : Nat) (x : Engine) : (s.setEngine e x).nextTxn = s.nextTxn := rfl
@[simp] theorem State.setEngine_nextId (s : State) (e : Nat) (x : Engine) : (s.setEngine e x).nextId = s.nextId := rfl
@[simp] theorem State.setEngine_fresh (s : State) (e : Nat) (x : Engine) : (s.setEngine e x).fresh = s.fresh := rfl
@[simp] theorem State.setEngine_moduleId (s : State) (e : Nat) (x : Engine) : (s.setEngine e x).moduleId = s.moduleId := rfl
@[simp] theorem State.setEngine_agenda (s : State) (e : Nat) (x : Engine) : (s.setEngine e x).agenda = s.agenda := rfl
@[simp] theorem State.setEngine_auto (s : State) (e : Nat) (x : Engine) : (s.setEngine e x).auto = s.auto := rfl
@[simp] theorem State.setEngine_issue (s : State) (e : Nat) (x : Engine) : (s.setEngine e x).issue = s.issue := rfl
@[simp] theorem State.setEngine_raised (s : State) (e : Nat) (x : Engine) : (s.setEngine e x).raised = s.raised := rfl
@[simp] theorem State.setEngine_proc (s : State) (e : Nat) (x : Engine) (j : Nat) : (s.setEngine e x).proc j = s.proc j := rfl
@[simp] theorem State.setEngine_core (s : State) (e : Nat) (x : Engine) (j : Nat) : (s.setEngine e x).core j = s.core j := rfl
@[simp] theorem State.setEngine_part (s : State) (e : Nat) (x : Engine) (j : Nat) : (s.setEngine e x).part j = s.part j := rfl
@[simp] theorem State.setEngine_cluster (s : State) (e : Nat) (x : Engine) (j : Nat) : (s.setEngine e x).cluster j = s.cluster j := rfl
@[simp] theorem State.setEngine_die (s : State) (e : Nat) (x : Engine) (j : Nat) : (s.setEngine e x).die j = s.die j := rfl
@[simp] theorem State.setEngine_fn (s : State) (e : Nat) (x : Engine) (j : Nat) : (s.setEngine e x).fn j = s.fn j := rfl
@[simp] theorem State.setEngine_port (s : State) (e : Nat) (x : Engine) (j : Nat) : (s.setEngine e x).port j = s.port j := rfl
@[simp] theorem State.setEngine_mbd (s : State) (e : Nat) (x : Engine) (j : Nat) : (s.setEngine e x).mbd j = s.mbd j := rfl
@[simp] theorem State.setEngine_inst (s : State) (e : Nat) (x : Engine) (j : Nat) : (s.setEngine e x).inst j = s.inst j := rfl
@[simp] theorem State.setEngine_queue (s : State) (e : Nat) (x : Engine) (j : Nat) : (s.setEngine e x).queue j = s.queue j := rfl
@[simp] theorem State.setEngine_router (s : State) (e : Nat) (x : Engine) (j : Nat) : (s.setEngine e x).router j = s.router j := rfl

@[simp] theorem State.setDie_mem (s : State) (d : Nat) (x : Die) : (s.setDie d x).mem = s.mem := rfl
@[simp] theorem State.setDie_time (s : State) (d : Nat) (x : Die) : (s.setDie d x).time = s.time := rfl
@[simp] theorem State.setDie_timeRem (s : State) (d : Nat) (x : Die) : (s.setDie d x).timeRem = s.timeRem := rfl
@[simp] theorem State.setDie_cycle (s : State) (d : Nat) (x : Die) : (s.setDie d x).cycle = s.cycle := rfl
@[simp] theorem State.setDie_turnCore (s : State) (d : Nat) (x : Die) : (s.setDie d x).turnCore = s.turnCore := rfl
@[simp] theorem State.setDie_timePpb (s : State) (d : Nat) (x : Die) : (s.setDie d x).timePpb = s.timePpb := rfl
@[simp] theorem State.setDie_timeSlew (s : State) (d : Nat) (x : Die) : (s.setDie d x).timeSlew = s.timeSlew := rfl
@[simp] theorem State.setDie_ppsLatch (s : State) (d : Nat) (x : Die) : (s.setDie d x).ppsLatch = s.ppsLatch := rfl
@[simp] theorem State.setDie_recovery (s : State) (d : Nat) (x : Die) : (s.setDie d x).recovery = s.recovery := rfl
@[simp] theorem State.setDie_hostTold (s : State) (d : Nat) (x : Die) : (s.setDie d x).hostTold = s.hostTold := rfl
@[simp] theorem State.setDie_stopped (s : State) (d : Nat) (x : Die) : (s.setDie d x).stopped = s.stopped := rfl
@[simp] theorem State.setDie_romRev (s : State) (d : Nat) (x : Die) : (s.setDie d x).romRev = s.romRev := rfl
@[simp] theorem State.setDie_romImage (s : State) (d : Nat) (x : Die) : (s.setDie d x).romImage = s.romImage := rfl
@[simp] theorem State.setDie_puf (s : State) (d : Nat) (x : Die) : (s.setDie d x).puf = s.puf := rfl
@[simp] theorem State.setDie_seed (s : State) (d : Nat) (x : Die) : (s.setDie d x).seed = s.seed := rfl
@[simp] theorem State.setDie_patchRam (s : State) (d : Nat) (x : Die) : (s.setDie d x).patchRam = s.patchRam := rfl
@[simp] theorem State.setDie_timeLock (s : State) (d : Nat) (x : Die) : (s.setDie d x).timeLock = s.timeLock := rfl
@[simp] theorem State.setDie_lowerUsed (s : State) (d : Nat) (x : Die) : (s.setDie d x).lowerUsed = s.lowerUsed := rfl
@[simp] theorem State.setDie_flash (s : State) (d : Nat) (x : Die) : (s.setDie d x).flash = s.flash := rfl
@[simp] theorem State.setDie_queues (s : State) (d : Nat) (x : Die) : (s.setDie d x).queues = s.queues := rfl
@[simp] theorem State.setDie_lastBound (s : State) (d : Nat) (x : Die) : (s.setDie d x).lastBound = s.lastBound := rfl
@[simp] theorem State.setDie_fns (s : State) (d : Nat) (x : Die) : (s.setDie d x).fns = s.fns := rfl
@[simp] theorem State.setDie_ring (s : State) (d : Nat) (x : Die) : (s.setDie d x).ring = s.ring := rfl
@[simp] theorem State.setDie_pastRing (s : State) (d : Nat) (x : Die) : (s.setDie d x).pastRing = s.pastRing := rfl
@[simp] theorem State.setDie_ports (s : State) (d : Nat) (x : Die) : (s.setDie d x).ports = s.ports := rfl
@[simp] theorem State.setDie_keys (s : State) (d : Nat) (x : Die) : (s.setDie d x).keys = s.keys := rfl
@[simp] theorem State.setDie_memKeys (s : State) (d : Nat) (x : Die) : (s.setDie d x).memKeys = s.memKeys := rfl
@[simp] theorem State.setDie_cxl (s : State) (d : Nat) (x : Die) : (s.setDie d x).cxl = s.cxl := rfl
@[simp] theorem State.setDie_mbds (s : State) (d : Nat) (x : Die) : (s.setDie d x).mbds = s.mbds := rfl
@[simp] theorem State.setDie_routers (s : State) (d : Nat) (x : Die) : (s.setDie d x).routers = s.routers := rfl
@[simp] theorem State.setDie_parts (s : State) (d : Nat) (x : Die) : (s.setDie d x).parts = s.parts := rfl
@[simp] theorem State.setDie_objs (s : State) (d : Nat) (x : Die) : (s.setDie d x).objs = s.objs := rfl
@[simp] theorem State.setDie_insts (s : State) (d : Nat) (x : Die) : (s.setDie d x).insts = s.insts := rfl
@[simp] theorem State.setDie_gangs (s : State) (d : Nat) (x : Die) : (s.setDie d x).gangs = s.gangs := rfl
@[simp] theorem State.setDie_procs (s : State) (d : Nat) (x : Die) : (s.setDie d x).procs = s.procs := rfl
@[simp] theorem State.setDie_cores (s : State) (d : Nat) (x : Die) : (s.setDie d x).cores = s.cores := rfl
@[simp] theorem State.setDie_clusters (s : State) (d : Nat) (x : Die) : (s.setDie d x).clusters = s.clusters := rfl
@[simp] theorem State.setDie_engines (s : State) (d : Nat) (x : Die) : (s.setDie d x).engines = s.engines := rfl
@[simp] theorem State.setDie_txns (s : State) (d : Nat) (x : Die) : (s.setDie d x).txns = s.txns := rfl
@[simp] theorem State.setDie_recs (s : State) (d : Nat) (x : Die) : (s.setDie d x).recs = s.recs := rfl
@[simp] theorem State.setDie_managed (s : State) (d : Nat) (x : Die) : (s.setDie d x).managed = s.managed := rfl
@[simp] theorem State.setDie_farArr (s : State) (d : Nat) (x : Die) : (s.setDie d x).farArr = s.farArr := rfl
@[simp] theorem State.setDie_saved (s : State) (d : Nat) (x : Die) : (s.setDie d x).saved = s.saved := rfl
@[simp] theorem State.setDie_xmsgs (s : State) (d : Nat) (x : Die) : (s.setDie d x).xmsgs = s.xmsgs := rfl
@[simp] theorem State.setDie_flaws (s : State) (d : Nat) (x : Die) : (s.setDie d x).flaws = s.flaws := rfl
@[simp] theorem State.setDie_windows (s : State) (d : Nat) (x : Die) : (s.setDie d x).windows = s.windows := rfl
@[simp] theorem State.setDie_hot (s : State) (d : Nat) (x : Die) : (s.setDie d x).hot = s.hot := rfl
@[simp] theorem State.setDie_lineCount (s : State) (d : Nat) (x : Die) : (s.setDie d x).lineCount = s.lineCount := rfl
@[simp] theorem State.setDie_grans (s : State) (d : Nat) (x : Die) : (s.setDie d x).grans = s.grans := rfl
@[simp] theorem State.setDie_tokens (s : State) (d : Nat) (x : Die) : (s.setDie d x).tokens = s.tokens := rfl
@[simp] theorem State.setDie_motions (s : State) (d : Nat) (x : Die) : (s.setDie d x).motions = s.motions := rfl
@[simp] theorem State.setDie_nextTxn (s : State) (d : Nat) (x : Die) : (s.setDie d x).nextTxn = s.nextTxn := rfl
@[simp] theorem State.setDie_nextId (s : State) (d : Nat) (x : Die) : (s.setDie d x).nextId = s.nextId := rfl
@[simp] theorem State.setDie_fresh (s : State) (d : Nat) (x : Die) : (s.setDie d x).fresh = s.fresh := rfl
@[simp] theorem State.setDie_moduleId (s : State) (d : Nat) (x : Die) : (s.setDie d x).moduleId = s.moduleId := rfl
@[simp] theorem State.setDie_agenda (s : State) (d : Nat) (x : Die) : (s.setDie d x).agenda = s.agenda := rfl
@[simp] theorem State.setDie_auto (s : State) (d : Nat) (x : Die) : (s.setDie d x).auto = s.auto := rfl
@[simp] theorem State.setDie_issue (s : State) (d : Nat) (x : Die) : (s.setDie d x).issue = s.issue := rfl
@[simp] theorem State.setDie_raised (s : State) (d : Nat) (x : Die) : (s.setDie d x).raised = s.raised := rfl
@[simp] theorem State.setDie_proc (s : State) (d : Nat) (x : Die) (j : Nat) : (s.setDie d x).proc j = s.proc j := rfl
@[simp] theorem State.setDie_core (s : State) (d : Nat) (x : Die) (j : Nat) : (s.setDie d x).core j = s.core j := rfl
@[simp] theorem State.setDie_part (s : State) (d : Nat) (x : Die) (j : Nat) : (s.setDie d x).part j = s.part j := rfl
@[simp] theorem State.setDie_cluster (s : State) (d : Nat) (x : Die) (j : Nat) : (s.setDie d x).cluster j = s.cluster j := rfl
@[simp] theorem State.setDie_engine (s : State) (d : Nat) (x : Die) (j : Nat) : (s.setDie d x).engine j = s.engine j := rfl
@[simp] theorem State.setDie_fn (s : State) (d : Nat) (x : Die) (j : Nat) : (s.setDie d x).fn j = s.fn j := rfl
@[simp] theorem State.setDie_port (s : State) (d : Nat) (x : Die) (j : Nat) : (s.setDie d x).port j = s.port j := rfl
@[simp] theorem State.setDie_mbd (s : State) (d : Nat) (x : Die) (j : Nat) : (s.setDie d x).mbd j = s.mbd j := rfl
@[simp] theorem State.setDie_inst (s : State) (d : Nat) (x : Die) (j : Nat) : (s.setDie d x).inst j = s.inst j := rfl
@[simp] theorem State.setDie_queue (s : State) (d : Nat) (x : Die) (j : Nat) : (s.setDie d x).queue j = s.queue j := rfl
@[simp] theorem State.setDie_router (s : State) (d : Nat) (x : Die) (j : Nat) : (s.setDie d x).router j = s.router j := rfl

@[simp] theorem State.setFn_mem (s : State) (f : Nat) (x : Fn) : (s.setFn f x).mem = s.mem := rfl
@[simp] theorem State.setFn_time (s : State) (f : Nat) (x : Fn) : (s.setFn f x).time = s.time := rfl
@[simp] theorem State.setFn_timeRem (s : State) (f : Nat) (x : Fn) : (s.setFn f x).timeRem = s.timeRem := rfl
@[simp] theorem State.setFn_cycle (s : State) (f : Nat) (x : Fn) : (s.setFn f x).cycle = s.cycle := rfl
@[simp] theorem State.setFn_turnCore (s : State) (f : Nat) (x : Fn) : (s.setFn f x).turnCore = s.turnCore := rfl
@[simp] theorem State.setFn_timePpb (s : State) (f : Nat) (x : Fn) : (s.setFn f x).timePpb = s.timePpb := rfl
@[simp] theorem State.setFn_timeSlew (s : State) (f : Nat) (x : Fn) : (s.setFn f x).timeSlew = s.timeSlew := rfl
@[simp] theorem State.setFn_ppsLatch (s : State) (f : Nat) (x : Fn) : (s.setFn f x).ppsLatch = s.ppsLatch := rfl
@[simp] theorem State.setFn_recovery (s : State) (f : Nat) (x : Fn) : (s.setFn f x).recovery = s.recovery := rfl
@[simp] theorem State.setFn_hostTold (s : State) (f : Nat) (x : Fn) : (s.setFn f x).hostTold = s.hostTold := rfl
@[simp] theorem State.setFn_stopped (s : State) (f : Nat) (x : Fn) : (s.setFn f x).stopped = s.stopped := rfl
@[simp] theorem State.setFn_romRev (s : State) (f : Nat) (x : Fn) : (s.setFn f x).romRev = s.romRev := rfl
@[simp] theorem State.setFn_romImage (s : State) (f : Nat) (x : Fn) : (s.setFn f x).romImage = s.romImage := rfl
@[simp] theorem State.setFn_puf (s : State) (f : Nat) (x : Fn) : (s.setFn f x).puf = s.puf := rfl
@[simp] theorem State.setFn_seed (s : State) (f : Nat) (x : Fn) : (s.setFn f x).seed = s.seed := rfl
@[simp] theorem State.setFn_patchRam (s : State) (f : Nat) (x : Fn) : (s.setFn f x).patchRam = s.patchRam := rfl
@[simp] theorem State.setFn_timeLock (s : State) (f : Nat) (x : Fn) : (s.setFn f x).timeLock = s.timeLock := rfl
@[simp] theorem State.setFn_lowerUsed (s : State) (f : Nat) (x : Fn) : (s.setFn f x).lowerUsed = s.lowerUsed := rfl
@[simp] theorem State.setFn_flash (s : State) (f : Nat) (x : Fn) : (s.setFn f x).flash = s.flash := rfl
@[simp] theorem State.setFn_dies (s : State) (f : Nat) (x : Fn) : (s.setFn f x).dies = s.dies := rfl
@[simp] theorem State.setFn_queues (s : State) (f : Nat) (x : Fn) : (s.setFn f x).queues = s.queues := rfl
@[simp] theorem State.setFn_lastBound (s : State) (f : Nat) (x : Fn) : (s.setFn f x).lastBound = s.lastBound := rfl
@[simp] theorem State.setFn_ring (s : State) (f : Nat) (x : Fn) : (s.setFn f x).ring = s.ring := rfl
@[simp] theorem State.setFn_pastRing (s : State) (f : Nat) (x : Fn) : (s.setFn f x).pastRing = s.pastRing := rfl
@[simp] theorem State.setFn_ports (s : State) (f : Nat) (x : Fn) : (s.setFn f x).ports = s.ports := rfl
@[simp] theorem State.setFn_keys (s : State) (f : Nat) (x : Fn) : (s.setFn f x).keys = s.keys := rfl
@[simp] theorem State.setFn_memKeys (s : State) (f : Nat) (x : Fn) : (s.setFn f x).memKeys = s.memKeys := rfl
@[simp] theorem State.setFn_cxl (s : State) (f : Nat) (x : Fn) : (s.setFn f x).cxl = s.cxl := rfl
@[simp] theorem State.setFn_mbds (s : State) (f : Nat) (x : Fn) : (s.setFn f x).mbds = s.mbds := rfl
@[simp] theorem State.setFn_routers (s : State) (f : Nat) (x : Fn) : (s.setFn f x).routers = s.routers := rfl
@[simp] theorem State.setFn_parts (s : State) (f : Nat) (x : Fn) : (s.setFn f x).parts = s.parts := rfl
@[simp] theorem State.setFn_objs (s : State) (f : Nat) (x : Fn) : (s.setFn f x).objs = s.objs := rfl
@[simp] theorem State.setFn_insts (s : State) (f : Nat) (x : Fn) : (s.setFn f x).insts = s.insts := rfl
@[simp] theorem State.setFn_gangs (s : State) (f : Nat) (x : Fn) : (s.setFn f x).gangs = s.gangs := rfl
@[simp] theorem State.setFn_procs (s : State) (f : Nat) (x : Fn) : (s.setFn f x).procs = s.procs := rfl
@[simp] theorem State.setFn_cores (s : State) (f : Nat) (x : Fn) : (s.setFn f x).cores = s.cores := rfl
@[simp] theorem State.setFn_clusters (s : State) (f : Nat) (x : Fn) : (s.setFn f x).clusters = s.clusters := rfl
@[simp] theorem State.setFn_engines (s : State) (f : Nat) (x : Fn) : (s.setFn f x).engines = s.engines := rfl
@[simp] theorem State.setFn_txns (s : State) (f : Nat) (x : Fn) : (s.setFn f x).txns = s.txns := rfl
@[simp] theorem State.setFn_recs (s : State) (f : Nat) (x : Fn) : (s.setFn f x).recs = s.recs := rfl
@[simp] theorem State.setFn_managed (s : State) (f : Nat) (x : Fn) : (s.setFn f x).managed = s.managed := rfl
@[simp] theorem State.setFn_farArr (s : State) (f : Nat) (x : Fn) : (s.setFn f x).farArr = s.farArr := rfl
@[simp] theorem State.setFn_saved (s : State) (f : Nat) (x : Fn) : (s.setFn f x).saved = s.saved := rfl
@[simp] theorem State.setFn_xmsgs (s : State) (f : Nat) (x : Fn) : (s.setFn f x).xmsgs = s.xmsgs := rfl
@[simp] theorem State.setFn_flaws (s : State) (f : Nat) (x : Fn) : (s.setFn f x).flaws = s.flaws := rfl
@[simp] theorem State.setFn_windows (s : State) (f : Nat) (x : Fn) : (s.setFn f x).windows = s.windows := rfl
@[simp] theorem State.setFn_hot (s : State) (f : Nat) (x : Fn) : (s.setFn f x).hot = s.hot := rfl
@[simp] theorem State.setFn_lineCount (s : State) (f : Nat) (x : Fn) : (s.setFn f x).lineCount = s.lineCount := rfl
@[simp] theorem State.setFn_grans (s : State) (f : Nat) (x : Fn) : (s.setFn f x).grans = s.grans := rfl
@[simp] theorem State.setFn_tokens (s : State) (f : Nat) (x : Fn) : (s.setFn f x).tokens = s.tokens := rfl
@[simp] theorem State.setFn_motions (s : State) (f : Nat) (x : Fn) : (s.setFn f x).motions = s.motions := rfl
@[simp] theorem State.setFn_nextTxn (s : State) (f : Nat) (x : Fn) : (s.setFn f x).nextTxn = s.nextTxn := rfl
@[simp] theorem State.setFn_nextId (s : State) (f : Nat) (x : Fn) : (s.setFn f x).nextId = s.nextId := rfl
@[simp] theorem State.setFn_fresh (s : State) (f : Nat) (x : Fn) : (s.setFn f x).fresh = s.fresh := rfl
@[simp] theorem State.setFn_moduleId (s : State) (f : Nat) (x : Fn) : (s.setFn f x).moduleId = s.moduleId := rfl
@[simp] theorem State.setFn_agenda (s : State) (f : Nat) (x : Fn) : (s.setFn f x).agenda = s.agenda := rfl
@[simp] theorem State.setFn_auto (s : State) (f : Nat) (x : Fn) : (s.setFn f x).auto = s.auto := rfl
@[simp] theorem State.setFn_issue (s : State) (f : Nat) (x : Fn) : (s.setFn f x).issue = s.issue := rfl
@[simp] theorem State.setFn_raised (s : State) (f : Nat) (x : Fn) : (s.setFn f x).raised = s.raised := rfl
@[simp] theorem State.setFn_proc (s : State) (f : Nat) (x : Fn) (j : Nat) : (s.setFn f x).proc j = s.proc j := rfl
@[simp] theorem State.setFn_core (s : State) (f : Nat) (x : Fn) (j : Nat) : (s.setFn f x).core j = s.core j := rfl
@[simp] theorem State.setFn_part (s : State) (f : Nat) (x : Fn) (j : Nat) : (s.setFn f x).part j = s.part j := rfl
@[simp] theorem State.setFn_cluster (s : State) (f : Nat) (x : Fn) (j : Nat) : (s.setFn f x).cluster j = s.cluster j := rfl
@[simp] theorem State.setFn_engine (s : State) (f : Nat) (x : Fn) (j : Nat) : (s.setFn f x).engine j = s.engine j := rfl
@[simp] theorem State.setFn_die (s : State) (f : Nat) (x : Fn) (j : Nat) : (s.setFn f x).die j = s.die j := rfl
@[simp] theorem State.setFn_port (s : State) (f : Nat) (x : Fn) (j : Nat) : (s.setFn f x).port j = s.port j := rfl
@[simp] theorem State.setFn_mbd (s : State) (f : Nat) (x : Fn) (j : Nat) : (s.setFn f x).mbd j = s.mbd j := rfl
@[simp] theorem State.setFn_inst (s : State) (f : Nat) (x : Fn) (j : Nat) : (s.setFn f x).inst j = s.inst j := rfl
@[simp] theorem State.setFn_queue (s : State) (f : Nat) (x : Fn) (j : Nat) : (s.setFn f x).queue j = s.queue j := rfl
@[simp] theorem State.setFn_router (s : State) (f : Nat) (x : Fn) (j : Nat) : (s.setFn f x).router j = s.router j := rfl

@[simp] theorem State.setPort_mem (s : State) (b : Nat) (x : BPort) : (s.setPort b x).mem = s.mem := rfl
@[simp] theorem State.setPort_time (s : State) (b : Nat) (x : BPort) : (s.setPort b x).time = s.time := rfl
@[simp] theorem State.setPort_timeRem (s : State) (b : Nat) (x : BPort) : (s.setPort b x).timeRem = s.timeRem := rfl
@[simp] theorem State.setPort_cycle (s : State) (b : Nat) (x : BPort) : (s.setPort b x).cycle = s.cycle := rfl
@[simp] theorem State.setPort_turnCore (s : State) (b : Nat) (x : BPort) : (s.setPort b x).turnCore = s.turnCore := rfl
@[simp] theorem State.setPort_timePpb (s : State) (b : Nat) (x : BPort) : (s.setPort b x).timePpb = s.timePpb := rfl
@[simp] theorem State.setPort_timeSlew (s : State) (b : Nat) (x : BPort) : (s.setPort b x).timeSlew = s.timeSlew := rfl
@[simp] theorem State.setPort_ppsLatch (s : State) (b : Nat) (x : BPort) : (s.setPort b x).ppsLatch = s.ppsLatch := rfl
@[simp] theorem State.setPort_recovery (s : State) (b : Nat) (x : BPort) : (s.setPort b x).recovery = s.recovery := rfl
@[simp] theorem State.setPort_hostTold (s : State) (b : Nat) (x : BPort) : (s.setPort b x).hostTold = s.hostTold := rfl
@[simp] theorem State.setPort_stopped (s : State) (b : Nat) (x : BPort) : (s.setPort b x).stopped = s.stopped := rfl
@[simp] theorem State.setPort_romRev (s : State) (b : Nat) (x : BPort) : (s.setPort b x).romRev = s.romRev := rfl
@[simp] theorem State.setPort_romImage (s : State) (b : Nat) (x : BPort) : (s.setPort b x).romImage = s.romImage := rfl
@[simp] theorem State.setPort_puf (s : State) (b : Nat) (x : BPort) : (s.setPort b x).puf = s.puf := rfl
@[simp] theorem State.setPort_seed (s : State) (b : Nat) (x : BPort) : (s.setPort b x).seed = s.seed := rfl
@[simp] theorem State.setPort_patchRam (s : State) (b : Nat) (x : BPort) : (s.setPort b x).patchRam = s.patchRam := rfl
@[simp] theorem State.setPort_timeLock (s : State) (b : Nat) (x : BPort) : (s.setPort b x).timeLock = s.timeLock := rfl
@[simp] theorem State.setPort_lowerUsed (s : State) (b : Nat) (x : BPort) : (s.setPort b x).lowerUsed = s.lowerUsed := rfl
@[simp] theorem State.setPort_flash (s : State) (b : Nat) (x : BPort) : (s.setPort b x).flash = s.flash := rfl
@[simp] theorem State.setPort_dies (s : State) (b : Nat) (x : BPort) : (s.setPort b x).dies = s.dies := rfl
@[simp] theorem State.setPort_queues (s : State) (b : Nat) (x : BPort) : (s.setPort b x).queues = s.queues := rfl
@[simp] theorem State.setPort_lastBound (s : State) (b : Nat) (x : BPort) : (s.setPort b x).lastBound = s.lastBound := rfl
@[simp] theorem State.setPort_fns (s : State) (b : Nat) (x : BPort) : (s.setPort b x).fns = s.fns := rfl
@[simp] theorem State.setPort_ring (s : State) (b : Nat) (x : BPort) : (s.setPort b x).ring = s.ring := rfl
@[simp] theorem State.setPort_pastRing (s : State) (b : Nat) (x : BPort) : (s.setPort b x).pastRing = s.pastRing := rfl
@[simp] theorem State.setPort_keys (s : State) (b : Nat) (x : BPort) : (s.setPort b x).keys = s.keys := rfl
@[simp] theorem State.setPort_memKeys (s : State) (b : Nat) (x : BPort) : (s.setPort b x).memKeys = s.memKeys := rfl
@[simp] theorem State.setPort_cxl (s : State) (b : Nat) (x : BPort) : (s.setPort b x).cxl = s.cxl := rfl
@[simp] theorem State.setPort_mbds (s : State) (b : Nat) (x : BPort) : (s.setPort b x).mbds = s.mbds := rfl
@[simp] theorem State.setPort_routers (s : State) (b : Nat) (x : BPort) : (s.setPort b x).routers = s.routers := rfl
@[simp] theorem State.setPort_parts (s : State) (b : Nat) (x : BPort) : (s.setPort b x).parts = s.parts := rfl
@[simp] theorem State.setPort_objs (s : State) (b : Nat) (x : BPort) : (s.setPort b x).objs = s.objs := rfl
@[simp] theorem State.setPort_insts (s : State) (b : Nat) (x : BPort) : (s.setPort b x).insts = s.insts := rfl
@[simp] theorem State.setPort_gangs (s : State) (b : Nat) (x : BPort) : (s.setPort b x).gangs = s.gangs := rfl
@[simp] theorem State.setPort_procs (s : State) (b : Nat) (x : BPort) : (s.setPort b x).procs = s.procs := rfl
@[simp] theorem State.setPort_cores (s : State) (b : Nat) (x : BPort) : (s.setPort b x).cores = s.cores := rfl
@[simp] theorem State.setPort_clusters (s : State) (b : Nat) (x : BPort) : (s.setPort b x).clusters = s.clusters := rfl
@[simp] theorem State.setPort_engines (s : State) (b : Nat) (x : BPort) : (s.setPort b x).engines = s.engines := rfl
@[simp] theorem State.setPort_txns (s : State) (b : Nat) (x : BPort) : (s.setPort b x).txns = s.txns := rfl
@[simp] theorem State.setPort_recs (s : State) (b : Nat) (x : BPort) : (s.setPort b x).recs = s.recs := rfl
@[simp] theorem State.setPort_managed (s : State) (b : Nat) (x : BPort) : (s.setPort b x).managed = s.managed := rfl
@[simp] theorem State.setPort_farArr (s : State) (b : Nat) (x : BPort) : (s.setPort b x).farArr = s.farArr := rfl
@[simp] theorem State.setPort_saved (s : State) (b : Nat) (x : BPort) : (s.setPort b x).saved = s.saved := rfl
@[simp] theorem State.setPort_xmsgs (s : State) (b : Nat) (x : BPort) : (s.setPort b x).xmsgs = s.xmsgs := rfl
@[simp] theorem State.setPort_flaws (s : State) (b : Nat) (x : BPort) : (s.setPort b x).flaws = s.flaws := rfl
@[simp] theorem State.setPort_windows (s : State) (b : Nat) (x : BPort) : (s.setPort b x).windows = s.windows := rfl
@[simp] theorem State.setPort_hot (s : State) (b : Nat) (x : BPort) : (s.setPort b x).hot = s.hot := rfl
@[simp] theorem State.setPort_lineCount (s : State) (b : Nat) (x : BPort) : (s.setPort b x).lineCount = s.lineCount := rfl
@[simp] theorem State.setPort_grans (s : State) (b : Nat) (x : BPort) : (s.setPort b x).grans = s.grans := rfl
@[simp] theorem State.setPort_tokens (s : State) (b : Nat) (x : BPort) : (s.setPort b x).tokens = s.tokens := rfl
@[simp] theorem State.setPort_motions (s : State) (b : Nat) (x : BPort) : (s.setPort b x).motions = s.motions := rfl
@[simp] theorem State.setPort_nextTxn (s : State) (b : Nat) (x : BPort) : (s.setPort b x).nextTxn = s.nextTxn := rfl
@[simp] theorem State.setPort_nextId (s : State) (b : Nat) (x : BPort) : (s.setPort b x).nextId = s.nextId := rfl
@[simp] theorem State.setPort_fresh (s : State) (b : Nat) (x : BPort) : (s.setPort b x).fresh = s.fresh := rfl
@[simp] theorem State.setPort_moduleId (s : State) (b : Nat) (x : BPort) : (s.setPort b x).moduleId = s.moduleId := rfl
@[simp] theorem State.setPort_agenda (s : State) (b : Nat) (x : BPort) : (s.setPort b x).agenda = s.agenda := rfl
@[simp] theorem State.setPort_auto (s : State) (b : Nat) (x : BPort) : (s.setPort b x).auto = s.auto := rfl
@[simp] theorem State.setPort_issue (s : State) (b : Nat) (x : BPort) : (s.setPort b x).issue = s.issue := rfl
@[simp] theorem State.setPort_raised (s : State) (b : Nat) (x : BPort) : (s.setPort b x).raised = s.raised := rfl
@[simp] theorem State.setPort_proc (s : State) (b : Nat) (x : BPort) (j : Nat) : (s.setPort b x).proc j = s.proc j := rfl
@[simp] theorem State.setPort_core (s : State) (b : Nat) (x : BPort) (j : Nat) : (s.setPort b x).core j = s.core j := rfl
@[simp] theorem State.setPort_part (s : State) (b : Nat) (x : BPort) (j : Nat) : (s.setPort b x).part j = s.part j := rfl
@[simp] theorem State.setPort_cluster (s : State) (b : Nat) (x : BPort) (j : Nat) : (s.setPort b x).cluster j = s.cluster j := rfl
@[simp] theorem State.setPort_engine (s : State) (b : Nat) (x : BPort) (j : Nat) : (s.setPort b x).engine j = s.engine j := rfl
@[simp] theorem State.setPort_die (s : State) (b : Nat) (x : BPort) (j : Nat) : (s.setPort b x).die j = s.die j := rfl
@[simp] theorem State.setPort_fn (s : State) (b : Nat) (x : BPort) (j : Nat) : (s.setPort b x).fn j = s.fn j := rfl
@[simp] theorem State.setPort_mbd (s : State) (b : Nat) (x : BPort) (j : Nat) : (s.setPort b x).mbd j = s.mbd j := rfl
@[simp] theorem State.setPort_inst (s : State) (b : Nat) (x : BPort) (j : Nat) : (s.setPort b x).inst j = s.inst j := rfl
@[simp] theorem State.setPort_queue (s : State) (b : Nat) (x : BPort) (j : Nat) : (s.setPort b x).queue j = s.queue j := rfl
@[simp] theorem State.setPort_router (s : State) (b : Nat) (x : BPort) (j : Nat) : (s.setPort b x).router j = s.router j := rfl

@[simp] theorem State.setMbd_mem (s : State) (k : Nat) (m : Stack) : (s.setMbd k m).mem = s.mem := rfl
@[simp] theorem State.setMbd_time (s : State) (k : Nat) (m : Stack) : (s.setMbd k m).time = s.time := rfl
@[simp] theorem State.setMbd_timeRem (s : State) (k : Nat) (m : Stack) : (s.setMbd k m).timeRem = s.timeRem := rfl
@[simp] theorem State.setMbd_cycle (s : State) (k : Nat) (m : Stack) : (s.setMbd k m).cycle = s.cycle := rfl
@[simp] theorem State.setMbd_turnCore (s : State) (k : Nat) (m : Stack) : (s.setMbd k m).turnCore = s.turnCore := rfl
@[simp] theorem State.setMbd_timePpb (s : State) (k : Nat) (m : Stack) : (s.setMbd k m).timePpb = s.timePpb := rfl
@[simp] theorem State.setMbd_timeSlew (s : State) (k : Nat) (m : Stack) : (s.setMbd k m).timeSlew = s.timeSlew := rfl
@[simp] theorem State.setMbd_ppsLatch (s : State) (k : Nat) (m : Stack) : (s.setMbd k m).ppsLatch = s.ppsLatch := rfl
@[simp] theorem State.setMbd_recovery (s : State) (k : Nat) (m : Stack) : (s.setMbd k m).recovery = s.recovery := rfl
@[simp] theorem State.setMbd_hostTold (s : State) (k : Nat) (m : Stack) : (s.setMbd k m).hostTold = s.hostTold := rfl
@[simp] theorem State.setMbd_stopped (s : State) (k : Nat) (m : Stack) : (s.setMbd k m).stopped = s.stopped := rfl
@[simp] theorem State.setMbd_romRev (s : State) (k : Nat) (m : Stack) : (s.setMbd k m).romRev = s.romRev := rfl
@[simp] theorem State.setMbd_romImage (s : State) (k : Nat) (m : Stack) : (s.setMbd k m).romImage = s.romImage := rfl
@[simp] theorem State.setMbd_puf (s : State) (k : Nat) (m : Stack) : (s.setMbd k m).puf = s.puf := rfl
@[simp] theorem State.setMbd_seed (s : State) (k : Nat) (m : Stack) : (s.setMbd k m).seed = s.seed := rfl
@[simp] theorem State.setMbd_patchRam (s : State) (k : Nat) (m : Stack) : (s.setMbd k m).patchRam = s.patchRam := rfl
@[simp] theorem State.setMbd_timeLock (s : State) (k : Nat) (m : Stack) : (s.setMbd k m).timeLock = s.timeLock := rfl
@[simp] theorem State.setMbd_lowerUsed (s : State) (k : Nat) (m : Stack) : (s.setMbd k m).lowerUsed = s.lowerUsed := rfl
@[simp] theorem State.setMbd_flash (s : State) (k : Nat) (m : Stack) : (s.setMbd k m).flash = s.flash := rfl
@[simp] theorem State.setMbd_dies (s : State) (k : Nat) (m : Stack) : (s.setMbd k m).dies = s.dies := rfl
@[simp] theorem State.setMbd_queues (s : State) (k : Nat) (m : Stack) : (s.setMbd k m).queues = s.queues := rfl
@[simp] theorem State.setMbd_lastBound (s : State) (k : Nat) (m : Stack) : (s.setMbd k m).lastBound = s.lastBound := rfl
@[simp] theorem State.setMbd_fns (s : State) (k : Nat) (m : Stack) : (s.setMbd k m).fns = s.fns := rfl
@[simp] theorem State.setMbd_ring (s : State) (k : Nat) (m : Stack) : (s.setMbd k m).ring = s.ring := rfl
@[simp] theorem State.setMbd_pastRing (s : State) (k : Nat) (m : Stack) : (s.setMbd k m).pastRing = s.pastRing := rfl
@[simp] theorem State.setMbd_ports (s : State) (k : Nat) (m : Stack) : (s.setMbd k m).ports = s.ports := rfl
@[simp] theorem State.setMbd_keys (s : State) (k : Nat) (m : Stack) : (s.setMbd k m).keys = s.keys := rfl
@[simp] theorem State.setMbd_memKeys (s : State) (k : Nat) (m : Stack) : (s.setMbd k m).memKeys = s.memKeys := rfl
@[simp] theorem State.setMbd_cxl (s : State) (k : Nat) (m : Stack) : (s.setMbd k m).cxl = s.cxl := rfl
@[simp] theorem State.setMbd_routers (s : State) (k : Nat) (m : Stack) : (s.setMbd k m).routers = s.routers := rfl
@[simp] theorem State.setMbd_parts (s : State) (k : Nat) (m : Stack) : (s.setMbd k m).parts = s.parts := rfl
@[simp] theorem State.setMbd_objs (s : State) (k : Nat) (m : Stack) : (s.setMbd k m).objs = s.objs := rfl
@[simp] theorem State.setMbd_insts (s : State) (k : Nat) (m : Stack) : (s.setMbd k m).insts = s.insts := rfl
@[simp] theorem State.setMbd_gangs (s : State) (k : Nat) (m : Stack) : (s.setMbd k m).gangs = s.gangs := rfl
@[simp] theorem State.setMbd_procs (s : State) (k : Nat) (m : Stack) : (s.setMbd k m).procs = s.procs := rfl
@[simp] theorem State.setMbd_cores (s : State) (k : Nat) (m : Stack) : (s.setMbd k m).cores = s.cores := rfl
@[simp] theorem State.setMbd_clusters (s : State) (k : Nat) (m : Stack) : (s.setMbd k m).clusters = s.clusters := rfl
@[simp] theorem State.setMbd_engines (s : State) (k : Nat) (m : Stack) : (s.setMbd k m).engines = s.engines := rfl
@[simp] theorem State.setMbd_txns (s : State) (k : Nat) (m : Stack) : (s.setMbd k m).txns = s.txns := rfl
@[simp] theorem State.setMbd_recs (s : State) (k : Nat) (m : Stack) : (s.setMbd k m).recs = s.recs := rfl
@[simp] theorem State.setMbd_managed (s : State) (k : Nat) (m : Stack) : (s.setMbd k m).managed = s.managed := rfl
@[simp] theorem State.setMbd_farArr (s : State) (k : Nat) (m : Stack) : (s.setMbd k m).farArr = s.farArr := rfl
@[simp] theorem State.setMbd_saved (s : State) (k : Nat) (m : Stack) : (s.setMbd k m).saved = s.saved := rfl
@[simp] theorem State.setMbd_xmsgs (s : State) (k : Nat) (m : Stack) : (s.setMbd k m).xmsgs = s.xmsgs := rfl
@[simp] theorem State.setMbd_flaws (s : State) (k : Nat) (m : Stack) : (s.setMbd k m).flaws = s.flaws := rfl
@[simp] theorem State.setMbd_windows (s : State) (k : Nat) (m : Stack) : (s.setMbd k m).windows = s.windows := rfl
@[simp] theorem State.setMbd_hot (s : State) (k : Nat) (m : Stack) : (s.setMbd k m).hot = s.hot := rfl
@[simp] theorem State.setMbd_lineCount (s : State) (k : Nat) (m : Stack) : (s.setMbd k m).lineCount = s.lineCount := rfl
@[simp] theorem State.setMbd_grans (s : State) (k : Nat) (m : Stack) : (s.setMbd k m).grans = s.grans := rfl
@[simp] theorem State.setMbd_tokens (s : State) (k : Nat) (m : Stack) : (s.setMbd k m).tokens = s.tokens := rfl
@[simp] theorem State.setMbd_motions (s : State) (k : Nat) (m : Stack) : (s.setMbd k m).motions = s.motions := rfl
@[simp] theorem State.setMbd_nextTxn (s : State) (k : Nat) (m : Stack) : (s.setMbd k m).nextTxn = s.nextTxn := rfl
@[simp] theorem State.setMbd_nextId (s : State) (k : Nat) (m : Stack) : (s.setMbd k m).nextId = s.nextId := rfl
@[simp] theorem State.setMbd_fresh (s : State) (k : Nat) (m : Stack) : (s.setMbd k m).fresh = s.fresh := rfl
@[simp] theorem State.setMbd_moduleId (s : State) (k : Nat) (m : Stack) : (s.setMbd k m).moduleId = s.moduleId := rfl
@[simp] theorem State.setMbd_agenda (s : State) (k : Nat) (m : Stack) : (s.setMbd k m).agenda = s.agenda := rfl
@[simp] theorem State.setMbd_auto (s : State) (k : Nat) (m : Stack) : (s.setMbd k m).auto = s.auto := rfl
@[simp] theorem State.setMbd_issue (s : State) (k : Nat) (m : Stack) : (s.setMbd k m).issue = s.issue := rfl
@[simp] theorem State.setMbd_raised (s : State) (k : Nat) (m : Stack) : (s.setMbd k m).raised = s.raised := rfl
@[simp] theorem State.setMbd_proc (s : State) (k : Nat) (m : Stack) (j : Nat) : (s.setMbd k m).proc j = s.proc j := rfl
@[simp] theorem State.setMbd_core (s : State) (k : Nat) (m : Stack) (j : Nat) : (s.setMbd k m).core j = s.core j := rfl
@[simp] theorem State.setMbd_part (s : State) (k : Nat) (m : Stack) (j : Nat) : (s.setMbd k m).part j = s.part j := rfl
@[simp] theorem State.setMbd_cluster (s : State) (k : Nat) (m : Stack) (j : Nat) : (s.setMbd k m).cluster j = s.cluster j := rfl
@[simp] theorem State.setMbd_engine (s : State) (k : Nat) (m : Stack) (j : Nat) : (s.setMbd k m).engine j = s.engine j := rfl
@[simp] theorem State.setMbd_die (s : State) (k : Nat) (m : Stack) (j : Nat) : (s.setMbd k m).die j = s.die j := rfl
@[simp] theorem State.setMbd_fn (s : State) (k : Nat) (m : Stack) (j : Nat) : (s.setMbd k m).fn j = s.fn j := rfl
@[simp] theorem State.setMbd_port (s : State) (k : Nat) (m : Stack) (j : Nat) : (s.setMbd k m).port j = s.port j := rfl
@[simp] theorem State.setMbd_inst (s : State) (k : Nat) (m : Stack) (j : Nat) : (s.setMbd k m).inst j = s.inst j := rfl
@[simp] theorem State.setMbd_queue (s : State) (k : Nat) (m : Stack) (j : Nat) : (s.setMbd k m).queue j = s.queue j := rfl
@[simp] theorem State.setMbd_router (s : State) (k : Nat) (m : Stack) (j : Nat) : (s.setMbd k m).router j = s.router j := rfl

@[simp] theorem State.setInst_mem (s : State) (i : Nat) (v : Inst) : (s.setInst i v).mem = s.mem := rfl
@[simp] theorem State.setInst_time (s : State) (i : Nat) (v : Inst) : (s.setInst i v).time = s.time := rfl
@[simp] theorem State.setInst_timeRem (s : State) (i : Nat) (v : Inst) : (s.setInst i v).timeRem = s.timeRem := rfl
@[simp] theorem State.setInst_cycle (s : State) (i : Nat) (v : Inst) : (s.setInst i v).cycle = s.cycle := rfl
@[simp] theorem State.setInst_turnCore (s : State) (i : Nat) (v : Inst) : (s.setInst i v).turnCore = s.turnCore := rfl
@[simp] theorem State.setInst_timePpb (s : State) (i : Nat) (v : Inst) : (s.setInst i v).timePpb = s.timePpb := rfl
@[simp] theorem State.setInst_timeSlew (s : State) (i : Nat) (v : Inst) : (s.setInst i v).timeSlew = s.timeSlew := rfl
@[simp] theorem State.setInst_ppsLatch (s : State) (i : Nat) (v : Inst) : (s.setInst i v).ppsLatch = s.ppsLatch := rfl
@[simp] theorem State.setInst_recovery (s : State) (i : Nat) (v : Inst) : (s.setInst i v).recovery = s.recovery := rfl
@[simp] theorem State.setInst_hostTold (s : State) (i : Nat) (v : Inst) : (s.setInst i v).hostTold = s.hostTold := rfl
@[simp] theorem State.setInst_stopped (s : State) (i : Nat) (v : Inst) : (s.setInst i v).stopped = s.stopped := rfl
@[simp] theorem State.setInst_romRev (s : State) (i : Nat) (v : Inst) : (s.setInst i v).romRev = s.romRev := rfl
@[simp] theorem State.setInst_romImage (s : State) (i : Nat) (v : Inst) : (s.setInst i v).romImage = s.romImage := rfl
@[simp] theorem State.setInst_puf (s : State) (i : Nat) (v : Inst) : (s.setInst i v).puf = s.puf := rfl
@[simp] theorem State.setInst_seed (s : State) (i : Nat) (v : Inst) : (s.setInst i v).seed = s.seed := rfl
@[simp] theorem State.setInst_patchRam (s : State) (i : Nat) (v : Inst) : (s.setInst i v).patchRam = s.patchRam := rfl
@[simp] theorem State.setInst_timeLock (s : State) (i : Nat) (v : Inst) : (s.setInst i v).timeLock = s.timeLock := rfl
@[simp] theorem State.setInst_lowerUsed (s : State) (i : Nat) (v : Inst) : (s.setInst i v).lowerUsed = s.lowerUsed := rfl
@[simp] theorem State.setInst_flash (s : State) (i : Nat) (v : Inst) : (s.setInst i v).flash = s.flash := rfl
@[simp] theorem State.setInst_dies (s : State) (i : Nat) (v : Inst) : (s.setInst i v).dies = s.dies := rfl
@[simp] theorem State.setInst_queues (s : State) (i : Nat) (v : Inst) : (s.setInst i v).queues = s.queues := rfl
@[simp] theorem State.setInst_lastBound (s : State) (i : Nat) (v : Inst) : (s.setInst i v).lastBound = s.lastBound := rfl
@[simp] theorem State.setInst_fns (s : State) (i : Nat) (v : Inst) : (s.setInst i v).fns = s.fns := rfl
@[simp] theorem State.setInst_ring (s : State) (i : Nat) (v : Inst) : (s.setInst i v).ring = s.ring := rfl
@[simp] theorem State.setInst_pastRing (s : State) (i : Nat) (v : Inst) : (s.setInst i v).pastRing = s.pastRing := rfl
@[simp] theorem State.setInst_ports (s : State) (i : Nat) (v : Inst) : (s.setInst i v).ports = s.ports := rfl
@[simp] theorem State.setInst_keys (s : State) (i : Nat) (v : Inst) : (s.setInst i v).keys = s.keys := rfl
@[simp] theorem State.setInst_memKeys (s : State) (i : Nat) (v : Inst) : (s.setInst i v).memKeys = s.memKeys := rfl
@[simp] theorem State.setInst_cxl (s : State) (i : Nat) (v : Inst) : (s.setInst i v).cxl = s.cxl := rfl
@[simp] theorem State.setInst_mbds (s : State) (i : Nat) (v : Inst) : (s.setInst i v).mbds = s.mbds := rfl
@[simp] theorem State.setInst_routers (s : State) (i : Nat) (v : Inst) : (s.setInst i v).routers = s.routers := rfl
@[simp] theorem State.setInst_parts (s : State) (i : Nat) (v : Inst) : (s.setInst i v).parts = s.parts := rfl
@[simp] theorem State.setInst_objs (s : State) (i : Nat) (v : Inst) : (s.setInst i v).objs = s.objs := rfl
@[simp] theorem State.setInst_gangs (s : State) (i : Nat) (v : Inst) : (s.setInst i v).gangs = s.gangs := rfl
@[simp] theorem State.setInst_procs (s : State) (i : Nat) (v : Inst) : (s.setInst i v).procs = s.procs := rfl
@[simp] theorem State.setInst_cores (s : State) (i : Nat) (v : Inst) : (s.setInst i v).cores = s.cores := rfl
@[simp] theorem State.setInst_clusters (s : State) (i : Nat) (v : Inst) : (s.setInst i v).clusters = s.clusters := rfl
@[simp] theorem State.setInst_engines (s : State) (i : Nat) (v : Inst) : (s.setInst i v).engines = s.engines := rfl
@[simp] theorem State.setInst_txns (s : State) (i : Nat) (v : Inst) : (s.setInst i v).txns = s.txns := rfl
@[simp] theorem State.setInst_recs (s : State) (i : Nat) (v : Inst) : (s.setInst i v).recs = s.recs := rfl
@[simp] theorem State.setInst_managed (s : State) (i : Nat) (v : Inst) : (s.setInst i v).managed = s.managed := rfl
@[simp] theorem State.setInst_farArr (s : State) (i : Nat) (v : Inst) : (s.setInst i v).farArr = s.farArr := rfl
@[simp] theorem State.setInst_saved (s : State) (i : Nat) (v : Inst) : (s.setInst i v).saved = s.saved := rfl
@[simp] theorem State.setInst_xmsgs (s : State) (i : Nat) (v : Inst) : (s.setInst i v).xmsgs = s.xmsgs := rfl
@[simp] theorem State.setInst_flaws (s : State) (i : Nat) (v : Inst) : (s.setInst i v).flaws = s.flaws := rfl
@[simp] theorem State.setInst_windows (s : State) (i : Nat) (v : Inst) : (s.setInst i v).windows = s.windows := rfl
@[simp] theorem State.setInst_hot (s : State) (i : Nat) (v : Inst) : (s.setInst i v).hot = s.hot := rfl
@[simp] theorem State.setInst_lineCount (s : State) (i : Nat) (v : Inst) : (s.setInst i v).lineCount = s.lineCount := rfl
@[simp] theorem State.setInst_grans (s : State) (i : Nat) (v : Inst) : (s.setInst i v).grans = s.grans := rfl
@[simp] theorem State.setInst_tokens (s : State) (i : Nat) (v : Inst) : (s.setInst i v).tokens = s.tokens := rfl
@[simp] theorem State.setInst_motions (s : State) (i : Nat) (v : Inst) : (s.setInst i v).motions = s.motions := rfl
@[simp] theorem State.setInst_nextTxn (s : State) (i : Nat) (v : Inst) : (s.setInst i v).nextTxn = s.nextTxn := rfl
@[simp] theorem State.setInst_nextId (s : State) (i : Nat) (v : Inst) : (s.setInst i v).nextId = s.nextId := rfl
@[simp] theorem State.setInst_fresh (s : State) (i : Nat) (v : Inst) : (s.setInst i v).fresh = s.fresh := rfl
@[simp] theorem State.setInst_moduleId (s : State) (i : Nat) (v : Inst) : (s.setInst i v).moduleId = s.moduleId := rfl
@[simp] theorem State.setInst_agenda (s : State) (i : Nat) (v : Inst) : (s.setInst i v).agenda = s.agenda := rfl
@[simp] theorem State.setInst_auto (s : State) (i : Nat) (v : Inst) : (s.setInst i v).auto = s.auto := rfl
@[simp] theorem State.setInst_issue (s : State) (i : Nat) (v : Inst) : (s.setInst i v).issue = s.issue := rfl
@[simp] theorem State.setInst_raised (s : State) (i : Nat) (v : Inst) : (s.setInst i v).raised = s.raised := rfl
@[simp] theorem State.setInst_proc (s : State) (i : Nat) (v : Inst) (j : Nat) : (s.setInst i v).proc j = s.proc j := rfl
@[simp] theorem State.setInst_core (s : State) (i : Nat) (v : Inst) (j : Nat) : (s.setInst i v).core j = s.core j := rfl
@[simp] theorem State.setInst_part (s : State) (i : Nat) (v : Inst) (j : Nat) : (s.setInst i v).part j = s.part j := rfl
@[simp] theorem State.setInst_cluster (s : State) (i : Nat) (v : Inst) (j : Nat) : (s.setInst i v).cluster j = s.cluster j := rfl
@[simp] theorem State.setInst_engine (s : State) (i : Nat) (v : Inst) (j : Nat) : (s.setInst i v).engine j = s.engine j := rfl
@[simp] theorem State.setInst_die (s : State) (i : Nat) (v : Inst) (j : Nat) : (s.setInst i v).die j = s.die j := rfl
@[simp] theorem State.setInst_fn (s : State) (i : Nat) (v : Inst) (j : Nat) : (s.setInst i v).fn j = s.fn j := rfl
@[simp] theorem State.setInst_port (s : State) (i : Nat) (v : Inst) (j : Nat) : (s.setInst i v).port j = s.port j := rfl
@[simp] theorem State.setInst_mbd (s : State) (i : Nat) (v : Inst) (j : Nat) : (s.setInst i v).mbd j = s.mbd j := rfl
@[simp] theorem State.setInst_queue (s : State) (i : Nat) (v : Inst) (j : Nat) : (s.setInst i v).queue j = s.queue j := rfl
@[simp] theorem State.setInst_router (s : State) (i : Nat) (v : Inst) (j : Nat) : (s.setInst i v).router j = s.router j := rfl

@[simp] theorem State.setTxn_mem (s : State) (t : Nat) (v : Txn) : (s.setTxn t v).mem = s.mem := rfl
@[simp] theorem State.setTxn_time (s : State) (t : Nat) (v : Txn) : (s.setTxn t v).time = s.time := rfl
@[simp] theorem State.setTxn_timeRem (s : State) (t : Nat) (v : Txn) : (s.setTxn t v).timeRem = s.timeRem := rfl
@[simp] theorem State.setTxn_cycle (s : State) (t : Nat) (v : Txn) : (s.setTxn t v).cycle = s.cycle := rfl
@[simp] theorem State.setTxn_turnCore (s : State) (t : Nat) (v : Txn) : (s.setTxn t v).turnCore = s.turnCore := rfl
@[simp] theorem State.setTxn_timePpb (s : State) (t : Nat) (v : Txn) : (s.setTxn t v).timePpb = s.timePpb := rfl
@[simp] theorem State.setTxn_timeSlew (s : State) (t : Nat) (v : Txn) : (s.setTxn t v).timeSlew = s.timeSlew := rfl
@[simp] theorem State.setTxn_ppsLatch (s : State) (t : Nat) (v : Txn) : (s.setTxn t v).ppsLatch = s.ppsLatch := rfl
@[simp] theorem State.setTxn_recovery (s : State) (t : Nat) (v : Txn) : (s.setTxn t v).recovery = s.recovery := rfl
@[simp] theorem State.setTxn_hostTold (s : State) (t : Nat) (v : Txn) : (s.setTxn t v).hostTold = s.hostTold := rfl
@[simp] theorem State.setTxn_stopped (s : State) (t : Nat) (v : Txn) : (s.setTxn t v).stopped = s.stopped := rfl
@[simp] theorem State.setTxn_romRev (s : State) (t : Nat) (v : Txn) : (s.setTxn t v).romRev = s.romRev := rfl
@[simp] theorem State.setTxn_romImage (s : State) (t : Nat) (v : Txn) : (s.setTxn t v).romImage = s.romImage := rfl
@[simp] theorem State.setTxn_puf (s : State) (t : Nat) (v : Txn) : (s.setTxn t v).puf = s.puf := rfl
@[simp] theorem State.setTxn_seed (s : State) (t : Nat) (v : Txn) : (s.setTxn t v).seed = s.seed := rfl
@[simp] theorem State.setTxn_patchRam (s : State) (t : Nat) (v : Txn) : (s.setTxn t v).patchRam = s.patchRam := rfl
@[simp] theorem State.setTxn_timeLock (s : State) (t : Nat) (v : Txn) : (s.setTxn t v).timeLock = s.timeLock := rfl
@[simp] theorem State.setTxn_lowerUsed (s : State) (t : Nat) (v : Txn) : (s.setTxn t v).lowerUsed = s.lowerUsed := rfl
@[simp] theorem State.setTxn_flash (s : State) (t : Nat) (v : Txn) : (s.setTxn t v).flash = s.flash := rfl
@[simp] theorem State.setTxn_dies (s : State) (t : Nat) (v : Txn) : (s.setTxn t v).dies = s.dies := rfl
@[simp] theorem State.setTxn_queues (s : State) (t : Nat) (v : Txn) : (s.setTxn t v).queues = s.queues := rfl
@[simp] theorem State.setTxn_lastBound (s : State) (t : Nat) (v : Txn) : (s.setTxn t v).lastBound = s.lastBound := rfl
@[simp] theorem State.setTxn_fns (s : State) (t : Nat) (v : Txn) : (s.setTxn t v).fns = s.fns := rfl
@[simp] theorem State.setTxn_ring (s : State) (t : Nat) (v : Txn) : (s.setTxn t v).ring = s.ring := rfl
@[simp] theorem State.setTxn_pastRing (s : State) (t : Nat) (v : Txn) : (s.setTxn t v).pastRing = s.pastRing := rfl
@[simp] theorem State.setTxn_ports (s : State) (t : Nat) (v : Txn) : (s.setTxn t v).ports = s.ports := rfl
@[simp] theorem State.setTxn_keys (s : State) (t : Nat) (v : Txn) : (s.setTxn t v).keys = s.keys := rfl
@[simp] theorem State.setTxn_memKeys (s : State) (t : Nat) (v : Txn) : (s.setTxn t v).memKeys = s.memKeys := rfl
@[simp] theorem State.setTxn_cxl (s : State) (t : Nat) (v : Txn) : (s.setTxn t v).cxl = s.cxl := rfl
@[simp] theorem State.setTxn_mbds (s : State) (t : Nat) (v : Txn) : (s.setTxn t v).mbds = s.mbds := rfl
@[simp] theorem State.setTxn_routers (s : State) (t : Nat) (v : Txn) : (s.setTxn t v).routers = s.routers := rfl
@[simp] theorem State.setTxn_parts (s : State) (t : Nat) (v : Txn) : (s.setTxn t v).parts = s.parts := rfl
@[simp] theorem State.setTxn_objs (s : State) (t : Nat) (v : Txn) : (s.setTxn t v).objs = s.objs := rfl
@[simp] theorem State.setTxn_insts (s : State) (t : Nat) (v : Txn) : (s.setTxn t v).insts = s.insts := rfl
@[simp] theorem State.setTxn_gangs (s : State) (t : Nat) (v : Txn) : (s.setTxn t v).gangs = s.gangs := rfl
@[simp] theorem State.setTxn_procs (s : State) (t : Nat) (v : Txn) : (s.setTxn t v).procs = s.procs := rfl
@[simp] theorem State.setTxn_cores (s : State) (t : Nat) (v : Txn) : (s.setTxn t v).cores = s.cores := rfl
@[simp] theorem State.setTxn_clusters (s : State) (t : Nat) (v : Txn) : (s.setTxn t v).clusters = s.clusters := rfl
@[simp] theorem State.setTxn_engines (s : State) (t : Nat) (v : Txn) : (s.setTxn t v).engines = s.engines := rfl
@[simp] theorem State.setTxn_recs (s : State) (t : Nat) (v : Txn) : (s.setTxn t v).recs = s.recs := rfl
@[simp] theorem State.setTxn_managed (s : State) (t : Nat) (v : Txn) : (s.setTxn t v).managed = s.managed := rfl
@[simp] theorem State.setTxn_farArr (s : State) (t : Nat) (v : Txn) : (s.setTxn t v).farArr = s.farArr := rfl
@[simp] theorem State.setTxn_saved (s : State) (t : Nat) (v : Txn) : (s.setTxn t v).saved = s.saved := rfl
@[simp] theorem State.setTxn_xmsgs (s : State) (t : Nat) (v : Txn) : (s.setTxn t v).xmsgs = s.xmsgs := rfl
@[simp] theorem State.setTxn_flaws (s : State) (t : Nat) (v : Txn) : (s.setTxn t v).flaws = s.flaws := rfl
@[simp] theorem State.setTxn_windows (s : State) (t : Nat) (v : Txn) : (s.setTxn t v).windows = s.windows := rfl
@[simp] theorem State.setTxn_hot (s : State) (t : Nat) (v : Txn) : (s.setTxn t v).hot = s.hot := rfl
@[simp] theorem State.setTxn_lineCount (s : State) (t : Nat) (v : Txn) : (s.setTxn t v).lineCount = s.lineCount := rfl
@[simp] theorem State.setTxn_grans (s : State) (t : Nat) (v : Txn) : (s.setTxn t v).grans = s.grans := rfl
@[simp] theorem State.setTxn_tokens (s : State) (t : Nat) (v : Txn) : (s.setTxn t v).tokens = s.tokens := rfl
@[simp] theorem State.setTxn_motions (s : State) (t : Nat) (v : Txn) : (s.setTxn t v).motions = s.motions := rfl
@[simp] theorem State.setTxn_nextTxn (s : State) (t : Nat) (v : Txn) : (s.setTxn t v).nextTxn = s.nextTxn := rfl
@[simp] theorem State.setTxn_nextId (s : State) (t : Nat) (v : Txn) : (s.setTxn t v).nextId = s.nextId := rfl
@[simp] theorem State.setTxn_fresh (s : State) (t : Nat) (v : Txn) : (s.setTxn t v).fresh = s.fresh := rfl
@[simp] theorem State.setTxn_moduleId (s : State) (t : Nat) (v : Txn) : (s.setTxn t v).moduleId = s.moduleId := rfl
@[simp] theorem State.setTxn_agenda (s : State) (t : Nat) (v : Txn) : (s.setTxn t v).agenda = s.agenda := rfl
@[simp] theorem State.setTxn_auto (s : State) (t : Nat) (v : Txn) : (s.setTxn t v).auto = s.auto := rfl
@[simp] theorem State.setTxn_issue (s : State) (t : Nat) (v : Txn) : (s.setTxn t v).issue = s.issue := rfl
@[simp] theorem State.setTxn_raised (s : State) (t : Nat) (v : Txn) : (s.setTxn t v).raised = s.raised := rfl
@[simp] theorem State.setTxn_proc (s : State) (t : Nat) (v : Txn) (j : Nat) : (s.setTxn t v).proc j = s.proc j := rfl
@[simp] theorem State.setTxn_core (s : State) (t : Nat) (v : Txn) (j : Nat) : (s.setTxn t v).core j = s.core j := rfl
@[simp] theorem State.setTxn_part (s : State) (t : Nat) (v : Txn) (j : Nat) : (s.setTxn t v).part j = s.part j := rfl
@[simp] theorem State.setTxn_cluster (s : State) (t : Nat) (v : Txn) (j : Nat) : (s.setTxn t v).cluster j = s.cluster j := rfl
@[simp] theorem State.setTxn_engine (s : State) (t : Nat) (v : Txn) (j : Nat) : (s.setTxn t v).engine j = s.engine j := rfl
@[simp] theorem State.setTxn_die (s : State) (t : Nat) (v : Txn) (j : Nat) : (s.setTxn t v).die j = s.die j := rfl
@[simp] theorem State.setTxn_fn (s : State) (t : Nat) (v : Txn) (j : Nat) : (s.setTxn t v).fn j = s.fn j := rfl
@[simp] theorem State.setTxn_port (s : State) (t : Nat) (v : Txn) (j : Nat) : (s.setTxn t v).port j = s.port j := rfl
@[simp] theorem State.setTxn_mbd (s : State) (t : Nat) (v : Txn) (j : Nat) : (s.setTxn t v).mbd j = s.mbd j := rfl
@[simp] theorem State.setTxn_inst (s : State) (t : Nat) (v : Txn) (j : Nat) : (s.setTxn t v).inst j = s.inst j := rfl
@[simp] theorem State.setTxn_queue (s : State) (t : Nat) (v : Txn) (j : Nat) : (s.setTxn t v).queue j = s.queue j := rfl
@[simp] theorem State.setTxn_router (s : State) (t : Nat) (v : Txn) (j : Nat) : (s.setTxn t v).router j = s.router j := rfl

@[simp] theorem State.setQueue_mem (s : State) (k : Nat) (q : Queue) : (s.setQueue k q).mem = s.mem := rfl
@[simp] theorem State.setQueue_time (s : State) (k : Nat) (q : Queue) : (s.setQueue k q).time = s.time := rfl
@[simp] theorem State.setQueue_timeRem (s : State) (k : Nat) (q : Queue) : (s.setQueue k q).timeRem = s.timeRem := rfl
@[simp] theorem State.setQueue_cycle (s : State) (k : Nat) (q : Queue) : (s.setQueue k q).cycle = s.cycle := rfl
@[simp] theorem State.setQueue_turnCore (s : State) (k : Nat) (q : Queue) : (s.setQueue k q).turnCore = s.turnCore := rfl
@[simp] theorem State.setQueue_timePpb (s : State) (k : Nat) (q : Queue) : (s.setQueue k q).timePpb = s.timePpb := rfl
@[simp] theorem State.setQueue_timeSlew (s : State) (k : Nat) (q : Queue) : (s.setQueue k q).timeSlew = s.timeSlew := rfl
@[simp] theorem State.setQueue_ppsLatch (s : State) (k : Nat) (q : Queue) : (s.setQueue k q).ppsLatch = s.ppsLatch := rfl
@[simp] theorem State.setQueue_recovery (s : State) (k : Nat) (q : Queue) : (s.setQueue k q).recovery = s.recovery := rfl
@[simp] theorem State.setQueue_hostTold (s : State) (k : Nat) (q : Queue) : (s.setQueue k q).hostTold = s.hostTold := rfl
@[simp] theorem State.setQueue_stopped (s : State) (k : Nat) (q : Queue) : (s.setQueue k q).stopped = s.stopped := rfl
@[simp] theorem State.setQueue_romRev (s : State) (k : Nat) (q : Queue) : (s.setQueue k q).romRev = s.romRev := rfl
@[simp] theorem State.setQueue_romImage (s : State) (k : Nat) (q : Queue) : (s.setQueue k q).romImage = s.romImage := rfl
@[simp] theorem State.setQueue_puf (s : State) (k : Nat) (q : Queue) : (s.setQueue k q).puf = s.puf := rfl
@[simp] theorem State.setQueue_seed (s : State) (k : Nat) (q : Queue) : (s.setQueue k q).seed = s.seed := rfl
@[simp] theorem State.setQueue_patchRam (s : State) (k : Nat) (q : Queue) : (s.setQueue k q).patchRam = s.patchRam := rfl
@[simp] theorem State.setQueue_timeLock (s : State) (k : Nat) (q : Queue) : (s.setQueue k q).timeLock = s.timeLock := rfl
@[simp] theorem State.setQueue_lowerUsed (s : State) (k : Nat) (q : Queue) : (s.setQueue k q).lowerUsed = s.lowerUsed := rfl
@[simp] theorem State.setQueue_flash (s : State) (k : Nat) (q : Queue) : (s.setQueue k q).flash = s.flash := rfl
@[simp] theorem State.setQueue_dies (s : State) (k : Nat) (q : Queue) : (s.setQueue k q).dies = s.dies := rfl
@[simp] theorem State.setQueue_lastBound (s : State) (k : Nat) (q : Queue) : (s.setQueue k q).lastBound = s.lastBound := rfl
@[simp] theorem State.setQueue_fns (s : State) (k : Nat) (q : Queue) : (s.setQueue k q).fns = s.fns := rfl
@[simp] theorem State.setQueue_ring (s : State) (k : Nat) (q : Queue) : (s.setQueue k q).ring = s.ring := rfl
@[simp] theorem State.setQueue_pastRing (s : State) (k : Nat) (q : Queue) : (s.setQueue k q).pastRing = s.pastRing := rfl
@[simp] theorem State.setQueue_ports (s : State) (k : Nat) (q : Queue) : (s.setQueue k q).ports = s.ports := rfl
@[simp] theorem State.setQueue_keys (s : State) (k : Nat) (q : Queue) : (s.setQueue k q).keys = s.keys := rfl
@[simp] theorem State.setQueue_memKeys (s : State) (k : Nat) (q : Queue) : (s.setQueue k q).memKeys = s.memKeys := rfl
@[simp] theorem State.setQueue_cxl (s : State) (k : Nat) (q : Queue) : (s.setQueue k q).cxl = s.cxl := rfl
@[simp] theorem State.setQueue_mbds (s : State) (k : Nat) (q : Queue) : (s.setQueue k q).mbds = s.mbds := rfl
@[simp] theorem State.setQueue_routers (s : State) (k : Nat) (q : Queue) : (s.setQueue k q).routers = s.routers := rfl
@[simp] theorem State.setQueue_parts (s : State) (k : Nat) (q : Queue) : (s.setQueue k q).parts = s.parts := rfl
@[simp] theorem State.setQueue_objs (s : State) (k : Nat) (q : Queue) : (s.setQueue k q).objs = s.objs := rfl
@[simp] theorem State.setQueue_insts (s : State) (k : Nat) (q : Queue) : (s.setQueue k q).insts = s.insts := rfl
@[simp] theorem State.setQueue_gangs (s : State) (k : Nat) (q : Queue) : (s.setQueue k q).gangs = s.gangs := rfl
@[simp] theorem State.setQueue_procs (s : State) (k : Nat) (q : Queue) : (s.setQueue k q).procs = s.procs := rfl
@[simp] theorem State.setQueue_cores (s : State) (k : Nat) (q : Queue) : (s.setQueue k q).cores = s.cores := rfl
@[simp] theorem State.setQueue_clusters (s : State) (k : Nat) (q : Queue) : (s.setQueue k q).clusters = s.clusters := rfl
@[simp] theorem State.setQueue_engines (s : State) (k : Nat) (q : Queue) : (s.setQueue k q).engines = s.engines := rfl
@[simp] theorem State.setQueue_txns (s : State) (k : Nat) (q : Queue) : (s.setQueue k q).txns = s.txns := rfl
@[simp] theorem State.setQueue_recs (s : State) (k : Nat) (q : Queue) : (s.setQueue k q).recs = s.recs := rfl
@[simp] theorem State.setQueue_managed (s : State) (k : Nat) (q : Queue) : (s.setQueue k q).managed = s.managed := rfl
@[simp] theorem State.setQueue_farArr (s : State) (k : Nat) (q : Queue) : (s.setQueue k q).farArr = s.farArr := rfl
@[simp] theorem State.setQueue_saved (s : State) (k : Nat) (q : Queue) : (s.setQueue k q).saved = s.saved := rfl
@[simp] theorem State.setQueue_xmsgs (s : State) (k : Nat) (q : Queue) : (s.setQueue k q).xmsgs = s.xmsgs := rfl
@[simp] theorem State.setQueue_flaws (s : State) (k : Nat) (q : Queue) : (s.setQueue k q).flaws = s.flaws := rfl
@[simp] theorem State.setQueue_windows (s : State) (k : Nat) (q : Queue) : (s.setQueue k q).windows = s.windows := rfl
@[simp] theorem State.setQueue_hot (s : State) (k : Nat) (q : Queue) : (s.setQueue k q).hot = s.hot := rfl
@[simp] theorem State.setQueue_lineCount (s : State) (k : Nat) (q : Queue) : (s.setQueue k q).lineCount = s.lineCount := rfl
@[simp] theorem State.setQueue_grans (s : State) (k : Nat) (q : Queue) : (s.setQueue k q).grans = s.grans := rfl
@[simp] theorem State.setQueue_tokens (s : State) (k : Nat) (q : Queue) : (s.setQueue k q).tokens = s.tokens := rfl
@[simp] theorem State.setQueue_motions (s : State) (k : Nat) (q : Queue) : (s.setQueue k q).motions = s.motions := rfl
@[simp] theorem State.setQueue_nextTxn (s : State) (k : Nat) (q : Queue) : (s.setQueue k q).nextTxn = s.nextTxn := rfl
@[simp] theorem State.setQueue_nextId (s : State) (k : Nat) (q : Queue) : (s.setQueue k q).nextId = s.nextId := rfl
@[simp] theorem State.setQueue_fresh (s : State) (k : Nat) (q : Queue) : (s.setQueue k q).fresh = s.fresh := rfl
@[simp] theorem State.setQueue_moduleId (s : State) (k : Nat) (q : Queue) : (s.setQueue k q).moduleId = s.moduleId := rfl
@[simp] theorem State.setQueue_agenda (s : State) (k : Nat) (q : Queue) : (s.setQueue k q).agenda = s.agenda := rfl
@[simp] theorem State.setQueue_auto (s : State) (k : Nat) (q : Queue) : (s.setQueue k q).auto = s.auto := rfl
@[simp] theorem State.setQueue_issue (s : State) (k : Nat) (q : Queue) : (s.setQueue k q).issue = s.issue := rfl
@[simp] theorem State.setQueue_raised (s : State) (k : Nat) (q : Queue) : (s.setQueue k q).raised = s.raised := rfl
@[simp] theorem State.setQueue_proc (s : State) (k : Nat) (q : Queue) (j : Nat) : (s.setQueue k q).proc j = s.proc j := rfl
@[simp] theorem State.setQueue_core (s : State) (k : Nat) (q : Queue) (j : Nat) : (s.setQueue k q).core j = s.core j := rfl
@[simp] theorem State.setQueue_part (s : State) (k : Nat) (q : Queue) (j : Nat) : (s.setQueue k q).part j = s.part j := rfl
@[simp] theorem State.setQueue_cluster (s : State) (k : Nat) (q : Queue) (j : Nat) : (s.setQueue k q).cluster j = s.cluster j := rfl
@[simp] theorem State.setQueue_engine (s : State) (k : Nat) (q : Queue) (j : Nat) : (s.setQueue k q).engine j = s.engine j := rfl
@[simp] theorem State.setQueue_die (s : State) (k : Nat) (q : Queue) (j : Nat) : (s.setQueue k q).die j = s.die j := rfl
@[simp] theorem State.setQueue_fn (s : State) (k : Nat) (q : Queue) (j : Nat) : (s.setQueue k q).fn j = s.fn j := rfl
@[simp] theorem State.setQueue_port (s : State) (k : Nat) (q : Queue) (j : Nat) : (s.setQueue k q).port j = s.port j := rfl
@[simp] theorem State.setQueue_mbd (s : State) (k : Nat) (q : Queue) (j : Nat) : (s.setQueue k q).mbd j = s.mbd j := rfl
@[simp] theorem State.setQueue_inst (s : State) (k : Nat) (q : Queue) (j : Nat) : (s.setQueue k q).inst j = s.inst j := rfl
@[simp] theorem State.setQueue_router (s : State) (k : Nat) (q : Queue) (j : Nat) : (s.setQueue k q).router j = s.router j := rfl

@[simp] theorem State.setRouter_mem (s : State) (n : Nat) (r : Router) : (s.setRouter n r).mem = s.mem := rfl
@[simp] theorem State.setRouter_time (s : State) (n : Nat) (r : Router) : (s.setRouter n r).time = s.time := rfl
@[simp] theorem State.setRouter_timeRem (s : State) (n : Nat) (r : Router) : (s.setRouter n r).timeRem = s.timeRem := rfl
@[simp] theorem State.setRouter_cycle (s : State) (n : Nat) (r : Router) : (s.setRouter n r).cycle = s.cycle := rfl
@[simp] theorem State.setRouter_turnCore (s : State) (n : Nat) (r : Router) : (s.setRouter n r).turnCore = s.turnCore := rfl
@[simp] theorem State.setRouter_timePpb (s : State) (n : Nat) (r : Router) : (s.setRouter n r).timePpb = s.timePpb := rfl
@[simp] theorem State.setRouter_timeSlew (s : State) (n : Nat) (r : Router) : (s.setRouter n r).timeSlew = s.timeSlew := rfl
@[simp] theorem State.setRouter_ppsLatch (s : State) (n : Nat) (r : Router) : (s.setRouter n r).ppsLatch = s.ppsLatch := rfl
@[simp] theorem State.setRouter_recovery (s : State) (n : Nat) (r : Router) : (s.setRouter n r).recovery = s.recovery := rfl
@[simp] theorem State.setRouter_hostTold (s : State) (n : Nat) (r : Router) : (s.setRouter n r).hostTold = s.hostTold := rfl
@[simp] theorem State.setRouter_stopped (s : State) (n : Nat) (r : Router) : (s.setRouter n r).stopped = s.stopped := rfl
@[simp] theorem State.setRouter_romRev (s : State) (n : Nat) (r : Router) : (s.setRouter n r).romRev = s.romRev := rfl
@[simp] theorem State.setRouter_romImage (s : State) (n : Nat) (r : Router) : (s.setRouter n r).romImage = s.romImage := rfl
@[simp] theorem State.setRouter_puf (s : State) (n : Nat) (r : Router) : (s.setRouter n r).puf = s.puf := rfl
@[simp] theorem State.setRouter_seed (s : State) (n : Nat) (r : Router) : (s.setRouter n r).seed = s.seed := rfl
@[simp] theorem State.setRouter_patchRam (s : State) (n : Nat) (r : Router) : (s.setRouter n r).patchRam = s.patchRam := rfl
@[simp] theorem State.setRouter_timeLock (s : State) (n : Nat) (r : Router) : (s.setRouter n r).timeLock = s.timeLock := rfl
@[simp] theorem State.setRouter_lowerUsed (s : State) (n : Nat) (r : Router) : (s.setRouter n r).lowerUsed = s.lowerUsed := rfl
@[simp] theorem State.setRouter_flash (s : State) (n : Nat) (r : Router) : (s.setRouter n r).flash = s.flash := rfl
@[simp] theorem State.setRouter_dies (s : State) (n : Nat) (r : Router) : (s.setRouter n r).dies = s.dies := rfl
@[simp] theorem State.setRouter_queues (s : State) (n : Nat) (r : Router) : (s.setRouter n r).queues = s.queues := rfl
@[simp] theorem State.setRouter_lastBound (s : State) (n : Nat) (r : Router) : (s.setRouter n r).lastBound = s.lastBound := rfl
@[simp] theorem State.setRouter_fns (s : State) (n : Nat) (r : Router) : (s.setRouter n r).fns = s.fns := rfl
@[simp] theorem State.setRouter_ring (s : State) (n : Nat) (r : Router) : (s.setRouter n r).ring = s.ring := rfl
@[simp] theorem State.setRouter_pastRing (s : State) (n : Nat) (r : Router) : (s.setRouter n r).pastRing = s.pastRing := rfl
@[simp] theorem State.setRouter_ports (s : State) (n : Nat) (r : Router) : (s.setRouter n r).ports = s.ports := rfl
@[simp] theorem State.setRouter_keys (s : State) (n : Nat) (r : Router) : (s.setRouter n r).keys = s.keys := rfl
@[simp] theorem State.setRouter_memKeys (s : State) (n : Nat) (r : Router) : (s.setRouter n r).memKeys = s.memKeys := rfl
@[simp] theorem State.setRouter_cxl (s : State) (n : Nat) (r : Router) : (s.setRouter n r).cxl = s.cxl := rfl
@[simp] theorem State.setRouter_mbds (s : State) (n : Nat) (r : Router) : (s.setRouter n r).mbds = s.mbds := rfl
@[simp] theorem State.setRouter_parts (s : State) (n : Nat) (r : Router) : (s.setRouter n r).parts = s.parts := rfl
@[simp] theorem State.setRouter_objs (s : State) (n : Nat) (r : Router) : (s.setRouter n r).objs = s.objs := rfl
@[simp] theorem State.setRouter_insts (s : State) (n : Nat) (r : Router) : (s.setRouter n r).insts = s.insts := rfl
@[simp] theorem State.setRouter_gangs (s : State) (n : Nat) (r : Router) : (s.setRouter n r).gangs = s.gangs := rfl
@[simp] theorem State.setRouter_procs (s : State) (n : Nat) (r : Router) : (s.setRouter n r).procs = s.procs := rfl
@[simp] theorem State.setRouter_cores (s : State) (n : Nat) (r : Router) : (s.setRouter n r).cores = s.cores := rfl
@[simp] theorem State.setRouter_clusters (s : State) (n : Nat) (r : Router) : (s.setRouter n r).clusters = s.clusters := rfl
@[simp] theorem State.setRouter_engines (s : State) (n : Nat) (r : Router) : (s.setRouter n r).engines = s.engines := rfl
@[simp] theorem State.setRouter_txns (s : State) (n : Nat) (r : Router) : (s.setRouter n r).txns = s.txns := rfl
@[simp] theorem State.setRouter_recs (s : State) (n : Nat) (r : Router) : (s.setRouter n r).recs = s.recs := rfl
@[simp] theorem State.setRouter_managed (s : State) (n : Nat) (r : Router) : (s.setRouter n r).managed = s.managed := rfl
@[simp] theorem State.setRouter_farArr (s : State) (n : Nat) (r : Router) : (s.setRouter n r).farArr = s.farArr := rfl
@[simp] theorem State.setRouter_saved (s : State) (n : Nat) (r : Router) : (s.setRouter n r).saved = s.saved := rfl
@[simp] theorem State.setRouter_xmsgs (s : State) (n : Nat) (r : Router) : (s.setRouter n r).xmsgs = s.xmsgs := rfl
@[simp] theorem State.setRouter_flaws (s : State) (n : Nat) (r : Router) : (s.setRouter n r).flaws = s.flaws := rfl
@[simp] theorem State.setRouter_windows (s : State) (n : Nat) (r : Router) : (s.setRouter n r).windows = s.windows := rfl
@[simp] theorem State.setRouter_hot (s : State) (n : Nat) (r : Router) : (s.setRouter n r).hot = s.hot := rfl
@[simp] theorem State.setRouter_lineCount (s : State) (n : Nat) (r : Router) : (s.setRouter n r).lineCount = s.lineCount := rfl
@[simp] theorem State.setRouter_grans (s : State) (n : Nat) (r : Router) : (s.setRouter n r).grans = s.grans := rfl
@[simp] theorem State.setRouter_tokens (s : State) (n : Nat) (r : Router) : (s.setRouter n r).tokens = s.tokens := rfl
@[simp] theorem State.setRouter_motions (s : State) (n : Nat) (r : Router) : (s.setRouter n r).motions = s.motions := rfl
@[simp] theorem State.setRouter_nextTxn (s : State) (n : Nat) (r : Router) : (s.setRouter n r).nextTxn = s.nextTxn := rfl
@[simp] theorem State.setRouter_nextId (s : State) (n : Nat) (r : Router) : (s.setRouter n r).nextId = s.nextId := rfl
@[simp] theorem State.setRouter_fresh (s : State) (n : Nat) (r : Router) : (s.setRouter n r).fresh = s.fresh := rfl
@[simp] theorem State.setRouter_moduleId (s : State) (n : Nat) (r : Router) : (s.setRouter n r).moduleId = s.moduleId := rfl
@[simp] theorem State.setRouter_agenda (s : State) (n : Nat) (r : Router) : (s.setRouter n r).agenda = s.agenda := rfl
@[simp] theorem State.setRouter_auto (s : State) (n : Nat) (r : Router) : (s.setRouter n r).auto = s.auto := rfl
@[simp] theorem State.setRouter_issue (s : State) (n : Nat) (r : Router) : (s.setRouter n r).issue = s.issue := rfl
@[simp] theorem State.setRouter_raised (s : State) (n : Nat) (r : Router) : (s.setRouter n r).raised = s.raised := rfl
@[simp] theorem State.setRouter_proc (s : State) (n : Nat) (r : Router) (j : Nat) : (s.setRouter n r).proc j = s.proc j := rfl
@[simp] theorem State.setRouter_core (s : State) (n : Nat) (r : Router) (j : Nat) : (s.setRouter n r).core j = s.core j := rfl
@[simp] theorem State.setRouter_part (s : State) (n : Nat) (r : Router) (j : Nat) : (s.setRouter n r).part j = s.part j := rfl
@[simp] theorem State.setRouter_cluster (s : State) (n : Nat) (r : Router) (j : Nat) : (s.setRouter n r).cluster j = s.cluster j := rfl
@[simp] theorem State.setRouter_engine (s : State) (n : Nat) (r : Router) (j : Nat) : (s.setRouter n r).engine j = s.engine j := rfl
@[simp] theorem State.setRouter_die (s : State) (n : Nat) (r : Router) (j : Nat) : (s.setRouter n r).die j = s.die j := rfl
@[simp] theorem State.setRouter_fn (s : State) (n : Nat) (r : Router) (j : Nat) : (s.setRouter n r).fn j = s.fn j := rfl
@[simp] theorem State.setRouter_port (s : State) (n : Nat) (r : Router) (j : Nat) : (s.setRouter n r).port j = s.port j := rfl
@[simp] theorem State.setRouter_mbd (s : State) (n : Nat) (r : Router) (j : Nat) : (s.setRouter n r).mbd j = s.mbd j := rfl
@[simp] theorem State.setRouter_inst (s : State) (n : Nat) (r : Router) (j : Nat) : (s.setRouter n r).inst j = s.inst j := rfl
@[simp] theorem State.setRouter_queue (s : State) (n : Nat) (r : Router) (j : Nat) : (s.setRouter n r).queue j = s.queue j := rfl

@[simp] theorem State.dropTxn_mem (s : State) (t : Nat) : (s.dropTxn t).mem = s.mem := rfl
@[simp] theorem State.dropTxn_time (s : State) (t : Nat) : (s.dropTxn t).time = s.time := rfl
@[simp] theorem State.dropTxn_timeRem (s : State) (t : Nat) : (s.dropTxn t).timeRem = s.timeRem := rfl
@[simp] theorem State.dropTxn_cycle (s : State) (t : Nat) : (s.dropTxn t).cycle = s.cycle := rfl
@[simp] theorem State.dropTxn_turnCore (s : State) (t : Nat) : (s.dropTxn t).turnCore = s.turnCore := rfl
@[simp] theorem State.dropTxn_timePpb (s : State) (t : Nat) : (s.dropTxn t).timePpb = s.timePpb := rfl
@[simp] theorem State.dropTxn_timeSlew (s : State) (t : Nat) : (s.dropTxn t).timeSlew = s.timeSlew := rfl
@[simp] theorem State.dropTxn_ppsLatch (s : State) (t : Nat) : (s.dropTxn t).ppsLatch = s.ppsLatch := rfl
@[simp] theorem State.dropTxn_recovery (s : State) (t : Nat) : (s.dropTxn t).recovery = s.recovery := rfl
@[simp] theorem State.dropTxn_hostTold (s : State) (t : Nat) : (s.dropTxn t).hostTold = s.hostTold := rfl
@[simp] theorem State.dropTxn_stopped (s : State) (t : Nat) : (s.dropTxn t).stopped = s.stopped := rfl
@[simp] theorem State.dropTxn_romRev (s : State) (t : Nat) : (s.dropTxn t).romRev = s.romRev := rfl
@[simp] theorem State.dropTxn_romImage (s : State) (t : Nat) : (s.dropTxn t).romImage = s.romImage := rfl
@[simp] theorem State.dropTxn_puf (s : State) (t : Nat) : (s.dropTxn t).puf = s.puf := rfl
@[simp] theorem State.dropTxn_seed (s : State) (t : Nat) : (s.dropTxn t).seed = s.seed := rfl
@[simp] theorem State.dropTxn_patchRam (s : State) (t : Nat) : (s.dropTxn t).patchRam = s.patchRam := rfl
@[simp] theorem State.dropTxn_timeLock (s : State) (t : Nat) : (s.dropTxn t).timeLock = s.timeLock := rfl
@[simp] theorem State.dropTxn_lowerUsed (s : State) (t : Nat) : (s.dropTxn t).lowerUsed = s.lowerUsed := rfl
@[simp] theorem State.dropTxn_flash (s : State) (t : Nat) : (s.dropTxn t).flash = s.flash := rfl
@[simp] theorem State.dropTxn_dies (s : State) (t : Nat) : (s.dropTxn t).dies = s.dies := rfl
@[simp] theorem State.dropTxn_queues (s : State) (t : Nat) : (s.dropTxn t).queues = s.queues := rfl
@[simp] theorem State.dropTxn_lastBound (s : State) (t : Nat) : (s.dropTxn t).lastBound = s.lastBound := rfl
@[simp] theorem State.dropTxn_fns (s : State) (t : Nat) : (s.dropTxn t).fns = s.fns := rfl
@[simp] theorem State.dropTxn_ring (s : State) (t : Nat) : (s.dropTxn t).ring = s.ring := rfl
@[simp] theorem State.dropTxn_pastRing (s : State) (t : Nat) : (s.dropTxn t).pastRing = s.pastRing := rfl
@[simp] theorem State.dropTxn_ports (s : State) (t : Nat) : (s.dropTxn t).ports = s.ports := rfl
@[simp] theorem State.dropTxn_keys (s : State) (t : Nat) : (s.dropTxn t).keys = s.keys := rfl
@[simp] theorem State.dropTxn_memKeys (s : State) (t : Nat) : (s.dropTxn t).memKeys = s.memKeys := rfl
@[simp] theorem State.dropTxn_cxl (s : State) (t : Nat) : (s.dropTxn t).cxl = s.cxl := rfl
@[simp] theorem State.dropTxn_mbds (s : State) (t : Nat) : (s.dropTxn t).mbds = s.mbds := rfl
@[simp] theorem State.dropTxn_routers (s : State) (t : Nat) : (s.dropTxn t).routers = s.routers := rfl
@[simp] theorem State.dropTxn_parts (s : State) (t : Nat) : (s.dropTxn t).parts = s.parts := rfl
@[simp] theorem State.dropTxn_objs (s : State) (t : Nat) : (s.dropTxn t).objs = s.objs := rfl
@[simp] theorem State.dropTxn_insts (s : State) (t : Nat) : (s.dropTxn t).insts = s.insts := rfl
@[simp] theorem State.dropTxn_gangs (s : State) (t : Nat) : (s.dropTxn t).gangs = s.gangs := rfl
@[simp] theorem State.dropTxn_procs (s : State) (t : Nat) : (s.dropTxn t).procs = s.procs := rfl
@[simp] theorem State.dropTxn_cores (s : State) (t : Nat) : (s.dropTxn t).cores = s.cores := rfl
@[simp] theorem State.dropTxn_clusters (s : State) (t : Nat) : (s.dropTxn t).clusters = s.clusters := rfl
@[simp] theorem State.dropTxn_engines (s : State) (t : Nat) : (s.dropTxn t).engines = s.engines := rfl
@[simp] theorem State.dropTxn_recs (s : State) (t : Nat) : (s.dropTxn t).recs = s.recs := rfl
@[simp] theorem State.dropTxn_managed (s : State) (t : Nat) : (s.dropTxn t).managed = s.managed := rfl
@[simp] theorem State.dropTxn_farArr (s : State) (t : Nat) : (s.dropTxn t).farArr = s.farArr := rfl
@[simp] theorem State.dropTxn_saved (s : State) (t : Nat) : (s.dropTxn t).saved = s.saved := rfl
@[simp] theorem State.dropTxn_xmsgs (s : State) (t : Nat) : (s.dropTxn t).xmsgs = s.xmsgs := rfl
@[simp] theorem State.dropTxn_flaws (s : State) (t : Nat) : (s.dropTxn t).flaws = s.flaws := rfl
@[simp] theorem State.dropTxn_windows (s : State) (t : Nat) : (s.dropTxn t).windows = s.windows := rfl
@[simp] theorem State.dropTxn_hot (s : State) (t : Nat) : (s.dropTxn t).hot = s.hot := rfl
@[simp] theorem State.dropTxn_lineCount (s : State) (t : Nat) : (s.dropTxn t).lineCount = s.lineCount := rfl
@[simp] theorem State.dropTxn_grans (s : State) (t : Nat) : (s.dropTxn t).grans = s.grans := rfl
@[simp] theorem State.dropTxn_tokens (s : State) (t : Nat) : (s.dropTxn t).tokens = s.tokens := rfl
@[simp] theorem State.dropTxn_motions (s : State) (t : Nat) : (s.dropTxn t).motions = s.motions := rfl
@[simp] theorem State.dropTxn_nextTxn (s : State) (t : Nat) : (s.dropTxn t).nextTxn = s.nextTxn := rfl
@[simp] theorem State.dropTxn_nextId (s : State) (t : Nat) : (s.dropTxn t).nextId = s.nextId := rfl
@[simp] theorem State.dropTxn_fresh (s : State) (t : Nat) : (s.dropTxn t).fresh = s.fresh := rfl
@[simp] theorem State.dropTxn_moduleId (s : State) (t : Nat) : (s.dropTxn t).moduleId = s.moduleId := rfl
@[simp] theorem State.dropTxn_agenda (s : State) (t : Nat) : (s.dropTxn t).agenda = s.agenda := rfl
@[simp] theorem State.dropTxn_auto (s : State) (t : Nat) : (s.dropTxn t).auto = s.auto := rfl
@[simp] theorem State.dropTxn_issue (s : State) (t : Nat) : (s.dropTxn t).issue = s.issue := rfl
@[simp] theorem State.dropTxn_raised (s : State) (t : Nat) : (s.dropTxn t).raised = s.raised := rfl
@[simp] theorem State.dropTxn_proc (s : State) (t : Nat) (j : Nat) : (s.dropTxn t).proc j = s.proc j := rfl
@[simp] theorem State.dropTxn_core (s : State) (t : Nat) (j : Nat) : (s.dropTxn t).core j = s.core j := rfl
@[simp] theorem State.dropTxn_part (s : State) (t : Nat) (j : Nat) : (s.dropTxn t).part j = s.part j := rfl
@[simp] theorem State.dropTxn_cluster (s : State) (t : Nat) (j : Nat) : (s.dropTxn t).cluster j = s.cluster j := rfl
@[simp] theorem State.dropTxn_engine (s : State) (t : Nat) (j : Nat) : (s.dropTxn t).engine j = s.engine j := rfl
@[simp] theorem State.dropTxn_die (s : State) (t : Nat) (j : Nat) : (s.dropTxn t).die j = s.die j := rfl
@[simp] theorem State.dropTxn_fn (s : State) (t : Nat) (j : Nat) : (s.dropTxn t).fn j = s.fn j := rfl
@[simp] theorem State.dropTxn_port (s : State) (t : Nat) (j : Nat) : (s.dropTxn t).port j = s.port j := rfl
@[simp] theorem State.dropTxn_mbd (s : State) (t : Nat) (j : Nat) : (s.dropTxn t).mbd j = s.mbd j := rfl
@[simp] theorem State.dropTxn_inst (s : State) (t : Nat) (j : Nat) : (s.dropTxn t).inst j = s.inst j := rfl
@[simp] theorem State.dropTxn_queue (s : State) (t : Nat) (j : Nat) : (s.dropTxn t).queue j = s.queue j := rfl
@[simp] theorem State.dropTxn_router (s : State) (t : Nat) (j : Nat) : (s.dropTxn t).router j = s.router j := rfl

@[simp] theorem State.modInst_mem (s : State) (i : Nat) (f : Inst → Inst) : (s.modInst i f).mem = s.mem := rfl
@[simp] theorem State.modInst_time (s : State) (i : Nat) (f : Inst → Inst) : (s.modInst i f).time = s.time := rfl
@[simp] theorem State.modInst_timeRem (s : State) (i : Nat) (f : Inst → Inst) : (s.modInst i f).timeRem = s.timeRem := rfl
@[simp] theorem State.modInst_cycle (s : State) (i : Nat) (f : Inst → Inst) : (s.modInst i f).cycle = s.cycle := rfl
@[simp] theorem State.modInst_turnCore (s : State) (i : Nat) (f : Inst → Inst) : (s.modInst i f).turnCore = s.turnCore := rfl
@[simp] theorem State.modInst_timePpb (s : State) (i : Nat) (f : Inst → Inst) : (s.modInst i f).timePpb = s.timePpb := rfl
@[simp] theorem State.modInst_timeSlew (s : State) (i : Nat) (f : Inst → Inst) : (s.modInst i f).timeSlew = s.timeSlew := rfl
@[simp] theorem State.modInst_ppsLatch (s : State) (i : Nat) (f : Inst → Inst) : (s.modInst i f).ppsLatch = s.ppsLatch := rfl
@[simp] theorem State.modInst_recovery (s : State) (i : Nat) (f : Inst → Inst) : (s.modInst i f).recovery = s.recovery := rfl
@[simp] theorem State.modInst_hostTold (s : State) (i : Nat) (f : Inst → Inst) : (s.modInst i f).hostTold = s.hostTold := rfl
@[simp] theorem State.modInst_stopped (s : State) (i : Nat) (f : Inst → Inst) : (s.modInst i f).stopped = s.stopped := rfl
@[simp] theorem State.modInst_romRev (s : State) (i : Nat) (f : Inst → Inst) : (s.modInst i f).romRev = s.romRev := rfl
@[simp] theorem State.modInst_romImage (s : State) (i : Nat) (f : Inst → Inst) : (s.modInst i f).romImage = s.romImage := rfl
@[simp] theorem State.modInst_puf (s : State) (i : Nat) (f : Inst → Inst) : (s.modInst i f).puf = s.puf := rfl
@[simp] theorem State.modInst_seed (s : State) (i : Nat) (f : Inst → Inst) : (s.modInst i f).seed = s.seed := rfl
@[simp] theorem State.modInst_patchRam (s : State) (i : Nat) (f : Inst → Inst) : (s.modInst i f).patchRam = s.patchRam := rfl
@[simp] theorem State.modInst_timeLock (s : State) (i : Nat) (f : Inst → Inst) : (s.modInst i f).timeLock = s.timeLock := rfl
@[simp] theorem State.modInst_lowerUsed (s : State) (i : Nat) (f : Inst → Inst) : (s.modInst i f).lowerUsed = s.lowerUsed := rfl
@[simp] theorem State.modInst_flash (s : State) (i : Nat) (f : Inst → Inst) : (s.modInst i f).flash = s.flash := rfl
@[simp] theorem State.modInst_dies (s : State) (i : Nat) (f : Inst → Inst) : (s.modInst i f).dies = s.dies := rfl
@[simp] theorem State.modInst_queues (s : State) (i : Nat) (f : Inst → Inst) : (s.modInst i f).queues = s.queues := rfl
@[simp] theorem State.modInst_lastBound (s : State) (i : Nat) (f : Inst → Inst) : (s.modInst i f).lastBound = s.lastBound := rfl
@[simp] theorem State.modInst_fns (s : State) (i : Nat) (f : Inst → Inst) : (s.modInst i f).fns = s.fns := rfl
@[simp] theorem State.modInst_ring (s : State) (i : Nat) (f : Inst → Inst) : (s.modInst i f).ring = s.ring := rfl
@[simp] theorem State.modInst_pastRing (s : State) (i : Nat) (f : Inst → Inst) : (s.modInst i f).pastRing = s.pastRing := rfl
@[simp] theorem State.modInst_ports (s : State) (i : Nat) (f : Inst → Inst) : (s.modInst i f).ports = s.ports := rfl
@[simp] theorem State.modInst_keys (s : State) (i : Nat) (f : Inst → Inst) : (s.modInst i f).keys = s.keys := rfl
@[simp] theorem State.modInst_memKeys (s : State) (i : Nat) (f : Inst → Inst) : (s.modInst i f).memKeys = s.memKeys := rfl
@[simp] theorem State.modInst_cxl (s : State) (i : Nat) (f : Inst → Inst) : (s.modInst i f).cxl = s.cxl := rfl
@[simp] theorem State.modInst_mbds (s : State) (i : Nat) (f : Inst → Inst) : (s.modInst i f).mbds = s.mbds := rfl
@[simp] theorem State.modInst_routers (s : State) (i : Nat) (f : Inst → Inst) : (s.modInst i f).routers = s.routers := rfl
@[simp] theorem State.modInst_parts (s : State) (i : Nat) (f : Inst → Inst) : (s.modInst i f).parts = s.parts := rfl
@[simp] theorem State.modInst_objs (s : State) (i : Nat) (f : Inst → Inst) : (s.modInst i f).objs = s.objs := rfl
@[simp] theorem State.modInst_gangs (s : State) (i : Nat) (f : Inst → Inst) : (s.modInst i f).gangs = s.gangs := rfl
@[simp] theorem State.modInst_procs (s : State) (i : Nat) (f : Inst → Inst) : (s.modInst i f).procs = s.procs := rfl
@[simp] theorem State.modInst_cores (s : State) (i : Nat) (f : Inst → Inst) : (s.modInst i f).cores = s.cores := rfl
@[simp] theorem State.modInst_clusters (s : State) (i : Nat) (f : Inst → Inst) : (s.modInst i f).clusters = s.clusters := rfl
@[simp] theorem State.modInst_engines (s : State) (i : Nat) (f : Inst → Inst) : (s.modInst i f).engines = s.engines := rfl
@[simp] theorem State.modInst_txns (s : State) (i : Nat) (f : Inst → Inst) : (s.modInst i f).txns = s.txns := rfl
@[simp] theorem State.modInst_recs (s : State) (i : Nat) (f : Inst → Inst) : (s.modInst i f).recs = s.recs := rfl
@[simp] theorem State.modInst_managed (s : State) (i : Nat) (f : Inst → Inst) : (s.modInst i f).managed = s.managed := rfl
@[simp] theorem State.modInst_farArr (s : State) (i : Nat) (f : Inst → Inst) : (s.modInst i f).farArr = s.farArr := rfl
@[simp] theorem State.modInst_saved (s : State) (i : Nat) (f : Inst → Inst) : (s.modInst i f).saved = s.saved := rfl
@[simp] theorem State.modInst_xmsgs (s : State) (i : Nat) (f : Inst → Inst) : (s.modInst i f).xmsgs = s.xmsgs := rfl
@[simp] theorem State.modInst_flaws (s : State) (i : Nat) (f : Inst → Inst) : (s.modInst i f).flaws = s.flaws := rfl
@[simp] theorem State.modInst_windows (s : State) (i : Nat) (f : Inst → Inst) : (s.modInst i f).windows = s.windows := rfl
@[simp] theorem State.modInst_hot (s : State) (i : Nat) (f : Inst → Inst) : (s.modInst i f).hot = s.hot := rfl
@[simp] theorem State.modInst_lineCount (s : State) (i : Nat) (f : Inst → Inst) : (s.modInst i f).lineCount = s.lineCount := rfl
@[simp] theorem State.modInst_grans (s : State) (i : Nat) (f : Inst → Inst) : (s.modInst i f).grans = s.grans := rfl
@[simp] theorem State.modInst_tokens (s : State) (i : Nat) (f : Inst → Inst) : (s.modInst i f).tokens = s.tokens := rfl
@[simp] theorem State.modInst_motions (s : State) (i : Nat) (f : Inst → Inst) : (s.modInst i f).motions = s.motions := rfl
@[simp] theorem State.modInst_nextTxn (s : State) (i : Nat) (f : Inst → Inst) : (s.modInst i f).nextTxn = s.nextTxn := rfl
@[simp] theorem State.modInst_nextId (s : State) (i : Nat) (f : Inst → Inst) : (s.modInst i f).nextId = s.nextId := rfl
@[simp] theorem State.modInst_fresh (s : State) (i : Nat) (f : Inst → Inst) : (s.modInst i f).fresh = s.fresh := rfl
@[simp] theorem State.modInst_moduleId (s : State) (i : Nat) (f : Inst → Inst) : (s.modInst i f).moduleId = s.moduleId := rfl
@[simp] theorem State.modInst_agenda (s : State) (i : Nat) (f : Inst → Inst) : (s.modInst i f).agenda = s.agenda := rfl
@[simp] theorem State.modInst_auto (s : State) (i : Nat) (f : Inst → Inst) : (s.modInst i f).auto = s.auto := rfl
@[simp] theorem State.modInst_issue (s : State) (i : Nat) (f : Inst → Inst) : (s.modInst i f).issue = s.issue := rfl
@[simp] theorem State.modInst_raised (s : State) (i : Nat) (f : Inst → Inst) : (s.modInst i f).raised = s.raised := rfl
@[simp] theorem State.modInst_proc (s : State) (i : Nat) (f : Inst → Inst) (j : Nat) : (s.modInst i f).proc j = s.proc j := rfl
@[simp] theorem State.modInst_core (s : State) (i : Nat) (f : Inst → Inst) (j : Nat) : (s.modInst i f).core j = s.core j := rfl
@[simp] theorem State.modInst_part (s : State) (i : Nat) (f : Inst → Inst) (j : Nat) : (s.modInst i f).part j = s.part j := rfl
@[simp] theorem State.modInst_cluster (s : State) (i : Nat) (f : Inst → Inst) (j : Nat) : (s.modInst i f).cluster j = s.cluster j := rfl
@[simp] theorem State.modInst_engine (s : State) (i : Nat) (f : Inst → Inst) (j : Nat) : (s.modInst i f).engine j = s.engine j := rfl
@[simp] theorem State.modInst_die (s : State) (i : Nat) (f : Inst → Inst) (j : Nat) : (s.modInst i f).die j = s.die j := rfl
@[simp] theorem State.modInst_fn (s : State) (i : Nat) (f : Inst → Inst) (j : Nat) : (s.modInst i f).fn j = s.fn j := rfl
@[simp] theorem State.modInst_port (s : State) (i : Nat) (f : Inst → Inst) (j : Nat) : (s.modInst i f).port j = s.port j := rfl
@[simp] theorem State.modInst_mbd (s : State) (i : Nat) (f : Inst → Inst) (j : Nat) : (s.modInst i f).mbd j = s.mbd j := rfl
@[simp] theorem State.modInst_queue (s : State) (i : Nat) (f : Inst → Inst) (j : Nat) : (s.modInst i f).queue j = s.queue j := rfl
@[simp] theorem State.modInst_router (s : State) (i : Nat) (f : Inst → Inst) (j : Nat) : (s.modInst i f).router j = s.router j := rfl

@[simp] theorem State.modTxn_mem (s : State) (t : Nat) (f : Txn → Txn) : (s.modTxn t f).mem = s.mem := rfl
@[simp] theorem State.modTxn_time (s : State) (t : Nat) (f : Txn → Txn) : (s.modTxn t f).time = s.time := rfl
@[simp] theorem State.modTxn_timeRem (s : State) (t : Nat) (f : Txn → Txn) : (s.modTxn t f).timeRem = s.timeRem := rfl
@[simp] theorem State.modTxn_cycle (s : State) (t : Nat) (f : Txn → Txn) : (s.modTxn t f).cycle = s.cycle := rfl
@[simp] theorem State.modTxn_turnCore (s : State) (t : Nat) (f : Txn → Txn) : (s.modTxn t f).turnCore = s.turnCore := rfl
@[simp] theorem State.modTxn_timePpb (s : State) (t : Nat) (f : Txn → Txn) : (s.modTxn t f).timePpb = s.timePpb := rfl
@[simp] theorem State.modTxn_timeSlew (s : State) (t : Nat) (f : Txn → Txn) : (s.modTxn t f).timeSlew = s.timeSlew := rfl
@[simp] theorem State.modTxn_ppsLatch (s : State) (t : Nat) (f : Txn → Txn) : (s.modTxn t f).ppsLatch = s.ppsLatch := rfl
@[simp] theorem State.modTxn_recovery (s : State) (t : Nat) (f : Txn → Txn) : (s.modTxn t f).recovery = s.recovery := rfl
@[simp] theorem State.modTxn_hostTold (s : State) (t : Nat) (f : Txn → Txn) : (s.modTxn t f).hostTold = s.hostTold := rfl
@[simp] theorem State.modTxn_stopped (s : State) (t : Nat) (f : Txn → Txn) : (s.modTxn t f).stopped = s.stopped := rfl
@[simp] theorem State.modTxn_romRev (s : State) (t : Nat) (f : Txn → Txn) : (s.modTxn t f).romRev = s.romRev := rfl
@[simp] theorem State.modTxn_romImage (s : State) (t : Nat) (f : Txn → Txn) : (s.modTxn t f).romImage = s.romImage := rfl
@[simp] theorem State.modTxn_puf (s : State) (t : Nat) (f : Txn → Txn) : (s.modTxn t f).puf = s.puf := rfl
@[simp] theorem State.modTxn_seed (s : State) (t : Nat) (f : Txn → Txn) : (s.modTxn t f).seed = s.seed := rfl
@[simp] theorem State.modTxn_patchRam (s : State) (t : Nat) (f : Txn → Txn) : (s.modTxn t f).patchRam = s.patchRam := rfl
@[simp] theorem State.modTxn_timeLock (s : State) (t : Nat) (f : Txn → Txn) : (s.modTxn t f).timeLock = s.timeLock := rfl
@[simp] theorem State.modTxn_lowerUsed (s : State) (t : Nat) (f : Txn → Txn) : (s.modTxn t f).lowerUsed = s.lowerUsed := rfl
@[simp] theorem State.modTxn_flash (s : State) (t : Nat) (f : Txn → Txn) : (s.modTxn t f).flash = s.flash := rfl
@[simp] theorem State.modTxn_dies (s : State) (t : Nat) (f : Txn → Txn) : (s.modTxn t f).dies = s.dies := rfl
@[simp] theorem State.modTxn_queues (s : State) (t : Nat) (f : Txn → Txn) : (s.modTxn t f).queues = s.queues := rfl
@[simp] theorem State.modTxn_lastBound (s : State) (t : Nat) (f : Txn → Txn) : (s.modTxn t f).lastBound = s.lastBound := rfl
@[simp] theorem State.modTxn_fns (s : State) (t : Nat) (f : Txn → Txn) : (s.modTxn t f).fns = s.fns := rfl
@[simp] theorem State.modTxn_ring (s : State) (t : Nat) (f : Txn → Txn) : (s.modTxn t f).ring = s.ring := rfl
@[simp] theorem State.modTxn_pastRing (s : State) (t : Nat) (f : Txn → Txn) : (s.modTxn t f).pastRing = s.pastRing := rfl
@[simp] theorem State.modTxn_ports (s : State) (t : Nat) (f : Txn → Txn) : (s.modTxn t f).ports = s.ports := rfl
@[simp] theorem State.modTxn_keys (s : State) (t : Nat) (f : Txn → Txn) : (s.modTxn t f).keys = s.keys := rfl
@[simp] theorem State.modTxn_memKeys (s : State) (t : Nat) (f : Txn → Txn) : (s.modTxn t f).memKeys = s.memKeys := rfl
@[simp] theorem State.modTxn_cxl (s : State) (t : Nat) (f : Txn → Txn) : (s.modTxn t f).cxl = s.cxl := rfl
@[simp] theorem State.modTxn_mbds (s : State) (t : Nat) (f : Txn → Txn) : (s.modTxn t f).mbds = s.mbds := rfl
@[simp] theorem State.modTxn_routers (s : State) (t : Nat) (f : Txn → Txn) : (s.modTxn t f).routers = s.routers := rfl
@[simp] theorem State.modTxn_parts (s : State) (t : Nat) (f : Txn → Txn) : (s.modTxn t f).parts = s.parts := rfl
@[simp] theorem State.modTxn_objs (s : State) (t : Nat) (f : Txn → Txn) : (s.modTxn t f).objs = s.objs := rfl
@[simp] theorem State.modTxn_insts (s : State) (t : Nat) (f : Txn → Txn) : (s.modTxn t f).insts = s.insts := rfl
@[simp] theorem State.modTxn_gangs (s : State) (t : Nat) (f : Txn → Txn) : (s.modTxn t f).gangs = s.gangs := rfl
@[simp] theorem State.modTxn_procs (s : State) (t : Nat) (f : Txn → Txn) : (s.modTxn t f).procs = s.procs := rfl
@[simp] theorem State.modTxn_cores (s : State) (t : Nat) (f : Txn → Txn) : (s.modTxn t f).cores = s.cores := rfl
@[simp] theorem State.modTxn_clusters (s : State) (t : Nat) (f : Txn → Txn) : (s.modTxn t f).clusters = s.clusters := rfl
@[simp] theorem State.modTxn_engines (s : State) (t : Nat) (f : Txn → Txn) : (s.modTxn t f).engines = s.engines := rfl
@[simp] theorem State.modTxn_recs (s : State) (t : Nat) (f : Txn → Txn) : (s.modTxn t f).recs = s.recs := rfl
@[simp] theorem State.modTxn_managed (s : State) (t : Nat) (f : Txn → Txn) : (s.modTxn t f).managed = s.managed := rfl
@[simp] theorem State.modTxn_farArr (s : State) (t : Nat) (f : Txn → Txn) : (s.modTxn t f).farArr = s.farArr := rfl
@[simp] theorem State.modTxn_saved (s : State) (t : Nat) (f : Txn → Txn) : (s.modTxn t f).saved = s.saved := rfl
@[simp] theorem State.modTxn_xmsgs (s : State) (t : Nat) (f : Txn → Txn) : (s.modTxn t f).xmsgs = s.xmsgs := rfl
@[simp] theorem State.modTxn_flaws (s : State) (t : Nat) (f : Txn → Txn) : (s.modTxn t f).flaws = s.flaws := rfl
@[simp] theorem State.modTxn_windows (s : State) (t : Nat) (f : Txn → Txn) : (s.modTxn t f).windows = s.windows := rfl
@[simp] theorem State.modTxn_hot (s : State) (t : Nat) (f : Txn → Txn) : (s.modTxn t f).hot = s.hot := rfl
@[simp] theorem State.modTxn_lineCount (s : State) (t : Nat) (f : Txn → Txn) : (s.modTxn t f).lineCount = s.lineCount := rfl
@[simp] theorem State.modTxn_grans (s : State) (t : Nat) (f : Txn → Txn) : (s.modTxn t f).grans = s.grans := rfl
@[simp] theorem State.modTxn_tokens (s : State) (t : Nat) (f : Txn → Txn) : (s.modTxn t f).tokens = s.tokens := rfl
@[simp] theorem State.modTxn_motions (s : State) (t : Nat) (f : Txn → Txn) : (s.modTxn t f).motions = s.motions := rfl
@[simp] theorem State.modTxn_nextTxn (s : State) (t : Nat) (f : Txn → Txn) : (s.modTxn t f).nextTxn = s.nextTxn := rfl
@[simp] theorem State.modTxn_nextId (s : State) (t : Nat) (f : Txn → Txn) : (s.modTxn t f).nextId = s.nextId := rfl
@[simp] theorem State.modTxn_fresh (s : State) (t : Nat) (f : Txn → Txn) : (s.modTxn t f).fresh = s.fresh := rfl
@[simp] theorem State.modTxn_moduleId (s : State) (t : Nat) (f : Txn → Txn) : (s.modTxn t f).moduleId = s.moduleId := rfl
@[simp] theorem State.modTxn_agenda (s : State) (t : Nat) (f : Txn → Txn) : (s.modTxn t f).agenda = s.agenda := rfl
@[simp] theorem State.modTxn_auto (s : State) (t : Nat) (f : Txn → Txn) : (s.modTxn t f).auto = s.auto := rfl
@[simp] theorem State.modTxn_issue (s : State) (t : Nat) (f : Txn → Txn) : (s.modTxn t f).issue = s.issue := rfl
@[simp] theorem State.modTxn_raised (s : State) (t : Nat) (f : Txn → Txn) : (s.modTxn t f).raised = s.raised := rfl
@[simp] theorem State.modTxn_proc (s : State) (t : Nat) (f : Txn → Txn) (j : Nat) : (s.modTxn t f).proc j = s.proc j := rfl
@[simp] theorem State.modTxn_core (s : State) (t : Nat) (f : Txn → Txn) (j : Nat) : (s.modTxn t f).core j = s.core j := rfl
@[simp] theorem State.modTxn_part (s : State) (t : Nat) (f : Txn → Txn) (j : Nat) : (s.modTxn t f).part j = s.part j := rfl
@[simp] theorem State.modTxn_cluster (s : State) (t : Nat) (f : Txn → Txn) (j : Nat) : (s.modTxn t f).cluster j = s.cluster j := rfl
@[simp] theorem State.modTxn_engine (s : State) (t : Nat) (f : Txn → Txn) (j : Nat) : (s.modTxn t f).engine j = s.engine j := rfl
@[simp] theorem State.modTxn_die (s : State) (t : Nat) (f : Txn → Txn) (j : Nat) : (s.modTxn t f).die j = s.die j := rfl
@[simp] theorem State.modTxn_fn (s : State) (t : Nat) (f : Txn → Txn) (j : Nat) : (s.modTxn t f).fn j = s.fn j := rfl
@[simp] theorem State.modTxn_port (s : State) (t : Nat) (f : Txn → Txn) (j : Nat) : (s.modTxn t f).port j = s.port j := rfl
@[simp] theorem State.modTxn_mbd (s : State) (t : Nat) (f : Txn → Txn) (j : Nat) : (s.modTxn t f).mbd j = s.mbd j := rfl
@[simp] theorem State.modTxn_inst (s : State) (t : Nat) (f : Txn → Txn) (j : Nat) : (s.modTxn t f).inst j = s.inst j := rfl
@[simp] theorem State.modTxn_queue (s : State) (t : Nat) (f : Txn → Txn) (j : Nat) : (s.modTxn t f).queue j = s.queue j := rfl
@[simp] theorem State.modTxn_router (s : State) (t : Nat) (f : Txn → Txn) (j : Nat) : (s.modTxn t f).router j = s.router j := rfl

end Sys2Proof.Machine
end

