-- ==== Sys2Proof/Laws/Ops.lean ====
section
/-! SUPPORT. What the shared operations of a word do: its outcome, its operands, its pushes and pending pushes, faults and holds. A
proof about an instruction cites these and does not unfold them. -/

namespace Sys2Proof.Machine

/-! ### Outcomes -/

@[simp] theorem finish_ok (s t : State) : finish s (.ok t) = .next t := rfl
@[simp] theorem finish_trap (s : State) (t : Trap) : finish s (.error (.trap t)) = .next (s.raise t) := rfl
@[simp] theorem finish_hold (s : State) (h : Hold) : finish s (.error (.hold h)) = .next (s.holdWord h) := rfl
@[simp] theorem finish_stop (s : State) (f : Fault) : finish s (.error (.stop f)) = .fault f := rfl

theorem check_eq (c : Bool) (t : Trap) : check c t = if c then .ok () else .error (.trap t) := rfl
@[simp] theorem check_true (t : Trap) : check true t = .ok () := rfl
@[simp] theorem check_false (t : Trap) : check false t = .error (.trap t) := rfl

theorem cur_some {s : State} {i : Issue} (h : s.issue = some i) : s.cur = .ok i := by simp [State.cur, h]
theorem cur_none {s : State} (h : s.issue = none) : s.cur = .error (.stop .noProcess) := by simp [State.cur, h]

@[simp] theorem ok_bind {ε α β : Type} (a : α) (f : α → Except ε β) : ((Except.ok a : Except ε α) >>= f) = f a := rfl
@[simp] theorem error_bind {ε α β : Type} (e : ε) (f : α → Except ε β) :
    ((Except.error e : Except ε α) >>= f) = .error e := rfl

/-! ### Forms of one and two sources -/

theorem form1_ok {s : State} {i : Issue} {x : Src} {a : Word} (k : Keep) (f : Word → Word) (hi : s.issue = some i)
    (hx : readSrc i x = .ok a) : form1 s x k f = .ok (s.push i (f a) k) := by simp [form1, cur_some hi, hx]

theorem form2_ok {s : State} {i : Issue} {x y : Src} {a b : Word} (k : Keep) (f : Word → Word → Word) (hi : s.issue = some i)
    (hx : readSrc i x = .ok a) (hy : readSrc i y = .ok b) : form2 s x y k f = .ok (s.push i (f a b) k) := by
  simp [form2, cur_some hi, hx, hy]

theorem form2Later_ok {s : State} {i : Issue} {x y : Src} {a b : Word} (k : Keep) (lat : Nat) (f : Word → Word → Word × Word)
    (hi : s.issue = some i) (hx : readSrc i x = .ok a) (hy : readSrc i y = .ok b) :
    form2Later s x y k lat f = .ok (s.pushLater i (f a b).1 (f a b).2 k lat) := by simp [form2Later, cur_some hi, hx, hy]

theorem float1_ok {s : State} {i : Issue} {x : Src} {a : Word} (dbl : Bool) (k : Keep) (f : Issue → Fmt → Nat → Nat × Word)
    (hi : s.issue = some i) (hx : readSrc i x = .ok a) :
    float1 s dbl x k f = .ok ((s.push i (BitVec.ofNat 64 (f i (scalarFmt dbl) ((scalarFmt dbl).take a.toNat)).1) k).setFlags i
      (f i (scalarFmt dbl) ((scalarFmt dbl).take a.toNat)).2) := by simp [float1, cur_some hi, hx]

theorem float2_ok {s : State} {i : Issue} {x y : Src} {a b : Word} (dbl : Bool) (k : Keep)
    (f : Issue → Fmt → Nat → Nat → Nat × Word) (hi : s.issue = some i) (hx : readSrc i x = .ok a) (hy : readSrc i y = .ok b) :
    float2 s dbl x y k f = .ok ((s.push i (BitVec.ofNat 64
        (f i (scalarFmt dbl) ((scalarFmt dbl).take a.toNat) ((scalarFmt dbl).take b.toNat)).1) k).setFlags i
      (f i (scalarFmt dbl) ((scalarFmt dbl).take a.toNat) ((scalarFmt dbl).take b.toNat)).2) := by
  simp [float2, cur_some hi, hx, hy]

/-- A source that the special names give is always readable. -/
@[simp] theorem readSrc_sp (i : Issue) (k : Special) : readSrc i (.sp k) = .ok (specialVal i.proc i.pre k) := rfl

/-! ### Pushes -/

/-- A push changes the issuer alone. -/
theorem push_frame (s : State) (i : Issue) (w : Word) (k : Keep) :
    s.push i w k = s.setProc i.proc ((s.proc i.proc).pushVal w (i.keep k)) := rfl

@[simp] theorem push_issue (s : State) (i : Issue) (w : Word) (k : Keep) : (s.push i w k).issue = s.issue := rfl
@[simp] theorem push_mem (s : State) (i : Issue) (w : Word) (k : Keep) : (s.push i w k).mem = s.mem := rfl
@[simp] theorem push_txns (s : State) (i : Issue) (w : Word) (k : Keep) : (s.push i w k).txns = s.txns := rfl
@[simp] theorem push_cores (s : State) (i : Issue) (w : Word) (k : Keep) : (s.push i w k).cores = s.cores := rfl
@[simp] theorem push_parts (s : State) (i : Issue) (w : Word) (k : Keep) : (s.push i w k).parts = s.parts := rfl
theorem push_proc_other (s : State) (i : Issue) (w : Word) (k : Keep) {j : Nat} (h : j ≠ i.proc) :
    (s.push i w k).proc j = s.proc j := State.proc_setProc_other _ _ _ h

theorem setFlags_frame (s : State) (i : Issue) (f : Word) :
    s.setFlags i f = s.setProc i.proc { s.proc i.proc with flags := (s.proc i.proc).flags ||| f } := rfl
@[simp] theorem setFlags_issue (s : State) (i : Issue) (f : Word) : (s.setFlags i f).issue = s.issue := rfl
@[simp] theorem setFlags_mem (s : State) (i : Issue) (f : Word) : (s.setFlags i f).mem = s.mem := rfl

/-- The count of pushes after a push, and the value that `q0` then reads. -/
@[simp] theorem pushVal_push (p : Proc) (w : Word) (k : Option (BitVec 5)) : (p.pushVal w k).push = p.push + 1 := by
  cases k <;> rfl

theorem pushVal_slot (p : Proc) (w : Word) (k : Option (BitVec 5)) :
    (p.pushVal w k).q = p.q.set ((p.push + 1).setWidth 4).toNat w (((p.push + 1).setWidth 4).isLt) := by cases k <;> rfl

theorem pushVal_qget0 (p : Proc) (w : Word) (k : Option (BitVec 5)) : (p.pushVal w k).qget 0 = w := by
  cases k <;> simp [Proc.qget, Proc.slotOf, Proc.pushVal, Proc.setSlot, Proc.nset]

/-- A push touches no named register but the kept one, which then holds the value. -/
theorem pushVal_nget (p : Proc) (w : Word) (k : Option (BitVec 5)) (r : BitVec 5) :
    (p.pushVal w k).nget r = if k = some r then w else p.nget r := by
  cases k with
  | none => rfl
  | some j =>
    by_cases h : j = r
    · subst h; simp [Proc.pushVal, Proc.nset, Proc.nget, Proc.setSlot]
    · have : j.toNat ≠ r.toNat := fun e => h (BitVec.eq_of_toNat_eq e)
      simp [Proc.pushVal, Proc.nset, Proc.nget, Proc.setSlot, h, this]

/-! ### Pending pushes -/

@[simp] theorem pushPend_push (p : Proc) (t : Nat) (k : Option (BitVec 5)) : (p.pushPend t k).1.push = p.push + 1 := by
  cases k <;> rfl

/-- A pending push changes no named register. -/
@[simp] theorem pushPend_n (p : Proc) (t : Nat) (k : Option (BitVec 5)) : (p.pushPend t k).1.n = p.n := by cases k <;> rfl

theorem pushPend_slots (p : Proc) (t : Nat) (k : Option (BitVec 5)) : (p.pushPend t k).2.slots = [p.push + 1] := by
  cases k <;> rfl

@[simp] theorem issuePend_issue (s : State) (i : Issue) (x : Txn) (k : Keep) : (s.issuePend i x k).issue = s.issue := rfl
@[simp] theorem issuePend_mem (s : State) (i : Issue) (x : Txn) (k : Keep) : (s.issuePend i x k).mem = s.mem := rfl
@[simp] theorem issuePend_cores (s : State) (i : Issue) (x : Txn) (k : Keep) : (s.issuePend i x k).cores = s.cores := rfl
@[simp] theorem issuePend_nextTxn (s : State) (i : Issue) (x : Txn) (k : Keep) :
    (s.issuePend i x k).nextTxn = s.nextTxn + 1 := rfl
theorem issuePend_txn (s : State) (i : Issue) (x : Txn) (k : Keep) :
    nget? (s.issuePend i x k).txns s.nextTxn = some { x with tgt := ((s.proc i.proc).pushPend s.nextTxn (i.keep k)).2 } :=
  nget?_nset_same _ _ _
theorem issuePend_proc_other (s : State) (i : Issue) (x : Txn) (k : Keep) {j : Nat} (h : j ≠ i.proc) :
    (s.issuePend i x k).proc j = s.proc j := State.proc_setProc_other _ _ _ h
theorem issuePend_proc (s : State) (i : Issue) (x : Txn) (k : Keep) :
    (s.issuePend i x k).proc i.proc =
      { ((s.proc i.proc).pushPend s.nextTxn (i.keep k)).1 with
        out := ((s.proc i.proc).pushPend s.nextTxn (i.keep k)).1.out ++ [s.nextTxn] } := State.proc_setProc_same _ _ _

@[simp] theorem issuePend2_issue (s : State) (i : Issue) (x : Txn) (k : Keep) : (s.issuePend2 i x k).issue = s.issue := rfl
@[simp] theorem issuePend2_mem (s : State) (i : Issue) (x : Txn) (k : Keep) : (s.issuePend2 i x k).mem = s.mem := rfl
@[simp] theorem issueQuiet_issue (s : State) (x : Txn) : (s.issueQuiet x).issue = s.issue := rfl
@[simp] theorem issueQuiet_mem (s : State) (x : Txn) : (s.issueQuiet x).mem = s.mem := rfl

/-! ### Holds and faults with no word in issue -/

theorem raise_none {s : State} (t : Trap) (h : s.issue = none) : s.raise t = s := by simp [State.raise, h]
theorem raiseAfter_none {s : State} (t : Trap) (h : s.issue = none) : s.raiseAfter t = s := by simp [State.raiseAfter, h]
theorem holdWord_none {s : State} (w : Hold) (h : s.issue = none) : s.holdWord w = s := by simp [State.holdWord, h]

/-- A held word leaves the latch empty, its process parked on it, and everything else as it was. -/
theorem holdWord_some {s : State} {i : Issue} (w : Hold) (h : s.issue = some i) :
    s.holdWord w = ({ s with issue := none } : State).setProc i.proc { s.proc i.proc with st := .parked, hold := some w } := by
  simp [State.holdWord, h]; rfl

end Sys2Proof.Machine
end

