-- ==== Sys2Proof/Tests/Slice0.lean ====
section
/-! SUPPORT. The model's own tests: the checks of WellFormed, words written out from the tables of the spec, and for every
statement with hypotheses a state and operands that meet them. -/

namespace Sys2Proof.Tests
set_option Elab.async false
open Sys2Proof Sys2Proof.Machine

/-! ### WellFormed refuses an ill-formed term, one for each check -/

theorem test_wf_bc : (Instr.bc .always 4).wf = false := by decide
theorem test_wf_ctlw : (Instr.ctlw .shoot (.n 1)).wf = false := by decide
theorem test_wf_ldx : (Instr.ldx .w128 (.n 1) (.n 2) (some 3)).wf = false := by decide
theorem test_wf_red : (Instr.red .swap64 (.n 1) (.n 2)).wf = false := by decide
theorem test_wf_enrol : (Instr.enrol (.n 1) (.n 2) 31).wf = false := by decide
theorem test_wf_unenrol : (Instr.unenrol (.n 1) (.pair 31)).wf = false := by decide
theorem test_wf_ext : (Instr.sext (.n 1) 65 none).wf = false ∧ (Instr.zext (.n 1) 0 none).wf = false := by decide
theorem test_wf_field : (Instr.bext (.n 1) 7 57 none).wf = false ∧ (Instr.bins (.n 1) 31 33 none).wf = false := by decide
theorem test_wf_fcvt : (Instr.fcvt .i32 .n64 (.n 1) none .dyn).wf = false ∧ (Instr.fcvt .f32 .f32 (.n 1) none .dyn).wf = false := by
  decide
theorem test_wf_vector_sign : (Instr.vabs .n32 1 2 0).wf = false ∧ (Instr.vneg .n16 1 2 0).wf = false := by decide
theorem test_wf_vector_float : ∀ x ∈ [Instr.vfrint .i32 1 2 0, .vfexf .n32 1 2 0, .vrcp .i16 1 2 0, .vrsq .n16 1 2 0,
    .vfclass .i32 1 2 0, .vfins .i32 1 2 3 0, .vpopc .f32 1 2 0], x.wf = false := by decide
theorem test_wf_predicate : ∀ x ∈ [Instr.vcmp .eq .f32 0 1 2 3, .pand 0 1 2, .por 0 1 2, .pnot 0 1], x.wf = false := by decide
theorem test_wf_vcvt : (Instr.vcvt .f32 .f32 1 2 0).wf = false := by decide
theorem test_wf_group : ∀ x ∈ [Instr.mgang 3 1 0 (.tile 1) 2 false, .mzero 0 3, .mdup 1 1 0, .mrest 2 2 0, .mdrain 1 2 0 1 .dyn],
    x.wf = false := by decide
theorem test_wf_good : ∀ x ∈ [Instr.bc .z 4, .ldx .w128 (.n 1) (.n 2) none, .sext (.n 1) 64 none, .bext (.n 1) 7 56 none,
    .mzero 0 2, .vcvt .f32 .bf16 1 2 0, .enrol (.n 1) (.n 2) 30], x.wf = true := by decide

/-! ### Words written out from the encoding tables (Tables 12.1 to 12.15): opcode fields first, then operands -/

/-- A lone word with its switch marker clear, and what it decodes to. -/
def lone (w : Nat) (x : Instr) : Prop := decodeSlot w = .ok { lone := true, sw := false, instr := x }

theorem test_decode_control : lone 0xA1FE06D4 (.li (BitVec.ofInt 17 (-300)) none) ∧ lone 0x8253FFFD (.loop 9 (BitVec.ofInt 17 (-3))) ∧
    lone 0x80488801 (.trap (.n 4) 17) := ⟨rfl, rfl, rfl⟩
theorem test_decode_rep : lone 0x82D46420 (.rep (.n 10) 3 2 1) ∧ lone 0xA2013123 (.lih (.q 0) 0x123 (some 6)) := ⟨rfl, rfl⟩
theorem test_decode_nops : decodeWord 0x03800000 = .ok .nop ∧ decodeWord 0x3F800000 = .ok .nopB := ⟨rfl, rfl⟩
theorem test_decode_float : lone 0xAC520801 (.fadd false (.n 9) (.q 1) none .rtz) := rfl
theorem test_decode_memory : lone 0x8A494802 (.ld .i32 (.n 4) (some 9) 2) ∧ lone 0x9180000B (.fence .rel .die) ∧
    lone 0x90C92CC1 (.atomCas true (.n 4) (.n 5) (.n 6)) := ⟨rfl, rfl, rfl⟩
theorem test_decode_store : lone 0x8DC72802 (.st .w64 (.n 3) (.n 5) 2) ∧ lone 0x90488CC1 (.atom .add64 (.n 4) (.sp .one) (some 6)) ∧
    lone 0x92488501 (.waita true (.n 4) (.sp .zero) (some 8)) := ⟨rfl, rfl, rfl⟩
theorem test_decode_sync : lone 0x92800001 (.arrive 0 0) ∧ lone 0x94C404E3 (.recvT (.n 2) (some 7)) := ⟨rfl, rfl⟩
theorem test_decode_switch : decodeSlot 0xD4C40002 = .ok { lone := true, sw := true, instr := .recv (.n 2) none } := rfl
theorem test_decode_pair : decodeSlot 0x28451004 = .ok { lone := false, sw := false, instr := .addpImm (.n 2) 4 (some 2) } := rfl
theorem test_decode_tree : decodeSlot 0xD8534540 = .ok { lone := true, sw := true, instr := .enrol (.n 9) (.n 8) 10 } := rfl
theorem test_decode_chg : lone 0x98540562 (.settle (.n 10) (some 11)) ∧
    decodeSlot 0xD8520004 = .ok { lone := true, sw := true, instr := .chgcmp (.n 9) (.q 0) none } := ⟨rfl, rfl⟩
theorem test_decode_engine : lone 0x98D14D40 (.copy (.n 8) (.n 9) (.n 10)) ∧ lone 0x9A4D3840 (.fork (.n 6) (.n 7) .sharedCopy) ∧
    lone 0x9ADC0000 (.migMove (.n 14) (.q 0)) := ⟨rfl, rfl, rfl⟩
theorem test_decode_vector : lone 0xB6CD0900 (.vcmp .lt .f32 3 8 9 0) ∧ lone 0xB004430A (.vadd .bf16 1 2 3 2) ∧
    lone 0xB290A638 (.vfmaF32 4 5 6 7 0) ∧ lone 0xB9140850 (.vbcast false 5 8 0) := ⟨rfl, rfl, rfl, rfl⟩
theorem test_decode_vector_memory : lone 0x8FC44080 (.vld false 4 (.n 2) 1) ∧ lone 0x8F492860 (.tld 3 (.n 4) (.n 5)) := ⟨rfl, rfl⟩
theorem test_decode_quantise : lone 0xBD8C2900 (.vsplit 3 1 9 0) ∧ lone 0xBD887108 (.vqnt .nb4 2 3 0) := ⟨rfl, rfl⟩
theorem test_decode_matrix : lone 0xBC082560 (.mgang 0 1 0 (.spad 2) 10 true) ∧ lone 0xBC900000 (.mzero 0 2) ∧
    lone 0xBD003500 (.mdrain 0 0 3 10 .rne) := ⟨rfl, rfl, rfl⟩
theorem test_decode_illegal : ∀ w ∈ [0x80000000, 0xAC520805, 0xBC001510, 0xBC980000],
    (match decodeSlot w with | .ok _ => false | .error _ => true) = true := by decide

/-! ### A small machine: process 1 running on context 0 of core 0, a network with a handler, two pages mapped -/

/-- The issuer: `n2` a data pointer, `n3` 8, `n4` a code pointer, `n5` a scratchpad pointer, `n6` 1,
`n7` 2. -/
def wp : Proc :=
  { st := .running, pc := 0x10000, inst := 5, core := 0, ctx := some 0, started := true
    n := ((((((Vector.replicate 32 0).set 2 0x20000).set 3 8).set 4 0x10000).set 5 0x2000000000000100).set 6 1).set 7 2 }

def wcore : Core :=
  { ctxs := [(0, { run := some 1 })], grant := 4, free := 4
    tlb := [{ part := 0, vpn := 1, frame := 1, w := false, x := true, ty := 0, pt := false, leaf := 0x80008, large := 0 },
      { part := 0, vpn := 2, frame := 2, w := true, x := false, ty := 0, pt := false, leaf := 0x80010, large := 0, dirty := true }] }

def wobj : NetObj :=
  { part := 0, img := { procs := [{}, { spawned := true }], handler := some 1 }, codeVa := 0x10000, dataVa := 0x20000, chans := []
    tys := [], block := [] }

def wpart : Part :=
  { level := 1, clusters := 1, budget := { copymask := 3, collmask := 1, cmprmask := 1, berylmask := 1, types := 1, typeTable := [8] } }

def wi : Issue := { proc := 1, loc := 0x10000, next := 0x10004, pre := wp }

def ws : State :=
  { State.reset with
    parts := [(0, wpart)]
    objs := [(3, wobj)]
    insts := [(5, { part := 0, obj := 3 })]
    procs := [(1, wp)]
    cores := [(0, wcore)]
    issue := some wi }

/-- The same with its issuer changed. -/
def wsWith (p : Proc) : State := { ws with procs := [(1, p)], issue := some { wi with pre := p } }

/-- The same with a manager network. -/
def wsMgr : State := { ws with insts := [(5, { part := 0, obj := 3, mgr := true })] }

/-- The registers that the statements about operands name are readable. -/
theorem test_operands : ws.issue = some wi ∧ readSrc wi (.n 2) = .ok 0x20000 ∧ readSrc wi (.n 3) = .ok 8 ∧ readSrc wi (.q 0) = .ok 0 :=
  ⟨rfl, rfl, rfl, rfl⟩

theorem test_BinaryResults : ∃ (s : State) (i : Issue) (x y : Src) (a b : Word), s.issue = some i ∧ readSrc i x = .ok a ∧ readSrc i y = .ok b :=
  ⟨ws, wi, .n 2, .n 3, _, _, rfl, rfl, rfl⟩

theorem test_UnaryResults : (∃ (s : State) (i : Issue) (x : Src) (a : Word), s.issue = some i ∧ readSrc i x = .ok a) ∧
    (∃ w : Nat, fld w 29 1 = 1 ∧ fld w 23 6 = 2 ∧ fld w 11 6 ≠ 0) :=
  ⟨⟨ws, wi, .n 2, _, rfl, rfl⟩, ⟨0x21000800, by decide⟩⟩

theorem test_ImmediateResults : (∃ (s : State) (i : Issue) (x y : Src) (a b c : Word), s.issue = some i ∧ readSrc i x = .ok a ∧
      readSrc i y = .ok b ∧ readSrc i (.q 0) = .ok c) ∧ widthOk 1 = true ∧ widthOk 64 = true ∧ bitFieldOk 31 32 = true :=
  ⟨⟨ws, wi, .n 2, .n 3, _, _, _, rfl, rfl, rfl, rfl⟩, by decide⟩

theorem test_DivisionForms : ∃ (s : State) (i : Issue) (x y : Src) (a b : Word), s.issue = some i ∧ readSrc i x = .ok a ∧ readSrc i y = .ok b :=
  ⟨ws, wi, .n 2, .q 0, _, _, rfl, rfl, rfl⟩

/-- A gang of one for `peer` by slot. -/
def wsGang : State := { wsWith { wp with gang := 1 } with gangs := [(1, { part := 0, cluster := 0, members := [1] })] }

theorem test_PointerResults : (∃ (s : State) (i : Issue) (x y : Src) (p d : Word), s.issue = some i ∧ readSrc i x = .ok p ∧ readSrc i y = .ok d) ∧
    ((0 : Int) ≤ (pOff 0x20000 : Int) + (-1) ∧ (pOff 0x20000 : Int) + (-1) < 2 ^ 51) ∧
    (¬ (0 ≤ (pOff 0x20000 : Int) + (-0x20001))) ∧
    ((8 : Nat) < 2 ^ 9 ∧ fmtReserved (8 % 64) = false ∧ (8 / 64 = 0 ∨ fmtSplit (8 % 64) = true)) ∧
    (∃ p : Word, 2 ^ 63 ≤ p.toNat ∧ p.toNat / 2 ^ 32 % 2 ^ 31 = 0 ∧ partOf (p.toNat % 2 ^ 32) = partOf wi.proc) ∧
    (∃ (i : Issue) (g : Gang) (m : Nat), wsGang.issue = some i ∧ i.pre.gang ≠ 0 ∧ nget? wsGang.gangs i.pre.gang = some g ∧
      g.members[(0 : Nat)]? = some m) :=
  ⟨⟨ws, wi, .n 2, .n 3, _, _, rfl, rfl, rfl⟩, by decide, by decide, by decide, ⟨0x8000000000000001, by decide⟩,
    ⟨{ wi with pre := { wp with gang := 1 } }, _, 1, rfl, by decide, rfl, rfl⟩⟩

theorem test_ScalarFloatResults : ∃ (s : State) (i : Issue) (x y : Src) (kr : BitVec 5) (a b c : Word), s.issue = some i ∧
    readSrc i x = .ok a ∧ readSrc i y = .ok b ∧ readSrc i (.n kr) = .ok c :=
  ⟨ws, wi, .n 2, .n 3, 4, _, _, _, rfl, rfl, rfl, rfl⟩

theorem test_ClassOfFloat : ∃ (s : State) (i : Issue) (x : Src) (a : Word), s.issue = some i ∧ readSrc i x = .ok a :=
  ⟨ws, wi, .n 2, _, rfl, rfl⟩

theorem test_CompareMask : (0x7FC00000 < 2 ^ (scalarFmt false).width ∧ isNaN (scalarFmt false) 0x7FC00000 = true) ∧
    (isZero (scalarFmt true) 0 = true ∧ isZero (scalarFmt true) (2 ^ 63) = true) := by decide

theorem test_PendingKeep : ∃ (p : Proc) (t : Nat) (r : BitVec 5) (i : Issue) (l : BitVec 5) (s : State) (k : Nat),
    i.pre = (p.pushPend t (some r)).1 ∧ (p.pushPend t (some r)).1.nphys l = r ∧ i.pre.engine = none ∧
    s.proc k = (p.pushPend t (some r)).1 :=
  ⟨wp, 1, 3, { wi with pre := (wp.pushPend 1 (some 3)).1 }, 3, wsWith (wp.pushPend 1 (some 3)).1, 1, rfl, by decide, rfl, rfl⟩

/-- The issuer with `q0` and `n3` pending. -/
def wpPend : Proc := { wp with qPend := 1, nPend := [(3, 7)] }

theorem test_UnreadyRead : ∃ (s : State) (i : Issue), s.issue = some i ∧ i.pre.engine = none ∧ i.pre.qpend 0 = true ∧
    (∃ t, (i.pre.nphys 3, t) ∈ i.pre.nPend) ∧ ¬ (∃ t, (i.pre.nphys 2, t) ∈ i.pre.nPend) :=
  ⟨wsWith wpPend, { wi with pre := wpPend }, rfl, rfl, by decide, ⟨7, by decide⟩, by
    rintro ⟨t, h⟩
    have e : (wpPend.nphys 2, t) = (3, 7) := by simpa [wpPend] using h
    exact absurd (show wpPend.nphys 2 = 3 from congrArg Prod.fst e) (by decide)⟩

/-- A word issued: its next state keeps the latch. -/
def issued (r : Host.Outcome State Fault Refusal) : Bool :=
  match r with
  | .next t => t.issue.isSome
  | _ => false

theorem test_AluFrame : ws.issue = some wi ∧ issued (exec (.add (.n 2) (.n 3) (some 4)) ws) = true ∧
    issued (exec (.li 5 none) ws) = true ∧ issued (exec (.bext (.n 2) 7 56 none) ws) = true := by decide +kernel

theorem test_FloatFrame : ws.issue = some wi ∧ issued (exec (.fadd false (.n 2) (.n 3) none .rne) ws) = true ∧
    issued (exec (.fma false (.n 2) (.n 3) 4 .dyn) ws) = true := by decide +kernel

theorem test_ControlTransfer : (∃ a q : Word, ws.issue = some wi ∧ readSrc wi (.n 4) = .ok a ∧ readSrc wi (.q 0) = .ok q ∧
      pSpace a = 0 ∧ a.toNat % 4 = 0) ∧
    (0 ≤ (pOff wi.loc : Int) + 4 * 131071 ∧ (pOff wi.loc : Int) + 4 * 131071 < 2 ^ 51) ∧
    (∃ n : Word, readSrc wi (.n 3) = .ok n ∧ 0 < n.toNat ∧ n.toNat < 2 ^ 24) ∧ readSrc wi (.q 0) = .ok 0 ∧
    pOff wi.next + 8 * (15 + 1) < 2 ^ 51 :=
  ⟨⟨0x10000, 0, rfl, rfl, rfl, by decide, by decide⟩, by decide, ⟨8, rfl, by decide, by decide⟩, rfl, by decide⟩

/-! ### Faults, control, issue and memory words -/

/-- A record that the issuer is FAULTED for, and one that a handler stands for. -/
def wrec (k : Kind) (h : Nat) : FRec := { kind := k, cls := .p, handle := h, inst := 5 }

theorem test_BreakAndTrap : (wi.pre.brkOnce = false ∧ ({ wi with pre := { wp with brkOnce := true } } : Issue).pre.brkOnce = true) ∧
    (ws.issue = some wi ∧ (ws.proc wi.proc).engine = none ∧ (ws.proc wi.proc).isHandler = false ∧ handlerIndex ws wi.pre.inst ≠ none ∧
      isManager ws wi.proc = false ∧ (ws.proc wi.proc).inst = wi.pre.inst ∧ (ws.inst wi.pre.inst).queue.length < 16 ∧
      wi.proc < 2 ^ 32) ∧
    (∃ (s : State) (r : FRec), nget? s.recs 9 = some r ∧ r.kind = .breakpoint ∧ (s.proc r.handle).held = some 9) :=
  ⟨by decide, by decide +kernel,
    ⟨{ wsWith { wp with st := .faulted, ctx := none, held := some 9 } with recs := [(9, wrec .breakpoint 1)] }, _, rfl, rfl, rfl⟩⟩

theorem test_TrapAfterEffect : (∃ a : Word, ws.issue = some wi ∧ readSrc wi (.n 3) = .ok a ∧ ws.raised = none ∧ wi.hit = false) ∧
    handlerIndex ws (ws.proc wi.proc).inst ≠ none ∧ isManager ws wi.proc = false ∧
    (ws.inst (ws.proc wi.proc).inst).queue.length < 16 ∧ (∃ i : Issue, i.pre.qpend 0 = true ∧ i.pre.engine = none) :=
  ⟨⟨8, rfl, rfl, rfl, rfl⟩, by decide, by decide +kernel, by decide, ⟨{ wi with pre := wpPend }, by decide, rfl⟩⟩

theorem test_TakingFault : ws.issue = some wi ∧ (ws.proc wi.proc).engine = none ∧ (ws.proc wi.proc).isHandler = false ∧
    handlerIndex ws (ws.proc wi.proc).inst ≠ none ∧ isManager ws wi.proc = false ∧
    (ws.inst (ws.proc wi.proc).inst).queue.length < 16 ∧ wi.proc < 2 ^ 32 ∧ (ws.proc wi.proc).gang = 0 := by decide +kernel

theorem test_RecordInMemory : ∃ (s : State) (r : FRec), (s.inst r.inst).areaPa ≠ 0 ∧ r.level < 4 ∧ r.sub < 256 ∧ r.inst < 2 ^ 32 :=
  ⟨{ ws with insts := [(5, { part := 0, obj := 3, areaPa := 0x30000 })] }, wrec .trap 1, by decide⟩

/-- A handler process of the network, with the record of process 2 in its hands. -/
def wsHandler : State :=
  { wsWith { wp with isHandler := true, handles := some 9 } with
    procs := [(1, { wp with isHandler := true, handles := some 9 }), (2, { st := .faulted, pc := 0x10040, inst := 5, held := some 9 })]
    recs := [(9, wrec .trap 2)] }

theorem test_ReturnFromFault : (∃ (i : Issue) (a : Word) (r : FRec), wsHandler.issue = some i ∧ i.pre.isHandler = true ∧
      readSrc i (.n 7) = .ok a ∧ i.pre.handles = some 9 ∧ nget? wsHandler.recs 9 = some r ∧ r.handle = a.toNat % 2 ^ 32) ∧
    (∃ r : FRec, nget? wsHandler.recs 9 = some r ∧ r.kind ≠ .coreLost ∧ r.cls ≠ .c ∧ (wsHandler.proc r.handle).held = some 9 ∧
      (wsHandler.proc r.handle).st = .faulted ∧ (wsHandler.proc r.handle).ctx = none ∧ (wsHandler.proc r.handle).engine = none ∧
      wsHandler.coreGone r.handle = false ∧ wsHandler.txns = []) ∧
    (ws.issue = some wi ∧ wi.pre.isHandler = false ∧ ws.isMgr wi.proc = false) ∧
    (∃ i : Issue, i.pre.isHandler = true ∧ i.pre.handles = none) :=
  ⟨⟨{ wi with pre := { wp with isHandler := true, handles := some 9 } }, 2, _, rfl, rfl, rfl, rfl, rfl, rfl⟩,
    ⟨_, rfl, by decide, by decide, rfl, rfl, rfl, rfl, by decide +kernel, rfl⟩, by decide, ⟨{ wi with pre := { wp with isHandler := true } }, rfl, rfl⟩⟩

/-- A manager with one record of its partition to dispose of. -/
def wsManaged : State := { wsMgr with recs := [(9, wrec .trap 2)], managed := [9] }

theorem test_ReturnFromFault_manager : wsManaged.issue = some wi ∧ wi.pre.isHandler = false ∧ wi.pre.handles = none ∧
    wsManaged.isMgr wi.proc = true ∧ wsManaged.managed = [9] ∧
    (∃ r : FRec, nget? wsManaged.recs 9 = some r ∧ readSrc wi (.n 7) = .ok 2 ∧ r.handle = (2 : Word).toNat % 2 ^ 32 ∧
      partOf r.handle = partOf wi.proc) ∧
    (∃ r : FRec, nget? wsManaged.recs 9 = some r ∧ readSrc wi (.n 3) = .ok 8 ∧ r.handle ≠ (8 : Word).toNat % 2 ^ 32) :=
  ⟨rfl, rfl, rfl, by decide, rfl, ⟨_, rfl, rfl, by decide, by decide⟩, ⟨_, rfl, rfl, by decide⟩⟩

/-- The manager's channel has room for one record. -/
def wsEscalate : State :=
  { ws with
    parts := [(0, { wpart with mgrhand := 0x80000001, chans := [(1, { ty := 0, depth := 1, rxproc := 3 })] })]
    recs := [(9, wrec .trap 2)] }

theorem test_ReturnFromFault_escalate : ∃ (r : FRec) (c : Chan), nget? wsEscalate.recs 9 = some r ∧ r.level = 0 ∧ partOf r.handle = 0 ∧
    (wsEscalate.part 0).mgrhand.toNat % 2 ^ 32 = 0x80000001 ∧ wsEscalate.chan? 0 (0x80000001 % 2 ^ 24) = some c ∧ c.rxopen = true ∧
    c.msgs.length + c.resvTx.length < c.depth :=
  ⟨_, _, rfl, rfl, by decide, by decide, rfl, rfl, by decide⟩

theorem test_ControlRegisters : (∃ a : Word, ws.issue = some wi ∧ readSrc wi (.n 6) = .ok a ∧ Ctl.rmode ≠ .shoot ∧ ctlReadOnly .rmode = false ∧
      ctlManager .rmode = false ∧ a.toNat % 8 < 5 ∧ wi.pre.core = (ws.proc wi.proc).core ∧
      (ws.core wi.pre.core).owner = none) ∧
    (ctlManager .mighand = true ∧ wsMgr.isMgr wi.proc = true ∧ wsMgr.issue = some wi) ∧
    ctlReadOnly .vtbase = true ∧ (ctlManager .migpol = true ∧ ws.isMgr wi.proc = false) :=
  ⟨⟨1, rfl, rfl, by decide, rfl, rfl, by decide, rfl, rfl⟩, by decide, by decide, by decide⟩

theorem test_SystemWords : (∃ a : Word, ws.issue = some wi ∧ readSrc wi (.q 0) = .ok a ∧ a.toNat ≤ (virtualTime ws (partOf wi.proc)).toNat) ∧
    (∃ a : Word, readSrc wi (.n 3) = .ok a ∧ (virtualTime ws (partOf wi.proc)).toNat < a.toNat) ∧
    (∃ i : Issue, (virtualTime ws (partOf i.proc)).toNat < i.pre.tmo.toNat) ∧ wi.pre.ctx = some 0 ∧ (ws.proc wi.proc).altRes = none ∧
    wsMgr.isMgr wi.proc = true ∧ ws.isMgr wi.proc = false :=
  ⟨⟨0, rfl, rfl, by decide⟩, ⟨8, rfl, by decide +kernel⟩, ⟨{ wi with pre := { wp with tmo := 5 } }, by decide +kernel⟩, rfl, rfl, rfl, rfl⟩

theorem test_LoadAndAtomicIssue : (ws.issue = some wi ∧ readSrc wi (.n 2) = .ok 0x20000 ∧ readSrc wi (.n 3) = .ok 8) ∧
    (effAddr ws wi .scalar .load 0x20000 (2 * 8) 8 false).isOk = true ∧ (effAddr ws wi .scalar .load 0x20000 16 16 false).isOk = true ∧
    (effAddr ws wi .atom .atomic 0x20000 0 (atomBytes .add64) true).isOk = true ∧
    (effAddr ws wi .waita .load 0x20000 0 8 true).isOk = true :=
  ⟨⟨rfl, rfl, rfl⟩, by decide +kernel⟩

/-- The issuer with a schedule of two entries in the mapped page. -/
def wpSched : Proc := { wp with schedBase := 0x20000, schedLen := 2 }

theorem test_StoreAndFenceIssue : (effAddr ws wi .scalar .store 0x20000 (2 * 8) 8 false).isOk = true ∧
    (effAddr ws wi .atom .reduction 0x20000 0 8 true).isOk = true ∧
    ((effAddr ws wi .redx .reduction 0x20000 0 72 false).isOk = true ∧ pOff 0x20000 % 8 = 0 ∧ pOff 0x20000 % 2 ^ 16 + 72 ≤ 2 ^ 16) ∧
    (effAddr ws wi .waita .load 0x20000 0 8 true).isOk = true ∧ wi.pre.schedLen ≤ wi.pre.schedCur ∧
    (wpSched = (wsWith wpSched).proc 1 ∧ wpSched.schedCur < wpSched.schedLen ∧
      (wsWith wpSched).unitBusy none 0 0 (pOff (wpSched.schedBase + BitVec.ofNat 64 (8 * wpSched.schedCur)) / 2 ^ 16) = false ∧
      (tlbFind ((wsWith wpSched).core 0).tlb 0 (pOff (wpSched.schedBase + BitVec.ofNat 64 (8 * wpSched.schedCur)) / 2 ^ 16)).isSome = true) := by
  decide +kernel

theorem test_AccessFaults : 8 ≤ pSpace 0x8000000000020000 ∧ (pSpace 0x20000 < 7 ∧ ((pOff 0 : Int) + (-1) * 8 < 0)) ∧
    (pSpace 0x200000000003F7F8 = 2 ∧ (0x3F800 : Int) < (pOff 0x200000000003F7F8 : Int) + 8 + 8) ∧
    pOff 0x20004 % atomBytes .add64 ≠ 0 ∧ (pOff 0x6000000000020000 % atomBytes .add64 = 0 ∧ pSpace 0x6000000000020000 = 6) := by
  decide

/-- The issuer's network declares phase slot 2, and its core has one buffer of it. -/
def wphase (n : Nat) : Phase := { holder := 5, dests := [{ count := 1, module := 0, part := 0, counter := n }] }

def wsPhase (n : Nat) : State :=
  { ws with
    parts := [(0, { wpart with phases := [(2, wphase n)] })]
    insts := [(5, { part := 0, obj := 3, slots := [2] })]
    objs := [(3, { wobj with img := { wobj.img with phases := [{ slot := 2, dests := (wphase 0).dests }] } })] }

def wbuf (st : BState) : Buf :=
  { owner := 1, state := st, ring := false, base := 0x100, size := 64, slot := 64, free := 1, nslot := 1 }

def wsBuf (st : BState) : State := { ws with cores := [(0, { wcore with bufs := [(0, wbuf st)] })] }

theorem test_PhaseAndBufferWords :
    ((heldPhase (wsPhase 0) wi 2).isOk = true ∧ (wphase 0).dests[0]? ≠ none ∧ (wphase 0).high (wsPhase 0) 0 = true ∧
      (heldPhase (wsPhase 1) wi 2).isOk = true ∧ (wphase 1).high (wsPhase 1) 0 = false) ∧
    (pSpace 0x2000000000000100 = 2 ∧ wcore.freeBuf < 64 ∧ pOff 0x2000000000000100 % 16 = 0 ∧
      pOff 0x2000000000000100 + 64 ≤ 0x3F800 ∧ (wcore.bufs.all fun e => !overlap (pOff 0x2000000000000100) 64 e.2.base e.2.size) = true ∧ 64 % 16 = 0 ∧ 64 / 16 ≤ 255) ∧
    ((ptrBuf (wsBuf .empty) wi 0x2000000000000100).isOk = true ∧ (wbuf .empty).owner = wi.proc ∧ (wbuf .empty).opened ≠ none ∧
      (wbuf .filling).sealed (wcore.busy (wbuf .filling) true) ≠ none ∧
      (wbuf .full).released (wcore.busy (wbuf .full) false) ≠ none) ∧
    (wbuf .full).headState = .full ∧ (wbuf .empty).headState ≠ .full := by decide +kernel

/-! ### Vector, matrix, channel, tree and engine words -/

/-- A value that an operation gives meets a test. -/
def okWith {ε α : Type} (x : Except ε α) (f : α → Bool) : Bool :=
  match x with
  | .ok a => f a
  | .error _ => false

theorem test_VectorLanesNow : ws.issue = some wi ∧ freeW ws wi 1 = .ok () ∧ freeV wi 1 = .ok () ∧ freeV wi 2 = .ok () ∧ readSrc wi (.n 3) = .ok 8 ∧
    VTy.i32.isFloat = false ∧ laneFmt .bf16 = some bfloat16 := ⟨rfl, rfl, rfl, rfl, rfl, rfl, rfl⟩

theorem test_VectorLanesLater : ws.issue = some wi ∧ freeW ws wi 1 = .ok () ∧ freeV wi 4 = .ok () ∧ 0 < (ws.core wi.pre.core).free ∧
    laneFmt .f16 = some float16 := ⟨rfl, rfl, rfl, by decide, rfl⟩

/-- The issuer with `n8` = 0 + 256 * 1. -/
def wpSplit : Proc := { wp with n := wp.n.set 8 256 }

theorem test_VectorReduceAndQuantise : (∃ kv : Word, (wsWith wpSplit).issue = some { wi with pre := wpSplit } ∧
      freeW (wsWith wpSplit) { wi with pre := wpSplit } 3 = .ok () ∧ freeV { wi with pre := wpSplit } 3 = .ok () ∧ readSrc { wi with pre := wpSplit } (.n 8) = .ok kv ∧ kv.toNat = 0 + 256 * 1 ∧
      ((wsWith wpSplit).core 0).owner = none) ∧ VTy.n16.isFloat = false ∧ laneFmt .f32 = some binary32 ∧ (1 : BitVec 3) ≠ 0 :=
  ⟨⟨256, rfl, rfl, rfl, rfl, rfl, rfl⟩, rfl, rfl, by decide⟩

/-- A data pointer with a format code. -/
def wptr (fmt : Nat) : Word := BitVec.ofNat 64 (fmt * 2 ^ 54 + 0x20000)

def flatRanges (l : List (Nat × Nat)) : List (Int × Nat) := l.map fun e => ((e.1 : Int), e.2)

theorem test_VectorMemoryIssue_contiguous :
    (freeW ws wi 1 = .ok () ∧ freeV wi 1 = .ok () ∧ pOff (wptr 0) % 4 = 0 ∧ (vecAccess ws wi .load (wptr 0) (flatRanges (laneRanges 32 (wi.pre.pget 0)))).isOk = true) ∧
    okWith (vecAccess ws wi .store (wptr 0) (flatRanges (laneRanges 32 (wi.pre.pget 0)))) (fun c =>
      (ws.issueVst wi c ((shareParts (laneRanges 32 (wi.pre.pget 0)) c.parts).map fun e =>
        (e.2, regBytes (wi.oldV 1) e.1 e.2.len))).isOk) = true := by decide +kernel

theorem test_VectorMemoryIssue_blocks : (∃ f, pBl (wptr 0x18) = 0 ∧ plainSize (pFmt (wptr 0x18)) = none ∧
      blkOfCode (pFmt (wptr 0x18)) = some (f, false) ∧
      (vecAccess ws wi .load (wptr 0x18) [(0, 64 / f.count * (f.eb + f.sb))]).isOk = true) ∧
    (plainSize (pFmt (wptr 0x0B)) = some 2 ∧ pOff (wptr 0x0B) % 2 = 0 ∧
      (vecAccess ws wi .load (wptr 0x0B) (flatRanges ((runs (wi.pre.pget 0) 0 64).map fun e => (2 * e.1, 2 * e.2)))).isOk = true) :=
  ⟨⟨_, rfl, rfl, rfl, by decide +kernel⟩, by decide +kernel⟩

theorem test_VectorMemoryIssue_gather : (gatherAlign (wptr 0) (gatherAt 32 (wi.oldV 2))).isOk = true ∧
    (vecAccess ws wi .load (wptr 0) (gatherAt 32 (wi.oldV 2))).isOk = true ∧
    okWith (vecAccess ws wi .store (wptr 0) (gatherAt 32 (wi.oldV 2))) (fun c =>
      (ws.issueVst wi c ((shareParts ((List.range 64).map fun j => (4 * j, 4)) c.parts).map fun e =>
        (e.2, regBytes (wi.oldV 1) e.1 e.2.len))).isOk) = true := by decide +kernel

/-- Tile 3 of the core loaded, in the plain code 0x01. -/
def wsTile : State := { ws with cores := [(0, { wcore with tiles := [(3, { tag := some 1 })] })] }

theorem test_VectorMemoryIssue_tiles : (matReady ws wi [3]).isOk = true ∧ matFree ws wi [3] = .ok () ∧ ws.tileHeld 0 3 wi.pre.opened = false ∧ (matForm (pFmt (wptr 1)) (wptr 1) 64).isOk = true ∧
    okWith (ws.claimMatrix wi) (fun v => (rangeAccess v wi .tile .load (wptr 1) (tileRanges 1 0 64)).isOk) = true ∧
    storeCode ((wsTile.matrix wi).tile 3).tag (pFmt (wptr 1)) = some 1 ∧ rowOfCode 1 = some (64, 16) ∧
    okWith (wsTile.claimMatrix wi) (fun v => okWith (rangeAccess v wi .tile .store (wptr 1) (tileRanges 1 0 64)) fun c =>
      (v.issueVst wi c (dealBytes c.parts (tileBytes ((v.core 0).tile 3) 64))).isOk) = true := by decide +kernel

/-- Registers for `mdrain`: n8 a binary32 destination, n10 and n11 an MX4 element and scale destination, n12 32 columns. -/
def wpDrain : Proc := { wp with n := (((wp.n.set 8 (wptr 0x09)).set 10 (wptr 0x20)).set 11 (wptr 0x26)).set 12 32 }

def notVirt (l : List Part8) : Bool := l.all fun q => match q.at_ with | .virt _ => false | _ => true

def rowRanges (len : Nat) : List (Int × Nat) := (List.range 16).map fun row => (((row * len : Nat) : Int), len)

theorem test_MatrixWords : ws.issue = some wi ∧ matReady ws wi (groupOf 0 2) = .ok () ∧ matFree ws wi (groupOf 0 2) = .ok () ∧
    matReady ws wi [8 + 3] = .ok () ∧ (ws.core 0).owner = none ∧
    (wsMgr.isMgr 1 = true ∧ okWith (wsMgr.claimMatrix wi) (fun u =>
      (rangeChecks u wi .vector .load 0x20000 ((List.range 1).map fun j => (((accBytes * j : Nat) : Int), accBytes))).isOk) = true) ∧
    (∃ f, splitOf 0x20 = some f ∧ 0 < f.eb) := ⟨rfl, by decide, by decide, by decide, rfl, by decide +kernel, ⟨_, rfl, by decide⟩⟩

theorem test_MatrixWords_drain : okWith ((wsWith wpDrain).claimMatrix { wi with pre := wpDrain }) (fun u =>
    okWith (rangeAccess u { wi with pre := wpDrain } .tile .store (wptr 0x09) (rowRanges 128)) fun a =>
      notVirt a.parts && decide ((a.st.sideLogOf 1).length ≤ 64)) = true ∧
    okWith ((wsWith wpDrain).claimMatrix { wi with pre := wpDrain }) (fun u =>
    okWith (rangeAccess u { wi with pre := wpDrain } .tile .store (wptr 0x20) (rowRanges 16)) fun a =>
      okWith (rangeAccess a.st { wi with pre := wpDrain } .tile .store (wptr 0x26) (rowRanges 1)) fun b =>
        notVirt (a.parts ++ b.parts) && decide ((b.st.sideLogOf 1).length ≤ 64)) = true := by decide +kernel

/-- A gang of eight, one on each core of cluster 0, with tiles 0 and 1 of core 0 loaded; `n8` is 16 columns. -/
def wpGang (j : Nat) : Proc := { wp with gang := 1, core := j, n := wp.n.set 8 16 }

def wsGang8 : State :=
  { ws with
    procs := (List.range 8).map fun j => (j + 1, wpGang j)
    gangs := [(1, { part := 0, cluster := 0, members := [1, 2, 3, 4, 5, 6, 7, 8], st := .running })]
    cores := [(0, { wcore with tiles := [(0, { tag := some 1 }), (1, { tag := some 1 })] })]
    issue := some { wi with pre := wpGang 0 } }

/-- The issuer of an `mgang` whose barrier has opened: transaction 7. -/
def wpOpened : Proc := { wp with opened := some 7 }

theorem test_MatrixWords_opened : (∃ x, nget? ({ wsWith wpOpened with txns := [(7, x)] } : State).txns 7 = some x) ∧
    matReady (wsWith wpOpened) { wi with pre := wpOpened } (groupOf 0 2) = .ok () ∧ wpOpened.opened = some 7 ∧
    (wi.pre.watch0 = 0 ∧ wi.pre.watch1 = 0) ∧ pOff 0x20000 + accBytes * acCount 2 ≤ 2 ^ 51 :=
  ⟨⟨{ issuer := 1, core := 0, part := 0, inst := 5, loc := 0, op := .value {} }, rfl⟩, by decide +kernel⟩

theorem test_MatrixWords_gang : okWith (mgangOperands wsGang8 0 0 0 (.tile 1) 8) (fun m =>
      decide (0 < m.n.toNat) && decide (m.n.toNat % 16 = 0) && decide (m.n.toNat ≤ 128) &&
      (mgangIssue (wsGang8.modCore 0 fun c => { c with owner := some (c.owner.getD 1) }) m 0 0 0 (.tile 1) false).isOk) = true ∧
    matFree wsGang8 { wi with pre := wpGang 0 } (groupOf 0 0) = .ok () ∧ gangFull wsGang8 { wi with pre := wpGang 0 } = true ∧ ((wsGang8.matrix { wi with pre := wpGang 0 }).tile 0).tag = some 1 ∧ (wpGang 0).opened = none ∧ (wsGang8.proc 1).opened = none ∧ 0 < (wsGang8.core 0).free ∧
    (nget? wsGang8.gangs 1).map Gang.barrier = some [] := by decide +kernel

theorem test_MatrixWords_owned : ∃ s : State, s.issue = some wi ∧ (s.core 0).owner = some 2 ∧ 2 ≠ wi.proc :=
  ⟨{ ws with cores := [(0, { wcore with owner := some 2 })] }, rfl, rfl, by decide⟩

/-- Channels: 1 of 8 B messages, 2 of 16 B tiles, 3 full; the issuer holds every end. -/
def wchan (ty : Nat) : Chan := { ty := ty, depth := 2, rxproc := 1, holders := [1] }

def wsChan : State :=
  { ws with parts := [(0, { wpart with
      budget := { wpart.budget with types := 2, typeTable := [0x80000, 0x108000] }
      chans := [(1, wchan 0), (2, wchan 1), (3, { wchan 0 with msgs := [(1, []), (1, [])] })] })] }

theorem test_ChannelWords_transfers : (chanCheck wsChan wi 1 false false).isOk = true ∧ (sendBytes wi (.n 3) 8).isOk = true ∧
    firingOver wsChan wi 1 (wchan 0) false = false ∧ (chanOpen wsChan (wchan 0) 1 false).isOk = true ∧
    ((chanCheck wsChan wi 0x80000001 true false).isOk = true ∧ (keepRun wi (some 8) 8).isOk = true ∧
      (chanOpen wsChan (wchan 0) 0x80000001 true).isOk = true) ∧
    ((chanCheck wsChan wi 0x1000002 false true).isOk = true ∧ (chanCheck wsChan wi 0x81000002 true true).isOk = true ∧
      pSpace 0x2000000000000100 = 2 ∧ pOff 0x2000000000000100 % 16 = 0) ∧
    ((chanFind wsChan wi 1).isOk = true ∧ chanIndex (wchan 0) 1 = true) := by decide +kernel

/-- The issuer with a guard on an end. -/
def wpAlt (h : W32) : Proc := { wp with gmask := 1, guards := (Vector.replicate 8 0).set 0 h, tmo := 100 }

def wsAlt (h : W32) : State := { wsChan with procs := [(1, wpAlt h)], issue := some { wi with pre := wpAlt h } }

/-- An alt that has set out with that guard. -/
def walt (h : W32) (d : Option Word) : Txn :=
  { issuer := 1, core := 0, part := 0, inst := 5, loc := 0x10000, op := .alt, work := (wpAlt h).armed, deadline := d }

theorem test_ChannelWords_alt : (wpAlt 1).gmask ≠ 0 ∧ readyGuard ((wsAlt 1).letGo 1).pumpAll 1 (walt 1 none) = some (0, 1) ∧
    (readyGuard ((wsAlt 3).letGo 1).pumpAll 1 (walt 3 (some 0)) = none ∧
      (0 : Word).toNat ≤ (virtualTime ((wsAlt 3).letGo 1).pumpAll 0).toNat) ∧
    (readyGuard ((wsAlt 3).letGo 1).pumpAll 1 (walt 3 (some 100)) = none ∧
      (virtualTime ((wsAlt 3).letGo 1).pumpAll 0).toNat < (100 : Word).toNat) ∧ (walt 3 none).deadline = none ∧
    (wsChan.txns = [] ∧ nget? wsChan.objs 3 = some wobj) := by
  decide +kernel

theorem test_ChannelWords_chopen : (1 : Word).toNat < (wsChan.part 0).budget.types ∧ (0 : Word).toNat ≤ 255 ∧
    nfree (wsChan.part 0).chans ((wsChan.part 0).chans.length + 1) 1 = 4 := by decide +kernel

theorem test_ChannelWords_ends : (nfree (wsChan.part 0).chans ((wsChan.part 0).chans.length + 1) 1 < 2 ^ 24 ∧
      chanFind wsChan wi 1 = .ok (1, wchan 0) ∧ chanIndex (wchan 0) 1 = true ∧ (wchan 0).rxopen = true ∧ wsMgr.isMgr 1 = true) ∧
    ((wsChan.txns.any fun e => e.2.issuer == 1 && e.2.op == .chclose 1 false) = false ∧ ownerOf 1 ∈ (wchan 0).holders ∧
      (wchan 0).rxproc = ownerOf 1 ∧ (wchan 0).rxopen = true) ∧
    (pSpace 0x20000 ≤ 2 ∧ pOff 0x20000 % 8 = 0 ∧ (effAddr wsMgr wi .scalar .load 0x20000 0 64 false).isOk = true) ∧
    (nget? ws.objs (ws.inst 5).obj = some wobj ∧ (wobj.img.procs[1]?).map NetProc.spawned = some true ∧
      (wobj.img.gangs.any fun g => g.contains 1) = false) ∧
    (exitBusy (ws.addFence 1 .rel .pkg) 1 = false ∧ (ws.proc 1).engine = none ∧ (ws.proc 1).rated = false) := by decide +kernel

theorem test_TreeWords : (rangeCheck 0x20000 4096).isOk = true ∧ (0 < (ws.part 0).freeNodes ∧ readSrc wi (.n 3) = .ok 8 ∧ (8 : Word).toNat < 2 ^ 20) ∧
    (∃ s : State, s.issue = some wi ∧ (s.part 0).freeNodes = 0) ∧ (0xFFFFFFFF : Word).toNat = 0xFFFFFFFF ∧
    2 ^ 20 ≤ (0x100000 : Word).toNat ∧ wi.pre.opened = none ∧ wpOpened.opened = some 7 :=
  ⟨by decide, ⟨by decide, rfl, by decide⟩, ⟨{ ws with parts := [(0, { wpart with freeNodes := 0 })] }, rfl, rfl⟩, by decide, by decide, rfl, rfl⟩

theorem test_EngineWords_copy : endOperand ws 0 0 true 0x20000 64 = true ∧ endOperand ws 0 0 false 0x20100 64 = true ∧
    (pSpace 0x20000 == pSpace 0x20100 && overlap (pOff 0x20000) 64 (pOff 0x20100) 64) = false ∧
    (onChip 0x20000 || onChip 0x20100) = false ∧ (unitKey ws 0 .sharedCopy 0).isSome = true ∧
    (endRange ws wi 0x20000 64 64).isOk = true ∧ (endRange ws wi 0x20100 64 64).isOk = true := by decide +kernel

/-- Engine commands have what they need at issue. -/
theorem test_EngReady : EngReady ws wi (copyCmd ws wi 0x20000 0x20100 64) ∧ EngReady ws wi (copytCmd ws wi 0x20000 0x20100 0x20200) ∧
    EngReady ws wi (collCmd ws wi 0x20100) ∧ EngReady ws wi (pressCmd ws wi 0x20000 0x20100 64 false) ∧
    EngReady ws wi { op := .fork .copySeq 0x10000 8, heavy := false, shared := true } ∧
    EngReady ws wi { op := .mig 0x20000 8, heavy := false, shared := true, lat := 200 } := by
  refine ⟨⟨?_, ?_, ?_, ?_⟩, ⟨?_, ?_, ?_, ?_⟩, ⟨?_, ?_, ?_, ?_⟩, ⟨?_, ?_, ?_, ?_⟩, ⟨?_, ?_, ?_, ?_⟩, ⟨?_, ?_, ?_, ?_⟩⟩ <;> decide +kernel

theorem test_EngineWords_others : (descOk 0x20200 = true ∧ endOperand ws 0 0 true 0x20000 0 = true ∧ endOperand ws 0 0 false 0x20100 1 = true ∧
      (endRange ws wi 0x20000 1 0).isOk = true ∧ (endRange ws wi 0x20100 1 0).isOk = true ∧ (endRange ws wi 0x20200 16 16).isOk = true) ∧
    ((unitKey ws 0 .collective 0).isSome = true ∧ descOk 0x20100 = true ∧ (endRange ws wi 0x20100 64 64).isOk = true) ∧
    ((unitKey ws 0 .compression 0).isSome = true ∧ endOperand ws 0 0 true 0x20000 (pressOut 64 false) = true ∧
      endOperand ws 0 0 false 0x20100 (pressIn 64 false) = true ∧
      (endRange ws wi 0x20000 (pressOut 64 false) (pressOut 64 false)).isOk = true ∧
      (endRange ws wi 0x20100 (pressIn 64 false) (pressIn 64 false)).isOk = true) ∧
    (unitKey ws 0 .copySeq 0).isSome = true ∧
    (pSpace 0x20000 = 0 ∧ (8 : Nat) < 2 ^ 9 ∧ tierThere ws 1 = true ∧ wpart.budget.berylmask ≠ 0) ∧
    ((ws.lookup 0 0 (pOff 0x20000 / 2 ^ 16)).2.isOk = true ∧ ws.unitBusy none 0 0 (pOff 0x20000 / 2 ^ 16) = false ∧ pSpace 0x20000 ≤ 1 ∧
      (pSpace 0x1000000000000008 = 1 ∧ heapRel wi.pre 8 < ({ part := 0, obj := 3, heapLim := 16 } : Inst).heapLim)) := by decide +kernel

theorem test_EngineWords_join : (∃ s : State, s.issue = some wi ∧ ((s.core 0).obj 8).st ≠ .free ∧ ((s.core 0).obj 8).gen = bits 8 15 8 ∧
      ((s.core 0).obj 8).issuer = wi.proc) ∧ (8 : Word).toNat < 2 ^ 25 ∧ 8 % 256 < 192 ∧ ((ws.core 0).obj 8).st = .free :=
  ⟨⟨{ ws with cores := [(0, { wcore with objs := [(8, { st := .running, issuer := 1 })] })] }, rfl, by decide, by decide, rfl⟩, by decide,
    by decide, rfl⟩

theorem test_EngineObject : (wcore.sb.filter SbEnt.own).length ≤ 128 ∧ wcore.freeObj true = some 128 ∧ 0 < wcore.free ∧
    ({ wcore with free := 0 } : Core).free = 0 ∧
    ({ wcore with objs := (List.range 64).map fun j => (j + 128, { st := .running }) } : Core).freeObj true = none := by decide +kernel

/-! ### Events of homes, processes, channels and trees -/

def wtxn (op : Op) : Txn := { issuer := 1, core := 0, part := 0, inst := 5, loc := 0x10000, op := op }

/-- A machine with one transaction, number 7, and no word in issue. -/
def wsTxn (x : Txn) : State :=
  { ws with txns := [(7, x)], nextTxn := 8, clusters := (List.range 64).map fun c => (c, { reqs := [7] }), turnCore := 1, issue := none }

/-- Four bytes at key 0x20008. -/
def wplace (n : Nat) : Part8 := { at_ := .mem 0x20008, len := n, va := 0x20008 }

/-- A write whose message has reached the home, on another die. -/
def wwrite (op : Op) : Txn := { wtxn op with away := true }

def wstore : Txn := wwrite (.store [wplace 2] [1, 2])

theorem test_StoreApplied : (nget? (wsTxn wstore).txns 7 = some wstore ∧ (wsTxn wstore).motions = [] ∧
      (wsTxn wstore).canServe 7 wstore = true ∧ lostPart (wsTxn wstore) wstore.op.parts = none ∧ wstore.ptag.getLsbD 8 = false ∧
      wstore.far = none ∧ wstore.unitsDone = []) ∧
    (let x := wwrite (.red .add64 [wplace 8] 5);
      (wsTxn x).xmsgs = [] ∧ (wsTxn x).canServe 7 x = true ∧ (wsTxn x).badWrite x.op = none) ∧
    (let x := wtxn (.store [wplace 2] [1, 2]);
      (wsTxn x).canServe 7 x = false ∧ (wsTxn x).canSend 7 x = true) := by decide +kernel

theorem test_AtomicApplied : (let x := wwrite (.atom .add64 [wplace 8] 5);
      (wsTxn x).canServe 7 x = true ∧ (wsTxn x).badPart x.op.parts = none ∧ (wsTxn x).cached 7 x = none) ∧
    (let x := wwrite (.cas false [wplace 4] 0 9);
      (wsTxn x).canServe 7 x = true ∧ (wsTxn x).badPart x.op.parts = none ∧ (wsTxn x).cached 7 x = none) := by decide +kernel

/-- A loaded value on its way back to `n8` and the slot of push 1. -/
def wback : Txn := { wtxn (.load [wplace 4] (.zero 4)) with stage := .back { vals := [5], kept := [5] }, tgt := { slots := [1], keeps := [8] } }

theorem test_ReadAndArrival : (let x := wtxn (.load [wplace 4] (.zero 4));
      (wsTxn x).canServe 7 x = true ∧ (wsTxn x).badPart [wplace 4] = none ∧ x.unitsDone = [] ∧ x.got = []) ∧
    ([1, 2, 3, 4].length = 4 ∧ ((wsTxn wback).proc 1).ctx.isSome = true ∧ wback.far = none ∧ wback.partner = none ∧ wback.left = false ∧
      (wsTxn wback).frozen wback = false) ∧
    (nget? (wsTxn wback).txns 7 = some wback ∧ (wsTxn wback).frozen wback = false ∧ ((wsTxn wback).proc 1).st = .running ∧
      ((wsTxn wback).proc 1).exiting = false) := by decide +kernel

/-- A message of die 0 that die 1 has not applied. -/
def wmsg : XMsg := { src := 0, tag := #v[1, 0, 0, 0], key := 0x20000, old := [0], new := [1], issuer := 1, waiting := [1], due := 0 }

theorem test_HomeAndProcessEvents_messages : (let s : State := { ws with xmsgs := [wmsg] };
      findAt (fun m : XMsg => m.src == 0 && m.waiting.contains 1) s.xmsgs = some (0, wmsg) ∧
      clk wmsg.tag 0 = clk (s.die 1).clock 0 + 1 ∧ ∀ e, e < 4 → e ≠ 0 → clk wmsg.tag e ≤ clk (s.die 1).clock e) ∧
    (let s := wsWith { wp with st := .parked, hold := some (.access 7 false) };
      (s.proc 1).st = .parked ∧ (s.proc 1).hold = some (.access 7 false) ∧ nget? s.txns 7 = none) ∧
    (let s := wsWith { wp with st := .parked, hold := some .sideLog };
      (s.proc 1).hold = some .sideLog ∧ (s.sideLogOf 1).length < 64) := by decide +kernel

/-- Process 2 beside process 1. -/
def wsTwo : State := { ws with procs := [(1, wp), (2, { wp with ctx := none, st := .blocked, wkind := .timed })] }

def wwin : Txn := wtxn (.store [{ at_ := .win 2 (0x40000 + 8 * 3), len := 8, va := 0 }] (leBytes 8 9))

theorem test_HomeAndProcessEvents_window : let s : State := { wsTwo with txns := [(7, wwin)] };
    s.canServe 7 wwin = true ∧ nget? s.procs 2 = some (s.proc 2) ∧ (s.proc 2).st ≠ .exited ∧ wwin.issuer ≠ 2 ∧
      wwin.ptag.getLsbD 8 = false ∧ wwin.far = none ∧ wwin.unitsDone = [] ∧ (s.proc 2).ctx = none := by decide +kernel

theorem test_HomeAndProcessEvents_window_resident :
    let s : State := { ws with procs := [(1, wp), (2, { wp with ctx := some 1 })], txns := [(7, wwin)], cycle := 1, turnCore := 0 };
    s.canServe 7 wwin = true ∧ (s.proc 2).ctx = some 1 ∧ s.cycle % 8 = 1 ∧ s.turnCore ≤ (s.proc 2).core := by decide +kernel

def warrive : Txn := { wtxn (.arrive 2 0) with started := true }

theorem test_HomeAndProcessEvents_phase : (∀ n : Fin 2, let s : State := { wsPhase n with txns := [(7, warrive)], turnCore := 1 };
      nget? s.txns 7 = some warrive ∧ warrive.stage = .sent ∧ s.frozen warrive = false ∧ s.phase? warrive.part 2 = some (wphase n) ∧ (wphase n).holder = warrive.inst ∧
      (∃ d, (wphase n).dests[0]? = some d ∧ ownDest s warrive.part d = true ∧ d.counter = n.val) ∧ (wphase n).waiters = []) ∧
    (∃ (s : State) (j : Nat) (f : Phase), s.foreign 0 2 0 = some j ∧ s.phase? 0 2 = some f ∧ f.waiters = []) := by
  refine ⟨fun n => ⟨rfl, rfl, ?_, rfl, rfl, ⟨_, rfl, ?_, rfl⟩, rfl⟩, ?_⟩
  · revert n; decide +kernel
  · revert n; decide
  · exact ⟨wsPhase 0, 0, _, by decide +kernel, rfl, rfl⟩

theorem test_HomeAndProcessEvents_deadlines : (let p := (wsTwo.proc 2);
      p.st = .blocked ∧ p.wkind = .timed ∧ p.ctx = none ∧ p.engine = none ∧
      p.deadline.toNat ≤ (virtualTime wsTwo (partOf 2)).toNat) ∧
    (let x := { wtxn (.recv 1) with deadline := some 0 };
     let s : State := { wsChan with
      parts := [(0, { wsChan.part 0 with chans := [(1, { wchan 0 with recvq := [7] })] })]
      txns := [(7, x)] };
      (s.txns.filter fun e => e.2.issuer == 1 && e.2.op.wkind != .none) = [(7, x)] ∧ (0 : Word).toNat ≤ (virtualTime s x.part).toNat ∧
      canExpire s x.part 1 7 x = true ∧ (∀ e ∈ s.txns, e.2.op ≠ .alt) ∧ ∀ e ∈ s.procs, e.2.st ≠ .dormant) := by decide +kernel

def wsend : Txn := wtxn (.send 1 [1, 2, 3, 4, 5, 6, 7, 8])

theorem test_ChannelAndTreeEvents_channels : (let c := { wchan 0 with flight := [7] };
     let s : State := { wsChan with parts := [(0, { wsChan.part 0 with chans := [(1, c)] })], txns := [(7, wsend)] };
      s.chan? 0 1 = some c ∧ nget? s.txns 7 = some wsend ∧ s.ordered 7 wsend = true ∧ s.isStopped (ownerOf wsend.issuer) = false ∧
      c.bkind = 0 ∧ c.txopen = true ∧ c.rxopen = true ∧ c.msgs.length < c.depth ∧ c.sendq = [] ∧ c.recvq = [] ∧ c.resvTx = [] ∧
      wsend.deadline = none ∧ wsend.stage = .sent ∧ (∀ e ∈ s.txns, e.2.op ≠ .alt) ∧ ∀ e ∈ s.procs, e.2.st ≠ .dormant) ∧
    (let x := { wsend with stage := .back {} };
     let s := wsTxn x;
      nget? s.txns 7 = some x ∧ x.partner = none ∧ x.issuer ≠ 0 ∧ s.frozen x = false ∧ x.ptag.getLsbD 8 = false ∧
      (s.proc x.issuer).ctx.isSome = true ∧ (∀ p ∈ s.parts, p.2.chans = []) ∧ (∀ e ∈ s.txns, e.2.op ≠ .alt) ∧
      ∀ e ∈ s.procs, e.2.st ≠ .dormant) := by decide +kernel

/-- A node 1 below the root. -/
def wsTree (x : Txn) : State :=
  { wsTxn x with parts := [(0, { wpart with nodes := [(0, { live := true, nchild := 1 }), (1, { live := true, depth := 1 })] })] }

theorem test_ChannelAndTreeEvents_walker : (let x := wtxn (.chgrd 1);
      (wsTree x).ordered 7 x = true ∧ ((wsTree x).node? 0 1).isSome = true ∧ (wsTree x).lockedChain 0 1 = false) ∧
    (let x := wtxn (.chgcmp 1 5);
      (wsTree x).ordered 7 x = true ∧ (wsTree x).lockedChain x.part 1 = false) ∧
    (let v : Token := { part := 0, node := 1, weight := 1 };
     let s : State := { wsTree (wtxn (.chgrd 1)) with tokens := [(4, v)] };
      nget? s.tokens 4 = some v ∧ (s.txns.all fun e => match e.2.op with | .settle _ => false | _ => true) = true ∧ (s.node? 0 1).map Node.lock = some false ∧ s.caughtUp (walkerDie 1) v.clock = true) ∧
    (let x := { wtxn (.settle 1) with stage := .waiting };
      x.marks.length < 63 ∧ (wsTree x).caughtUp (dieOfNode 3) x.clock = true ∧ (wsTree x).liveNode x.part 1 = true) ∧
    (let x := wtxn (.repar 1 0);
      (wsTree x).ordered 7 x = true ∧ (wsTree x).liveNode 0 1 = true ∧ (wsTree x).liveNode 0 0 = true ∧
      (∃ m, ((wsTree x).lockSet 0 1 0).head? = some m ∧ ((wsTree x).node? 0 m).map Node.lock = some false)) := by
  refine ⟨by decide +kernel, by decide +kernel, by decide +kernel, by decide +kernel, by decide +kernel, by decide +kernel,
    by decide +kernel, ⟨0, by decide +kernel, by decide +kernel⟩⟩

/-! ### Engines and the scheduler -/

theorem test_EngineEvents_commands : (let x := { wtxn (.eng 0 128 (.copy 0x20000 0x20100 64)) with progress := 64 };
      (∃ w, engStatus x (.copy 0x20000 0x20100 64) = some w) ∧ (wsTxn x).frozen x = false ∧ x.stage = .sent ∧
      (wsTxn x).threadQuiet (engineKey 7 x.issuer) = true) ∧
    (let x := wtxn (.eng 0 128 (.fork .copySeq 0x10000 8));
      (wsTxn x).ordered 7 x = true ∧ (regTarget 0x10000).isOk = true ∧
      ∃ u, engUnit (wsTxn x) x (.fork .copySeq 0x10000 8) = some u ∧
        ({ wsTxn x with engines := [(u, { forks := [7] })] } : State).engine u = { forks := [7] } ∧ x.started = false) := by
  refine ⟨⟨⟨_, rfl⟩, by decide +kernel, rfl, by decide +kernel⟩, by decide +kernel, by decide, ⟨_, rfl, by decide +kernel, rfl⟩⟩

theorem test_EngineEvents_dispatch : (let c : Chan := { wchan 0 with bkind := 2, ep := #v[1, 0x10000, 0, 0], msgs := [(1, [1])] };
     let s : State := { ws with parts := [(0, { wpart with chans := [(1, c)] })] };
      s.chan? 0 1 = some c ∧ kindOf (c.ep[0].toNat % 8) = some .copySeq ∧
      (∃ u, unitKey s 0 .copySeq 0 = some u ∧ (s.engine u).forks.length < forkCap .copySeq) ∧ (s.core 0).freeObj true = some 128 ∧
      s.halted 0 = false) := by
  refine ⟨by decide +kernel, by decide, ⟨_, rfl, by decide +kernel⟩, by decide +kernel, by decide +kernel⟩

theorem test_EngineEvents_timeout : let x : Txn := { wtxn .alt with stage := .waiting };
    let s : State := { wsTxn x with
      gangs := [(1, { part := 0, cluster := 0, members := [1], barrier := [(0, 7)] })]
      cycle := 65536 };
    (nget? s.gangs 1).map Gang.barrier = some [(0, 7)] ∧ nget? s.txns 7 = some x ∧ x.issued + 65536 ≤ s.cycle ∧ s.issue = none ∧
      handlerIndex s (s.proc x.issuer).inst ≠ none ∧ isManager s x.issuer = false ∧ x.issuer < 2 ^ 32 := by decide +kernel

/-- Process 2 READY in the queue of core 0, at a priority above that of process 1. -/
def wready : Proc := { wp with st := .ready, ctx := none, prio := 2 }

def wsReady : State := { ws with procs := [(1, wp), (2, wready)], cores := [(0, { wcore with ready := [(2, [2])] })], issue := none }

theorem test_SchedulerSwaps_load : highestQueued wsReady (wsReady.core 0) = some 2 ∧ (contextFor wsReady 0 2).isSome = true ∧
    (wsReady.proc 2).core = 0 := by decide +kernel

theorem test_SchedulerSwaps_quantum : let s : State := { wsReady with
      procs := [(1, wp), (2, { wready with prio := 0 })]
      cores := [(0, { wcore with ctxs := [(0, { run := some 1, turns := 64 })], ready := [(0, [2])] })] };
    ((s.core 0).ctx 0).run = some 1 ∧ (s.proc 1).gang = 0 ∧ (s.proc 1).st ≠ .stopped ∧ 64 ≤ ((s.core 0).ctx 0).turns ∧
      equalWaits s 0 ((s.core 0).ctx 0) 1 = true := by decide +kernel

/-- Process 2 in the standby slot of context 0. -/
def wsStandby (swapping : Bool) : State :=
  { wsReady with
    procs := [(1, wp), (2, { wready with st := .standby })]
    cores := [(0, { wcore with ctxs := [(0, { run := some 1, standby := some 2, loaded := true, swapping := swapping })] })]
    cycle := 8 }

theorem test_SchedulerSwaps_swap : (let s := wsStandby false;
      s.cycle % 8 = 0 ∧ ((s.core 0).ctx 0).standby = some 2 ∧ ((s.core 0).ctx 0).loaded = true ∧ ((s.core 0).ctx 0).swapping = false ∧
      (s.proc 2).st ≠ .stopped ∧ ((s.core 0).ctx 0).run = some 1 ∧ (s.proc 1).core = 0 ∧ (s.proc 1).ctx = some 0 ∧
      (s.proc 1).gang = 0 ∧ (s.proc 1).vPend = [] ∧ (s.proc 1).st = .running ∧ (s.proc 1).prio < (s.proc 2).prio) ∧
    (let s := wsStandby true;
      ((s.core 0).ctx 0).since + 3 ≤ s.cycle ∧ (s.proc 2).st = .standby) ∧
    (let s : State := { wsStandby false with cores := [(0, { wcore with ctxs := [(0, { standby := some 2, loaded := true, writing := some 3 })] })] };
      ((s.core 0).ctx 0).run = none ∧ ((s.core 0).ctx 0).writing = some 3 ∧ s.vecWaits 3 = false ∧ ∀ g ∈ s.gangs, g.2.st ≠ .forming) ∧
    (let s : State := { ws with cores := [(0, { wcore with ctxs := [(0, { writing := some 2 })] })] };
      ((s.core 0).ctx 0).writing = some 2 ∧ s.vecWaits 2 = false) := by decide +kernel

/-- A forming gang of eight whose members hold no context yet. -/
def wsForming : State :=
  { ws with
    procs := (List.range 8).map fun j => (j + 1, { wpGang j with ctx := none, st := .ready })
    gangs := [(1, { part := 0, cluster := 0, members := [1, 2, 3, 4, 5, 6, 7, 8] })]
    cores := []
    issue := none }

theorem test_SchedulerSwaps_grant : ∃ g : Gang, nget? wsForming.gangs 1 = some g ∧ g.st = .forming ∧
    (∀ k ∈ g.members, (wsForming.proc k).st ≠ .stopped) ∧ wsForming.halted g.part = false ∧ g.members.Nodup ∧
    ∀ core < 512, (g.members.filter fun k => (wsForming.proc k).st != .exited && (wsForming.proc k).core == core).length ≤
      ((List.range 8).filter (freeForGang wsForming (gangPrio wsForming g) core)).length :=
  ⟨_, rfl, rfl, by decide +kernel, by decide +kernel, by decide +kernel, by decide +kernel⟩

/-- Cluster 0 idle, a NEW process in a queue of cluster 1 whose cores have no idle context and no empty standby slot. -/
def wsSteal : State :=
  { ws with
    parts := [(0, { wpart with clusters := 3 })]
    procs := [(2, { wp with st := .new, ctx := none, core := 8 })]
    cores := (8, { ctxs := (List.range 8).map fun j => (j, { run := some 9, standby := some 10 }), ready := [(0, [2])] }) ::
      (List.range 7).map fun j => (j + 9, { ctxs := (List.range 8).map fun j => (j, { run := some 9, standby := some 10 }) })
    issue := none }

theorem test_SchedulerSwaps_steal : (wsSteal.part 0).clusters.getLsbD 0 = true ∧ (wsSteal.part 0).clusters.getLsbD ((0 + 1) % 64) = true ∧
    (wsSteal.cluster 0).nextSteal ≤ wsSteal.cycle ∧ ((coresIn 0).filter fun c => 0 < idleCtx (wsSteal.core c)) ≠ [] ∧
    (∀ c ∈ coresIn 0, shipOrder (wsSteal.core c) = []) ∧
    ((coresIn 1).flatMap fun c => shipOrder ((wsSteal.refill c 4096).core c)).filter (mayShip wsSteal 0 0) = [2] := by decide +kernel

/-! ### Handlers, slices and commands -/

/-- Record 9 waits in the handler queue of instance 5. -/
def wsQueued : State :=
  { ws with
    insts := [(5, { part := 0, obj := 3, queue := [9] })]
    recs := [(9, wrec .trap 1)]
    issue := none }

theorem test_HandlersAndFirings_spawn : ∃ (r : FRec) (v : Inst) (o : NetObj), nget? wsQueued.insts 5 = some v ∧ v.queue = [9] ∧
    handlerIndex wsQueued 5 = some 1 ∧ v.handlers.length < 4 ∧ v.stopped = false ∧ wsQueued.halted v.part = false ∧
    nget? wsQueued.recs 9 = some r ∧ nget? wsQueued.objs v.obj = some o ∧ (o.img.procs.getD 1 {}).rated = false ∧ v.part < 64 ∧
    wsQueued.freeNum v.part < 2 ^ 26 :=
  ⟨_, _, _, rfl, rfl, by decide, by decide, rfl, by decide +kernel, rfl, rfl, by decide, by decide, by decide +kernel⟩

theorem test_HandlersAndFirings_delivery : ((wsWith { wp with faults := [wrec .pageFault 1] }).proc 1).ctx.isSome = true ∧
    ((wsWith { wp with faults := [wrec .pageFault 1] }).proc 1).st = .running ∧
    ((wsWith { wp with faults := [wrec .pageFault 1] }).proc 1).faults ≠ [] := by decide +kernel

/-- A rated process whose one input holds a message. -/
def wsRated : State :=
  { wsChan with
    parts := [(0, { wsChan.part 0 with chans := [(1, { wchan 0 with msgs := [(1, [0])] })] })]
    procs := [(1, { wp with st := .dormant, ctx := none, rated := true, firing := [(0x80000001, 1)] })]
    issue := none }

theorem test_HandlersAndFirings_firing : (wsRated.proc 1).st = .dormant ∧ (wsRated.proc 1).firing.all (endReady wsRated 1) = true ∧
    wsRated.halted (partOf 1) = false := by decide +kernel

/-- One process blocked on an empty channel of its own network, which has no handler. -/
def wsDead : State :=
  { wsChan with
    objs := [(3, { wobj with img := { wobj.img with handler := none } })]
    insts := [(5, { part := 0, obj := 3, areaPa := 0x30000 })]
    procs := [(1, { wp with st := .blocked, ctx := none, wkind := .recv, wobj := 0x80000001 })]
    issue := none }

theorem test_HandlersAndFirings_deadlock : deadlocked wsDead 5 = true ∧ wsDead.halted 0 = false ∧ handlerIndex wsDead 5 = none ∧
    (wsDead.inst 5).areaPa ≠ 0 := by decide +kernel

/-- Partitions 2 and 3, time-shared children of partition 1; 2 has its slice, and each has a running instance. -/
def wsSlices : State :=
  { State.reset with
    parts := [(1, { level := 1, clusters := 1 }), (2, { level := 2, parent := some 1, timeShared := true, clusters := 1, slice := some 0 }),
      (3, { level := 2, parent := some 1, timeShared := true, clusters := 1 })]
    insts := [(5, { part := 2, obj := 3 }), (6, { part := 3, obj := 4 })]
    procs := [(handleOf 2 1, { wp with inst := 5 })]
    cycle := 1750000 }

theorem test_SliceEvents_begin : (wsSlices.part 2).slice = some 0 ∧ (wsSlices.part 2).quies = none ∧
    0 + (wsSlices.part 2).budget.slice * 1750 ≤ wsSlices.cycle ∧ nextChild wsSlices 2 = some 3 ∧
    (∀ e ∈ wsSlices.txns, e.2.stage ≠ .waiting) ∧ (nget? wsSlices.procs (handleOf 2 1)).isSome = true ∧
    partOf (ownerOf (handleOf 2 1)) = 2 ∧ (wsSlices.proc (handleOf 2 1)).st ≠ .exited ∧
    (wsSlices.proc (handleOf 2 1)).engine = none ∧ (wsSlices.inst 5).stopped = false := by
  decide +kernel

/-- R350: a forked thread runs on when its issuer is stopped, and is stopped when the budget ends. -/
theorem test_quiescence_thread :
    let k := engineKey 7 (handleOf 2 1)
    let s := { wsSlices with
      procs := wsSlices.procs ++ [(k, { wp with inst := 5, engine := some { kind := .matrixSeq, txn := 7, forkLoc := 0 } })]
      txns := [(7, { wtxn (.eng 0 0 (.fork .matrixSeq 0 0)) with issuer := handleOf 2 1, part := 2, inst := 5 })] }
    let t := s.beginQuies 2 none .slice
    (t.proc k).st = .running ∧ (t.proc (handleOf 2 1)).st = .stopped ∧
    (match execQuiescenceBudgetExpiry 2 { t with cycle := 10000000 } with | .next u => (u.proc k).st == .stopped | _ => false) = true := by
  decide +kernel

def wsQuies (z : Quies) : State :=
  { wsSlices with parts := [(1, { level := 1, clusters := 1 }),
      (2, { level := 2, parent := some 1, timeShared := true, clusters := 1, slice := some 0, quies := some z }),
      (3, { level := 2, parent := some 1, timeShared := true, clusters := 1 })] }

def wquies (why : Stop) (saving : Bool) : Quies := { why := why, procs := [handleOf 2 1], since := 0, saving := saving }

def wref : EntryRef := { fn := 0, q := 0, idx := 0 }

/-- A SAVE of partition 2 to host memory, and a MIGRATE of it to a module that is bound to it. -/
def wsStop (c : Cmd) (z : Quies) : State :=
  { wsQuies z with
    queues := [(queueKey 0 0, { enable := true, bound := true, entries := [(0, { cmd := c })] })]
    keys := [(1, { localPart := 2, module := 1, remotePart := 0, key := 5, session := 1 })] }

theorem test_SliceEvents_commands : (let s := wsStop (.save 2 (6 * 2 ^ 60) 0x10000000) (wquies (.save wref) true);
      s.cmdOf wref = some (.save 2 (6 * 2 ^ 60) 0x10000000)) ∧
    (let s := wsStop (.migrate 2 1) (wquies (.migrate wref true) true);
      s.cmdOf wref = some (.migrate 2 1) ∧ s.bound 2 1 ≠ none ∧ s.moduleId = 0) ∧
    (let s := wsStop (.migrate 2 3) (wquies (.migrate wref true) true);
      s.cmdOf wref = some (.migrate 2 3) ∧ linkTo s 2 3 = none) := by decide +kernel

theorem test_SliceEvents_end : ((wquies .slice false).saving = false ∧
      ((wsQuies (wquies .slice false)).txns.filter fun e => outstanding [handleOf 2 1] e.2) = [] ∧
      ((wsQuies (wquies .slice false)).txns.any fun e => movesNode [handleOf 2 1] e.2) = false ∧
      movesNode [1] { wtxn (.repar 2 3) with stage := .waiting } = true) ∧
    ((wquies .slice true).saveAt + 100 * 1750 < (wsQuies (wquies .slice true)).cycle ∧ (wquies .slice true).late = false) ∧
    nextChild (wsQuies (wquies .slice true)) 2 = some 3 ∧
    (∀ why ∈ [Stop.preempt wref, .save wref, .migrate wref false, .migrate wref true],
      ((wsQuies (wquies why true)).part 2).quies = some (wquies why true)) := by decide +kernel

/-- A slot of host memory (Table 3.4): opcode, flags, target partition, and the arguments. -/
def wslot (op flags part : Nat) (args : List Nat) : List Byte :=
  leBytes 8 (op + 2 ^ 8 * flags + 2 ^ 32 * part) ++ leBytes 8 0 ++ args.flatMap (leBytes 8)

/-- What it stands for. -/
def wcmd (c : Cmd) : Entry := { cmd := c }

/-- The host's queue of PF0 holds one command. -/
def wsCmd (s : State) (bs : List Byte) : State :=
  { s with
    mem := writeBytes s.mem (hostKey 0) bs
    queues := [(queueKey 0 0, { enable := true, bound := true, tail := 1 })]
    issue := none }

/-- A slot whose command may begin, and its entry once it has. -/
theorem test_CmdReady : CmdReady (wsCmd ws (wslot 0x40 0 0 [])) wref (wcmd (.query 0 0)) ∧
    ((wsCmd ws (wslot 0x40 0 0 [])).beginEntry wref).entry? wref = some (wcmd (.query 0 0)) :=
  ⟨⟨by decide +kernel, rfl, rfl⟩, by decide +kernel⟩

theorem test_PartitionCommands_reserved :
    (∃ x, (wsCmd ws (wslot 0x03 2 0 [0])).nextEntry wref = some x ∧ x.cmd = .partdestroy 0 ∧ x.reservedZero = false) ∧
    (∃ (s : State) (x : Entry), s.nextEntry wref = some x ∧ x.cmd = .partdestroy 0 ∧ x.reservedZero = true ∧ s.recovery = true) :=
  ⟨⟨{ wcmd (.partdestroy 0) with reservedZero := false }, by decide +kernel, rfl, rfl⟩,
    ⟨wsCmd { ws with recovery := true } (wslot 0x03 0 0 [0]), wcmd (.partdestroy 0), by decide +kernel, rfl, rfl, rfl⟩⟩

theorem test_PartitionCommands_parts : (let s := wsCmd State.reset (wslot 0x01 0 0 [1, 0x1000, 4, 0]);
      s.nextEntry wref = some (wcmd (.partcreate 1 0x1000 4 0)) ∧
      (1 : BitVec 64) &&& ~~~s.flash.config.clusters = 0 ∧ ∀ q ∈ s.parts, q.2.level = 1 → q.2.clusters &&& 1 = 0) ∧
    (let s := wsCmd { State.reset with parts := [(1, { level := 1, clusters := 3 })] } (wslot 0x02 0 0 [1, 1, 0, 0x1000, 4, 0]);
      s.nextEntry wref = some (wcmd (.partsplit 1 1 false 0x1000 4 0)) ∧ s.partLive 1 = true ∧ lockedPart s 1 = false ∧ (s.part 1).level = 1 ∧ (1 : BitVec 64) &&& ~~~(s.part 1).clusters = 0 ∧
      placedOn s 1 1 = false ∧ ∀ c ∈ s.parts, c.2.parent = some 1 → c.2.clusters &&& 1 ≠ 0 → c.2.timeShared = true) ∧
    (let s := wsCmd ws (wslot 0x03 0 0 [0]);
      s.nextEntry wref = some (wcmd (.partdestroy 0)) ∧ s.partLive 0 = true ∧ (∀ c ∈ s.parts, c.2.parent ≠ some 0) ∧ (s.part 0).slice = none) ∧
    (let s := State.reset;
      nget? s.parts 0 = none ∧ (nget? (s.makePart wref 1 none false 1 { hbmq := 657, types := 1, typeTable := [8] } 4 0).parts 0).isSome = true) := by decide +kernel

theorem test_PartitionCommands_stops : (let s := wsCmd ws (wslot 0x20 0 0 [0, 5]);
      s.nextEntry wref = some (wcmd (.preempt 0 (some 5))) ∧ s.partLive 0 = true ∧ partWaits s 0 = false ∧ liveInst s 0 5 = true ∧ (s.inst 5).stopped = false ∧ lockedPart s 0 = false ∧
      ∀ v ∈ s.motions, v.2.part ≠ 0) ∧
    (let g : SaveImg := { romRev := 0x100, part := 0, cores := [], procs := [], replay := [], phases := [] };
     let s := wsCmd { ws with parts := [(0, { wpart with images := [g] })] } (wslot 0x22 0 0 [0, 0]);
      s.nextEntry wref = some (wcmd (.restore 0 0)) ∧
      (s.part 0).timeShared = false ∧ (s.part 0).images ≠ [] ∧ (∀ g ∈ (s.part 0).images, g.cores = []) ∧ partWaits s 0 = false ∧
      (let l := (preempted s 0).map Prod.fst
       let insts := ((preempted s 0).map fun k => k.2.inst).eraseDups
       (placeSets (restOf s l insts) (fun _ c => [c].filter (ownClusters s 0).contains) (byCluster (setsOf s l insts)) 0 []).isSome = true)) ∧
    ((wsCmd ws (wslot 0x21 0 0 [0, 6 * 2 ^ 60, 4096])).nextEntry wref = some (wcmd (.save 0 (6 * 2 ^ 60) 4096)) ∧
      (6 * 2 ^ 60) / 2 ^ 60 = 6 ∧ (wsCmd ws (wslot 0x23 0 0 [0, 1])).nextEntry wref = some (wcmd (.migrate 0 1))) := by decide +kernel

/-- A network with one channel type and one process. -/
def wimg : NetImage := { types := [8], procs := [{}], code := [0x83800000] }

/-- Its bytes (Table 6.2): the header, one entry of the process section and one word of code. -/
def wimgBytes (magic version : Nat) : List Byte :=
  ([magic + 2 ^ 32 * version, 2 ^ 48, 64 * 2 ^ 32, 0, 0, 96 * 2 ^ 32 + 4, 0, 0xFFFF * 2 ^ 32] ++ [0, 0, 0, 0]).flatMap (leBytes 8) ++
    leBytes 4 0x83800000

/-- A machine with a NETLOAD of it from host memory to begin. -/
def wsNetload (s : State) (magic version : Nat) : State :=
  wsCmd { s with mem := writeBytes s.mem (hostKey 0x1000) (wimgBytes magic version) } (wslot 0x10 0 0 [6 * 2 ^ 60 + 0x1000, 100])

/-- Partition 0 with a table root and a grant of tier-0 pages. -/
def wsGrant : State :=
  { State.reset with parts := [(0, { wpart with ptroot := 0x900000, grants := (List.range 16).map fun j => (0, 0x100 + j, 1) })] }

theorem test_NetworkCommands_netload : (let s := wsNetload wsGrant 0x394D494E 1;
      s.nextEntry wref = some (wcmd (.netload (6 * 2 ^ 60 + 0x1000) 100)) ∧ s.partLive 0 = true ∧
      s.readArg 0 (6 * 2 ^ 60 + 0x1000) 100 = some (wimgBytes 0x394D494E 1)) ∧
    ((readHeader (wimgBytes 0 1)).magic ≠ 0x394D494E ∧ (readHeader (wimgBytes 0x394D494E 2)).magic = 0x394D494E ∧
      (readHeader (wimgBytes 0x394D494E 2)).version ≠ 1 ∧ (readHeader (wimgBytes 0x394D494E (1 + 2 ^ 16))).version = 1 ∧
      (readHeader (wimgBytes 0x394D494E (1 + 2 ^ 16))).reserved ≠ 0) ∧
    (headerOk (wimgBytes 0x394D494E 1) = true ∧ imgReads (wimgBytes 0x394D494E 1) wimg = true ∧
      imgReads (wimgBytes 0x394D494E 1) { wimg with reservedZero := false } = true ∧ wimg.reservedZero = true) := by decide +kernel

theorem test_NetworkCommands_checks : (let s := wsNetload wsGrant 0x394D494E 1;
      matchTypes s 0 { wimg with types := [9] } = none ∧ imgReads (wimgBytes 0x394D494E 1) { wimg with types := [9] } = true ∧
      matchTypes s 0 wimg = some [0] ∧ (∀ c ∈ wimg.chans, c.ty < 1) ∧ (∀ l ∈ wimg.levels, l.depth ≤ 8) ∧ netBad wimg = false ∧
      wimg.power ≤ (s.part 0).budget.tokcore ∧ ((s.beginEntry wref).placeImage 0 wimg).isSome = true) ∧
    (let s := wsNetload { wsGrant with parts := [(0, { wpart with ptroot := 0x900000, grants := [] })] } 0x394D494E 1;
      (s.beginEntry wref).placeImage 0 wimg = none) := by decide +kernel

/-- The same with its object idle. -/
def wsIdle : State := { wsGrant with objs := [(3, { wobj with img := wimg, block := List.replicate 6 0 })] }

theorem test_NetworkCommands_launch : (let o := { wobj with running := some 5, waiting := [] };
     let s := wsCmd { ws with objs := [(3, o)] } (wslot 0x11 0 0 [3, 0]);
      s.nextEntry wref = some (wcmd (.launch 3 0)) ∧ nget? s.objs 3 = some o ∧ o.part = targetPart wref (wcmd (.launch 3 0)) ∧
      (s.part 0).timeShared = false ∧ o.running.isSome = true ∧ o.waiting.length < 4) ∧
    (let o := { wobj with img := wimg, block := List.replicate 6 0 };
     let s := wsCmd wsIdle (wslot 0x11 0 0 [3, 0]);
     let a : State := { s.beginEntry wref with objs := nset s.objs 3 { o with waiting := [], block := o.block } };
      nget? s.objs 3 = some o ∧ o.running = none ∧ o.waiting = [] ∧ choosePlace a 0 wimg [0] = some [0] ∧
      ((startable wimg).map fun p => [0].getD p 0).eraseDups = [0] ∧ (s.core 0).grant + wimg.power ≤ (s.part 0).budget.tokcore ∧
      tokensUsed s 0 + wimg.power * 1 ≤ (s.part 0).budget.tokens ∧ (spadOffset a 0 wimg [0]).isSome = true ∧ phaseFails a 0 wimg = none ∧
      wimg.heapPg = 0) ∧
    (let s := wsCmd { wsIdle with mem := writeBytes [] (hostKey 0x2000) (leBytes 8 8) } (wslot 0x12 0 0 [3, 6 * 2 ^ 60 + 0x2000, 1]);
      s.nextEntry wref = some (wcmd (.replay 3 (6 * 2 ^ 60 + 0x2000) 1)) ∧
      (s.readArg 0 (6 * 2 ^ 60 + 0x2000) (16 * 1)).isSome = true) ∧
    (∀ p ∈ [((8 : Nat), (0 : Word))], p.1 % 8 = 0 ∧ p.1 < 48 * wobj.img.procs.length) := by decide +kernel

theorem test_NetworkCommands_signal : (let c := { wchan 0 with bkind := 3 };
     let s := wsCmd { wsChan with parts := [(0, { wsChan.part 0 with chans := [(1, c)] })] } (wslot 0x13 0 0 [5, 0, 0x80000001, 7]);
      s.nextEntry wref = some (wcmd (.signalHost 5 0x80000001 7)) ∧ liveInst s 0 5 = true ∧ s.chan? 0 1 = some c ∧ c.rxopen = true ∧
      bits 0x80000001 30 24 = c.ty ∧ c.ep[0].toNat = 0) ∧
    (∀ n ∈ [0, 1], let s := wsCmd (wsPhase n) (wslot 0x13 0 0 [5, 1, 2]);
      s.nextEntry wref = some (wcmd (.signalPhase 5 2 0)) ∧ (s.phase? 0 2).map Phase.holder = some 5 ∧
      ((wphase n).dests[0]?.map fun d => ownDest s 0 d) = some true ∧ (wphase n).dests[0]?.map PDest.counter = some n) ∧
    (let s : State := { (wsCmd { ws with insts := [(5, { part := 0, obj := 3, entry := some wref })] } (wslot 0x11 0 0 [3, 0])).beginEntry
        wref with procs := [(1, { wp with st := .exited, ctx := none })] };
      (∀ p ∈ s.procs, p.2.inst = 5 → p.2.st = .exited) ∧ (∀ t ∈ s.txns, t.2.inst ≠ 5) ∧ (s.entry? wref).isSome = true ∧
      s.halted 0 = false) := by
  decide +kernel

def wsKeys : State := { State.reset with parts := [(0, wpart)], fns := [(0, { session := some 4 })] }

theorem test_DeviceCommands : (let s := wsCmd wsKeys (wslot 0x30 0 0 [0, 0, 0x1000]);
      s.nextEntry wref = some (wcmd (.keysetMemory 0 0x1000)) ∧
      s.partLive 0 = true ∧ lockedPart s 0 = false ∧ ownPages s 0 = false ∧ (s.fn 0).session ≠ none ∧ (s.part 0).budget.keyslot = 0) ∧
    (wsCmd wsKeys (wslot 0x30 0 0 [255, 1, 0x1000])).nextEntry wref = some (wcmd (.keysetBuneam 255 0x1000)) ∧
    (wsCmd ws (wslot 0x31 0 0 [7])).nextEntry wref = some (wcmd (.timeset 7)) ∧
    (wsCmd ws (wslot 0x32 0 0 [2 ^ 64 - 100000, 2 ^ 64 - 1])).nextEntry wref = some (wcmd (.timeadj (-100000) (-1))) ∧
    (let s := wsCmd ws (wslot 0x40 0 0 [4, 5]);
      s.nextEntry wref = some (wcmd (.query 4 5)) ∧ s.partLive 0 = true ∧ liveInst s 0 5 = true ∧ queueExists s 0 0 = true) ∧
    (wsCmd ws (wslot 0x40 0 0 [6])).nextEntry wref = some (wcmd (.query 6 0)) := by
  decide +kernel

/-- A virtual function with two queues. -/
def wsFn (t : Tdisp) : State := { ws with parts := [(0, { wpart with queues := 2 })], fns := [(1, { enabled := true, tdisp := t })] }

theorem test_HostAndSecurityEvents : queueExists (wsFn .unlocked) 1 1 = true ∧ ((wsFn .unlocked).queue (queueKey 1 1)).enable = false ∧
    (let q : Queue := { enable := true, bound := true };
     let s : State := { wsFn .unlocked with queues := [(queueKey 1 0, q)] };
      (boundQueues s)[0]? = some (queueKey 1 0) ∧ (s.queue (queueKey 1 0)).bound = true ∧
      (s.queue (queueKey 1 0)).head = (s.queue (queueKey 1 0)).tail) ∧
    (let s : State := { wsFn .unlocked with queues := [(queueKey 1 0, { enable := true, pending := true, tail := 1 })] };
      (boundQueues s).length ≤ 0 ∧ nextPending s = some (queueKey 1 0)) ∧
    (serves (wsFn .unlocked) 1 = true ∧ ((wsFn .unlocked).fn 1).tdisp = .unlocked ∧ ((wsFn .locked).fn 1).tdisp = .locked) ∧
    (hasMailbox ws 0 = true ∧ ws.lowerUsed < 32768) := by decide +kernel

/-! ### Pages, torus, links, the module and the step -/

/-- Page tables of partition 0 at 0x90000: virtual page 2 in frame `f`. -/
def wmem (f : Nat) : List Host.Cell :=
  [(0x90000, 2 ^ 63 + 0xA0000), (0xA0000, 2 ^ 63 + 0xB0000), (0xB0000, 2 ^ 63 + 0xC0000),
    (0xC0010, 2 ^ 63 + 2 ^ 62 + 2 ^ 59 + f * 2 ^ 16)].foldl (fun m e => writeBytes m e.1 (leBytes 8 e.2)) []

/-- Partition 0 owns one tier-1 page, where virtual page 2 lies, and one tier-0 page. -/
def wsPages : State :=
  { ws with
    mem := wmem 0x2000000
    parts := [(0, { wpart with ptroot := 0x90000, grants := [(0, 0x100, 1), (1, 0x2000000, 1)] })]
    cores := [(0, { wcore with tlb := [] })]
    issue := none }

theorem test_PageEvents_walk : ((wsPages.core 0).ctxs.findSome? fun x => x.2.run) = some 1 ∧
    tlbFind (wsPages.core 0).tlb (partOf 1) 2 = none ∧ tlbFind (wsPages.cluster 0).tlb (partOf 1) 2 = none ∧
    (wsPages.walk (partOf 1) 2).isOk = true ∧ wsPages.unitBusy none 0 (partOf 1) 2 = false := by decide +kernel

/-- The same leaf with a frame that the partition does not own. -/
theorem test_PageEvents_isolation : (match ({ wsPages with mem := wmem 0x300 } : State).walk 0 2 with | .error (.foreign f) => f == 0x300 | _ => false) = true := by
  decide +kernel

theorem test_PageEvents_logs : (let s : State := { ws with cores := [(0, { wcore with dirtyLog := List.replicate 128 (0, 2) })] };
      128 ≤ (s.core 0).dirtyLog.length) ∧
    (let x := wtxn (.shoot 2 false); (wsTxn x).earlierDone 7 x = true ∧ x.issuer ≠ 0 ∧ x.started = false ∧ x.stage = .sent) ∧
    (let x := { wtxn (.shoot 2 false) with started := true };
      (wsTxn x).walkBusy 0 2 = false ∧ (wsTxn x).logEnts = [] ∧ (wsTxn x).heldReads 0 2 = [] ∧ x.marks = []) ∧
    (let s : State := { ws with hot := [(2, 8)] };
      (s.part 0).epochAt ≤ s.cycle ∧ (s.part 0).migpol.getLsbD 0 = false ∧ (s.hot.map Prod.fst).Nodup) := by decide +kernel

/-- A shoot-down past the TLBs, transaction 7, with a logged store and a held read of its page. -/
def wsShoot (marks : List Nat) (ents : List SideEnt) (y : Txn) : State :=
  let x := { wtxn (.shoot 2 false) with started := true, marks := marks }
  { wsTxn x with cores := [(0, { wcore with sideLog := ents })], txns := [(7, x), (8, y)] }

def wheld : Txn := { wtxn (.load [{ at_ := .virt 0x20000, len := 4, va := 0x20000 }] (.zero 4)) with stage := .heldPage 2 }

theorem test_PageEvents_retries : (let e : SideEnt := { part := 0, txn := 9, vpn := 2 };
     let s := wsShoot [] [e] wheld;
      (s.logEnts.find? fun e => e.2.part == 0 && s.shotCovers 0 2 e.2.vpn && !([] : List Nat).contains e.2.txn) = some (.inl 0, e) ∧
      s.walkBusy 0 e.vpn = false) ∧
    (let s := wsShoot [] [] wheld;
      s.logEnts = [] ∧ s.heldReads 0 2 = [8] ∧ 8 ∉ ([] : List Nat)) ∧
    (let s := wsShoot [8] [] wheld;
      s.logEnts = [] ∧ (nget? s.txns 8).map Txn.retrying = some false ∧ ∀ h ∈ s.heldReads 0 2, h ∈ [8]) := by decide +kernel

def wmotion : Motion := { part := 0, vpn := 2, tier := 0, any := true }

def wsStart : State := { wsPages with motions := [(4, wmotion)] }

theorem test_PageEvents_start : okWith (wsStart.walk 0 2) (fun e => e.large == 0 && bits (wsStart.pte e.leaf) 56 56 == 0 && e.frame == 0x2000000) = true ∧
    frameTier wsStart 0x2000000 ≠ wmotion.tier ∧ wsStart.berylOf 0 0x2000000 = some 0 ∧ wsStart.destOf 0 0x2000000 0 true 0 = some 0 ∧
    (wsStart.pickPage 0 0 0).2 = some 0x100 ∧
    wsStart.walkBusy 0 2 = false ∧ (wsStart.part 0).migrated = false ∧ wsStart.heapPage 0x2000000 = false := ⟨by decide +kernel, by decide +kernel, by decide +kernel, by decide +kernel, by decide +kernel,
  by decide +kernel, by decide +kernel, by decide +kernel⟩

theorem test_PageEvents_copy : (let m : Motion := { wmotion with st := .copying, src := 0x2000000, dst := 0x100, leaf := 0xC0010 };
     let s : State := { wsPages with motions := [(4, m)] };
      nextLine m.bitmap = some 0 ∧ s.badAt (m.src * 2 ^ 16 + 128 * 0) = false ∧
        lostPart s [{ at_ := .mem (m.dst * 2 ^ 16 + 128 * 0), len := 128 }] = none) ∧
    (∀ c ∈ wsPages.clusters, ∀ a ∈ c.2.monitors, a.key / 2 ^ 16 ≠ 0x2000000) ∧
    (wmotion.began + 1750000 ≤ 1750000 ∧ (wsPages.part 0).mighand.toNat % 2 ^ 32 = 0) ∧
    (nextLine ((BitVec.allOnes 512 <<< 1) ||| (1#512 <<< 0)) = none ∧ nextLine (0#512 ||| (1#512 <<< 0)) ≠ none) := by decide +kernel

/-- No row is under repair and no stack out of service: no request waits for memory. -/
theorem test_PageEvents_idle : wsPages.memBusy (0x2000000 * 2 ^ 16) = false ∧ wsPages.memBusy (0x100 * 2 ^ 16) = false := by
  refine ⟨?_, ?_⟩ <;> decide +kernel

def wpkt (l : List Nat) : Packet := { id := 3, src := 0, dests := l }

theorem test_TorusEvents_inject : (wpkt [1]).dests ≠ [] ∧ (wpkt [1]).dests.eraseDups = (wpkt [1]).dests ∧
    (wpkt [1]).id ∉ packetIds State.reset ∧ ∀ o ∈ branches 0 (wpkt [1]), mayEnter State.reset 0 .loc o = true := by
  refine ⟨by decide, by decide, by decide, ?_⟩
  intro o _
  have h : taken State.reset 0 o = 0 := by cases o <;> rfl
  simp only [mayEnter, h, ringCapacity]
  split <;> simp

/-- A packet at the local input of router 0 for node 1, one on its link from the west, and a multicast at another router. -/
def wsTorus (l : List Nat) (c : Nat) : State :=
  { State.reset with
    routers := [(0, { inputs := [(portCode .loc, [{ pkt := wpkt l }])], links := [(portCode .xm, [wpkt [0]])] })], cycle := c }

theorem test_TorusEvents_grant : ((wsTorus [0] 0).router 0).input .loc = [{ pkt := wpkt [0] }] ∧
    ((offerOrder ((wsTorus [0] 0).router 0) .loc).find? (requests (wsTorus [0] 0) 0 .loc)) = some .loc ∧
    ((wsTorus [0] 0).router 0).link .xm = [wpkt [0]] := by decide +kernel

theorem test_TorusEvents_multicast : (let s := wsTorus [0, 1] 0;
      (s.router 0).input .loc = [{ pkt := wpkt [0, 1] }] ∧ 1 < (wpkt [0, 1]).dests.length ∧
      (∀ o ∈ branches 0 (wpkt [0, 1]), reservedBy (s.router 0) o = none ∧ mayEnter s 0 .loc o = true) ∧
      ∀ p, p ≠ .loc → ((s.router 0).input p).head? = none) ∧
    (let s := wsTorus [0, 1] (64 * Config.flitTime);
      (s.router 0).input .loc = [{ pkt := wpkt [0, 1] }] ∧ ({ pkt := wpkt [0, 1] } : Waiter).since + 64 * Config.flitTime ≤ s.cycle) := by
  refine ⟨⟨by decide +kernel, by decide, ?_, ?_⟩, rfl, ?_⟩
  · intro o ho
    have hn : taken (wsTorus [0, 1] 0) 0 o ≤ 1 := by revert o; decide +kernel
    refine ⟨?_, ?_⟩
    · revert o; decide +kernel
    · have hs : sameRing .loc o = false := by cases o <;> rfl
      have hc : o = .loc ∨ taken (wsTorus [0, 1] 0) 0 o = 0 := by revert o; decide +kernel
      rcases hc with rfl | hc
      · rfl
      · simp [mayEnter, hc, hs, ringCapacity]
  · intro p hp; cases p <;> first | rfl | exact absurd rfl hp
  · simp [wsTorus]

theorem test_LinkEvents : (let f : Flit := { hdr := 0x10000, seq := 0, crcOk := true, macOk := true, msg := .arrival 0 2 1 0 0 };
     let s : State := { ws with keys := [(1, { localPart := 0, module := 1, remotePart := 0, key := 5, session := 1 })] };
      (s.port 3).down = false ∧ f.seq = (s.port 3).rxSeq ∧ macGood s 3 f = true ∧ slotBound s f = true ∧
      slotBound s { f with hdr := 0x20000 } = false ∧ (s.port 3).macFail ≠ some f.seq.toNat) ∧
    (let s : State := { ws with ports := [(3, { spare := false, macFail := some 0, retrain := true })] };
      (s.port 3).spare = false ∧ (s.port 3).macFail = some 0 ∧ (s.port 3).retrain = true ∧ (s.port 3).queue = []) ∧
    (∃ s : State, (∃ c, s.chan? 0 1 = some c ∧ c.bkind = 4 ∧ (s.port (fabPort c.module c.rpart)).down = true) ∧ partOf 1 = 0 ∧
      nget? s.procs 1 = some (s.proc 1) ∧ (s.proc 1).st ≠ .exited ∧ ∀ e ∈ s.txns, e.2.stage ≠ .waiting) ∧
    (ws.flash.config.cxl.getLsbD 0 = true ∧ (ws.cxlPort 0).lost = false ∧ (ws.cxlPort 0).attempts < 3 ∧
      ∃ s : State, (s.cxlPort 0).retraining = true ∧ (∀ m ∈ s.motions, m.2.st ≠ .copying) ∧ ∀ e ∈ s.txns, s.inWindow 0 e.2.op.parts = false) := by
  refine ⟨by decide +kernel, by decide +kernel, ?_, rfl, rfl, by decide, ⟨{ ws with cxl := [(0, { retraining := true })] }, rfl, by decide, by decide⟩⟩
  refine ⟨{ ws with
      parts := [(0, { wpart with chans := [(1, { wchan 0 with bkind := 4, module := 1, rpart := 0 })] })]
      ports := [(fabPort 1 0, { down := true })] }, ⟨_, rfl, rfl, ?_⟩, rfl, rfl, by decide, by decide⟩
  simp [State.port, nget, nget?]

/-- A read under way to a CXL device. -/
theorem test_LinkEvents_read : (let x := wtxn (.load [{ at_ := .mem (2 ^ 44), len := 4, va := 0x20000 }] (.zero 4));
      (wsTxn x).inWindow 0 x.op.parts = true ∧ x.stage = .sent ∧ x.op.role = .ld ∧ (wsTxn x).txns = [(7, x)]) ∧
    ws.flash.config.ports.getLsbD 0 = true := by decide +kernel

theorem test_ModuleEvents : (∃ s : State, flashGood s = false) ∧ (spareFree ws 0 = true ∧ lostProcs State.reset 0 = ([], [])) ∧
    ((ws.mbd 0).substituted = none ∧ (ws.mbd 0).copying = none) ∧
    (let s : State := { ws with mbds := [(0, { copying := some 4, repairing := [7], refresh := [8], retraining := true })] };
      (s.mbd 0).copying = some 4 ∧ 7 ∈ (s.mbd 0).repairing ∧ 8 ∈ (s.mbd 0).refresh ∧ (s.mbd 0).retraining = true) ∧
    (∃ a, a < 0x8000000000 ∧ a % 128 = 0 ∧ stackOf a = 0 ∧ channelOf a = 4 ∧ a ∉ (ws.mbd 0).bad) ∧
    ((ws.mbd 0).retraining = false ∧ ∀ p ∈ ws.parts, p.2.quies = none) :=
  ⟨⟨{ ws with flash := { repairGood := false } }, by decide⟩, by decide +kernel, by decide +kernel, by decide +kernel,
    ⟨512, by decide +kernel⟩, by decide +kernel⟩

theorem test_StoppedMachine : ∃ s : State, s.stopped = true ∧ s.agenda = [.event (.reset ⟨true, [], []⟩)] ∧ s.issue = none :=
  ⟨{ State.reset with stopped := true, agenda := [.event (.reset ⟨true, [], []⟩)] }, rfl, rfl, rfl⟩

/-- A state with a lone `nop` to run meets the invariant, and its step answers a next state. -/
theorem test_StepInvariant : Memory.wf (State.reset.withFetchWord 32 0x83800000).mem = true ∧
    (State.reset.withFetchWord 32 0x83800000).issue = none ∧ (State.reset.withFetchWord 32 0x83800000).raised = none ∧
    (match step (State.reset.withFetchWord 32 0x83800000) with | .next _ => true | _ => false) = true := by decide +kernel

/-- The turn falls to process 1, and its words are fetched: a lone `add`, and a pair of `ld` and `nop.b`. -/
def turnWord (w : Nat) : Bool :=
  let s1 : State := { State.reset.withFetchWord 32 w with agenda := [] }
  match s1.nextTurn s1.cycle s1.turnCore 8 with
  | some (cyc, .run 0 1) =>
    let s2 := ({ s1.upTo cyc with turnCore := 1 } : State).landWindows 1
    let p := s2.proc 1
    let i : Issue := { proc := 1, loc := p.pc, next := p.pc, pre := p }
    let s2 := s2.countTurn 1
    p.st == .running && decide (p.landed ≤ s2.cycle) && p.faults == [] && !p.exiting && p.hold == none && !p.rep.active &&
      p.engine == none && p.pc.toNat % 8 == 0 && okWith (s2.fetch i p.pc) (fun t => t.2 == w && okWith (t.1.fetch i (p.pc + 4)) fun u =>
        okWith (decodeWord w) fun x => wordPriv t.1 i x &&
          (u.2 == 0 || okWith (decodeWord u.2) fun y => wordPriv u.1 { i with bword := true } y))
  | _ => false

theorem test_StepRunsDecoded : turnWord 0x0AC40000 = true ∧ fld 0x0AC40000 31 1 = 0 ∧ fld 0x0AC40000 29 1 = 0 ∧
    turnWord 0x8A494802 = true ∧ fld 0x8A494802 31 1 = 1 ∧ engineLegal (.ld .i32 (.n 4) (some 9) 2) = true := by decide +kernel

/-- The move of an engine thread whose next word is to issue. -/
theorem test_StepRunsDecoded_thread : let s : State := { ws with
      procs := [(1, { wp with ctx := none, engine := some { kind := .copySeq, txn := 7, forkLoc := 0 } })]
      agenda := [.engine 1]
      issue := none };
    s.agenda = [.engine 1] ∧ s.stopped = false ∧ (s.proc 1).engine.isSome = true ∧ (s.proc 1).exiting = false ∧
      (s.proc 1).st = .running ∧ (s.proc 1).landed ≤ s.cycle ∧ (s.proc 1).hold ≠ some .object ∧ (s.proc 1).rep.active = false := by
  decide +kernel

theorem test_RoundTrip : (Instr.add (.n 2) (.n 3) (some 4)).wf = true ∧ (Instr.add (.n 2) (.n 3) (some 4)).canonical = true ∧
    (encode (.add (.n 2) (.n 3) (some 4))).isSome = true ∧ (0x21ACC485 < 2 ^ 30) ∧
    okWith (decodeWord 0x0AC40000) (fun _ => true) = true := by decide

end Sys2Proof.Tests
end

section
/-! SUPPORT. Reading a source that is pending, and the words of immediates and bit fields: what each gives, and from these O3 and O11. -/

namespace Sys2Proof.Machine

/-! ### Reading a source -/

/-- A source that names a queue slot or a named register whose result is still to come (R149, R150). -/
def SrcPending (i : Issue) (z : Src) : Prop :=
  (∃ j, z = .q j ∧ i.pre.qpend j = true) ∨ (∃ r, z = .n r ∧ ∃ t, (i.pre.nphys r, t) ∈ i.pre.nPend)

/-- The fault of a read of a pending source: the extra word names its code (R21, Table 8.3). -/
def unreadyTrap (z : Src) : Trap := { kind := .unreadyOperand, e5 := BitVec.ofNat 64 z.code }

/-- The operand layer and the encoder number the sources alike (Table 12.2). -/
theorem srcCode_eq_code (z : Src) : srcCode z = z.code := by
  cases z with
  | q j => rfl
  | sp c => cases c <;> rfl
  | n r => rfl

/-- A process, unlike an engine thread, faults on what is not ready. -/
theorem unready_of_process {i : Issue} (he : i.pre.engine = none) (z : Src) :
    unready i (srcCode z) = .trap (unreadyTrap z) := by
  simp [unready, unreadyTrap, he, srcCode_eq_code]

theorem nPend_any_eq_true_iff (p : Proc) (r : BitVec 5) :
    p.nPend.any (fun e => e.1 == r) = true ↔ ∃ t, (r, t) ∈ p.nPend := by
  simp only [List.any_eq_true, beq_iff_eq]
  constructor
  · rintro ⟨⟨r', t⟩, hmem, rfl⟩
    exact ⟨t, hmem⟩
  · rintro ⟨t, hmem⟩
    exact ⟨(r, t), hmem, rfl⟩

theorem readSrc_of_pending {i : Issue} {z : Src} (hz : SrcPending i z) : readSrc i z = .error (unready i (srcCode z)) := by
  obtain ⟨j, rfl, hj⟩ | ⟨r, rfl, hr⟩ := hz
  · simp only [readSrc, if_pos hj]
  · simp only [readSrc, if_pos ((nPend_any_eq_true_iff _ _).2 hr)]

theorem readSrc_of_not_pending {i : Issue} {z : Src} (hz : ¬ SrcPending i z) : ∃ a, readSrc i z = .ok a := by
  cases z with
  | q j =>
    have hj : ¬ i.pre.qpend j = true := fun h => hz (.inl ⟨j, rfl, h⟩)
    exact ⟨i.pre.qget j, by simp only [readSrc, if_neg hj]⟩
  | sp c => exact ⟨_, readSrc_sp i c⟩
  | n r =>
    have hr : ¬ i.pre.nPend.any (fun e => e.1 == i.pre.nphys r) = true :=
      fun h => hz (.inr ⟨r, rfl, (nPend_any_eq_true_iff _ _).1 h⟩)
    exact ⟨i.pre.nget (i.pre.nphys r), by simp only [readSrc, if_neg hr]⟩

theorem readSrc_unready {i : Issue} {z : Src} (he : i.pre.engine = none) (hz : SrcPending i z) :
    readSrc i z = .error (.trap (unreadyTrap z)) := by
  rw [readSrc_of_pending hz, unready_of_process he]

/-! ### A form of two sources one of which cannot be read: x is read first (R247) -/

theorem form2_error_left {s : State} {i : Issue} {x : Src} {e : Abort} (y : Src) (k : Keep) (f : Word → Word → Word)
    (hi : s.issue = some i) (hx : readSrc i x = .error e) : form2 s x y k f = .error e := by
  simp [form2, cur_some hi, hx]

theorem form2_error_right {s : State} {i : Issue} {x y : Src} {a : Word} {e : Abort} (k : Keep) (f : Word → Word → Word)
    (hi : s.issue = some i) (hx : readSrc i x = .ok a) (hy : readSrc i y = .error e) : form2 s x y k f = .error e := by
  simp [form2, cur_some hi, hx, hy]

/-! ### Fields of a word -/

theorem zeroExt_eq_setWidth (x : Word) (n : Nat) : zeroExt x n = (x.setWidth n).setWidth 64 := by
  apply BitVec.eq_of_toNat_eq
  simp [zeroExt]

theorem zeroExt_ushiftRight_eq_extractLsb' (x : Word) (lo n : Nat) :
    zeroExt (x >>> lo) n = (x.extractLsb' lo n).setWidth 64 := by
  apply BitVec.eq_of_toNat_eq
  simp [zeroExt]

/-- The sign test of `signExt` is that of two's complement. -/
theorem signExt_eq_signExtend (x : Word) (n : Nat) : signExt x n = (x.setWidth n).signExtend 64 := by
  rw [BitVec.signExtend, BitVec.toInt_eq_toNat_cond, BitVec.toNat_setWidth]
  by_cases hneg : 2 ^ n ≤ 2 * (x.toNat % 2 ^ n)
  · simp only [signExt, if_pos hneg, if_neg (Nat.not_lt.2 hneg), Nat.cast_pow, Nat.cast_ofNat]
  · simp only [signExt, if_neg hneg, if_pos (Nat.not_le.1 hneg), BitVec.ofInt_natCast]

/-- `insField` as nested sums of a low part and a shifted rest. -/
theorem insField_eq_ofNat_nested (x v : Word) (w lo : Nat) :
    insField x v w lo = BitVec.ofNat 64
      (2 ^ lo * (2 ^ w * (x.toNat / 2 ^ (lo + w)) + v.toNat % 2 ^ w) + x.toNat % 2 ^ lo) := by
  simp only [insField, Nat.pow_add]
  congr 1
  ring

/-- Bit by bit, `insField` is v's low bits within the field and x elsewhere (R269). -/
theorem getLsbD_insField (x v : Word) (w lo : Nat) {j : Nat} (hj : j < 64) :
    (insField x v w lo).getLsbD j = if lo ≤ j ∧ j < lo + w then v.getLsbD (j - lo) else x.getLsbD j := by
  have hlow : x.toNat % 2 ^ lo < 2 ^ lo := Nat.mod_lt _ (Nat.two_pow_pos _)
  have hfield : v.toNat % 2 ^ w < 2 ^ w := Nat.mod_lt _ (Nat.two_pow_pos _)
  rw [insField_eq_ofNat_nested, BitVec.getLsbD_ofNat, Nat.testBit_two_pow_mul_add _ hlow, Nat.testBit_two_pow_mul_add _ hfield]
  by_cases hbelow : j < lo
  · have hout : ¬ (lo ≤ j ∧ j < lo + w) := by omega
    simp [hj, hbelow, hout, Nat.testBit_mod_two_pow, BitVec.getLsbD]
  · by_cases hin : j - lo < w
    · have hfld : lo ≤ j ∧ j < lo + w := by omega
      simp [hj, hbelow, hin, hfld, Nat.testBit_mod_two_pow, BitVec.getLsbD]
    · have hout : ¬ (lo ≤ j ∧ j < lo + w) := by omega
      have hidx : j - lo - w + (lo + w) = j := by omega
      simp [hj, hbelow, hin, hout, Nat.testBit_div_two_pow, hidx, BitVec.getLsbD]

/-! ### What the words push -/

section Results

variable {s : State} {i : Issue} {x y : Src} {a b c : Word} (k : Keep)

theorem finish_form1 (f : Word → Word) (hi : s.issue = some i) (hx : readSrc i x = .ok a) :
    finish s (form1 s x k f) = .next (s.push i (f a) k) := by rw [form1_ok k f hi hx, finish_ok]

theorem exec_li (m : BitVec 17) (hi : s.issue = some i) : exec (.li m k) s = .next (s.push i (m.signExtend 64) k) := by
  have harm : exec (.li m k) s = execLi m k s := rfl
  simp [harm, execLi, cur_some hi]

theorem exec_lih (m : BitVec 11) (hi : s.issue = some i) (hx : readSrc i x = .ok a) :
    exec (.lih x m k) s = .next (s.push i ((a <<< 11) ||| m.setWidth 64) k) := finish_form1 k _ hi hx

theorem exec_addi (m : BitVec 11) (hi : s.issue = some i) (hx : readSrc i x = .ok a) :
    exec (.addi x m k) s = .next (s.push i (a + m.signExtend 64) k) := finish_form1 k _ hi hx

theorem exec_sext (m : BitVec 11) (hi : s.issue = some i) (hx : readSrc i x = .ok a) :
    exec (.sext x m k) s = .next (s.push i ((a.setWidth m.toNat).signExtend 64) k) := by
  rw [← signExt_eq_signExtend]
  exact finish_form1 k _ hi hx

theorem exec_zext (m : BitVec 11) (hi : s.issue = some i) (hx : readSrc i x = .ok a) :
    exec (.zext x m k) s = .next (s.push i ((a.setWidth m.toNat).setWidth 64) k) := by
  rw [← zeroExt_eq_setWidth]
  exact finish_form1 k _ hi hx

theorem exec_bext (w : BitVec 5) (lo : BitVec 6) (hi : s.issue = some i) (hx : readSrc i x = .ok a) :
    exec (.bext x w lo k) s = .next (s.push i ((a.extractLsb' lo.toNat (w.toNat + 1)).setWidth 64) k) := by
  rw [← zeroExt_ushiftRight_eq_extractLsb']
  exact finish_form1 k _ hi hx

theorem exec_bins (w : BitVec 5) (lo : BitVec 6) (hi : s.issue = some i) (hx : readSrc i x = .ok a)
    (hq : readQ0 i = .ok c) :
    exec (.bins x w lo k) s = .next (s.push i (insField a c (w.toNat + 1) lo.toNat) k) := by
  have harm : exec (.bins x w lo k) s = execBins x w lo k s := rfl
  simp [harm, execBins, cur_some hi, hx, hq]

theorem exec_sel (hi : s.issue = some i) (hx : readSrc i x = .ok a) (hy : readSrc i y = .ok b)
    (hq : readQ0 i = .ok c) : exec (.sel x y k) s = .next (s.push i (if c = 0 then b else a) k) := by
  have harm : exec (.sel x y k) s = execSel x y k s := rfl
  simp [harm, execSel, cur_some hi, hx, hy, hq]

theorem exec_add_eq (x y : Src) (s : State) :
    exec (.add x y k) s = finish s (form2 s x y k fun u v => u + v) := rfl

theorem exec_add (hi : s.issue = some i) (hx : readSrc i x = .ok a) (hy : readSrc i y = .ok b) :
    exec (.add x y k) s = .next (s.push i (a + b) k) := by
  rw [exec_add_eq, form2_ok k _ hi hx hy, finish_ok]

theorem exec_add_unready_left (y : Src) (hi : s.issue = some i) (he : i.pre.engine = none) (hx : SrcPending i x) :
    exec (.add x y k) s = .next (s.raise (unreadyTrap x)) := by
  rw [exec_add_eq, form2_error_left y k _ hi (readSrc_unready he hx), finish_trap]

theorem exec_add_unready_right (hi : s.issue = some i) (he : i.pre.engine = none) (hx : readSrc i x = .ok a)
    (hy : SrcPending i y) : exec (.add x y k) s = .next (s.raise (unreadyTrap y)) := by
  rw [exec_add_eq, form2_error_right k _ hi hx (readSrc_unready he hy), finish_trap]

end Results

/-! ### The obligations -/

/-- Settles O3: each form reads its sources and pushes; `sext`, `zext`, `bext` and `bins` by the field lemmas above. -/
theorem immediateResults : Obligations.ImmediateResults := by
  intro s i x y k a b c hi hx hy hq
  refine ⟨fun m => exec_li k m hi, fun m => exec_lih k m hi hx, fun m => exec_addi k m hi hx,
    fun m _ => ⟨exec_sext k m hi hx, exec_zext k m hi hx⟩, fun w lo _ => ⟨exec_bext k w lo hi hx, ?_⟩, exec_sel k hi hx hy hq⟩
  exact ⟨_, exec_bins k w lo hi hx hq, fun j hj => getLsbD_insField a c _ _ hj⟩

/-- Settles O11: x is read before y, and each read fails exactly where its source is pending. -/
theorem unreadyRead : Obligations.UnreadyRead := by
  intro s i x y k hi he
  refine ⟨fun hx => exec_add_unready_left k y hi he hx, fun hx hy => ?_, fun hx hy => ?_⟩
  · obtain ⟨a, ha⟩ := readSrc_of_not_pending hx
    exact exec_add_unready_right k hi he ha hy
  · obtain ⟨a, ha⟩ := readSrc_of_not_pending hx
    obtain ⟨b, hb⟩ := readSrc_of_not_pending hy
    exact ⟨a, b, exec_add k hi ha hb⟩

end Sys2Proof.Machine
end

section
/-! SUPPORT. What a reset and a thermal trip leave: the state after reset (O55, O56), what the steps of a restart keep, and a stopped
module (O54). -/

namespace Sys2Proof.Machine

/-! ### The state after reset -/

/-- Settles O55: every clause reads a field, or a key of an empty table, of `State.reset`. -/
theorem resetState : Obligations.ResetState :=
  ⟨rfl, rfl, rfl, rfl, rfl, rfl, rfl, rfl, rfl, rfl, rfl, rfl, rfl, rfl, rfl, rfl, rfl, fun _ => rfl,
    fun _ => ⟨rfl, rfl, rfl, fun _ => rfl⟩, fun _ => ⟨rfl, rfl⟩, fun _ => ⟨rfl, rfl⟩⟩

/-- Settles O56: the empty memory is canonical and the latch is empty. -/
theorem resetInvariant : Obligations.ResetInvariant := ⟨rfl, rfl, rfl⟩

/-! ### The steps of a restart (R45) -/

/-- A later stage `u` of a restart as against an earlier one `t`: nothing runs that did not, memory, the ROM, the configuration and the
agenda are as they were, a module in recovery stays so, and the repair log has grown by `l`. -/
structure SetUp (l : List Repair) (t u : State) : Prop where
  procs : u.procs = t.procs
  parts : u.parts = t.parts
  txns : u.txns = t.txns
  insts : u.insts = t.insts
  time : u.time = t.time
  mem : u.mem = t.mem
  romRev : u.romRev = t.romRev
  config : u.flash.config = t.flash.config
  stopped : u.stopped = t.stopped
  agenda : u.agenda = t.agenda
  recovery : t.recovery = true → u.recovery = true
  repairs : u.flash.repairs = t.flash.repairs ++ l

namespace SetUp

theorem refl (t : State) : SetUp [] t t :=
  ⟨rfl, rfl, rfl, rfl, rfl, rfl, rfl, rfl, rfl, rfl, id, (List.append_nil _).symm⟩

theorem trans {l m : List Repair} {t u v : State} (h : SetUp l t u) (g : SetUp m u v) : SetUp (l ++ m) t v where
  procs := g.procs.trans h.procs
  parts := g.parts.trans h.parts
  txns := g.txns.trans h.txns
  insts := g.insts.trans h.insts
  time := g.time.trans h.time
  mem := g.mem.trans h.mem
  romRev := g.romRev.trans h.romRev
  config := g.config.trans h.config
  stopped := g.stopped.trans h.stopped
  agenda := g.agenda.trans h.agenda
  recovery := g.recovery ∘ h.recovery
  repairs := by rw [g.repairs, h.repairs, List.append_assoc]

/-- A fold of steps that log nothing logs nothing. -/
theorem foldl {α : Type} {f : State → α → State} (hf : ∀ t a, SetUp [] t (f t a)) (as : List α) (t : State) :
    SetUp [] t (as.foldl f t) := by
  induction as generalizing t with
  | nil => exact refl t
  | cons a as ih => exact (hf t a).trans (ih (f t a))

theorem ringDev (t : State) (e : Event) : SetUp [] t (t.ringDev e) := { refl t with }

theorem newTree (t : State) : SetUp [] t t.newTree := by
  unfold State.newTree
  split
  · exact { refl t with }
  · exact { refl t with recovery := fun _ => rfl }

theorem absentPort (t : State) (d : Nat) :
    SetUp [] t (({ t with cxl := nset t.cxl d { absent := true } } : State).ringDev (.cxlAbsent d)) := { refl t with }

theorem portDown (t : State) (b : Nat) : SetUp [] t (t.setPort b { t.port b with down := true }) := { refl t with }

theorem applyRepair (t : State) (r : Repair) : SetUp [] t (t.applyRepair r) := by
  cases r <;> exact { refl t with }

/-- A core that fails its self-check is logged where it finds a spare (R40). -/
theorem selfCheck (t : State) (c : Nat) : ∃ l, SetUp l t (t.selfCheck c) := by
  unfold State.selfCheck
  split
  · exact ⟨[], refl t⟩
  · exact ⟨[.core c], (applyRepair t (.core c)).trans { refl _ with repairs := rfl }⟩

theorem selfChecks (bad : List Nat) (t : State) : ∃ l, SetUp l t (bad.foldl State.selfCheck t) ∧ (bad = [] → l = []) := by
  induction bad generalizing t with
  | nil => exact ⟨[], refl t, fun _ => rfl⟩
  | cons c bad ih =>
    obtain ⟨l, hl⟩ := selfCheck t c
    obtain ⟨m, hm, -⟩ := ih (t.selfCheck c)
    exact ⟨l ++ m, hl.trans hm, fun h => nomatch h⟩

end SetUp

/-- The first stage of a restart: what stands from before, in a machine that is otherwise as at power-on. -/
def State.powerOn (s : State) : State :=
  let t : State := { State.reset with
    mem := s.mem.filter fun c => decide (2 ^ 64 ≤ c.1)
    romRev := s.romRev
    romImage := s.romImage
    puf := s.puf
    seed := s.puf
    flash := s.flash
    saved := s.saved
    moduleId := s.moduleId
    ring := s.ring
    fresh := s.fresh
    nextId := s.nextId
    agenda := s.agenda
    auto := s.auto }
  { t with recovery := !flashGood t, patchRam := loadedPatches t }

/-- A restart is a set-up of the machine at power-on, and at its end the host is told of a module that is not in recovery (R45). -/
theorem restart_setUp (s : State) (bad absent : List Nat) :
    ∃ l, SetUp l s.powerOn (s.restart bad absent) ∧ (bad = [] → l = []) ∧
      (s.restart bad absent).hostTold = !(s.restart bad absent).recovery := by
  obtain ⟨t1, h1, e1⟩ : ∃ t1, SetUp [] s.powerOn t1 ∧
      t1 = (skippedPatches s.powerOn).foldl (fun t k => t.ringDev (.patchSkipped k)) s.powerOn :=
    ⟨_, SetUp.foldl (fun t k => .ringDev t _) _ _, rfl⟩
  obtain ⟨t2, h2, e2⟩ : ∃ t2, SetUp [] t1 t2 ∧ t2 = t1.newTree := ⟨_, .newTree t1, rfl⟩
  obtain ⟨t3, h3, e3⟩ : ∃ t3, SetUp [] t2 t3 ∧
      t3 = (absent.filter fun d => decide (d < 4) && t2.flash.config.cxl.getLsbD d).foldl (fun t d =>
        ({ t with cxl := nset t.cxl d { absent := true } } : State).ringDev (.cxlAbsent d)) t2 :=
    ⟨_, SetUp.foldl SetUp.absentPort _ _, rfl⟩
  obtain ⟨t4, h4, e4⟩ : ∃ t4, SetUp [] t3 t4 ∧
      t4 = if t3.flash.repairGood then t3.flash.repairs.foldl State.applyRepair t3 else t3 := by
    refine ⟨_, ?_, rfl⟩
    split
    · exact SetUp.foldl SetUp.applyRepair _ _
    · exact .refl t3
  obtain ⟨l, h5, hl⟩ := SetUp.selfChecks bad t4
  obtain ⟨t6, h6, e6⟩ : ∃ t6, SetUp [] (bad.foldl State.selfCheck t4) t6 ∧
      t6 = ((List.range 24).filter fun b => !(bad.foldl State.selfCheck t4).flash.config.ports.getLsbD b).foldl
        (fun t b => t.setPort b { t.port b with down := true }) (bad.foldl State.selfCheck t4) :=
    ⟨_, SetUp.foldl SetUp.portDown _ _, rfl⟩
  have hend : s.restart bad absent =
      if t6.recovery then { t6 with hostTold := false } else { t6 with hostTold := true }.ringDev .ready := by
    subst e6 e4 e3 e2 e1
    rfl
  have hset : SetUp l s.powerOn t6 := by
    simpa using ((((h1.trans h2).trans h3).trans h4).trans h5).trans h6
  rw [hend]
  split
  · next hr => exact ⟨l, { hset with }, hl, by simp [hr]⟩
  · next hr => exact ⟨l, { hset with }, hl, by simp [State.ringDev, hr]⟩

/-! ### A stopped module (R44) -/

/-- Nothing but a reset, and a write of the host to its own memory, acts on a stopped module. -/
theorem move_of_stopped {s : State} (hs : s.stopped = true) (m : Move)
    (hr : ∀ cold bad absent, m ≠ .event (.reset ⟨cold, bad, absent⟩))
    (hh : ∀ a bs, m ≠ .host a bs) : s.move m = .next s := by
  cases m with
  | event i =>
    cases i with
    | reset v => exact absurd rfl (hr v.cold v.bad v.absent)
    | _ => simp [State.move, hs]
  | host a bs => exact absurd rfl (hh a bs)
  | _ => simp [State.move, hs]

theorem step_of_stopped_of_idle {s : State} (hs : s.stopped = true) (ha : s.agenda = []) : step s = .next s := by
  simp [step, ha, State.autoMove, State.move, hs]

/-- A reset runs on a stopped module too. -/
theorem step_reset {s : State} {l : List Move} {v : Restarting} (ha : s.agenda = .event (.reset v) :: l) :
    step s = .next (({ s with agenda := l } : State).restart v.bad v.absent) := by
  have harm (t : State) : exec (.reset v) t = .next (t.restart v.bad v.absent) := rfl
  simp [step, ha, State.move, harm]

theorem exec_thermalTrip {s : State} {die temp : Nat} (hd : die < 4) (ht : 115 ≤ temp) :
    exec (.thermalTrip die temp) s = .next ({ s with stopped := true }.ringDev .thermalTrip) := if_pos ⟨hd, ht⟩

/-- Settles O54: a stopped module moves by `move_of_stopped`, and a restart sets `stopped` to false. -/
theorem stoppedMachine : Obligations.StoppedMachine := by
  refine ⟨fun s die temp hd ht => ⟨_, exec_thermalTrip hd ht, rfl⟩, fun s => step_of_stopped_of_idle, ?_, ?_⟩
  · intro s m l hs ha hr hh
    simp only [step, ha]
    exact move_of_stopped (s := { s with agenda := l }) hs m hr hh
  · intro s cold bad absent l hs ha
    obtain ⟨_, hset, -, -⟩ := restart_setUp { s with agenda := l } bad absent
    exact ⟨_, step_reset ha, hset.stopped, hset.procs, hset.agenda⟩

end Sys2Proof.Machine
end

section
/-! SUPPORT. Every step keeps the invariant (O57). `State.Kept` is what each operation of the machine keeps: memory in its canonical form
and, where no word is in issue, an empty latch. One lemma per operation, named after it and in the order of the model. -/

namespace Sys2Proof.Machine

/-! ### What is kept -/

/-- Memory stands in its canonical form; where `q` holds, no word is in issue and no fault is half raised. An operation that runs for a word in
issue keeps it with `q` false, an event of the machine with `q` true. -/
structure State.Kept (q : Prop) (s : State) : Prop where
  mem : Memory.wf s.mem = true
  idle : q → s.issue = none ∧ s.raised = none

/-- The next state, where there is one, keeps it. -/
def NextKept (q : Prop) (r : Host.Outcome State Fault Refusal) : Prop := ∀ t, r = .next t → t.Kept q

/-- Every result of a search has a property. -/
def OptAll {α : Type} (P : α → Prop) (o : Option α) : Prop := ∀ a, o = some a → P a

/-- Every result of a computation that can fail has a property. -/
def OkAll {ε α : Type} (P : α → Prop) (r : Except ε α) : Prop := ∀ a, r = .ok a → P a

theorem inv_iff_kept {s : State} : s.Inv ↔ s.Kept True :=
  ⟨fun h => ⟨h.mem, fun _ => ⟨h.issue, h.raised⟩⟩, fun h => ⟨h.mem, (h.idle trivial).1, (h.idle trivial).2⟩⟩

section Combinators

variable {q : Prop} {s t : State} {ε α β : Type}

namespace State.Kept

/-- An update of other fields, and of memory to a canonical one. -/
theorem put {mem : List Host.Cell}
    {time timeRem cycle turnCore timePpb timeSlew ppsLatch recovery hostTold stopped romRev romImage puf seed patchRam
    timeLock lowerUsed flash dies queues lastBound fns ring pastRing ports keys memKeys cxl mbds routers parts objs
    insts gangs procs cores clusters engines txns recs managed farArr saved xmsgs flaws windows hot lineCount grans
    tokens motions nextTxn nextId fresh moduleId agenda auto}
    (h : s.Kept q) (hm : Memory.wf mem = true) :
    ({ s with
      mem,
      time, timeRem, cycle, turnCore, timePpb, timeSlew, ppsLatch, recovery, hostTold, stopped, romRev, romImage, puf,
      seed, patchRam, timeLock, lowerUsed, flash, dies, queues, lastBound, fns, ring, pastRing, ports, keys, memKeys,
      cxl, mbds, routers, parts, objs, insts, gangs, procs, cores, clusters, engines, txns, recs, managed, farArr,
      saved, xmsgs, flaws, windows, hot, lineCount, grans, tokens, motions, nextTxn, nextId, fresh, moduleId, agenda,
      auto } : State).Kept q :=
  ⟨hm, h.idle⟩

/-- An update of other fields. -/
theorem upd
    {time timeRem cycle turnCore timePpb timeSlew ppsLatch recovery hostTold stopped romRev romImage puf seed patchRam
    timeLock lowerUsed flash dies queues lastBound fns ring pastRing ports keys memKeys cxl mbds routers parts objs
    insts gangs procs cores clusters engines txns recs managed farArr saved xmsgs flaws windows hot lineCount grans
    tokens motions nextTxn nextId fresh moduleId agenda auto}
    (h : s.Kept q) :
    ({ s with
      time, timeRem, cycle, turnCore, timePpb, timeSlew, ppsLatch, recovery, hostTold, stopped, romRev, romImage, puf,
      seed, patchRam, timeLock, lowerUsed, flash, dies, queues, lastBound, fns, ring, pastRing, ports, keys, memKeys,
      cxl, mbds, routers, parts, objs, insts, gangs, procs, cores, clusters, engines, txns, recs, managed, farArr,
      saved, xmsgs, flaws, windows, hot, lineCount, grans, tokens, motions, nextTxn, nextId, fresh, moduleId, agenda,
      auto } : State).Kept q :=
  h.put h.mem

theorem ite {c : Prop} [Decidable c] (h : s.Kept q) (g : t.Kept q) : (if c then s else t).Kept q := by
  split
  · exact h
  · exact g

/-- A branch that goes on from the state of the other one. -/
theorem iteThen {c : Prop} [Decidable c] (h : s.Kept q) (g : s.Kept q → t.Kept q) : (if c then t else s).Kept q := .ite (g h) h

theorem iteElse {c : Prop} [Decidable c] (h : s.Kept q) (g : s.Kept q → t.Kept q) : (if c then s else t).Kept q := .ite h (g h)

/-- By way of a state that is used more than once. -/
theorem via (h : s.Kept q) (g : s.Kept q → t.Kept q) : t.Kept q := g h

theorem foldl {f : State → α → State} (hf : ∀ s a, s.Kept q → (f s a).Kept q) {l : List α} (h : s.Kept q) :
    (l.foldl f s).Kept q := by
  induction l generalizing s with
  | nil => exact h
  | cons a l ih => exact ih (hf s a h)

/-- A fold that carries a state with something else. -/
theorem foldlFst {f : State × β → α → State × β} {r : State × β} (hf : ∀ r a, r.1.Kept q → (f r a).1.Kept q) {l : List α}
    (h : r.1.Kept q) : (l.foldl f r).1.Kept q := by
  induction l generalizing r with
  | nil => exact h
  | cons a l ih => exact ih (hf r a h)

theorem fstEq {r : State × β} {b : β} (h : r.1.Kept q) (e : r = (s, b)) : s.Kept q := by
  subst e
  exact h

theorem pair {b : β} (h : s.Kept q) : (s, b).1.Kept q := h

theorem getD {o : Option State} (ho : OptAll (State.Kept q) o) (h : s.Kept q) : (o.getD s).Kept q := by
  cases o with
  | none => exact h
  | some t => exact ho t rfl

/-- Where a word is in issue, memory alone is kept. -/
theorem busy {i : Issue} (h : s.Kept q) (hi : s.issue = some i) (g : s.Kept False → t.Kept False) : t.Kept q where
  mem := (g ⟨h.mem, False.elim⟩).mem
  idle hq := nomatch hi.symm.trans (h.idle hq).1

/-- The latch is emptied. -/
theorem unlatch (h : s.Kept q) : ({ s with issue := none } : State).Kept q := ⟨h.mem, fun hq => ⟨rfl, (h.idle hq).2⟩⟩

end State.Kept

namespace NextKept

theorem next (h : s.Kept q) : NextKept q (.next s) := fun _ e => by cases e; exact h

theorem ite {c : Prop} [Decidable c] {x y : Host.Outcome State Fault Refusal} (h : NextKept q x) (g : NextKept q y) :
    NextKept q (if c then x else y) := by
  split
  · exact h
  · exact g

theorem fault {f : Fault} : NextKept q (.fault f) := fun _ e => nomatch e

end NextKept

namespace OkAll

variable {P : α → Prop} {Q : β → Prop}

theorem ok {a : α} (h : P a) : OkAll P (.ok a : Except ε α) := fun _ e => by cases e; exact h

theorem error {e : ε} : OkAll P (.error e : Except ε α) := fun _ e => nomatch e

theorem bind {x : Except ε α} {f : α → Except ε β} (hx : OkAll P x) (hf : ∀ a, P a → OkAll Q (f a)) : OkAll Q (x >>= f) := by
  cases x with
  | error e => exact error
  | ok a => exact hf a (hx a rfl)

/-- A step whose result holds no state. -/
theorem pass {x : Except ε α} {f : α → Except ε β} (hf : ∀ a, OkAll Q (f a)) : OkAll Q (x >>= f) :=
  bind (P := fun _ => True) (fun _ _ => trivial) fun a _ => hf a

theorem ite {c : Prop} [Decidable c] {x y : Except ε α} (h : OkAll P x) (g : OkAll P y) : OkAll P (if c then x else y) := by
  split
  · exact h
  · exact g

theorem map {x : Except ε α} {f : α → β} (hx : OkAll P x) (hf : ∀ a, P a → Q (f a)) : OkAll Q (x.map f) := by
  cases x with
  | error e => exact error
  | ok a => exact ok (hf a (hx a rfl))

/-- A map from a value that holds no state. -/
theorem mapPass {x : Except ε α} {f : α → β} (hf : ∀ a, Q (f a)) : OkAll Q (x.map f) :=
  map (P := fun _ => True) (fun _ _ => trivial) fun a _ => hf a

theorem foldlM {f : β → α → Except ε β} (hf : ∀ b a, Q b → OkAll Q (f b a)) {l : List α} {b : β} (h : Q b) :
    OkAll Q (l.foldlM f b) := by
  induction l generalizing b with
  | nil => exact ok h
  | cons a l ih => exact bind (hf b a h) fun _ => ih

end OkAll

namespace OptAll

variable {P : α → Prop} {Q : β → Prop}

theorem none : OptAll P (.none : Option α) := fun _ e => nomatch e

theorem some {a : α} (h : P a) : OptAll P (.some a) := fun _ e => by cases e; exact h

theorem ite {c : Prop} [Decidable c] {x y : Option α} (h : OptAll P x) (g : OptAll P y) : OptAll P (if c then x else y) := by
  split
  · exact h
  · exact g

theorem or {x y : Option α} (h : OptAll P x) (g : OptAll P y) : OptAll P (x.or y) := by
  cases x with
  | none => exact g
  | some a => exact h

theorem bind {x : Option α} {f : α → Option β} (hx : OptAll P x) (hf : ∀ a, P a → OptAll Q (f a)) : OptAll Q (x >>= f) := by
  cases x with
  | none => exact none
  | some a => exact hf a (hx a rfl)

theorem map {x : Option α} {f : α → β} (hx : OptAll P x) (hf : ∀ a, P a → Q (f a)) : OptAll Q (x.map f) := by
  cases x with
  | none => exact none
  | some a => exact some (hf a (hx a rfl))

/-- A map from a value that holds no state. -/
theorem mapPass {x : Option α} {f : α → β} (hf : ∀ a, Q (f a)) : OptAll Q (x.map f) :=
  map (P := fun _ => True) (fun _ _ => trivial) fun a _ => hf a

theorem foldlM {f : β → α → Option β} (hf : ∀ b a, Q b → OptAll Q (f b a)) {l : List α} {b : β} (h : Q b) :
    OptAll Q (l.foldlM f b) := by
  induction l generalizing b with
  | nil => exact some h
  | cons a l ih => exact bind (hf b a h) fun _ => ih

theorem findSome? {f : α → Option β} (hf : ∀ a, OptAll Q (f a)) {l : List α} : OptAll Q (l.findSome? f) := by
  intro b e
  obtain ⟨a, -, ha⟩ := List.exists_of_findSome?_eq_some e
  exact hf a b ha

end OptAll

/-- A search of a list whose members are known. -/
theorem OptAll.findSomeMem? {P : β → Prop} {f : α → Option β} {l : List α} (hf : ∀ a ∈ l, OptAll P (f a)) :
    OptAll P (l.findSome? f) := by
  intro b e
  obtain ⟨a, ha, hb⟩ := List.exists_of_findSome?_eq_some e
  exact hf a ha b hb

theorem Memory.wf_ite {c : Prop} [Decidable c] {m n : List Host.Cell} (hm : Memory.wf m = true) (hn : Memory.wf n = true) :
    Memory.wf (if c then m else n) = true := by
  split
  · exact hm
  · exact hn

end Combinators

end Sys2Proof.Machine
end

section
/-! SUPPORT. What each operation of the machine keeps, in the order of the model (O57): its lemma is named after it, and its proof has the
shape of its definition. -/

namespace Sys2Proof.Machine

section Operations

variable {q : Prop} {s : State}

/-! ### Operations of `Machine/Ops` -/

theorem State.Kept.setProc {k p} (h : s.Kept q) : (s.setProc k p).Kept q :=
  .upd h

theorem State.Kept.setCore {c k} (h : s.Kept q) : (s.setCore c k).Kept q :=
  .upd h

theorem State.Kept.setPart {p q2} (h : s.Kept q) : (s.setPart p q2).Kept q :=
  .upd h

theorem State.Kept.setCluster {c k} (h : s.Kept q) : (s.setCluster c k).Kept q :=
  .upd h

theorem State.Kept.setEngine {e1 k} (h : s.Kept q) : (s.setEngine e1 k).Kept q :=
  .upd h

theorem State.Kept.setDie {d k} (h : s.Kept q) : (s.setDie d k).Kept q :=
  .upd h

theorem State.Kept.setFn {f k} (h : s.Kept q) : (s.setFn f k).Kept q :=
  .upd h

theorem State.Kept.setPort {b k} (h : s.Kept q) : (s.setPort b k).Kept q :=
  .upd h

theorem State.Kept.setMbd {k m} (h : s.Kept q) : (s.setMbd k m).Kept q :=
  .upd h

theorem State.Kept.setTxn {t v} (h : s.Kept q) : (s.setTxn t v).Kept q :=
  .upd h

theorem State.Kept.modProc {k f} (h : s.Kept q) : (s.modProc k f).Kept q :=
  .setProc h

theorem State.Kept.modCore {c f} (h : s.Kept q) : (s.modCore c f).Kept q :=
  .setCore h

theorem State.Kept.modPart {p f} (h : s.Kept q) : (s.modPart p f).Kept q :=
  .setPart h

theorem State.Kept.modInst {i f} (h : s.Kept q) : (s.modInst i f).Kept q :=
  .upd h

theorem State.Kept.modTxn {t f} (h : s.Kept q) : (s.modTxn t f).Kept q :=
  .upd h

theorem State.Kept.setChan {part ch c} (h : s.Kept q) : (s.setChan part ch c).Kept q := by
  unfold State.setChan
  exact .modPart h

theorem State.Kept.modChan {part ch f} (h : s.Kept q) : (s.modChan part ch f).Kept q := by
  unfold State.modChan
  exact .modPart h

theorem State.Kept.putSlot {part ch sender bs} (h : s.Kept q) : (s.putSlot part ch sender bs).Kept q := by
  unfold State.putSlot
  dsimp only
  split
  · exact h
  · exact .setChan (.put h (Memory.wf_writeBytes _ _ h.mem))

theorem State.Kept.newTxn {t} (h : s.Kept q) : (s.newTxn t).1.Kept q :=
  .upd h

theorem State.Kept.dropTxn {t} (h : s.Kept q) : (s.dropTxn t).Kept q :=
  .upd h

theorem State.Kept.ringDev {e1} (h : s.Kept q) : (s.ringDev e1).Kept q :=
  .upd h

theorem State.Kept.isolate {part f} (h : s.Kept q) : (s.isolate part f).Kept q := by
  unfold State.isolate
  split
  · exact .ringDev h
  · exact h

theorem State.Kept.draw (h : s.Kept q) : (s.draw).1.Kept q :=
  .upd h

theorem State.Kept.raiseFloor {k c} (h : s.Kept q) : (s.raiseFloor k c).Kept q :=
  .ite h (.modProc h)

theorem State.Kept.learn {k c} (h : s.Kept q) : (s.learn k c).Kept q :=
  .ite h (.modProc h)

theorem State.Kept.advance {n} (h : s.Kept q) : (s.advance n).Kept q :=
  .upd h

theorem State.Kept.enqueue {k h2} (h : s.Kept q) : (s.enqueue k h2).Kept q := by
  unfold State.enqueue
  exact .modCore h

theorem State.Kept.dequeue {k} (h : s.Kept q) : (s.dequeue k).Kept q := by
  unfold State.dequeue
  exact .modCore h

theorem State.Kept.leaveCtx {k} (h : s.Kept q) : (s.leaveCtx k).Kept q := by
  unfold State.leaveCtx
  dsimp only
  split
  · exact h
  · exact .modProc (.modCore h)

theorem State.Kept.freeCtx {k} (h : s.Kept q) : (s.freeCtx k).Kept q := by
  unfold State.freeCtx
  dsimp only
  split
  · exact h
  · exact .modProc (.modCore h)

theorem State.Kept.newEpisode {k} (h : s.Kept q) : (s.newEpisode k).Kept q :=
  .ite (.modInst h) h

theorem State.Kept.ready {k h2} (h : s.Kept q) : (s.ready k h2).Kept q := by
  unfold State.ready
  dsimp only
  refine .ite (.setProc (.newEpisode h)) (.ite (.iteElse (.newEpisode h) fun h1 => .setProc h1) ?_)
  exact .ite (.setProc (.newEpisode h)) (.enqueue (.setProc (.newEpisode h)))

theorem State.Kept.block {k w obj deadline} (h : s.Kept q) : (s.block k w obj deadline).Kept q :=
  .iteThen (.modProc h) fun h1 => .leaveCtx h1

theorem State.Kept.blockLate {k w obj deadline} (h : s.Kept q) : (s.blockLate k w obj deadline).Kept q := by
  unfold State.blockLate
  dsimp only
  split
  · exact .block h
  · exact .block h
  · exact .setProc (.modCore (.dequeue h))
  · exact .setProc (.modCore (.dequeue h))
  · exact .ite (.setProc h) h
  · exact h

theorem State.Kept.blockArmed {k} (h : s.Kept q) : (s.blockArmed k).Kept q :=
  .blockLate h

theorem State.Kept.unpark {k} (h : s.Kept q) : (s.unpark k).Kept q :=
  .ite (.setProc h) h

theorem State.Kept.release {k} (h : s.Kept q) : (s.release k).Kept q :=
  .setProc h

theorem State.Kept.writeImg {k} (h : s.Kept q) : (s.writeImg k).Kept q :=
  .ite h (.put h (Memory.wf_foldl _ _ (fun _ _ h1 => Memory.wf_writeBytes _ _ h1) h.mem))

theorem State.Kept.lateImg {k} (h : s.Kept q) : (s.lateImg k).Kept q :=
  .ite h (.writeImg h)

theorem State.Kept.deliver {t x d} (h : s.Kept q) : (s.deliver t x d).Kept q :=
  .unpark (.iteElse (.ite (.modInst h) (.lateImg (.setProc h))) fun h1 => .modCore h1)

theorem State.Kept.writeRec {r} (h : s.Kept q) : (s.writeRec r).1.Kept q := by
  unfold State.writeRec
  exact .modInst (.put h (Memory.wf_ite h.mem (Memory.wf_writeBytes _ _ h.mem)))

theorem State.Kept.failThread {k t loc bword} (h : s.Kept q) : (s.failThread k t loc bword).Kept q := by
  unfold State.failThread
  dsimp only
  split
  · exact h
  · refine .ite h ?_
    split
    · exact .setProc h
    · exact .modTxn (.setProc h)

theorem State.Kept.failC {t x r} (h : s.Kept q) : (s.failC t x r).Kept q :=
  .ite (.failThread h) (.modProc (.writeRec h))

theorem State.Kept.waitAgain {k} (h : s.Kept q) : (s.waitAgain k).Kept q := by
  unfold State.waitAgain
  split
  · exact .blockLate h
  · exact h

theorem State.Kept.failWait {part ch t kind addr} (h : s.Kept q) : (s.failWait part ch t kind addr).Kept q := by
  unfold State.failWait
  dsimp only
  split
  · exact .iteThen (.modChan (.dropTxn (.ite h (.failC h)))) fun h2 => .ready h2
  · exact h

theorem State.Kept.breakWait {part ch t} (h : s.Kept q) : (s.breakWait part ch t).Kept q :=
  .failWait h

theorem State.Kept.reapChan {part ch} (h : s.Kept q) : (s.reapChan part ch).Kept q := by
  unfold State.reapChan
  split
  · exact h
  · exact .ite (.modPart h) h

theorem State.Kept.closeTx {part ch k} (h : s.Kept q) : (s.closeTx part ch k).Kept q := by
  unfold State.closeTx
  dsimp only
  split
  · exact h
  · exact .iteElse (.setChan h) fun h2 => .reapChan (.ite (.foldl (fun _ _ h3 => .breakWait h3) h2) h2)

theorem State.Kept.closeRx {part ch} (h : s.Kept q) : (s.closeRx part ch).Kept q := by
  unfold State.closeRx
  dsimp only
  split
  · exact h
  · exact .reapChan (.foldl (fun _ _ h2 => .breakWait h2) (.setChan h))

theorem State.Kept.closeAll {k} (h : s.Kept q) : (s.closeAll k).Kept q :=
  .foldl (fun _ _ h1 => .iteThen (.ite (.closeTx h1) h1) fun h2 => .closeRx h2) h

theorem State.Kept.endDormants {n} (h : s.Kept q) : (s.endDormants n).Kept q := by
  induction n generalizing s with
  | zero => exact h
  | succ n ih =>
    unfold State.endDormants
    split
    · exact h
    · exact ih (.closeAll (.modProc h))

theorem State.Kept.dropAlt {k} (h : s.Kept q) : (s.dropAlt k).Kept q := by
  unfold State.dropAlt
  dsimp only
  split
  · exact h
  · exact .modProc (.modChan h)

theorem State.Kept.releaseMatrix {k} (h : s.Kept q) : (s.releaseMatrix k).Kept q :=
  .ite (.modCore h) h

theorem State.Kept.breakQueries {core} (h : s.Kept q) : (s.breakQueries core).Kept q := by
  unfold State.breakQueries
  dsimp only
  refine .foldl (fun _ _ h1 => ?_) h
  split
  · exact .ite (.ready (.dropTxn (.failC h1))) h1
  · exact h1

theorem State.Kept.freeBufs {k} (h : s.Kept q) : (s.freeBufs k).Kept q :=
  .breakQueries (.modCore h)

theorem State.Kept.dropWaits {k} (h : s.Kept q) : (s.dropWaits k).Kept q :=
  .upd (.modPart (.upd (.modCore h)))

theorem State.Kept.unschedule {k} (h : s.Kept q) : (s.unschedule k).Kept q := by
  unfold State.unschedule
  exact .modCore (.freeCtx (.dequeue h))

theorem State.Kept.dropResv {k} (h : s.Kept q) : (s.dropResv k).Kept q := by
  unfold State.dropResv
  exact .modCore h

theorem State.Kept.vacate {k dormant} (h : s.Kept q) : (s.vacate k dormant).Kept q :=
  .ite (.foldl (fun _ _ h1 => .unschedule h1) h) (.dequeue h)

theorem State.Kept.leaveTxns {k} (h : s.Kept q) : (s.leaveTxns k).Kept q :=
  .upd h

theorem State.Kept.resetBufs {k} (h : s.Kept q) : (s.resetBufs k).Kept q :=
  .breakQueries (.modCore h)

theorem State.Kept.reserveFiring {k} (h : s.Kept q) : (s.reserveFiring k).Kept q :=
  .foldl (fun _ _ h1 => .modChan h1) h

theorem State.Kept.endProc {k dormant} (h : s.Kept q) : (s.endProc k dormant).Kept q := by
  unfold State.endProc
  dsimp only
  refine .modProc (.ite ?_ ?_)
  · refine .leaveTxns ?_
    exact .vacate (.dropWaits (.freeBufs (.releaseMatrix (.iteElse (.dropAlt h) fun h1 => .closeAll h1))))
  · refine .dropResv (.leaveTxns ?_)
    exact .vacate (.dropWaits (.freeBufs (.releaseMatrix (.iteElse (.dropAlt h) fun h1 => .closeAll h1))))

theorem State.Kept.setQueue {key q2} (h : s.Kept q) : (s.setQueue key q2).Kept q :=
  .upd h

theorem State.Kept.complete {e1 st result} (h : s.Kept q) : (s.complete e1 st result).Kept q := by
  unfold State.complete
  split
  · exact h
  · exact .put h (Memory.wf_writeBytes _ _ h.mem)

theorem State.Kept.ringPart {p e2} (h : s.Kept q) : (s.ringPart p e2).Kept q := by
  unfold State.ringPart
  exact .modPart (.ite h (.put h (Memory.wf_writeBytes _ _ h.mem)))

theorem State.Kept.killInst {i} (h : s.Kept q) : (s.killInst i).Kept q := by
  unfold State.killInst
  exact .modInst (.upd (.foldl (fun _ _ h1 => .ite (.endProc h1) h1) h))

theorem State.Kept.rewriteRec {r} (h : s.Kept q) : (s.rewriteRec r).Kept q :=
  .ite h (.put h (Memory.wf_writeBytes _ _ h.mem))

theorem State.Kept.toFirmware {id} (h : s.Kept q) : (s.toFirmware id).Kept q := by
  unfold State.toFirmware
  dsimp only
  split
  · exact h
  · exact .killInst (.ringPart (.rewriteRec h))

theorem OptAll.post {part ch bs} (h : s.Kept q) : OptAll (State.Kept q) (s.post part ch bs) := by
  unfold State.post
  dsimp only
  split
  · exact .none
  · exact .ite .none (.ite (.ite (.some (.setChan (.newTxn h))) .none) (.ite .none (.some (.putSlot h))))

theorem State.Kept.toManager {id sub} (h : s.Kept q) : (s.toManager id sub).Kept q := by
  unfold State.toManager
  dsimp only
  split
  · exact h
  · split
    · exact .toFirmware (.rewriteRec (.upd h))
    · next _ e =>
      exact .upd (OptAll.ite .none (.post (.rewriteRec (.upd h))) _ e)

theorem State.Kept.escalate {id sub} (h : s.Kept q) : (s.escalate id sub).Kept q := by
  unfold State.escalate
  split
  · exact h
  · exact .ite (.toManager h) (.toFirmware h)

theorem State.Kept.route {id} (h : s.Kept q) : (s.route id).Kept q := by
  unfold State.route
  dsimp only
  split
  · exact h
  · refine .ite (.toFirmware (.upd (.foldl (fun _ _ h2 => .toFirmware h2) h))) (.ite ?_ ?_)
    · refine .toManager (.upd (.modProc ?_))
      split
      · exact .escalate h
      · exact h
    · exact .ite (.toManager h) (.ite (.modInst h) (.toManager h))

theorem State.Kept.file {r} (h : s.Kept q) : (s.file r).1.Kept q := by
  unfold State.file
  dsimp only
  refine .route (.upd ?_)
  split
  · exact .writeRec (.upd h)
  · exact .pair (.upd h)

theorem State.Kept.takeFault {k r pc} (h : s.Kept q) : (s.takeFault k r pc).Kept q :=
  .ite (.failThread h) (.file (.iteThen (.modProc (.dequeue h)) fun h1 => .leaveCtx h1))

theorem State.Kept.endHandler {k} (h : s.Kept q) : (s.endHandler k).Kept q := by
  unfold State.endHandler
  dsimp only
  refine .ite h (.modInst ?_)
  split
  · exact .escalate h
  · exact h

theorem State.Kept.deferRec {k t loc bword} (h : s.Kept q) : (s.deferRec k t loc bword).Kept q :=
  .file h

theorem State.Kept.deferToManager {k t loc bword} (h : s.Kept q) : (s.deferToManager k t loc bword).Kept q :=
  .ite (.route (.upd (.writeRec (.upd h)))) (.toManager (.upd (.writeRec (.upd h))))

theorem State.Kept.fillZero {k r} (h : s.Kept q) : (s.fillZero k r).Kept q :=
  .iteElse (.lateImg (.modProc h)) fun h1 => .modCore h1

theorem State.Kept.dispose {id d} (h : s.Kept q) : (s.dispose id d).Kept q := by
  unfold State.dispose
  extract_lets drop
  have hdrop {s : State} (h : s.Kept q) : (drop s).Kept q := .upd h
  split
  · exact h
  extract_lets k p d' mine r1 r2 _ _ s3 s4 s5 s6 _ s7 s8 _
  clear_value d'
  split
  · exact .ite (hdrop h) (.waitAgain (.ready (hdrop (.modProc (.ite (.fillZero h) h)))))
  · refine .ite (hdrop h) ?_
    have h4 : s4.Kept q := .leaveTxns (.dropWaits (.dropAlt (.upd (.resetBufs (.releaseMatrix h)))))
    have h5 : s5.Kept q := .ite (.reserveFiring h4) h4
    have h6 : s6.Kept q := .ite (.unschedule h5) h5
    have h8 : s8.Kept q := .newEpisode (hdrop (.modProc h6))
    exact .ite (.modProc h8) (.ite (.modProc h8) (.enqueue (.modProc h8)))
  · exact .endProc (.endHandler (hdrop h))
  · exact .escalate h

theorem State.Kept.raise {t} (h : s.Kept q) : (s.raise t).Kept q := by
  unfold State.raise
  split
  · exact h
  · next hi =>
    refine .busy h hi fun h => ?_
    have h1 : ({ s with issue := none, raised := some t } : State).Kept False := ⟨h.mem, False.elim⟩
    dsimp only
    split
    · exact .takeFault (.ringDev h1)
    · exact .takeFault h1

theorem State.Kept.raiseAfter {t} (h : s.Kept q) : (s.raiseAfter t).Kept q := by
  unfold State.raiseAfter
  split
  · exact h
  · next hi =>
    refine .busy h hi fun h => ?_
    have h1 : ({ s with raised := some t } : State).Kept False := ⟨h.mem, False.elim⟩
    exact .ite h (.takeFault h1)

theorem State.Kept.holdWord {w} (h : s.Kept q) : (s.holdWord w).Kept q := by
  unfold State.holdWord
  split
  · exact h
  · exact .modProc (.unlatch h)

theorem NextKept.finish {r} (h : s.Kept q) (hr : OkAll (State.Kept q) r) : NextKept q (finish s r) := by
  unfold Machine.finish
  split
  · exact .next (hr _ rfl)
  · exact .next (.raise h)
  · exact .next (.holdWord h)
  · exact .next (.unlatch h)
  · exact .fault

/-! ### Operations of `Machine/Operands` -/

theorem State.Kept.push {i w k} (h : s.Kept q) : (s.push i w k).Kept q := by
  unfold State.push
  exact .modProc h

theorem State.Kept.setFlags {i f} (h : s.Kept q) : (s.setFlags i f).Kept q := by
  unfold State.setFlags
  exact .modProc h

theorem State.Kept.issuePend {i x k} (h : s.Kept q) : (s.issuePend i x k).Kept q :=
  .setProc (.newTxn h)

theorem State.Kept.holdAtWord {i} (h : s.Kept q) : (s.holdAtWord i).Kept q := by
  unfold State.holdAtWord
  exact .modProc h

theorem State.Kept.issueOpened {i t k} (h : s.Kept q) : (s.issueOpened i t k).Kept q := by
  unfold State.issueOpened
  dsimp only
  split
  · exact .setProc (.setTxn (.modProc h))
  · exact .push (.modProc h)

theorem State.Kept.issuePend2 {i x k} (h : s.Kept q) : (s.issuePend2 i x k).Kept q :=
  .setProc (.newTxn h)

theorem State.Kept.issueQuiet {x} (h : s.Kept q) : (s.issueQuiet x).Kept q :=
  .newTxn h

theorem State.Kept.pushLater {i w fl k lat} (h : s.Kept q) : (s.pushLater i w fl k lat).Kept q :=
  .issuePend h

theorem State.Kept.takeToken {core} (h : s.Kept q) : (s.takeToken core).Kept q := by
  unfold State.takeToken
  exact .modCore h

theorem State.Kept.giveToken {core} (h : s.Kept q) : (s.giveToken core).Kept q := by
  unfold State.giveToken
  exact .modCore h

theorem OkAll.form1 {x k f} (h : s.Kept q) : OkAll (State.Kept q) (form1 s x k f) :=
  .pass fun _ => .pass fun _ => .ok (.push h)

theorem OkAll.form2 {x y k f} (h : s.Kept q) : OkAll (State.Kept q) (form2 s x y k f) :=
  .pass fun _ => .pass fun _ => .pass fun _ => .ok (.push h)

theorem OkAll.form2Later {x y k lat f} (h : s.Kept q) : OkAll (State.Kept q) (form2Later s x y k lat f) :=
  .pass fun _ => .pass fun _ => .pass fun _ => .ok (.pushLater h)

theorem OkAll.float1 {dbl x k f} (h : s.Kept q) : OkAll (State.Kept q) (float1 s dbl x k f) :=
  .pass fun _ => .pass fun _ => .ok (.setFlags (.push h))

theorem OkAll.float2 {dbl x y k f} (h : s.Kept q) : OkAll (State.Kept q) (float2 s dbl x y k f) :=
  .pass fun _ => .pass fun _ => .pass fun _ => .ok (.setFlags (.push h))

/-! ### Operations of `Machine/Integer` -/

theorem NextKept.execAdd {x y k} (h : s.Kept q) : NextKept q (execAdd x y k s) :=
  .finish h (.form2 h)

theorem NextKept.execSub {x y k} (h : s.Kept q) : NextKept q (execSub x y k s) :=
  .finish h (.form2 h)

theorem NextKept.execMul {x y k} (h : s.Kept q) : NextKept q (execMul x y k s) :=
  .finish h (.form2 h)

theorem NextKept.execMulhI64 {x y k} (h : s.Kept q) : NextKept q (execMulhI64 x y k s) :=
  .finish h (.form2 h)

theorem NextKept.execMulhN64 {x y k} (h : s.Kept q) : NextKept q (execMulhN64 x y k s) :=
  .finish h (.form2 h)

theorem NextKept.execDivI64 {x y k} (h : s.Kept q) : NextKept q (execDivI64 x y k s) :=
  .finish h (.form2Later h)

theorem NextKept.execDivN64 {x y k} (h : s.Kept q) : NextKept q (execDivN64 x y k s) :=
  .finish h (.form2Later h)

theorem NextKept.execRemI64 {x y k} (h : s.Kept q) : NextKept q (execRemI64 x y k s) :=
  .finish h (.form2Later h)

theorem NextKept.execRemN64 {x y k} (h : s.Kept q) : NextKept q (execRemN64 x y k s) :=
  .finish h (.form2Later h)

theorem NextKept.execMinI64 {x y k} (h : s.Kept q) : NextKept q (execMinI64 x y k s) :=
  .finish h (.form2 h)

theorem NextKept.execMinN64 {x y k} (h : s.Kept q) : NextKept q (execMinN64 x y k s) :=
  .finish h (.form2 h)

theorem NextKept.execMaxI64 {x y k} (h : s.Kept q) : NextKept q (execMaxI64 x y k s) :=
  .finish h (.form2 h)

theorem NextKept.execMaxN64 {x y k} (h : s.Kept q) : NextKept q (execMaxN64 x y k s) :=
  .finish h (.form2 h)

theorem NextKept.execCmpI64 {x y k} (h : s.Kept q) : NextKept q (execCmpI64 x y k s) :=
  .finish h (.form2 h)

theorem NextKept.execCmpN64 {x y k} (h : s.Kept q) : NextKept q (execCmpN64 x y k s) :=
  .finish h (.form2 h)

theorem NextKept.execAnd {x y k} (h : s.Kept q) : NextKept q (execAnd x y k s) :=
  .finish h (.form2 h)

theorem NextKept.execOr {x y k} (h : s.Kept q) : NextKept q (execOr x y k s) :=
  .finish h (.form2 h)

theorem NextKept.execXor {x y k} (h : s.Kept q) : NextKept q (execXor x y k s) :=
  .finish h (.form2 h)

theorem NextKept.execAndn {x y k} (h : s.Kept q) : NextKept q (execAndn x y k s) :=
  .finish h (.form2 h)

theorem NextKept.execShl {x y k} (h : s.Kept q) : NextKept q (execShl x y k s) :=
  .finish h (.form2 h)

theorem NextKept.execShr {x y k} (h : s.Kept q) : NextKept q (execShr x y k s) :=
  .finish h (.form2 h)

theorem NextKept.execSar {x y k} (h : s.Kept q) : NextKept q (execSar x y k s) :=
  .finish h (.form2 h)

theorem NextKept.execRol {x y k} (h : s.Kept q) : NextKept q (execRol x y k s) :=
  .finish h (.form2 h)

theorem NextKept.execSel {x y k} (h : s.Kept q) : NextKept q (execSel x y k s) :=
  .finish h (.pass fun _ => .pass fun _ => .pass fun _ => .pass fun _ => .ok (.push h))

theorem NextKept.execNeg {x k} (h : s.Kept q) : NextKept q (execNeg x k s) :=
  .finish h (.form1 h)

theorem NextKept.execAbs {x k} (h : s.Kept q) : NextKept q (execAbs x k s) :=
  .finish h (.form1 h)

theorem NextKept.execNot {x k} (h : s.Kept q) : NextKept q (execNot x k s) :=
  .finish h (.form1 h)

theorem NextKept.execClz {x k} (h : s.Kept q) : NextKept q (execClz x k s) :=
  .finish h (.form1 h)

theorem NextKept.execCtz {x k} (h : s.Kept q) : NextKept q (execCtz x k s) :=
  .finish h (.form1 h)

theorem NextKept.execPopc {x k} (h : s.Kept q) : NextKept q (execPopc x k s) :=
  .finish h (.form1 h)

theorem NextKept.execLi {imm k} (h : s.Kept q) : NextKept q (execLi imm k s) :=
  .finish h (.pass fun _ => .ok (.push h))

theorem NextKept.execLih {x imm k} (h : s.Kept q) : NextKept q (execLih x imm k s) :=
  .finish h (.form1 h)

theorem NextKept.execSext {x w k} (h : s.Kept q) : NextKept q (execSext x w k s) :=
  .finish h (.form1 h)

theorem NextKept.execZext {x w k} (h : s.Kept q) : NextKept q (execZext x w k s) :=
  .finish h (.form1 h)

theorem NextKept.execBext {x w lo k} (h : s.Kept q) : NextKept q (execBext x w lo k s) :=
  .finish h (.form1 h)

theorem NextKept.execAddi {x imm k} (h : s.Kept q) : NextKept q (execAddi x imm k s) :=
  .finish h (.form1 h)

theorem NextKept.execBins {x w lo k} (h : s.Kept q) : NextKept q (execBins x w lo k s) :=
  .finish h (.pass fun _ => .pass fun _ => .pass fun _ => .ok (.push h))

theorem NextKept.execAddpImm {x imm k} (h : s.Kept q) : NextKept q (execAddpImm x imm k s) :=
  .finish h (.pass fun _ => .pass fun _ => .pass fun _ => .ok (.push h))

theorem NextKept.execAddp {x y k} (h : s.Kept q) : NextKept q (execAddp x y k s) :=
  .finish h (.pass fun _ => .pass fun _ => .pass fun _ => .pass fun _ => .ok (.push h))

theorem NextKept.execFmtp {x y k} (h : s.Kept q) : NextKept q (execFmtp x y k s) :=
  .finish h (.pass fun _ => .pass fun _ => .pass fun _ => .pass fun _ => .ok (.push h))

theorem NextKept.execPeer {x y k} (h : s.Kept q) : NextKept q (execPeer x y k s) := by
  unfold Machine.execPeer
  refine .finish h ?_
  exact .pass fun _ => .pass fun _ => .pass fun _ => .pass fun _ => .pass fun _ => .pass fun _ => .ok (.push h)

theorem NextKept.execPtrq {x y k} (h : s.Kept q) : NextKept q (execPtrq x y k s) :=
  .finish h (.pass fun _ => .pass fun _ => .pass fun _ => .pass fun _ => .ok (.push h))

/-! ### Operations of `Machine/Address` -/

theorem State.Kept.activate {key} (h : s.Kept q) : (s.activate key).Kept q :=
  .ite h (.setMbd h)

theorem State.Kept.countHot {key} (h : s.Kept q) : (s.countHot key).Kept q :=
  .ite h (.ite h (.ite (.upd h) (.upd h)))

theorem State.Kept.countLine {key} (h : s.Kept q) : (s.countLine key).Kept q :=
  .activate (.countHot h)

theorem State.Kept.countWalk {part vpn} (h : s.Kept q) : (s.countWalk part vpn).Kept q :=
  .foldl (fun _ _ h1 => .countLine h1) h

theorem State.Kept.lookup {core part vpn} (h : s.Kept q) : (s.lookup core part vpn).1.Kept q := by
  unfold State.lookup
  dsimp only
  split
  · exact h
  · split
    · exact .pair (.modCore h)
    · split
      · exact .pair (.countWalk h)
      · exact .pair (.modCore (.setCluster (.countWalk h)))

theorem State.Kept.setD {l} (h : s.Kept q) : (s.setD l).Kept q := by
  unfold State.setD
  dsimp only
  refine .foldl (fun _ _ h1 => ?_) h
  split
  · exact h1
  · exact .put h1 (Memory.wf_writeByte _ _ h1.mem)

theorem State.Kept.mergeLog {core} (h : s.Kept q) : (s.mergeLog core).Kept q := by
  unfold State.mergeLog
  exact .modCore (.setD h)

theorem State.Kept.markDirty {core part vpn} (h : s.Kept q) : (s.markDirty core part vpn).Kept q := by
  unfold State.markDirty
  dsimp only
  split
  · exact h
  · exact .ite h (.modCore (.ite (.mergeLog h) h))

theorem State.Kept.lookupEng {u part vpn} (h : s.Kept q) : (s.lookupEng u part vpn).1.Kept q := by
  unfold State.lookupEng
  dsimp only
  split
  · exact h
  · split
    · exact .pair (.countWalk h)
    · exact .pair (.setEngine (.setD (.countWalk h)))

theorem State.Kept.dirtyEng {u part vpn} (h : s.Kept q) : (s.dirtyEng u part vpn).Kept q :=
  .setEngine h

theorem State.Kept.unitLookup {u core part vpn} (h : s.Kept q) : (s.unitLookup u core part vpn).1.Kept q := by
  unfold State.unitLookup
  split
  · exact .lookupEng h
  · exact .lookup h

theorem State.Kept.unitDirty {u core part vpn} (h : s.Kept q) : (s.unitDirty u core part vpn).Kept q := by
  unfold State.unitDirty
  split
  · exact .dirtyEng h
  · exact .markDirty h

theorem State.Kept.winWrite {k o v} (h : s.Kept q) : (s.winWrite k o v).Kept q := by
  unfold State.winWrite
  dsimp only
  split
  · exact .lateImg (.modProc h)
  · exact .lateImg (.modProc h)
  · exact .modCore h
  · exact .modCore h
  · exact h

theorem OkAll.globalPiece {a : Access} {i core k size sp off n} (h : a.st.Kept q) :
    OkAll (fun a => a.st.Kept q) (globalPiece a i core k size sp off n) := by
  unfold Machine.globalPiece
  dsimp only
  refine .ite (.ok h) (.ite .error ?_)
  split
  · exact .ite (.ok (.iteThen (.unitLookup h) fun h2 => .unitDirty h2)) (.ite (.ok (.unitLookup h)) .error)
  · exact .ite .error (.ok (.unitLookup h))
  · exact .ite (.ok (.isolate (.unitLookup h))) .error

theorem OkAll.spadPiece {a : Access} {core owner rd wr va off len} (h : a.st.Kept q) :
    OkAll (fun a => a.st.Kept q) (spadPiece a core owner rd wr va off len) := by
  unfold Machine.spadPiece
  dsimp only
  split
  · exact .error
  · exact .ok h

theorem OkAll.placeAccess {i k w sp off len} (h : s.Kept q) :
    OkAll (fun a => a.st.Kept q) (placeAccess s i k w sp off len) := by
  unfold Machine.placeAccess
  dsimp only
  refine .ite (.spadPiece h) (.ite (.spadPiece h) (.ite ?_ ?_))
  · split
    · exact .spadPiece h
    · exact .ok h
    · exact .ok h
  · exact .ite (.ok h) (.ite (.ok h) (.ite (.ok h) (.foldlM (fun _ _ h1 => .globalPiece h1) h)))

theorem OkAll.effAddr {i f k p delta len aligned} (h : s.Kept q) :
    OkAll (fun a => a.st.Kept q) (effAddr s i f k p delta len aligned) := by
  unfold Machine.effAddr
  dsimp only
  refine .pass fun _ => .pass fun _ => ?_
  exact .pass fun _ => .pass fun _ => .pass fun _ => .bind (.placeAccess h) fun _ h1 => .ite .error (.ok h1)

theorem State.Kept.watch {i rd wr l} (h : s.Kept q) : (s.watch i rd wr l).Kept q := by
  unfold State.watch
  refine .ite h ?_
  split
  · exact h
  · exact .raiseAfter h

/-! ### Operations of `Machine/Fabric` -/

theorem State.Kept.countFlit {port slot} (h : s.Kept q) : (s.countFlit port slot).Kept q := by
  unfold State.countFlit
  dsimp only
  split
  · exact .upd h
  · exact .setPort h

theorem State.Kept.emit {port slot f} (h : s.Kept q) : (s.emit port slot f).Kept q :=
  .ite h (.ite (.setPort h) (.countFlit (.setPort h)))

theorem State.Kept.flushPort {port} (h : s.Kept q) : (s.flushPort port).Kept q :=
  .foldl (fun _ _ h1 => .emit h1) (.setPort h)

theorem State.Kept.sendFab {m part msg} (h : s.Kept q) : (s.sendFab m part msg).Kept q :=
  .foldl (fun _ _ h1 => .emit h1) h

/-! ### Operations of `Machine/Queues` -/

theorem State.Kept.notify {key v} (h : s.Kept q) : (s.notify key v).Kept q :=
  .setQueue h

theorem State.Kept.writeWord1 {key v} (h : s.Kept q) : (s.writeWord1 key v).Kept q :=
  .ite (.setQueue h) (.setQueue h)

theorem State.Kept.writeBase {key v} (h : s.Kept q) : (s.writeBase key v).Kept q :=
  .ite h (.setQueue h)

theorem State.Kept.regWrite {fn off v} (h : s.Kept q) : (s.regWrite fn off v).Kept q := by
  unfold State.regWrite
  dsimp only
  split
  · exact .notify h
  · exact .writeBase h
  · exact .writeWord1 h

theorem State.Kept.regBytes {fn off bs} (h : s.Kept q) : (s.regBytes fn off bs).Kept q :=
  .iteElse (.regWrite h) fun h1 => .ite (.ite h1 h) (.regWrite h)

theorem NextKept.execNotifyWrite {fn q1 v} (h : s.Kept q) : NextKept q (execNotifyWrite fn q1 v s) :=
  .ite (.next (.notify h)) (.next h)

theorem NextKept.execQueueEnable {fn q1 w1} (h : s.Kept q) : NextKept q (execQueueEnable fn q1 w1 s) :=
  .ite (.next (.writeWord1 h)) (.next h)

theorem NextKept.execQueueDisable {fn q1} (h : s.Kept q) : NextKept q (execQueueDisable fn q1 s) :=
  .ite (.next (.setQueue h)) (.next h)

theorem NextKept.execHostRegisterWrite {fn off v} (h : s.Kept q) : NextKept q (execHostRegisterWrite fn off v s) :=
  .ite (.next h) (.ite (.next (.writeBase h)) (.next (.setQueue h)))

theorem NextKept.execQueueSlotRelease {slot} (h : s.Kept q) : NextKept q (execQueueSlotRelease slot s) := by
  unfold Machine.execQueueSlotRelease
  dsimp only
  split
  · exact .next h
  · exact .ite (.next (.setQueue h)) (.next h)

theorem NextKept.execQueueSlotBind {slot} (h : s.Kept q) : NextKept q (execQueueSlotBind slot s) := by
  unfold Machine.execQueueSlotBind
  dsimp only
  refine .ite ?_ ?_
  · split
    · exact .next h
    · exact .next (.upd (.setQueue h))
  · exact .next h

/-! ### Operations of `Machine/Home` -/

theorem State.Kept.markSeen {d l} (h : s.Kept q) : (s.markSeen d l).Kept q :=
  .upd h

theorem State.Kept.countLines {l wr} (h : s.Kept q) : (s.countLines l wr).Kept q := by
  unfold State.countLines
  refine .foldl (fun _ _ h1 => ?_) h
  split
  · exact .foldl (fun _ _ h3 => .foldl (fun _ _ h4 => .activate h4) (.countHot h3)) h1
  · exact h1

theorem State.Kept.bump {g} (h : s.Kept q) : (s.bump g).Kept q := by
  unfold State.bump
  split
  · exact h
  · exact .ite h (.upd h)

theorem State.Kept.sendMsg {src m} (h : s.Kept q) : (s.sendMsg src m).Kept q :=
  .upd (.setDie h)

theorem State.Kept.sendUpdate {w key old new} (h : s.Kept q) : (s.sendUpdate w key old new).Kept q :=
  .sendMsg h

theorem State.Kept.listBad {a bad} (h : s.Kept q) : (s.listBad a bad).Kept q :=
  .ite (.iteElse (.upd h) fun h1 => .setMbd h1) (.iteThen (.upd h) fun h1 => .ite h1 (.upd h1))

theorem State.Kept.clearLines {key len} (h : s.Kept q) : (s.clearLines key len).Kept q :=
  .foldl (fun _ _ h1 => .foldl (fun _ _ h2 => .listBad h2) h1) h

theorem State.Kept.applyBytes {w key bs} (h : s.Kept q) : (s.applyBytes w key bs).Kept q := by
  have hcopy {m : List Host.Cell} {b : Byte × Nat} {d : Option Nat} (hm : Memory.wf m = true) :
      Memory.wf (match d with | some d => writeByte m d b.1 | none => m) = true := by
    split
    · exact Memory.wf_writeByte _ _ hm
    · exact hm
  refine .ite h (.ite (.clearLines (.put h (Memory.wf_writeBytes _ _ h.mem))) (.foldl (fun _ _ h => .bump h) (.clearLines ?_)))
  refine .via (.sendUpdate h) fun h1 => .iteElse (.put h1 (Memory.wf_writeBytes _ _ h1.mem)) fun h2 => ?_
  exact .put h2 (Memory.wf_foldl _ _ (fun _ _ => hcopy) h2.mem)

theorem State.Kept.winPoke {k o bs} (h : s.Kept q) : (s.winPoke k o bs).Kept q :=
  .foldl (fun _ _ h1 => .winWrite h1) h

theorem State.Kept.applyParts {w l bs} (h : s.Kept q) : (s.applyParts w l bs).Kept q := by
  induction l generalizing s bs with
  | nil => exact h
  | cons p l ih =>
    unfold State.applyParts
    refine ih ?_
    split
    · exact .applyBytes h
    · exact h
    · exact .ite (.winWrite h) (.winPoke h)
    · exact .regBytes h

theorem State.Kept.cacheReply {t x w} (h : s.Kept q) : (s.cacheReply t x w).Kept q := by
  unfold State.cacheReply
  dsimp only
  split
  · exact h
  · exact .upd h

theorem State.Kept.uncache {t x} (h : s.Kept q) : (s.uncache t x).Kept q := by
  unfold State.uncache
  dsimp only
  split
  · exact h
  · exact .upd h

theorem State.Kept.sendWrite {t x} (h : s.Kept q) : (s.sendWrite t x).Kept q :=
  .setTxn (.sendMsg h)

theorem State.Kept.miss {x} (h : s.Kept q) : (s.miss x).Kept q :=
  .ite h (.modProc h)

theorem State.Kept.tagArrival {x past} (h : s.Kept q) : (s.tagArrival x past).Kept q :=
  .ite (.newTxn h) h

theorem State.Kept.objFlags {t f} (h : s.Kept q) : (s.objFlags t f).Kept q := by
  unfold State.objFlags
  dsimp only
  split
  · exact .modCore h
  · exact h

theorem State.Kept.giveFlags {x f} (h : s.Kept q) : (s.giveFlags x f).Kept q :=
  .ite h (.ite (.objFlags h) (.ite (.modInst h) (.modProc h)))

theorem State.Kept.askFab {t x} (h : s.Kept q) : (s.askFab t x).Kept q := by
  unfold State.askFab
  refine .foldlFst (fun _ _ h1 => ?_) h
  split
  · exact .sendFab h1
  · exact h1

theorem State.Kept.setOut {t x} (h : s.Kept q) : (s.setOut t x).Kept q :=
  .ite (.setTxn (.askFab h)) (.sendWrite h)

theorem OptAll.arm {part a} (h : s.Kept q) : OptAll (State.Kept q) (s.arm part a) :=
  .ite (.some (.setCluster h)) (.ite (.some (.modPart h)) .none)

theorem State.Kept.endWait {t status} (h : s.Kept q) : (s.endWait t status).Kept q := by
  unfold State.endWait
  dsimp only
  split
  · exact h
  · exact .iteElse (.dropTxn (.deliver h)) fun h2 => .ready h2

theorem State.Kept.wakeAll {part key sc core n past} (h : s.Kept q) : (s.wakeAll part key sc core n past).Kept q :=
  .foldl (fun _ _ h1 => .raiseFloor (.endWait (.modPart (.setCluster h1)))) h

theorem State.Kept.breakTag {x} (h : s.Kept q) : (s.breakTag x).Kept q := by
  unfold State.breakTag
  refine .foldl (fun _ _ h1 => ?_) h
  split
  · exact .setTxn h1
  · exact h1

theorem State.Kept.failLine {x t} (h : s.Kept q) : (s.failLine x t).Kept q := by
  unfold State.failLine
  exact .modTxn h

theorem State.Kept.failT {t x r} (h : s.Kept q) : (s.failT t x r).Kept q :=
  .ite (.setTxn h) (.ite (.dropTxn (.failLine h)) (.dropTxn (.breakTag (.failC h))))

theorem State.Kept.enterAt {c t} (h : s.Kept q) : (s.enterAt c t).Kept q :=
  .setCluster h

theorem State.Kept.queueAt {t l} (h : s.Kept q) : (s.queueAt t l).Kept q :=
  .foldl (fun _ _ h1 => .enterAt h1) h

theorem State.Kept.enter {t x} (h : s.Kept q) : (s.enter t x).Kept q :=
  .foldl (fun _ _ h1 => .enterAt h1) h

theorem State.Kept.leaveServers {t} (h : s.Kept q) : (s.leaveServers t).Kept q :=
  .ite (.upd h) h

theorem State.Kept.placeFar {t x} (h : s.Kept q) : (s.placeFar t x).Kept q := by
  unfold State.placeFar
  dsimp only
  split
  · exact h
  · split
    · exact .sendFab (.dropTxn (.foldl (fun _ _ h3 => .countWalk h3) h))
    · exact .sendFab (.dropTxn (.isolate (.foldl (fun _ _ h3 => .countWalk h3) h)))
    · exact .setTxn (.iteThen (.foldl (fun _ _ h3 => .countWalk h3) h) fun h3 => .setD h3)

theorem State.Kept.answerFar {t x f} (h : s.Kept q) : (s.answerFar t x f).Kept q := by
  unfold State.answerFar
  split
  · exact .ite h (.sendFab (.dropTxn h))
  · exact .sendFab (.dropTxn h)
  · exact h

theorem State.Kept.failRead {t x va} (h : s.Kept q) : (s.failRead t x va).Kept q :=
  .setTxn h

theorem State.Kept.upsetRead {h1 l} (h : s.Kept q) : (s.upsetRead h1 l).1.Kept q := by
  unfold State.upsetRead
  dsimp only
  split
  · exact h
  · exact .pair (.upd h)

theorem State.Kept.serveRead {t x h3} (h : s.Kept q) : (s.serveRead t x h3).Kept q := by
  unfold State.serveRead
  dsimp only
  split
  · exact .failRead (.upsetRead h)
  · refine .ite (.failRead (.upsetRead h)) (.ite ?_ ?_)
    · exact .iteElse (.upsetRead h) fun h2 => .setTxn (.learn (.countLines h2))
    · exact .setTxn (.learn (.countLines (.upsetRead h)))

theorem State.Kept.endWrite {t x fl} (h : s.Kept q) : (s.endWrite t x fl).Kept q :=
  .ite (.setTxn h) (.tagArrival (.dropTxn (.giveFlags (.miss h))))

theorem State.Kept.serveStore {t x l bs h5} (h : s.Kept q) : (s.serveStore t x l bs h5).Kept q := by
  unfold State.serveStore
  dsimp only
  refine .ite (.endWrite (.applyParts h)) (.ite ?_ ?_)
  · refine .setTxn (.foldl (fun _ _ h1 => ?_) h)
    split
    · exact .applyParts h1
    · exact h1
  · refine .endWrite (.foldl (fun _ _ h1 => ?_) ?_)
    · split
      · exact .clearLines h1
      · exact h1
    · refine .foldl (fun _ _ h1 => ?_) h
      split
      · exact .applyParts h1
      · exact h1

theorem State.Kept.endRed {t x fl} (h : s.Kept q) : (s.endRed t x fl).Kept q :=
  .endWrite (.ite (.cacheReply h) h)

theorem State.Kept.serveWrite {t x v} (h : s.Kept q) : (s.serveWrite t x v).Kept q := by
  unfold State.serveWrite
  split
  · exact .endWrite h
  · exact .failT h
  · extract_lets r s1 c
    have h1 : s1.Kept q := by
      dsimp only [s1, r]
      split
      · exact .upsetRead h
      · exact h
    have hc : c.Kept q := .countLines h1
    refine .ite (.failT h1) ?_
    split
    · exact .serveStore hc
    · exact .endRed (.applyParts hc)
    · exact .endRed (.applyParts hc)
    · exact h1

theorem State.Kept.serveMerged {t x more ok} (h : s.Kept q) : (s.serveMerged t x more ok).Kept q := by
  unfold State.serveMerged
  dsimp only
  refine .ite (.foldl (fun _ _ h1 => .failT h1) h) ?_
  split
  · exact .foldl (fun _ _ h2 => .endRed h2) (.applyParts (.countLines h))
  · exact .foldl (fun _ _ h2 => .endRed h2) (.foldlFst (fun _ _ h2 => .applyParts h2) (.countLines h))
  · exact h

theorem State.Kept.combine {x} (h : s.Kept q) : (s.combine x).Kept q :=
  .ite h (.foldl (fun _ _ h1 => .ite (.serveWrite h1) h1) h)

theorem State.Kept.serveAtomic {t x} (h : s.Kept q) : (s.serveAtomic t x).Kept q := by
  unfold State.serveAtomic
  dsimp only
  split
  · exact .setTxn h
  · exact .setTxn h
  · split
    · exact .setTxn (.cacheReply (.applyParts (.learn (.markSeen (.miss (.countLines h))))))
    · exact .setTxn (.cacheReply (.iteThen (.learn (.markSeen (.miss (.countLines h)))) fun h3 => .applyParts h3))
    · exact h

theorem State.Kept.serveArm {t x h3} (h : s.Kept q) : (s.serveArm t x h3).Kept q := by
  unfold State.serveArm
  dsimp only
  split
  · split
    · exact .setTxn (.miss (.upsetRead h))
    · refine .ite (.setTxn (.raiseFloor (.learn (.markSeen (.countLines (.miss (.upsetRead h))))))) ?_
      split
      · next _ e =>
        exact .blockArmed (.setTxn (.upd (OptAll.arm (.countLines (.miss (.upsetRead h))) _ e)))
      · exact .setTxn (.countLines (.miss (.upsetRead h)))
  · exact h

theorem State.Kept.serveWake {t x} (h : s.Kept q) : (s.serveWake t x).Kept q := by
  unfold State.serveWake
  split
  · exact .dropTxn (.wakeAll h)
  · exact h

/-! ### Operations of `Machine/Memory` -/

theorem State.Kept.logSide {k e2} (h : s.Kept q) : (s.logSide k e2).Kept q := by
  unfold State.logSide
  dsimp only
  split
  · exact .setEngine h
  · exact .modCore h

theorem State.Kept.holdAccess {a : Access} {i t} (h : s.Kept q) (_ : a.st.Kept q) : (s.holdAccess i a t).Kept q :=
  .ite (.modProc h) h

theorem State.Kept.afterLoad {a : Access} {i t} (h : s.Kept q) (h2 : a.st.Kept q) : (s.afterLoad i a t).Kept q :=
  .watch (.holdAccess h h2)

theorem State.Kept.issueWrite {a : Access} {i k op size} (h : s.Kept q) (h2 : a.st.Kept q) :
    (s.issueWrite i a k op size).Kept q := by
  unfold State.issueWrite
  dsimp only
  split
  · exact .holdAccess (.issueQuiet h) h2
  · exact .ite (.issueQuiet h) (.deferToManager (.logSide (.issueQuiet h)))

theorem OkAll.loadOne {i t p delta k} (h : s.Kept q) : OkAll (State.Kept q) (loadOne s i t p delta k) :=
  .bind (.effAddr h) fun _ h1 => .ok (.afterLoad (.issuePend h1) h1)

theorem OkAll.loadTwo {i p delta} (h : s.Kept q) : OkAll (State.Kept q) (loadTwo s i p delta) :=
  .bind (.effAddr h) fun _ h1 => .ok (.afterLoad (.issuePend2 h1) h1)

theorem NextKept.execLd {t b k d} (h : s.Kept q) : NextKept q (execLd t b k d s) :=
  .finish h (.pass fun _ => .pass fun _ => .loadOne h)

theorem NextKept.execLd128 {b d} (h : s.Kept q) : NextKept q (execLd128 b d s) :=
  .finish h (.pass fun _ => .pass fun _ => .loadTwo h)

theorem NextKept.execLdx {t x y k} (h : s.Kept q) : NextKept q (execLdx t x y k s) := by
  unfold Machine.execLdx
  refine .finish h (.pass fun _ => .pass fun _ => .pass fun _ => ?_)
  split
  · exact .loadOne h
  · exact .loadTwo h

theorem OkAll.storeOne {i t p delta v} (h : s.Kept q) : OkAll (State.Kept q) (storeOne s i t p delta v) :=
  .bind (.effAddr h) fun _ h1 => .ok (.watch (.issueWrite h1 h1))

theorem NextKept.execSt {t b y d} (h : s.Kept q) : NextKept q (execSt t b y d s) :=
  .finish h (.pass fun _ => .pass fun _ => .pass fun _ => .storeOne h)

theorem NextKept.execStx {t x y z} (h : s.Kept q) : NextKept q (execStx t x y z s) :=
  .finish h (.pass fun _ => .pass fun _ => .pass fun _ => .pass fun _ => .storeOne h)

theorem OkAll.prefetch {b} (h : s.Kept q) : OkAll (State.Kept q) (prefetch s b) :=
  .pass fun _ => .pass fun _ => .ok h

theorem NextKept.execPrfR {b _d} (h : s.Kept q) : NextKept q (execPrfR b _d s) :=
  .finish h (.prefetch h)

theorem NextKept.execPrfW {b _d} (h : s.Kept q) : NextKept q (execPrfW b _d s) :=
  .finish h (.prefetch h)

theorem NextKept.execAtom {op x y k} (h : s.Kept q) : NextKept q (execAtom op x y k s) := by
  unfold Machine.execAtom
  refine .finish h (.pass fun _ => .pass fun _ => ?_)
  exact .pass fun _ => .bind (.effAddr h) fun _ h1 => .ok (.watch (.holdAccess (.issuePend h1) h1))

theorem NextKept.execAtomCas {wide x y z} (h : s.Kept q) : NextKept q (execAtomCas wide x y z s) := by
  unfold Machine.execAtomCas
  refine .finish h (.pass fun _ => .pass fun _ => .pass fun _ => ?_)
  exact .pass fun _ => .bind (.effAddr h) fun _ h1 => .ok (.watch (.holdAccess (.issuePend h1) h1))

theorem NextKept.execRed {op x y} (h : s.Kept q) : NextKept q (execRed op x y s) := by
  unfold Machine.execRed
  refine .finish h (.pass fun _ => ?_)
  exact .pass fun _ => .pass fun _ => .bind (.effAddr h) fun _ h1 => .ok (.watch (.issueWrite h1 h1))

theorem NextKept.execRedx {int x y} (h : s.Kept q) : NextKept q (execRedx int x y s) := by
  unfold Machine.execRedx
  refine .finish h (.pass fun _ => .pass fun _ => ?_)
  exact .pass fun _ => .pass fun _ => .bind (.effAddr h) fun _ h1 => .ok (.watch (.issueWrite h1 h1))

theorem State.Kept.addFence {k kind sc} (h : s.Kept q) : (s.addFence k kind sc).Kept q := by
  unfold State.addFence
  exact .modProc h

theorem NextKept.execFence {k sc} (h : s.Kept q) : NextKept q (execFence k sc s) :=
  .finish h (.pass fun _ => .ok (.addFence h))

theorem NextKept.execWaita {wide x y k} (h : s.Kept q) : NextKept q (execWaita wide x y k s) := by
  unfold Machine.execWaita
  exact .finish h (.pass fun _ => .pass fun _ => .pass fun _ => .bind (.effAddr h) fun _ h1 => .ok (.issuePend h1))

theorem NextKept.execWake {sc x y} (h : s.Kept q) : NextKept q (execWake sc x y s) := by
  unfold Machine.execWake
  refine .finish h (.pass fun _ => ?_)
  exact .pass fun _ => .pass fun _ => .bind (.effAddr h) fun _ h1 => .ok (.issueQuiet (.addFence h1))

theorem NextKept.execSched {k} (h : s.Kept q) : NextKept q (execSched k s) := by
  unfold Machine.execSched
  dsimp only
  refine .finish h (.pass fun _ => .ite (.ok (.pushLater h)) (.ite .error ?_))
  split
  · exact .ok (.issuePend (.lookup (.modProc h)))
  · exact .ok (.issuePend (.isolate (.lookup (.modProc h))))

theorem State.Kept.settleTxn {x} (h : s.Kept q) : (s.settleTxn x).Kept q :=
  .ite (.giveToken h) h

theorem State.Kept.arrive {t} (h : s.Kept q) : (s.arrive t).Kept q := by
  unfold State.arrive
  dsimp only
  split
  · exact h
  · split
    · exact .answerFar h
    · refine .ite h ?_
      split
      · exact .iteThen (.dropTxn (.deliver (.settleTxn (.uncache (.ite (.miss h) h))))) fun h4 => .ready h4
      · exact .unpark (.iteThen (.dropTxn (.failC (.settleTxn (.uncache h)))) fun h4 => .ready h4)
      · split
        · exact .dropTxn (.deliver (.settleTxn h))
        · exact h
      · exact h

theorem NextKept.execHomeWriteApply {v} (h : s.Kept q) : NextKept q (execHomeWriteApply v s) := by
  unfold Machine.execHomeWriteApply
  dsimp only
  split
  · exact .next h
  · refine .ite (.next h) (.ite ?_ ?_)
    · split
      · exact .ite (.next (.combine (.serveWrite h))) (.ite (.next (.serveMerged h)) (.next h))
      · exact .next (.serveWrite h)
    · exact .ite (.next (.setOut h)) (.ite (.next (.placeFar h)) (.ite (.next (.enter h)) (.next h)))

theorem NextKept.execHomeAtomicApply {v} (h : s.Kept q) : NextKept q (execHomeAtomicApply v s) := by
  unfold Machine.execHomeAtomicApply
  dsimp only
  split
  · exact .next h
  · refine .ite (.next h) (.ite ?_ ?_)
    · refine .ite ?_ ?_
      · refine .next (.failRead ?_)
        split
        · exact .upsetRead h
        · exact h
      · refine .next (.serveAtomic ?_)
        split
        · exact .upsetRead h
        · exact h
    · exact .ite (.next (.setOut h)) (.ite (.next (.placeFar h)) (.ite (.next (.enter h)) (.next h)))

theorem NextKept.execWindowWriteLand {t} (h : s.Kept q) : NextKept q (execWindowWriteLand t s) := by
  unfold Machine.execWindowWriteLand
  dsimp only
  split
  · exact .next h
  · refine .ite (.next h) ?_
    exact .ite (.ite (.next (.dropTxn h)) (.next (.serveWrite h))) (.ite (.next (.setOut h)) (.next h))

theorem NextKept.execHeldAccessProceed {k} (h : s.Kept q) : NextKept q (execHeldAccessProceed k s) := by
  unfold Machine.execHeldAccessProceed
  dsimp only
  split
  · exact .ite (.next h) (.ite (.next (.modProc h)) (.next (.release h)))
  · exact .ite (.next (.release h)) (.next h)
  · exact .next h

theorem NextKept.execCrossDieMessageApply {d src} (h : s.Kept q) :
    NextKept q (execCrossDieMessageApply d src s) := by
  unfold Machine.execCrossDieMessageApply
  dsimp only
  split
  · exact .next h
  · exact .ite (.next (.upd (.setDie h))) (.next h)

/-! ### Operations of `Machine/Sync` -/

theorem State.Kept.setPhase {part slot f} (h : s.Kept q) : (s.setPhase part slot f).Kept q := by
  unfold State.setPhase
  exact .modPart h

theorem State.Kept.loadForeign {part slot d} (h : s.Kept q) : (s.loadForeign part slot d).Kept q := by
  unfold State.loadForeign
  refine .ite (.sendFab h) ?_
  split
  · exact .setPhase h
  · exact h

theorem State.Kept.loadPhase {part slot} (h : s.Kept q) : (s.loadPhase part slot).Kept q := by
  unfold State.loadPhase
  dsimp only
  split
  · exact h
  · exact .foldl (fun _ _ h2 => .ite h2 (.loadForeign h2)) (.setPhase h)

theorem State.Kept.riseLine {part slot} (h : s.Kept q) : (s.riseLine part slot).Kept q := by
  unfold State.riseLine
  dsimp only
  split
  · exact h
  · refine .ite h (.ite (.loadPhase (.foldl (fun _ _ h2 => .ready (.raiseFloor (.addFence h2))) (.setPhase h))) ?_)
    exact .foldl (fun _ _ h2 => .ready (.raiseFloor (.addFence h2))) (.setPhase h)

theorem OptAll.countDown {part slot i past} (h : s.Kept q) :
    OptAll (State.Kept q) (s.countDown part slot i past) := by
  unfold State.countDown
  dsimp only
  split
  · exact .none
  · split
    · exact .none
    · exact .ite .none (.some (.riseLine (.setPhase h)))

theorem State.Kept.sendArrival {part slot d who} (h : s.Kept q) : (s.sendArrival part slot d who).Kept q :=
  .sendFab (.upd h)

theorem OptAll.arriveAt {part slot dest past who} (h : s.Kept q) :
    OptAll (State.Kept q) (s.arriveAt part slot dest past who) := by
  unfold State.arriveAt
  split
  · exact .none
  · split
    · exact .none
    · refine .ite (.countDown h) (.ite (.some (.sendArrival h)) ?_)
      split
      · exact .none
      · exact .countDown h

theorem NextKept.execPhaseArrivalCount {t} (h : s.Kept q) : NextKept q (execPhaseArrivalCount t s) := by
  unfold Machine.execPhaseArrivalCount
  dsimp only
  split
  · exact .next h
  · split
    · refine .ite (.next h) ?_
      split
      · next _ e =>
        exact .next (OptAll.ite (.arriveAt (.dropTxn h)) .none _ e)
      · exact .next (.deferRec (.dropTxn h))
    · exact .next h

theorem NextKept.execRemotePhaseLoad {part slot count} (h : s.Kept q) :
    NextKept q (execRemotePhaseLoad part slot count s) := by
  unfold Machine.execRemotePhaseLoad
  split
  · exact .next (.riseLine (.setPhase h))
  · exact .next h

theorem NextKept.execArrive {t d} (h : s.Kept q) : NextKept q (execArrive t d s) :=
  .finish h (.pass fun _ => .pass fun _ => .pass fun _ => .ok (.issueQuiet (.addFence h)))

theorem OkAll.waitLine {slot reload} (h : s.Kept q) : OkAll (State.Kept q) (waitLine s slot reload) := by
  unfold Machine.waitLine
  dsimp only
  refine .pass fun _ => .pass fun _ => ?_
  exact .ite (.ok (.iteThen (.raiseFloor (.addFence h)) fun h1 => .loadPhase h1)) (.ok (.block (.setPhase h)))

theorem NextKept.execPwait {t} (h : s.Kept q) : NextKept q (execPwait t s) :=
  .finish h (.waitLine h)

theorem NextKept.execPhase {t} (h : s.Kept q) : NextKept q (execPhase t s) :=
  .finish h (.waitLine h)

theorem NextKept.execTime {k} (h : s.Kept q) : NextKept q (execTime k s) :=
  .finish h (.pass fun _ => .ok (.push h))

theorem NextKept.execWaitt {x} (h : s.Kept q) : NextKept q (execWaitt x s) :=
  .finish h (.pass fun _ => .pass fun _ => .ite (.ok h) (.ok (.block h)))

/-! ### Operations of `Machine/Buffers` -/

theorem State.Kept.pokeBufs {core} (h : s.Kept q) : (s.pokeBufs core).Kept q := by
  unfold State.pokeBufs
  refine .foldl (fun _ _ h1 => ?_) h
  split
  · split
    · exact .ite (.ready (.dropTxn (.deliver h1))) h1
    · exact h1
  · exact h1

theorem State.Kept.retire {core t incoming lo len} (h : s.Kept q) : (s.retire core t incoming lo len).Kept q :=
  .pokeBufs (.breakQueries (.modCore h))

theorem OkAll.declare {x y slot} (h : s.Kept q) : OkAll (State.Kept q) (declare s x y slot) := by
  unfold Machine.declare
  dsimp only
  refine .pass fun _ => .pass fun _ => .pass fun _ => .pass fun _ => .pass fun _ => ?_
  exact .pass fun _ => .pass fun _ => .pass fun _ => .pass fun _ => .pass fun _ => .ok (.push (.modCore h))

theorem NextKept.execBdeclLin {x y} (h : s.Kept q) : NextKept q (execBdeclLin x y s) :=
  .finish h (.declare h)

theorem NextKept.execBdeclRing {x y z} (h : s.Kept q) : NextKept q (execBdeclRing x y z s) :=
  .finish h (.declare h)

theorem OkAll.bstate {x f} (h : s.Kept q) : OkAll (State.Kept q) (bstate s x f) := by
  unfold Machine.bstate
  refine .pass fun _ => .pass fun _ => .pass fun _ => .pass fun _ => ?_
  split
  · exact .error
  · exact .ok (.pokeBufs (.modCore h))

theorem NextKept.execBstateOpen {x} (h : s.Kept q) : NextKept q (execBstateOpen x s) :=
  .finish h (.bstate h)

theorem NextKept.execBstateSeal {x} (h : s.Kept q) : NextKept q (execBstateSeal x s) :=
  .finish h (.bstate h)

theorem NextKept.execBstateRel {x} (h : s.Kept q) : NextKept q (execBstateRel x s) :=
  .finish h (.bstate h)

theorem NextKept.execBquery {x k} (h : s.Kept q) : NextKept q (execBquery x k s) :=
  .finish h (.pass fun _ => .pass fun _ => .pass fun _ => .ok (.push h))

theorem NextKept.execBqueryW {x k} (h : s.Kept q) : NextKept q (execBqueryW x k s) := by
  unfold Machine.execBqueryW
  dsimp only
  refine .finish h ?_
  exact .pass fun _ => .pass fun _ => .pass fun _ => .ite (.ok (.pushLater h)) (.ok (.block (.issuePend h)))

/-! ### Operations of `Machine/Channels` -/

theorem State.Kept.leaveQueue {ch t x} (h : s.Kept q) : (s.leaveQueue ch t x).Kept q := by
  unfold State.leaveQueue
  exact .modChan h

theorem State.Kept.expireOp {t} (h : s.Kept q) : (s.expireOp t).Kept q := by
  unfold State.expireOp
  dsimp only
  split
  · exact h
  · split
    · exact .ite (.setTxn (.leaveQueue h)) h
    · exact .ite (.setTxn (.leaveQueue h)) h
    · exact .ite (.setTxn (.leaveQueue h)) h
    · exact .ite (.setTxn (.leaveQueue h)) h
    · exact h

theorem State.Kept.expireDue {part ch} (h : s.Kept q) : (s.expireDue part ch).Kept q := by
  unfold State.expireDue
  split
  · exact h
  · exact .foldl (fun _ _ h2 => .expireOp h2) h

theorem State.Kept.letGo {k} (h : s.Kept q) : (s.letGo k).Kept q := by
  unfold State.letGo
  split
  · exact h
  · exact .expireDue (.dropAlt h)

theorem State.Kept.nextOp {k ch rx} (h : s.Kept q) : (s.nextOp k ch rx).Kept q := by
  unfold State.nextOp
  split
  · exact h
  · exact .ite (.modProc h) (.letGo h)

theorem State.Kept.launchOp {i ch h3 rx t timed} (h : s.Kept q) : (s.launchOp i ch h3 rx t timed).Kept q := by
  unfold State.launchOp
  dsimp only
  split
  · exact h
  · exact .iteThen (.modTxn (.setChan h)) fun h2 => .block h2

theorem State.Kept.blockOp {part ch t} (h : s.Kept q) : (s.blockOp part ch t).Kept q := by
  unfold State.blockOp
  split
  · refine .ite h (.ite ?_ ?_)
    · split
      · exact .sendFab h
      · exact h
    · exact .blockLate (.setTxn h)
  · exact h

theorem State.Kept.issueSend {i x timed k} (h : s.Kept q) : (s.issueSend i x timed k).Kept q :=
  .ite (.issuePend h) (.issueQuiet h)

theorem OkAll.sendForm {x y timed k} (h : s.Kept q) : OkAll (State.Kept q) (sendForm s x y timed k) := by
  unfold Machine.sendForm
  dsimp only
  refine .pass fun _ => .pass fun _ => .pass fun _ => ?_
  exact .pass fun _ => .pass fun _ => .pass fun _ => .pass fun _ => .ok (.launchOp (.issueSend h))

theorem NextKept.execSend {x y} (h : s.Kept q) : NextKept q (execSend x y s) :=
  .finish h (.sendForm h)

theorem NextKept.execSendT {x y k} (h : s.Kept q) : NextKept q (execSendT x y k s) :=
  .finish h (.sendForm h)

theorem OkAll.recvForm {x timed k} (h : s.Kept q) : OkAll (State.Kept q) (recvForm s x timed k) := by
  unfold Machine.recvForm
  dsimp only
  refine .pass fun _ => .pass fun _ => ?_
  exact .pass fun _ => .pass fun _ => .pass fun _ => .pass fun _ => .ok (.launchOp (.setProc (.newTxn h)))

theorem NextKept.execRecv {x k} (h : s.Kept q) : NextKept q (execRecv x k s) :=
  .finish h (.recvForm h)

theorem NextKept.execRecvT {x k} (h : s.Kept q) : NextKept q (execRecvT x k s) :=
  .finish h (.recvForm h)

theorem OkAll.tileForm {x y rx timed k} (h : s.Kept q) : OkAll (State.Kept q) (tileForm s x y rx timed k) := by
  unfold Machine.tileForm
  dsimp only
  refine .pass fun _ => .pass fun _ => .pass fun _ => .pass fun _ => ?_
  exact .pass fun _ => .pass fun _ => .pass fun _ => .pass fun _ => .ok (.launchOp (.issueSend h))

theorem NextKept.execSendt {x y} (h : s.Kept q) : NextKept q (execSendt x y s) :=
  .finish h (.tileForm h)

theorem NextKept.execSendtT {x y k} (h : s.Kept q) : NextKept q (execSendtT x y k s) :=
  .finish h (.tileForm h)

theorem NextKept.execRecvt {x y} (h : s.Kept q) : NextKept q (execRecvt x y s) :=
  .finish h (.tileForm h)

theorem NextKept.execRecvtT {x y k} (h : s.Kept q) : NextKept q (execRecvtT x y k s) :=
  .finish h (.tileForm h)

theorem State.Kept.startSide {t x} (h : s.Kept q) : (s.startSide t x).Kept q := by
  unfold State.startSide
  split
  · exact h
  · split
    · exact h
    · exact .setCore h

theorem State.Kept.matchPair {ch t x r y} (h : s.Kept q) : (s.matchPair ch t x r y).Kept q := by
  unfold State.matchPair
  dsimp only
  refine .setTxn (.setTxn ?_)
  exact .iteThen (.raiseFloor (.startSide (.startSide (.leaveQueue (.leaveQueue h))))) fun h1 => .raiseFloor h1

theorem State.Kept.putMsg {ch t x} (h : s.Kept q) : (s.putMsg ch t x).Kept q :=
  .setTxn (.modChan (.putSlot (.startSide (.leaveQueue h))))

theorem State.Kept.takeMsg {ch r y bs} (h : s.Kept q) : (s.takeMsg ch r y bs).Kept q :=
  .setTxn (.modChan (.raiseFloor (.startSide (.leaveQueue h))))

theorem State.Kept.startAlone {ch t x} (h : s.Kept q) : (s.startAlone ch t x).Kept q :=
  .setTxn (.modChan (.startSide (.leaveQueue h)))

theorem State.Kept.blockFar {t} (h : s.Kept q) : (s.blockFar t).Kept q := by
  unfold State.blockFar
  split
  · exact .ite h (.blockLate (.setTxn h))
  · exact h

theorem State.Kept.sendRemote {ch t x c} (h : s.Kept q) : (s.sendRemote ch t x c).Kept q :=
  .iteThen (.setTxn (.sendFab (.startSide (.leaveQueue h)))) fun h1 => .blockFar h1

theorem OptAll.sideFault {part ch t x} (h : s.Kept q) : OptAll (State.Kept q) (s.sideFault part ch t x) :=
  .ite (.some (.failWait h)) (.mapPass fun _ => .failWait h)

theorem OptAll.chanStep {part ch} (h : s.Kept q) : OptAll (State.Kept q) (s.chanStep part ch) := by
  unfold State.chanStep
  dsimp only
  split
  · exact .none
  · split
    · exact .some (.breakWait h)
    · split
      · refine .ite (.or (.sideFault h) (.ite (.some (.startAlone h)) .none)) (.ite ?_ ?_)
        · split
          · exact .some (.failWait h)
          · exact .or (.sideFault h) (.ite (.some (.takeMsg h)) .none)
        · split
          · exact .none
          · exact .or (.or (.sideFault h) (.sideFault h)) (.ite (.some (.matchPair h)) .none)
      · exact .or (.sideFault h) (.ite (.some (.ite (.startAlone h) (.sendRemote h))) .none)
      · split
        · exact .none
        · exact .or (.sideFault h) (.ite (.some (.putMsg h)) .none)

theorem State.Kept.settleChan {part ch n} (h : s.Kept q) : (s.settleChan part ch n).Kept q := by
  induction n generalizing s with
  | zero => exact h
  | succ n ih =>
    unfold State.settleChan
    split
    · next e => exact ih (OptAll.chanStep h _ e)
    · exact h

theorem State.Kept.pumpChan {part ch} (h : s.Kept q) : (s.pumpChan part ch).Kept q := by
  unfold State.pumpChan
  split
  · exact h
  · exact .settleChan h

theorem State.Kept.pumpAll (h : s.Kept q) : (s.pumpAll).Kept q :=
  .foldl (fun _ _ h1 => .foldl (fun _ _ h2 => .ite h2 (.pumpChan h2)) h1) h

theorem State.Kept.takeGuard {k h2} (h : s.Kept q) : (s.takeGuard k h2).Kept q := by
  unfold State.takeGuard
  dsimp only
  split
  · exact h
  · exact .ite (.modProc (.setChan h)) h

theorem State.Kept.endAlt {t x w} (h : s.Kept q) : (s.endAlt t x w).Kept q :=
  .setTxn (.modProc h)

theorem State.Kept.altWaits {t x} (h : s.Kept q) : (s.altWaits t x).Kept q :=
  .blockLate (.setTxn (.modProc h))

theorem State.Kept.tryAlt {t x} (h : s.Kept q) : (s.tryAlt t x).Kept q := by
  unfold State.tryAlt
  dsimp only
  split
  · exact .endAlt (.takeGuard h)
  · split
    · exact .ite (.endAlt h) (.altWaits h)
    · exact .altWaits h

theorem State.Kept.wakeAlts (h : s.Kept q) : (s.wakeAlts).Kept q := by
  unfold State.wakeAlts
  dsimp only
  refine .foldl (fun _ _ h1 => ?_) (.endDormants h)
  split
  · split
    · exact h1
    · exact .endAlt (.takeGuard h1)
  · exact h1

theorem State.Kept.chanChanged {part ch} (h : s.Kept q) : (s.chanChanged part ch).Kept q :=
  .wakeAlts (.pumpChan h)

theorem State.Kept.issueOrder {i} (h : s.Kept q) : (s.issueOrder i).Kept q :=
  .issueQuiet h

theorem NextKept.execAltg {g x} (h : s.Kept q) : NextKept q (execAltg g x s) :=
  .finish h (.pass fun _ => .pass fun _ => .pass fun _ => .pass fun _ => .ok (.issueOrder (.modProc h)))

theorem OkAll.altForm {timed k} (h : s.Kept q) : OkAll (State.Kept q) (altForm s timed k) :=
  .pass fun _ => .pass fun _ => .ok (.modProc (.issuePend h))

theorem State.Kept.startAlt {t x} (h : s.Kept q) : (s.startAlt t x).Kept q :=
  .tryAlt (.pumpAll (.letGo h))

theorem NextKept.execAlt {k} (h : s.Kept q) : NextKept q (execAlt k s) :=
  .finish h (.altForm h)

theorem NextKept.execAltT {k} (h : s.Kept q) : NextKept q (execAltT k s) :=
  .finish h (.altForm h)

theorem NextKept.execChopen {x y k} (h : s.Kept q) : NextKept q (execChopen x y k s) := by
  unfold Machine.execChopen
  exact .finish h (.pass fun _ => .pass fun _ => .pass fun _ => .pass fun _ => .pass fun _ => .ok (.issuePend h))

theorem State.Kept.openChan {t x ty depth} (h : s.Kept q) : (s.openChan t x ty depth).Kept q :=
  .ite (.setTxn (.ite h (.upd h))) (.setTxn (.setChan (.ite h (.upd h))))

theorem NextKept.execChclose {x} (h : s.Kept q) : NextKept q (execChclose x s) := by
  unfold Machine.execChclose
  dsimp only
  refine .finish h (.pass fun _ => ?_)
  exact .pass fun _ => .pass fun _ => .pass fun _ => .pass fun _ => .ok (.modChan (.issueQuiet h))

theorem NextKept.execChinfo {x k} (h : s.Kept q) : NextKept q (execChinfo x k s) :=
  .finish h (.pass fun _ => .pass fun _ => .pass fun _ => .pass fun _ => .ok (.modChan (.issuePend h)))

theorem NextKept.execChbind {x y k} (h : s.Kept q) : NextKept q (execChbind x y k s) := by
  unfold Machine.execChbind
  dsimp only
  refine .finish h (.pass fun _ => .pass fun _ => .pass fun _ => .pass fun _ => .pass fun _ => .pass fun _ => ?_)
  refine .pass fun _ => .bind (.effAddr h) fun _ h1 => ?_
  exact .pass fun _ => .ok (.afterLoad (.modChan (.issuePend (.issueQuiet h1))) h1)

theorem State.Kept.takeBinding {t x b} (h : s.Kept q) : (s.takeBinding t x b).Kept q := by
  unfold State.takeBinding
  dsimp only
  split
  · exact .dropTxn (.uncache h)
  · exact .dropTxn (.uncache h)
  · split
    · exact .dropTxn (.uncache (.miss h))
    · exact .ite (.setTxn (.dropTxn (.uncache (.miss h)))) (.modChan (.setTxn (.dropTxn (.uncache (.miss h)))))
  · exact .modChan (.setTxn (.dropTxn (.uncache h)))
  · exact h

theorem State.Kept.rebind {part ch w} (h : s.Kept q) : (s.rebind part ch w).Kept q := by
  unfold State.rebind
  dsimp only
  split
  · exact h
  · exact .setChan (.iteThen (.foldl (fun _ _ h2 => .breakWait h2) h) fun h2 => .modProc h2)

theorem State.Kept.canAdmit {part ch t x} (h : s.Kept q) : (s.canAdmit part ch t x).Kept q := by
  unfold State.canAdmit
  dsimp only
  split
  · exact .modChan (.nextOp h)
  · exact .modChan (.nextOp h)
  · split
    · exact .iteElse (.modChan (.nextOp h)) fun h3 => .breakWait h3
    · exact .modChan (.nextOp h)
  · split
    · exact .iteElse (.modChan (.nextOp h)) fun h3 => .breakWait h3
    · exact .modChan (.nextOp h)
  · exact .ite (.closeRx (.dropTxn (.letGo h))) (.closeTx (.dropTxn (.letGo h)))
  · split
    · exact .letGo h
    · exact .setTxn (.letGo h)
  · exact .setTxn (.rebind (.letGo h))
  · exact h

theorem NextKept.execChannelMatch {chan} (h : s.Kept q) : NextKept q (execChannelMatch chan s) := by
  unfold Machine.execChannelMatch
  dsimp only
  split
  · exact .next h
  · split
    · exact .next (.chanChanged h)
    · split
      · exact .next (.expireDue (.setChan h))
      · exact .next (.reapChan (.blockOp (.expireOp (.chanChanged (.canAdmit (.expireDue (.setChan h)))))))

theorem NextKept.execChannelTimeout {k} (h : s.Kept q) : NextKept q (execChannelTimeout k s) :=
  .next (.wakeAlts (.foldl (fun _ _ h1 => .expireOp h1) h))

theorem NextKept.execDeadlineExpiry {k} (h : s.Kept q) : NextKept q (execDeadlineExpiry k s) := by
  unfold Machine.execDeadlineExpiry
  dsimp only
  refine .ite (.next h) (.ite (.next (.ready h)) (.ite ?_ ?_))
  · split
    · exact .next (.endAlt h)
    · exact .next h
  · exact .next h

theorem OkAll.writeRow {t x p bs} (h : s.Kept q) : OkAll (State.Kept q) (s.writeRow t x p bs) := by
  unfold State.writeRow
  dsimp only
  split
  · exact .ok (.deferRec h)
  · exact .error
  · next _ e =>
    split
    · refine .ite .error (.ite .error ?_)
      split
      · exact .error
      · exact .ok (.applyParts (.miss (.countLines (OkAll.effAddr h _ e))))
    · exact .ite .error (.ok (.deferToManager (.modCore (.issueQuiet (OkAll.effAddr h _ e)))))

theorem OkAll.readRows {t x l} (h : s.Kept q) : OkAll (fun r => r.1.Kept q) (s.readRows t x l) := by
  unfold State.readRows
  dsimp only
  refine .foldlM (fun _ _ h1 => ?_) h
  split
  · exact .error
  · exact .error
  · next _ e =>
    refine .ite .error (.ite .error ?_)
    split
    · exact .error
    · exact .ok (.learn (.miss (.countLines (OkAll.effAddr h1 _ e))))

theorem State.Kept.endSide {t x d} (h : s.Kept q) : (s.endSide t x d).Kept q := by
  unfold State.endSide
  extract_lets s1 on s2
  have h1 : s1.Kept q := by
    unfold s1
    split
    · exact .ite (.retire h) h
    · exact h
  have h2 : s2.Kept q := .tagArrival (.dropTxn (.deliver h1))
  refine .ite ?_ (.ite (.ready h2) h2)
  split
  · exact .dropTxn (.sendFab h1)
  · exact .dropTxn h1

theorem State.Kept.failSide {t x tr} (h : s.Kept q) : (s.failSide t x tr).Kept q := by
  unfold State.failSide
  extract_lets s1 on s2
  have h1 : s1.Kept q := by
    unfold s1
    split
    · exact .ite (.retire h) h
    · exact h
  have h2 : s2.Kept q := .dropTxn (.failC h1)
  exact .ite (.ready h2) h2

theorem State.Kept.unmatch {t} (h : s.Kept q) : (s.unmatch t).Kept q := by
  unfold State.unmatch
  split
  · exact h
  · extract_lets s1 s2
    have h1 : s1.Kept q := by
      unfold s1
      split
      · exact .ite (.retire h) h
      · exact h
    have h2 : s2.Kept q := .setTxn h1
    split
    · exact .modChan h2
    · exact .modChan h2
    · exact .modChan h2
    · exact .modChan h2
    · exact h2

theorem State.Kept.landTile {t x d u y o e7} (h : s.Kept q) : (s.landTile t x d u y o e7).Kept q := by
  unfold State.landTile
  dsimp only
  split
  · exact .unmatch (.failSide h)
  · exact .endSide (.endSide (.put h (Memory.wf_writeBytes _ _ h.mem)))

theorem State.Kept.stopRows {t x r} (h : s.Kept q) : (s.stopRows t x r).Kept q := by
  unfold State.stopRows
  dsimp only
  split
  · exact h
  · exact .queueAt h
  · refine .ite ?_ ?_
    · refine .setTxn ?_
      split
      · exact .ringDev h
      · exact h
    · refine .failSide ?_
      split
      · exact .ringDev h
      · exact h

theorem State.Kept.landOp {t} (h : s.Kept q) : (s.landOp t).Kept q := by
  unfold State.landOp
  dsimp only
  split
  · exact h
  · refine .ite h ?_
    split
    · refine .ite (.endSide h) ?_
      split
      · exact .landTile h
      · exact .endSide h
      · split
        · exact .endSide (.put h (Memory.wf_writeBytes _ _ h.mem))
        · refine .ite ?_ ?_
          · split
            · next _ _ e =>
              exact .endSide (.via (OkAll.readRows h _ e) fun h6 => .put h6 (Memory.wf_writeBytes _ _ h6.mem))
            · exact .stopRows h
          · exact .endSide (.put h (Memory.wf_writeBytes _ _ h.mem))
    · split
      · split
        · exact .landTile h
        · exact .endSide h
      · split
        · exact .endSide h
        · refine .ite ?_ ?_
          · split
            · exact .failSide h
            · split
              · next _ e =>
                exact .endSide (OkAll.foldlM (fun _ _ h6 => .writeRow h6) h _ e)
              · exact .stopRows h
          · exact .endSide h
    · split
      · split
        · exact .endSide (.endSide h)
        · exact .endSide h
      · exact .endSide h
    · split
      · split
        · exact .endSide (.endSide h)
        · exact .endSide h
      · exact .endSide h
    · exact h

theorem NextKept.execTransferLanded {t} (h : s.Kept q) : NextKept q (execTransferLanded t s) := by
  unfold Machine.execTransferLanded
  split
  · exact .next h
  · exact .ite (.next h) (.next (.wakeAlts (.pumpAll (.landOp h))))

theorem State.Kept.keepCtx {img index core k} (h : s.Kept q) : (s.keepCtx img index core k).Kept q := by
  unfold State.keepCtx
  refine .ite ?_ ?_
  · split
    · exact .modCore h
    · exact h
  · exact h

theorem State.Kept.presetBufs {core k base l} (h : s.Kept q) : (s.presetBufs core k base l).Kept q :=
  .foldl (fun _ _ h1 => .modCore h1) h

theorem State.Kept.spadCopy {inst core} (h : s.Kept q) : (s.spadCopy inst core).Kept q := by
  unfold State.spadCopy
  dsimp only
  split
  · exact h
  · exact .ite h (.via (.modInst h) fun h2 => .put h2 (Memory.wf_writeBytes _ _ h2.mem))

theorem State.Kept.makeProc {k inst index core param gang} (h : s.Kept q) :
    (s.makeProc k inst index core param gang).Kept q := by
  unfold State.makeProc
  dsimp only
  split
  · exact h
  · exact .iteElse (.presetBufs (.spadCopy (.setProc h))) fun h2 => .enqueue h2

theorem NextKept.execSpawn {x y k} (h : s.Kept q) : NextKept q (execSpawn x y k s) :=
  .finish h (.pass fun _ => .pass fun _ => .pass fun _ => .pass fun _ => .ok (.issuePend h))

theorem State.Kept.startSpawn {t x index param} (h : s.Kept q) : (s.startSpawn t x index param).Kept q := by
  unfold State.startSpawn
  dsimp only
  refine .ite (.setTxn (.upd h)) (.setTxn (.foldl (fun _ _ h1 => ?_) ?_))
  · split
    · exact .modChan h1
    · exact h1
  · exact .raiseFloor (.newEpisode (.keepCtx (.makeProc (.modPart (.upd h)))))

theorem State.Kept.discardSend {ch t} (h : s.Kept q) : (s.discardSend ch t).Kept q := by
  unfold State.discardSend
  split
  · exact h
  · exact .setTxn (.leaveQueue h)

theorem State.Kept.endFiring {k} (h : s.Kept q) : (s.endFiring k).Kept q := by
  unfold State.endFiring
  dsimp only
  refine .foldl (fun _ _ h1 => ?_) h
  split
  · exact h1
  · exact .ite (.foldl (fun _ _ h3 => .discardSend h3) (.setChan h1)) (.setChan h1)

theorem State.Kept.finishExit {k} (h : s.Kept q) : (s.finishExit k).Kept q := by
  unfold State.finishExit
  dsimp only
  split
  · exact .modTxn (.setProc h)
  · exact .wakeAlts (.foldl (fun _ _ h2 => .pumpChan h2) (.endProc (.endHandler (.letGo (.ite (.endFiring h) h)))))

theorem State.Kept.tryExit {k} (h : s.Kept q) : (s.tryExit k).Kept q :=
  .ite (.finishExit h) h

theorem NextKept.execExit (h : s.Kept q) : NextKept q (execExit s) :=
  .finish h (.pass fun _ => .ite (.ok (.modProc (.addFence h))) (.ok (.finishExit (.addFence h))))

theorem State.Kept.yieldNow {i} (h : s.Kept q) : (s.yieldNow i).Kept q := by
  unfold State.yieldNow
  dsimp only
  split
  · exact .issueOrder (.letGo h)
  · exact .modCore (.issueOrder (.letGo h))

theorem NextKept.execYield (h : s.Kept q) : NextKept q (execYield s) :=
  .finish h (.pass fun _ => .ok (.yieldNow h))

theorem NextKept.execIdle (h : s.Kept q) : NextKept q (execIdle s) :=
  .finish h (.pass fun _ => .ite (.ok (.yieldNow h)) (.ok (.block h)))

/-! ### Operations of `Machine/Control` -/

theorem State.Kept.jump {t} (h : s.Kept q) : (s.jump t).Kept q := by
  unfold State.jump
  split
  · exact h
  · next hi => exact .busy h hi fun h => ⟨h.mem, False.elim⟩

theorem OkAll.branch {c d} (h : s.Kept q) : OkAll (State.Kept q) (branch s c d) :=
  .pass fun _ => .pass fun _ => .ite (.pass fun _ => .ok (.jump h)) (.ok h)

theorem NextKept.execBr {d} (h : s.Kept q) : NextKept q (execBr d s) :=
  .finish h (.branch h)

theorem NextKept.execBc {c d} (h : s.Kept q) : NextKept q (execBc c d s) :=
  .finish h (.branch h)

theorem NextKept.execCall {d} (h : s.Kept q) : NextKept q (execCall d s) :=
  .finish h (.pass fun _ => .pass fun _ => .ok (.jump (.push h)))

theorem NextKept.execCalli {x} (h : s.Kept q) : NextKept q (execCalli x s) :=
  .finish h (.pass fun _ => .pass fun _ => .pass fun _ => .ok (.jump (.push h)))

theorem OkAll.jumpReg {x} (h : s.Kept q) : OkAll (State.Kept q) (jumpReg s x) :=
  .pass fun _ => .pass fun _ => .pass fun _ => .ok (.jump h)

theorem NextKept.execJmpi {x} (h : s.Kept q) : NextKept q (execJmpi x s) :=
  .finish h (.jumpReg h)

theorem NextKept.execRet {x} (h : s.Kept q) : NextKept q (execRet x s) :=
  .finish h (.jumpReg h)

theorem NextKept.execLoop {r d} (h : s.Kept q) : NextKept q (execLoop r d s) :=
  .finish h (.pass fun _ => .pass fun _ => .ite (.ok (.push h)) (.pass fun _ => .ok (.jump (.push h))))

theorem NextKept.execRep {x b sn sv} (h : s.Kept q) : NextKept q (execRep x b sn sv s) := by
  unfold Machine.execRep
  refine .finish h ?_
  exact .pass fun _ => .pass fun _ => .pass fun _ => .ite (.pass fun _ => .ok (.jump h)) (.ok (.modProc h))

theorem NextKept.execNop (h : s.Kept q) : NextKept q (execNop s) :=
  .finish h (.mapPass fun _ => h)

theorem NextKept.execNopB (h : s.Kept q) : NextKept q (execNopB s) :=
  .finish h (.mapPass fun _ => h)

theorem NextKept.execTrap {x n} (h : s.Kept q) : NextKept q (execTrap x n s) :=
  .finish h (.pass fun _ => .pass fun _ => .ok (.raiseAfter h))

theorem NextKept.execBrk (h : s.Kept q) : NextKept q (execBrk s) :=
  .finish h (.pass fun _ => .ite (.ok (.modProc h)) .error)

theorem NextKept.execEret {x d} (h : s.Kept q) : NextKept q (execEret x d s) := by
  unfold Machine.execEret
  dsimp only
  refine .finish h (.pass fun _ => .pass fun _ => .pass fun _ => ?_)
  split
  · exact .error
  · exact .ok (.dispose (.modProc h))

theorem OkAll.claimMatrix {i} (h : s.Kept q) : OkAll (State.Kept q) (s.claimMatrix i) := by
  unfold State.claimMatrix
  split
  · exact .ok (.modCore h)
  · exact .ite (.ok h) .error

theorem OkAll.ctlMatrix {i c} (h : s.Kept q) : OkAll (State.Kept q) (ctlMatrix s i c) := by
  unfold Machine.ctlMatrix
  split
  · exact .claimMatrix h
  · exact .ok h

theorem NextKept.execCtlr {c k} (h : s.Kept q) : NextKept q (execCtlr c k s) :=
  .finish h (.pass fun _ => .pass fun _ => .bind (.ctlMatrix h) fun _ h1 => .ok (.push h1))

theorem State.Kept.ctlStore {i c v} (h : s.Kept q) : (ctlStore s i c v).Kept q := by
  unfold Machine.ctlStore
  dsimp only
  split
  · exact .modProc h
  · exact .modProc h
  · exact .modProc h
  · exact .modProc h
  · exact .modProc h
  · exact .modProc h
  · exact .modProc h
  · exact .modProc h
  · exact .modProc h
  · exact .modProc h
  · exact .modProc h
  · exact .modCore h
  · exact .modPart h
  · exact .modPart h
  · exact .modPart h
  · exact h

theorem NextKept.execCtlw {c x} (h : s.Kept q) : NextKept q (execCtlw c x s) := by
  unfold Machine.execCtlw
  refine .finish h (.pass fun _ => ?_)
  exact .pass fun _ => .pass fun _ => .pass fun _ => .bind (.ctlMatrix h) fun _ h1 => .ok (.ctlStore h1)

theorem OkAll.shootWord {x} (h : s.Kept q) : OkAll (State.Kept q) (shootWord s x) :=
  .pass fun _ => .pass fun _ => .pass fun _ => .ok (.issuePend h)

theorem NextKept.execShootDown {x} (h : s.Kept q) : NextKept q (execShootDown x s) :=
  .finish h (.shootWord h)

theorem NextKept.execShootDownDeny {x} (h : s.Kept q) : NextKept q (execShootDownDeny x s) :=
  .finish h (.shootWord h)

theorem NextKept.execPwrq {k} (h : s.Kept q) : NextKept q (execPwrq k s) :=
  .finish h (.pass fun _ => .ok (.push (.draw h)))

theorem NextKept.execHarvest {k} (h : s.Kept q) : NextKept q (execHarvest k s) :=
  .finish h (.pass fun _ => .pass fun _ => .ok (.issuePend h))

theorem NextKept.execEncodingNotInstruction {_w} (h : s.Kept q) : NextKept q (execEncodingNotInstruction _w s) :=
  .finish h (.pass fun _ => .error)

/-! ### Operations of `Machine/Vector` -/

theorem State.Kept.putV {i vd r} (h : s.Kept q) : (s.putV i vd r).Kept q :=
  .setFlags (.modProc h)

theorem State.Kept.issueVec {i x vd mask h5} (h : s.Kept q) : (s.issueVec i x vd mask h5).Kept q :=
  .setProc (.newTxn h)

theorem State.Kept.laterV {i vd mask r lat} (h : s.Kept q) : (s.laterV i vd mask r lat).Kept q :=
  .issueVec h

theorem State.Kept.heavyV {i vd r lat} (h : s.Kept q) : (s.heavyV i vd r lat).Kept q :=
  .takeToken (.issueVec h)

theorem OkAll.laneForm {i vd w p r lat h7} (h : s.Kept q) : OkAll (State.Kept q) (s.laneForm i vd w p r lat h7) :=
  .ite (.pass fun _ => .ok (.heavyV h)) (.ok (.laterV h))

theorem State.Kept.join {a : Access} {b : Access} (_ : a.st.Kept q) (h : b.st.Kept q) : (a.join b).st.Kept q :=
  h

theorem OkAll.rangeAccess {i f k p l} (h : s.Kept q) : OkAll (fun a => a.st.Kept q) (rangeAccess s i f k p l) := by
  refine .pass fun _ => .foldlM (fun a e (ha : a.st.Kept q) => ?_) h
  exact .bind (.placeAccess ha) fun _ hb => .ok (State.Kept.join ha hb)

theorem OkAll.vecAccess {i k p l} (h : s.Kept q) : OkAll (fun a => a.st.Kept q) (vecAccess s i k p l) :=
  .rangeAccess h

theorem NextKept.execVld {h0 vd x p} (h : s.Kept q) : NextKept q (execVld h0 vd x p s) := by
  unfold Machine.execVld
  dsimp only
  refine .finish h (.pass fun _ => .pass fun _ => ?_)
  exact .pass fun _ => .pass fun _ => .bind (.vecAccess h) fun _ h1 => .ok (.afterLoad (.issueVec h1) h1)

theorem OkAll.issueVst {c : Access} {i l} (_ : s.Kept q) (h2 : c.st.Kept q) :
    OkAll (State.Kept q) (s.issueVst i c l) := by
  unfold State.issueVst
  dsimp only
  refine .ite (.ok (.issueQuiet h2)) (.ite .error (.ok (.foldl (fun _ _ h9 => ?_) ?_)))
  · exact .deferToManager (.logSide (.issueQuiet h9))
  · exact .ite (.tagArrival h2) (.iteElse h2 fun h9 => .holdAccess (.issueQuiet h9) h2)

theorem NextKept.execVst {h0 vd x p} (h : s.Kept q) : NextKept q (execVst h0 vd x p s) := by
  unfold Machine.execVst
  dsimp only
  refine .finish h (.pass fun _ => .pass fun _ => .pass fun _ => ?_)
  exact .pass fun _ => .bind (.vecAccess h) fun _ h1 => .bind (.issueVst h h1) fun _ h2 => .ok (.watch h2)

theorem NextKept.execVldb {vd x p} (h : s.Kept q) : NextKept q (execVldb vd x p s) := by
  unfold Machine.execVldb
  dsimp only
  refine .finish h (.pass fun _ => .pass fun _ => .pass fun _ => ?_)
  exact .pass fun _ => .pass fun _ => .bind (.vecAccess h) fun _ h1 => .ok (.afterLoad (.issueVec h1) h1)

theorem OkAll.gather {w vd x vb} (h : s.Kept q) : OkAll (State.Kept q) (gather s w vd x vb) := by
  unfold Machine.gather
  dsimp only
  refine .pass fun _ => .pass fun _ => .pass fun _ => ?_
  exact .pass fun _ => .pass fun _ => .bind (.vecAccess h) fun _ h1 => .ok (.afterLoad (.issueVec h1) h1)

theorem NextKept.execVgat32 {vd x vb} (h : s.Kept q) : NextKept q (execVgat32 vd x vb s) :=
  .finish h (.gather h)

theorem NextKept.execVgat16 {vd x vb} (h : s.Kept q) : NextKept q (execVgat16 vd x vb s) :=
  .finish h (.gather h)

theorem OkAll.scatter {w vd x vb} (h : s.Kept q) : OkAll (State.Kept q) (scatter s w vd x vb) := by
  unfold Machine.scatter
  dsimp only
  refine .pass fun _ => .pass fun _ => .pass fun _ => .pass fun _ => ?_
  exact .pass fun _ => .bind (.vecAccess h) fun _ h1 => .bind (.issueVst h h1) fun _ h2 => .ok (.watch h2)

theorem NextKept.execVsca32 {vd x vb} (h : s.Kept q) : NextKept q (execVsca32 vd x vb s) :=
  .finish h (.scatter h)

theorem NextKept.execVsca16 {vd x vb} (h : s.Kept q) : NextKept q (execVsca16 vd x vb s) :=
  .finish h (.scatter h)

theorem OkAll.arith {t vd va vb p h6 ff fi} (h : s.Kept q) :
    OkAll (State.Kept q) (arith s t vd va vb p h6 ff fi) := by
  unfold Machine.arith
  dsimp only
  refine .pass fun _ => .pass fun _ => .pass fun _ => .pass fun _ => ?_
  split
  · exact .laneForm h
  · exact .ok (.putV h)

theorem NextKept.execVadd {t vd va vb p} (h : s.Kept q) : NextKept q (execVadd t vd va vb p s) :=
  .finish h (.arith h)

theorem NextKept.execVsub {t vd va vb p} (h : s.Kept q) : NextKept q (execVsub t vd va vb p s) :=
  .finish h (.arith h)

theorem NextKept.execVmul {t vd va vb p} (h : s.Kept q) : NextKept q (execVmul t vd va vb p s) :=
  .finish h (.arith h)

theorem NextKept.execVmin {t vd va vb p} (h : s.Kept q) : NextKept q (execVmin t vd va vb p s) :=
  .finish h (.arith h)

theorem NextKept.execVmax {t vd va vb p} (h : s.Kept q) : NextKept q (execVmax t vd va vb p s) :=
  .finish h (.arith h)

theorem OkAll.fused {f neg vd va vb vc p} (h : s.Kept q) : OkAll (State.Kept q) (fused s f neg vd va vb vc p) :=
  .pass fun _ => .pass fun _ => .pass fun _ => .pass fun _ => .pass fun _ => .laneForm h

theorem NextKept.execVfmaF32 {vd va vb vc p} (h : s.Kept q) : NextKept q (execVfmaF32 vd va vb vc p s) :=
  .finish h (.fused h)

theorem NextKept.execVfmsF32 {vd va vb vc p} (h : s.Kept q) : NextKept q (execVfmsF32 vd va vb vc p s) :=
  .finish h (.fused h)

theorem NextKept.execVfmaBf16 {vd va vb vc p} (h : s.Kept q) : NextKept q (execVfmaBf16 vd va vb vc p s) :=
  .finish h (.fused h)

theorem NextKept.execVfmsBf16 {vd va vb vc p} (h : s.Kept q) : NextKept q (execVfmsBf16 vd va vb vc p s) :=
  .finish h (.fused h)

theorem NextKept.execVfmaF16 {vd va vb vc p} (h : s.Kept q) : NextKept q (execVfmaF16 vd va vb vc p s) :=
  .finish h (.fused h)

theorem NextKept.execVfmsF16 {vd va vb vc p} (h : s.Kept q) : NextKept q (execVfmsF16 vd va vb vc p s) :=
  .finish h (.fused h)

theorem OkAll.unaryNow {w vd va p g} (h : s.Kept q) : OkAll (State.Kept q) (unaryNow s w vd va p g) :=
  .pass fun _ => .pass fun _ => .pass fun _ => .ok (.putV h)

theorem OkAll.unaryLater {t vd va p lat g} (h : s.Kept q) :
    OkAll (State.Kept q) (unaryLater s t vd va p lat g) := by
  unfold Machine.unaryLater
  dsimp only
  refine .pass fun _ => ?_
  split
  · exact .error
  · exact .pass fun _ => .pass fun _ => .ok (.laterV h)

theorem NextKept.execVabs {t vd va p} (h : s.Kept q) : NextKept q (execVabs t vd va p s) :=
  .finish h (.unaryNow h)

theorem NextKept.execVneg {t vd va p} (h : s.Kept q) : NextKept q (execVneg t vd va p s) :=
  .finish h (.unaryNow h)

theorem NextKept.execVfrint {t vd va p} (h : s.Kept q) : NextKept q (execVfrint t vd va p s) :=
  .finish h (.unaryLater h)

theorem NextKept.execVfexf {t vd va p} (h : s.Kept q) : NextKept q (execVfexf t vd va p s) :=
  .finish h (.unaryLater h)

theorem NextKept.execVrcp {t vd va p} (h : s.Kept q) : NextKept q (execVrcp t vd va p s) :=
  .finish h (.unaryLater h)

theorem NextKept.execVrsq {t vd va p} (h : s.Kept q) : NextKept q (execVrsq t vd va p s) :=
  .finish h (.unaryLater h)

theorem NextKept.execVfclass {t vd va p} (h : s.Kept q) : NextKept q (execVfclass t vd va p s) :=
  .finish h (.unaryNow h)

theorem NextKept.execVpopc {t vd va p} (h : s.Kept q) : NextKept q (execVpopc t vd va p s) :=
  .finish h (.unaryNow h)

theorem NextKept.execVmov {h0 vd va p} (h : s.Kept q) : NextKept q (execVmov h0 vd va p s) :=
  .finish h (.unaryNow h)

theorem OkAll.binaryNow {w vd va vb p g} (h : s.Kept q) : OkAll (State.Kept q) (binaryNow s w vd va vb p g) :=
  .pass fun _ => .pass fun _ => .pass fun _ => .pass fun _ => .ok (.putV h)

theorem NextKept.execVand {vd va vb p} (h : s.Kept q) : NextKept q (execVand vd va vb p s) :=
  .finish h (.binaryNow h)

theorem NextKept.execVor {vd va vb p} (h : s.Kept q) : NextKept q (execVor vd va vb p s) :=
  .finish h (.binaryNow h)

theorem NextKept.execVxor {vd va vb p} (h : s.Kept q) : NextKept q (execVxor vd va vb p s) :=
  .finish h (.binaryNow h)

theorem NextKept.execVshl32 {vd va vb p} (h : s.Kept q) : NextKept q (execVshl32 vd va vb p s) :=
  .finish h (.binaryNow h)

theorem NextKept.execVshl16 {vd va vb p} (h : s.Kept q) : NextKept q (execVshl16 vd va vb p s) :=
  .finish h (.binaryNow h)

theorem NextKept.execVshr32 {vd va vb p} (h : s.Kept q) : NextKept q (execVshr32 vd va vb p s) :=
  .finish h (.binaryNow h)

theorem NextKept.execVshr16 {vd va vb p} (h : s.Kept q) : NextKept q (execVshr16 vd va vb p s) :=
  .finish h (.binaryNow h)

theorem NextKept.execVsar32 {vd va vb p} (h : s.Kept q) : NextKept q (execVsar32 vd va vb p s) :=
  .finish h (.binaryNow h)

theorem NextKept.execVsar16 {vd va vb p} (h : s.Kept q) : NextKept q (execVsar16 vd va vb p s) :=
  .finish h (.binaryNow h)

theorem NextKept.execVcmp {c t pd va vb p} (h : s.Kept q) : NextKept q (execVcmp c t pd va vb p s) :=
  .finish h (.pass fun _ => .pass fun _ => .pass fun _ => .ok (.setFlags (.modProc h)))

theorem NextKept.execVsel {h0 vd va vb p} (h : s.Kept q) : NextKept q (execVsel h0 vd va vb p s) :=
  .finish h (.pass fun _ => .pass fun _ => .pass fun _ => .pass fun _ => .ok (.putV h))

theorem NextKept.execVcvt {src dst vd va p} (h : s.Kept q) : NextKept q (execVcvt src dst vd va p s) :=
  .finish h (.pass fun _ => .pass fun _ => .pass fun _ => .ok (.laterV h))

theorem NextKept.execVfins {t vd va vb p} (h : s.Kept q) : NextKept q (execVfins t vd va vb p s) := by
  unfold Machine.execVfins
  dsimp only
  refine .finish h (.pass fun _ => ?_)
  split
  · exact .error
  · exact .pass fun _ => .pass fun _ => .pass fun _ => .ok (.putV h)

theorem OkAll.reduce {t vd va p ff fi} (h : s.Kept q) : OkAll (State.Kept q) (reduce s t vd va p ff fi) :=
  .pass fun _ => .pass fun _ => .pass fun _ => .ok (.laterV h)

theorem NextKept.execVredadd {t vd va p} (h : s.Kept q) : NextKept q (execVredadd t vd va p s) :=
  .finish h (.reduce h)

theorem NextKept.execVredmin {t vd va p} (h : s.Kept q) : NextKept q (execVredmin t vd va p s) :=
  .finish h (.reduce h)

theorem NextKept.execVredmax {t vd va p} (h : s.Kept q) : NextKept q (execVredmax t vd va p s) :=
  .finish h (.reduce h)

theorem NextKept.execVredx {vd va p} (h : s.Kept q) : NextKept q (execVredx vd va p s) :=
  .finish h (.pass fun _ => .pass fun _ => .pass fun _ => .ok (.laterV h))

theorem OkAll.permute {w vd va vb p g} (h : s.Kept q) : OkAll (State.Kept q) (permute s w vd va vb p g) :=
  .pass fun _ => .pass fun _ => .pass fun _ => .pass fun _ => .ok (.putV h)

theorem NextKept.execVperm {h0 vd va vb p} (h : s.Kept q) : NextKept q (execVperm h0 vd va vb p s) :=
  .finish h (.permute h)

theorem NextKept.execVzip {h0 vd va vb p} (h : s.Kept q) : NextKept q (execVzip h0 vd va vb p s) :=
  .finish h (.permute h)

theorem NextKept.execVunzip {h0 vd va vb p} (h : s.Kept q) : NextKept q (execVunzip h0 vd va vb p s) :=
  .finish h (.permute h)

theorem NextKept.execVslideup {h0 vd va n p} (h : s.Kept q) : NextKept q (execVslideup h0 vd va n p s) :=
  .finish h (.permute h)

theorem NextKept.execVslidedn {h0 vd va n p} (h : s.Kept q) : NextKept q (execVslidedn h0 vd va n p s) :=
  .finish h (.permute h)

theorem NextKept.execVbcast {h0 vd k p} (h : s.Kept q) : NextKept q (execVbcast h0 vd k p s) :=
  .finish h (.pass fun _ => .pass fun _ => .pass fun _ => .ok (.putV h))

theorem OkAll.predForm {pd f} (h : s.Kept q) : OkAll (State.Kept q) (predForm s pd f) :=
  .pass fun _ => .ok (.modProc h)

theorem NextKept.execPand {pd pa pb} (h : s.Kept q) : NextKept q (execPand pd pa pb s) :=
  .finish h (.predForm h)

theorem NextKept.execPor {pd pa pb} (h : s.Kept q) : NextKept q (execPor pd pa pb s) :=
  .finish h (.predForm h)

theorem NextKept.execPnot {pd pa} (h : s.Kept q) : NextKept q (execPnot pd pa s) :=
  .finish h (.predForm h)

theorem NextKept.execVsplit {vd va k p} (h : s.Kept q) : NextKept q (execVsplit vd va k p s) := by
  unfold Machine.execVsplit
  dsimp only
  refine .finish h (.pass fun _ => .pass fun _ => .pass fun _ => ?_)
  exact .pass fun _ => .pass fun _ => .bind (.claimMatrix h) fun _ h1 => .ok (.laterV (.modCore h1))

theorem NextKept.execVqnt {f vd va p} (h : s.Kept q) : NextKept q (execVqnt f vd va p s) :=
  .finish h (.pass fun _ => .pass fun _ => .pass fun _ => .ok (.laterV h))

theorem NextKept.execVdqnt {f vd va p} (h : s.Kept q) : NextKept q (execVdqnt f vd va p s) :=
  .finish h (.pass fun _ => .pass fun _ => .pass fun _ => .ok (.laterV h))

/-! ### Operations of `Machine/Matrix` -/

theorem State.Kept.issueMat {i x mats push} (h : s.Kept q) : (s.issueMat i x mats push).Kept q := by
  unfold State.issueMat
  exact .modCore (.setProc (.newTxn h))

theorem NextKept.execTld {t x y} (h : s.Kept q) : NextKept q (execTld t x y s) := by
  unfold Machine.execTld
  dsimp only
  refine .finish h (.pass fun _ => .pass fun _ => .pass fun _ => .pass fun _ => .pass fun _ => ?_)
  refine .bind (.claimMatrix h) fun _ h1 => ?_
  exact .pass fun _ => .bind (.rangeAccess h1) fun _ h2 => .ok (.afterLoad (.issueMat h2) h2)

theorem NextKept.execTst {t x y} (h : s.Kept q) : NextKept q (execTst t x y s) := by
  unfold Machine.execTst
  dsimp only
  refine .finish h (.pass fun _ => .pass fun _ => .pass fun _ => .pass fun _ => .bind (.claimMatrix h) fun _ h1 => ?_)
  split
  · exact .error
  · refine .pass fun _ => ?_
    exact .pass fun _ => .bind (.rangeAccess h1) fun _ h3 => .bind (.issueVst h1 h3) fun _ h4 => .ok (.watch h4)

theorem State.Kept.undoMgang {t} (h : s.Kept q) : (s.undoMgang t).Kept q := by
  unfold State.undoMgang
  dsimp only
  split
  · exact h
  · exact .release (.modCore (.dropTxn (.iteThen (.upd h) fun h2 => .giveToken h2)))

theorem State.Kept.failMgang {t tr} (h : s.Kept q) : (s.failMgang t tr).Kept q := by
  unfold State.failMgang
  split
  · exact h
  · refine .takeFault ?_
    have h1 : (s.undoMgang t).Kept q := .undoMgang h
    split
    · next hi => exact .ite (.busy h1 hi fun h => ⟨h.mem, False.elim⟩) h1
    · exact h1

theorem State.Kept.passMgang {t st} (h : s.Kept q) : (s.passMgang t st).Kept q := by
  unfold State.passMgang
  dsimp only
  split
  · split
    · exact .modProc (.setTxn h)
    · exact h
  · exact h

theorem State.Kept.openBarrier {g} (h : s.Kept q) : (s.openBarrier g).Kept q := by
  unfold State.openBarrier
  dsimp only
  split
  · exact h
  · split
    · exact h
    · split
      · exact h
      · split
        · exact .foldl (fun _ _ h5 => .failMgang h5) h
        · exact .foldl (fun _ _ h5 => .passMgang h5) (.upd h)

theorem OkAll.mgangIssue {m ab ac ta b zero} (h : s.Kept q) :
    OkAll (State.Kept q) (mgangIssue s m ab ac ta b zero) := by
  unfold Machine.mgangIssue
  refine .pass fun _ => ?_
  split
  · exact .error
  · refine .pass fun _ => .pass fun _ => .pass fun _ =>
      .bind (P := fun a => a.st.Kept q) (.ite (.ok h) (.rangeAccess h)) fun _ _ => .ite .error (.pass fun _ => ?_)
    extract_lets
    split
    · exact .ok (State.Kept.issueOpened (.openBarrier (.upd (.holdAtWord (.modCore (.takeToken (.newTxn h)))))))
    · exact .ok (.unlatch (.openBarrier (.upd (.holdAtWord (.modCore (.takeToken (.newTxn h)))))))

theorem NextKept.execMgang {ab ac ta b nr zero} (h : s.Kept q) : NextKept q (execMgang ab ac ta b nr zero s) := by
  unfold Machine.execMgang
  dsimp only
  split
  · exact .finish h (.ok (.issueOpened h))
  · split
    · exact .finish h .error
    · exact .finish (.modCore h) (.mgangIssue (.modCore h))

theorem NextKept.execGangTimeout {g} (h : s.Kept q) : NextKept q (execGangTimeout g s) := by
  unfold Machine.execGangTimeout
  dsimp only
  split
  · exact .next h
  · exact .ite (.next (.foldl (fun _ _ h2 => .failMgang h2) h)) (.next h)

theorem State.Kept.writeGroup {i ab ac v} (h : s.Kept q) : (writeGroup s i ab ac v).Kept q :=
  .issueMat h

theorem NextKept.execMzero {ab ac} (h : s.Kept q) : NextKept q (execMzero ab ac s) :=
  .finish h (.pass fun _ => .pass fun _ => .bind (.claimMatrix h) fun _ h1 => .ok (.writeGroup h1))

theorem NextKept.execMdup {ab ac as} (h : s.Kept q) : NextKept q (execMdup ab ac as s) := by
  unfold Machine.execMdup
  refine .finish h ?_
  exact .pass fun _ => .pass fun _ => .pass fun _ => .bind (.claimMatrix h) fun _ h1 => .ok (.writeGroup h1)

theorem NextKept.execMstat (h : s.Kept q) : NextKept q (execMstat s) :=
  .finish h (.pass fun _ => .bind (.claimMatrix h) fun _ h1 => .ok (.pushLater h1))

theorem NextKept.execMrest {ab ac dp} (h : s.Kept q) : NextKept q (execMrest ab ac dp s) := by
  unfold Machine.execMrest
  dsimp only
  refine .finish h (.pass fun _ => .pass fun _ => .pass fun _ => ?_)
  exact .pass fun _ => .bind (.claimMatrix h) fun _ h1 => .pass fun _ => .ok (.watch (.issueMat h1))

theorem OkAll.restAccess {x p j} (h : s.Kept q) : OkAll (fun a => a.st.Kept q) (restAccess s x p j) :=
  .rangeAccess h

theorem OptAll.serveRest {t x} (h : s.Kept q) : OptAll (State.Kept q) (s.serveRest t x) := by
  unfold State.serveRest
  split
  · refine .ite .none ?_
    extract_lets row r
    have hrow {s : State} {l : List Acc} {j : Nat} (h : s.Kept q) : (row s l j).1.Kept q := by
      unfold row
      split
      · exact h
      · exact h
      · next e =>
        have hc := OkAll.restAccess h _ e
        split
        · exact h
        split
        · exact h
        split
        · exact hc
        · exact .pair (.miss (.countLines hc))
    have hr : r.1.Kept q := by
      refine .foldlFst (fun a j ha => ?_) h
      split
      · exact ha
      · exact hrow ha
    clear_value r
    split
    · exact .some (.setTxn hr)
    · exact .none
    · exact .some (.queueAt h)
    · refine .some (.setTxn (.modCore ?_))
      split
      · exact .ringDev hr
      · exact hr
  · exact .none

theorem NextKept.execMdrain {ab ac dp nr r} (h : s.Kept q) : NextKept q (execMdrain ab ac dp nr r s) := by
  unfold Machine.execMdrain
  dsimp only
  refine .finish h (.pass fun _ => .pass fun _ => .pass fun _ => .pass fun _ => .pass fun _ => ?_)
  refine .bind (.claimMatrix h) fun _ h1 => .pass fun _ => .pass fun _ => .pass fun _ => .pass fun _ => ?_
  refine .pass fun _ => .bind (.rangeAccess h1) fun _ h2 => .bind (.ite (.rangeAccess h2) (.ok h2)) fun _ h3 => ?_
  exact .bind (.issueVst (.join h2 h3) (.join h2 h3)) fun _ h4 => .ok (.watch (.issuePend h4))

/-! ### Operations of `Machine/Tree` -/

theorem State.Kept.setNode {part n v} (h : s.Kept q) : (s.setNode part n v).Kept q := by
  unfold State.setNode
  exact .modPart h

theorem State.Kept.countNode {part n k} (h : s.Kept q) : (s.countNode part n k).Kept q := by
  unfold State.countNode
  exact .modPart h

theorem State.Kept.countChain {part n} (h : s.Kept q) : (s.countChain part n).Kept q :=
  .foldl (fun _ _ h1 => .countNode h1) h

theorem NextKept.execEnrol {x y j} (h : s.Kept q) : NextKept q (execEnrol x y j s) := by
  unfold Machine.execEnrol
  dsimp only
  refine .finish h (.pass fun _ => .pass fun _ => .pass fun _ => .pass fun _ => .pass fun _ => ?_)
  exact .pass fun _ => .pass fun _ => .pass fun _ => .pass fun _ => .ok (.issuePend (.ite (.modPart h) h))

theorem NextKept.execUnenrol {x z} (h : s.Kept q) : NextKept q (execUnenrol x z s) := by
  unfold Machine.execUnenrol
  dsimp only
  refine .finish h (.pass fun _ => .pass fun _ => .pass fun _ => .pass fun _ => .pass fun _ => ?_)
  split
  · exact .pass fun _ => .ok (.issuePend h)
  · exact .pass fun _ => .ok (.issuePend h)

theorem OkAll.treeForm {x k op fence} (h : s.Kept q) : OkAll (State.Kept q) (treeForm s x k op fence) :=
  .pass fun _ => .pass fun _ => .pass fun _ => .ok (.issuePend (.ite (.addFence h) h))

theorem NextKept.execSettle {x k} (h : s.Kept q) : NextKept q (execSettle x k s) :=
  .finish h (.treeForm h)

theorem NextKept.execChgrd {x k} (h : s.Kept q) : NextKept q (execChgrd x k s) :=
  .finish h (.treeForm h)

theorem NextKept.execChgcmp {x y k} (h : s.Kept q) : NextKept q (execChgcmp x y k s) :=
  .finish h (.pass fun _ => .pass fun _ => .pass fun _ => .pass fun _ => .ok (.issuePend h))

theorem NextKept.execRepar {x y k} (h : s.Kept q) : NextKept q (execRepar x y k s) := by
  unfold Machine.execRepar
  split
  · exact .finish h (.ok (.issueOpened h))
  · refine .finish h (.pass fun _ => .pass fun _ => .pass fun _ => .pass fun _ => .pass fun _ => .pass fun _ => .ok ?_)
    exact .unlatch (.holdAtWord (.newTxn (.addFence h)))

theorem State.Kept.undoRepar {t} (h : s.Kept q) : (s.undoRepar t).Kept q := by
  unfold State.undoRepar
  split
  · exact h
  · exact .release (.dropTxn h)

theorem State.Kept.openRepar {t x} (h : s.Kept q) : (s.openRepar t x).Kept q :=
  .ite h (.modProc (.release h))

theorem State.Kept.conflict {t x sub node} (h : s.Kept q) : (s.conflict t x sub node).Kept q :=
  .setTxn h

theorem State.Kept.walked {t x w} (h : s.Kept q) : (s.walked t x w).Kept q :=
  .setTxn h

theorem State.Kept.rangeFault {t x e3} (h : s.Kept q) : (s.rangeFault t x e3).Kept q :=
  .isolate (.setTxn h)

theorem State.Kept.giveNode {part reserved} (h : s.Kept q) : (s.giveNode part reserved).Kept q :=
  .ite (.modPart h) h

theorem State.Kept.doEnrol {t x node parent b l reserved} (h : s.Kept q) :
    (s.doEnrol t x node parent b l reserved).Kept q := by
  unfold State.doEnrol
  dsimp only
  refine .ite (.conflict (.giveNode h)) (.ite (.conflict (.giveNode h)) (.ite (.setTxn h) ?_))
  split
  · exact .rangeFault (.giveNode h)
  · refine .ite (.conflict (.giveNode h)) ?_
    exact .walked (.countChain (.modPart (.upd (.ite (.modPart (.setNode h)) (.giveNode h)))))

theorem State.Kept.detach {part n gs} (h : s.Kept q) : (s.detach part n gs).Kept q := by
  unfold State.detach
  exact .modPart (.upd h)

theorem State.Kept.doUnenrol {t x n r} (h : s.Kept q) : (s.doUnenrol t x n r).Kept q := by
  unfold State.doUnenrol
  dsimp only
  split
  · exact .conflict h
  · split
    · exact .ite (.conflict h) (.ite h (.walked (.countChain (.modPart h))))
    · split
      · exact .rangeFault h
      · exact .ite (.walked (.countChain (.detach h))) (.conflict h)

theorem NextKept.execTreeWalkerRequest {t} (h : s.Kept q) : NextKept q (execTreeWalkerRequest t s) := by
  unfold Machine.execTreeWalkerRequest
  split
  · exact .next h
  · refine .ite (.next h) ?_
    split
    · exact .ite (.next h) (.next (.doEnrol h))
    · exact .ite (.next h) (.next (.doUnenrol h))
    · refine .ite (.next h) ?_
      split
      · exact .next (.walked h)
      · exact .next (.conflict h)
    · refine .ite (.next h) ?_
      split
      · exact .next (.walked h)
      · exact .next (.conflict h)
    · exact .next h

theorem State.Kept.trySettle {t x n} (h : s.Kept q) : (s.trySettle t x n).Kept q :=
  .ite h (.ite (.conflict h) (.ite (.walked h) h))

theorem NextKept.execSettleMarker {t slice} (h : s.Kept q) : NextKept q (execSettleMarker t slice s) := by
  unfold Machine.execSettleMarker
  dsimp only
  split
  · exact .next h
  · split
    · split
      · exact .next h
      · exact .ite (.next (.trySettle (.setTxn h))) (.next (.trySettle (.setTxn h)))
    · exact .next h

theorem State.Kept.trySettles (h : s.Kept q) : (s.trySettles).Kept q := by
  unfold State.trySettles
  refine .foldl (fun _ _ h1 => ?_) h
  split
  · exact .trySettle h1
  · exact h1

theorem State.Kept.forward {k v node merge} (h : s.Kept q) : (s.forward k v node merge).Kept q := by
  unfold State.forward
  dsimp only
  split
  · exact .upd h
  · exact .upd h

theorem State.Kept.countToken {k merge} (h : s.Kept q) : (s.countToken k merge).Kept q := by
  unfold State.countToken
  dsimp only
  split
  · exact h
  · split
    · exact .upd h
    · refine .ite ?_ ?_
      · refine .upd ?_
        split
        · exact .upd (.countNode h)
        · exact .countNode h
      · refine .forward ?_
        split
        · exact .upd (.countNode h)
        · exact .countNode h

theorem NextKept.execRollupTokenCount {k} (h : s.Kept q) : NextKept q (execRollupTokenCount k s) := by
  unfold Machine.execRollupTokenCount
  dsimp only
  split
  · exact .next h
  · exact .ite (.next h) (.next (.trySettles (.countToken h)))

theorem State.Kept.setLock {part l v} (h : s.Kept q) : (s.setLock part l v).Kept q := by
  unfold State.setLock
  exact .modPart h

theorem State.Kept.drainTokens {part n f} (h : s.Kept q) : (s.drainTokens part n f).Kept q := by
  induction f generalizing s with
  | zero => exact h
  | succ f ih => exact ih (.foldl (fun _ _ h => .countToken h) h)

theorem State.Kept.climbOn {part n l} (h : s.Kept q) : (s.climbOn part n l).Kept q := by
  unfold State.climbOn
  dsimp only
  split
  · exact h
  · exact .upd h

theorem State.Kept.moveNode {t x n p} (h : s.Kept q) : (s.moveNode t x n p).Kept q := by
  unfold State.moveNode
  dsimp only
  split
  · refine .ite (.conflict (.setLock h)) (.ite (.conflict (.setLock h)) ?_)
    exact .walked (.setLock (.foldl (fun _ _ h2 => .countNode h2) (.modPart (.modPart (.modPart h)))))
  · exact .conflict (.setLock h)

theorem NextKept.execReparLock {t} (h : s.Kept q) : NextKept q (execReparLock t s) := by
  unfold Machine.execReparLock
  dsimp only
  split
  · exact .next h
  · split
    · refine .ite (.next h) (.ite (.next (.openRepar (.conflict h))) ?_)
      split
      · exact .ite (.next h) (.next (.iteThen (.setTxn (.setLock h)) fun h4 => .openRepar h4))
      · exact .ite (.next (.trySettles (.climbOn (.moveNode (.drainTokens h))))) (.next h)
    · exact .next h

theorem State.Kept.detachPage {part frame} (h : s.Kept q) : (s.detachPage part frame).Kept q :=
  .upd (.foldl (fun _ _ h1 => .countChain (.detach h1)) h)

/-! ### Operations of `Machine/Motion` -/

theorem State.Kept.pickPage {part tier st} (h : s.Kept q) : (s.pickPage part tier st).1.Kept q := by
  unfold State.pickPage
  dsimp only
  split
  · exact .pair (.upd h)
  · exact .pair (.modPart (.upd h))

theorem State.Kept.returnPage {part frame} (h : s.Kept q) : (s.returnPage part frame).Kept q := by
  unfold State.returnPage
  exact .modPart (.detachPage h)

theorem State.Kept.pteBit {leaf byte m v} (h : s.Kept q) : (s.pteBit leaf byte m v).Kept q :=
  .put h (Memory.wf_writeByte _ _ h.mem)

theorem State.Kept.flushEng {u p} (h : s.Kept q) : (s.flushEng u p).Kept q :=
  .setEngine (.setD h)

theorem NextKept.execDirtyLogMerge {core} (h : s.Kept q) : NextKept q (execDirtyLogMerge core s) :=
  .ite (.next (.mergeLog h)) (.next h)

theorem State.Kept.harvest {part} (h : s.Kept q) : (s.harvest part).Kept q :=
  .foldl (fun _ _ h1 => .flushEng h1) (.foldl (fun _ _ h1 => .modCore (.setD h1)) h)

theorem NextKept.execPageWalk {core vpn} (h : s.Kept q) : NextKept q (execPageWalk core vpn s) := by
  unfold Machine.execPageWalk
  dsimp only
  split
  · exact .next h
  · exact .ite (.next h) (.next (.isolate (.lookup h)))

theorem State.Kept.dropTlbs {part vpn} (h : s.Kept q) : (s.dropTlbs part vpn).Kept q :=
  .upd (.foldl (fun _ _ h1 => .flushEng h1) h)

theorem State.Kept.retryParts {u x l} (h : s.Kept q) : (s.retryParts u x l).1.Kept q := by
  unfold State.retryParts
  dsimp only
  refine .foldlFst (fun _ _ h1 => ?_) h
  split
  · split
    · split
      · exact .pair (.unitDirty (.unitLookup h1))
      · exact .pair (.unitLookup h1)
    · exact .pair (.isolate (.unitLookup h1))
  · exact h1

theorem State.Kept.denyEnt {t x} (h : s.Kept q) : (s.denyEnt t x).Kept q := by
  unfold State.denyEnt
  exact .modProc (.dropTxn (.breakTag h))

theorem State.Kept.setLog {u l} (h : s.Kept q) : (s.setLog u l).Kept q := by
  unfold State.setLog
  dsimp only
  split
  · exact .modCore h
  · exact .setEngine h

theorem State.Kept.retryEnt {u e2 deny} (h : s.Kept q) : (s.retryEnt u e2 deny).Kept q := by
  unfold State.retryEnt
  dsimp only
  split
  · exact .setLog h
  · refine .ite (.denyEnt (.setLog h)) ?_
    split
    · exact .deferToManager (.setLog (.setTxn (.retryParts h)))
    · exact .setLog (.setTxn (.retryParts h))

theorem State.Kept.retryHeld {part vpn deny} (h : s.Kept q) : (s.retryHeld part vpn deny).Kept q := by
  unfold State.retryHeld
  dsimp only
  refine .foldl (fun _ _ h1 => ?_) h
  split
  · refine .ite h1 (.ite (.isolate h1) ?_)
    split
    · exact .ite (.failSide h1) (.setTxn h1)
    · exact .ite (.setTxn h1) (.setTxn h1)
  · exact h1

theorem State.Kept.restMotion {part vpn} (h : s.Kept q) : (s.restMotion part vpn).Kept q := by
  unfold State.restMotion
  dsimp only
  split
  · exact h
  · exact .modPart (.upd h)

theorem State.Kept.shootStep {t x vpn deny} (h : s.Kept q) : (s.shootStep t x vpn deny).Kept q := by
  unfold State.shootStep
  dsimp only
  refine .ite h ?_
  split
  · exact .ite h (.retryEnt (.setTxn h))
  · exact .ite h (.ite (.retryHeld (.setTxn h)) (.ite (.dropTxn (.restMotion h)) (.arrive (.setTxn (.restMotion h)))))

theorem NextKept.execShootDownComplete {t} (h : s.Kept q) : NextKept q (execShootDownComplete t s) := by
  unfold Machine.execShootDownComplete
  split
  · exact .next h
  · split
    · exact .ite (.next h) (.ite (.next (.shootStep h)) (.ite (.next h) (.next (.setTxn (.dropTlbs h)))))
    · exact .next h

theorem State.Kept.queueMove {m} (h : s.Kept q) : (s.queueMove m).Kept q :=
  .upd h

theorem State.Kept.migDone {txn w} (h : s.Kept q) : (s.migDone txn w).Kept q := by
  unfold State.migDone
  split
  · exact h
  · exact .modTxn h

theorem State.Kept.migRecord {part bs} (h : s.Kept q) : (s.migRecord part bs).Kept q := by
  unfold State.migRecord
  dsimp only
  split
  · exact .ringPart h
  · next _ e =>
    exact .chanChanged (OptAll.ite .none (.post h) _ e)

theorem State.Kept.abortMotion {id m c} (h : s.Kept q) : (s.abortMotion id m c).Kept q :=
  .migDone (.migRecord (.iteThen (.upd h) fun h1 => .modPart (.pteBit h1)))

theorem NextKept.execMigrationAbort {id c} (h : s.Kept q) : NextKept q (execMigrationAbort id c s) := by
  unfold Machine.execMigrationAbort
  dsimp only
  split
  · exact .next h
  · exact .ite (.next (.abortMotion h)) (.next h)

theorem OptAll.startMove {id m} (h : s.Kept q) : OptAll (State.Kept q) (s.startMove id m) := by
  unfold State.startMove
  refine .ite .none ?_
  extract_lets w s1 ended stop
  have h1 : s1.Kept q := .countWalk h
  have hended : ended.Kept q := .upd h1
  have hstop (n : Nat) : OptAll (State.Kept q) (stop n) := .some (State.Kept.migDone hended)
  clear_value w
  split
  · refine .some ?_
    split
    · exact .modTxn hended
    · exact hended
  · exact .some (State.Kept.migDone (.isolate hended))
  · refine .ite (hstop 3) (.ite (hstop 2) ?_)
    split
    · exact hstop 3
    refine .ite .none ?_
    split
    · split
      · next e => exact .some (State.Kept.migDone (.upd (.fstEq (.pickPage h1) e)))
      · next e => exact .some (State.Kept.upd (.pteBit (.fstEq (.pickPage h1) e)))
    · refine .ite (.ite .none (.ite (hstop 3) ?_)) (hstop 3)
      split
      · exact .some (State.Kept.queueMove h1)
      · exact hstop 3

theorem NextKept.execMotionStart {part} (h : s.Kept q) : NextKept q (execMotionStart part s) :=
  .ite (.next h) (.next (.getD (.findSome? fun _ => .startMove h) h))

theorem State.Kept.commitMotion {id m} (h : s.Kept q) : (s.commitMotion id m).Kept q := by
  unfold State.commitMotion
  extract_lets mvG here s1 arms s2 s3 s4 moved e e' s5 s6 s7
  have h4 : s4.Kept q := .modPart (.foldl (fun _ _ h => .getD (.arm h) (.endWait h)) (.upd (.upd h)))
  have h5 : s5.Kept q := .put h4 (Memory.wf_writeBytes _ _ h4.mem)
  exact .migDone (.newTxn (.upd h5))

theorem NextKept.execMotionLineCopy {id} (h : s.Kept q) : NextKept q (execMotionLineCopy id s) := by
  unfold Machine.execMotionLineCopy
  dsimp only
  split
  · exact .next h
  · refine .ite (.next h) ?_
    split
    · exact .next (.commitMotion h)
    · refine .ite (.next h) (.next (.ite ?_ ?_))
      · exact .commitMotion (.upd (.activate (.activate (.listBad (.put h (Memory.wf_writeBytes _ _ h.mem))))))
      · exact .upd (.activate (.activate (.listBad (.put h (Memory.wf_writeBytes _ _ h.mem)))))

theorem State.Kept.policy {part} (h : s.Kept q) : (s.policy part).Kept q := by
  unfold State.policy
  dsimp only
  refine .foldl (fun _ _ h1 => ?_) h
  refine .ite (.queueMove h1) ?_
  split
  · exact .queueMove (.queueMove h1)
  · exact h1

theorem NextKept.execEpochEnd {part} (h : s.Kept q) : NextKept q (execEpochEnd part s) := by
  unfold Machine.execEpochEnd
  dsimp only
  split
  · exact .next h
  · exact .ite (.next h) (.next (.modPart (.upd (.ite (.policy h) h))))

theorem State.Kept.cancelMove {part vpn} (h : s.Kept q) : (s.cancelMove part vpn).1.Kept q := by
  unfold State.cancelMove
  split
  · exact .pair (.abortMotion h)
  · exact h

theorem State.Kept.migGo {t x page opts} (h : s.Kept q) : (s.migGo t x page opts).1.Kept q := by
  unfold State.migGo
  extract_lets s1 o tier st vpn mapped pin moves _ inUse
  have h1 : s1.Kept q := .ite (.isolate (.countWalk h)) h
  clear_value mapped
  have hpin (v : Bool) : (pin v).1.Kept q := by
    cases mapped with
    | error _ => exact h1
    | ok e => exact .pteBit (s := s1) h1
  split
  · split
    · exact h1
    · split
      · exact h1
      · exact .pair (.setTxn (.queueMove h1))
  split
  · exact .pair (.cancelMove h1)
  split
  · exact hpin true
  split
  · exact hpin false
  split
  · split
    · next e => exact .pair (.fstEq (.pickPage h1) e)
    · next e => exact .pair (.fstEq (.pickPage h1) e)
  split
  · exact .pair (.returnPage h1)
  · exact h1

theorem NextKept.execHot {x k} (h : s.Kept q) : NextKept q (execHot x k s) := by
  unfold Machine.execHot
  dsimp only
  refine .finish h (.pass fun _ => .pass fun _ => .pass fun _ => .ite (.ok (.pushLater h)) (.ite .error ?_))
  split
  · exact .ok (.issuePend (.lookup h))
  · exact .error
  · exact .ok (.pushLater (.lookup h))

/-! ### Operations of `Machine/Engines` -/

theorem State.Kept.piece {a : Line} {x u w sp off n} (h : a.st.Kept q) : (a.piece x u w sp off n).st.Kept q := by
  unfold Line.piece
  dsimp only
  split
  · exact h
  · split
    · split
      · exact .iteElse (.unitLookup h) fun h2 => .unitDirty h2
      · exact .unitLookup h
    · exact .unitLookup h
    · exact .isolate (.unitLookup h)

theorem OkAll.engParts {x u w pin p n} (h : s.Kept q) :
    OkAll (fun a => a.st.Kept q) (s.engParts x u w pin p n) := by
  unfold State.engParts
  extract_lets sp off va bad one rel a k r
  have hbad (k : Kind) : OkAll (fun a => a.st.Kept q) (bad k) := .error
  have hone (p : Place) : OkAll (fun a => a.st.Kept q) (one p) := .ok h
  have hline {l : List (Nat × Nat)} {a : Line} (ha : a.st.Kept q) :
      (l.foldl (fun a e => a.piece x u w sp e.1 e.2) a).st.Kept q := by
    induction l generalizing a with
    | nil => exact ha
    | cons e l ih => exact ih (.piece ha)
  refine .ite (hbad _) (.ite (hbad _) (.ite ?_ (.ite (.ite (hone _) (hbad _)) (.ite (.ite (hone _) (hbad _)) (.ite ?_ ?_)))))
  · split
    · exact .ite .error .error
    · exact .ite .error (.ok (hline h))
  · refine .ite (hbad _) (.ite (.ite (hone _) (.ite (hbad _) (hone _))) (.ite (hbad _) ?_))
    split
    · exact hbad _
    · exact hone _
  · exact .ite (.ite (hone _) (hbad _)) (.ite (hone _) (hbad _))

theorem State.Kept.dropLines {t x} (h : s.Kept q) : (s.dropLines t x).Kept q :=
  .foldl (fun _ _ h1 => .dropTxn (.uncache h1)) h

theorem OkAll.engRead {t x u pin p n} (h : s.Kept q) : OkAll (fun r => r.1.Kept q) (s.engRead t x u pin p n) := by
  unfold State.engRead
  dsimp only
  refine .bind (.engParts h) fun _ h1 => ?_
  split
  · exact .error
  · refine .ite (.pass fun _ => .ok (.miss h1)) (.ite .error (.pass fun _ => ?_))
    split
    · exact .error
    · exact .ok (.miss (.countLines h1))

theorem State.Kept.landBytes {l} (h : s.Kept q) : (s.landBytes l).Kept q := by
  unfold State.landBytes
  dsimp only
  refine .foldl (fun _ _ h1 => ?_) h
  split
  · exact .ite (.modCore h1) h1
  · exact h1

theorem State.Kept.noteObj {x f done} (h : s.Kept q) : (s.noteObj x f done).Kept q := by
  unfold State.noteObj
  dsimp only
  split
  · exact .modCore h
  · exact h

theorem State.Kept.engServe {t x y w} (h : s.Kept q) : (s.engServe t x y w).Kept q := by
  unfold State.engServe
  dsimp only
  split
  · exact .endWrite (.applyParts (.countLines h))
  · exact .noteObj (.endWrite (.applyParts (.countLines h)))
  · exact .noteObj (.endWrite (.applyParts (.countLines h)))
  · exact h

theorem OkAll.engApply {s0 x t0 u pin p n mk} (h : s.Kept q) (_ : s0.Kept q) :
    OkAll (State.Kept q) (s.engApply s0 x t0 u pin p n mk) := by
  unfold State.engApply
  dsimp only
  refine .bind (.engParts h) fun _ h9 => ?_
  split
  · refine .ite .error (.ok (.deferToManager ?_))
    split
    · exact .setEngine (.newTxn h9)
    · exact .modCore (.newTxn h9)
  · refine .ite (.ok (.newTxn h9)) (.ite .error (.pass fun _ => ?_))
    split
    · exact .error
    · split
      · exact .ok (.newTxn h9)
      · exact .ok (.landBytes (.engServe (.newTxn h9)))

theorem OkAll.engWrite {s0 x t0 u pin p bs} (h : s.Kept q) (h1 : s0.Kept q) :
    OkAll (State.Kept q) (s.engWrite s0 x t0 u pin p bs) :=
  .ite (.ok h) (.engApply h h1)

theorem OkAll.startRanges {l} (h : s.Kept q) : OkAll (State.Kept q) (startRanges s l) := by
  unfold Machine.startRanges
  refine .foldlM (fun _ _ h1 => ?_) h
  split
  · exact .ok (.setCore h1)
  · exact .error

theorem State.Kept.enterRanges {t core l} (h : s.Kept q) : (s.enterRanges t core l).Kept q :=
  .foldl (fun _ _ h1 => .modCore h1) h

theorem State.Kept.leaveRanges {t} (h : s.Kept q) : (s.leaveRanges t).Kept q :=
  .foldl (fun _ _ h1 => .ite (.pokeBufs (.breakQueries (.modCore h1))) h1) h

theorem OkAll.copyLine {t x u dst src len} (h : s.Kept q) :
    OkAll (State.Kept q) (s.copyLine t x u dst src len) := by
  unfold State.copyLine
  dsimp only
  refine .bind (.engRead h) fun _ h1 => .ite (.ok (.setTxn h1)) (.ite ?_ ?_)
  · exact .bind (.engWrite h1 h) fun _ h2 => .ok (.setTxn h2)
  · exact .bind (.engApply h1 h) fun _ h2 => .ok (.setTxn (.upd h2))

theorem State.Kept.countRegs {l} (h : s.Kept q) : (s.countRegs l).Kept q :=
  .foldl (fun _ _ h1 => .ite (.modProc h1) h1) h

theorem State.Kept.uncountRegs {l} (h : s.Kept q) : (s.uncountRegs l).Kept q :=
  .foldl (fun _ _ h1 => .ite (.modProc h1) h1) h

theorem OkAll.lateRanges {t x l} (h : s.Kept q) : OkAll (State.Kept q) (s.lateRanges t x l) := by
  unfold State.lateRanges
  refine .ite (.ok h) (.ite .error ?_)
  split
  · exact .error
  · next _ e =>
    exact .ok (.enterRanges (OkAll.startRanges h _ e))

theorem OkAll.copytStart {t x u dst src desc} (h : s.Kept q) :
    OkAll (State.Kept q) (s.copytStart t x u dst src desc) := by
  unfold State.copytStart
  dsimp only
  refine .bind (.engRead h) fun _ h1 => ?_
  split
  · exact .error
  · refine .bind (.engRead h1) fun _ h3 => ?_
    split
    · exact .error
    · exact .bind (.lateRanges h3) fun _ h5 => .ok (.setTxn (.countRegs h5))

theorem OkAll.copytElem {t x u dst src size l} (h : s.Kept q) :
    OkAll (State.Kept q) (s.copytElem t x u dst src size l) := by
  unfold State.copytElem
  dsimp only
  split
  · refine .ite .error (.ite .error (.bind (.engRead h) fun _ h2 => .ite ?_ ?_))
    · exact .bind (.engApply h2 h) fun _ h3 => .ok (.setTxn (.upd h3))
    · exact .bind (.engWrite h2 h) fun _ h3 => .ok (.setTxn h3)
  · exact .error
  · exact .error

theorem OkAll.cmprLine {t x u dst src len} (h : s.Kept q) :
    OkAll (State.Kept q) (s.cmprLine t x u dst src len) := by
  unfold State.cmprLine
  dsimp only
  refine .ite (.bind (.engRead h) fun _ h1 => .bind (.engWrite h1 h) fun _ h2 => .ok (.setTxn h2)) ?_
  exact .bind (.engWrite h h) fun _ h1 => .ok (.setTxn h1)

theorem OkAll.dcmpLine {t x u dst src cap} (h : s.Kept q) :
    OkAll (State.Kept q) (s.dcmpLine t x u dst src cap) := by
  unfold State.dcmpLine
  dsimp only
  split
  · refine .ite .error (.bind (.engRead h) fun _ h2 => .ite .error ?_)
    exact .bind (.ite (.ok h2) (.engRead h2)) fun _ h3 => .bind (.engWrite h3 h) fun _ h4 => .ok (.setTxn h4)
  · refine .bind (.engRead h) fun _ h2 => .ite .error (.ok (.setTxn ?_))
    split
    · exact .modCore h2
    · exact h2

theorem OkAll.collStart {t x u desc} (h : s.Kept q) : OkAll (State.Kept q) (s.collStart t x u desc) := by
  unfold State.collStart
  dsimp only
  refine .bind (.engRead h) fun _ h1 => ?_
  split
  · exact .error
  · refine .bind (.engRead h1) fun _ h3 => ?_
    split
    · exact .error
    · exact .bind (.lateRanges h3) fun _ h5 => .ok (.setTxn (.countRegs h5))

theorem OkAll.collElem {s0 x t u base v} (h : s.Kept q) (h1 : s0.Kept q) :
    OkAll (State.Kept q) (s.collElem s0 x t u base v) := by
  unfold State.collElem
  dsimp only
  split
  · exact .ite .error (.engApply h h1)
  · exact .ite .error (.engApply h h1)

theorem OkAll.fillSlot {s0 x t u p} (h : s.Kept q) (_ : s0.Kept q) :
    OkAll (fun r => r.1.Kept q) (s.fillSlot s0 x t u p) := by
  unfold State.fillSlot
  dsimp only
  refine .ite .error (.bind (.engParts h) fun _ h9 => ?_)
  split
  · exact .error
  · refine .ite (.pass fun _ => .ok h9) (.ite .error (.pass fun _ => ?_))
    split
    · exact .error
    · exact .ok (.applyParts (.miss (.countLines h9)))

theorem OkAll.dispatch {t x u} (h : s.Kept q) : OkAll (State.Kept q) (s.dispatch t x u) := by
  unfold State.dispatch
  dsimp only
  refine .bind (.engRead h) fun _ h1 => ?_
  split
  · exact .bind (.ite (.ok h1) (.engRead h1)) fun _ h3 => .bind (.engWrite h3 h) fun _ h4 => .ok (.setTxn h4)
  · split
    · exact .bind (.engWrite h1 h) fun _ h4 => .ok (.setTxn h4)
    · split
      · exact .ok (.setTxn h1)
      · exact .bind (.fillSlot h1 h) fun _ h5 => .ok (.setTxn h5)

theorem OkAll.collLine {t x u} (h : s.Kept q) : OkAll (State.Kept q) (s.collLine t x u) := by
  unfold State.collLine
  dsimp only
  refine .ite (.dispatch h) (.ite ?_ ?_)
  · refine .bind (.engRead h) fun _ h1 => ?_
    exact .bind (.foldlM (fun _ _ h2 => .collElem h2 h) h1) fun _ h2 => .ok (.setTxn h2)
  · refine .bind (.engRead h) fun _ h1 => ?_
    exact .bind (.foldlM (fun _ _ h2 => .engWrite h2 h) h1) fun _ h2 => .ok (.setTxn h2)

theorem State.Kept.collArrivals {x past} (h : s.Kept q) : (s.collArrivals x past).Kept q := by
  unfold State.collArrivals
  dsimp only
  refine .foldl (fun _ _ h1 => ?_) h
  refine .ite ?_ ?_
  · split
    · next _ e =>
      exact OptAll.ite (.arriveAt h1) .none _ e
    · exact .deferRec h1
  · exact h1

theorem OkAll.engLine {t x op} (h : s.Kept q) : OkAll (State.Kept q) (s.engLine t x op) := by
  unfold State.engLine
  dsimp only
  split
  · exact .copyLine h
  · split
    · exact .copytElem h
    · exact .copytStart h
  · exact .cmprLine h
  · exact .dcmpLine h
  · exact .ite (.collStart h) (.collLine h)
  · refine .ite .error (.ite .error ?_)
    split
    · next _ _ e =>
      exact .ok (.setTxn ((.fstEq (.migGo h) e)))
    · next _ e =>
      exact .ok ((.fstEq (.migGo h) e))
  · exact .error

theorem OptAll.engStep {t} (h : s.Kept q) : OptAll (State.Kept q) (s.engStep t) := by
  unfold State.engStep
  dsimp only
  split
  · exact .none
  · split
    · refine .ite .none ?_
      split
      · next _ e =>
        exact .some (.noteObj (.leaveServers (.dropLines (OkAll.engLine h _ e))))
      · exact .ite (.some (.setTxn h)) .none
      · exact .some (.newTxn (.setTxn h))
      · exact .ite .none (.some (.foldl (fun _ _ h4 => .enterAt h4) (.setTxn h)))
      · exact .some (.setTxn (.isolate h))
      · exact .some (.setTxn h)
    · exact .none

theorem State.Kept.engRun {t n} (h : s.Kept q) : (s.engRun t n).Kept q := by
  induction n generalizing s with
  | zero => exact h
  | succ n ih =>
    unfold State.engRun
    split
    · next e => exact ih (OptAll.engStep h _ e)
    · exact h

theorem State.Kept.endEng {t x core obj r} (h : s.Kept q) : (s.endEng t x core obj r).Kept q := by
  unfold State.endEng
  extract_lets o fl js s1 s2 s3 s4 past s5 s6 s7 gone a b c d e f
  have h3 : s3.Kept q := .settleTxn (.uncountRegs (.leaveRanges (.dropLines h)))
  have h7 : s7.Kept q := .foldl (fun _ _ h => .raiseFloor h) (.raiseFloor (.tagArrival (.ite (.modCore h3) h3)))
  have hd : d.Kept q := .giveFlags (.foldl (fun _ _ h => .modProc h) h7)
  have he : e.Kept q := by
    unfold e
    split
    · exact .foldl (fun _ _ h => .dropTxn (.deliver h)) (.dropTxn (.deliver h7))
    · exact .foldl (fun _ _ h => .dropTxn h) (.dropTxn (.ite hd (.unpark (.failC hd))))
  exact .wakeAlts (.pumpAll (.foldl (fun _ _ h => .tryExit h) (.foldl (fun _ _ h => .ready h) he)))

theorem NextKept.execEngineCompletion {t} (h : s.Kept q) : NextKept q (execEngineCompletion t s) := by
  unfold Machine.execEngineCompletion
  split
  · exact .next h
  · extract_lets s1
    have h1 : s1.Kept q := .engRun h
    split
    · exact .next h1
    split
    · extract_lets thread isFork off
      have hoff : (off s1).Kept q := by
        dsimp only [off]
        refine .ite ?_ h1
        split
        · exact .setEngine (.upd (.noteObj h1))
        · exact .upd (.noteObj h1)
      refine .ite (.next h1) ?_
      split
      · exact .ite (.next h1) (.next (.endEng hoff))
      · exact .next (.endEng hoff)
      · split
        · split
          · exact .ite (.next (.endEng (.collArrivals h1))) (.next (.setTxn (.collArrivals h1)))
          · exact .next (.endEng h1)
        · exact .next h1
      · exact .next h1
    · exact .next h1

theorem State.Kept.takeObj {i e2 j} (h : s.Kept q) : (s.takeObj i e2 j).Kept q :=
  .issuePend (.push (.countRegs (.iteThen (.enterRanges (.modCore h)) fun h1 => .takeToken h1)))

theorem OkAll.beginEng {i e2} (h : s.Kept q) : OkAll (State.Kept q) (s.beginEng i e2) := by
  unfold State.beginEng
  dsimp only
  refine .bind (P := State.Kept q) ?_ fun _ h1 => ?_
  · split
    · next _ e =>
      exact .ok (OkAll.startRanges h _ e)
    · exact .error
  · refine .ite ?_ ?_
    · refine .pass fun _ => ?_
      split
      · exact .error
      · exact .ite .error (.ok (.takeObj h1))
    · refine .pass fun _ => ?_
      split
      · exact .error
      · exact .ite .error (.ok (.takeObj h1))

theorem NextKept.execCopy {x y z} (h : s.Kept q) : NextKept q (execCopy x y z s) := by
  unfold Machine.execCopy
  dsimp only
  refine .finish h (.pass fun _ => .pass fun _ => .pass fun _ => .pass fun _ => .pass fun _ => .pass fun _ => ?_)
  refine .pass fun _ => .pass fun _ => .ite ?_ ?_
  · refine .pass fun _ => .pass fun _ => .pass fun _ => .bind (.beginEng h) fun _ h1 => ?_
    split
    · exact .ok h1
    · split
      · exact .ok (.ite (.endEng h1) h1)
      · exact .ok h1
  · refine .pass fun _ => .pass fun _ => .pass fun _ => .bind (.beginEng h) fun _ h1 => ?_
    split
    · exact .ok h1
    · split
      · exact .ok (.ite (.endEng h1) h1)
      · exact .ok h1

theorem NextKept.execCopyt {x y z} (h : s.Kept q) : NextKept q (execCopyt x y z s) := by
  unfold Machine.execCopyt
  dsimp only
  refine .finish h (.pass fun _ => .pass fun _ => .pass fun _ => .pass fun _ => .pass fun _ => .pass fun _ => ?_)
  refine .pass fun _ => .ite (.pass fun _ => .pass fun _ => .pass fun _ => .pass fun _ => .beginEng h) ?_
  exact .pass fun _ => .pass fun _ => .pass fun _ => .pass fun _ => .beginEng h

theorem NextKept.execColl {x} (h : s.Kept q) : NextKept q (execColl x s) :=
  .finish h (.pass fun _ => .pass fun _ => .pass fun _ => .pass fun _ => .pass fun _ => .beginEng h)

theorem OkAll.pressForm {x y z expand} (h : s.Kept q) : OkAll (State.Kept q) (pressForm s x y z expand) := by
  unfold Machine.pressForm
  dsimp only
  refine .pass fun _ => .pass fun _ => .pass fun _ => .pass fun _ => .pass fun _ => ?_
  exact .pass fun _ => .pass fun _ => .pass fun _ => .pass fun _ => .pass fun _ => .pass fun _ => .beginEng h

theorem NextKept.execCmpr {x y z} (h : s.Kept q) : NextKept q (execCmpr x y z s) :=
  .finish h (.pressForm h)

theorem NextKept.execDcmp {x y z} (h : s.Kept q) : NextKept q (execDcmp x y z s) :=
  .finish h (.pressForm h)

theorem NextKept.execFork {x y e2} (h : s.Kept q) : NextKept q (execFork x y e2 s) := by
  unfold Machine.execFork
  dsimp only
  refine .finish h (.pass fun _ => .pass fun _ => .pass fun _ => ?_)
  split
  · exact .error
  · exact .bind (.beginEng h) fun _ h2 => .ok (.setEngine h2)

theorem State.Kept.startThread {t x kind prog par h6} (h : s.Kept q) :
    (s.startThread t x kind prog par h6).Kept q := by
  unfold State.startThread
  dsimp only
  split
  · exact .setProc (.setTxn h)
  · exact .modTxn (.setTxn h)

theorem NextKept.execForkThreadStart {t} (h : s.Kept q) : NextKept q (execForkThreadStart t s) := by
  unfold Machine.execForkThreadStart
  dsimp only
  split
  · exact .next h
  · split
    · split
      · exact .next h
      · exact .ite (.next (.startThread h)) (.next h)
    · exact .next h

theorem State.Kept.threadFor {part core sender loc kind u prog bs j} (h : s.Kept q) :
    (s.threadFor part core sender loc kind u prog bs j).Kept q :=
  .startThread (.setEngine (.newTxn (.modCore h)))

theorem NextKept.execEngineChannelDispatch {chan} (h : s.Kept q) :
    NextKept q (execEngineChannelDispatch chan s) := by
  unfold Machine.execEngineChannelDispatch
  dsimp only
  split
  · exact .next h
  · split
    · exact .next h
    · split
      · exact .next h
      · split
        · refine .ite (.next h) (.next (.chanChanged (.threadFor ?_)))
          split
          · exact .setTxn (.leaveQueue h)
          · exact .modChan h
        · exact .next h

theorem NextKept.execJoin {x k} (h : s.Kept q) : NextKept q (execJoin x k s) := by
  unfold Machine.execJoin
  dsimp only
  refine .finish h (.pass fun _ => ?_)
  exact .pass fun _ => .pass fun _ => .ite (.ok (.pushLater h)) (.pass fun _ => .ok (.block (.issuePend h)))

theorem OkAll.migForm {x y} (h : s.Kept q) : OkAll (State.Kept q) (migForm s x y) := by
  unfold Machine.migForm
  dsimp only
  refine .pass fun _ => .pass fun _ => .pass fun _ => ?_
  exact .pass fun _ => .pass fun _ => .pass fun _ => .pass fun _ => .pass fun _ => .pass fun _ => .beginEng h

theorem NextKept.execMigMove {x y} (h : s.Kept q) : NextKept q (execMigMove x y s) :=
  .finish h (.migForm h)

theorem NextKept.execMigCancel {x y} (h : s.Kept q) : NextKept q (execMigCancel x y s) :=
  .finish h (.migForm h)

theorem NextKept.execMigPinSet {x y} (h : s.Kept q) : NextKept q (execMigPinSet x y s) :=
  .finish h (.migForm h)

theorem NextKept.execMigPinClear {x y} (h : s.Kept q) : NextKept q (execMigPinClear x y s) :=
  .finish h (.migForm h)

theorem NextKept.execMigTakePage {x y} (h : s.Kept q) : NextKept q (execMigTakePage x y s) :=
  .finish h (.migForm h)

theorem NextKept.execMigReturnPage {x y} (h : s.Kept q) : NextKept q (execMigReturnPage x y s) :=
  .finish h (.migForm h)

theorem NextKept.execMemoryServerRequest {v} (h : s.Kept q) : NextKept q (execMemoryServerRequest v s) := by
  unfold Machine.execMemoryServerRequest
  split
  · exact .next h
  · split
    · split
      · exact .next (.setTxn h)
      · exact .next (.getD (.engStep h) h)
    · exact .next h
    · refine .ite ?_ ?_
      · refine .ite ?_ ?_
        · split
          · exact .next (.serveArm h)
          · exact .next (.serveWake h)
          · exact .next (.serveRead h)
        · exact .ite (.next (.placeFar h)) (.ite (.next (.enter h)) (.next h))
      · exact .next h

theorem NextKept.execPendingResultArrival {v} (h : s.Kept q) : NextKept q (execPendingResultArrival v s) := by
  unfold Machine.execPendingResultArrival
  split
  · exact .next h
  · extract_lets frozen u s1
    have h1 : s1.Kept q := .ite h ?_
    · exact .next (.ite h1 (.tryExit h1))
    split
    · exact .ite (.arrive (.startSpawn h)) (.arrive h)
    · exact .ite (.arrive (.openChan h)) (.arrive h)
    · exact .ite (.startAlt h) (.arrive h)
    · exact .ite (.dropTxn h) h
    · exact .ite (.arrive (.setTxn (.harvest h))) (.arrive h)
    · exact .wakeAlts (.pumpAll (.landOp h))
    · exact .wakeAlts (.pumpAll (.landOp h))
    · exact .wakeAlts (.pumpAll (.landOp h))
    · exact .wakeAlts (.pumpAll (.landOp h))
    · exact h
    · exact h
    · exact h
    · exact .ite (.arrive h) (.ite (.arrive (.setTxn h)) h)
    · exact .arrive (.getD (.serveRest h) h)
    · exact .ite (.arrive (.setTxn h)) h
    · refine .ite (.takeBinding h) (.ite (.setOut h) (.ite ?_ (.arrive h)))
      exact .iteElse (.serveRead h) fun h1 => .arrive h1

/-! ### Operations of `Machine/Sched` -/

theorem State.Kept.loadStandby {core ctx k} (h : s.Kept q) : (s.loadStandby core ctx k).Kept q := by
  unfold State.loadStandby
  dsimp only
  refine .modCore (.modProc (.dequeue ?_))
  split
  · exact .enqueue (.modProc h)
  · exact h

theorem NextKept.execStandbyLoad {core ctx} (h : s.Kept q) : NextKept q (execStandbyLoad core ctx s) := by
  unfold Machine.execStandbyLoad
  split
  · exact .next h
  · exact .ite (.next (.loadStandby h)) (.next h)

theorem State.Kept.refill {core n} (h : s.Kept q) : (s.refill core n).Kept q := by
  induction n generalizing s with
  | zero => exact h
  | succ n ih =>
    unfold State.refill
    split
    · exact h
    · split
      · exact ih (.loadStandby h)
      · exact h

theorem NextKept.execQuantumDue {core ctx} (h : s.Kept q) : NextKept q (execQuantumDue core ctx s) := by
  unfold Machine.execQuantumDue
  dsimp only
  split
  · exact .ite (.next (.modCore h)) (.next h)
  · exact .next h

theorem State.Kept.swap {core ctx} (h : s.Kept q) : (s.swap core ctx).Kept q := by
  unfold State.swap
  dsimp only
  refine .modCore ?_
  split
  · exact .iteThen (.leaveCtx h) fun h2 => .enqueue (.modProc h2)
  · exact h

theorem NextKept.execContextSwap {core ctx} (h : s.Kept q) : NextKept q (execContextSwap core ctx s) :=
  .ite (.next (.swap h)) (.next h)

theorem NextKept.execSwapComplete {core ctx} (h : s.Kept q) : NextKept q (execSwapComplete core ctx s) := by
  unfold Machine.execSwapComplete
  dsimp only
  split
  · exact .ite (.next (.modProc (.modCore h))) (.next h)
  · exact .next h

theorem NextKept.execRegisterImageWriteEnd {core ctx} (h : s.Kept q) :
    NextKept q (execRegisterImageWriteEnd core ctx s) := by
  unfold Machine.execRegisterImageWriteEnd
  dsimp only
  split
  · exact .ite (.next h) (.next (.modCore (.writeImg h)))
  · exact .next h

theorem OptAll.grantMember {prio k} (h : s.Kept q) : OptAll (State.Kept q) (s.grantMember prio k) := by
  unfold State.grantMember
  dsimp only
  split
  · exact .none
  · refine .some (.modProc (.modCore ?_))
    split
    · exact .enqueue (.modProc h)
    · exact h

theorem OptAll.grantGang {g} (h : s.Kept q) : OptAll (State.Kept q) (s.grantGang g) := by
  have hstep {l : List Nat} {o : Option State} (ho : OptAll (State.Kept q) o) :
      OptAll (State.Kept q) (l.foldl (fun a k => a.bind fun s => s.grantMember (gangPrio s g) k) o) := by
    induction l generalizing o with
    | nil => exact ho
    | cons k l ih => exact ih (.bind ho fun _ h => .grantMember h)
  exact hstep (.some h)

theorem NextKept.execGangGrant {gang} (h : s.Kept q) : NextKept q (execGangGrant gang s) := by
  unfold Machine.execGangGrant
  dsimp only
  split
  · exact .next h
  · refine .ite ?_ ?_
    · split
      · next _ e =>
        exact .next (.upd (OptAll.grantGang h _ e))
      · exact .next h
    · exact .next h

theorem State.Kept.ship {k core} (h : s.Kept q) : (s.ship k core).Kept q :=
  .enqueue (.spadCopy (.modProc (.modPart (.dequeue h))))

theorem NextKept.execWorkStealRound {clu} (h : s.Kept q) : NextKept q (execWorkStealRound clu s) := by
  unfold Machine.execWorkStealRound
  dsimp only
  refine .ite (.next h) ?_
  split
  · exact .next (.foldl (fun _ _ h2 => .ship h2) h)
  · exact .next (.setCluster h)

theorem State.Kept.spawnHandler {inst idx n2 n3 id} (h : s.Kept q) : (s.spawnHandler inst idx n2 n3 id).Kept q := by
  unfold State.spawnHandler
  exact .modInst (.modProc (.keepCtx (.makeProc (.modPart (.upd h)))))

theorem NextKept.execHandlerSpawn {inst} (h : s.Kept q) : NextKept q (execHandlerSpawn inst s) := by
  unfold Machine.execHandlerSpawn
  dsimp only
  split
  · refine .ite ?_ ?_
    · split
      · exact .next (.modInst h)
      · exact .next (.spawnHandler (.modInst h))
    · exact .next h
  · exact .next h

theorem State.Kept.undoHeld {k} (h : s.Kept q) : (s.undoHeld k).Kept q := by
  unfold State.undoHeld
  refine .ite h (.foldl (fun _ _ h1 => ?_) h)
  refine .ite h1 ?_
  split
  · exact .undoMgang h1
  · exact .undoRepar h1
  · exact h1

theorem State.Kept.deliverC {k} (h : s.Kept q) : (s.deliverC k).Kept q := by
  unfold State.deliverC
  dsimp only
  split
  · exact h
  · exact .takeFault (.modProc (.undoHeld h))

theorem NextKept.execClassCFaultDelivery {k} (h : s.Kept q) : NextKept q (execClassCFaultDelivery k s) :=
  .ite (.next (.deliverC h)) (.next h)

theorem NextKept.execRatedFiring {k} (h : s.Kept q) : NextKept q (execRatedFiring k s) :=
  .ite (.next (.enqueue (.setProc (.reserveFiring h)))) (.next h)

theorem NextKept.execDeadlockReport {inst} (h : s.Kept q) : NextKept q (execDeadlockReport inst s) := by
  unfold Machine.execDeadlockReport
  dsimp only
  refine .ite ?_ ?_
  · split
    · refine .next ?_
      exact .spawnHandler (.ringPart (.modInst (.put h (Memory.wf_ite h.mem (Memory.wf_writeBytes _ _ h.mem)))))
    · exact .next (.ringPart (.modInst (.put h (Memory.wf_ite h.mem (Memory.wf_writeBytes _ _ h.mem)))))
  · exact .next h

/-! ### Operations of `Machine/Slices` -/

theorem State.Kept.loadCore {g} (h : s.Kept q) : (s.loadCore g).Kept q :=
  .setCore (.put h (Memory.wf_putCells _ (Memory.wf_clearBytes _ _ h.mem)))

theorem State.Kept.dropArea {part} (h : s.Kept q) : (s.dropArea part).Kept q := by
  unfold State.dropArea
  exact .modPart h

theorem State.Kept.loadCores {part l} (h : s.Kept q) : (s.loadCores part l).Kept q :=
  .foldl (fun _ _ h1 => .loadCore h1) h

theorem State.Kept.withCores {part f} (h : s.Kept q) (hf : ∀ s, s.Kept q → (f s).Kept q) :
    (s.withCores part f).Kept q :=
  .ite (hf _ h) (.foldl (fun _ _ h => .loadCore h) (.modPart (hf _ (.loadCores h))))

theorem State.Kept.stopProc {k} (h : s.Kept q) : (s.stopProc k).Kept q := by
  unfold State.stopProc
  exact .modProc h

theorem State.Kept.beginQuies {part inst why} (h : s.Kept q) : (s.beginQuies part inst why).Kept q := by
  unfold State.beginQuies
  dsimp only
  refine .modPart (.foldl (fun _ _ h1 => ?_) ?_)
  · exact .undoRepar h1
  · exact .foldl (fun _ _ h1 => .undoMgang h1) (.foldl (fun _ _ h1 => .stopProc h1) h)

theorem State.Kept.intoReplay {t} (h : s.Kept q) : (s.intoReplay t).Kept q := by
  unfold State.intoReplay
  split
  · exact h
  · extract_lets tree y keep s1
    have h1 : s1.Kept q := by
      unfold s1
      split
      · exact .arrive h
      · exact .arrive h
      · exact .arrive (.setTxn h)
      · exact h
      · exact .arrive h
      · exact .ite (.setTxn h) (.setTxn h)
      · exact .setTxn h
    split
    · exact .ite (.modCore h1) h1
    · exact h1

theorem State.Kept.setGangs {l a b} (h : s.Kept q) : (s.setGangs l a b).Kept q :=
  .upd h

theorem NextKept.execQuiescenceBudgetExpiry {part} (h : s.Kept q) :
    NextKept q (execQuiescenceBudgetExpiry part s) := by
  unfold Machine.execQuiescenceBudgetExpiry
  dsimp only
  split
  · exact .next h
  · refine .ite ?_ ?_
    · refine .next ?_
      exact .modPart (.setGangs (.foldl (fun _ _ h2 => .intoReplay h2) (.foldl (fun _ _ h2 => .stopProc h2) h)))
    · exact .next h

theorem State.Kept.startRetrains {part} (h : s.Kept q) : (s.startRetrains part).Kept q :=
  .foldl (fun _ _ h1 => .ite (.setMbd h1) h1) h

theorem NextKept.execPreemptLate {part} (h : s.Kept q) : NextKept q (execPreemptLate part s) := by
  unfold Machine.execPreemptLate
  split
  · exact .next h
  · exact .ite (.next (.startRetrains (.ringPart (.modPart h)))) (.next h)

theorem State.Kept.reissue {t} (h : s.Kept q) : (s.reissue t).Kept q := by
  unfold State.reissue
  dsimp only
  split
  · exact h
  · split
    · split
      · exact .iteThen (.setTxn h) fun h4 => .modCore h4
      · exact .setTxn h
    · exact h

theorem State.Kept.unstop {k} (h : s.Kept q) : (s.unstop k).Kept q :=
  .ite h (.iteThen (.setProc h) fun h1 => .ite (.setProc h1) (.ite h1 (.enqueue h1)))

theorem State.Kept.resume {part l} (h : s.Kept q) : (s.resume part l).Kept q := by
  unfold State.resume
  dsimp only
  refine .wakeAlts (.pumpAll (.foldl (fun _ _ h1 => ?_) ?_))
  · exact .tryExit h1
  · exact .modPart (.setGangs (.foldl (fun _ _ h1 => .unstop h1) (.foldl (fun _ _ h1 => .reissue h1) h)))

theorem State.Kept.beginSlice {part} (h : s.Kept q) : (s.beginSlice part).Kept q :=
  .resume (.modPart (.dropArea (.ite h (.loadCores h))))

theorem NextKept.execSliceEnd {part} (h : s.Kept q) : NextKept q (execSliceEnd part s) := by
  unfold Machine.execSliceEnd
  dsimp only
  split
  · exact .next h
  · refine .ite (.next h) (.ite (.next h) ?_)
    split
    · exact .next (.modPart h)
    · exact .ite (.next (.modPart h)) (.next (.beginQuies h))

theorem State.Kept.joinRotation {part} (h : s.Kept q) : (s.joinRotation part).Kept q :=
  .ite h (.ite h (.beginSlice h))

theorem State.Kept.areaPage {part f cells} (h : s.Kept q) : (s.areaPage part f cells).Kept q :=
  .iteElse (.put h (Memory.wf_putCells _ (Memory.wf_clearBytes _ _ h.mem))) fun h1 => .modPart h1

theorem State.Kept.saveArea {part img} (h : s.Kept q) : (s.saveArea part img).Kept q := by
  unfold State.saveArea
  dsimp only
  refine .foldl (fun _ _ h1 => ?_) ?_
  · exact .ite h1 (.setMbd h1)
  · refine .foldl (fun _ _ h1 => ?_) (.dropArea h)
    refine .foldl (fun _ _ h2 => ?_) h1
    split
    · exact .areaPage h2
    · exact h2

theorem State.Kept.takeImage {part z l} (h : s.Kept q) : (s.takeImage part z l).Kept q := by
  unfold State.takeImage
  dsimp only
  exact .modPart (.upd (.foldl (fun _ _ h1 => .modProc (.unschedule h1)) (.foldl (fun _ _ h1 => .modCore h1) h)))

/-! ### Operations of `Machine/Firmware` -/

theorem State.Kept.beginEntry {e1} (h : s.Kept q) : (s.beginEntry e1).Kept q :=
  .setQueue h

theorem State.Kept.invalid {e1} (h : s.Kept q) : (s.invalid e1).Kept q :=
  .complete (.draw h)

theorem NextKept.runCmd {e w query mine locks body} (h : s.Kept q) (hf : ∀ s x, s.Kept q → (body s x).Kept q) :
    NextKept q (runCmd s e w query mine locks body) := by
  unfold Machine.runCmd
  split
  · exact .next h
  · have h1 : (s.beginEntry e).Kept q := .beginEntry h
    refine .ite (.next h) (.ite (.next (.invalid h1)) (.ite (.next (.complete h1)) (.ite (.next (.invalid h1)) ?_)))
    exact .ite (.next (.complete h1)) (.ite (.next (.complete h1)) (.next (hf _ _ h1)))

theorem OptAll.anyPage {part tier} (h : s.Kept q) : OptAll (fun r => r.1.Kept q) (s.anyPage part tier) := by
  unfold State.anyPage
  refine .findSome? fun _ => .ite ?_ ?_
  · split
    · next _ _ e =>
      exact .some (.via ((.fstEq (.pickPage h) e)) fun h2 => .put h2 (Memory.wf_clearBytes _ _ h2.mem))
    · next _ e =>
      exact .none
  · exact .none

theorem OptAll.subTable {part pa} (h : s.Kept q) : OptAll (fun r => r.1.Kept q) (s.subTable part pa) :=
  .ite (.some h) (.map (.anyPage h) fun _ h1 => .put h1 (Memory.wf_writeBytes _ _ h1.mem))

theorem OptAll.mapEntry {part vpn e3} (h : s.Kept q) : OptAll (State.Kept q) (s.mapEntry part vpn e3) := by
  unfold State.mapEntry
  dsimp only
  refine .bind (.subTable h) fun _ h1 => .bind (.subTable h1) fun _ h2 => ?_
  exact .bind (.subTable h2) fun _ h3 => .some (.put h3 (Memory.wf_writeBytes _ _ h3.mem))

theorem OptAll.mapPage {part vpn frame w x pin} (h : s.Kept q) :
    OptAll (State.Kept q) (s.mapPage part vpn frame w x pin) :=
  .mapEntry h

theorem OptAll.mapRun {part n w x pin} (h : s.Kept q) : OptAll (fun r => r.1.Kept q) (s.mapRun part n w x pin) := by
  refine .bind (P := fun r => r.1.Kept q) (.foldlM (fun a _ (ha : a.1.Kept q) => ?_) h) fun _ hr =>
    .some (State.Kept.pair (.modPart hr))
  exact .bind (.anyPage ha) fun _ h1 => .bind (.mapPage h1) fun _ h2 => .some h2

theorem State.Kept.bumpRange {k n} (h : s.Kept q) : (s.bumpRange k n).Kept q :=
  .foldl (fun _ _ h1 => .bump h1) h

theorem State.Kept.failCmd {e1 st} (h : s.Kept q) : (s.failCmd e1 st).Kept q :=
  .ite (.invalid h) (.complete h)

theorem State.Kept.makePart {e level parent ts mask b queues ring} (h : s.Kept q) :
    (s.makePart e level parent ts mask b queues ring).Kept q := by
  unfold State.makePart
  extract_lets
  split
  · exact .failCmd h
  · refine .ite (.complete h) ?_
    extract_lets rs p0 s1
    have h1 : s1.Kept q := by
      unfold s1
      split
      · exact h
      · exact .modPart h
    split
    · exact .complete h
    · next hp =>
      have h2 := OptAll.anyPage (.setPart h1) _ hp
      exact .complete (.foldl (fun _ _ h => .setQueue h) (.setFn (.upd (.modPart h2))))
  · exact .complete h

theorem NextKept.execPartcreate {e0} (h : s.Kept q) : NextKept q (execPartcreate e0 s) := by
  unfold Machine.execPartcreate
  dsimp only
  refine .runCmd h (fun _ _ h1 => ?_)
  split
  · exact .ite (.invalid h1) (.makePart h1)
  · exact h1

theorem NextKept.execPartsplit {e0} (h : s.Kept q) : NextKept q (execPartsplit e0 s) := by
  unfold Machine.execPartsplit
  dsimp only
  refine .runCmd h (fun _ _ h1 => ?_)
  split
  · exact .ite (.complete h1) (.ite (.invalid h1) (.ite (.complete h1) (.makePart h1)))
  · exact h1

theorem State.Kept.abortNext {fn a n} (h : s.Kept q) : (s.abortNext fn a n).Kept q := by
  induction n generalizing s with
  | zero => exact h
  | succ n ih => exact ih (.complete (.beginEntry h))

theorem State.Kept.abortEntries {part} (h : s.Kept q) : (s.abortEntries part).Kept q := by
  unfold State.abortEntries
  dsimp only
  refine .foldl (fun _ _ h1 => ?_) h
  exact .setQueue (.iteThen (.foldl (fun _ _ h2 => .complete h2) h1) fun h2 => .abortNext h2)

theorem State.Kept.abortRuns {part} (h : s.Kept q) : (s.abortRuns part).Kept q :=
  .foldl (fun _ _ h1 => .complete h1) h

theorem State.Kept.clearPart {part} (h : s.Kept q) : (s.clearPart part).Kept q :=
  .upd h

theorem State.Kept.scrub {part} (h : s.Kept q) : (s.scrub part).Kept q :=
  .put h (Memory.wf_foldl _ _ (fun _ _ h1 => Memory.wf_clearBytes _ _ h1) h.mem)

theorem State.Kept.stopMotions {part} (h : s.Kept q) : (s.stopMotions part).Kept q :=
  .foldl (fun _ _ h1 => .abortMotion h1) h

theorem State.Kept.destroyOne {part} (h : s.Kept q) : (s.destroyOne part).Kept q := by
  unfold State.destroyOne
  extract_lets _ _ _ s1 s2 _ s3 s4 s5 s6 next s7 s8 _ s9
  have h2 : s2.Kept q := .foldl (fun _ _ h => .ringPart h) (.stopMotions (.setFn h))
  have h5 : s5.Kept q := .clearPart (.scrub (.abortEntries (.abortRuns h2)))
  have h8 : s8.Kept q := by
    unfold s8
    split
    · exact .upd (.upd h5)
    · exact .modPart (.upd (.upd h5))
  clear_value next
  split
  · exact .iteElse (.setFn h8) fun h => .beginSlice h
  · exact .setFn h8

theorem State.Kept.destroyPart {part} (h : s.Kept q) : (s.destroyPart part).Kept q :=
  .destroyOne (.foldl (fun _ _ h1 => .destroyOne h1) h)

theorem NextKept.execPartdestroy {e0} (h : s.Kept q) : NextKept q (execPartdestroy e0 s) := by
  unfold Machine.execPartdestroy
  refine .runCmd h (fun _ _ h1 => ?_)
  split
  · exact .ite (.complete h1) (.ite (.invalid h1) (.complete (.destroyPart h1)))
  · exact h1

/-! ### Operations of `Machine/Launch` -/

theorem Memory.wf_writeRun {m : List Host.Cell} {l : List Nat} {bs : List Byte} (h : Memory.wf m = true) :
    Memory.wf (writeRun m l bs) = true := by
  induction l generalizing m bs with
  | nil => exact h
  | cons f l ih => exact ih (Memory.wf_writeBytes _ _ h)

theorem OptAll.placeImage {part img} (h : s.Kept q) : OptAll (fun r => r.1.Kept q) (s.placeImage part img) :=
  .bind (.mapRun h) fun _ h => .bind (.mapRun h) fun _ h => .bind (.mapRun h) fun _ h => .bind (.mapRun h) fun _ h =>
    .some (.put h (Memory.wf_writeRun (Memory.wf_writeRun (Memory.wf_writeRun h.mem))))

theorem NextKept.execNetload {v} (h : s.Kept q) : NextKept q (execNetload v s) := by
  unfold Machine.execNetload
  dsimp only
  refine .ite (.next h) (.runCmd h (fun _ _ h1 => ?_))
  split
  · split
    · exact .invalid h1
    · refine .ite (.complete h1) (.ite (.complete h1) (.ite (.complete h1) (.ite (.complete h1) (.ite ?_ ?_))))
      · exact .invalid h1
      · refine .ite (.complete h1) ?_
        split
        · exact .complete h1
        · refine .ite (.complete h1) (.ite (.invalid h1) ?_)
          split
          · exact .complete h1
          · next _ _ _ _ _ _ e =>
            exact .ite (.complete h1) (.complete (.upd (.foldl (fun _ _ h6 => .setChan h6) (OptAll.placeImage h1 _ e))))
  · exact h1

theorem State.Kept.vaWrite {part f va bs} (h : s.Kept q) : (s.vaWrite part f va bs).Kept q := by
  induction f generalizing s va bs with
  | zero => exact h
  | succ f ih =>
    refine .iteElse ?_ fun h => ih h
    split
    · exact .bumpRange (.put h (Memory.wf_writeBytes _ _ h.mem))
    · exact h

theorem State.Kept.holdEnds {part o k index core} (h : s.Kept q) : (s.holdEnds part o k index core).Kept q := by
  unfold State.holdEnds
  refine .foldl (fun _ _ h1 => ?_) h
  split
  · exact .modChan h1
  · exact .modChan h1
  · exact h1

theorem State.Kept.startProc {part inst o blockVa gang index core} (h : s.Kept q) :
    (s.startProc part inst o blockVa gang index core).1.Kept q :=
  .keepCtx (.holdEnds (.makeProc (.modPart h)))

theorem State.Kept.startGangs {part img base ks} (h : s.Kept q) : (s.startGangs part img base ks).Kept q :=
  .foldl (fun _ _ h1 => .upd h1) h

theorem State.Kept.startPhases {part inst img} (h : s.Kept q) : (s.startPhases part inst img).Kept q :=
  .foldl (fun _ _ h1 => .loadPhase h1) (.foldl (fun _ _ h1 => .setPhase h1) h)

theorem OkAll.startRun {id w} (h : s.Kept q) : OkAll (State.Kept q) (s.startRun id w) := by
  unfold State.startRun
  split
  · exact .error
  dsimp only
  split
  · exact .error
  split
  · exact .error
  · exact .error
  · exact .error
  · split
    · exact .error
    · refine .ok (.startPhases (.startGangs (.foldlFst (fun _ _ h => .pair (.startProc h)) ?_)))
      refine .vaWrite (.foldl (fun _ _ h => .setChan h) ?_)
      refine .foldl (fun _ _ h => .modCore h) (.modPart (.foldl (fun _ _ h => .bumpRange h) ?_))
      exact .put h (Memory.wf_writeRun h.mem)

theorem State.Kept.startNext {id n} (h : s.Kept q) : (s.startNext id n).Kept q := by
  induction n generalizing s with
  | zero => exact h
  | succ n ih =>
    unfold State.startNext
    split
    · exact h
    · split
      · dsimp only
        split
        · next e => exact OkAll.startRun (.upd h) _ e
        · exact ih (.failCmd (.upd h))
      · exact h

theorem State.Kept.accept {e1 part id w} (h : s.Kept q) : (s.accept e1 part id w).Kept q := by
  unfold State.accept
  dsimp only
  split
  · exact .complete h
  · refine .ite (.complete h) (.ite (.complete h) ?_)
    exact .iteThen (.withCores (.upd h) (fun _ h2 => .startNext h2)) fun h2 => .joinRotation h2

theorem NextKept.execLaunch {e0 place} (h : s.Kept q) : NextKept q (execLaunch e0 place s) := by
  unfold Machine.execLaunch
  dsimp only
  refine .runCmd h (fun _ _ h1 => ?_)
  split
  · refine .ite (.accept h1) ?_
    split
    · exact .invalid h1
    · exact .accept h1
  · exact h1

theorem NextKept.execReplay {e0 place} (h : s.Kept q) : NextKept q (execReplay e0 place s) := by
  unfold Machine.execReplay
  dsimp only
  refine .runCmd h (fun _ _ h1 => ?_)
  split
  · split
    · exact .invalid h1
    · exact .ite (.invalid h1) (.accept h1)
  · exact h1

theorem State.Kept.inject {part ch bs marks svc dl} (h : s.Kept q) : (s.inject part ch bs marks svc dl).Kept q := by
  unfold State.inject
  dsimp only
  split
  · exact h
  · exact .blockOp (.chanChanged (.setChan (.newTxn h)))

theorem NextKept.execSignalHostQueue {e0} (h : s.Kept q) : NextKept q (execSignalHostQueue e0 s) := by
  unfold Machine.execSignalHostQueue
  dsimp only
  refine .runCmd h (fun _ _ h1 => ?_)
  split
  · refine .ite (.complete h1) ?_
    split
    · exact .complete h1
    · exact .ite (.invalid h1) (.complete (.inject h1))
  · exact h1

theorem NextKept.execSignalPhaseArrival {e0} (h : s.Kept q) : NextKept q (execSignalPhaseArrival e0 s) := by
  unfold Machine.execSignalPhaseArrival
  dsimp only
  refine .runCmd h (fun _ _ h1 => ?_)
  split
  · split
    · exact .complete h1
    · refine .ite (.complete h1) ?_
      split
      · next _ e =>
        exact .complete (OptAll.ite (.arriveAt h1) .none _ e)
      · exact .invalid h1
  · exact h1

theorem NextKept.execInstanceEnd {inst} (h : s.Kept q) : NextKept q (execInstanceEnd inst s) := by
  unfold Machine.execInstanceEnd
  dsimp only
  split
  · exact .next h
  · refine .ite (.next h) (.next (.startNext ?_))
    split
    · refine .complete (.upd (.foldl (fun _ _ h3 => ?_) ?_))
      · exact .flushEng h3
      · refine .foldl (fun _ _ h3 => ?_) ?_
        · exact .returnPage h3
        · refine .modPart ?_
          exact .foldl (fun _ _ h3 => .modCore h3) (.ringPart (.foldl (fun _ _ h3 => .ite h3 (.endProc h3)) h))
    · refine .upd (.foldl (fun _ _ h3 => ?_) ?_)
      · exact .flushEng h3
      · refine .foldl (fun _ _ h3 => ?_) ?_
        · exact .returnPage h3
        · refine .modPart ?_
          exact .foldl (fun _ _ h3 => .modCore h3) (.ringPart (.foldl (fun _ _ h3 => .ite h3 (.endProc h3)) h))

/-! ### Operations of `Machine/Commands` -/

theorem NextKept.stopCmd {e mine target locks body} (h : s.Kept q) (hf : ∀ s k c, s.Kept q → (body s k c).Kept q) :
    NextKept q (stopCmd s e mine target locks body) := by
  unfold Machine.stopCmd
  dsimp only
  split
  · exact .next h
  · exact .ite (.next h) (.runCmd h fun _ _ h => .ite (.complete h) (hf _ _ _ h))

theorem NextKept.execPreempt {e0} (h : s.Kept q) : NextKept q (execPreempt e0 s) := by
  unfold Machine.execPreempt
  refine .stopCmd h (fun _ _ _ h1 => ?_)
  split
  · exact .beginQuies h1
  · exact .ite (.complete h1) (.ite (.complete h1) (.beginQuies h1))
  · exact h1

theorem NextKept.execSave {e0} (h : s.Kept q) : NextKept q (execSave e0 s) := by
  unfold Machine.execSave
  refine .stopCmd h (fun _ _ _ h1 => ?_)
  split
  · exact .ite (.beginQuies h1) (.invalid h1)
  · exact h1

theorem NextKept.execMigrate {e0 ok} (h : s.Kept q) : NextKept q (execMigrate e0 ok s) := by
  unfold Machine.execMigrate
  dsimp only
  refine .stopCmd h (fun _ _ _ h1 => ?_)
  split
  · exact .beginQuies (.modPart (.stopMotions h1))
  · exact h1

theorem State.Kept.moveTokens {insts m} (h : s.Kept q) : (s.moveTokens insts m).Kept q :=
  .foldl (fun _ _ h1 => .modInst (.foldl (fun _ _ h2 => .modCore (.modCore h2)) h1)) h

theorem State.Kept.countTokens {part} (h : s.Kept q) : (s.countTokens part).Kept q :=
  .foldl (fun _ _ h1 => .modCore h1) h

theorem State.Kept.moveArms {l m} (h : s.Kept q) : (s.moveArms l m).Kept q :=
  .foldl (fun _ _ h1 => .setCluster h1) (.upd h)

theorem State.Kept.moveForks {part l} (h : s.Kept q) : (s.moveForks part l).Kept q := by
  unfold State.moveForks
  dsimp only
  refine .foldl (fun _ _ h1 => ?_) (.upd h)
  split
  · split
    · exact .setEngine h1
    · exact h1
  · exact h1

theorem State.Kept.putCore {c d g keep} (h : s.Kept q) : (s.putCore c d g keep).Kept q := by
  unfold State.putCore
  exact .modCore (.put h (Memory.wf_putCells _ h.mem))

theorem Memory.wf_clearSpad {m : List Host.Cell} {d : Nat} {l : List (Nat × Nat)} (h : Memory.wf m = true) :
    Memory.wf (clearSpad m d l) = true := Memory.wf_filter _ h

theorem State.Kept.putCores {d rest l} (h : s.Kept q) : (s.putCores d rest l).Kept q :=
  .foldlFst (fun _ _ h => .putCore h) (.put h (Memory.wf_clearSpad h.mem))

theorem State.Kept.moveSet {part l insts m} (h : s.Kept q) : (s.moveSet part l insts m).Kept q := by
  unfold State.moveSet
  dsimp only
  refine .modPart (.moveForks (.upd ?_))
  exact .moveArms (.moveTokens (.foldl (fun _ _ h1 => .putCores h1) (.foldl (fun _ _ h1 => .modCore h1) h)))

theorem State.Kept.formGangs {l} (h : s.Kept q) : (s.formGangs l).Kept q :=
  .foldl (fun _ _ h1 => .ite (.upd h1) h1) h

theorem State.Kept.putMatrix {m g} (h : s.Kept q) : (s.putMatrix m g).Kept q := by
  unfold State.putMatrix
  exact .modCore h

theorem State.Kept.restoreHeld {e1 part mask} (h : s.Kept q) : (s.restoreHeld e1 part mask).Kept q := by
  unfold State.restoreHeld
  dsimp only
  refine .ite (.complete h) (.ite (.invalid h) ?_)
  split
  · exact .complete h
  · refine .complete (.resume (.countTokens ?_))
    exact .dropArea (.modPart (.formGangs (.upd (.foldl (fun _ _ h2 => .putMatrix h2) (.moveSet h)))))

theorem State.Kept.rejoin {part} (h : s.Kept q) : (s.rejoin part).Kept q := by
  unfold State.rejoin
  dsimp only
  refine .foldl (fun _ _ h1 => ?_) h
  refine .ite h1 ?_
  split
  · exact .modChan h1
  · exact .modChan h1
  · exact .modChan h1
  · exact .modChan h1
  · exact .modChan h1
  · exact .modChan h1
  · exact .modChan h1
  · exact .setTxn h1
  · exact h1

theorem OptAll.restoreSet {part img mask} (h : s.Kept q) : OptAll (State.Kept q) (s.restoreSet part img mask) := by
  unfold State.restoreSet
  dsimp only
  refine .mapPass fun _ => .resume (.countTokens (.formGangs (.upd (.dropArea (.rejoin (.moveForks ?_))))))
  refine .moveArms (.moveTokens (.modPart (.foldl (fun _ _ h1 => ?_) ?_)))
  · exact .putMatrix h1
  · refine .foldl (fun _ _ h1 => ?_) ?_
    · exact .putCores h1
    · exact .upd (.foldl (fun _ _ h1 => .modCore h1) (.foldl (fun _ _ h1 => .unschedule h1) h))

theorem State.Kept.restoreImage {e1 part img mask} (h : s.Kept q) : (s.restoreImage e1 part img mask).Kept q := by
  unfold State.restoreImage
  refine .ite (.invalid h) ?_
  split
  · exact .complete h
  · next _ e =>
    exact .complete (OptAll.restoreSet h _ e)

theorem State.Kept.restoreAt {e1 part addr mask} (h : s.Kept q) : (s.restoreAt e1 part addr mask).Kept q := by
  unfold State.restoreAt
  split
  · exact .invalid h
  · refine .ite (.invalid h) (.ite (.complete h) (.ite (.invalid h) ?_))
    split
    · exact .complete h
    · exact .restoreImage h

theorem NextKept.execRestore {e0} (h : s.Kept q) : NextKept q (execRestore e0 s) := by
  unfold Machine.execRestore
  dsimp only
  refine .stopCmd h (fun _ _ _ h1 => ?_)
  split
  · exact .iteThen (.withCores h1 (fun _ h3 => .ite (.restoreHeld h3) (.restoreAt h3))) fun h3 => .joinRotation h3
  · exact h1

theorem State.Kept.writeImage {part dst b} (h : s.Kept q) : (s.writeImage part dst b).Kept q :=
  .ite (.put h (Memory.wf_putCells _ (Memory.wf_clearBytes _ _ h.mem))) (.vaWrite h)

theorem OptAll.saveTo {part dst len img} (h : s.Kept q) :
    OptAll (fun r => r.1.Kept q) (s.saveTo part dst len img) :=
  .ite .none (.some (.upd (.foldl (fun _ _ h1 => .modCore h1) (.writeImage h))))

theorem OptAll.sendMoved {part m z} (h : s.Kept q) : OptAll (State.Kept q) (s.sendMoved part m z) :=
  .mapPass fun _ => .sendFab h

theorem NextKept.execSaveStreamEnd {part} (h : s.Kept q) : NextKept q (execSaveStreamEnd part s) := by
  unfold Machine.execSaveStreamEnd
  split
  · exact .next h
  · next z _ =>
    have h1 : (if z.misses s.cycle then s.ringPart part (.preemptLate part) else s).Kept q := .ite (.ringPart h) h
    refine .ite (.next h) ?_
    extract_lets img s1 s2
    have h2 : State.Kept q s2 := .ite (.startRetrains (.saveArea h1)) h1
    split
    · split
      · exact .next (.beginSlice (.modPart h2))
      · exact .next (.modPart h2)
    · exact .next (.complete (.withCores h2 fun _ h => .takeImage h))
    · split
      · refine .next (.withCores h2 fun _ h => ?_)
        split
        · next e => exact .complete (.resume (OptAll.saveTo h _ e))
        · exact .complete (.resume h)
      · exact .next (.resume h2)
    · extract_lets
      split
      · next e =>
        exact .ite (.next h2) (.next (.complete (.destroyPart (.modPart (OptAll.ite (.sendMoved h2) .none _ e)))))
      · exact .next (.complete (.resume h2))

theorem State.Kept.clearAreas {part} (h : s.Kept q) : (s.clearAreas part).Kept q := by
  unfold State.clearAreas
  dsimp only
  refine .modPart ?_
  exact .put h (Memory.wf_clearBytes _ _ (Memory.wf_foldl _ _ (fun _ _ h1 => Memory.wf_clearBytes _ _ h1) h.mem))

theorem NextKept.execKeysetMemory {v} (h : s.Kept q) : NextKept q (execKeysetMemory v s) := by
  unfold Machine.execKeysetMemory
  dsimp only
  refine .runCmd h (fun _ _ h1 => ?_)
  split
  · refine .ite (.complete h1) (.ite (.invalid h1) ?_)
    split
    · exact .complete h1
    · exact .complete (.upd (.clearAreas h1))
  · exact h1

theorem NextKept.execKeysetBuneam {v} (h : s.Kept q) : NextKept q (execKeysetBuneam v s) := by
  unfold Machine.execKeysetBuneam
  dsimp only
  refine .runCmd h (fun _ _ h1 => ?_)
  split
  · exact .ite (.invalid h1) (.ite (.complete h1) (.complete (.flushPort (.upd h1))))
  · exact h1

theorem State.Kept.setTime {t} (h : s.Kept q) : (s.setTime t).Kept q :=
  .upd h

theorem NextKept.execTimeset {e0} (h : s.Kept q) : NextKept q (execTimeset e0 s) := by
  unfold Machine.execTimeset
  refine .runCmd h (fun _ _ h1 => ?_)
  split
  · exact .complete (.setTime h1)
  · exact h1

theorem State.Kept.adjTime {ppb step} (h : s.Kept q) : (s.adjTime ppb step).Kept q :=
  .ite (.upd h) (.upd h)

theorem NextKept.execTimeadj {e0} (h : s.Kept q) : NextKept q (execTimeadj e0 s) := by
  unfold Machine.execTimeadj
  refine .runCmd h (fun _ _ h1 => ?_)
  split
  · exact .ite (.invalid h1) (.complete (.adjTime h1))
  · exact h1

theorem NextKept.queryCmd {e sel there result} (h : s.Kept q) (hf : ∀ s k, s.Kept q → (result s k).1.Kept q) :
    NextKept q (queryCmd s e sel there result) := by
  refine .runCmd h fun _ _ h => ?_
  split
  · exact .ite (.invalid h) (.ite (.complete (hf _ _ h)) (.complete h))
  · exact h

theorem NextKept.execQueryRevision {e0} (h : s.Kept q) : NextKept q (execQueryRevision e0 s) :=
  .queryCmd h (fun _ _ h1 => h1)

theorem NextKept.execQueryPatchList {e0} (h : s.Kept q) : NextKept q (execQueryPatchList e0 s) :=
  .queryCmd h (fun _ _ h1 => .draw h1)

theorem NextKept.execQueryCapacity {e0} (h : s.Kept q) : NextKept q (execQueryCapacity e0 s) :=
  .queryCmd h (fun _ _ h1 => .draw h1)

theorem NextKept.execQueryBudgets {e0} (h : s.Kept q) : NextKept q (execQueryBudgets e0 s) :=
  .queryCmd h (fun _ _ h1 => h1)

theorem NextKept.execQueryInstanceState {e0} (h : s.Kept q) : NextKept q (execQueryInstanceState e0 s) :=
  .queryCmd h (fun _ _ h1 => .draw h1)

theorem NextKept.execQueryQueueState {e0} (h : s.Kept q) : NextKept q (execQueryQueueState e0 s) :=
  .queryCmd h (fun _ _ h1 => .draw h1)

/-! ### Operations of `Machine/Float` -/

theorem NextKept.execFadd {dbl x y k r} (h : s.Kept q) : NextKept q (execFadd dbl x y k r s) :=
  .finish h (.float2 h)

theorem NextKept.execFsub {dbl x y k r} (h : s.Kept q) : NextKept q (execFsub dbl x y k r s) :=
  .finish h (.float2 h)

theorem NextKept.execFmul {dbl x y k r} (h : s.Kept q) : NextKept q (execFmul dbl x y k r s) :=
  .finish h (.float2 h)

theorem NextKept.execFma {dbl x y kr r} (h : s.Kept q) : NextKept q (execFma dbl x y kr r s) :=
  .finish h (.pass fun _ => .pass fun _ => .pass fun _ => .pass fun _ => .ok (.setFlags (.push h)))

theorem NextKept.execFdiv {dbl x y k r} (h : s.Kept q) : NextKept q (execFdiv dbl x y k r s) :=
  .finish h (.pass fun _ => .pass fun _ => .pass fun _ => .ok (.pushLater h))

theorem NextKept.execFsqrt {dbl x k r} (h : s.Kept q) : NextKept q (execFsqrt dbl x k r s) :=
  .finish h (.pass fun _ => .pass fun _ => .ok (.pushLater h))

theorem NextKept.execFrint {dbl x k r} (h : s.Kept q) : NextKept q (execFrint dbl x k r s) :=
  .finish h (.float1 h)

theorem NextKept.execFins {dbl x y k r} (h : s.Kept q) : NextKept q (execFins dbl x y k r s) :=
  .finish h (.pass fun _ => .pass fun _ => .pass fun _ => .ok (.setFlags (.push h)))

theorem NextKept.execFmin {dbl x y k} (h : s.Kept q) : NextKept q (execFmin dbl x y k s) :=
  .finish h (.float2 h)

theorem NextKept.execFmax {dbl x y k} (h : s.Kept q) : NextKept q (execFmax dbl x y k s) :=
  .finish h (.float2 h)

theorem NextKept.execFabs {dbl x k} (h : s.Kept q) : NextKept q (execFabs dbl x k s) :=
  .finish h (.float1 h)

theorem NextKept.execFneg {dbl x k} (h : s.Kept q) : NextKept q (execFneg dbl x k s) :=
  .finish h (.float1 h)

theorem NextKept.execFcmp {dbl x y k} (h : s.Kept q) : NextKept q (execFcmp dbl x y k s) :=
  .finish h (.float2 h)

theorem NextKept.execFclass {dbl x k} (h : s.Kept q) : NextKept q (execFclass dbl x k s) :=
  .finish h (.float1 h)

theorem NextKept.execFexf {dbl x k} (h : s.Kept q) : NextKept q (execFexf dbl x k s) :=
  .finish h (.float1 h)

theorem NextKept.execFcvt {src dst x k r} (h : s.Kept q) : NextKept q (execFcvt src dst x k r s) :=
  .finish h (.pass fun _ => .pass fun _ => .ok (.setFlags (.push h)))

/-! ### Operations of `Machine/Security` -/

theorem NextKept.execDoeDiscovery {fn} (h : s.Kept q) : NextKept q (execDoeDiscovery fn s) :=
  .ite (.next (.setFn h)) (.next h)

theorem NextKept.execIdeKm {fn key} (h : s.Kept q) : NextKept q (execIdeKm fn key s) :=
  .ite (.next (.setFn h)) (.next h)

theorem NextKept.execSecuredSpdmSession {fn key} (h : s.Kept q) : NextKept q (execSecuredSpdmSession fn key s) :=
  .ite (.next (.setFn h)) (.next h)

theorem NextKept.tdispMsg {fn from_ f} (h : s.Kept q) : NextKept q (tdispMsg s fn from_ f) :=
  .ite (.next (.setFn h)) (.next h)

theorem NextKept.execLockInterface {fn} (h : s.Kept q) : NextKept q (execLockInterface fn s) :=
  .tdispMsg h

theorem NextKept.execStartInterface {fn} (h : s.Kept q) : NextKept q (execStartInterface fn s) :=
  .tdispMsg h

theorem NextKept.execStopInterface {fn} (h : s.Kept q) : NextKept q (execStopInterface fn s) :=
  .tdispMsg h

theorem NextKept.execGetDeviceInterfaceReport {fn} (h : s.Kept q) :
    NextKept q (execGetDeviceInterfaceReport fn s) :=
  .tdispMsg h

theorem State.Kept.newTree (h : s.Kept q) : (s.newTree).Kept q :=
  .ite (.upd h) (.upd h)

theorem State.Kept.sign (h : s.Kept q) : s.sign.1.Kept q := by
  unfold State.sign
  extract_lets s1
  have h1 : s1.Kept q := .ite h (.newTree h)
  split
  · exact .pair (.upd h1)
  · exact h1

theorem NextKept.execAttest {fn} (h : s.Kept q) : NextKept q (execAttest fn s) := by
  unfold Machine.execAttest
  dsimp only
  refine .ite ?_ ?_
  · split
    · next _ _ e =>
      exact .next (.setFn ((.fstEq (.sign h) e)))
    · next _ e =>
      exact .next ((.fstEq (.sign h) e))
  · exact .next h

/-! ### Operations of `Machine/Migration` -/

theorem State.Kept.settleTree {part nodes grans} (h : s.Kept q) : (s.settleTree part nodes grans).Kept q := by
  unfold State.settleTree
  dsimp only
  refine .foldl (fun _ _ h1 => ?_) (.modPart h)
  split
  · exact .upd h1
  · exact h1

theorem State.Kept.settleMoved {part pages bytes nodes grans base scale off floor} (h : s.Kept q) :
    (s.settleMoved part pages bytes nodes grans base scale off floor).Kept q := by
  unfold State.settleMoved
  dsimp only
  refine .ite h (.modPart (.settleTree (.foldl (fun _ _ h1 => ?_) ?_)))
  · split
    · exact .put h1 (Memory.wf_writeByte _ _ h1.mem)
    · exact h1
  · exact .foldl (fun _ _ h1 => .ite h1 (.getD (.bind (.anyPage h1) fun _ h2 => .mapEntry h2) h1)) h

theorem OptAll.looseFrames {part run} (h : s.Kept q) : OptAll (fun r => r.1.Kept q) (s.looseFrames part run) := by
  refine .bind (P := fun r => r.1.Kept q) (.foldlM (fun a _ (ha : a.1.Kept q) => ?_) h) fun _ hr =>
    .foldlM (Q := fun r : State × List (Nat × Nat) => r.1.Kept q) (fun a _ ha =>
      .ite (.some ha) (.map (.anyPage ha) fun _ h1 => State.Kept.pair h1)) hr
  exact .ite (.some ha) (.mapPass fun _ => State.Kept.pair (.modPart ha))

theorem State.Kept.settleRun {part run} (h : s.Kept q) : (s.settleRun part run).Kept q := by
  unfold State.settleRun
  split
  · exact h
  · next e =>
    have ht := OptAll.looseFrames h _ e
    extract_lets named v cell t1 t2 t3 mask img t4
    have h1 : t1.Kept q := .put ht (Memory.wf_putCells _ ht.mem)
    have h3 : t3.Kept q := .modPart (.foldl (fun _ _ h => .foldl (fun _ _ h => .modCore h) h) h1)
    have h4 : t4.Kept q := .withCores h3 fun _ h => .getD (.restoreSet h) h
    exact .ite h (.ite (.joinRotation h4) h4)

/-! ### Operations of `Machine/Links` -/

theorem State.Kept.takeAccess {port part off len f wide sca op} (h : s.Kept q) :
    (s.takeAccess port part off len f wide sca op).Kept q :=
  .ite (.sendFab h) (.ite h (.newTxn h))

theorem State.Kept.takeReply {n bs fl} (h : s.Kept q) : (s.takeReply n bs fl).Kept q := by
  unfold State.takeReply
  extract_lets t
  split
  · exact h
  split
  · exact .ite (.blockFar h) (.setTxn h)
  · exact .ite (.blockFar h) (.setTxn h)
  · refine .ite h ?_
    extract_lets s1 x
    have h1 : s1.Kept q := by
      unfold s1
      split
      · exact .ite (.put h (Memory.wf_writeBytes _ _ h.mem)) h
      · exact h
    exact .ite (.setTxn h1) (.ite (.serveRead h1) (.ite (.serveAtomic h1) (.endWrite (.applyParts h1))))
  · exact h

theorem State.Kept.remoteFault {n bad} (h : s.Kept q) : (s.remoteFault n bad).Kept q := by
  unfold State.remoteFault
  dsimp only
  split
  · exact h
  · exact .ite h (.ite (.ite (.failT h) (.setTxn h)) (.ite (.dropTxn (.breakTag (.deferRec h))) (.setTxn h)))

theorem State.Kept.farRound {part slot} (h : s.Kept q) : (s.farRound part slot).Kept q := by
  unfold State.farRound
  split
  · exact .setPhase h
  · exact h

theorem State.Kept.deliverFab {port m} (h : s.Kept q) : (s.deliverFab port m).Kept q := by
  unfold State.deliverFab
  split
  · exact .takeAccess h
  · exact .takeAccess h
  · exact .takeAccess h
  · exact .takeAccess h
  · exact .takeAccess h
  · exact .takeAccess h
  · split
    · next e =>
      obtain ⟨i, -, hi⟩ := Option.bind_eq_some_iff.mp e
      exact .sendFab (OptAll.countDown (.farRound h) _ hi)
    · exact .sendFab h
  · split
    · exact .riseLine (.setPhase h)
    · exact h
  · exact .modChan (.inject h)
  · exact .takeReply h
  · exact .takeReply h
  · exact .remoteFault h
  · exact .remoteFault h
  · exact .upd h
  · split
    · exact .deferRec (.upd h)
    · exact h
  · exact .iteThen (.settleMoved h) fun h1 => .settleRun h1
  · exact .setPort h
  · exact h

theorem State.Kept.portDown {port} (h : s.Kept q) : (s.portDown port).Kept q := by
  unfold State.portDown
  dsimp only
  refine .foldl (fun _ _ h1 => ?_) ?_
  · split
    · exact .ite (.blockFar h1) h1
    · exact .ite (.blockFar h1) h1
    · exact h1
  · refine .ringDev (.setPort (.upd (.foldl (fun _ _ h1 => ?_) h)))
    refine .ite ?_ ?_
    · refine .ite (.dropTxn (.failLine (.iteThen (.upd h1) fun h2 => .applyParts h2))) ?_
      exact .dropTxn (.breakTag (.deferRec (.iteThen (.upd h1) fun h2 => .applyParts h2)))
    · exact .setTxn h1

theorem NextKept.execBuneamFlitReceive {port f} (h : s.Kept q) : NextKept q (execBuneamFlitReceive port f s) := by
  unfold Machine.execBuneamFlitReceive
  dsimp only
  refine .ite (.next h) (.ite (.next (.setPort h)) (.ite (.ite (.next (.portDown h)) (.next (.setPort h))) ?_))
  exact .next (.wakeAlts (.pumpAll (.deliverFab (.setPort h))))

theorem NextKept.execBuneamNack {port seq} (h : s.Kept q) : NextKept q (execBuneamNack port seq s) :=
  .ite (.next h) (.next (.setPort h))

theorem NextKept.execPtpEventMessage {v} (h : s.Kept q) : NextKept q (execPtpEventMessage v s) :=
  .ite (.next h) (.next (.upd (.adjTime (.setPort h))))

theorem NextKept.execLaneSpareSubstitution {port} (h : s.Kept q) : NextKept q (execLaneSpareSubstitution port s) :=
  .ite (.next h) (.next (.upd (.setPort h)))

theorem NextKept.execPortRetrainEnd {port} (h : s.Kept q) : NextKept q (execPortRetrainEnd port s) :=
  .ite (.next h) (.next (.flushPort (.setPort h)))

theorem NextKept.execLaneLossHalfRate {port} (h : s.Kept q) : NextKept q (execLaneLossHalfRate port s) :=
  .ite (.next h) (.next (.setPort h))

theorem NextKept.execLinkKeyReplacement {v} (h : s.Kept q) : NextKept q (execLinkKeyReplacement v s) :=
  .ite (.next h) (.next (.flushPort (.setPort (.upd h))))

theorem NextKept.execFirmwareChannelRebind {part chan proc} (h : s.Kept q) :
    NextKept q (execFirmwareChannelRebind part chan proc s) := by
  unfold Machine.execFirmwareChannelRebind
  dsimp only
  split
  · exact .next h
  · refine .ite ?_ ?_
    · refine .next (.foldl (fun _ _ h2 => ?_) ?_)
      · exact .blockOp h2
      · refine .chanChanged (.foldl (fun _ _ h2 => ?_) (.rebind h))
        refine .modChan (.setTxn (.ite ?_ ?_))
        · split
          · exact .retire h2
          · exact h2
        · exact h2
    · exact .next h

theorem State.Kept.setCxl {d c} (h : s.Kept q) : (s.setCxl d c).Kept q :=
  .upd h

theorem NextKept.execCxlLinkFailure {d} (h : s.Kept q) : NextKept q (execCxlLinkFailure d s) :=
  .ite (.next h) (.next (.setCxl h))

theorem NextKept.execCxlRetrainEnd {d} (h : s.Kept q) : NextKept q (execCxlRetrainEnd d s) :=
  .ite (.next (.setCxl h)) (.next h)

theorem State.Kept.loseAccess {d t x} (h : s.Kept q) : (s.loseAccess d t x).Kept q := by
  unfold State.loseAccess
  dsimp only
  refine .ite h ?_
  split
  · exact .setTxn h
  · exact .setTxn h
  · exact .ite (.ite (.serveWrite (.upd h)) (.endWrite (.upd h))) h
  · exact .ite (.ite (.serveWrite (.upd h)) (.endWrite (.upd h))) h
  · exact h

theorem NextKept.execCxlPortLost {d} (h : s.Kept q) : NextKept q (execCxlPortLost d s) := by
  unfold Machine.execCxlPortLost
  dsimp only
  refine .ite (.next h) (.next ?_)
  exact .ringDev (.foldl (fun _ _ h1 => .abortMotion h1) (.setCxl (.foldl (fun _ _ h1 => .loseAccess h1) h)))

/-! ### Operations of `Machine/Module` -/

theorem State.Kept.applyRepair {r} (h : s.Kept q) : (s.applyRepair r).Kept q := by
  unfold State.applyRepair
  dsimp only
  split
  · exact .modCore h
  · exact .setMbd h
  · exact .setPort h
  · exact .setMbd h

theorem State.Kept.logRepair {r} (h : s.Kept q) : (s.logRepair r).Kept q :=
  .upd h

theorem State.Kept.selfCheck {core} (h : s.Kept q) : (s.selfCheck core).Kept q :=
  .ite h (.logRepair (.applyRepair h))

theorem State.Kept.restart {bad absent} (h : s.Kept q) : (s.restart bad absent).Kept q := by
  unfold State.restart
  extract_lets t0 t1 t2 t3 t4 t5 t6 t7 t8
  have h2 : t2.Kept q := ⟨Memory.wf_filter _ h.mem, fun _ => ⟨rfl, rfl⟩⟩
  have h5 : t5.Kept q := .foldl (fun _ _ h => .ringDev (.upd h)) (.newTree (.foldl (fun _ _ h => .ringDev h) h2))
  have h6 : t6.Kept q := .ite (.foldl (fun _ _ h => .applyRepair h) h5) h5
  have h8 : t8.Kept q := .foldl (fun _ _ h => .setPort h) (.foldl (fun _ _ h => .selfCheck h) h6)
  exact .ite (.upd h8) (.ringDev (.upd h8))

theorem NextKept.execReset {v} (h : s.Kept q) : NextKept q (execReset v s) :=
  .next (.restart h)

theorem NextKept.execThermalSlowdown {die temp} (h : s.Kept q) : NextKept q (execThermalSlowdown die temp s) :=
  .ite (.next (.setDie h)) (.next h)

theorem NextKept.execSlowdownLift {die temp} (h : s.Kept q) : NextKept q (execSlowdownLift die temp s) :=
  .ite (.next (.setDie h)) (.next h)

theorem NextKept.execThermalTrip {die temp} (h : s.Kept q) : NextKept q (execThermalTrip die temp s) :=
  .ite (.next (.ringDev (.upd h))) (.next h)

theorem NextKept.execPpsEdge (h : s.Kept q) : NextKept q (execPpsEdge s) :=
  .next (.upd h)

theorem State.Kept.failEngines {core} (h : s.Kept q) : (s.failEngines core).Kept q := by
  unfold State.failEngines
  dsimp only
  refine .upd (.foldl (fun _ _ h1 => ?_) h)
  split
  · exact .ite (.endEng h1) h1
  · exact h1

theorem State.Kept.loseTxns {k} (h : s.Kept q) : (s.loseTxns k).Kept q := by
  unfold State.loseTxns
  dsimp only
  refine .upd (.foldl (fun _ _ h1 => ?_) h)
  split
  · exact h1
  · exact .unmatch h1
  · exact h1

theorem State.Kept.coreLost {core k} (h : s.Kept q) : (s.coreLost core k).Kept q :=
  .iteThen (.takeFault (.dropWaits h)) fun h1 => .modProc h1

theorem NextKept.execCoreRetire {core} (h : s.Kept q) : NextKept q (execCoreRetire core s) := by
  unfold Machine.execCoreRetire
  refine .ite (.next h) ?_
  extract_lets l s1 s2 s3 held s4 s5 s6
  have h1 : s1.Kept q := .foldl (fun _ _ h => .loseTxns (.dropAlt h)) (.failEngines h)
  have h3 : s3.Kept q := .modCore (.foldl (fun _ _ h => .modProc (.unschedule h)) h1)
  have h5 : s5.Kept q := .foldl (fun _ _ h => .spadCopy (.modInst h)) (.put h3 (Memory.wf_clearBytes _ _ h3.mem))
  exact .next (.wakeAlts (.pumpAll (.logRepair (.foldl (fun _ _ h => .coreLost h) h5))))

theorem NextKept.onStack {k c f} (h : s.Kept q) : NextKept q (onStack s k c f) :=
  .ite (.next (.setMbd h)) (.next h)

theorem NextKept.execPseudoChannelSubstitution {stack ch} (h : s.Kept q) :
    NextKept q (execPseudoChannelSubstitution stack ch s) :=
  .onStack h

theorem NextKept.execPseudoChannelCopyEnd {stack bad} (h : s.Kept q) :
    NextKept q (execPseudoChannelCopyEnd stack bad s) := by
  unfold Machine.execPseudoChannelCopyEnd
  dsimp only
  split
  · exact .next h
  · refine .next ?_
    exact .logRepair (.setMbd (.put h (Memory.wf_foldl _ _ (fun _ _ h2 => Memory.wf_clearBytes _ _ h2) h.mem)))

theorem NextKept.execRowRepair {stack row} (h : s.Kept q) : NextKept q (execRowRepair stack row s) :=
  .onStack h

theorem NextKept.execRowRepairEnd {stack row} (h : s.Kept q) : NextKept q (execRowRepairEnd stack row s) :=
  .ite (.next h) (.next (.logRepair (.setMbd h)))

theorem NextKept.execNeighbourRefresh {stack row} (h : s.Kept q) : NextKept q (execNeighbourRefresh stack row s) :=
  .onStack h

theorem NextKept.execRowRefresh {stack row} (h : s.Kept q) : NextKept q (execRowRefresh stack row s) :=
  .onStack h

theorem State.Kept.parityFails {stack row} (h : s.Kept q) : (s.parityFails stack row).Kept q :=
  .ite h (.ringDev (.setMbd h))

theorem State.Kept.decays {k} (h : s.Kept q) : (s.decays k).Kept q :=
  .ite (.upd h) h

theorem NextKept.execStackRetrain {stack} (h : s.Kept q) : NextKept q (execStackRetrain stack s) :=
  .onStack h

theorem NextKept.execStackEmergencyRetrain {stack} (h : s.Kept q) :
    NextKept q (execStackEmergencyRetrain stack s) :=
  .onStack h

theorem NextKept.execStackRetrainEnd {stack} (h : s.Kept q) : NextKept q (execStackRetrainEnd stack s) :=
  .onStack h

/-! ### Operations of `Machine/Torus` -/

theorem State.Kept.setRouter {n r} (h : s.Kept q) : (s.setRouter n r).Kept q :=
  .upd h

theorem State.Kept.arriveAtRouter {node inp p} (h : s.Kept q) : (s.arriveAtRouter node inp p).Kept q :=
  .setRouter h

theorem NextKept.execPacketInject {node p} (h : s.Kept q) : NextKept q (execPacketInject node p s) :=
  .ite (.next (.arriveAtRouter h)) (.next h)

theorem NextKept.execMulticastReserve {node inp} (h : s.Kept q) : NextKept q (execMulticastReserve node inp s) := by
  unfold Machine.execMulticastReserve
  dsimp only
  split
  · exact .ite (.next (.setRouter h)) (.next h)
  · exact .next h

theorem NextKept.execMulticastUrgent {node inp} (h : s.Kept q) : NextKept q (execMulticastUrgent node inp s) := by
  unfold Machine.execMulticastUrgent
  dsimp only
  split
  · exact .ite (.next (.setRouter h)) (.next h)
  · exact .next h

theorem State.Kept.passPacket {node inp out} (h : s.Kept q) : (s.passPacket node inp out).Kept q := by
  unfold State.passPacket
  dsimp only
  split
  · exact h
  · exact .ite (.setRouter h) (.setRouter (.setRouter h))

theorem NextKept.execRouterGrant {node out} (h : s.Kept q) : NextKept q (execRouterGrant node out s) := by
  unfold Machine.execRouterGrant
  split
  · exact .next (.passPacket h)
  · exact .next h

theorem NextKept.execTorusFlitReceive {node inp ok} (h : s.Kept q) :
    NextKept q (execTorusFlitReceive node inp ok s) := by
  unfold Machine.execTorusFlitReceive
  dsimp only
  split
  · exact .next h
  · exact .ite (.next (.arriveAtRouter (.setRouter h))) (.next (.setRouter h))

/-! ### Operations of `Machine/Dispatch` -/

theorem NextKept.exec {i} (h : s.Kept q) : NextKept q (exec i s) := by
  unfold Machine.exec
  split
  · exact .execTrap h
  · exact .execBrk h
  · exact .execEret h
  · exact .execCtlr h
  · exact .execCtlw h
  · exact .execShootDown h
  · exact .execShootDownDeny h
  · exact .execIdle h
  · exact .execPwrq h
  · exact .execHarvest h
  · exact .execBr h
  · exact .execBc h
  · exact .execCall h
  · exact .execCalli h
  · exact .execJmpi h
  · exact .execRet h
  · exact .execLoop h
  · exact .execRep h
  · exact .execSched h
  · exact .execNop h
  · exact .execLd h
  · exact .execLd128 h
  · exact .execSt h
  · exact .execPrfR h
  · exact .execPrfW h
  · exact .execLdx h
  · exact .execStx h
  · exact .execTld h
  · exact .execTst h
  · exact .execVld h
  · exact .execVst h
  · exact .execVldb h
  · exact .execVgat32 h
  · exact .execVgat16 h
  · exact .execVsca32 h
  · exact .execVsca16 h
  · exact .execAtom h
  · exact .execAtomCas h
  · exact .execRed h
  · exact .execRedx h
  · exact .execFence h
  · exact .execWaita h
  · exact .execWake h
  · exact .execPhase h
  · exact .execArrive h
  · exact .execPwait h
  · exact .execTime h
  · exact .execWaitt h
  · exact .execSpawn h
  · exact .execExit h
  · exact .execYield h
  · exact .execSend h
  · exact .execSendT h
  · exact .execRecv h
  · exact .execRecvT h
  · exact .execSendt h
  · exact .execSendtT h
  · exact .execRecvt h
  · exact .execRecvtT h
  · exact .execAltg h
  · exact .execAlt h
  · exact .execAltT h
  · exact .execChopen h
  · exact .execChclose h
  · exact .execChinfo h
  · exact .execChbind h
  · exact .execEnrol h
  · exact .execUnenrol h
  · exact .execSettle h
  · exact .execChgrd h
  · exact .execChgcmp h
  · exact .execRepar h
  · exact .execCopy h
  · exact .execCopyt h
  · exact .execColl h
  · exact .execCmpr h
  · exact .execDcmp h
  · exact .execFork h
  · exact .execJoin h
  · exact .execMigMove h
  · exact .execMigCancel h
  · exact .execMigPinSet h
  · exact .execMigPinClear h
  · exact .execMigTakePage h
  · exact .execMigReturnPage h
  · exact .execHot h
  · exact .execBdeclLin h
  · exact .execBdeclRing h
  · exact .execBstateOpen h
  · exact .execBstateSeal h
  · exact .execBstateRel h
  · exact .execBquery h
  · exact .execBqueryW h
  · exact .execAdd h
  · exact .execSub h
  · exact .execMul h
  · exact .execMulhI64 h
  · exact .execMulhN64 h
  · exact .execDivI64 h
  · exact .execDivN64 h
  · exact .execRemI64 h
  · exact .execRemN64 h
  · exact .execMinI64 h
  · exact .execMinN64 h
  · exact .execMaxI64 h
  · exact .execMaxN64 h
  · exact .execCmpI64 h
  · exact .execCmpN64 h
  · exact .execAnd h
  · exact .execOr h
  · exact .execXor h
  · exact .execAndn h
  · exact .execShl h
  · exact .execShr h
  · exact .execSar h
  · exact .execRol h
  · exact .execSel h
  · exact .execNeg h
  · exact .execAbs h
  · exact .execNot h
  · exact .execClz h
  · exact .execCtz h
  · exact .execPopc h
  · exact .execLi h
  · exact .execLih h
  · exact .execSext h
  · exact .execZext h
  · exact .execBext h
  · exact .execAddi h
  · exact .execBins h
  · exact .execAddpImm h
  · exact .execAddp h
  · exact .execFmtp h
  · exact .execPeer h
  · exact .execPtrq h
  · exact .execFadd h
  · exact .execFsub h
  · exact .execFmul h
  · exact .execFma h
  · exact .execFdiv h
  · exact .execFsqrt h
  · exact .execFrint h
  · exact .execFins h
  · exact .execFmin h
  · exact .execFmax h
  · exact .execFabs h
  · exact .execFneg h
  · exact .execFcmp h
  · exact .execFclass h
  · exact .execFexf h
  · exact .execFcvt h
  · exact .execVadd h
  · exact .execVsub h
  · exact .execVmul h
  · exact .execVmin h
  · exact .execVmax h
  · exact .execVfmaF32 h
  · exact .execVfmsF32 h
  · exact .execVfmaBf16 h
  · exact .execVfmsBf16 h
  · exact .execVfmaF16 h
  · exact .execVfmsF16 h
  · exact .execVabs h
  · exact .execVneg h
  · exact .execVfrint h
  · exact .execVfexf h
  · exact .execVrcp h
  · exact .execVrsq h
  · exact .execVfclass h
  · exact .execVpopc h
  · exact .execVmov h
  · exact .execVand h
  · exact .execVor h
  · exact .execVxor h
  · exact .execVshl32 h
  · exact .execVshl16 h
  · exact .execVshr32 h
  · exact .execVshr16 h
  · exact .execVsar32 h
  · exact .execVsar16 h
  · exact .execVcmp h
  · exact .execVsel h
  · exact .execVcvt h
  · exact .execVfins h
  · exact .execVredadd h
  · exact .execVredmin h
  · exact .execVredmax h
  · exact .execVredx h
  · exact .execVperm h
  · exact .execVzip h
  · exact .execVunzip h
  · exact .execVslideup h
  · exact .execVslidedn h
  · exact .execVbcast h
  · exact .execPand h
  · exact .execPor h
  · exact .execPnot h
  · exact .execMgang h
  · exact .execMzero h
  · exact .execMdup h
  · exact .execMstat h
  · exact .execMrest h
  · exact .execMdrain h
  · exact .execVsplit h
  · exact .execVqnt h
  · exact .execVdqnt h
  · exact .execNopB h
  · exact .execEncodingNotInstruction h
  · exact .execNotifyWrite h
  · exact .execQueueEnable h
  · exact .execQueueDisable h
  · exact .execHostRegisterWrite h
  · exact .execQueueSlotRelease h
  · exact .execQueueSlotBind h
  · exact .execPartcreate h
  · exact .execPartsplit h
  · exact .execPartdestroy h
  · exact .execNetload h
  · exact .execLaunch h
  · exact .execReplay h
  · exact .execSignalHostQueue h
  · exact .execSignalPhaseArrival h
  · exact .execPreempt h
  · exact .execSave h
  · exact .execRestore h
  · exact .execMigrate h
  · exact .execKeysetMemory h
  · exact .execKeysetBuneam h
  · exact .execTimeset h
  · exact .execTimeadj h
  · exact .execQueryRevision h
  · exact .execQueryPatchList h
  · exact .execQueryCapacity h
  · exact .execQueryBudgets h
  · exact .execQueryInstanceState h
  · exact .execQueryQueueState h
  · exact .execAttest h
  · exact .execDoeDiscovery h
  · exact .execIdeKm h
  · exact .execLockInterface h
  · exact .execGetDeviceInterfaceReport h
  · exact .execStartInterface h
  · exact .execStopInterface h
  · exact .execInstanceEnd h
  · exact .execReset h
  · exact .execThermalSlowdown h
  · exact .execSlowdownLift h
  · exact .execThermalTrip h
  · exact .execPpsEdge h
  · exact .execPtpEventMessage h
  · exact .execPacketInject h
  · exact .execRouterGrant h
  · exact .execTorusFlitReceive h
  · exact .execMulticastReserve h
  · exact .execMulticastUrgent h
  · exact .execBuneamFlitReceive h
  · exact .execBuneamNack h
  · exact .execLaneSpareSubstitution h
  · exact .execPortRetrainEnd h
  · exact .execLaneLossHalfRate h
  · exact .execCxlLinkFailure h
  · exact .execCxlRetrainEnd h
  · exact .execCxlPortLost h
  · exact .execCoreRetire h
  · exact .execPseudoChannelSubstitution h
  · exact .execPseudoChannelCopyEnd h
  · exact .execRowRepair h
  · exact .execNeighbourRefresh h
  · exact .execRowRefresh h
  · exact .execStackRetrain h
  · exact .execStackEmergencyRetrain h
  · exact .execPendingResultArrival h
  · exact .execMemoryServerRequest h
  · exact .execHomeWriteApply h
  · exact .execHomeAtomicApply h
  · exact .execCrossDieMessageApply h
  · exact .execPageWalk h
  · exact .execShootDownComplete h
  · exact .execDirtyLogMerge h
  · exact .execEpochEnd h
  · exact .execMotionStart h
  · exact .execMotionLineCopy h
  · exact .execMigrationAbort h
  · exact .execContextSwap h
  · exact .execSwapComplete h
  · exact .execRegisterImageWriteEnd h
  · exact .execStandbyLoad h
  · exact .execQuantumDue h
  · exact .execWorkStealRound h
  · exact .execGangGrant h
  · exact .execDeadlockReport h
  · exact .execHandlerSpawn h
  · exact .execClassCFaultDelivery h
  · exact .execDeadlineExpiry h
  · exact .execChannelTimeout h
  · exact .execChannelMatch h
  · exact .execTransferLanded h
  · exact .execRatedFiring h
  · exact .execPhaseArrivalCount h
  · exact .execWindowWriteLand h
  · exact .execHeldAccessProceed h
  · exact .execSliceEnd h
  · exact .execQuiescenceBudgetExpiry h
  · exact .execSaveStreamEnd h
  · exact .execPreemptLate h
  · exact .execTreeWalkerRequest h
  · exact .execRollupTokenCount h
  · exact .execSettleMarker h
  · exact .execReparLock h
  · exact .execEngineCompletion h
  · exact .execForkThreadStart h
  · exact .execEngineChannelDispatch h
  · exact .execGangTimeout h
  · exact .execSecuredSpdmSession h
  · exact .execLinkKeyReplacement h
  · exact .execFirmwareChannelRebind h
  · exact .execStackRetrainEnd h
  · exact .execRowRepairEnd h
  · exact .execRemotePhaseLoad h

/-! ### Operations of `Machine/Turn` -/

theorem OkAll.fetch {i pc} (h : s.Kept q) : OkAll (fun r => r.1.Kept q) (s.fetch i pc) := by
  unfold State.fetch
  refine .bind (.globalPiece h) fun _ h1 => .ite .error ?_
  split
  · exact .error
  · exact .ok (.iteThen h1 fun h3 => .countLines h3)

theorem State.Kept.fetchDecode {i} (h : s.Kept q) : (s.fetchDecode i).1.Kept q := by
  have hfetch {s t : State} {loc : Word} {w : Nat} (h : s.Kept q) (e : s.fetch i loc = .ok (t, w)) : t.Kept q :=
    OkAll.fetch h _ e
  unfold State.fetchDecode
  split
  · exact h
  · exact h
  · next ea =>
    have ha := hfetch h ea
    split
    · exact ha
    split
    · exact ha
    split
    · exact ha
    split
    · exact ha
    split
    · exact ha
    · exact ha
    · next eb =>
      have hb := hfetch ha eb
      split
      · exact hb
      · exact hb

theorem NextKept.runWord {i x} (h : s.Kept False) : NextKept False (runWord s i x) := by
  have h1 : ({ s with issue := some i } : State).Kept False := ⟨h.mem, False.elim⟩
  exact .ite (.next (.raise h1)) (.exec h1)

theorem NextKept.runB {s0 i y} (h0 : s0.Kept False) (h : s.Kept False) : NextKept False (runB s0 s i y) := by
  have hlatch (j : Option Issue) : ({ s0 with issue := j } : State).Kept False := ⟨h0.mem, False.elim⟩
  have hraised : ({ s with raised := none } : State).Kept False := ⟨h.mem, False.elim⟩
  unfold Machine.runB
  extract_lets j
  split
  · next u e =>
    have hu : u.Kept False := NextKept.runWord (hraised) u e
    refine .ite (.next (.ite ⟨hu.mem, False.elim⟩ hu)) ?_
    split
    · exact .ite (.runWord h0) (.next (.raise (hlatch _)))
    · split
      · exact .runWord h0
      · exact .next (.holdWord (hlatch _))
      · exact .next (hlatch _)
  · next hr => exact fun t e => absurd e (hr t)

theorem NextKept.runFetched {i f} (h : s.Kept False) : NextKept False (runFetched s i f) := by
  unfold Machine.runFetched
  split
  · next t e =>
    have ht : t.Kept False := NextKept.runWord h t e
    split
    · exact .runB h ht
    · exact .next ht
  · next hr => exact fun t e => absurd e (hr t)

theorem State.Kept.commit {k pre i sw} (h : s.Kept q) : (s.commit k pre i sw).Kept q :=
  .ite h (.ite (.setProc h) (.setProc h))

theorem State.Kept.countTurn {k} (h : s.Kept q) : (s.countTurn k).Kept q := by
  unfold State.countTurn
  dsimp only
  split
  · exact .modCore h
  · exact h

theorem NextKept.issueWord {k} (h : s.Kept q) : NextKept q (s.issueWord k) := by
  have hdone {t : State} (ht : t.Kept False) : ({ t with issue := none, raised := none } : State).Kept q :=
    ⟨ht.mem, fun _ => ⟨rfl, rfl⟩⟩
  unfold State.issueWord
  extract_lets s1 p i f _ s2 done
  have h1 : s1.Kept q := .ite (.release h) h
  have hf : f.1.Kept q := .fetchDecode h1
  have h2 : s2.Kept False := ⟨hf.mem, False.elim⟩
  split
  · exact .next (hdone (.raise ⟨h2.mem, False.elim⟩))
  · exact .next (hdone h2)
  · extract_lets j
    split
    · next t e =>
      have ht : t.Kept False := NextKept.runFetched h2 t e
      split
      · exact .next (hdone (.countTurn (.commit ht)))
      · exact .next (hdone (.ite (.countTurn ht) ht))
    · next hr => exact fun t e => absurd e (hr t)

theorem State.Kept.landWindows {k} (h : s.Kept q) : (s.landWindows k).Kept q :=
  .foldl (fun _ _ h1 => .ite (.serveWrite h1) h1) h

theorem State.Kept.countParked {cyc} (h : s.Kept q) : (s.countParked cyc).Kept q :=
  .upd h

theorem State.Kept.upTo {cyc} (h : s.Kept q) : (s.upTo cyc).Kept q :=
  .ite (.upd (.advance (.countParked h))) h

theorem NextKept.takeTurn {k} (h : s.Kept q) : NextKept q (s.takeTurn k) := by
  unfold State.takeTurn
  dsimp only
  refine .ite (.next (.landWindows h)) (.ite (.next (.deliverC (.landWindows h))) ?_)
  exact .ite (.next (.tryExit (.landWindows h))) (.ite (.issueWord (.landWindows h)) (.next (.landWindows h)))

theorem NextKept.turn (h : s.Kept q) : NextKept q s.turn := by
  unfold State.turn
  dsimp only
  split
  · exact .next (.upTo h)
  · exact .next (.swap (.upd (.upTo h)))
  · exact .takeTurn (.upd (.upTo h))

theorem State.Kept.upset {k} (h : s.Kept q) : (s.upset k).Kept q :=
  .ite h (.ite (.failThread h) (.modProc (.writeRec h)))

theorem NextKept.engineTurn {k} (h : s.Kept q) : NextKept q (s.engineTurn k) :=
  .ite (.next h) (.ite (.next (.tryExit h)) (.ite (.issueWord h) (.next h)))

/-! ### Operations of `Machine/Auto` -/

theorem OptAll.changed {r} (h : NextKept q r) : OptAll (State.Kept q) (changed s r) := by
  unfold Machine.changed
  split
  · next t => exact .ite .none (.some (h t rfl))
  · exact .none

theorem NextKept.move {m} (h : s.Kept q) : NextKept q (s.move m) := by
  unfold State.move
  dsimp only
  split
  · exact .ite (.next h) (.exec h)
  · exact .ite (.next h) (.turn h)
  · exact .ite (.next h) (.next (.upTo h))
  · exact .ite (.next h) (.engineTurn h)
  · exact .ite (.next h) (.next (.upset h))
  · exact .ite (.next h) (.next (.upd h))
  · exact .next (.put h (Memory.wf_writeBytes _ _ h.mem))
  · exact .ite (.next h) (.next (.decays h))
  · exact .ite (.next h) (.next (.parityFails h))

/-- Events that keep what every operation keeps. -/
def EventsKeep (l : List Change) : Prop := ∀ f ∈ l, ∀ {q s}, s.Kept q → NextKept q (f s)

namespace EventsKeep

theorem nil : EventsKeep [] := nofun

theorem cons {f : Change} {l : List Change} (hf : ∀ {q s}, s.Kept q → NextKept q (f s)) (hl : EventsKeep l) :
    EventsKeep (f :: l) := by
  intro g hg
  obtain rfl | hg := List.mem_cons.mp hg
  · exact hf
  · exact hl g hg

theorem append {l m : List Change} (hl : EventsKeep l) (hm : EventsKeep m) : EventsKeep (l ++ m) := by
  intro f hf
  obtain hf | hf := List.mem_append.mp hf
  · exact hl f hf
  · exact hm f hf

theorem flatMap {α : Type} {l : List α} {g : α → List Change} (hg : ∀ a, EventsKeep (g a)) :
    EventsKeep (l.flatMap g) := by
  intro f hf
  obtain ⟨a, -, ha⟩ := List.mem_flatMap.mp hf
  exact hg a f ha

theorem map {α : Type} {l : List α} {g : α → Change} (hg : ∀ a {q s}, s.Kept q → NextKept q (g a s)) :
    EventsKeep (l.map g) := by
  intro f hf
  obtain ⟨a, -, rfl⟩ := List.mem_map.mp hf
  exact hg a

theorem ite {c : Prop} [Decidable c] {l m : List Change} (hl : EventsKeep l) (hm : EventsKeep m) :
    EventsKeep (if c then l else m) := by
  split
  · exact hl
  · exact hm

theorem txnEvents {t x} : EventsKeep (txnEvents t x) := by
  have harrival {n} : EventsKeep [execPendingResultArrival n] := .cons .execPendingResultArrival .nil
  unfold Machine.txnEvents
  split
  · exact .cons .execPhaseArrivalCount .nil
  · exact .cons .execShootDownComplete harrival
  · exact .append (.map fun _ => .execSettleMarker) harrival
  · exact .cons .execTreeWalkerRequest harrival
  · exact .cons .execTreeWalkerRequest harrival
  · exact .cons .execTreeWalkerRequest harrival
  · exact .cons .execTreeWalkerRequest harrival
  · exact .cons .execReparLock harrival
  · exact .cons .execForkThreadStart (.cons .execMemoryServerRequest (.cons .execEngineCompletion .nil))
  · exact .cons .execTransferLanded .nil
  · exact .cons .execTransferLanded .nil
  · exact .cons .execTransferLanded .nil
  · exact .cons .execTransferLanded .nil
  · exact .cons .execHomeWriteApply (.cons .execWindowWriteLand .nil)
  · exact .cons .execHomeWriteApply (.cons .execWindowWriteLand .nil)
  · exact .cons .execHomeWriteApply (.cons .execWindowWriteLand .nil)
  · exact .cons .execHomeAtomicApply harrival
  · exact .cons .execHomeAtomicApply harrival
  · exact .cons .execMemoryServerRequest harrival

theorem coreEvents {c} : EventsKeep (coreEvents c) :=
  .cons .execDirtyLogMerge
    (.flatMap fun _ => .cons .execSwapComplete (.cons .execRegisterImageWriteEnd (.cons .execStandbyLoad .nil)))

theorem procEvents {k} : EventsKeep (procEvents k) :=
  .cons .execDeadlineExpiry (.cons .execChannelTimeout (.cons .execHeldAccessProceed (.cons .execRatedFiring .nil)))

theorem partEvents {s p x} : EventsKeep (partEvents s p x) :=
  .append (.flatMap fun _ => .append (.ite (.cons .execChannelMatch .nil) .nil) (.cons .execEngineChannelDispatch .nil))
    (.cons .execMotionStart (.cons .execEpochEnd (.cons .execSliceEnd (.cons .execQuiescenceBudgetExpiry
      (.cons .execPreemptLate (.cons .execSaveStreamEnd .nil))))))

theorem instEvents {i} : EventsKeep (instEvents i) :=
  .cons .execHandlerSpawn (.cons .execDeadlockReport (.cons .execInstanceEnd .nil))

theorem entryEvent {s e x} : EventsKeep [entryEvent s e x] := by
  unfold Machine.entryEvent
  split
  · exact .cons .execPartcreate .nil
  · exact .cons .execPartcreate .nil
  · exact .cons .execPartcreate .nil
  · exact .cons .execPartsplit .nil
  · exact .cons .execPartdestroy .nil
  · exact .cons .execNetload .nil
  · exact .cons .execLaunch .nil
  · exact .cons .execReplay .nil
  · exact .cons .execSignalHostQueue .nil
  · exact .cons .execSignalPhaseArrival .nil
  · exact .cons .execPreempt .nil
  · exact .cons .execSave .nil
  · exact .cons .execRestore .nil
  · exact .cons .execMigrate .nil
  · exact .cons .execKeysetMemory .nil
  · exact .cons .execKeysetBuneam .nil
  · exact .cons .execTimeset .nil
  · exact .cons .execTimeadj .nil
  · exact .cons .execQueryRevision .nil
  · exact .cons .execQueryPatchList .nil
  · exact .cons .execQueryCapacity .nil
  · exact .cons .execQueryBudgets .nil
  · exact .cons .execQueryInstanceState .nil
  · exact .cons .execQueryQueueState .nil

theorem queueEvents {s k x} : EventsKeep (queueEvents s k x) := by
  unfold Machine.queueEvents
  extract_lets
  split
  · exact .entryEvent
  · exact .nil

theorem messageEvents {s} : EventsKeep (messageEvents s) :=
  .flatMap fun _ => .map fun _ => .execCrossDieMessageApply

theorem dueEvents {s} : EventsKeep (dueEvents s) := by
  unfold Machine.dueEvents
  refine .append (.append (.append (.append (.append (.append (.append (.append (.append (.append (.append (.append ?_ ?_)
    ?_) ?_) ?_) ?_) ?_) ?_) ?_) ?_) ?_) ?_) ?_
  · exact .flatMap fun _ => .txnEvents
  · exact .messageEvents
  · exact .map fun _ => .execRollupTokenCount
  · exact .flatMap fun _ => .coreEvents
  · exact .flatMap fun _ => .procEvents
  · exact .cons .execChannelTimeout .nil
  · exact .flatMap fun _ => .cons .execGangGrant (.cons .execGangTimeout .nil)
  · exact .flatMap fun _ => .partEvents
  · exact .map fun _ => .execMotionLineCopy
  · exact .flatMap fun _ => .map fun _ => .execNeighbourRefresh
  · exact .flatMap fun _ => .instEvents
  · exact .flatMap fun _ => .queueEvents
  · exact .flatMap fun _ => .cons .execQueueSlotRelease (.cons .execQueueSlotBind .nil)

end EventsKeep

theorem NextKept.autoMove (h : s.Kept q) : NextKept q s.autoMove := by
  unfold State.autoMove
  refine .ite (.next h) ?_
  split
  · next e => exact .next (OptAll.findSomeMem? (fun f hf => .changed (EventsKeep.dueEvents f hf h)) _ e)
  · split
    · next e => exact .next (OptAll.findSome? (fun _ => .changed (.engineTurn h)) _ e)
    · exact .turn h

/-! ### Operations of `Machine/Step` -/

theorem NextKept.step (h : s.Kept q) : NextKept q (step s) := by
  unfold Machine.step
  split
  · exact .move (.upd h)
  · exact .ite (.autoMove h) (.move h)

end Operations

/-- Settles O57: a step is one move of the agenda or of the machine itself, and each of its operations keeps memory canonical and the
latch as it stood (`NextKept.step`). -/
theorem stepInvariant : Obligations.StepInvariant := fun _ _ h ht =>
  inv_iff_kept.mpr (NextKept.step (inv_iff_kept.mp h) _ ht)

end Sys2Proof.Machine
end

section
/-! SUPPORT. The torus (O51): what the router events read and write, by the rules of Laws/State for a router, and the routes. -/

namespace Sys2Proof.Machine

/-! ### A router's inputs -/

theorem neighbour_ne {out : Port} (h : out ≠ .loc) (node : Nat) : neighbour node out ≠ node := by
  cases out with
  | loc => exact absurd rfl h
  | _ => simp only [neighbour]; omega

/-- A packet that arrives stands last at its input. -/
theorem input_arriveAtRouter (s : State) (node : Nat) (inp : Port) (p : Packet) :
    ((s.arriveAtRouter node inp p).router node).input inp =
      (s.router node).input inp ++ [{ pkt := p, since := s.cycle, order := (s.router node).arrivals }] := by
  simp [State.arriveAtRouter, Router.input]

theorem link_arriveAtRouter (s : State) (node : Nat) (inp : Port) (p : Packet) (q : Port) :
    ((s.arriveAtRouter node inp p).router node).link q = (s.router node).link q := by
  simp [State.arriveAtRouter, Router.link]

/-! ### What the events of a router do -/

theorem exec_packetInject {s : State} {node : Nat} {p : Packet} (hn : node < 64) (hs : p.src = node) (hd : p.dests ≠ [])
    (hl : ∀ d ∈ p.dests, d < 64) (hu : p.dests.eraseDups = p.dests) (hi : p.id ∉ packetIds s)
    (hb : ∀ o ∈ branches node p, mayEnter s node .loc o = true) :
    exec (.packetInject node p) s = .next (s.arriveAtRouter node .loc p) := by
  refine if_pos ⟨hn, hs, hd, ?_, hu, ?_⟩
  · simpa using hl
  · simp only [Bool.not_eq_true', List.all_eq_true]
    exact ⟨by simpa using hi, hb⟩

theorem exec_routerGrant {s : State} {node : Nat} {out inp : Port}
    (h : (offerOrder (s.router node) out).find? (requests s node out) = some inp) :
    exec (.routerGrant node out) s = .next (s.passPacket node inp out) := by
  have harm : exec (.routerGrant node out) s = execRouterGrant node out s := rfl
  rw [harm, execRouterGrant, h]

/-- The router after the head of an input without reserved branches has left. -/
def Router.passed (r : Router) (inp out : Port) (t : List Waiter) : Router :=
  { r with inputs := nset r.inputs (portCode inp) t, last := nset r.last (portCode out) (portCode inp) }

theorem passPacket_of_cons {s : State} {node : Nat} {inp out : Port} {w : Waiter} {t : List Waiter}
    (h : (s.router node).input inp = w :: t) (hw : w.reserved = []) :
    s.passPacket node inp out =
      if out = .loc then
        s.setRouter node { (s.router node).passed inp out t with delivered := (s.router node).delivered ++ [w.pkt.id] }
      else
        let u := s.setRouter node ((s.router node).passed inp out t)
        let q := u.router (neighbour node out)
        u.setRouter (neighbour node out)
          { q with links := nset q.links (portCode (oppositePort out)) (q.link (oppositePort out) ++ [branchOf w.pkt node out]) } := by
  simp only [State.passPacket, h, hw, List.filter_nil, List.isEmpty_nil, if_true]
  rfl

/-- A packet that leaves goes from its input, and the output remembers the input served; it is delivered, or travels on the link to the
neighbour. -/
theorem passPacket_spec {s : State} {node : Nat} {inp out : Port} {w : Waiter} {t : List Waiter}
    (h : (s.router node).input inp = w :: t) (hw : w.reserved = []) :
    let u := s.passPacket node inp out
    (u.router node).input inp = t ∧ nget? (u.router node).last (portCode out) = some (portCode inp) ∧
      (out = .loc → (u.router node).delivered = (s.router node).delivered ++ [w.pkt.id]) ∧
      (out ≠ .loc → (u.router (neighbour node out)).link (oppositePort out) =
        (s.router (neighbour node out)).link (oppositePort out) ++ [branchOf w.pkt node out]) := by
  rw [passPacket_of_cons h hw]
  split
  · next ho => simp [Router.passed, Router.input, nget?_nset_same, ho]
  · next ho =>
    have hne := neighbour_ne ho node
    simp [Router.passed, Router.input, Router.link, nget?_nset_same, State.router_setRouter, ho, hne, hne.symm]

/-- The next packet of a link that passes its check. -/
def State.receiveFlit (s : State) (node : Nat) (inp : Port) (p : Packet) (t : List Packet) : State :=
  (s.setRouter node { s.router node with links := nset (s.router node).links (portCode inp) t }).arriveAtRouter node inp p

theorem exec_torusFlitReceive {s : State} {node : Nat} {inp : Port} {p : Packet} {t : List Packet}
    (h : (s.router node).link inp = p :: t) :
    exec (.torusFlitReceive node inp true) s = .next (s.receiveFlit node inp p t) ∧
      exec (.torusFlitReceive node inp false) s =
        .next (s.setRouter node { s.router node with retransmits := (s.router node).retransmits + 1 }) := by
  have harm (ok : Bool) : exec (.torusFlitReceive node inp ok) s = execTorusFlitReceive node inp ok s := rfl
  simp only [harm, execTorusFlitReceive, h]
  exact ⟨rfl, rfl⟩

theorem input_receiveFlit (s : State) (node : Nat) (inp : Port) (p : Packet) (t : List Packet) :
    ((s.receiveFlit node inp p t).router node).input inp =
      (s.router node).input inp ++ [{ pkt := p, since := s.cycle, order := (s.router node).arrivals }] := by
  rw [State.receiveFlit, input_arriveAtRouter]
  simp [Router.input]

theorem link_receiveFlit (s : State) (node : Nat) (inp : Port) (p : Packet) (t : List Packet) :
    ((s.receiveFlit node inp p t).router node).link inp = t := by
  rw [State.receiveFlit, link_arriveAtRouter]
  simp [Router.link]

/-! ### Multicasts -/

theorem mem_insertBy {α : Type} {le : α → α → Bool} {a b : α} {l : List α} : b ∈ insertBy le a l ↔ b = a ∨ b ∈ l := by
  induction l with
  | nil => simp [insertBy]
  | cons c l ih =>
    unfold insertBy
    split
    · simp
    · simp [ih, or_left_comm]

theorem mem_sortBy {α : Type} {le : α → α → Bool} {b : α} {l : List α} : b ∈ sortBy le l ↔ b ∈ l := by
  induction l with
  | nil => simp [sortBy]
  | cons a l ih =>
    have h : sortBy le (a :: l) = insertBy le a (sortBy le l) := rfl
    rw [h, mem_insertBy, ih, List.mem_cons]

/-- An urgent multicast stands at the head of its input. -/
theorem head?_of_mem_urgents {r : Router} {node : Nat} {e : Port × Waiter} (he : e ∈ urgents r node) :
    (r.input e.1).head? = some e.2 := by
  have hm := (List.mem_filter.mp (mem_sortBy.mp he)).1
  obtain ⟨p, -, hp⟩ := List.mem_filterMap.mp hm
  split at hp
  · next w hw =>
    split at hp
    · cases hp
      exact hw
    · cases hp
  · cases hp

/-- Where no other input has a packet, no urgent multicast of another input stands. -/
theorem urgents_eq_self_of_alone {r : Router} {node : Nat} {inp : Port} (h : ∀ p, p ≠ inp → (r.input p).head? = none)
    {e : Port × Waiter} (he : e ∈ urgents r node) : e.1 = inp := by
  by_contra hne
  exact nomatch (h e.1 hne).symm.trans (head?_of_mem_urgents he)

/-- Where no other input has a packet, none waits before. -/
theorem waitsBefore_of_alone {s : State} {node : Nat} {inp : Port} (h : ∀ p, p ≠ inp → ((s.router node).input p).head? = none)
    (out : Port) : waitsBefore s node inp out = false := by
  refine List.any_eq_false.mpr fun q hq => ?_
  have hne : q ≠ inp := by simpa using List.mem_takeWhile_imp hq
  simp [h q hne]

theorem exec_multicastReserve {s : State} {node : Nat} {inp : Port} {w : Waiter} {t : List Waiter}
    (hw : (s.router node).input inp = w :: t) (hm : 1 < w.pkt.dests.length) (hr : w.reserved = [])
    (hfree : ∀ o ∈ branches node w.pkt, reservedBy (s.router node) o = none ∧ mayEnter s node inp o = true)
    (halone : ∀ p, p ≠ inp → ((s.router node).input p).head? = none) :
    exec (.multicastReserve node inp) s = .next (s.setRouter node { s.router node with
      inputs := nset (s.router node).inputs (portCode inp) ({ w with reserved := branches node w.pkt, urgent := false } :: t) }) := by
  have harm : exec (.multicastReserve node inp) s = execMulticastReserve node inp s := rfl
  have hahead (f : Port × Waiter → Bool) : (urgents (s.router node) node).filter (fun e => e.1 != inp && f e) = [] :=
    List.filter_eq_nil_iff.mpr fun e he => by simp [urgents_eq_self_of_alone halone he]
  simp only [harm, execMulticastReserve, hw, hahead]
  refine if_pos ?_
  simp only [isMulti, hm, hr, decide_true, List.isEmpty_nil, Bool.true_and, List.all_eq_true]
  intro o ho
  obtain ⟨hres, hent⟩ := hfree o ho
  simp [hres, hent, waitsBefore_of_alone halone]

theorem exec_multicastUrgent {s : State} {node : Nat} {inp : Port} {w : Waiter} {t : List Waiter}
    (hw : (s.router node).input inp = w :: t) (hm : 1 < w.pkt.dests.length) (hr : w.reserved = []) (hu : w.urgent = false)
    (ht : w.since + 64 * Config.flitTime ≤ s.cycle) :
    exec (.multicastUrgent node inp) s = .next (s.setRouter node { s.router node with
      inputs := nset (s.router node).inputs (portCode inp) ({ w with urgent := true } :: t) }) := by
  have harm : exec (.multicastUrgent node inp) s = execMulticastUrgent node inp s := rfl
  simp only [harm, execMulticastUrgent, hw]
  exact if_pos (by simp [isMulti, hm, hr, hu, ht])

/-! ### Routes (R25) -/

/-- A packet for another node leaves along the row where the columns differ, and along the column where they do not. -/
theorem nextPort_spec {a b : Nat} (hne : a ≠ b) :
    nextPort a b ≠ .loc ∧ (a % 8 ≠ b % 8 → nextPort a b = .xp ∨ nextPort a b = .xm) ∧
      (a % 8 = b % 8 → nextPort a b = .yp ∨ nextPort a b = .ym) := by
  by_cases hx : a % 8 = b % 8
  · have hy : a / 8 ≠ b / 8 := by omega
    cases hr : ringUp (a / 8) (b / 8) <;> simp [nextPort, hx, hy, hr]
  · cases hr : ringUp (a % 8) (b % 8) <;> simp [nextPort, hx, hr]

/-- Settles O51: each event by its equation above, and what it wrote by the rules for a router. -/
theorem torusEvents : Obligations.TorusEvents := by
  refine ⟨?inject, ?grant, ?receive, ?multicast, fun a b _ _ hne => ⟨_, rfl, nextPort_spec hne⟩⟩
  case inject =>
    intro s node p hn hs hd hl hu hi hb
    exact ⟨_, exec_packetInject hn hs hd hl hu hi hb, input_arriveAtRouter ..⟩
  case grant =>
    intro s node out inp w t hw hr hf
    exact ⟨_, exec_routerGrant hf, passPacket_spec hw hr⟩
  case receive =>
    intro s node inp p t h
    obtain ⟨hok, hbad⟩ := exec_torusFlitReceive h
    exact ⟨⟨_, hok, link_receiveFlit .., _, input_receiveFlit .., rfl⟩, _, hbad, by simpa [Router.link] using h, by simp⟩
  case multicast =>
    intro s node inp w t hw hm hr
    refine ⟨fun hfree halone => ⟨_, exec_multicastReserve hw hm hr hfree halone, ?_⟩,
      fun hu ht => ⟨_, exec_multicastUrgent hw hm hr hu ht, ?_⟩⟩
    · simp [Router.input]
    · simp [Router.input]

end Sys2Proof.Machine
end

section
/-! SUPPORT. The module (O53): what stands in memory after a restart, the retirement of a core that nothing is lost with, and the memory
stacks. -/

namespace Sys2Proof.Machine

/-! ### Memory after a restart (R45) -/

theorem nget?_filter_key {α : Type} (p : Nat → Bool) (m : NMap α) (k : Nat) :
    nget? (m.filter fun e => p e.1) k = if p k then nget? m k else none := by
  induction m with
  | nil => simp [nget?]
  | cons e t ih =>
    obtain ⟨j, b⟩ := e
    by_cases hj : j = k
    · subst hj
      by_cases hp : p j <;> simp [nget?, hp, ih]
    · by_cases hp : p j <;> simp [nget?, hp, hj, ih]

theorem readByte_filter_key (p : Nat → Bool) (m : List Host.Cell) (k : Nat) :
    readByte (m.filter fun c => p c.1) k = if p k then readByte m k else 0 := by
  unfold readByte nget
  rw [nget?_filter_key]
  split
  · rfl
  · rfl

/-- Below host memory everything reads as zero, and host memory stands. -/
theorem readByte_powerOn (s : State) (a : Nat) : readByte s.powerOn.mem a = if 2 ^ 64 ≤ a then readByte s.mem a else 0 := by
  have h := readByte_filter_key (fun k => decide (2 ^ 64 ≤ k)) s.mem a
  simp only [decide_eq_true_eq] at h
  exact h

theorem recovery_powerOn (s : State) : s.powerOn.recovery = !flashGood s := rfl

/-! ### A core that nothing is lost with (R40, R182) -/

theorem foldl_eq_self {α β : Type} {f : β → α → β} {b : β} {l : List α} (h : ∀ a ∈ l, f b a = b) : l.foldl f b = b := by
  induction l with
  | nil => rfl
  | cons a l ih =>
    rw [List.foldl_cons, h a (List.mem_cons_self ..)]
    exact ih fun c hc => h c (List.mem_cons_of_mem _ hc)

theorem map_eq_self {α : Type} {f : α → α} {l : List α} (h : ∀ a ∈ l, f a = a) : l.map f = l :=
  (List.map_congr_left h).trans (List.map_id' l)

/-- The spare that comes in the place of a core: queues of processes that have never run, and the charges of the instances. -/
def Core.onSpare (c : Core) (lost : List Nat) : Core :=
  { ready := c.ready.map fun e => (e.1, e.2.filter fun k => !lost.contains k), resv := c.resv.filter fun e => !lost.contains e.2
    grant := c.grant, free := c.grant, spare := true, dirtyLog := c.dirtyLog, sideLog := c.sideLog }

/-- The scratchpad of the spare: what the instances keep there is copied again. -/
def State.fillSpare (s : State) (core : Nat) : State :=
  ((s.insts.filter fun v => v.2.spadCores.contains core).map Prod.fst).foldl
    (fun s i => (s.modInst i fun v => { v with spadCores := v.spadCores.filter (· != core) }).spadCopy i core)
    { s with mem := clearBytes s.mem (spadKey core 0) (2 ^ 18) }

theorem exec_coreRetire {s : State} {core : Nat} (hc : core < 512) (hf : spareFree s core = true)
    (hl : lostProcs s core = ([], [])) :
    exec (.coreRetire core) s =
      .next (((((s.failEngines core).modCore core fun c => c.onSpare []).fillSpare core).logRepair (.core core)).pumpAll.wakeAlts) := by
  have harm : exec (.coreRetire core) s = execCoreRetire core s := rfl
  rw [harm, execCoreRetire, if_neg (by simp [hf]; omega), hl]
  rfl

/-- Cores, processes and flash are as they were. -/
structure SameCores (s t : State) : Prop where
  cores : t.cores = s.cores
  procs : t.procs = s.procs
  flash : t.flash = s.flash

namespace SameCores

theorem trans {s t u : State} (h : SameCores s t) (g : SameCores t u) : SameCores s u :=
  ⟨g.cores.trans h.cores, g.procs.trans h.procs, g.flash.trans h.flash⟩

theorem foldl {α : Type} {f : State → α → State} (hf : ∀ s a, SameCores s (f s a)) (l : List α) (s : State) :
    SameCores s (l.foldl f s) := by
  induction l generalizing s with
  | nil => exact ⟨rfl, rfl, rfl⟩
  | cons a l ih => exact (hf s a).trans (ih _)

theorem spadCopy (s : State) (i core : Nat) : SameCores s (s.spadCopy i core) := by
  unfold State.spadCopy
  dsimp only
  split
  · exact ⟨rfl, rfl, rfl⟩
  · split
    · exact ⟨rfl, rfl, rfl⟩
    · exact ⟨rfl, rfl, rfl⟩

theorem fillSpare (s : State) (core : Nat) : SameCores s (s.fillSpare core) := by
  have hclear : SameCores s { s with mem := clearBytes s.mem (spadKey core 0) (2 ^ 18) } := ⟨rfl, rfl, rfl⟩
  refine hclear.trans (foldl (fun s i => ?_) _ _)
  have hmod : SameCores s (s.modInst i fun v => { v with spadCores := v.spadCores.filter (· != core) }) := ⟨rfl, rfl, rfl⟩
  exact hmod.trans (spadCopy _ i core)

/-- Where no engine operation came from the core and no engine thread runs, nothing is lost. -/
theorem failEngines {s : State} {core : Nat} (ht : ∀ e ∈ s.txns, ∀ obj op, e.2.op ≠ .eng core obj op)
    (hp : ∀ e ∈ s.procs, e.2.engine = none) : SameCores s (s.failEngines core) := by
  unfold State.failEngines
  extract_lets s1
  have h1 : s1 = s := by
    refine foldl_eq_self fun e he => ?_
    split
    · next c obj op ho =>
      have hc : c ≠ core := fun hc => ht e he obj op (hc ▸ ho)
      exact if_neg hc
    · rfl
  clear_value s1
  subst h1
  refine ⟨rfl, map_eq_self fun e he => ?_, rfl⟩
  rw [hp e he]

end SameCores

/-! ### Stacks (R41, R110) -/

/-- Bytes that are cleared in one of several places read as zero. -/
theorem readByte_clearLines {l : List Nat} {m : List Host.Cell} {n k : Nat}
    (h : readByte m k = 0 ∨ ∃ a ∈ l, a ≤ k ∧ k < a + n) : readByte (l.foldl (fun m a => clearBytes m a n) m) k = 0 := by
  induction l generalizing m with
  | nil => simpa using h
  | cons b l ih =>
    refine ih ?_
    rw [readByte_clearBytes]
    split
    · exact .inl rfl
    · next hb =>
      obtain hz | ⟨a, ha, hk⟩ := h
      · exact .inl hz
      · obtain rfl | ha := List.mem_cons.mp ha
        · exact absurd hk hb
        · exact .inr ⟨a, ha, hk⟩

/-- An event of a stack where its condition holds. -/
theorem onStack_of {s : State} {k : Nat} {c : Stack → Bool} {f : Stack → Stack} (hk : k < 8) (hc : c (s.mbd k) = true) :
    onStack s k c f = .next (s.setMbd k (f (s.mbd k))) := if_pos (by simp [hk, hc])

theorem streamOn_of_idle {s : State} (h : ∀ p ∈ s.parts, p.2.quies = none) (k : Nat) (late : Bool) : streamOn s k late = false := by
  refine List.any_eq_false.mpr fun p hp => ?_
  simp [h p hp]

/-- The new bad lines of a pseudo-channel that has been copied. -/
def newBad (m : Stack) (k ch : Nat) (bad : List Nat) : List Nat :=
  (bad.filter fun a => decide (a < 0x8000000000) && a % 128 == 0 && stackOf a == k && channelOf a == ch &&
    !m.bad.contains a).eraseDups

theorem exec_pseudoChannelCopyEnd {s : State} {k ch : Nat} (bad : List Nat) (h : (s.mbd k).copying = some ch) :
    exec (.pseudoChannelCopyEnd k bad) s = .next (
      (({ s with mem := (newBad (s.mbd k) k ch bad).foldl (fun m a => clearBytes m a 128) s.mem } : State).setMbd k { s.mbd k with
        copying := none
        substituted := some ch
        bad := (s.mbd k).bad ++ newBad (s.mbd k) k ch bad }).logRepair (.channel k ch)) := by
  have harm : exec (.pseudoChannelCopyEnd k bad) s = execPseudoChannelCopyEnd k bad s := rfl
  simp only [harm, execPseudoChannelCopyEnd, h]
  rfl

theorem exec_rowRepairEnd {s : State} {k row : Nat} (h : row ∈ (s.mbd k).repairing) :
    exec (.rowRepairEnd k row) s = .next ((s.setMbd k { s.mbd k with
      repairing := (s.mbd k).repairing.filter (· != row)
      repaired := (s.mbd k).repaired ++ [row] }).logRepair (.row k row)) := by
  have harm : exec (.rowRepairEnd k row) s = execRowRepairEnd k row s := rfl
  simp only [harm, execRowRepairEnd]
  exact if_neg (by simpa using h)

/-- A stack after the neighbours of a row have been refreshed. -/
def Stack.neighboursRefreshed (m : Stack) (row : Nat) : Stack :=
  let near (r : Nat) : Bool := r != row && decide (r ≤ row + 2) && decide (row ≤ r + 2)
  let m := { m with acts := m.acts.filter fun e => !near e.1 }
  let ok := (nget (0, true) m.acts row).2
  let m := { m with refresh := m.refresh.filter (· != row) }
  if ok then m else m.refreshed row

theorem exec_neighbourRefresh {s : State} {k row : Nat} (hk : k < 8) (h : row ∈ (s.mbd k).refresh) :
    exec (.neighbourRefresh k row) s = .next (s.setMbd k ((s.mbd k).neighboursRefreshed row)) := by
  have harm : exec (.neighbourRefresh k row) s =
      onStack s k (fun m => m.refresh.contains row) fun m => m.neighboursRefreshed row := rfl
  exact harm.trans (onStack_of hk (by simpa using h))

theorem neighboursRefreshed_spec (m : Stack) (row : Nat) :
    row ∉ (m.neighboursRefreshed row).refresh ∧
      ∀ r, r ≠ row → r ≤ row + 2 → row ≤ r + 2 → nget? (m.neighboursRefreshed row).acts r = none := by
  have hacts {r : Nat} (hne : r ≠ row) (hu : r ≤ row + 2) (hd : row ≤ r + 2) :
      nget? (m.acts.filter fun e => !(e.1 != row && decide (e.1 ≤ row + 2) && decide (row ≤ e.1 + 2))) r = none := by
    rw [nget?_filter_key fun r => !(r != row && decide (r ≤ row + 2) && decide (row ≤ r + 2))]
    exact if_neg (by simp [hne, hu, hd])
  unfold Stack.neighboursRefreshed
  dsimp only
  split
  · exact ⟨by simp, fun r hne hu hd => hacts hne hu hd⟩
  · refine ⟨by simp [Stack.refreshed], fun r hne hu hd => ?_⟩
    simp only [Stack.refreshed, nget?_ndel, if_neg hne]
    exact hacts hne hu hd

/-! ### The obligation -/

/-- What a reset leaves, and what it keeps. -/
theorem exec_reset (s : State) (cold : Bool) (bad absent : List Nat) : ∃ u : State, exec (.reset ⟨cold, bad, absent⟩) s = .next u ∧
    u.procs = [] ∧ u.parts = [] ∧ u.txns = [] ∧ u.insts = [] ∧ u.time = 0 ∧ u.romRev = s.romRev ∧
    u.flash.config = s.flash.config ∧ s.flash.repairs <+: u.flash.repairs ∧ (bad = [] → u.flash.repairs = s.flash.repairs) ∧
    u.hostTold = !u.recovery ∧ (flashGood s = false → u.recovery = true) ∧ (∀ a, a < 2 ^ 64 → readByte u.mem a = 0) ∧
    ∀ a, 2 ^ 64 ≤ a → readByte u.mem a = readByte s.mem a := by
  obtain ⟨l, h, hl, htold⟩ := restart_setUp s bad absent
  refine ⟨s.restart bad absent, rfl, h.procs, h.parts, h.txns, h.insts, h.time, h.romRev, h.config, ⟨l, h.repairs.symm⟩, ?_, htold,
    ?_, ?_, ?_⟩
  · intro hb
    rw [h.repairs, hl hb, List.append_nil]
    rfl
  · intro hg
    exact h.recovery (by rw [recovery_powerOn, hg]; rfl)
  · intro a ha
    rw [h.mem, readByte_powerOn, if_neg (by omega)]
  · intro a ha
    rw [h.mem, readByte_powerOn, if_pos ha]

/-- A core that no process has used, and no engine operation came from, gives way to the spare. -/
theorem coreRetire_spec {s : State} {core : Nat} (hc : core < 512) (hf : spareFree s core = true)
    (hl : lostProcs s core = ([], [])) (ht : ∀ e ∈ s.txns, ∀ obj op, e.2.op ≠ .eng core obj op)
    (hp : ∀ e ∈ s.procs, e.2.engine = none) :
    ∃ u : State, exec (.coreRetire core) s = .next (u.pumpAll.wakeAlts) ∧ (u.core core).spare = true ∧
      (u.core core).grant = (s.core core).grant ∧ (u.core core).free = (s.core core).grant ∧ (u.core core).bufs = [] ∧
      u.procs = s.procs ∧ u.flash.repairs = s.flash.repairs ++ [.core core] := by
  refine ⟨_, exec_coreRetire hc hf hl, ?_⟩
  have hs := SameCores.failEngines (core := core) ht hp
  have hu := SameCores.fillSpare ((s.failEngines core).modCore core fun c => c.onSpare []) core
  have hcore : ((((s.failEngines core).modCore core fun c => c.onSpare []).fillSpare core).logRepair (.core core)).core core =
      (s.core core).onSpare [] := by
    have h1 : (s.failEngines core).core core = s.core core := by simp only [State.core, hs.cores]
    have h2 := State.core_setCore_same (s.failEngines core) core ((s.core core).onSpare [])
    rw [← h1] at h2 ⊢
    rw [← h2]
    exact congrArg (nget {} · core) hu.cores
  rw [hcore]
  exact ⟨rfl, rfl, rfl, rfl, hu.procs.trans hs.procs,
    congrArg (fun f : Flash => f.repairs ++ [Repair.core core]) (hu.flash.trans hs.flash)⟩

/-- A pseudo-channel that has been copied: its new bad lines are zero and listed. -/
theorem pseudoChannelCopyEnd_spec {s : State} {k ch : Nat} (bad : List Nat) (h : (s.mbd k).copying = some ch) :
    ∃ u : State, exec (.pseudoChannelCopyEnd k bad) s = .next u ∧
      (u.mbd k).substituted = some ch ∧ (u.mbd k).copying = none ∧ u.flash.repairs = s.flash.repairs ++ [.channel k ch] ∧
      ∀ a ∈ bad, a < 0x8000000000 → a % 128 = 0 → stackOf a = k → channelOf a = ch → a ∉ (s.mbd k).bad →
        a ∈ (u.mbd k).bad ∧ ∀ j < 128, readByte u.mem (a + j) = 0 := by
  refine ⟨_, exec_pseudoChannelCopyEnd bad h, ?_⟩
  generalize hn : newBad (s.mbd k) k ch bad = l
  have hmbd (t : State) (m : Stack) (r : Repair) : ((t.setMbd k m).logRepair r).mbd k = m := State.mbd_setMbd_same t k m
  rw [hmbd]
  refine ⟨rfl, rfl, rfl, fun a ha hlt hal hst hch hnew => ?_⟩
  have hmem : a ∈ l := by
    rw [← hn, newBad, List.mem_eraseDups, List.mem_filter]
    simp [ha, hlt, hal, hst, hch, hnew]
  exact ⟨List.mem_append_right _ hmem, fun j hj => readByte_clearLines (.inr ⟨a, hmem, by omega, by omega⟩)⟩

/-- Settles O53: a restart by `restart_setUp`, the retirement of a core by `coreRetire_spec`, and each stack event where its condition
holds. -/
theorem moduleEvents : Obligations.ModuleEvents := by
  refine ⟨exec_reset, ?thermal, fun _ => rfl, fun s core hc hf hl ht hp => coreRetire_spec hc hf hl ht hp, ?memory⟩
  case thermal =>
    exact fun s die temp hd => ⟨fun ht => if_pos ⟨hd, ht⟩, fun ht => if_pos ⟨hd, ht⟩, exec_thermalTrip hd⟩
  case memory =>
    intro s k hk
    refine ⟨?_, fun ch bad => pseudoChannelCopyEnd_spec bad, ?_, ?_, ?_, ?_, ?_, ?_, ?_⟩
    · intro ch hch hs hc
      have harm : exec (.pseudoChannelSubstitution k ch) s = execPseudoChannelSubstitution k ch s := rfl
      exact harm.trans (onStack_of hk (by simp [hch, hs, hc]))
    · intro row hr
      have harm : exec (.rowRepair k row) s = execRowRepair k row s := rfl
      exact harm.trans (onStack_of hk (by simpa using hr))
    · intro row hr
      refine ⟨_, exec_rowRepairEnd hr, ?_⟩
      have hmbd (m : Stack) (r : Repair) : ((s.setMbd k m).logRepair r).mbd k = m := State.mbd_setMbd_same s k m
      rw [hmbd]
      exact ⟨by simp, by simp, rfl⟩
    · intro row hr
      refine ⟨_, exec_neighbourRefresh hk hr, ?_⟩
      rw [State.mbd_setMbd_same]
      exact neighboursRefreshed_spec _ row
    · intro row
      have harm : exec (.rowRefresh k row) s = execRowRefresh k row s := rfl
      refine ⟨_, harm.trans (onStack_of hk rfl), ?_⟩
      rw [State.mbd_setMbd_same]
      exact ⟨by simp [Stack.refreshed, nget?_ndel], fun r hr => by simp [Stack.refreshed, nget?_ndel, hr]⟩
    · intro hr hq
      have harm : exec (.stackRetrain k) s = execStackRetrain k s := rfl
      refine (harm.trans (onStack_of hk (by simp [hr]))).trans ?_
      simp [streamOn_of_idle hq]
    · have harm : exec (.stackEmergencyRetrain k) s = execStackEmergencyRetrain k s := rfl
      refine ⟨_, harm.trans (onStack_of hk rfl), ?_⟩
      rw [State.mbd_setMbd_same]
    · intro hr
      have harm : exec (.stackRetrainEnd k) s = execStackRetrainEnd k s := rfl
      exact harm.trans (onStack_of hk hr)

end Sys2Proof.Machine
end

section
/-! SUPPORT. The links (O52): a port that goes down, and the loss of a CXL port. -/

namespace Sys2Proof.Machine

/-! ### What an end that is left blocked leaves of the ports -/

theorem ports_leaveCtx (s : State) (k : Nat) : (s.leaveCtx k).ports = s.ports := by
  unfold State.leaveCtx
  dsimp only
  split
  · rfl
  · rfl

theorem ports_block (s : State) (k : Nat) (w : Wait) (obj : W32) (d : Word) : (s.block k w obj d).ports = s.ports := by
  unfold State.block
  extract_lets t
  split
  · exact ports_leaveCtx t k
  · rfl

theorem ports_blockLate (s : State) (k : Nat) (w : Wait) (obj : W32) (d : Word) : (s.blockLate k w obj d).ports = s.ports := by
  unfold State.blockLate
  extract_lets p
  split
  · exact ports_block ..
  · exact ports_block ..
  · rfl
  · rfl
  · split
    · rfl
    · rfl
  · rfl

theorem ports_blockFar (s : State) (t : Nat) : (s.blockFar t).ports = s.ports := by
  unfold State.blockFar
  split
  · split
    · rfl
    · exact ports_blockLate ..
  · rfl

theorem ports_ite {c : Prop} [Decidable c] {s t : State} (h : t.ports = s.ports) : (if c then t else s).ports = s.ports := by
  split
  · exact h
  · rfl

theorem ports_foldl {α : Type} {f : State → α → State} (hf : ∀ s a, (f s a).ports = s.ports) (l : List α) (s : State) :
    (l.foldl f s).ports = s.ports := by
  induction l generalizing s with
  | nil => rfl
  | cons a l ih => exact (ih _).trans (hf s a)

/-- The last change of a port that goes down: it has no key (R35). -/
theorem ports_portDown (s : State) (b : Nat) : ∃ (l : NMap BPort) (p : BPort),
    (s.portDown b).ports = nset l b p ∧ p.down = true ∧ p.key = none := by
  unfold State.portDown
  refine ⟨_, _, (ports_foldl (fun s e => ?_) _ _).trans rfl, rfl, rfl⟩
  split
  · exact ports_ite (ports_blockFar ..)
  · exact ports_ite (ports_blockFar ..)
  · rfl

theorem port_portDown (s : State) (b : Nat) : ((s.portDown b).port b).down = true ∧ ((s.portDown b).port b).key = none := by
  obtain ⟨l, p, hports, hd, hk⟩ := ports_portDown s b
  have hp : (s.portDown b).port b = p := by rw [State.port, hports, nget_nset_same]
  rw [hp]
  exact ⟨hd, hk⟩

/-! ### What the events of a port do (R35, R37, R76) -/

section Flits

variable {s : State} {port : Nat} {f : Flit}

theorem exec_buneamFlitReceive (hp : port < 24) (hd : (s.port port).down = false) (hs : f.seq = (s.port port).rxSeq) :
    exec (.buneamFlitReceive port f) s =
      if !f.crcOk then .next (s.setPort port { s.port port with nacks := (s.port port).nacks + 1 })
      else if !(macGood s port f && slotBound s f) then
        if (s.port port).macFail = some f.seq.toNat then .next (s.portDown port)
        else .next (s.setPort port { s.port port with nacks := (s.port port).nacks + 1, macFail := some f.seq.toNat })
      else .next ((s.setPort port { s.port port with
        rxSeq := (s.port port).rxSeq + 1, macFail := none }).deliverFab port f.msg).pumpAll.wakeAlts :=
  if_neg (by simp [hd, hs]; omega)

theorem flitReceive_spec (hp : port < 24) (hd : (s.port port).down = false) (hs : f.seq = (s.port port).rxSeq) :
    let p := s.port port
    (f.crcOk = false → exec (.buneamFlitReceive port f) s = .next (s.setPort port { p with nacks := p.nacks + 1 })) ∧
    (f.crcOk = true → macGood s port f = true → slotBound s f = true → exec (.buneamFlitReceive port f) s =
      .next (((s.setPort port { p with rxSeq := p.rxSeq + 1, macFail := none }).deliverFab port f.msg).pumpAll.wakeAlts)) ∧
    (f.crcOk = true → (macGood s port f = false ∨ slotBound s f = false) →
      (p.macFail ≠ some f.seq.toNat → exec (.buneamFlitReceive port f) s =
        .next (s.setPort port { p with nacks := p.nacks + 1, macFail := some f.seq.toNat })) ∧
      (p.macFail = some f.seq.toNat → ∃ u : State, exec (.buneamFlitReceive port f) s = .next u ∧ (u.port port).down = true ∧
        (u.port port).key = none)) := by
  have hexec := exec_buneamFlitReceive hp hd hs
  refine ⟨fun hc => ?_, fun hc hm hb => ?_,
    fun hc hbad => ⟨fun hf => ?_, fun hf => ⟨s.portDown port, ?_, port_portDown s port⟩⟩⟩
  · rw [hexec, if_pos (by simp [hc])]
  · rw [hexec, if_neg (by simp [hc]), if_neg (by simp [hm, hb])]
  · rw [hexec, if_neg (by simp [hc]), if_pos (by simpa [imp_iff_not_or] using hbad), if_neg hf]
  · rw [hexec, if_neg (by simp [hc]), if_pos (by simpa [imp_iff_not_or] using hbad), if_pos hf]

end Flits

theorem exec_laneSpareSubstitution {s : State} {port : Nat} (hp : port < 24) (hd : (s.port port).down = false)
    (hs : (s.port port).spare = true) :
    exec (.laneSpareSubstitution port) s = .next ((s.setPort port { s.port port with spare := false, retrain := true }).logRepair
      (.lane port)) :=
  if_neg (by simp [hd, hs]; omega)

/-! ### A channel that is bound again (R36) -/

theorem exec_firmwareChannelRebind {s : State} {part ch k : Nat} {c : Chan} (hc : s.chan? part ch = some c) (hk : c.bkind = 4)
    (hd : (s.port (fabPort c.module c.rpart)).down = true) (hp : partOf k = part) (hn : nget? s.procs k = some (s.proc k))
    (hs : (s.proc k).st ≠ .exited) (hw : ∀ e ∈ s.txns, e.2.stage ≠ .waiting) :
    exec (.firmwareChannelRebind part ch k) s =
      .next ((s.rebind part ch fun j => if j = 0 then k * 2 ^ 32 else 0).chanChanged part ch) := by
  have harm : exec (.firmwareChannelRebind part ch k) s = execFirmwareChannelRebind part ch k s := rfl
  rw [harm, execFirmwareChannelRebind]
  split
  · next h => exact nomatch hc.symm.trans h
  · next c' h =>
    obtain rfl : c = c' := Option.some.inj (hc.symm.trans h)
    extract_lets held
    have hheld : held = [] := List.filter_eq_nil_iff.mpr fun e he => by simp [hw e he]
    clear_value held
    subst hheld
    exact if_pos ⟨hk, hd, hp, by rw [hn]; rfl, hs⟩

/-! ### CXL ports (R31) -/

section Cxl

variable {s : State} {d : Nat}

theorem cxlPort_setCxl (c : Cxl) : (s.setCxl d c).cxlPort d = c := nget_nset_same ..

/-- The port is lost where no motion copies. -/
theorem exec_cxlPortLost (hr : (s.cxlPort d).retraining = true) {t : State}
    (ht : s.txns.foldl (fun s e => s.loseAccess d e.1 e.2) s = t) (hm : ∀ m ∈ t.motions, m.2.st ≠ .copying) :
    exec (.cxlPortLost d) s =
      .next ((t.setCxl d { s.cxlPort d with retraining := false, lost := true }).ringDev (.portLost d)) := by
  have harm : exec (.cxlPortLost d) s = execCxlPortLost d s := rfl
  rw [harm, execCxlPortLost]
  extract_lets s1 s2 l
  have hs1 : s1 = t := ht
  have hl : l = [] := List.filter_eq_nil_iff.mpr fun m h => by
    have hne := hm m (hs1 ▸ h)
    simp [hne]
  clear_value l s1
  subst hl hs1
  exact if_neg (by simp [hr])

/-- Accesses outside the window stand. -/
theorem foldl_loseAccess {l : List (Nat × Txn)} (h : ∀ e ∈ l, s.inWindow d e.2.op.parts = false) :
    l.foldl (fun s e => s.loseAccess d e.1 e.2) s = s := by
  induction l with
  | nil => rfl
  | cons e l ih =>
    have he : s.loseAccess d e.1 e.2 = s := if_pos (by simp [h e (List.mem_cons_self ..)])
    rw [List.foldl_cons, he]
    exact ih fun e he => h e (List.mem_cons_of_mem _ he)

/-- A read of the window that is under way fails. -/
theorem loseAccess_read {t : Nat} {x : Txn} (hw : s.inWindow d x.op.parts = true) (hst : x.stage = .sent) (hr : x.op.role = .ld) :
    s.loseAccess d t x = s.setTxn t { x with stage := .failed (badRead s x (firstVa x.op.parts)) } := by
  simp [State.loseAccess, hw, hst, hr]

end Cxl

/-- Settles O52: each event by its equation above. -/
theorem linkEvents : Obligations.LinkEvents := by
  refine ⟨fun s port f hp hd hs => flitReceive_spec hp hd hs, ?port, ?retrain, ?rebind, ?cxl⟩
  case port =>
    intro s port hp hd
    have hup : ¬(24 ≤ port ∨ (s.port port).down = true) := by simp [hd, hp]
    refine ⟨fun seq => if_neg hup, fun ppb step lock => if_neg hup,
      fun hs => ⟨_, exec_laneSpareSubstitution hp hd hs, ?_⟩, fun hs => ?_⟩
    · have hport (p : BPort) (r : Repair) : ((s.setPort port p).logRepair r).port port = p := State.port_setPort_same s port p
      rw [hport]
      exact ⟨rfl, rfl, rfl, rfl⟩
    · exact if_neg (by simp [hd, hs, hp])
  case retrain =>
    exact fun s port hr => if_neg (by simp [hr])
  case rebind =>
    exact fun s part ch k c hc hk hd hp hn hs hw => exec_firmwareChannelRebind hc hk hd hp hn hs hw
  case cxl =>
    intro s d hd hc hl
    refine ⟨fun ha => ⟨_, if_neg (by simp [hc, hl, hd, ha]), ?_⟩,
      fun hr => ⟨⟨_, if_pos hr, ?_⟩, fun hm => ⟨fun hw => ?_, fun t x hx hw hst hro => ?_⟩⟩⟩
    · rw [cxlPort_setCxl]
      exact ⟨rfl, rfl⟩
    · rw [cxlPort_setCxl]
      exact ⟨rfl, hl⟩
    · refine ⟨_, exec_cxlPortLost hr (foldl_loseAccess hw) hm, ?_⟩
      have hport (c : Cxl) (e : Event) : ((s.setCxl d c).ringDev e).cxlPort d = c := cxlPort_setCxl c
      rw [hport]
      exact ⟨rfl, rfl, rfl, rfl⟩
    · have hfold : s.txns.foldl (fun s e => s.loseAccess d e.1 e.2) s =
          s.setTxn t { x with stage := .failed (badRead s x (firstVa x.op.parts)) } := by
        rw [hx]
        exact loseAccess_read hw hst hro
      refine ⟨_, exec_cxlPortLost hr hfold hm, ?_, nget?_nset_same ..⟩
      exact congrArg Cxl.lost (cxlPort_setCxl (s := s.setTxn t _) (d := d) _)

end Sys2Proof.Machine
end

section
/-! SUPPORT. The host queues, the mailboxes and the link keys (O49). -/

namespace Sys2Proof.Machine

/-! ### Queue registers (R49, R50) -/

/-- The fields that a write of word 1 sets while ENABLE is 0. -/
theorem setFields_spec {q : Queue} {v : Nat} (h : q.enable = false) :
    (q.setFields v).cls = v / 32 % 4 ∧ (q.setFields v).enable = false ∧ (q.setFields v).base = q.base ∧
      (q.setFields v).log2size = if 6 ≤ v % 32 ∧ v % 32 ≤ 16 then v % 32 else q.log2size := by
  simp [Queue.setFields, h, bits]

/-- Bit 7 is none of the fields. -/
theorem or_enable_fields (v : Nat) : (v ||| 2 ^ 7) / 32 % 4 = v / 32 % 4 ∧ (v ||| 2 ^ 7) % 32 = v % 32 := by
  have hdiv : (v ||| 2 ^ 7) / 2 ^ 5 = v / 2 ^ 5 ||| 2 ^ 2 := by
    rw [← Nat.shiftRight_eq_div_pow, Nat.shiftRight_or_distrib, Nat.shiftRight_eq_div_pow]
    rfl
  have hmod (a b n : Nat) : (a ||| b) % 2 ^ n = a % 2 ^ n ||| b % 2 ^ n := Nat.or_mod_two_pow
  constructor
  · calc (v ||| 2 ^ 7) / 2 ^ 5 % 2 ^ 2 = v / 2 ^ 5 % 2 ^ 2 ||| 2 ^ 2 % 2 ^ 2 := by rw [hdiv, hmod]
      _ = v / 2 ^ 5 % 2 ^ 2 := Nat.or_zero _
  · calc (v ||| 2 ^ 7) % 2 ^ 5 = v % 2 ^ 5 ||| 2 ^ 7 % 2 ^ 5 := hmod ..
      _ = v % 2 ^ 5 := Nat.or_zero _

theorem testBit_or_enable (v : Nat) : (v ||| 2 ^ 7).testBit 7 = true := by
  rw [Nat.testBit_or, Nat.testBit_two_pow_self, Bool.or_true]

section Registers

variable {s : State} {fn q : Nat} {v : BitVec 64}

theorem exec_queueEnable (hq : queueExists s fn q = true) (he : (s.queue (queueKey fn q)).enable = false) :
    exec (.queueEnable fn q v) s = .next (s.setQueue (queueKey fn q) { (s.queue (queueKey fn q)).setFields (v.toNat ||| 2 ^ 7) with
      enable := true, head := 0, consumed := 0 }) := by
  have harm : exec (.queueEnable fn q v) s = .next (s.writeWord1 (queueKey fn q) (v.toNat ||| 2 ^ 7)) := if_pos hq
  obtain ⟨-, hen, -, -⟩ := setFields_spec (v := v.toNat ||| 2 ^ 7) he
  rw [harm, State.writeWord1, if_pos (testBit_or_enable _), if_neg (by rw [hen]; exact Bool.false_ne_true)]

theorem regAt_base (fn q : Nat) : regAt fn ((0x10000 + 16 * q) / 8 * 8) = (queueKey fn q, 1) := by
  have h1 : (0x10000 + 16 * q) / 8 * 8 = 0x10000 + 16 * q := by omega
  have h2 : (0x10000 + 16 * q - 0x10000) / 16 = q := by omega
  have h3 : 1 + (0x10000 + 16 * q - 0x10000) / 8 % 2 = 1 := by omega
  rw [h1, regAt, if_neg (by omega), h2, h3]

theorem regAt_word1 (fn q : Nat) : regAt fn ((0x10008 + 16 * q) / 8 * 8) = (queueKey fn q, 2) := by
  have h1 : (0x10008 + 16 * q) / 8 * 8 = 0x10008 + 16 * q := by omega
  have h2 : (0x10008 + 16 * q - 0x10000) / 16 = q := by omega
  have h3 : 1 + (0x10008 + 16 * q - 0x10000) / 8 % 2 = 2 := by omega
  rw [h1, regAt, if_neg (by omega), h2, h3]

theorem exec_hostRegisterWrite_base (hq : queueExists s fn q = true) (he : (s.queue (queueKey fn q)).enable = false) :
    exec (.hostRegisterWrite fn (0x10000 + 16 * q) v) s =
      .next (s.setQueue (queueKey fn q) { s.queue (queueKey fn q) with base := BitVec.ofNat 64 (v.toNat / 64 * 64) }) := by
  have harm : exec (.hostRegisterWrite fn (0x10000 + 16 * q) v) s = execHostRegisterWrite fn (0x10000 + 16 * q) v s := rfl
  have hoff : (0x10000 + 16 * q - 0x10000) / 16 = q := by omega
  rw [harm, execHostRegisterWrite]
  simp only [regAt_base, hoff, if_true, State.writeBase, he]
  exact if_neg (by simp [hq])

theorem exec_hostRegisterWrite_word1 (hq : queueExists s fn q = true) :
    exec (.hostRegisterWrite fn (0x10008 + 16 * q) v) s =
      .next (s.setQueue (queueKey fn q) ((s.queue (queueKey fn q)).setFields v.toNat)) := by
  have harm : exec (.hostRegisterWrite fn (0x10008 + 16 * q) v) s = execHostRegisterWrite fn (0x10008 + 16 * q) v s := rfl
  have hoff : (0x10008 + 16 * q - 0x10000) / 16 = q := by omega
  rw [harm, execHostRegisterWrite]
  simp only [regAt_word1, hoff]
  exact (if_neg (by simp [hq]; omega)).trans (if_neg (by decide))

end Registers

/-! ### Slots (R51) -/

theorem exec_queueSlotRelease {s : State} {slot k : Nat} (hk : (boundQueues s)[slot]? = some k) (hb : (s.queue k).bound = true)
    (hr : (s.queue k).head = (s.queue k).tail ∨ othersPending s k = true ∧
      (64 ≤ (s.queue k).consumed ∨ (s.queue k).boundAt + 20 * 1750 ≤ s.cycle)) :
    exec (.queueSlotRelease slot) s = .next (s.setQueue k { s.queue k with
      bound := false
      pending := (s.queue k).pending || decide ((s.queue k).head ≠ (s.queue k).tail) }) := by
  have harm : exec (.queueSlotRelease slot) s = execQueueSlotRelease slot s := rfl
  have hrel : releases s k = true := by
    simp only [releases, hb, Queue.empty, Bool.true_and, Bool.or_eq_true, Bool.and_eq_true, beq_iff_eq, decide_eq_true_eq]
    exact hr
  have hne : (!(s.queue k).empty) = decide ((s.queue k).head ≠ (s.queue k).tail) := by
    rw [Queue.empty, decide_not, beq_eq_decide]
  simp only [harm, execQueueSlotRelease, hk, hrel, if_true, hne]

theorem exec_queueSlotBind {s : State} {slot k : Nat} (hs : slot < 64) (hl : (boundQueues s).length ≤ slot)
    (hk : nextPending s = some k) :
    exec (.queueSlotBind slot) s = .next { s.setQueue k { s.queue k with
      bound := true, pending := false, consumed := 0, boundAt := s.cycle } with lastBound := k } := by
  have harm : exec (.queueSlotBind slot) s = execQueueSlotBind slot s := rfl
  rw [harm, execQueueSlotBind, if_pos ⟨hs, hl⟩, hk]

/-! ### Mailboxes (R47, R58, R59) -/

/-- A TDISP message to a VF in a state that accepts it. -/
theorem tdispMsg_of {s : State} {fn : Nat} {l : List Tdisp} {f : Fn → Fn} (hf : fn ≠ 0) (hs : serves s fn = true)
    (hl : (s.fn fn).tdisp ∈ l) : tdispMsg s fn l f = .next (s.setFn fn (f (s.fn fn))) :=
  if_pos ⟨hf, hs, by simpa using hl⟩

/-- An attestation uses the next leaf of the lower tree where one is left. -/
theorem exec_attest {s : State} {fn : Nat} (hm : hasMailbox s fn = true) (hl : s.lowerUsed < 32768) :
    let t : State := { s with lowerUsed := s.lowerUsed + 1 }
    exec (.attest fn) s = .next (t.setFn fn { t.fn fn with measured := some (measure t fn s.lowerUsed) }) := by
  have harm : exec (.attest fn) s = execAttest fn s := rfl
  have hsign : s.sign = ({ s with lowerUsed := s.lowerUsed + 1 }, some s.lowerUsed) := by
    simp [State.sign, treeLeaves, hl]
  rw [harm, execAttest, if_pos hm, hsign]

/-! ### The key of a link (R34) -/

/-- A port that carries traffic again, from sequence number 0. -/
def BPort.raised (p : BPort) : BPort := if p.down then { p with down := false, txSeq := 0, rxSeq := 0, replay := [] } else p

theorem raised_spec (p : BPort) : p.raised.down = false ∧ p.raised.queue = p.queue := by
  unfold BPort.raised
  split
  · exact ⟨rfl, rfl⟩
  · next h => exact ⟨by simpa using h, rfl⟩

theorem exec_linkKeyReplacement {s : State} {port session : Nat} (hp : port < 24) (hc : s.flash.config.ports.getLsbD port = true)
    (hn : (s.port port).down = true → session ≠ (s.port port).session) :
    ∃ u : State, exec (.linkKeyReplacement ⟨port, session⟩) s = .next (u.flushPort port) ∧ (u.port port).key = some s.nextId ∧
      (u.port port).session = session ∧ (u.port port).sent = 0 ∧ (u.port port).down = false ∧
      (u.port port).queue = (s.port port).queue := by
  have hok : ¬(24 ≤ port ∨ (!s.flash.config.ports.getLsbD port) = true ∨
      (s.port port).down = true ∧ session = (s.port port).session) := by
    rintro (h | h | ⟨h, e⟩)
    · omega
    · simp [hc] at h
    · exact hn h e
  refine ⟨_, if_neg hok, ?_⟩
  rw [State.port_setPort_same]
  exact ⟨rfl, rfl, rfl, raised_spec (s.port port)⟩

/-! ### The obligation -/

theorem queueRegisters {s : State} {fn q : Nat} {v : BitVec 64} (hq : queueExists s fn q = true) :
    let k := queueKey fn q
    let r := s.queue k
    exec (.notifyWrite fn q v) s = .next (s.setQueue k { r with
      tail := v.toNat % 2 ^ 16 % 2 ^ r.log2size
      pending := r.pending || !r.bound }) ∧
    (r.enable = false → ∃ u : State, exec (.queueEnable fn q v) s = .next u ∧ (u.queue k).enable = true ∧ (u.queue k).head = 0 ∧
      (u.queue k).base = r.base ∧ (u.queue k).cls = v.toNat / 32 % 4 ∧
      (u.queue k).log2size = if 6 ≤ v.toNat % 32 ∧ v.toNat % 32 ≤ 16 then v.toNat % 32 else r.log2size) ∧
    exec (.queueDisable fn q) s = .next (s.setQueue k { r with enable := false, bound := false }) ∧
    (r.enable = false →
      exec (.hostRegisterWrite fn (0x10000 + 16 * q) v) s =
        .next (s.setQueue k { r with base := BitVec.ofNat 64 (v.toNat / 64 * 64) }) ∧
      ∃ u : State, exec (.hostRegisterWrite fn (0x10008 + 16 * q) v) s = .next u ∧ (u.queue k).cls = v.toNat / 32 % 4 ∧
        (u.queue k).enable = false ∧ (u.queue k).base = r.base) := by
  refine ⟨if_pos hq, fun he => ⟨_, exec_queueEnable hq he, ?_⟩, if_pos hq, fun he => ⟨exec_hostRegisterWrite_base hq he, _,
    exec_hostRegisterWrite_word1 hq, ?_⟩⟩
  · obtain ⟨hcls, -, hbase, hsize⟩ := setFields_spec (v := v.toNat ||| 2 ^ 7) he
    obtain ⟨hdiv, hmod⟩ := or_enable_fields v.toNat
    rw [State.queue_setQueue_same]
    exact ⟨rfl, rfl, hbase, hcls.trans hdiv, hsize.trans (by rw [hmod])⟩
  · obtain ⟨hcls, hen, hbase, -⟩ := setFields_spec (v := v.toNat) he
    rw [State.queue_setQueue_same]
    exact ⟨hcls, hen, hbase⟩

theorem mailboxes {s : State} {fn : Nat} (key : Nat) (hs : serves s fn = true) :
    exec (.doeDiscovery fn) s = .next (s.setFn fn { s.fn fn with discovered := true }) ∧
    exec (.ideKm fn key) s = .next (s.setFn fn { s.fn fn with ideKey := some key }) ∧
    exec (.securedSpdmSession fn key) s = .next (s.setFn fn { s.fn fn with session := some key, algs := spdmAlgs }) ∧
    (fn ≠ 0 →
      ((s.fn fn).tdisp = .unlocked → exec (.lockInterface fn) s = .next (s.setFn fn { s.fn fn with tdisp := .locked })) ∧
      ((s.fn fn).tdisp = .locked → exec (.startInterface fn) s = .next (s.setFn fn { s.fn fn with tdisp := .run })) ∧
      exec (.stopInterface fn) s = .next (s.setFn fn { s.fn fn with tdisp := .unlocked }) ∧
      ((s.fn fn).tdisp = .locked ∨ (s.fn fn).tdisp = .run →
        let b := (s.part (fn - 1)).budget
        exec (.getDeviceInterfaceReport fn) s =
          .next (s.setFn fn { s.fn fn with report := some { budget := b, keyslot := b.keyslot } }))) := by
  refine ⟨if_pos hs, if_pos hs, if_pos hs, fun hf => ⟨fun ht => ?_, fun ht => ?_, ?_, fun ht => ?_⟩⟩
  · have harm : exec (.lockInterface fn) s = execLockInterface fn s := rfl
    exact harm.trans (tdispMsg_of hf hs (by simp [ht]))
  · have harm : exec (.startInterface fn) s = execStartInterface fn s := rfl
    exact harm.trans (tdispMsg_of hf hs (by simp [ht]))
  · have harm : exec (.stopInterface fn) s = execStopInterface fn s := rfl
    exact harm.trans (tdispMsg_of hf hs (by cases (s.fn fn).tdisp <;> decide))
  · have harm : exec (.getDeviceInterfaceReport fn) s = execGetDeviceInterfaceReport fn s := rfl
    exact harm.trans (tdispMsg_of hf hs (by simpa using ht))

/-- Settles O49: each event by its equation above, and what it wrote by the rules for a queue, a function and a port. -/
theorem hostAndSecurityEvents : Obligations.HostAndSecurityEvents := by
  refine ⟨fun s fn q v hq => queueRegisters hq, fun s slot k hk hb hr => exec_queueSlotRelease hk hb hr, ?bind,
    fun s fn key hs => mailboxes key hs, ?attest, fun s port session hp hc hn => exec_linkKeyReplacement hp hc hn⟩
  case bind =>
    intro s slot k hs hl hk
    refine ⟨_, exec_queueSlotBind hs hl hk, ?_⟩
    have hqueue (p : Queue) : ({ s.setQueue k p with lastBound := k } : State).queue k = p := State.queue_setQueue_same s k p
    rw [hqueue]
    exact ⟨rfl, rfl, rfl, rfl, rfl⟩
  case attest =>
    intro s fn hm hl
    refine ⟨_, _, exec_attest hm hl, congrArg Fn.measured (State.fn_setFn_same ..), rfl, rfl, rfl, rfl, rfl, rfl, rfl, ?_, rfl⟩
    by_cases hf : fn = 0 <;> simp [measure, hf]

end Sys2Proof.Machine
end

section
/-! SUPPORT. The commands of firmware: how one begins, what is as before when it has begun, and its completion (R50, R53, R54,
R57). -/

namespace Sys2Proof.Machine

/-! ### A command begins -/

section Begins

variable {s : State} {e : EntryRef} {x : Entry} {w : From} {query : Bool} {mine : Cmd → Bool} {locks : Entry → Option Nat}
  {body : State → Entry → State}

/-- The next entry is the one at the head of its queue, and it is no entry of a VF in recovery. -/
theorem headEntry_of_nextEntry (hn : s.nextEntry e = some x) : s.headEntry (s.queue (queueKey e.fn e.q)) = x := by
  unfold State.nextEntry at hn
  dsimp only at hn
  split at hn
  · split at hn
    · cases hn
    · exact Option.some.inj hn
  · cases hn

/-- An entry that has begun is the one that host memory held. -/
theorem entry?_beginEntry (hn : s.nextEntry e = some x) : (s.beginEntry e).entry? e = some x := by
  simp only [State.entry?, State.beginEntry, State.queue_setQueue_same, nget?_nset_same, headEntry_of_nextEntry hn]

/-- A command of its kind whose reserved fields are zero is served where the queue and the state of the module allow it (R48, R54, R57). -/
theorem runCmd_served (hn : s.nextEntry e = some x) (hz : x.reservedZero = true) (hr : s.recovery = true → query = true)
    (hm : mine x.cmd = true) (hb : x.cmd ≠ .invalid ∧ x.cmd ≠ .attest) (ha : w.accepts e = true)
    (hl : e.fn = 0 → ∀ p, locks x = some p → lockedPart s p = false) :
    runCmd s e w query mine locks body = .next (body (s.beginEntry e) x) := by
  have hrec : ((s.beginEntry e).recovery && !query) = false := by
    cases hs : s.recovery with
    | false => exact Bool.and_eq_false_imp.mpr fun h => absurd (hs.symm.trans h) Bool.false_ne_true
    | true => simp [hr hs]
  unfold runCmd
  rw [hn]
  dsimp only
  split
  · next hc => exact absurd hc hb.1
  · next hc => exact absurd hc hb.2
  · simp only [hm, ha, hz, hrec, Bool.not_true, Bool.not_false, Bool.and_false, Bool.false_eq_true, if_false,
      Bool.and_true]
    refine if_neg fun h => ?_
    obtain ⟨hf, hp⟩ := Bool.and_eq_true_iff.mp h
    split at hp
    · next p hlocks => exact absurd ((hl (of_decide_eq_true hf) p hlocks).symm.trans hp) Bool.false_ne_true
    · cases hp

/-- The same outside recovery. -/
theorem runCmd_ready (h : CmdReady s e x) (hm : mine x.cmd = true) (hb : x.cmd ≠ .invalid ∧ x.cmd ≠ .attest)
    (ha : w.accepts e = true) (hl : e.fn = 0 → ∀ p, locks x = some p → lockedPart s p = false) :
    runCmd s e w false mine locks body = .next (body (s.beginEntry e) x) :=
  runCmd_served h.next h.zero (fun hr => absurd (h.live.symm.trans hr) Bool.false_ne_true) hm hb ha hl

theorem accepts_f (h : e.fn = 0) : From.f.accepts e = true := by simp [From.accepts, h]

theorem accepts_fm (h : e.fn = 0 ∨ e.q = 0) : From.fm.accepts e = true := by simpa [From.accepts] using h

theorem runCmd_reserved (hn : s.nextEntry e = some x) (hz : x.reservedZero = false) (hm : mine x.cmd = true) :
    runCmd s e w query mine locks body = .next ((s.beginEntry e).invalid e) := by
  unfold runCmd
  rw [hn]
  simp [hm, hz]

theorem runCmd_recovery (hn : s.nextEntry e = some x) (hz : x.reservedZero = true) (hr : s.recovery = true) (hm : mine x.cmd = true)
    (hb : x.cmd ≠ .attest) : runCmd s e w false mine locks body = .next ((s.beginEntry e).complete e .recovery 0) := by
  have hrec : (s.beginEntry e).recovery = true := hr
  unfold runCmd
  rw [hn]
  dsimp only
  split
  · simp [hz, hrec]
  · next hc => exact absurd hc hb
  · simp [hm, hz, hrec]

end Begins

/-! ### What an entry that begins leaves -/

section Begun

variable (s : State) (e : EntryRef)

@[simp] theorem beginEntry_part (p : Nat) : (s.beginEntry e).part p = s.part p := rfl
@[simp] theorem beginEntry_fn (f : Nat) : (s.beginEntry e).fn f = s.fn f := rfl
@[simp] theorem beginEntry_partLive (p : Nat) : (s.beginEntry e).partLive p = s.partLive p := rfl
@[simp] theorem beginEntry_lockedPart (p : Nat) : lockedPart (s.beginEntry e) p = lockedPart s p := rfl
@[simp] theorem beginEntry_ownPages (p : Nat) : ownPages (s.beginEntry e) p = ownPages s p := rfl
@[simp] theorem beginEntry_liveInst (p i : Nat) : liveInst (s.beginEntry e) p i = liveInst s p i := rfl
@[simp] theorem beginEntry_queueExists (f q : Nat) : queueExists (s.beginEntry e) f q = queueExists s f q := rfl

end Begun

/-! ### A completion (R50, R53) -/

section Completion

variable (s : State) (e : EntryRef) (st : Status) (w : Word)

/-- Host memory and the entry in its queue alone are written. -/
theorem complete_eq : ∃ m q, s.complete e st w = { s with mem := m, queues := q } := by
  unfold State.complete
  split
  · exact ⟨s.mem, s.queues, rfl⟩
  · exact ⟨_, _, rfl⟩

@[simp] theorem complete_time : (s.complete e st w).time = s.time := by obtain ⟨_, _, h⟩ := complete_eq s e st w; rw [h]
@[simp] theorem complete_timePpb : (s.complete e st w).timePpb = s.timePpb := by obtain ⟨_, _, h⟩ := complete_eq s e st w; rw [h]
@[simp] theorem complete_timeSlew : (s.complete e st w).timeSlew = s.timeSlew := by obtain ⟨_, _, h⟩ := complete_eq s e st w; rw [h]
@[simp] theorem complete_parts : (s.complete e st w).parts = s.parts := by obtain ⟨_, _, h⟩ := complete_eq s e st w; rw [h]

end Completion

end Sys2Proof.Machine
end

section
/-! SUPPORT. Keys, the device time and QUERY (O48). -/

namespace Sys2Proof.Machine

/-! ### Keys (R71, R72) -/

section Commands

variable {s : State} {e : EntryRef} {x : Entry}

theorem exec_keysetMemory {slot addr : Nat} (key : Option Nat) (h : CmdReady s e x) (hq : e.fn = 0 ∨ e.q = 0)
    (hl : e.fn = 0 → lockedPart s (targetPart e x) = false) (hc : x.cmd = .keysetMemory slot addr)
    (hp : s.partLive (targetPart e x) = true) (hslot : slot = (s.part (targetPart e x)).budget.keyslot)
    (ho : ownPages s (targetPart e x) = false) (hs : (s.fn e.fn).session ≠ none) :
    exec (.keysetMemory ⟨e, key⟩) s = .next (match key with
        | none => (s.beginEntry e).complete e .badsig 0
        | some k =>
          let a := (s.beginEntry e).clearAreas (targetPart e x)
          ({ a with memKeys := nset a.memKeys slot k }).complete e .ok 0) := by
  have harm : exec (.keysetMemory ⟨e, key⟩) s = execKeysetMemory ⟨e, key⟩ s := rfl
  rw [harm, execKeysetMemory, runCmd_ready h (by rw [hc]) (by simp [hc]) (accepts_fm hq) (by rintro hf p ⟨⟩; exact hl hf)]
  cases key <;>
    simp only [hc, beginEntry_partLive, hp, beginEntry_part, hslot, beginEntry_ownPages, ho, beginEntry_fn, hs, Bool.not_true,
      Bool.false_eq_true, ne_eq, not_true, or_self, if_false]

theorem exec_keysetBuneam {slot addr : Nat} (key m rp ses : Nat) (h : CmdReady s e x) (hq : e.fn = 0 ∨ e.q = 0)
    (hl : e.fn = 0 → lockedPart s (targetPart e x) = false) (hc : x.cmd = .keysetBuneam slot addr) (hslot : slot < 256)
    (hp : s.partLive (targetPart e x) = true) :
    exec (.keysetBuneam ⟨e, key, m, rp, ses⟩) s = .next ((({ s.beginEntry e with
      keys := nset s.keys slot { localPart := targetPart e x, module := m, remotePart := rp, key := key, session := ses } } :
        State).flushPort (fabPort m rp)).complete e .ok 0) := by
  have harm : exec (.keysetBuneam ⟨e, key, m, rp, ses⟩) s = execKeysetBuneam ⟨e, key, m, rp, ses⟩ s := rfl
  rw [harm, execKeysetBuneam, runCmd_ready h (by rw [hc]) (by simp [hc]) (accepts_fm hq) (by rintro hf p ⟨⟩; exact hl hf)]
  simp only [hc, beginEntry_partLive, hp, Bool.not_true, Bool.false_eq_true, if_false, if_neg (Nat.not_le.mpr hslot)]
  rfl

/-! ### The device time (R54, R75) -/

theorem exec_timeset {t : Word} (h : CmdReady s e x) (hf : e.fn = 0) (hc : x.cmd = .timeset t) :
    exec (.timeset e) s = .next (((s.beginEntry e).setTime t).complete e .ok 0) := by
  have harm : exec (.timeset e) s = execTimeset e s := rfl
  rw [harm, execTimeset, runCmd_ready h (by rw [hc]) (by simp [hc]) (accepts_f hf) (by rintro _ _ ⟨⟩)]
  simp only [hc]

theorem exec_timeadj {ppb step : Int} (h : CmdReady s e x) (hf : e.fn = 0) (hc : x.cmd = .timeadj ppb step) :
    exec (.timeadj e) s = .next (if ppb < -100000 ∨ 100000 < ppb then (s.beginEntry e).invalid e
      else ((s.beginEntry e).adjTime ppb step).complete e .ok 0) := by
  have harm : exec (.timeadj e) s = execTimeadj e s := rfl
  rw [harm, execTimeadj, runCmd_ready h (by rw [hc]) (by simp [hc]) (accepts_f hf) (by rintro _ _ ⟨⟩)]
  simp only [hc]

theorem nget?_map_snd {α β : Type} (f : Nat → α → β) (m : NMap α) (k : Nat) :
    nget? (m.map fun e => (e.1, f e.1 e.2)) k = (nget? m k).map (f k) := by
  induction m with
  | nil => rfl
  | cons e t ih =>
    obtain ⟨j, a⟩ := e
    by_cases hj : j = k
    · subst hj
      simp [nget?]
    · simp [nget?, hj, ih]

/-- No virtual time is below its floor (R74). -/
theorem vtfloor_le_virtualTime (s : State) (p : Nat) : (s.part p).vtfloor.toNat ≤ (virtualTime s p).toNat := by
  unfold virtualTime
  dsimp only
  split
  · exact Nat.le_refl _
  · next h => exact Nat.le_of_not_lt h

/-- TIMESET raises every floor to the virtual time reached (R75). -/
theorem vtfloor_setTime {t : Word} {p : Nat} {q : Part} (hq : nget? s.parts p = some q) :
    ((s.setTime t).part p).vtfloor = virtualTime s p := by
  have hmap := nget?_map_snd (fun k (r : Part) => { r with vtfloor := virtualTime s k }) s.parts p
  rw [hq] at hmap
  simp only [State.part, State.setTime, nget]
  rw [hmap]
  rfl

theorem timeset_spec {t : Word} (h : CmdReady s e x) (hf : e.fn = 0) (hc : x.cmd = .timeset t) :
    ∃ u : State, exec (.timeset e) s = .next u ∧ u.time = t ∧
      ∀ p q, nget? s.parts p = some q → (u.part p).vtfloor = virtualTime s p ∧ (virtualTime s p).toNat ≤ (virtualTime u p).toNat := by
  refine ⟨_, exec_timeset h hf hc, complete_time .., fun p q hq => ?_⟩
  have hfloor : ((((s.beginEntry e).setTime t).complete e .ok 0).part p).vtfloor = virtualTime s p := by
    rw [State.part, complete_parts]
    exact vtfloor_setTime (s := s.beginEntry e) hq
  exact ⟨hfloor, hfloor ▸ vtfloor_le_virtualTime _ p⟩

theorem timeadj_spec {ppb step : Int} (h : CmdReady s e x) (hf : e.fn = 0) (hc : x.cmd = .timeadj ppb step) :
    (-100000 ≤ ppb → ppb ≤ 100000 → ∃ u : State, exec (.timeadj e) s = .next u ∧ u.timePpb = ppb ∧
      (0 ≤ step → u.time = s.time + BitVec.ofInt 64 step ∧ u.timeSlew = s.timeSlew) ∧
      (step < 0 → u.time = s.time ∧ u.timeSlew = s.timeSlew + step * 7000000000)) ∧
    (ppb < -100000 ∨ 100000 < ppb → ∃ w, exec (.timeadj e) s = .next ((s.beginEntry e).draw.1.complete e .invalid w)) := by
  rw [exec_timeadj h hf hc]
  refine ⟨fun hlo hhi => ?_, fun hout => ⟨_, by rw [if_pos hout]; rfl⟩⟩
  rw [if_neg (by omega)]
  refine ⟨_, rfl, ?_⟩
  rw [complete_timePpb, complete_time, complete_timeSlew, State.adjTime]
  by_cases hs : 0 ≤ step
  · rw [if_pos hs]
    exact ⟨rfl, fun _ => ⟨rfl, rfl⟩, fun hneg => absurd hs (Int.not_le.mpr hneg)⟩
  · rw [if_neg hs]
    exact ⟨rfl, fun hpos => absurd hpos hs, fun _ => ⟨rfl, rfl⟩⟩

/-! ### QUERY (R54, R57) -/

section Query

variable {k a sel : Nat} {there : State → Nat → Nat → Bool} {result : State → Nat → State × Word}

/-- A QUERY is served by the event of its selector, and in recovery too. -/
theorem queryCmd_eq (hn : s.nextEntry e = some x) (hz : x.reservedZero = true) (hc : x.cmd = .query k a)
    (hk : k = sel ∨ sel = 5 ∧ 5 < k) :
    queryCmd s e sel there result = .next (
      if 5 < k then (s.beginEntry e).invalid e
      else if there (s.beginEntry e) (targetPart e x) a then
        (result (s.beginEntry e) (targetPart e x)).1.complete e .ok (result (s.beginEntry e) (targetPart e x)).2
      else (s.beginEntry e).complete e .notfound 0) := by
  rw [queryCmd, runCmd_served hn hz (fun _ => rfl) (by simpa [hc] using hk) (by simp [hc]) rfl (by rintro _ _ ⟨⟩)]
  simp only [hc]

theorem queryCmd_found (hn : s.nextEntry e = some x) (hz : x.reservedZero = true) (hc : x.cmd = .query sel a) (hs : sel ≤ 5)
    (ht : there (s.beginEntry e) (targetPart e x) a = true) :
    queryCmd s e sel there result =
      .next ((result (s.beginEntry e) (targetPart e x)).1.complete e .ok (result (s.beginEntry e) (targetPart e x)).2) := by
  rw [queryCmd_eq hn hz hc (.inl rfl), if_neg (Nat.not_lt.mpr hs), if_pos ht]

theorem queryCmd_absent (hn : s.nextEntry e = some x) (hz : x.reservedZero = true) (hc : x.cmd = .query sel a) (hs : sel ≤ 5)
    (ht : ¬there (s.beginEntry e) (targetPart e x) a = true) :
    queryCmd s e sel there result = .next ((s.beginEntry e).complete e .notfound 0) := by
  rw [queryCmd_eq hn hz hc (.inl rfl), if_neg (Nat.not_lt.mpr hs), if_neg ht]

end Query

/-- Bit 63 of a word whose other bits are free. -/
theorem getLsbD_lock (w : Word) (b : Bool) :
    ((w &&& 0x7FFFFFFFFFFFFFFF) ||| (if b then 0x8000000000000000 else 0) : Word).getLsbD 63 = b := by
  cases b <;> simp

/-- The last of the six events serves the selectors beyond it too. -/
theorem exec_queryQueueState (s : State) (e : EntryRef) :
    exec (.queryQueueState e) s = queryCmd s e 5 (fun s p q => queueExists s (fnOf p) q) fun s _ => s.draw := rfl

/-- The answer of each selector. -/
theorem query_spec (hn : s.nextEntry e = some x) (hz : x.reservedZero = true) :
    let free (i : Instr) : Prop := ∃ w, exec i s = .next ((s.beginEntry e).draw.1.complete e .ok w)
    let absent (i : Instr) : Prop := exec i s = .next ((s.beginEntry e).complete e .notfound 0)
    (∀ a, x.cmd = .query 0 a → exec (.queryRevision e) s = .next ((s.beginEntry e).complete e .ok (s.romRev.setWidth 64))) ∧
    (∀ a, x.cmd = .query 1 a → free (.queryPatchList e)) ∧
    (∀ a, x.cmd = .query 2 a → ∃ w : Word, exec (.queryCapacity e) s = .next ((s.beginEntry e).draw.1.complete e .ok w) ∧
      w.getLsbD 63 = s.timeLock) ∧
    (∀ a, x.cmd = .query 3 a → if s.partLive (targetPart e x) then
        exec (.queryBudgets e) s = .next ((s.beginEntry e).complete e .ok (BitVec.ofNat 64 (missSum (s.beginEntry e) (targetPart e x))))
      else absent (.queryBudgets e)) ∧
    (∀ a, x.cmd = .query 4 a →
      if liveInst s (targetPart e x) a then free (.queryInstanceState e) else absent (.queryInstanceState e)) ∧
    (∀ a, x.cmd = .query 5 a →
      if queueExists s (fnOf (targetPart e x)) a then free (.queryQueueState e) else absent (.queryQueueState e)) ∧
    (∀ k a, 5 < k → x.cmd = .query k a → exec (.queryQueueState e) s = .next ((s.beginEntry e).invalid e)) := by
  refine ⟨fun a hc => ?revision, fun a hc => ⟨(s.beginEntry e).draw.2, ?patches⟩,
    fun a hc => ⟨_, ?capacity, getLsbD_lock (s.beginEntry e).draw.2 s.timeLock⟩, fun a hc => ?budgets, fun a hc => ?instances,
    fun a hc => ?queues, fun k a hk hc => ?beyond⟩
  case revision =>
    have harm : exec (.queryRevision e) s = queryCmd s e 0 (fun _ _ _ => true) fun s _ => (s, s.romRev.setWidth 64) := rfl
    exact harm.trans (queryCmd_found hn hz hc (by decide) rfl)
  case patches =>
    have harm : exec (.queryPatchList e) s = queryCmd s e 1 (fun _ _ _ => true) fun s _ => s.draw := rfl
    exact harm.trans (queryCmd_found hn hz hc (by decide) rfl)
  case capacity =>
    have harm : exec (.queryCapacity e) s = execQueryCapacity e s := rfl
    rw [harm, execQueryCapacity, queryCmd_found hn hz hc (by decide) rfl]
    rfl
  case budgets =>
    have harm : exec (.queryBudgets e) s =
        queryCmd s e 3 (fun s p _ => s.partLive p) fun s p => (s, BitVec.ofNat 64 (missSum s p)) := rfl
    split
    · next h => exact harm.trans (queryCmd_found hn hz hc (by decide) h)
    · next h => exact harm.trans (queryCmd_absent hn hz hc (by decide) h)
  case instances =>
    have harm : exec (.queryInstanceState e) s = queryCmd s e 4 (fun s p i => liveInst s p i) fun s _ => s.draw := rfl
    split
    · next h => exact ⟨_, harm.trans (queryCmd_found hn hz hc (by decide) h)⟩
    · next h => exact harm.trans (queryCmd_absent hn hz hc (by decide) h)
  case queues =>
    split
    · next h => exact ⟨_, (exec_queryQueueState s e).trans (queryCmd_found hn hz hc (by decide) h)⟩
    · next h => exact (exec_queryQueueState s e).trans (queryCmd_absent hn hz hc (by decide) h)
  case beyond =>
    exact (exec_queryQueueState s e).trans ((queryCmd_eq hn hz hc (.inr ⟨rfl, hk⟩)).trans (by rw [if_pos hk]))

end Commands

/-! ### The obligation -/

/-- Settles O48: each command begins by `runCmd_served`, and what it wrote is read by the rules above. -/
theorem deviceCommands : Obligations.DeviceCommands := by
  refine ⟨fun s e x h hq hl => ⟨?memory, ?buneam⟩, fun s e x h hf => ⟨fun t => timeset_spec h hf, fun ppb step => timeadj_spec h hf⟩,
    fun s e x hn hz => query_spec hn hz⟩
  case memory => exact fun slot addr key hc hp hslot ho hs => exec_keysetMemory key h hq hl hc hp hslot ho hs
  case buneam => exact fun slot addr key m rp ses hc hslot hp => exec_keysetBuneam key m rp ses h hq hl hc hslot hp

end Sys2Proof.Machine
end

section
/-! SUPPORT. The pages of a partition (O46): which operations leave every partition the pages granted to it and those that firmware keeps of
it. One lemma per operation of `PARTDESTROY` up to the scrub, named after it. -/

namespace Sys2Proof.Machine

/-- Every partition has the pages that `g` gives: those granted to it, and those that firmware keeps of it. -/
def State.HasPages (g : Nat → List (Nat × Nat × Nat) × List (Nat × Nat)) (s : State) : Prop :=
  ∀ p, ((s.part p).grants, (s.part p).resv) = g p

section Pages

variable {g : Nat → List (Nat × Nat × Nat) × List (Nat × Nat)} {s t : State}

namespace State.HasPages

/-- An update of other fields. -/
theorem upd (h : s.HasPages g) (hp : t.parts = s.parts) : t.HasPages g := fun p => by
  rw [State.part, hp]
  exact h p

theorem ite {c : Prop} [Decidable c] (h : s.HasPages g) (k : t.HasPages g) : (if c then s else t).HasPages g := by
  split
  · exact h
  · exact k

theorem iteThen {c : Prop} [Decidable c] (h : s.HasPages g) (k : s.HasPages g → t.HasPages g) : (if c then t else s).HasPages g :=
  .ite (k h) h

theorem iteElse {c : Prop} [Decidable c] (h : s.HasPages g) (k : s.HasPages g → t.HasPages g) : (if c then s else t).HasPages g :=
  .ite h (k h)

theorem foldl {α : Type} {f : State → α → State} (hf : ∀ s a, s.HasPages g → (f s a).HasPages g) {l : List α} (h : s.HasPages g) :
    (l.foldl f s).HasPages g := by
  induction l generalizing s with
  | nil => exact h
  | cons a l ih => exact ih (hf s a h)

/-! ### Operations of `Machine/Ops` -/

theorem setPart {p : Nat} {q : Part} (h : s.HasPages g) (hg : q.grants = (s.part p).grants) (hr : q.resv = (s.part p).resv) :
    (s.setPart p q).HasPages g := fun j => by
  rw [State.part_setPart]
  split
  · next hj => rw [hg, hr, hj, h p]
  · exact h j

theorem modPart {p : Nat} {f : Part → Part} (h : s.HasPages g) (hg : ∀ q, (f q).grants = q.grants) (hr : ∀ q, (f q).resv = q.resv) :
    (s.modPart p f).HasPages g := h.setPart (hg _) (hr _)

theorem setChan {part ch : Nat} {c : Chan} (h : s.HasPages g) : (s.setChan part ch c).HasPages g :=
  h.modPart (fun _ => rfl) fun _ => rfl

theorem modChan {part ch : Nat} {f : Chan → Chan} (h : s.HasPages g) : (s.modChan part ch f).HasPages g :=
  h.modPart (fun _ => rfl) fun _ => rfl

theorem putSlot {part ch sender : Nat} {bs : List Byte} (h : s.HasPages g) : (s.putSlot part ch sender bs).HasPages g := by
  unfold State.putSlot
  split
  · exact h
  · exact setChan (h.upd rfl)

theorem raiseFloor {k : Nat} {c : Clock} (h : s.HasPages g) : (s.raiseFloor k c).HasPages g := .ite h (h.upd rfl)

theorem leaveCtx {k : Nat} (h : s.HasPages g) : (s.leaveCtx k).HasPages g := by
  unfold State.leaveCtx
  dsimp only
  split
  · exact h
  · exact h.upd rfl

theorem newEpisode {k : Nat} (h : s.HasPages g) : (s.newEpisode k).HasPages g := .ite (h.upd rfl) h

theorem ready {k : Nat} {head : Bool} (h : s.HasPages g) : (s.ready k head).HasPages g := by
  have h1 : (s.newEpisode k).HasPages g := .newEpisode h
  unfold State.ready
  dsimp only
  refine .ite (h1.upd rfl) (.ite (.ite h1 (h1.upd rfl)) (.ite (h1.upd rfl) (h1.upd rfl)))

theorem block {k : Nat} {w : Wait} {obj : W32} {deadline : Word} (h : s.HasPages g) : (s.block k w obj deadline).HasPages g :=
  .iteThen (h.upd rfl) .leaveCtx

theorem blockLate {k : Nat} {w : Wait} {obj : W32} {deadline : Word} (h : s.HasPages g) :
    (s.blockLate k w obj deadline).HasPages g := by
  unfold State.blockLate
  dsimp only
  split
  · exact .block h
  · exact .block h
  · exact h.upd rfl
  · exact h.upd rfl
  · exact .ite (h.upd rfl) h
  · exact h

theorem failThread {k : Nat} {t : Trap} {loc : Word} {bword : Bool} (h : s.HasPages g) : (s.failThread k t loc bword).HasPages g := by
  unfold State.failThread
  dsimp only
  split
  · exact h
  · refine .ite h ?_
    split
    · exact h.upd rfl
    · exact h.upd rfl

theorem failC {t : Nat} {x : Txn} {r : FRec} (h : s.HasPages g) : (s.failC t x r).HasPages g := .ite (.failThread h) (h.upd rfl)

theorem failWait {part ch t : Nat} {kind : Kind} {addr : Word} (h : s.HasPages g) : (s.failWait part ch t kind addr).HasPages g := by
  unfold State.failWait
  dsimp only
  split
  · have hdrop {u : State} (hu : u.HasPages g) : (u.dropTxn t).HasPages g := hu.upd rfl
    exact .iteThen (.modChan (hdrop (.ite h (.failC h)))) .ready
  · exact h

theorem reapChan {part ch : Nat} (h : s.HasPages g) : (s.reapChan part ch).HasPages g := by
  unfold State.reapChan
  split
  · exact h
  · exact .ite (h.modPart (fun _ => rfl) fun _ => rfl) h

theorem closeTx {part ch k : Nat} (h : s.HasPages g) : (s.closeTx part ch k).HasPages g := by
  unfold State.closeTx
  dsimp only
  split
  · exact h
  · exact .iteElse (.setChan h) fun h2 => .reapChan (.ite (.foldl (fun _ _ => .failWait) h2) h2)

theorem closeRx {part ch : Nat} (h : s.HasPages g) : (s.closeRx part ch).HasPages g := by
  unfold State.closeRx
  dsimp only
  split
  · exact h
  · exact .reapChan (.foldl (fun _ _ => .failWait) (.setChan h))

theorem closeAll {k : Nat} (h : s.HasPages g) : (s.closeAll k).HasPages g :=
  .foldl (fun _ _ h1 => .iteThen (.ite (.closeTx h1) h1) .closeRx) h

theorem endDormants {n : Nat} (h : s.HasPages g) : (s.endDormants n).HasPages g := by
  induction n generalizing s with
  | zero => exact h
  | succ n ih =>
    unfold State.endDormants
    split
    · exact h
    · exact ih (.closeAll (h.upd rfl))

theorem setQueue {k : Nat} {q : Queue} (h : s.HasPages g) : (s.setQueue k q).HasPages g := h.upd rfl

theorem complete {e : EntryRef} {st : Status} {w : Word} (h : s.HasPages g) : (s.complete e st w).HasPages g :=
  h.upd (complete_parts ..)

theorem ringPart {p : Nat} {e : Event} (h : s.HasPages g) : (s.ringPart p e).HasPages g := by
  have h1 : (s.setPart p { s.part p with ring := (s.part p).ring ++ [e] }).HasPages g := h.setPart rfl rfl
  rw [State.ringPart_eq]
  exact h1.upd rfl

theorem post {part ch : Nat} {bs : List Byte} (h : s.HasPages g) : OptAll (State.HasPages g) (s.post part ch bs) := by
  unfold State.post
  dsimp only
  split
  · exact .none
  · exact .ite .none (.ite (.ite (.some (setChan (h.upd rfl))) .none) (.ite .none (.some (putSlot h))))

/-! ### Operations of `Machine/Fabric` and `Machine/Channels` -/

theorem countFlit {port slot : Nat} (h : s.HasPages g) : (s.countFlit port slot).HasPages g := by
  unfold State.countFlit
  dsimp only
  split
  · exact h.upd rfl
  · exact h.upd rfl

theorem emit {port slot : Nat} {f : Nat × FabMsg} (h : s.HasPages g) : (s.emit port slot f).HasPages g :=
  .ite h (.ite (h.upd rfl) (.countFlit (h.upd rfl)))

theorem sendFab {m part : Nat} {msg : FabMsg} (h : s.HasPages g) : (s.sendFab m part msg).HasPages g := .foldl (fun _ _ => .emit) h

theorem leaveQueue {ch t : Nat} {x : Txn} (h : s.HasPages g) : (s.leaveQueue ch t x).HasPages g := .modChan h

theorem startSide {t : Nat} {x : Txn} (h : s.HasPages g) : (s.startSide t x).HasPages g := by
  unfold State.startSide
  split
  · exact h
  · split
    · exact h
    · exact h.upd rfl

theorem setTxn {t : Nat} {x : Txn} (h : s.HasPages g) : (s.setTxn t x).HasPages g := h.upd rfl

theorem matchPair {ch t : Nat} {x : Txn} {r : Nat} {y : Txn} (h : s.HasPages g) : (s.matchPair ch t x r y).HasPages g := by
  unfold State.matchPair
  dsimp only
  refine .setTxn (.setTxn ?_)
  exact .iteThen (.raiseFloor (.startSide (.startSide (.leaveQueue (.leaveQueue h))))) .raiseFloor

theorem putMsg {ch t : Nat} {x : Txn} (h : s.HasPages g) : (s.putMsg ch t x).HasPages g :=
  .setTxn (.modChan (.putSlot (.startSide (.leaveQueue h))))

theorem takeMsg {ch r : Nat} {y : Txn} {bs : List Byte} (h : s.HasPages g) : (s.takeMsg ch r y bs).HasPages g :=
  .setTxn (.modChan (.raiseFloor (.startSide (.leaveQueue h))))

theorem startAlone {ch t : Nat} {x : Txn} (h : s.HasPages g) : (s.startAlone ch t x).HasPages g :=
  .setTxn (.modChan (.startSide (.leaveQueue h)))

theorem blockFar {t : Nat} (h : s.HasPages g) : (s.blockFar t).HasPages g := by
  unfold State.blockFar
  split
  · exact .ite h (.blockLate (.setTxn h))
  · exact h

theorem sendRemote {ch t : Nat} {x : Txn} {c : Chan} (h : s.HasPages g) : (s.sendRemote ch t x c).HasPages g :=
  .iteThen (.setTxn (.sendFab (.startSide (.leaveQueue h)))) .blockFar

theorem sideFault {part ch t : Nat} {x : Txn} (h : s.HasPages g) : OptAll (State.HasPages g) (s.sideFault part ch t x) :=
  .ite (.some (.failWait h)) (.mapPass fun _ => .failWait h)

theorem chanStep {part ch : Nat} (h : s.HasPages g) : OptAll (State.HasPages g) (s.chanStep part ch) := by
  unfold State.chanStep
  dsimp only
  split
  · exact .none
  · split
    · exact .some (.failWait h)
    · split
      · refine .ite (.or (sideFault h) (.ite (.some (.startAlone h)) .none)) (.ite ?_ ?_)
        · split
          · exact .some (.failWait h)
          · exact .or (sideFault h) (.ite (.some (.takeMsg h)) .none)
        · split
          · exact .none
          · exact .or (.or (sideFault h) (sideFault h)) (.ite (.some (.matchPair h)) .none)
      · exact .or (sideFault h) (.ite (.some (.ite (.startAlone h) (.sendRemote h))) .none)
      · split
        · exact .none
        · exact .or (sideFault h) (.ite (.some (.putMsg h)) .none)

theorem settleChan {part ch n : Nat} (h : s.HasPages g) : (s.settleChan part ch n).HasPages g := by
  induction n generalizing s with
  | zero => exact h
  | succ n ih =>
    unfold State.settleChan
    split
    · next e => exact ih (chanStep h _ e)
    · exact h

theorem pumpChan {part ch : Nat} (h : s.HasPages g) : (s.pumpChan part ch).HasPages g := by
  unfold State.pumpChan
  split
  · exact h
  · exact .settleChan h

theorem takeGuard {k h2 : Nat} (h : s.HasPages g) : (s.takeGuard k h2).HasPages g := by
  have hproc {u : State} {k : Nat} {f : Proc → Proc} (hu : u.HasPages g) : (u.modProc k f).HasPages g := hu.upd rfl
  unfold State.takeGuard
  dsimp only
  split
  · exact h
  · exact .ite (hproc (.setChan h)) h

theorem wakeAlts (h : s.HasPages g) : s.wakeAlts.HasPages g := by
  unfold State.wakeAlts
  dsimp only
  refine .foldl (fun _ _ h1 => ?_) (.endDormants h)
  split
  · split
    · exact h1
    · exact (takeGuard h1).upd rfl
  · exact h1

theorem chanChanged {part ch : Nat} (h : s.HasPages g) : (s.chanChanged part ch).HasPages g := .wakeAlts (.pumpChan h)

/-! ### Operations of `Machine/Motion` and `Machine/Firmware` -/

theorem migDone {txn : Option Nat} {w : Nat} (h : s.HasPages g) : (s.migDone txn w).HasPages g := by
  unfold State.migDone
  split
  · exact h
  · exact h.upd rfl

theorem migRecord {part : Nat} {bs : List Byte} (h : s.HasPages g) : (s.migRecord part bs).HasPages g := by
  unfold State.migRecord
  dsimp only
  split
  · exact .ringPart h
  · next _ e => exact .chanChanged (OptAll.ite .none (post h) _ e)

theorem abortMotion {id : Nat} {m : Motion} {c : AbortCause} (h : s.HasPages g) : (s.abortMotion id m c).HasPages g := by
  unfold State.abortMotion
  extract_lets bs s1 s2
  have h1 : s1.HasPages g := h.upd rfl
  have hbit : (s1.pteBit m.leaf 6 0x40 false).HasPages g := h1.upd rfl
  exact .migDone (.migRecord (.ite (hbit.modPart (fun _ => rfl) fun _ => rfl) h1))

theorem stopMotions {part : Nat} (h : s.HasPages g) : (s.stopMotions part).HasPages g := .foldl (fun _ _ => .abortMotion) h

theorem abortNext {fn q n : Nat} (h : s.HasPages g) : (s.abortNext fn q n).HasPages g := by
  induction n generalizing s with
  | zero => exact h
  | succ n ih => exact ih (.complete (.setQueue h))

theorem abortEntries {part : Nat} (h : s.HasPages g) : (s.abortEntries part).HasPages g := by
  unfold State.abortEntries
  dsimp only
  exact .foldl (fun _ _ h1 => .setQueue (.iteThen (.foldl (fun _ _ => .complete) h1) .abortNext)) h

theorem abortRuns {part : Nat} (h : s.HasPages g) : (s.abortRuns part).HasPages g := .foldl (fun _ _ => .complete) h

end State.HasPages

end Pages

end Sys2Proof.Machine
end

section
/-! SUPPORT. The commands that make, destroy, stop and restore a partition (O46). -/

namespace Sys2Proof.Machine

/-! ### A completion stands in the entry and in its slot (R50, R53) -/

theorem leBytes_length (n v : Nat) : (leBytes n v).length = n := by
  induction n generalizing v with
  | zero => rfl
  | succ n ih => simp [leBytes, ih]

theorem writeBytes_append (m : List Host.Cell) (k : Nat) (as bs : List Byte) :
    writeBytes m k (as ++ bs) = writeBytes (writeBytes m k as) (k + as.length) bs := by
  induction as generalizing m k with
  | nil => rfl
  | cons a as ih =>
    rw [List.cons_append, writeBytes, ih, writeBytes, List.length_cons, Nat.add_assoc k, Nat.add_comm 1]

theorem readBytes_writeBytes_after (m : List Host.Cell) {k j n : Nat} (bs : List Byte) (h : j + n ≤ k) :
    readBytes (writeBytes m k bs) j n = readBytes m j n := by
  induction n generalizing j with
  | zero => rfl
  | succ n ih => rw [readBytes, readBytes, ih (by omega), readByte_writeBytes_other _ _ _ _ (.inl (by omega))]

theorem complete_some {s : State} {e : EntryRef} {x : Entry} (st : Status) (w : Word) (hx : s.entry? e = some x) :
    s.complete e st w = { s with
      mem := writeBytes s.mem (hostKey (x.slot + 6)) (leBytes 2 st.code ++ leBytes 8 w.toNat)
      queues := nmod s.queues (queueKey e.fn e.q) fun q =>
        { q with entries := nmod q.entries e.idx fun x => { x with status := st, result := w } } } := by
  rw [State.complete, hx]

/-- A queue that has read an entry is one of the machine's. -/
theorem queue_of_entry? {s : State} {e : EntryRef} {x : Entry} (hx : s.entry? e = some x) :
    ∃ q, nget? s.queues (queueKey e.fn e.q) = some q ∧ nget? q.entries e.idx = some x := by
  unfold State.entry? State.queue nget at hx
  cases hq : nget? s.queues (queueKey e.fn e.q) with
  | none => rw [hq] at hx; cases hx
  | some q => rw [hq] at hx; exact ⟨q, rfl, hx⟩

theorem entry?_complete {s : State} {e : EntryRef} {x : Entry} (st : Status) (w : Word) (hx : s.entry? e = some x) :
    (s.complete e st w).entry? e = some { x with status := st, result := w } := by
  obtain ⟨q, hq, he⟩ := queue_of_entry? hx
  simp only [complete_some st w hx, State.entry?, State.queue, nget, nget?_nmod, if_true, hq, Option.map_some, Option.getD_some, he]

/-- STATUS and RESULT stand in the slot. -/
theorem readBytes_complete {s : State} {e : EntryRef} {x : Entry} (st : Status) (w : Word) (hx : s.entry? e = some x) :
    readBytes (s.complete e st w).mem (hostKey (x.slot + 6)) 2 = leBytes 2 st.code ∧
      readBytes (s.complete e st w).mem (hostKey (x.slot + 8)) 8 = leBytes 8 w.toNat := by
  have hst := readBytes_writeBytes s.mem (hostKey (x.slot + 6)) (leBytes 2 st.code)
  have hw := readBytes_writeBytes (writeBytes s.mem (hostKey (x.slot + 6)) (leBytes 2 st.code)) (hostKey (x.slot + 8))
    (leBytes 8 w.toNat)
  have hkey : hostKey (x.slot + 6) + 2 = hostKey (x.slot + 8) := rfl
  rw [leBytes_length] at hst hw
  rw [complete_some st w hx]
  dsimp only
  rw [writeBytes_append, leBytes_length, hkey]
  exact ⟨(readBytes_writeBytes_after _ _ (Nat.le_of_eq hkey)).trans hst, hw⟩

/-- Memory below that of the host is as before. -/
theorem readByte_complete (s : State) (e : EntryRef) (st : Status) (w : Word) {a : Nat} (ha : a < 2 ^ 64) :
    readByte (s.complete e st w).mem a = readByte s.mem a := by
  unfold State.complete
  split
  · rfl
  · next x _ => exact readByte_writeBytes_other _ _ _ _ (.inl (by unfold hostKey; omega))

@[simp] theorem complete_procs (s : State) (e : EntryRef) (st : Status) (w : Word) : (s.complete e st w).procs = s.procs := by
  obtain ⟨_, _, h⟩ := complete_eq s e st w; rw [h]
@[simp] theorem complete_txns (s : State) (e : EntryRef) (st : Status) (w : Word) : (s.complete e st w).txns = s.txns := by
  obtain ⟨_, _, h⟩ := complete_eq s e st w; rw [h]

/-! ### PARTCREATE and PARTSPLIT (R61, R62, R64, R65) -/

section Commands

variable {s : State} {e : EntryRef} {x : Entry}

theorem exec_partcreate {mask : BitVec 64} {addr queues ring : Nat} (h : CmdReady s e x) (hf : e.fn = 0)
    (hc : x.cmd = .partcreate mask addr queues ring) (hm : mask ≠ 0) (hg : mask &&& ~~~s.flash.config.clusters = 0)
    (hfree : ∀ q ∈ s.parts, q.2.level = 1 → q.2.clusters &&& mask = 0) :
    exec (.partcreate e) s =
      .next ((s.beginEntry e).makePart e 1 none false mask ((s.readBudget addr).norm s.time) queues ring) := by
  have harm : exec (.partcreate e) s = execPartcreate e s := rfl
  have htaken : ((s.beginEntry e).parts.any fun q => q.2.level == 1 && (q.2.clusters &&& mask) != 0) = false :=
    List.any_eq_false.mpr fun q hq => by simpa using hfree q hq
  rw [harm, execPartcreate, runCmd_ready h (by rw [hc]) (by simp [hc]) (accepts_f hf) (by rintro _ _ ⟨⟩)]
  simp only [hc, htaken]
  refine congrArg _ (if_neg ?_)
  rintro (hz | hz | hz)
  · exact hm hz
  · exact Bool.false_ne_true hz
  · exact hz hg

theorem exec_partsplit {p : Nat} {mask : BitVec 64} {ts : Bool} {addr queues ring : Nat} (h : CmdReady s e x) (hf : e.fn = 0)
    (hc : x.cmd = .partsplit p mask ts addr queues ring) (hp : s.partLive p = true) (hl : lockedPart s p = false)
    (h1 : (s.part p).level = 1) (hm : mask ≠ 0) (hg : mask &&& ~~~(s.part p).clusters = 0) (hpl : placedOn s p mask = false)
    (hfree : ∀ c ∈ s.parts, c.2.parent = some p → c.2.clusters &&& mask ≠ 0 → ts = true ∧ c.2.timeShared = true) :
    exec (.partsplit e) s =
      .next ((s.beginEntry e).makePart e 2 (some p) ts mask ((s.readBudget addr).norm s.time) queues ring) := by
  have harm : exec (.partsplit e) s = execPartsplit e s := rfl
  have hclash : ((s.beginEntry e).parts.any fun c =>
      c.2.parent == some p && (c.2.clusters &&& mask) != 0 && !(ts && c.2.timeShared)) = false :=
    List.any_eq_false.mpr fun c hmem => by
      simp only [Bool.and_eq_true, beq_iff_eq, bne_iff_ne, Bool.not_eq_true']
      rintro ⟨⟨hpar, hmeet⟩, hshare⟩
      obtain ⟨hts, hcs⟩ := hfree c hmem hpar hmeet
      rw [hts, hcs] at hshare
      cases hshare
  have hplaced : placedOn (s.beginEntry e) p mask = false := hpl
  rw [harm, execPartsplit, runCmd_ready h (by rw [hc]) (by simp [hc]) (accepts_fm (.inl hf))
    (by rw [hc]; rintro - _ ⟨⟩; exact hl)]
  simp only [hc, hclash, beginEntry_partLive, hp, beginEntry_part, hplaced, Bool.not_true, Bool.false_eq_true, if_false]
  refine congrArg _ (if_neg ?_)
  rintro (hz | ⟨hz, -⟩ | hz | hz | hz)
  · exact hz h1
  · exact hz hf
  · exact hm hz
  · exact hz hg
  · exact hz

/-! ### What a new partition is (R61, R64, R74) -/

theorem pickPage_some {part tier st : Nat} {t : State} {f : Nat} (h : s.pickPage part tier st = (t, some f)) :
    ∃ l, t.parts = nset s.parts part { s.part part with used := l } := by
  unfold State.pickPage at h
  dsimp only at h
  split at h
  · cases h
  · cases h
    exact ⟨_, rfl⟩

theorem anyPage_some {part tier : Nat} {t : State} {f : Nat} (h : s.anyPage part tier = some (t, f)) :
    ∃ l, t.parts = nset s.parts part { s.part part with used := l } := by
  obtain ⟨st, -, hst⟩ := List.exists_of_findSome?_eq_some h
  split at hst
  · split at hst
    · next hpick =>
      cases hst
      obtain ⟨l, hl⟩ := pickPage_some hpick
      exact ⟨l, hl⟩
    · cases hst
  · cases hst

theorem parts_failCmd (s : State) (e : EntryRef) (st : Status) : (s.failCmd e st).parts = s.parts := by
  unfold State.failCmd
  split
  · exact complete_parts ..
  · exact complete_parts ..

theorem parts_foldl {α : Type} {f : State → α → State} (hf : ∀ s a, (f s a).parts = s.parts) (l : List α) (s : State) :
    (l.foldl f s).parts = s.parts := by
  induction l generalizing s with
  | nil => rfl
  | cons a l ih => rw [List.foldl_cons, ih, hf]

/-- A partition that is new after a creation is the one of its arguments. -/
theorem makePart_new {level : Nat} {parent : Option Nat} {ts : Bool} {mask : BitVec 64} {b : Budget} {queues ring p : Nat} {q : Part}
    (hpar : parent ≠ some p) (hnone : nget? s.parts p = none)
    (hq : nget? (s.makePart e level parent ts mask b queues ring).parts p = some q) :
    q.level = level ∧ q.parent = parent ∧ q.timeShared = ts ∧ q.clusters = mask ∧ q.budget = b ∧ q.queues = queues ∧
      q.ringAddr = ring ∧ q.vtbase = b.vtbase ∧ q.vtscale = b.vtscale ∧ q.vtfloor = b.vtfloor := by
  have hkept {u : State} (hu : u.parts = s.parts) (hq : nget? u.parts p = some q) : False := by
    rw [hu, hnone] at hq
    cases hq
  unfold State.makePart at hq
  extract_lets id give at hq
  split at hq
  · exact (hkept (parts_failCmd ..) hq).elim
  · split at hq
    · exact (hkept (complete_parts ..) hq).elim
    · extract_lets rs p0 s1 q0 s2 at hq
      have h1 : nget? s1.parts p = none := by
        unfold s1
        split
        · exact hnone
        · next p' => exact (nget?_nset_other _ _ fun he => hpar (congrArg some he.symm)).trans hnone
      split at hq
      · exact (hkept (complete_parts ..) hq).elim
      · next t root ht =>
        obtain ⟨l, hl⟩ := anyPage_some ht
        have hpart : t.part id = { q0 with used := l } := by rw [State.part, hl, nget_nset_same, State.part_setPart_same]
        rw [complete_parts, parts_foldl] at hq
        swap
        · exact fun _ _ => rfl
        change nget? (nset t.parts id { t.part id with ptroot := BitVec.ofNat 64 (root * 2 ^ 16) }) p = some q at hq
        rw [nget?_nset] at hq
        split at hq
        · rw [hpart] at hq
          cases hq
          exact ⟨rfl, rfl, rfl, rfl, rfl, rfl, rfl, rfl, rfl, rfl⟩
        · next hid =>
          have hnew : nget? t.parts p = none := by
            rw [hl, nget?_nset_other _ _ hid]
            exact (nget?_nset_other _ _ hid).trans h1
          rw [hnew] at hq
          cases hq
  · exact (hkept (complete_parts ..) hq).elim

/-! ### PARTDESTROY (R48, R63) -/

/-- A reserved field that is not zero, or the recovery of the module, wins over what the command would do (R53, R57). -/
theorem exec_partdestroy_refused (hn : s.nextEntry e = some x) {p : Nat} (hc : x.cmd = .partdestroy p) :
    (x.reservedZero = false → exec (.partdestroy e) s = .next ((s.beginEntry e).invalid e)) ∧
    (x.reservedZero = true → s.recovery = true → exec (.partdestroy e) s = .next ((s.beginEntry e).complete e .recovery 0)) := by
  have harm : exec (.partdestroy e) s = execPartdestroy e s := rfl
  rw [harm, execPartdestroy]
  exact ⟨fun hz => runCmd_reserved hn hz (by rw [hc]), fun hz hr => runCmd_recovery hn hz hr (by rw [hc]) (by simp [hc])⟩

theorem exec_partdestroy {p : Nat} (h : CmdReady s e x) (hf : e.fn = 0) (hc : x.cmd = .partdestroy p) (hp : s.partLive p = true) :
    exec (.partdestroy e) s = .next (((s.beginEntry e).destroyPart p).complete e .ok 0) := by
  have harm : exec (.partdestroy e) s = execPartdestroy e s := rfl
  rw [harm, execPartdestroy, runCmd_ready h (by rw [hc]) (by simp [hc]) (accepts_fm (.inl hf)) (by rintro _ _ ⟨⟩)]
  simp only [hc, beginEntry_partLive, hp, hf, Bool.not_true, Bool.false_eq_true, ne_eq, not_true, false_and, if_false]

theorem destroyPart_of_childless {p : Nat} (hkids : ∀ c ∈ s.parts, c.2.parent ≠ some p) : s.destroyPart p = s.destroyOne p := by
  have hnone : (s.parts.filter fun c => c.2.parent == some p) = [] := List.filter_eq_nil_iff.mpr fun c hc => by simpa using hkids c hc
  simp only [State.destroyPart, hnone, List.map_nil, List.foldl_nil]

/-- Bytes in a run of pages that is cleared read as zero. -/
theorem readByte_clearRuns {l : List (Nat × Nat)} {m : List Host.Cell} {a : Nat}
    (h : readByte m a = 0 ∨ ∃ r ∈ l, r.1 * 2 ^ 16 ≤ a ∧ a < (r.1 + r.2) * 2 ^ 16) :
    readByte (l.foldl (fun m r => clearBytes m (r.1 * 2 ^ 16) (r.2 * 2 ^ 16)) m) a = 0 := by
  induction l generalizing m with
  | nil => simpa using h
  | cons b l ih =>
    refine ih ?_
    rw [readByte_clearBytes]
    split
    · exact .inl rfl
    · next hb =>
      obtain hz | ⟨r, hr, hlo, hhi⟩ := h
      · exact .inl hz
      · obtain rfl | hr := List.mem_cons.mp hr
        · exact (hb ⟨hlo, Nat.add_mul .. ▸ hhi⟩).elim
        · exact .inr ⟨r, hr, hlo, hhi⟩

theorem scrub_mem {p : Nat} : (s.scrub p).mem = ((s.part p).resv ++ (s.part p).grants.map Prod.snd).foldl
    (fun m r => clearBytes m (r.1 * 2 ^ 16) (r.2 * 2 ^ 16)) s.mem := rfl

theorem readByte_scrub {p a : Nat} {r : Nat × Nat} (hr : r ∈ (s.part p).resv ++ (s.part p).grants.map Prod.snd)
    (hlo : r.1 * 2 ^ 16 ≤ a) (hhi : a < (r.1 + r.2) * 2 ^ 16) : readByte (s.scrub p).mem a = 0 := by
  rw [scrub_mem]
  exact readByte_clearRuns (.inr ⟨r, hr, hlo, hhi⟩)

@[simp] theorem clearPart_parts {p : Nat} : (s.clearPart p).parts = s.parts := rfl
@[simp] theorem clearPart_mem {p : Nat} : (s.clearPart p).mem = s.mem := rfl

theorem clearPart_procs {p : Nat} : ∀ k ∈ (s.clearPart p).procs, partOf k.1 ≠ p := by
  intro k hk
  have hf : (s.clearPart p).procs = s.procs.filter fun e => partOf e.1 != p := rfl
  rw [hf] at hk
  simpa using (List.mem_filter.mp hk).2

theorem clearPart_txns {p : Nat} : ∀ t ∈ (s.clearPart p).txns, t.2.part ≠ p := by
  intro k hk
  have hf : (s.clearPart p).txns = s.txns.filter fun e => e.2.part != p := rfl
  rw [hf] at hk
  simpa using (List.mem_filter.mp hk).2

/-- What the destruction of a partition without children leaves: nothing of it, and zeros in every page that it had. -/
theorem destroyOne_spec {p : Nat} (hpar : (s.part p).parent ≠ some p) (hs : (s.part p).slice = none) :
    nget? (s.destroyOne p).parts p = none ∧ (∀ k ∈ (s.destroyOne p).procs, partOf k.1 ≠ p) ∧
      (∀ t ∈ (s.destroyOne p).txns, t.2.part ≠ p) ∧
      ∀ r ∈ (s.part p).resv ++ (s.part p).grants.map Prod.snd, ∀ a, r.1 * 2 ^ 16 ≤ a → a < (r.1 + r.2) * 2 ^ 16 →
        readByte (s.destroyOne p).mem a = 0 := by
  unfold State.destroyOne
  extract_lets q fn f0 s1 s2 past s3 s4 s5 s6 next s7 s8 f1 s9
  have hnext : next = none := if_neg (by simp [q, hs])
  have hpages : ((s3.abortEntries p).part p).grants = (s.part p).grants ∧ ((s3.abortEntries p).part p).resv = (s.part p).resv := by
    have h0 : s.HasPages fun j => ((s.part j).grants, (s.part j).resv) := fun _ => rfl
    have h1 : s1.HasPages _ := .stopMotions (h0.upd rfl)
    have h2 : s2.HasPages _ := .foldl (fun _ _ => .ringPart) h1
    exact Prod.mk.injEq .. ▸ (State.HasPages.abortEntries (.abortRuns h2)) p
  have hprocs : ∀ k ∈ s5.procs, partOf k.1 ≠ p := clearPart_procs
  have htxns : ∀ t ∈ s5.txns, t.2.part ≠ p := clearPart_txns
  have hmem : ∀ r ∈ (s.part p).resv ++ (s.part p).grants.map Prod.snd, ∀ a, r.1 * 2 ^ 16 ≤ a → a < (r.1 + r.2) * 2 ^ 16 →
      readByte s5.mem a = 0 := by
    rw [← hpages.1, ← hpages.2]
    intro r hr a hlo hhi
    have h5 : s5.mem = ((s3.abortEntries p).scrub p).mem := clearPart_mem
    rw [h5]
    exact readByte_scrub hr hlo hhi
  clear_value s5
  rw [hnext]
  have h7 : nget? s7.parts p = none := (nget?_ndel ..).trans (if_pos rfl)
  have h8 : nget? s8.parts p = none ∧ s8.procs = s5.procs ∧ s8.txns = s5.txns ∧ s8.mem = s5.mem := by
    unfold s8
    split
    · exact ⟨h7, rfl, rfl, rfl⟩
    · next p' hp' =>
      have hne : p ≠ p' := fun he => hpar (hp'.trans (congrArg some he.symm))
      exact ⟨(nget?_nset_other _ _ hne).trans h7, rfl, rfl, rfl⟩
  obtain ⟨hparts8, hprocs8, htxns8, hmem8⟩ := h8
  rw [← hprocs8] at hprocs
  rw [← htxns8] at htxns
  rw [← hmem8] at hmem
  exact ⟨hparts8, hprocs, htxns, hmem⟩

end Commands

end Sys2Proof.Machine
end

section
/-! SUPPORT. The commands that stop and restore a partition, and O46. -/

namespace Sys2Proof.Machine

section Stopping

variable {s : State} {e : EntryRef} {x : Entry} {p : Nat}

/-- A command that stops or restores a partition runs its body on PF0, where the partition waits for nothing and its interface is open. -/
theorem stopCmd_ready {mine : Cmd → Bool} {target : Entry → Nat} {locks : Bool} {body : State → Nat → Cmd → State}
    (h : CmdReady s e x) (hf : e.fn = 0) (hm : mine x.cmd = true) (hb : x.cmd ≠ .invalid ∧ x.cmd ≠ .attest) (ht : target x = p)
    (hp : s.partLive p = true)
    (hw : partWaits s p = false) (hl : locks = true → lockedPart s p = false) :
    stopCmd s e mine target locks body = .next (body (s.beginEntry e) p x.cmd) := by
  have hpart : (partOfFn e.fn).getD (target x) = p := by simp [partOfFn, hf, ht]
  have hlock : e.fn = 0 → ∀ j, (if locks then some ((partOfFn e.fn).getD (target x)) else none) = some j → lockedPart s j = false := by
    intro _ j hj
    split at hj
    · next hk => exact Option.some.inj hj ▸ hpart ▸ hl hk
    · cases hj
  unfold stopCmd
  rw [h.next]
  simp only [hpart, hw, Bool.and_false, Bool.false_eq_true, if_false]
  rw [runCmd_ready h hm hb (accepts_fm (.inl hf)) hlock]
  simp only [hpart, beginEntry_partLive, hp, Bool.not_true, Bool.false_eq_true, if_false]

theorem exec_preempt (h : CmdReady s e x) (hf : e.fn = 0) (hp : s.partLive p = true) (hw : partWaits s p = false) {o : Option Nat}
    (hc : x.cmd = .preempt p o) (ho : ∀ i, o = some i → liveInst s p i = true ∧ (s.inst i).stopped = false) :
    exec (.preempt e) s = .next ((s.beginEntry e).beginQuies p o (.preempt e)) := by
  have harm : exec (.preempt e) s = execPreempt e s := rfl
  rw [harm, execPreempt, stopCmd_ready h hf (by rw [hc]) (by simp [hc]) (by rw [hc]) hp hw fun hk => absurd hk Bool.false_ne_true, hc]
  cases o with
  | none => rfl
  | some i =>
    obtain ⟨hlive, hrun⟩ := ho i rfl
    have hrun' : ((s.beginEntry e).inst i).stopped = false := hrun
    simp only [beginEntry_liveInst, hlive, hrun', Bool.not_true, Bool.false_eq_true, if_false]

theorem exec_save (h : CmdReady s e x) (hf : e.fn = 0) (hp : s.partLive p = true) (hw : partWaits s p = false) {dst len : Nat}
    (hc : x.cmd = .save p dst len) (hd : dst / 2 ^ 60 = 0 ∨ dst / 2 ^ 60 = 6) (hl : lockedPart s p = false) :
    exec (.save e) s = .next ((s.beginEntry e).beginQuies p none (.save e)) := by
  have harm : exec (.save e) s = execSave e s := rfl
  rw [harm, execSave, stopCmd_ready h hf (by rw [hc]) (by simp [hc]) (by rw [hc]) hp hw fun _ => hl, hc]
  exact congrArg _ (if_pos hd)

theorem stopMotions_of_none (hv : ∀ v ∈ s.motions, v.2.part ≠ p) : s.stopMotions p = s := by
  have hnone : (s.motions.filter fun v => v.2.part == p && v.2.st != .forwarding) = [] :=
    List.filter_eq_nil_iff.mpr fun v hm => by simp [hv v hm]
  rw [State.stopMotions, hnone, List.foldl_nil]

theorem exec_migrate (h : CmdReady s e x) (hf : e.fn = 0) (hp : s.partLive p = true) (hw : partWaits s p = false) {m : Nat} {ok : Bool}
    (hc : x.cmd = .migrate p m) (hl : lockedPart s p = false) (hv : ∀ v ∈ s.motions, v.2.part ≠ p) :
    exec (.migrate e ok) s = .next (((s.beginEntry e).modPart p fun q => { q with migrated := true }).beginQuies p none
      (.migrate e (ok && (linkTo s p m).isSome))) := by
  have harm : exec (.migrate e ok) s = execMigrate e ok s := rfl
  have hstill : (s.beginEntry e).stopMotions p = s.beginEntry e := stopMotions_of_none hv
  rw [harm, execMigrate, stopCmd_ready h hf (by rw [hc]) (by simp [hc]) (by rw [hc]) hp hw fun _ => hl, hc]
  simp only [hstill]
  rfl

/-! ### RESTORE of what a PREEMPT stopped (R85) -/

theorem insts_foldl {α : Type} {f : State → α → State} (hf : ∀ s a, (f s a).insts = s.insts) (l : List α) (s : State) :
    (l.foldl f s).insts = s.insts := by
  induction l generalizing s with
  | nil => rfl
  | cons a l ih => rw [List.foldl_cons, ih, hf]

theorem formGangs_insts (s : State) (l : List Nat) : (s.formGangs l).insts = s.insts :=
  insts_foldl (fun _ _ => by dsimp only; split <;> rfl) _ _

theorem countTokens_parts (s : State) (p : Nat) : (s.countTokens p).parts = s.parts := by
  unfold State.countTokens
  rw [parts_foldl]
  exact fun _ _ => rfl

theorem countTokens_insts (s : State) (p : Nat) : (s.countTokens p).insts = s.insts := by
  unfold State.countTokens
  rw [insts_foldl]
  exact fun _ _ => rfl

theorem dropArea_images (h : (s.part p).images = []) : ((s.dropArea p).part p).images = [] := by
  rw [State.dropArea, State.modPart_eq, State.part_setPart_same, h, List.map_nil]

theorem dropArea_insts (s : State) (p : Nat) : (s.dropArea p).insts = s.insts := rfl

theorem heldSets_of_bare {l : List Nat} (hb : ∀ g ∈ (s.part p).images, g.cores = []) : heldSets s p l = [] := by
  have hcores : (s.part p).images.flatMap SaveImg.cores = [] := List.flatMap_eq_nil_iff.mpr hb
  rw [heldSets, hcores, List.filter_nil]

/-- The preempted instances go on where they stood: no image is left, and none of the partition's instances is stopped. -/
theorem restoreHeld_former (hi : (s.part p).images ≠ []) (hb : ∀ g ∈ (s.part p).images, g.cores = [])
    (hm : (placeSets (restOf s ((preempted s p).map Prod.fst) ((preempted s p).map fun k => k.2.inst).eraseDups)
      (fun _ c => [c].filter (ownClusters s p).contains)
      (byCluster (setsOf s ((preempted s p).map Prod.fst) ((preempted s p).map fun k => k.2.inst).eraseDups)) 0 []).isSome = true) :
    ∃ u : State, s.restoreHeld e p 0 = (u.resume p ((preempted s p).map Prod.fst)).complete e .ok (BitVec.ofNat 64 p) ∧
      (u.part p).images = [] ∧ ∀ v ∈ u.insts, v.2.part = p → v.2.stopped = false := by
  obtain ⟨m, hm⟩ := Option.isSome_iff_exists.mp hm
  have hmask : maskOk s p 0 = true := by simp [maskOk, clustersOf]
  unfold State.restoreHeld
  simp only [heldSets_of_bare hb, hi, hmask, if_false, if_true, Bool.not_true, Bool.false_eq_true, List.map_nil,
    List.append_nil, hm, List.foldl_nil]
  refine ⟨_, rfl, ?_, ?_⟩
  · rw [State.part, countTokens_parts]
    refine dropArea_images ?_
    rw [State.modPart_eq, State.part_setPart_same]
  · intro v hv hp
    rw [countTokens_insts, dropArea_insts, State.modPart_eq, State.setPart_insts, formGangs_insts] at hv
    obtain ⟨w, -, rfl⟩ := List.mem_map.mp hv
    split
    · rfl
    · next hw => exact absurd (by rwa [if_neg hw] at hp) hw

/-- RESTORE with image address 0 on PF0 acts on the partition that the entry names, and its set goes on where it stood. -/
theorem exec_restore_held (h : CmdReady s e x) (hf : e.fn = 0) (hp : s.partLive p = true) (hw : partWaits s p = false)
    (hc : x.cmd = .restore 0 0) (hpart : x.part = p) (hl : lockedPart s p = false) (hts : (s.part p).timeShared = false) :
    exec (.restore e) s = .next (let t := (s.beginEntry e).restoreHeld e p 0; if t.runs p then t.joinRotation p else t) := by
  have harm : exec (.restore e) s = execRestore e s := rfl
  rw [harm, execRestore, stopCmd_ready h hf (by rw [hc]) (by simp [hc]) (by rw [hc]; exact hpart) hp hw fun _ => hl, hc]
  simp only [State.withCores, beginEntry_part, hts, Bool.false_and, Bool.not_false, if_true]

end Stopping

/-! ### The obligation -/

section Refused

variable {s : State} {e : EntryRef} {x : Entry}

theorem entry?_invalid_beginEntry (hn : s.nextEntry e = some x) :
    (((s.beginEntry e).invalid e).entry? e).map Entry.status = some .invalid := by
  have hx : (s.beginEntry e).draw.1.entry? e = some x := entry?_beginEntry hn
  rw [State.invalid, entry?_complete _ _ hx, Option.map_some]

theorem parts_invalid_beginEntry : ((s.beginEntry e).invalid e).parts = s.parts := complete_parts ..

end Refused

/-- PARTDESTROY of a partition without children removes it, what it ran, and the contents of its pages. -/
theorem exec_partdestroy_leaves {s : State} {e : EntryRef} {x : Entry} {p : Nat} (h : CmdReady s e x) (hf : e.fn = 0)
    (hc : x.cmd = .partdestroy p) (hp : s.partLive p = true) (hkids : ∀ c ∈ s.parts, c.2.parent ≠ some p)
    (hs : (s.part p).slice = none) :
    ∃ u : State, exec (.partdestroy e) s = .next u ∧ nget? u.parts p = none ∧ (∀ k ∈ u.procs, partOf k.1 ≠ p) ∧
      (∀ t ∈ u.txns, t.2.part ≠ p) ∧
      ∀ g ∈ (s.part p).resv ++ (s.part p).grants.map Prod.snd, ∀ a, a < 2 ^ 64 → g.1 * 2 ^ 16 ≤ a → a < (g.1 + g.2) * 2 ^ 16 →
        readByte u.mem a = 0 := by
  obtain ⟨q, hq⟩ := Option.isSome_iff_exists.mp hp
  have hpart : s.part p = q := by rw [State.part, nget, hq, Option.getD_some]
  have hpar : (s.part p).parent ≠ some p := hpart ▸ hkids (p, q) (mem_of_nget? hq)
  obtain ⟨hgone, hprocs, htxns, hzero⟩ := destroyOne_spec (s := s.beginEntry e) hpar hs
  refine ⟨_, exec_partdestroy h hf hc hp, ?_⟩
  rw [destroyPart_of_childless (s := s.beginEntry e) hkids, complete_parts, complete_procs, complete_txns]
  exact ⟨hgone, hprocs, htxns, fun g hg a ha hlo hhi => (readByte_complete _ _ _ _ ha).trans (hzero g hg a hlo hhi)⟩

/-- Settles O46: a command that may begin runs its body; the bodies are taken one by one. -/
theorem partitionCommands : Obligations.PartitionCommands := by
  refine ⟨fun s e st w x hx => ?_, fun s e x hn hc => ?_, fun s e x h hf => ⟨?_, ?_, ?_⟩, ?_,
    fun s e x p h hf hp hw => ⟨?_, ?_, ?_, ?_, ?_⟩⟩
  · exact ⟨entry?_complete st w hx, complete_parts .., readBytes_complete st w hx⟩
  · obtain ⟨hreserved, hrecovery⟩ := exec_partdestroy_refused hn hc
    exact ⟨fun hz => ⟨_, hreserved hz, entry?_invalid_beginEntry hn, parts_invalid_beginEntry⟩, hrecovery⟩
  · exact fun mask addr queues ring hc => exec_partcreate h hf hc
  · exact fun p mask ts addr queues ring hc => exec_partsplit h hf hc
  · exact fun p hc => exec_partdestroy_leaves h hf hc
  · exact fun s e level parent ts mask b queues ring p q => makePart_new
  · exact fun hc => exec_preempt h hf hp hw hc nofun
  · exact fun i hc hlive hrun => exec_preempt h hf hp hw hc fun j hj => Option.some.inj hj ▸ ⟨hlive, hrun⟩
  · exact fun dst len hc hd hl => exec_save h hf hp hw hc hd hl
  · exact fun m ok hc hl hv => ⟨_, exec_migrate h hf hp hw hc hl hv, rfl⟩
  · intro hc hpart hl hts hi hb l insts hm
    obtain ⟨u, hu, himages, hinsts⟩ := restoreHeld_former (s := s.beginEntry e) (e := e) hi hb hm
    exact ⟨u, (exec_restore_held h hf hp hw hc hpart hl hts).trans (by rw [hu]; rfl), himages, hinsts⟩

end Sys2Proof.Machine
end

section
/-! SUPPORT. NETLOAD (R55, R114, R119, R124). -/

namespace Sys2Proof.Machine

/-! ### What NETLOAD makes of a record and of a reading of it -/

/-- The object of an image that is placed, before it has its parameter block. -/
def loadedObj (p : Nat) (img : NetImage) (tys : List Nat) (t : State) (code ro data area : Nat) (frames : List Nat) : NetObj :=
  { part := p, img := img, codeVa := code, roVa := ro, dataVa := data, chans := freeChans (t.part p).chans img.chans.length 1
    tys := tys, block := [], area := area, frames := frames }

/-- A new object comes into the table with its channels and its block. -/
def State.addObj (t : State) (p : Nat) (o : NetObj) : State :=
  let id := nfree t.objs (t.objs.length + 1) 1
  let t := (o.chans.zip o.img.chans).foldl (fun s c => s.setChan p c.1 (freshChan p c.1 o c.2)) t
  { t with objs := nset t.objs id { o with block := paramBlock o } }

/-- NETLOAD once the image and its types have passed. -/
def State.netplace (s : State) (e : EntryRef) (p : Nat) (img : NetImage) (tys : List Nat) : State :=
  match s.placeImage p img with
  | none => s.complete e .nospace 5
  | some (t, code, ro, data, area, frames) =>
    if (s.part p).budget.tokcore < img.power then s.complete e .nospace 6
    else (t.addObj p (loadedObj p img tys t code ro data area frames)).complete e .ok
      (BitVec.ofNat 64 (nfree t.objs (t.objs.length + 1) 1))

/-- NETLOAD once the header has passed. -/
def State.nettypes (s : State) (e : EntryRef) (p : Nat) (img : NetImage) : State :=
  match matchTypes s p img with
  | none => s.complete e .invalid 4
  | some tys =>
    if img.chans.any (fun c => decide (tys.length ≤ c.ty)) || img.levels.any (fun l => decide (8 < l.depth)) then s.complete e .invalid 4
    else if netBad img then s.invalid e
    else s.netplace e p img tys

/-- NETLOAD for a live partition, on the bytes of the record and the reading of them. -/
def State.netload (s : State) (e : EntryRef) (p : Nat) (bs : List Byte) (img : NetImage) : State :=
  let h := readHeader bs
  if h.magic ≠ 0x394D494E then s.complete e .invalid 1
  else if h.version ≠ 1 then s.complete e .invalid 2
  else if h.reserved ≠ 0 then s.complete e .invalid 3
  else if !shapeOk bs then s.invalid e
  else if !img.reservedZero || !(readPhases bs h.nphase h.phases).2 then s.complete e .invalid 3
  else s.nettypes e p img

section Netload

variable {s : State} {e : EntryRef} {x : Entry} {addr len p : Nat} {bs : List Byte} {img : NetImage} {tys : List Nat}

theorem misread_eq (hn : s.nextEntry e = some x) (hc : x.cmd = .netload addr len) (hr : s.readArg (targetPart e x) addr len = some bs) :
    misread s e img = (headerOk bs && !imgReads bs img) := by
  have hbytes : netloadBytes s e = some bs := by
    rw [netloadBytes, hn]
    dsimp only
    rw [hc]
    exact hr
  rw [misread, hbytes]

theorem exec_netload (h : CmdReady s e x) (hf : e.fn = 0) (hc : x.cmd = .netload addr len) (hp : s.partLive (targetPart e x) = true)
    (hr : s.readArg (targetPart e x) addr len = some bs) (hm : headerOk bs = true → imgReads bs img = true) :
    exec (.netload ⟨e, img⟩) s = .next ((s.beginEntry e).netload e (targetPart e x) bs img) := by
  have harm : exec (.netload ⟨e, img⟩) s = execNetload ⟨e, img⟩ s := rfl
  have hr' : (s.beginEntry e).readArg (targetPart e x) addr len = some bs := hr
  have hread : misread s e img = false := by
    rw [misread_eq h.next hc hr]
    exact Bool.and_eq_false_imp.mpr fun hh => by rw [hm hh, Bool.not_true]
  rw [harm, execNetload, if_neg (ne_true_of_eq_false hread),
    runCmd_ready h (by rw [hc]) (by simp [hc]) (accepts_fm (.inl hf)) (by rintro _ _ ⟨⟩)]
  simp only [hc, beginEntry_partLive, hp, if_true, hr', Bool.not_true, Bool.false_eq_true, if_false]
  rw [State.netload]
  refine congrArg _ (if_congr Iff.rfl rfl (if_congr Iff.rfl rfl (if_congr Iff.rfl rfl (if_congr Iff.rfl rfl
    (if_congr Iff.rfl rfl ?_)))))
  rw [State.nettypes]
  cases matchTypes (s.beginEntry e) (targetPart e x) img with
  | none => rfl
  | some tys =>
    refine if_congr Iff.rfl rfl (if_congr Iff.rfl rfl ?_)
    rw [State.netplace]
    cases (s.beginEntry e).placeImage (targetPart e x) img with
    | none => rfl
    | some t => rfl

/-! ### The checks, in their order -/

theorem headerOk_iff : headerOk bs = true ↔ (readHeader bs).magic = 0x394D494E ∧ (readHeader bs).version = 1 ∧
    (readHeader bs).reserved = 0 ∧ shapeOk bs = true ∧ (readPhases bs (readHeader bs).nphase (readHeader bs).phases).2 = true := by
  simp only [headerOk, Bool.and_eq_true, beq_iff_eq, and_assoc]

theorem netload_magic (hmag : (readHeader bs).magic ≠ 0x394D494E) : s.netload e p bs img = s.complete e .invalid 1 := if_pos hmag

theorem netload_version (hmag : (readHeader bs).magic = 0x394D494E) (hver : (readHeader bs).version ≠ 1) :
    s.netload e p bs img = s.complete e .invalid 2 := by
  simp only [State.netload, hmag, hver, ne_eq, not_true, not_false_eq_true, if_true, if_false]

theorem netload_reserved (hmag : (readHeader bs).magic = 0x394D494E) (hver : (readHeader bs).version = 1)
    (hres : (readHeader bs).reserved ≠ 0) : s.netload e p bs img = s.complete e .invalid 3 := by
  simp only [State.netload, hmag, hver, hres, ne_eq, not_true, not_false_eq_true, if_true, if_false]

theorem netload_header (hh : headerOk bs = true) :
    s.netload e p bs img = if img.reservedZero then s.nettypes e p img else s.complete e .invalid 3 := by
  obtain ⟨hmag, hver, hres, hshape, hphases⟩ := headerOk_iff.mp hh
  cases hz : img.reservedZero <;>
    simp [State.netload, hmag, hver, hres, hshape, hphases, hz]

theorem nettypes_unmatched (ht : matchTypes s p img = none) : s.nettypes e p img = s.complete e .invalid 4 := by
  rw [State.nettypes, ht]

theorem nettypes_matched (ht : matchTypes s p img = some tys) (hchans : ∀ c ∈ img.chans, c.ty < tys.length)
    (hlevels : ∀ l ∈ img.levels, l.depth ≤ 8) (hbad : netBad img = false) : s.nettypes e p img = s.netplace e p img tys := by
  have hc : (img.chans.any fun c => decide (tys.length ≤ c.ty)) = false := by simpa using hchans
  have hl : (img.levels.any fun l => decide (8 < l.depth)) = false := by simpa using hlevels
  rw [State.nettypes, ht]
  simp [hc, hl, hbad]

theorem exec_netload_bad (h : CmdReady s e x) (hf : e.fn = 0) (hc : x.cmd = .netload addr len) (hp : s.partLive (targetPart e x) = true)
    (hr : s.readArg (targetPart e x) addr len = some bs) (hh : ¬headerOk bs = true) :
    exec (.netload ⟨e, img⟩) s = .next ((s.beginEntry e).netload e (targetPart e x) bs img) :=
  exec_netload h hf hc hp hr fun ht => absurd ht hh

theorem exec_netload_typed (h : CmdReady s e x) (hf : e.fn = 0) (hc : x.cmd = .netload addr len) (hp : s.partLive (targetPart e x) = true)
    (hr : s.readArg (targetPart e x) addr len = some bs) (hh : headerOk bs = true) (himg : imgReads bs img = true)
    (hz : img.reservedZero = true) : exec (.netload ⟨e, img⟩) s = .next ((s.beginEntry e).nettypes e (targetPart e x) img) := by
  rw [exec_netload h hf hc hp hr fun _ => himg, netload_header hh, if_pos hz]

/-! ### Pages, tokens and the object -/

theorem setChans_mem {o : NetObj} (l : List (Nat × NetChan)) (t : State) :
    (l.foldl (fun s c => s.setChan p c.1 (freshChan p c.1 o c.2)) t).mem = t.mem := by
  induction l generalizing t with
  | nil => rfl
  | cons c l ih => exact ih _

theorem netplace_loaded (hs : (s.placeImage p img).isSome = true) (hpow : img.power ≤ (s.part p).budget.tokcore) :
    ∃ (t u : State) (code ro data area id : Nat) (frames : List Nat) (o : NetObj),
      s.placeImage p img = some (t, code, ro, data, area, frames) ∧
      s.netplace e p img tys = u.complete e .ok (BitVec.ofNat 64 id) ∧
      nget? u.objs id = some o ∧ o.img = img ∧ o.part = p ∧ o.codeVa = code ∧ o.roVa = ro ∧ o.dataVa = data ∧ o.area = area ∧
      o.frames = frames ∧ o.tys = tys ∧ o.running = none ∧ o.waiting = [] ∧ o.block = paramBlock { o with block := [] } ∧
      u.mem = t.mem := by
  obtain ⟨⟨t, code, ro, data, area, frames⟩, hplace⟩ := Option.isSome_iff_exists.mp hs
  let o := loadedObj p img tys t code ro data area frames
  refine ⟨t, t.addObj p o, code, ro, data, area, nfree t.objs (t.objs.length + 1) 1, frames, { o with block := paramBlock o }, hplace, ?_,
    nget?_nset_same .., rfl, rfl, rfl, rfl, rfl, rfl, rfl, rfl, rfl, rfl, rfl, setChans_mem ..⟩
  rw [State.netplace, hplace]
  exact if_neg (Nat.not_lt.mpr hpow)

theorem netplace_full (hs : s.placeImage p img = none) : s.netplace e p img tys = s.complete e .nospace 5 := by
  rw [State.netplace, hs]

theorem netplace_power (hs : (s.placeImage p img).isSome = true) (hpow : (s.part p).budget.tokcore < img.power) :
    s.netplace e p img tys = s.complete e .nospace 6 := by
  obtain ⟨⟨t, code, ro, data, area, frames⟩, hplace⟩ := Option.isSome_iff_exists.mp hs
  rw [State.netplace, hplace]
  exact if_pos hpow

end Netload

end Sys2Proof.Machine
end

section
/-! SUPPORT. LAUNCH and REPLAY: what starting an instance leaves (R55, R56, R67, R118). -/

namespace Sys2Proof.Machine

/-- The objects, and one instance but for the cores that hold its scratchpad image: what a start does not touch after it has
made that one. -/
def State.Started (objs : NMap NetObj) (i : Nat) (v : Inst) (s : State) : Prop :=
  s.objs = objs ∧ ∃ l, nget? s.insts i = some { v with spadCores := l }

namespace State.Started

variable {s t : State} {objs : NMap NetObj} {i : Nat} {v : Inst}

theorem upd (h : s.Started objs i v) (ho : t.objs = s.objs) (hi : t.insts = s.insts) : t.Started objs i v := by
  rw [Started, ho, hi]
  exact h

theorem foldl {α : Type} {f : State → α → State} (hf : ∀ s a, s.Started objs i v → (f s a).Started objs i v) {l : List α}
    (h : s.Started objs i v) : (l.foldl f s).Started objs i v := by
  induction l generalizing s with
  | nil => exact h
  | cons a l ih => exact ih (hf s a h)

theorem foldlFst {α β : Type} {f : State × β → α → State × β} (hf : ∀ a x, a.1.Started objs i v → (f a x).1.Started objs i v)
    {l : List α} {a : State × β} (h : a.1.Started objs i v) : (l.foldl f a).1.Started objs i v := by
  induction l generalizing a with
  | nil => exact h
  | cons x l ih => exact ih (hf a x h)

theorem ite {c : Prop} [Decidable c] (h : s.Started objs i v) (k : t.Started objs i v) : (if c then s else t).Started objs i v := by
  split
  · exact h
  · exact k

theorem bump {g : Nat} (h : s.Started objs i v) : (s.bump g).Started objs i v := by
  unfold State.bump
  split
  · exact h
  · exact .ite h (h.upd rfl rfl)

theorem bumpRange {k n : Nat} (h : s.Started objs i v) : (s.bumpRange k n).Started objs i v := .foldl (fun _ _ => .bump) h

theorem vaWrite {p n va : Nat} {bs : List Byte} (h : s.Started objs i v) : (s.vaWrite p n va bs).Started objs i v := by
  induction n generalizing s va bs with
  | zero => exact h
  | succ n ih =>
    unfold State.vaWrite
    extract_lets n t
    have ht : t.Started objs i v := by
      unfold t
      split
      · exact .bumpRange (h.upd rfl rfl)
      · exact h
    exact .ite ht (ih ht)

theorem spadCopy {j core : Nat} (h : s.Started objs i v) : (s.spadCopy j core).Started objs i v := by
  unfold State.spadCopy
  dsimp only
  split
  · exact h
  · refine .ite h ?_
    obtain ⟨ho, l, hi⟩ := h
    refine ⟨ho, ?_⟩
    change ∃ l, nget? (nmod s.insts j _) i = _
    rw [nget?_nmod]
    split
    · next hj => exact ⟨_, by rw [hi]; rfl⟩
    · exact ⟨l, hi⟩

theorem presetBufs {core k base : Nat} {l : List BufDecl} (h : s.Started objs i v) : (s.presetBufs core k base l).Started objs i v := by
  unfold State.presetBufs
  refine .foldl (fun _ _ h => ?_) h
  exact h.upd rfl rfl

theorem makeProc {k j index core gang : Nat} {param : Word} (h : s.Started objs i v) :
    (s.makeProc k j index core param gang).Started objs i v := by
  unfold State.makeProc
  dsimp only
  split
  · exact h
  · have hb : ∀ {p : Proc} {base : Nat} {l : List BufDecl},
        (((s.setProc k p).spadCopy j core).presetBufs core k base l).Started objs i v :=
      .presetBufs (.spadCopy (h.upd rfl rfl))
    exact .ite hb (hb.upd rfl rfl)

theorem holdEnds {p k index core : Nat} {o : NetObj} (h : s.Started objs i v) : (s.holdEnds p o k index core).Started objs i v :=
  .foldl (fun _ w h => by
    cases w with
    | tx c => exact h.upd rfl rfl
    | rx c => exact h.upd rfl rfl
    | _ => exact h) h

theorem keepCtx {img : NetImage} {index core k : Nat} (h : s.Started objs i v) : (s.keepCtx img index core k).Started objs i v := by
  unfold State.keepCtx
  refine .ite ?_ h
  split
  · exact h.upd rfl rfl
  · exact h

theorem startProc {p j blockVa gang index core : Nat} {o : NetObj} (h : s.Started objs i v) :
    (s.startProc p j o blockVa gang index core).1.Started objs i v :=
  .keepCtx (.holdEnds (.makeProc (h.upd rfl rfl)))

theorem startGangs {p base : Nat} {img : NetImage} {ks : List (Nat × Nat)} (h : s.Started objs i v) :
    (s.startGangs p img base ks).Started objs i v := by
  unfold State.startGangs
  refine .foldl (fun _ _ h => ?_) h
  exact h.upd rfl rfl

theorem countFlit {port slot : Nat} (h : s.Started objs i v) : (s.countFlit port slot).Started objs i v := by
  unfold State.countFlit
  split
  · exact h.upd rfl rfl
  · exact h.upd rfl rfl

theorem emit {port slot : Nat} {f : Nat × FabMsg} (h : s.Started objs i v) : (s.emit port slot f).Started objs i v :=
  .ite h (.ite (h.upd rfl rfl) (.countFlit (h.upd rfl rfl)))

theorem sendFab {m p : Nat} {msg : FabMsg} (h : s.Started objs i v) : (s.sendFab m p msg).Started objs i v := .foldl (fun _ _ => .emit) h

theorem loadForeign {p slot : Nat} {d : PDest} (h : s.Started objs i v) : (s.loadForeign p slot d).Started objs i v := by
  unfold State.loadForeign
  refine .ite (.sendFab h) ?_
  split
  · exact h.upd rfl rfl
  · exact h

theorem loadPhase {p slot : Nat} (h : s.Started objs i v) : (s.loadPhase p slot).Started objs i v := by
  unfold State.loadPhase
  split
  · exact h
  · exact .foldl (fun _ _ h => .ite h (.loadForeign h)) (h.upd rfl rfl)

theorem startPhases {p j : Nat} {img : NetImage} (h : s.Started objs i v) : (s.startPhases p j img).Started objs i v := by
  unfold State.startPhases
  refine .foldl (fun _ _ => .loadPhase) (.foldl (fun _ _ h => ?_) h)
  exact h.upd rfl rfl

end State.Started

/-! ### An instance starts -/

/-- The instance of an object that starts on `cores`, as its record begins. -/
def startedInst (o : NetObj) (id : Nat) (w : Waiting) (cores : List Nat) (base heap : Nat) : Inst :=
  { part := o.part, obj := id, mgr := w.mgr, entry := some w.entry, block := fixBlock o base (w.block.getD o.block)
    blockVa := o.area + 8192
    heapBase := heap * 2 ^ 16, heapLim := o.img.heapPg * 2 ^ 16, area := o.area, areaPa := o.frames.headD 0 * 2 ^ 16
    frames := o.frames, report := o.area + 4096, spadBase := base, tokens := cores.map fun c => (c, o.img.power)
    slots := o.img.phases.map NetPhase.slot }

section Start

variable {s : State} {id : Nat} {o : NetObj} {w : Waiting} {at_ : List Nat} {base heap : Nat}

theorem startRun_ok (ho : nget? s.objs id = some o) (hplace : choosePlace s o.part o.img w.place = some at_)
    (hcore : ∀ c ∈ ((startable o.img).map fun p => at_.getD p 0).eraseDups,
      (s.core c).grant + o.img.power ≤ (s.part o.part).budget.tokcore)
    (htokens : tokensUsed s o.part + o.img.power * ((startable o.img).map fun p => at_.getD p 0).eraseDups.length ≤
      (s.part o.part).budget.tokens)
    (hspad : spadOffset s o.part o.img ((startable o.img).map fun p => at_.getD p 0).eraseDups = some base)
    (hphase : phaseFails s o.part o.img = none)
    (hheap : (if o.img.heapPg = 0 then some 0 else heapRun s o.part (if o.img.heapT1 then 1 else 0) o.img.heapPg) = some heap) :
    ∃ t : State, s.startRun id w = .ok t ∧ t.Started (nset s.objs id { o with running := some s.nextId }) s.nextId
      (startedInst o id w ((startable o.img).map fun p => at_.getD p 0).eraseDups base heap) := by
  have hfree : ((((startable o.img).map fun p => at_.getD p 0).eraseDups.any fun c =>
        decide ((s.part o.part).budget.tokcore < (s.core c).grant + o.img.power)) ||
      decide ((s.part o.part).budget.tokens < tokensUsed s o.part +
        o.img.power * ((startable o.img).map fun p => at_.getD p 0).eraseDups.length)) = false := by
    rw [Bool.or_eq_false_iff]
    exact ⟨List.any_eq_false.mpr fun c hc => by simpa using hcore c hc, by simpa using htokens⟩
  have hheap' : (if o.img.heapPg = 0 then some 0 else
      heapRun { s with fresh := s.fresh + 1 } o.part (if o.img.heapT1 then 1 else 0) o.img.heapPg) = some heap := hheap
  unfold State.startRun
  simp only [ho, hplace, hfree, hspad, hphase, hheap']
  refine ⟨_, rfl, .startPhases (.startGangs (.foldlFst (fun _ _ h => ?_) (.vaWrite (.foldl (fun _ _ h => ?_)
    (.foldl (fun _ _ h => ?_) (.upd (.foldl (fun _ _ => .bumpRange) ⟨rfl, [], ?_⟩) rfl rfl))))))⟩
  · exact .startProc h
  · exact h.upd rfl rfl
  · exact h.upd rfl rfl
  · exact nget?_nset_same ..

/-! ### An entry for an object is accepted (R56) -/

variable {e : EntryRef} {p : Nat}

theorem joinRotation_of_alone (hts : (s.part p).timeShared = false) : (if s.runs p then s.joinRotation p else s) = s := by
  have hstay : s.joinRotation p = s := by
    rw [State.joinRotation]
    exact if_pos (by rw [hts, Bool.not_false, Bool.true_or])
  rw [hstay, ite_self]

/-- A partition that is not time-shared has its cores in place. -/
theorem withCores_of_alone {f : State → State} (hts : (s.part p).timeShared = false) : s.withCores p f = f s := by
  rw [State.withCores]
  exact if_pos (by rw [hts, Bool.false_and, Bool.not_false])

theorem accept_full (ho : nget? s.objs id = some o) (hp : o.part = p) (hrun : o.running.isSome = true) (hw : 4 ≤ o.waiting.length) :
    s.accept e p id w = s.complete e .busy 0 := by
  simp only [State.accept, ho, hp, hrun, hw, ne_eq, not_true, if_false, Bool.true_or, decide_true, Bool.and_self, if_true]

/-- Where fewer than four wait, the entry waits last, and the object starts what it can. -/
theorem accept_room (ho : nget? s.objs id = some o) (hp : o.part = p) (hw : o.waiting.length < 4) (hts : (s.part p).timeShared = false) :
    s.accept e p id w =
      let t := ({ s with objs := nset s.objs id { o with waiting := o.waiting ++ [w] } } : State).startNext id (o.waiting.length + 1)
      if t.runs p then t.joinRotation p else t := by
  subst hp
  have hroom : ((o.running.isSome || !o.waiting.isEmpty) && decide (4 ≤ o.waiting.length)) = false := by
    rw [decide_eq_false (Nat.not_le.mpr hw), Bool.and_false]
  simp only [State.accept, ho, ne_eq, not_true, if_false, hroom, Bool.false_eq_true,
    withCores_of_alone (s := { s with objs := nset s.objs id { o with waiting := o.waiting ++ [w] } }) hts]

theorem startNext_of_running (ho : nget? s.objs id = some o) (hrun : o.running.isSome = true) (n : Nat) : s.startNext id n = s := by
  obtain ⟨i, hi⟩ := Option.isSome_iff_exists.mp hrun
  cases n with
  | zero => rfl
  | succ n => simp only [State.startNext, ho, hi]

theorem accept_waits (ho : nget? s.objs id = some o) (hp : o.part = p) (hrun : o.running.isSome = true) (hw : o.waiting.length < 4)
    (hts : (s.part p).timeShared = false) :
    s.accept e p id w = { s with objs := nset s.objs id { o with waiting := o.waiting ++ [w] } } := by
  rw [accept_room ho hp hw hts, startNext_of_running (o := { o with waiting := o.waiting ++ [w] }) (nget?_nset_same ..) hrun]
  exact joinRotation_of_alone hts

/-- The first entry of an object that runs nothing is the one that starts. -/
theorem startNext_first {t : State} (ho : nget? s.objs id = some { o with waiting := [w] }) (hrun : o.running = none)
    (ht : ({ s with objs := nset s.objs id { o with waiting := [], block := patchBlock o.block w.patch } } : State).startRun id w = .ok t)
    (n : Nat) : s.startNext id (n + 1) = t := by
  simp only [State.startNext, ho, hrun]
  rw [hrun] at ht
  rw [ht]

theorem accept_starts (ho : nget? s.objs id = some o) (hp : o.part = p) (hrun : o.running = none) (hw : o.waiting = [])
    (hts : (s.part p).timeShared = false) {t : State}
    (ht : ({ s with objs := nset s.objs id { o with waiting := [], block := patchBlock o.block w.patch } } : State).startRun id w = .ok t) :
    s.accept e p id w = if t.runs p then t.joinRotation p else t := by
  have hfirst : ({ s with objs := nset s.objs id { o with waiting := [w] } } : State).startNext id 1 = t := by
    refine startNext_first (nget?_nset_same ..) hrun ?_ 0
    dsimp only
    rw [nset_nset]
    exact ht
  rw [accept_room ho hp (by rw [hw]; decide) hts]
  simp only [hw, List.nil_append, List.length_nil, Nat.zero_add, hfirst]

end Start

/-! ### LAUNCH and REPLAY -/

/-- What an entry for an object does, as the object runs, has room behind its instance, or can start the entry at once. -/
def Runs (s : State) (e : EntryRef) (id : Nat) (o : NetObj) (i : Instr) (w : Waiting) (block : List Word) : Prop :=
  (o.running.isSome = true → 4 ≤ o.waiting.length → exec i s = .next ((s.beginEntry e).complete e .busy 0)) ∧
  (o.running.isSome = true → o.waiting.length < 4 → exec i s =
    .next { s.beginEntry e with objs := nset s.objs id { o with waiting := o.waiting ++ [w] } }) ∧
  (o.running = none → o.waiting = [] →
    let a : State := { s.beginEntry e with objs := nset s.objs id { o with waiting := [], block := block } }
    ∀ (at_ : List Nat) (base heap : Nat), choosePlace a o.part o.img w.place = some at_ →
      let cores := ((startable o.img).map fun p => at_.getD p 0).eraseDups
      (∀ c ∈ cores, (s.core c).grant + o.img.power ≤ (s.part o.part).budget.tokcore) →
      tokensUsed s o.part + o.img.power * cores.length ≤ (s.part o.part).budget.tokens →
      spadOffset a o.part o.img cores = some base → phaseFails a o.part o.img = none →
      (if o.img.heapPg = 0 then some 0 else heapRun a o.part (if o.img.heapT1 then 1 else 0) o.img.heapPg) = some heap →
      ∃ (t : State) (v : Inst), exec i s = .next (if t.runs o.part then t.joinRotation o.part else t) ∧
        nget? t.insts s.nextId = some v ∧ v.part = o.part ∧ v.obj = id ∧ v.entry = some e ∧ v.spadBase = base ∧
        v.heapBase = heap * 2 ^ 16 ∧ v.tokens = cores.map (fun c => (c, o.img.power)) ∧
        (nget? t.objs id).bind NetObj.running = some s.nextId)

section Entries

variable {s : State} {e : EntryRef} {x : Entry} {id : Nat} {o : NetObj} {place : List Nat} {i : Instr} {w : Waiting}

theorem runs_of_accept (h : exec i s = .next ((s.beginEntry e).accept e o.part id w)) (ho : nget? s.objs id = some o)
    (hts : (s.part o.part).timeShared = false) (hw : w.entry = e) : Runs s e id o i w (patchBlock o.block w.patch) := by
  refine ⟨fun hrun hfull => ?_, fun hrun hroom => ?_, ?_⟩
  · rw [h, accept_full (s := s.beginEntry e) ho rfl hrun hfull]
  · rw [h, accept_waits (s := s.beginEntry e) ho rfl hrun hroom hts]
    rfl
  · intro hrun hidle a at_ base heap hplace cores hcore htokens hspad hphase hheap
    obtain ⟨t, ht, hobjs, l, hinst⟩ := startRun_ok (s := a) (nget?_nset_same ..) hplace hcore htokens hspad hphase hheap
    refine ⟨t, _, ?_, hinst, rfl, rfl, congrArg some hw, rfl, rfl, rfl, ?_⟩
    · rw [h, accept_starts (s := s.beginEntry e) ho rfl hrun hidle hts ht]
    · rw [hobjs, nget?_nset_same]
      rfl

/-- The entry that LAUNCH leaves with the object, with the block that its argument gives. -/
def launchEntry (e : EntryRef) (place : List Nat) (b : Option (List Word)) : Waiting :=
  { entry := e, patch := [], block := b, place := place, mgr := e.fn == 0 || e.q == 0 }

theorem exec_launch_own (h : CmdReady s e x) (hc : x.cmd = .launch id 0) :
    exec (.launch e place) s = .next ((s.beginEntry e).accept e (targetPart e x) id (launchEntry e place none)) := by
  have harm : exec (.launch e place) s = execLaunch e place s := rfl
  rw [harm, execLaunch, runCmd_ready h (by rw [hc]) (by simp [hc]) rfl (by rintro _ _ ⟨⟩)]
  simp only [hc, if_true, launchEntry]

theorem exec_launch_block (h : CmdReady s e x) (ho : nget? s.objs id = some o) {addr : Nat} {bs : List Byte} (hc : x.cmd = .launch id addr)
    (ha : addr ≠ 0) (hr : s.readArg (targetPart e x) addr (8 * (6 * o.img.procs.length)) = some bs) :
    exec (.launch e place) s = .next ((s.beginEntry e).accept e (targetPart e x) id
      (launchEntry e place (some ((wordsOf bs (6 * o.img.procs.length)).map (BitVec.ofNat 64))))) := by
  have harm : exec (.launch e place) s = execLaunch e place s := rfl
  have ho' : nget? (s.beginEntry e).objs id = some o := ho
  have hr' : (s.beginEntry e).readArg (targetPart e x) addr (8 * (6 * o.img.procs.length)) = some bs := hr
  rw [harm, execLaunch, runCmd_ready h (by rw [hc]) (by simp [hc]) rfl (by rintro _ _ ⟨⟩)]
  simp only [hc, ho', ha, if_false, hr', launchEntry]

/-- The words of a patch, by their offset in the block. -/
def patchOf (bs : List Byte) (count : Nat) : List (Nat × Word) :=
  (List.range count).map fun j => (recWord bs (2 * j), BitVec.ofNat 64 (recWord bs (2 * j + 1)))

theorem exec_replay (h : CmdReady s e x) (ho : nget? s.objs id = some o) {addr count : Nat} {bs : List Byte}
    (hc : x.cmd = .replay id addr count) (hr : s.readArg (targetPart e x) addr (16 * count) = some bs)
    (hpatch : ∀ p ∈ patchOf bs count, p.1 % 8 = 0 ∧ p.1 < 48 * o.img.procs.length) :
    exec (.replay e place) s = .next ((s.beginEntry e).accept e (targetPart e x) id
      { entry := e, patch := patchOf bs count, place := place, mgr := e.fn == 0 || e.q == 0 }) := by
  have harm : exec (.replay e place) s = execReplay e place s := rfl
  have ho' : nget? (s.beginEntry e).objs id = some o := ho
  have hr' : (s.beginEntry e).readArg (targetPart e x) addr (16 * count) = some bs := hr
  have hin : ((patchOf bs count).any fun p => p.1 % 8 != 0 || decide (48 * o.img.procs.length ≤ p.1)) = false :=
    List.any_eq_false.mpr fun p hp => by simpa using hpatch p hp
  rw [patchOf] at hin
  rw [harm, execReplay, runCmd_ready h (by rw [hc]) (by simp [hc]) rfl (by rintro _ _ ⟨⟩)]
  simp only [hc, ho', hr', Option.isSome_some, Bool.true_and, hin, Bool.false_eq_true, if_false, patchOf]

end Entries

end Sys2Proof.Machine
end

section
/-! SUPPORT. SIGNAL (R55, R311), the end of an instance (R56, R178), and O47. -/

namespace Sys2Proof.Machine

/-! ### SIGNAL -/

section Signal

variable {s : State} {e : EntryRef} {x : Entry}

theorem exec_signalHostQueue (h : CmdReady s e x) {inst : Nat} {hd : W32} {v : Word} {ch : Chan} (hc : x.cmd = .signalHost inst hd v)
    (hlive : liveInst s (targetPart e x) inst = true) (hch : s.chan? (targetPart e x) (hd.toNat % 2 ^ 24) = some ch) (hk : ch.bkind = 3)
    (hopen : ch.rxopen = true) (hty : bits hd.toNat 30 24 = ch.ty) (hf : e.fn = fnOf (targetPart e x)) (hq : ch.ep[0].toNat = e.q) :
    exec (.signalHostQueue e) s = .next (((s.beginEntry e).inject (targetPart e x) (hd.toNat % 2 ^ 24)
      ((leBytes 8 v.toNat ++ List.replicate (tyBytes (chanTy s (targetPart e x) ch)) 0).take (tyBytes (chanTy s (targetPart e x) ch))) []
      (BitVec.ofNat 64 ((s.queue (queueKey e.fn e.q)).cls * 2 ^ 12))).complete e .ok 0) := by
  have harm : exec (.signalHostQueue e) s = execSignalHostQueue e s := rfl
  have hch' : (s.beginEntry e).chan? (targetPart e x) (hd.toNat % 2 ^ 24) = some ch := hch
  have hcls : ((s.beginEntry e).queue (queueKey e.fn e.q)).cls = (s.queue (queueKey e.fn e.q)).cls := by
    rw [State.beginEntry, State.queue_setQueue_same]
  have hfits : (ch.bkind == 3 && ch.rxopen && bits hd.toNat 30 24 == ch.ty && e.fn == fnOf (targetPart e x) &&
      ch.ep[0].toNat == e.q) = true := by
    simp only [hk, hopen, hty, ← hf, hq, beq_self_eq_true, Bool.and_self]
  rw [harm, execSignalHostQueue, runCmd_ready h (by rw [hc]) (by simp [hc]) rfl (by rintro _ _ ⟨⟩)]
  simp only [hc, beginEntry_liveInst, hlive, Bool.not_true, Bool.false_eq_true, if_false, hch', hfits, hcls]
  rfl

/-- An arrival at a destination that the slot's own instance holds here counts it down, but not below zero (R140). -/
theorem arriveAt_own {p slot dest : Nat} {f : Phase} {d : PDest} {past : Clock} {who : Txn} (hf : s.phase? p slot = some f)
    (hd : f.dests[dest]? = some d) (ho : ownDest s p d = true) :
    s.arriveAt p slot dest past who = if d.counter = 0 then none
      else some ((s.setPhase p slot { f.count dest fun n => n - 1 with clock := f.clock.join past }).riseLine p slot) := by
  simp only [State.arriveAt, hf, hd, ho, if_true, State.countDown]

theorem exec_signalPhaseArrival (h : CmdReady s e x) {inst slot dest : Nat} {f : Phase} {d : PDest}
    (hc : x.cmd = .signalPhase inst slot dest) (hf : s.phase? (targetPart e x) slot = some f)
    (hlive : liveInst s (targetPart e x) inst = true) (hh : f.holder = inst) (hd : f.dests[dest]? = some d)
    (ho : ownDest s (targetPart e x) d = true) :
    exec (.signalPhaseArrival e) s = .next (if d.counter = 0 then (s.beginEntry e).invalid e
      else (((s.beginEntry e).setPhase (targetPart e x) slot
        { f.count dest (fun n => n - 1) with clock := f.clock.join Clock.zero }).riseLine (targetPart e x) slot).complete e .ok 0) := by
  have harm : exec (.signalPhaseArrival e) s = execSignalPhaseArrival e s := rfl
  have hf' : (s.beginEntry e).phase? (targetPart e x) slot = some f := hf
  have ho' : ownDest (s.beginEntry e) (targetPart e x) d = true := ho
  have hhere : (d.module == (s.beginEntry e).moduleId) = true := by
    simp only [ownDest, Bool.and_eq_true] at ho'
    obtain ⟨⟨hm, -⟩, -⟩ := ho'
    exact hm
  rw [harm, execSignalPhaseArrival, runCmd_ready h (by rw [hc]) (by simp [hc]) rfl (by rintro _ _ ⟨⟩)]
  simp only [hc, hf', beginEntry_liveInst, hlive, hh, hd, hhere, arriveAt_own hf' hd ho', Bool.not_true, bne_self_eq_false, Bool.or_self,
    Bool.false_eq_true, if_false, if_true]
  by_cases hz : d.counter = 0
  · simp only [hz, if_true]
  · simp only [hz, if_false]

end Signal

/-! ### The end of an instance: what its tokens, slots and heap leave alone -/

/-- The queues, the objects, the instances and the records of partition `p` are those of `a`. -/
def State.SameRun (p : Nat) (a s : State) : Prop :=
  s.queues = a.queues ∧ s.objs = a.objs ∧ s.insts = a.insts ∧ (s.part p).ring = (a.part p).ring

namespace State.SameRun

variable {p : Nat} {a s t : State}

theorem refl (p : Nat) (a : State) : SameRun p a a := ⟨rfl, rfl, rfl, rfl⟩

theorem upd (h : SameRun p a s) (hq : t.queues = s.queues) (ho : t.objs = s.objs) (hi : t.insts = s.insts)
    (hr : (t.part p).ring = (s.part p).ring) : SameRun p a t := by
  rw [SameRun, hq, ho, hi, hr]
  exact h

theorem foldl {α : Type} {f : State → α → State} (hf : ∀ s x, SameRun p a s → SameRun p a (f s x)) {l : List α}
    (h : SameRun p a s) : SameRun p a (l.foldl f s) := by
  induction l generalizing s with
  | nil => exact h
  | cons x l ih => exact ih (hf s x h)

theorem modPart {j : Nat} {f : Part → Part} (h : SameRun p a s) (hr : ∀ q, (f q).ring = q.ring) : SameRun p a (s.modPart j f) := by
  refine h.upd rfl rfl rfl ?_
  rw [State.modPart_eq, State.part_setPart]
  split
  · next hj => rw [hr, hj]
  · rfl

theorem countChain {j n : Nat} (h : SameRun p a s) : SameRun p a (s.countChain j n) := by
  unfold State.countChain
  refine .foldl (fun _ _ h => ?_) h
  exact .modPart h fun _ => rfl

theorem detach {j n : Nat} {gs : List Nat} (h : SameRun p a s) : SameRun p a (s.detach j n gs) :=
  .modPart (h.upd rfl rfl rfl rfl) fun _ => rfl

theorem detachPage {j f : Nat} (h : SameRun p a s) : SameRun p a (s.detachPage j f) :=
  .upd (.foldl (fun _ _ h => .countChain (.detach h)) h) rfl rfl rfl rfl

theorem returnPage {j f : Nat} (h : SameRun p a s) : SameRun p a (s.returnPage j f) := .modPart (.detachPage h) fun _ => rfl

theorem setD {l : List (Nat × Nat)} (h : SameRun p a s) : SameRun p a (s.setD l) :=
  .foldl (fun _ _ h => by
    dsimp only
    split
    · exact h
    · exact h.upd rfl rfl rfl rfl) h

theorem flushEng {u : Nat} {f : TlbEnt → Bool} (h : SameRun p a s) : SameRun p a (s.flushEng u f) :=
  .upd (.setD h) rfl rfl rfl rfl

end State.SameRun

section End

variable {s : State} {inst : Nat} {v : Inst}

theorem exited_of_mem (hexit : ∀ p ∈ s.procs, p.2.inst = inst → p.2.st = .exited) {e : Nat × Proc}
    (he : e ∈ s.procs.filter fun e => e.2.inst == inst && e.2.engine.isNone) : e.2.st = .exited := by
  obtain ⟨hmem, hof⟩ := List.mem_filter.mp he
  obtain ⟨hinst, -⟩ := Bool.and_eq_true_iff.mp hof
  exact hexit e hmem (eq_of_beq hinst)

theorem instDone_of_exited (hv : nget? s.insts inst = some v) (hqueue : v.queue = [])
    (hexit : ∀ p ∈ s.procs, p.2.inst = inst → p.2.st = .exited)
    (htxns : ∀ t ∈ s.txns, t.2.inst ≠ inst) : instDone s inst = true := by
  have hinst : s.inst inst = v := by rw [State.inst, nget, hv, Option.getD_some]
  have hleft : ((s.procs.filter fun e => e.2.inst == inst && e.2.engine.isNone).filter fun e => e.2.st != .exited) = [] := by
    refine List.filter_eq_nil_iff.mpr fun e he => ?_
    rw [exited_of_mem hexit he]
    decide
  simp only [instDone, hinst, hleft, hqueue, List.all_nil, List.isEmpty_nil, Bool.and_self, Bool.or_true]
  rw [Bool.true_and, Bool.not_eq_true', List.any_eq_false]
  exact fun t ht => by simp [htxns t ht]

/-- No process of an instance whose processes have ended is left for its end to end. -/
theorem endProcs_of_exited (hexit : ∀ p ∈ s.procs, p.2.inst = inst → p.2.st = .exited) :
    (s.procs.filter fun e => e.2.inst == inst && e.2.engine.isNone).foldl
      (fun s e => if e.2.st = .exited then s else s.endProc e.1 false) s = s :=
  foldl_eq_self fun _ he => if_pos (exited_of_mem hexit he)

/-- The tokens, the phase slots and the heap of an instance return, and the engines flush what its partition wrote. -/
def State.freeInst (s : State) (inst : Nat) (v : Inst) : State :=
  let s := v.tokens.foldl (fun s t => s.modCore t.1 fun c => { c with grant := c.grant - t.2, free := c.free - min c.free t.2 }) s
  let s := s.modPart v.part fun q => { q with phases := q.phases.filter fun e => e.2.holder != inst }
  let s := (List.range (v.heapLim / 2 ^ 16)).foldl (fun (s : State) j => s.returnPage v.part (v.heapBase / 2 ^ 16 + j)) s
  s.engines.foldl (fun (s : State) g => s.flushEng g.1 fun t => t.part == v.part) s

/-- The instance goes, with its gangs, and its object is idle. -/
def State.dropInst (s : State) (inst : Nat) (v : Inst) : State :=
  { s with
    gangs := s.gangs.filter fun g => !g.2.members.all fun k => (s.proc k).inst == inst
    objs := nmod s.objs v.obj fun o => { o with running := none }
    insts := ndel s.insts inst }

theorem freeInst_sameRun (s : State) (inst : Nat) (v : Inst) : State.SameRun v.part s (s.freeInst inst v) := by
  unfold State.freeInst
  refine .foldl (fun _ _ => .flushEng) (.foldl (fun _ _ => .returnPage) (.modPart (.foldl (fun _ _ h => ?_) (.refl _ _)) fun _ => rfl))
  exact h.upd rfl rfl rfl rfl

/-- The end of an instance, with record `ev`, up to what its object starts next. -/
def State.endedInst (s : State) (inst : Nat) (v : Inst) (e : EntryRef) (ev : Event) : State :=
  (((s.ringPart v.part ev).freeInst inst v).dropInst inst v).complete e .ok (BitVec.ofNat 64 inst)

theorem endedInst_spec {o : NetObj} (ho : nget? s.objs v.obj = some o) {e : EntryRef} {x : Entry} (hx : s.entry? e = some x) {ev : Event} :
    nget? (s.endedInst inst v e ev).objs v.obj = some { o with running := none } ∧ nget? (s.endedInst inst v e ev).insts inst = none ∧
      (s.endedInst inst v e ev).entry? e = some { x with status := .ok, result := BitVec.ofNat 64 inst } ∧
      ((s.endedInst inst v e ev).part v.part).ring = (s.part v.part).ring ++ [ev] := by
  let r := s.ringPart v.part ev
  let d := (r.freeInst inst v).dropInst inst v
  obtain ⟨hqueues, hobjs, -, hring⟩ := freeInst_sameRun r inst v
  have hr : r.queues = s.queues ∧ r.objs = s.objs ∧ (r.part v.part).ring = (s.part v.part).ring ++ [ev] := by
    simp only [r, State.ringPart_eq]
    exact ⟨rfl, rfl, congrArg Part.ring (State.part_setPart_same ..)⟩
  obtain ⟨hrq, hro, hrr⟩ := hr
  have hentry : d.entry? e = some x := by
    have hdq : d.queues = s.queues := hqueues.trans hrq
    rw [State.entry?, State.queue, hdq]
    exact hx
  have hobj : nget? d.objs v.obj = some { o with running := none } := by
    have hdo : d.objs = nmod (r.freeInst inst v).objs v.obj fun o => { o with running := none } := rfl
    rw [hdo, hobjs, hro, nget?_nmod, if_pos rfl, ho, Option.map_some]
  have hgone : nget? d.insts inst = none := (nget?_ndel ..).trans (if_pos rfl)
  have hdone := entry?_complete .ok (BitVec.ofNat 64 inst) hentry
  obtain ⟨m, q, hc⟩ := complete_eq d e .ok (BitVec.ofNat 64 inst)
  have hend : s.endedInst inst v e ev = { d with mem := m, queues := q } := hc
  refine ⟨?_, ?_, hdone, ?_⟩
  · rw [hend]
    exact hobj
  · rw [hend]
    exact hgone
  · rw [hend]
    exact hring.trans hrr

theorem exec_instanceEnd (hv : nget? s.insts inst = some v) (hstop : v.stopped = false) (hkill : v.killed = false) (hqueue : v.queue = [])
    (hhalt : s.halted v.part = false) (hexit : ∀ p ∈ s.procs, p.2.inst = inst → p.2.st = .exited)
    (htxns : ∀ t ∈ s.txns, t.2.inst ≠ inst) {o : NetObj} (ho : nget? s.objs v.obj = some o) (hw : o.waiting = []) {e : EntryRef}
    (he : v.entry = some e) {x : Entry} (hx : s.entry? e = some x) :
    ∃ u : State, exec (.instanceEnd inst) s = .next u ∧ nget? u.insts inst = none ∧
      nget? u.objs v.obj = some { o with running := none } ∧
      u.entry? e = some { x with status := .ok, result := BitVec.ofNat 64 inst } ∧
      (u.part v.part).ring = (s.part v.part).ring ++ [.instanceEnd inst
        ((s.procs.filter fun p => p.2.inst == inst && p.2.engine.isNone).foldl (fun f p => f ||| p.2.flags) v.flagWord) x.tag] := by
  have harm : exec (.instanceEnd inst) s = execInstanceEnd inst s := rfl
  have htag : s.entryTag inst = x.tag := by
    have hinst : s.inst inst = v := by rw [State.inst, nget, hv, Option.getD_some]
    simp only [State.entryTag, hinst, he, Option.bind_some, hx, Option.map_some, Option.getD_some]
  rw [harm, execInstanceEnd, hv]
  simp only [instDone_of_exited hv hqueue hexit htxns, hstop, hhalt, Bool.not_true, Bool.or_self, Bool.false_eq_true, if_false,
    endProcs_of_exited hexit, htag, he, hkill]
  generalize (s.procs.filter fun p => p.2.inst == inst && p.2.engine.isNone).foldl (fun f p => f ||| p.2.flags) v.flagWord = fl
  obtain ⟨hobj, hgone, hdone, hring⟩ := endedInst_spec ho hx (inst := inst) (v := v) (ev := .instanceEnd inst fl x.tag)
  refine ⟨_, ?_, hgone, hobj, hdone, hring⟩
  change Host.Outcome.next (State.startNext (s.endedInst inst v e (.instanceEnd inst fl x.tag)) v.obj
    (match nget? (s.endedInst inst v e (.instanceEnd inst fl x.tag)).objs v.obj with | some o => o.waiting.length | none => 0)) = _
  rw [hobj]
  dsimp only
  rw [hw]
  rfl

end End

/-! ### The obligation -/

/-- Settles O47: the record's checks, an entry for an object, SIGNAL and INSTANCE_END, each by the lemma on its event. -/
theorem networkCommands : Obligations.NetworkCommands := by
  refine ⟨?_, ?_, fun s e x h => ⟨?_, ?_⟩, ?_⟩
  · intro s e x addr len bs img h hf hc hp hr hd p
    refine ⟨fun hmag => ?_, fun hmag hver => ?_, fun hmag hver hres => ?_, fun hh himg => ⟨fun hz => ?_, fun hz ht => ?_, ?_⟩⟩
    · rw [exec_netload_bad h hf hc hp hr fun ht => by obtain ⟨hm, -⟩ := headerOk_iff.mp ht; exact hmag hm, netload_magic hmag]
    · rw [exec_netload_bad h hf hc hp hr fun ht => by obtain ⟨-, hv, -⟩ := headerOk_iff.mp ht; exact hver hv,
        netload_version hmag hver]
    · rw [exec_netload_bad h hf hc hp hr fun ht => by obtain ⟨-, -, hz, -⟩ := headerOk_iff.mp ht; exact hres hz,
        netload_reserved hmag hver hres]
    · rw [exec_netload h hf hc hp hr fun _ => himg, netload_header hh, if_neg (ne_true_of_eq_false hz)]
    · rw [exec_netload_typed h hf hc hp hr hh himg hz, nettypes_unmatched (s := s.beginEntry e) ht]
    · intro tys hz ht hchans hlevels hnet
      rw [exec_netload_typed h hf hc hp hr hh himg hz, nettypes_matched (s := s.beginEntry e) ht hchans hlevels hnet]
      refine ⟨fun hs => ?_, fun hs hpow => ?_, fun hs hpow => ?_⟩
      · rw [netplace_full hs]
      · rw [netplace_power hs hpow]
      · obtain ⟨t, u, code, ro, data, area, id, frames, o, hplace, hu, ho⟩ := netplace_loaded (e := e) (tys := tys) hs hpow
        exact ⟨t, u, code, ro, data, area, id, frames, o, hplace, congrArg _ hu, ho⟩
  · intro s e x id o place h ho hp hts runs
    refine ⟨?_, ?_⟩
    · intro addr hc n w
      exact ⟨fun ha => runs_of_accept (hp ▸ exec_launch_own h (ha ▸ hc)) ho hts rfl,
        fun bs ha hr => runs_of_accept (hp ▸ exec_launch_block h ho hc ha hr) ho hts rfl⟩
    · intro addr count bs hc hr patch hpatch
      exact runs_of_accept (hp ▸ exec_replay h ho hc hr hpatch) ho hts rfl
  · intro inst hd v ch hc hlive hch hk hopen hty hf hq
    exact exec_signalHostQueue h hc hlive hch hk hopen hty hf hq
  · intro inst slot dest f d hc hf hlive hh hd ho
    rw [exec_signalPhaseArrival h hc hf hlive hh hd ho]
    exact ⟨fun hz => by rw [if_neg hz], fun hz => by rw [if_pos hz]⟩
  · intro s inst v o e x hv hstop hkill hqueue hhalt hexit htxns ho hw he hx
    exact exec_instanceEnd hv hstop hkill hqueue hhalt hexit htxns ho hw he hx

end Sys2Proof.Machine
end

section
/-! SUPPORT. Stops, save streams and the ends of slices: what each leaves. -/

namespace Sys2Proof.Machine

/-! ### The beginning of a stop (R79, R116) -/

/-- A process that a stop has reached: STOPPED, with the state it held. -/
def Proc.stop (p : Proc) : Proc := if p.st = .stopped then p else { p with st := .stopped, was := p.st }

/-- The processes that a stop makes STOPPED: those of the partition, or of one instance of it, that no earlier stop holds; engine threads
run on (R350). -/
def stopSet (s : State) (part : Nat) (inst : Option Nat) : List Nat :=
  (setOf s part inst).filter fun k => !(s.inst (s.proc k).inst).stopped && (s.proc k).engine.isNone

section Stop

variable {s : State} {part k : Nat} {p : Proc}

theorem stop_of_live (h : p.st ≠ .stopped) : p.stop = { p with st := .stopped, was := p.st } := if_neg h

theorem stop_stop (p : Proc) : p.stop.stop = p.stop := by
  have hst : p.stop.st = .stopped := by
    unfold Proc.stop
    split
    · assumption
    · rfl
  exact if_pos hst

theorem stopProc_eq (s : State) (k : Nat) : s.stopProc k = s.setProc k (s.proc k).stop := rfl

theorem foldl_stopProc_eq (l : List Nat) (s : State) : ∃ m, l.foldl State.stopProc s = { s with procs := m } := by
  refine List.foldlRecOn (motive := fun t : State => ∃ m, t = { s with procs := m }) l _ ⟨s.procs, rfl⟩ ?_
  rintro _ ⟨m, rfl⟩ k -
  exact ⟨_, rfl⟩

theorem proc_foldl_stopProc (l : List Nat) (s : State) (k : Nat) :
    (l.foldl State.stopProc s).proc k = if k ∈ l then (s.proc k).stop else s.proc k := by
  induction l generalizing s with
  | nil => rfl
  | cons j l ih =>
    rw [List.foldl_cons, ih, stopProc_eq, State.proc_setProc]
    by_cases hj : k = j
    · subst hj
      simp only [if_true, stop_stop, ite_self, List.mem_cons, true_or]
    · simp only [hj, if_false, List.mem_cons, false_or]

/-- A stop that finds no `mgang` at its barrier and no `repar` withdraws nothing. -/
theorem beginQuies_of_still (h : ∀ e ∈ s.txns, e.2.stage ≠ .waiting ∧ ∀ n m, e.2.op ≠ .repar n m) (inst : Option Nat)
    (why : Stop) :
    s.beginQuies part inst why = ((stopSet s part inst).foldl State.stopProc s).modPart part fun q =>
      { q with quies := some { why := why, inst := inst, procs := stopSet s part inst ++ endedOf s part inst, since := s.cycle,
                               time := virtualTime s part } } := by
  unfold State.beginQuies
  extract_lets l m t waits t' moves u
  obtain ⟨ps, ht⟩ : ∃ ps, t = { s with procs := ps } := foldl_stopProc_eq l s
  have hwaits : waits = [] := by
    refine List.map_eq_nil_iff.mpr (List.filter_eq_nil_iff.mpr fun e he => ?_)
    rw [ht] at he
    obtain ⟨hstage, -⟩ := h e he
    simp [hstage]
  have ht' : t' = t := by simp only [t', hwaits, List.foldl_nil]
  have hmoves : moves = [] := by
    refine List.map_eq_nil_iff.mpr (List.filter_eq_nil_iff.mpr fun e he => ?_)
    rw [ht', ht] at he
    obtain ⟨-, hop⟩ := h e he
    split
    · next n m hr => exact absurd hr (hop n m)
    · simp
  have hu : u = t := by simp only [u, hmoves, List.foldl_nil, ht']
  have hcycle : u.cycle = s.cycle := by rw [hu, ht]
  have htime : virtualTime u part = virtualTime s part := by
    rw [hu, ht]
    rfl
  rw [hcycle, htime, hu]
  rfl

theorem proc_of_nget? (hp : nget? s.procs k = some p) : s.proc k = p := by rw [State.proc, nget, hp, Option.getD_some]

theorem mem_stopSet (hp : nget? s.procs k = some p) (hk : partOf (ownerOf k) = part) (hx : p.st ≠ .exited) (he : p.engine = none)
    (hi : (s.inst p.inst).stopped = false) : k ∈ stopSet s part none := by
  have hset : k ∈ setOf s part none := List.mem_map.mpr ⟨(k, p), List.mem_filter.mpr ⟨mem_of_nget? hp, by simp [hk, hx]⟩, rfl⟩
  exact List.mem_filter.mpr ⟨hset, by rw [proc_of_nget? hp, hi, he]; rfl⟩

/-- A live process is STOPPED when its partition's quiescence begins, and is one of its set. -/
theorem beginQuies_stops (h : ∀ e ∈ s.txns, e.2.stage ≠ .waiting ∧ ∀ n m, e.2.op ≠ .repar n m) (hp : nget? s.procs k = some p)
    (hk : partOf (ownerOf k) = part) (hx : p.st ≠ .exited) (hs : p.st ≠ .stopped) (he : p.engine = none)
    (hi : (s.inst p.inst).stopped = false) (why : Stop) :
    let u := s.beginQuies part none why
    (u.proc k).st = .stopped ∧ (u.proc k).was = p.st ∧ u.mem = s.mem ∧ s.txns = u.txns ∧
      ∃ z, (u.part part).quies = some z ∧ z.why = why ∧ k ∈ z.procs ∧ z.since = s.cycle ∧ z.time = virtualTime s part ∧
        z.saving = false := by
  intro u
  have hu : u = _ := beginQuies_of_still h none why
  have hmem : k ∈ stopSet s part none := mem_stopSet hp hk hx he hi
  have hstop : u.proc k = { p with st := .stopped, was := p.st } := by
    rw [hu, State.modPart_eq, State.setPart_proc, proc_foldl_stopProc, if_pos hmem, proc_of_nget? hp, stop_of_live hs]
  obtain ⟨m, hm⟩ := foldl_stopProc_eq (stopSet s part none) s
  refine ⟨by rw [hstop], by rw [hstop], ?_, ?_, ?_⟩
  · rw [hu, hm]
    rfl
  · rw [hu, hm]
    rfl
  · rw [hu, State.modPart_eq, State.part_setPart_same]
    exact ⟨_, rfl, rfl, List.mem_append_left _ hmem, rfl, rfl, rfl⟩

end Stop

/-! ### The end of a slice, and of step 3 (R77, R79) -/

section Stream

variable {s : State} {part : Nat} {z : Quies}

theorem exec_sliceEnd {c k : Nat} (hc : (s.part part).slice = some c) (hq : (s.part part).quies = none)
    (hend : s.runs part = false ∨ c + (s.part part).budget.slice * 1750 ≤ s.cycle) (hk : nextChild s part = some k) :
    exec (.sliceEnd part) s = .next (if k = part then s.modPart part fun q => { q with slice := some s.cycle }
      else s.beginQuies part none .slice) := by
  have harm : exec (.sliceEnd part) s = execSliceEnd part s := rfl
  have hover : (s.runs part && decide (s.cycle < c + (s.part part).budget.slice * usCc)) = false := by
    rcases hend with hrun | hpast
    · rw [hrun, Bool.false_and]
    · have hnot : decide (s.cycle < c + (s.part part).budget.slice * usCc) = false := decide_eq_false (Nat.not_lt.mpr hpast)
      rw [hnot, Bool.and_false]
  rw [harm, execSliceEnd]
  simp only [hc, hq, hover, hk, Option.isSome_none, Bool.false_eq_true, if_false]
  exact (apply_ite Host.Outcome.next ..).symm

theorem exec_quiescenceBudgetExpiry_moving (hq : (s.part part).quies = some z) (hm : (s.txns.any fun e => movesNode z.procs e.2) = true) :
    exec (.quiescenceBudgetExpiry part) s = .next s := by
  have harm : exec (.quiescenceBudgetExpiry part) s = execQuiescenceBudgetExpiry part s := rfl
  rw [harm, execQuiescenceBudgetExpiry, hq]
  simp only [hm, Bool.not_true, Bool.and_false, Bool.false_and, Bool.false_eq_true, if_false]

theorem exec_quiescenceBudgetExpiry_over (hq : (s.part part).quies = some z) (hs : z.saving = false)
    (hm : (s.txns.any fun e => movesNode z.procs e.2) = false)
    (hover : (s.txns.filter fun e => outstanding z.procs e.2) = [] ∨ z.since + (s.part part).budget.qbudget * 1750 ≤ s.cycle) :
    ∃ u : State, exec (.quiescenceBudgetExpiry part) s = .next u ∧
      ∃ y, (u.part part).quies = some { z with saving := true, saveAt := y, procs := z.procs ++ threadsOf s part z } := by
  have harm : exec (.quiescenceBudgetExpiry part) s = execQuiescenceBudgetExpiry part s := rfl
  have hend : ((s.txns.filter fun e => outstanding z.procs e.2).map Prod.fst == [] ||
      decide (z.since + quiesBudget s part ≤ s.cycle)) = true := by
    rcases hover with hnone | hpast
    · rw [hnone]
      rfl
    · rw [decide_eq_true (show z.since + quiesBudget s part ≤ s.cycle from hpast), Bool.or_true]
  rw [harm, execQuiescenceBudgetExpiry, hq]
  simp only [hs, hm, hend, Bool.not_false, Bool.and_self, if_true]
  refine ⟨_, rfl, ?_⟩
  rw [State.modPart_eq, State.part_setPart_same]
  exact ⟨_, rfl⟩

/-! ### A late stream (R84, R111) -/

theorem misses_of_late (hs : z.saving = true) (hw : z.why = .slice) (hl : z.late = false) {cyc : Nat} (hc : z.saveAt + 100 * 1750 < cyc) :
    z.misses cyc = true := by
  have hcyc : decide (z.saveAt + 100 * usCc < cyc) = true := decide_eq_true hc
  rw [Quies.misses, hs, hw, hl, hcyc]
  rfl

theorem misses_of_command (hw : z.why ≠ .slice) (cyc : Nat) : z.misses cyc = false := by
  rw [Quies.misses, beq_eq_false_iff_ne.mpr hw, Bool.and_false, Bool.false_and, Bool.false_and]

theorem startRetrains_eq (s : State) (part : Nat) : ∃ m, s.startRetrains part = { s with mbds := m } := by
  refine List.foldlRecOn (motive := fun t : State => ∃ m, t = { s with mbds := m }) _ _ ⟨s.mbds, rfl⟩ ?_
  rintro _ ⟨m, rfl⟩ k -
  dsimp only
  split
  · exact ⟨_, rfl⟩
  · exact ⟨m, rfl⟩

theorem exec_preemptLate (hq : (s.part part).quies = some z) (hs : z.saving = true) (hw : z.why = .slice) (hl : z.late = false)
    (hc : z.saveAt + 100 * 1750 < s.cycle) :
    ∃ u : State, exec (.preemptLate part) s = .next u ∧ (u.part part).ring = (s.part part).ring ++ [.preemptLate part] ∧
      (u.part part).quies = some { z with late := true } ∧
      u.mem = (if (s.part part).ringAddr = 0 then s.mem
        else writeBytes s.mem (hostKey ((s.part part).ringAddr + 64 * (s.part part).ring.length))
          ((Event.preemptLate part).bytes s.time)) := by
  have harm : exec (.preemptLate part) s = execPreemptLate part s := rfl
  rw [harm, execPreemptLate, hq]
  simp only [misses_of_late hs hw hl hc, if_true]
  refine ⟨_, rfl, ?_⟩
  obtain ⟨m, hm⟩ := startRetrains_eq
    ((s.modPart part fun q => { q with quies := some { z with late := true } }).ringPart part (.preemptLate part)) part
  rw [hm, State.ringPart_eq, State.modPart_eq]
  refine ⟨?_, ?_, ?_⟩
  · exact (congrArg Part.ring (State.part_setPart_same ..)).trans (by rw [State.part_setPart_same])
  · exact (congrArg Part.quies (State.part_setPart_same ..)).trans (by rw [State.part_setPart_same])
  · rw [State.part_setPart_same, State.setPart_mem, State.setPart_time]

/-! ### The end of a stream (R83, R84, R86) -/

theorem streams_of_slice (hs : z.saving = true) (hw : z.why = .slice) : z.streams = true := by
  rw [Quies.streams, hs, hw]
  rfl

theorem streams_of_preempt (hs : z.saving = true) {e : EntryRef} (hw : z.why = .preempt e) : z.streams = true := by
  rw [Quies.streams, hs, hw]
  rfl

theorem streams_of_save {e : EntryRef} (hw : z.why = .save e) : z.streams = false := by
  rw [Quies.streams, hw]
  exact Bool.and_false _

theorem streams_of_migrate {e : EntryRef} {ok : Bool} (hw : z.why = .migrate e ok) : z.streams = false := by
  rw [Quies.streams, hw]
  exact Bool.and_false _

/-- The end of a slice's stream: late or not, the state is in the save area and the next child begins. -/
theorem exec_saveStreamEnd_slice (hq : (s.part part).quies = some z) (hs : z.saving = true) (hw : z.why = .slice) :
    let img := wholeImage s part z
    let late := if z.misses s.cycle then s.ringPart part (.preemptLate part) else s
    let v := ((late.saveArea part img).startRetrains part).modPart part fun q =>
      { q with off := areaImgs img, slice := none, quies := none }
    ∀ k, nextChild v part = some k → exec (.saveStreamEnd part) s = .next (v.beginSlice k) := by
  intro img late v k hk
  have harm : exec (.saveStreamEnd part) s = execSaveStreamEnd part s := rfl
  rw [harm, execSaveStreamEnd, hq]
  simp only [hs, hw, streams_of_slice hs hw, Bool.not_true, Bool.false_eq_true, if_false, if_true]
  rw [hk]

theorem exec_saveStreamEnd_preempt (hq : (s.part part).quies = some z) (hs : z.saving = true) {e : EntryRef} (hw : z.why = .preempt e) :
    let img := wholeImage s part z
    let late := if z.misses s.cycle then s.ringPart part (.preemptLate part) else s
    let u := (late.saveArea part img).startRetrains part
    exec (.saveStreamEnd part) s = .next ((u.withCores part fun t => t.takeImage part z (areaImgs img)).complete e .ok 0) := by
  intro img late u
  have harm : exec (.saveStreamEnd part) s = execSaveStreamEnd part s := rfl
  rw [harm, execSaveStreamEnd, hq]
  simp only [hs, hw, streams_of_preempt hs hw, Bool.not_true, Bool.false_eq_true, if_false, if_true]
  rfl

/-! #### SAVE -/

theorem bump_eq (s : State) (g : Nat) : ∃ a b n, s.bump g = { s with grans := a, tokens := b, nextId := n } := by
  unfold State.bump
  split
  · exact ⟨s.grans, s.tokens, s.nextId, rfl⟩
  · split
    · exact ⟨s.grans, s.tokens, s.nextId, rfl⟩
    · exact ⟨_, _, _, rfl⟩

theorem bumpRange_eq (s : State) (k n : Nat) : ∃ a b c, s.bumpRange k n = { s with grans := a, tokens := b, nextId := c } := by
  refine List.foldlRecOn (motive := fun t : State => ∃ a b c, t = { s with grans := a, tokens := b, nextId := c }) _ _
    ⟨s.grans, s.tokens, s.nextId, rfl⟩ ?_
  rintro _ ⟨a, b, c, rfl⟩ g -
  obtain ⟨a', b', c', h⟩ := bump_eq { s with grans := a, tokens := b, nextId := c } g
  exact ⟨a', b', c', h⟩

theorem vaWrite_eq (s : State) (p n va : Nat) (bs : List Byte) :
    ∃ m a b c, s.vaWrite p n va bs = { s with mem := m, grans := a, tokens := b, nextId := c } := by
  induction n generalizing s va bs with
  | zero => exact ⟨s.mem, s.grans, s.tokens, s.nextId, rfl⟩
  | succ n ih =>
    unfold State.vaWrite
    extract_lets n t
    obtain ⟨m, a, b, c, ht⟩ : ∃ m a b c, t = { s with mem := m, grans := a, tokens := b, nextId := c } := by
      unfold t
      split
      · exact ⟨_, bumpRange_eq ..⟩
      · exact ⟨s.mem, s.grans, s.tokens, s.nextId, rfl⟩
    clear_value t
    subst ht
    split
    · exact ⟨m, a, b, c, rfl⟩
    · obtain ⟨m', a', b', c', h⟩ := ih { s with mem := m, grans := a, tokens := b, nextId := c } (va + n) (bs.drop n)
      exact ⟨m', a', b', c', h⟩

theorem writeImage_eq (s : State) (p dst : Nat) (b : ImgBuf) :
    ∃ m g t n, s.writeImage p dst b = { s with mem := m, grans := g, tokens := t, nextId := n } := by
  unfold State.writeImage
  extract_lets off
  split
  · exact ⟨_, s.grans, s.tokens, s.nextId, rfl⟩
  · exact vaWrite_eq ..

theorem foldl_clean_eq (l : List CoreImg) (s : State) :
    ∃ c, l.foldl (fun s g => s.modCore g.core Core.clean) s = { s with cores := c } := by
  refine List.foldlRecOn (motive := fun t : State => ∃ c, t = { s with cores := c }) _ _ ⟨s.cores, rfl⟩ ?_
  rintro _ ⟨c, rfl⟩ g -
  exact ⟨_, rfl⟩

theorem saveTo_of_fits {dst len : Nat} {img : SaveImg} (h : (imageBytes img).len ≤ len) :
    ∃ u : State, s.saveTo part dst len img = some (u, (imageBytes img).len) ∧ u.mem = (s.writeImage part dst (imageBytes img)).mem ∧
      u.txns = s.txns ∧ u.procs = s.procs ∧ u.saved = s.saved ++ [img] := by
  obtain ⟨m, g, t, n, hw⟩ := writeImage_eq s part dst (imageBytes img)
  obtain ⟨c, hc⟩ := foldl_clean_eq img.cores (s.writeImage part dst (imageBytes img))
  refine ⟨_, if_neg (Nat.not_lt.mpr h), ?_⟩
  rw [hc, hw]
  exact ⟨rfl, rfl, rfl, rfl⟩

theorem saveTo_of_long {dst len : Nat} {img : SaveImg} (h : len < (imageBytes img).len) : s.saveTo part dst len img = none := if_pos h

/-- The cores of a time-shared child that has its slice, and of any other partition, are in place. -/
theorem withCores_of_present {f : State → State} (h : (s.part part).timeShared = false ∨ (s.part part).slice.isSome = true) :
    s.withCores part f = f s := by
  rcases h with hts | hslice
  · exact withCores_of_alone hts
  · rw [State.withCores]
    exact if_pos (by rw [← Option.not_isSome, hslice, Bool.not_true, Bool.and_false, Bool.not_false])

section Save

variable {e : EntryRef} {p dst len : Nat}

theorem exec_saveStreamEnd_save_fits (hq : (s.part part).quies = some z) (hs : z.saving = true) (hw : z.why = .save e)
    (hc : s.cmdOf e = some (.save p dst len)) (hin : (s.part part).timeShared = false ∨ (s.part part).slice.isSome = true)
    {u : State} {n : Nat} (hu : s.saveTo part dst len (wholeImage s part z) = some (u, n)) :
    exec (.saveStreamEnd part) s = .next ((u.resume part z.procs).complete e .ok (BitVec.ofNat 64 n)) := by
  have harm : exec (.saveStreamEnd part) s = execSaveStreamEnd part s := rfl
  have hmiss : z.misses s.cycle = false := misses_of_command (hw ▸ nofun) _
  rw [harm, execSaveStreamEnd, hq]
  simp only [hs, hw, hmiss, streams_of_save hw, hc, withCores_of_present hin, hu, Bool.not_true, Bool.false_eq_true, if_false]

theorem exec_saveStreamEnd_save_long (hq : (s.part part).quies = some z) (hs : z.saving = true) (hw : z.why = .save e)
    (hc : s.cmdOf e = some (.save p dst len)) (hin : (s.part part).timeShared = false ∨ (s.part part).slice.isSome = true)
    (hlong : len < (imageBytes (wholeImage s part z)).len) :
    exec (.saveStreamEnd part) s = .next ((s.resume part z.procs).complete e .nospace 0) := by
  have harm : exec (.saveStreamEnd part) s = execSaveStreamEnd part s := rfl
  have hmiss : z.misses s.cycle = false := misses_of_command (hw ▸ nofun) _
  rw [harm, execSaveStreamEnd, hq]
  simp only [hs, hw, hmiss, streams_of_save hw, hc, withCores_of_present hin, saveTo_of_long hlong, Bool.not_true, Bool.false_eq_true,
    if_false]

end Save

/-! #### MIGRATE -/

/-- The pages, the image and what runs leave over the link that a partition's MIGRATE names. -/
theorem sendMoved_eq (s : State) (part m : Nat) (z : Quies) :
    s.sendMoved part m z = (linkTo s part m).map fun key =>
      s.sendFab m key.remotePart (.moved key.remotePart s.moduleId part (movedPages s part).1 (movedPages s part).2
        (imageBytes (wholeImage s part z)).cells (movedRun s part (wholeImage s part z)) (movedNodes s part) (movedGrans s part)
        (s.part part).vtbase (s.part part).vtscale (s.part part).vtoff z.time) := rfl

section Migrate

variable {e : EntryRef} {ok : Bool} {p m : Nat}

theorem exec_saveStreamEnd_migrate_fails (hq : (s.part part).quies = some z) (hs : z.saving = true) (hw : z.why = .migrate e ok)
    (hc : s.cmdOf e = some (.migrate p m)) (hno : ok = false ∨ linkTo s part m = none) :
    exec (.saveStreamEnd part) s = .next ((s.resume part z.procs).complete e .aborted 0) := by
  have harm : exec (.saveStreamEnd part) s = execSaveStreamEnd part s := rfl
  have hmiss : z.misses s.cycle = false := misses_of_command (hw ▸ nofun) _
  have hsend : (if ok then s.sendMoved part m z else none) = none := by
    rcases hno with hok | hlink
    · rw [hok, if_neg Bool.false_ne_true]
    · rw [sendMoved_eq, hlink, Option.map_none, ite_self]
  rw [harm, execSaveStreamEnd, hq]
  simp only [hs, hw, hmiss, streams_of_migrate hw, hc, hsend, Bool.not_true, Bool.false_eq_true, if_false]

theorem exec_saveStreamEnd_migrate_leaves (hq : (s.part part).quies = some z) (hs : z.saving = true) (hw : z.why = .migrate e true)
    (hc : s.cmdOf e = some (.migrate p m)) (htok : ∀ k ∈ s.tokens, k.2.part ≠ part) {t : State} (ht : s.sendMoved part m z = some t) :
    exec (.saveStreamEnd part) s = .next (((t.modPart part fun q => { q with quies := none }).destroyPart part).complete e .ok 0) := by
  have harm : exec (.saveStreamEnd part) s = execSaveStreamEnd part s := rfl
  have hmiss : z.misses s.cycle = false := misses_of_command (hw ▸ nofun) _
  have hcounted : (s.tokens.any fun k => k.2.part == part) = false := List.any_eq_false.mpr fun k hk => by simp [htok k hk]
  rw [harm, execSaveStreamEnd, hq]
  simp only [hs, hw, hmiss, streams_of_migrate hw, hc, ht, hcounted, Bool.not_true, Bool.false_eq_true, if_false, if_true]

end Migrate

end Stream

/-! ### The obligation -/

/-- Settles O45: each event by its equation above. -/
theorem sliceEvents : Obligations.SliceEvents := by
  refine ⟨?_, ?_, fun s part z hq hs => ?_, ?_, fun s part z hq hs => ⟨?_, ?_, ?_, ?_⟩⟩
  · exact fun s part c k hc hq hend hk => exec_sliceEnd hc hq hend hk
  · exact fun s part k why p h hp hk hx hs he hi => beginQuies_stops h hp hk hx hs he hi why
  · split
    · next hm => exact exec_quiescenceBudgetExpiry_moving hq hm
    · next hm => exact exec_quiescenceBudgetExpiry_over hq hs (Bool.eq_false_of_not_eq_true hm)
  · exact fun s part z hq hs hw hl hc => exec_preemptLate hq hs hw hl hc
  · exact exec_saveStreamEnd_slice hq hs
  · exact fun e hw => exec_saveStreamEnd_preempt hq hs hw
  · intro e dst len hw hc hin
    refine ⟨fun hfits => ?_, exec_saveStreamEnd_save_long hq hs hw hc hin⟩
    obtain ⟨u, hu, hframe⟩ := saveTo_of_fits (s := s) (part := part) (dst := dst) hfits
    exact ⟨u, exec_saveStreamEnd_save_fits hq hs hw hc hin hu, hframe⟩
  · intro e ok p m hw hc
    refine ⟨exec_saveStreamEnd_migrate_fails hq hs hw hc, ?_⟩
    rintro key rfl hlink htok
    refine exec_saveStreamEnd_migrate_leaves hq hs hw hc htok ?_
    rw [sendMoved_eq, hlink, Option.map_some]

end Sys2Proof.Machine
end

section
/-! SUPPORT. The homes of memory: what counting, the bad-line lists and the messages between dies leave of the state, what a write leaves of
memory, and O36. -/

namespace Sys2Proof.Machine

/-! ### Counting (R99, R110) -/

/-- `t` is `s` but for the counters of lines, pages and rows. -/
def State.Counts (s t : State) : Prop := ∃ l h m, t = { s with lineCount := l, hot := h, mbds := m }

namespace State.Counts

theorem refl (s : State) : Counts s s := ⟨_, _, _, rfl⟩

theorem trans {s t u : State} (h : Counts s t) (g : Counts t u) : Counts s u := by
  obtain ⟨_, _, _, rfl⟩ := h
  obtain ⟨l, p, m, rfl⟩ := g
  exact ⟨l, p, m, rfl⟩

theorem foldl {α : Type} {f : State → α → State} (hf : ∀ s a, Counts s (f s a)) (l : List α) (s : State) :
    Counts s (l.foldl f s) :=
  List.foldlRecOn (motive := Counts s) l f (refl s) fun _ h a _ => h.trans (hf _ a)

theorem activate (s : State) (key : Nat) : Counts s (s.activate key) := by
  unfold State.activate
  split
  · exact refl s
  · exact ⟨_, _, _, rfl⟩

theorem countHot (s : State) (key : Nat) : Counts s (s.countHot key) := by
  unfold State.countHot
  extract_lets pg n
  split
  · exact refl s
  · split
    · exact refl s
    · split
      · exact ⟨_, _, _, rfl⟩
      · exact ⟨_, _, _, rfl⟩

theorem countLine (s : State) (key : Nat) : Counts s (s.countLine key) := (countHot s key).trans (activate _ key)

theorem countWalk (s : State) (part vpn : Nat) : Counts s (s.countWalk part vpn) := foldl (fun s a => countLine s (s.readPlace a)) _ s

theorem countLines (s : State) (l : List Part8) (wr : Bool) : Counts s (s.countLines l wr) := by
  unfold State.countLines
  refine foldl (fun s p => ?_) l s
  split
  · exact foldl (fun s a => (countHot s (s.live a)).trans (foldl activate _ _)) _ s
  · exact refl s

end State.Counts

/-! ### Bad lines and messages (R41, R192) -/

theorem listBad_eq (s : State) (a : Nat) (bad : Bool) : ∃ f m c, s.listBad a bad = { s with flaws := f, mbds := m, cxl := c } := by
  unfold State.listBad
  extract_lets t m d c
  split
  · split
    · exact ⟨_, _, _, rfl⟩
    · exact ⟨_, _, _, rfl⟩
  · split
    · split
      · exact ⟨_, _, _, rfl⟩
      · exact ⟨_, _, _, rfl⟩
    · exact ⟨_, _, _, rfl⟩

theorem clearLines_eq (s : State) (key len : Nat) : ∃ f m c, s.clearLines key len = { s with flaws := f, mbds := m, cxl := c } := by
  let R (t : State) : Prop := ∃ f m c, t = { s with flaws := f, mbds := m, cxl := c }
  have hlist (t : State) (h : R t) (a : Nat) : R (t.listBad a false) := by
    obtain ⟨f, m, c, rfl⟩ := h
    obtain ⟨f, m, c, h⟩ := listBad_eq { s with flaws := f, mbds := m, cxl := c } a false
    exact ⟨f, m, c, h⟩
  exact List.foldlRecOn (motive := R) _ _ ⟨_, _, _, rfl⟩ fun t h a _ =>
    List.foldlRecOn (motive := R) (t.writePlaces a) _ h fun t h a _ => hlist t h a

theorem sendUpdate_eq (s : State) (w : Who) (key : Nat) (old new : List Byte) :
    ∃ d x, s.sendUpdate w key old new = { s with dies := d, xmsgs := x } := ⟨_, _, rfl⟩

/-! ### What a die sees, and what a write leaves, with no page in motion -/

section Still

variable {s : State} (hm : s.motions = [])

include hm

theorem live_of_still (key : Nat) : s.live key = key := by
  have hnone : s.motionOf key = none := by rw [State.motionOf, hm]; rfl
  rw [State.live, hnone, ite_self]

theorem viewBytes_of_still (hx : s.xmsgs = []) (d key n : Nat) : s.viewBytes d key n = readBytes s.mem key n := by
  induction n generalizing key with
  | zero => rfl
  | succ n ih =>
    have hbyte : s.viewByte d key = readByte s.mem key := by simp [State.viewByte, hx, live_of_still hm]
    rw [State.viewBytes, readBytes, hbyte, ih]

theorem applyBytes_mem (w : Who) (key : Nat) (bs : List Byte) : (s.applyBytes w key bs).mem = writeBytes s.mem key bs := by
  unfold State.applyBytes
  split
  · next he =>
    rw [List.isEmpty_iff.mp he]
    rfl
  · split
    · obtain ⟨f, m, c, h⟩ := clearLines_eq { s with mem := writeBytes s.mem key bs } key bs.length
      rw [h]
    · obtain ⟨d, x, hsend⟩ := sendUpdate_eq s w (s.live key) (readBytes s.mem (s.live key) bs.length) bs
      dsimp only
      rw [hsend, live_of_still hm, hm, List.isEmpty_nil, if_pos rfl]
      generalize hu : ({ s with dies := d, mem := writeBytes s.mem key bs, motions := [], xmsgs := x } : State) = u
      obtain ⟨f, m, c, hlines⟩ := clearLines_eq u key bs.length
      obtain ⟨g, k, i, hbump⟩ := bumpRange_eq (u.clearLines key bs.length) key bs.length
      have hmem : ((u.clearLines key bs.length).bumpRange key bs.length).mem = u.mem := by rw [hbump, hlines]
      exact hmem.trans (hu ▸ rfl)

/-- A part in memory is written where it stands. -/
theorem applyParts_mem (w : Who) (key va : Nat) {n : Nat} {bs : List Byte} (hn : bs.length = n) :
    (s.applyParts w [{ at_ := .mem key, len := n, va := va }] bs).mem = writeBytes s.mem key bs := by
  rw [State.applyParts, ← hn, List.take_length]
  exact applyBytes_mem hm w key bs

theorem redBytes_of_still (hx : s.xmsgs = []) (op : AtomOp) (key n va v : Nat) :
    (s.redBytes op [{ at_ := .mem key, len := n, va := va }] v).1 =
      leBytes (atomBytes op) (atomApply op (leNat (readBytes s.mem key n)) v).1 := by
  simp only [State.redBytes, List.flatMap_singleton, State.partBytes, viewBytes_of_still hm hx]

end Still

/-! ### The end of a write (R109, R178, R244) -/

theorem giveFlags_mem (s : State) (x : Txn) (f : Word) : (s.giveFlags x f).mem = s.mem := by
  unfold State.giveFlags
  split
  · rfl
  · split
    · unfold State.objFlags
      split
      · rfl
      · rfl
    · split
      · rfl
      · rfl

theorem miss_mem (s : State) (x : Txn) : (s.miss x).mem = s.mem := by
  unfold State.miss
  dsimp only
  split
  · rfl
  · rfl

/-- A write of this module that carries no tag ends: its transaction goes, and memory stands. -/
theorem endWrite_spec {s : State} {t : Nat} {x : Txn} (hf : x.far = none) (hp : x.ptag.getLsbD 8 = false) (fl : Word) :
    (s.endWrite t x fl).mem = s.mem ∧ nget? (s.endWrite t x fl).txns t = none := by
  have hend : s.endWrite t x fl = ((s.miss x).giveFlags x fl).dropTxn t := by
    rw [State.endWrite, hf, Option.isSome_none, if_neg Bool.false_ne_true, State.tagArrival, hp, Bool.false_and,
      if_neg Bool.false_ne_true]
  rw [hend]
  exact ⟨(giveFlags_mem _ x fl).trans (miss_mem s x), (nget?_ndel ..).trans (if_pos rfl)⟩

/-! ### Stores and reductions at their homes (R292, R296) -/

section Write

variable {s : State} {t : Nat} {x : Txn}

/-- HOME_WRITE_APPLY of a write outside the register windows that is not merged: it is served, or takes the next step of its way. -/
theorem exec_homeWriteApply (how : ServeHow) (ht : nget? s.txns t = some x) (hrole : x.op.role = .st ∨ x.op.role = .rd)
    (hwin : ∀ p ∈ x.op.parts, ∀ k o, p.at_ ≠ .win k o) (hhow : s.canServe t x = true → how = .whole) :
    exec (.homeWriteApply ⟨t, how⟩) s = .next
      (if s.canServe t x then s.serveWrite t x how else if s.canSend t x then s.setOut t x
       else if s.canPlace x then s.placeFar t x else if s.canEnter t x then s.enter t x else s) := by
  have harm : exec (.homeWriteApply ⟨t, how⟩) s = execHomeWriteApply ⟨t, how⟩ s := rfl
  rw [harm, execHomeWriteApply, ht]
  refine (if_neg ?_).trans ?_
  · have hst : (x.op.role == .st || x.op.role == .rd) = true := by simpa using hrole
    rw [hst, Bool.not_true, Bool.false_or, List.any_eq_true]
    rintro ⟨p, hp, hat⟩
    split at hat
    · next k o hw => exact hwin p hp k o hw
    · exact Bool.false_ne_true hat
  · by_cases hc : s.canServe t x = true
    · obtain rfl := hhow hc
      rw [if_pos hc, if_pos hc]
    · rw [if_neg hc, if_neg hc]
      simp only [← apply_ite Host.Outcome.next]

variable (hm : s.motions = []) (hf : x.far = none)

theorem unitsFor_whole (hu : x.unitsDone = []) : (x.unitsFor .whole).length = x.units.length := by
  simp [Txn.unitsFor, hu]

include hm hf

/-- The lines of a write are counted, its bytes applied and the write ended. -/
theorem applied_spec (l : List Part8) (w : Who) (key va : Nat) {n : Nat} {bs : List Byte} (hn : bs.length = n) (fl : Word)
    (hp : x.ptag.getLsbD 8 = false) :
    let u := ((s.countLines l true).applyParts w [{ at_ := .mem key, len := n, va := va }] bs).endWrite t x fl
    u.mem = writeBytes s.mem key bs ∧ nget? u.txns t = none := by
  obtain ⟨lines, hot, rows, hcount⟩ := State.Counts.countLines s l true
  have hmem := applyParts_mem (s := s.countLines l true) (hcount ▸ hm) w key va hn
  obtain ⟨hend, hgone⟩ := endWrite_spec (s := (s.countLines l true).applyParts w [{ at_ := .mem key, len := n, va := va }] bs)
    (t := t) hf hp fl
  exact ⟨hend.trans (hmem.trans (by rw [hcount])), hgone⟩

theorem serveWrite_store {key va : Nat} {bs : List Byte} (hop : x.op = .store [{ at_ := .mem key, len := bs.length, va := va }] bs)
    (hlost : lostPart s x.op.parts = none) (hp : x.ptag.getLsbD 8 = false) (hu : x.unitsDone = []) :
    (s.serveWrite t x).mem = writeBytes s.mem key bs ∧ nget? (s.serveWrite t x).txns t = none := by
  have hst : x.op.role = .st := by rw [hop]; rfl
  have hgood : s.badWrite x.op = none := by rw [State.badWrite, hlost, hst]; rfl
  have hserve : s.serveWrite t x = ((s.countLines x.op.parts true).applyParts (x.who t)
      [{ at_ := .mem key, len := bs.length, va := va }] bs).endWrite t x 0 := by
    unfold State.serveWrite
    rw [hgood, hf, hst, Option.isSome_none, Bool.false_and]
    simp only [hop, reduceCtorEq, Bool.false_eq_true, if_false, State.serveStore, unitsFor_whole hu, if_true]
  rw [hserve]
  exact applied_spec hm hf _ _ key va rfl 0 hp

theorem serveWrite_red (hx : s.xmsgs = []) {key va : Nat} {op : AtomOp} {v : Word}
    (hop : x.op = .red op [{ at_ := .mem key, len := atomBytes op, va := va }] v) (hgood : s.badWrite x.op = none)
    (hp : x.ptag.getLsbD 8 = false) :
    (s.serveWrite t x).mem = writeBytes s.mem key (leBytes (atomBytes op)
        (atomApply op (leNat (readBytes s.mem key (atomBytes op))) (v.toNat % 2 ^ (8 * atomBytes op))).1) ∧
      nget? (s.serveWrite t x).txns t = none := by
  have hrd : x.op.role = .rd := by rw [hop]; rfl
  let r := s.redBytes op [{ at_ := .mem key, len := atomBytes op, va := va }] (v.toNat % 2 ^ (8 * atomBytes op))
  have hr : r.1 = leBytes (atomBytes op) _ := redBytes_of_still hm hx op key (atomBytes op) va _
  have hserve : s.serveWrite t x = ((s.countLines x.op.parts true).applyParts (x.who t)
      [{ at_ := .mem key, len := atomBytes op, va := va }] r.1).endWrite t x r.2 := by
    have hupset : s.upsetRead .whole x.op.parts = (s, false) := rfl
    unfold State.serveWrite
    rw [hgood, hf, hrd, Option.isSome_none, Bool.false_and, if_pos rfl, hupset]
    simp only [hop, Bool.false_eq_true, if_false, State.endRed, hf, Option.isSome_none]
    rfl
  rw [hserve, ← hr]
  exact applied_spec hm hf _ _ key va (hr ▸ leBytes_length ..) r.2 hp

end Write

/-! ### The obligation -/

/-- Bytes that are written stand at their place, and every byte outside is as before. -/
theorem writeBytes_spec (m : List Host.Cell) (key : Nat) {n : Nat} {bs : List Byte} (hn : bs.length = n) :
    readBytes (writeBytes m key bs) key n = bs ∧
      ∀ a, (a < key ∨ key + n ≤ a) → readByte (writeBytes m key bs) a = readByte m a := by
  subst hn
  exact ⟨readBytes_writeBytes m key bs, fun a ha => readByte_writeBytes_other m key a bs ha⟩

/-- Settles O36: a write that may be served leaves the memory of `serveWrite_store` or `serveWrite_red`; one that may not takes the
next step of its way. -/
theorem storeApplied : Obligations.StoreApplied := by
  refine ⟨?store, ?red, ?waits⟩
  case store =>
    intro s t x key va bs ht hop hm hc hlost hp hf hu
    have hexec := exec_homeWriteApply .whole ht (.inl (hop ▸ rfl)) (by simp [hop, Op.parts]) fun _ => rfl
    rw [if_pos hc] at hexec
    obtain ⟨hwrite, hgone⟩ := serveWrite_store (t := t) hm hf hop hlost hp hu
    obtain ⟨hat, hout⟩ := writeBytes_spec s.mem key (bs := bs) rfl
    refine ⟨_, hexec, ?_, ?_, hgone, ?_⟩
    · rw [hwrite, hat]
    · rw [hwrite]
      exact hout
    · rw [hwrite]
      exact Memory.wf_writeBytes key bs
  case red =>
    intro s t x key va op v ht hop hm hx hc hgood hp hf n
    have hexec := exec_homeWriteApply .whole ht (.inr (hop ▸ rfl)) (by simp [hop, Op.parts]) fun _ => rfl
    rw [if_pos hc] at hexec
    obtain ⟨hwrite, hgone⟩ := serveWrite_red (t := t) hm hf hx hop hgood hp
    obtain ⟨hat, hout⟩ := writeBytes_spec s.mem key (leBytes_length n
      (atomApply op (leNat (readBytes s.mem key n)) (v.toNat % 2 ^ (8 * n))).1)
    refine ⟨_, hexec, ?_, ?_, hgone⟩
    · rw [hwrite, hat]
    · rw [hwrite]
      exact hout
  case waits =>
    intro s t x how ht hrole hwin hc
    have hno : ¬ s.canServe t x = true := by rw [hc]; exact Bool.false_ne_true
    rw [exec_homeWriteApply how ht hrole hwin fun h => absurd h hno, if_neg hno]

end Sys2Proof.Machine
end

section
/-! SUPPORT. Pages at work: walks, dirty logs, shoot-downs and epochs (R92, R93, R96, R99). -/

namespace Sys2Proof.Machine

variable {s : State}

/-! ### Walks (R89 to R92) -/

/-- The entry of a walk names the page that was walked. -/
theorem walk_names {part vpn : Nat} {e : TlbEnt} (h : s.walk part vpn = .ok e) : e.part = part ∧ e.vpn = vpn := by
  unfold State.walk at h
  dsimp only at h
  split at h
  · cases h
  · split at h
    · cases h
    · split at h
      · cases h
      · split at h
        · cases h
        · cases h
          exact ⟨rfl, rfl⟩

/-- An entry just made is found: no other of its page stands before it. -/
theorem tlbFind_tlbFill (l : List TlbEnt) (cap : Nat) (e : TlbEnt) : tlbFind (tlbFill l cap e) e.part e.vpn = some e := by
  let rest := l.filter fun f => !(f.part == e.part && f.vpn == e.vpn)
  have hrest : ∀ f ∈ rest, (f.part == e.part && f.vpn == e.vpn) = false := fun f hf => by
    rw [← Bool.not_eq_true']
    exact (List.mem_filter.mp hf).2
  have hnone : (if rest.length < cap then rest else rest.drop 1).find? (fun f => f.part == e.part && f.vpn == e.vpn) = none := by
    refine List.find?_eq_none.mpr fun f hf => ne_true_of_eq_false (hrest f ?_)
    split at hf
    · exact hf
    · exact List.mem_of_mem_drop hf
  have hself : [e].find? (fun f => f.part == e.part && f.vpn == e.vpn) = some e := by simp
  exact List.find?_append.trans (by rw [hnone, hself]; rfl)

section Walk

variable {core part vpn : Nat} (hcore : tlbFind (s.core core).tlb part vpn = none)
  (hcluster : tlbFind (s.cluster (clusterOf core)).tlb part vpn = none)

include hcore hcluster

/-- A page that no TLB holds is walked, and entered in the core's TLB. -/
theorem lookup_walked {e : TlbEnt} (hw : s.walk part vpn = .ok e) :
    ∃ u, s.lookup core part vpn = (u, .ok e) ∧ tlbFind (u.core core).tlb part vpn = some e ∧ u.mem = s.mem := by
  obtain ⟨l, h, m, hcount⟩ := State.Counts.countWalk s part vpn
  obtain ⟨hpart, hvpn⟩ := walk_names hw
  rw [State.lookup, hcore, hcluster, hw]
  refine ⟨_, rfl, ?_, ?_⟩
  · rw [State.modCore_eq, State.core_setCore_same, ← hpart, ← hvpn]
    exact tlbFind_tlbFill ..
  · rw [hcount]
    rfl

theorem lookup_unmapped {f : NoPage} (hw : s.walk part vpn = .error f) : s.lookup core part vpn = (s.countWalk part vpn, .error f) := by
  rw [State.lookup, hcore, hcluster, hw]

end Walk

section PageWalk

variable {core k vpn : Nat} {u : State} (hk : ((s.core core).ctxs.findSome? fun x => x.2.run) = some k)
  (hb : s.unitBusy none core (partOf k) vpn = false)

include hk hb

theorem exec_pageWalk_found {e : TlbEnt} (hl : s.lookup core (partOf k) vpn = (u, .ok e)) : exec (.pageWalk core vpn) s = .next u := by
  have harm : exec (.pageWalk core vpn) s = execPageWalk core vpn s := rfl
  rw [harm, execPageWalk, hk]
  dsimp only
  rw [hb, hl]
  rfl

theorem exec_pageWalk_unmapped {f : NoPage} (hl : s.lookup core (partOf k) vpn = (u, .error f)) :
    exec (.pageWalk core vpn) s = .next (u.isolate (partOf k) f.frame) := by
  have harm : exec (.pageWalk core vpn) s = execPageWalk core vpn s := rfl
  rw [harm, execPageWalk, hk]
  dsimp only
  rw [hb, hl]
  rfl

end PageWalk

/-! ### Dirty logs (R96) -/

theorem setD_eq (s : State) (l : List (Nat × Nat)) : ∃ m, s.setD l = { s with mem := m } := by
  refine List.foldlRecOn (motive := fun t : State => ∃ m, t = { s with mem := m }) l _ ⟨s.mem, rfl⟩ ?_
  rintro _ ⟨m, rfl⟩ e -
  dsimp only
  split
  · exact ⟨m, rfl⟩
  · exact ⟨_, rfl⟩

theorem exec_dirtyLogMerge {core : Nat} (h : 128 ≤ (s.core core).dirtyLog.length) :
    exec (.dirtyLogMerge core) s = .next (s.mergeLog core) := if_pos h

theorem mergeLog_spec (s : State) (core : Nat) :
    ((s.mergeLog core).core core).dirtyLog = [] ∧ (s.mergeLog core).procs = s.procs := by
  obtain ⟨m, h⟩ := setD_eq s (s.core core).dirtyLog
  rw [State.mergeLog, State.modCore_eq, State.core_setCore_same, h]
  exact ⟨rfl, rfl⟩

/-! ### Shoot-downs (R93, R95) -/

/-- No TLB holds an entry of a page that has been dropped. -/
theorem dropTlbs_spec (s : State) (part vpn : Nat) :
    (∀ c ∈ (s.dropTlbs part vpn).cores, ∀ t ∈ c.2.tlb, entCovers part vpn t = false) ∧
      (∀ c ∈ (s.dropTlbs part vpn).clusters, ∀ t ∈ c.2.tlb, entCovers part vpn t = false) ∧
      ∀ c ∈ (s.dropTlbs part vpn).engines, ∀ t ∈ c.2.tlb, entCovers part vpn t = false := by
  have hgone {l : List TlbEnt} {t : TlbEnt} (ht : t ∈ l.filter fun t => !entCovers part vpn t) : entCovers part vpn t = false := by
    simpa using (List.mem_filter.mp ht).2
  exact ⟨List.forall_mem_map.mpr fun _ _ _ ht => hgone ht, List.forall_mem_map.mpr fun _ _ _ ht => hgone ht,
    List.forall_mem_map.mpr fun _ _ _ ht => hgone ht⟩

section Shoot

variable {t vpn : Nat} {deny : Bool} {x : Txn} (ht : nget? s.txns t = some x) (hop : x.op = .shoot vpn deny) (hsent : x.stage = .sent)

include ht hop hsent

theorem exec_shootDownComplete_first (hx : x.started = false) (hd : s.earlierDone t x = true) :
    exec (.shootDownComplete t) s = .next ((s.dropTlbs x.part vpn).setTxn t { x with started := true }) := by
  have harm : exec (.shootDownComplete t) s = execShootDownComplete t s := rfl
  rw [harm, execShootDownComplete, ht]
  simp only [hop, hsent, hx, hd, bne_self_eq_false, Bool.not_true, Bool.false_eq_true, if_false]

theorem exec_shootDownComplete_next (hx : x.started = true) :
    exec (.shootDownComplete t) s = .next (s.shootStep t x vpn deny) := by
  have harm : exec (.shootDownComplete t) s = execShootDownComplete t s := rfl
  rw [harm, execShootDownComplete, ht]
  simp only [hop, hsent, hx, bne_self_eq_false, Bool.false_eq_true, if_false, if_true]

end Shoot

section ShootStep

variable {t vpn : Nat} (deny : Bool) {x : Txn} (hmarks : ∀ u ∈ x.marks, ∀ y, nget? s.txns u = some y → y.retrying = false)

include hmarks

/-- No access that the shoot-down has retried is still on its way. -/
theorem marks_closed : (x.marks.any fun u => match nget? s.txns u with | some y => y.retrying | none => false) = false := by
  refine List.any_eq_false.mpr fun u hu => ?_
  split
  · next y hy => exact ne_true_of_eq_false (hmarks u hu y hy)
  · exact Bool.false_ne_true

theorem shootStep_entry {v : Nat ⊕ Nat} {e : SideEnt}
    (he : (s.logEnts.find? fun e => e.2.part == x.part && s.shotCovers x.part vpn e.2.vpn && !x.marks.contains e.2.txn) = some (v, e))
    (hb : s.walkBusy x.part e.vpn = false) :
    s.shootStep t x vpn deny = (s.setTxn t { x with marks := x.marks ++ [e.txn] }).retryEnt v e deny := by
  refine (if_neg (ne_true_of_eq_false (marks_closed hmarks))).trans ?_
  rw [he]
  exact if_neg (ne_true_of_eq_false hb)

variable (hb : s.walkBusy x.part vpn = false)
  (hents : ∀ e ∈ s.logEnts, e.2.part ≠ x.part ∨ s.shotCovers x.part vpn e.2.vpn = false ∨ e.2.txn ∈ x.marks)

include hb hents

/-- Where every logged access of the page has been tried, the held reads are next, and then the end. -/
theorem shootStep_logged : s.shootStep t x vpn deny =
    if (s.heldReads x.part vpn).any (!x.marks.contains ·) then
      (s.setTxn t { x with marks := x.marks ++ s.heldReads x.part vpn }).retryHeld x.part vpn deny
    else if x.issuer = 0 then (s.restMotion x.part vpn).dropTxn t
    else ((s.restMotion x.part vpn).setTxn t { x with stage := .back { vals := [0], kept := [0] } }).arrive t := by
  have hnone : (s.logEnts.find? fun e => e.2.part == x.part && s.shotCovers x.part vpn e.2.vpn && !x.marks.contains e.2.txn) = none := by
    refine List.find?_eq_none.mpr fun e he => ?_
    obtain hp | hc | hm := hents e he
    · simp [hp]
    · simp [hc]
    · simp [hm]
  refine (if_neg (ne_true_of_eq_false (marks_closed hmarks))).trans ?_
  rw [hnone]
  exact if_neg (ne_true_of_eq_false hb)

theorem shootStep_held (hh : ∃ h ∈ s.heldReads x.part vpn, h ∉ x.marks) : s.shootStep t x vpn deny =
    (s.setTxn t { x with marks := x.marks ++ s.heldReads x.part vpn }).retryHeld x.part vpn deny := by
  rw [shootStep_logged deny hmarks hb hents, if_pos]
  simpa using hh

theorem shootStep_last (hi : x.issuer ≠ 0) (hh : ∀ h ∈ s.heldReads x.part vpn, h ∈ x.marks) : s.shootStep t x vpn deny =
    ((s.restMotion x.part vpn).setTxn t { x with stage := .back { vals := [0], kept := [0] } }).arrive t := by
  rw [shootStep_logged deny hmarks hb hents, if_neg, if_neg hi]
  simpa using hh

end ShootStep

/-! ### Epochs (R99) -/

theorem nget?_filter_of_nodup {α : Type} {m : NMap α} (hm : (m.map Prod.fst).Nodup) (p : α → Bool) (k : Nat) :
    nget? (m.filter fun e => p e.2) k = (nget? m k).filter p := by
  induction m with
  | nil => rfl
  | cons e m ih =>
    obtain ⟨j, a⟩ := e
    obtain ⟨hj, hm⟩ := List.nodup_cons.mp hm
    have hfilter : ((j, a) :: m).filter (fun e => p e.2) = if p a then (j, a) :: m.filter fun e => p e.2 else m.filter fun e => p e.2 :=
      List.filter_cons
    by_cases hk : j = k
    · subst hk
      have hnone : nget? m j = none := Option.eq_none_iff_forall_ne_some.mpr fun b hb =>
        hj (List.mem_map.mpr ⟨(j, b), mem_of_nget? hb, rfl⟩)
      by_cases hp : p a = true
      · simp [hfilter, hp, nget?, Option.filter]
      · simp [hfilter, hp, nget?, Option.filter, ih hm, hnone]
    · by_cases hp : p a = true
      · simp [hfilter, hp, nget?, hk, ih hm]
      · simp [hfilter, hp, nget?, hk, ih hm]

/-- The counters of a partition's pages are halved, and the zeros left out. -/
theorem nget_halved {m : NMap Nat} (hm : (m.map Prod.fst).Nodup) (p : Nat → Bool) (k : Nat) :
    nget 0 ((m.map fun e => (e.1, if p e.1 then e.2 / 2 else e.2)).filter fun e => e.2 != 0) k =
      if p k then nget 0 m k / 2 else nget 0 m k := by
  have hkeys : ((m.map fun e => (e.1, if p e.1 then e.2 / 2 else e.2)).map Prod.fst).Nodup := by
    rw [List.map_map]
    exact hm
  have hmap := nget?_map_snd (fun j n => if p j then n / 2 else n) m k
  rw [nget, nget?_filter_of_nodup hkeys (· != 0), hmap, nget]
  cases nget? m k with
  | none => simp
  | some n =>
    -- a counter that has become 0 is left out, and reads as 0
    have hzero (n : Nat) : ((some n).filter (· != 0)).getD 0 = n := by by_cases hn : n = 0 <;> simp [Option.filter, hn]
    exact hzero _

theorem epochEnd_spec {part : Nat} {q : Part} (hq : nget? s.parts part = some q) (ht : q.epochAt ≤ s.cycle)
    (hauto : q.migpol.getLsbD 0 = false) (hn : (s.hot.map Prod.fst).Nodup) :
    ∃ u : State, exec (.epochEnd part) s = .next u ∧
      (∀ f, nget 0 u.hot f = if s.owns part f then nget 0 s.hot f / 2 else nget 0 s.hot f) ∧
      (u.part part).epochAt = s.cycle + bits q.migpol.toNat 47 32 * 1750 ∧ u.mem = s.mem := by
  have harm : exec (.epochEnd part) s = execEpochEnd part s := rfl
  have hpart : s.part part = q := by rw [State.part, nget, hq, Option.getD_some]
  rw [harm, execEpochEnd, hq]
  simp only [not_lt.mpr ht, hauto, Bool.false_and, Bool.false_eq_true, if_false]
  refine ⟨_, rfl, fun f => nget_halved hn (s.owns part) f, ?_, rfl⟩
  rw [State.modPart_eq, State.part_setPart_same, ← hpart]
  rfl

end Sys2Proof.Machine
end

section
/-! SUPPORT. The motion of a page (R101 to R103), and O50. -/

namespace Sys2Proof.Machine

/-! ### A motion begins (R101, R359) -/

namespace State.Counts

variable {s t : State} (h : s.Counts t)

include h

theorem pte (a : Nat) : t.pte a = s.pte a := by obtain ⟨_, _, _, rfl⟩ := h; rfl

theorem heapPage (f : Nat) : t.heapPage f = s.heapPage f := by obtain ⟨_, _, _, rfl⟩ := h; rfl

theorem frameTier (f : Nat) : Machine.frameTier t f = Machine.frameTier s f := by obtain ⟨_, _, _, rfl⟩ := h; rfl

theorem berylOf (part f : Nat) : t.berylOf part f = s.berylOf part f := by obtain ⟨_, _, _, rfl⟩ := h; rfl

theorem berylRoom (eng : Nat) : t.berylRoom eng = s.berylRoom eng := by obtain ⟨_, _, _, rfl⟩ := h; rfl

theorem destOf (part f tier : Nat) (any : Bool) (st : Nat) : t.destOf part f tier any st = s.destOf part f tier any st := by
  obtain ⟨_, _, _, rfl⟩ := h; rfl

end State.Counts

/-- The frame that is drawn from the pool of a partition (R91). -/
def State.freeFrame (s : State) (part tier st : Nat) : Option Nat :=
  ((s.part part).grants.filter fun g => g.1 == tier && decide (0 < g.2.2)).findSome? fun g =>
    scanPage (s.busyPages part) g.2.1 g.2.2 st (8 * ((s.busyPages part).length + 1) + 8) (Config.freeWord s.fresh).toNat

/-- A draw from a pool takes the free frame into use, and nothing else changes. -/
theorem pickPage_eq (s : State) (part tier st : Nat) :
    ∃ n p, s.pickPage part tier st = ({ s with fresh := n, parts := p }, s.freeFrame part tier st) := by
  unfold State.pickPage
  dsimp only [State.draw]
  split
  · next hfound => exact ⟨_, _, Prod.ext rfl hfound.symm⟩
  · next f hfound => exact ⟨_, _, Prod.ext rfl hfound.symm⟩

theorem State.Counts.freeFrame {s t : State} (h : s.Counts t) (part tier st : Nat) :
    t.freeFrame part tier st = s.freeFrame part tier st := by
  obtain ⟨_, _, _, rfl⟩ := h; rfl

section Start

variable {s : State} {id k f eng : Nat} {m : Motion} {e : TlbEnt}

/-- The motion with its places and its engine, once it has begun. -/
def Motion.begun (m : Motion) (e : TlbEnt) (f eng now : Nat) : Motion :=
  { m with src := e.frame, dst := f, leaf := e.leaf, st := .copying, bitmap := 0, eng := eng, began := now }

theorem startMove_begins (hq : s.motions = [(id, m)]) (hst : m.st = .queued) (hw : s.walk m.part m.vpn = .ok e) (hl : e.large = 0)
    (hpin : bits (s.pte e.leaf) 56 56 = 0) (htier : frameTier s e.frame ≠ m.tier) (heng : s.berylOf m.part e.frame = some eng)
    (hk : s.destOf m.part e.frame m.tier m.any m.stack = some k) (hf : (s.pickPage m.part m.tier k).2 = some f)
    (hb : s.walkBusy m.part m.vpn = false) (hheap : s.heapPage e.frame = false) :
    ∃ u, s.startMove id m = some u ∧ nget? u.motions id = some (m.begun e f eng s.cycle) ∧
      u.mem = writeByte s.mem (s.live e.leaf + 6) (readByte s.mem (s.live e.leaf + 6) ||| 0x40) := by
  have hcount := State.Counts.countWalk s m.part m.vpn
  have hroom : s.berylRoom eng = true := by simp [State.berylRoom, hq, hst]
  have hframe : s.freeFrame m.part m.tier k = some f := by
    obtain ⟨n, p, hpick⟩ := pickPage_eq s m.part m.tier k
    rw [← hf, hpick]
  rw [State.startMove, if_neg (ne_true_of_eq_false hb), hw]
  generalize s.countWalk m.part m.vpn = t at hcount
  obtain ⟨n, p, hpick⟩ := pickPage_eq t m.part m.tier k
  rw [hcount.freeFrame, hframe] at hpick
  dsimp only
  rw [hcount.pte, hpin, hcount.heapPage, hheap, hl, hcount.frameTier, hcount.berylOf, heng, beq_false_of_ne htier]
  dsimp only
  rw [hcount.berylRoom, hroom, hcount.destOf, hk]
  dsimp only
  rw [hpick]
  obtain ⟨_, _, _, rfl⟩ := hcount
  exact ⟨_, rfl, nget?_nset_same .., rfl⟩

theorem exec_motionStart (hq : s.motions = [(id, m)]) (hst : m.st = .queued) (hmig : (s.part m.part).migrated = false) {u : State}
    (hu : s.startMove id m = some u) : exec (.motionStart m.part) s = .next u := by
  have harm : exec (.motionStart m.part) s = execMotionStart m.part s := rfl
  have hidle : s.moving m.part = 0 := by simp [State.moving, hq, hst]
  have hmax : 1 ≤ s.maxMot m.part := by simp [State.maxMot]
  rw [harm, execMotionStart, hmig, hidle]
  refine (if_neg (by simp; omega)).trans (congrArg Host.Outcome.next ?_)
  have hfree : (s.motions.filter fun e => e.2.part == m.part && e.2.st == .queued &&
      !s.motions.any fun d => d.2.part == m.part && d.2.vpn == e.2.vpn && (d.2.st != .queued)) = [(id, m)] := by simp [hq, hst]
  rw [hfree]
  -- the one request stands in one of the three ranks
  cases htxn : m.txn with
  | some t => simp [htxn, hu]
  | none => by_cases htier : m.tier = 0 <;> simp [htxn, htier, hu]

end Start

/-! ### A line is copied, and the last one (R101, R102) -/

/-- A motion once line `i` has been copied. -/
def Motion.withLine (m : Motion) (i now : Nat) : Motion := { m with bitmap := m.bitmap ||| (1#512 <<< i), due := now + 64 }

/-- A good line goes to the destination of its motion, and is counted at both places. -/
def State.moveLine (s : State) (id : Nat) (m : Motion) (i : Nat) : State :=
  let a := m.src * 2 ^ 16 + 128 * i
  let b := m.dst * 2 ^ 16 + 128 * i
  let s := ((({ s with mem := writeBytes s.mem b (readBytes s.mem a 128) } : State).listBad b false).activate a).activate b
  { s with motions := nset s.motions id (m.withLine i s.cycle) }

section Copy

variable {s : State} {id i : Nat} {m : Motion}

theorem moveLine_spec (s : State) (id i : Nat) (m : Motion) :
    (s.moveLine id m i).mem = writeBytes s.mem (m.dst * 2 ^ 16 + 128 * i) (readBytes s.mem (m.src * 2 ^ 16 + 128 * i) 128) ∧
      nget? (s.moveLine id m i).motions id = some (m.withLine i (s.moveLine id m i).cycle) ∧
      (s.moveLine id m i).clusters = s.clusters ∧ (s.moveLine id m i).nextTxn = s.nextTxn := by
  unfold State.moveLine
  extract_lets a b w
  obtain ⟨f, rows, c, hlist⟩ := listBad_eq { s with mem := writeBytes s.mem b (readBytes s.mem a 128) } b false
  have hw : State.Counts _ w := (State.Counts.activate _ a).trans (State.Counts.activate _ b)
  rw [hlist] at hw
  clear_value w
  obtain ⟨_, _, _, rfl⟩ := hw
  exact ⟨rfl, nget?_nset_same .., rfl, rfl⟩

theorem exec_motionLineCopy (hm : nget? s.motions id = some m) (hst : m.st = .copying) (hi : nextLine m.bitmap = some i)
    (hsrc : s.memBusy (m.src * 2 ^ 16 + 128 * i) = false) (hdst : s.memBusy (m.dst * 2 ^ 16 + 128 * i) = false)
    (hbad : s.badAt (m.src * 2 ^ 16 + 128 * i) = false)
    (hlost : lostPart s [{ at_ := .mem (m.dst * 2 ^ 16 + 128 * i), len := 128 }] = none) :
    exec (.motionLineCopy id) s = .next (if (nextLine (m.bitmap ||| (1#512 <<< i))).isNone then
      (s.moveLine id m i).commitMotion id (m.withLine i (s.moveLine id m i).cycle) else s.moveLine id m i) := by
  have harm : exec (.motionLineCopy id) s = execMotionLineCopy id s := rfl
  rw [harm, execMotionLineCopy, hm]
  refine (if_neg (by simp [hst])).trans ?_
  rw [hi]
  refine (if_neg (by rw [hsrc, hdst, hlost]; exact Bool.false_ne_true)).trans ?_
  dsimp only
  rw [hbad]
  rfl

theorem migDone_spec (s : State) (txn : Option Nat) (w : Nat) : (s.migDone txn w).motions = s.motions ∧
    (s.migDone txn w).parts = s.parts ∧ ∀ t, (nget? (s.migDone txn w).txns t).map Txn.op = (nget? s.txns t).map Txn.op := by
  unfold State.migDone
  split
  · exact ⟨rfl, rfl, fun _ => rfl⟩
  · refine ⟨rfl, rfl, fun t => ?_⟩
    rw [State.modTxn, nget?_nmod]
    split
    · rw [Option.map_map]
      rfl
    · rfl

/-- Where no arm waits on the page, the last line leaves the motion forwarding and sends the shoot-down. -/
theorem commitMotion_spec (harms : ∀ c ∈ s.clusters, ∀ a ∈ c.2.monitors, a.key / 2 ^ 16 ≠ m.src) :
    (nget? (s.commitMotion id m).motions id).map Motion.st = some .forwarding ∧
      (nget? (s.commitMotion id m).txns s.nextTxn).map Txn.op = some (.shoot m.vpn false) := by
  unfold State.commitMotion
  extract_lets mvG here s1 arms s2 s3 s4 moved e e' s5 s6 s7
  have hnone : arms = [] := List.flatMap_eq_nil_iff.mpr fun c hc => List.filter_eq_nil_iff.mpr fun a ha => by
    simpa using harms c hc a ha
  obtain ⟨hmotions, -, htxns⟩ := migDone_spec s7 m.txn 0
  rw [hmotions, htxns]
  clear_value arms
  subst hnone
  exact ⟨congrArg _ (nget?_nset_same ..), congrArg _ (nget?_nset_same ..)⟩

end Copy

/-! ### A motion ends before its time (R103) -/

section Abort

variable {s : State} {id : Nat} {m : Motion}

theorem exec_migrationAbort_budget (hm : nget? s.motions id = some m) (hst : m.st = .copying) (ht : m.began + 1750000 ≤ s.cycle) :
    exec (.migrationAbort id .budget) s = .next (s.abortMotion id m .budget) := by
  have harm : exec (.migrationAbort id .budget) s = execMigrationAbort id .budget s := rfl
  rw [harm, execMigrationAbort, hm]
  exact if_pos (by simp [hst, ht])

theorem exec_migrationAbort_destError (hm : nget? s.motions id = some m) (hst : m.st = .copying) :
    exec (.migrationAbort id .destError) s = .next (s.abortMotion id m .destError) := by
  have harm : exec (.migrationAbort id .destError) s = execMigrationAbort id .destError s := rfl
  rw [harm, execMigrationAbort, hm]
  exact if_pos (by simp [hst])

/-- Without a channel for them, migration records go to the event ring. -/
theorem migRecord_ring {p : Nat} (hh : (s.part p).mighand.toNat % 2 ^ 32 = 0) (bs : List Byte) :
    s.migRecord p bs = s.ringPart p (.migration bs) := by
  rw [State.migRecord, hh]
  rfl

/-- A motion in COPYING is taken out: MOT is cleared, and its destination is free again. -/
def State.dropMotion (s : State) (id : Nat) (m : Motion) : State :=
  (({ s with motions := ndel s.motions id } : State).pteBit m.leaf 6 0x40 false).modPart m.part fun q =>
    { q with used := q.used.filter (· != m.dst) }

theorem abortMotion_spec (id : Nat) (hst : m.st = .copying) (hh : (s.part m.part).mighand.toNat % 2 ^ 32 = 0) (c : AbortCause) :
    nget? (s.abortMotion id m c).motions id = none ∧
      ((s.abortMotion id m c).part m.part).ring = (s.part m.part).ring ++ [.migration (s.abortBytes m c)] := by
  have habort : s.abortMotion id m c =
      ((s.dropMotion id m).migRecord m.part (s.abortBytes m c)).migDone m.txn (1 + 256 * causeCode c) := by
    rw [State.abortMotion, if_pos hst]
    rfl
  have hpart : (s.dropMotion id m).part m.part = { s.part m.part with used := (s.part m.part).used.filter (· != m.dst) } :=
    State.part_setPart_same ..
  have hrec := migRecord_ring (s := s.dropMotion id m) (p := m.part) (by rw [hpart]; exact hh) (s.abortBytes m c)
  obtain ⟨hmotions, hparts, -⟩ := migDone_spec ((s.dropMotion id m).migRecord m.part (s.abortBytes m c)) m.txn (1 + 256 * causeCode c)
  rw [habort, State.part, hmotions, hparts, hrec, State.ringPart_eq]
  refine ⟨(nget?_ndel ..).trans (if_pos rfl), (congrArg Part.ring (State.part_setPart_same ..)).trans ?_⟩
  rw [hpart]

end Abort

/-! ### The obligation -/

/-- Settles O50: each event by its equation above, and what it wrote by the lemma on its operation. -/
theorem pageEvents : Obligations.PageEvents := by
  refine ⟨?walk, ?foreign, ?log, dropTlbs_spec, ?shoot, ?epoch, ?start, ?copy, ?abort⟩
  case walk =>
    intro s core k vpn e hk hcore hcluster hw hb
    obtain ⟨u, hl, hfind, hmem⟩ := lookup_walked hcore hcluster hw
    exact ⟨u, exec_pageWalk_found hk hb hl, hfind, hmem⟩
  case foreign =>
    intro s core k vpn f hk hcore hcluster hw hb
    obtain ⟨_, _, _, hcount⟩ := State.Counts.countWalk s (partOf k) vpn
    refine ⟨_, exec_pageWalk_unmapped hk hb (lookup_unmapped hcore hcluster hw), ?_, ?_⟩
    · rw [hcount]
    · rw [hcount]
  case log => exact fun s core h => ⟨_, exec_dirtyLogMerge h, mergeLog_spec s core⟩
  case shoot =>
    intro s t vpn deny x ht hop hsent
    refine ⟨exec_shootDownComplete_first ht hop hsent, fun hx hmarks => ?_⟩
    rw [exec_shootDownComplete_next ht hop hsent hx]
    refine ⟨fun v e he hb => ?_, fun hb hents => ⟨fun hh => ?_, fun hi hh => ?_⟩⟩
    · rw [shootStep_entry deny hmarks he hb]
    · rw [shootStep_held deny hmarks hb hents hh]
    · rw [shootStep_last deny hmarks hb hents hi hh]
  case epoch => exact fun s part q hq ht hauto hn => epochEnd_spec hq ht hauto hn
  case start =>
    intro s id k f eng m e hq hst hw hl hpin htier heng hk hf hb hmig hheap
    obtain ⟨u, hu, hbegun, hmem⟩ := startMove_begins hq hst hw hl hpin htier heng hk hf hb hheap
    refine ⟨u, exec_motionStart hq hst hmig hu, hbegun, ?_, fun a ha => ?_⟩
    · rw [hmem, readByte_writeByte_same]
    · rw [hmem, readByte_writeByte_other _ _ ha]
  case copy =>
    intro s id i m hm hst hi hsrc hdst hbad hlost b
    obtain ⟨hmem, hmotion, hclusters, hnext⟩ := moveLine_spec s id i m
    rw [exec_motionLineCopy hm hst hi hsrc hdst hbad hlost]
    refine ⟨fun hmore => ?_, fun hlast harms => ?_⟩
    · rw [if_neg (by simpa using hmore)]
      exact ⟨_, rfl, hmem, _, hmotion⟩
    · rw [if_pos (by simpa using hlast), ← hnext]
      exact ⟨_, rfl, commitMotion_spec (by rw [hclusters]; exact harms)⟩
  case abort =>
    intro s id m hm hst
    exact ⟨exec_migrationAbort_budget hm hst, exec_migrationAbort_destError hm hst, fun c hh => abortMotion_spec id hst hh c⟩

end Sys2Proof.Machine
end

section
/-! SUPPORT. The scheduler (O43): the queues and contexts of a core, the standby that a context takes, swaps, the grant of a gang and the
shipping of a process. -/

namespace Sys2Proof.Machine

/-! ### The contexts and the ready queues of a core (R132) -/

@[simp] theorem Core.ctx_setCtx_same (c : Core) (j : Nat) (x : Ctx) : (c.setCtx j x).ctx j = x := nget_nset_same ..
theorem Core.ctx_setCtx_other (c : Core) {i j : Nat} (x : Ctx) (h : i ≠ j) : (c.setCtx j x).ctx i = c.ctx i := nget_nset_other _ _ _ h
@[simp] theorem Core.queue_setCtx (c : Core) (j : Nat) (x : Ctx) (q : Nat) : (c.setCtx j x).queue q = c.queue q := rfl
@[simp] theorem Core.resv_setCtx (c : Core) (j : Nat) (x : Ctx) : (c.setCtx j x).resv = c.resv := rfl
@[simp] theorem Core.queue_setQueue_same (c : Core) (q : Nat) (l : List Nat) : (c.setQueue q l).queue q = l := nget_nset_same ..
theorem Core.queue_setQueue_other (c : Core) {p q : Nat} (l : List Nat) (h : p ≠ q) : (c.setQueue q l).queue p = c.queue p :=
  nget_nset_other _ _ _ h

section Queues

variable (s : State) (k : Nat) (head : Bool)

@[simp] theorem enqueue_mem : (s.enqueue k head).mem = s.mem := rfl
@[simp] theorem enqueue_proc (j : Nat) : (s.enqueue k head).proc j = s.proc j := rfl
@[simp] theorem dequeue_mem : (s.dequeue k).mem = s.mem := rfl
@[simp] theorem dequeue_proc (j : Nat) : (s.dequeue k).proc j = s.proc j := rfl

theorem core_enqueue (c : Nat) : (s.enqueue k head).core c = if c = (s.proc k).core then (s.core c).setQueue (s.proc k).prio
    (if head then k :: (s.core c).queue (s.proc k).prio else (s.core c).queue (s.proc k).prio ++ [k]) else s.core c := by
  rw [State.enqueue, State.modCore_eq, State.core_setCore]
  split
  · next h => rw [h]
  · rfl

theorem core_dequeue (c : Nat) : (s.dequeue k).core c = if c = (s.proc k).core then
    (s.core c).setQueue (s.proc k).prio (((s.core c).queue (s.proc k).prio).filter (· != k)) else s.core c := by
  rw [State.dequeue, State.modCore_eq, State.core_setCore]
  split
  · next h => rw [h]
  · rfl

/-- Queueing leaves the contexts, and the contexts kept for one process, as they are. -/
@[simp] theorem ctx_enqueue (c j : Nat) : ((s.enqueue k head).core c).ctx j = (s.core c).ctx j := by
  rw [core_enqueue]; split <;> rfl

@[simp] theorem resv_enqueue (c : Nat) : ((s.enqueue k head).core c).resv = (s.core c).resv := by
  rw [core_enqueue]; split <;> rfl

@[simp] theorem ctx_dequeue (c j : Nat) : ((s.dequeue k).core c).ctx j = (s.core c).ctx j := by
  rw [core_dequeue]; split <;> rfl

theorem queue_enqueue : ((s.enqueue k head).core (s.proc k).core).queue (s.proc k).prio =
    if head then k :: (s.core (s.proc k).core).queue (s.proc k).prio else (s.core (s.proc k).core).queue (s.proc k).prio ++ [k] := by
  rw [core_enqueue, if_pos rfl, Core.queue_setQueue_same]

theorem mem_queue_enqueue {c q : Nat} (hc : (s.proc k).core = c) (hq : (s.proc k).prio = q) :
    k ∈ ((s.enqueue k head).core c).queue q := by
  rw [← hc, ← hq, queue_enqueue]
  cases head <;> simp

theorem queue_dequeue : ((s.dequeue k).core (s.proc k).core).queue (s.proc k).prio =
    ((s.core (s.proc k).core).queue (s.proc k).prio).filter (· != k) := by
  rw [core_dequeue, if_pos rfl, Core.queue_setQueue_same]

theorem queue_dequeue_other {q : Nat} (c : Nat) (h : q ≠ (s.proc k).prio) :
    ((s.dequeue k).core c).queue q = (s.core c).queue q := by
  rw [core_dequeue]
  split
  · rw [Core.queue_setQueue_other _ _ h]
  · rfl

end Queues

/-! ### A standby that is displaced goes back to its queue (R133) -/

/-- The process in a standby slot, where there is one, is READY again, at the head of its queue. -/
def State.unslot (s : State) (o : Option Nat) : State :=
  match o with
  | some b => (s.modProc b fun p => { p with st := .ready }).enqueue b true
  | none => s

section Unslot

variable (s : State) (o : Option Nat)

@[simp] theorem unslot_mem : (s.unslot o).mem = s.mem := by cases o <;> rfl
@[simp] theorem ctx_unslot (c j : Nat) : ((s.unslot o).core c).ctx j = (s.core c).ctx j := by cases o <;> simp [State.unslot]
@[simp] theorem resv_unslot (c : Nat) : ((s.unslot o).core c).resv = (s.core c).resv := by cases o <;> simp [State.unslot]

theorem proc_unslot (i : Nat) : (s.unslot o).proc i = if o = some i then { s.proc i with st := .ready } else s.proc i := by
  cases o with
  | none => rfl
  | some b =>
    by_cases h : i = b
    · subst h
      simp [State.unslot]
    · simp [State.unslot, State.proc_setProc_other _ _ _ h, Ne.symm h]

@[simp] theorem unslot_prio (i : Nat) : ((s.unslot o).proc i).prio = (s.proc i).prio := by rw [proc_unslot]; split <;> rfl
@[simp] theorem unslot_core (i : Nat) : ((s.unslot o).proc i).core = (s.proc i).core := by rw [proc_unslot]; split <;> rfl
@[simp] theorem unslot_ctx (i : Nat) : ((s.unslot o).proc i).ctx = (s.proc i).ctx := by rw [proc_unslot]; split <;> rfl

theorem queue_unslot (b : Nat) : ((s.unslot (some b)).core (s.proc b).core).queue (s.proc b).prio =
    b :: (s.core (s.proc b).core).queue (s.proc b).prio := by
  have h := queue_enqueue (s.modProc b fun p => { p with st := .ready }) b true
  simp only [State.modProc_eq, State.proc_setProc_same, if_true] at h
  exact h

end Unslot

/-! ### STANDBY_LOAD (R133) -/

theorem loadStandby_eq (s : State) (core ctx k : Nat) : s.loadStandby core ctx k =
    (((s.unslot ((s.core core).ctx ctx).standby).dequeue k).modProc k fun p => { p with st := .standby }).modCore core
      fun c => c.setCtx ctx { c.ctx ctx with standby := some k, loaded := true } := by
  unfold State.loadStandby State.unslot
  rfl

/-- What a fold that keeps or replaces its choice ends with is a member of the list. -/
theorem mem_of_foldl_choice {α : Type} {f : Option α → α → Option α} (hf : ∀ o a, f o a = some a ∨ f o a = o) {l : List α}
    {o : Option α} {r : α} (h : l.foldl f o = some r) : r ∈ l ∨ o = some r := by
  induction l generalizing o with
  | nil => exact .inr h
  | cons a l ih =>
    obtain hr | hr := ih h
    · exact .inl (List.mem_cons_of_mem _ hr)
    · obtain ho | ho := hf o a
      · rw [ho] at hr
        cases hr
        exact .inl (List.mem_cons_self ..)
      · exact .inr (ho ▸ hr)

/-- `ContextFor` never names a context whose standby is as high as the process. -/
theorem standbyBelow_of_contextFor {s : State} {core k ctx : Nat} (h : contextFor s core k = some ctx) :
    standbyBelow s ((s.core core).ctx ctx) (s.proc k).prio = true := by
  unfold contextFor at h
  dsimp only at h
  split at h
  case h_1 j _ _ hfree =>
    cases h
    have := List.find?_some hfree
    simp only [Bool.and_eq_true] at this
    exact this.1.2
  case h_2 b _ hbest =>
    cases h
    obtain hb | hb := mem_of_foldl_choice (fun o a => by
      cases o with
      | none => exact .inl rfl
      | some b => dsimp only; split <;> simp) hbest
    · obtain ⟨j, -, hj⟩ := List.mem_filterMap.1 hb
      cases hrun : ((s.core core).ctx j).run with
      | none => simp only [hrun, reduceCtorEq] at hj
      | some r =>
        simp only [hrun, Option.ite_none_right_eq_some, Bool.and_eq_true, Option.some.injEq] at hj
        obtain ⟨⟨-, hbelow⟩, rfl⟩ := hj
        exact hbelow
    · cases hb
  case h_3 =>
    have := List.find?_some h
    split at this
    · simp only [Bool.and_eq_true, Option.isNone_iff_eq_none] at this
      simp [standbyBelow, this.2]
    · cases this

theorem exec_standbyLoad {s : State} {core ctx k : Nat} (hk : highestQueued s (s.core core) = some k)
    (hc : contextFor s core k = some ctx) : exec (.standbyLoad core ctx) s = .next (s.loadStandby core ctx k) := by
  have harm : exec (.standbyLoad core ctx) s = execStandbyLoad core ctx s := rfl
  simp only [harm, execStandbyLoad, hk, if_pos hc]

theorem loadStandby_spec (s : State) (core ctx k : Nat) (hk : (s.proc k).core = core) :
    let u := s.loadStandby core ctx k
    ((u.core core).ctx ctx).standby = some k ∧ ((u.core core).ctx ctx).loaded = true ∧ (u.proc k).st = .standby ∧
      k ∉ (u.core core).queue (s.proc k).prio ∧ u.mem = s.mem := by
  dsimp only
  rw [loadStandby_eq]
  refine ⟨by simp, by simp, by simp, ?_, by simp⟩
  have hq := queue_dequeue (s.unslot ((s.core core).ctx ctx).standby) k
  simp only [unslot_core, unslot_prio, hk] at hq
  simp [hq]

/-- A standby of another priority that is displaced is READY, at the head of its queue. -/
theorem loadStandby_displaces {s : State} {core ctx k b : Nat} (hb : ((s.core core).ctx ctx).standby = some b)
    (hcore : (s.proc b).core = core) (hprio : (s.proc b).prio ≠ (s.proc k).prio) :
    let u := s.loadStandby core ctx k
    (u.proc b).st = .ready ∧ (u.core core).queue (s.proc b).prio = b :: (s.core core).queue (s.proc b).prio := by
  have hne : b ≠ k := fun h => hprio (by rw [h])
  dsimp only
  rw [loadStandby_eq, hb]
  constructor
  · simp [State.proc_setProc_other _ _ _ hne, proc_unslot]
  · have hq := queue_dequeue_other (s.unslot (some b)) k core (q := (s.proc b).prio) (by simpa using hprio)
    have hu := queue_unslot s b
    rw [hcore] at hu
    simp [hq, hu]

theorem standbyLoad_spec {s : State} {core ctx k : Nat} (hk : highestQueued s (s.core core) = some k)
    (hc : contextFor s core k = some ctx) (hcore : (s.proc k).core = core) :
    ∃ u : State, exec (.standbyLoad core ctx) s = .next u ∧ ((u.core core).ctx ctx).standby = some k ∧
      ((u.core core).ctx ctx).loaded = true ∧ (u.proc k).st = .standby ∧ k ∉ (u.core core).queue (s.proc k).prio ∧ u.mem = s.mem ∧
      ∀ b, ((s.core core).ctx ctx).standby = some b → (s.proc b).core = core →
        (u.proc b).st = .ready ∧ (u.core core).queue (s.proc b).prio = b :: (s.core core).queue (s.proc b).prio := by
  obtain ⟨hslot, hloaded, hst, hqueue, hmem⟩ := loadStandby_spec s core ctx k hcore
  refine ⟨_, exec_standbyLoad hk hc, hslot, hloaded, hst, hqueue, hmem, fun b hb hbc => loadStandby_displaces hb hbc ?_⟩
  have hbelow := standbyBelow_of_contextFor hc
  simp only [standbyBelow, hb, decide_eq_true_eq] at hbelow
  exact hbelow.ne

/-! ### QUANTUM_DUE (R134) -/

theorem exec_quantumDue {s : State} {core ctx r : Nat} (hr : ((s.core core).ctx ctx).run = some r) (hg : (s.proc r).gang = 0)
    (hst : (s.proc r).st ≠ .stopped) (ht : 64 ≤ ((s.core core).ctx ctx).turns)
    (hw : equalWaits s core ((s.core core).ctx ctx) r = true) :
    exec (.quantumDue core ctx) s = .next (s.modCore core fun c => c.setCtx ctx { c.ctx ctx with due := true }) := by
  have harm : exec (.quantumDue core ctx) s = execQuantumDue core ctx s := rfl
  simp [harm, execQuantumDue, hr, quantumDue, hg, ht, hw, State.isStopped, hst]

/-! ### Swaps (R132, R133, R179) -/

theorem exec_contextSwap {s : State} {core ctx : Nat} (ht : s.cycle % 8 = ctx) (h : swapNow s core ctx = true) :
    exec (.contextSwap core ctx) s = .next (s.swap core ctx) := by
  have harm : exec (.contextSwap core ctx) s = execContextSwap core ctx s := rfl
  rw [harm, execContextSwap, if_pos ⟨ht, h⟩]

section Swap

variable {s : State} {core ctx b : Nat} (hb : ((s.core core).ctx ctx).standby = some b)
  (hl : ((s.core core).ctx ctx).loaded = true) (hs : ((s.core core).ctx ctx).swapping = false) (hst : (s.proc b).st ≠ .stopped)

theorem gangWaits_of_no_forming (h : ∀ g ∈ s.gangs, g.2.st ≠ .forming) (clu prio : Nat) : gangWaits s clu prio = false := by
  simp only [gangWaits, List.any_eq_false, Bool.and_eq_true, beq_iff_eq]
  exact fun e he hc => h e he hc.1.1

include hb hl hs hst

theorem swapNow_of_idle (hr : ((s.core core).ctx ctx).run = none) (hg : ∀ g ∈ s.gangs, g.2.st ≠ .forming)
    (hw : ∀ k, ((s.core core).ctx ctx).writing = some k → s.vecWaits k = false) : swapNow s core ctx = true := by
  cases hwr : ((s.core core).ctx ctx).writing with
  | none => simp [swapNow, hb, hl, hs, hr, State.isStopped, hst, gangWaits_of_no_forming hg, hwr]
  | some k => simp [swapNow, hb, hl, hs, hr, State.isStopped, hst, gangWaits_of_no_forming hg, hwr, hw k hwr]

/-- The process that holds a context leaves it to a standby of higher priority, or to any once its quantum is due. -/
theorem swapNow_of_displaced {r : Nat} (hr : ((s.core core).ctx ctx).run = some r) (hg : (s.proc r).gang = 0)
    (hv : (s.proc r).vPend = []) (hrun : (s.proc r).st = .running)
    (hd : (s.proc r).prio < (s.proc b).prio ∨ ((s.core core).ctx ctx).due = true) : swapNow s core ctx = true := by
  simpa [swapNow, hb, hl, hs, hr, State.isStopped, hst, State.vecWaits, hg, hv, hrun, quantumDue] using hd.imp_right .inl

end Swap

/-- A swap that displaces nobody. -/
theorem swap_of_idle {s : State} {core ctx : Nat} (hr : ((s.core core).ctx ctx).run = none) : s.swap core ctx =
    s.modCore core fun c => c.setCtx ctx { c.ctx ctx with swapping := true, since := s.cycle, due := false } := by
  simp only [State.swap, hr]

/-- The process of a context leaves it and is queued again. -/
def State.displace (s : State) (r : Nat) (head : Bool) : State :=
  ((s.leaveCtx r).modProc r fun p => { p with st := .ready }).enqueue r head

@[simp] theorem queue_leaveCtx (s : State) (k c q : Nat) : ((s.leaveCtx k).core c).queue q = (s.core c).queue q := by
  unfold State.leaveCtx
  dsimp only
  split
  · rfl
  · rw [State.modProc_eq, State.setProc_core, State.modCore_eq, State.core_setCore]
    split
    · next h => rw [h, Core.queue_setCtx]
    · rfl

theorem proc_leaveCtx (s : State) (k : Nat) : (s.leaveCtx k).proc k = { s.proc k with ctx := none } := by
  unfold State.leaveCtx
  dsimp only
  split
  · next h => rw [← h]
  · simp

theorem displace_spec (s : State) (r : Nat) (head : Bool) :
    ((s.displace r head).proc r).st = .ready ∧ ((s.displace r head).proc r).ctx = none ∧
      ((s.displace r head).core (s.proc r).core).queue (s.proc r).prio =
        if head then r :: (s.core (s.proc r).core).queue (s.proc r).prio else (s.core (s.proc r).core).queue (s.proc r).prio ++ [r] := by
  refine ⟨by simp [State.displace], by simp [State.displace, proc_leaveCtx], ?_⟩
  have h := queue_enqueue ((s.leaveCtx r).modProc r fun p => { p with st := .ready }) r head
  simpa [State.displace, proc_leaveCtx] using h

/-- A swap that displaces a running process: it goes ahead of the queue of its priority where it makes way for a higher one. -/
theorem swap_of_running {s : State} {core ctx r b : Nat} (hr : ((s.core core).ctx ctx).run = some r)
    (hb : ((s.core core).ctx ctx).standby = some b) (hrun : (s.proc r).st = .running) :
    ∃ n, s.swap core ctx = (s.displace r (decide ((s.proc r).prio < (s.proc b).prio))).modCore core fun c =>
      c.setCtx ctx { c.ctx ctx with swapping := true, since := n, due := false } := by
  refine ⟨(s.displace r (decide ((s.proc r).prio < (s.proc b).prio))).cycle, ?_⟩
  simp only [State.swap, hr, hb, if_pos (Or.inl hrun)]
  rfl

theorem contextSwap_idle {s : State} {core ctx b : Nat} (ht : s.cycle % 8 = ctx) (hb : ((s.core core).ctx ctx).standby = some b)
    (hl : ((s.core core).ctx ctx).loaded = true) (hs : ((s.core core).ctx ctx).swapping = false) (hst : (s.proc b).st ≠ .stopped)
    (hr : ((s.core core).ctx ctx).run = none) (hg : ∀ g ∈ s.gangs, g.2.st ≠ .forming)
    (hw : ∀ k, ((s.core core).ctx ctx).writing = some k → s.vecWaits k = false) :
    ∃ u : State, exec (.contextSwap core ctx) s = .next u ∧ ((u.core core).ctx ctx).swapping = true ∧
      ((u.core core).ctx ctx).since = s.cycle ∧ u.procs = s.procs := by
  refine ⟨_, exec_contextSwap ht (swapNow_of_idle hb hl hs hst hr hg hw), ?_⟩
  rw [swap_of_idle hr]
  simp

theorem contextSwap_displaces {s : State} {core ctx b r : Nat} (ht : s.cycle % 8 = ctx)
    (hb : ((s.core core).ctx ctx).standby = some b) (hl : ((s.core core).ctx ctx).loaded = true)
    (hs : ((s.core core).ctx ctx).swapping = false) (hst : (s.proc b).st ≠ .stopped) (hr : ((s.core core).ctx ctx).run = some r)
    (hc : (s.proc r).core = core) (hg : (s.proc r).gang = 0) (hv : (s.proc r).vPend = []) (hrun : (s.proc r).st = .running)
    (hd : (s.proc r).prio < (s.proc b).prio ∨ ((s.core core).ctx ctx).due = true) :
    ∃ u : State, exec (.contextSwap core ctx) s = .next u ∧ ((u.core core).ctx ctx).swapping = true ∧ (u.proc r).st = .ready ∧
      (u.proc r).ctx = none ∧ (u.core core).queue (s.proc r).prio =
        if (s.proc r).prio < (s.proc b).prio then r :: (s.core core).queue (s.proc r).prio
        else (s.core core).queue (s.proc r).prio ++ [r] := by
  obtain ⟨n, hswap⟩ := swap_of_running hr hb hrun
  obtain ⟨hready, hctx, hqueue⟩ := displace_spec s r (decide ((s.proc r).prio < (s.proc b).prio))
  refine ⟨_, exec_contextSwap ht (swapNow_of_displaced hb hl hs hst hr hg hv hrun hd), ?_⟩
  rw [hswap]
  rw [hc] at hqueue
  simp only [decide_eq_true_eq] at hqueue
  simp [hready, hctx, hqueue]

theorem setSt_of_live {p : Proc} (h : p.st ≠ .stopped) (st : PState) : p.setSt st = { p with st := st } := if_neg h

theorem swapComplete_spec {s : State} {core ctx k : Nat} (hk : ((s.core core).ctx ctx).standby = some k)
    (hs : ((s.core core).ctx ctx).swapping = true) (ht : ((s.core core).ctx ctx).since + 3 ≤ s.cycle) (hst : (s.proc k).st = .standby) :
    ∃ u : State, exec (.swapComplete core ctx) s = .next u ∧ ((u.core core).ctx ctx).run = some k ∧
      ((u.core core).ctx ctx).standby = none ∧ ((u.core core).ctx ctx).swapping = false ∧ (u.proc k).ctx = some ctx ∧
      (u.proc k).st = (if (s.proc k).hold.isSome then PState.parked else PState.running) ∧ (u.proc k).pc = (s.proc k).pc ∧
      u.mem = s.mem := by
  have harm : exec (.swapComplete core ctx) s = execSwapComplete core ctx s := rfl
  have hgo : (((s.core core).ctx ctx).swapping && decide (((s.core core).ctx ctx).since + 3 ≤ s.cycle)) = true := by simp [hs, ht]
  have hlive : (s.proc k).st ≠ .stopped := by simp [hst]
  rw [harm]
  simp only [execSwapComplete, hk, if_pos hgo]
  refine ⟨_, rfl, by simp, by simp, by simp, by simp, ?_, by simp [setSt_of_live hlive], by simp⟩
  simp only [State.modProc_eq, State.proc_setProc_same, State.modCore_eq, State.setCore_proc, setSt_of_live hlive]
  rfl

theorem exec_registerImageWriteEnd {s : State} {core ctx k : Nat} (hk : ((s.core core).ctx ctx).writing = some k)
    (hv : s.vecWaits k = false) : exec (.registerImageWriteEnd core ctx) s =
      .next ((s.writeImg k).modCore core fun c => c.setCtx ctx { c.ctx ctx with writing := none }) := by
  have harm : exec (.registerImageWriteEnd core ctx) s = execRegisterImageWriteEnd core ctx s := rfl
  simp [harm, execRegisterImageWriteEnd, hk, hv]

/-! ### GANG_GRANT (R121) -/

/-- How many contexts of a core a gang of a priority may take. -/
def freeCount (s : State) (prio core : Nat) : Nat := ((List.range 8).filter (freeForGang s prio core)).length

/-- What each grant of a context leaves of the processes: their priorities, their cores, and the contexts of those that hold one. -/
structure Granting (s u : State) : Prop where
  prio : ∀ i, (u.proc i).prio = (s.proc i).prio
  core : ∀ i, (u.proc i).core = (s.proc i).core
  ctx : ∀ i, (s.proc i).ctx.isSome = true → (u.proc i).ctx.isSome = true

theorem Granting.refl (s : State) : Granting s s := ⟨fun _ => rfl, fun _ => rfl, fun _ => id⟩

theorem Granting.trans {s t u : State} (h : Granting s t) (g : Granting t u) : Granting s u where
  prio i := (g.prio i).trans (h.prio i)
  core i := (g.core i).trans (h.core i)
  ctx i := g.ctx i ∘ h.ctx i

theorem Granting.gangPrio {s u : State} (h : Granting s u) (g : Gang) : gangPrio u g = gangPrio s g := by
  simp only [Machine.gangPrio, h.prio]

/-- A member as it stands in the context granted to it. -/
def Proc.granted (p : Proc) (j now : Nat) : Proc :=
  { p with
    st := if p.st = .new ∨ p.st = .ready then (if p.hold.isSome then PState.parked else PState.running) else p.st
    ctx := some j, started := true, landed := now + 1, wkind := if p.wkind = .gang then .none else p.wkind }

/-- A member takes a context of its core, whose standby goes back to its queue. -/
def State.grant (s : State) (k j n now : Nat) : State :=
  ((s.unslot ((s.core (s.proc k).core).ctx j).standby).modCore (s.proc k).core fun c =>
    c.setCtx j { run := some k, since := n }).modProc k fun p => p.granted j now

theorem grantMember_eq {s : State} {prio k j : Nat} (hj : (List.range 8).find? (freeForGang s prio (s.proc k).core) = some j) :
    ∃ n now, s.grantMember prio k = some (s.grant k j n now) := by
  simp only [State.grantMember, hj]
  exact ⟨_, _, rfl⟩

section Grant

variable (s : State) (k j n now : Nat)

theorem proc_grant (i : Nat) : (s.grant k j n now).proc i =
    if i = k then ((s.unslot ((s.core (s.proc k).core).ctx j).standby).proc i).granted j now
    else (s.unslot ((s.core (s.proc k).core).ctx j).standby).proc i := by
  simp only [State.grant, State.modProc_eq, State.proc_setProc, State.modCore_eq, State.setCore_proc]
  split
  · next h => rw [h]
  · rfl

theorem grant_ctx_isSome : ((s.grant k j n now).proc k).ctx.isSome = true := by
  rw [proc_grant, if_pos rfl]
  rfl

theorem grant_granting : Granting s (s.grant k j n now) where
  prio i := by rw [proc_grant]; split <;> simp [Proc.granted]
  core i := by rw [proc_grant]; split <;> simp [Proc.granted]
  ctx i hi := by rw [proc_grant]; split <;> simp [Proc.granted, hi]

variable {s k j n now}

/-- Every other context may be granted as before. -/
theorem freeForGang_grant {prio core i : Nat} (h : core = (s.proc k).core → i ≠ j) :
    freeForGang (s.grant k j n now) prio core i = freeForGang s prio core i := by
  have hprio := (grant_granting s k j n now).prio
  have hcore : ((s.grant k j n now).core core).ctx i = (s.core core).ctx i ∧
      ((s.grant k j n now).core core).resv = (s.core core).resv := by
    simp only [State.grant, State.modProc_eq, State.setProc_core, State.modCore_eq, State.core_setCore]
    split
    · next hc =>
      rw [hc, Core.ctx_setCtx_other _ _ (h hc)]
      simp
    · simp
  simp only [freeForGang, standbyBelow, hcore, hprio]

/-- A grant takes at most one of the contexts that may be granted, on the member's core. -/
theorem freeCount_grant (prio core : Nat) :
    freeCount s prio core ≤ freeCount (s.grant k j n now) prio core + (if core = (s.proc k).core then 1 else 0) := by
  split
  · have hsub : (List.range 8).filter (freeForGang s prio core) ⊆
        j :: (List.range 8).filter (freeForGang (s.grant k j n now) prio core) := by
      intro i hi
      obtain ⟨hr, hf⟩ := List.mem_filter.1 hi
      by_cases hij : i = j
      · exact List.mem_cons.2 (.inl hij)
      · exact List.mem_cons_of_mem _ (List.mem_filter.2 ⟨hr, by rw [freeForGang_grant fun _ => hij, hf]⟩)
    exact (List.subperm_of_subset (List.nodup_range.filter _) hsub).length_le
  · next hc =>
    simp only [freeCount]
    exact (congrArg List.length (List.filter_congr fun i _ => (freeForGang_grant fun h => absurd h hc).symm)).le

end Grant

theorem grantMember_of_free {s : State} {prio k : Nat} (h : 0 < freeCount s prio (s.proc k).core) :
    ∃ j n now, s.grantMember prio k = some (s.grant k j n now) := by
  obtain ⟨i, hi⟩ := List.exists_mem_of_length_pos h
  obtain ⟨hr, hf⟩ := List.mem_filter.1 hi
  obtain ⟨j, hj⟩ := Option.isSome_iff_exists.1 (List.find?_isSome.2 ⟨i, hr, hf⟩)
  exact ⟨j, grantMember_eq hj⟩

/-- Members for whom their cores have contexts enough all take one. -/
theorem grants_of_room (g : Gang) (l : List Nat) (s : State)
    (h : ∀ core, (l.filter fun k => (s.proc k).core == core).length ≤ freeCount s (gangPrio s g) core) :
    ∃ u, l.foldl (fun (a : Option State) k => a.bind fun s => s.grantMember (gangPrio s g) k) (some s) = some u ∧ Granting s u ∧
      ∀ k ∈ l, (u.proc k).ctx.isSome = true := by
  induction l generalizing s with
  | nil => exact ⟨s, rfl, .refl s, by simp⟩
  | cons k l ih =>
    have hk : 0 < freeCount s (gangPrio s g) (s.proc k).core := by
      have := h (s.proc k).core
      simp only [List.filter_cons, beq_self_eq_true, if_true, List.length_cons] at this
      omega
    obtain ⟨j, n, now, hgrant⟩ := grantMember_of_free hk
    have hkeep := grant_granting s k j n now
    obtain ⟨u, hu, hgr, hall⟩ := ih (s.grant k j n now) fun core => by
      have hc := h core
      have hf := freeCount_grant (s := s) (k := k) (j := j) (n := n) (now := now) (gangPrio s g) core
      simp only [hkeep.core, hkeep.gangPrio]
      by_cases hcore : (s.proc k).core = core
      · simp [hcore] at hc hf
        omega
      · simp [hcore, Ne.symm hcore] at hc hf
        omega
    refine ⟨u, by simpa [hgrant] using hu, hkeep.trans hgr, fun i hi => ?_⟩
    obtain rfl | hi := List.mem_cons.1 hi
    · exact hgr.ctx i (grant_ctx_isSome s i j n now)
    · exact hall i hi

theorem exec_gangGrant {s t : State} {gang : Nat} {g : Gang} (hg : nget? s.gangs gang = some g) (hst : g.st = .forming)
    (hfirst : ∀ e ∈ s.gangs, e.1 ≠ gang → e.2.st = .forming → e.2.cluster = g.cluster → g.order < e.2.order)
    (hstop : ∀ k ∈ g.members, (s.proc k).st ≠ .stopped) (hhalt : s.halted g.part = false) (ht : s.grantGang g = some t) :
    exec (.gangGrant gang) s = .next { t with gangs := nset t.gangs gang { g with st := .running } } := by
  have harm : exec (.gangGrant gang) s = execGangGrant gang s := rfl
  have hall : (s.gangs.all fun e => e.1 == gang || e.2.st != .forming || e.2.cluster != g.cluster || decide (g.order < e.2.order))
      = true := by
    simp only [List.all_eq_true, Bool.or_eq_true, beq_iff_eq, bne_iff_ne, decide_eq_true_eq]
    intro e he
    have := hfirst e he
    tauto
  have hany : (g.members.any s.isStopped) = false := by
    simpa [State.isStopped] using hstop
  rw [harm]
  simp only [execGangGrant, hg, hst, hall, hany, hhalt, ht]
  rfl

theorem gangGrant_spec {s : State} {gang : Nat} {g : Gang} (hg : nget? s.gangs gang = some g) (hst : g.st = .forming)
    (hfirst : ∀ e ∈ s.gangs, e.1 ≠ gang → e.2.st = .forming → e.2.cluster = g.cluster → g.order < e.2.order)
    (hstop : ∀ k ∈ g.members, (s.proc k).st ≠ .stopped) (hhalt : s.halted g.part = false)
    (hroom : ∀ core, (g.members.filter fun k => (s.proc k).st != .exited && (s.proc k).core == core).length ≤
      freeCount s (gangPrio s g) core) :
    ∃ u : State, exec (.gangGrant gang) s = .next u ∧ (nget? u.gangs gang).map Gang.st = some .running ∧
      ∀ k ∈ g.members, (s.proc k).st ≠ .exited → (u.proc k).ctx.isSome = true := by
  obtain ⟨t, ht, -, hall⟩ := grants_of_room g (g.members.filter fun k => (s.proc k).st != .exited) s fun core => by
    simpa [List.filter_filter, Bool.and_comm] using hroom core
  refine ⟨_, exec_gangGrant hg hst hfirst hstop hhalt ht, by simp [nget?_nset_same], fun k hk hx => ?_⟩
  exact hall k (List.mem_filter.2 ⟨hk, by simpa using hx⟩)

/-! ### WORK_STEAL_ROUND (R136 to R138) -/

theorem mem_clustersOf {m : BitVec 64} {c : Nat} : c ∈ clustersOf m ↔ c < 64 ∧ m.getLsbD c = true := by
  simp [clustersOf]

/-- The one partition, which is not its own parent, runs on every cluster it has. -/
theorem mem_ownClusters_of_alone {s : State} {part c : Nat} {q : Part} (hp : s.parts = [(part, q)]) (hq : q.parent ≠ some part)
    (hc : c < 64) (hb : q.clusters.getLsbD c = true) : (ownClusters s part).contains c = true := by
  have hpart : s.part part = q := by simp [State.part, nget, nget?, hp]
  rw [List.contains_iff_mem, ownClusters, hpart, List.mem_filter, mem_clustersOf]
  simp [hp, hc, hb, hq]

@[simp] theorem spadCopy_proc (s : State) (inst core k : Nat) : (s.spadCopy inst core).proc k = s.proc k := by
  unfold State.spadCopy
  dsimp only
  split
  · rfl
  · split <;> rfl

/-- A process that is shipped stands on its new core, in the queue of its priority there. -/
theorem ship_spec (s : State) (k core : Nat) : ((s.ship k core).proc k).core = core ∧ ((s.ship k core).proc k).st = (s.proc k).st ∧
    k ∈ ((s.ship k core).core core).queue (s.proc k).prio := by
  refine ⟨by simp [State.ship], by simp [State.ship], ?_⟩
  exact mem_queue_enqueue _ k false (by simp) (by simp)

/-- A round whose next victim has one process that may be shipped (R136). -/
theorem exec_workStealRound {s : State} {clu part k d : Nat} {q : Part} {l : List Nat} (hp : s.parts = [(part, q)])
    (hq : q.parent ≠ some part) (hclu : clu < 64) (hown : q.clusters.getLsbD clu = true)
    (hnext : q.clusters.getLsbD ((clu + 1) % 64) = true) (htime : (s.cluster clu).nextSteal ≤ s.cycle)
    (hidle : (coresIn clu).filter (fun c => 0 < idleCtx (s.core c)) = d :: l) (hbusy : ∀ c ∈ coresIn clu, shipOrder (s.core c) = [])
    (hship : ((coresIn ((clu + 1) % 64)).flatMap fun c => shipOrder ((s.refill c 4096).core c)).filter (mayShip s part clu) = [k]) :
    exec (.workStealRound clu) s = .next (s.ship k d) := by
  have harm : exec (.workStealRound clu) s = execWorkStealRound clu s := rfl
  have hany : ((coresIn clu).any fun c => shipOrder (s.core c) != []) = false := by simpa using hbusy
  have hstart : ¬ ((d :: l : List Nat) = [] ∨ false = true ∨ s.cycle < (s.cluster clu).nextSteal) := by simpa using htime
  have hmine := mem_ownClusters_of_alone hp hq hclu hown
  have hhers := mem_ownClusters_of_alone hp hq (Nat.mod_lt _ (by decide)) hnext
  have hvictims : (List.range 63).map (fun j => (clu + 1 + j) % 64) =
      (clu + 1) % 64 :: ((List.range 62).map Nat.succ).map fun j => (clu + 1 + j) % 64 := by
    rw [List.range_succ_eq_map]
    rfl
  rw [harm]
  simp only [execWorkStealRound, hidle, hany, if_neg hstart, hp, List.filter_cons, hmine, List.filter_nil, if_true, hvictims,
    List.findSome?_cons, hhers, hship]
  rfl

theorem workStealRound_spec {s : State} {clu part k d : Nat} {q : Part} {l : List Nat} (hp : s.parts = [(part, q)])
    (hq : q.parent ≠ some part) (hclu : clu < 64) (hown : q.clusters.getLsbD clu = true)
    (hnext : q.clusters.getLsbD ((clu + 1) % 64) = true) (htime : (s.cluster clu).nextSteal ≤ s.cycle)
    (hidle : (coresIn clu).filter (fun c => 0 < idleCtx (s.core c)) = d :: l) (hbusy : ∀ c ∈ coresIn clu, shipOrder (s.core c) = [])
    (hship : ((coresIn ((clu + 1) % 64)).flatMap fun c => shipOrder ((s.refill c 4096).core c)).filter (mayShip s part clu) = [k]) :
    ∃ u : State, exec (.workStealRound clu) s = .next u ∧ (u.proc k).core = d ∧ (u.proc k).st = .new ∧
      k ∈ (u.core d).queue (s.proc k).prio := by
  obtain ⟨hcore, hst, hqueue⟩ := ship_spec s k d
  have hmay : mayShip s part clu k = true := (List.mem_filter.1 (hship ▸ List.mem_singleton_self k)).2
  have hnew : (s.proc k).st = .new := by
    simp only [mayShip, Bool.and_eq_true, beq_iff_eq] at hmay
    tauto
  exact ⟨_, exec_workStealRound hp hq hclu hown hnext htime hidle hbusy hship, hcore, hst.trans hnew, hqueue⟩

/-! ### The obligation -/

/-- Settles O43: the grant of a gang by `grants_of_room`, along the members in their order; each other clause is one event of the scheduler.
That a standby of the same priority makes a quantum due, and the order in which a steal asks its victims, are the model's choices (log
entries 91 and 57). -/
theorem schedulerSwaps : Obligations.SchedulerSwaps :=
  ⟨fun _ _ _ _ hk hc hcore => standbyLoad_spec hk hc hcore,
    fun _ _ _ _ hr hg hst ht hw => exec_quantumDue hr hg hst ht hw,
    fun _ _ _ _ ht hb hl hs hst => ⟨contextSwap_idle ht hb hl hs hst, fun _ hr hc _ hg hv hrun hd =>
      contextSwap_displaces ht hb hl hs hst hr hc hg hv hrun hd⟩,
    fun _ _ _ _ hk hs ht hst => swapComplete_spec hk hs ht hst,
    fun _ _ _ _ hk hv => exec_registerImageWriteEnd hk hv,
    fun _ _ _ hg hst hfirst hstop hhalt _ hroom => gangGrant_spec hg hst hfirst hstop hhalt hroom,
    fun _ _ _ _ _ _ _ hp hq hclu hown hnext htime hidle hbusy hship =>
      workStealRound_spec hp hq hclu hown hnext htime hidle hbusy hship⟩

end Sys2Proof.Machine
end

section
/-! SUPPORT. Channels and the tree (O41): a send that is alone at HOME, the end of a register transfer, and the walkers. -/

namespace Sys2Proof.Machine

/-! ### A channel after an update of one channel -/

@[simp] theorem chan?_setChan_same (s : State) (part ch : Nat) (c : Chan) : (s.setChan part ch c).chan? part ch = some c := by
  simp [State.chan?, nget?_nset_same]

theorem chan?_modChan_same (s : State) (part ch : Nat) (f : Chan → Chan) :
    (s.modChan part ch f).chan? part ch = (s.chan? part ch).map f := by
  simp [State.chan?, nget?_nmod]

theorem chan?_modChan_other (s : State) {p j part ch : Nat} (f : Chan → Chan) (h : ¬ (part = p ∧ ch = j)) :
    (s.modChan p j f).chan? part ch = s.chan? part ch := by
  simp only [State.chan?, State.modChan_eq, State.part_setPart]
  split
  · next hp =>
    subst hp
    have hj : ch ≠ j := fun hj => h ⟨rfl, hj⟩
    simp [nget?_nmod, hj]
  · rfl

@[simp] theorem chanTy_modChan (s : State) (p j : Nat) (f : Chan → Chan) (part : Nat) (c : Chan) :
    chanTy (s.modChan p j f) part c = chanTy s part c := by
  simp only [chanTy, State.modChan_eq, State.part_setPart]
  split
  · next hp => rw [hp]
  · rfl

@[simp] theorem chanTy_setChan (s : State) (p j : Nat) (c' : Chan) (part : Nat) (c : Chan) :
    chanTy (s.setChan p j c') part c = chanTy s part c := by
  simp only [chanTy, State.setChan_eq, State.part_setPart]
  split
  · next hp => rw [hp]
  · rfl

/-! ### Nobody waits for a guard (R131) -/

theorem mem_of_mem_nset {α : Type} {m : NMap α} {k : Nat} {a : α} {e : Nat × α} (h : e ∈ nset m k a) : e = (k, a) ∨ e ∈ m := by
  induction m with
  | nil => exact .inl (by simpa [nset] using h)
  | cons d m ih =>
    obtain ⟨j, b⟩ := d
    unfold nset at h
    split at h
    · simpa using h
    · split at h
      · obtain rfl | h := List.mem_cons.1 h
        · exact .inl rfl
        · exact .inr (List.mem_cons_of_mem _ h)
      · obtain rfl | h := List.mem_cons.1 h
        · exact .inr (List.mem_cons_self ..)
        · exact (ih h).imp_right (List.mem_cons_of_mem _)

theorem mem_of_mem_ndel {α : Type} {m : NMap α} {k : Nat} {e : Nat × α} (h : e ∈ ndel m k) : e ∈ m := by
  induction m with
  | nil => exact h
  | cons d m ih =>
    obtain ⟨j, b⟩ := d
    unfold ndel at h
    split at h
    · exact List.mem_cons_of_mem _ (ih h)
    · obtain rfl | h := List.mem_cons.1 h
      · exact List.mem_cons_self ..
      · exact List.mem_cons_of_mem _ (ih h)

/-- No `alt` is under way and no process stands DORMANT: a change of channels wakes nobody. -/
structure State.Unheard (s : State) : Prop where
  alts : ∀ e ∈ s.txns, e.2.op ≠ .alt
  dormants : ∀ e ∈ s.procs, e.2.st ≠ .dormant

namespace State.Unheard

variable {s t : State} (h : s.Unheard)

include h

theorem upd (ht : t.txns = s.txns) (hp : t.procs = s.procs) : t.Unheard where
  alts := ht ▸ h.alts
  dormants := hp ▸ h.dormants

theorem setTxn {k : Nat} {y : Txn} (hy : y.op ≠ .alt) : (s.setTxn k y).Unheard where
  alts e he := by
    obtain rfl | he := mem_of_mem_nset he
    · exact hy
    · exact h.alts e he
  dormants := h.dormants

theorem dropTxn (k : Nat) : (s.dropTxn k).Unheard where
  alts e he := h.alts e (mem_of_mem_ndel he)
  dormants := h.dormants

theorem setProc {k : Nat} {p : Proc} (hp : p.st ≠ .dormant) : (s.setProc k p).Unheard where
  alts := h.alts
  dormants e he := by
    obtain rfl | he := mem_of_mem_nset he
    · exact hp
    · exact h.dormants e he

theorem proc_ne_dormant (k : Nat) : (s.proc k).st ≠ .dormant := by
  cases hk : nget? s.procs k with
  | none => simp [State.proc, nget, hk]
  | some p =>
    rw [proc_of_nget? hk]
    exact h.dormants _ (mem_of_nget? hk)

theorem endDormants (n : Nat) : s.endDormants n = s := by
  have hnone : s.procs.find? (dormantOver s) = none :=
    List.find?_eq_none.2 fun e he => by simp [dormantOver, h.dormants e he]
  cases n with
  | zero => rfl
  | succ n => simp only [State.endDormants, hnone]

theorem wakeAlts : s.wakeAlts = s := by
  rw [State.wakeAlts, h.endDormants]
  refine foldl_eq_self fun e he => ?_
  split
  · next hop _ => exact absurd hop (h.alts e he)
  · rfl

end State.Unheard

/-! ### A timed operation expires (R130) -/

theorem expireOp_cases (s : State) (t : Nat) : s.expireOp t = s ∨ ∃ y ch v n, nget? s.txns t = some y ∧ y.deadline ≠ none ∧
    y.op ≠ .alt ∧ s.expireOp t = (s.leaveQueue ch t y).setTxn t { y with stage := .back v, ptag := 0, due := n } := by
  unfold State.expireOp
  split
  · exact .inl rfl
  · next y hy =>
    split
    case h_5 => exact .inl rfl
    all_goals
      next hop hd =>
        split
        · exact .inr ⟨y, _, _, _, hy, by simp [hd], by simp [hop], rfl⟩
        · exact .inl rfl

theorem expireOp_untimed {s : State} {t : Nat} {x : Txn} (hx : nget? s.txns t = some x) (hd : x.deadline = none) :
    s.expireOp t = s := by
  obtain h | ⟨y, ch, v, n, hy, hyd, -⟩ := expireOp_cases s t
  · exact h
  · rw [hx, Option.some.injEq] at hy
    exact absurd (hy ▸ hd) hyd

/-! ### A send that is alone at HOME (R129) -/

/-- Nothing of a channel waits, and no slot of it is held. -/
structure Chan.Idle (c : Chan) : Prop where
  sendq : c.sendq = []
  recvq : c.recvq = []
  resvTx : c.resvTx = []

/-- A channel once the operation `t` of process `k` has left its queues. -/
def Chan.leave (c : Chan) (k t : Nat) (rx : Bool) : Chan :=
  { c.useResv k rx with sendq := c.sendq.filter (· != t), recvq := c.recvq.filter (· != t) }

theorem leaveQueue_eq (s : State) (ch t : Nat) (x : Txn) :
    s.leaveQueue ch t x = s.modChan x.part ch fun c => c.leave (ownerOf x.issuer) t x.op.rx := rfl

theorem leave_spec (c : Chan) (k t : Nat) (rx : Bool) : (c.leave k t rx).ty = c.ty ∧ (c.leave k t rx).tail = c.tail ∧
    (c.leave k t rx).msgs = c.msgs ∧ (c.leave k t rx).flight = c.flight ∧ (c.leave k t rx).txopen = c.txopen := by
  cases rx <;> exact ⟨rfl, rfl, rfl, rfl, rfl⟩

/-- What leaves the queues of an idle channel takes a reservation of its receive side at most. -/
theorem Chan.Idle.leave {c : Chan} (h : c.Idle) (k t : Nat) (rx : Bool) :
    c.leave k t rx = { c with resvRx := (c.useResv k rx).resvRx } := by
  obtain ⟨hs, hr, hv⟩ := h
  obtain ⟨⟩ := c
  subst hs hr hv
  cases rx <;> rfl

/-- `u` differs from `s` at most in what the expiry of timed operations, and the release of what an `alt` held, have changed: a send of
no deadline and its idle channel stand as they did. -/
structure SendWaits (part ch t : Nat) (x : Txn) (c : Chan) (s u : State) : Prop where
  mem : u.mem = s.mem
  txn : nget? u.txns t = some x
  ty : ∀ d, chanTy u part d = chanTy s part d
  st : ∀ k, (u.proc k).st = (s.proc k).st
  unheard : u.Unheard
  chan : ∃ r, u.chan? part ch = some { c with resvRx := r }

namespace SendWaits

variable {part ch t : Nat} {x : Txn} {c : Chan} {s u : State}

theorem refl (hx : nget? s.txns t = some x) (hu : s.Unheard) (hc : s.chan? part ch = some c) : SendWaits part ch t x c s s :=
  ⟨rfl, hx, fun _ => rfl, fun _ => rfl, hu, c.resvRx, hc⟩

variable (h : SendWaits part ch t x c s u)

include h

/-- A change of channels that keeps the send's own but for its receive side. -/
theorem modChan {p j : Nat} {f : Chan → Chan} (hf : ∀ r, ∃ r', f { c with resvRx := r } = { c with resvRx := r' }) :
    SendWaits part ch t x c s (u.modChan p j f) where
  mem := h.mem
  txn := h.txn
  ty d := by rw [chanTy_modChan, h.ty]
  st := h.st
  unheard := h.unheard.upd rfl rfl
  chan := by
    obtain ⟨r, hr⟩ := h.chan
    by_cases hk : part = p ∧ ch = j
    · obtain ⟨rfl, rfl⟩ := hk
      rw [chan?_modChan_same, hr]
      obtain ⟨r', hr'⟩ := hf r
      exact ⟨r', congrArg some hr'⟩
    · exact ⟨r, by rw [chan?_modChan_other _ _ hk, hr]⟩

theorem modProc {k : Nat} {f : Proc → Proc} (hf : ∀ p, (f p).st = p.st) : SendWaits part ch t x c s (u.modProc k f) where
  mem := h.mem
  txn := h.txn
  ty := h.ty
  st j := by
    rw [State.modProc_eq, State.proc_setProc, ← h.st j]
    split
    · next hj => rw [hj, hf]
    · rfl
  unheard := h.unheard.setProc (by rw [hf]; exact h.unheard.proc_ne_dormant k)
  chan := h.chan

theorem setTxn {k : Nat} {y : Txn} (hk : k ≠ t) (hy : y.op ≠ .alt) : SendWaits part ch t x c s (u.setTxn k y) where
  mem := h.mem
  txn := (nget?_nset_other _ _ hk.symm).trans h.txn
  ty := h.ty
  st := h.st
  unheard := h.unheard.setTxn hy
  chan := h.chan

variable (hc : c.Idle) (hd : x.deadline = none)

include hc

theorem dropAlt (k : Nat) : SendWaits part ch t x c s (u.dropAlt k) := by
  unfold State.dropAlt
  split
  · exact h
  · next rx _ =>
    refine modProc (modChan h fun r => ?_) fun _ => rfl
    refine ⟨if rx then dropFirst (· == k) r else r, ?_⟩
    simp only [hc.resvTx, dropFirst, ite_self]

include hd

theorem expireOp (k : Nat) : SendWaits part ch t x c s (u.expireOp k) := by
  obtain he | ⟨y, j, v, n, hy, hyd, hop, he⟩ := expireOp_cases u k
  · rw [he]; exact h
  · rw [he]
    have hk : k ≠ t := by
      rintro rfl
      rw [h.txn, Option.some.injEq] at hy
      exact hyd (hy ▸ hd)
    have hidle (r : List Nat) : Chan.Idle { c with resvRx := r } := ⟨hc.sendq, hc.recvq, hc.resvTx⟩
    exact setTxn (modChan h fun r => ⟨_, (hidle r).leave ..⟩) hk hop

theorem foldl_expireOp (l : List Nat) : SendWaits part ch t x c s (l.foldl State.expireOp u) := by
  induction l generalizing u with
  | nil => exact h
  | cons k l ih => exact ih (h.expireOp hc hd k)

theorem letGo (k : Nat) : SendWaits part ch t x c s (u.letGo k) := by
  unfold State.letGo
  split
  · exact h
  · unfold State.expireDue
    split
    · exact h.dropAlt hc k
    · exact (h.dropAlt hc k).foldl_expireOp hc hd _

theorem nextOp (k j : Nat) (rx : Bool) : SendWaits part ch t x c s (u.nextOp k j rx) := by
  unfold State.nextOp
  split
  · exact h
  · split
    · exact h.modProc fun _ => rfl
    · exact h.letGo hc hd k

end SendWaits

/-- A channel with nobody in its queues is at rest. -/
theorem chanStep_rest {s : State} {part ch : Nat} {c : Chan} (hc : s.chan? part ch = some c) (hs : c.sendq = []) (hr : c.recvq = []) :
    s.chanStep part ch = none := by
  have hfirst (p : Nat → Bool) : s.firstSender c p = none := by simp [State.firstSender, hs]
  simp only [State.chanStep, hc, hs, hr, hfirst, List.head?_nil, ite_self, Option.bind_none, Option.filter_none]

/-- The one sender of a buffered channel with room, its issuer not STOPPED, puts its message. -/
theorem chanStep_put {s : State} {part ch t : Nat} {c : Chan} {x : Txn} {bs : List Byte} (hc : s.chan? part ch = some c)
    (hs : c.sendq = [t]) (hr : c.recvq = []) (hx : nget? s.txns t = some x) (hop : x.op = .send ch bs)
    (hst : s.isStopped (ownerOf x.issuer) = false) (hk : c.bkind = 0) (ho : c.rxopen = true) (hroom : c.hasRoom (ownerOf x.issuer) = true) :
    s.chanStep part ch = some (s.putMsg ch t x) := by
  have hfirst : s.firstSender c c.hasRoom = some (t, x) := by simp [State.firstSender, hs, hx, hroom, hst]
  have hrange : x.range = none := by simp [Txn.range, hop]
  have hside : s.sideFault part ch t x = none := by
    simp [State.sideFault, sideBufs, hrange, State.badSource, hop]
  have hsb : sideRoom s x = true := by simp [sideRoom, hrange]
  simp [State.chanStep, hc, hr, hk, ho, hfirst, hside, hsb]

/-- What a message put in its slot leaves of the machine. -/
theorem putMsg_eq {s : State} {ch t : Nat} {x : Txn} {bs : List Byte} (hop : x.op = .send ch bs) : ∃ past n, s.putMsg ch t x =
    (((s.leaveQueue ch t x).putSlot x.part ch (ownerOf x.issuer) bs).modChan x.part ch fun c =>
      { c with clock := c.clock.join past }).setTxn t { x with stage := .back (sendDeliver 0), started := true, due := n } := by
  simp only [State.putMsg, State.startSide, Txn.range, State.content, hop]
  exact ⟨_, _, rfl⟩

theorem putSlot_some {s : State} {part ch : Nat} {c : Chan} (hc : s.chan? part ch = some c) (k : Nat) (bs : List Byte) :
    s.putSlot part ch k bs =
      ({ s with mem := writeBytes s.mem (bufKey part ch + c.tail * ((tyBytes (chanTy s part c) + 63) / 64 * 64)) bs } : State).setChan
        part ch { c with msgs := c.msgs ++ [(k, bs)], tail := (c.tail + 1) % max 1 c.depth } := by
  simp only [State.putSlot, hc]

/-- A message of a channel's one sender stands in the slot at TAIL, and nobody waits there any more (R125, R129). -/
theorem putMsg_spec {s : State} {part ch t : Nat} {c : Chan} {x : Txn} {bs : List Byte} (hop : x.op = .send ch bs)
    (hp : x.part = part) (hc : s.chan? part ch = some c) (hs : c.sendq = [t]) (hr : c.recvq = []) :
    let u := s.putMsg ch t x
    u.mem = writeBytes s.mem (bufKey part ch + c.tail * ((tyBytes (chanTy s part c) + 63) / 64 * 64)) bs ∧ u.procs = s.procs ∧
      (∃ y, u.txns = nset s.txns t y ∧ y.op = x.op ∧ y.deadline = x.deadline) ∧
      ∃ c', u.chan? part ch = some c' ∧ c'.msgs = c.msgs ++ [(ownerOf x.issuer, bs)] ∧ c'.sendq = [] ∧ c'.recvq = [] ∧
        c'.flight = c.flight ∧ c'.txopen = c.txopen := by
  subst hp
  obtain ⟨past, n, hput⟩ := putMsg_eq (s := s) (t := t) hop
  obtain ⟨hty, htail, hmsgs, hflight, hopen⟩ := leave_spec c (ownerOf x.issuer) t x.op.rx
  have hleft : (s.leaveQueue ch t x).chan? x.part ch = some (c.leave (ownerOf x.issuer) t x.op.rx) := by
    rw [leaveQueue_eq, chan?_modChan_same, hc, Option.map_some]
  have htyp : chanTy (s.leaveQueue ch t x) x.part (c.leave (ownerOf x.issuer) t x.op.rx) = chanTy s x.part c := by
    rw [leaveQueue_eq, chanTy_modChan, chanTy, chanTy, hty]
  dsimp only
  rw [hput, putSlot_some hleft, htyp, htail]
  exact ⟨rfl, rfl, ⟨_, rfl, rfl, rfl⟩, _, (chan?_modChan_same ..).trans (congrArg (Option.map _) (chan?_setChan_same ..)),
    by rw [← hmsgs], by simp [Chan.leave, hs], by simp [Chan.leave, hr], hflight, hopen⟩

/-- The channel comes to rest with the message in its slot. -/
theorem chanChanged_put {s : State} {part ch t : Nat} {c : Chan} {x : Txn} {bs : List Byte} (hop : x.op = .send ch bs)
    (hp : x.part = part) (hu : s.Unheard) (hc : s.chan? part ch = some c) (hs : c.sendq = [t]) (hr : c.recvq = [])
    (hx : nget? s.txns t = some x) (hst : s.isStopped (ownerOf x.issuer) = false) (hk : c.bkind = 0) (ho : c.rxopen = true)
    (hroom : c.hasRoom (ownerOf x.issuer) = true) : s.chanChanged part ch = s.putMsg ch t x := by
  obtain ⟨-, hprocs, ⟨y, htxns, hy, -⟩, c', hc', -, hs', hr', -⟩ := putMsg_spec hop hp hc hs hr
  have hstep := chanStep_put hc hs hr hx hop hst hk ho hroom
  have hpump : s.pumpChan part ch = s.putMsg ch t x := by
    simp only [State.pumpChan, hc, hs, hr, List.length_cons, List.length_nil, State.settleChan, hstep, chanStep_rest hc' hs' hr']
  have hput : (s.putMsg ch t x).Unheard :=
    (hu.setTxn (k := t) (y := y) (by rw [hy, hop]; simp)).upd htxns hprocs
  rw [State.chanChanged, hpump, hput.wakeAlts]

theorem blockOp_of_none {s : State} {part ch t : Nat} {c : Chan} (hc : s.chan? part ch = some c) (hs : c.sendq = [])
    (hr : c.recvq = []) : s.blockOp part ch t = s := by
  unfold State.blockOp
  split
  · next c' _ hc' =>
    rw [hc, Option.some.injEq] at hc'
    subst hc'
    simp [hs, hr]
  · rfl

theorem reapChan_of_open {s : State} {part ch : Nat} {c : Chan} (hc : s.chan? part ch = some c) (ho : c.txopen = true) :
    s.reapChan part ch = s := by
  simp [State.reapChan, hc, ho]

/-- A send that has reached HOME stands last among the senders of its channel. -/
def State.queueSend (s : State) (part ch t : Nat) : State := s.modChan part ch fun c => { c with sendq := c.sendq ++ [t] }

/-- CHANNEL_MATCH of the one operation on its way, a send whose earlier accesses are performed. -/
theorem exec_channelMatch_send {s : State} {part ch t : Nat} {c : Chan} {x : Txn} {bs : List Byte} (hch : ch < 2 ^ 24)
    (hc : s.chan? part ch = some c) (hf : c.flight = [t]) (hx : nget? s.txns t = some x) (hop : x.op = .send ch bs)
    (hord : s.ordered t x = true) (hst : s.isStopped (ownerOf x.issuer) = false) (hi : c.Idle) :
    let a := (s.setChan part ch { c with flight := [] }).nextOp (ownerOf x.issuer) ch false
    exec (.channelMatch (part * 2 ^ 24 + ch)) s = .next
      (((((a.queueSend part ch t).chanChanged part ch).expireOp t).blockOp part ch t).reapChan part ch) := by
  have harm : exec (.channelMatch (part * 2 ^ 24 + ch)) s = execChannelMatch (part * 2 ^ 24 + ch) s := rfl
  have hpart : (part * 2 ^ 24 + ch) / 2 ^ 24 = part := by omega
  have hnum : (part * 2 ^ 24 + ch) % 2 ^ 24 = ch := by omega
  have hmay : s.mayArrive t = true := by simp [State.mayArrive, hx, hord, hst, hop]
  have hnext : s.nextArrival c = some t := by simp [State.nextArrival, hf, hmay]
  have hflight : c.flight.filter (· != t) = [] := by simp [hf]
  have hexpire : (s.setChan part ch { c with flight := [] }).expireDue part ch = s.setChan part ch { c with flight := [] } := by
    simp only [State.expireDue, chan?_setChan_same, hi.sendq, hi.recvq, List.append_nil, List.foldl_nil]
  have hx' : nget? (s.setChan part ch { c with flight := [] }).txns t = some x := hx
  rw [harm]
  simp only [execChannelMatch, hpart, hnum, hc, hnext, hflight, hexpire, hx', State.canAdmit, hop,
    State.queueSend]

theorem channelMatch_spec {s : State} {part ch t : Nat} {c : Chan} {x : Txn} {bs : List Byte} (hch : ch < 2 ^ 24)
    (hc : s.chan? part ch = some c) (hf : c.flight = [t]) (hx : nget? s.txns t = some x) (hop : x.op = .send ch bs)
    (hp : x.part = part) (hd : x.deadline = none) (hord : s.ordered t x = true) (hst : s.isStopped (ownerOf x.issuer) = false)
    (hk : c.bkind = 0) (htx : c.txopen = true) (hrx : c.rxopen = true) (hi : c.Idle) (hroom : c.msgs.length < c.depth)
    (hu : s.Unheard) :
    let slot := bufKey part ch + c.tail * ((tyBytes (chanTy s part c) + 63) / 64 * 64)
    ∃ (u : State) (c' : Chan), exec (.channelMatch (part * 2 ^ 24 + ch)) s = .next u ∧ u.chan? part ch = some c' ∧
      c'.msgs = c.msgs ++ [(ownerOf x.issuer, bs)] ∧ c'.sendq = [] ∧ c'.flight = [] ∧ u.mem = writeBytes s.mem slot bs := by
  have hi' : Chan.Idle { c with flight := [] } := ⟨hi.sendq, hi.recvq, hi.resvTx⟩
  have hstart := (SendWaits.refl (s := s.setChan part ch { c with flight := [] }) hx (hu.upd rfl rfl)
    (chan?_setChan_same ..)).nextOp hi' hd (ownerOf x.issuer) ch false
  rw [exec_channelMatch_send hch hc hf hx hop hord hst hi]
  generalize (s.setChan part ch { c with flight := [] }).nextOp (ownerOf x.issuer) ch false = a at hstart
  obtain ⟨hmem, htxn, hty, hstop, hunheard, r, hchan⟩ := hstart
  have hc' : (a.queueSend part ch t).chan? part ch = some { c with flight := [], resvRx := r, sendq := [t] } := by
    rw [State.queueSend, chan?_modChan_same, hchan, Option.map_some, hi.sendq]
    rfl
  have hquiet : (a.queueSend part ch t).Unheard := hunheard.upd rfl rfl
  have hrun : (a.queueSend part ch t).isStopped (ownerOf x.issuer) = false :=
    (congrArg (· == PState.stopped) (hstop _)).trans hst
  have htyp : chanTy (a.queueSend part ch t) part { c with flight := [], resvRx := r, sendq := [t] } = chanTy s part c := by
    rw [State.queueSend, chanTy_modChan, hty, chanTy_setChan]
    rfl
  have hput := chanChanged_put hop hp hquiet hc' rfl hi.recvq htxn hrun hk hrx
    (by simpa [Chan.hasRoom, others, hi.resvTx] using hroom)
  obtain ⟨hm, -, ⟨y, hy, -, hyd⟩, c', hlast, hmsgs, hsend, hrecv, hflight, hopen⟩ := putMsg_spec hop hp hc' rfl hi.recvq
  rw [hput, expireOp_untimed (hy ▸ nget?_nset_same ..) (hyd.trans hd), blockOp_of_none hlast hsend hrecv,
    reapChan_of_open hlast (hopen.trans htx)]
  rw [htyp] at hm
  exact ⟨_, c', rfl, hlast, hmsgs, hsend, hflight, hm.trans (congrArg (writeBytes · _ bs) hmem)⟩

/-! ### The end of a register transfer (R128) -/

/-- `u` has the memory, the channels and the operations of `s`, and still wakes nobody. -/
structure State.AtRest (s u : State) : Prop where
  mem : u.mem = s.mem
  parts : u.parts = s.parts
  txns : u.txns = s.txns
  unheard : u.Unheard

theorem foldl_keeps {α β γ : Type} {f : β → α → β} {g : β → γ} (h : ∀ b a, g (f b a) = g b) (l : List α) (b : β) :
    g (l.foldl f b) = g b := by
  induction l generalizing b with
  | nil => rfl
  | cons a l ih => exact (ih _).trans (h b a)

/-- The state of a process and its context. -/
def Proc.place (p : Proc) : PState × Option Nat := (p.st, p.ctx)

/-- What fills the registers of a process leaves it where it is. -/
theorem fill_place (p : Proc) (t : Nat) (g : Tgt) (d : Deliver) : (p.fill t g d).place = p.place := by
  have hslot (p : Proc) (e : BitVec 32 × Word) : (p.fillSlot e.1 e.2).place = p.place := by
    unfold Proc.fillSlot
    split <;> rfl
  have hkeep (p : Proc) (e : BitVec 5 × Word) : (p.fillKeep t e.1 e.2).place = p.place := by
    unfold Proc.fillKeep
    split <;> rfl
  have hvec (p : Proc) (e : BitVec 5 × VReg) : (p.fillVec t g.vmask e.1 e.2).place = p.place := rfl
  unfold Proc.fill
  dsimp only
  rw [foldl_keeps hvec, foldl_keeps hkeep, foldl_keeps hslot]

theorem run_ne_dormant {p : Proc} (h : p.st ≠ .dormant) : p.run.st ≠ .dormant := by
  unfold Proc.run
  split
  · simp
  · split <;> exact h

theorem lateImg_of_ctx {s : State} {k : Nat} (h : (s.proc k).ctx.isSome = true) : s.lateImg k = s := by
  simp [State.lateImg, h]

namespace State.AtRest

variable {s u v : State} (h : s.AtRest u)

include h

theorem upd (hm : v.mem = u.mem) (hp : v.parts = u.parts) (ht : v.txns = u.txns) (hs : v.procs = u.procs) : s.AtRest v :=
  ⟨hm.trans h.mem, hp.trans h.parts, ht.trans h.txns, h.unheard.upd ht hs⟩

theorem setProc {k : Nat} {p : Proc} (hp : p.st ≠ .dormant) : s.AtRest (u.setProc k p) :=
  ⟨h.mem, h.parts, h.txns, h.unheard.setProc hp⟩

theorem unpark (k : Nat) : s.AtRest (u.unpark k) := by
  unfold State.unpark
  dsimp only
  split
  · exact h.setProc (run_ne_dormant (h.unheard.proc_ne_dormant k))
  · exact h

/-- Values that arrive for a process in its context change no memory (R179). -/
theorem deliver {x : Txn} (hctx : (u.proc x.issuer).ctx.isSome = true) (t : Nat) (d : Deliver) : s.AtRest (u.deliver t x d) := by
  have hplace := fill_place (u.proc x.issuer) t x.tgt d
  have hst := congrArg Prod.fst hplace
  have hin := congrArg Prod.snd hplace
  unfold State.deliver
  dsimp only
  refine unpark ?_ x.issuer
  have hmats {w : State} (hw : s.AtRest w) : s.AtRest
      (if x.tgt.mats = [] then w else w.modCore x.core fun c => c.fillMats t x.tgt.mats d.tiles d.accs) := by
    split
    · exact hw
    · exact hw.upd rfl rfl rfl rfl
  refine hmats ?_
  split
  · exact h.upd rfl rfl rfl rfl
  · have hfilled := h.setProc (k := x.issuer) (p := { (u.proc x.issuer).fill t x.tgt d with
      flags := (u.proc x.issuer).flags ||| d.flags, out := (u.proc x.issuer).out.filter (· != t) })
      (hst.trans_ne (h.unheard.proc_ne_dormant _))
    rwa [lateImg_of_ctx (by rw [State.proc_setProc_same]; exact (congrArg Option.isSome hin).trans hctx)]

theorem newEpisode (k : Nat) : s.AtRest (u.newEpisode k) := by
  unfold State.newEpisode
  dsimp only
  split
  · exact h.upd rfl rfl rfl rfl
  · exact h

theorem ready (k : Nat) (head : Bool) : s.AtRest (u.ready k head) := by
  unfold State.ready
  dsimp only
  split
  · next hst => exact (h.newEpisode k).setProc (by simp [hst])
  · split
    · split
      · exact h.newEpisode k
      · exact (h.newEpisode k).setProc (by simp)
    · split
      · exact (h.newEpisode k).setProc (by dsimp only; split <;> simp)
      · exact ((h.newEpisode k).setProc (by simp)).upd rfl rfl rfl rfl

end State.AtRest

theorem tagArrival_of_untagged {x : Txn} (h : x.ptag.getLsbD 8 = false) (s : State) (past : Clock) : s.tagArrival x past = s := by
  simp only [State.tagArrival, h, Bool.false_and, Bool.false_eq_true, if_false]

/-- The end of the side of a send that nothing is to be told of: its values arrive, and it is gone. -/
theorem endSide_send {s : State} {t ch : Nat} {x : Txn} {bs : List Byte} (hop : x.op = .send ch bs) (hi : x.issuer ≠ 0)
    (hp : x.ptag.getLsbD 8 = false) (d : Deliver) : s.endSide t x d =
      if s.blockedOn x then ((s.deliver t x d).dropTxn t).ready x.issuer false else (s.deliver t x d).dropTxn t := by
  simp [State.endSide, Txn.range, hop, hi, tagArrival_of_untagged hp]

theorem exec_transferLanded_send {s : State} {t ch : Nat} {x : Txn} {bs : List Byte} {d : Deliver} (hx : nget? s.txns t = some x)
    (hop : x.op = .send ch bs) (hst : x.stage = .back d) (hp : x.partner = none) (hf : s.frozen x = false) :
    exec (.transferLanded t) s = .next (s.endSide t x d).pumpAll.wakeAlts := by
  have harm : exec (.transferLanded t) s = execTransferLanded t s := rfl
  have hland : s.landOp t = s.endSide t x d := by
    simp [State.landOp, hx, hp, hst, hop]
  rw [harm]
  simp [execTransferLanded, hx, hf, hland]

theorem pumpAll_of_none {s : State} (h : ∀ p ∈ s.parts, p.2.chans = []) : s.pumpAll = s :=
  foldl_eq_self fun p hp => by simp [h p hp]

theorem transferLanded_spec {s : State} {t ch : Nat} {x : Txn} {bs : List Byte} {d : Deliver} (hx : nget? s.txns t = some x)
    (hop : x.op = .send ch bs) (hst : x.stage = .back d) (hp : x.partner = none) (hi : x.issuer ≠ 0) (hf : s.frozen x = false)
    (htag : x.ptag.getLsbD 8 = false) (hctx : (s.proc x.issuer).ctx.isSome = true) (hch : ∀ p ∈ s.parts, p.2.chans = [])
    (hu : s.Unheard) : ∃ u : State, exec (.transferLanded t) s = .next u ∧ nget? u.txns t = none ∧ u.mem = s.mem := by
  have hsent := (State.AtRest.mk (s := s) rfl rfl rfl hu).deliver hctx t d
  have hgone : ((s.deliver t x d).dropTxn t).Unheard := hsent.unheard.dropTxn t
  have hend : ((s.deliver t x d).dropTxn t).AtRest (s.endSide t x d) := by
    have hrest := State.AtRest.mk (s := (s.deliver t x d).dropTxn t) rfl rfl rfl hgone
    rw [endSide_send hop hi htag]
    split
    · exact hrest.ready _ _
    · exact hrest
  have hnone : ∀ p ∈ (s.endSide t x d).parts, p.2.chans = [] := by
    rw [hend.parts, State.dropTxn_parts, hsent.parts]
    exact hch
  refine ⟨s.endSide t x d, ?_, ?_, ?_⟩
  · rw [exec_transferLanded_send hx hop hst hp hf, pumpAll_of_none hnone, hend.unheard.wakeAlts]
  · rw [hend.txns, State.dropTxn, nget?_ndel, if_pos rfl]
  · rw [hend.mem, State.dropTxn_mem, hsent.mem]

/-! ### The walkers (R207, R212, R214, R215) -/

section Walker

variable {s : State} {t n : Nat} {x : Txn}

theorem exec_treeWalkerRequest_chgrd {v : Node} (hx : nget? s.txns t = some x) (hst : x.stage = .sent) (ho : s.ordered t x = true)
    (hv : s.node? x.part n = some v) (hl : s.lockedChain x.part n = false) (hop : x.op = .chgrd n) :
    exec (.treeWalkerRequest t) s = .next (s.walked t x v.count) := by
  have harm : exec (.treeWalkerRequest t) s = execTreeWalkerRequest t s := rfl
  simp [harm, execTreeWalkerRequest, hx, hst, ho, hop, hl, hv]

theorem exec_treeWalkerRequest_chgcmp {v : Node} {w : Word} (hx : nget? s.txns t = some x) (hst : x.stage = .sent)
    (ho : s.ordered t x = true) (hv : s.node? x.part n = some v) (hl : s.lockedChain x.part n = false) (hop : x.op = .chgcmp n w) :
    exec (.treeWalkerRequest t) s = .next (s.walked t x (if v.count = w then 0 else 1)) := by
  have harm : exec (.treeWalkerRequest t) s = execTreeWalkerRequest t s := rfl
  simp [harm, execTreeWalkerRequest, hx, hst, ho, hop, hl, hv]

/-- A settle that waits for a marker stays as it is. -/
theorem trySettle_of_short (hlen : x.marks.length < 64) (hv : s.liveNode x.part n = true) : s.trySettle t x n = s := by
  have hfew : ¬ 64 ≤ x.marks.length := by omega
  simp [State.trySettle, hv, hfew]

/-- A marker that is not the last is recorded, with the tokens that it has met, and the settle waits on. -/
theorem exec_settleMarker {slice : Nat} (hx : nget? s.txns t = some x) (hop : x.op = .settle n) (hst : x.stage = .waiting)
    (hs : slice < 64) (hm : slice ∉ x.marks) (hlen : x.marks.length < 63) (hc : s.caughtUp (dieOfNode slice) x.clock = true)
    (hv : s.liveNode x.part n = true) : ∃ y, exec (.settleMarker t slice) s = .next (s.setTxn t y) ∧
      y.marks = x.marks ++ [slice] ∧ y.stage = .waiting := by
  have harm : exec (.settleMarker t slice) s = execSettleMarker t slice s := rfl
  have hgo : ¬ (64 ≤ slice ∨ x.marks.contains slice = true ∨ (!s.caughtUp (dieOfNode slice) x.clock) = true) := by
    simpa [hm, hc] using hs
  rw [harm]
  simp only [execSettleMarker, hx, hop, hst, if_neg hgo]
  refine ⟨_, congrArg _ (trySettle_of_short ?_ hv), rfl, rfl⟩
  simpa using Nat.succ_lt_succ hlen

/-- A `repar` that may begin takes the lowest lock of its set (R215). -/
theorem exec_reparLock {p m : Nat} {l : List Nat} {v : Node} (hx : nget? s.txns t = some x) (hop : x.op = .repar n p)
    (hst : x.stage = .sent) (ho : s.ordered t x = true) (hn : s.liveNode x.part n = true) (hp : s.liveNode x.part p = true)
    (hm : x.marks = []) (hl : s.lockSet x.part n p = m :: l) (hv : s.node? x.part m = some v) (hfree : v.lock = false) :
    ∃ y : Txn, y.marks = [m] ∧ y.stage = .waiting ∧
      exec (.reparLock t) s = .next (((s.setLock x.part [m] true).setTxn t y).openRepar t x) := by
  have harm : exec (.reparLock t) s = execReparLock t s := rfl
  refine ⟨{ x with stage := .waiting, clock := (s.die (dieOf x.core)).clock, marks := [m] }, rfl, rfl, ?_⟩
  have hopen (u : State) : u.openRepar t x =
      u.openRepar t { x with stage := .waiting, clock := (s.die (dieOf x.core)).clock } := rfl
  rw [harm, hopen]
  simp [execReparLock, hx, hop, hst, ho, hn, hp, hm, hl, hv, hfree]

theorem openRepar_eq (s : State) (t : Nat) (x : Txn) : ∃ l, s.openRepar t x = { s with procs := l } := by
  unfold State.openRepar
  split
  · exact ⟨s.procs, rfl⟩
  · exact ⟨_, rfl⟩

theorem node?_setLock (s : State) (part : Nat) (l : List Nat) (b : Bool) (n : Nat) :
    (s.setLock part l b).node? part n = (s.node? part n).map fun v => if l.contains n then { v with lock := b } else v := by
  simp only [State.node?, State.setLock, State.modPart_eq, State.part_setPart_same]
  exact nget?_map_snd (fun k (v : Node) => if l.contains k then { v with lock := b } else v) _ _

theorem reparLock_spec {p m : Nat} {l : List Nat} {v : Node} (hx : nget? s.txns t = some x) (hop : x.op = .repar n p)
    (hst : x.stage = .sent) (ho : s.ordered t x = true) (hn : s.liveNode x.part n = true) (hp : s.liveNode x.part p = true)
    (hm : x.marks = []) (hl : s.lockSet x.part n p = m :: l) (hv : s.node? x.part m = some v) (hfree : v.lock = false) :
    ∃ (u : State) (y : Txn) (w : Node), exec (.reparLock t) s = .next u ∧ nget? u.txns t = some y ∧ y.marks = [m] ∧
      y.stage = .waiting ∧ u.node? x.part m = some w ∧ w.lock = true := by
  obtain ⟨y, hmarks, hwait, hexec⟩ := exec_reparLock hx hop hst ho hn hp hm hl hv hfree
  obtain ⟨q, hopen⟩ := openRepar_eq ((s.setLock x.part [m] true).setTxn t y) t x
  refine ⟨_, y, { v with lock := true }, hexec, ?_⟩
  rw [hopen]
  have hlock := node?_setLock s x.part [m] true m
  rw [hv, Option.map_some, if_pos (by simp)] at hlock
  exact ⟨nget?_nset_same .., hmarks, hwait, hlock, rfl⟩

end Walker

section Token

variable {s : State} {k : Nat} {v : Token} {nd : Node}

theorem trySettles_of_none (h : ∀ e ∈ s.txns, ∀ n, e.2.op ≠ .settle n) : s.trySettles = s :=
  foldl_eq_self fun e he => by
    split
    · next n hop => exact absurd hop (h e he n)
    · rfl

theorem exec_rollupTokenCount (hv : nget? s.tokens k = some v) (hn : s.node? v.part v.node = some nd) (hl : nd.lock = false)
    (hc : s.caughtUp (walkerDie v.node) v.clock = true) :
    exec (.rollupTokenCount k) s = .next (s.countToken k).trySettles := by
  have harm : exec (.rollupTokenCount k) s = execRollupTokenCount k s := rfl
  simp [harm, execRollupTokenCount, hv, hn, hl, hc]

/-- A token goes on to a node: alone, or as the weight of one that climbs there already (R212). Settles aside, nothing else changes. -/
theorem forward_spec (s : State) (k : Nat) (v : Token) (node : Nat) : (s.forward k v node true).mem = s.mem ∧
    (s.forward k v node true).parts = s.parts ∧ (s.forward k v node true).grans = s.grans ∧
    ((∀ e ∈ s.txns, ∀ n, e.2.op ≠ .settle n) → (s.forward k v node true).txns = s.txns) ∧
    ((∃ v', nget? (s.forward k v node true).tokens k = some v' ∧ v'.node = node ∧ v'.gran = none ∧ v'.weight = v.weight) ∨
      ∃ j w w', (j, w) ∈ s.tokens ∧ j ≠ k ∧ w.part = v.part ∧ w.node = node ∧ w.gran = none ∧
        nget? (s.forward k v node true).tokens k = none ∧ nget? (s.forward k v node true).tokens j = some w' ∧
        w'.node = node ∧ w'.weight = w.weight + v.weight) := by
  unfold State.forward
  split
  · next j w hfind =>
    rw [if_pos rfl] at hfind
    have hmem := List.mem_of_find?_eq_some hfind
    have hw := List.find?_some hfind
    simp only [Bool.and_eq_true, bne_iff_ne, beq_iff_eq, Option.isNone_iff_eq_none] at hw
    obtain ⟨⟨⟨hj, hpart⟩, hnode⟩, hgran⟩ := hw
    refine ⟨rfl, rfl, rfl, fun h => map_eq_self fun e he => ?_,
      .inr ⟨j, w, _, hmem, hj, hpart, hnode, hgran, ?_, nget?_nset_same .., hnode, rfl⟩⟩
    · obtain ⟨i, y⟩ := e
      dsimp only
      split
      · next n hop => exact absurd hop (h _ he n)
      · rfl
    · rw [nget?_nset_other _ _ hj.symm, nget?_ndel, if_pos rfl]
  · exact ⟨rfl, rfl, rfl, fun _ => rfl, .inl ⟨_, nget?_nset_same .., rfl, rfl, rfl⟩⟩

/-- The state once a token's weight stands in its node's count and its granule is free to send again (R212). -/
def State.counted (s : State) (v : Token) : State :=
  let u := s.countNode v.part v.node v.weight
  match v.gran with
  | some g => { u with grans := nmod u.grans g fun y => { y with pend := false } }
  | none => u

theorem counted_spec (s : State) (v : Token) : (s.counted v).mem = s.mem ∧ (s.counted v).txns = s.txns ∧
    (s.counted v).tokens = s.tokens ∧ (s.counted v).parts = (s.countNode v.part v.node v.weight).parts ∧
    ∀ g y, v.gran = some g → nget? s.grans g = some y → nget? (s.counted v).grans g = some { y with pend := false } := by
  unfold State.counted
  dsimp only
  split
  · next g hg =>
    refine ⟨rfl, rfl, rfl, rfl, fun g' y hg' hy => ?_⟩
    rw [hg, Option.some.injEq] at hg'
    subst hg'
    simp [nget?_nmod, State.countNode, hy]
  · next hg => exact ⟨rfl, rfl, rfl, rfl, fun g y hg' => by rw [hg] at hg'; cases hg'⟩

theorem countToken_eq (hv : nget? s.tokens k = some v) (hn : s.node? v.part v.node = some nd) : s.countToken k =
    if v.node = 0 then { s.counted v with tokens := ndel (s.counted v).tokens k }
    else (s.counted v).forward k v nd.parent true := by
  simp only [State.countToken, hv, hn]
  rfl

theorem node?_countNode (hn : s.node? v.part v.node = some nd) (w : Nat) : (s.countNode v.part v.node w).node? v.part v.node =
    some { nd with count := BitVec.ofNat 64 (min (2 ^ 64 - 1) (nd.count.toNat + w)) } := by
  simp only [State.node?] at hn
  simp only [State.node?, State.countNode, State.modPart_eq, State.part_setPart_same, nget?_nmod, if_true, hn, Option.map_some]

/-- The node of a partition is read from the partitions alone. -/
theorem node?_congr {t : State} (h : t.parts = s.parts) (part n : Nat) : t.node? part n = s.node? part n := by
  simp only [State.node?, State.part, h]

theorem rollupTokenCount_spec (hv : nget? s.tokens k = some v) (hn : s.node? v.part v.node = some nd) (hl : nd.lock = false)
    (hc : s.caughtUp (walkerDie v.node) v.clock = true) (hs : ∀ e ∈ s.txns, ∀ n, e.2.op ≠ .settle n) :
    ∃ u : State, exec (.rollupTokenCount k) s = .next u ∧ u.mem = s.mem ∧
      (∃ nd', u.node? v.part v.node = some nd' ∧ nd'.count = BitVec.ofNat 64 (min (2 ^ 64 - 1) (nd.count.toNat + v.weight))) ∧
      (∀ g y, v.gran = some g → nget? s.grans g = some y → nget? u.grans g = some { y with pend := false }) ∧
      (v.node = 0 → nget? u.tokens k = none) ∧
      (v.node ≠ 0 → (∃ v', nget? u.tokens k = some v' ∧ v'.node = nd.parent ∧ v'.gran = none ∧ v'.weight = v.weight) ∨
        ∃ j w w', (j, w) ∈ s.tokens ∧ j ≠ k ∧ w.part = v.part ∧ w.node = nd.parent ∧ w.gran = none ∧
          nget? u.tokens k = none ∧ nget? u.tokens j = some w' ∧ w'.node = nd.parent ∧ w'.weight = w.weight + v.weight) := by
  obtain ⟨hmem, htxns, htokens, hparts, hgrans⟩ := counted_spec s v
  have hnode := (node?_congr hparts v.part v.node).trans (node?_countNode hn v.weight)
  rw [exec_rollupTokenCount hv hn hl hc, countToken_eq hv hn]
  split
  · next hroot =>
    rw [trySettles_of_none (by rw [htxns]; exact hs)]
    refine ⟨_, rfl, hmem, ⟨_, hnode, rfl⟩, hgrans, fun _ => ?_, fun h => absurd hroot h⟩
    rw [nget?_ndel, if_pos rfl]
  · next hroot =>
    obtain ⟨hfmem, hfparts, hfgrans, hftxns, hclimb⟩ := forward_spec (s.counted v) k v nd.parent
    have hftxns := (hftxns (by rw [htxns]; exact hs)).trans htxns
    rw [trySettles_of_none (by rw [hftxns]; exact hs)]
    rw [htokens] at hclimb
    refine ⟨_, rfl, hfmem.trans hmem, ⟨_, (node?_congr hfparts _ _).trans hnode, rfl⟩, ?_, fun h => absurd h hroot, fun _ => hclimb⟩
    rw [hfgrans]
    exact hgrans

end Token

/-! ### The obligation -/

/-- Settles O41: a send alone at HOME by `channelMatch_spec`, the end of a send by `transferLanded_spec`, a token by
`rollupTokenCount_spec`; the walkers' other requests are one update each. Where firmware keeps the slots of a channel, and that a `repar`
stands at its word until its first lock, are the model's choices (log entries 40, 89 and 119). -/
theorem channelAndTreeEvents : Obligations.ChannelAndTreeEvents := by
  refine ⟨?send, ?landed, ?request, ?token, ?marker, ?lock⟩
  case send =>
    intro s part ch t c x bs hch hc hf hx hop hp hd _ hord hst hk htx hrx hsend hrecv hresv hroom halt hdorm slot
    obtain ⟨u, c', hexec, hc', hmsgs, hsend', hflight, hmem⟩ :=
      channelMatch_spec hch hc hf hx hop hp hd hord hst hk htx hrx ⟨hsend, hrecv, hresv⟩ hroom ⟨halt, hdorm⟩
    obtain ⟨hread, hother⟩ := writeBytes_spec s.mem slot (bs := bs) rfl
    exact ⟨u, c', hexec, hc', hmsgs, hsend', hflight, hmem ▸ hread, hmem ▸ hother⟩
  case landed =>
    intro s t ch x bs d hx hop hst hp hi hf htag hctx hch halt hdorm
    exact transferLanded_spec hx hop hst hp hi hf htag hctx hch ⟨halt, hdorm⟩
  case request =>
    intro s t n x v w hx hst ho hv hl
    refine ⟨exec_treeWalkerRequest_chgrd hx hst ho hv hl, fun hop => ⟨_, exec_treeWalkerRequest_chgcmp hx hst ho hv hl hop, ?_⟩⟩
    by_cases hw : v.count = w <;> simp [hw]
  case token => exact fun _ _ _ _ hv hn hl hc hs => rollupTokenCount_spec hv hn hl hc hs
  case marker =>
    intro s t n slice x hx hop hst hs hm hlen hc hv
    obtain ⟨y, hexec, hmarks, hwait⟩ := exec_settleMarker hx hop hst hs hm hlen hc hv
    exact ⟨_, y, hexec, nget?_nset_same .., hmarks, hwait⟩
  case lock => exact fun _ _ _ _ _ _ _ _ hx hop hst ho hn hp hm hl hv hfree => reparLock_spec hx hop hst ho hn hp hm hl hv hfree

end Sys2Proof.Machine
end

section
/-! SUPPORT. The ring of results: what a push, a pending push and the arrival of a value leave in the ring, in the named registers and in
their marks, and from these O9, O10 and O22. -/

namespace Sys2Proof.Machine

/-! ### The ring (R149) -/

/-- What a push, or a pending push, does to the ring alone: the count advances, and the slot it then names holds the value, with its
pending bit. -/
def Proc.enter (p : Proc) (w : Word) (pend : Bool) : Proc := ({ p with push := p.push + 1 } : Proc).setSlot (p.push + 1) w pend

theorem pushVal_none (p : Proc) (w : Word) : p.pushVal w none = p.enter w false := rfl
theorem pushVal_some (p : Proc) (w : Word) (r : BitVec 5) : p.pushVal w (some r) = (p.enter w false).nset r w := rfl

@[simp] theorem setSlot_push (p : Proc) (at_ : BitVec 32) (w : Word) (pend : Bool) : (p.setSlot at_ w pend).push = p.push := rfl

/-- One pending bit set or cleared. -/
theorem getLsbD_setPend (b : BitVec 16) (i j : BitVec 4) (pend : Bool) :
    (if pend then b ||| (1#16 <<< i.toNat) else b &&& ~~~(1#16 <<< i.toNat)).getLsbD j.toNat =
      if j = i then pend else b.getLsbD j.toNat := by
  have hj : j.toNat < 16 := j.isLt
  have hone : (1#16 <<< i.toNat).getLsbD j.toNat = decide (j = i) := by
    simp only [← BitVec.twoPow_eq, BitVec.getLsbD_twoPow, ← BitVec.toNat_inj, i.isLt, decide_true, Bool.true_and, eq_comm]
  cases pend with
  | false =>
    rw [if_neg Bool.false_ne_true, BitVec.getLsbD_and, BitVec.getLsbD_not, hone]
    by_cases h : j = i <;> simp [h, hj]
  | true =>
    rw [if_pos rfl, BitVec.getLsbD_or, hone]
    by_cases h : j = i <;> simp [h]

theorem setSlot_qget (p : Proc) (at_ : BitVec 32) (w : Word) (pend : Bool) (j : BitVec 4) :
    (p.setSlot at_ w pend).qget j = if p.slotOf j = at_.setWidth 4 then w else p.qget j := by
  have hread : (p.setSlot at_ w pend).qget j =
      (p.q.set (at_.setWidth 4).toNat w (at_.setWidth 4).isLt)[(p.slotOf j).toNat] := rfl
  rw [hread, Vector.getElem_set]
  simp only [BitVec.toNat_inj, eq_comm (a := at_.setWidth 4), Proc.qget]

theorem setSlot_qpend (p : Proc) (at_ : BitVec 32) (w : Word) (pend : Bool) (j : BitVec 4) :
    (p.setSlot at_ w pend).qpend j = if p.slotOf j = at_.setWidth 4 then pend else p.qpend j :=
  getLsbD_setPend p.qPend (at_.setWidth 4) (p.slotOf j) pend

theorem enter_slotOf_zero (p : Proc) (w : Word) (pend : Bool) : (p.enter w pend).slotOf 0 = (p.push + 1).setWidth 4 := by
  simp [Proc.enter, Proc.slotOf]

/-- The name of a slot goes up by one with each push. -/
theorem enter_slotOf_succ (p : Proc) (w : Word) (pend : Bool) (j : BitVec 4) : (p.enter w pend).slotOf (j + 1) = p.slotOf j := by
  simp only [Proc.enter, Proc.slotOf, setSlot_push]
  bv_omega

/-- The slot that a push takes is no older result that still has a name afterwards. -/
theorem slotOf_ne_enter (p : Proc) {j : BitVec 4} (h : j.toNat < 15) : p.slotOf j ≠ (p.push + 1).setWidth 4 := by
  simp only [Proc.slotOf]
  bv_omega

theorem enter_qget_zero (p : Proc) (w : Word) (pend : Bool) : (p.enter w pend).qget 0 = w :=
  (setSlot_qget ..).trans (if_pos (enter_slotOf_zero p w pend))

theorem enter_qpend_zero (p : Proc) (w : Word) (pend : Bool) : (p.enter w pend).qpend 0 = pend :=
  (setSlot_qpend ..).trans (if_pos (enter_slotOf_zero p w pend))

/-- The older results move up by one, and so do their pending bits. -/
theorem enter_succ (p : Proc) (w : Word) (pend : Bool) {j : BitVec 4} (h : j.toNat < 15) :
    (p.enter w pend).qget (j + 1) = p.qget j ∧ (p.enter w pend).qpend (j + 1) = p.qpend j := by
  have hslot := enter_slotOf_succ p w pend j
  have hne : ({ p with push := p.push + 1 } : Proc).slotOf (j + 1) ≠ (p.push + 1).setWidth 4 :=
    fun e => slotOf_ne_enter p h (hslot.symm.trans e)
  constructor
  · rw [Proc.enter, setSlot_qget, if_neg hne]
    exact congrArg (fun i : BitVec 4 => p.q[i.toNat]) hslot
  · rw [Proc.enter, setSlot_qpend, if_neg hne]
    exact congrArg (fun i : BitVec 4 => p.qPend.getLsbD i.toNat) hslot

/-! ### A push and a pending push -/

theorem pushVal_qpend_zero (p : Proc) (w : Word) (k : Option (BitVec 5)) : (p.pushVal w k).qpend 0 = false := by
  cases k <;> exact enter_qpend_zero p w false

theorem pushVal_succ (p : Proc) (w : Word) (k : Option (BitVec 5)) {j : BitVec 4} (h : j.toNat < 15) :
    (p.pushVal w k).qget (j + 1) = p.qget j ∧ (p.pushVal w k).qpend (j + 1) = p.qpend j := by
  cases k <;> exact enter_succ p w false h

theorem pushPend_qpend_zero (p : Proc) (t : Nat) (k : Option (BitVec 5)) : (p.pushPend t k).1.qpend 0 = true := by
  cases k <;> exact enter_qpend_zero p 0 true

theorem pushPend_succ (p : Proc) (t : Nat) (k : Option (BitVec 5)) {j : BitVec 4} (h : j.toNat < 15) :
    (p.pushPend t k).1.qget (j + 1) = p.qget j ∧ (p.pushPend t k).1.qpend (j + 1) = p.qpend j := by
  cases k <;> exact enter_succ p 0 true h

/-- A write of a named register takes its mark away, and no other (R150). -/
theorem mem_nset_nPend (p : Proc) (r : BitVec 5) (w : Word) (e : BitVec 5 × Nat) :
    e ∈ (p.nset r w).nPend ↔ e ∈ p.nPend ∧ e.1 ≠ r := by
  simp [Proc.nset]

theorem mem_pushVal_nPend (p : Proc) (w : Word) (k : Option (BitVec 5)) (e : BitVec 5 × Nat) :
    e ∈ (p.pushVal w k).nPend ↔ e ∈ p.nPend ∧ k ≠ some e.1 := by
  cases k with
  | none => simp [pushVal_none, Proc.enter, Proc.setSlot]
  | some r =>
    rw [pushVal_some, mem_nset_nPend]
    simp [Proc.enter, Proc.setSlot, eq_comm]

theorem mem_pushPend_nPend (p : Proc) (t : Nat) (r : BitVec 5) : (r, t) ∈ (p.pushPend t (some r)).1.nPend := List.mem_cons_self

theorem pushVal_frame (p : Proc) (w : Word) (k : Option (BitVec 5)) :
    let q := p.pushVal w k
    q = { p with q := q.q, qPend := q.qPend, push := p.push + 1, n := q.n, nPend := q.nPend } := by
  cases k <;> rfl

theorem pushPend_frame (p : Proc) (t : Nat) (k : Option (BitVec 5)) :
    let q := (p.pushPend t k).1
    q = { p with q := q.q, qPend := q.qPend, push := q.push, nPend := q.nPend } := by
  cases k <;> rfl

theorem push_proc (s : State) (i : Issue) (w : Word) (k : Keep) :
    (s.push i w k).proc i.proc = (s.proc i.proc).pushVal w (i.keep k) := State.proc_setProc_same _ _ _

/-! ### The arrival of one value, at its slot and at its keep (R149, R150) -/

/-- The reservations of a push of one value, kept in one register. -/
def oneTgt (at_ : BitVec 32) (r : BitVec 5) : Tgt := { slots := [at_], keeps := [r] }
/-- One value, for the slot and for the keep. -/
def oneValue (w : Word) : Deliver := { vals := [w], kept := [w] }

section Arrival

variable (p : Proc) (t : Nat) (at_ : BitVec 32) (r : BitVec 5) (w : Word)

/-- The value of a pending push that keeps arrives, at whatever its issuer is by then. -/
theorem fill_pushPend (u : Proc) : u.fill t (p.pushPend t (some r)).2 { vals := [w], kept := [w] } =
    u.fill t (oneTgt (p.push + 1) r) (oneValue w) := rfl

theorem fill_one : p.fill t (oneTgt at_ r) (oneValue w) = (p.fillSlot at_ w).fillKeep t r w := rfl

/-- The keep touches no slot. -/
theorem fillKeep_ring (j : BitVec 4) : (p.fillKeep t r w).qget j = p.qget j ∧ (p.fillKeep t r w).qpend j = p.qpend j := by
  unfold Proc.fillKeep
  split <;> exact ⟨rfl, rfl⟩

/-- The slot touches no named register and no mark. -/
theorem fillSlot_named : (p.fillSlot at_ w).n = p.n ∧ (p.fillSlot at_ w).nPend = p.nPend := by
  unfold Proc.fillSlot
  split <;> exact ⟨rfl, rfl⟩

variable {p at_} in
/-- The slot that was reserved `j` pushes ago holds the value that arrives. -/
theorem fill_one_slot {j : BitVec 4} (h : p.push = at_ + j.setWidth 32) :
    let c := p.fill t (oneTgt at_ r) (oneValue w)
    c.qget j = w ∧ c.qpend j = false := by
  have hnear : (p.push - at_).toNat < 16 := by rw [h]; bv_omega
  have hslot : p.slotOf j = at_.setWidth 4 := by rw [Proc.slotOf, h]; bv_omega
  obtain ⟨hget, hpend⟩ := fillKeep_ring (p.fillSlot at_ w) t r w j
  dsimp only
  rw [fill_one, hget, hpend, Proc.fillSlot, if_pos hnear, setSlot_qget, setSlot_qpend, if_pos hslot, if_pos hslot]
  exact ⟨rfl, rfl⟩

variable {p at_} in
/-- Every other slot reads as before. -/
theorem fill_one_slot_other {j l : BitVec 4} (h : p.push = at_ + j.setWidth 32) (hl : l ≠ j) :
    (p.fill t (oneTgt at_ r) (oneValue w)).qget l = p.qget l := by
  have hslot : p.slotOf l ≠ at_.setWidth 4 := by rw [Proc.slotOf, h]; bv_omega
  rw [fill_one, (fillKeep_ring ..).1, Proc.fillSlot]
  split
  · rw [setSlot_qget, if_neg hslot]
  · rfl

variable {p t r} in
theorem fill_one_of_marked (h : (r, t) ∈ p.nPend) : (p.fill t (oneTgt at_ r) (oneValue w)).nget r = w := by
  have hmark : (p.fillSlot at_ w).nPend.any (fun e => e.1 == r && e.2 == t) = true := by
    rw [(fillSlot_named p at_ w).2]
    exact List.any_eq_true.2 ⟨_, h, by simp⟩
  rw [fill_one, Proc.fillKeep, if_pos hmark]
  simp [Proc.nget, Proc.nset]

variable {p r} in
theorem fill_one_of_unmarked (h : ∀ e ∈ p.nPend, e.1 ≠ r) : (p.fill t (oneTgt at_ r) (oneValue w)).nget r = p.nget r := by
  obtain ⟨hn, hmarks⟩ := fillSlot_named p at_ w
  have hmark : ¬ (p.fillSlot at_ w).nPend.any (fun e => e.1 == r && e.2 == t) = true := by
    rw [hmarks, List.any_eq_true]
    rintro ⟨e, he, hr⟩
    exact h e he (by simpa using (Bool.and_eq_true_iff.1 hr).1)
  rw [fill_one, Proc.fillKeep, if_neg hmark, Proc.nget, Proc.nget]
  simp only [hn]

end Arrival

/-! ### A write of a named register through a window (R166) -/

theorem proc_lateImg (s : State) (k j : Nat) : (s.lateImg k).proc j = s.proc j := by
  simp only [State.lateImg, State.writeImg]
  split
  · rfl
  · split <;> rfl

theorem winWrite_named (s : State) (k : Nat) (r : BitVec 5) (v : Word) :
    (s.winWrite k (0x40000 + 8 * r.toNat) v).proc k = (s.proc k).nset r v := by
  have hr : r.toNat < 32 := r.isLt
  have hregion : wRegion (0x40000 + 8 * r.toNat) 8 = .n := by
    rw [wRegion, if_neg (by omega), if_pos (by omega)]
  have hreg : BitVec.ofNat 5 ((0x40000 + 8 * r.toNat - 0x40000) / 8) = r := by
    rw [Nat.add_sub_cancel_left, Nat.mul_div_cancel_left _ (by decide)]
    exact BitVec.eq_of_toNat_eq (by simp)
  simp only [State.winWrite, hregion, hreg, proc_lateImg, State.modProc_eq, State.proc_setProc_same]

theorem nset_nget_same (p : Proc) (r : BitVec 5) (v : Word) : (p.nset r v).nget r = v := by
  simp [Proc.nget, Proc.nset]

/-! ### The obligations -/

/-- Settles O9: the ring by `enter_succ`, the named registers by `pushVal_nget`, their marks by `mem_pushVal_nPend`, and nothing else by
`pushVal_frame`. -/
theorem pushEffect : Obligations.PushEffect := by
  intro s i w k
  dsimp only
  rw [push_proc]
  refine ⟨pushVal_qget0 .., pushVal_qpend_zero .., fun j => pushVal_succ _ w _, ?kept, ?others, pushVal_frame .., rfl,
    fun j => push_proc_other s i w k⟩
  case kept =>
    rintro r rfl
    refine ⟨(pushVal_nget ..).trans (if_pos rfl), fun e he h => ?_⟩
    exact ((mem_pushVal_nPend ..).1 he).2 (congrArg some h.symm)
  case others =>
    refine fun r hr => ⟨(pushVal_nget ..).trans (if_neg hr), fun t => ?_⟩
    rw [mem_pushVal_nPend]
    exact and_iff_left hr

/-- Settles O10: the value finds its mark as the pending push left it, and finds none after a push that keeps into the register or a
write through a window. -/
theorem pendingKeep : Obligations.PendingKeep := by
  intro p t r w v
  have hnow : (p.pushPend t (some r)).1.push = p.push + 1 + (0 : BitVec 4).setWidth 32 := by simp
  dsimp only
  simp only [fill_pushPend]
  refine ⟨?read, ⟨fill_one_of_marked _ _ (mem_pushPend_nPend p t r), fill_one_slot t r w hnow⟩, ?push, ?window⟩
  case read =>
    intro i hi l hl he
    refine readSrc_unready he (.inr ⟨l, rfl, t, ?_⟩)
    rw [hi, hl]
    exact mem_pushPend_nPend p t r
  case push =>
    have hnext : ((p.pushPend t (some r)).1.pushVal v (some r)).push = p.push + 1 + (1 : BitVec 4).setWidth 32 := by simp
    have hmark : ∀ e ∈ ((p.pushPend t (some r)).1.pushVal v (some r)).nPend, e.1 ≠ r :=
      fun e he h => ((mem_pushVal_nPend ..).1 he).2 (congrArg some h.symm)
    obtain ⟨hget, hpend⟩ := fill_one_slot t r w hnext
    refine ⟨?_, hget, hpend, ?_⟩
    · rw [fill_one_of_unmarked _ _ _ hmark, pushVal_nget, if_pos rfl]
    · rw [fill_one_slot_other t r w hnext (by decide), pushVal_qget0]
  case window =>
    intro s k hs
    rw [winWrite_named, hs]
    refine ⟨?_, fill_one_slot t r w hnow⟩
    rw [fill_one_of_unmarked _ _ _ fun e he => ((mem_nset_nPend ..).1 he).2, nset_nget_same]

/-- Settles O22: the issuer by the lemmas on a pending push, and the transaction by `issuePend_txn`. -/
theorem pendingIssue : Obligations.PendingIssue := by
  intro s i x k
  dsimp only
  rw [issuePend_proc]
  refine ⟨pushPend_qpend_zero .., pushPend_push .., pushPend_n .., ?out, fun j => pushPend_succ _ _ _, ?marked, ?unmarked, ?frame,
    ⟨_, issuePend_txn .., rfl, pushPend_slots .., ?keeps, rfl⟩, rfl, fun j => issuePend_proc_other s i x k,
    fun u => nget?_nset_other _ _, fun a => rfl⟩
  case out => rw [pushPend_frame]
  case marked =>
    rintro r rfl
    exact mem_pushPend_nPend ..
  case unmarked =>
    rintro rfl
    rfl
  case frame => cases k <;> rfl
  case keeps => cases k <;> rfl

end Sys2Proof.Machine
end

section
/-! SUPPORT. An issue turn (O58): which move comes to the issue of a word, what is fetched and decoded where nothing forbids it, how a lone
word and a pair then run, and the end of the turn. -/

namespace Sys2Proof.Machine

/-! ### The moves that issue a word (R132, R356) -/

/-- A turn that falls to a running process, with nothing else to do first, issues its next word. -/
theorem takeTurn_issues {s : State} {k : Nat} (hst : ((s.landWindows k).proc k).st = .running)
    (hl : ((s.landWindows k).proc k).landed ≤ (s.landWindows k).cycle) (hf : ((s.landWindows k).proc k).faults = [])
    (he : ((s.landWindows k).proc k).exiting = false) : s.takeTurn k = (s.landWindows k).issueWord k := by
  simp [State.takeTurn, hst, hl, hf, he]

theorem turn_run {s : State} {core k cyc : Nat} (hn : s.nextTurn s.cycle s.turnCore 8 = some (cyc, .run core k)) :
    s.turn = ({ s.upTo cyc with turnCore := core + 1 } : State).takeTurn k := by
  simp only [State.turn, hn]

theorem engineTurn_issues {s : State} {k : Nat} (hth : (s.proc k).engine.isSome = true) (he : (s.proc k).exiting = false)
    (hst : (s.proc k).st = .running) (hl : (s.proc k).landed ≤ s.cycle) : s.engineTurn k = s.issueWord k := by
  simp [State.engineTurn, Option.isNone_eq_false_iff.2 hth, he, hst, hl]

theorem step_turn {s : State} {l : List Move} (ha : s.agenda = .turn :: l) (hs : s.stopped = false) :
    step s = ({ s with agenda := l } : State).turn := by
  simp [step, ha, State.move, hs]

theorem step_engine {s : State} {l : List Move} {k : Nat} (ha : s.agenda = .engine k :: l) (hs : s.stopped = false) :
    step s = ({ s with agenda := l } : State).engineTurn k := by
  simp [step, ha, State.move, hs]

/-! ### What is fetched (R234, R246, R248) -/

theorem bit_set {w lo : Nat} (h : fld w lo 1 = 1) : bit w lo = true := by rw [bit, h]; rfl
theorem bit_clear {w lo : Nat} (h : fld w lo 1 = 0) : bit w lo = false := by rw [bit, h]; rfl

/-- A word that decodes to an instruction its issuer may use passes its checks. -/
theorem wordChecks_ok {s : State} {i : Issue} {w : Nat} {x : Instr} (hd : decodeWord w = .ok x)
    (hm : i.pre.engine.isSome = true → engineLegal x = true) (hp : wordPriv s i x = true) : wordChecks s i w = .ok x := by
  have hlegal : (i.pre.engine.isSome && !engineLegal x) = false := by
    cases h : i.pre.engine.isSome with
    | false => rfl
    | true => rw [hm h]; rfl
  simp [wordChecks, hd, hlegal, hp]

section Fetch

variable {s t t' : State} {i : Issue} {w v : Nat} {x y : Instr}

/-- A lone word, outside a repetition. -/
theorem fetchDecode_lone (hrep : i.pre.rep.active = false) (hf : s.fetch i i.loc = .ok (t, w)) (hL : fld w 31 1 = 1)
    (hx : wordChecks t i w = .ok x) : s.fetchDecode i = (t, .ok { a := x, b := none, sw := bit w 30 }) := by
  simp [State.fetchDecode, hf, hrep, bit_set hL, hx]

/-- A pair: the A word stands at an aligned address with L = 0 and its class bit 0, the B word after it with L = 0, its class bit 1 and
no marker (R234). -/
theorem fetchDecode_pair (hrep : i.pre.rep.active = false) (hf : s.fetch i i.loc = .ok (t, w)) (hL : fld w 31 1 = 0)
    (hal : i.loc.toNat % 8 = 0) (hA : fld w 29 1 = 0) (hf' : t.fetch i (i.loc + 4) = .ok (t', v)) (hL' : fld v 31 1 = 0)
    (hB : fld v 29 1 = 1) (hS : fld v 30 1 = 0) (hx : wordChecks t' i w = .ok x)
    (hy : wordChecks t' { i with bword := true } v = .ok y) :
    s.fetchDecode i = (t', .ok { a := x, b := some y, sw := bit w 30 }) := by
  simp only [State.fetchDecode, hf, hrep, hal, bit_clear hL, bit_clear hA, Bool.false_and, bne_self_eq_false, Bool.false_eq_true,
    if_false, hf', bit_clear hL', bit_set hB, bit_clear hS, Bool.not_true, Bool.or_self, hx, hy]

/-- Outside a repetition a word runs as its meaning says. -/
theorem runWord_eq_exec (hrep : i.pre.rep.active = false) (s : State) (x : Instr) :
    runWord s i x = exec x { s with issue := some i } := by
  simp [runWord, hrep]

theorem runFetched_lone (hrep : i.pre.rep.active = false) (s : State) (x : Instr) (sw : Bool) :
    runFetched s i { a := x, b := none, sw := sw } = exec x { s with issue := some i } := by
  simp only [runFetched, runWord_eq_exec hrep]
  cases exec x { s with issue := some i } with
  | next u => cases hu : u.issue <;> simp only [hu]
  | fault r => rfl
  | refused r => rfl

/-- A pair outside a repetition: the A word by its meaning, and where it has issued the B word on what it leaves. -/
def runPair (s : State) (i : Issue) (x y : Instr) : Host.Outcome State Fault Refusal :=
  match exec x { s with issue := some i } with
  | .next u =>
    match u.issue with
    | some m => runB s u m y
    | none => .next u
  | r => r

theorem runFetched_pair (hrep : i.pre.rep.active = false) (s : State) (x y : Instr) (sw : Bool) :
    runFetched s i { a := x, b := some y, sw := sw } = runPair s i x y := by
  simp only [runFetched, runPair, runWord_eq_exec hrep]
  cases exec x { s with issue := some i } with
  | next u => cases hu : u.issue <;> simp only [hu]
  | fault r => rfl
  | refused r => rfl

end Fetch

/-! ### The turn of a word (R148, R151) -/

/-- The word in issue at a process's program counter. -/
def issueAt (p : Proc) (k : Nat) : Issue := { proc := k, loc := p.pc, next := p.pc, pre := p }

/-- The end of a turn: what has issued is committed and counts, what has not counts where its process is held, and the latch is empty
again. -/
def turnEnd (k : Nat) (pre : Proc) (sw : Bool) (r : Host.Outcome State Fault Refusal) : Host.Outcome State Fault Refusal :=
  match r with
  | .next u =>
    match u.issue with
    | some j => .next { (u.commit k pre j sw).countTurn k with issue := none, raised := none }
    | none => .next { (if (u.proc k).hold.isSome then u.countTurn k else u) with issue := none, raised := none }
  | r => r

/-- A turn runs what it has fetched, and ends. -/
theorem issueWord_fetched {s t : State} {k : Nat} {f : Fetched} (hh : (s.proc k).hold ≠ some .object)
    (hf : s.fetchDecode (issueAt (s.proc k) k) = (t, .ok f)) :
    s.issueWord k = turnEnd k (s.proc k) f.sw (runFetched { t with raised := none } { issueAt (s.proc k) k with
      next := (s.proc k).pc + (if f.b.isSome then 8 else 4), sw := f.sw } f) := by
  rw [issueAt] at hf
  simp only [State.issueWord, if_neg hh, hf, issueAt]
  rfl

section Commit

variable {u : State} {k : Nat} {pre : Proc} {j : Issue}

/-- What has issued moves the program counter to where its next word is. -/
theorem commit_of_no_marker (hrep : pre.rep.active = false) (he : (u.proc k).st ≠ .exited) (hd : (u.proc k).st ≠ .dormant) :
    u.commit k pre j false = u.setProc k { u.proc k with pc := j.next } := by
  simp [State.commit, hrep, he, hd]

/-- A switch marker parks its process while results are outstanding (R151). -/
theorem commit_parks (hrep : pre.rep.active = false) (hth : pre.engine = none) (hst : (u.proc k).st = .running)
    (ho : (u.proc k).out ≠ []) (hh : (u.proc k).hold = none) (hx : (u.proc k).exiting = false) :
    u.commit k pre j true = u.setProc k { u.proc k with pc := j.next, st := .parked, hold := some .results } := by
  simp [State.commit, hrep, hth, hst, ho, hh, hx]

end Commit

/-! ### The obligation -/

/-- Settles O58: a move of the agenda by `step_turn` and `step_engine`; the words by `fetchDecode_lone` and `fetchDecode_pair`, which
`issueWord_fetched` runs; and the end of the turn by the lemmas on `commit`. -/
theorem stepRunsDecoded : Obligations.StepRunsDecoded := by
  refine ⟨?turn, ?engine, fun s k hhold hrep => ⟨?lone, ?pair, ?commit⟩⟩
  case turn =>
    intro s l core k cyc ha hs s1 hn s2 hst hl hf he
    rw [step_turn ha hs, turn_run hn]
    exact takeTurn_issues hst hl hf he
  case engine =>
    intro s l k ha hs hth he hst hl
    rw [step_engine ha hs]
    exact engineTurn_issues hth he hst hl
  case lone =>
    intro t w x hf hL hx hmay hp
    have hfetch : s.fetchDecode (issueAt (s.proc k) k) = (t, .ok { a := x, b := none, sw := bit w 30 }) :=
      fetchDecode_lone hrep hf hL (wordChecks_ok hx hmay hp)
    exact (issueWord_fetched hhold hfetch).trans (congrArg (turnEnd k (s.proc k) (bit w 30)) (runFetched_lone hrep ..))
  case pair =>
    intro t t' w v x y hf hL hal hA hf' hL' hB hS hx hy hmx hmy hpx hpy
    have hfetch : s.fetchDecode (issueAt (s.proc k) k) = (t', .ok { a := x, b := some y, sw := bit w 30 }) :=
      fetchDecode_pair hrep hf hL hal hA hf' hL' hB hS (wordChecks_ok hx hmx hpx) (wordChecks_ok hy hmy hpy)
    exact (issueWord_fetched hhold hfetch).trans (congrArg (turnEnd k (s.proc k) (bit w 30)) (runFetched_pair hrep ..))
  case commit =>
    intro u j sw he hd
    refine ⟨?_, ?_⟩
    · rintro rfl
      exact commit_of_no_marker hrep he hd
    · rintro rfl hth ho hh hx hst
      exact commit_parks hrep hth hst ho hh hx

end Sys2Proof.Machine
end

section
/-! SUPPORT. A record of the fault area (O18): the words that a list of words written to memory gives back, and the fields of a record's
first word. -/

namespace Sys2Proof.Machine

/-! ### Words in memory (R4) -/

theorem leNat_leBytes (n v : Nat) : leNat (leBytes n v) = v % 256 ^ n := by
  induction n generalizing v with
  | zero => simp [leBytes, leNat, Nat.mod_one]
  | succ n ih =>
    rw [leBytes, leNat, ih, BitVec.toNat_ofNat, Nat.pow_succ' (m := 256)]
    exact Nat.mod_mul.symm

theorem readWord_writeBytes_leBytes (m : List Host.Cell) (k v : Nat) :
    readWord (writeBytes m k (leBytes 8 v)) k = BitVec.ofNat 64 v := by
  have h := readBytes_writeBytes m k (leBytes 8 v)
  rw [leBytes_length] at h
  rw [readWord, h, leNat_leBytes]
  exact BitVec.eq_of_toNat_eq (by simp)

theorem readWord_writeBytes_after (m : List Host.Cell) {k j : Nat} (bs : List Byte) (h : j + 8 ≤ k) :
    readWord (writeBytes m k bs) j = readWord m j := by rw [readWord, readBytes_writeBytes_after m bs h, readWord]

/-- Each of the words written one after the other reads back at its own place. -/
theorem readWord_writeBytes_words (m : List Host.Cell) (k : Nat) (ws : List Nat) (j : Nat) (hj : j < ws.length) :
    readWord (writeBytes m k (ws.flatMap (leBytes 8))) (k + 8 * j) = BitVec.ofNat 64 ws[j] := by
  induction ws generalizing m k j with
  | nil => exact absurd hj (Nat.not_lt_zero _)
  | cons w ws ih =>
    rw [List.flatMap_cons, writeBytes_append, leBytes_length]
    cases j with
    | zero => exact (readWord_writeBytes_after _ _ (by omega)).trans (readWord_writeBytes_leBytes m k w)
    | succ j =>
      rw [show k + 8 * (j + 1) = k + 8 + 8 * j by omega]
      exact ih _ _ j (Nat.lt_of_succ_lt_succ hj)

/-! ### The words of a record (Table 8.1) -/

theorem Kind.code_lt (k : Kind) : k.code < 2 ^ 16 := by cases k <;> decide

@[simp] theorem FRec.words_length (r : FRec) : r.words.length = 8 := rfl

theorem FRec.bytes_length (r : FRec) : r.bytes.length = 64 := by
  simp [FRec.bytes, FRec.words, leBytes_length]

/-- The fields of the first word of a record, packed as Table 8.1 places them. -/
theorem bits_packed {c d b l sub inst : Nat} (hc : c < 2 ^ 16) (hd : d < 2) (hb : b < 2) (hl : l < 4) (hs : sub < 256)
    (hi : inst < 2 ^ 32) {w : Nat} (hw : w = c * 2 ^ 48 + d * 2 ^ 47 + b * 2 ^ 46 + l * 2 ^ 44 + sub * 2 ^ 32 + inst) :
    w < 2 ^ 64 ∧ bits w 63 48 = c ∧ bits w 47 47 = d ∧ bits w 46 46 = b ∧ bits w 45 44 = l ∧ bits w 39 32 = sub ∧
      bits w 31 0 = inst := by
  simp only [bits]
  omega

theorem FRec.bits_firstWord {r : FRec} (hl : r.level < 4) (hs : r.sub < 256) (hi : r.inst < 2 ^ 32) :
    let w := (BitVec.ofNat 64 r.words[0]).toNat
    bits w 63 48 = r.kind.code ∧ bits w 47 47 = (if r.cls = .d then 1 else 0) ∧ bits w 46 46 = (if r.bword then 1 else 0) ∧
      bits w 45 44 = r.level ∧ bits w 39 32 = r.sub ∧ bits w 31 0 = r.inst := by
  obtain ⟨hlt, hfields⟩ := bits_packed r.kind.code_lt (d := if r.cls = .d then 1 else 0) (b := if r.bword then 1 else 0)
    (by split <;> decide) (by split <;> decide) hl hs hi (w := r.words[0])
    (by simpa [FRec.words, ite_mul, Nat.mod_eq_of_lt hl, Nat.mod_eq_of_lt hs] using hi)
  rwa [BitVec.toNat_ofNat, Nat.mod_eq_of_lt hlt]

/-! ### The write of a record (R169) -/

/-- The record as its slot of the fault area holds it. -/
theorem writeRec_record (s : State) (r : FRec) :
    (s.writeRec r).2 = { r with area := (s.inst r.inst).area + (s.inst r.inst).written % 64 * 64 } := rfl

theorem writeRec_mem (s : State) (r : FRec) : (s.writeRec r).1.mem = if (s.inst r.inst).areaPa = 0 then s.mem
    else writeBytes s.mem ((s.inst r.inst).areaPa + (s.inst r.inst).written % 64 * 64) (s.writeRec r).2.bytes := rfl

/-- Settles O18: the record's bytes are its words one after the other (`readWord_writeBytes_words`), and the first is unpacked by
`FRec.bits_firstWord`. -/
theorem recordInMemory : Obligations.RecordInMemory := by
  intro s r v place t w
  have hword (hp : v.areaPa ≠ 0) (j : Nat) (hj : j < w.words.length) : readWord t.mem (place + 8 * j) = BitVec.ofNat 64 w.words[j] := by
    rw [writeRec_mem, if_neg hp]
    exact readWord_writeBytes_words _ _ _ j hj
  refine ⟨fun hp => ⟨?bytes, ?frame, ?loc, ?addr, ?time, ?first⟩, ?noArea, rfl, rfl, rfl⟩
  case bytes =>
    rw [writeRec_mem, if_neg hp, ← FRec.bytes_length w]
    exact readBytes_writeBytes _ _ _
  case frame =>
    intro a ha
    rw [writeRec_mem, if_neg hp]
    exact readByte_writeBytes_other _ _ _ _ (by rwa [FRec.bytes_length])
  case loc => exact (hword hp 1 (by simp)).trans (BitVec.ofNat_toNat ..)
  case addr => exact (hword hp 3 (by simp)).trans (BitVec.ofNat_toNat ..)
  case time => exact (hword hp 4 (by simp)).trans (BitVec.ofNat_toNat ..)
  case first =>
    intro hl hs hi
    have h0 : readWord t.mem place = BitVec.ofNat 64 w.words[0] := hword hp 0 (by simp)
    simp only [h0]
    exact FRec.bits_firstWord (r := w) hl hs hi
  case noArea =>
    intro hp
    rw [writeRec_mem, if_pos hp]

end Sys2Proof.Machine
end

section
/-! SUPPORT. Taking a precise fault (O17): how a process stands once it is FAULTED, where a new record goes, and what filing it leaves. -/

namespace Sys2Proof.Machine

/-! ### Instances that are looked up after a change in place -/

theorem inst_modInst (s : State) (i j : Nat) (f : Inst → Inst) : (s.modInst i f).inst j =
    if j = i then ((nget? s.insts j).map f).getD { part := 0, obj := 0 } else s.inst j := by
  simp only [State.inst, State.modInst, nget, nget?_nmod]
  split <;> rfl

/-- A change that leaves the handler queues alone. -/
theorem queue_modInst (s : State) (i j : Nat) {f : Inst → Inst} (hf : ∀ v, (f v).queue = v.queue) :
    ((s.modInst i f).inst j).queue = (s.inst j).queue := by
  rw [inst_modInst, State.inst, nget]
  split
  · cases nget? s.insts j with
    | none => rfl
    | some v => exact hf v
  · rfl

/-- A change that leaves an instance's object alone leaves the handler that its network declares. -/
theorem handlerIndex_modInst (s : State) (i j : Nat) {f : Inst → Inst} (hf : ∀ v, (f v).obj = v.obj) :
    handlerIndex (s.modInst i f) j = handlerIndex s j := by
  simp only [handlerIndex, State.modInst, nget?_nmod]
  by_cases hj : j = i
  · rw [if_pos hj]
    cases nget? s.insts j with
    | none => rfl
    | some v => simp only [Option.map_some, hf]
  · rw [if_neg hj]

/-! ### Where a new record goes (R172, R174) -/

/-- The records of a process go to its network's handler queue, which has room. -/
structure State.Handled (s : State) (k : Nat) : Prop where
  manager : isManager s k = false
  handler : (s.proc k).isHandler = false
  index : handlerIndex s (s.proc k).inst ≠ none
  room : (s.inst (s.proc k).inst).queue.length < 16

/-- A record of such a process joins the handler queue. -/
theorem route_queues {s : State} {id : Nat} {r : FRec} (h : s.Handled r.handle) (hi : r.inst = (s.proc r.handle).inst)
    (hr : nget? s.recs id = some r) : s.route id = s.modInst r.inst fun i => { i with queue := i.queue ++ [id] } := by
  have hx : (handlerIndex s r.inst).isNone = false := Option.isNone_eq_false_iff.2 (Option.isSome_iff_ne_none.2 (hi ▸ h.index))
  have hq : (s.inst r.inst).queue.length < 16 := hi ▸ h.room
  simp [State.route, hr, h.manager, h.handler, hx, hq]

/-- The state in which a new record of the fault area has been numbered and written, and is still to go on its way. -/
def State.recorded (s : State) (r : FRec) : State :=
  let w := ({ s with nextId := s.nextId + 1 } : State).writeRec r
  { w.1 with recs := nset w.1.recs s.nextId w.2 }

theorem file_new {s : State} {r : FRec} (ha : r.area = 0) : (s.file r).1 = (s.recorded r).route s.nextId := by
  simp only [State.file, if_pos ha]; rfl

theorem State.Handled.recorded {s : State} {k : Nat} (h : s.Handled k) (r : FRec) : (s.recorded r).Handled k where
  manager := h.manager
  handler := h.handler
  index := by
    have e : handlerIndex (s.recorded r) (s.proc k).inst = handlerIndex s (s.proc k).inst :=
      handlerIndex_modInst s r.inst _ fun _ => rfl
    exact e ▸ h.index
  room := by
    have e : ((s.recorded r).inst (s.proc k).inst).queue = (s.inst (s.proc k).inst).queue :=
      queue_modInst s r.inst _ fun _ => rfl
    exact e ▸ h.room

/-- A new record that goes to a handler queue stands as it was written, and no process changes. -/
theorem file_queues {s : State} {r : FRec} (h : s.Handled r.handle) (hi : r.inst = (s.proc r.handle).inst) (ha : r.area = 0) :
    (s.file r).1.procs = s.procs ∧ (s.file r).1.issue = s.issue ∧
      nget? (s.file r).1.recs s.nextId = some (s.writeRec r).2 := by
  have hr : nget? (s.recorded r).recs s.nextId = some (s.writeRec r).2 := nget?_nset_same ..
  rw [file_new ha, route_queues (r := (s.writeRec r).2) (h.recorded r) hi hr]
  exact ⟨rfl, rfl, hr⟩

/-! ### The process that is FAULTED (R116, R170) -/

/-- The process FAULTED at `pc` with the record `id` held; only a gang member keeps its context. -/
def Proc.faulted (p : Proc) (pc : Word) (id : Nat) : Proc :=
  { p with st := .faulted, pc := pc, hold := none, wkind := .none, deadline := 0, held := some id
           ctx := if p.gang = 0 then none else p.ctx }

/-- The state in which process `k` is FAULTED, and its record is still to be written. -/
def State.faultAt (s : State) (k : Nat) (pc : Word) : State :=
  let t := (s.dequeue k).modProc k fun p =>
    { p with st := .faulted, pc := pc, hold := none, wkind := .none, deadline := 0, held := some s.nextId }
  if (t.proc k).gang = 0 then t.leaveCtx k else t

theorem takeFault_eq {s : State} {k : Nat} (r : FRec) (pc : Word) (h : (s.proc k).engine = none) :
    s.takeFault k r pc = ((s.faultAt k pc).file r).1 := by
  simp only [State.takeFault, h, Option.isSome_none, Bool.false_eq_true, if_false]; rfl

theorem leaveCtx_frame (s : State) (k : Nat) :
    ∃ cores procs, s.leaveCtx k = { s with cores := cores, procs := procs } := by
  unfold State.leaveCtx
  dsimp only
  split
  · exact ⟨s.cores, s.procs, rfl⟩
  · exact ⟨_, _, rfl⟩

theorem proc_leaveCtx_other (s : State) {k j : Nat} (h : j ≠ k) : (s.leaveCtx k).proc j = s.proc j := by
  unfold State.leaveCtx
  dsimp only
  split
  · rfl
  · simp [State.proc_setProc_other _ _ _ h]

theorem faultAt_frame (s : State) (k : Nat) (pc : Word) :
    ∃ cores procs, s.faultAt k pc = { s with cores := cores, procs := procs } := by
  unfold State.faultAt
  dsimp only
  split
  · obtain ⟨cores, procs, h⟩ := leaveCtx_frame _ k
    exact ⟨cores, procs, h⟩
  · exact ⟨_, _, rfl⟩

theorem proc_faultAt (s : State) (k : Nat) (pc : Word) : (s.faultAt k pc).proc k = (s.proc k).faulted pc s.nextId := by
  by_cases hg : (s.proc k).gang = 0
  · simp [State.faultAt, hg, proc_leaveCtx, Proc.faulted]
  · simp [State.faultAt, hg, Proc.faulted]

theorem proc_faultAt_other (s : State) {k j : Nat} (pc : Word) (h : j ≠ k) : (s.faultAt k pc).proc j = s.proc j := by
  unfold State.faultAt
  dsimp only
  split
  · rw [proc_leaveCtx_other _ h, State.modProc_eq, State.proc_setProc_other _ _ _ h, dequeue_proc]
  · rw [State.modProc_eq, State.proc_setProc_other _ _ _ h, dequeue_proc]

theorem State.Handled.faultAt {s : State} {k : Nat} (h : s.Handled k) (pc : Word) : (s.faultAt k pc).Handled k := by
  have hp := proc_faultAt s k pc
  obtain ⟨cores, procs, hf⟩ := faultAt_frame s k pc
  have hi : ((s.faultAt k pc).proc k).inst = (s.proc k).inst := by rw [hp, Proc.faulted]
  exact {
    manager := by rw [hf]; exact h.manager
    handler := by rw [hp]; exact h.handler
    index := by rw [hi, hf]; exact h.index
    room := by rw [hi, hf]; exact h.room }

/-- TAKING A FAULT whose new record goes to the handler queue. -/
theorem takeFault_queues {s : State} {k : Nat} {r : FRec} (pc : Word) (hth : (s.proc k).engine = none) (h : s.Handled k)
    (hk : r.handle = k) (hi : r.inst = (s.proc k).inst) (ha : r.area = 0) :
    (s.takeFault k r pc).issue = s.issue ∧ (s.takeFault k r pc).proc k = (s.proc k).faulted pc s.nextId ∧
      (∀ j, j ≠ k → (s.takeFault k r pc).proc j = s.proc j) ∧
      nget? (s.takeFault k r pc).recs s.nextId = some (s.writeRec r).2 := by
  subst hk
  have hp := proc_faultAt s r.handle pc
  have hi' : r.inst = ((s.faultAt r.handle pc).proc r.handle).inst := by rw [hp, hi]; rfl
  obtain ⟨hprocs, hissue, hrec⟩ := file_queues (h.faultAt pc) hi' ha
  have hproc (j : Nat) : ((s.faultAt r.handle pc).file r).1.proc j = (s.faultAt r.handle pc).proc j := by
    simp only [State.proc, hprocs]
  obtain ⟨cores, procs, hf⟩ := faultAt_frame s r.handle pc
  rw [takeFault_eq r pc hth]
  refine ⟨?_, (hproc _).trans hp, fun j hj => (hproc j).trans (proc_faultAt_other s pc hj), ?_⟩
  · rw [hissue, hf]
  · rw [hf] at hrec ⊢
    exact hrec

/-! ### A fault at the word in issue -/

/-- Raising a fault empties the latch and takes it at the word; an isolation event is the module's. -/
theorem raise_some {s : State} {i : Issue} (tr : Trap) (h : s.issue = some i) : ∃ ring, s.raise tr =
    ({ s with issue := none, raised := some tr, ring := ring } : State).takeFault i.proc
      (mkRec s i.proc .p tr i.loc i.bword) i.loc := by
  unfold State.raise
  rw [h]
  dsimp only
  split
  · exact ⟨_, rfl⟩
  · exact ⟨_, rfl⟩

/-- Settles O17: the fault is taken at the word (`raise_some`), and its record goes to the handler queue (`takeFault_queues`). -/
theorem takingFault : Obligations.TakingFault := by
  intro s i tr hs hth hh hx hm hq hlt t p q
  obtain ⟨ring, hraise⟩ := raise_some tr hs
  have hhandle : (mkRec s i.proc .p tr i.loc i.bword).handle = i.proc := Nat.mod_eq_of_lt hlt
  obtain ⟨hissue, hproc, hother, hrec⟩ :=
    takeFault_queues (s := { s with issue := none, raised := some tr, ring := ring }) i.loc hth ⟨hm, hh, hx, hq⟩ hhandle rfl rfl
  rw [← hraise] at hissue hproc hother hrec
  have hfaulted : q = p.faulted i.loc s.nextId := hproc
  refine ⟨hissue, ?_⟩
  rw [hfaulted]
  exact ⟨rfl, rfl, rfl, rfl, rfl, rfl, rfl, rfl, rfl, rfl, rfl, rfl, rfl, rfl, rfl, fun hg => if_pos hg, fun hg => if_neg hg,
    ⟨_, hrec, rfl, rfl, rfl, rfl, rfl, rfl, rfl, rfl, rfl, hhandle, rfl, rfl, rfl⟩, hother⟩

end Sys2Proof.Machine
end

section
/-! SUPPORT. Delivery of a failure at a turn (O44): what the event does, and a process on which it does more than to take the fault. -/

namespace Sys2Proof.Machine

/-- CLASS_C_FAULT_DELIVERY withdraws the word at whose barrier or lock the process is held, and then takes the fault (R170, R79). -/
theorem exec_classCFaultDelivery {s : State} {k : Nat} {r : FRec} {t : List FRec} (hc : (s.proc k).ctx.isSome = true)
    (hst : (s.proc k).st = .running ∨ (s.proc k).st = .parked) (hf : (s.proc k).faults = r :: t) :
    exec (.classCFaultDelivery k) s =
      .next (((s.undoHeld k).modProc k fun p => { p with faults := t }).takeFault k r (s.proc k).pc) := by
  have hexec : exec (.classCFaultDelivery k) s = execClassCFaultDelivery k s := rfl
  simp only [hexec, execClassCFaultDelivery, if_pos (And.intro hc hst), State.deliverC, hf]

/-- A read that an earlier word of process 1 issued has failed. -/
def failedRead : FRec := { kind := .uncorrectableData, cls := .c, inst := 5, loc := 0xFFFC, handle := 1, area := 64 }

/-- Process 1, a gang member, is PARKED at the barrier of its `mgang`, transaction 7, and `failedRead` waits for it. Its network
declares a handler. -/
def atBarrier : State :=
  { State.reset with
    parts := [(0, { level := 1, clusters := 1 })]
    objs := [(3, { part := 0, img := { procs := [{}, { spawned := true }], handler := some 1 }, codeVa := 0x10000, dataVa := 0x20000,
                   chans := [], tys := [], block := [] })]
    insts := [(5, { part := 0, obj := 3 })]
    gangs := [(1, { part := 0, cluster := 0, members := [1], st := .running, barrier := [(0, 7)] })]
    procs := [(1, { st := .parked, pc := 0x10000, inst := 5, ctx := some 0, gang := 1, hold := some .barrier, faults := [failedRead] })]
    txns := [(7, { issuer := 1, core := 0, part := 0, inst := 5, loc := 0x10000, stage := .waiting
                   op := .mgang 0 16 0 (some 0) 0 0 false [] 0 [] })] }

/-- The delivery withdraws the `mgang`. -/
theorem atBarrier_delivered :
    (((atBarrier.undoHeld 1).modProc 1 fun p => { p with faults := [] }).takeFault 1 failedRead (atBarrier.proc 1).pc).txns = [] :=
  rfl

/-- Taking the fault alone leaves the `mgang` at its barrier. -/
theorem atBarrier_faulted :
    ((atBarrier.modProc 1 fun p => { p with faults := [] }).takeFault 1 failedRead (atBarrier.proc 1).pc).txns = atBarrier.txns :=
  rfl

/-- Refutes O44: its clause on CLASS_C_FAULT_DELIVERY has the process take the fault and nothing more. The process of `atBarrier` is
held at the barrier of an `mgang`, which the delivery withdraws first (`State.undoHeld`), so that the transaction is gone; taking the fault
alone keeps it. -/
theorem not_handlersAndFirings : ¬ Obligations.HandlersAndFirings := by
  rintro ⟨-, delivery, -, -⟩
  have hc : (atBarrier.proc 1).ctx.isSome = true := rfl
  have hst : (atBarrier.proc 1).st = .running ∨ (atBarrier.proc 1).st = .parked := .inr rfl
  have hf : (atBarrier.proc 1).faults = [failedRead] := rfl
  have h := (exec_classCFaultDelivery hc hst hf).symm.trans (delivery atBarrier 1 failedRead [] hc hst hf)
  have htxns := congrArg State.txns (Host.Outcome.next.inj h)
  rw [atBarrier_delivered, atBarrier_faulted] at htxns
  exact nomatch htxns

end Sys2Proof.Machine
end

section
/-! SUPPORT. Atomics at their homes (O37): what an atomic does before its word is written, and what it leaves. -/

namespace Sys2Proof.Machine

/-! ### What an atomic does before its word is written (R109, R190, R198) -/

theorem learn_eq (s : State) (k : Nat) (c : Clock) : ∃ p, s.learn k c = { s with procs := p } := by
  unfold State.learn
  split
  · exact ⟨_, rfl⟩
  · exact ⟨_, rfl⟩

theorem miss_eq (s : State) (x : Txn) : ∃ p, s.miss x = { s with procs := p } := by
  unfold State.miss
  dsimp only
  split
  · exact ⟨_, rfl⟩
  · exact ⟨_, rfl⟩

theorem cacheReply_mem (s : State) (t : Nat) (x : Txn) (w : Word) : (s.cacheReply t x w).mem = s.mem := by
  unfold State.cacheReply
  split
  · rfl
  · rfl

/-- An atomic's access is counted, its lateness noted, and its die and issuer learn of what it returns; memory and the motions stand. -/
theorem noted_spec (s : State) (x : Txn) (l : List Part8) (d : Nat) (v : Clock) :
    let u := (((s.countLines l true).miss x).markSeen d l).learn x.issuer v
    u.mem = s.mem ∧ u.motions = s.motions := by
  obtain ⟨lines, hot, rows, hcount⟩ := State.Counts.countLines s l true
  obtain ⟨p, hmiss⟩ := miss_eq (s.countLines l true) x
  obtain ⟨q, hlearn⟩ := learn_eq (((s.countLines l true).miss x).markSeen d l) x.issuer v
  dsimp only
  rw [hlearn, hmiss, hcount]
  exact ⟨rfl, rfl⟩

/-! ### What an atomic leaves (R204, R294, R295) -/

section Atomic

variable {s : State} {t : Nat} {x : Txn}

/-- HOME_ATOMIC_APPLY of an atomic that may be served, whose memory detects no error: it is executed. -/
theorem exec_homeAtomicApply (ht : nget? s.txns t = some x) (hrole : x.op.role = .at_) (hc : s.canServe t x = true) :
    exec (.homeAtomicApply ⟨t, .whole⟩) s = .next (s.serveAtomic t x) := by
  have harm : exec (.homeAtomicApply ⟨t, .whole⟩) s = execHomeAtomicApply ⟨t, .whole⟩ s := rfl
  have hupset : (if (s.cached t x).isNone then s.upsetRead .whole x.op.parts else (s, false)) = (s, false) := ite_self _
  simp only [harm, execHomeAtomicApply, ht, hrole, ne_eq, not_true_eq_false, if_false, hc, if_true, hupset, Bool.false_eq_true]

variable (hm : s.motions = []) (hx : s.xmsgs = [])

include hm hx

/-- The word at a place as its home sees it, with no update under way. -/
theorem leNat_partBytes (key va n : Nat) :
    let l : List Part8 := [{ at_ := .mem key, len := n, va := va }]
    leNat (l.flatMap (s.partBytes (homeDie (monitorKey s l)))) = leNat (readBytes s.mem key n) := by
  simp only [List.flatMap_singleton, State.partBytes, viewBytes_of_still hm hx]

variable (hgood : s.badPart x.op.parts = none) (hnew : s.cached t x = none) {key va : Nat}

include hgood hnew

/-- An atomic that was not applied before leaves the combination of its word and its operand, and carries the old value back. -/
theorem serveAtomic_atom {op : AtomOp} {v : Word} (hop : x.op = .atom op [{ at_ := .mem key, len := atomBytes op, va := va }] v) :
    let old := leNat (readBytes s.mem key (atomBytes op))
    let r := atomApply op old (v.toNat % 2 ^ (8 * atomBytes op))
    (s.serveAtomic t x).mem = writeBytes s.mem key (leBytes (atomBytes op) r.1) ∧
      nget? (s.serveAtomic t x).txns t =
        some { x with stage := .back { vals := [atomPushed op old], kept := [atomPushed op old], flags := r.2 } } := by
  intro old r
  have hold := leNat_partBytes hm hx key va (atomBytes op)
  obtain ⟨hmem, hstill⟩ := noted_spec s x x.op.parts (dieOf x.core)
    ((s.seenTags (dieOf x.core) x.op.parts true).join (s.aheadTags (dieOf x.core)))
  unfold State.serveAtomic
  rw [hnew, hgood]
  simp only [hop, hold] at hmem hstill ⊢
  refine ⟨(cacheReply_mem ..).trans ?_, nget?_nset_same ..⟩
  rw [applyParts_mem (hstill.trans hm) _ key va (leBytes_length ..), hmem]

/-- A compare-and-swap that was not applied before leaves the new value where its compare succeeds, and carries the old value back. -/
theorem serveAtomic_cas {wide : Bool} {n : Nat} {y z : Word} (hn : (if wide then 8 else 4) = n)
    (hop : x.op = .cas wide [{ at_ := .mem key, len := n, va := va }] y z) :
    let old := leNat (readBytes s.mem key n)
    (s.serveAtomic t x).mem = (if old = y.toNat % 2 ^ (8 * n) then writeBytes s.mem key (leBytes n (z.toNat % 2 ^ (8 * n))) else s.mem) ∧
      nget? (s.serveAtomic t x).txns t = some { x with stage := .back { vals := [BitVec.ofNat 64 old] } } := by
  intro old
  have hold := leNat_partBytes hm hx key va n
  obtain ⟨hmem, hstill⟩ := noted_spec s x x.op.parts (dieOf x.core)
    ((s.seenTags (dieOf x.core) x.op.parts true).join (s.aheadTags (dieOf x.core)))
  unfold State.serveAtomic
  rw [hnew, hgood]
  simp only [hop, hn, hold] at hmem hstill ⊢
  refine ⟨(cacheReply_mem ..).trans ?_, nget?_nset_same ..⟩
  split
  · rw [applyParts_mem (hstill.trans hm) _ key va (leBytes_length ..), hmem]
  · exact hmem

end Atomic

/-- The word of a compare-and-swap, and every byte outside it. -/
theorem casBytes_spec (m : List Host.Cell) (key n y z : Nat) :
    let old := leNat (readBytes m key n)
    let u := if old = y then writeBytes m key (leBytes n (z % 2 ^ (8 * n))) else m
    leNat (readBytes u key n) = (if old = y then z % 2 ^ (8 * n) else old) ∧
      ∀ a, (a < key ∨ key + n ≤ a) → readByte u a = readByte m a := by
  intro old u
  by_cases h : old = y
  · obtain ⟨hat, hout⟩ := writeBytes_spec m key (leBytes_length n (z % 2 ^ (8 * n)))
    have hfits : z % 2 ^ (8 * n) % 256 ^ n = z % 2 ^ (8 * n) := by rw [Nat.pow_mul]; exact Nat.mod_mod ..
    have hu : u = writeBytes m key (leBytes n (z % 2 ^ (8 * n))) := if_pos h
    rw [hu, if_pos h]
    exact ⟨by rw [hat, leNat_leBytes, hfits], hout⟩
  · have hu : u = m := if_neg h
    rw [hu, if_neg h]
    exact ⟨rfl, fun _ _ => rfl⟩

/-- Settles O37: what the home leaves is the word of `serveAtomic_atom` or `serveAtomic_cas`, written at its place. -/
theorem atomicApplied : Obligations.AtomicApplied := by
  intro s t x key va ht hm hx hc hgood hnew
  refine ⟨?atom, ?cas⟩
  case atom =>
    intro op v hop n old r
    obtain ⟨hwrite, htxn⟩ := serveAtomic_atom (t := t) hm hx hgood hnew hop
    obtain ⟨hat, hout⟩ := writeBytes_spec s.mem key (leBytes_length n r.1)
    refine ⟨_, exec_homeAtomicApply ht (hop ▸ rfl) hc, ?_, ?_, congrArg (Option.map Txn.stage) htxn⟩
    · rw [hwrite, hat]
    · rw [hwrite]
      exact hout
  case cas =>
    intro wide y z hop n old
    obtain ⟨hwrite, htxn⟩ := serveAtomic_cas (t := t) hm hx hgood hnew rfl hop
    obtain ⟨hat, hout⟩ := casBytes_spec s.mem key n (y.toNat % 2 ^ (8 * n)) z.toNat
    refine ⟨_, exec_homeAtomicApply ht (hop ▸ rfl) hc, ?_, ?_, congrArg (Option.map Txn.stage) htxn⟩
    · rw [hwrite]
      exact hat
    · rw [hwrite]
      exact hout

end Sys2Proof.Machine
end

section
/-! SUPPORT. Events of homes and processes (O40): messages between dies, held accesses, writes through windows, phases and deadlines. -/

namespace Sys2Proof.Machine

/-! ### Messages between dies (R192) -/

theorem clk_ofFn (f : Fin 4 → Nat) {e : Nat} (he : e < 4) : clk (Vector.ofFn f) e = f ⟨e, he⟩ := by
  simp [clk, he]

/-- A die applies the next message of a source once it has applied what the message's tag counts of the others: its clock steps to the
tag at the source. -/
theorem crossDieMessageApply_spec {s : State} {d src n : Nat} {m : XMsg}
    (hm : findAt (fun m : XMsg => m.src == src && m.waiting.contains d) s.xmsgs = some (n, m))
    (hnext : clk m.tag src = clk (s.die d).clock src + 1) (hold : ∀ e, e < 4 → e ≠ src → clk m.tag e ≤ clk (s.die d).clock e) :
    ∃ u : State, exec (.crossDieMessageApply d src) s = .next u ∧ u.mem = s.mem ∧
      (u.die d).clock = Vector.ofFn fun e : Fin 4 => if e.val = src then clk m.tag src else clk (s.die d).clock e.val := by
  have harm : exec (.crossDieMessageApply d src) s = execCrossDieMessageApply d src s := rfl
  have hall : ([0, 1, 2, 3].all fun e => e == src || decide (clk m.tag e ≤ clk (s.die d).clock e)) = true := by
    refine List.all_eq_true.2 fun e he => ?_
    have he4 : e < 4 := List.mem_range.1 he
    by_cases hs : e = src
    · simp [hs]
    · simp [hold e he4 hs]
  rw [harm, execCrossDieMessageApply, hm]
  dsimp only
  rw [if_pos ⟨hnext, hall⟩]
  exact ⟨_, rfl, rfl, congrArg Die.clock (State.die_setDie_same ..)⟩

/-! ### Held accesses (R94, R161) -/

/-- A parked process whose hold ends issues again, where it stood. -/
theorem release_of_parked {s : State} {k : Nat} (h : (s.proc k).st = .parked) :
    (s.release k).proc k = { s.proc k with st := .running, hold := none } := by
  simp only [State.release, State.proc_setProc_same, Proc.run, h, if_true]

/-- HELD_ACCESS_PROCEED ends a hold whose access is gone, or whose side log has room. -/
theorem exec_heldAccessProceed {s : State} {k t : Nat}
    (h : (s.proc k).hold = some (.access t false) ∧ nget? s.txns t = none ∨
      (s.proc k).hold = some .sideLog ∧ (s.sideLogOf k).length < 64) :
    exec (.heldAccessProceed k) s = .next (s.release k) := by
  have harm : exec (.heldAccessProceed k) s = execHeldAccessProceed k s := rfl
  rw [harm, execHeldAccessProceed]
  obtain ⟨hhold, hgone⟩ | ⟨hhold, hroom⟩ := h
  · simp [hhold, hgone]
  · simp [hhold, hroom]

/-! ### Writes through register windows (R166) -/

theorem ofNat_leNat_take_leBytes (v : Word) : BitVec.ofNat 64 (leNat ((leBytes 8 v.toNat).take 8)) = v := by
  rw [List.take_of_length_le (leBytes_length ..).le, leNat_leBytes, Nat.mod_eq_of_lt (b := 256 ^ 8) v.isLt, BitVec.ofNat_toNat, BitVec.setWidth_eq]

theorem miss_nget (s : State) (x : Txn) (k : Nat) (r : BitVec 5) : ((s.miss x).proc k).nget r = (s.proc k).nget r := by
  unfold State.miss
  dsimp only
  split
  · rfl
  · rw [State.modProc_eq, State.proc_setProc]
    split
    · next h => rw [h]; rfl
    · rfl

/-- The end of an untagged store of this module: its lateness is noted and its transaction goes. -/
theorem endWrite_store {s : State} {t : Nat} {x : Txn} (hf : x.far = none) (hp : x.ptag.getLsbD 8 = false) :
    s.endWrite t x 0 = (s.miss x).dropTxn t := by
  rw [State.endWrite, hf, Option.isSome_none, if_neg Bool.false_ne_true, tagArrival_of_untagged hp, State.giveFlags, if_pos (.inl rfl)]

section Window

variable {s : State} {t k : Nat} {x : Txn} {r : BitVec 5} {va : Nat} {v : Word}

/-- A doubleword that a window write brings to a named register is written there, and the write ends. -/
theorem serveWrite_window (hop : x.op = .store [{ at_ := .win k (0x40000 + 8 * r.toNat), len := 8, va := va }] (leBytes 8 v.toNat))
    (hp : x.ptag.getLsbD 8 = false) (hf : x.far = none) (hu : x.unitsDone = []) :
    s.serveWrite t x = ((s.winWrite k (0x40000 + 8 * r.toNat) v).miss x).dropTxn t := by
  have hst : x.op.role = .st := by rw [hop]; rfl
  have hgood : s.badWrite x.op = none := by rw [hop]; rfl
  have hat : (0x40000 + 8 * r.toNat) % 8 = 0 := by omega
  unfold State.serveWrite
  rw [hgood, hf, hst, Option.isSome_none, Bool.false_and]
  simp only [hop, reduceCtorEq, Bool.false_eq_true, if_false, State.serveStore, unitsFor_whole hu, if_true, endWrite_store hf hp,
    State.applyParts, hat, and_self, ofNat_leNat_take_leBytes]
  rfl

/-- WINDOW_WRITE_LAND of a write that may be served, at an issue turn of a target that holds a context. -/
theorem exec_windowWriteLand (ht : nget? s.txns t = some x) {o : Nat} {bs : List Byte}
    (hop : x.op = .store [{ at_ := .win k o, len := 8, va := va }] bs) (hc : s.canServe t x = true)
    (hk : nget? s.procs k = some (s.proc k)) (halive : (s.proc k).st ≠ .exited)
    (hturn : ∀ j, (s.proc k).ctx = some j → s.cycle % 8 = j ∧ s.turnCore ≤ (s.proc k).core) :
    exec (.windowWriteLand t) s = .next (s.serveWrite t x) := by
  have harm : exec (.windowWriteLand t) s = execWindowWriteLand t s := rfl
  have hland : landable s x.op.parts = true := by
    cases hctx : (s.proc k).ctx with
    | none => simp [landable, hop, Op.parts, hk, hctx]
    | some j =>
      obtain ⟨hcycle, hcore⟩ := hturn j hctx
      simp [landable, hop, Op.parts, hk, hctx, hcycle, hcore]
  rw [harm, execWindowWriteLand, ht]
  dsimp only
  rw [if_neg (by simp [hop, Op.parts, Op.role]), if_pos ⟨hc, hland⟩, if_neg (by simp [hop, Op.parts, halive])]

theorem wRegion_named (r : BitVec 5) : wRegion (0x40000 + 8 * r.toNat) 8 = .n := by
  have hr : r.toNat < 32 := r.isLt
  rw [wRegion, if_neg (by omega), if_pos (by omega)]

/-- A named register of a process that holds a context is written in its core alone. -/
theorem winWrite_named_mem (h : (s.proc k).ctx.isSome = true) : (s.winWrite k (0x40000 + 8 * r.toNat) v).mem = s.mem := by
  rw [State.winWrite, wRegion_named]
  dsimp only
  rw [lateImg_of_ctx (by rw [State.modProc_eq, State.proc_setProc_same]; exact h)]
  rfl

end Window

/-! ### Phases (R140 to R142, R379) -/

/-- The line of a slot with nobody waiting releases nobody. -/
theorem riseLine_of_unwaited {s : State} {part slot : Nat} {f : Phase} (hf : s.phase? part slot = some f) (hw : f.waiters = []) :
    s.riseLine part slot = s := by
  simp [State.riseLine, hf, hw]

@[simp] theorem phase?_setPhase_same (s : State) (part slot : Nat) (f : Phase) : (s.setPhase part slot f).phase? part slot = some f := by
  simp [State.phase?, State.setPhase, nget?_nset_same]

/-- A slot that is set and that nobody waits for stands as it was set. -/
theorem phase?_riseLine_setPhase (s : State) (part slot : Nat) {f : Phase} (hw : f.waiters = []) :
    ((s.setPhase part slot f).riseLine part slot).phase? part slot = some f := by
  rw [riseLine_of_unwaited (phase?_setPhase_same ..) hw, phase?_setPhase_same]

section Arrive

variable {s : State} {part slot dest : Nat} {f : Phase} {d : PDest}

/-- A counter above zero loses one; at zero the arrival overruns. -/
theorem countDown_eq (hf : s.phase? part slot = some f) (hd : f.dests[dest]? = some d) (past : Clock) :
    s.countDown part slot dest past = if d.counter = 0 then none else
      some ((s.setPhase part slot { f.count dest fun n => n - 1 with clock := f.clock.join past }).riseLine part slot) := by
  simp only [State.countDown, hf, hd]

/-- PHASE_ARRIVAL_COUNT of an arrival under way, at a destination whose counter the issuer's instance holds here. -/
theorem exec_phaseArrivalCount {t : Nat} {x : Txn} (ht : nget? s.txns t = some x) (hop : x.op = .arrive slot dest)
    (hstart : x.started = true) (hst : x.stage = .sent) (hfz : s.frozen x = false) (hf : s.phase? x.part slot = some f)
    (hheld : f.holder = x.inst) (hd : f.dests[dest]? = some d) (hown : ownDest s x.part d = true) :
    exec (.phaseArrivalCount t) s = .next (((s.dropTxn t).countDown x.part slot dest x.clock).getD
      ((s.dropTxn t).deferRec (ownerOf x.issuer) { kind := .phaseOverrun } x.loc x.bword)) := by
  have harm : exec (.phaseArrivalCount t) s = execPhaseArrivalCount t s := rfl
  have hf' : (s.dropTxn t).phase? x.part slot = some f := hf
  have hown' : ownDest (s.dropTxn t) x.part d = true := hown
  have harrive : (s.dropTxn t).arriveAt x.part slot dest x.clock x = (s.dropTxn t).countDown x.part slot dest x.clock := by
    simp only [State.arriveAt, hf', hd, hown', if_true]
  rw [harm, execPhaseArrivalCount, ht]
  simp only [hop, hst, hfz, hstart, hf', hheld, harrive, bne_self_eq_false, Bool.not_true, Bool.false_and, Bool.or_self,
    Bool.false_eq_true, if_false, if_true, beq_self_eq_true]
  cases (s.dropTxn t).countDown x.part slot dest x.clock with
  | none => rfl
  | some u => rfl

end Arrive

/-! ### Deadlines (R116, R130) -/

theorem newEpisode_mem (s : State) (k : Nat) : (s.newEpisode k).mem = s.mem := by
  unfold State.newEpisode
  dsimp only
  split
  · rfl
  · rfl

/-- A blocked process of no context becomes READY in the queue of its core and priority. -/
theorem ready_of_blocked {s : State} {k : Nat} (head : Bool) (hst : (s.proc k).st = .blocked) (hctx : (s.proc k).ctx = none)
    (he : (s.proc k).engine = none) :
    (s.ready k head).proc k = { s.proc k with st := .ready, wkind := .none, deadline := 0 } ∧
      k ∈ ((s.ready k head).core (s.proc k).core).queue (s.proc k).prio ∧ (s.ready k head).mem = s.mem := by
  have hready : s.ready k head =
      ((s.newEpisode k).setProc k { s.proc k with st := .ready, wkind := .none, deadline := 0 }).enqueue k head := by
    simp [State.ready, hst, hctx, he]
  rw [hready, enqueue_proc, State.proc_setProc_same]
  refine ⟨rfl, mem_queue_enqueue _ _ _ ?_ ?_, newEpisode_mem s k⟩
  · rw [State.proc_setProc_same]
  · rw [State.proc_setProc_same]

/-- A timed receive that may expire leaves its queue with status 1. -/
theorem expireOp_recv {s : State} {t ch : Nat} {x : Txn} {d : Word} (hx : nget? s.txns t = some x) (hop : x.op = .recv ch)
    (hd : x.deadline = some d) (hdue : d.toNat ≤ (virtualTime s x.part).toNat) (hcan : canExpire s x.part ch t x = true) :
    s.expireOp t = (s.leaveQueue ch t x).setTxn t
      { x with stage := .back (recvDeliver x [] 1), ptag := 0, due := s.cycle + 16 } := by
  simp only [State.expireOp, hx, hop, hd, hcan, hdue, decide_true, Bool.and_self, if_true]
  rfl

theorem exec_channelTimeout {s : State} {k t : Nat} {x : Txn}
    (h : (s.txns.filter fun e => e.2.issuer == k && e.2.op.wkind != .none) = [(t, x)]) :
    exec (.channelTimeout k) s = .next (s.expireOp t).wakeAlts := by
  have harm : exec (.channelTimeout k) s = execChannelTimeout k s := rfl
  rw [harm, execChannelTimeout, h]
  rfl

/-! ### The obligation -/

/-- Settles O40: each event by its equation above, and what it wrote by the rules for the die, the process, the slot or the transaction. -/
theorem homeAndProcessEvents : Obligations.HomeAndProcessEvents := by
  refine ⟨?message, ?held, ?window, ?arrival, ?load, ?deadline, ?timeout⟩
  case message =>
    intro s d src n m hm hsrc hnext hold
    obtain ⟨u, hu, hmem, hclock⟩ := crossDieMessageApply_spec hm hnext hold
    refine ⟨u, hu, hmem, ?_, fun e he hne => ?_⟩
    · rw [hclock, clk_ofFn _ hsrc, if_pos rfl]
    · rw [hclock, clk_ofFn _ he, if_neg hne]
  case held =>
    intro s k t hst h
    refine ⟨_, exec_heldAccessProceed h, ?_⟩
    rw [release_of_parked hst]
    exact ⟨rfl, rfl, rfl, rfl⟩
  case window =>
    intro s t k x r va v ht hop hc hk halive _ hp hf hu hturn
    refine ⟨_, exec_windowWriteLand ht hop hc hk halive hturn, ?_⟩
    rw [serveWrite_window hop hp hf hu]
    refine ⟨?_, (nget?_ndel ..).trans (if_pos rfl), fun hctx => (miss_mem ..).trans (winWrite_named_mem hctx)⟩
    exact (miss_nget ..).trans (by rw [winWrite_named, nset_nget_same])
  case arrival =>
    intro s t slot dest x f d ht hop hstart hst hfz hf hheld hd hown
    rw [exec_phaseArrivalCount ht hop hstart hst hfz hf hheld hd hown, countDown_eq (s := s.dropTxn t) hf hd]
    refine ⟨fun hpos hw => ?_, fun hzero => ?_⟩
    · rw [if_neg hpos.ne']
      exact ⟨_, rfl, phase?_riseLine_setPhase _ _ _ hw⟩
    · rw [if_pos hzero, Option.getD_none]
  case load =>
    intro s part slot count j f hj hf hw
    have harm : exec (.remotePhaseLoad part slot count) s = execRemotePhaseLoad part slot count s := rfl
    rw [harm, execRemotePhaseLoad, hj, hf]
    exact ⟨_, rfl, phase?_riseLine_setPhase _ _ _ hw⟩
  case deadline =>
    intro s k p hst hw hctx he hdue
    have harm : exec (.deadlineExpiry k) s = execDeadlineExpiry k s := rfl
    have hexec : exec (.deadlineExpiry k) s = .next (s.ready k false) := by
      simp [harm, execDeadlineExpiry, hst, hw, hdue, p]
    obtain ⟨hproc, hqueue, hmem⟩ := ready_of_blocked false hst hctx he
    refine ⟨_, hexec, ?_, ?_, hqueue, hmem⟩
    · rw [hproc]
    · rw [hproc]
  case timeout =>
    intro s k t ch x d hone hx hop hd hdue hcan halt hdorm
    have hquiet : s.Unheard := ⟨halt, hdorm⟩
    have hexpire := expireOp_recv hx hop hd hdue hcan
    have hleft : (s.leaveQueue ch t x).Unheard := hquiet.upd rfl rfl
    have hu : (s.expireOp t).Unheard := by
      rw [hexpire]
      exact hleft.setTxn (by simp [hop])
    refine ⟨_, recvDeliver x [] 1, exec_channelTimeout hone, ?_⟩
    rw [hu.wakeAlts, hexpire]
    refine ⟨congrArg (Option.map Txn.stage) (nget?_nset_same ..), ?_⟩
    simp [recvDeliver, hop, hd]

end Sys2Proof.Machine
end

section
/-! SUPPORT. The words that ask for time, rest or power, and the manager's words (O21). -/

namespace Sys2Proof.Machine

/-! ### Blocking -/

/-- What a block leaves: the latch and memory as they were, and the process on its wait. -/
theorem block_spec (s : State) (k : Nat) (v : Wait) (obj : W32) (d : Word) :
    (s.block k v obj d).issue = s.issue ∧ (s.block k v obj d).mem = s.mem ∧ ((s.block k v obj d).proc k).st = .blocked ∧
      ((s.block k v obj d).proc k).wkind = v ∧ ((s.block k v obj d).proc k).deadline = d := by
  unfold State.block
  dsimp only
  split
  · obtain ⟨cores, procs, hframe⟩ :=
      leaveCtx_frame (s.modProc k fun p => { p with st := .blocked, wkind := v, wobj := obj, deadline := d }) k
    refine ⟨by rw [hframe]; rfl, by rw [hframe]; rfl, ?_⟩
    simp [proc_leaveCtx]
  · simp

/-! ### Privilege -/

theorem needMgr_of_mgr {s : State} {i : Issue} (h : s.isMgr i.proc = true) : needMgr s i = .ok () := by rw [needMgr, h, check_true]

theorem needMgr_of_other {s : State} {i : Issue} (h : s.isMgr i.proc = false) : needMgr s i = .error (.trap { kind := .priv }) := by
  rw [needMgr, h, check_false]

/-! ### The words -/

section Words

variable {s : State} {i : Issue} (hi : s.issue = some i)
include hi

theorem exec_time (k : Keep) : exec (.time k) s = .next (s.push i (virtualTime s (partOf i.proc)) k) := by
  have harm : exec (.time k) s = execTime k s := rfl
  simp [harm, execTime, cur_some hi]

theorem exec_waitt {x : Src} {a : Word} (hx : readSrc i x = .ok a) :
    exec (.waitt x) s = .next (if a.toNat ≤ (virtualTime s (partOf i.proc)).toNat then s else s.block i.proc .timed 0 a) := by
  have harm : exec (.waitt x) s = execWaitt x s := rfl
  simp only [harm, execWaitt, cur_some hi, hx, ok_bind]
  split <;> rfl

theorem exec_yield : exec .yield s = .next (s.yieldNow i) := by
  have harm : exec .yield s = execYield s := rfl
  simp [harm, execYield, cur_some hi]

theorem exec_idle : exec .idle s = .next
    (if i.pre.tmo.toNat ≤ (virtualTime s (partOf i.proc)).toNat then s.yieldNow i else s.block i.proc .timed 0 i.pre.tmo) := by
  have harm : exec .idle s = execIdle s := rfl
  simp only [harm, execIdle, cur_some hi, ok_bind]
  split <;> rfl

theorem exec_encodingNotInstruction (w : W32) : exec (.encodingNotInstruction w) s = .next (s.raise { kind := .illegalInstr }) := by
  have harm : exec (.encodingNotInstruction w) s = execEncodingNotInstruction w s := rfl
  simp [harm, execEncodingNotInstruction, cur_some hi]

theorem exec_pwrq (k : Keep) :
    exec (.pwrq k) s = .next (({ s with fresh := s.fresh + 1 } : State).push i
      (powerWord s i.pre.core (Config.freeWord s.fresh).toNat) k) := by
  have harm : exec (.pwrq k) s = execPwrq k s := rfl
  simp [harm, execPwrq, cur_some hi, State.draw]

theorem exec_harvest (k : Keep) (h : s.isMgr i.proc = true) :
    exec (.harvest k) s = .next (s.issuePend i (mkTxn s i .harvest 100) k) := by
  have harm : exec (.harvest k) s = execHarvest k s := rfl
  simp [harm, execHarvest, cur_some hi, needMgr_of_mgr h]

theorem exec_harvest_priv (k : Keep) (h : s.isMgr i.proc = false) :
    exec (.harvest k) s = .next (s.raise { kind := .priv }) := by
  have harm : exec (.harvest k) s = execHarvest k s := rfl
  simp [harm, execHarvest, cur_some hi, needMgr_of_other h]

theorem shootWord_of_mgr {x : Src} {a : Word} (hx : readSrc i x = .ok a) (h : s.isMgr i.proc = true) :
    shootWord s x = .ok (s.issuePend i (mkTxn s i (.shoot (bits a.toNat 50 16) a.msb) 7000) none) := by
  simp [shootWord, cur_some hi, needMgr_of_mgr h, hx]

theorem shootWord_of_other (x : Src) (h : s.isMgr i.proc = false) : shootWord s x = .error (.trap { kind := .priv }) := by
  simp [shootWord, cur_some hi, needMgr_of_other h]

end Words

/-- Both shoot-downs are one word. -/
theorem exec_shoot (x : Src) (s : State) :
    ∀ e ∈ [Instr.shootDown x, Instr.shootDownDeny x], exec e s = finish s (shootWord s x) := by
  simp only [List.forall_mem_cons, List.not_mem_nil, false_imp_iff, implies_true, and_true]
  exact ⟨rfl, rfl⟩

/-- The power word as one sum of its fields (Table 13.5). -/
theorem powerWord_eq (s : State) (core temp : Nat) : powerWord s core temp =
    BitVec.ofNat 64 (temp % 256 * 2 ^ 48 + boolCode (s.die (dieOf core)).slow * 2 ^ 47 +
      ((s.core core).grant % 256 * 256 + (s.core core).free % 256)) := by
  rw [powerWord, Core.tokens, ← BitVec.ofNat_add]
  cases (s.die (dieOf core)).slow <;> rfl

theorem powerWord_low (s : State) (core temp : Nat) : (powerWord s core temp).setWidth 32 = (s.core core).tokens.setWidth 32 := by
  apply BitVec.eq_of_toNat_eq
  rw [powerWord_eq, Core.tokens]
  simp only [BitVec.toNat_setWidth, BitVec.toNat_ofNat]
  omega

theorem powerWord_slow (s : State) (core temp : Nat) :
    (powerWord s core temp).getLsbD 47 = (s.die (dieOf core)).slow := by
  rw [powerWord_eq, BitVec.getLsbD_ofNat, Nat.testBit_eq_decide_div_mod_eq]
  have hslow : (temp % 256 * 2 ^ 48 + boolCode (s.die (dieOf core)).slow * 2 ^ 47 +
      ((s.core core).grant % 256 * 256 + (s.core core).free % 256)) / 2 ^ 47 % 2 = boolCode (s.die (dieOf core)).slow := by
    have hbit : boolCode (s.die (dieOf core)).slow ≤ 1 := by cases (s.die (dieOf core)).slow <;> decide
    omega
  rw [hslow]
  cases (s.die (dieOf core)).slow <;> rfl

/-- A yield with no reservation to let go: its place in the order of channel operations, and its context's quantum due. -/
theorem yieldNow_eq {s : State} {i : Issue} {j : Nat} (hctx : i.pre.ctx = some j) (halt : (s.proc i.proc).altRes = none) :
    s.yieldNow i = (s.issueOrder i).modCore i.pre.core fun c => c.setCtx j { c.ctx j with due := true } := by
  simp only [State.yieldNow, State.letGo, halt, hctx]

/-! ### The obligation -/

/-- Settles O21: each word by its equation above; a wait blocks by `block_spec`. -/
theorem systemWords : Obligations.SystemWords := by
  intro s i hi now blocks
  have hblocks {e : Instr} {d : Word} (h : exec e s = .next (s.block i.proc .timed 0 d)) : blocks e d := by
    obtain ⟨hissue, hmem, hst, hkind, hdue⟩ := block_spec s i.proc .timed 0 d
    exact ⟨_, h, hissue.trans hi, hst, hkind, hdue, hmem⟩
  refine ⟨exec_time hi, fun x a hx => ⟨fun hle => ?_, fun hlt => hblocks ?_⟩, exec_yield hi, exec_encodingNotInstruction hi,
    fun hle => ?_, fun hlt => hblocks ?_, fun j hctx halt => yieldNow_eq hctx halt,
    fun k => ⟨_, _, exec_pwrq hi k, rfl, powerWord_low .., powerWord_slow ..⟩, fun hmgr => ⟨fun k => exec_harvest hi k hmgr, ?_⟩,
    fun hmgr k x => ?_⟩
  · rw [exec_waitt hi hx, if_pos hle]
  · rw [exec_waitt hi hx, if_neg (Nat.not_le.2 hlt)]
  · rw [exec_idle hi, if_pos hle]
  · rw [exec_idle hi, if_neg (Nat.not_le.2 hlt)]
  · intro x a hx e he
    rw [exec_shoot x s e he, shootWord_of_mgr hi hx hmgr, finish_ok]
  · rw [List.forall_mem_cons]
    refine ⟨exec_harvest_priv hi k hmgr, fun e he => ?_⟩
    rw [exec_shoot x s e he, shootWord_of_other hi x hmgr, finish_trap]

end Sys2Proof.Machine
end

section
/-! SUPPORT. Fields of a word, the codes of operands, and the readers of the decoder (O60). -/

namespace Sys2Proof
open Machine

/-! ### Fields -/

theorem fld_lt (w lo n : Nat) : fld w lo n < 2 ^ n := Nat.mod_lt _ (Nat.two_pow_pos n)

/-- A field of a field. -/
theorem fld_fld {a k lo n : Nat} (w : Nat) (h : lo + n ≤ k) : fld (fld w a k) lo n = fld w (a + lo) n := by
  obtain ⟨d, rfl⟩ := Nat.exists_eq_add_of_le h
  simp only [fld]
  rw [Nat.pow_add 2 a lo, ← Nat.div_div_eq_div_mul, Nat.add_assoc, Nat.pow_add 2 lo, Nat.mod_mul_right_div_self,
    Nat.pow_add 2 n, Nat.mod_mul_right_mod]

/-- The fields of bits [29:0] do not see the bits above. -/
theorem fld_above {lo n : Nat} (v w : Nat) (h : lo + n ≤ 30) : fld (v * 2 ^ 30 + w) lo n = fld w lo n := by
  have hlow : fld (v * 2 ^ 30 + w) 0 30 = fld w 0 30 := by
    simp only [fld]
    omega
  have hfld := fld_fld (a := 0) (v * 2 ^ 30 + w) h
  rw [hlow, fld_fld w h, Nat.zero_add] at hfld
  exact hfld.symm

@[simp] theorem ofNat_fld_toNat (w lo n : Nat) : (BitVec.ofNat n (fld w lo n)).toNat = fld w lo n := by
  rw [BitVec.toNat_ofNat, Nat.mod_eq_of_lt (fld_lt w lo n)]

@[simp] theorem r5_toNat (w lo : Nat) : (r5 w lo).toNat = fld w lo 5 := ofNat_fld_toNat w lo 5
@[simp] theorem b3_toNat (w lo : Nat) : (b3 w lo).toNat = fld w lo 3 := ofNat_fld_toNat w lo 3
@[simp] theorem imm11_toNat (w : Nat) : (imm11 w).toNat = fld w 0 11 := ofNat_fld_toNat w 0 11

/-- A field as its upper bits above its lower ones. -/
theorem fld_split (w lo n k : Nat) : fld w lo (n + k) = fld w (lo + n) k * 2 ^ n + fld w lo n := by
  rw [fld, Nat.pow_add, Nat.mod_mul, Nat.div_div_eq_div_mul, ← Nat.pow_add, Nat.mul_comm, Nat.add_comm]
  rfl

theorem fld_of_high_zero (w lo n k : Nat) (h : fld w (lo + n) k = 0) : fld w lo (n + k) = fld w lo n := by
  rw [fld_split, h, Nat.zero_mul, Nat.zero_add]

/-- A part of a field whose value is known. -/
theorem fld_of_fld {w a k v b : Nat} (lo n : Nat) (h : fld w a k = v) (hb : a + lo = b) (hk : lo + n ≤ k) :
    fld w b n = fld v lo n := by
  rw [← h, fld_fld w hk, hb]

@[simp] theorem fld_toNat_low {n : Nat} (v : BitVec n) : fld v.toNat 0 n = v.toNat := by simp [fld, Nat.mod_eq_of_lt v.isLt]
@[simp] theorem fld_toNat_high {n k : Nat} (v : BitVec n) : fld v.toNat n k = 0 := by simp [fld, Nat.div_eq_of_lt v.isLt]

theorem fld_mul_add_low {a n : Nat} (v : BitVec n) : fld (a * 2 ^ n + v.toNat) 0 n = v.toNat := by
  simp [fld, Nat.mod_eq_of_lt v.isLt]

theorem fld_mul_add_high {a n k : Nat} (v : BitVec n) (ha : a < 2 ^ k) : fld (a * 2 ^ n + v.toNat) n k = a := by
  rw [fld, Nat.mul_comm, Nat.mul_add_div (Nat.two_pow_pos n), Nat.div_eq_of_lt v.isLt, Nat.add_zero, Nat.mod_eq_of_lt ha]

/-! ### Operands of a field -/

theorem r5_of_fld {w lo : Nat} {v : BitVec 5} (h : fld w lo 5 = v.toNat) : r5 w lo = v := by simp [r5, h]
theorem b3_of_fld {w lo : Nat} {v : BitVec 3} (h : fld w lo 3 = v.toNat) : b3 w lo = v := by simp [b3, h]
theorem imm11_of_fld {w : Nat} {v : BitVec 11} (h : fld w 0 11 = v.toNat) : imm11 w = v := by simp [imm11, h]

theorem toNat_ne_zero {n : Nat} {v : BitVec n} (h : v ≠ 0) : v.toNat ≠ 0 :=
  fun h0 => h (BitVec.eq_of_toNat_eq (by simpa using h0))

theorem boolCode_lt (b : Bool) : boolCode b < 2 := by cases b <;> decide

@[simp] theorem boolCode_bit (w lo : Nat) : boolCode (bit w lo) = fld w lo 1 := by
  obtain h | h := Nat.lt_or_ge (fld w lo 1) 1
  · simp [boolCode, bit, Nat.lt_one_iff.1 h]
  · have h1 : fld w lo 1 = 1 := Nat.le_antisymm (Nat.le_of_lt_succ (fld_lt w lo 1)) h
    simp [boolCode, bit, h1]

theorem bit_of_fld {w lo : Nat} {f : Bool} (h : fld w lo 1 = boolCode f) : bit w lo = f := by
  rw [bit, h]
  cases f <;> rfl

/-- A minor of 0 or 1 is its lowest bit. -/
theorem fld_eq_boolCode_bit {w lo : Nat} (h : fld w lo 5 < 2) : fld w lo 5 = boolCode (bit w lo) := by
  have hsplit : fld w lo 5 = fld w (lo + 1) 4 * 2 + fld w lo 1 := fld_split w lo 1 4
  rw [boolCode_bit]
  omega

/-! ### Codes: a code looks up the value that it is the code of, and no other -/

theorem Special.ofCode_eq_some {c : Nat} {a : Special} : Special.ofCode c = some a ↔ c = a.code := by
  constructor
  · intro h; unfold Special.ofCode at h; split at h <;> cases h <;> rfl
  · rintro rfl; cases a <;> rfl

@[simp] theorem LdTy.ofCode_eq_some {c : Nat} {a : LdTy} : LdTy.ofCode c = some a ↔ c = a.code := by
  constructor
  · intro h; unfold LdTy.ofCode at h; split at h <;> cases h <;> rfl
  · rintro rfl; cases a <;> rfl

@[simp] theorem StTy.ofCode_eq_some {c : Nat} {a : StTy} : StTy.ofCode c = some a ↔ c = a.code := by
  constructor
  · intro h; unfold StTy.ofCode at h; split at h <;> cases h <;> rfl
  · rintro rfl; cases a <;> rfl

@[simp] theorem AtomOp.ofCode_eq_some {c : Nat} {a : AtomOp} : AtomOp.ofCode c = some a ↔ c = a.code := by
  constructor
  · intro h; unfold AtomOp.ofCode at h; split at h <;> cases h <;> rfl
  · rintro rfl; cases a <;> rfl

@[simp] theorem FenceKind.ofCode_eq_some {c : Nat} {a : FenceKind} : FenceKind.ofCode c = some a ↔ c = a.code := by
  constructor
  · intro h; unfold FenceKind.ofCode at h; split at h <;> cases h <;> rfl
  · rintro rfl; cases a <;> rfl

@[simp] theorem Scope.ofCode_eq_some {c : Nat} {a : Scope} : Scope.ofCode c = some a ↔ c = a.code := by
  constructor
  · intro h; unfold Scope.ofCode at h; split at h <;> cases h <;> rfl
  · rintro rfl; cases a <;> rfl

@[simp] theorem Cond.ofCode_eq_some {c : Nat} {a : Cond} : Cond.ofCode c = some a ↔ c = a.code := by
  constructor
  · intro h; unfold Cond.ofCode at h; split at h <;> cases h <;> rfl
  · rintro rfl; cases a <;> rfl

@[simp] theorem Rm.ofCode_eq_some {c : Nat} {a : Rm} : Rm.ofCode c = some a ↔ c = a.code := by
  constructor
  · intro h; unfold Rm.ofCode at h; split at h <;> cases h <;> rfl
  · rintro rfl; cases a <;> rfl

@[simp] theorem CTy.ofCode_eq_some {c : Nat} {a : CTy} : CTy.ofCode c = some a ↔ c = a.code := by
  constructor
  · intro h; unfold CTy.ofCode at h; split at h <;> cases h <;> rfl
  · rintro rfl; cases a <;> rfl

@[simp] theorem VTy.ofCode_eq_some {c : Nat} {a : VTy} : VTy.ofCode c = some a ↔ c = a.code := by
  constructor
  · intro h; unfold VTy.ofCode at h; split at h <;> cases h <;> rfl
  · rintro rfl; cases a <;> rfl

@[simp] theorem VCond.ofCode_eq_some {c : Nat} {a : VCond} : VCond.ofCode c = some a ↔ c = a.code := by
  constructor
  · intro h; unfold VCond.ofCode at h; split at h <;> cases h <;> rfl
  · rintro rfl; cases a <;> rfl

@[simp] theorem BlkFmt.ofCode_eq_some {c : Nat} {a : BlkFmt} : BlkFmt.ofCode c = some a ↔ c = a.code := by
  constructor
  · intro h; unfold BlkFmt.ofCode at h; split at h <;> cases h <;> rfl
  · rintro rfl; cases a <;> rfl

@[simp] theorem ForkKind.ofCode_eq_some {c : Nat} {a : ForkKind} : ForkKind.ofCode c = some a ↔ c = a.code := by
  constructor
  · intro h; unfold ForkKind.ofCode at h; split at h <;> cases h <;> rfl
  · rintro rfl; cases a <;> rfl

@[simp] theorem Disp.ofCode_eq_some {c : Nat} {a : Disp} : Disp.ofCode c = some a ↔ c = a.code := by
  constructor
  · intro h; unfold Disp.ofCode at h; split at h <;> cases h <;> rfl
  · rintro rfl; cases a <;> rfl

@[simp] theorem Ctl.ofCode_eq_some {c : Nat} {a : Ctl} : Ctl.ofCode c = some a ↔ c = a.code := by
  constructor
  · intro h; unfold Ctl.ofCode at h; split at h <;> cases h <;> rfl
  · rintro rfl
    cases a with
    | dmap j => fin_cases j <;> rfl
    | _ => rfl

theorem Special.code_lt (a : Special) : a.code < 7 := by cases a <;> decide

theorem Src.code_lt (x : Src) : x.code < 64 := by
  cases x with
  | q k => simp only [Src.code]; omega
  | sp k => have := k.code_lt; simp only [Src.code]; omega
  | n r => simp only [Src.code]; omega

theorem keepCode_lt (k : Keep) : keepCode k < 64 := by
  cases k with
  | none => decide
  | some r => simp only [keepCode]; omega

theorem Cond.code_lt (a : Cond) : a.code < 7 := by cases a <;> decide

theorem Ctl.code_lt (a : Ctl) : a.code < 64 := by
  cases a with
  | dmap j => simp only [Ctl.code]; omega
  | _ => decide

theorem Cond.code_inj {a b : Cond} : a.code = b.code ↔ a = b := by
  rw [← Cond.ofCode_eq_some, Cond.ofCode_eq_some.2 rfl, Option.some.injEq]

theorem AtomOp.code_inj {a b : AtomOp} : a.code = b.code ↔ a = b := by
  rw [← AtomOp.ofCode_eq_some, AtomOp.ofCode_eq_some.2 rfl, Option.some.injEq]

theorem Ctl.code_inj {a b : Ctl} : a.code = b.code ↔ a = b := by
  rw [← Ctl.ofCode_eq_some, Ctl.ofCode_eq_some.2 rfl, Option.some.injEq]

theorem Src.ofCode_eq_some {c : Nat} {x : Src} (hc : c < 64) : Src.ofCode c = some x ↔ c = x.code := by
  constructor
  · intro h
    unfold Src.ofCode at h
    split at h
    next hq => cases h; simp only [Src.code, BitVec.toNat_ofNat]; omega
    next hq =>
      split at h
      next hs =>
        obtain ⟨k, hk, rfl⟩ := Option.map_eq_some_iff.1 h
        rw [Special.ofCode_eq_some] at hk
        simp only [Src.code]; omega
      next hs => cases h; simp only [Src.code, BitVec.toNat_ofNat]; omega
  · rintro rfl
    cases x with
    | q k => simp [Src.ofCode, Src.code, k.isLt]
    | sp k =>
      have hk := k.code_lt
      have hlt : 16 + k.code < 32 := by omega
      simp [Src.ofCode, Src.code, hlt, Special.ofCode_eq_some.2 rfl]
    | n r =>
      have hn : ¬ 32 + r.toNat < 16 := by omega
      simp [Src.ofCode, Src.code, hn]

theorem keepOf_eq_some {c : Nat} {k : Keep} (hc : c < 64) : keepOf c = some k ↔ c = keepCode k := by
  constructor
  · intro h
    unfold keepOf at h
    split at h
    next h0 => cases h; exact h0
    next h0 =>
      split at h
      next => cases h
      next h32 => cases h; simp only [keepCode, BitVec.toNat_ofNat]; omega
  · rintro rfl
    cases k with
    | none => rfl
    | some r => simp [keepOf, keepCode]

/-! ### Readers -/

theorem bind_eq_ok {ε α β : Type} {x : Except ε α} {f : α → Except ε β} {b : β} :
    (x >>= f) = .ok b ↔ ∃ a, x = .ok a ∧ f a = .ok b := by
  cases x with
  | error e => simp
  | ok a => simp

@[simp] theorem need_eq_ok {c : Bool} {r : Reject} {u : Unit} : need c r = .ok u ↔ c = true := by cases c <;> simp [need]

@[simp] theorem code?_eq_ok {α : Type} {o : Option α} {r : Reject} {a : α} : code? o r = .ok a ↔ o = some a := by
  cases o <;> simp [code?]

@[simp] theorem src_eq_ok {w lo : Nat} {x : Src} : src w lo = .ok x ↔ fld w lo 6 = x.code :=
  code?_eq_ok.trans (Src.ofCode_eq_some (fld_lt w lo 6))

@[simp] theorem kp_eq_ok {w lo : Nat} {k : Keep} : kp w lo = .ok k ↔ fld w lo 6 = keepCode k :=
  code?_eq_ok.trans (keepOf_eq_some (fld_lt w lo 6))

@[simp] theorem noKeep_eq_ok {w lo : Nat} {u : Unit} : noKeep w lo = .ok u ↔ fld w lo 6 = 0 := by simp [noKeep, need_eq_ok]

@[simp] theorem zero_eq_ok {w lo n : Nat} {u : Unit} : zero w lo n = .ok u ↔ fld w lo n = 0 := by simp [zero, need_eq_ok]

end Sys2Proof
end

section
/-! SUPPORT. The layouts of an encoding read back, and the common forms of the decoder (O60). -/

namespace Sys2Proof
open Machine

/-- The fields of a word of three six-bit fields and a minor: formats AX and BR, by the class bit `cls` (R236, R237). -/
structure SrcFields (w cls maj x y z m : Nat) : Prop where
  cls : fld w 29 1 = cls
  maj : fld w 23 6 = maj
  x : fld w 17 6 = x
  y : fld w 11 6 = y
  z : fld w 5 6 = z
  m : fld w 0 5 = m

/-- The fields of a word with an immediate: formats AM and BI. -/
structure ImmFields (w cls maj x y d : Nat) : Prop where
  cls : fld w 29 1 = cls
  maj : fld w 23 6 = maj
  x : fld w 17 6 = x
  y : fld w 11 6 = y
  d : fld w 0 11 = d

/-- The fields of a vector word, format BV. -/
structure VecFields (w maj vd va vb vc p : Nat) : Prop where
  cls : fld w 29 1 = 1
  maj : fld w 23 6 = maj
  vd : fld w 18 5 = vd
  va : fld w 13 5 = va
  vb : fld w 8 5 = vb
  vc : fld w 3 5 = vc
  p : fld w 0 3 = p

/-- The fields of a tile word, format BM. -/
structure TileFields (w maj ab ac t dp nr m : Nat) : Prop where
  cls : fld w 29 1 = 1
  maj : fld w 23 6 = maj
  ab : fld w 21 2 = ab
  ac : fld w 19 2 = ac
  t : fld w 16 3 = t
  dp : fld w 12 4 = dp
  nr : fld w 7 5 = nr
  m : fld w 4 3 = m
  low : fld w 0 4 = 0

/-! ### The bits above a word change none of its fields -/

theorem SrcFields.above {w cls maj x y z m : Nat} (h : SrcFields w cls maj x y z m) (v : Nat) :
    SrcFields (v * 2 ^ 30 + w) cls maj x y z m := by
  obtain ⟨hcls, hmaj, hx, hy, hz, hm⟩ := h
  constructor <;> rwa [fld_above v w (by decide)]

theorem ImmFields.above {w cls maj x y d : Nat} (h : ImmFields w cls maj x y d) (v : Nat) :
    ImmFields (v * 2 ^ 30 + w) cls maj x y d := by
  obtain ⟨hcls, hmaj, hx, hy, hd⟩ := h
  constructor <;> rwa [fld_above v w (by decide)]

theorem VecFields.above {w maj vd va vb vc p : Nat} (h : VecFields w maj vd va vb vc p) (v : Nat) :
    VecFields (v * 2 ^ 30 + w) maj vd va vb vc p := by
  obtain ⟨hcls, hmaj, hvd, hva, hvb, hvc, hp⟩ := h
  constructor <;> rwa [fld_above v w (by decide)]

theorem TileFields.above {w maj ab ac t dp nr m : Nat} (h : TileFields w maj ab ac t dp nr m) (v : Nat) :
    TileFields (v * 2 ^ 30 + w) maj ab ac t dp nr m := by
  obtain ⟨hcls, hmaj, hab, hac, ht, hdp, hnr, hm, hlow⟩ := h
  constructor <;> rwa [fld_above v w (by decide)]

/-! ### The layouts that the encoder writes -/

section

variable {w maj x y z m d vd va vb vc p ab ac t dp nr : Nat}

theorem encAX_fields (hmaj : maj < 64) (hx : x < 64) (hy : y < 64) (hz : z < 64) (hm : m < 32) :
    encAX maj x y z m < 2 ^ 30 ∧ SrcFields (encAX maj x y z m) 0 maj x y z m := by
  simp only [encAX]
  refine ⟨by omega, ?_, ?_, ?_, ?_, ?_, ?_⟩ <;> simp only [fld] <;> omega

theorem SrcFields.encAX_eq (h : SrcFields w 0 maj x y z m) (hw : w < 2 ^ 30) : encAX maj x y z m = w := by
  obtain ⟨hc, rfl, rfl, rfl, rfl, rfl⟩ := h
  simp only [encAX, fld] at *
  omega

theorem encBR_fields (hmaj : maj < 64) (hx : x < 64) (hy : y < 64) (hz : z < 64) (hm : m < 32) :
    encBR maj x y z m < 2 ^ 30 ∧ SrcFields (encBR maj x y z m) 1 maj x y z m := by
  simp only [encBR]
  refine ⟨by omega, ?_, ?_, ?_, ?_, ?_, ?_⟩ <;> simp only [fld] <;> omega

theorem SrcFields.encBR_eq (h : SrcFields w 1 maj x y z m) (hw : w < 2 ^ 30) : encBR maj x y z m = w := by
  obtain ⟨hc, rfl, rfl, rfl, rfl, rfl⟩ := h
  simp only [encBR, fld] at *
  omega

theorem encAM_fields {d : BitVec 11} (hmaj : maj < 64) (hx : x < 64) (hy : y < 64) :
    encAM maj x y d < 2 ^ 30 ∧ ImmFields (encAM maj x y d) 0 maj x y d.toNat := by
  simp only [encAM]
  refine ⟨by omega, ?_, ?_, ?_, ?_, ?_⟩ <;> simp only [fld] <;> omega

theorem ImmFields.encAM_eq {d : BitVec 11} (h : ImmFields w 0 maj x y d.toNat) (hw : w < 2 ^ 30) : encAM maj x y d = w := by
  obtain ⟨hc, rfl, rfl, rfl, hd⟩ := h
  simp only [encAM, fld] at *
  omega

theorem encBI_fields (hmaj : maj < 64) (hx : x < 64) (hy : y < 64) (hd : d < 2048) :
    encBI maj x y d < 2 ^ 30 ∧ ImmFields (encBI maj x y d) 1 maj x y d := by
  simp only [encBI]
  refine ⟨by omega, ?_, ?_, ?_, ?_, ?_⟩ <;> simp only [fld] <;> omega

theorem ImmFields.encBI_eq (h : ImmFields w 1 maj x y d) (hw : w < 2 ^ 30) : encBI maj x y d = w := by
  obtain ⟨hc, rfl, rfl, rfl, rfl⟩ := h
  simp only [encBI, fld] at *
  omega

theorem encBV_fields (hmaj : maj < 64) (hd : vd < 32) (ha : va < 32) (hb : vb < 32) (hvc : vc < 32) (hp : p < 8) :
    encBV maj vd va vb vc p < 2 ^ 30 ∧ VecFields (encBV maj vd va vb vc p) maj vd va vb vc p := by
  simp only [encBV]
  refine ⟨by omega, ?_, ?_, ?_, ?_, ?_, ?_, ?_⟩ <;> simp only [fld] <;> omega

theorem VecFields.encBV_eq (h : VecFields w maj vd va vb vc p) (hw : w < 2 ^ 30) : encBV maj vd va vb vc p = w := by
  obtain ⟨hc, rfl, rfl, rfl, rfl, rfl, rfl⟩ := h
  simp only [encBV, fld] at *
  omega

theorem encBM_fields (hmaj : maj < 64) (hab : ab < 4) (hac : ac < 4) (ht : t < 8) (hdp : dp < 16) (hnr : nr < 32) (hm : m < 8) :
    encBM maj ab ac t dp nr m < 2 ^ 30 ∧ TileFields (encBM maj ab ac t dp nr m) maj ab ac t dp nr m := by
  simp only [encBM]
  refine ⟨by omega, ?_, ?_, ?_, ?_, ?_, ?_, ?_, ?_, ?_⟩ <;> simp only [fld] <;> omega

theorem TileFields.encBM_eq (h : TileFields w maj ab ac t dp nr m) (hw : w < 2 ^ 30) : encBM maj ab ac t dp nr m = w := by
  obtain ⟨hc, rfl, rfl, rfl, rfl, rfl, rfl, rfl, hlow⟩ := h
  simp only [encBM, fld] at *
  omega

end

/-! ### The common forms of class A, as `br2` and `br1` are those of class B -/

/-- Two sources and no keep. -/
def formXY (w : Nat) (f : Src → Src → Instr) : Except Reject Instr := do
  noKeep w 5
  let x ← src w 17
  let y ← src w 11
  .ok (f x y)

/-- One source and no keep. -/
def formX (w : Nat) (f : Src → Instr) : Except Reject Instr := do
  zero w 11 6
  noKeep w 5
  let x ← src w 17
  .ok (f x)

/-- A keep alone. -/
def formK (w : Nat) (f : Keep → Instr) : Except Reject Instr := do
  zero w 17 6
  zero w 11 6
  let k ← kp w 5
  .ok (f k)

/-- A vector access under a predicate, whose place in the y field is above three bits that are zero (Table 15.2). -/
def formVec (w : Nat) (f : BitVec 5 → Src → BitVec 3 → Instr) : Except Reject Instr := do
  zero w 10 1
  zero w 11 3
  let x ← src w 17
  .ok (f (r5 w 5) x (b3 w 14))

/-- A gather or a scatter (Table 15.2). -/
def formGather (w : Nat) (f : BitVec 5 → Src → BitVec 5 → Instr) : Except Reject Instr := do
  zero w 10 1
  zero w 16 1
  let x ← src w 17
  .ok (f (r5 w 5) x (r5 w 11))

/-- No operand. -/
def formNone (w : Nat) (i : Instr) : Except Reject Instr := do
  zero w 17 6
  zero w 11 6
  noKeep w 5
  .ok i

section

variable {w : Nat} {i j : Instr}

theorem br2_eq_ok {f : Src → Src → Keep → Instr} :
    br2 w f = .ok i ↔ ∃ x y k, fld w 17 6 = x.code ∧ fld w 11 6 = y.code ∧ fld w 5 6 = keepCode k ∧ f x y k = i := by
  simp [br2, bind_eq_ok]

theorem br1_eq_ok {f : Src → Keep → Instr} :
    br1 w f = .ok i ↔ fld w 11 6 = 0 ∧ ∃ x k, fld w 17 6 = x.code ∧ fld w 5 6 = keepCode k ∧ f x k = i := by
  simp [br1, bind_eq_ok]

theorem formXY_eq_ok {f : Src → Src → Instr} :
    formXY w f = .ok i ↔ fld w 5 6 = 0 ∧ ∃ x y, fld w 17 6 = x.code ∧ fld w 11 6 = y.code ∧ f x y = i := by
  simp [formXY, bind_eq_ok]

theorem formX_eq_ok {f : Src → Instr} :
    formX w f = .ok i ↔ fld w 11 6 = 0 ∧ fld w 5 6 = 0 ∧ ∃ x, fld w 17 6 = x.code ∧ f x = i := by
  simp [formX, bind_eq_ok]

theorem formK_eq_ok {f : Keep → Instr} :
    formK w f = .ok i ↔ fld w 17 6 = 0 ∧ fld w 11 6 = 0 ∧ ∃ k, fld w 5 6 = keepCode k ∧ f k = i := by
  simp [formK, bind_eq_ok]

theorem formVec_eq_ok {f : BitVec 5 → Src → BitVec 3 → Instr} :
    formVec w f = .ok i ↔ fld w 10 1 = 0 ∧ fld w 11 3 = 0 ∧ ∃ x, fld w 17 6 = x.code ∧ f (r5 w 5) x (b3 w 14) = i := by
  simp [formVec, bind_eq_ok]

theorem formGather_eq_ok {f : BitVec 5 → Src → BitVec 5 → Instr} :
    formGather w f = .ok i ↔ fld w 10 1 = 0 ∧ fld w 16 1 = 0 ∧ ∃ x, fld w 17 6 = x.code ∧ f (r5 w 5) x (r5 w 11) = i := by
  simp [formGather, bind_eq_ok]

theorem formNone_eq_ok : formNone w j = .ok i ↔ fld w 17 6 = 0 ∧ fld w 11 6 = 0 ∧ fld w 5 6 = 0 ∧ j = i := by
  simp [formNone, bind_eq_ok]

end

/-! ### The readers of a vector type and of an accumulator group -/

theorem vty_eq_ok {w : Nat} {accept : VTy → Bool} {t : VTy} :
    vty w accept = .ok t ↔ fld w 3 5 = t.code ∧ accept t = true := by
  simp only [vty, bind_eq_ok, code?_eq_ok, VTy.ofCode_eq_some, need_eq_ok]
  constructor
  · rintro ⟨t', ht, -, ha, h⟩
    cases h
    exact ⟨ht, ha⟩
  · rintro ⟨ht, ha⟩
    exact ⟨t, ht, (), ha, rfl⟩

theorem decV3_eq_ok {w : Nat} {accept : VTy → Bool}
    {f : VTy → BitVec 5 → BitVec 5 → BitVec 5 → BitVec 3 → Instr} {i : Instr} :
    decV3 w accept f = .ok i ↔
      ∃ t, fld w 3 5 = t.code ∧ accept t = true ∧ f t (r5 w 18) (r5 w 13) (r5 w 8) (b3 w 0) = i := by
  simp [decV3, bind_eq_ok, vty_eq_ok, and_assoc]

theorem decV2_eq_ok {w : Nat} {accept : VTy → Bool} {f : VTy → BitVec 5 → BitVec 5 → BitVec 3 → Instr} {i : Instr} :
    decV2 w accept f = .ok i ↔ ∃ t, fld w 3 5 = t.code ∧ accept t = true ∧ f t (r5 w 18) (r5 w 13) (b3 w 0) = i := by
  simp [decV2, bind_eq_ok, vty_eq_ok, and_assoc]

theorem group_eq_ok {w : Nat} {g : BitVec 2 × BitVec 2} :
    group w = .ok g ↔ fld w 21 2 = g.1.toNat ∧ fld w 19 2 = g.2.toNat ∧ groupOk g.1 g.2 = true := by
  obtain ⟨ab, ac⟩ := g
  simp only [group, bind_eq_ok, need_eq_ok, Except.ok.injEq, Prod.mk.injEq]
  constructor
  · rintro ⟨-, hok, rfl, rfl⟩
    exact ⟨(ofNat_fld_toNat ..).symm, (ofNat_fld_toNat ..).symm, hok⟩
  · rintro ⟨hab, hac, hok⟩
    simp [hab, hac, hok]

theorem group_of_fld {w : Nat} {ab ac : BitVec 2} (hab : fld w 21 2 = ab.toNat) (hac : fld w 19 2 = ac.toNat)
    (hg : groupOk ab ac = true) :
    group w = .ok (ab, ac) := group_eq_ok.2 ⟨hab, hac, hg⟩

end Sys2Proof
end

section
/-! SUPPORT. A class A encoding decodes to its instruction, form by form (O60). -/

namespace Sys2Proof
open Machine

/-- The word leaves bits 31 and 30 to the slot, and decodes to the instruction whatever stands there. -/
def Decodes (i : Instr) (w : Nat) : Prop := w < 2 ^ 30 ∧ ∀ v, decodeWord (v * 2 ^ 30 + w) = .ok i

section

variable {i : Instr} {w maj m : Nat}

theorem decodes_ax {x y z : Nat} (he : some (encAX maj x y z m) = some w) (hb : maj < 64 ∧ m < 32) (hx : x < 64)
    (hy : y < 64) (hz : z < 64) (hd : ∀ w, SrcFields w 0 maj x y z m → decA w = .ok i) : Decodes i w := by
  cases he
  obtain ⟨hlt, h⟩ := encAX_fields hb.1 hx hy hz hb.2
  exact ⟨hlt, fun v => (if_pos (h.above v).cls).trans (hd _ (h.above v))⟩

theorem decodes_xyk {f : Src → Src → Keep → Instr} {x y : Src} {k : Keep}
    (he : some (encAX maj x.code y.code (keepCode k) m) = some w)
    (hb : maj < 64 ∧ m < 32) (hd : ∀ w, fld w 23 6 = maj → fld w 0 5 = m → decA w = br2 w f) :
    Decodes (f x y k) w :=
  decodes_ax he hb x.code_lt y.code_lt (keepCode_lt k)
    (fun w h => (hd w h.maj h.m).trans (br2_eq_ok.2 ⟨x, y, k, h.x, h.y, h.z, rfl⟩))

theorem decodes_xk {f : Src → Keep → Instr} {x : Src} {k : Keep} (he : some (encAX maj x.code 0 (keepCode k) m) = some w)
    (hb : maj < 64 ∧ m < 32) (hd : ∀ w, fld w 23 6 = maj → fld w 0 5 = m → decA w = br1 w f) :
    Decodes (f x k) w :=
  decodes_ax he hb x.code_lt (by decide) (keepCode_lt k)
    (fun w h => (hd w h.maj h.m).trans (br1_eq_ok.2 ⟨h.y, x, k, h.x, h.z, rfl⟩))

theorem decodes_xy {f : Src → Src → Instr} {x y : Src} (he : some (encAX maj x.code y.code 0 m) = some w)
    (hb : maj < 64 ∧ m < 32) (hd : ∀ w, fld w 23 6 = maj → fld w 0 5 = m → decA w = formXY w f) :
    Decodes (f x y) w :=
  decodes_ax he hb x.code_lt y.code_lt (by decide)
    (fun w h => (hd w h.maj h.m).trans (formXY_eq_ok.2 ⟨h.z, x, y, h.x, h.y, rfl⟩))

theorem decodes_x {f : Src → Instr} {x : Src} (he : some (encAX maj x.code 0 0 m) = some w)
    (hb : maj < 64 ∧ m < 32) (hd : ∀ w, fld w 23 6 = maj → fld w 0 5 = m → decA w = formX w f) :
    Decodes (f x) w :=
  decodes_ax he hb x.code_lt (by decide) (by decide)
    (fun w h => (hd w h.maj h.m).trans (formX_eq_ok.2 ⟨h.y, h.z, x, h.x, rfl⟩))

theorem decodes_k {f : Keep → Instr} {k : Keep} (he : some (encAX maj 0 0 (keepCode k) m) = some w)
    (hb : maj < 64 ∧ m < 32) (hd : ∀ w, fld w 23 6 = maj → fld w 0 5 = m → decA w = formK w f) :
    Decodes (f k) w :=
  decodes_ax he hb (by decide) (by decide) (keepCode_lt k)
    (fun w h => (hd w h.maj h.m).trans (formK_eq_ok.2 ⟨h.x, h.y, k, h.z, rfl⟩))

theorem decodes_none (he : some (encAX maj 0 0 0 m) = some w)
    (hb : maj < 64 ∧ m < 32) (hd : ∀ w, fld w 23 6 = maj → fld w 0 5 = m → decA w = formNone w i) :
    Decodes i w :=
  decodes_ax he hb (by decide) (by decide) (by decide)
    (fun w h => (hd w h.maj h.m).trans (formNone_eq_ok.2 ⟨h.x, h.y, h.z, rfl⟩))

theorem decodes_am {x y : Nat} {d : BitVec 11} (he : some (encAM maj x y d) = some w) (hmaj : maj < 64) (hx : x < 64)
    (hy : y < 64) (hd : ∀ w, ImmFields w 0 maj x y d.toNat → decA w = .ok i) : Decodes i w := by
  cases he
  obtain ⟨hlt, h⟩ := encAM_fields hmaj hx hy
  exact ⟨hlt, fun v => (if_pos (h.above v).cls).trans (hd _ (h.above v))⟩

/-- A class A word of a layout of its own below the major. -/
theorem decodes_low {r : Nat} (he : some (maj * 2 ^ 23 + r) = some w) (hmaj : maj < 64) (hr : r < 2 ^ 23)
    (hd : ∀ w, fld w 23 6 = maj → fld w 0 23 = r → decA w = .ok i) : Decodes i w := by
  cases he
  have hcls (v : Nat) : fld (v * 2 ^ 30 + (maj * 2 ^ 23 + r)) 29 1 = 0 := by simp only [fld]; omega
  have h23 (v : Nat) : fld (v * 2 ^ 30 + (maj * 2 ^ 23 + r)) 23 6 = maj := by simp only [fld]; omega
  have hlow (v : Nat) : fld (v * 2 ^ 30 + (maj * 2 ^ 23 + r)) 0 23 = r := by simp only [fld]; omega
  exact ⟨by omega, fun v => (if_pos (hcls v)).trans (hd _ (h23 v) (hlow v))⟩

/-! ### System -/

theorem decodes_trap {x : Src} {n : BitVec 6} (he : encode (.trap x n) = some w) : Decodes (.trap x n) w :=
  decodes_ax he (by decide) x.code_lt n.isLt (by decide) fun w h => by
    rw [decA, h.maj]; show decSystem w = _; rw [decSystem, h.m]
    simp [bind_eq_ok, h.x, h.y, h.z]

theorem decodes_eret {x : Src} {d : Disp} (he : encode (.eret x d) = some w) : Decodes (.eret x d) w :=
  decodes_ax he (by decide) x.code_lt (by cases d <;> decide) (by decide) fun w h => by
    rw [decA, h.maj]; show decSystem w = _; rw [decSystem, h.m]
    simp [bind_eq_ok, h.x, h.y, h.z]

theorem decodes_ctlr {c : Ctl} {k : Keep} (he : encode (.ctlr c k) = some w) : Decodes (.ctlr c k) w :=
  decodes_ax he (by decide) (by decide) c.code_lt (keepCode_lt k) fun w h => by
    rw [decA, h.maj]; show decSystem w = _; rw [decSystem, h.m]
    simp [bind_eq_ok, h.x, h.y, h.z]

theorem decodes_ctlw {c : Ctl} {x : Src} (hc : c ≠ .shoot) (he : encode (.ctlw c x) = some w) : Decodes (.ctlw c x) w :=
  decodes_ax he (by decide) x.code_lt c.code_lt (by decide) fun w h => by
    rw [decA, h.maj]; show decSystem w = _; rw [decSystem, h.m]
    simp [bind_eq_ok, h.x, h.y, h.z, Ctl.code_inj, hc]

theorem decodes_shootDown {x : Src} (he : encode (.shootDown x) = some w) : Decodes (.shootDown x) w :=
  decodes_ax (y := Ctl.shoot.code) he (by decide) x.code_lt (by decide) (by decide) fun w h => by
    rw [decA, h.maj]; show decSystem w = _; rw [decSystem, h.m]
    simp [bind_eq_ok, h.x, h.y, h.z, Ctl.code_inj]

/-! ### Control -/

theorem decodes_br {d : BitVec 18} (he : encode (.br d) = some w) : Decodes (.br d) w :=
  decodes_low he (by decide) (by omega) fun w hmaj h => by
    have hcond : fld w 18 5 = Cond.always.code := (fld_of_fld 18 5 h rfl (by decide)).trans (fld_toNat_high d)
    have hd : fld w 0 18 = d.toNat := (fld_of_fld 0 18 h rfl (by decide)).trans (fld_toNat_low d)
    rw [decA, hmaj]; show decBranch w = _
    simp [decBranch, bind_eq_ok, hcond, hd, Cond.code_inj]

theorem decodes_bc {c : Cond} {d : BitVec 18} (hne : c ≠ .always) (he : encode (.bc c d) = some w) : Decodes (.bc c d) w := by
  have hc := c.code_lt
  refine decodes_low (maj := 1) (r := c.code * 2 ^ 18 + d.toNat) ((congrArg some (Nat.add_assoc ..).symm).trans he) (by decide)
    (by omega) fun w hmaj h => ?_
  have hcond : fld w 18 5 = c.code := (fld_of_fld 18 5 h rfl (by decide)).trans (fld_mul_add_high d (by omega))
  have hd : fld w 0 18 = d.toNat := (fld_of_fld 0 18 h rfl (by decide)).trans (fld_mul_add_low d)
  rw [decA, hmaj]; show decBranch w = _
  simp [decBranch, bind_eq_ok, hcond, hd, Cond.code_inj, hne]

theorem decodes_call {d : BitVec 18} (he : encode (.call d) = some w) : Decodes (.call d) w :=
  decodes_low he (by decide) (by omega) fun w hmaj h => by
    have hcond : fld w 18 5 = 0 := (fld_of_fld 18 5 h rfl (by decide)).trans (fld_toNat_high d)
    have hd : fld w 0 18 = d.toNat := (fld_of_fld 0 18 h rfl (by decide)).trans (fld_toNat_low d)
    rw [decA, hmaj]; show decCall w = _
    simp [decCall, bind_eq_ok, hcond, hd]

theorem decodes_loop {r : BitVec 5} {d : BitVec 17} (he : encode (.loop r d) = some w) : Decodes (.loop r d) w := by
  refine decodes_low (maj := 4) (r := (32 + r.toNat) * 2 ^ 17 + d.toNat) ((congrArg some (Nat.add_assoc ..).symm).trans he)
    (by decide) (by omega) fun w hmaj h => ?_
  have hr : fld w 17 6 = 32 + r.toNat := (fld_of_fld 17 6 h rfl (by decide)).trans (fld_mul_add_high d (by omega))
  have hr5 : fld w 17 5 = r.toNat := (fld_of_fld 0 5 hr rfl (by decide)).trans (by simp only [fld]; omega)
  have hd : fld w 0 17 = d.toNat := (fld_of_fld 0 17 h rfl (by decide)).trans (fld_mul_add_low d)
  rw [decA, hmaj]; show decLoop w = _
  simp [decLoop, bind_eq_ok, hr, r5, hr5, hd]

theorem decodes_rep {x : Src} {b sn sv : BitVec 4} (he : encode (.rep x b sn sv) = some w) : Decodes (.rep x b sn sv) w := by
  have hlt := x.code_lt
  have hr : 5 * 2 ^ 23 + (x.code * 2 ^ 17 + b.toNat * 2 ^ 13 + sn.toNat * 2 ^ 9 + sv.toNat * 2 ^ 5) =
    5 * 2 ^ 23 + x.code * 2 ^ 17 + b.toNat * 2 ^ 13 + sn.toNat * 2 ^ 9 + sv.toNat * 2 ^ 5 := by omega
  refine decodes_low ((congrArg some hr).trans he) (by decide) (by omega) fun w hmaj h => ?_
  have hx : fld w 17 6 = x.code := (fld_of_fld 17 6 h rfl (by decide)).trans (by simp only [fld]; omega)
  have hb : fld w 13 4 = b.toNat := (fld_of_fld 13 4 h rfl (by decide)).trans (by simp only [fld]; omega)
  have hsn : fld w 9 4 = sn.toNat := (fld_of_fld 9 4 h rfl (by decide)).trans (by simp only [fld]; omega)
  have hsv : fld w 5 4 = sv.toNat := (fld_of_fld 5 4 h rfl (by decide)).trans (by simp only [fld]; omega)
  have hz : fld w 0 5 = 0 := (fld_of_fld 0 5 h rfl (by decide)).trans (by simp only [fld]; omega)
  rw [decA, hmaj]; show decRep w = _
  simp [decRep, bind_eq_ok, hx, hb, hsn, hsv, hz]

theorem decodes_sched {k : Keep} (he : encode (.sched k) = some w) : Decodes (.sched k) w := by
  have hk := keepCode_lt k
  refine decodes_low he (by decide) (by omega) fun w hmaj h => ?_
  have hlow : fld w 0 17 = 0 := (fld_of_fld 0 17 h rfl (by decide)).trans (by simp only [fld]; omega)
  have hk : fld w 17 6 = keepCode k := (fld_of_fld 17 6 h rfl (by decide)).trans (by simp only [fld]; omega)
  rw [decA, hmaj]; show decSched w = _
  simp [decSched, bind_eq_ok, hlow, hk]

theorem decodes_nop (he : encode .nop = some w) : Decodes .nop w :=
  decodes_low (r := 0) he (by decide) (by decide) fun w hmaj h => by
    rw [decA, hmaj]; show decNop w = _
    simp [decNop, bind_eq_ok, h]

/-! ### Memory -/

theorem decodes_ld {t : LdTy} {x : Src} {k : Keep} {d : BitVec 11} (he : encode (.ld t x k d) = some w) :
    Decodes (.ld t x k d) w := by
  have hd (w : Nat) (h : ImmFields w 0 (0x10 + t.code) x.code (keepCode k) d.toNat) : decLd t w = .ok (.ld t x k d) := by
    simp [decLd, imm11, bind_eq_ok, h.x, h.y, h.d]
  cases t
  all_goals exact decodes_am he (by decide) x.code_lt (keepCode_lt k) fun w h => by rw [decA, h.maj]; exact hd w h

theorem decodes_ld128 {x : Src} {d : BitVec 11} (he : encode (.ld128 x d) = some w) : Decodes (.ld128 x d) w :=
  decodes_am he (by decide) x.code_lt (by decide) fun w h => by
    rw [decA, h.maj]; show decLd128 w = _
    simp [decLd128, imm11, bind_eq_ok, h.x, h.y, h.d]

theorem decodes_st {t : StTy} {x y : Src} {d : BitVec 11} (he : encode (.st t x y d) = some w) : Decodes (.st t x y d) w := by
  have hd (w : Nat) (h : ImmFields w 0 (0x18 + t.code) x.code y.code d.toNat) : decSt t w = .ok (.st t x y d) := by
    simp [decSt, imm11, bind_eq_ok, h.x, h.y, h.d]
  cases t
  all_goals exact decodes_am he (by decide) x.code_lt y.code_lt fun w h => by rw [decA, h.maj]; exact hd w h

theorem decodes_prfR {x : Src} {d : BitVec 11} (he : encode (.prfR x d) = some w) : Decodes (.prfR x d) w :=
  decodes_am he (by decide) x.code_lt (by decide) fun w h => by
    rw [decA, h.maj]; show decPrf w = _
    simp [decPrf, imm11, bind_eq_ok, h.x, h.y, h.d]

theorem decodes_prfW {x : Src} {d : BitVec 11} (he : encode (.prfW x d) = some w) : Decodes (.prfW x d) w :=
  decodes_am he (by decide) x.code_lt (by decide) fun w h => by
    rw [decA, h.maj]; show decPrf w = _
    simp [decPrf, imm11, bind_eq_ok, h.x, h.y, h.d]

theorem decodes_ldx {t : LdTy} {x y : Src} {k : Keep} (he : encode (.ldx (.ty t) x y k) = some w) :
    Decodes (.ldx (.ty t) x y k) w := by
  have ht : t.code < 7 := by cases t <;> decide
  exact decodes_ax (m := t.code) he (by omega) x.code_lt y.code_lt (keepCode_lt k) fun w h => by
    rw [decA, h.maj]; show decLdxStx w = _
    simp [decLdxStx, bind_eq_ok, h.x, h.y, h.z, h.m, ht, ht.ne]

theorem decodes_ldx128 {x y : Src} (he : encode (.ldx .w128 x y none) = some w) : Decodes (.ldx .w128 x y none) w :=
  decodes_ax (m := 7) he (by decide) x.code_lt y.code_lt (by decide) fun w h => by
    rw [decA, h.maj]; show decLdxStx w = _
    simp [decLdxStx, bind_eq_ok, h.x, h.y, h.z, h.m, keepCode]

theorem decodes_stx {t : StTy} {x y z : Src} (he : encode (.stx t x y z) = some w) : Decodes (.stx t x y z) w := by
  have ht : t.code < 4 := by cases t <;> decide
  exact decodes_ax he (by omega) x.code_lt y.code_lt z.code_lt fun w h => by
    have h7 : ¬ 16 + t.code = 7 := by omega
    have hlt : ¬ 16 + t.code < 7 := by omega
    rw [decA, h.maj]; show decLdxStx w = _
    simp only [decLdxStx, h.m, if_neg h7, if_neg hlt]
    simp [bind_eq_ok, h.x, h.y, h.z]

theorem decodes_tld {t : BitVec 3} {x y : Src} (he : encode (.tld t x y) = some w) : Decodes (.tld t x y) w :=
  decodes_ax he (by decide) x.code_lt y.code_lt (by omega) fun w h => by
    rw [decA, h.maj]; show decTile w = _
    simp [decTile, bind_eq_ok, h.x, h.y, h.m, b3, fld_of_fld 3 3 h.z rfl (by decide), fld_of_fld 0 3 h.z rfl (by decide)]

theorem decodes_tst {t : BitVec 3} {x y : Src} (he : encode (.tst t x y) = some w) : Decodes (.tst t x y) w :=
  decodes_ax he (by decide) x.code_lt y.code_lt (by omega) fun w h => by
    rw [decA, h.maj]; show decTile w = _
    simp [decTile, bind_eq_ok, h.x, h.y, h.m, b3, fld_of_fld 3 3 h.z rfl (by decide), fld_of_fld 0 3 h.z rfl (by decide)]

theorem decodes_vec {f : BitVec 5 → Src → BitVec 3 → Instr} {vd : BitVec 5} {x : Src} {p : BitVec 3}
    (he : some (encAX maj x.code (p.toNat * 8) vd.toNat m) = some w)
    (hb : maj < 64 ∧ m < 32) (hd : ∀ w, fld w 23 6 = maj → fld w 0 5 = m → decA w = formVec w f) :
    Decodes (f vd x p) w :=
  decodes_ax he hb x.code_lt (by omega) (by omega) (fun w h => by
    have hp : fld w 14 3 = p.toNat := (fld_of_fld 3 3 h.y rfl (by decide)).trans (fld_mul_add_high (0 : BitVec 3) p.isLt)
    have hlow : fld w 11 3 = 0 := (fld_of_fld 0 3 h.y rfl (by decide)).trans (fld_mul_add_low (0 : BitVec 3))
    have hvd : fld w 5 5 = vd.toNat := (fld_of_fld 0 5 h.z rfl (by decide)).trans (fld_toNat_low vd)
    have hz : fld w 10 1 = 0 := (fld_of_fld 5 1 h.z rfl (by decide)).trans (fld_toNat_high vd)
    exact (hd w h.maj h.m).trans (formVec_eq_ok.2 ⟨hz, hlow, x, h.x, by rw [r5_of_fld hvd, b3_of_fld hp]⟩))

theorem decodes_gather {f : BitVec 5 → Src → BitVec 5 → Instr} {vd vb : BitVec 5} {x : Src}
    (he : some (encAX maj x.code vb.toNat vd.toNat m) = some w)
    (hb : maj < 64 ∧ m < 32) (hd : ∀ w, fld w 23 6 = maj → fld w 0 5 = m → decA w = formGather w f) :
    Decodes (f vd x vb) w :=
  decodes_ax he hb x.code_lt (by omega) (by omega) (fun w h => by
    have hvb : fld w 11 5 = vb.toNat := (fld_of_fld 0 5 h.y rfl (by decide)).trans (fld_toNat_low vb)
    have hy : fld w 16 1 = 0 := (fld_of_fld 5 1 h.y rfl (by decide)).trans (fld_toNat_high vb)
    have hvd : fld w 5 5 = vd.toNat := (fld_of_fld 0 5 h.z rfl (by decide)).trans (fld_toNat_low vd)
    have hz : fld w 10 1 = 0 := (fld_of_fld 5 1 h.z rfl (by decide)).trans (fld_toNat_high vd)
    exact (hd w h.maj h.m).trans (formGather_eq_ok.2 ⟨hz, hy, x, h.x, by rw [r5_of_fld hvd, r5_of_fld hvb]⟩))

theorem decodes_vld {half : Bool} {vd : BitVec 5} {x : Src} {p : BitVec 3} (he : encode (.vld half vd x p) = some w) :
    Decodes (.vld half vd x p) w := by
  cases half
  all_goals
    exact decodes_vec he (by decide) fun w h hm => by
      rw [decA, h]; show decVecMem w = _
      simp [decVecMem, hm, formVec, boolCode]

theorem decodes_vst {half : Bool} {vd : BitVec 5} {x : Src} {p : BitVec 3} (he : encode (.vst half vd x p) = some w) :
    Decodes (.vst half vd x p) w := by
  cases half
  all_goals
    exact decodes_vec he (by decide) fun w h hm => by
      rw [decA, h]; show decVecMem w = _
      simp [decVecMem, hm, formVec, boolCode]

theorem decodes_vldb {vd : BitVec 5} {x : Src} {p : BitVec 3} (he : encode (.vldb vd x p) = some w) :
    Decodes (.vldb vd x p) w :=
  decodes_vec he (by decide) fun w h hm => by
    rw [decA, h]; show decVecMem w = _
    simp [decVecMem, hm, formVec]

theorem decodes_atom {op : AtomOp} {x y : Src} {k : Keep} (he : encode (.atom op x y k) = some w) :
    Decodes (.atom op x y k) w :=
  decodes_ax he ⟨by decide, by cases op <;> decide⟩ x.code_lt y.code_lt (keepCode_lt k) fun w h => by
    rw [decA, h.maj]; show decAtom w = _
    simp [decAtom, bind_eq_ok, h.x, h.y, h.z, h.m]

theorem decodes_atomCas {f : Bool} {x y z : Src} (he : encode (.atomCas f x y z) = some w) : Decodes (.atomCas f x y z) w := by
  have hf := boolCode_lt f
  exact decodes_ax he (by omega) x.code_lt y.code_lt z.code_lt fun w h => by
    have hbit : bit w 0 = f := bit_of_fld ((fld_of_fld 0 1 h.m rfl (by decide)).trans (by simp only [fld]; omega))
    rw [decA, h.maj]; show decCas w = _
    simp only [decCas, h.m, hf, hbit]
    simp [bind_eq_ok, h.x, h.y, h.z]

theorem decodes_red {op : AtomOp} {x y : Src} (hop : op.isSwap = false) (he : encode (.red op x y) = some w) :
    Decodes (.red op x y) w := by
  have hne : op.code ≠ 0x18 ∧ op.code ≠ 0x1A := by cases op <;> decide
  exact decodes_ax he ⟨by decide, by cases op <;> decide⟩ x.code_lt y.code_lt (by decide) fun w h => by
    rw [decA, h.maj]; show decRed w = _
    simp [decRed, bind_eq_ok, h.x, h.y, h.z, h.m, hne, AtomOp.code_inj, hop]

theorem decodes_redx {f : Bool} {x y : Src} (he : encode (.redx f x y) = some w) : Decodes (.redx f x y) w := by
  cases f
  all_goals
    exact decodes_ax he (by decide) x.code_lt y.code_lt (by decide) fun w h => by
      rw [decA, h.maj]; show decRed w = _
      simp [decRed, bind_eq_ok, h.x, h.y, h.z, h.m, boolCode]

/-! ### Synchronisation -/

theorem decodes_fence {f : FenceKind} {s : Scope} (he : encode (.fence f s) = some w) : Decodes (.fence f s) w := by
  have hf : f.code < 3 := by cases f <;> decide
  have hs : s.code < 6 := by cases s <;> decide
  exact decodes_ax he (by omega) (by decide) (by decide) (by decide) fun w h => by
    have hkind : fld w 3 2 = f.code := (fld_of_fld 3 2 h.m rfl (by decide)).trans (by simp only [fld]; omega)
    have hscope : fld w 0 3 = s.code := (fld_of_fld 0 3 h.m rfl (by decide)).trans (by simp only [fld]; omega)
    rw [decA, h.maj]; show decFence w = _
    simp [decFence, bind_eq_ok, h.x, h.y, h.z, hkind, hscope]

theorem decodes_waita {f : Bool} {x y : Src} {k : Keep} (he : encode (.waita f x y k) = some w) :
    Decodes (.waita f x y k) w := by
  have hf := boolCode_lt f
  exact decodes_ax he (by omega) x.code_lt y.code_lt (keepCode_lt k) fun w h => by
    have hbit : bit w 0 = f := bit_of_fld ((fld_of_fld 0 1 h.m rfl (by decide)).trans (by simp only [fld]; omega))
    rw [decA, h.maj]; show decWait w = _
    simp only [decWait, h.m, if_pos hf, hbit]
    simp [bind_eq_ok, h.x, h.y, h.z]

theorem decodes_wake {s : Scope} {x y : Src} (he : encode (.wake s x y) = some w) : Decodes (.wake s x y) w := by
  have hs : s.code < 6 := by cases s <;> decide
  exact decodes_ax he (by omega) x.code_lt y.code_lt (by decide) fun w h => by
    have hge : ¬ 8 + s.code < 2 := by omega
    rw [decA, h.maj]; show decWait w = _
    simp only [decWait, h.m, if_neg hge]
    simp [bind_eq_ok, h.x, h.y, h.z]

theorem decodes_phase {t : BitVec 4} (he : encode (.phase t) = some w) : Decodes (.phase t) w :=
  decodes_ax he (by decide) (by decide) (by omega) (by decide) fun w h => by
    rw [decA, h.maj]; show decPhase w = _
    simp [decPhase, bind_eq_ok, h.x, h.z, h.m, fld_of_fld 4 2 h.y rfl (by decide), fld_of_fld 0 4 h.y rfl (by decide)]

theorem decodes_pwait {t : BitVec 4} (he : encode (.pwait t) = some w) : Decodes (.pwait t) w :=
  decodes_ax he (by decide) (by decide) (by omega) (by decide) fun w h => by
    rw [decA, h.maj]; show decPhase w = _
    simp [decPhase, bind_eq_ok, h.x, h.z, h.m, fld_of_fld 4 2 h.y rfl (by decide), fld_of_fld 0 4 h.y rfl (by decide)]

theorem decodes_arrive {t : BitVec 4} {d : BitVec 3} (he : encode (.arrive t d) = some w) : Decodes (.arrive t d) w :=
  decodes_ax he (by decide) (by decide) (by omega) (by omega) fun w h => by
    rw [decA, h.maj]; show decPhase w = _
    simp [decPhase, bind_eq_ok, h.x, h.m, b3, fld_of_fld 4 2 h.y rfl (by decide), fld_of_fld 0 4 h.y rfl (by decide),
      fld_of_fld 3 3 h.z rfl (by decide), fld_of_fld 0 3 h.z rfl (by decide)]

/-! ### Channels, the tree and the engines -/

theorem decodes_altg {g : BitVec 3} {x : Src} (he : encode (.altg g x) = some w) : Decodes (.altg g x) w :=
  decodes_ax he (by decide) x.code_lt (by omega) (by decide) fun w h => by
    rw [decA, h.maj]; show decAlt w = _; rw [decAlt, h.m]
    simp [bind_eq_ok, h.x, h.z, b3, fld_of_fld 3 3 h.y rfl (by decide), fld_of_fld 0 3 h.y rfl (by decide)]

theorem decodes_enrol {x y : Src} {j : BitVec 5} (hj : j.toNat ≤ 30) (he : encode (.enrol x y j) = some w) :
    Decodes (.enrol x y j) w :=
  decodes_ax he (by decide) x.code_lt y.code_lt (by omega) fun w h => by
    have hr : fld w 5 5 = j.toNat := (fld_of_fld 0 5 h.z rfl (by decide)).trans (by simp only [fld]; omega)
    have hle : 32 + j.toNat ≤ 62 := by omega
    rw [decA, h.maj]; show decTree w = _; rw [decTree, h.m]
    simp [bind_eq_ok, h.x, h.y, h.z, r5, hr, hle]

theorem decodes_unenrolFree {x : Src} (he : encode (.unenrol x .free) = some w) : Decodes (.unenrol x .free) w :=
  decodes_ax (z := 16) (m := 1) he (by decide) x.code_lt (by decide) (by decide) fun w h => by
    rw [decA, h.maj]; show decTree w = _; rw [decTree, h.m]
    simp [bind_eq_ok, h.x, h.y, h.z]

theorem decodes_unenrolPair {x : Src} {j : BitVec 5} (hj : j.toNat ≤ 30) (he : encode (.unenrol x (.pair j)) = some w) :
    Decodes (.unenrol x (.pair j)) w :=
  decodes_ax (z := 32 + j.toNat) (m := 1) he (by decide) x.code_lt (by decide) (by omega) fun w h => by
    have hr : fld w 5 5 = j.toNat := (fld_of_fld 0 5 h.z rfl (by decide)).trans (by simp only [fld]; omega)
    have hle : 32 + j.toNat ≤ 62 := by omega
    have hne : ¬ 32 + j.toNat = 16 := by omega
    rw [decA, h.maj]; show decTree w = _; rw [decTree, h.m]
    simp [bind_eq_ok, h.x, h.y, h.z, r5, hr, hle, hne]

theorem decodes_fork {x y : Src} {e : ForkKind} (he : encode (.fork x y e) = some w) : Decodes (.fork x y e) w := by
  have hcode : e.code < 6 := by cases e <;> decide
  exact decodes_ax he (by decide) x.code_lt y.code_lt (by omega) fun w h => by
    have hk : fld w 5 3 = e.code := (fld_of_fld 0 3 h.z rfl (by decide)).trans (by simp only [fld]; omega)
    have hz : fld w 8 3 = 0 := (fld_of_fld 3 3 h.z rfl (by decide)).trans (by simp only [fld]; omega)
    rw [decA, h.maj]; show decFork w = _; rw [decFork, h.m]
    simp [bind_eq_ok, h.x, h.y, hk, hz]

theorem decodes_coll {x : Src} (he : encode (.coll x) = some w) : Decodes (.coll x) w :=
  decodes_ax he (by decide) x.code_lt (by decide) (by decide) fun w h => by
    rw [decA, h.maj]; show decColl w = _
    simp [decColl, bind_eq_ok, h.x, h.y, h.z, h.m]

theorem decodes_bdeclLin {x y : Src} (he : encode (.bdeclLin x y) = some w) : Decodes (.bdeclLin x y) w :=
  decodes_ax he (by decide) x.code_lt y.code_lt (by decide) fun w h => by
    rw [decA, h.maj]; show decBuf w = _; rw [decBuf, h.m]
    simp [bind_eq_ok, h.x, h.y, h.z]

theorem decodes_bdeclRing {x y z : Src} (he : encode (.bdeclRing x y z) = some w) : Decodes (.bdeclRing x y z) w :=
  decodes_ax he (by decide) x.code_lt y.code_lt z.code_lt fun w h => by
    rw [decA, h.maj]; show decBuf w = _; rw [decBuf, h.m]
    simp [bind_eq_ok, h.x, h.y, h.z]

end

end Sys2Proof
end

section
/-! SUPPORT. A class B encoding decodes to its instruction, form by form (O60). -/

namespace Sys2Proof
open Machine

/-- The two fields of a minor that holds an operation above a rounding code (Table 13.8). -/
theorem rounding_fields {w q : Nat} {r : Rm} (h : fld w 0 5 = 8 * q + r.code) : fld w 3 2 = q ∧ fld w 0 3 = r.code := by
  have hr : r.code < 8 := by cases r <;> decide
  have hlt := fld_lt w 0 5
  exact ⟨(fld_of_fld 3 2 h rfl (by decide)).trans (by simp only [fld]; omega),
    (fld_of_fld 0 3 h rfl (by decide)).trans (by simp only [fld]; omega)⟩

section

variable {i : Instr} {w maj m : Nat}

theorem decodes_brx {x y z : Nat} (he : some (encBR maj x y z m) = some w) (hb : maj < 64 ∧ m < 32) (hx : x < 64)
    (hy : y < 64) (hz : z < 64) (hd : ∀ w, SrcFields w 1 maj x y z m → decB w = .ok i) : Decodes i w := by
  cases he
  obtain ⟨hlt, h⟩ := encBR_fields hb.1 hx hy hz hb.2
  exact ⟨hlt, fun v => (if_neg (by rw [(h.above v).cls]; decide)).trans (hd _ (h.above v))⟩

theorem decodes_br2 {f : Src → Src → Keep → Instr} {x y : Src} {k : Keep} (he : some (encBR2 maj m x y k) = some w)
    (hb : maj < 64 ∧ m < 32) (hd : ∀ w, fld w 23 6 = maj → fld w 0 5 = m → decB w = br2 w f) :
    Decodes (f x y k) w :=
  decodes_brx he hb x.code_lt y.code_lt (keepCode_lt k)
    (fun w h => (hd w h.maj h.m).trans (br2_eq_ok.2 ⟨x, y, k, h.x, h.y, h.z, rfl⟩))

theorem decodes_br1 {f : Src → Keep → Instr} {x : Src} {k : Keep} (he : some (encBR1 maj m x k) = some w)
    (hb : maj < 64 ∧ m < 32) (hd : ∀ w, fld w 23 6 = maj → fld w 0 5 = m → decB w = br1 w f) :
    Decodes (f x k) w :=
  decodes_brx (y := 0) he hb x.code_lt (by decide) (keepCode_lt k)
    (fun w h => (hd w h.maj h.m).trans (br1_eq_ok.2 ⟨h.y, x, k, h.x, h.z, rfl⟩))

theorem decodes_bi {x d : Nat} {k : Keep} (he : some (encBI maj x (keepCode k) d) = some w) (hmaj : maj < 64) (hx : x < 64)
    (hd : d < 2048) (h : ∀ w, ImmFields w 1 maj x (keepCode k) d → decB w = .ok i) : Decodes i w := by
  cases he
  obtain ⟨hlt, hf⟩ := encBI_fields hmaj hx (keepCode_lt k) hd
  exact ⟨hlt, fun v => (if_neg (by rw [(hf.above v).cls]; decide)).trans (h _ (hf.above v))⟩

theorem decodes_bv {vd va vb vc p : Nat} (he : some (encBV maj vd va vb vc p) = some w) (hmaj : maj < 64) (hd : vd < 32)
    (ha : va < 32) (hb : vb < 32) (hc : vc < 32) (hp : p < 8)
    (h : ∀ w, VecFields w maj vd va vb vc p → decB w = .ok i) : Decodes i w := by
  cases he
  obtain ⟨hlt, hf⟩ := encBV_fields hmaj hd ha hb hc hp
  exact ⟨hlt, fun v => (if_neg (by rw [(hf.above v).cls]; decide)).trans (h _ (hf.above v))⟩

theorem decodes_bm {ab ac t dp nr : Nat} (he : some (encBM maj ab ac t dp nr m) = some w) (hmaj : maj < 64) (hab : ab < 4)
    (hac : ac < 4) (ht : t < 8) (hdp : dp < 16) (hnr : nr < 32) (hm : m < 8)
    (h : ∀ w, TileFields w maj ab ac t dp nr m → decB w = .ok i) : Decodes i w := by
  cases he
  obtain ⟨hlt, hf⟩ := encBM_fields hmaj hab hac ht hdp hnr hm
  exact ⟨hlt, fun v => (if_neg (by rw [(hf.above v).cls]; decide)).trans (h _ (hf.above v))⟩

/-! ### Integers and pointers -/

theorem decodes_li {d : BitVec 17} {k : Keep} (he : encode (.li d k) = some w) : Decodes (.li d k) w :=
  decodes_bi he (by decide) (by omega) (by omega) fun w h => by
    rw [decB, h.maj]; show decLi w = _
    simp [decLi, bind_eq_ok, h.x, h.y, h.d, Nat.div_add_mod']

theorem decodes_immediate {f : Src → BitVec 11 → Keep → Instr} {x : Src} {d : BitVec 11} {k : Keep}
    (he : some (encBI maj x.code (keepCode k) d.toNat) = some w) (hmaj : maj < 64)
    (h : ∀ w, fld w 23 6 = maj → decB w = decBi w f) : Decodes (f x d k) w :=
  decodes_bi he hmaj x.code_lt d.isLt (fun w hf => by
    rw [h w hf.maj]
    simp only [decBi, bind_eq_ok, src_eq_ok, kp_eq_ok, hf.x, hf.y, imm11_of_fld hf.d]
    exact ⟨x, rfl, k, rfl, rfl⟩)

theorem decodes_extension {f : Src → BitVec 11 → Keep → Instr} {x : Src} {d : BitVec 11} {k : Keep} (hd : widthOk d = true)
    (he : some (encBI maj x.code (keepCode k) d.toNat) = some w) (hmaj : maj < 64)
    (h : ∀ w, fld w 23 6 = maj → decB w = decExt w f) : Decodes (f x d k) w :=
  decodes_bi he hmaj x.code_lt d.isLt (fun w hf => by
    rw [h w hf.maj]
    simp only [decExt, bind_eq_ok, src_eq_ok, kp_eq_ok, need_eq_ok, hf.x, hf.y, imm11_of_fld hf.d]
    exact ⟨x, rfl, k, rfl, (), hd, rfl⟩)

theorem decodes_bitField {f : Src → BitVec 5 → BitVec 6 → Keep → Instr} {x : Src} {n : BitVec 5} {lo : BitVec 6} {k : Keep}
    (hok : bitFieldOk n lo = true) (he : some (encBI maj x.code (keepCode k) (n.toNat * 64 + lo.toNat)) = some w) (hmaj : maj < 64)
    (h : ∀ w, fld w 23 6 = maj → decB w = decField w f) : Decodes (f x n lo k) w :=
  decodes_bi he hmaj x.code_lt (by omega) (fun w hf => by
    have hn : r5 w 6 = n := r5_of_fld ((fld_of_fld 6 5 hf.d rfl (by decide)).trans (fld_mul_add_high lo n.isLt))
    have hlo : fld w 0 6 = lo.toNat := (fld_of_fld 0 6 hf.d rfl (by decide)).trans (fld_mul_add_low lo)
    rw [h w hf.maj]
    simp only [decField, bind_eq_ok, src_eq_ok, kp_eq_ok, need_eq_ok, hf.x, hf.y, hn, hlo, BitVec.ofNat_toNat, BitVec.setWidth_eq]
    exact ⟨x, rfl, k, rfl, (), hok, rfl⟩)

/-! ### Scalar floats -/

/-- The decoder of a major that comes once for each precision (Tables 12.11a, 13.8). -/
def ByPrecision (lo : Nat) (dec : Bool → Nat → Except Reject Instr) : Prop :=
  ∀ w, ∀ dbl, fld w 23 6 = lo + boolCode dbl → decB w = dec dbl w

theorem byPrecision_fArith : ByPrecision 0x18 decFArith := by
  intro w dbl h
  cases dbl <;> (rw [decB, h]; rfl)

theorem byPrecision_fDiv : ByPrecision 0x1A decFDiv := by
  intro w dbl h
  cases dbl <;> (rw [decB, h]; rfl)

theorem byPrecision_fMisc : ByPrecision 0x1C decFMisc := by
  intro w dbl h
  cases dbl <;> (rw [decB, h]; rfl)

section Floats

variable {lo q : Nat} {dec : Bool → Nat → Except Reject Instr} {dbl : Bool} {x y : Src} {k : Keep} {r : Rm}

/-- A binary form with its operation `q` above its rounding code. -/
theorem decodes_float2 {f : Src → Src → Keep → Instr} (he : some (encBR2 (lo + boolCode dbl) m x y k) = some w)
    (hb : lo < 63 ∧ q < 4) (hm : m = 8 * q + r.code) (hB : ByPrecision lo dec)
    (hd : ∀ w, fld w 3 2 = q → fld w 0 3 = r.code → dec dbl w = br2 w f) : Decodes (f x y k) w := by
  have hr : r.code < 8 := by cases r <;> decide
  have hdbl := boolCode_lt dbl
  refine decodes_br2 he (by omega) (fun w h hmin => ?_)
  obtain ⟨hop, hround⟩ := rounding_fields (hmin.trans hm)
  exact (hB w dbl h).trans (hd w hop hround)

/-- A unary form with its operation `q` above its rounding code. -/
theorem decodes_float1 {f : Src → Keep → Instr} (he : some (encBR1 (lo + boolCode dbl) m x k) = some w) (hb : lo < 63 ∧ q < 4)
    (hm : m = 8 * q + r.code) (hB : ByPrecision lo dec)
    (hd : ∀ w, fld w 3 2 = q → fld w 0 3 = r.code → dec dbl w = br1 w f) : Decodes (f x k) w := by
  have hr : r.code < 8 := by cases r <;> decide
  have hdbl := boolCode_lt dbl
  refine decodes_br1 he (by omega) (fun w h hmin => ?_)
  obtain ⟨hop, hround⟩ := rounding_fields (hmin.trans hm)
  exact (hB w dbl h).trans (hd w hop hround)

theorem decodes_fadd (he : encode (.fadd dbl x y k r) = some w) : Decodes (.fadd dbl x y k r) w :=
  decodes_float2 (q := 0) (f := (.fadd dbl · · · r)) he (by decide) (Nat.zero_add _).symm byPrecision_fArith fun w hq hr => by
    rw [decFArith, hr, Rm.ofCode_eq_some.2 rfl, hq]; rfl

theorem decodes_fsub (he : encode (.fsub dbl x y k r) = some w) : Decodes (.fsub dbl x y k r) w :=
  decodes_float2 (q := 1) (f := (.fsub dbl · · · r)) he (by decide) rfl byPrecision_fArith fun w hq hr => by
    rw [decFArith, hr, Rm.ofCode_eq_some.2 rfl, hq]; rfl

theorem decodes_fmul (he : encode (.fmul dbl x y k r) = some w) : Decodes (.fmul dbl x y k r) w :=
  decodes_float2 (q := 2) (f := (.fmul dbl · · · r)) he (by decide) rfl byPrecision_fArith fun w hq hr => by
    rw [decFArith, hr, Rm.ofCode_eq_some.2 rfl, hq]; rfl

theorem decodes_fma {kr : BitVec 5} (he : encode (.fma dbl x y kr r) = some w) : Decodes (.fma dbl x y kr r) w := by
  have hr : r.code < 8 := by cases r <;> decide
  have hdbl := boolCode_lt dbl
  refine decodes_brx (maj := 0x18 + boolCode dbl) (x := x.code) (y := y.code) (z := 32 + kr.toNat) (m := 24 + r.code) he
    (by omega) x.code_lt y.code_lt (by omega) fun w h => ?_
  obtain ⟨hop, hround⟩ := rounding_fields (q := 3) h.m
  have hkr : r5 w 5 = kr := r5_of_fld ((fld_of_fld 0 5 h.z rfl (by decide)).trans (by simp only [fld]; omega))
  rw [byPrecision_fArith w dbl h.maj, decFArith, hround, hop]
  simp [bind_eq_ok, h.x, h.y, h.z, hkr]

theorem decodes_fdiv (he : encode (.fdiv dbl x y k r) = some w) : Decodes (.fdiv dbl x y k r) w :=
  decodes_float2 (q := 0) (f := (.fdiv dbl · · · r)) he (by decide) (Nat.zero_add _).symm byPrecision_fDiv fun w hq hr => by
    rw [decFDiv, hr, Rm.ofCode_eq_some.2 rfl, hq]; rfl

theorem decodes_fins (he : encode (.fins dbl x y k r) = some w) : Decodes (.fins dbl x y k r) w :=
  decodes_float2 (q := 3) (f := (.fins dbl · · · r)) he (by decide) rfl byPrecision_fDiv fun w hq hr => by
    rw [decFDiv, hr, Rm.ofCode_eq_some.2 rfl, hq]; rfl

theorem decodes_fsqrt (he : encode (.fsqrt dbl x k r) = some w) : Decodes (.fsqrt dbl x k r) w :=
  decodes_float1 (q := 1) (f := (.fsqrt dbl · · r)) he (by decide) rfl byPrecision_fDiv fun w hq hr => by
    rw [decFDiv, hr, Rm.ofCode_eq_some.2 rfl, hq]; rfl

theorem decodes_frint (he : encode (.frint dbl x k r) = some w) : Decodes (.frint dbl x k r) w :=
  decodes_float1 (q := 2) (f := (.frint dbl · · r)) he (by decide) rfl byPrecision_fDiv fun w hq hr => by
    rw [decFDiv, hr, Rm.ofCode_eq_some.2 rfl, hq]; rfl

/-- The forms of majors 0x1C and 0x1D, which round nothing. -/
theorem decodes_fMisc2 {f : Src → Src → Keep → Instr} (he : some (encBR2 (0x1C + boolCode dbl) m x y k) = some w)
    (hm : m < 32) (hd : ∀ w, fld w 0 5 = m → decFMisc dbl w = br2 w f) : Decodes (f x y k) w :=
  have hdbl := boolCode_lt dbl
  decodes_br2 he (by omega) (fun w h hmin => (byPrecision_fMisc w dbl h).trans (hd w hmin))

theorem decodes_fMisc1 {f : Src → Keep → Instr} (he : some (encBR1 (0x1C + boolCode dbl) m x k) = some w) (hm : m < 32)
    (hd : ∀ w, fld w 0 5 = m → decFMisc dbl w = br1 w f) : Decodes (f x k) w :=
  have hdbl := boolCode_lt dbl
  decodes_br1 he (by omega) (fun w h hmin => (byPrecision_fMisc w dbl h).trans (hd w hmin))

theorem decodes_fcvt {s d : CTy} (hok : (s != d && !(s.isInt && d.isInt)) = true) (he : encode (.fcvt s d x k r) = some w) :
    Decodes (.fcvt s d x k r) w := by
  have hr : r.code < 8 := by cases r <;> decide
  have hs : s.code < 8 := by cases s <;> decide
  have hd : d.code < 8 := by cases d <;> decide
  refine decodes_brx (maj := 0x1E) (y := s.code * 8 + d.code) (m := r.code) he (by omega) x.code_lt (by omega) (keepCode_lt k)
    fun w h => ?_
  obtain ⟨hop, hround⟩ := rounding_fields (q := 0) (h.m.trans (Nat.zero_add _).symm)
  have hsrc : fld w 14 3 = s.code := (fld_of_fld 3 3 h.y rfl (by decide)).trans (by simp only [fld]; omega)
  have hdst : fld w 11 3 = d.code := (fld_of_fld 0 3 h.y rfl (by decide)).trans (by simp only [fld]; omega)
  rw [decB, h.maj]; show decFcvt w = _
  simp only [decFcvt, hop, hround, hsrc, hdst, Rm.ofCode_eq_some.2 rfl, CTy.ofCode_eq_some.2 rfl, code?, ok_bind, hok, need,
    if_true]
  simp [bind_eq_ok, h.x, h.z]

end Floats

/-! ### Vectors -/

section Vectors

variable {vd va vb vc : BitVec 5} {p : BitVec 3}

/-- A vector word whose fields are two registers or a code between, read back as such. -/
theorem decodes_vec3 (he : some (encV3 maj m vd va vb p) = some w) (hb : maj < 64 ∧ m < 32)
    (h : ∀ w, r5 w 18 = vd → r5 w 13 = va → r5 w 8 = vb → b3 w 0 = p →
      VecFields w maj vd.toNat va.toNat vb.toNat m p.toNat → decB w = .ok i) : Decodes i w :=
  decodes_bv he hb.1 vd.isLt va.isLt vb.isLt hb.2 p.isLt
    (fun w hf => h w (r5_of_fld hf.vd) (r5_of_fld hf.va) (r5_of_fld hf.vb) (b3_of_fld hf.p) hf)

theorem VTy.code_lt (t : VTy) : t.code < 7 := by cases t <;> decide

/-- Three registers and a type. -/
theorem decodes_v3t {accept : VTy → Bool} {f : VTy → BitVec 5 → BitVec 5 → BitVec 5 → BitVec 3 → Instr} {t : VTy}
    (he : some (encV3 maj t.code vd va vb p) = some w) (hmaj : maj < 64)
    (hd : ∀ w, fld w 23 6 = maj → decB w = decV3 w accept f) (ht : accept t = true) :
    Decodes (f t vd va vb p) w :=
  decodes_vec3 he ⟨hmaj, Nat.lt_trans t.code_lt (by decide)⟩ fun w hvd hva hvb hp h =>
    (hd w h.maj).trans (decV3_eq_ok.2 ⟨t, h.vc, ht, by rw [hvd, hva, hvb, hp]⟩)

/-- Two registers and a type, with the operation where a third register would stand. -/
theorem decodes_v2t {accept : VTy → Bool} {f : VTy → BitVec 5 → BitVec 5 → BitVec 3 → Instr} {t : VTy}
    (he : some (encV3 maj t.code vd va vb p) = some w) (hmaj : maj < 64)
    (hd : ∀ w, fld w 23 6 = maj → fld w 8 5 = vb.toNat → decB w = decV2 w accept f)
    (ht : accept t = true) : Decodes (f t vd va p) w :=
  decodes_vec3 he ⟨hmaj, Nat.lt_trans t.code_lt (by decide)⟩ fun w hvd hva _ hp h =>
    (hd w h.maj h.vb).trans (decV2_eq_ok.2 ⟨t, h.vc, ht, by rw [hvd, hva, hp]⟩)

/-- Four registers. -/
theorem decodes_v4 {f : BitVec 5 → BitVec 5 → BitVec 5 → BitVec 5 → BitVec 3 → Instr}
    (he : some (encV3 maj vc.toNat vd va vb p) = some w) (hmaj : maj < 64)
    (hd : ∀ w, fld w 23 6 = maj → decB w = decV4 w f) : Decodes (f vd va vb vc p) w :=
  decodes_vec3 he ⟨hmaj, vc.isLt⟩ (fun w hvd hva hvb hp h => by rw [hd w h.maj, decV4, hvd, hva, hvb, hp, r5_of_fld h.vc])

/-- Three registers, with the operation in the minor. -/
theorem decodes_v3 {f : BitVec 5 → BitVec 5 → BitVec 5 → BitVec 3 → Instr} (he : some (encV3 maj m vd va vb p) = some w)
    (hb : maj < 64 ∧ m < 32) (hd : ∀ w, fld w 23 6 = maj → fld w 3 5 = m → decB w = v3 w f) :
    Decodes (f vd va vb p) w :=
  decodes_vec3 he hb (fun w hvd hva hvb hp h => by rw [hd w h.maj h.vc, v3, hvd, hva, hvb, hp])

/-- A minor that holds a width bit under an operation (R341). -/
theorem width_fields {w q : Nat} {f : Bool} (h : fld w 3 5 = 2 * q + boolCode f) : fld w 4 4 = q ∧ bit w 3 = f := by
  have hf := boolCode_lt f
  have hlt := fld_lt w 3 5
  exact ⟨(fld_of_fld 1 4 h rfl (by decide)).trans (by simp only [fld]; omega),
    bit_of_fld ((fld_of_fld 0 1 h rfl (by decide)).trans (by simp only [fld]; omega))⟩

theorem decodes_vmov {f : Bool} (he : encode (.vmov f vd va p) = some w) : Decodes (.vmov f vd va p) w :=
  have hf := boolCode_lt f
  decodes_vec3 he (by omega) (fun w hvd hva _ hp h => by
    have hbit := (width_fields (q := 0) (h.vc.trans (Nat.zero_add _).symm)).2
    have hlt : fld w 3 5 < 2 := h.vc ▸ hf
    rw [decB, h.maj]; show decVUnary w = _; rw [decVUnary, h.vb]
    show (need (decide (fld w 3 5 < 2)) .range >>= fun _ => _) = _
    rw [decide_eq_true hlt, hbit, hvd, hva, hp]; rfl)

theorem decodes_vcmp {c : VCond} {t : VTy} {pd : BitVec 3} (hpd : pd ≠ 0) (he : encode (.vcmp c t pd va vb p) = some w) :
    Decodes (.vcmp c t pd va vb p) w := by
  have hc : c.code < 4 := by cases c <;> decide
  have ht := t.code_lt
  refine decodes_bv he (by decide) (by omega) va.isLt vb.isLt (by omega) p.isLt fun w h => ?_
  have hcond : fld w 21 2 = c.code := (fld_of_fld 3 2 h.vd rfl (by decide)).trans (fld_mul_add_high pd hc)
  have hdst : fld w 18 3 = pd.toNat := (fld_of_fld 0 3 h.vd rfl (by decide)).trans (fld_mul_add_low pd)
  rw [decB, h.maj]; show decVcmp w = _
  simp [decVcmp, bind_eq_ok, vty_eq_ok, anyVTy, h.vc, hcond, hdst, toNat_ne_zero hpd, b3_of_fld hdst,
    r5_of_fld h.va, r5_of_fld h.vb, b3_of_fld h.p]

theorem decodes_vsel {f : Bool} (he : encode (.vsel f vd va vb p) = some w) : Decodes (.vsel f vd va vb p) w := by
  have hf := boolCode_lt f
  refine decodes_vec3 he (by omega) (fun w hvd hva hvb hp h => ?_)
  have hbit := (width_fields (q := 0) (h.vc.trans (Nat.zero_add _).symm)).2
  have hlt : fld w 3 5 < 2 := h.vc ▸ hf
  rw [decB, h.maj]; show decVsel w = _
  rw [decVsel, decide_eq_true hlt, v3, hbit, hvd, hva, hvb, hp]; rfl

theorem decodes_vcvt {s d : VTy} (hne : s ≠ d) (he : encode (.vcvt s d vd va p) = some w) : Decodes (.vcvt s d vd va p) w := by
  have hs := s.code_lt
  have hd := d.code_lt
  refine decodes_bv he (by decide) vd.isLt va.isLt (by omega) (by omega) p.isLt fun w h => ?_
  rw [decB, h.maj]; show decVcvt w = _
  rw [decVcvt, h.vb, h.vc, VTy.ofCode_eq_some.2 rfl, VTy.ofCode_eq_some.2 rfl, r5_of_fld h.vd, r5_of_fld h.va, b3_of_fld h.p]
  simp [code?, need, hne]

theorem decodes_vredx (he : encode (.vredx vd va p) = some w) : Decodes (.vredx vd va p) w :=
  decodes_vec3 he (by decide) fun w hvd hva _ hp h => by
    rw [decB, h.maj]; show decVred w = _; rw [decVred, h.vb]
    show (need (fld w 3 5 == 0) .range >>= fun _ => _) = _
    rw [h.vc, hvd, hva, hp]; rfl

/-- The permutes, with the operation above the width bit (R341). -/
theorem decodes_perm (q : Nat) {f : Bool} {g : Bool → BitVec 5 → BitVec 5 → BitVec 5 → BitVec 3 → Instr}
    (he : some (encV3 0x32 m vd va vb p) = some w) (hm : m = 2 * q + boolCode f) (hq : q < 5)
    (hd : ∀ w, fld w 4 4 = q → decVperm w = v3 w (g (bit w 3))) : Decodes (g f vd va vb p) w := by
  have hf := boolCode_lt f
  refine decodes_v3 he (by omega) (fun w h hmin => ?_)
  obtain ⟨hop, hbit⟩ := width_fields (hmin.trans hm)
  rw [decB, h]; show decVperm w = _
  rw [hd w hop, hbit]

theorem decodes_vbcast {f : Bool} (he : encode (.vbcast f vd vb p) = some w) : Decodes (.vbcast f vd vb p) w := by
  have hf := boolCode_lt f
  refine decodes_vec3 (va := 0) he (by omega) (fun w hvd _ hvb hp h => ?_)
  obtain ⟨hop, hbit⟩ := width_fields (q := 5) h.vc
  rw [decB, h.maj]; show decVperm w = _; rw [decVperm, hop]
  simp [bind_eq_ok, h.va, hbit, hvd, hvb, hp]

/-- A predicate register in the place of a vector register: two zero bits above it (R342). -/
theorem predicate_fields {lo : Nat} {v : BitVec 3} (h : fld w lo 5 = v.toNat) :
    fld w (lo + 3) 2 = 0 ∧ fld w lo 3 = v.toNat :=
  ⟨(fld_of_fld 3 2 h rfl (by decide)).trans (fld_toNat_high v), (fld_of_fld 0 3 h rfl (by decide)).trans (fld_toNat_low v)⟩

theorem decodes_pand {pd pa pb : BitVec 3} (hpd : pd ≠ 0) (he : encode (.pand pd pa pb) = some w) :
    Decodes (.pand pd pa pb) w := by
  refine decodes_bv he (by decide) (by omega) (by omega) (by omega) (by decide) (by decide) fun w h => ?_
  obtain ⟨hd0, hd⟩ := predicate_fields h.vd
  obtain ⟨ha0, ha⟩ := predicate_fields h.va
  obtain ⟨hb0, hb⟩ := predicate_fields h.vb
  rw [decB, h.maj]; show decPred w = _
  simp [decPred, bind_eq_ok, h.vc, h.p, hd0, hd, ha0, hb0, toNat_ne_zero hpd, b3_of_fld hd, b3_of_fld ha, b3_of_fld hb]

theorem decodes_por {pd pa pb : BitVec 3} (hpd : pd ≠ 0) (he : encode (.por pd pa pb) = some w) :
    Decodes (.por pd pa pb) w := by
  refine decodes_bv he (by decide) (by omega) (by omega) (by omega) (by decide) (by decide) fun w h => ?_
  obtain ⟨hd0, hd⟩ := predicate_fields h.vd
  obtain ⟨ha0, ha⟩ := predicate_fields h.va
  obtain ⟨hb0, hb⟩ := predicate_fields h.vb
  rw [decB, h.maj]; show decPred w = _
  simp [decPred, bind_eq_ok, h.vc, h.p, hd0, hd, ha0, hb0, toNat_ne_zero hpd, b3_of_fld hd, b3_of_fld ha, b3_of_fld hb]

theorem decodes_pnot {pd pa : BitVec 3} (hpd : pd ≠ 0) (he : encode (.pnot pd pa) = some w) : Decodes (.pnot pd pa) w := by
  refine decodes_bv he (by decide) (by omega) (by omega) (by decide) (by decide) (by decide) fun w h => ?_
  obtain ⟨hd0, hd⟩ := predicate_fields h.vd
  obtain ⟨ha0, ha⟩ := predicate_fields h.va
  obtain ⟨hb0, hb⟩ := predicate_fields (v := 0) h.vb
  rw [decB, h.maj]; show decPred w = _
  simp [decPred, bind_eq_ok, h.vc, h.p, hd0, hd, ha0, hb0, hb, toNat_ne_zero hpd, b3_of_fld hd, b3_of_fld ha]

theorem decodes_vsplit (he : encode (.vsplit vd va vb p) = some w) : Decodes (.vsplit vd va vb p) w :=
  decodes_v3 he (by decide) fun w h hm => by rw [decB, h]; show decQuant w = _; rw [decQuant, hm]; rfl

theorem decodes_vqnt {f : BlkFmt} (he : encode (.vqnt f vd va p) = some w) : Decodes (.vqnt f vd va p) w :=
  decodes_bv he (by decide) vd.isLt va.isLt (by cases f <;> decide) (by decide) p.isLt fun w h => by
    rw [decB, h.maj]; show decQuant w = _; rw [decQuant, h.vc]
    simp [bind_eq_ok, h.vb, r5_of_fld h.vd, r5_of_fld h.va, b3_of_fld h.p]

theorem decodes_vdqnt {f : BlkFmt} (he : encode (.vdqnt f vd va p) = some w) : Decodes (.vdqnt f vd va p) w :=
  decodes_bv he (by decide) vd.isLt va.isLt (by cases f <;> decide) (by decide) p.isLt fun w h => by
    rw [decB, h.maj]; show decQuant w = _; rw [decQuant, h.vc]
    simp [bind_eq_ok, h.vb, r5_of_fld h.vd, r5_of_fld h.va, b3_of_fld h.p]

end Vectors

theorem decodes_nopB (he : encode .nopB = some w) : Decodes .nopB w :=
  decodes_brx he (by decide) (by decide) (by decide) (by decide) fun w h => by
    have hrest : fld w 5 18 = 0 := by
      have hx := h.x
      have hy := h.y
      have hz := h.z
      simp only [fld] at *
      omega
    rw [decB, h.maj]; show decNopB w = _
    simp [decNopB, bind_eq_ok, h.m, hrest]

/-! ### Tiles -/

section Tiles

variable {ab ac : BitVec 2}

theorem decodes_mgangTile {t b : BitVec 3} {nr : BitVec 5} {z : Bool} (hg : groupOk ab ac = true)
    (he : encode (.mgang ab ac t (.tile b) nr z) = some w) : Decodes (.mgang ab ac t (.tile b) nr z) w := by
  have hz := boolCode_lt z
  refine decodes_bm (maj := 0x38) (dp := b.toNat) (m := 2 * boolCode z) he (by decide) ab.isLt ac.isLt t.isLt (by omega)
    nr.isLt (by omega) fun w h => ?_
  have hlow : fld w 4 1 = 0 := (fld_of_fld 0 1 h.m rfl (by decide)).trans (by simp only [fld]; omega)
  have hspad : fld w 6 1 = 0 := (fld_of_fld 2 1 h.m rfl (by decide)).trans (by simp only [fld]; omega)
  have hzero : bit w 5 = z := bit_of_fld ((fld_of_fld 1 1 h.m rfl (by decide)).trans (by simp only [fld]; omega))
  have htop : fld w 15 1 = 0 := (fld_of_fld 3 1 h.dp rfl (by decide)).trans (fld_toNat_high b)
  have hb : b3 w 12 = b := b3_of_fld ((fld_of_fld 0 3 h.dp rfl (by decide)).trans (fld_toNat_low b))
  rw [decB, h.maj]; show decMgang w = _
  simp [decMgang, bind_eq_ok, group_of_fld h.ab h.ac hg, h.low, hlow, hspad, hzero, htop, hb, b3_of_fld h.t, r5_of_fld h.nr]

theorem decodes_mgangSpad {t : BitVec 3} {dp : BitVec 4} {nr : BitVec 5} {z : Bool} (hg : groupOk ab ac = true)
    (he : encode (.mgang ab ac t (.spad dp) nr z) = some w) : Decodes (.mgang ab ac t (.spad dp) nr z) w := by
  have hz := boolCode_lt z
  refine decodes_bm (maj := 0x38) (dp := dp.toNat) (m := 4 + 2 * boolCode z) he (by decide) ab.isLt ac.isLt t.isLt dp.isLt
    nr.isLt (by omega) fun w h => ?_
  have hlow : fld w 4 1 = 0 := (fld_of_fld 0 1 h.m rfl (by decide)).trans (by simp only [fld]; omega)
  have hspad : fld w 6 1 = 1 := (fld_of_fld 2 1 h.m rfl (by decide)).trans (by simp only [fld]; omega)
  have hzero : bit w 5 = z := bit_of_fld ((fld_of_fld 1 1 h.m rfl (by decide)).trans (by simp only [fld]; omega))
  rw [decB, h.maj]; show decMgang w = _
  simp [decMgang, bind_eq_ok, group_of_fld h.ab h.ac hg, h.low, hlow, hspad, hzero, h.dp, b3_of_fld h.t, r5_of_fld h.nr]

theorem decodes_mzero (hg : groupOk ab ac = true) (he : encode (.mzero ab ac) = some w) : Decodes (.mzero ab ac) w :=
  decodes_bm he (by decide) ab.isLt ac.isLt (by decide) (by decide) (by decide) (by decide) fun w h => by
    rw [decB, h.maj]; show decMhouse w = _; rw [decMhouse, h.m]
    simp [bind_eq_ok, group_of_fld h.ab h.ac hg, h.low, h.t, h.dp, h.nr]

theorem decodes_mdup {a : BitVec 2} (hg : groupOk ab ac = true) (he : encode (.mdup ab ac a) = some w) :
    Decodes (.mdup ab ac a) w :=
  decodes_bm he (by decide) ab.isLt ac.isLt (by omega) (by decide) (by decide) (by decide) fun w h => by
    rw [decB, h.maj]; show decMhouse w = _; rw [decMhouse, h.m]
    simp [bind_eq_ok, group_of_fld h.ab h.ac hg, h.low, h.dp, h.nr, fld_of_fld 2 1 h.t rfl (by decide),
      fld_of_fld 0 2 h.t rfl (by decide)]

theorem decodes_mstat (he : encode .mstat = some w) : Decodes .mstat w :=
  decodes_bm he (by decide) (by decide) (by decide) (by decide) (by decide) (by decide) (by decide) fun w h => by
    have hrest : fld w 7 16 = 0 := by
      obtain ⟨-, -, hab, hac, ht, hdp, hnr, -, -⟩ := h
      simp only [fld] at *
      omega
    rw [decB, h.maj]; show decMhouse w = _; rw [decMhouse, h.m]
    simp [bind_eq_ok, h.low, hrest]

theorem decodes_mrest {dp : BitVec 4} (hg : groupOk ab ac = true) (he : encode (.mrest ab ac dp) = some w) :
    Decodes (.mrest ab ac dp) w :=
  decodes_bm he (by decide) ab.isLt ac.isLt (by decide) dp.isLt (by decide) (by decide) fun w h => by
    rw [decB, h.maj]; show decMhouse w = _; rw [decMhouse, h.m]
    simp [bind_eq_ok, group_of_fld h.ab h.ac hg, h.low, h.t, h.dp, h.nr]

theorem decodes_mdrain {dp : BitVec 4} {nr : BitVec 5} {r : Rm} (hg : groupOk ab ac = true)
    (he : encode (.mdrain ab ac dp nr r) = some w) : Decodes (.mdrain ab ac dp nr r) w :=
  decodes_bm he (by decide) ab.isLt ac.isLt (by decide) dp.isLt nr.isLt (by cases r <;> decide) fun w h => by
    rw [decB, h.maj]; show decMdrain w = _
    simp [decMdrain, bind_eq_ok, group_of_fld h.ab h.ac hg, h.low, h.t, h.dp, h.m, r5_of_fld h.nr]

end Tiles

end

end Sys2Proof
end

section
/-! SUPPORT. Every encoding decodes to its instruction (O60). -/

namespace Sys2Proof
open Machine

theorem decodes_of_encode {i : Instr} {w : Nat} (hwf : i.wf = true) (hcan : i.canonical = true) (he : encode i = some w) :
    Decodes i w := by
  cases i
  -- class A, by decoder
  case trap x n => exact decodes_trap he
  case brk | idle =>
    exact decodes_none he (by decide) fun w h hm => by rw [decA, h]; show decSystem w = _; rw [decSystem, hm]; rfl
  case eret x d => exact decodes_eret he
  case ctlr c k => exact decodes_ctlr he
  case ctlw c x => exact decodes_ctlw (bne_iff_ne.1 hwf) he
  case shootDown x => exact decodes_shootDown he
  case pwrq k | harvest k =>
    exact decodes_k he (by decide) fun w h hm => by rw [decA, h]; show decSystem w = _; rw [decSystem, hm]; rfl
  case br d => exact decodes_br he
  case bc c d => exact decodes_bc (bne_iff_ne.1 hwf) he
  case call d => exact decodes_call he
  case calli x | jmpi x | ret x =>
    exact decodes_ax he (by decide) x.code_lt (by decide) (by decide) fun w h => by
      rw [decA, h.maj]; show decJump w = _
      simp [decJump, bind_eq_ok, h.x, h.y, h.z, h.m]
  case loop r d => exact decodes_loop he
  case rep x b sn sv => exact decodes_rep he
  case sched k => exact decodes_sched he
  case nop => exact decodes_nop he
  case ld t b k d => exact decodes_ld he
  case ld128 b d => exact decodes_ld128 he
  case st t b y d => exact decodes_st he
  case prfR b d => exact decodes_prfR he
  case prfW b d => exact decodes_prfW he
  case ldx t x y k =>
    cases t with
    | ty t => exact decodes_ldx he
    | w128 =>
      obtain rfl : k = none := by simpa [Instr.wf] using hwf
      exact decodes_ldx128 he
  case stx t x y z => exact decodes_stx he
  case tld t x y => exact decodes_tld he
  case tst t x y => exact decodes_tst he
  case vld f vd x p => exact decodes_vld he
  case vst f vd x p => exact decodes_vst he
  case vldb vd x p => exact decodes_vldb he
  case vgat32 vd x vb | vgat16 vd x vb | vsca32 vd x vb | vsca16 vd x vb =>
    exact decodes_gather he (by decide) fun w h hm => by
      rw [decA, h]; show decVecMem w = _
      simp [decVecMem, hm, formGather, need]
  case atom op x y k => exact decodes_atom he
  case atomCas f x y z => exact decodes_atomCas he
  case red op x y => exact decodes_red (by simpa [Instr.wf] using hwf) he
  case redx f x y => exact decodes_redx he
  case fence f s => exact decodes_fence he
  case waita f x y k => exact decodes_waita he
  case wake s x y => exact decodes_wake he
  case phase t => exact decodes_phase he
  case arrive t d => exact decodes_arrive he
  case pwait t => exact decodes_pwait he
  case time k => exact decodes_k he (by decide) fun w h hm => by rw [decA, h]; show decTime w = _; rw [decTime, hm]; rfl
  case waitt x => exact decodes_x he (by decide) fun w h hm => by rw [decA, h]; show decTime w = _; rw [decTime, hm]; rfl
  case spawn x y k => exact decodes_xyk he (by decide) fun w h hm => by rw [decA, h]; show decProc w = _; rw [decProc, hm]; rfl
  case exit | yield => exact decodes_none he (by decide) fun w h hm => by rw [decA, h]; show decProc w = _; rw [decProc, hm]; rfl
  case send x y =>
    exact decodes_xy he (by decide) fun w h hm => by rw [decA, h]; show decSendRecv w = _; rw [decSendRecv, hm]; rfl
  case sendT x y k =>
    exact decodes_xyk he (by decide) fun w h hm => by rw [decA, h]; show decSendRecv w = _; rw [decSendRecv, hm]; rfl
  case recv x k | recvT x k =>
    exact decodes_xk he (by decide) fun w h hm => by rw [decA, h]; show decSendRecv w = _; rw [decSendRecv, hm]; rfl
  case sendt x y | recvt x y =>
    exact decodes_xy he (by decide) fun w h hm => by rw [decA, h]; show decTileChan w = _; rw [decTileChan, hm]; rfl
  case sendtT x y k | recvtT x y k =>
    exact decodes_xyk he (by decide) fun w h hm => by rw [decA, h]; show decTileChan w = _; rw [decTileChan, hm]; rfl
  case altg g x => exact decodes_altg he
  case alt k | altT k => exact decodes_k he (by decide) fun w h hm => by rw [decA, h]; show decAlt w = _; rw [decAlt, hm]; rfl
  case chopen x y k | chbind x y k =>
    exact decodes_xyk he (by decide) fun w h hm => by rw [decA, h]; show decChan w = _; rw [decChan, hm]; rfl
  case chclose x => exact decodes_x he (by decide) fun w h hm => by rw [decA, h]; show decChan w = _; rw [decChan, hm]; rfl
  case chinfo x k => exact decodes_xk he (by decide) fun w h hm => by rw [decA, h]; show decChan w = _; rw [decChan, hm]; rfl
  case enrol x y j => exact decodes_enrol (by simpa [Instr.wf] using hwf) he
  case unenrol x z =>
    cases z with
    | free => exact decodes_unenrolFree he
    | pair j => exact decodes_unenrolPair (by simpa [Instr.wf] using hwf) he
  case settle x k | chgrd x k =>
    exact decodes_xk he (by decide) fun w h hm => by rw [decA, h]; show decTree w = _; rw [decTree, hm]; rfl
  case chgcmp x y k | repar x y k =>
    exact decodes_xyk he (by decide) fun w h hm => by rw [decA, h]; show decTree w = _; rw [decTree, hm]; rfl
  case copy x y z | copyt x y z =>
    exact decodes_ax he (by decide) x.code_lt y.code_lt z.code_lt fun w h => by
      rw [decA, h.maj]; show decCopy w = _
      simp [decCopy, bind_eq_ok, h.x, h.y, h.z, h.m]
  case coll x => exact decodes_coll he
  case cmpr x y z | dcmp x y z =>
    exact decodes_ax he (by decide) x.code_lt y.code_lt z.code_lt fun w h => by
      rw [decA, h.maj]; show decCmpr w = _
      simp [decCmpr, bind_eq_ok, h.x, h.y, h.z, h.m]
  case fork x y e => exact decodes_fork he
  case join x k => exact decodes_xk he (by decide) fun w h hm => by rw [decA, h]; show decFork w = _; rw [decFork, hm]; rfl
  case migMove x y => exact decodes_xy he (by decide) fun w h hm => by rw [decA, h]; show decMig w = _; rw [decMig, hm]; rfl
  case hot x k => exact decodes_xk he (by decide) fun w h hm => by rw [decA, h]; show decMig w = _; rw [decMig, hm]; rfl
  case bdeclLin x y => exact decodes_bdeclLin he
  case bdeclRing x y z => exact decodes_bdeclRing he
  case bstateOpen x | bstateSeal x | bstateRel x =>
    exact decodes_x he (by decide) fun w h hm => by rw [decA, h]; show decBuf w = _; rw [decBuf, hm]; rfl
  case bquery x k | bqueryW x k =>
    exact decodes_xk he (by decide) fun w h hm => by rw [decA, h]; show decBuf w = _; rw [decBuf, hm]; rfl
  -- class B, by decoder
  case add x y k | sub x y k | mul x y k | mulhI64 x y k | mulhN64 x y k | divI64 x y k | divN64 x y k | remI64 x y k | remN64 x y k
      | minI64 x y k | minN64 x y k | maxI64 x y k | maxN64 x y k | cmpI64 x y k | cmpN64 x y k =>
    exact decodes_br2 he (by decide) fun w h hm => by rw [decB, h]; show decInt w = _; rw [decInt, hm]; rfl
  case and x y k | or x y k | xor x y k | andn x y k | shl x y k | shr x y k | sar x y k | rol x y k | sel x y k =>
    exact decodes_br2 he (by decide) fun w h hm => by rw [decB, h]; show decLogic w = _; rw [decLogic, hm]; rfl
  case neg x k | abs x k | not x k | clz x k | ctz x k | popc x k =>
    exact decodes_br1 he (by decide) fun w h hm => by rw [decB, h]; show decUnary w = _; rw [decUnary, hm]; rfl
  case li d k => exact decodes_li he
  case lih x d k | addi x d k | addpImm x d k => exact decodes_immediate he (by decide) fun w h => by rw [decB, h]; rfl
  case sext x d k | zext x d k => exact decodes_extension hwf he (by decide) fun w h => by rw [decB, h]; rfl
  case bext x n lo k | bins x n lo k => exact decodes_bitField hwf he (by decide) fun w h => by rw [decB, h]; rfl
  case addp x y k | fmtp x y k | peer x y k | ptrq x y k =>
    exact decodes_br2 he (by decide) fun w h hm => by rw [decB, h]; show decPtr w = _; rw [decPtr, hm]; rfl
  case fadd dbl x y k r => exact decodes_fadd he
  case fsub dbl x y k r => exact decodes_fsub he
  case fmul dbl x y k r => exact decodes_fmul he
  case fma dbl x y kr r => exact decodes_fma he
  case fdiv dbl x y k r => exact decodes_fdiv he
  case fsqrt dbl x k r => exact decodes_fsqrt he
  case frint dbl x k r => exact decodes_frint he
  case fins dbl x y k r => exact decodes_fins he
  case fmin dbl x y k | fmax dbl x y k | fcmp dbl x y k =>
    exact decodes_fMisc2 he (by decide) fun w hm => by rw [decFMisc, hm]; rfl
  case fabs dbl x k | fneg dbl x k | fclass dbl x k | fexf dbl x k =>
    exact decodes_fMisc1 he (by decide) fun w hm => by rw [decFMisc, hm]; rfl
  case fcvt s d x k r => exact decodes_fcvt hwf he
  case vadd t vd va vb p | vsub t vd va vb p | vmul t vd va vb p | vmin t vd va vb p | vmax t vd va vb p =>
    exact decodes_v3t (accept := anyVTy) he (by decide) (fun w h => by rw [decB, h]; rfl) rfl
  case vfins t vd va vb p => exact decodes_v3t (accept := VTy.isFloat) he (by decide) (fun w h => by rw [decB, h]; rfl) hwf
  case vfmaF32 vd va vb vc p | vfmsF32 vd va vb vc p | vfmaBf16 vd va vb vc p | vfmsBf16 vd va vb vc p | vfmaF16 vd va vb vc p
      | vfmsF16 vd va vb vc p => exact decodes_v4 he (by decide) fun w h => by rw [decB, h]; rfl
  case vabs t vd va p | vneg t vd va p =>
    exact decodes_v2t (accept := absVTy) he (by decide)
      (fun w h hb => by rw [decB, h]; show decVUnary w = _; rw [decVUnary, hb]; rfl) hwf
  case vfrint t vd va p | vfexf t vd va p | vrcp t vd va p | vrsq t vd va p | vfclass t vd va p =>
    exact decodes_v2t (accept := VTy.isFloat) he (by decide)
      (fun w h hb => by rw [decB, h]; show decVUnary w = _; rw [decVUnary, hb]; rfl) hwf
  case vpopc t vd va p =>
    exact decodes_v2t (accept := fun t => !t.isFloat) he (by decide)
      (fun w h hb => by rw [decB, h]; show decVUnary w = _; rw [decVUnary, hb]; rfl) hwf
  case vmov f vd va p => exact decodes_vmov he
  case vand vd va vb p | vor vd va vb p | vxor vd va vb p | vshl32 vd va vb p | vshl16 vd va vb p | vshr32 vd va vb p
      | vshr16 vd va vb p | vsar32 vd va vb p | vsar16 vd va vb p =>
    exact decodes_v3 he (by decide) fun w h hm => by rw [decB, h]; show decVLogic w = _; rw [decVLogic, hm]; rfl
  case vcmp c t pd va vb p => exact decodes_vcmp (bne_iff_ne.1 hwf) he
  case vsel f vd va vb p => exact decodes_vsel he
  case vcvt s d vd va p => exact decodes_vcvt (bne_iff_ne.1 hwf) he
  case vredadd t vd va p | vredmin t vd va p | vredmax t vd va p =>
    exact decodes_v2t (accept := anyVTy) he (by decide)
      (fun w h hb => by rw [decB, h]; show decVred w = _; rw [decVred, hb]; rfl) rfl
  case vredx vd va p => exact decodes_vredx he
  case vperm f vd va vb p =>
    exact decodes_perm 0 (g := .vperm) he (Nat.zero_add _).symm (by decide) fun w h => by rw [decVperm, h]; rfl
  case vzip f vd va vb p => exact decodes_perm 1 (g := .vzip) he rfl (by decide) fun w h => by rw [decVperm, h]; rfl
  case vunzip f vd va vb p => exact decodes_perm 2 (g := .vunzip) he rfl (by decide) fun w h => by rw [decVperm, h]; rfl
  case vslideup f vd va n p => exact decodes_perm 3 (g := .vslideup) he rfl (by decide) fun w h => by rw [decVperm, h]; rfl
  case vslidedn f vd va n p => exact decodes_perm 4 (g := .vslidedn) he rfl (by decide) fun w h => by rw [decVperm, h]; rfl
  case vbcast f vd k p => exact decodes_vbcast he
  case pand pd pa pb => exact decodes_pand (bne_iff_ne.1 hwf) he
  case por pd pa pb => exact decodes_por (bne_iff_ne.1 hwf) he
  case pnot pd pa => exact decodes_pnot (bne_iff_ne.1 hwf) he
  case mgang ab ac ta b nr z =>
    cases b with
    | tile b => exact decodes_mgangTile hwf he
    | spad dp => exact decodes_mgangSpad hwf he
  case mzero ab ac => exact decodes_mzero hwf he
  case mdup ab ac a => exact decodes_mdup hwf he
  case mstat => exact decodes_mstat he
  case mrest ab ac dp => exact decodes_mrest hwf he
  case mdrain ab ac dp nr r => exact decodes_mdrain hwf he
  case vsplit vd va k p => exact decodes_vsplit he
  case vqnt f vd va p => exact decodes_vqnt he
  case vdqnt f vd va p => exact decodes_vdqnt he
  case nopB => exact decodes_nopB he
  -- words of another row, and the events
  case shootDownDeny | migCancel | migPinSet | migPinClear | migTakePage | migReturnPage => cases hcan
  all_goals cases he

end Sys2Proof
end

section
/-! SUPPORT. What a class A word decodes to encodes to that word, decoder by decoder (O60). -/

namespace Sys2Proof
open Machine

/-- The instruction is well formed, owns its word, and the word is its encoding. -/
def Encodes (i : Instr) (w : Nat) : Prop := i.wf = true ∧ i.canonical = true ∧ encode i = some w

/-- A word of a class and a major, L and S aside. -/
structure OfMajor (w cls maj : Nat) : Prop where
  lt : w < 2 ^ 30
  cls : fld w 29 1 = cls
  maj : fld w 23 6 = maj

section

variable {i : Instr} {w maj m : Nat}

theorem Encodes.of_ax {x y z : Nat} (hi : Encodes i (encAX maj x y z m)) (hw : OfMajor w 0 maj) (hx : fld w 17 6 = x)
    (hy : fld w 11 6 = y) (hz : fld w 5 6 = z) (hm : fld w 0 5 = m) : Encodes i w :=
  SrcFields.encAX_eq ⟨hw.cls, hw.maj, hx, hy, hz, hm⟩ hw.lt ▸ hi

theorem Encodes.of_am {x y : Nat} {d : BitVec 11} (hi : Encodes i (encAM maj x y d)) (hw : OfMajor w 0 maj) (hx : fld w 17 6 = x)
    (hy : fld w 11 6 = y) (hd : imm11 w = d) : Encodes i w :=
  ImmFields.encAM_eq ⟨hw.cls, hw.maj, hx, hy, hd ▸ (imm11_toNat w).symm⟩ hw.lt ▸ hi

theorem encodes_xyk {f : Src → Src → Keep → Instr} (hw : OfMajor w 0 maj) (hm : fld w 0 5 = m) (h : br2 w f = .ok i)
    (hf : ∀ x y k, Encodes (f x y k) (encAX maj x.code y.code (keepCode k) m)) : Encodes i w := by
  obtain ⟨x, y, k, hx, hy, hk, rfl⟩ := br2_eq_ok.1 h
  exact (hf x y k).of_ax hw hx hy hk hm

theorem encodes_xk {f : Src → Keep → Instr} (hw : OfMajor w 0 maj) (hm : fld w 0 5 = m) (h : br1 w f = .ok i)
    (hf : ∀ x k, Encodes (f x k) (encAX maj x.code 0 (keepCode k) m)) : Encodes i w := by
  obtain ⟨hy, x, k, hx, hk, rfl⟩ := br1_eq_ok.1 h
  exact (hf x k).of_ax hw hx hy hk hm

theorem encodes_xy {f : Src → Src → Instr} (hw : OfMajor w 0 maj) (hm : fld w 0 5 = m) (h : formXY w f = .ok i)
    (hf : ∀ x y, Encodes (f x y) (encAX maj x.code y.code 0 m)) : Encodes i w := by
  obtain ⟨hz, x, y, hx, hy, rfl⟩ := formXY_eq_ok.1 h
  exact (hf x y).of_ax hw hx hy hz hm

theorem encodes_x {f : Src → Instr} (hw : OfMajor w 0 maj) (hm : fld w 0 5 = m) (h : formX w f = .ok i)
    (hf : ∀ x, Encodes (f x) (encAX maj x.code 0 0 m)) : Encodes i w := by
  obtain ⟨hy, hz, x, hx, rfl⟩ := formX_eq_ok.1 h
  exact (hf x).of_ax hw hx hy hz hm

theorem encodes_k {f : Keep → Instr} (hw : OfMajor w 0 maj) (hm : fld w 0 5 = m) (h : formK w f = .ok i)
    (hf : ∀ k, Encodes (f k) (encAX maj 0 0 (keepCode k) m)) : Encodes i w := by
  obtain ⟨hx, hy, k, hk, rfl⟩ := formK_eq_ok.1 h
  exact (hf k).of_ax hw hx hy hk hm

theorem encodes_none {j : Instr} (hw : OfMajor w 0 maj) (hm : fld w 0 5 = m) (h : formNone w j = .ok i)
    (hj : Encodes j (encAX maj 0 0 0 m)) : Encodes i w := by
  obtain ⟨hx, hy, hz, rfl⟩ := formNone_eq_ok.1 h
  exact hj.of_ax hw hx hy hz hm

theorem encodes_of_decSystem (hw : OfMajor w 0 0x00) (h : decSystem w = .ok i) : Encodes i w := by
  unfold decSystem at h
  split at h
  next hm =>
    simp only [bind_eq_ok, noKeep_eq_ok, src_eq_ok, Except.ok.injEq] at h
    obtain ⟨-, hz, x, hx, rfl⟩ := h
    exact Encodes.of_ax ⟨rfl, rfl, rfl⟩ hw hx (ofNat_fld_toNat ..).symm hz hm
  next hm => exact encodes_none hw hm h ⟨rfl, rfl, rfl⟩
  next hm =>
    simp only [bind_eq_ok, noKeep_eq_ok, src_eq_ok, code?_eq_ok, Disp.ofCode_eq_some, Except.ok.injEq] at h
    obtain ⟨-, hz, x, hx, d, hd, rfl⟩ := h
    exact Encodes.of_ax ⟨rfl, rfl, rfl⟩ hw hx hd hz hm
  next hm =>
    simp only [bind_eq_ok, zero_eq_ok, kp_eq_ok, code?_eq_ok, Ctl.ofCode_eq_some, Except.ok.injEq] at h
    obtain ⟨-, hx, k, hk, c, hc, rfl⟩ := h
    exact Encodes.of_ax ⟨rfl, rfl, rfl⟩ hw hx hc hk hm
  next hm =>
    simp only [bind_eq_ok, noKeep_eq_ok, src_eq_ok, code?_eq_ok, Ctl.ofCode_eq_some] at h
    obtain ⟨-, hz, x, hx, c, hc, h⟩ := h
    split at h
    next hs =>
      cases h
      subst hs
      exact Encodes.of_ax ⟨rfl, rfl, rfl⟩ hw hx hc hz hm
    next hs =>
      cases h
      exact Encodes.of_ax ⟨bne_iff_ne.2 hs, rfl, rfl⟩ hw hx hc hz hm
  next hm => exact encodes_none hw hm h ⟨rfl, rfl, rfl⟩
  next hm => exact encodes_k hw hm h fun _ => ⟨rfl, rfl, rfl⟩
  next hm => exact encodes_k hw hm h fun _ => ⟨rfl, rfl, rfl⟩
  next => cases h

theorem encodes_of_decBranch (hw : OfMajor w 0 0x01) (h : decBranch w = .ok i) : Encodes i w := by
  simp only [decBranch, bind_eq_ok, code?_eq_ok, Cond.ofCode_eq_some] at h
  obtain ⟨c, hc, h⟩ := h
  have hword : 0x01 * 2 ^ 23 + c.code * 2 ^ 18 + (BitVec.ofNat 18 (fld w 0 18)).toNat = w := by
    obtain ⟨hlt, hcls, hmaj⟩ := hw
    rw [ofNat_fld_toNat, ← hc]
    simp only [fld] at *
    omega
  split at h
  next ha =>
    cases h
    subst ha
    exact ⟨rfl, rfl, congrArg some hword⟩
  next ha =>
    cases h
    exact ⟨bne_iff_ne.2 ha, rfl, congrArg some hword⟩

theorem encodes_of_decCall (hw : OfMajor w 0 0x02) (h : decCall w = .ok i) : Encodes i w := by
  simp only [decCall, bind_eq_ok, need_eq_ok, beq_iff_eq, Except.ok.injEq] at h
  obtain ⟨-, h0, rfl⟩ := h
  refine ⟨rfl, rfl, congrArg some ?_⟩
  obtain ⟨hlt, hcls, hmaj⟩ := hw
  rw [ofNat_fld_toNat]
  simp only [fld] at *
  omega

theorem encodes_of_decJump (hw : OfMajor w 0 0x03) (h : decJump w = .ok i) : Encodes i w := by
  simp only [decJump, bind_eq_ok, need_eq_ok, zero_eq_ok, noKeep_eq_ok, src_eq_ok, decide_eq_true_eq] at h
  obtain ⟨-, hm, -, hy, -, hz, x, hx, h⟩ := h
  split at h
  next h0 => cases h; exact Encodes.of_ax ⟨rfl, rfl, rfl⟩ hw hx hy hz h0
  next h1 => cases h; exact Encodes.of_ax ⟨rfl, rfl, rfl⟩ hw hx hy hz h1
  next h0 h1 =>
    cases h
    have h2 : fld w 0 5 = 2 := by
      simp only [imp_false] at h0 h1
      omega
    exact Encodes.of_ax ⟨rfl, rfl, rfl⟩ hw hx hy hz h2

theorem encodes_of_decLoop (hw : OfMajor w 0 0x04) (h : decLoop w = .ok i) : Encodes i w := by
  simp only [decLoop, bind_eq_ok, need_eq_ok, decide_eq_true_eq, Except.ok.injEq] at h
  obtain ⟨-, hr, rfl⟩ := h
  refine ⟨rfl, rfl, congrArg some ?_⟩
  obtain ⟨hlt, hcls, hmaj⟩ := hw
  rw [ofNat_fld_toNat, r5_toNat]
  simp only [fld] at *
  omega

theorem encodes_of_decRep (hw : OfMajor w 0 0x05) (h : decRep w = .ok i) : Encodes i w := by
  simp only [decRep, bind_eq_ok, zero_eq_ok, src_eq_ok, Except.ok.injEq] at h
  obtain ⟨-, h0, x, hx, rfl⟩ := h
  refine ⟨rfl, rfl, congrArg some ?_⟩
  obtain ⟨hlt, hcls, hmaj⟩ := hw
  rw [ofNat_fld_toNat, ofNat_fld_toNat, ofNat_fld_toNat, ← hx]
  simp only [fld] at *
  omega

theorem encodes_of_decSched (hw : OfMajor w 0 0x06) (h : decSched w = .ok i) : Encodes i w := by
  simp only [decSched, bind_eq_ok, zero_eq_ok, kp_eq_ok, Except.ok.injEq] at h
  obtain ⟨-, h0, k, hk, rfl⟩ := h
  refine ⟨rfl, rfl, congrArg some ?_⟩
  obtain ⟨hlt, hcls, hmaj⟩ := hw
  rw [← hk]
  simp only [fld] at *
  omega

theorem encodes_of_decNop (hw : OfMajor w 0 0x07) (h : decNop w = .ok i) : Encodes i w := by
  simp only [decNop, bind_eq_ok, zero_eq_ok, Except.ok.injEq] at h
  obtain ⟨-, h0, rfl⟩ := h
  refine ⟨rfl, rfl, congrArg some ?_⟩
  obtain ⟨hlt, hcls, hmaj⟩ := hw
  simp only [fld] at *
  omega

theorem encodes_of_decLd {t : LdTy} (h : decLd t w = .ok i) (hw : OfMajor w 0 (0x10 + t.code)) : Encodes i w := by
  simp only [decLd, bind_eq_ok, src_eq_ok, kp_eq_ok, Except.ok.injEq] at h
  obtain ⟨x, hx, k, hk, rfl⟩ := h
  exact Encodes.of_am ⟨rfl, rfl, rfl⟩ hw hx hk rfl

theorem encodes_of_decLd128 (hw : OfMajor w 0 0x17) (h : decLd128 w = .ok i) : Encodes i w := by
  simp only [decLd128, bind_eq_ok, src_eq_ok, noKeep_eq_ok, Except.ok.injEq] at h
  obtain ⟨-, hk, x, hx, rfl⟩ := h
  exact Encodes.of_am ⟨rfl, rfl, rfl⟩ hw hx hk rfl

theorem encodes_of_decSt {t : StTy} (h : decSt t w = .ok i) (hw : OfMajor w 0 (0x18 + t.code)) : Encodes i w := by
  simp only [decSt, bind_eq_ok, src_eq_ok, Except.ok.injEq] at h
  obtain ⟨x, hx, y, hy, rfl⟩ := h
  exact Encodes.of_am ⟨rfl, rfl, rfl⟩ hw hx hy rfl

theorem encodes_of_decPrf (hw : OfMajor w 0 0x1C) (h : decPrf w = .ok i) : Encodes i w := by
  simp only [decPrf, bind_eq_ok, src_eq_ok, need_eq_ok, decide_eq_true_eq] at h
  obtain ⟨-, hlt, x, hx, h⟩ := h
  split at h
  next h0 => cases h; exact Encodes.of_am ⟨rfl, rfl, rfl⟩ hw hx h0 rfl
  next h0 => cases h; exact Encodes.of_am ⟨rfl, rfl, rfl⟩ hw hx (show fld w 11 6 = 1 by omega) rfl

theorem encodes_of_decLdxStx (hw : OfMajor w 0 0x1D) (h : decLdxStx w = .ok i) : Encodes i w := by
  unfold decLdxStx at h
  split at h
  next hm =>
    simp only [bind_eq_ok, noKeep_eq_ok, src_eq_ok, Except.ok.injEq] at h
    obtain ⟨-, hz, x, hx, y, hy, rfl⟩ := h
    exact Encodes.of_ax ⟨rfl, rfl, rfl⟩ hw hx hy hz hm
  next =>
    split at h
    next =>
      simp only [bind_eq_ok, src_eq_ok, kp_eq_ok, code?_eq_ok, LdTy.ofCode_eq_some, Except.ok.injEq] at h
      obtain ⟨x, hx, y, hy, k, hk, t, ht, rfl⟩ := h
      exact Encodes.of_ax ⟨rfl, rfl, rfl⟩ hw hx hy hk ht
    next =>
      simp only [bind_eq_ok, src_eq_ok, need_eq_ok, code?_eq_ok, StTy.ofCode_eq_some, decide_eq_true_eq, Except.ok.injEq] at h
      obtain ⟨-, hge, t, ht, x, hx, y, hy, z, hz, rfl⟩ := h
      exact Encodes.of_ax ⟨rfl, rfl, rfl⟩ hw hx hy hz (show fld w 0 5 = 0x10 + t.code by omega)

theorem encodes_of_decTile (hw : OfMajor w 0 0x1E) (h : decTile w = .ok i) : Encodes i w := by
  simp only [decTile, bind_eq_ok, src_eq_ok, zero_eq_ok, need_eq_ok, decide_eq_true_eq] at h
  obtain ⟨-, hlt, -, h8, x, hx, y, hy, h⟩ := h
  have hz : fld w 5 6 = (b3 w 5).toNat := (fld_of_high_zero w 5 3 3 h8).trans (b3_toNat ..).symm
  split at h
  next h0 => cases h; exact Encodes.of_ax ⟨rfl, rfl, rfl⟩ hw hx hy hz h0
  next h0 => cases h; exact Encodes.of_ax ⟨rfl, rfl, rfl⟩ hw hx hy hz (show fld w 0 5 = 1 by omega)

theorem encodes_of_decVecMem (hw : OfMajor w 0 0x1F) (h : decVecMem w = .ok i) : Encodes i w := by
  simp only [decVecMem] at h
  split at h
  next hlt =>
    simp only [bind_eq_ok, src_eq_ok, zero_eq_ok] at h
    obtain ⟨-, h10, -, h11, x, hx, h⟩ := h
    have hz : fld w 5 6 = (r5 w 5).toNat := (fld_of_high_zero w 5 5 1 h10).trans (r5_toNat ..).symm
    have hy : fld w 11 6 = (b3 w 14).toNat * 8 := by
      rw [b3_toNat]
      exact (fld_split w 11 3 3).trans (by rw [h11]; rfl)
    split at h
    next hm => cases h; exact Encodes.of_ax ⟨rfl, rfl, rfl⟩ hw hx hy hz hm
    next hm => cases h; exact Encodes.of_ax ⟨rfl, rfl, rfl⟩ hw hx hy hz hm
    next hm => cases h; exact Encodes.of_ax ⟨rfl, rfl, rfl⟩ hw hx hy hz hm
    next hm => cases h; exact Encodes.of_ax ⟨rfl, rfl, rfl⟩ hw hx hy hz hm
    next h0 h1 h2 h3 =>
      cases h
      have hm : fld w 0 5 = 4 := by
        simp only [imp_false] at h0 h1 h2 h3
        omega
      exact Encodes.of_ax ⟨rfl, rfl, rfl⟩ hw hx hy hz hm
  next hge =>
    simp only [bind_eq_ok, src_eq_ok, zero_eq_ok, need_eq_ok, decide_eq_true_eq] at h
    obtain ⟨-, hlt, -, h10, -, h16, x, hx, h⟩ := h
    have hz : fld w 5 6 = (r5 w 5).toNat := (fld_of_high_zero w 5 5 1 h10).trans (r5_toNat ..).symm
    have hy : fld w 11 6 = (r5 w 11).toNat := (fld_of_high_zero w 11 5 1 h16).trans (r5_toNat ..).symm
    split at h
    next hm => cases h; exact Encodes.of_ax ⟨rfl, rfl, rfl⟩ hw hx hy hz hm
    next hm => cases h; exact Encodes.of_ax ⟨rfl, rfl, rfl⟩ hw hx hy hz hm
    next hm => cases h; exact Encodes.of_ax ⟨rfl, rfl, rfl⟩ hw hx hy hz hm
    next h0 h1 h2 =>
      cases h
      have hm : fld w 0 5 = 8 := by
        simp only [imp_false] at h0 h1 h2
        omega
      exact Encodes.of_ax ⟨rfl, rfl, rfl⟩ hw hx hy hz hm

theorem encodes_of_decAtom (hw : OfMajor w 0 0x20) (h : decAtom w = .ok i) : Encodes i w := by
  simp only [decAtom, bind_eq_ok, src_eq_ok, kp_eq_ok, code?_eq_ok, AtomOp.ofCode_eq_some, Except.ok.injEq] at h
  obtain ⟨op, hop, x, hx, y, hy, k, hk, rfl⟩ := h
  exact Encodes.of_ax ⟨rfl, rfl, rfl⟩ hw hx hy hk hop

theorem encodes_of_decCas (hw : OfMajor w 0 0x21) (h : decCas w = .ok i) : Encodes i w := by
  simp only [decCas, bind_eq_ok, src_eq_ok, need_eq_ok, decide_eq_true_eq, Except.ok.injEq] at h
  obtain ⟨-, hlt, x, hx, y, hy, z, hz, rfl⟩ := h
  exact Encodes.of_ax ⟨rfl, rfl, rfl⟩ hw hx hy hz (fld_eq_boolCode_bit hlt)

theorem encodes_of_decRed (hw : OfMajor w 0 0x22) (h : decRed w = .ok i) : Encodes i w := by
  unfold decRed at h
  split at h
  next hm =>
    simp only [bind_eq_ok, src_eq_ok, noKeep_eq_ok, Except.ok.injEq] at h
    obtain ⟨-, hz, x, hx, y, hy, rfl⟩ := h
    have hmin : fld w 0 5 = 0x18 + 2 * boolCode (fld w 0 5 == 0x1A) := by
      obtain hm | hm := hm <;> rw [hm] <;> rfl
    exact Encodes.of_ax ⟨rfl, rfl, rfl⟩ hw hx hy hz hmin
  next =>
    simp only [bind_eq_ok, src_eq_ok, noKeep_eq_ok, need_eq_ok, code?_eq_ok, AtomOp.ofCode_eq_some, Except.ok.injEq] at h
    obtain ⟨op, hop, -, hswap, -, hz, x, hx, y, hy, rfl⟩ := h
    exact Encodes.of_ax ⟨hswap, rfl, rfl⟩ hw hx hy hz hop

theorem encodes_of_decFence (hw : OfMajor w 0 0x23) (h : decFence w = .ok i) : Encodes i w := by
  simp only [decFence, bind_eq_ok, noKeep_eq_ok, zero_eq_ok, code?_eq_ok, FenceKind.ofCode_eq_some, Scope.ofCode_eq_some,
    Except.ok.injEq] at h
  obtain ⟨f, hf, s, hs, -, hx, -, hy, -, hz, rfl⟩ := h
  have hm : fld w 0 5 = f.code * 8 + s.code := by
    rw [← hf, ← hs]
    exact fld_split w 0 3 2
  exact Encodes.of_ax ⟨rfl, rfl, rfl⟩ hw hx hy hz hm

theorem encodes_of_decWait (hw : OfMajor w 0 0x24) (h : decWait w = .ok i) : Encodes i w := by
  unfold decWait at h
  split at h
  next hlt =>
    simp only [bind_eq_ok, src_eq_ok, kp_eq_ok, Except.ok.injEq] at h
    obtain ⟨x, hx, y, hy, k, hk, rfl⟩ := h
    exact Encodes.of_ax ⟨rfl, rfl, rfl⟩ hw hx hy hk (fld_eq_boolCode_bit hlt)
  next =>
    simp only [bind_eq_ok, src_eq_ok, noKeep_eq_ok, need_eq_ok, code?_eq_ok, Scope.ofCode_eq_some, decide_eq_true_eq,
      Except.ok.injEq] at h
    obtain ⟨-, hge, s, hs, -, hz, x, hx, y, hy, rfl⟩ := h
    exact Encodes.of_ax ⟨rfl, rfl, rfl⟩ hw hx hy hz (show fld w 0 5 = 8 + s.code by omega)

theorem encodes_of_decPhase (hw : OfMajor w 0 0x25) (h : decPhase w = .ok i) : Encodes i w := by
  simp only [decPhase, bind_eq_ok, zero_eq_ok, need_eq_ok, decide_eq_true_eq] at h
  obtain ⟨-, hlt, -, hx, -, h15, h⟩ := h
  have hy : fld w 11 6 = (BitVec.ofNat 4 (fld w 11 4)).toNat := (fld_of_high_zero w 11 4 2 h15).trans (ofNat_fld_toNat ..).symm
  split at h
  next hm =>
    simp only [bind_eq_ok, zero_eq_ok, Except.ok.injEq] at h
    obtain ⟨-, h8, rfl⟩ := h
    have hz : fld w 5 6 = (b3 w 5).toNat := (fld_of_high_zero w 5 3 3 h8).trans (b3_toNat ..).symm
    exact Encodes.of_ax ⟨rfl, rfl, rfl⟩ hw hx hy hz hm
  next hm =>
    simp only [bind_eq_ok, noKeep_eq_ok] at h
    obtain ⟨-, hz, h⟩ := h
    split at h
    next h0 => cases h; exact Encodes.of_ax ⟨rfl, rfl, rfl⟩ hw hx hy hz h0
    next h0 => cases h; exact Encodes.of_ax ⟨rfl, rfl, rfl⟩ hw hx hy hz (show fld w 0 5 = 2 by omega)

theorem encodes_of_decTime (hw : OfMajor w 0 0x26) (h : decTime w = .ok i) : Encodes i w := by
  unfold decTime at h
  split at h
  next hm => exact encodes_k hw hm h fun _ => ⟨rfl, rfl, rfl⟩
  next hm => exact encodes_x hw hm h fun _ => ⟨rfl, rfl, rfl⟩
  next => cases h

theorem encodes_of_decProc (hw : OfMajor w 0 0x28) (h : decProc w = .ok i) : Encodes i w := by
  unfold decProc at h
  split at h
  next hm => exact encodes_xyk hw hm h fun _ _ _ => ⟨rfl, rfl, rfl⟩
  next hm => exact encodes_none hw hm h ⟨rfl, rfl, rfl⟩
  next hm => exact encodes_none hw hm h ⟨rfl, rfl, rfl⟩
  next => cases h

theorem encodes_of_decSendRecv (hw : OfMajor w 0 0x29) (h : decSendRecv w = .ok i) : Encodes i w := by
  unfold decSendRecv at h
  split at h
  next hm => exact encodes_xy hw hm h fun _ _ => ⟨rfl, rfl, rfl⟩
  next hm => exact encodes_xyk hw hm h fun _ _ _ => ⟨rfl, rfl, rfl⟩
  next hm => exact encodes_xk hw hm h fun _ _ => ⟨rfl, rfl, rfl⟩
  next hm => exact encodes_xk hw hm h fun _ _ => ⟨rfl, rfl, rfl⟩
  next => cases h

theorem encodes_of_decTileChan (hw : OfMajor w 0 0x2A) (h : decTileChan w = .ok i) : Encodes i w := by
  unfold decTileChan at h
  split at h
  next hm => exact encodes_xy hw hm h fun _ _ => ⟨rfl, rfl, rfl⟩
  next hm => exact encodes_xyk hw hm h fun _ _ _ => ⟨rfl, rfl, rfl⟩
  next hm => exact encodes_xy hw hm h fun _ _ => ⟨rfl, rfl, rfl⟩
  next hm => exact encodes_xyk hw hm h fun _ _ _ => ⟨rfl, rfl, rfl⟩
  next => cases h

theorem encodes_of_decAlt (hw : OfMajor w 0 0x2B) (h : decAlt w = .ok i) : Encodes i w := by
  unfold decAlt at h
  split at h
  next hm =>
    simp only [bind_eq_ok, zero_eq_ok, noKeep_eq_ok, src_eq_ok, Except.ok.injEq] at h
    obtain ⟨-, h14, -, hz, x, hx, rfl⟩ := h
    have hy : fld w 11 6 = (b3 w 11).toNat := (fld_of_high_zero w 11 3 3 h14).trans (b3_toNat ..).symm
    exact Encodes.of_ax ⟨rfl, rfl, rfl⟩ hw hx hy hz hm
  next hm => exact encodes_k hw hm h fun _ => ⟨rfl, rfl, rfl⟩
  next hm => exact encodes_k hw hm h fun _ => ⟨rfl, rfl, rfl⟩
  next => cases h

theorem encodes_of_decChan (hw : OfMajor w 0 0x2C) (h : decChan w = .ok i) : Encodes i w := by
  unfold decChan at h
  split at h
  next hm => exact encodes_xyk hw hm h fun _ _ _ => ⟨rfl, rfl, rfl⟩
  next hm => exact encodes_x hw hm h fun _ => ⟨rfl, rfl, rfl⟩
  next hm => exact encodes_xk hw hm h fun _ _ => ⟨rfl, rfl, rfl⟩
  next hm => exact encodes_xyk hw hm h fun _ _ _ => ⟨rfl, rfl, rfl⟩
  next => cases h

/-- A register pair that a z field names: not the last register, which has no next (R321). -/
theorem pair_field (hge : 32 ≤ fld w 5 6) (hle : fld w 5 6 ≤ 62) :
    (r5 w 5).toNat ≤ 30 ∧ fld w 5 6 = 32 + (r5 w 5).toNat := by
  rw [r5_toNat]
  simp only [fld] at *
  omega

theorem encodes_of_decTree (hw : OfMajor w 0 0x30) (h : decTree w = .ok i) : Encodes i w := by
  unfold decTree at h
  split at h
  next hm =>
    simp only [bind_eq_ok, src_eq_ok, need_eq_ok, decide_eq_true_eq, Except.ok.injEq] at h
    obtain ⟨x, hx, y, hy, -, hge, -, hle, rfl⟩ := h
    obtain ⟨hj, hz⟩ := pair_field hge hle
    exact Encodes.of_ax ⟨decide_eq_true hj, rfl, rfl⟩ hw hx hy hz hm
  next hm =>
    simp only [bind_eq_ok, zero_eq_ok, src_eq_ok] at h
    obtain ⟨-, hy, x, hx, h⟩ := h
    split at h
    next hz => cases h; exact Encodes.of_ax ⟨rfl, rfl, rfl⟩ hw hx hy hz hm
    next =>
      simp only [bind_eq_ok, need_eq_ok, decide_eq_true_eq, Except.ok.injEq] at h
      obtain ⟨-, hge, -, hle, rfl⟩ := h
      obtain ⟨hj, hz⟩ := pair_field hge hle
      exact Encodes.of_ax ⟨decide_eq_true hj, rfl, rfl⟩ hw hx hy hz hm
  next hm => exact encodes_xk hw hm h fun _ _ => ⟨rfl, rfl, rfl⟩
  next hm => exact encodes_xk hw hm h fun _ _ => ⟨rfl, rfl, rfl⟩
  next hm => exact encodes_xyk hw hm h fun _ _ _ => ⟨rfl, rfl, rfl⟩
  next hm => exact encodes_xyk hw hm h fun _ _ _ => ⟨rfl, rfl, rfl⟩
  next => cases h

theorem encodes_of_decCopy (hw : OfMajor w 0 0x31) (h : decCopy w = .ok i) : Encodes i w := by
  simp only [decCopy, bind_eq_ok, src_eq_ok, need_eq_ok, decide_eq_true_eq] at h
  obtain ⟨-, hlt, x, hx, y, hy, z, hz, h⟩ := h
  split at h
  next h0 => cases h; exact Encodes.of_ax ⟨rfl, rfl, rfl⟩ hw hx hy hz h0
  next h0 => cases h; exact Encodes.of_ax ⟨rfl, rfl, rfl⟩ hw hx hy hz (show fld w 0 5 = 1 by omega)

theorem encodes_of_decColl (hw : OfMajor w 0 0x32) (h : decColl w = .ok i) : Encodes i w := by
  simp only [decColl, bind_eq_ok, src_eq_ok, zero_eq_ok, need_eq_ok, beq_iff_eq, Except.ok.injEq] at h
  obtain ⟨-, hm, -, hy, -, hz, x, hx, rfl⟩ := h
  exact Encodes.of_ax ⟨rfl, rfl, rfl⟩ hw hx hy hz hm

theorem encodes_of_decCmpr (hw : OfMajor w 0 0x33) (h : decCmpr w = .ok i) : Encodes i w := by
  simp only [decCmpr, bind_eq_ok, src_eq_ok, need_eq_ok, decide_eq_true_eq] at h
  obtain ⟨-, hlt, x, hx, y, hy, z, hz, h⟩ := h
  split at h
  next h0 => cases h; exact Encodes.of_ax ⟨rfl, rfl, rfl⟩ hw hx hy hz h0
  next h0 => cases h; exact Encodes.of_ax ⟨rfl, rfl, rfl⟩ hw hx hy hz (show fld w 0 5 = 1 by omega)

theorem encodes_of_decFork (hw : OfMajor w 0 0x34) (h : decFork w = .ok i) : Encodes i w := by
  unfold decFork at h
  split at h
  next hm =>
    simp only [bind_eq_ok, src_eq_ok, zero_eq_ok, code?_eq_ok, ForkKind.ofCode_eq_some, Except.ok.injEq] at h
    obtain ⟨-, h8, x, hx, y, hy, e, he, rfl⟩ := h
    have hz : fld w 5 6 = e.code := (fld_of_high_zero w 5 3 3 h8).trans he
    exact Encodes.of_ax ⟨rfl, rfl, rfl⟩ hw hx hy hz hm
  next hm => exact encodes_xk hw hm h fun _ _ => ⟨rfl, rfl, rfl⟩
  next => cases h

theorem encodes_of_decMig (hw : OfMajor w 0 0x35) (h : decMig w = .ok i) : Encodes i w := by
  unfold decMig at h
  split at h
  next hm => exact encodes_xy hw hm h fun _ _ => ⟨rfl, rfl, rfl⟩
  next hm => exact encodes_xk hw hm h fun _ _ => ⟨rfl, rfl, rfl⟩
  next => cases h

theorem encodes_of_decBuf (hw : OfMajor w 0 0x36) (h : decBuf w = .ok i) : Encodes i w := by
  unfold decBuf at h
  split at h
  next hm =>
    simp only [bind_eq_ok, src_eq_ok, zero_eq_ok, Except.ok.injEq] at h
    obtain ⟨-, hz, x, hx, y, hy, rfl⟩ := h
    exact Encodes.of_ax ⟨rfl, rfl, rfl⟩ hw hx hy hz hm
  next hm =>
    simp only [bind_eq_ok, src_eq_ok, Except.ok.injEq] at h
    obtain ⟨x, hx, y, hy, z, hz, rfl⟩ := h
    exact Encodes.of_ax ⟨rfl, rfl, rfl⟩ hw hx hy hz hm
  next hm => exact encodes_x hw hm h fun _ => ⟨rfl, rfl, rfl⟩
  next hm => exact encodes_x hw hm h fun _ => ⟨rfl, rfl, rfl⟩
  next hm => exact encodes_x hw hm h fun _ => ⟨rfl, rfl, rfl⟩
  next hm => exact encodes_xk hw hm h fun _ _ => ⟨rfl, rfl, rfl⟩
  next hm => exact encodes_xk hw hm h fun _ _ => ⟨rfl, rfl, rfl⟩
  next => cases h

/-- Class A, by major (Table 12.11a). -/
theorem encodes_of_decA (hlt : w < 2 ^ 30) (hcls : fld w 29 1 = 0) (h : decA w = .ok i) : Encodes i w := by
  unfold decA at h
  split at h
  next hmaj => exact encodes_of_decSystem ⟨hlt, hcls, hmaj⟩ h
  next hmaj => exact encodes_of_decBranch ⟨hlt, hcls, hmaj⟩ h
  next hmaj => exact encodes_of_decCall ⟨hlt, hcls, hmaj⟩ h
  next hmaj => exact encodes_of_decJump ⟨hlt, hcls, hmaj⟩ h
  next hmaj => exact encodes_of_decLoop ⟨hlt, hcls, hmaj⟩ h
  next hmaj => exact encodes_of_decRep ⟨hlt, hcls, hmaj⟩ h
  next hmaj => exact encodes_of_decSched ⟨hlt, hcls, hmaj⟩ h
  next hmaj => exact encodes_of_decNop ⟨hlt, hcls, hmaj⟩ h
  next hmaj => exact encodes_of_decLd h ⟨hlt, hcls, hmaj⟩
  next hmaj => exact encodes_of_decLd h ⟨hlt, hcls, hmaj⟩
  next hmaj => exact encodes_of_decLd h ⟨hlt, hcls, hmaj⟩
  next hmaj => exact encodes_of_decLd h ⟨hlt, hcls, hmaj⟩
  next hmaj => exact encodes_of_decLd h ⟨hlt, hcls, hmaj⟩
  next hmaj => exact encodes_of_decLd h ⟨hlt, hcls, hmaj⟩
  next hmaj => exact encodes_of_decLd h ⟨hlt, hcls, hmaj⟩
  next hmaj => exact encodes_of_decLd128 ⟨hlt, hcls, hmaj⟩ h
  next hmaj => exact encodes_of_decSt h ⟨hlt, hcls, hmaj⟩
  next hmaj => exact encodes_of_decSt h ⟨hlt, hcls, hmaj⟩
  next hmaj => exact encodes_of_decSt h ⟨hlt, hcls, hmaj⟩
  next hmaj => exact encodes_of_decSt h ⟨hlt, hcls, hmaj⟩
  next hmaj => exact encodes_of_decPrf ⟨hlt, hcls, hmaj⟩ h
  next hmaj => exact encodes_of_decLdxStx ⟨hlt, hcls, hmaj⟩ h
  next hmaj => exact encodes_of_decTile ⟨hlt, hcls, hmaj⟩ h
  next hmaj => exact encodes_of_decVecMem ⟨hlt, hcls, hmaj⟩ h
  next hmaj => exact encodes_of_decAtom ⟨hlt, hcls, hmaj⟩ h
  next hmaj => exact encodes_of_decCas ⟨hlt, hcls, hmaj⟩ h
  next hmaj => exact encodes_of_decRed ⟨hlt, hcls, hmaj⟩ h
  next hmaj => exact encodes_of_decFence ⟨hlt, hcls, hmaj⟩ h
  next hmaj => exact encodes_of_decWait ⟨hlt, hcls, hmaj⟩ h
  next hmaj => exact encodes_of_decPhase ⟨hlt, hcls, hmaj⟩ h
  next hmaj => exact encodes_of_decTime ⟨hlt, hcls, hmaj⟩ h
  next hmaj => exact encodes_of_decProc ⟨hlt, hcls, hmaj⟩ h
  next hmaj => exact encodes_of_decSendRecv ⟨hlt, hcls, hmaj⟩ h
  next hmaj => exact encodes_of_decTileChan ⟨hlt, hcls, hmaj⟩ h
  next hmaj => exact encodes_of_decAlt ⟨hlt, hcls, hmaj⟩ h
  next hmaj => exact encodes_of_decChan ⟨hlt, hcls, hmaj⟩ h
  next hmaj => exact encodes_of_decTree ⟨hlt, hcls, hmaj⟩ h
  next hmaj => exact encodes_of_decCopy ⟨hlt, hcls, hmaj⟩ h
  next hmaj => exact encodes_of_decColl ⟨hlt, hcls, hmaj⟩ h
  next hmaj => exact encodes_of_decCmpr ⟨hlt, hcls, hmaj⟩ h
  next hmaj => exact encodes_of_decFork ⟨hlt, hcls, hmaj⟩ h
  next hmaj => exact encodes_of_decMig ⟨hlt, hcls, hmaj⟩ h
  next hmaj => exact encodes_of_decBuf ⟨hlt, hcls, hmaj⟩ h
  next => cases h

end

end Sys2Proof
end

section
/-! SUPPORT. What a class B word decodes to encodes to that word, decoder by decoder (O60). -/

namespace Sys2Proof
open Machine

section

variable {i : Instr} {w maj m : Nat}

theorem Encodes.of_br {x y z : Nat} (hi : Encodes i (encBR maj x y z m)) (hw : OfMajor w 1 maj) (hx : fld w 17 6 = x)
    (hy : fld w 11 6 = y) (hz : fld w 5 6 = z) (hm : fld w 0 5 = m) : Encodes i w :=
  SrcFields.encBR_eq ⟨hw.cls, hw.maj, hx, hy, hz, hm⟩ hw.lt ▸ hi

theorem Encodes.of_bi {x y d : Nat} (hi : Encodes i (encBI maj x y d)) (hw : OfMajor w 1 maj) (hx : fld w 17 6 = x)
    (hy : fld w 11 6 = y) (hd : fld w 0 11 = d) : Encodes i w :=
  ImmFields.encBI_eq ⟨hw.cls, hw.maj, hx, hy, hd⟩ hw.lt ▸ hi

theorem Encodes.of_bv {vd va vb vc p : Nat} (hi : Encodes i (encBV maj vd va vb vc p)) (hw : OfMajor w 1 maj)
    (hd : fld w 18 5 = vd) (ha : fld w 13 5 = va) (hb : fld w 8 5 = vb) (hc : fld w 3 5 = vc) (hp : fld w 0 3 = p) :
    Encodes i w :=
  VecFields.encBV_eq ⟨hw.cls, hw.maj, hd, ha, hb, hc, hp⟩ hw.lt ▸ hi

theorem Encodes.of_bm {ab ac t dp nr : Nat} (hi : Encodes i (encBM maj ab ac t dp nr m)) (hw : OfMajor w 1 maj)
    (hab : fld w 21 2 = ab) (hac : fld w 19 2 = ac) (ht : fld w 16 3 = t) (hdp : fld w 12 4 = dp) (hnr : fld w 7 5 = nr)
    (hm : fld w 4 3 = m) (hlow : fld w 0 4 = 0) : Encodes i w :=
  TileFields.encBM_eq ⟨hw.cls, hw.maj, hab, hac, ht, hdp, hnr, hm, hlow⟩ hw.lt ▸ hi

theorem encodes_br2 {f : Src → Src → Keep → Instr} (hw : OfMajor w 1 maj) (hm : fld w 0 5 = m) (h : br2 w f = .ok i)
    (hf : ∀ x y k, Encodes (f x y k) (encBR2 maj m x y k)) : Encodes i w := by
  obtain ⟨x, y, k, hx, hy, hk, rfl⟩ := br2_eq_ok.1 h
  exact (hf x y k).of_br hw hx hy hk hm

theorem encodes_br1 {f : Src → Keep → Instr} (hw : OfMajor w 1 maj) (hm : fld w 0 5 = m) (h : br1 w f = .ok i)
    (hf : ∀ x k, Encodes (f x k) (encBR1 maj m x k)) : Encodes i w := by
  obtain ⟨hy, x, k, hx, hk, rfl⟩ := br1_eq_ok.1 h
  exact (hf x k).of_br hw hx hy hk hm

theorem encodes_of_decInt (hw : OfMajor w 1 0x00) (h : decInt w = .ok i) : Encodes i w := by
  unfold decInt at h
  split at h
  case h_16 => cases h
  all_goals exact encodes_br2 hw ‹_› h fun _ _ _ => ⟨rfl, rfl, rfl⟩

theorem encodes_of_decLogic (hw : OfMajor w 1 0x01) (h : decLogic w = .ok i) : Encodes i w := by
  unfold decLogic at h
  split at h
  case h_10 => cases h
  all_goals exact encodes_br2 hw ‹_› h fun _ _ _ => ⟨rfl, rfl, rfl⟩

theorem encodes_of_decUnary (hw : OfMajor w 1 0x02) (h : decUnary w = .ok i) : Encodes i w := by
  unfold decUnary at h
  split at h
  case h_7 => cases h
  all_goals exact encodes_br1 hw ‹_› h fun _ _ => ⟨rfl, rfl, rfl⟩

theorem encodes_of_decPtr (hw : OfMajor w 1 0x11) (h : decPtr w = .ok i) : Encodes i w := by
  unfold decPtr at h
  split at h
  case h_5 => cases h
  all_goals exact encodes_br2 hw ‹_› h fun _ _ _ => ⟨rfl, rfl, rfl⟩

theorem encodes_of_decLi (hw : OfMajor w 1 0x03) (h : decLi w = .ok i) : Encodes i w := by
  simp only [decLi, bind_eq_ok, kp_eq_ok, Except.ok.injEq] at h
  obtain ⟨k, hk, rfl⟩ := h
  have hhi := fld_lt w 17 6
  have hlo := fld_lt w 0 11
  refine Encodes.of_bi ⟨rfl, rfl, rfl⟩ hw ?_ hk ?_ <;> rw [BitVec.toNat_ofNat] <;> omega

theorem encodes_immediate {f : Src → BitVec 11 → Keep → Instr} (hw : OfMajor w 1 maj) (h : decBi w f = .ok i)
    (hf : ∀ x d k, Encodes (f x d k) (encBI maj x.code (keepCode k) d.toNat)) : Encodes i w := by
  simp only [decBi, bind_eq_ok, src_eq_ok, kp_eq_ok, Except.ok.injEq] at h
  obtain ⟨x, hx, k, hk, rfl⟩ := h
  exact (hf x _ k).of_bi hw hx hk (imm11_toNat w).symm

theorem encodes_extension {f : Src → BitVec 11 → Keep → Instr} (hw : OfMajor w 1 maj) (h : decExt w f = .ok i)
    (hf : ∀ x d k, widthOk d = true → Encodes (f x d k) (encBI maj x.code (keepCode k) d.toNat)) : Encodes i w := by
  simp only [decExt, bind_eq_ok, src_eq_ok, kp_eq_ok, need_eq_ok, Except.ok.injEq] at h
  obtain ⟨x, hx, k, hk, -, hd, rfl⟩ := h
  exact (hf x _ k hd).of_bi hw hx hk (imm11_toNat w).symm

theorem encodes_bitField {f : Src → BitVec 5 → BitVec 6 → Keep → Instr} (hw : OfMajor w 1 maj) (h : decField w f = .ok i)
    (hf : ∀ x n lo k, bitFieldOk n lo = true →
      Encodes (f x n lo k) (encBI maj x.code (keepCode k) (n.toNat * 64 + lo.toNat))) : Encodes i w := by
  simp only [decField, bind_eq_ok, src_eq_ok, kp_eq_ok, need_eq_ok, Except.ok.injEq] at h
  obtain ⟨x, hx, k, hk, -, hok, rfl⟩ := h
  refine (hf x _ _ k hok).of_bi hw hx hk ?_
  rw [r5_toNat, ofNat_fld_toNat]
  exact fld_split w 0 6 5

/-- The minor of an operation above a rounding code (Table 13.8). -/
theorem rounding_minor {q : Nat} {r : Rm} (hq : fld w 3 2 = q) (hr : fld w 0 3 = r.code) : fld w 0 5 = 8 * q + r.code := by
  rw [← hq, ← hr, Nat.mul_comm]
  exact fld_split w 0 3 2

theorem encodes_of_decFArith {dbl : Bool} (h : decFArith dbl w = .ok i) (hw : OfMajor w 1 (0x18 + boolCode dbl)) :
    Encodes i w := by
  simp only [decFArith, bind_eq_ok, code?_eq_ok, Rm.ofCode_eq_some] at h
  obtain ⟨r, hr, h⟩ := h
  split at h
  next hq => exact encodes_br2 hw ((rounding_minor hq hr).trans (Nat.zero_add _)) h fun _ _ _ => ⟨rfl, rfl, rfl⟩
  next hq => exact encodes_br2 hw (rounding_minor hq hr) h fun _ _ _ => ⟨rfl, rfl, rfl⟩
  next hq => exact encodes_br2 hw (rounding_minor hq hr) h fun _ _ _ => ⟨rfl, rfl, rfl⟩
  next h0 h1 h2 =>
    simp only [bind_eq_ok, src_eq_ok, need_eq_ok, decide_eq_true_eq, Except.ok.injEq] at h
    obtain ⟨x, hx, y, hy, -, hge, rfl⟩ := h
    have hq : fld w 3 2 = 3 := by
      have hlt := fld_lt w 3 2
      simp only [imp_false] at h0 h1 h2
      omega
    have hz : fld w 5 6 = keepCode (some (r5 w 5)) := by
      rw [keepCode, r5_toNat]
      simp only [fld] at *
      omega
    exact Encodes.of_br ⟨rfl, rfl, rfl⟩ hw hx hy hz (rounding_minor hq hr)

theorem encodes_of_decFDiv {dbl : Bool} (h : decFDiv dbl w = .ok i) (hw : OfMajor w 1 (0x1A + boolCode dbl)) : Encodes i w := by
  simp only [decFDiv, bind_eq_ok, code?_eq_ok, Rm.ofCode_eq_some] at h
  obtain ⟨r, hr, h⟩ := h
  split at h
  next hq => exact encodes_br2 hw ((rounding_minor hq hr).trans (Nat.zero_add _)) h fun _ _ _ => ⟨rfl, rfl, rfl⟩
  next hq => exact encodes_br1 hw (rounding_minor hq hr) h fun _ _ => ⟨rfl, rfl, rfl⟩
  next hq => exact encodes_br1 hw (rounding_minor hq hr) h fun _ _ => ⟨rfl, rfl, rfl⟩
  next h0 h1 h2 =>
    have hq : fld w 3 2 = 3 := by
      have hlt := fld_lt w 3 2
      simp only [imp_false] at h0 h1 h2
      omega
    exact encodes_br2 hw (rounding_minor hq hr) h fun _ _ _ => ⟨rfl, rfl, rfl⟩

theorem encodes_of_decFMisc {dbl : Bool} (h : decFMisc dbl w = .ok i) (hw : OfMajor w 1 (0x1C + boolCode dbl)) :
    Encodes i w := by
  unfold decFMisc at h
  split at h
  next hm => exact encodes_br2 hw hm h fun _ _ _ => ⟨rfl, rfl, rfl⟩
  next hm => exact encodes_br2 hw hm h fun _ _ _ => ⟨rfl, rfl, rfl⟩
  next hm => exact encodes_br1 hw hm h fun _ _ => ⟨rfl, rfl, rfl⟩
  next hm => exact encodes_br1 hw hm h fun _ _ => ⟨rfl, rfl, rfl⟩
  next hm => exact encodes_br2 hw hm h fun _ _ _ => ⟨rfl, rfl, rfl⟩
  next hm => exact encodes_br1 hw hm h fun _ _ => ⟨rfl, rfl, rfl⟩
  next hm => exact encodes_br1 hw hm h fun _ _ => ⟨rfl, rfl, rfl⟩
  next => cases h

theorem encodes_of_decFcvt (hw : OfMajor w 1 0x1E) (h : decFcvt w = .ok i) : Encodes i w := by
  simp only [decFcvt, bind_eq_ok, src_eq_ok, kp_eq_ok, need_eq_ok, code?_eq_ok, Rm.ofCode_eq_some, CTy.ofCode_eq_some,
    beq_iff_eq, Except.ok.injEq] at h
  obtain ⟨-, hq, r, hr, s, hs, d, hd, -, hok, x, hx, k, hk, rfl⟩ := h
  have hy : fld w 11 6 = s.code * 8 + d.code := by
    rw [← hs, ← hd]
    exact fld_split w 11 3 3
  exact Encodes.of_br ⟨hok, rfl, rfl⟩ hw hx hy hk ((rounding_minor hq hr).trans (Nat.zero_add _))

/-! ### Vectors -/

/-- A vector word of three registers. -/
theorem Encodes.of_vec (hi : Encodes i (encV3 maj m (r5 w 18) (r5 w 13) (r5 w 8) (b3 w 0))) (hw : OfMajor w 1 maj)
    (hm : fld w 3 5 = m) : Encodes i w :=
  Encodes.of_bv hi hw (r5_toNat ..).symm (r5_toNat ..).symm (r5_toNat ..).symm hm (b3_toNat ..).symm

/-- A vector word of two registers, with the code of its operation where a third would stand. -/
theorem Encodes.of_vec2 {q : Nat} (hi : Encodes i (encBV maj (r5 w 18).toNat (r5 w 13).toNat q m (b3 w 0).toNat))
    (hw : OfMajor w 1 maj) (hq : fld w 8 5 = q) (hm : fld w 3 5 = m) : Encodes i w :=
  Encodes.of_bv hi hw (r5_toNat ..).symm (r5_toNat ..).symm hq hm (b3_toNat ..).symm

theorem encodes_v3t {accept : VTy → Bool} {f : VTy → BitVec 5 → BitVec 5 → BitVec 5 → BitVec 3 → Instr}
    (hw : OfMajor w 1 maj) (h : decV3 w accept f = .ok i)
    (hf : ∀ t vd va vb p, accept t = true → Encodes (f t vd va vb p) (encV3 maj t.code vd va vb p)) : Encodes i w := by
  obtain ⟨t, ht, hok, rfl⟩ := decV3_eq_ok.1 h
  exact (hf t _ _ _ _ hok).of_vec hw ht

theorem encodes_v2t {q : Nat} {accept : VTy → Bool} {f : VTy → BitVec 5 → BitVec 5 → BitVec 3 → Instr}
    (hw : OfMajor w 1 maj) (hq : fld w 8 5 = q) (h : decV2 w accept f = .ok i)
    (hf : ∀ (t : VTy) (vd va : BitVec 5) (p : BitVec 3), accept t = true →
      Encodes (f t vd va p) (encBV maj vd.toNat va.toNat q t.code p.toNat)) : Encodes i w := by
  obtain ⟨t, ht, hok, rfl⟩ := decV2_eq_ok.1 h
  exact (hf t _ _ _ hok).of_vec2 hw hq ht

theorem encodes_v4 {f : BitVec 5 → BitVec 5 → BitVec 5 → BitVec 5 → BitVec 3 → Instr}
    (hw : OfMajor w 1 maj) (h : decV4 w f = .ok i)
    (hf : ∀ vd va vb vc p, Encodes (f vd va vb vc p) (encV3 maj vc.toNat vd va vb p)) : Encodes i w := by
  cases h
  exact (hf ..).of_vec hw (r5_toNat w 3).symm

theorem encodes_v3 {f : BitVec 5 → BitVec 5 → BitVec 5 → BitVec 3 → Instr} (hw : OfMajor w 1 maj) (hm : fld w 3 5 = m)
    (h : v3 w f = .ok i) (hf : ∀ vd va vb p, Encodes (f vd va vb p) (encV3 maj m vd va vb p)) : Encodes i w := by
  cases h
  exact (hf ..).of_vec hw hm

theorem encodes_of_decVUnary (hw : OfMajor w 1 0x2B) (h : decVUnary w = .ok i) : Encodes i w := by
  unfold decVUnary at h
  split at h
  case h_9 hq =>
    simp only [bind_eq_ok, need_eq_ok, decide_eq_true_eq, Except.ok.injEq] at h
    obtain ⟨-, hlt, rfl⟩ := h
    exact Encodes.of_vec2 ⟨rfl, rfl, rfl⟩ hw hq (fld_eq_boolCode_bit hlt)
  case h_10 => cases h
  all_goals exact encodes_v2t hw ‹_› h fun _ _ _ _ hok => ⟨hok, rfl, rfl⟩

theorem encodes_of_decVLogic (hw : OfMajor w 1 0x2C) (h : decVLogic w = .ok i) : Encodes i w := by
  unfold decVLogic at h
  split at h
  case h_10 => cases h
  all_goals exact encodes_v3 hw ‹_› h fun _ _ _ _ => ⟨rfl, rfl, rfl⟩

theorem encodes_of_decVcmp (hw : OfMajor w 1 0x2D) (h : decVcmp w = .ok i) : Encodes i w := by
  simp only [decVcmp, bind_eq_ok, vty_eq_ok, need_eq_ok, code?_eq_ok, VCond.ofCode_eq_some, bne_iff_ne, Except.ok.injEq] at h
  obtain ⟨t, ⟨ht, -⟩, c, hc, -, hne, rfl⟩ := h
  have hd : fld w 18 5 = c.code * 8 + (b3 w 18).toNat := by
    rw [← hc, b3_toNat]
    exact fld_split w 18 3 2
  have hpd : b3 w 18 ≠ 0 := fun h0 => hne (by rw [← b3_toNat, h0]; rfl)
  exact Encodes.of_bv ⟨bne_iff_ne.2 hpd, rfl, rfl⟩ hw hd (r5_toNat ..).symm (r5_toNat ..).symm ht (b3_toNat ..).symm

theorem encodes_of_decVsel (hw : OfMajor w 1 0x2E) (h : decVsel w = .ok i) : Encodes i w := by
  simp only [decVsel, bind_eq_ok, need_eq_ok, decide_eq_true_eq] at h
  obtain ⟨-, hlt, h⟩ := h
  exact encodes_v3 hw (fld_eq_boolCode_bit hlt) h fun _ _ _ _ => ⟨rfl, rfl, rfl⟩

theorem encodes_of_decVcvt (hw : OfMajor w 1 0x2F) (h : decVcvt w = .ok i) : Encodes i w := by
  simp only [decVcvt, bind_eq_ok, need_eq_ok, code?_eq_ok, VTy.ofCode_eq_some, Except.ok.injEq] at h
  obtain ⟨s, hs, d, hd, -, hne, rfl⟩ := h
  exact Encodes.of_vec2 ⟨hne, rfl, rfl⟩ hw hs hd

theorem encodes_of_decVred (hw : OfMajor w 1 0x31) (h : decVred w = .ok i) : Encodes i w := by
  unfold decVred at h
  split at h
  next hq => exact encodes_v2t hw hq h fun _ _ _ _ _ => ⟨rfl, rfl, rfl⟩
  next hq => exact encodes_v2t hw hq h fun _ _ _ _ _ => ⟨rfl, rfl, rfl⟩
  next hq => exact encodes_v2t hw hq h fun _ _ _ _ _ => ⟨rfl, rfl, rfl⟩
  next hq =>
    simp only [bind_eq_ok, need_eq_ok, beq_iff_eq, Except.ok.injEq] at h
    obtain ⟨-, h0, rfl⟩ := h
    exact Encodes.of_vec2 ⟨rfl, rfl, rfl⟩ hw hq h0
  next => cases h

/-- The minor of an operation above a width bit (R341). -/
theorem width_minor {q : Nat} (hq : fld w 4 4 = q) : fld w 3 5 = 2 * q + boolCode (bit w 3) := by
  rw [← hq, boolCode_bit, Nat.mul_comm]
  exact fld_split w 3 1 4

theorem encodes_of_decVperm (hw : OfMajor w 1 0x32) (h : decVperm w = .ok i) : Encodes i w := by
  unfold decVperm at h
  split at h
  next hq => exact encodes_v3 hw ((width_minor hq).trans (Nat.zero_add _)) h fun _ _ _ _ => ⟨rfl, rfl, rfl⟩
  next hq => exact encodes_v3 hw (width_minor hq) h fun _ _ _ _ => ⟨rfl, rfl, rfl⟩
  next hq => exact encodes_v3 hw (width_minor hq) h fun _ _ _ _ => ⟨rfl, rfl, rfl⟩
  next hq => exact encodes_v3 hw (width_minor hq) h fun _ _ _ _ => ⟨rfl, rfl, rfl⟩
  next hq => exact encodes_v3 hw (width_minor hq) h fun _ _ _ _ => ⟨rfl, rfl, rfl⟩
  next hq =>
    simp only [bind_eq_ok, zero_eq_ok, Except.ok.injEq] at h
    obtain ⟨-, h13, rfl⟩ := h
    exact Encodes.of_bv ⟨rfl, rfl, rfl⟩ hw (r5_toNat ..).symm h13 (r5_toNat ..).symm (width_minor hq) (b3_toNat ..).symm
  next => cases h

theorem encodes_of_decPred (hw : OfMajor w 1 0x33) (h : decPred w = .ok i) : Encodes i w := by
  simp only [decPred, bind_eq_ok, need_eq_ok, zero_eq_ok, decide_eq_true_eq, bne_iff_ne] at h
  obtain ⟨-, hlt, -, h0, -, h21, -, h16, -, h11, -, hne, h⟩ := h
  have hpd : (b3 w 18 != 0) = true := bne_iff_ne.2 fun hz => hne (by rw [← b3_toNat, hz]; rfl)
  have hd : fld w 18 5 = (b3 w 18).toNat := (fld_of_high_zero w 18 3 2 h21).trans (b3_toNat ..).symm
  have ha : fld w 13 5 = (b3 w 13).toNat := (fld_of_high_zero w 13 3 2 h16).trans (b3_toNat ..).symm
  have hb : fld w 8 5 = (b3 w 8).toNat := (fld_of_high_zero w 8 3 2 h11).trans (b3_toNat ..).symm
  split at h
  next hm => cases h; exact Encodes.of_bv ⟨hpd, rfl, rfl⟩ hw hd ha hb hm h0
  next hm => cases h; exact Encodes.of_bv ⟨hpd, rfl, rfl⟩ hw hd ha hb hm h0
  next hm0 hm1 =>
    simp only [bind_eq_ok, zero_eq_ok, Except.ok.injEq] at h
    obtain ⟨-, h8, rfl⟩ := h
    have hm : fld w 3 5 = 2 := by
      simp only [imp_false] at hm0 hm1
      omega
    exact Encodes.of_bv ⟨hpd, rfl, rfl⟩ hw hd ha (hb.trans ((b3_toNat w 8).trans h8)) hm h0

/-! ### Tiles -/

theorem encodes_of_decMgang (hw : OfMajor w 1 0x38) (h : decMgang w = .ok i) : Encodes i w := by
  simp only [decMgang, bind_eq_ok, zero_eq_ok] at h
  obtain ⟨-, hlow, -, h4, g, hg, h⟩ := h
  obtain ⟨hab, hac, hok⟩ := group_eq_ok.1 hg
  have h7 : fld w 4 3 = 4 * fld w 6 1 + 2 * boolCode (bit w 5) := by
    rw [boolCode_bit]
    simp only [fld] at *
    omega
  split at h
  next hs =>
    cases h
    have hm : fld w 4 3 = 4 + 2 * boolCode (bit w 5) := by rw [h7, hs]
    exact Encodes.of_bm ⟨hok, rfl, rfl⟩ hw hab hac (b3_toNat ..).symm (ofNat_fld_toNat ..).symm (r5_toNat ..).symm hm hlow
  next hs =>
    simp only [bind_eq_ok, zero_eq_ok, Except.ok.injEq] at h
    obtain ⟨-, h15, rfl⟩ := h
    have hdp : fld w 12 4 = (b3 w 12).toNat := (fld_of_high_zero w 12 3 1 h15).trans (b3_toNat ..).symm
    have hm : fld w 4 3 = 2 * boolCode (bit w 5) := by
      have hlt := fld_lt w 6 1
      omega
    exact Encodes.of_bm ⟨hok, rfl, rfl⟩ hw hab hac (b3_toNat ..).symm hdp (r5_toNat ..).symm hm hlow

theorem encodes_of_decMhouse (hw : OfMajor w 1 0x39) (h : decMhouse w = .ok i) : Encodes i w := by
  simp only [decMhouse, bind_eq_ok, zero_eq_ok] at h
  obtain ⟨-, hlow, h⟩ := h
  split at h
  next hm =>
    simp only [bind_eq_ok, zero_eq_ok, Except.ok.injEq] at h
    obtain ⟨-, h16, -, h12, -, h7, g, hg, rfl⟩ := h
    obtain ⟨hab, hac, hok⟩ := group_eq_ok.1 hg
    exact Encodes.of_bm ⟨hok, rfl, rfl⟩ hw hab hac h16 h12 h7 hm hlow
  next hm =>
    simp only [bind_eq_ok, zero_eq_ok, Except.ok.injEq] at h
    obtain ⟨-, h18, -, h12, -, h7, g, hg, rfl⟩ := h
    obtain ⟨hab, hac, hok⟩ := group_eq_ok.1 hg
    have ht : fld w 16 3 = (BitVec.ofNat 2 (fld w 16 2)).toNat := (fld_of_high_zero w 16 2 1 h18).trans (ofNat_fld_toNat ..).symm
    exact Encodes.of_bm ⟨hok, rfl, rfl⟩ hw hab hac ht h12 h7 hm hlow
  next hm =>
    simp only [bind_eq_ok, zero_eq_ok, Except.ok.injEq] at h
    obtain ⟨-, h7, rfl⟩ := h
    refine Encodes.of_bm (ab := 0) (ac := 0) (t := 0) (dp := 0) (nr := 0) ⟨rfl, rfl, rfl⟩ hw ?_ ?_ ?_ ?_ ?_ hm hlow <;>
      (simp only [fld] at *; omega)
  next hm =>
    simp only [bind_eq_ok, zero_eq_ok, Except.ok.injEq] at h
    obtain ⟨-, h16, -, h7, g, hg, rfl⟩ := h
    obtain ⟨hab, hac, hok⟩ := group_eq_ok.1 hg
    exact Encodes.of_bm ⟨hok, rfl, rfl⟩ hw hab hac h16 (ofNat_fld_toNat ..).symm h7 hm hlow
  next => cases h

theorem encodes_of_decMdrain (hw : OfMajor w 1 0x3A) (h : decMdrain w = .ok i) : Encodes i w := by
  simp only [decMdrain, bind_eq_ok, zero_eq_ok, code?_eq_ok, Rm.ofCode_eq_some, Except.ok.injEq] at h
  obtain ⟨-, hlow, -, h16, r, hr, g, hg, rfl⟩ := h
  obtain ⟨hab, hac, hok⟩ := group_eq_ok.1 hg
  exact Encodes.of_bm ⟨hok, rfl, rfl⟩ hw hab hac h16 (ofNat_fld_toNat ..).symm (r5_toNat ..).symm hr hlow

theorem encodes_of_decQuant (hw : OfMajor w 1 0x3B) (h : decQuant w = .ok i) : Encodes i w := by
  unfold decQuant at h
  split at h
  next hm => cases h; exact Encodes.of_vec ⟨rfl, rfl, rfl⟩ hw hm
  next hm =>
    simp only [bind_eq_ok, code?_eq_ok, BlkFmt.ofCode_eq_some, Except.ok.injEq] at h
    obtain ⟨f, hf, rfl⟩ := h
    exact Encodes.of_vec2 ⟨rfl, rfl, rfl⟩ hw hf hm
  next hm =>
    simp only [bind_eq_ok, code?_eq_ok, BlkFmt.ofCode_eq_some, Except.ok.injEq] at h
    obtain ⟨f, hf, rfl⟩ := h
    exact Encodes.of_vec2 ⟨rfl, rfl, rfl⟩ hw hf hm
  next => cases h

theorem encodes_of_decNopB (hw : OfMajor w 1 0x3F) (h : decNopB w = .ok i) : Encodes i w := by
  simp only [decNopB, bind_eq_ok, need_eq_ok, zero_eq_ok, beq_iff_eq, Except.ok.injEq] at h
  obtain ⟨-, hm, -, hrest, rfl⟩ := h
  refine Encodes.of_br (x := 0) (y := 0) (z := 0) ⟨rfl, rfl, rfl⟩ hw ?_ ?_ ?_ hm <;> (simp only [fld] at *; omega)

/-- Class B, by major (Table 12.11a). -/
theorem encodes_of_decB (hlt : w < 2 ^ 30) (hcls : fld w 29 1 = 1) (h : decB w = .ok i) : Encodes i w := by
  unfold decB at h
  split at h
  next hmaj => exact encodes_of_decInt ⟨hlt, hcls, hmaj⟩ h
  next hmaj => exact encodes_of_decLogic ⟨hlt, hcls, hmaj⟩ h
  next hmaj => exact encodes_of_decUnary ⟨hlt, hcls, hmaj⟩ h
  next hmaj => exact encodes_of_decLi ⟨hlt, hcls, hmaj⟩ h
  next hmaj => exact encodes_immediate ⟨hlt, hcls, hmaj⟩ h fun _ _ _ => ⟨rfl, rfl, rfl⟩
  next hmaj => exact encodes_extension ⟨hlt, hcls, hmaj⟩ h fun _ _ _ hok => ⟨hok, rfl, rfl⟩
  next hmaj => exact encodes_extension ⟨hlt, hcls, hmaj⟩ h fun _ _ _ hok => ⟨hok, rfl, rfl⟩
  next hmaj => exact encodes_bitField ⟨hlt, hcls, hmaj⟩ h fun _ _ _ _ hok => ⟨hok, rfl, rfl⟩
  next hmaj => exact encodes_immediate ⟨hlt, hcls, hmaj⟩ h fun _ _ _ => ⟨rfl, rfl, rfl⟩
  next hmaj => exact encodes_bitField ⟨hlt, hcls, hmaj⟩ h fun _ _ _ _ hok => ⟨hok, rfl, rfl⟩
  next hmaj => exact encodes_immediate ⟨hlt, hcls, hmaj⟩ h fun _ _ _ => ⟨rfl, rfl, rfl⟩
  next hmaj => exact encodes_of_decPtr ⟨hlt, hcls, hmaj⟩ h
  next hmaj => exact encodes_of_decFArith h ⟨hlt, hcls, hmaj⟩
  next hmaj => exact encodes_of_decFArith h ⟨hlt, hcls, hmaj⟩
  next hmaj => exact encodes_of_decFDiv h ⟨hlt, hcls, hmaj⟩
  next hmaj => exact encodes_of_decFDiv h ⟨hlt, hcls, hmaj⟩
  next hmaj => exact encodes_of_decFMisc h ⟨hlt, hcls, hmaj⟩
  next hmaj => exact encodes_of_decFMisc h ⟨hlt, hcls, hmaj⟩
  next hmaj => exact encodes_of_decFcvt ⟨hlt, hcls, hmaj⟩ h
  next hmaj => exact encodes_v3t ⟨hlt, hcls, hmaj⟩ h fun _ _ _ _ _ _ => ⟨rfl, rfl, rfl⟩
  next hmaj => exact encodes_v3t ⟨hlt, hcls, hmaj⟩ h fun _ _ _ _ _ _ => ⟨rfl, rfl, rfl⟩
  next hmaj => exact encodes_v3t ⟨hlt, hcls, hmaj⟩ h fun _ _ _ _ _ _ => ⟨rfl, rfl, rfl⟩
  next hmaj => exact encodes_v3t ⟨hlt, hcls, hmaj⟩ h fun _ _ _ _ _ _ => ⟨rfl, rfl, rfl⟩
  next hmaj => exact encodes_v3t ⟨hlt, hcls, hmaj⟩ h fun _ _ _ _ _ _ => ⟨rfl, rfl, rfl⟩
  next hmaj => exact encodes_v4 ⟨hlt, hcls, hmaj⟩ h fun _ _ _ _ _ => ⟨rfl, rfl, rfl⟩
  next hmaj => exact encodes_v4 ⟨hlt, hcls, hmaj⟩ h fun _ _ _ _ _ => ⟨rfl, rfl, rfl⟩
  next hmaj => exact encodes_v4 ⟨hlt, hcls, hmaj⟩ h fun _ _ _ _ _ => ⟨rfl, rfl, rfl⟩
  next hmaj => exact encodes_v4 ⟨hlt, hcls, hmaj⟩ h fun _ _ _ _ _ => ⟨rfl, rfl, rfl⟩
  next hmaj => exact encodes_v4 ⟨hlt, hcls, hmaj⟩ h fun _ _ _ _ _ => ⟨rfl, rfl, rfl⟩
  next hmaj => exact encodes_v4 ⟨hlt, hcls, hmaj⟩ h fun _ _ _ _ _ => ⟨rfl, rfl, rfl⟩
  next hmaj => exact encodes_of_decVUnary ⟨hlt, hcls, hmaj⟩ h
  next hmaj => exact encodes_of_decVLogic ⟨hlt, hcls, hmaj⟩ h
  next hmaj => exact encodes_of_decVcmp ⟨hlt, hcls, hmaj⟩ h
  next hmaj => exact encodes_of_decVsel ⟨hlt, hcls, hmaj⟩ h
  next hmaj => exact encodes_of_decVcvt ⟨hlt, hcls, hmaj⟩ h
  next hmaj => exact encodes_v3t ⟨hlt, hcls, hmaj⟩ h fun _ _ _ _ _ hok => ⟨hok, rfl, rfl⟩
  next hmaj => exact encodes_of_decVred ⟨hlt, hcls, hmaj⟩ h
  next hmaj => exact encodes_of_decVperm ⟨hlt, hcls, hmaj⟩ h
  next hmaj => exact encodes_of_decPred ⟨hlt, hcls, hmaj⟩ h
  next hmaj => exact encodes_of_decMgang ⟨hlt, hcls, hmaj⟩ h
  next hmaj => exact encodes_of_decMhouse ⟨hlt, hcls, hmaj⟩ h
  next hmaj => exact encodes_of_decMdrain ⟨hlt, hcls, hmaj⟩ h
  next hmaj => exact encodes_of_decQuant ⟨hlt, hcls, hmaj⟩ h
  next hmaj => exact encodes_of_decNopB ⟨hlt, hcls, hmaj⟩ h
  next => cases h

end

end Sys2Proof
end

section
/-! Decoding and encoding agree (O60). -/

namespace Sys2Proof
open Machine

theorem encodes_of_decodeWord {i : Instr} {w : Nat} (hw : w < 2 ^ 30) (h : decodeWord w = .ok i) : Encodes i w := by
  unfold decodeWord at h
  split at h
  next hcls => exact encodes_of_decA hw hcls h
  next hcls =>
    have hlt := fld_lt w 29 1
    exact encodes_of_decB hw (by omega) h

/-- The L and S bits of a slot's word are read back, and the rest decodes as without them. -/
theorem decodeSlot_encodeSlot {i : Instr} {w : Nat} (he : encode i = some w) (hd : Decodes i w) (lone sw : Bool) :
    (encodeSlot { lone := lone, sw := sw, instr := i }).map decodeSlot = some (.ok { lone := lone, sw := sw, instr := i }) := by
  obtain ⟨hlt, hdec⟩ := hd
  have hl := boolCode_lt lone
  have hs := boolCode_lt sw
  have hword : boolCode lone * 2 ^ 31 + boolCode sw * 2 ^ 30 + w = (2 * boolCode lone + boolCode sw) * 2 ^ 30 + w := by omega
  have h31 : bit (boolCode lone * 2 ^ 31 + boolCode sw * 2 ^ 30 + w) 31 = lone := bit_of_fld (by simp only [fld]; omega)
  have h30 : bit (boolCode lone * 2 ^ 31 + boolCode sw * 2 ^ 30 + w) 30 = sw := bit_of_fld (by simp only [fld]; omega)
  rw [encodeSlot, he, Option.map_some, Option.map_some, decodeSlot, h31, h30, hword, hdec]
  rfl

/-- Settles O60: an encoding decodes by the lemma of its form, and what a word decodes to encodes to it by the lemma of its
decoder. -/
theorem roundTrip : Obligations.RoundTrip := by
  refine ⟨fun x w hwf hcan he => ?_, fun w x hw h => encodes_of_decodeWord hw h⟩
  obtain ⟨hlt, hdec⟩ := decodes_of_encode hwf hcan he
  refine ⟨hlt, ?_, fun lone sw => decodeSlot_encodeSlot he ⟨hlt, hdec⟩ lone sw⟩
  simpa using hdec 0

end Sys2Proof
end

section
/-! Words of several families, decoded (O59). -/

namespace Sys2Proof.Machine

/-- Settles O59: each word evaluates to its instruction, or to a refusal with its reason. -/
theorem decodeWords : Obligations.DecodeWords := by
  refine ⟨rfl, rfl, rfl, rfl, rfl, rfl, rfl, rfl, rfl, rfl, rfl, rfl, rfl, rfl, ?_⟩
  simp only [List.forall_mem_cons, List.not_mem_nil, false_imp_iff, implies_true, and_true]
  exact ⟨⟨.minor, rfl⟩, ⟨_, rfl⟩, ⟨_, rfl⟩, ⟨_, rfl⟩⟩

end Sys2Proof.Machine
end

section
/-! SUPPORT. The integer words (O1, O2, O4): what a form of one or of two sources pushes, and the results as the spec writes them. -/

namespace Sys2Proof.Machine

/-! ### Results (R264 to R267) -/

theorem mulhI_eq (a b : Word) : mulhI a b = (a.signExtend 128 * b.signExtend 128).extractLsb' 64 64 := by
  apply BitVec.eq_of_toNat_eq
  rw [mulhI, BitVec.signExtend, BitVec.signExtend, ← BitVec.ofInt_mul, BitVec.extractLsb'_toNat, BitVec.toNat_ofInt, BitVec.toNat_ofInt,
    Nat.shiftRight_eq_div_pow]
  generalize a.toInt * b.toInt = p
  omega

theorem mulhN_eq (a b : Word) : mulhN a b = (a.setWidth 128 * b.setWidth 128).extractLsb' 64 64 := by
  have hprod : a.toNat * b.toNat < 2 ^ 128 := (Nat.mul_lt_mul'' a.isLt b.isLt).trans_eq (by decide)
  apply BitVec.eq_of_toNat_eq
  simp only [mulhN, BitVec.extractLsb'_toNat, BitVec.toNat_mul, BitVec.toNat_setWidth, BitVec.toNat_ofNat, Nat.shiftRight_eq_div_pow,
    ← Nat.mul_mod, Nat.mod_eq_of_lt hprod]

theorem minI_eq (a b : Word) : (if a.slt b then a else b) = if a.toInt ≤ b.toInt then a else b := by
  simp only [BitVec.slt_iff_toInt_lt]
  obtain h | h | h := Int.lt_trichotomy a.toInt b.toInt
  · rw [if_pos h, if_pos h.le]
  · rw [BitVec.toInt_inj.1 h, ite_self, ite_self]
  · rw [if_neg h.asymm, if_neg (Int.not_le.2 h)]

theorem maxI_eq (a b : Word) : (if a.slt b then b else a) = if b.toInt ≤ a.toInt then a else b := by
  simp only [BitVec.slt_iff_toInt_lt, ← Int.not_lt, ite_not]

theorem minN_eq (a b : Word) : (if a.ult b then a else b) = if a.toNat ≤ b.toNat then a else b := by
  simp only [BitVec.ult_iff_toNat_lt]
  obtain h | h | h := Nat.lt_trichotomy a.toNat b.toNat
  · rw [if_pos h, if_pos h.le]
  · rw [BitVec.eq_of_toNat_eq h, ite_self, ite_self]
  · rw [if_neg h.asymm, if_neg (Nat.not_le.2 h)]

theorem maxN_eq (a b : Word) : (if a.ult b then b else a) = if b.toNat ≤ a.toNat then a else b := by
  simp only [BitVec.ult_iff_toNat_lt, ← Nat.not_lt, ite_not]

theorem cmp3_eq {a b : Word} {lt : Bool} {p : Prop} [Decidable p] (h : lt = true ↔ p) :
    cmp3 lt (a == b) = if p then -1 else if a = b then 0 else 1 := by
  simp only [cmp3, h, beq_iff_eq]
  rfl

theorem abs_eq (a : Word) : (if a.msb then -a else a) = BitVec.ofNat 64 a.toInt.natAbs := by
  cases h : a.msb
  · rw [BitVec.toInt_eq_toNat_of_msb h]
    simp
  · have hneg : ((a.toInt.natAbs : Nat) : Int) = -a.toInt := Int.ofNat_natAbs_of_nonpos (BitVec.toInt_neg_of_msb_true h).le
    rw [if_pos rfl, ← BitVec.ofInt_natCast, hneg, BitVec.ofInt_neg, BitVec.ofInt_toInt]

/-! ### Counts of bits (R267) -/

/-- The count of leading zeros is the place of the highest one. -/
theorem clzN_spec (x n : Nat) (hx : x < 2 ^ n) : clzN x n ≤ n ∧ x < 2 ^ (n - clzN x n) ∧ (x ≠ 0 → 2 ^ (n - 1 - clzN x n) ≤ x) := by
  induction n with
  | zero => simp_all [clzN]
  | succ n ih =>
    rw [clzN]
    rw [Nat.pow_succ] at hx
    by_cases hlow : x < 2 ^ n
    · obtain ⟨hle, hlt, hge⟩ := ih hlow
      rw [Nat.div_eq_of_lt hlow, if_neg (by decide)]
      refine ⟨by omega, by rwa [Nat.add_sub_add_right], fun h0 => ?_⟩
      rw [show n + 1 - 1 - (clzN x n + 1) = n - 1 - clzN x n by omega]
      exact hge h0
    · have hone : x / 2 ^ n = 1 := Nat.div_eq_of_lt_le (by omega) (by omega)
      rw [hone, if_pos rfl]
      exact ⟨by omega, by rwa [Nat.sub_zero, Nat.pow_succ], fun _ => Nat.not_lt.1 hlow⟩

/-- The count of trailing zeros is the place of the lowest one, or all the bits that are looked at. -/
theorem ctzN_spec (x n : Nat) : ctzN x n ≤ n ∧ x % 2 ^ ctzN x n = 0 ∧ (ctzN x n < n → x.testBit (ctzN x n) = true) := by
  induction n generalizing x with
  | zero => simp [ctzN, Nat.mod_one]
  | succ n ih =>
    rw [ctzN]
    by_cases hodd : x % 2 = 1
    · rw [if_pos hodd]
      exact ⟨by omega, Nat.mod_one x, fun _ => by simp [hodd]⟩
    · obtain ⟨hle, hmod, hbit⟩ := ih (x / 2)
      rw [if_neg hodd]
      refine ⟨by omega, ?_, fun h => ?_⟩
      · rw [Nat.pow_succ', Nat.mod_mul, hmod]
        omega
      · rw [Nat.testBit_succ]
        exact hbit (by omega)

/-- With a one among the bits the count stops at it; with none it runs to the end. -/
theorem ctzN_lt_iff (x n : Nat) (hx : x < 2 ^ n) : ctzN x n < n ↔ x ≠ 0 := by
  obtain ⟨hle, hmod, hbit⟩ := ctzN_spec x n
  constructor
  · rintro h rfl
    simpa using hbit h
  · intro h0
    by_contra hge
    rw [Nat.le_antisymm hle (Nat.not_lt.1 hge), Nat.mod_eq_of_lt hx] at hmod
    exact h0 hmod

theorem popN_eq (x n : Nat) : popN x n = (List.range n).countP fun j => x.testBit j := by
  induction n generalizing x with
  | zero => rfl
  | succ n ih =>
    rw [popN, ih, List.range_succ_eq_map, List.countP_cons, List.countP_map, Nat.add_comm]
    congr 1
    · exact List.countP_congr fun j _ => by simp [Nat.testBit_succ]
    · simp only [Nat.testBit_zero, decide_eq_true_eq]
      split <;> omega

/-! ### Quotients and remainders (R265) -/

theorem divI_eq (a b : Word) : divI a b = (if b = 0 then BitVec.allOnes 64 else a.sdiv b, if b = 0 then fDZ else 0) := by
  unfold divI
  split
  · rfl
  · congr 1
    exact BitVec.eq_of_toInt_eq (by rw [BitVec.toInt_ofInt, BitVec.toInt_sdiv])

theorem remI_eq (a b : Word) : remI a b = (if b = 0 then a else a.srem b, if b = 0 then fDZ else 0) := by
  unfold remI
  split
  · rfl
  · rw [← BitVec.toInt_srem, BitVec.ofInt_toInt]

theorem divN_eq (a b : Word) : divN a b = (if b = 0 then BitVec.allOnes 64 else a / b, if b = 0 then fDZ else 0) := by
  unfold divN
  split
  · rfl
  · rw [← BitVec.toNat_udiv, BitVec.ofNat_toNat, BitVec.setWidth_eq]

theorem remN_eq (a b : Word) : remN a b = (if b = 0 then a else a % b, if b = 0 then fDZ else 0) := by
  unfold remN
  split
  · rfl
  · rw [← BitVec.toNat_umod, BitVec.ofNat_toNat, BitVec.setWidth_eq]

/-! ### The words -/

section Words

variable {s : State} {i : Issue} {x y : Src} {k : Keep} {a b : Word} (hi : s.issue = some i) (hx : readSrc i x = .ok a)
include hi hx

/-- A word of one source pushes the result of its function, as the rule writes it. -/
theorem finish_form1_eq {f : Word → Word} {w : Word} (hw : f a = w) : finish s (form1 s x k f) = .next (s.push i w k) := by
  rw [form1_ok k f hi hx, hw, finish_ok]

theorem finish_form2_eq (hy : readSrc i y = .ok b) {f : Word → Word → Word} {w : Word} (hw : f a b = w) :
    finish s (form2 s x y k f) = .next (s.push i w k) := by
  rw [form2_ok k f hi hx hy, hw, finish_ok]

theorem exec_neg : exec (.neg x k) s = .next (s.push i (0 - a) k) := finish_form1_eq hi hx (BitVec.zero_sub a).symm
theorem exec_abs : exec (.abs x k) s = .next (s.push i (BitVec.ofNat 64 a.toInt.natAbs) k) := finish_form1_eq hi hx (abs_eq a)
theorem exec_not : exec (.not x k) s = .next (s.push i (~~~a) k) := finish_form1_eq hi hx rfl
theorem exec_popc : exec (.popc x k) s =
    .next (s.push i (BitVec.ofNat 64 ((List.range 64).countP fun j => a.getLsbD j)) k) :=
  finish_form1_eq hi hx (congrArg _ (popN_eq a.toNat 64))

theorem exec_clz : ∃ n : Nat, exec (.clz x k) s = .next (s.push i (BitVec.ofNat 64 n) k) ∧ n ≤ 64 ∧ a.toNat < 2 ^ (64 - n) ∧
    (a ≠ 0 → 2 ^ (63 - n) ≤ a.toNat) := by
  obtain ⟨hle, hlt, hge⟩ := clzN_spec a.toNat 64 a.isLt
  exact ⟨_, finish_form1_eq hi hx rfl, hle, hlt, fun h0 => hge (toNat_ne_zero h0)⟩

theorem exec_ctz : ∃ n : Nat, exec (.ctz x k) s = .next (s.push i (BitVec.ofNat 64 n) k) ∧ n ≤ 64 ∧ a.toNat % 2 ^ n = 0 ∧
    (a ≠ 0 → n < 64 ∧ a.getLsbD n = true) ∧ (a = 0 → n = 64) := by
  obtain ⟨hle, hmod, hbit⟩ := ctzN_spec a.toNat 64
  have hone := ctzN_lt_iff a.toNat 64 a.isLt
  refine ⟨_, finish_form1_eq hi hx rfl, hle, hmod, fun h0 => ?_, ?_⟩
  · have hlt := hone.2 (toNat_ne_zero h0)
    exact ⟨hlt, hbit hlt⟩
  · rintro rfl
    exact Nat.le_antisymm hle (Nat.not_lt.1 fun hlt => hone.1 hlt rfl)

end Words

/-! ### The obligations -/

/-- Settles O1: each word reads its sources and pushes, with its result by the equations above. -/
theorem binaryResults : Obligations.BinaryResults := by
  intro s i x y k a b hi hx hy
  have two {f : Word → Word → Word} {w : Word} (hw : f a b = w) : finish s (form2 s x y k f) = .next (s.push i w k) :=
    finish_form2_eq hi hx hy hw
  exact ⟨two rfl, two rfl, two rfl, two (mulhI_eq a b), two (mulhN_eq a b), two (minI_eq a b), two (minN_eq a b), two (maxI_eq a b),
    two (maxN_eq a b), two (cmp3_eq BitVec.slt_iff_toInt_lt), two (cmp3_eq BitVec.ult_iff_toNat_lt), two rfl, two rfl, two rfl, two rfl,
    two rfl, two rfl, two rfl, two rfl, exec_neg hi hx, exec_abs hi hx, exec_not hi hx, exec_popc hi hx, exec_clz hi hx, exec_ctz hi hx⟩

/-- A word of the unary major with a nonzero y field is no instruction (R246, R267). -/
theorem decodeWord_unary_reserved {w : Nat} (hcls : fld w 29 1 = 1) (hmaj : fld w 23 6 = 2) (hy : fld w 11 6 ≠ 0) :
    ∃ r, decodeWord w = .error r := by
  have hone (f : Src → Keep → Instr) : br1 w f = .error .reserved := by
    have hz : zero w 11 6 = .error .reserved := by simp [zero, need, hy]
    rw [br1, hz, error_bind]
  have hdec : decodeWord w = decUnary w := by
    rw [decodeWord, if_neg (by omega), decB, hmaj]
    rfl
  rw [hdec, decUnary]
  simp only [hone]
  split <;> exact ⟨_, rfl⟩

/-- Settles O2: the words push by their equations, and a reserved field is refused before anything else is checked. -/
theorem unaryResults : Obligations.UnaryResults := by
  refine ⟨fun s i x k a hi hx => ⟨exec_neg hi hx, exec_abs hi hx, exec_not hi hx, exec_clz hi hx, exec_ctz hi hx, exec_popc hi hx⟩,
    fun w hcls hmaj hy => ?_, fun s i w hi => exec_encodingNotInstruction hi w⟩
  obtain ⟨r, hr⟩ := decodeWord_unary_reserved hcls hmaj hy
  exact ⟨⟨r, hr⟩, fun s i => by rw [wordChecks, hr]⟩

/-- Settles O4: a pending form delivers what its function gives at issue. -/
theorem divisionForms : Obligations.DivisionForms := by
  intro s i x y k a b hi hx hy gives
  have later {e : Instr} {f : Word → Word → Word × Word} {w fl : Word} (harm : exec e s = finish s (form2Later s x y k 36 f))
      (hf : f a b = (w, fl)) : gives e w fl := by
    refine ⟨s.pushLater i w fl k 36, ?_, rfl, hi, ?_⟩
    · rw [harm, form2Later_ok k 36 f hi hx hy, hf, finish_ok]
    · exact congrArg (Option.map Txn.op) (issuePend_txn ..)
  exact ⟨later rfl (divI_eq a b), later rfl (divN_eq a b), later rfl (remI_eq a b), later rfl (remN_eq a b)⟩

end Sys2Proof.Machine
end

section
/-! SUPPORT. The latch (log entry 7): the operations that take a fault, dispose of a record or end a process leave the word in issue as it is,
so that after a fault at a word the latch is empty, and a word that issued is one that completed. -/

namespace Sys2Proof.Machine

section Latch

variable (s : State) (k : Nat)

theorem foldl_issue {α : Type} {f : State → α → State} (hf : ∀ s a, (f s a).issue = s.issue) (l : List α) :
    (l.foldl f s).issue = s.issue := by
  induction l generalizing s with
  | nil => rfl
  | cons a l ih => exact (ih (f s a)).trans (hf s a)

/-- Both branches leave it. -/
theorem ite_issue {c : Prop} [Decidable c] {t u : State} {o : Option Issue} (ht : t.issue = o) (hu : u.issue = o) :
    (if c then t else u).issue = o := by
  split
  · exact ht
  · exact hu

/-! ### The scheduler's queues -/

@[simp] theorem dequeue_issue : (s.dequeue k).issue = s.issue := rfl
@[simp] theorem enqueue_issue (head : Bool) : (s.enqueue k head).issue = s.issue := rfl

@[simp] theorem leaveCtx_issue : (s.leaveCtx k).issue = s.issue := by
  obtain ⟨_, _, h⟩ := leaveCtx_frame s k
  rw [h]

@[simp] theorem freeCtx_issue : (s.freeCtx k).issue = s.issue := by
  unfold State.freeCtx
  dsimp only
  split <;> simp

@[simp] theorem newEpisode_issue : (s.newEpisode k).issue = s.issue := by
  unfold State.newEpisode
  dsimp only
  split <;> simp

@[simp] theorem ready_issue (head : Bool) : (s.ready k head).issue = s.issue := by
  unfold State.ready
  dsimp only
  split_ifs <;> simp

@[simp] theorem blockLate_issue (w : Wait) (obj : W32) (d : Word) : (s.blockLate k w obj d).issue = s.issue := by
  unfold State.blockLate
  dsimp only
  split
  · exact (block_spec s k w obj d).1
  · exact (block_spec s k w obj d).1
  · simp
  · simp
  · split <;> simp
  · rfl

@[simp] theorem waitAgain_issue : (s.waitAgain k).issue = s.issue := by
  unfold State.waitAgain
  split <;> simp

/-! ### Records and images -/

@[simp] theorem writeRec_issue (r : FRec) : (s.writeRec r).1.issue = s.issue := rfl

@[simp] theorem lateImg_issue : (s.lateImg k).issue = s.issue := by
  unfold State.lateImg State.writeImg
  dsimp only
  split_ifs <;> rfl

@[simp] theorem failThread_issue (t : Trap) (loc : Word) (b : Bool) : (s.failThread k t loc b).issue = s.issue := by
  unfold State.failThread
  dsimp only
  split
  · rfl
  · split
    · rfl
    · split <;> simp

@[simp] theorem failC_issue (t : Nat) (x : Txn) (r : FRec) : (s.failC t x r).issue = s.issue := by
  unfold State.failC
  dsimp only
  split <;> simp

@[simp] theorem rewriteRec_issue (r : FRec) : (s.rewriteRec r).issue = s.issue := by
  unfold State.rewriteRec
  dsimp only
  split <;> rfl

@[simp] theorem fillZero_issue (r : FRec) : (s.fillZero k r).issue = s.issue := by
  unfold State.fillZero
  dsimp only
  split <;> simp

/-! ### Channels -/

@[simp] theorem failWait_issue (part ch t : Nat) (kind : Kind) (addr : Word) : (s.failWait part ch t kind addr).issue = s.issue := by
  unfold State.failWait
  dsimp only
  split
  · split_ifs <;> simp
  · rfl

@[simp] theorem breakWait_issue (part ch t : Nat) : (s.breakWait part ch t).issue = s.issue := failWait_issue ..

@[simp] theorem reapChan_issue (part ch : Nat) : (s.reapChan part ch).issue = s.issue := by
  unfold State.reapChan
  split
  · rfl
  · split <;> simp

@[simp] theorem closeTx_issue (part ch : Nat) : (s.closeTx part ch k).issue = s.issue := by
  unfold State.closeTx
  dsimp only
  split
  · rfl
  · split_ifs <;> simp [foldl_issue]

@[simp] theorem closeRx_issue (part ch : Nat) : (s.closeRx part ch).issue = s.issue := by
  unfold State.closeRx
  dsimp only
  split
  · rfl
  · simp [foldl_issue]

@[simp] theorem closeAll_issue : (s.closeAll k).issue = s.issue :=
  foldl_issue s (fun s e => by dsimp only; split_ifs <;> simp) _

@[simp] theorem dropAlt_issue : (s.dropAlt k).issue = s.issue := by
  unfold State.dropAlt
  split <;> simp

/-! ### The end of a process -/

@[simp] theorem releaseMatrix_issue : (s.releaseMatrix k).issue = s.issue := by
  unfold State.releaseMatrix
  dsimp only
  split <;> simp

@[simp] theorem breakQueries_issue (core : Nat) : (s.breakQueries core).issue = s.issue :=
  foldl_issue s (fun s e => by
    dsimp only
    split
    · split <;> simp
    · rfl) _

@[simp] theorem freeBufs_issue : (s.freeBufs k).issue = s.issue := breakQueries_issue ..
@[simp] theorem resetBufs_issue : (s.resetBufs k).issue = s.issue := breakQueries_issue ..
@[simp] theorem dropWaits_issue : (s.dropWaits k).issue = s.issue := rfl
@[simp] theorem leaveTxns_issue : (s.leaveTxns k).issue = s.issue := rfl
@[simp] theorem unschedule_issue : (s.unschedule k).issue = s.issue := freeCtx_issue (s.dequeue k) k
@[simp] theorem dropResv_issue : (s.dropResv k).issue = s.issue := rfl

@[simp] theorem reserveFiring_issue : (s.reserveFiring k).issue = s.issue := by
  unfold State.reserveFiring
  exact foldl_issue s (fun s e => show (s.modChan ..).issue = s.issue from rfl) _

@[simp] theorem vacate_issue (dormant : Bool) : (s.vacate k dormant).issue = s.issue := by
  unfold State.vacate
  extract_lets l
  split
  · exact foldl_issue s (fun s j => unschedule_issue s j) l
  · rfl

@[simp] theorem endProc_issue (dormant : Bool) : (s.endProc k dormant).issue = s.issue := by
  unfold State.endProc
  dsimp only
  split_ifs <;> simp

/-! ### Escalation -/

@[simp] theorem killInst_issue : (s.killInst k).issue = s.issue := by
  unfold State.killInst
  dsimp only
  rw [State.modInst_issue]
  exact foldl_issue s (fun s e => by split <;> simp) _

@[simp] theorem toFirmware_issue (id : Nat) : (s.toFirmware id).issue = s.issue := by
  unfold State.toFirmware
  dsimp only
  split <;> simp

theorem putSlot_issue (part ch sender : Nat) (bs : List Byte) : (s.putSlot part ch sender bs).issue = s.issue := by
  unfold State.putSlot
  dsimp only
  split <;> rfl

theorem post_issue (part ch : Nat) (bs : List Byte) : OptAll (fun t => t.issue = s.issue) (s.post part ch bs) := by
  unfold State.post
  split
  · exact .none
  · refine .ite .none (.ite (.ite (.some rfl) .none) (.ite .none (.some ?_)))
    exact putSlot_issue ..

@[simp] theorem toManager_issue (id sub : Nat) : (s.toManager id sub).issue = s.issue := by
  unfold State.toManager
  dsimp only
  split
  · rfl
  · split
    · simp
    · next h =>
      split at h
      · cases h
      · simpa using post_issue _ _ _ _ _ h

@[simp] theorem escalate_issue (id sub : Nat) : (s.escalate id sub).issue = s.issue := by
  unfold State.escalate
  split
  · rfl
  · split <;> simp

@[simp] theorem endHandler_issue : (s.endHandler k).issue = s.issue := by
  unfold State.endHandler
  dsimp only
  split
  · rfl
  · split <;> simp

@[simp] theorem route_issue (id : Nat) : (s.route id).issue = s.issue := by
  unfold State.route
  dsimp only
  split
  · rfl
  · split_ifs
    · simp [foldl_issue]
    · split <;> simp
    · simp
    · simp
    · simp

@[simp] theorem file_issue (r : FRec) : (s.file r).1.issue = s.issue := by
  unfold State.file
  dsimp only
  split <;> simp

/-! ### Taking a fault and the return from it -/

@[simp] theorem takeFault_issue (r : FRec) (pc : Word) : (s.takeFault k r pc).issue = s.issue := by
  unfold State.takeFault
  dsimp only
  split
  · simp
  · split <;> simp

@[simp] theorem dispose_issue (id : Nat) (d : Disp) : (s.dispose id d).issue = s.issue := by
  unfold State.dispose
  extract_lets drop
  split
  · rfl
  extract_lets k p d' mine r1 r2 s1 s2 s3 s4 s5 s6 _ s7 s8 _
  clear_value d'
  split
  · refine ite_issue rfl ?_
    rw [waitAgain_issue, ready_issue]
    exact ite_issue (fillZero_issue ..) rfl
  · refine ite_issue rfl ?_
    have h3 : s3.issue = s.issue := (resetBufs_issue s1 k).trans (releaseMatrix_issue s k)
    have h4 : s4.issue = s.issue :=
      (leaveTxns_issue ((s3.dropAlt k).dropWaits k) k).trans ((dropWaits_issue (s3.dropAlt k) k).trans ((dropAlt_issue s3 k).trans h3))
    clear_value s4
    have h5 : s5.issue = s.issue := ite_issue ((reserveFiring_issue s4 k).trans h4) h4
    clear_value s5
    have h6 : s6.issue = s.issue := ite_issue ((unschedule_issue s5 k).trans h5) h5
    have h7 : s7.issue = s.issue := h6
    clear_value s7
    have h8 : s8.issue = s.issue := (newEpisode_issue (drop s7) k).trans h7
    clear_value s8
    refine ite_issue ?_ (ite_issue ?_ ?_)
    · exact h8
    · exact h8
    · exact h8
  · exact (endProc_issue ..).trans (endHandler_issue ..)
  · exact escalate_issue ..

end Latch

/-! ### Words that issue -/

/-- A fault at a word empties the latch. -/
theorem raise_issue {s : State} {i : Issue} (tr : Trap) (hi : s.issue = some i) : (s.raise tr).issue = none := by
  obtain ⟨ring, h⟩ := raise_some tr hi
  rw [h, takeFault_issue]

/-- The latch stands after a word only where it completed. -/
theorem finish_issued {s t : State} {i : Issue} {r : Except Abort State} (hi : s.issue = some i) (h : finish s r = .next t)
    (ht : t.issue.isSome = true) : r = .ok t := by
  have hempty {u : State} (hu : u.issue = none) (h : Host.Outcome.next u = (.next t : Host.Outcome State Fault Refusal)) : False := by
    cases h
    rw [hu] at ht
    cases ht
  cases r with
  | ok u => exact congrArg Except.ok (by cases h; rfl)
  | error e =>
    cases e with
    | trap tr => exact (hempty (raise_issue tr hi) h).elim
    | hold w => exact (hempty (by rw [holdWord_some w hi]; rfl) h).elim
    | wait => exact (hempty rfl h).elim
    | stop f => cases h

end Sys2Proof.Machine
end

section
/-! SUPPORT. What a word that completes with one push leaves as it was (O12), and the pointer words (O5). -/

namespace Sys2Proof.Machine

/-! ### What completes with one push -/

/-- The state after a push of some value. -/
def State.Pushed (s : State) (i : Issue) (k : Keep) (t : State) : Prop := ∃ w, t = s.push i w k

section Pushed

variable {s : State} {i : Issue} (hi : s.issue = some i) {x y : Src} {k : Keep}
include hi

/-- The process in issue is read from the latch. -/
theorem OkAll.cur {P : State → Prop} {f : Issue → Except Abort State} (h : OkAll P (f i)) : OkAll P (s.cur >>= f) := by
  rwa [cur_some hi, ok_bind]

theorem form1_pushed (f : Word → Word) : OkAll (s.Pushed i k) (form1 s x k f) := .cur hi (.pass fun _ => .ok ⟨_, rfl⟩)

theorem form2_pushed (f : Word → Word → Word) : OkAll (s.Pushed i k) (form2 s x y k f) :=
  .cur hi (.pass fun _ => .pass fun _ => .ok ⟨_, rfl⟩)

end Pushed

/-- Settles O12: where one of these words issues it has completed (`finish_issued`), with one push, which changes what `pushEffect` says. -/
theorem aluFrame : Obligations.AluFrame := by
  intro s t i e x y k hi he h ht
  have arm {r : Except Abort State} (hr : OkAll (s.Pushed i k) r) (h : finish s r = .next t) : s.Pushed i k t :=
    hr t (finish_issued hi h ht)
  have one {f : Word → Word} : finish s (form1 s x k f) = .next t → s.Pushed i k t := arm (form1_pushed hi f)
  have two {f : Word → Word → Word} : finish s (form2 s x y k f) = .next t → s.Pushed i k t := arm (form2_pushed hi f)
  have hpush : s.Pushed i k t := by
    obtain he | ⟨m, rfl⟩ | ⟨m, rfl | rfl | rfl | rfl | rfl⟩ | ⟨w, lo, rfl | rfl⟩ := he
    case inl =>
      revert h
      revert e
      simp only [List.forall_mem_cons, List.not_mem_nil, false_imp_iff, implies_true, and_true]
      have sel : exec (.sel x y k) s = .next t → s.Pushed i k t :=
        arm (.cur hi (.pass fun _ => .pass fun _ => .pass fun _ => .ok ⟨_, rfl⟩))
      have addp : exec (.addp x y k) s = .next t → s.Pushed i k t :=
        arm (.cur hi (.pass fun _ => .pass fun _ => .pass fun _ => .ok ⟨_, rfl⟩))
      have fmtp : exec (.fmtp x y k) s = .next t → s.Pushed i k t :=
        arm (.cur hi (.pass fun _ => .pass fun _ => .pass fun _ => .ok ⟨_, rfl⟩))
      have peer : exec (.peer x y k) s = .next t → s.Pushed i k t :=
        arm (.cur hi (.pass fun _ => .pass fun _ => .pass fun _ => .pass fun _ => .pass fun _ => .ok ⟨_, rfl⟩))
      have ptrq : exec (.ptrq x y k) s = .next t → s.Pushed i k t :=
        arm (.cur hi (.pass fun _ => .pass fun _ => .pass fun _ => .ok ⟨_, rfl⟩))
      exact ⟨two, two, two, two, two, two, two, two, two, two, two, two, two, two, two, two, two, two, two, sel, one, one, one, one, one,
        one, addp, fmtp, peer, ptrq⟩
    case inr.inl => exact arm (.cur hi (.ok ⟨_, rfl⟩)) h
    case inr.inr.inl.inl => exact one h
    case inr.inr.inl.inr.inl => exact one h
    case inr.inr.inl.inr.inr.inl => exact one h
    case inr.inr.inl.inr.inr.inr.inl => exact one h
    case inr.inr.inl.inr.inr.inr.inr => exact arm (.cur hi (.pass fun _ => .pass fun _ => .ok ⟨_, rfl⟩)) h
    case inr.inr.inr.inl => exact one h
    case inr.inr.inr.inr => exact arm (.cur hi (.pass fun _ => .pass fun _ => .ok ⟨_, rfl⟩)) h
  obtain ⟨w, rfl⟩ := hpush
  obtain ⟨-, -, -, -, hnamed, hissuer, hstate, hother⟩ := pushEffect s i w k
  exact ⟨hstate, hother, ⟨hissuer, fun r hr => (hnamed r hr).1⟩, fun _ => rfl⟩

/-! ### Fields of a fat pointer (R19) -/

theorem addOff_ok {p : Word} {delta : Int} (h : 0 ≤ (pOff p : Int) + delta ∧ (pOff p : Int) + delta < 2 ^ 51) :
    addOff p delta = .ok (BitVec.ofNat 64 (p.toNat / 2 ^ 51 * 2 ^ 51 + ((pOff p : Int) + delta).toNat)) := if_pos h

theorem addOff_error {p : Word} {delta : Int} (h : ¬ (0 ≤ (pOff p : Int) + delta ∧ (pOff p : Int) + delta < 2 ^ 51)) :
    addOff p delta = .error (.trap { kind := .fatOverflow, addr := p }) := if_neg h

/-- A pointer with another offset keeps the bits above it. -/
theorem withOffset_fields (p : Word) {off : Nat} (h : off < 2 ^ 51) {w : Word} (hw : w = BitVec.ofNat 64 (p.toNat / 2 ^ 51 * 2 ^ 51 + off)) :
    pOff w = off ∧ w.toNat / 2 ^ 51 = p.toNat / 2 ^ 51 := by
  have hp := p.isLt
  subst hw
  rw [pOff, BitVec.toNat_ofNat]
  omega

/-- A pointer packed of its four fields. -/
theorem packed_fields {sp fmt bl off : Nat} (hsp : sp < 16) (hfmt : fmt < 64) (hbl : bl < 8) (hoff : off < 2 ^ 51) {w : Word}
    (hw : w = BitVec.ofNat 64 (sp * 2 ^ 60 + fmt * 2 ^ 54 + bl * 2 ^ 51 + off)) :
    pSpace w = sp ∧ pFmt w = fmt ∧ pBl w = bl ∧ pOff w = off := by
  subst hw
  simp only [pSpace, pFmt, pBl, pOff, BitVec.toNat_ofNat]
  omega

theorem pSpace_lt (p : Word) : pSpace p < 16 := by
  have hp := p.isLt
  rw [pSpace]
  omega

theorem pOff_lt (p : Word) : pOff p < 2 ^ 51 := Nat.mod_lt _ (Nat.two_pow_pos 51)

/-- What `ptrq` asks of the fields of a pointer: a space and a format that are assigned, and a block length only with a split format (R273). -/
def ptrValid (p : Word) : Bool := decide (pSpace p < 8) && !fmtReserved (pFmt p) && (pBl p == 0 || fmtSplit (pFmt p))

theorem ptrValid_iff (p : Word) :
    ptrValid p = true ↔ pSpace p ≤ 7 ∧ fmtReserved (pFmt p) = false ∧ (pBl p = 0 ∨ fmtSplit (pFmt p) = true) := by
  simp only [ptrValid, Bool.and_eq_true, decide_eq_true_eq, Bool.not_eq_true', Bool.or_eq_true, beq_iff_eq, and_assoc, Nat.lt_succ_iff]

/-! ### The pointer words (R270 to R273) -/

section Words

variable {s : State} {i : Issue} {x y : Src} {k : Keep} {p d : Word} (hi : s.issue = some i) (hx : readSrc i x = .ok p)
include hi hx

theorem exec_addpImm (m : BitVec 11) :
    exec (.addpImm x m k) s = finish s (addOff p m.toInt >>= fun r => .ok (s.push i r k)) := by
  have harm : exec (.addpImm x m k) s = execAddpImm x m k s := rfl
  rw [harm, execAddpImm, cur_some hi, ok_bind, hx, ok_bind]

variable (hy : readSrc i y = .ok d)
include hy

theorem exec_addp : exec (.addp x y k) s = finish s (addOff p d.toInt >>= fun r => .ok (s.push i r k)) := by
  have harm : exec (.addp x y k) s = execAddp x y k s := rfl
  rw [harm, execAddp, cur_some hi, ok_bind, hx, ok_bind, hy, ok_bind]

theorem exec_fmtp (hd : d.toNat < 2 ^ 9) (hfmt : fmtReserved (d.toNat % 64) = false)
    (hbl : d.toNat / 64 = 0 ∨ fmtSplit (d.toNat % 64) = true) : exec (.fmtp x y k) s = .next (s.push i
      (BitVec.ofNat 64 (pSpace p * 2 ^ 60 + d.toNat % 64 * 2 ^ 54 + d.toNat / 64 * 2 ^ 51 + pOff p)) k) := by
  have harm : exec (.fmtp x y k) s = execFmtp x y k s := rfl
  have hcheck : (d.toNat < 2 ^ 9 && !fmtReserved (d.toNat % 64) && (d.toNat / 64 == 0 || fmtSplit (d.toNat % 64))) = true := by
    simp only [Bool.and_eq_true, decide_eq_true_eq, Bool.not_eq_true', Bool.or_eq_true, beq_iff_eq]
    exact ⟨⟨hd, hfmt⟩, hbl⟩
  simp only [harm, execFmtp, cur_some hi, hx, hy, ok_bind, hcheck, check_true, finish_ok]

theorem exec_ptrq_field (hd : d.toNat ≤ 3) : exec (.ptrq x y k) s = .next (s.push i (BitVec.ofNat 64
    (if d.toNat = 0 then p.toNat / 2 ^ 60 else if d.toNat = 1 then p.toNat / 2 ^ 54 % 64
     else if d.toNat = 2 then p.toNat / 2 ^ 51 % 8 else p.toNat % 2 ^ 51)) k) := by
  have harm : exec (.ptrq x y k) s = execPtrq x y k s := rfl
  simp only [harm, execPtrq, cur_some hi, hx, hy, ok_bind, decide_eq_true (show d.toNat ≤ 4 by omega), check_true, finish_ok]
  obtain h | h | h | h : d.toNat = 0 ∨ d.toNat = 1 ∨ d.toNat = 2 ∨ d.toNat = 3 := by omega
  all_goals (rw [h]; rfl)

theorem exec_ptrq_valid (hd : d.toNat = 4) :
    exec (.ptrq x y k) s = .next (s.push i (BitVec.ofNat 64 (if ptrValid p then 1 else 0)) k) := by
  have harm : exec (.ptrq x y k) s = execPtrq x y k s := rfl
  simp only [harm, execPtrq, cur_some hi, hx, hy, ok_bind, hd]
  rfl

theorem exec_ptrq_illegal (hd : 4 < d.toNat) :
    exec (.ptrq x y k) s = .next (s.raise { kind := .illegalOperand, addr := d }) := by
  have harm : exec (.ptrq x y k) s = execPtrq x y k s := rfl
  simp only [harm, execPtrq, cur_some hi, hx, hy, ok_bind, decide_eq_false (show ¬ d.toNat ≤ 4 by omega), check_false, error_bind,
    finish_trap]

/-- `peer` of a process that it may name, in the issuer's gang or partition. -/
theorem exec_peer {num : Nat} (hnum : peerTarget s i p = .ok num) (hd : d.toNat < 2 ^ 21)
    (hres : p.toNat < 2 ^ 63 ∨ partOf (p.toNat % 2 ^ 32) = partOf i.proc) :
    exec (.peer x y k) s = .next (s.push i (BitVec.ofNat 64 (4 * 2 ^ 60 + num * 2 ^ 21 + d.toNat)) k) := by
  have harm : exec (.peer x y k) s = execPeer x y k s := rfl
  have hcheck : (decide (p.toNat < 2 ^ 63) || partOf (p.toNat % 2 ^ 32) == partOf i.proc) = true := by simpa using hres
  simp only [harm, execPeer, cur_some hi, hx, hy, ok_bind, hnum, decide_eq_true hd, hcheck, check_true, finish_ok]

end Words

/-- A handle names its own process. -/
theorem peerTarget_handle (s : State) (i : Issue) {p : Word} (hp : 2 ^ 63 ≤ p.toNat) (hz : p.toNat / 2 ^ 32 % 2 ^ 31 = 0) :
    peerTarget s i p = .ok (numOf (p.toNat % 2 ^ 32)) := by
  rw [peerTarget, if_neg (Nat.not_lt.2 hp), hz]
  rfl

theorem peerTarget_member {s : State} {i : Issue} {p : Word} {g : Gang} {m : Nat} (hp : p.toNat < 64) (hgang : i.pre.gang ≠ 0)
    (hg : nget? s.gangs i.pre.gang = some g) (hm : g.members[p.toNat]? = some m) : peerTarget s i p = .ok (numOf m) := by
  have hcheck : (decide (p.toNat < 64) && i.pre.gang != 0) = true := by simp [hp, hgang]
  simp only [peerTarget, if_pos (show p.toNat < 2 ^ 63 by omega), hcheck, check_true, ok_bind, hg, hm]

/-- Settles O5: the words by their equations, the fields of what they push by arithmetic. -/
theorem pointerResults : Obligations.PointerResults := by
  intro s i x y k p d hi hx hy moved
  have hmoved {e : Instr} {delta : Int} (h : exec e s = finish s (addOff p delta >>= fun r => .ok (s.push i r k))) : moved e delta := by
    refine ⟨fun hin => ?_, fun hout => ?_⟩
    · rw [addOff_ok hin, ok_bind, finish_ok] at h
      obtain ⟨hoff, hrest⟩ := withOffset_fields p (off := ((pOff p : Int) + delta).toNat) (by omega) rfl
      exact ⟨_, h, by rw [hoff]; omega, hrest⟩
    · rw [h, addOff_error hout, error_bind, finish_trap]
  refine ⟨fun m => hmoved (exec_addpImm hi hx m), hmoved (exec_addp hi hx hy), fun hd hfmt hbl => ?fmtp, exec_ptrq_field hi hx hy,
    fun hd => ?valid, exec_ptrq_illegal hi hx hy, fun hd hp hz hpart => ?handle, fun g m hd hp hgang hg hm => ?member⟩
  case fmtp =>
    exact ⟨_, exec_fmtp hi hx hy hd hfmt hbl,
      packed_fields (pSpace_lt p) (Nat.mod_lt _ (by decide)) (Nat.div_lt_of_lt_mul hd) (pOff_lt p) rfl⟩
  case valid =>
    refine ⟨_, exec_ptrq_valid hi hx hy hd, ?_, ?_⟩
    · rw [← ptrValid_iff]
      cases ptrValid p <;> decide
    · cases ptrValid p <;> decide
  case handle => exact exec_peer hi hx hy (peerTarget_handle s i hp hz) hd (.inr hpart)
  case member => exact exec_peer hi hx hy (peerTarget_member hp hgang hg hm) hd (.inl (by omega))

end Sys2Proof.Machine
end

section
/-! SUPPORT. The scalar floating words (O6, O7, O8, O13): what the turn-ready forms push and the flags they add, the class of an operand by
its fields, and the comparison. -/

namespace Sys2Proof.Machine

/-! ### Classes (R281) -/

section Fields

variable {f : Fmt} {x m e : Nat} (hm : m < 2 ^ f.fbits) (he : e < 2 ^ f.ebits) (hmag : fmag f x = e * 2 ^ f.fbits + m)
include hm he hmag

/-- The magnitude of infinity is the greatest exponent with no fraction; what lies above it is a NaN. -/
theorem mag_cases : (e = 2 ^ f.ebits - 1 ∧ fmag f x = f.inf + m) ∨ (e ≠ 2 ^ f.ebits - 1 ∧ fmag f x < f.inf) := by
  rw [hmag, Fmt.inf]
  by_cases hmax : e = 2 ^ f.ebits - 1
  · exact .inl ⟨hmax, by rw [hmax]⟩
  · refine .inr ⟨hmax, ?_⟩
    calc e * 2 ^ f.fbits + m < (e + 1) * 2 ^ f.fbits := by rw [Nat.succ_mul]; omega
      _ ≤ (2 ^ f.ebits - 1) * 2 ^ f.fbits := Nat.mul_le_mul_right _ (by omega)

theorem isNaN_iff : isNaN f x = true ↔ e = 2 ^ f.ebits - 1 ∧ m ≠ 0 := by
  rw [isNaN, decide_eq_true_eq]
  obtain ⟨hmax, h⟩ | ⟨hmax, h⟩ := mag_cases hm he hmag <;> omega

theorem isInf_iff : isInf f x = true ↔ e = 2 ^ f.ebits - 1 ∧ m = 0 := by
  rw [isInf, beq_iff_eq]
  obtain ⟨hmax, h⟩ | ⟨hmax, h⟩ := mag_cases hm he hmag <;> omega

omit he in
theorem mag_lt_iff : fmag f x < 2 ^ f.fbits ↔ e = 0 := by
  rw [hmag]
  constructor
  · intro h
    by_contra h0
    have : 1 * 2 ^ f.fbits ≤ e * 2 ^ f.fbits := Nat.mul_le_mul_right _ (Nat.pos_of_ne_zero h0)
    omega
  · rintro rfl
    rwa [Nat.zero_mul, Nat.zero_add]

omit hm he in
theorem isZero_iff : isZero f x = true ↔ e = 0 ∧ m = 0 := by
  have hpos := Nat.two_pow_pos f.fbits
  rw [isZero, beq_iff_eq, hmag, Nat.add_eq_zero_iff, Nat.mul_eq_zero]
  omega

theorem isSNaN_iff (hq : x / 2 ^ (f.fbits - 1) % 2 = m / 2 ^ (f.fbits - 1)) :
    isSNaN f x = true ↔ (e = 2 ^ f.ebits - 1 ∧ m ≠ 0) ∧ m < 2 ^ (f.fbits - 1) := by
  rw [isSNaN, Bool.and_eq_true, isNaN_iff hm he hmag, beq_iff_eq, hq, Nat.div_eq_zero_iff]
  have hpos := Nat.two_pow_pos (f.fbits - 1)
  omega

/-- The class of an operand, by its sign, exponent and fraction (Table R281). -/
theorem fClass_eq (hq : x / 2 ^ (f.fbits - 1) % 2 = m / 2 ^ (f.fbits - 1)) : fClass f x =
    2 ^ (if e = 2 ^ f.ebits - 1 then
        if m = 0 then (if fneg? f x then 0 else 7) else if 2 ^ (f.fbits - 1) ≤ m then 9 else 8
      else if e = 0 then
        if m = 0 then (if fneg? f x then 3 else 4) else (if fneg? f x then 2 else 5)
      else (if fneg? f x then 1 else 6)) := by
  simp only [fClass, isNaN_iff hm he hmag, isInf_iff hm he hmag, isZero_iff hmag, isSNaN_iff hm he hmag hq, mag_lt_iff hm hmag]
  split_ifs <;> omega

end Fields

theorem fneg?_eq_testBit (f : Fmt) (x : Nat) : fneg? f x = x.testBit (f.ebits + f.fbits) := by
  rw [fneg?, Fmt.signBit, Nat.testBit_eq_decide_div_mod_eq]
  exact beq_eq_decide ..

/-- The fields of an operand lie in the low bits of its source (R247). -/
theorem take_fields (dbl : Bool) (a : Word) :
    let f := scalarFmt dbl
    fmag f (f.take a.toNat) = a.toNat / 2 ^ f.fbits % 2 ^ f.ebits * 2 ^ f.fbits + a.toNat % 2 ^ f.fbits ∧
      f.take a.toNat / 2 ^ (f.fbits - 1) % 2 = a.toNat % 2 ^ f.fbits / 2 ^ (f.fbits - 1) ∧
      fneg? f (f.take a.toNat) = a.getLsbD (f.fbits + f.ebits) := by
  have hsign (f : Fmt) : fneg? f (f.take a.toNat) = a.getLsbD (f.fbits + f.ebits) := by
    rw [fneg?_eq_testBit, Fmt.take, Nat.testBit_mod_two_pow, decide_eq_true (by simp only [Fmt.width]; omega), Bool.true_and,
      Nat.add_comm]
    rfl
  refine ⟨?_, ?_, hsign _⟩
  all_goals
    cases dbl
    · simp only [scalarFmt, Bool.false_eq_true, if_false, binary32, fmag, Fmt.take, Fmt.width, Fmt.signBit]
      omega
    · simp only [scalarFmt, if_true, binary64, fmag, Fmt.take, Fmt.width, Fmt.signBit]
      omega

theorem two_mul_signBit (f : Fmt) : 2 * f.signBit = 2 ^ f.width := by
  rw [Fmt.width, Nat.add_assoc, Nat.add_comm, Nat.pow_succ']
  rfl

/-- Turning the sign of an operand adds its bit, without a carry out of the format. -/
theorem flipSign_eq {f : Fmt} {x : Nat} (hx : x < 2 * f.signBit) : flipSign f x = (x + f.signBit) % (2 * f.signBit) := by
  unfold flipSign fneg?
  obtain h | h := Nat.lt_or_ge x f.signBit
  · rw [Nat.div_eq_of_lt h, if_neg (by decide), Nat.mod_eq_of_lt (by omega)]
  · rw [show x / f.signBit = 1 from Nat.div_eq_of_lt_le (by omega) (by omega), if_pos (by decide), Nat.mod_eq_sub_mod (by omega),
      Nat.mod_eq_of_lt (by omega)]
    omega

/-! ### Comparison (R280) -/

theorem fCmp_mask (f : Fmt) (x y : Nat) : (fCmp f x y).1 =
    if isNaN f x = true ∨ isNaN f y = true then 8 else if isZero f x = true ∧ isZero f y = true then 2
    else if fkey f x < fkey f y then 1 else if fkey f x = fkey f y then 2 else 4 := by
  simp only [fCmp, Bool.or_eq_true, Bool.and_eq_true]
  split_ifs <;> rfl

theorem fCmp_flags (f : Fmt) (x y : Nat) : (fCmp f x y).2 = flagIf (isSNaN f x || isSNaN f y) fNV := by
  simp only [fCmp]
  split_ifs <;> rfl

theorem not_isNaN_of_isZero {f : Fmt} {x : Nat} (h : isZero f x = true) : ¬ isNaN f x = true := by
  rw [isZero, beq_iff_eq] at h
  simp [isNaN, h]

/-- Settles O8: the mask by the cases of `fCmp_mask`. -/
theorem compareMask : Obligations.CompareMask := by
  intro dbl a b f ha hb
  rw [fCmp_mask, fCmp_mask, fCmp_flags]
  refine ⟨by split_ifs <;> decide, ?nan, ?zero, ?flags, ?swap⟩
  case nan => split_ifs with hnan <;> simp [hnan]
  case zero =>
    intro hza hzb
    rw [if_neg (not_or.2 ⟨not_isNaN_of_isZero hza, not_isNaN_of_isZero hzb⟩), if_pos ⟨hza, hzb⟩]
  case flags => cases isSNaN f a || isSNaN f b <;> decide
  case swap =>
    simp only [show (isNaN f b = true ∨ isNaN f a = true) ↔ (isNaN f a = true ∨ isNaN f b = true) from or_comm,
      show (isZero f b = true ∧ isZero f a = true) ↔ (isZero f a = true ∧ isZero f b = true) from and_comm]
    split_ifs <;> omega

/-! ### The words (R274 to R283) -/

/-- The state after a push of some value with some flags added. -/
def State.PushedFlags (s : State) (i : Issue) (k : Keep) (t : State) : Prop := ∃ w fl, t = (s.push i w k).setFlags i fl

theorem setProc_setProc (s : State) (k : Nat) (p q : Proc) : (s.setProc k p).setProc k q = s.setProc k q := by
  simp only [State.setProc, nset_nset]

theorem setFlags_zero (s : State) (i : Issue) (w : Word) (k : Keep) : (s.push i w k).setFlags i 0 = s.push i w k := by
  have hflags (p : Proc) : { p with flags := p.flags ||| 0#64 } = p := by rw [BitVec.or_zero]
  refine (congrArg ((s.push i w k).setProc i.proc) (hflags _)).trans ?_
  rw [push_frame, State.proc_setProc_same, setProc_setProc]

/-- What a push with flags leaves: the frame of the push (`pushEffect`), and no flag that stood is cleared. -/
theorem pushedFlags_frame (s : State) (i : Issue) (w fl : Word) (k : Keep) :
    let t := (s.push i w k).setFlags i fl
    let p := s.proc i.proc
    let q := t.proc i.proc
    t = { s with procs := t.procs } ∧ (∀ j, j ≠ i.proc → t.proc j = s.proc j) ∧
      q = { p with q := q.q, qPend := q.qPend, push := p.push + 1, n := q.n, nPend := q.nPend, flags := q.flags } ∧
      q.flags &&& p.flags = p.flags ∧ ∀ r : BitVec 5, i.keep k ≠ some r → q.nget r = p.nget r := by
  obtain ⟨-, -, -, -, hnamed, hissuer, -, hother⟩ := pushEffect s i w k
  have hq : ((s.push i w k).setFlags i fl).proc i.proc =
      { (s.push i w k).proc i.proc with flags := ((s.push i w k).proc i.proc).flags ||| fl } := State.proc_setProc_same ..
  dsimp only
  rw [hq]
  refine ⟨rfl, fun j hj => (State.proc_setProc_other _ _ _ hj).trans (hother j hj), ?_, ?_, fun r hr => (hnamed r hr).1⟩
  · rw [hissuer]
  · rw [hissuer]
    ext j
    simp +contextual

section Words

variable {s : State} {i : Issue} (hi : s.issue = some i) {dbl : Bool} {x y : Src} {k : Keep}
include hi

theorem float1_pushed (f : Issue → Fmt → Nat → Nat × Word) : OkAll (s.PushedFlags i k) (float1 s dbl x k f) :=
  .cur hi (.pass fun _ => .ok ⟨_, _, rfl⟩)

theorem float2_pushed (f : Issue → Fmt → Nat → Nat → Nat × Word) : OkAll (s.PushedFlags i k) (float2 s dbl x y k f) :=
  .cur hi (.pass fun _ => .pass fun _ => .ok ⟨_, _, rfl⟩)

end Words

/-- Settles O13: where one of these words issues it has completed with one push and flags added (`pushedFlags_frame`). -/
theorem floatFrame : Obligations.FloatFrame := by
  intro s t i e x y k dbl r kr c d hi he h ht
  have arm {k : Keep} {r : Except Abort State} (hr : OkAll (s.PushedFlags i k) r) (h : finish s r = .next t) : s.PushedFlags i k t :=
    hr t (finish_issued hi h ht)
  have one {f : Issue → Fmt → Nat → Nat × Word} : finish s (float1 s dbl x k f) = .next t → s.PushedFlags i k t :=
    arm (float1_pushed hi f)
  have two {f : Issue → Fmt → Nat → Nat → Nat × Word} : finish s (float2 s dbl x y k f) = .next t → s.PushedFlags i k t :=
    arm (float2_pushed hi f)
  have hpush : s.PushedFlags i k t := by
    obtain he | ⟨rfl, rfl⟩ := he
    case inl =>
      revert h
      revert e
      simp only [List.forall_mem_cons, List.not_mem_nil, false_imp_iff, implies_true, and_true]
      have fins : exec (.fins dbl x y k r) s = .next t → s.PushedFlags i k t :=
        arm (.cur hi (.pass fun _ => .pass fun _ => .ok ⟨_, _, rfl⟩))
      have fcvt : exec (.fcvt c d x k r) s = .next t → s.PushedFlags i k t := arm (.cur hi (.pass fun _ => .ok ⟨_, _, rfl⟩))
      exact ⟨two, two, two, one, fins, two, two, one, one, two, one, one, fcvt⟩
    case inr => exact arm (.cur hi (.pass fun _ => .pass fun _ => .pass fun _ => .ok ⟨_, _, rfl⟩)) h
  obtain ⟨w, fl, rfl⟩ := hpush
  obtain ⟨hstate, hother, hissuer⟩ := pushedFlags_frame s i w fl k
  exact ⟨hstate, hother, hissuer, fun _ => rfl⟩

/-- Settles O7: the fields of the operand (`take_fields`) tell its class (`fClass_eq`), and no flag is added. -/
theorem classOfFloat : Obligations.ClassOfFloat := by
  intro s i x k a dbl hi hx fr ex m e neg c
  refine ⟨?_, setFlags_zero s i _ k⟩
  obtain ⟨hmag, hq, hsign⟩ := take_fields dbl a
  have hclass : fClass (scalarFmt dbl) ((scalarFmt dbl).take a.toNat) = 2 ^ c := by
    rw [fClass_eq (Nat.mod_lt _ (Nat.two_pow_pos _)) (Nat.mod_lt _ (Nat.two_pow_pos _)) hmag hq, hsign]
    cases dbl <;> rfl
  have harm : exec (.fclass dbl x k) s = finish s (float1 s dbl x k fun _ f a => (fClass f a, 0)) := rfl
  rw [harm, float1_ok dbl k _ hi hx, finish_ok, hclass]

/-- Settles O6: each form reads the low bits of its sources, pushes and adds its flags. -/
theorem scalarFloatResults : Obligations.ScalarFloatResults := by
  intro s i x y k kr a b c dbl r hi hx hy hc f lo now
  have hf : f = scalarFmt dbl := rfl
  have hlo (v : Word) : lo v = (scalarFmt dbl).take v.toNat := by cases dbl <;> rfl
  have one {e : Instr} {g : Issue → Fmt → Nat → Nat × Word} {v : Nat × Word} (harm : exec e s = finish s (float1 s dbl x k g))
      (hv : g i f (lo a) = v) : now e v k := by
    rw [hlo] at hv
    rw [← hv]
    exact harm.trans (by rw [float1_ok dbl k g hi hx, finish_ok, hf])
  have two {e : Instr} {g : Issue → Fmt → Nat → Nat → Nat × Word} {v : Nat × Word}
      (harm : exec e s = finish s (float2 s dbl x y k g)) (hv : g i f (lo a) (lo b) = v) : now e v k := by
    rw [hlo, hlo] at hv
    rw [← hv]
    exact harm.trans (by rw [float2_ok dbl k g hi hx hy, finish_ok, hf])
  refine ⟨two rfl rfl, two rfl rfl, two rfl rfl, ?fma, one rfl rfl, ?fins, two rfl rfl, two rfl rfl, one rfl ?fabs, one rfl ?fneg,
    two rfl rfl, one rfl rfl, fun src dst => ?fcvt, ?fdiv, ?fsqrt⟩
  case fma =>
    have harm : exec (.fma dbl x y kr r) s = execFma dbl x y kr r s := rfl
    show exec _ s = _
    simp only [harm, execFma, cur_some hi, hx, hy, hc, ok_bind, finish_ok, hlo, hf]
  case fins =>
    have harm : exec (.fins dbl x y k r) s = execFins dbl x y k r s := rfl
    show exec _ s = _
    simp only [harm, execFins, cur_some hi, hx, hy, ok_bind, finish_ok, hlo, hf]
  case fabs => cases dbl <;> rfl
  case fneg =>
    have hbits : f.ebits + f.fbits = if dbl then 63 else 31 := by cases dbl <;> rfl
    have hwidth : f.width = if dbl then 64 else 32 := by cases dbl <;> rfl
    have hsign : f.signBit = 2 ^ (if dbl then 63 else 31) := congrArg (2 ^ ·) hbits
    have hdouble : 2 * f.signBit = 2 ^ (if dbl then 64 else 32) := (two_mul_signBit f).trans (congrArg (2 ^ ·) hwidth)
    have hlt : lo a < 2 * f.signBit := hdouble ▸ Nat.mod_lt _ (Nat.two_pow_pos _)
    refine Prod.ext ?_ rfl
    rw [flipSign_eq hlt, hdouble, hsign]
  case fcvt =>
    have harm : exec (.fcvt src dst x k r) s = execFcvt src dst x k r s := rfl
    simp only [harm, execFcvt, cur_some hi, hx, ok_bind, finish_ok]
  case fdiv =>
    have harm : exec (.fdiv dbl x y k r) s = execFdiv dbl x y k r s := rfl
    simp only [harm, execFdiv, cur_some hi, hx, hy, ok_bind, finish_ok, hlo, hf]
  case fsqrt =>
    have harm : exec (.fsqrt dbl x k r) s = execFsqrt dbl x k r s := rfl
    simp only [harm, execFsqrt, cur_some hi, hx, ok_bind, finish_ok, hlo, hf]

end Sys2Proof.Machine
end

section
/-! SUPPORT. Control transfer (O14): the next fetch address of each jump, its condition on q0, and the words that loop and repeat. -/

namespace Sys2Proof.Machine

/-- The word in issue goes on at `w`. -/
theorem jump_some {s : State} {i : Issue} (hi : s.issue = some i) (w : Word) :
    s.jump w = { s with issue := some { i with next := w } } := by
  simp only [State.jump, hi]

/-- A relative target keeps the space and the format of the word's own address. -/
theorem relTarget_ok {i : Issue} {d : Int} (h : 0 ≤ (pOff i.loc : Int) + 4 * d ∧ (pOff i.loc : Int) + 4 * d < 2 ^ 51) :
    relTarget i d = .ok (BitVec.ofNat 64 (i.loc.toNat / 2 ^ 51 * 2 ^ 51 + ((pOff i.loc : Int) + 4 * d).toNat)) := addOff_ok h

theorem regTarget_ok {a : Word} (hs : pSpace a = 0) (ha : a.toNat % 4 = 0) : regTarget a = .ok (BitVec.ofNat 64 (pOff a)) := by
  simp only [regTarget, hs, ha, beq_self_eq_true, check_true, ok_bind]

/-! ### The conditions of `bc` (Table 12.12) -/

theorem condHolds_z (q : Word) : condHolds .z q = true ↔ q = 0 := by simp [condHolds]
theorem condHolds_nz (q : Word) : condHolds .nz q = true ↔ q ≠ 0 := by simp [condHolds]
theorem condHolds_lt (q : Word) : condHolds .lt q = true ↔ q.toInt < 0 := by simp [condHolds, BitVec.msb_eq_toInt]
theorem condHolds_ge (q : Word) : condHolds .ge q = true ↔ 0 ≤ q.toInt := by simp [condHolds, BitVec.msb_eq_toInt]

theorem toInt_eq_zero_iff (q : Word) : q.toInt = 0 ↔ q = 0 := by
  rw [← BitVec.toInt_inj]
  rfl

theorem condHolds_gt (q : Word) : condHolds .gt q = true ↔ 0 < q.toInt := by
  have h0 := toInt_eq_zero_iff q
  simp only [condHolds, BitVec.msb_eq_toInt, Bool.and_eq_true, Bool.not_eq_true', decide_eq_false_iff_not, bne_iff_ne, ne_eq, ← h0]
  omega

theorem condHolds_le (q : Word) : condHolds .le q = true ↔ q.toInt ≤ 0 := by
  have h0 := toInt_eq_zero_iff q
  simp only [condHolds, BitVec.msb_eq_toInt, Bool.or_eq_true, decide_eq_true_eq, beq_iff_eq, ← h0]
  omega

/-! ### The words -/

section Words

variable {s : State} {i : Issue} (hi : s.issue = some i)
include hi

theorem exec_branch {c : Cond} {q t : Word} {d : BitVec 18} (hq : readSrc i (.q 0) = .ok q) (ht : relTarget i d.toInt = .ok t) :
    finish s (branch s c d) = .next (if condHolds c q = true then s.jump t else s) := by
  simp only [branch, cur_some hi, readQ0, hq, ok_bind, ht]
  split <;> rfl

theorem exec_call {t : Word} {d : BitVec 18} (ht : relTarget i d.toInt = .ok t) :
    exec (.call d) s = .next ((s.push i i.next (some 15)).jump t) := by
  have harm : exec (.call d) s = execCall d s := rfl
  simp only [harm, execCall, cur_some hi, ok_bind, ht, finish_ok]

theorem finish_jumpReg {x : Src} {a t : Word} (hx : readSrc i x = .ok a) (ht : regTarget a = .ok t) :
    finish s (jumpReg s x) = .next (s.jump t) := by
  simp only [jumpReg, cur_some hi, hx, ok_bind, ht, finish_ok]

theorem exec_calli {x : Src} {a t : Word} (hx : readSrc i x = .ok a) (ht : regTarget a = .ok t) :
    exec (.calli x) s = .next ((s.push i i.next (some 15)).jump t) := by
  have harm : exec (.calli x) s = execCalli x s := rfl
  simp only [harm, execCalli, cur_some hi, hx, ok_bind, ht, finish_ok]

theorem exec_loop {r : BitVec 5} {d : BitVec 17} {n t : Word} (hn : readSrc i (.n r) = .ok n) (ht : relTarget i d.toInt = .ok t) :
    exec (.loop r d) s =
      .next (if n = 1 then s.push i 0 (some r) else (s.push i (n - 1) (some r)).jump t) := by
  have harm : exec (.loop r d) s = execLoop r d s := rfl
  simp only [harm, execLoop, cur_some hi, hn, ok_bind, ht]
  by_cases h : n = 1
  · subst h
    rfl
  · have h0 : ¬ n - 1 = 0 := fun e => h (sub_eq_zero.1 e)
    rw [if_neg h0, if_neg h, finish_ok]

theorem exec_rep {x : Src} {a : Word} (b sn sv : BitVec 4) (hx : readSrc i x = .ok a) (h0 : 0 < a.toNat) (hlt : a.toNat < 2 ^ 24) :
    exec (.rep x b sn sv) s = .next (s.modProc i.proc fun p =>
      { p with rep := { active := true, remain := a.toNat, b := b.toNat, sn := sn.toNat, sv := sv.toNat, pos := 0 } }) := by
  have harm : exec (.rep x b sn sv) s = execRep x b sn sv s := rfl
  have hne : ¬ a = 0 := by
    rintro rfl
    exact Nat.lt_irrefl 0 h0
  simp only [harm, execRep, cur_some hi, hx, ok_bind, decide_eq_true hlt, check_true, if_neg hne, finish_ok]

/-- A pass count of 0 goes on after the body (R252). -/
theorem exec_rep_zero {x : Src} (b sn sv : BitVec 4) (hx : readSrc i x = .ok 0) (hin : pOff i.next + 8 * (b.toNat + 1) < 2 ^ 51) :
    exec (.rep x b sn sv) s =
      .next (s.jump (BitVec.ofNat 64 (i.next.toNat / 2 ^ 51 * 2 ^ 51 + (pOff i.next + 8 * (b.toNat + 1))))) := by
  have harm : exec (.rep x b sn sv) s = execRep x b sn sv s := rfl
  have hoff : ((pOff i.next : Int) + 8 * ((b.toNat : Int) + 1)).toNat = pOff i.next + 8 * (b.toNat + 1) := by omega
  have ht := addOff_ok (p := i.next) (delta := 8 * ((b.toNat : Int) + 1)) (by omega)
  rw [hoff] at ht
  simp only [harm, execRep, cur_some hi, hx, ok_bind, ht]
  rfl

end Words

/-- Settles O14: each word by its equation above. -/
theorem controlTransfer : Obligations.ControlTransfer := by
  intro s i x a q hi hx hq go inRange target
  have hgo (w : Word) : s.jump w = go s w := jump_some hi w
  have hpush (v w : Word) (k : Keep) : (s.push i v k).jump w = go (s.push i v k) w := jump_some (s := s.push i v k) hi w
  refine ⟨fun d hd => ?relative, fun hs ha => ?register, fun r d n hn hd => ?loop, fun b sn sv => exec_rep hi b sn sv hx, ?skip, ?nop,
    ?nopB⟩
  case relative =>
    have ht : relTarget i d.toInt = .ok (target d.toInt) := relTarget_ok hd
    have bc {c : Cond} {p : Prop} [Decidable p] (h : condHolds c q = true ↔ p) :
        finish s (branch s c d) = .next (if p then go s (target d.toInt) else s) := by
      rw [exec_branch hi hq ht, hgo]
      simp only [h]
    have br : exec (.br d) s = .next (go s (target d.toInt)) := (exec_branch hi hq ht).trans (congrArg _ (hgo _))
    have call := exec_call hi ht
    rw [hpush] at call
    exact ⟨br, call, bc (condHolds_z q), bc (condHolds_nz q), bc (condHolds_lt q), bc (condHolds_ge q), bc (condHolds_gt q),
      bc (condHolds_le q)⟩
  case register =>
    have ht := regTarget_ok hs ha
    have reg := finish_jumpReg hi hx ht
    have calli := exec_calli hi hx ht
    rw [hgo] at reg
    rw [hpush] at calli
    exact ⟨reg, reg, calli⟩
  case loop =>
    have loop := exec_loop (d := d) hi hn (relTarget_ok hd)
    rwa [hpush] at loop
  case skip =>
    rintro b sn sv rfl hin
    have skip := exec_rep_zero hi b sn sv hx hin
    rwa [hgo] at skip
  case nop =>
    have harm : exec .nop s = execNop s := rfl
    rw [harm, execNop, cur_some hi]
    rfl
  case nopB =>
    have harm : exec .nopB s = execNopB s := rfl
    rw [harm, execNopB, cur_some hi]
    rfl

end Sys2Proof.Machine
end

section
/-! SUPPORT. The bits above a word are not the decoder's (O15). -/

namespace Sys2Proof
open Machine

/-- Class A: every reader takes its field from bits [29:0]. -/
theorem decA_above (v w : Nat) : decA (v * 2 ^ 30 + w) = decA w := by
  simp (disch := decide) only [fld_above, src, kp, noKeep, zero, r5, b3, imm11, bit, decSystem, decBranch, decCall, decJump, decLoop,
    decRep, decSched, decNop, decLd, decLd128, decSt, decPrf, decLdxStx, decTile, decVecMem, decAtom, decCas, decRed, decFence, decWait,
    decPhase, decTime, decProc, decSendRecv, decTileChan, decAlt, decChan, decTree, decCopy, decColl, decCmpr, decFork, decMig, decBuf,
    decA]

/-- Class B. -/
theorem decB_above (v w : Nat) : decB (v * 2 ^ 30 + w) = decB w := by
  simp (disch := decide) only [fld_above, src, kp, zero, r5, b3, imm11, bit, br2, br1, decInt, decLogic, decUnary, decLi, decBi, decExt,
    decField, decPtr, decFArith, decFDiv, decFMisc, decFcvt, vty, decV3, decV4, decV2, anyVTy, absVTy, decVUnary, v3, decVLogic, decVcmp,
    decVsel, decVcvt, decVred, decVperm, decPred, group, decMgang, decMhouse, decMdrain, decQuant, decNopB, decB]

theorem decodeWord_above (v w : Nat) : decodeWord (v * 2 ^ 30 + w) = decodeWord w := by
  rw [decodeWord, decodeWord, fld_above v w (by decide), decA_above, decB_above]

theorem decodeWord_brk_iff (w : Nat) : decodeWord w = .ok .brk ↔
    fld w 29 1 = 0 ∧ fld w 23 6 = 0 ∧ fld w 0 5 = 2 ∧ fld w 17 6 = 0 ∧ fld w 11 6 = 0 ∧ fld w 5 6 = 0 := by
  constructor
  · intro h
    have hlow : decodeWord (w % 2 ^ 30) = .ok .brk := by rwa [← decodeWord_above (w / 2 ^ 30), Nat.div_add_mod']
    obtain ⟨-, -, henc⟩ := encodes_of_decodeWord (Nat.mod_lt w (Nat.two_pow_pos 30)) hlow
    have hw : 2 = w % 2 ^ 30 := Option.some.inj henc
    simp only [fld]
    omega
  · rintro ⟨hcls, hmaj, hm, hx, hy, hz⟩
    rw [decodeWord, if_pos hcls, decA, hmaj]
    show decSystem w = _
    rw [decSystem, hm]
    exact formNone_eq_ok.2 ⟨hx, hy, hz, rfl⟩

end Sys2Proof
end

section
/-! SUPPORT. Traps (O15, O16): a resume from a breakpoint, and a record that goes to a handler queue. -/

namespace Sys2Proof.Machine

/-! ### The return from a fault by `resume` (R173) -/

/-- The state without a record that has been disposed of. -/
def State.dropRec (s : State) (id : Nat) : State := { s with recs := ndel s.recs id, managed := s.managed.filter (· != id) }

@[simp] theorem dropRec_proc (s : State) (id j : Nat) : (s.dropRec id).proc j = s.proc j := rfl

/-- The process goes on from its record: a resume from a breakpoint sets the mark of R257. -/
def Proc.resumed (p : Proc) (kind : Kind) : Proc := { p with held := none, brkOnce := p.brkOnce || decide (kind = .breakpoint) }

section Resume

variable {s : State} {id : Nat} {r : FRec} (hr : nget? s.recs id = some r) (hheld : (s.proc r.handle).held = some id)
include hr hheld

/-- A process does not stand FAULTED for the loss of its core where its record is another. -/
theorem coreGone_of_held (hk : r.kind ≠ .coreLost) : s.coreGone r.handle = false := by
  simp only [State.coreGone, hheld, Option.bind_some, hr, beq_eq_false_iff_ne]
  exact hk

theorem dispose_resume (hk : r.kind ≠ .coreLost) : s.dispose id .resume =
    (((((if r.cls = .c then s.fillZero r.handle r else s).modProc r.handle fun p => p.resumed r.kind).dropRec id).ready r.handle
      false).waitAgain r.handle) := by
  simp only [State.dispose, hr, hheld, coreGone_of_held hr hheld hk, hk, Bool.false_eq_true, and_false, or_false, if_false, decide_true,
    Bool.not_true]
  rfl

end Resume

@[simp] theorem newEpisode_proc (s : State) (k j : Nat) : (s.newEpisode k).proc j = s.proc j := by
  unfold State.newEpisode
  dsimp only
  split <;> rfl

theorem ready_brkOnce (s : State) (k : Nat) (head : Bool) : ((s.ready k head).proc k).brkOnce = (s.proc k).brkOnce := by
  unfold State.ready
  dsimp only
  split_ifs <;> simp

theorem blockLate_brkOnce (s : State) (k : Nat) (w : Wait) (obj : W32) (d : Word) :
    ((s.blockLate k w obj d).proc k).brkOnce = (s.proc k).brkOnce := by
  have hblock : ((s.block k w obj d).proc k).brkOnce = (s.proc k).brkOnce := by
    unfold State.block
    dsimp only
    split <;> simp [proc_leaveCtx]
  unfold State.blockLate
  dsimp only
  split
  · exact hblock
  · exact hblock
  · simp
  · simp
  · split <;> simp
  · rfl

theorem waitAgain_brkOnce (s : State) (k : Nat) : ((s.waitAgain k).proc k).brkOnce = (s.proc k).brkOnce := by
  unfold State.waitAgain
  split
  · exact blockLate_brkOnce ..
  · rfl

/-! ### The words -/

section Words

variable {s : State} {i : Issue} (hi : s.issue = some i)
include hi

theorem exec_brk : exec .brk s = if i.pre.brkOnce = true then .next (s.modProc i.proc fun p => { p with brkOnce := false })
    else .next (s.raise { kind := .breakpoint }) := by
  have harm : exec .brk s = execBrk s := rfl
  rw [harm, execBrk, cur_some hi, ok_bind]
  split <;> rfl

theorem exec_trap {x : Src} {a : Word} (n : BitVec 6) (hx : readSrc i x = .ok a) :
    exec (.trap x n) s = .next (s.raiseAfter { kind := .trap, sub := n.toNat, e5 := a }) := by
  have harm : exec (.trap x n) s = execTrap x n s := rfl
  rw [harm, execTrap, cur_some hi, ok_bind, hx, ok_bind, finish_ok]

theorem exec_trap_unready {x : Src} (n : BitVec 6) (he : i.pre.engine = none) (hx : SrcPending i x) :
    exec (.trap x n) s = .next (s.raise (unreadyTrap x)) := by
  have harm : exec (.trap x n) s = execTrap x n s := rfl
  rw [harm, execTrap, cur_some hi, ok_bind, readSrc_unready he hx, error_bind, finish_trap]

/-- A fault after the word's effect is taken at the next fetch address, with the latch as it is. -/
theorem raiseAfter_some (tr : Trap) (hn : s.raised = none) (hh : i.hit = false) : s.raiseAfter tr =
    ({ s with raised := some tr } : State).takeFault i.proc (mkRec s i.proc .a tr i.loc i.bword) i.next := by
  simp only [State.raiseAfter, hi, hn, hh, Option.isSome_none, Bool.or_self, Bool.false_eq_true, if_false]
  rfl

end Words

/-! ### The handler queue (R172) -/

/-- A record that is filed with room in the handler queue stands in it. -/
theorem mem_queue_file {s : State} {r : FRec} (h : s.Handled r.handle) (hi : r.inst = (s.proc r.handle).inst) (ha : r.area = 0) :
    s.nextId ∈ ((s.file r).1.inst r.inst).queue := by
  have hindex := (h.recorded r).index
  rw [show ((s.recorded r).proc r.handle).inst = r.inst from hi.symm] at hindex
  rw [file_new ha, route_queues (r := (s.writeRec r).2) (h.recorded r) hi (nget?_nset_same ..), writeRec_record, inst_modInst, if_pos rfl]
  cases hv : nget? (s.recorded r).insts r.inst with
  | none => exact absurd (by simp only [handlerIndex, hv]) hindex
  | some v => exact List.mem_append_right _ List.mem_cons_self

theorem mem_queue_takeFault {s : State} {k : Nat} {r : FRec} (pc : Word) (hth : (s.proc k).engine = none) (h : s.Handled k)
    (hk : r.handle = k) (hi : r.inst = (s.proc k).inst) (ha : r.area = 0) : s.nextId ∈ ((s.takeFault k r pc).inst r.inst).queue := by
  subst hk
  have hi' : r.inst = ((s.faultAt r.handle pc).proc r.handle).inst := by rw [proc_faultAt, hi]; rfl
  have hmem := mem_queue_file (h.faultAt pc) hi' ha
  obtain ⟨cores, procs, hf⟩ := faultAt_frame s r.handle pc
  rwa [takeFault_eq r pc hth, show s.nextId = (s.faultAt r.handle pc).nextId by rw [hf]]

/-- A fault after a word whose issuer's records go to the handler queue (class A, R170). -/
theorem raiseAfter_queues {s : State} {i : Issue} (hi : s.issue = some i) (tr : Trap) (hn : s.raised = none) (hh : i.hit = false)
    (hth : (s.proc i.proc).engine = none) (h : s.Handled i.proc) (hlt : i.proc < 2 ^ 32) :
    let t := s.raiseAfter tr
    t.issue = some i ∧ t.proc i.proc = (s.proc i.proc).faulted i.next s.nextId ∧
      nget? t.recs s.nextId = some (s.writeRec (mkRec s i.proc .a tr i.loc i.bword)).2 ∧
      s.nextId ∈ (t.inst (s.proc i.proc).inst).queue := by
  have hhandle : (mkRec s i.proc .a tr i.loc i.bword).handle = i.proc := Nat.mod_eq_of_lt hlt
  have hqueued : ({ s with raised := some tr } : State).Handled i.proc := ⟨h.manager, h.handler, h.index, h.room⟩
  obtain ⟨hissue, hproc, -, hrec⟩ := takeFault_queues (s := { s with raised := some tr }) i.next hth hqueued hhandle rfl rfl
  have hmem := mem_queue_takeFault (s := { s with raised := some tr }) i.next hth hqueued hhandle rfl rfl
  rw [raiseAfter_some hi tr hn hh]
  exact ⟨hissue.trans hi, hproc, hrec, hmem⟩

/-! ### The obligations -/

/-- Settles O15: the fault at the word is `takingFault`, and a resume from it sets the mark (`dispose_resume`). -/
theorem breakAndTrap : Obligations.BreakAndTrap := by
  refine ⟨decodeWord_brk_iff, fun s i hi hb => ?raises, fun s i hi hb => ?once, fun s i hi hth hh hx hm hin hq hlt => ?taken,
    fun s id r hr hk hheld => ?resumed⟩
  case raises => rw [exec_brk hi, if_neg (by simp [hb])]
  case once => rw [exec_brk hi, if_pos hb]
  case taken =>
    rw [← hin] at hx hq
    obtain ⟨hissue, hst, hpc, -⟩ := takingFault s i { kind := .breakpoint } hi hth hh hx hm hq hlt
    exact ⟨hst, hpc, hissue⟩
  case resumed =>
    rw [dispose_resume hr hheld (by rw [hk]; decide), waitAgain_brkOnce, ready_brkOnce, dropRec_proc, State.modProc_eq,
      State.proc_setProc_same, hk]
    exact Bool.or_true _

/-- Settles O16: the record is taken after the word, and goes to the handler queue (`raiseAfter_queues`). -/
theorem trapAfterEffect : Obligations.TrapAfterEffect := by
  refine ⟨fun s i x n a hi hx => exec_trap hi n hx, ?taken, fun s i j n hi hj he => exec_trap_unready hi n he (.inl ⟨j, rfl, hj⟩)⟩
  intro s i x n a hi hx hn hhit hth hh hidx hm hq hlt
  obtain ⟨hissue, hproc, hrec, hmem⟩ :=
    raiseAfter_queues hi { kind := .trap, sub := n.toNat, e5 := a } hn hhit hth ⟨hm, hh, hidx, hq⟩ hlt
  exact ⟨_, _, exec_trap hi n hx, hissue, congrArg Proc.st hproc, congrArg Proc.pc hproc, congrArg Proc.held hproc, hrec, rfl, rfl, rfl,
    rfl, rfl, Nat.mod_eq_of_lt hlt, hmem⟩

end Sys2Proof.Machine
end

section
/-! SUPPORT. `eret` (O19): which record its issuer holds, and what each disposition leaves. -/

namespace Sys2Proof.Machine

/-! ### The record that the issuer holds (R258) -/

/-- The issuer of an `eret` no longer holds the record that it disposes of. -/
def State.letRec (s : State) (k id : Nat) : State :=
  s.modProc k fun p => { p with handles := if p.handles = some id then none else p.handles }

theorem letRec_handles (s : State) (k id : Nat) : ((s.letRec k id).proc k).handles ≠ some id := by
  rw [State.letRec, State.modProc_eq, State.proc_setProc_same]
  dsimp only
  split
  · simp
  · assumption

section Held

variable {s : State} {i : Issue} {id h : Nat} {r : FRec}

/-- A handler holds the record that it was spawned with. -/
theorem heldRec_handler (hh : i.pre.handles = some id) (hr : nget? s.recs id = some r) (he : r.handle = h) : heldRec s i h = some id := by
  simp [heldRec, hh, hr, he]

/-- A manager that handles none holds what has been escalated to it in its partition. -/
theorem heldRec_manager (hh : i.pre.handles = none) (hm : s.isMgr i.proc = true) (hl : s.managed = [id]) (hr : nget? s.recs id = some r)
    (hp : partOf r.handle = partOf i.proc) (he : r.handle = h) : heldRec s i h = some id := by
  subst he
  simp [heldRec, hh, hm, hl, hr, hp]

theorem heldRec_none (hn : ∀ id r, (i.pre.handles = some id ∨ id ∈ s.managed) → nget? s.recs id = some r → r.handle ≠ h) :
    heldRec s i h = none := by
  rw [heldRec, List.find?_eq_none]
  intro id hid
  have hmine : i.pre.handles = some id ∨ id ∈ s.managed := by
    obtain hid | hid := List.mem_append.1 hid
    · cases hhandles : i.pre.handles with
      | none => simp [hhandles] at hid
      | some j => simp_all
    · split at hid
      · exact .inr (List.mem_of_mem_filter hid)
      · cases hid
  cases hr : nget? s.recs id with
  | none => simp
  | some r => simpa using hn id r hmine hr

end Held

/-! ### The word -/

section Words

variable {s : State} {i : Issue} (hi : s.issue = some i) {x : Src} {a : Word} (d : Disp)
include hi

theorem exec_eret {id : Nat} (hp : i.pre.isHandler = true ∨ s.isMgr i.proc = true) (hx : readSrc i x = .ok a)
    (hheld : heldRec s i (a.toNat % 2 ^ 32) = some id) : exec (.eret x d) s = .next ((s.letRec i.proc id).dispose id d) := by
  have harm : exec (.eret x d) s = execEret x d s := rfl
  have hcheck : (i.pre.isHandler || s.isMgr i.proc) = true := by simpa using hp
  simp only [harm, execEret, cur_some hi, ok_bind, hcheck, check_true, hx, hheld, finish_ok]
  rfl

theorem exec_eret_priv (hh : i.pre.isHandler = false) (hm : s.isMgr i.proc = false) :
    exec (.eret x d) s = .next (s.raise { kind := .priv }) := by
  have harm : exec (.eret x d) s = execEret x d s := rfl
  simp only [harm, execEret, cur_some hi, ok_bind, hh, hm, Bool.or_self, check_false, error_bind, finish_trap]

theorem exec_eret_illegal (hp : i.pre.isHandler = true ∨ s.isMgr i.proc = true) (hx : readSrc i x = .ok a)
    (hheld : heldRec s i (a.toNat % 2 ^ 32) = none) :
    exec (.eret x d) s = .next (s.raise { kind := .illegalOperand, other := a.setWidth 32, addr := a }) := by
  have harm : exec (.eret x d) s = execEret x d s := rfl
  have hcheck : (i.pre.isHandler || s.isMgr i.proc) = true := by simpa using hp
  simp only [harm, execEret, cur_some hi, ok_bind, hcheck, check_true, hx, hheld, finish_trap]

end Words

/-! ### A process that goes on (R116, R173) -/

/-- Only the note of a deadlock changes with a new episode. -/
theorem newEpisode_frame (s : State) (k : Nat) : ∃ insts, s.newEpisode k = { s with insts := insts } := by
  unfold State.newEpisode
  dsimp only
  split
  · exact ⟨_, rfl⟩
  · exact ⟨s.insts, rfl⟩

/-- A process of no context that was not stopped is READY at its core's queue. -/
theorem ready_queued {s : State} {k : Nat} (head : Bool) (hst : (s.proc k).st ≠ .stopped) (hctx : (s.proc k).ctx = none)
    (he : (s.proc k).engine = none) : s.ready k head =
      ((s.newEpisode k).setProc k { s.proc k with st := .ready, wkind := .none, deadline := 0 }).enqueue k head := by
  simp [State.ready, hst, hctx, he]

/-- A process whose operations let it go on does not wait again. -/
theorem waitAgain_of_free {s : State} {k : Nat}
    (h : ∀ e ∈ s.txns, e.2.issuer = k → e.2.blocks = false ∧ e.2.stage ≠ .waiting) : s.waitAgain k = s := by
  have hnone : (s.txns.find? fun e => e.2.issuer == k && !e.2.left && !e.2.performed &&
      (e.2.blocks || (match e.2.op, e.2.stage with | .waita .., .waiting => true | _, _ => false))) = none := by
    rw [List.find?_eq_none]
    intro e he hfound
    simp only [Bool.and_eq_true, beq_iff_eq, Bool.or_eq_true] at hfound
    obtain ⟨⟨⟨hk, -⟩, -⟩, hwait⟩ := hfound
    obtain ⟨hblocks, hstage⟩ := h e he hk
    obtain hwait | hwait := hwait
    · rw [hblocks] at hwait
      cases hwait
    · split at hwait
      · contradiction
      · cases hwait
  unfold State.waitAgain
  split
  · next hsome => exact absurd (hnone.symm.trans hsome) (by simp)
  · rfl

/-- A process that goes on with nothing to wait for stands at the tail of its queue, its registers as they were. -/
theorem goOn_spec {s : State} {k : Nat} (hst : (s.proc k).st ≠ .stopped) (hctx : (s.proc k).ctx = none) (he : (s.proc k).engine = none)
    (hfree : ∀ e ∈ s.txns, e.2.issuer = k → e.2.blocks = false ∧ e.2.stage ≠ .waiting) :
    let t := (s.ready k false).waitAgain k
    t.proc k = { s.proc k with st := .ready, wkind := .none, deadline := 0 } ∧ t.recs = s.recs ∧
      k ∈ (t.core (s.proc k).core).queue (s.proc k).prio := by
  obtain ⟨insts, hepisode⟩ := newEpisode_frame s k
  have hready := ready_queued false hst hctx he
  rw [hepisode] at hready
  dsimp only
  rw [hready, waitAgain_of_free (by exact hfree)]
  refine ⟨?_, rfl, mem_queue_enqueue _ _ _ ?_ ?_⟩
  · rw [enqueue_proc, State.proc_setProc_same]
  · rw [State.proc_setProc_same]
  · rw [State.proc_setProc_same]

/-- Disposed of with `resume`, a process of no context on which nothing waits is READY with its registers as they were. -/
theorem dispose_resume_spec {s : State} {id : Nat} {r : FRec} (hr : nget? s.recs id = some r) (hk : r.kind ≠ .coreLost) (hc : r.cls ≠ .c)
    (hheld : (s.proc r.handle).held = some id) (hst : (s.proc r.handle).st = .faulted) (hctx : (s.proc r.handle).ctx = none)
    (he : (s.proc r.handle).engine = none)
    (hfree : ∀ e ∈ s.txns, e.2.issuer = r.handle → e.2.blocks = false ∧ e.2.stage ≠ .waiting) :
    let t := s.dispose id .resume
    t.proc r.handle = { (s.proc r.handle).resumed r.kind with st := .ready, wkind := .none, deadline := 0 } ∧
      t.recs = ndel s.recs id ∧ r.handle ∈ (t.core (s.proc r.handle).core).queue (s.proc r.handle).prio := by
  have hproc : ((s.modProc r.handle fun p => p.resumed r.kind).dropRec id).proc r.handle = (s.proc r.handle).resumed r.kind :=
    State.proc_setProc_same ..
  have hstopped : ((s.proc r.handle).resumed r.kind).st ≠ .stopped := by
    rw [Proc.resumed, hst]
    decide
  have hgo := goOn_spec (s := (s.modProc r.handle fun p => p.resumed r.kind).dropRec id) (k := r.handle)
  rw [hproc] at hgo
  rw [dispose_resume hr hheld hk, if_neg hc]
  exact hgo hstopped hctx he hfree

/-! ### The other dispositions (R173, R174) -/

theorem endProc_st (s : State) (k : Nat) : ((s.endProc k false).proc k).st = .exited := by
  unfold State.endProc
  dsimp only
  rw [State.modProc_eq, State.proc_setProc_same]
  rfl

theorem dispose_kill {s : State} {id : Nat} {r : FRec} (hr : nget? s.recs id = some r) :
    s.dispose id .kill = ((s.dropRec id).endHandler r.handle).endProc r.handle false := by
  simp only [State.dispose, hr]
  rfl

/-- The record in its fault area is all that changes with its LEVEL. -/
theorem rewriteRec_frame (s : State) (r : FRec) : ∃ mem, s.rewriteRec r = { s with mem := mem } := by
  unfold State.rewriteRec
  dsimp only
  split
  · exact ⟨s.mem, rfl⟩
  · exact ⟨_, rfl⟩

/-- A record of the hardware goes into the slot at TAIL of a channel with room. -/
theorem post_slot {s : State} {part ch : Nat} {c : Chan} (bs : List Byte) (hc : s.chan? part ch = some c) (ho : c.rxopen = true)
    (hroom : c.msgs.length + c.resvTx.length < c.depth) : s.post part ch bs = some (s.putSlot part ch 0 bs) := by
  simp only [State.post, hc, ho, Bool.not_true, Bool.false_eq_true, if_false, if_neg (show ¬ c.depth = 0 by omega),
    if_neg (show ¬ c.depth ≤ c.msgs.length + c.resvTx.length by omega)]

theorem putSlot_spec {s : State} {part ch : Nat} {c : Chan} (sender : Nat) (bs : List Byte) (hc : s.chan? part ch = some c) :
    ((s.putSlot part ch sender bs).chan? part ch).map Chan.msgs = some (c.msgs ++ [(sender, bs)]) ∧
      (s.putSlot part ch sender bs).recs = s.recs := by
  rw [putSlot_some hc, chan?_setChan_same]
  exact ⟨rfl, rfl⟩

/-- A record that the manager's channel takes is among those that the manager holds. -/
theorem escalate_posted {s v u : State} {id h : Nat} {r : FRec} (hr : nget? s.recs id = some r) (hl : r.level = 0)
    (hh : (s.part (partOf r.handle)).mgrhand.toNat % 2 ^ 32 = h) (h0 : h ≠ 0)
    (hv : ({ s with recs := nset s.recs id { r with level := 1 } } : State).rewriteRec { r with level := 1 } = v)
    (hpost : v.post (partOf r.handle) (h % 2 ^ 24) ({ r with level := 1 } : FRec).bytes = some u) :
    s.escalate id 0 = { u with managed := u.managed ++ [id] } := by
  simp only [State.escalate, hr, if_pos hl, State.toManager, if_true, hv, hh, if_neg h0, hpost]

/-- A record that goes up to a manager whose channel has room. -/
theorem escalate_to_manager {s : State} {id : Nat} {r : FRec} {c : Chan} {h : Nat} (hr : nget? s.recs id = some r) (hl : r.level = 0)
    (hh : (s.part (partOf r.handle)).mgrhand.toNat % 2 ^ 32 = h) (h0 : h ≠ 0)
    (hc : s.chan? (partOf r.handle) (h % 2 ^ 24) = some c) (ho : c.rxopen = true)
    (hroom : c.msgs.length + c.resvTx.length < c.depth) :
    let t := s.escalate id 0
    nget? t.recs id = some { r with level := 1 } ∧ id ∈ t.managed ∧
      (t.chan? (partOf r.handle) (h % 2 ^ 24)).map Chan.msgs = some (c.msgs ++ [(0, ({ r with level := 1 } : FRec).bytes)]) := by
  obtain ⟨mem, hmem⟩ := rewriteRec_frame { s with recs := nset s.recs id { r with level := 1 } } { r with level := 1 }
  have hup := escalate_posted hr hl hh h0 (v := { s with recs := nset s.recs id { r with level := 1 }, mem := mem }) hmem
    (post_slot _ hc ho hroom)
  obtain ⟨hmsgs, hrecs⟩ := putSlot_spec (s := { s with recs := nset s.recs id { r with level := 1 }, mem := mem }) 0
    ({ r with level := 1 } : FRec).bytes hc
  dsimp only
  rw [hup]
  refine ⟨?_, List.mem_append_right _ List.mem_cons_self, hmsgs⟩
  dsimp only
  rw [hrecs]
  exact nget?_nset_same ..

/-! ### The obligation -/

/-- Settles O19: the record held (`heldRec_handler`, `heldRec_manager`) is disposed of, and each disposition by its equation above. -/
theorem returnFromFault : Obligations.ReturnFromFault := by
  refine ⟨fun s i x a id r d hi hx hr hh hwho => ?disposes, fun s i x d hi hh hm => exec_eret_priv hi d hh hm,
    fun s i x a d hi hp hx hn => exec_eret_illegal hi d hp hx (heldRec_none hn),
    fun s id r hr hk hc hheld hst hctx he _ hfree => ?resume, fun s id r hr => ?kill, fun s id r h c hr hl hh h0 hc ho hroom => ?up⟩
  case disposes =>
    have hexec : exec (.eret x d) s = .next ((s.letRec i.proc id).dispose id d) := by
      obtain ⟨hhandler, hhandles⟩ | ⟨-, hhandles, hm, hl, hpart⟩ := hwho
      · exact exec_eret hi d (.inl hhandler) hx (heldRec_handler hhandles hr hh)
      · exact exec_eret hi d (.inr hm) hx (heldRec_manager hhandles hm hl hr hpart hh)
    exact ⟨_, hexec, (dispose_issue ..).trans hi, rfl, fun k hk => State.proc_setProc_other _ _ _ hk, letRec_handles s i.proc id⟩
  case resume =>
    obtain ⟨hproc, hrecs, hqueue⟩ := dispose_resume_spec hr hk hc hheld hst hctx he hfree
    dsimp only
    rw [hproc, hrecs, nget?_ndel, if_pos rfl]
    exact ⟨rfl, rfl, rfl, rfl, rfl, rfl, rfl, hqueue⟩
  case kill =>
    rw [dispose_kill hr]
    exact endProc_st ..
  case up =>
    have hdispose : s.dispose id .escalate = s.escalate id 0 := by
      simp only [State.dispose, hr]
      rfl
    rw [hdispose]
    exact escalate_to_manager hr hl hh h0 hc ho hroom

end Sys2Proof.Machine
end

section
/-! SUPPORT. The control registers (O20): what one reads as, and what a write of one leaves of the others. -/

namespace Sys2Proof.Machine

/-! ### What a register reads as (R259) -/

/-- A register is a field of the issuer, of its partition, of its network, or of its core's matrix set and power. -/
theorem ctlValue_congr {s t : State} {i : Issue} (hparts : t.parts = s.parts) (hinsts : t.insts = s.insts)
    (hdmap : (t.core i.pre.core).dmap = (s.core i.pre.core).dmap) (htokens : (t.core i.pre.core).tokens = (s.core i.pre.core).tokens)
    (d : Ctl) : ctlValue t i d = ctlValue s i d := by
  simp only [ctlValue, State.part, State.inst, hparts, hinsts, hdmap, htokens]

/-- The memory, the processes, the latch and what every register of the issuer's core reads as are those of `s`. -/
def State.RegsKept (s : State) (i : Issue) (u : State) : Prop :=
  u.mem = s.mem ∧ u.procs = s.procs ∧ u.issue = s.issue ∧ ∀ j d, i.pre.core = j.pre.core → ctlValue u j d = ctlValue s j d

theorem regsKept_refl (s : State) (i : Issue) : s.RegsKept i s := ⟨rfl, rfl, rfl, fun _ _ _ => rfl⟩

/-- To take the matrix set changes no register (R155). -/
theorem regsKept_owner (s : State) (i : Issue) : s.RegsKept i (s.modCore i.pre.core fun k => { k with owner := some i.proc }) := by
  refine ⟨rfl, rfl, rfl, fun j d hj => ctlValue_congr (State.setCore_parts ..) (State.setCore_insts ..) ?_ ?_ d⟩
  · rw [← hj, State.core_setCore_same]
  · rw [← hj, State.core_setCore_same]
    rfl

/-- An access to a register passes where the matrix set is free or the issuer's. -/
theorem ctlMatrix_ok {s : State} {i : Issue} (hown : (s.core i.pre.core).owner = none ∨ (s.core i.pre.core).owner = some i.proc) (c : Ctl) :
    ∃ u, ctlMatrix s i c = .ok u ∧ s.RegsKept i u := by
  cases c with
  | dmap n =>
    obtain hnone | hmine := hown
    · exact ⟨_, by simp only [ctlMatrix, State.claimMatrix, hnone], regsKept_owner s i⟩
    · exact ⟨s, by simp only [ctlMatrix, State.claimMatrix, hmine, if_true], regsKept_refl s i⟩
  | _ => exact ⟨s, rfl, regsKept_refl s i⟩

/-! ### What a write stores (R260) -/

theorem ctlStore_frame (s : State) (i : Issue) (c : Ctl) (a : Word) : (ctlStore s i c a).mem = s.mem ∧ (ctlStore s i c a).issue = s.issue := by
  cases c <;> exact ⟨rfl, rfl⟩

section Store

variable {s : State} {i : Issue} {c : Ctl} (hro : ctlReadOnly c = false) (hshoot : c ≠ .shoot) (hcore : i.pre.core = (s.proc i.proc).core)
  (a : Word)
include hro hshoot hcore

/-- A register that was written reads as the fields that are not reserved. -/
theorem ctlValue_ctlStore_same :
    ctlValue (ctlStore s i c a) { i with pre := (ctlStore s i c a).proc i.proc } c = a &&& ctlMask c := by
  cases c with
  | flags | rmode | rot | svc | heapoff | accept | compat | watch0 | watch1 | tmo | ptag =>
    simp only [ctlValue, ctlStore, State.modProc_eq, State.proc_setProc_same]
  | dmap j =>
    simp [ctlValue, ctlStore, ← hcore]
  | migpol | mighand | mgrhand => simp only [ctlValue, ctlStore, State.modPart_eq, State.part_setPart_same]
  | shoot => exact absurd rfl hshoot
  | _ => cases hro

/-- The other registers read as before. -/
theorem ctlValue_ctlStore_other {d : Ctl} (hd : d ≠ c) :
    ctlValue (ctlStore s i c a) { i with pre := (ctlStore s i c a).proc i.proc } d = ctlValue s { i with pre := s.proc i.proc } d := by
  cases c with
  | flags | rmode | rot | svc | heapoff | accept | compat | watch0 | watch1 | tmo | ptag =>
    simp only [ctlStore, State.modProc_eq, State.proc_setProc_same]
    rw [ctlValue_congr (s := s) rfl rfl rfl rfl]
    cases d <;> simp_all [ctlValue]
  | dmap j =>
    cases d with
    | dmap k =>
      have hne : (j : Nat) ≠ k := fun h => hd (congrArg _ (Fin.ext h.symm))
      simp [ctlValue, ctlStore, ← hcore, Vector.getElem_set_ne, hne]
    | tokens =>
      simp only [ctlValue, ctlStore, State.modCore_eq, State.setCore_proc, hcore, State.core_setCore_same]
      rfl
    | _ => rfl
  | migpol | mighand | mgrhand =>
    cases d <;> simp_all [ctlValue, ctlStore]
  | shoot => exact absurd rfl hshoot
  | _ => cases hro

end Store

/-! ### The words -/

section Words

variable {s u : State} {i : Issue} (hi : s.issue = some i) {c : Ctl} {x : Src} {a : Word} {k : Keep}
include hi

theorem exec_ctlw (hro : ctlReadOnly c = false) (hmgr : ctlManager c = true → s.isMgr i.proc = true) (hx : readSrc i x = .ok a)
    (hmode : c = .rmode → a.toNat % 8 < 5) (hu : ctlMatrix s i c = .ok u) : exec (.ctlw c x) s = .next (ctlStore u i c a) := by
  have harm : exec (.ctlw c x) s = execCtlw c x s := rfl
  have hpriv : (!ctlReadOnly c && (!ctlManager c || s.isMgr i.proc)) = true := by
    cases hm : ctlManager c with
    | false => simp [hro]
    | true => simp [hro, hmgr hm]
  have hvalue : (c != .rmode || decide (a.toNat % 8 < 5)) = true := by
    by_cases hc : c = .rmode
    · simp [hmode hc]
    · simp [hc]
  simp only [harm, execCtlw, cur_some hi, ok_bind, hpriv, check_true, hx, hvalue, hu, finish_ok]

theorem exec_ctlw_priv (h : ctlReadOnly c = true ∨ ctlManager c = true ∧ s.isMgr i.proc = false) :
    exec (.ctlw c x) s = .next (s.raise { kind := .priv }) := by
  have harm : exec (.ctlw c x) s = execCtlw c x s := rfl
  have hpriv : (!ctlReadOnly c && (!ctlManager c || s.isMgr i.proc)) = false := by
    obtain hro | ⟨hm, hmgr⟩ := h
    · simp [hro]
    · simp [hm, hmgr]
  simp only [harm, execCtlw, cur_some hi, ok_bind, hpriv, check_false, error_bind, finish_trap]

theorem exec_ctlr (hroot : c = .ptroot → s.isMgr i.proc = true) (hu : ctlMatrix s i c = .ok u) :
    exec (.ctlr c k) s = .next (u.push i (ctlValue u i c) k) := by
  have harm : exec (.ctlr c k) s = execCtlr c k s := rfl
  have hpriv : (c != .ptroot || s.isMgr i.proc) = true := by
    by_cases hc : c = .ptroot
    · simp [hroot hc]
    · simp [hc]
  simp only [harm, execCtlr, cur_some hi, ok_bind, hpriv, check_true, hu, finish_ok]

theorem exec_ctlr_priv (hmgr : s.isMgr i.proc = false) : exec (.ctlr .ptroot k) s = .next (s.raise { kind := .priv }) := by
  have harm : exec (.ctlr .ptroot k) s = execCtlr .ptroot k s := rfl
  have hpriv : ((Ctl.ptroot != .ptroot) || s.isMgr i.proc) = false := by simp [hmgr]
  simp only [harm, execCtlr, cur_some hi, ok_bind, hpriv, check_false, error_bind, finish_trap]

end Words

/-! ### The obligation -/

/-- Settles O20: privilege first, then the store of `ctlValue_ctlStore_same` and `ctlValue_ctlStore_other` on a state whose registers
are as they were (`ctlMatrix_ok`). -/
theorem controlRegisters : Obligations.ControlRegisters := by
  refine ⟨fun s i c x a hi hx hshoot hro hmgr hmode hcore hown => ?write, fun s i c k hi hroot hown => ?read,
    fun s i c x hi h => exec_ctlw_priv hi h, fun s i k hi hmgr => exec_ctlr_priv hi hmgr⟩
  case write =>
    obtain ⟨u, hu, hmem, hprocs, hissue, hvalue⟩ := ctlMatrix_ok hown c
    have hproc : u.proc i.proc = s.proc i.proc := by rw [State.proc, State.proc, hprocs]
    have hcore' : i.pre.core = (u.proc i.proc).core := by rw [hproc, hcore]
    obtain ⟨hmem', hissue'⟩ := ctlStore_frame u i c a
    refine ⟨_, exec_ctlw hi hro hmgr hx hmode hu, hissue'.trans (hissue.trans hi), hmem'.trans hmem,
      ctlValue_ctlStore_same hro hshoot hcore' a, fun d hd _ => ?_⟩
    rw [ctlValue_ctlStore_other hro hshoot hcore' a hd, hproc]
    exact hvalue { i with pre := s.proc i.proc } d hcore
  case read =>
    obtain ⟨u, hu, hmem, hprocs, -, hvalue⟩ := ctlMatrix_ok hown c
    refine ⟨u, ?_, hmem, hprocs⟩
    rw [exec_ctlr hi hroot hu, hvalue i c rfl]

end Sys2Proof.Machine
end

section
/-! SUPPORT. The scalar memory words (O23, O24, O25): each reads its operands and stands or falls with `effAddr`. -/

namespace Sys2Proof.Machine

/-! ### Loads, atomics and waits (R291 to R300) -/

section Issue

variable {s : State} {i : Issue} (hi : s.issue = some i) {x y z : Src} {p n v : Word} (hx : readSrc i x = .ok p)
  {a : Access} (k : Keep)
include hi hx

theorem exec_ld {t : LdTy} {d : BitVec 11} (ha : effAddr s i .scalar .load p (d.toInt * ldBytes t) (ldBytes t) false = .ok a) :
    exec (.ld t x k d) s =
      .next ((a.st.issuePend i (accessTxn i a (.load a.parts (ldExt t))) k).afterLoad i a s.nextTxn) := by
  have harm : exec (.ld t x k d) s = execLd t x k d s := rfl
  simp only [harm, execLd, cur_some hi, ok_bind, hx, loadOne, ha, finish_ok]

theorem exec_ld128 {d : BitVec 11} (ha : effAddr s i .scalar .load p (d.toInt * 16) 16 false = .ok a) :
    exec (.ld128 x d) s = .next ((a.st.issuePend2 i (accessTxn i a (.load2 a.parts)) none).afterLoad i a s.nextTxn) := by
  have harm : exec (.ld128 x d) s = execLd128 x d s := rfl
  simp only [harm, execLd128, cur_some hi, ok_bind, hx, loadTwo, ha, finish_ok]

theorem exec_ldx (hy : readSrc i y = .ok n) {t : LdTy}
    (ha : effAddr s i .scalar .load p (n.toInt * ldBytes t) (ldBytes t) false = .ok a) :
    exec (.ldx (.ty t) x y k) s =
      .next ((a.st.issuePend i (accessTxn i a (.load a.parts (ldExt t))) k).afterLoad i a s.nextTxn) := by
  have harm : exec (.ldx (.ty t) x y k) s = execLdx (.ty t) x y k s := rfl
  simp only [harm, execLdx, cur_some hi, ok_bind, hx, hy, loadOne, ha, finish_ok]

theorem exec_ldx128 (hy : readSrc i y = .ok n) (ha : effAddr s i .scalar .load p (n.toInt * 16) 16 false = .ok a) :
    exec (.ldx .w128 x y k) s = .next ((a.st.issuePend2 i (accessTxn i a (.load2 a.parts)) none).afterLoad i a s.nextTxn) := by
  have harm : exec (.ldx .w128 x y k) s = execLdx .w128 x y k s := rfl
  simp only [harm, execLdx, cur_some hi, ok_bind, hx, hy, loadTwo, ha, finish_ok]

theorem exec_prf (d : BitVec 11) : exec (.prfR x d) s = .next s ∧ exec (.prfW x d) s = .next s := by
  have hprefetch : finish s (prefetch s x) = .next s := by
    simp only [prefetch, cur_some hi, ok_bind, hx, finish_ok]
  exact ⟨hprefetch, hprefetch⟩

theorem exec_atom (hy : readSrc i y = .ok n) {op : AtomOp} (ha : effAddr s i .atom .atomic p 0 (atomBytes op) true = .ok a) :
    exec (.atom op x y k) s = .next
      (((a.st.issuePend i (accessTxn i a (.atom op a.parts n)) k).holdAccess i a s.nextTxn).watch i true true a.parts) := by
  have harm : exec (.atom op x y k) s = execAtom op x y k s := rfl
  simp only [harm, execAtom, cur_some hi, ok_bind, hx, hy, ha, finish_ok]

theorem exec_atomCas (hy : readSrc i y = .ok n) (hz : readSrc i z = .ok v) {wide : Bool}
    (ha : effAddr s i .atom .atomic p 0 (if wide then 8 else 4) true = .ok a) :
    exec (.atomCas wide x y z) s = .next
      (((a.st.issuePend i (accessTxn i a (.cas wide a.parts n v)) none).holdAccess i a s.nextTxn).watch i true true a.parts) := by
  have harm : exec (.atomCas wide x y z) s = execAtomCas wide x y z s := rfl
  simp only [harm, execAtomCas, cur_some hi, ok_bind, hx, hy, hz, ha, finish_ok]

theorem exec_waita (hy : readSrc i y = .ok n) {wide : Bool} (ha : effAddr s i .waita .load p 0 (if wide then 8 else 4) true = .ok a) :
    exec (.waita wide x y k) s = .next (a.st.issuePend i (accessTxn i a (.waita wide a.parts n)) k) := by
  have harm : exec (.waita wide x y k) s = execWaita wide x y k s := rfl
  simp only [harm, execWaita, cur_some hi, ok_bind, hx, hy, ha, finish_ok]

/-! ### Stores, reductions and wakes (R292, R296, R297, R302) -/

theorem exec_st (hy : readSrc i y = .ok n) {t : StTy} {d : BitVec 11}
    (ha : effAddr s i .scalar .store p (d.toInt * stBytes t) (stBytes t) false = .ok a) : exec (.st t x y d) s = .next
      ((a.st.issueWrite i a .store (.store a.parts (leBytes (stBytes t) n.toNat)) (stBytes t)).watch i false true a.parts) := by
  have harm : exec (.st t x y d) s = execSt t x y d s := rfl
  simp only [harm, execSt, cur_some hi, ok_bind, hx, hy, storeOne, ha, finish_ok]

theorem exec_stx (hy : readSrc i y = .ok n) (hz : readSrc i z = .ok v) {t : StTy}
    (ha : effAddr s i .scalar .store p (n.toInt * stBytes t) (stBytes t) false = .ok a) : exec (.stx t x y z) s = .next
      ((a.st.issueWrite i a .store (.store a.parts (leBytes (stBytes t) v.toNat)) (stBytes t)).watch i false true a.parts) := by
  have harm : exec (.stx t x y z) s = execStx t x y z s := rfl
  simp only [harm, execStx, cur_some hi, ok_bind, hx, hy, hz, storeOne, ha, finish_ok]

theorem exec_red (hy : readSrc i y = .ok n) {op : AtomOp} (ha : effAddr s i .atom .reduction p 0 (atomBytes op) true = .ok a) :
    exec (.red op x y) s =
      .next ((a.st.issueWrite i a .reduction (.red op a.parts n) (atomBytes op)).watch i true true a.parts) := by
  have harm : exec (.red op x y) s = execRed op x y s := rfl
  simp only [harm, execRed, cur_some hi, ok_bind, hx, hy, ha, finish_ok]

theorem exec_redx (hy : readSrc i y = .ok n) {int : Bool} (ha : effAddr s i .redx .reduction p 0 72 false = .ok a)
    (h8 : pOff p % 8 = 0) (hpage : pOff p % 2 ^ 16 + 72 ≤ 2 ^ 16) :
    exec (.redx int x y) s = .next ((a.st.issueWrite i a .reduction (.redx int a.parts n) 72).watch i true true a.parts) := by
  have harm : exec (.redx int x y) s = execRedx int x y s := rfl
  have hplace : (pOff p % 8 == 0 && decide (pOff p % 2 ^ 16 + 72 ≤ 2 ^ 16)) = true := by rw [decide_eq_true hpage, h8]; rfl
  simp only [harm, execRedx, cur_some hi, ok_bind, hx, hy, hplace, check_true, ha, finish_ok]

theorem exec_wake (hy : readSrc i y = .ok n) {sc : Scope} (ha : effAddr s i .waita .load p 0 8 true = .ok a) :
    exec (.wake sc x y) s =
      .next ((a.st.addFence i.proc .rel sc).issueQuiet (accessTxn i a (.wake sc a.parts n.toNat))) := by
  have harm : exec (.wake sc x y) s = execWake sc x y s := rfl
  simp only [harm, execWake, cur_some hi, ok_bind, hx, hy, ha, finish_ok]

end Issue

/-! ### Fences (R299) -/

theorem exec_fence {s : State} {i : Issue} (hi : s.issue = some i) (f : FenceKind) (sc : Scope) :
    exec (.fence f sc) s = .next (s.addFence i.proc f sc) := by
  have harm : exec (.fence f sc) s = execFence f sc s := rfl
  simp only [harm, execFence, cur_some hi, ok_bind, finish_ok]

/-- A fence enters the list of its process, whose floor alone changes with it. -/
theorem addFence_frame (s : State) (k : Nat) (f : FenceKind) (sc : Scope) : ∃ floor fences,
    s.addFence k f sc = s.setProc k { s.proc k with floor := floor, fences := fences ++ [{ kind := f, scope := sc, stamp := s.nextTxn }] } :=
  ⟨_, _, rfl⟩

/-! ### Schedule tables (R254) -/

/-- Where the entry at a cursor lies. -/
def Proc.schedVa (p : Proc) : Word := p.schedBase + BitVec.ofNat 64 (8 * p.schedCur)

/-- The cursor of a process steps, as `sched` makes it before its translation. -/
def State.stepCursor (s : State) (k : Nat) : State := s.modProc k fun p => { p with schedCur := p.schedCur + 1 }

theorem stepCursor_proc (s : State) (k : Nat) : (s.stepCursor k).proc k = { s.proc k with schedCur := (s.proc k).schedCur + 1 } :=
  State.proc_setProc_same ..

/-- A translation fills TLBs and counts the lines of its walk (R92, R99, R110). -/
theorem lookup_frame (s : State) (core part vpn : Nat) : ∃ cores clusters lines hot mbds, (s.lookup core part vpn).1 =
    { s with cores := cores, clusters := clusters, lineCount := lines, hot := hot, mbds := mbds } := by
  obtain ⟨lines, hot, mbds, hcount⟩ := State.Counts.countWalk s part vpn
  unfold State.lookup
  split
  · exact ⟨s.cores, s.clusters, s.lineCount, s.hot, s.mbds, rfl⟩
  · split
    · exact ⟨_, s.clusters, s.lineCount, s.hot, s.mbds, rfl⟩
    · rw [hcount]
      split
      · exact ⟨s.cores, s.clusters, lines, hot, mbds, rfl⟩
      · exact ⟨_, _, lines, hot, mbds, rfl⟩

section Lookup

variable (s : State) (core part vpn : Nat)

@[simp] theorem lookup_issue : (s.lookup core part vpn).1.issue = s.issue := by
  obtain ⟨cores, clusters, lines, hot, mbds, h⟩ := lookup_frame s core part vpn
  rw [h]

@[simp] theorem lookup_nextTxn : (s.lookup core part vpn).1.nextTxn = s.nextTxn := by
  obtain ⟨cores, clusters, lines, hot, mbds, h⟩ := lookup_frame s core part vpn
  rw [h]

@[simp] theorem lookup_proc (k : Nat) : (s.lookup core part vpn).1.proc k = s.proc k := by
  obtain ⟨cores, clusters, lines, hot, mbds, h⟩ := lookup_frame s core part vpn
  rw [h]
  rfl

end Lookup

theorem lookup_tlb {s : State} {core part vpn : Nat} {e : TlbEnt} (h : tlbFind (s.core core).tlb part vpn = some e) :
    s.lookup core part vpn = (s, .ok e) := by
  unfold State.lookup
  rw [h]

@[simp] theorem isolate_issue (s : State) (part : Nat) (f : Option Nat) : (s.isolate part f).issue = s.issue := by cases f <;> rfl
@[simp] theorem isolate_nextTxn (s : State) (part : Nat) (f : Option Nat) : (s.isolate part f).nextTxn = s.nextTxn := by
  cases f <;> rfl
@[simp] theorem isolate_proc (s : State) (part : Nat) (f : Option Nat) (k : Nat) : (s.isolate part f).proc k = s.proc k := by
  cases f <;> rfl

section Sched

variable {s : State} {i : Issue} (hi : s.issue = some i) (k : Keep)
include hi

theorem exec_sched_end (hend : i.pre.schedLen ≤ i.pre.schedCur) : exec (.sched k) s = .next (s.pushLater i 0 0 k 100) := by
  have harm : exec (.sched k) s = execSched k s := rfl
  simp only [harm, execSched, cur_some hi, ok_bind, if_pos hend, finish_ok]

/-- The entry at the cursor is asked for at its translation, or the word's operation fails; the cursor steps either way. -/
theorem exec_sched (hlt : i.pre.schedCur < i.pre.schedLen)
    (hbusy : s.unitBusy none i.pre.core (partOf i.proc) (pOff i.pre.schedVa / 2 ^ 16) = false) :
    ∃ (u : State) (x : Txn), exec (.sched k) s = .next (u.issuePend i x k) ∧ u.issue = s.issue ∧ u.nextTxn = s.nextTxn ∧
      u.proc i.proc = { s.proc i.proc with schedCur := (s.proc i.proc).schedCur + 1 } ∧
      ∀ e, tlbFind (s.core i.pre.core).tlb (partOf i.proc) (pOff i.pre.schedVa / 2 ^ 16) = some e → x.op =
        .sched [{ at_ := .mem (e.frame * 2 ^ 16 + pOff i.pre.schedVa % 2 ^ 16), len := 8, va := pOff i.pre.schedVa }] i.pre.schedVa := by
  have harm : exec (.sched k) s = execSched k s := rfl
  have hfree : ¬ (s.stepCursor i.proc).unitBusy none i.pre.core (partOf i.proc) (pOff i.pre.schedVa / 2 ^ 16) = true :=
    Bool.not_eq_true _ ▸ hbusy
  have hproc : ((s.stepCursor i.proc).lookup i.pre.core (partOf i.proc) (pOff i.pre.schedVa / 2 ^ 16)).1.proc i.proc = _ :=
    (lookup_proc ..).trans (stepCursor_proc ..)
  have htlb : ∀ e, tlbFind (s.core i.pre.core).tlb (partOf i.proc) (pOff i.pre.schedVa / 2 ^ 16) = some e → _ :=
    fun e he => congrArg Prod.snd (lookup_tlb (s := s.stepCursor i.proc) he)
  simp only [Proc.schedVa, State.stepCursor] at hfree hproc htlb
  simp only [harm, execSched, cur_some hi, ok_bind, if_neg (Nat.not_le.2 hlt), if_neg hfree, Proc.schedVa]
  split
  · next e he =>
    refine ⟨_, _, rfl, lookup_issue .., lookup_nextTxn .., hproc, fun e' he' => ?_⟩
    cases he.symm.trans (htlb e' he')
    rfl
  · next f hf =>
    refine ⟨_, _, rfl, ?_, ?_, ?_, fun e' he' => ?_⟩
    · rw [isolate_issue, lookup_issue]
      rfl
    · rw [isolate_nextTxn, lookup_nextTxn]
      rfl
    · rw [isolate_proc, hproc]
    · cases hf.symm.trans (htlb e' he')

end Sched

/-! ### The checks of an access (R290) -/

/-- The name of the first byte of an access, its offset taken within 51 bits. -/
def accessName (p : Word) (delta : Int) : Word := BitVec.ofNat 64 (fatOf (pSpace p) ((pOff p + delta) % 2 ^ 51).toNat)

theorem accessName_zero (p : Word) : accessName p 0 = BitVec.ofNat 64 (pSpace p * 2 ^ 60 + pOff p) := by
  have hoff : pOff p < 2 ^ 51 := Nat.mod_lt _ (by norm_num)
  have hmod : ((pOff p + 0 : Int) % 2 ^ 51).toNat % 2 ^ 51 = pOff p := by omega
  rw [accessName, fatOf, hmod]

section Faults

variable (s : State) (i : Issue) {k : Acc5} {p : Word} {delta : Int} {len : Nat}

theorem effAddr_misaligned {f : Form} (h : (pOff p + delta) % len ≠ 0) :
    effAddr s i f k p delta len true = .error (.trap { kind := .illegalOperand, addr := accessName p delta }) := by
  have hcheck : (!true || (pOff p + delta) % len == 0) = false := by simp [h]
  simp only [effAddr, hcheck, check_false, error_bind, accessName]

theorem effAddr_unpermitted {f : Form} (h : (pOff p + delta) % len = 0) (hsp : pSpace p < 8) (hform : permitted f (pSpace p) = false) :
    effAddr s i f k p delta len true = .error (.trap { kind := .illegalOperand, addr := accessName p delta }) := by
  have hcheck : (!true || (pOff p + delta) % len == 0) = true := by simp [h]
  have hspace : (decide (8 ≤ pSpace p) || permitted f (pSpace p)) = false := by simp [hform, hsp]
  simp only [effAddr, hcheck, check_true, ok_bind, hspace, check_false, error_bind, accessName]

theorem effAddr_reserved (h : 8 ≤ pSpace p) :
    effAddr s i .scalar k p delta len false = .error (.trap { kind := .spaceInvalid, addr := accessName p delta }) := by
  have hseven : (pSpace p != 7 || ((len == 4 || len == 8) && (pOff p + delta) % len == 0)) = true := by
    have : pSpace p ≠ 7 := by omega
    simp [this]
  have hlow : decide (pSpace p < 8) = false := decide_eq_false (Nat.not_lt.2 h)
  simp only [effAddr, Bool.not_false, Bool.true_or, permitted, Bool.or_true, check_true, ok_bind, hseven, hlow, check_false,
    error_bind, accessName]

/-- Below space 0x7 a scalar access fails as its range does. -/
theorem effAddr_range {e : Abort} (h : pSpace p < 7) (he : spaceRange s i .scalar k.writes (pSpace p) (pOff p + delta) len = .error e) :
    effAddr s i .scalar k p delta len false = .error e := by
  have hseven : (pSpace p != 7 || ((len == 4 || len == 8) && (pOff p + delta) % len == 0)) = true := by
    have : pSpace p ≠ 7 := by omega
    simp [this]
  have hlow : decide (pSpace p < 8) = true := decide_eq_true (by omega)
  simp only [effAddr, Bool.not_false, Bool.true_or, permitted, Bool.or_true, check_true, ok_bind, hseven, hlow, he, error_bind]

variable {f : Form} {wr : Bool} {sp : Nat} {off : Int}

/-- Outside 51 bits, an access of memory, a window or host memory raises FAT_OVERFLOW. -/
theorem spaceRange_overflow (hsp : sp < 2 ∨ sp = 4 ∨ sp = 6) (h : off < 0 ∨ 2 ^ 51 < off + len) :
    spaceRange s i f wr sp off len =
      .error (.trap { kind := .fatOverflow, addr := BitVec.ofNat 64 (fatOf sp (off % 2 ^ 51).toNat) }) := by
  have hfirst : (sp == 2 || sp == 3 || sp == 7 || (sp == 5 && (decide (0 ≤ off) && decide (off < 2 ^ 51)))) = false := by
    have h2 : (sp == 2) = false := beq_false_of_ne (by omega)
    have h3 : (sp == 3) = false := beq_false_of_ne (by omega)
    have h5 : (sp == 5) = false := beq_false_of_ne (by omega)
    have h7 : (sp == 7) = false := beq_false_of_ne (by omega)
    rw [h2, h3, h5, h7]
    rfl
  have hrange : (decide (0 ≤ off) && decide (off + len ≤ 2 ^ 51)) = false := by
    rw [Bool.and_eq_false_iff, decide_eq_false_iff_not, decide_eq_false_iff_not]
    omega
  simp only [spaceRange, hfirst, Bool.false_eq_true, if_false, ok_bind, hrange, check_false, error_bind]

/-- A scratchpad offset as its check sees it: one outside 51 bits lies beyond every scratchpad. -/
def spadOff (off : Int) : Nat := if 0 ≤ off ∧ off < 2 ^ 51 then off.toNat else (off % 2 ^ 51).toNat + 2 ^ 51

/-- Beyond the scratchpad, an access raises SPACE_INVALID. -/
theorem spaceRange_spad (h : sp = 2 ∧ 0x3F800 < spadOff off + len ∨
      sp = 3 ∧ (2 ^ 21 < spadOff off + len ∨ 0x3F800 < spadOff off % 2 ^ 18 + len)) :
    spaceRange s i f wr sp off len =
      .error (.trap { kind := .spaceInvalid, addr := BitVec.ofNat 64 (fatOf sp (spadOff off)) }) := by
  have hoff : (if (decide (0 ≤ off) && decide (off < 2 ^ 51)) = true then (off % 2 ^ 51).toNat else (off % 2 ^ 51).toNat + 2 ^ 51) =
      spadOff off := by
    simp only [spadOff, Bool.and_eq_true, decide_eq_true_eq]
    split
    · omega
    · rfl
  obtain ⟨rfl, hlim⟩ | ⟨rfl, hlim⟩ := h
  · have hbad : decide (spadOff off + len ≤ 0x3F800) = false := decide_eq_false (by omega)
    simp only [spaceRange, spaceCheck, hoff, beq_self_eq_true, Bool.true_or, if_true, hbad, check_false, error_bind]
  · have hbad : (decide (spadOff off + len ≤ 2 ^ 21) && decide (spadOff off % 2 ^ 18 + len ≤ 0x3F800)) = false := by
      rw [Bool.and_eq_false_iff, decide_eq_false_iff_not, decide_eq_false_iff_not]
      omega
    simp only [spaceRange, spaceCheck, hoff, beq_self_eq_true, Bool.or_true, Bool.true_or, if_true, Nat.reduceEqDiff, if_false, hbad,
      check_false, error_bind]

end Faults

section FaultWords

variable {s : State} {i : Issue} (hi : s.issue = some i) {x y : Src} {p n : Word} (hx : readSrc i x = .ok p)
  (hy : readSrc i y = .ok n) {t : Trap}
include hi hx hy

theorem exec_st_trap {w : StTy} {d : BitVec 11}
    (h : effAddr s i .scalar .store p (d.toInt * stBytes w) (stBytes w) false = .error (.trap t)) :
    exec (.st w x y d) s = .next (s.raise t) := by
  have harm : exec (.st w x y d) s = execSt w x y d s := rfl
  simp only [harm, execSt, cur_some hi, ok_bind, hx, hy, storeOne, h, error_bind, finish_trap]

theorem exec_atom_trap {op : AtomOp} {k : Keep} (h : effAddr s i .atom .atomic p 0 (atomBytes op) true = .error (.trap t)) :
    exec (.atom op x y k) s = .next (s.raise t) := by
  have harm : exec (.atom op x y k) s = execAtom op x y k s := rfl
  simp only [harm, execAtom, cur_some hi, ok_bind, hx, hy, h, error_bind, finish_trap]

end FaultWords

/-! ### The obligations -/

/-- Settles O23: each word by its equation above. -/
theorem loadAndAtomicIssue : Obligations.LoadAndAtomicIssue := by
  intro s i x y z k p n v hi hx hy hz
  exact ⟨fun t d a => exec_ld hi hx k, fun d a => exec_ld128 hi hx, fun t a => exec_ldx hi hx k hy, fun a => exec_ldx128 hi hx k hy,
    fun d => exec_prf hi hx d, fun op a => exec_atom hi hx k hy, fun wide a => exec_atomCas hi hx hy hz,
    fun wide a => exec_waita hi hx k hy⟩

/-- Settles O24: the stores, reductions and `wake` by their equations, a fence by `addFence_frame`, `sched` by `exec_sched`. -/
theorem storeAndFenceIssue : Obligations.StoreAndFenceIssue := by
  intro s i x y z k p n v hi hx hy hz
  refine ⟨fun t d a => exec_st hi hx hy, fun t a => exec_stx hi hx hy hz, fun op a => exec_red hi hx hy,
    fun int a => exec_redx hi hx hy, fun f sc => ⟨_, exec_fence hi f sc, ?fence⟩, fun sc a => exec_wake hi hx hy,
    exec_sched_end hi k, fun hpre hlt hbusy => ?sched⟩
  case fence =>
    obtain ⟨floor, fences, hfence⟩ := addFence_frame s i.proc f sc
    rw [hfence, State.proc_setProc_same]
    exact ⟨rfl, List.getLast?_concat, rfl⟩
  case sched =>
    obtain ⟨u, e, hexec, hissue, hnext, hproc, hop⟩ := exec_sched hi k hlt hbusy
    refine ⟨_, hexec, hissue.trans hi, ?_, ?_, fun t ht => ⟨_, hnext ▸ issuePend_txn .., ?_⟩⟩
    · rw [issuePend_proc, pushPend_frame, hproc, hpre]
    · rw [issuePend_proc]
      exact pushPend_qpend_zero ..
    · exact ⟨_, _, hop t ht, rfl, rfl⟩

/-- Settles O25: the checks in their order, each by the lemma on the access or the range that fails it. -/
theorem accessFaults : Obligations.AccessFaults := by
  intro s i x y d p v op hi hx hy
  dsimp only
  refine ⟨fun hsp => ⟨_, exec_st_trap hi hx hy (effAddr_reserved s i hsp)⟩, fun hsp hoff => ?overflow,
    fun hlim => ?spad, fun hmod => ?misaligned, fun hmod hsp => ?form⟩
  case overflow => exact ⟨_, exec_st_trap hi hx hy (effAddr_range s i (by omega) (spaceRange_overflow s i hsp hoff))⟩
  case spad =>
    have hbad : pSpace p = 2 ∧ 0x3F800 < spadOff (pOff p + d.toInt * 8) + 8 ∨
        pSpace p = 3 ∧ (2 ^ 21 < spadOff (pOff p + d.toInt * 8) + 8 ∨ 0x3F800 < spadOff (pOff p + d.toInt * 8) % 2 ^ 18 + 8) := by
      unfold spadOff
      split <;> omega
    refine ⟨_, exec_st_trap hi hx hy (effAddr_range s i (by omega) (spaceRange_spad s i hbad)), fun h0 h51 => ?_⟩
    change BitVec.ofNat 64 (fatOf (pSpace p) (spadOff (pOff p + d.toInt * 8))) = _
    rw [spadOff, if_pos ⟨h0, h51⟩, fatOf, Nat.mod_eq_of_lt (by omega)]
  case misaligned =>
    rw [← accessName_zero]
    exact exec_atom_trap hi hx hy (effAddr_misaligned s i (by rw [Int.add_zero]; exact_mod_cast hmod))
  case form =>
    rw [← accessName_zero]
    refine exec_atom_trap hi hx hy (effAddr_unpermitted s i (by rw [Int.add_zero]; exact_mod_cast hmod) (by omega) ?_)
    obtain h | h | h := hsp <;> rw [h] <;> rfl

end Sys2Proof.Machine
end

section
/-! SUPPORT. The combining operations of the atomics (O38), and a load served and arriving (O39). -/

namespace Sys2Proof.Machine

/-! ### The integer combinations (R294) -/

/-- The signed value of a `w`-bit natural, as `atomApply` takes it. -/
theorem toInt_eq_ite {w : Nat} (hw : 0 < w) (a : BitVec w) :
    (if a.toNat < 2 ^ (w - 1) then (a.toNat : Int) else (a.toNat : Int) - 2 ^ w) = a.toInt := by
  have hpow : 2 ^ w = 2 * 2 ^ (w - 1) := by rw [← Nat.pow_succ', Nat.succ_eq_add_one, Nat.sub_add_cancel hw]
  rw [BitVec.toInt_eq_toNat_cond]
  push_cast
  by_cases h : a.toNat < 2 ^ (w - 1)
  · rw [if_pos h, if_pos (by omega)]
  · rw [if_neg h, if_neg (by omega)]

theorem minSigned_eq {w : Nat} (a b : BitVec w) :
    (if b.toInt < a.toInt then b.toNat else a.toNat) = (if a.toInt ≤ b.toInt then a else b).toNat := by
  by_cases h : a.toInt ≤ b.toInt
  · rw [if_pos h, if_neg (not_lt.2 h)]
  · rw [if_neg h, if_pos (not_le.1 h)]

theorem maxSigned_eq {w : Nat} (a b : BitVec w) :
    (if a.toInt < b.toInt then b.toNat else a.toNat) = (if b.toInt ≤ a.toInt then a else b).toNat := by
  by_cases h : b.toInt ≤ a.toInt
  · rw [if_pos h, if_neg (not_lt.2 h)]
  · rw [if_neg h, if_pos (not_le.1 h)]

section Signed

theorem atomApply_minI64 (a b : BitVec 64) : (atomApply .minI64 a.toNat b.toNat).1 = (if a.toInt ≤ b.toInt then a else b).toNat := by
  rw [← minSigned_eq, ← toInt_eq_ite (by norm_num) a, ← toInt_eq_ite (by norm_num) b]
  rfl

theorem atomApply_maxI64 (a b : BitVec 64) : (atomApply .maxI64 a.toNat b.toNat).1 = (if b.toInt ≤ a.toInt then a else b).toNat := by
  rw [← maxSigned_eq, ← toInt_eq_ite (by norm_num) a, ← toInt_eq_ite (by norm_num) b]
  rfl

theorem atomApply_minI32 (a b : BitVec 32) : (atomApply .minI32 a.toNat b.toNat).1 = (if a.toInt ≤ b.toInt then a else b).toNat := by
  rw [← minSigned_eq, ← toInt_eq_ite (by norm_num) a, ← toInt_eq_ite (by norm_num) b]
  rfl

theorem atomApply_maxI32 (a b : BitVec 32) : (atomApply .maxI32 a.toNat b.toNat).1 = (if b.toInt ≤ a.toInt then a else b).toNat := by
  rw [← maxSigned_eq, ← toInt_eq_ite (by norm_num) a, ← toInt_eq_ite (by norm_num) b]
  rfl

end Signed

/-! ### A read at its home (R291, R298) -/

theorem leNat_lt (bs : List Byte) : leNat bs < 2 ^ (8 * bs.length) := by
  induction bs with
  | nil => simp [leNat]
  | cons b t ih =>
    have hb := b.isLt
    have hpow : 2 ^ (8 * (b :: t).length) = 256 * 2 ^ (8 * t.length) := by
      rw [List.length_cons, Nat.mul_add, Nat.pow_add, Nat.mul_comm]
    rw [leNat, hpow]
    omega

/-- The sign extension of a load is that of two's complement. -/
theorem make_sign {n : Nat} (hn : 0 < n) {bs : List Byte} (hlen : bs.length = n) :
    (Ext.sign n).make bs = (BitVec.ofNat (8 * n) (leNat bs)).signExtend 64 := by
  have hval : (BitVec.ofNat (8 * n) (leNat bs)).toNat = leNat bs := by
    rw [BitVec.toNat_ofNat, Nat.mod_eq_of_lt (hlen ▸ leNat_lt bs)]
  rw [BitVec.signExtend, ← toInt_eq_ite (by omega), hval, Ext.make]
  split
  · rw [BitVec.ofInt_natCast]
  · rfl

section Read

variable {s : State} {t : Nat} {x : Txn} {p : Part8} {e : Ext}

/-- A read served whole on good data: memory stands, and its bytes start back. -/
theorem serveRead_load (hop : x.op = .load [p] e) (hbad : s.badPart [p] = none) (hdone : x.unitsDone = []) (hgot : x.got = []) :
    (s.serveRead t x).mem = s.mem ∧ nget? (s.serveRead t x).txns t =
      some { x with stage := .back { vals := [e.make (s.partBytes (dieOf x.core) p)], kept := [e.make (s.partBytes (dieOf x.core) p)] } } := by
  have hparts : x.op.parts = [p] := by rw [hop]; rfl
  have hbytes : s.readAll x = s.partBytes (dieOf x.core) p := by
    simp [State.readAll, hgot, hparts, State.allBytes]
  have hvalue : s.readValue x = { vals := [e.make (s.partBytes (dieOf x.core) p)], kept := [e.make (s.partBytes (dieOf x.core) p)] } := by
    simp only [State.readValue, hop, hbytes]
  have hall : ¬ (x.unitsFor .whole).length + x.unitsDone.length < x.units.length := by
    rw [unitsFor_whole hdone, hdone]
    simp
  obtain ⟨lines, hot, mbds, hcount⟩ := State.Counts.countLines s [p] false
  obtain ⟨procs, hlearn⟩ := learn_eq (s.countLines [p] false) x.issuer (s.aheadTags (dieOf x.core))
  have hserve : s.serveRead t x = ((s.countLines [p] false).learn x.issuer (s.aheadTags (dieOf x.core))).setTxn t
      { x with stage := .back (s.readValue x) } := by
    have hupset : s.upsetRead .whole [p] = (s, false) := rfl
    simp only [State.serveRead, hparts, hupset, hbad, Bool.false_eq_true, if_false, if_neg hall]
    simp only [hop]
  rw [hserve, hlearn, hcount, hvalue]
  exact ⟨rfl, nget?_nset_same ..⟩

theorem exec_memoryServerRequest_load (ht : nget? s.txns t = some x) (hop : x.op = .load [p] e) (hc : s.canServe t x = true) :
    exec (.memoryServerRequest ⟨t, .whole⟩) s = .next (s.serveRead t x) := by
  have harm : exec (.memoryServerRequest ⟨t, .whole⟩) s = execMemoryServerRequest ⟨t, .whole⟩ s := rfl
  have hrole : (x.op.role == .ld) = true := by rw [hop]; rfl
  simp only [harm, execMemoryServerRequest, ht, hrole, Bool.true_or, if_true, hc]
  simp only [hop]

end Read

/-! ### A value arrives (R149, R150) -/

/-- What of a process a value that arrives is about: its ring and its named registers. -/
def Proc.regs (p : Proc) : Vector Word 16 × BitVec 16 × BitVec 32 × Vector Word 32 := (p.q, p.qPend, p.push, p.n)

/-- The lateness of a request is noted in `ctl.dlmiss` alone. -/
theorem miss_proc (s : State) (x : Txn) (k : Nat) : ∃ d, (s.miss x).proc k = { s.proc k with dlmiss := d } := by
  unfold State.miss
  dsimp only
  split
  · exact ⟨_, rfl⟩
  · rw [State.modProc_eq, State.proc_setProc]
    split
    · next h => rw [h]; exact ⟨_, rfl⟩
    · exact ⟨_, rfl⟩

/-- What an operation that has been served gives up as it ends: its cached reply and its power token; its lateness is noted. -/
theorem ending_spec (s : State) (t : Nat) (x : Txn) : let v := ((s.miss x).uncache t x).settleTxn x
    v.mem = s.mem ∧ ∀ k, ∃ d, v.proc k = { s.proc k with dlmiss := d } := by
  have hcache : ∃ w, (s.miss x).uncache t x = { s.miss x with windows := w } := by
    unfold State.uncache
    split
    · exact ⟨_, rfl⟩
    · exact ⟨_, rfl⟩
  obtain ⟨w, hcache⟩ := hcache
  dsimp only
  rw [hcache, State.settleTxn]
  split
  · exact ⟨miss_mem s x, miss_proc s x⟩
  · exact ⟨miss_mem s x, miss_proc s x⟩

theorem unpark_mem (s : State) (k : Nat) : (s.unpark k).mem = s.mem := by
  unfold State.unpark
  dsimp only
  split
  · rfl
  · rfl

theorem run_frame (p : Proc) : ∃ st was, p.run = { p with st := st, was := was } := by
  unfold Proc.run
  split
  · exact ⟨_, _, rfl⟩
  · split
    · exact ⟨_, _, rfl⟩
    · exact ⟨_, _, rfl⟩

/-- The end of a park changes no register. -/
theorem unpark_proc (s : State) (k : Nat) : ((s.unpark k).proc k).regs = (s.proc k).regs ∧
    ((s.unpark k).proc k).exiting = (s.proc k).exiting := by
  unfold State.unpark
  dsimp only
  split
  · obtain ⟨st, was, hrun⟩ := run_frame (s.proc k)
    rw [State.proc_setProc_same, hrun]
    exact ⟨rfl, rfl⟩
  · exact ⟨rfl, rfl⟩

section Arrive

variable {s : State} {t : Nat} {x : Txn} {d : Deliver}

/-- Values for registers alone, of a process in its context that their operation has not outlived. -/
theorem deliver_regs (hctx : (s.proc x.issuer).ctx.isSome = true) (hleft : x.left = false) (hst : (s.proc x.issuer).st = .running)
    (hm : x.tgt.mats = []) : s.deliver t x d = (s.setProc x.issuer { (s.proc x.issuer).fill t x.tgt d with
      flags := (s.proc x.issuer).flags ||| d.flags, out := (s.proc x.issuer).out.filter (· != t) }).unpark x.issuer := by
  have hplace : ((s.proc x.issuer).fill t x.tgt d).ctx = (s.proc x.issuer).ctx := congrArg Prod.snd (fill_place ..)
  have hout : s.outlived x = false := by simp [State.outlived, hleft, hst]
  simp only [State.deliver, hout, Bool.false_eq_true, if_false, hm, if_true]
  rw [lateImg_of_ctx]
  rw [State.proc_setProc_same]
  exact hplace ▸ hctx

/-- The arrival of a load of this module: no byte of memory changes, its transaction goes, and its values fill what it reserved. -/
theorem arrive_load (ht : nget? s.txns t = some x) {l : List Part8} {e : Ext} (hop : x.op = .load l e) (hfar : x.far = none)
    (hstage : x.stage = .back d) (hctx : (s.proc x.issuer).ctx.isSome = true) (hleft : x.left = false)
    (hst : (s.proc x.issuer).st = .running) (hm : x.tgt.mats = []) :
    (s.arrive t).mem = s.mem ∧ nget? (s.arrive t).txns t = none ∧ ∃ m, let q := { s.proc x.issuer with dlmiss := m }.fill t x.tgt d
      ((s.arrive t).proc x.issuer).regs = q.regs ∧ ((s.arrive t).proc x.issuer).exiting = q.exiting := by
  have hthere : (nget? s.procs x.issuer).isNone = false := by
    cases hp : nget? s.procs x.issuer with
    | none => simp [State.proc, nget, hp] at hctx
    | some p => rfl
  have hown : s.fromEngine x = false := by rw [State.fromEngine, hthere, Bool.and_false]
  have hrole : x.op.role = .ld := by rw [hop]; rfl
  obtain ⟨hmem, hprocs⟩ := ending_spec s t x
  obtain ⟨m, hproc⟩ := hprocs x.issuer
  have hon : (((s.miss x).uncache t x).settleTxn x).blockedOn x = false := by
    simp [State.blockedOn, hproc, hst]
  have harrive : s.arrive t = ((((s.miss x).uncache t x).settleTxn x).deliver t x d).dropTxn t := by
    simp only [State.arrive, ht, hfar, hown, Bool.false_eq_true, if_false, hstage, hrole, if_true, hon]
  rw [harrive, deliver_regs (by rw [hproc]; exact hctx) hleft (by rw [hproc]; exact hst) hm, hproc]
  refine ⟨(unpark_mem ..).trans hmem, (nget?_ndel ..).trans (if_pos rfl), m, ?_⟩
  obtain ⟨hregs, hexit⟩ := unpark_proc ((((s.miss x).uncache t x).settleTxn x).setProc x.issuer
    { ({ s.proc x.issuer with dlmiss := m } : Proc).fill t x.tgt d with
      flags := (s.proc x.issuer).flags ||| d.flags, out := (s.proc x.issuer).out.filter (· != t) }) x.issuer
  rw [State.proc_setProc_same] at hregs hexit
  exact ⟨hregs, hexit⟩

end Arrive

/-- What the arrival of one value at the slot of push count `c` makes of the registers of a process. -/
def Proc.Takes (p q : Proc) (t : Nat) (c : BitVec 32) (w : Word) (keeps : List (BitVec 5)) : Prop :=
  ((p.push - c).toNat < 16 → q.q[(c.setWidth 4).toNat] = w ∧ q.qPend.getLsbD (c.setWidth 4).toNat = false) ∧
    (16 ≤ (p.push - c).toNat → q.q = p.q ∧ q.qPend = p.qPend) ∧ q.push = p.push ∧
    (∀ r, keeps = [r] → (if (r, t) ∈ p.nPend then q.nget r = w else q.nget r = p.nget r)) ∧ (keeps = [] → q.n = p.n)

theorem takes_of_regs {p q r : Proc} {t : Nat} {c : BitVec 32} {w : Word} {keeps : List (BitVec 5)} (h : r.regs = q.regs)
    (hq : p.Takes q t c w keeps) : p.Takes r t c w keeps := by
  obtain ⟨hring, hpend, hpush, hn⟩ := by simpa only [Proc.regs, Prod.mk.injEq] using h
  simpa only [Proc.Takes, Proc.nget, hring, hpend, hpush, hn] using hq

theorem fillSlot_takes (p : Proc) (c : BitVec 32) (w : Word) :
    ((p.push - c).toNat < 16 → (p.fillSlot c w).q[(c.setWidth 4).toNat] = w ∧
      (p.fillSlot c w).qPend.getLsbD (c.setWidth 4).toNat = false) ∧
    (16 ≤ (p.push - c).toNat → (p.fillSlot c w).q = p.q ∧ (p.fillSlot c w).qPend = p.qPend) ∧ (p.fillSlot c w).push = p.push := by
  unfold Proc.fillSlot
  refine ⟨fun h => ?_, fun h => ?_, ?_⟩
  · rw [if_pos h]
    refine ⟨Vector.getElem_set_self .., (getLsbD_setPend p.qPend (c.setWidth 4) (c.setWidth 4) false).trans (if_pos rfl)⟩
  · rw [if_neg (Nat.not_lt.2 h)]
    exact ⟨rfl, rfl⟩
  · split <;> rfl

theorem fillKeep_spec (p : Proc) (t : Nat) (r : BitVec 5) (w : Word) :
    (p.fillKeep t r w).q = p.q ∧ (p.fillKeep t r w).qPend = p.qPend ∧ (p.fillKeep t r w).push = p.push ∧
      (p.fillKeep t r w).exiting = p.exiting ∧
      (if (r, t) ∈ p.nPend then (p.fillKeep t r w).nget r = w else (p.fillKeep t r w).nget r = p.nget r) := by
  have hmark : p.nPend.any (fun e => e.1 == r && e.2 == t) = true ↔ (r, t) ∈ p.nPend := by
    simp [List.any_eq_true]
  unfold Proc.fillKeep
  by_cases h : (r, t) ∈ p.nPend
  · rw [if_pos (hmark.2 h), if_pos h]
    exact ⟨rfl, rfl, rfl, rfl, nset_nget_same ..⟩
  · rw [if_neg fun hm => h (hmark.1 hm), if_neg h]
    exact ⟨rfl, rfl, rfl, rfl, rfl⟩

/-- One value fills one slot, and the first of the keeps. -/
theorem fill_takes (p : Proc) (t : Nat) {g : Tgt} {d : Deliver} {c : BitVec 32} {w : Word} (hs : g.slots = [c]) (hv : g.vregs = [])
    (hvals : d.vals = [w]) (hkept : d.kept = [w]) : p.Takes (p.fill t g d) t c w g.keeps ∧ (p.fill t g d).exiting = p.exiting := by
  obtain ⟨hnear, hfar, hpush⟩ := fillSlot_takes p c w
  obtain ⟨hn, hmarks⟩ := fillSlot_named p c w
  have hexit : (p.fillSlot c w).exiting = p.exiting := by
    unfold Proc.fillSlot
    split <;> rfl
  cases hk : g.keeps with
  | nil =>
    have hfill : p.fill t g d = p.fillSlot c w := by simp [Proc.fill, hs, hv, hvals, hk]
    rw [hfill]
    exact ⟨⟨hnear, hfar, hpush, fun r hr => absurd hr (by simp), fun _ => hn⟩, hexit⟩
  | cons r l =>
    have hfill : p.fill t g d = (p.fillSlot c w).fillKeep t r w := by simp [Proc.fill, hs, hv, hvals, hkept, hk]
    obtain ⟨hq, hqp, hp, he, hr⟩ := fillKeep_spec (p.fillSlot c w) t r w
    rw [hfill]
    refine ⟨⟨?_, ?_, hp.trans hpush, fun r' hr' => ?_, fun h => absurd h (by simp)⟩, he.trans hexit⟩
    · simpa only [hq, hqp] using hnear
    · rw [hq, hqp]
      exact hfar
    · obtain ⟨rfl, -⟩ := List.cons.inj hr'
      rw [hmarks] at hr
      simpa only [Proc.nget, hn] using hr

/-! ### The event (R149) -/

theorem exec_pendingResultArrival_load {s : State} {t : Nat} {x : Txn} (how : ServeHow) (ht : nget? s.txns t = some x) {l : List Part8}
    {e : Ext} (hop : x.op = .load l e) (hfz : s.frozen x = false) (hpartner : x.partner = none) {d : Deliver} (hstage : x.stage = .back d)
    (hexit : ((s.arrive t).proc x.issuer).exiting = false) : exec (.pendingResultArrival ⟨t, how⟩) s = .next (s.arrive t) := by
  have harm : exec (.pendingResultArrival ⟨t, how⟩) s = execPendingResultArrival ⟨t, how⟩ s := rfl
  have hserve : s.canServe t x = false := by simp [State.canServe, hstage]
  have hsend : s.canSend t x = false := by simp [State.canSend, hstage]
  have htry : (s.arrive t).tryExit x.issuer = s.arrive t := by simp [State.tryExit, hexit]
  simp only [harm, execPendingResultArrival, ht, hfz, hop, hpartner, Option.isSome_none, Bool.and_false, Bool.false_and,
    Bool.false_eq_true, if_false, hserve, hsend, htry]

/-! ### The obligations -/

/-- Settles O38: the signed forms by `toInt_eq_ite`; the others are the operations of bit vectors on their numbers. -/
theorem combinedValues : Obligations.CombinedValues := by
  refine ⟨fun a b => ⟨rfl, atomApply_minI64 a b, atomApply_maxI64 a b, rfl, rfl, ?_, ?_, ?_, rfl⟩,
    fun a b => ⟨rfl, atomApply_minI32 a b, atomApply_maxI32 a b, ?_, ?_, ?_, ?_⟩⟩
  · exact (BitVec.toNat_and a b).symm
  · exact (BitVec.toNat_or a b).symm
  · exact (BitVec.toNat_xor a b).symm
  · exact (BitVec.toNat_and a b).symm
  · exact (BitVec.toNat_xor a b).symm
  · rw [atomPushed, BitVec.ofNat_toNat, BitVec.setWidth_eq]
  · exact BitVec.ofNat_toNat 64 a

/-- Settles O39: the read by `serveRead_load`, the extension by `make_sign`, the arrival by `arrive_load` and `fill_takes`. -/
theorem readAndArrival : Obligations.ReadAndArrival := by
  refine ⟨fun s t x p e ht hop hc hbad hdone hgot => ?read, fun bs hlen => ⟨rfl, make_sign (by norm_num) hlen⟩,
    fun s t x d w c l e how ht hop hfar hctx hstage hvals hkept hfz hslots hpartner hleft hv hm hst hexit => ?arrival⟩
  case read =>
    obtain ⟨hmem, htxn⟩ := serveRead_load hop hbad hdone hgot
    exact ⟨_, _, exec_memoryServerRequest_load ht hop hc, hmem, by rw [htxn]; rfl, rfl, rfl⟩
  case arrival =>
    obtain ⟨hmem, htxn, m, hregs, hexiting⟩ := arrive_load ht hop hfar hstage hctx hleft hst hm
    obtain ⟨htakes, hsame⟩ := fill_takes { s.proc x.issuer with dlmiss := m } t hslots hv hvals hkept
    have hgo := exec_pendingResultArrival_load how ht hop hfz hpartner hstage ((hexiting.trans hsame).trans hexit)
    exact ⟨_, hgo, htxn, hmem, takes_of_regs hregs htakes⟩

end Sys2Proof.Machine
end

section
/-! SUPPORT. The phase and buffer words (O26). -/

namespace Sys2Proof.Machine

/-! ### Phases (R303) -/

section PhaseWords

variable {s : State} {i : Issue} (hi : s.issue = some i) {t : BitVec 4} {f : Phase} (hf : heldPhase s i t.toNat = .ok f)
include hi hf

theorem exec_arrive {d : BitVec 3} {e : PDest} (he : f.dests[d.toNat]? = some e) : exec (.arrive t d) s =
    .next ((s.addFence i.proc .rel (if e.module = s.moduleId then .pkg else .fab)).issueQuiet
      (mkTxn (s.addFence i.proc .rel (if e.module = s.moduleId then .pkg else .fab)) i (.arrive t.toNat d.toNat) 16)) := by
  have harm : exec (.arrive t d) s = execArrive t d s := rfl
  obtain ⟨hlt, -⟩ := List.getElem?_eq_some_iff.1 he
  have hscope : (if (e.module != s.moduleId) = true then Scope.fab else Scope.pkg) = if e.module = s.moduleId then .pkg else .fab := by
    by_cases h : e.module = s.moduleId <;> simp [h]
  simp only [harm, execArrive, cur_some hi, ok_bind, hf, decide_eq_true hlt, check_true, he, hscope, finish_ok]

theorem waitLine_high (h : f.high s (partOf i.proc) = true) (again : Bool) : waitLine s t.toNat again =
    .ok (let u := (s.addFence i.proc .acq f.scope).raiseFloor i.proc f.clock
      if again then u.loadPhase (partOf i.proc) t.toNat else u) := by
  simp only [waitLine, cur_some hi, ok_bind, hf, h, if_true]

theorem waitLine_low (h : f.high s (partOf i.proc) = false) (again : Bool) : waitLine s t.toNat again =
    .ok ((s.setPhase (partOf i.proc) t.toNat { f with waiters := f.waiters ++ [(i.proc, again)] }).block i.proc
      (if again then .phase else .pwait) (BitVec.ofNat 32 t.toNat) 0) := by
  simp only [waitLine, cur_some hi, ok_bind, hf, h, Bool.false_eq_true, if_false]

end PhaseWords

theorem exec_pwait_eq (t : BitVec 4) (s : State) : exec (.pwait t) s = finish s (waitLine s t.toNat false) := rfl
theorem exec_phase_eq (t : BitVec 4) (s : State) : exec (.phase t) s = finish s (waitLine s t.toNat true) := rfl

theorem exec_wait_eq (again : Bool) (t : BitVec 4) (s : State) :
    exec (if again then .phase t else .pwait t) s = finish s (waitLine s t.toNat again) := by
  cases again <;> rfl

theorem addFence_getLast (s : State) (k : Nat) (f : FenceKind) (sc : Scope) :
    ((s.addFence k f sc).proc k).fences.getLast? = some { kind := f, scope := sc, stamp := s.nextTxn } := by
  obtain ⟨floor, fences, hfence⟩ := addFence_frame s k f sc
  rw [hfence, State.proc_setProc_same]
  exact List.getLast?_concat

theorem block_parts (s : State) (k : Nat) (w : Wait) (obj : W32) (d : Word) : (s.block k w obj d).parts = s.parts := by
  unfold State.block
  dsimp only
  split
  · unfold State.leaveCtx
    dsimp only
    split <;> rfl
  · rfl

theorem phase?_of_parts {s t : State} (h : s.parts = t.parts) (part slot : Nat) : s.phase? part slot = t.phase? part slot := by
  rw [State.phase?, State.phase?, State.part, State.part, h]

theorem issueQuiet_txn (s : State) (x : Txn) : nget? (s.issueQuiet x).txns s.nextTxn = some x := nget?_nset_same ..

/-! ### Buffers (R317 to R319) -/

section BufferWords

variable {s : State} {i : Issue} (hi : s.issue = some i) {x y z : Src} {p n m : Word} (hx : readSrc i x = .ok p)
include hi hx

section Declare

/-- A buffer as its declaration makes it (Table 7.5). -/
def newBuf (owner : Nat) (p n : Word) (slot : Option Word) : Buf :=
  let size := (slot.getD n).toNat
  { owner := owner, ring := slot.isSome, base := pOff p, size := n.toNat, slot := size, free := n.toNat / size, nslot := n.toNat / size }

variable (hy : readSrc i y = .ok n) (hsp : pSpace p = 2) (hfree : (s.core i.pre.core).freeBuf < 64) (hp16 : pOff p % 16 = 0)
  (hn0 : 0 < n.toNat) (hn16 : n.toNat % 16 = 0) (hlim : pOff p + n.toNat ≤ 0x3F800)
  (hapart : ((s.core i.pre.core).bufs.all fun e => !overlap (pOff p) n.toNat e.2.base e.2.size) = true)
include hy hsp hfree hp16 hn0 hn16 hlim hapart

theorem declare_ok {slot : Option Word} {f : Issue → Except Abort (Option Word)} (hslot : f i = .ok slot) (h0 : 0 < (slot.getD n).toNat)
    (h16 : (slot.getD n).toNat % 16 = 0) (hdvd : n.toNat % (slot.getD n).toNat = 0) (hcount : n.toNat / (slot.getD n).toNat ≤ 255) :
    declare s x y f = .ok ((s.modCore i.pre.core fun c =>
      { c with bufs := nset c.bufs (s.core i.pre.core).freeBuf (newBuf i.proc p n slot) }).push i
        (BitVec.ofNat 64 (s.core i.pre.core).freeBuf) none) := by
  have hrange : (pOff p % 16 == 0 && n.toNat % 16 == 0 && n.toNat != 0) = true := by simp [hp16, hn16, hn0.ne']
  have hshape : ((slot.getD n).toNat != 0 && (slot.getD n).toNat % 16 == 0 && n.toNat % (slot.getD n).toNat == 0 &&
      decide (n.toNat / (slot.getD n).toNat ≤ 255)) = true := by simp [h0.ne', h16, hdvd, hcount]
  have hnone : (!(s.core i.pre.core).bufs.any fun e => overlap (pOff p) n.toNat e.2.base e.2.size) = true := by
    rw [← hapart, List.not_any_eq_all_not]
  cases slot with
  | none =>
    dsimp only [Option.getD] at hshape
    simp only [declare, cur_some hi, ok_bind, hx, hy, hslot, hsp, beq_self_eq_true, check_true, decide_eq_true hfree, hrange, hshape,
      hnone, decide_eq_true hlim]
    rfl
  | some w =>
    dsimp only [Option.getD] at hshape
    simp only [declare, cur_some hi, ok_bind, hx, hy, hslot, hsp, beq_self_eq_true, check_true, decide_eq_true hfree, hrange, hshape,
      hnone, decide_eq_true hlim]
    rfl

theorem exec_bdeclLin : exec (.bdeclLin x y) s = .next ((s.modCore i.pre.core fun c =>
      { c with bufs := nset c.bufs (s.core i.pre.core).freeBuf (newBuf i.proc p n none) }).push i
        (BitVec.ofNat 64 (s.core i.pre.core).freeBuf) none) := by
  have harm : exec (.bdeclLin x y) s = finish s (declare s x y fun _ => .ok none) := rfl
  have hcount : n.toNat / n.toNat ≤ 255 := by rw [Nat.div_self hn0]; norm_num
  rw [harm, declare_ok (slot := none) hi hx hy hsp hfree hp16 hn0 hn16 hlim hapart rfl hn0 hn16 (Nat.mod_self _) hcount, finish_ok]

theorem exec_bdeclRing (hz : readSrc i z = .ok m) (h0 : 0 < m.toNat) (h16 : m.toNat % 16 = 0) (hdvd : n.toNat % m.toNat = 0)
    (hcount : n.toNat / m.toNat ≤ 255) : exec (.bdeclRing x y z) s = .next ((s.modCore i.pre.core fun c =>
      { c with bufs := nset c.bufs (s.core i.pre.core).freeBuf (newBuf i.proc p n (some m)) }).push i
        (BitVec.ofNat 64 (s.core i.pre.core).freeBuf) none) := by
  have harm : exec (.bdeclRing x y z) s = finish s (declare s x y fun i => (readSrc i z).map some) := rfl
  have hslot : (readSrc i z).map some = .ok (some m) := by rw [hz]; rfl
  rw [harm, declare_ok (slot := some m) hi hx hy hsp hfree hp16 hn0 hn16 hlim hapart hslot h0 h16 hdvd hcount, finish_ok]

end Declare

theorem bstate_ok {j : Nat} {b b' : Buf} (hb : ptrBuf s i p = .ok (j, b)) (ho : b.owner = i.proc) {f : Core → Buf → Option Buf}
    (hf : f (s.core i.pre.core) b = some b') : bstate s x f =
      .ok ((s.modCore i.pre.core fun c => { c with bufs := nset c.bufs j b' }).pokeBufs i.pre.core) := by
  simp only [bstate, cur_some hi, ok_bind, hx, hb, ho, beq_self_eq_true, check_true, hf]

theorem exec_bquery {j : Nat} {b : Buf} (hb : ptrBuf s i p = .ok (j, b)) (k : Keep) :
    exec (.bquery x k) s = .next (s.push i (b.word j) k) := by
  have harm : exec (.bquery x k) s = execBquery x k s := rfl
  simp only [harm, execBquery, cur_some hi, ok_bind, hx, hb, finish_ok]

theorem exec_bqueryW {j : Nat} {b : Buf} (hb : ptrBuf s i p = .ok (j, b)) (k : Keep) : exec (.bqueryW x k) s =
    .next (if b.headState = .full then s.pushLater i (b.word j) 0 k 12
      else (s.issuePend i { mkTxn s i (.bqueryW j) 0 with stage := .waiting } k).block i.proc .buffer (BitVec.ofNat 32 j) 0) := by
  have harm : exec (.bqueryW x k) s = execBqueryW x k s := rfl
  simp only [harm, execBqueryW, cur_some hi, ok_bind, hx, hb]
  split <;> rfl

end BufferWords

/-! ### The obligation -/

theorem newBuf_ring_head {owner : Nat} {p n m : Word} (h0 : 0 < m.toNat) (hm : m.toNat ≤ n.toNat) :
    (newBuf owner p n (some m)).headState = .empty := by
  have hpos : 0 < n.toNat / m.toNat := Nat.div_pos hm h0
  simp [newBuf, Buf.headState, Buf.slotState]

/-- Settles O26: the phase words by `waitLine_high` and `waitLine_low`, the buffer words each by its equation above. -/
theorem phaseAndBufferWords : Obligations.PhaseAndBufferWords := by
  intro s i x y z k p n m hi hx hy hz
  dsimp only
  refine ⟨fun t f hf => ⟨fun d e he => ⟨_, exec_arrive hi hf he, ?_⟩, fun h => ?high, fun h again => ?low⟩,
    fun hsp hfree hp16 hn0 hn16 hlim hapart => ⟨?linear, fun h0 h16 hdvd hcount => ?ring⟩,
    fun j b b' hb ho => ⟨fun h => ?opens, fun h => ?seals, fun h => ?rels⟩,
    fun j b hb => ⟨exec_bquery hi hx hb k, fun h => ?full, fun h => ?waits⟩⟩
  · exact ⟨hi, rfl, congrArg (Option.map Txn.op) (issueQuiet_txn ..), addFence_getLast ..⟩
  case high =>
    rw [exec_pwait_eq, exec_phase_eq, waitLine_high hi hf h, waitLine_high hi hf h]
    exact ⟨rfl, rfl⟩
  case low =>
    obtain ⟨hissue, -, hst, hkind, -⟩ := block_spec
      (s.setPhase (partOf i.proc) t.toNat { f with waiters := f.waiters ++ [(i.proc, again)] }) i.proc
      (if again then .phase else .pwait) (BitVec.ofNat 32 t.toNat) 0
    rw [exec_wait_eq, waitLine_low hi hf h, finish_ok]
    refine ⟨_, rfl, hissue.trans hi, hst, hkind, ?_⟩
    rw [phase?_of_parts (block_parts ..), phase?_setPhase_same]
  case linear =>
    refine ⟨_, newBuf i.proc p n none, exec_bdeclLin hi hx hy hsp hfree hp16 hn0 hn16 hlim hapart, ?_, rfl, rfl, rfl, rfl, rfl, rfl⟩
    rw [State.modCore_eq, State.core_setCore_same]
    exact nget?_nset_same ..
  case ring =>
    refine ⟨_, newBuf i.proc p n (some m), exec_bdeclRing hi hx hy hsp hfree hp16 hn0 hn16 hlim hapart hz h0 h16 hdvd hcount, ?_, rfl, ?_, rfl, rfl,
      rfl, rfl, rfl, rfl, rfl⟩
    · rw [State.modCore_eq, State.core_setCore_same]
      exact nget?_nset_same ..
    · exact newBuf_ring_head h0 (Nat.le_of_dvd hn0 (Nat.dvd_of_mod_eq_zero hdvd))
  case opens => exact congrArg (finish s) (bstate_ok hi hx hb ho h)
  case seals => exact congrArg (finish s) (bstate_ok (f := fun c b => b.sealed (c.busy b true)) hi hx hb ho h)
  case rels => exact congrArg (finish s) (bstate_ok (f := fun c b => b.released (c.busy b false)) hi hx hb ho h)
  case full => rw [exec_bqueryW hi hx hb, if_pos h]
  case waits => rw [exec_bqueryW hi hx hb, if_neg h]

end Sys2Proof.Machine
end

section
/-! SUPPORT. The words of the containment tree (O33). -/

namespace Sys2Proof.Machine

/-! ### Node operands (R320) -/

/-- The operand fault of a tree word. -/
def badOperand (w : Word) : Abort := .trap { kind := .illegalOperand, addr := w }

theorem nodeOf_node {w : Word} (alloc : Bool) (h : w.toNat < 2 ^ 20) : nodeOf w alloc = .ok w.toNat := by
  simp only [nodeOf, decide_eq_true h, Bool.true_or, check_true, ok_bind]

/-- The code that asks for a new node. -/
theorem nodeOf_alloc {w : Word} (h : w.toNat = 0xFFFFFFFF) : nodeOf w true = .ok w.toNat := by
  simp [nodeOf, h]

theorem nodeOf_enrol {w : Word} (h : w.toNat < 2 ^ 20 ∨ w.toNat = 0xFFFFFFFF) : nodeOf w true = .ok w.toNat := by
  obtain h | h := h
  · exact nodeOf_node true h
  · exact nodeOf_alloc h

theorem nodeOf_bad {w : Word} {alloc : Bool} (h : 2 ^ 20 ≤ w.toNat) (ha : alloc = true → w.toNat ≠ 0xFFFFFFFF) :
    nodeOf w alloc = .error (badOperand w) := by
  have hnode : (decide (w.toNat < 2 ^ 20) || (alloc && w.toNat == 0xFFFFFFFF)) = false := by
    rw [decide_eq_false (Nat.not_lt.2 h)]
    cases alloc with
    | false => rfl
    | true => simp [ha rfl]
  simp only [nodeOf, hnode, check_false, error_bind, badOperand]

/-! ### The words (R209, R214, R215, R320) -/

section Words

variable {s : State} {i : Issue} (hi : s.issue = some i) {x y : Src} {a b : Word} (hx : readSrc i x = .ok a)
include hi hx

section Enrol

variable {j : BitVec 5} {p l : Word} (hy : readSrc i y = .ok b) (hp : readSrc i (.n j) = .ok p) (hl : readSrc i (.n (j + 1)) = .ok l)
include hy hp hl

/-- The checks of `enrol` in their order, on its operands as they read. -/
theorem exec_enrol : exec (.enrol x y j) s = finish s (do
    let n ← nodeOf a true
    let m ← nodeOf b false
    rangeCheck p l
    check (n != 0xFFFFFFFF || decide (0 < (s.part (partOf i.proc)).freeNodes)) { kind := .treeCapacity, addr := a }
    let u := if 0 < (s.part (partOf i.proc)).freeNodes then
      s.modPart (partOf i.proc) fun q => { q with freeNodes := (s.part (partOf i.proc)).freeNodes - 1 } else s
    .ok (u.issuePend i (mkTxn u i (.enrol n m p l (decide (0 < (s.part (partOf i.proc)).freeNodes))) 400) none)) := by
  have harm : exec (.enrol x y j) s = execEnrol x y j s := rfl
  simp only [harm, execEnrol, cur_some hi, ok_bind, hx, hy, hp, hl]

end Enrol

theorem exec_unenrol_free : exec (.unenrol x .free) s = finish s (do
    let n ← nodeOf a false
    check (n != 0) { kind := .illegalOperand, addr := a }
    .ok (s.issuePend i (mkTxn s i (.unenrol n none) 400) none)) := by
  have harm : exec (.unenrol x .free) s = execUnenrol x .free s := rfl
  simp only [harm, execUnenrol, cur_some hi, ok_bind, hx]

theorem exec_unenrol_pair {j : BitVec 5} {p l : Word} (hp : readSrc i (.n j) = .ok p) (hl : readSrc i (.n (j + 1)) = .ok l) :
    exec (.unenrol x (.pair j)) s = finish s (do
      let n ← nodeOf a false
      check (n != 0) { kind := .illegalOperand, addr := a }
      rangeCheck p l
      .ok (s.issuePend i (mkTxn s i (.unenrol n (some (p, l))) 400) none)) := by
  have harm : exec (.unenrol x (.pair j)) s = execUnenrol x (.pair j) s := rfl
  simp only [harm, execUnenrol, cur_some hi, ok_bind, hx, hp, hl]

theorem treeForm_eq (k : Keep) (op : Nat → Op) (fence : Bool) : treeForm s x k op fence = (do
    let n ← nodeOf a false
    let u := if fence then s.addFence i.proc .rel .pkg else s
    .ok (u.issuePend i (mkTxn u i (op n) 400) k)) := by
  simp only [treeForm, cur_some hi, ok_bind, hx]

theorem exec_chgcmp (hy : readSrc i y = .ok b) (k : Keep) : exec (.chgcmp x y k) s = finish s (do
    let n ← nodeOf a false
    .ok (s.issuePend i (mkTxn s i (.chgcmp n b) 400) k)) := by
  have harm : exec (.chgcmp x y k) s = execChgcmp x y k s := rfl
  simp only [harm, execChgcmp, cur_some hi, ok_bind, hx, hy]

theorem exec_repar (hy : readSrc i y = .ok b) (k : Keep) (ho : i.pre.opened = none) : exec (.repar x y k) s = finish s (do
    let n ← nodeOf a false
    let m ← nodeOf b false
    check (n != 0) { kind := .illegalOperand, addr := a }
    .ok { (((s.addFence i.proc .rel .pkg).newTxn (mkTxn s i (.repar n m) 800)).1.holdAtWord i) with issue := none }) := by
  have harm : exec (.repar x y k) s = execRepar x y k s := rfl
  simp only [harm, execRepar, hi, Option.bind_some, ho, Option.map_none, cur_some hi, ok_bind, hx, hy]

omit hx in
theorem exec_repar_opened {t : Nat} (k : Keep) (ho : i.pre.opened = some t) : exec (.repar x y k) s = .next (s.issueOpened i t k) := by
  have harm : exec (.repar x y k) s = execRepar x y k s := rfl
  simp only [harm, execRepar, hi, Option.bind_some, ho, Option.map_some, finish_ok]

end Words

theorem exec_settle_eq (x : Src) (k : Keep) (s : State) : exec (.settle x k) s = finish s (treeForm s x k Op.settle true) := rfl
theorem exec_chgrd_eq (x : Src) (k : Keep) (s : State) : exec (.chgrd x k) s = finish s (treeForm s x k Op.chgrd false) := rfl

/-! ### The obligation -/

/-- Settles O33: the words by their equations above, their node operands by `nodeOf_node`, `nodeOf_enrol` and `nodeOf_bad`. -/
theorem treeWords : Obligations.TreeWords := by
  intro s i x y k j a b p l hi hx hy hp hl
  have henrol := exec_enrol hi hx hy hp hl
  have hfree := exec_unenrol_free hi hx
  have hpair := exec_unenrol_pair hi hx hp hl
  have hrepar := exec_repar hi hx hy k
  dsimp only
  refine ⟨fun hrange hb => ⟨fun hpos ha => ?reserves, fun hnone ha => ?plain, fun hnone ha => ?capacity⟩,
    fun ha => ⟨fun hpos => ?node, ?zero, ?settle, ?chgrd, ?chgcmp⟩, fun ha => ?badFirst, fun hb => ?badSecond⟩
  case reserves =>
    rw [henrol, nodeOf_enrol ha, nodeOf_node false hb, hrange]
    simp [hpos]
  case plain =>
    have hne : (a.toNat != 0xFFFFFFFF) = true := bne_iff_ne.2 (by omega)
    rw [henrol, nodeOf_node true ha, nodeOf_node false hb, hrange]
    simp [hnone, hne]
  case capacity =>
    rw [henrol, nodeOf_alloc ha, nodeOf_node false hb, hrange]
    simp [hnone, ha]
  case node =>
    have hne : (a.toNat != 0) = true := bne_iff_ne.2 hpos.ne'
    rw [hfree, hpair, nodeOf_node false ha]
    simp only [ok_bind, hne, check_true, finish_ok]
    refine ⟨trivial, fun hrange => ?_, fun hb => ⟨fun ho => ?_, fun t ho => exec_repar_opened hi k ho⟩⟩
    · rw [hrange, ok_bind, finish_ok]
    · rw [hrepar ho, nodeOf_node false ha, nodeOf_node false hb]
      simp only [ok_bind, hne, check_true, finish_ok]
  case zero =>
    rintro rfl
    rw [hfree, hpair, nodeOf_node false ha]
    refine ⟨rfl, rfl, fun ho hb => ?_⟩
    rw [hrepar ho, nodeOf_node false ha, nodeOf_node false hb]
    rfl
  case settle => rw [exec_settle_eq, treeForm_eq hi hx, nodeOf_node false ha]; rfl
  case chgrd => rw [exec_chgrd_eq, treeForm_eq hi hx, nodeOf_node false ha]; rfl
  case chgcmp => rw [exec_chgcmp hi hx hy, nodeOf_node false ha]; rfl
  case badFirst =>
    have hbad : nodeOf a false = .error (badOperand a) := nodeOf_bad ha (by simp)
    rw [exec_settle_eq, exec_chgrd_eq, treeForm_eq hi hx, treeForm_eq hi hx, exec_chgcmp hi hx hy, hfree, hpair, hbad]
    refine ⟨rfl, rfl, rfl, fun ho => ?_, rfl, rfl, fun hne => ?_⟩
    · rw [hrepar ho, hbad]; rfl
    · rw [henrol, nodeOf_bad ha fun _ => hne]; rfl
  case badSecond =>
    have hbad : nodeOf b false = .error (badOperand b) := nodeOf_bad hb (by simp)
    refine ⟨fun ho ha => ?_, fun ha => ?_⟩
    · rw [hrepar ho, nodeOf_node false ha, hbad]; rfl
    · rw [henrol, nodeOf_enrol ha, hbad]; rfl

end Sys2Proof.Machine
end

section
/-! SUPPORT. A process that has exited stays so while channels come to rest (O32): no operation of `pumpChan` and `wakeAlts` blocks, readies or
starts it. One lemma per operation, named after it. -/

namespace Sys2Proof.Machine

/-- Process `k` has exited. -/
def State.HasExited (k : Nat) (s : State) : Prop := (s.proc k).st = .exited

section Exited

variable {k : Nat} {s t : State}

namespace State.HasExited

/-- An update of other fields. -/
theorem upd (h : s.HasExited k) (hp : t.procs = s.procs) : t.HasExited k := by
  rw [State.HasExited, State.proc, hp]
  exact h

theorem setProc {j : Nat} {p : Proc} (h : s.HasExited k) (hp : j = k → p.st = .exited) : (s.setProc j p).HasExited k := by
  by_cases hj : j = k
  · subst hj
    rw [State.HasExited, State.proc_setProc_same, hp rfl]
  · rw [State.HasExited, State.proc_setProc_other _ _ _ (Ne.symm hj)]
    exact h

theorem modProc {j : Nat} {f : Proc → Proc} (h : s.HasExited k) (hf : ∀ p, p.st = .exited → (f p).st = .exited) :
    (s.modProc j f).HasExited k := by
  rw [State.modProc_eq]
  exact h.setProc fun hj => hf _ (hj ▸ h)

theorem ite {c : Prop} [Decidable c] (h : s.HasExited k) (g : t.HasExited k) : (if c then s else t).HasExited k := by
  split
  · exact h
  · exact g

theorem iteThen {c : Prop} [Decidable c] (h : s.HasExited k) (g : s.HasExited k → t.HasExited k) :
    (if c then t else s).HasExited k := .ite (g h) h

theorem foldl {α : Type} {f : State → α → State} (hf : ∀ s a, s.HasExited k → (f s a).HasExited k) {l : List α}
    (h : s.HasExited k) : (l.foldl f s).HasExited k := by
  induction l generalizing s with
  | nil => exact h
  | cons a l ih => exact ih (hf s a h)

/-! ### Operations of `Machine/Ops` -/

theorem setChan {part ch : Nat} {c : Chan} (h : s.HasExited k) : (s.setChan part ch c).HasExited k := h.upd rfl
theorem modChan {part ch : Nat} {f : Chan → Chan} (h : s.HasExited k) : (s.modChan part ch f).HasExited k := h.upd rfl
theorem setTxn {t : Nat} {x : Txn} (h : s.HasExited k) : (s.setTxn t x).HasExited k := h.upd rfl
theorem dropTxn {t : Nat} (h : s.HasExited k) : (s.dropTxn t).HasExited k := h.upd rfl

theorem putSlot {part ch sender : Nat} {bs : List Byte} (h : s.HasExited k) : (s.putSlot part ch sender bs).HasExited k := by
  unfold State.putSlot
  split
  · exact h
  · exact h.upd rfl

theorem raiseFloor {j : Nat} {c : Clock} (h : s.HasExited k) : (s.raiseFloor j c).HasExited k := .ite h (.modProc h fun _ hp => hp)

theorem leaveCtx {j : Nat} (h : s.HasExited k) : (s.leaveCtx j).HasExited k := by
  have hcore {f : Core → Core} : (s.modCore (s.proc j).core f).HasExited k := h.upd rfl
  unfold State.leaveCtx
  dsimp only
  split
  · exact h
  · exact .modProc hcore fun _ hp => hp

theorem newEpisode {j : Nat} (h : s.HasExited k) : (s.newEpisode j).HasExited k := .ite (h.upd rfl) h

/-- Another process becomes READY. -/
theorem ready {j : Nat} {head : Bool} (h : s.HasExited k) (hj : j ≠ k) : (s.ready j head).HasExited k := by
  have h1 {p : Proc} : ((s.newEpisode j).setProc j p).HasExited k := (newEpisode h).setProc fun e => absurd e hj
  unfold State.ready
  dsimp only
  exact .ite h1 (.ite (.ite (newEpisode h) h1) (.ite h1 (h1.upd rfl)))

theorem block {j : Nat} {w : Wait} {obj : W32} {deadline : Word} (h : s.HasExited k) (hj : j ≠ k) :
    (s.block j w obj deadline).HasExited k :=
  .iteThen (h.setProc fun e => absurd e hj) .leaveCtx

/-- A process that has exited is not blocked late. -/
theorem blockLate {j : Nat} {w : Wait} {obj : W32} {deadline : Word} (h : s.HasExited k) :
    (s.blockLate j w obj deadline).HasExited k := by
  by_cases hj : j = k
  · subst hj
    have he : (s.proc j).st = .exited := h
    simp only [State.blockLate, he]
    exact h
  · have h1 {u : State} {p : Proc} (hu : u.HasExited k) : (u.setProc j p).HasExited k := hu.setProc fun e => absurd e hj
    unfold State.blockLate
    dsimp only
    split
    · exact .block h hj
    · exact .block h hj
    · exact h1 (h.upd rfl)
    · exact h1 (h.upd rfl)
    · exact .ite (h1 h) h
    · exact h

theorem failThread {j : Nat} {t : Trap} {loc : Word} {bword : Bool} (h : s.HasExited k) : (s.failThread j t loc bword).HasExited k := by
  unfold State.failThread
  dsimp only
  split
  · exact h
  · refine .ite h ?_
    split
    · exact h.setProc fun _ => rfl
    · have h1 {p : Proc} {f : Txn → Txn} {n : Nat} (hp : p.st = .exited) : ((s.setProc j p).modTxn n f).HasExited k :=
        (h.setProc fun _ => hp).upd rfl
      exact h1 rfl

theorem failC {t : Nat} {x : Txn} {r : FRec} (h : s.HasExited k) : (s.failC t x r).HasExited k := by
  have hw : (s.writeRec r).1.HasExited k := h.upd rfl
  exact .ite (.failThread h) (.modProc hw fun _ hp => hp)

/-- The issuer of a broken wait goes on where it is blocked, which one that has exited is not. -/
theorem failWait {part ch t : Nat} {kind : Kind} {addr : Word} (h : s.HasExited k) : (s.failWait part ch t kind addr).HasExited k := by
  unfold State.failWait
  dsimp only
  split
  · next x _ _ _ =>
    have h1 {r : FRec} {f : Chan → Chan} :
        ((((if x.issuer = 0 then s else s.failC t x r)).dropTxn t).modChan part ch f).HasExited k :=
      .modChan (.dropTxn (.ite h (.failC h)))
    split
    · next hon =>
      refine .ready h1 fun e => ?_
      have he : (s.proc x.issuer).st = .exited := e ▸ h
      simp [State.blockedOn, he] at hon
    · exact h1
  · exact h

theorem reapChan {part ch : Nat} (h : s.HasExited k) : (s.reapChan part ch).HasExited k := by
  unfold State.reapChan
  split
  · exact h
  · exact .ite (h.upd rfl) h

theorem closeTx {part ch j : Nat} (h : s.HasExited k) : (s.closeTx part ch j).HasExited k := by
  unfold State.closeTx
  dsimp only
  split
  · exact h
  · exact .ite (.setChan h) (.reapChan (.ite (.foldl (fun _ _ => .failWait) (.setChan h)) (.setChan h)))

theorem closeRx {part ch : Nat} (h : s.HasExited k) : (s.closeRx part ch).HasExited k := by
  unfold State.closeRx
  dsimp only
  split
  · exact h
  · exact .reapChan (.foldl (fun _ _ => .failWait) (.setChan h))

theorem closeAll {j : Nat} (h : s.HasExited k) : (s.closeAll j).HasExited k :=
  .foldl (fun _ _ h1 => .iteThen (.ite (.closeTx h1) h1) .closeRx) h

theorem endDormants {n : Nat} (h : s.HasExited k) : (s.endDormants n).HasExited k := by
  induction n generalizing s with
  | zero => exact h
  | succ n ih =>
    unfold State.endDormants
    split
    · exact h
    · exact ih (.closeAll (.modProc h fun _ _ => rfl))

/-! ### Operations of `Machine/Fabric` and `Machine/Channels` -/

theorem countFlit {port slot : Nat} (h : s.HasExited k) : (s.countFlit port slot).HasExited k := by
  unfold State.countFlit
  split
  · exact h.upd rfl
  · exact h.upd rfl

theorem emit {port slot : Nat} {f : Nat × FabMsg} (h : s.HasExited k) : (s.emit port slot f).HasExited k :=
  .ite h (.ite (h.upd rfl) (.countFlit (h.upd rfl)))

theorem sendFab {m part : Nat} {msg : FabMsg} (h : s.HasExited k) : (s.sendFab m part msg).HasExited k := .foldl (fun _ _ => .emit) h

theorem leaveQueue {ch t : Nat} {x : Txn} (h : s.HasExited k) : (s.leaveQueue ch t x).HasExited k := .modChan h

theorem startSide {t : Nat} {x : Txn} (h : s.HasExited k) : (s.startSide t x).HasExited k := by
  unfold State.startSide
  split
  · exact h
  · split
    · exact h
    · exact h.upd rfl

theorem matchPair {ch t : Nat} {x : Txn} {r : Nat} {y : Txn} (h : s.HasExited k) : (s.matchPair ch t x r y).HasExited k := by
  unfold State.matchPair
  dsimp only
  refine .setTxn (.setTxn ?_)
  exact .iteThen (.raiseFloor (.startSide (.startSide (.leaveQueue (.leaveQueue h))))) .raiseFloor

theorem putMsg {ch t : Nat} {x : Txn} (h : s.HasExited k) : (s.putMsg ch t x).HasExited k :=
  .setTxn (.modChan (.putSlot (.startSide (.leaveQueue h))))

theorem takeMsg {ch r : Nat} {y : Txn} {bs : List Byte} (h : s.HasExited k) : (s.takeMsg ch r y bs).HasExited k :=
  .setTxn (.modChan (.raiseFloor (.startSide (.leaveQueue h))))

theorem startAlone {ch t : Nat} {x : Txn} (h : s.HasExited k) : (s.startAlone ch t x).HasExited k :=
  .setTxn (.modChan (.startSide (.leaveQueue h)))

theorem blockFar {t : Nat} (h : s.HasExited k) : (s.blockFar t).HasExited k := by
  unfold State.blockFar
  split
  · exact .ite h (.blockLate (.setTxn h))
  · exact h

theorem sendRemote {ch t : Nat} {x : Txn} {c : Chan} (h : s.HasExited k) : (s.sendRemote ch t x c).HasExited k :=
  .iteThen (.setTxn (.sendFab (.startSide (.leaveQueue h)))) .blockFar

theorem sideFault {part ch t : Nat} {x : Txn} (h : s.HasExited k) : OptAll (State.HasExited k) (s.sideFault part ch t x) :=
  .ite (.some (.failWait h)) (.mapPass fun _ => .failWait h)

theorem chanStep {part ch : Nat} (h : s.HasExited k) : OptAll (State.HasExited k) (s.chanStep part ch) := by
  unfold State.chanStep
  dsimp only
  split
  · exact .none
  · split
    · exact .some (.failWait h)
    · split
      · refine .ite (.or (sideFault h) (.ite (.some (.startAlone h)) .none)) (.ite ?_ ?_)
        · split
          · exact .some (.failWait h)
          · exact .or (sideFault h) (.ite (.some (.takeMsg h)) .none)
        · split
          · exact .none
          · exact .or (.or (sideFault h) (sideFault h)) (.ite (.some (.matchPair h)) .none)
      · exact .or (sideFault h) (.ite (.some (.ite (.startAlone h) (.sendRemote h))) .none)
      · split
        · exact .none
        · exact .or (sideFault h) (.ite (.some (.putMsg h)) .none)

theorem settleChan {part ch n : Nat} (h : s.HasExited k) : (s.settleChan part ch n).HasExited k := by
  induction n generalizing s with
  | zero => exact h
  | succ n ih =>
    unfold State.settleChan
    split
    · next e => exact ih (chanStep h _ e)
    · exact h

theorem pumpChan {part ch : Nat} (h : s.HasExited k) : (s.pumpChan part ch).HasExited k := by
  unfold State.pumpChan
  split
  · exact h
  · exact .settleChan h

theorem takeGuard {j hd : Nat} (h : s.HasExited k) : (s.takeGuard j hd).HasExited k := by
  unfold State.takeGuard
  dsimp only
  split
  · exact h
  · exact .ite (.modProc (.setChan h) fun _ hp => hp) h

theorem wakeAlts (h : s.HasExited k) : s.wakeAlts.HasExited k := by
  unfold State.wakeAlts
  dsimp only
  refine .foldl (fun _ _ h1 => ?_) (.endDormants h)
  split
  · split
    · exact h1
    · exact .setTxn (.modProc (.takeGuard h1) fun _ hp => hp)
  · exact h1

end State.HasExited

end Exited

/-- An `exit` of a process that is neither rated nor an engine thread leaves it EXITED. -/
theorem finishExit_st {s : State} {k : Nat} (he : (s.proc k).engine = none) (hr : (s.proc k).rated = false) :
    ((s.finishExit k).proc k).st = .exited := by
  simp only [State.finishExit, he, hr, Bool.false_eq_true, if_false]
  exact State.HasExited.wakeAlts (.foldl (fun _ _ => .pumpChan) (endProc_st _ k))

/-! ### Transfers (R308 to R310) -/

section Words

variable {s : State} {i : Issue} {x y : Src} {k : Keep} {h v : Word} {ch : Nat} {c : Chan}

theorem sendForm_ok {bs : List Byte} (timed : Bool) (hi : s.issue = some i) (hx : readSrc i x = .ok h) (hy : readSrc i y = .ok v)
    (hc : chanCheck s i h false false = .ok (ch, c)) (hb : sendBytes i y (tyBytes (chanTy s (partOf i.proc) c)) = .ok bs)
    (hf : firingOver s i ch c false = false) (ho : chanOpen s c h false = .ok ()) :
    sendForm s x y timed k = .ok ((s.issueSend i (chanTxn s i (.send ch bs) timed (tyBytes (chanTy s (partOf i.proc) c))) timed k).launchOp
      i ch h false s.nextTxn timed) := by
  simp only [sendForm, cur_some hi, ok_bind, hx, hy, hc, hb, hf, ho, Bool.not_false, check_true]

theorem exec_send {bs : List Byte} (hi : s.issue = some i) (hx : readSrc i x = .ok h) (hy : readSrc i y = .ok v)
    (hc : chanCheck s i h false false = .ok (ch, c)) (hb : sendBytes i y (tyBytes (chanTy s (partOf i.proc) c)) = .ok bs)
    (hf : firingOver s i ch c false = false) (ho : chanOpen s c h false = .ok ()) :
    exec (.send x y) s = .next ((s.issueSend i (chanTxn s i (.send ch bs) false (tyBytes (chanTy s (partOf i.proc) c))) false none).launchOp
      i ch h false s.nextTxn false) := by
  have harm : exec (.send x y) s = execSend x y s := rfl
  rw [harm, execSend, sendForm_ok false hi hx hy hc hb hf ho, finish_ok]

theorem exec_sendT {bs : List Byte} (hi : s.issue = some i) (hx : readSrc i x = .ok h) (hy : readSrc i y = .ok v)
    (hc : chanCheck s i h false false = .ok (ch, c)) (hb : sendBytes i y (tyBytes (chanTy s (partOf i.proc) c)) = .ok bs)
    (hf : firingOver s i ch c false = false) (ho : chanOpen s c h false = .ok ()) :
    exec (.sendT x y k) s = .next ((s.issueSend i (chanTxn s i (.send ch bs) true (tyBytes (chanTy s (partOf i.proc) c))) true k).launchOp
      i ch h false s.nextTxn true) := by
  have harm : exec (.sendT x y k) s = execSendT x y k s := rfl
  rw [harm, execSendT, sendForm_ok true hi hx hy hc hb hf ho, finish_ok]

theorem exec_recv {ks : List (BitVec 5)} (timed : Bool) (hi : s.issue = some i) (hx : readSrc i x = .ok h)
    (hc : chanCheck s i h true false = .ok (ch, c)) (hk : keepRun i k (tyBytes (chanTy s (partOf i.proc) c)) = .ok ks)
    (hf : firingOver s i ch c true = false) (ho : chanOpen s c h true = .ok ()) :
    let r := (s.proc i.proc).pushRecv s.nextTxn ks timed
    exec (if timed then .recvT x k else .recv x k) s = .next
      (((s.newTxn { chanTxn s i (.recv ch) timed (tyBytes (chanTy s (partOf i.proc) c)) with tgt := r.2 }).1.setProc i.proc
        { r.1 with out := r.1.out ++ [s.nextTxn] }).launchOp i ch h true s.nextTxn timed) := by
  have harm : exec (if timed then .recvT x k else .recv x k) s = finish s (recvForm s x timed k) := by cases timed <;> rfl
  simp only [harm, recvForm, cur_some hi, ok_bind, hx, hc, hk, hf, ho, Bool.not_false, check_true, finish_ok]

/-- A tile transfer of either kind, timed or not. -/
theorem exec_tile (rx timed : Bool) (hi : s.issue = some i) (hx : readSrc i x = .ok h) (hy : readSrc i y = .ok v)
    (hc : chanCheck s i h rx true = .ok (ch, c)) (hsp : pSpace v = 2) (hal : pOff v % 16 = 0) (hf : firingOver s i ch c rx = false)
    (hlen : pOff v + tyBytes (chanTy s (partOf i.proc) c) ≤ 0x3F800) (ho : chanOpen s c h rx = .ok ()) :
    exec (if rx then (if timed then .recvtT x y k else .recvt x y) else (if timed then .sendtT x y k else .sendt x y)) s = .next
      ((s.issueSend i (chanTxn s i (if rx then .recvt ch (pOff v) else .sendt ch (pOff v)) timed (tyBytes (chanTy s (partOf i.proc) c)))
        timed (if timed then k else none)).launchOp i ch h rx s.nextTxn timed) := by
  have harm : exec (if rx then (if timed then .recvtT x y k else .recvt x y) else (if timed then .sendtT x y k else .sendt x y)) s =
      finish s (tileForm s x y rx timed (if timed then k else none)) := by
    cases rx <;> cases timed <;> rfl
  have hspace : (pSpace v == 2 && pOff v % 16 == 0) = true := by simp [hsp, hal]
  simp only [harm, tileForm, cur_some hi, ok_bind, hx, hy, hc, hspace, hf, ho, hlen, decide_true, Bool.not_false, check_true, finish_ok]

/-! ### Guards (R131, R312) -/

theorem exec_altg (g : BitVec 3) (hi : s.issue = some i) (hx : readSrc i x = .ok h) (hf : chanFind s i h = .ok (ch, c))
    (hc : chanIndex c h = true) :
    exec (.altg g x) s = .next ((s.modProc i.proc fun p =>
      { p with guards := p.guards.set g.toNat (h.setWidth 32), gmask := p.gmask ||| (1#8 <<< g.toNat) }).issueOrder i) := by
  have harm : exec (.altg g x) s = execAltg g x s := rfl
  simp only [harm, execAltg, cur_some hi, ok_bind, hx, hf, hc, check_true, finish_ok]

theorem exec_alt (timed : Bool) (hi : s.issue = some i) (hg : timed = true ∨ i.pre.gmask ≠ 0) :
    exec (if timed then .altT k else .alt k) s = .next
      ((s.issuePend i { mkTxn s i .alt 0 with work := i.pre.armed, deadline := if timed then some i.pre.tmo else none } k).modProc
        i.proc fun p => { p with gmask := 0 }) := by
  have harm : exec (if timed then .altT k else .alt k) s = finish s (altForm s timed k) := by cases timed <;> rfl
  have hcheck : (timed || i.pre.gmask != 0) = true := by simpa using hg
  simp only [harm, altForm, cur_some hi, ok_bind, hcheck, check_true, finish_ok]

end Words

@[simp] theorem leaveCtx_txns (s : State) (k : Nat) : (s.leaveCtx k).txns = s.txns := by
  unfold State.leaveCtx
  dsimp only
  split
  · rfl
  · rfl

@[simp] theorem block_txns (s : State) (k : Nat) (w : Wait) (obj : W32) (d : Word) : (s.block k w obj d).txns = s.txns := by
  unfold State.block
  dsimp only
  split
  · exact leaveCtx_txns ..
  · rfl

@[simp] theorem blockLate_txns (s : State) (k : Nat) (w : Wait) (obj : W32) (d : Word) : (s.blockLate k w obj d).txns = s.txns := by
  unfold State.blockLate
  dsimp only
  split
  case h_1 | h_2 => exact block_txns ..
  case h_3 | h_4 | h_6 => rfl
  case h_5 => split <;> rfl

/-- An `alt` that waits stands for the channel's next change. -/
theorem altWaits_txn (s : State) (t : Nat) (w : Txn) :
    nget? (s.altWaits t w).txns t = some { w with stage := .waiting, blocks := true } := by
  simp only [State.altWaits, blockLate_txns]
  exact nget?_nset_same ..

/-- Where no guard is ready, an `alt` waits but for its deadline. -/
theorem tryAlt_none {u : State} {t : Nat} {w : Txn} (hg : readyGuard u w.issuer w = none)
    (hd : ¬ ∃ d, w.deadline = some d ∧ d.toNat ≤ (virtualTime u w.part).toNat) : u.tryAlt t w = u.altWaits t w := by
  simp only [State.tryAlt, hg]
  cases h : w.deadline with
  | none => rfl
  | some d => exact if_neg fun hle => hd ⟨d, h, hle⟩

theorem tryAlt_late {u : State} {t : Nat} {w : Txn} {d : Word} (hg : readyGuard u w.issuer w = none) (hd : w.deadline = some d)
    (hle : d.toNat ≤ (virtualTime u w.part).toNat) : u.tryAlt t w = u.endAlt t w 8 := by
  simp only [State.tryAlt, hg, hd, if_pos hle]

theorem tryAlt_ready {u : State} {t j hd : Nat} {w : Txn} (hg : readyGuard u w.issuer w = some (j, hd)) :
    u.tryAlt t w = (u.takeGuard w.issuer hd).endAlt t w (BitVec.ofNat 64 j) := by
  simp only [State.tryAlt, hg]

/-! ### chopen, chclose, chinfo, chbind (R313 to R316) -/

/-- The unbuffered channel that an issuer `w` makes. -/
def newChan (w : Txn) (ty : Nat) : Chan :=
  { ty := ty, depth := 0, rxproc := ownerOf w.issuer, home := w.core, holders := [ownerOf w.issuer] }

/-- An issuer `w` with its result on the way. -/
def Txn.answered (w : Txn) (e : Word) : Txn := { w with stage := .back { vals := [e], kept := [e] } }

theorem openChan_zero {s : State} {w : Txn} {n : Nat} (t ty : Nat)
    (hn : nfree (s.part w.part).chans ((s.part w.part).chans.length + 1) 1 = n) (hlt : n < 2 ^ 24) :
    s.openChan t w ty 0 =
      (s.setChan w.part n (newChan w ty)).setTxn t (w.answered (BitVec.ofNat 64 (endHandle (newChan w ty) n false))) := by
  have hle : ¬ 2 ^ 24 ≤ n := by omega
  simp only [State.openChan, hn, newChan, Txn.answered, hle, decide_true, decide_false, Bool.true_or, Bool.not_true, Bool.or_self,
    Bool.false_eq_true, if_true, if_false]

section Words

variable {s : State} {i : Issue} {x y : Src} {k : Keep} {h v : Word} {ch : Nat} {c : Chan}

theorem exec_chopen (hi : s.issue = some i) (hx : readSrc i x = .ok h) (hy : readSrc i y = .ok v)
    (hty : h.toNat < (s.part (partOf i.proc)).budget.types) (hd : v.toNat ≤ 255) :
    exec (.chopen x y k) s = .next (s.issuePend i (mkTxn s i (.chopen h.toNat v.toNat) 100) k) := by
  have harm : exec (.chopen x y k) s = execChopen x y k s := rfl
  simp only [harm, execChopen, cur_some hi, ok_bind, hx, hy, hty, hd, decide_true, check_true, finish_ok]

theorem exec_chclose (rx : Bool) (hi : s.issue = some i) (hx : readSrc i x = .ok h) (hf : chanFind s i h = .ok (ch, c))
    (hc : chanIndex c h = true) (hrx : bits h.toNat 31 31 = 1 ↔ rx = true)
    (hno : (s.txns.any fun e => e.2.issuer == i.proc && e.2.op == .chclose ch rx) = false)
    (hold : if rx then c.rxproc = ownerOf i.proc ∧ c.rxopen = true else ownerOf i.proc ∈ c.holders) :
    exec (.chclose x) s = .next ((s.issueQuiet (mkTxn s i (.chclose ch rx) 16)).modChan (partOf i.proc) ch fun c =>
      { c with flight := c.flight ++ [s.nextTxn] }) := by
  have harm : exec (.chclose x) s = execChclose x s := rfl
  have hbit : (bits h.toNat 31 31 == 1) = rx := by rw [Bool.eq_iff_iff, beq_iff_eq, hrx]
  have hheld : (if rx = true then c.rxproc == ownerOf i.proc && c.rxopen else c.holders.contains (ownerOf i.proc)) = true := by
    cases rx <;> simpa using hold
  simp only [harm, execChclose, cur_some hi, ok_bind, hx, hf, hc, check_true, hbit, hno, hheld, Bool.not_false, Bool.and_self, finish_ok]

theorem exec_chinfo (hi : s.issue = some i) (hx : readSrc i x = .ok h) (hf : chanFind s i h = .ok (ch, c)) (hc : chanIndex c h = true) :
    exec (.chinfo x k) s = .next ((s.issuePend i (mkTxn s i (.chinfo ch) 16) k).modChan (partOf i.proc) ch fun c =>
      { c with flight := c.flight ++ [s.nextTxn] }) := by
  have harm : exec (.chinfo x k) s = execChinfo x k s := rfl
  simp only [harm, execChinfo, cur_some hi, ok_bind, hx, hf, hc, check_true, finish_ok]

theorem exec_chbind {a : Access} (hi : s.issue = some i) (hx : readSrc i x = .ok h) (hy : readSrc i y = .ok v)
    (hf : chanFind s i h = .ok (ch, c)) (hc : chanIndex c h = true) (hm : s.isMgr i.proc = true) (hsp : pSpace v ≤ 2)
    (hal : pOff v % 8 = 0) (ha : effAddr s i .scalar .load v 0 64 false = .ok a) (ho : c.rxopen = true) :
    let t := a.st.nextTxn
    let u := a.st.issueQuiet { accessTxn i a (.fabRead a.parts) with partner := some (t + 1), ptag := 0 }
    exec (.chbind x y k) s = .next
      (((u.issuePend i { mkTxn u i (.chbind ch a.parts) (a.lat + 80) with partner := some t } k).modChan (partOf i.proc) ch fun c =>
        { c with flight := c.flight ++ [t + 1] }).afterLoad i a t) := by
  have harm : exec (.chbind x y k) s = execChbind x y k s := rfl
  have hcheck : (decide (pSpace v ≤ 2) && pOff v % 8 == 0) = true := by simp [hsp, hal]
  simp only [harm, execChbind, cur_some hi, ok_bind, needMgr_of_mgr hm, hx, hy, hf, hc, hcheck, ha, ho, check_true, finish_ok]

/-! ### Processes (R305, R306) -/

theorem exec_spawn {o : NetObj} {d : NetProc} (hi : s.issue = some i) (hx : readSrc i x = .ok h) (hy : readSrc i y = .ok v)
    (ho : nget? s.objs (s.inst i.pre.inst).obj = some o) (hd : o.img.procs[h.toNat]? = some d) (hs : d.spawned = true)
    (hg : (o.img.gangs.any fun g => g.contains h.toNat) = false) :
    exec (.spawn x y k) s = .next (s.issuePend i (mkTxn s i (.spawn h.toNat v 0) 200) k) := by
  have harm : exec (.spawn x y k) s = execSpawn x y k s := rfl
  have hlt : h.toNat < o.img.procs.length := (List.getElem?_eq_some_iff.mp hd).1
  have hget : o.img.procs.getD h.toNat {} = d := by rw [List.getD_eq_getElem?_getD, hd, Option.getD_some]
  simp only [harm, execSpawn, cur_some hi, ok_bind, hx, hy, ho, hlt, decide_true, hget, hs, hg, Bool.not_false, Bool.and_self,
    check_true, finish_ok]

theorem exec_exit (hi : s.issue = some i) (hb : exitBusy (s.addFence i.proc .rel .pkg) i.proc = false) :
    exec .exit s = .next ((s.addFence i.proc .rel .pkg).finishExit i.proc) := by
  have harm : exec .exit s = execExit s := rfl
  simp only [harm, execExit, cur_some hi, ok_bind, hb, Bool.false_eq_true, if_false, finish_ok]

end Words

/-- Settles O32: each word by its equation, the served `alt` and `chopen` by what HOME does, an `exit` by the end of its process. -/
theorem channelWords : Obligations.ChannelWords := by
  intro s i x y k h v hi hx hy part
  refine ⟨fun ch c bs hc hb hf ho => ⟨exec_send hi hx hy hc hb hf ho, exec_sendT hi hx hy hc hb hf ho⟩,
    fun ch c ks timed hc hk hf ho => exec_recv timed hi hx hc hk hf ho,
    fun ch c rx timed hc hsp hal hf hlen ho => exec_tile rx timed hi hx hy hc hsp hal hf hlen ho,
    fun g ch c hf hc => exec_altg g hi hx hf hc, fun timed hg => exec_alt timed hi hg, fun t w => ?_,
    fun hty hd => exec_chopen hi hx hy hty hd, fun t ty w hn => ?_, fun ch c hf hc => ⟨?_, exec_chinfo hi hx hf hc, ?_⟩,
    fun o d ho hd hs hg => exec_spawn hi hx hy ho hd hs hg, fun hb => ⟨exec_exit hi hb, fun he hr => ⟨_, exec_exit hi hb, ?_⟩⟩⟩
  · refine ⟨fun j hd hg => tryAlt_ready hg, fun hg ⟨d, hd, hle⟩ => tryAlt_late hg hd hle, fun hg hd => ?_⟩
    rw [State.startAlt, tryAlt_none hg hd, altWaits_txn]
  · refine ⟨newChan w ty, ?_, rfl, rfl, rfl, rfl, rfl, rfl, ?_⟩
    · rw [openChan_zero t ty rfl hn]
      exact chan?_setChan_same ..
    · rw [openChan_zero t ty rfl hn]
      exact nget?_nset_same ..
  · exact fun rx hrx hno hold => exec_chclose rx hi hx hf hc hrx hno hold
  · exact fun a hm hsp hal ha ho => exec_chbind hi hx hy hf hc hm hsp hal ha ho
  · obtain ⟨floor, fences, hfence⟩ := addFence_frame s i.proc .rel .pkg
    rw [hfence]
    exact finishExit_st (by rw [State.proc_setProc_same]; exact he) (by rw [State.proc_setProc_same]; exact hr)

end Sys2Proof.Machine
end

section
/-! SUPPORT. Vector registers as lanes (O27 to O29): a register made of digits of `w` bits, what `mapLanes` writes, and what a turn-ready
or pending result leaves unchanged. -/

namespace Sys2Proof.Machine

/-! ### Digits -/

/-- The number whose digits of `w` bits are `d 0` to `d (n - 1)`. -/
def laneSum (w : Nat) (d : Nat → Nat) : Nat → Nat
  | 0 => 0
  | n + 1 => laneSum w d n + d n * 2 ^ (w * n)

theorem laneSum_lt {w : Nat} {d : Nat → Nat} (hd : ∀ i, d i < 2 ^ w) (n : Nat) : laneSum w d n < 2 ^ (w * n) := by
  induction n with
  | zero => simp [laneSum]
  | succ n ih =>
    have hone : d n + 1 ≤ 2 ^ w := hd n
    calc laneSum w d n + d n * 2 ^ (w * n) < 2 ^ (w * n) + d n * 2 ^ (w * n) := Nat.add_lt_add_right ih _
      _ = (d n + 1) * 2 ^ (w * n) := by rw [Nat.add_mul, Nat.one_mul, Nat.add_comm]
      _ ≤ 2 ^ w * 2 ^ (w * n) := Nat.mul_le_mul_right _ hone
      _ = 2 ^ (w * (n + 1)) := by rw [← Nat.pow_add, Nat.mul_succ, Nat.add_comm]

theorem laneSum_digit {w j n : Nat} {d : Nat → Nat} (hd : ∀ i, d i < 2 ^ w) (hj : j < n) :
    laneSum w d n / 2 ^ (w * j) % 2 ^ w = d j := by
  induction n with
  | zero => exact absurd hj (Nat.not_lt_zero j)
  | succ n ih =>
    have hpos : 0 < 2 ^ (w * j) := Nat.two_pow_pos _
    rcases Nat.lt_succ_iff_lt_or_eq.mp hj with hlt | rfl
    · have hsplit : d n * 2 ^ (w * n) = 2 ^ (w * j) * (d n * 2 ^ (w * (n - j - 1)) * 2 ^ w) := by
        have hexp : w * n = w * j + (w * (n - j - 1) + w) := by
          rw [← Nat.mul_succ, ← Nat.mul_add]
          congr 1
          omega
        rw [hexp, Nat.pow_add, Nat.pow_add]
        ring
      rw [laneSum, hsplit, Nat.add_mul_div_left _ _ hpos, Nat.add_mul_mod_self_right, ih hlt]
    · rw [laneSum, Nat.add_mul_div_right _ _ hpos, Nat.div_eq_of_lt (laneSum_lt hd j), Nat.zero_add, Nat.mod_eq_of_lt (hd j)]

theorem foldl_range_laneSum (w : Nat) (d : Nat → Nat) (n : Nat) :
    (List.range n).foldl (fun a i => a + d i * 2 ^ (w * i)) 0 = laneSum w d n := by
  induction n with
  | zero => rfl
  | succ n ih => rw [List.range_succ, List.foldl_append, ih]; rfl

/-- A predicate register built bit by bit. -/
theorem getLsbD_foldl_bits {n m j : Nat} (act : Nat → Bool) (hj : j < m) :
    (BitVec.ofNat m ((List.range n).foldl (fun a i => if act i then a + 2 ^ i else a) 0)).getLsbD j = (decide (j < n) && act j) := by
  have hd (i : Nat) : (act i).toNat < 2 ^ 1 := by cases act i <;> decide
  have hsum : (List.range n).foldl (fun a i => if act i then a + 2 ^ i else a) 0 = laneSum 1 (fun i => (act i).toNat) n := by
    rw [← foldl_range_laneSum]
    refine List.foldl_ext _ _ _ fun a i _ => ?_
    cases act i <;> simp
  have hlt := laneSum_lt hd n
  rw [Nat.one_mul] at hlt
  rw [hsum, BitVec.getLsbD_ofNat, Nat.testBit_eq_decide_div_mod_eq, decide_eq_true hj, Bool.true_and]
  by_cases hjn : j < n
  · have hdig := laneSum_digit hd hjn
    rw [Nat.one_mul, Nat.pow_one] at hdig
    rw [hdig, decide_eq_true hjn, Bool.true_and]
    cases act j <;> rfl
  · have hzero : laneSum 1 (fun i => (act i).toNat) n / 2 ^ j = 0 :=
      Nat.div_eq_of_lt (hlt.trans_le (Nat.pow_le_pow_right (by decide) (Nat.le_of_not_lt hjn)))
    rw [hzero, decide_eq_false hjn]
    rfl

/-! ### Lanes -/

theorem laneAt_lt (w : Nat) (v : VReg) (j : Nat) : laneAt w v j < 2 ^ w := Nat.mod_lt _ (Nat.two_pow_pos w)

/-- What `mapLanes` writes to lane `j`. -/
def laneOut (w : Nat) (p : PReg) (old : VReg) (f : Nat → Nat × Word) (j : Nat) : Nat :=
  if p.getLsbD j then (f j).1 % 2 ^ w else laneAt w old j

theorem laneOut_lt (w : Nat) (p : PReg) (old : VReg) (f : Nat → Nat × Word) (j : Nat) : laneOut w p old f j < 2 ^ w := by
  unfold laneOut
  split
  · exact Nat.mod_lt _ (Nat.two_pow_pos w)
  · exact laneAt_lt ..

theorem mapLanes_fst (w : Nat) (p : PReg) (old : VReg) (f : Nat → Nat × Word) :
    (mapLanes w p old f).1 = BitVec.ofNat 2048 (laneSum w (laneOut w p old f) (2048 / w)) := by
  have hfst (l : List Nat) (a : Nat × Word) : (l.foldl (fun (a : Nat × Word) i =>
      if p.getLsbD i then (a.1 + (f i).1 % 2 ^ w * 2 ^ (w * i), a.2 ||| (f i).2)
      else (a.1 + laneAt w old i * 2 ^ (w * i), a.2)) a).1 = l.foldl (fun a i => a + laneOut w p old f i * 2 ^ (w * i)) a.1 := by
    induction l generalizing a with
    | nil => rfl
    | cons i l ih =>
      rw [List.foldl_cons, List.foldl_cons, ih, laneOut]
      split <;> rfl
  rw [← foldl_range_laneSum]
  exact congrArg (BitVec.ofNat 2048) (hfst _ _)

/-- A lane of a register given by its digits. -/
theorem laneAt_laneSum {w j : Nat} {d : Nat → Nat} (hw : w * (2048 / w) = 2048) (hd : ∀ i, d i < 2 ^ w) (hj : j < 2048 / w) :
    laneAt w (BitVec.ofNat 2048 (laneSum w d (2048 / w))) j = d j := by
  have hlt := laneSum_lt hd (2048 / w)
  rw [hw] at hlt
  simp only [laneAt, BitVec.toNat_ofNat, Nat.mod_eq_of_lt hlt, laneSum_digit hd hj]

theorem mapLanes_lane {w j : Nat} (p : PReg) (old : VReg) (f : Nat → Nat × Word) (hw : w * (2048 / w) = 2048) (hj : j < 2048 / w) :
    laneAt w (mapLanes w p old f).1 j = if p.getLsbD j then (f j).1 % 2 ^ w else laneAt w old j := by
  rw [mapLanes_fst, laneAt_laneSum hw (laneOut_lt w p old f) hj, laneOut]

theorem laneWidth_cases (t : VTy) : laneWidth t = 16 ∨ laneWidth t = 32 := by cases t <;> decide

theorem laneWidth_lanes (t : VTy) : laneWidth t * (2048 / laneWidth t) = 2048 := by
  rcases laneWidth_cases t with h | h <;> rw [h]

theorem halfWidth_lanes (half : Bool) : halfWidth half * (2048 / halfWidth half) = 2048 := by cases half <;> rfl

theorem halfWidth_half (half : Bool) : 2048 / halfWidth half / 2 = 1024 / halfWidth half := by cases half <;> rfl

/-! ### Registers -/

theorem readV_ok {i : Issue} {r : BitVec 5} (h : freeV i r = .ok ()) : readV i r = .ok (i.oldV r) := by
  simp only [readV, h, ok_bind, Issue.oldV]

@[simp] theorem Proc.vget_vset_same (p : Proc) (r : BitVec 5) (x : VReg) : (p.vset r x).vget r = x := nget_nset_same ..

theorem Proc.vget_vset_other (p : Proc) (x : VReg) {r k : BitVec 5} (h : k ≠ r) : (p.vset r x).vget k = p.vget k :=
  nget_nset_other _ _ _ fun e => h (BitVec.eq_of_toNat_eq e)

theorem Proc.pget_pset_same (p : Proc) {r : BitVec 3} (x : PReg) (hr : r ≠ 0) : (p.pset r x).pget r = x := by
  rw [Proc.pget, if_neg hr]
  exact nget_nset_same ..

theorem Proc.pget_pset_other (p : Proc) (x : PReg) {r k : BitVec 3} (h : k ≠ r) : (p.pset r x).pget k = p.pget k := by
  unfold Proc.pget
  split
  · rfl
  · exact nget_nset_other _ _ _ fun e => h (BitVec.eq_of_toNat_eq e)

/-! ### Turn-ready results -/

/-- A turn-ready result changes `vd` and the flags of the issuer. -/
theorem putV_frame (s : State) (i : Issue) (vd : BitVec 5) (r : VReg × Word) : ∃ q : Proc, s.putV i vd r = { s with procs := (s.putV i vd r).procs } ∧
    (∀ k, k ≠ i.proc → (s.putV i vd r).proc k = s.proc k) ∧ (s.putV i vd r).proc i.proc = q ∧
    q = { (s.proc i.proc).vset (i.pre.vphys vd) r.1 with flags := (s.proc i.proc).flags ||| r.2 } := by
  refine ⟨_, rfl, fun k hk => ?_, ?_, rfl⟩
  · rw [State.putV, setFlags_frame, State.proc_setProc_other _ _ _ hk, State.modProc_eq, State.proc_setProc_other _ _ _ hk]
  · rw [State.putV, setFlags_frame, State.proc_setProc_same, State.modProc_eq, State.proc_setProc_same]
    rfl

theorem laneResult_of_putV {s : State} {i : Issue} {vd : BitVec 5} {w : Nat} {act : Nat → Bool} {g : Nat → Nat} {r : VReg × Word}
    {o : Host.Outcome State Fault Refusal} (ho : o = .next (s.putV i vd r))
    (hl : ∀ j < 2048 / w, laneAt w r.1 j = if act j then g j % 2 ^ w else laneAt w (i.oldV vd) j) : LaneResult s i vd w act g o := by
  obtain ⟨q, hstate, hother, hproc, hq⟩ := putV_frame s i vd r
  refine ⟨_, ho, hstate, hother, ?_, fun a => rfl⟩
  rw [hproc, hq]
  refine ⟨rfl, ?_, fun j hj => ?_, fun k hk => ?_⟩
  · ext b
    simp +contextual
  · rw [← hl j hj]
    exact congrArg (laneAt w · j) (Proc.vget_vset_same ..)
  · exact Proc.vget_vset_other _ _ hk

/-! ### The forms of R332 to R341 that are ready at the turn -/

section Now

variable {s : State} {i : Issue} {vd va vb : BitVec 5} {p : BitVec 3} {w : Nat} {g : Nat → Nat} {e : Instr}

/-- A form of one register. -/
theorem unaryNow_lanes {f : Nat → Nat} (harm : exec e s = finish s (unaryNow s w vd va p f)) (hi : s.issue = some i)
    (hd : freeW s i vd = .ok ()) (ha : freeV i va = .ok ()) (hw : w * (2048 / w) = 2048)
    (hf : ∀ j < 2048 / w, f (laneAt w (i.oldV va) j) % 2 ^ w = g j % 2 ^ w) :
    LaneResult s i vd w (fun j => (i.pre.pget p).getLsbD j) g (exec e s) := by
  refine laneResult_of_putV (r := mapLanes w (i.pre.pget p) (i.oldV vd) fun j => (f (laneAt w (i.oldV va) j), 0)) ?_ fun j hj => ?_
  · simp only [harm, unaryNow, cur_some hi, ok_bind, readV_ok ha, hd, finish_ok]
  · rw [mapLanes_lane _ _ _ hw hj, hf j hj]

/-- A form of two registers. -/
theorem binaryNow_lanes {f : Nat → Nat → Nat} (harm : exec e s = finish s (binaryNow s w vd va vb p f)) (hi : s.issue = some i)
    (hd : freeW s i vd = .ok ()) (ha : freeV i va = .ok ()) (hb : freeV i vb = .ok ()) (hw : w * (2048 / w) = 2048)
    (hf : ∀ j < 2048 / w, f (laneAt w (i.oldV va) j) (laneAt w (i.oldV vb) j) % 2 ^ w = g j % 2 ^ w) :
    LaneResult s i vd w (fun j => (i.pre.pget p).getLsbD j) g (exec e s) := by
  refine laneResult_of_putV
    (r := mapLanes w (i.pre.pget p) (i.oldV vd) fun j => (f (laneAt w (i.oldV va) j) (laneAt w (i.oldV vb) j), 0)) ?_ fun j hj => ?_
  · simp only [harm, binaryNow, cur_some hi, ok_bind, readV_ok ha, readV_ok hb, hd, finish_ok]
  · rw [mapLanes_lane _ _ _ hw hj, hf j hj]

/-- A form of two registers whose lanes are integers. -/
theorem arith_lanes {t : VTy} {heavy : Bool} {ff : Fmt → Rm → Nat → Nat → Nat × Word} {fi : Int → Int → Int}
    (harm : exec e s = finish s (arith s t vd va vb p heavy ff fi)) (ht : laneFmt t = none) (hi : s.issue = some i)
    (hd : freeW s i vd = .ok ()) (ha : freeV i va = .ok ()) (hb : freeV i vb = .ok ()) :
    LaneResult s i vd (laneWidth t) (fun j => (i.pre.pget p).getLsbD j)
      (fun j => wrapLane (laneWidth t) (fi (laneInt t (laneAt (laneWidth t) (i.oldV va) j)) (laneInt t (laneAt (laneWidth t) (i.oldV vb) j))))
      (exec e s) := by
  refine laneResult_of_putV (r := mapLanes (laneWidth t) (i.pre.pget p) (i.oldV vd) fun j =>
    (wrapLane (laneWidth t) (fi (laneInt t (laneAt (laneWidth t) (i.oldV va) j)) (laneInt t (laneAt (laneWidth t) (i.oldV vb) j))), 0))
    ?_ fun j hj => ?_
  · simp only [harm, arith, cur_some hi, ok_bind, readV_ok ha, readV_ok hb, hd, ht, finish_ok]
  · rw [mapLanes_lane _ _ _ (laneWidth_lanes t) hj]

/-- A permute that takes every active lane from somewhere. -/
theorem permute_lanes {f : VReg → VReg → Nat → Nat} (harm : exec e s = finish s (permute s w vd va (some vb) p fun a b j => some (f a b j)))
    (hi : s.issue = some i) (hd : freeW s i vd = .ok ()) (ha : freeV i va = .ok ()) (hb : freeV i vb = .ok ())
    (hw : w * (2048 / w) = 2048) :
    LaneResult s i vd w (fun j => (i.pre.pget p).getLsbD j) (f (i.oldV va) (i.oldV vb)) (exec e s) := by
  refine laneResult_of_putV (r := mapLanes w (i.pre.pget p) (i.oldV vd) fun j => (f (i.oldV va) (i.oldV vb) j, 0)) ?_ fun j hj => ?_
  · simp only [harm, permute, cur_some hi, ok_bind, readV_ok ha, readV_ok hb, hd, finish_ok, Option.getD_some]
  · rw [mapLanes_lane _ _ _ hw hj]

/-- A slide: lane `j` comes from lane `f j` where `c j` holds, and else stays. -/
theorem slide_lanes {c : Nat → Prop} [DecidablePred c] {f : Nat → Nat}
    (harm : exec e s = finish s (permute s w vd va none p fun a _ j => if c j then some (laneAt w a (f j)) else none))
    (hi : s.issue = some i) (hd : freeW s i vd = .ok ()) (ha : freeV i va = .ok ()) (hw : w * (2048 / w) = 2048) :
    LaneResult s i vd w (fun j => (i.pre.pget p).getLsbD j && decide (c j)) (fun j => laneAt w (i.oldV va) (f j)) (exec e s) := by
  refine laneResult_of_putV (r := mapLanes w (i.pre.pget p) (i.oldV vd) fun j =>
    ((if c j then some (laneAt w (i.oldV va) (f j)) else none).getD (laneAt w (i.oldV vd) j), 0)) ?_ fun j hj => ?_
  · simp only [harm, permute, cur_some hi, ok_bind, readV_ok ha, hd, finish_ok]
  · rw [mapLanes_lane _ _ _ hw hj]
    by_cases hc : c j
    · simp only [hc, if_true, Option.getD_some, decide_true, Bool.and_true]
    · simp only [hc, if_false, Option.getD_none, decide_false, Bool.and_false, Nat.mod_eq_of_lt (laneAt_lt ..), ite_self, Bool.false_eq_true]

theorem vfins_lanes {t : VTy} {f : Fmt} (ht : laneFmt t = some f) (hi : s.issue = some i) (hd : freeW s i vd = .ok ())
    (ha : freeV i va = .ok ()) (hb : freeV i vb = .ok ()) :
    LaneResult s i vd (laneWidth t) (fun j => (i.pre.pget p).getLsbD j)
      (fun j => (fIns f i.vrm (laneAt (laneWidth t) (i.oldV va) j) (sLane (laneWidth t) (laneAt (laneWidth t) (i.oldV vb) j))).1)
      (exec (.vfins t vd va vb p) s) := by
  have harm : exec (.vfins t vd va vb p) s = execVfins t vd va vb p s := rfl
  refine laneResult_of_putV (r := mapLanes (laneWidth t) (i.pre.pget p) (i.oldV vd) fun j =>
    fIns f i.vrm (laneAt (laneWidth t) (i.oldV va) j) (sLane (laneWidth t) (laneAt (laneWidth t) (i.oldV vb) j))) ?_ fun j hj => ?_
  · simp only [harm, execVfins, cur_some hi, ok_bind, ht, readV_ok ha, readV_ok hb, hd, finish_ok]
  · rw [mapLanes_lane _ _ _ (laneWidth_lanes t) hj]

/-- `vsel` writes every lane, from one register or the other. -/
theorem vsel_lanes (half : Bool) (hi : s.issue = some i) (hd : freeW s i vd = .ok ()) (ha : freeV i va = .ok ()) (hb : freeV i vb = .ok ()) :
    LaneResult s i vd (halfWidth half) (fun _ => true)
      (fun j => if (i.pre.pget p).getLsbD j then laneAt (halfWidth half) (i.oldV va) j else laneAt (halfWidth half) (i.oldV vb) j)
      (exec (.vsel half vd va vb p) s) := by
  have harm : exec (.vsel half vd va vb p) s = execVsel half vd va vb p s := rfl
  refine laneResult_of_putV (r := mapLanes (halfWidth half) (BitVec.allOnes 128) 0 fun j =>
    (if (i.pre.pget p).getLsbD j then laneAt (halfWidth half) (i.oldV va) j else laneAt (halfWidth half) (i.oldV vb) j, 0)) ?_ fun j hj => ?_
  · simp only [harm, execVsel, cur_some hi, ok_bind, readV_ok ha, readV_ok hb, hd, finish_ok]
  · have hlanes : j < 128 := by
      cases half
      · exact hj.trans_le (by decide)
      · exact hj
    rw [mapLanes_lane _ _ _ (halfWidth_lanes half) hj, BitVec.getLsbD_allOnes, decide_eq_true hlanes, if_pos rfl, if_pos rfl]

theorem vbcast_lanes {k : BitVec 5} {kv : Word} (half : Bool) (hi : s.issue = some i) (hd : freeW s i vd = .ok ())
    (hk : readSrc i (.n k) = .ok kv) :
    LaneResult s i vd (halfWidth half) (fun j => (i.pre.pget p).getLsbD j) (fun _ => kv.toNat) (exec (.vbcast half vd k p) s) := by
  have harm : exec (.vbcast half vd k p) s = execVbcast half vd k p s := rfl
  refine laneResult_of_putV (r := mapLanes (halfWidth half) (i.pre.pget p) (i.oldV vd) fun _ => (kv.toNat, 0)) ?_ fun j hj => ?_
  · simp only [harm, execVbcast, cur_some hi, ok_bind, hk, hd, finish_ok]
  · rw [mapLanes_lane _ _ _ (halfWidth_lanes half) hj]

end Now

/-! ### Values of lanes -/

theorem laneFmt_of_int {t : VTy} (h : t.isFloat = false) : laneFmt t = none := by
  revert h
  cases t <;> decide

/-- A floating type's lane is its layout's width, one sign bit above the magnitude. -/
theorem laneFmt_width {t : VTy} {f : Fmt} (h : laneFmt t = some f) :
    f.width = laneWidth t ∧ f.signBit = 2 ^ (laneWidth t - 1) ∧ 2 ^ laneWidth t = 2 * 2 ^ (laneWidth t - 1) := by
  cases t <;> cases h <;> decide

theorem flipSign_mod {f : Fmt} {x w : Nat} (hs : f.signBit = 2 ^ (w - 1)) (hw : 2 ^ w = 2 * 2 ^ (w - 1)) :
    flipSign f x % 2 ^ w = (x + 2 ^ (w - 1)) % 2 ^ w := by
  have hpos : 0 < 2 ^ (w - 1) := Nat.two_pow_pos _
  rw [flipSign, fneg?, hs]
  split
  · next hneg =>
    have hle : 2 ^ (w - 1) ≤ x := by
      by_contra hlt
      rw [Nat.div_eq_of_lt (Nat.lt_of_not_le hlt)] at hneg
      exact absurd hneg (by decide)
    rw [show x + 2 ^ (w - 1) = x - 2 ^ (w - 1) + 2 ^ w by omega, Nat.add_mod_right]
  · rfl

/-- The count of ones. -/
theorem ones_eq_countP (w x : Nat) : ones w x = (List.range w).countP fun m => x.testBit m := by
  unfold ones
  induction w with
  | zero => rfl
  | succ w ih =>
    rw [List.range_succ, List.foldl_append, ih, List.countP_append, List.foldl_cons, List.foldl_nil, List.countP_singleton,
      Nat.testBit_eq_decide_div_mod_eq]
    rcases Nat.mod_two_eq_zero_or_one (x / 2 ^ w) with h | h <;> rw [h] <;> rfl

/-- Settles O27: each form by the lemma of its kind, with the value of its lanes. -/
theorem vectorLanesNow : Obligations.VectorLanesNow := by
  intro s i vd va vb n p k kv half hi hd ha hb hk a b on h lanes
  have h32 : 32 * (2048 / 32) = 2048 := rfl
  have h16 : 16 * (2048 / 16) = 2048 := rfl
  refine ⟨fun t ht => ?int, fun t f ht => ?float, unaryNow_lanes rfl hi hd ha (halfWidth_lanes half) fun _ _ => rfl,
    binaryNow_lanes rfl hi hd ha hb h32 fun _ _ => rfl, binaryNow_lanes rfl hi hd ha hb h32 fun _ _ => rfl,
    binaryNow_lanes rfl hi hd ha hb h32 fun _ _ => rfl, ?shl32, ?shl16, ?shr32, ?shr16, ?sar32, ?sar16, vsel_lanes half hi hd ha hb,
    permute_lanes (f := fun a b j => laneAt h a (laneAt h b j % (2048 / h))) rfl hi hd ha hb (halfWidth_lanes half),
    permute_lanes (f := fun a b j => if j % 2 = 0 then laneAt h a (j / 2) else laneAt h b (j / 2)) rfl hi hd ha hb (halfWidth_lanes half),
    ?unzip,
    slide_lanes rfl hi hd ha (halfWidth_lanes half), slide_lanes rfl hi hd ha (halfWidth_lanes half), vbcast_lanes half hi hd hk⟩
  case int =>
    have hf := laneFmt_of_int ht
    refine ⟨arith_lanes rfl hf hi hd ha hb, arith_lanes rfl hf hi hd ha hb, arith_lanes rfl hf hi hd ha hb,
      arith_lanes rfl hf hi hd ha hb, arith_lanes rfl hf hi hd ha hb, ?_, ?_, ?_⟩
    · refine unaryNow_lanes rfl hi hd ha (laneWidth_lanes t) fun j _ => ?_
      rw [hf]
      exact Nat.mod_mod ..
    · refine unaryNow_lanes rfl hi hd ha (laneWidth_lanes t) fun j _ => ?_
      rw [hf]
    · exact unaryNow_lanes rfl hi hd ha (laneWidth_lanes t) fun j _ => congrArg (· % 2 ^ laneWidth t) (ones_eq_countP ..)
  case float =>
    obtain ⟨_, hsign, hpow⟩ := laneFmt_width ht
    refine ⟨unaryNow_lanes rfl hi hd ha (laneWidth_lanes t) fun j _ => ?_, unaryNow_lanes rfl hi hd ha (laneWidth_lanes t) fun j _ => ?_,
      unaryNow_lanes rfl hi hd ha (laneWidth_lanes t) fun j _ => ?_, vfins_lanes ht hi hd ha hb⟩
    · rw [ht]
      show fmag f _ % _ = _
      rw [fmag, hsign]
    · rw [ht]
      exact flipSign_mod hsign hpow
    · rw [ht]
  case shl32 | shl16 =>
    exact binaryNow_lanes rfl hi hd ha hb rfl fun j _ => by rw [shlLane, Nat.mod_mod, Nat.shiftLeft_eq]
  case shr32 | shr16 =>
    exact binaryNow_lanes rfl hi hd ha hb rfl fun j _ => by rw [shrLane, Nat.shiftRight_eq_div_pow]
  case sar32 | sar16 =>
    exact binaryNow_lanes rfl hi hd ha hb rfl fun j _ => by rw [sarLane, Int.shiftRight_eq_div_pow]; norm_cast
  case unzip =>
    have hhalf : 2048 / h / 2 = 1024 / h := halfWidth_half half
    rw [← hhalf]
    exact permute_lanes
      (f := fun a b j => if j < 2048 / h / 2 then laneAt h a (2 * j) else laneAt h b (2 * (j - 2048 / h / 2) + 1))
      rfl hi hd ha hb (halfWidth_lanes half)

end Sys2Proof.Machine
end

section
/-! SUPPORT. Pending vector results (O28, O29): the transaction that brings a register to `vd`. -/

namespace Sys2Proof.Machine

/-! ### A pending register -/

/-- In `t` the register `v` is on its way to `vd`, issued in `s`. -/
structure VecPending (s : State) (i : Issue) (vd : BitVec 5) (v : VReg) (t : State) : Prop where
  issue : t.issue = s.issue
  mem : t.mem = s.mem
  pending : (i.pre.vphys vd, s.nextTxn) ∈ (t.proc i.proc).vPend
  txn : ∃ x d, nget? t.txns s.nextTxn = some x ∧ x.tgt.vregs = [i.pre.vphys vd] ∧ x.op = .value d ∧ d.vecs = [v]

theorem issueVec_txn (s : State) (i : Issue) (x : Txn) (vd : BitVec 5) (mask : BitVec 256) (heavy : Bool) :
    ∃ g : Tgt, nget? (s.issueVec i x vd mask heavy).txns s.nextTxn = some { x with tgt := g } ∧ g.vregs = [i.pre.vphys vd] :=
  ⟨_, nget?_nset_same _ _ _, rfl⟩

theorem issueVec_vPend (s : State) (i : Issue) (x : Txn) (vd : BitVec 5) (mask : BitVec 256) (heavy : Bool) :
    (i.pre.vphys vd, s.nextTxn) ∈ ((s.issueVec i x vd mask heavy).proc i.proc).vPend := by
  rw [State.issueVec, State.proc_setProc_same]
  exact List.mem_cons_self

theorem laterV_pending (s : State) (i : Issue) (vd : BitVec 5) (mask : BitVec 256) (r : VReg × Word) (lat : Nat) :
    VecPending s i vd r.1 (s.laterV i vd mask r lat) := by
  obtain ⟨g, htxn, hg⟩ := issueVec_txn s i (mkTxn s i (.value { vecs := [r.1], flags := r.2 }) lat) vd mask false
  exact ⟨rfl, rfl, issueVec_vPend .., _, _, htxn, hg, rfl, rfl⟩

theorem heavyV_pending (s : State) (i : Issue) (vd : BitVec 5) (r : VReg × Word) (lat : Nat) :
    VecPending s i vd r.1 (s.heavyV i vd r lat) := by
  obtain ⟨g, htxn, hg⟩ := issueVec_txn s i { mkTxn s i (.value { vals := [0], vecs := [r.1], flags := r.2 }) lat with token := true }
    vd wholeReg true
  exact ⟨rfl, rfl, issueVec_vPend .., _, _, htxn, hg, rfl, rfl⟩

/-- A lane form issues, where a heavy one has a token. -/
theorem laneForm_ok {s : State} {i : Issue} {p : BitVec 3} (vd : BitVec 5) (w : Nat) (r : VReg × Word) (lat : Nat) (heavy : Bool)
    (htok : p ≠ 0 ∨ 0 < (s.core i.pre.core).free) : ∃ t, s.laneForm i vd w p r lat heavy = .ok t ∧ VecPending s i vd r.1 t := by
  cases hh : heavy && p == 0 with
  | false => exact ⟨_, by rw [State.laneForm, hh]; rfl, laterV_pending ..⟩
  | true =>
    simp only [Bool.and_eq_true, beq_iff_eq] at hh
    have hfree := htok.resolve_left fun hp => hp hh.2
    have htoken : needToken s i = .ok () := by rw [needToken, decide_eq_true hfree, check_true]
    refine ⟨_, ?_, heavyV_pending s i vd r lat⟩
    simp only [State.laneForm, hh.1, hh.2, beq_self_eq_true, Bool.and_self, if_true, htoken, ok_bind]

section Later

variable {s : State} {i : Issue} {vd va vb vc : BitVec 5} {p : BitVec 3} {w : Nat} {e : Instr}

theorem lanePending_of_pending {act : Nat → Bool} {g : Nat → Nat} {v : VReg} {t : State} {o : Host.Outcome State Fault Refusal}
    (ho : o = .next t) (ht : VecPending s i vd v t)
    (hl : ∀ j < 2048 / w, laneAt w v j = if act j then g j % 2 ^ w else laneAt w (i.oldV vd) j) : LanePending s i vd w act g o := by
  obtain ⟨x, d, htxn, htgt, hop, hvecs⟩ := ht.txn
  refine ⟨t, x, d, v, ho, ht.issue, ht.pending, htxn, htgt, hop, hvecs, hl, fun a => ?_⟩
  rw [ht.mem]

/-! ### The floating forms of R332 to R334 -/

/-- A form of two registers whose lanes are floats. -/
theorem arith_later {t : VTy} {f : Fmt} {heavy : Bool} {ff : Fmt → Rm → Nat → Nat → Nat × Word} {fi : Int → Int → Int}
    (harm : exec e s = finish s (arith s t vd va vb p heavy ff fi)) (ht : laneFmt t = some f) (hi : s.issue = some i)
    (hd : freeW s i vd = .ok ()) (ha : freeV i va = .ok ()) (hb : freeV i vb = .ok ()) (htok : p ≠ 0 ∨ 0 < (s.core i.pre.core).free) :
    LanePending s i vd (laneWidth t) (fun j => (i.pre.pget p).getLsbD j)
      (fun j => (ff f i.vrm (laneAt (laneWidth t) (i.oldV va) j) (laneAt (laneWidth t) (i.oldV vb) j)).1) (exec e s) := by
  obtain ⟨u, hform, hpend⟩ := laneForm_ok vd (laneWidth t) (mapLanes (laneWidth t) (i.pre.pget p) (i.oldV vd) fun j =>
    ff f i.vrm (laneAt (laneWidth t) (i.oldV va) j) (laneAt (laneWidth t) (i.oldV vb) j)) 16 heavy htok
  refine lanePending_of_pending ?_ hpend fun j hj => mapLanes_lane _ _ _ (laneWidth_lanes t) hj
  simp only [harm, arith, cur_some hi, ok_bind, readV_ok ha, readV_ok hb, hd, ht, hform, finish_ok]

/-- A form of one register whose lanes are floats. -/
theorem unaryLater_lanes {t : VTy} {f : Fmt} {lat : Nat} {ff : Fmt → Rm → Nat → Nat × Word}
    (harm : exec e s = finish s (unaryLater s t vd va p lat ff)) (ht : laneFmt t = some f) (hi : s.issue = some i)
    (hd : freeW s i vd = .ok ()) (ha : freeV i va = .ok ()) :
    LanePending s i vd (laneWidth t) (fun j => (i.pre.pget p).getLsbD j)
      (fun j => (ff f (i.rm .dyn) (laneAt (laneWidth t) (i.oldV va) j)).1) (exec e s) := by
  refine lanePending_of_pending ?_
    (laterV_pending s i vd (laneBytes (laneWidth t) fun j => (i.pre.pget p).getLsbD j) (mapLanes (laneWidth t) (i.pre.pget p) (i.oldV vd)
      fun j => ff f (i.rm .dyn) (laneAt (laneWidth t) (i.oldV va) j)) lat) fun j hj => mapLanes_lane _ _ _ (laneWidth_lanes t) hj
  simp only [harm, unaryLater, cur_some hi, ok_bind, readV_ok ha, hd, ht, finish_ok]

/-- A fused form. -/
theorem fused_lanes {f : Fmt} {neg : Bool} (harm : exec e s = finish s (fused s f neg vd va vb vc p)) (hw : f.width * (2048 / f.width) = 2048)
    (hi : s.issue = some i) (hd : freeW s i vd = .ok ()) (ha : freeV i va = .ok ()) (hb : freeV i vb = .ok ()) (hc : freeV i vc = .ok ())
    (htok : p ≠ 0 ∨ 0 < (s.core i.pre.core).free) :
    LanePending s i vd f.width (fun j => (i.pre.pget p).getLsbD j)
      (fun j => (fFma f i.vrm (laneAt f.width (i.oldV va) j) (laneAt f.width (i.oldV vb) j)
        (if neg && !isNaN f (laneAt f.width (i.oldV vc) j) then flipSign f (laneAt f.width (i.oldV vc) j)
          else laneAt f.width (i.oldV vc) j)).1) (exec e s) := by
  obtain ⟨u, hform, hpend⟩ := laneForm_ok vd f.width (mapLanes f.width (i.pre.pget p) (i.oldV vd) fun j =>
    fFma f i.vrm (laneAt f.width (i.oldV va) j) (laneAt f.width (i.oldV vb) j)
      (if neg && !isNaN f (laneAt f.width (i.oldV vc) j) then flipSign f (laneAt f.width (i.oldV vc) j)
        else laneAt f.width (i.oldV vc) j)) 24 true htok
  refine lanePending_of_pending ?_ hpend fun j hj => mapLanes_lane _ _ _ hw hj
  simp only [harm, fused, cur_some hi, ok_bind, readV_ok ha, readV_ok hb, readV_ok hc, hd, hform, finish_ok]

/-! ### Conversion (R338) -/

/-- The upper lanes that a narrowing conversion clears. -/
def cvtUpper (src dst : VTy) (j : Nat) : Bool := laneWidth src == 32 && laneWidth dst == 16 && decide (64 ≤ j)

/-- A register of at most 128 lanes: lanes of 16 bits or more. -/
theorem lanes_le {t : VTy} {j : Nat} (hj : j < 2048 / laneWidth t) : j < 128 := by
  refine hj.trans_le ?_
  rcases laneWidth_cases t with h | h <;> rw [h]
  decide

theorem vcvt_lanes (src dst : VTy) (hi : s.issue = some i) (hd : freeW s i vd = .ok ()) (ha : freeV i va = .ok ()) :
    LanePending s i vd (laneWidth dst) (fun j => cvtUpper src dst j || (i.pre.pget p).getLsbD j)
      (fun j => if cvtUpper src dst j then 0 else (convLane src dst (i.rm .dyn) (laneAt (laneWidth src) (i.oldV va) j)).1)
      (exec (.vcvt src dst vd va p) s) := by
  have harm : exec (.vcvt src dst vd va p) s = execVcvt src dst vd va p s := rfl
  refine lanePending_of_pending ?_ (laterV_pending s i vd (laneBytes (laneWidth dst) fun j => cvtUpper src dst j || (i.pre.pget p).getLsbD j)
    (mapLanes (laneWidth dst) (BitVec.ofNat 128 ((List.range 128).foldl (fun n j =>
      if (cvtUpper src dst j || (i.pre.pget p).getLsbD j) then n + 2 ^ j else n) 0)) (i.oldV vd) fun j =>
      if cvtUpper src dst j then (0, 0) else convLane src dst (i.rm .dyn) (laneAt (laneWidth src) (i.oldV va) j)) 16) fun j hj => ?_
  · simp only [harm, execVcvt, cur_some hi, ok_bind, readV_ok ha, hd, finish_ok]
    rfl
  · rw [mapLanes_lane _ _ _ (laneWidth_lanes dst) hj, getLsbD_foldl_bits _ (lanes_le hj), decide_eq_true (lanes_le hj), Bool.true_and]
    cases cvtUpper src dst j <;> rfl

end Later

/-- Settles O28: each form by the lemma of its kind. -/
theorem vectorLanesLater : Obligations.VectorLanesLater := by
  intro s i vd va vb vc p hi hd ha hb hc htok a b c on
  refine ⟨fun t f ht => ?_, fun f neg e he => ?_, fun src dst => vcvt_lanes src dst hi hd ha⟩
  · exact ⟨arith_later rfl ht hi hd ha hb htok, arith_later rfl ht hi hd ha hb htok, arith_later rfl ht hi hd ha hb htok,
      arith_later (ff := fun f _ => fMinMax f false) rfl ht hi hd ha hb htok,
      arith_later (ff := fun f _ => fMinMax f true) rfl ht hi hd ha hb htok, unaryLater_lanes (ff := fRint) rfl ht hi hd ha,
      unaryLater_lanes (ff := fun f _ x => fExf f x) rfl ht hi hd ha, unaryLater_lanes (ff := fun f _ x => rcpLane f x) rfl ht hi hd ha,
      unaryLater_lanes (ff := fun f _ x => rsqLane f x) rfl ht hi hd ha⟩
  · simp only [List.mem_cons, Prod.mk.injEq, List.not_mem_nil, or_false] at he
    rcases he with ⟨rfl, rfl, rfl⟩ | ⟨rfl, rfl, rfl⟩ | ⟨rfl, rfl, rfl⟩ | ⟨rfl, rfl, rfl⟩ | ⟨rfl, rfl, rfl⟩ | ⟨rfl, rfl, rfl⟩ <;>
      exact fused_lanes rfl rfl hi hd ha hb hc htok

end Sys2Proof.Machine
end

section
/-! SUPPORT. The matrix set in the hands of an issuer, and the duplication map as a number (O29 to O31). -/

namespace Sys2Proof.Machine

/-- An issuer that takes a free set, or keeps its own, changes no more than the owner. -/
theorem claimMatrix_ok {s : State} {i : Issue}
    (h : (s.core i.pre.core).owner = none ∨ (s.core i.pre.core).owner = some i.proc) :
    ∃ u, s.claimMatrix i = .ok u ∧ u = { s with cores := u.cores } ∧
      u.core i.pre.core = { s.core i.pre.core with owner := some i.proc } := by
  rcases h with h | h
  · refine ⟨_, by rw [State.claimMatrix, h], rfl, ?_⟩
    rw [State.modCore_eq, State.core_setCore_same]
  · refine ⟨s, by simp only [State.claimMatrix, h, if_true], rfl, ?_⟩
    rw [← h]

/-! ### The duplication map (R231) -/

/-- A number is the sum of its digits. -/
theorem laneSum_div_mod (w m n : Nat) : laneSum w (fun i => m / 2 ^ (w * i) % 2 ^ w) n = m % 2 ^ (w * n) := by
  induction n with
  | zero => simp [laneSum, Nat.mod_one]
  | succ n ih => rw [laneSum, ih, Nat.mul_succ, Nat.pow_add, Nat.mod_mul, Nat.mul_comm (2 ^ (w * n))]

theorem laneSum_congr {w n : Nat} {d e : Nat → Nat} (h : ∀ j < n, d j = e j) : laneSum w d n = laneSum w e n := by
  induction n with
  | zero => rfl
  | succ n ih => rw [laneSum, laneSum, ih fun j hj => h j (hj.trans n.lt_succ_self), h n n.lt_succ_self]

theorem foldl_zipIdx_laneSum (l : List Word) :
    l.zipIdx.foldl (fun a e => a + e.1.toNat * 2 ^ (64 * e.2)) 0 = laneSum 64 (fun j => (l.getD j 0).toNat) l.length := by
  induction l using List.reverseRecOn with
  | nil => rfl
  | append_singleton l x ih =>
    have hlow : laneSum 64 (fun j => ((l ++ [x]).getD j 0).toNat) l.length = laneSum 64 (fun j => (l.getD j 0).toNat) l.length :=
      laneSum_congr fun j hj => by rw [List.getD_append _ _ _ _ hj]
    rw [List.zipIdx_append, List.foldl_append, ih, List.length_append, List.length_singleton, laneSum, hlow,
      List.getD_append_right _ _ _ _ (Nat.le_refl _), Nat.sub_self, Nat.zero_add]
    rfl

/-- The duplication map in its words. -/
theorem dmapNat_eq (v : Vector Word 6) : dmapNat v = laneSum 64 (fun j => (v.toList.getD j 0).toNat) 6 := by
  rw [dmapNat, foldl_zipIdx_laneSum, Vector.length_toList]

theorem dmapNat_lt (v : Vector Word 6) : dmapNat v < 2 ^ (64 * 6) := by
  rw [dmapNat_eq]
  exact laneSum_lt (fun j => (v.toList.getD j 0).isLt) 6

/-- A number of six words as a duplication map. -/
theorem dmapNat_ofFn {n : Nat} (hn : n < 2 ^ (64 * 6)) :
    dmapNat (Vector.ofFn fun j : Fin 6 => BitVec.ofNat 64 (n / 2 ^ (64 * j.val))) = n := by
  have hword (j : Nat) (hj : j < 6) :
      ((Vector.ofFn fun j : Fin 6 => BitVec.ofNat 64 (n / 2 ^ (64 * j.val))).toList.getD j 0).toNat = n / 2 ^ (64 * j) % 2 ^ 64 := by
    rw [Vector.toList_ofFn, List.getD_eq_getElem _ _ (by rwa [List.length_ofFn]), List.getElem_ofFn, BitVec.toNat_ofNat]
  rw [dmapNat_eq, laneSum_congr hword, laneSum_div_mod, Nat.mod_eq_of_lt hn]

/-- A digit of six bits replaced. -/
theorem digit_replace {N P x : Nat} (hP : 0 < P) (hx : x < 64) :
    (N - N / P % 64 * P + x * P) / P % 64 = x ∧ ∀ M, 64 * P ∣ M → N < M → N - N / P % 64 * P + x * P < M := by
  have hN : N = 64 * (N / (P * 64)) * P + N / P % 64 * P + N % P := by
    have h1 := Nat.div_add_mod N P
    have h2 := Nat.div_add_mod (N / P) 64
    rw [Nat.div_div_eq_div_mul] at h2
    rw [← Nat.add_mul, h2, Nat.mul_comm, h1]
  have hlo : N % P < P := Nat.mod_lt _ hP
  have hnew : N - N / P % 64 * P + x * P = N % P + (x + 64 * (N / (P * 64))) * P := by
    rw [Nat.add_mul]
    generalize N / P % 64 * P = a at *
    omega
  rw [hnew]
  refine ⟨?_, ?_⟩
  · rw [Nat.add_mul_div_right _ _ hP, Nat.div_eq_of_lt hlo, Nat.zero_add, Nat.add_mul_mod_self_left, Nat.mod_eq_of_lt hx]
  · rintro M ⟨m, rfl⟩ hlt
    have hq : N / (P * 64) < m := by
      rw [Nat.div_lt_iff_lt_mul (by omega)]
      calc N < 64 * P * m := hlt
        _ = m * (P * 64) := by ring
    calc N % P + (x + 64 * (N / (P * 64))) * P < P + (x + 64 * (N / (P * 64))) * P := Nat.add_lt_add_right hlo _
      _ = (1 + x + 64 * (N / (P * 64))) * P := by ring
      _ ≤ 64 * m * P := Nat.mul_le_mul_right _ (by omega)
      _ = 64 * P * m := by ring

/-- The entry that was set. -/
theorem dmapAt_dmapSet {v : Vector Word 6} {k x : Nat} (hk : k < 64) (hx : x < 64) : dmapAt (dmapSet v k x) k = x := by
  obtain ⟨hdigit, hbound⟩ := digit_replace (N := dmapNat v) (Nat.two_pow_pos (6 * k)) hx
  have hdvd : 64 * 2 ^ (6 * k) ∣ 2 ^ (64 * 6) := by
    rw [show (64 : Nat) = 2 ^ 6 from rfl, ← Nat.pow_add]
    exact Nat.pow_dvd_pow 2 (by omega)
  rw [dmapAt, dmapSet, dmapNat_ofFn, dmapAt, Nat.mod_eq_of_lt hx, hdigit]
  rw [dmapAt, Nat.mod_eq_of_lt hx]
  exact hbound _ hdvd (dmapNat_lt v)

end Sys2Proof.Machine
end

section
/-! SUPPORT. Reductions, comparisons, predicate logic, splitting and quantising (O29). -/

namespace Sys2Proof.Machine

section Reduce

variable {s : State} {i : Issue} {vd va vb : BitVec 5} {p : BitVec 3} {e : Instr}

/-- A word goes on and the register `v` is on its way to `vd`. -/
def GivesVec (s : State) (i : Issue) (vd : BitVec 5) (v : VReg) (o : Host.Outcome State Fault Refusal) : Prop :=
  ∃ (t : State) (x : Txn), o = .next t ∧ t.issue = some i ∧ t.mem = s.mem ∧
    nget? t.txns s.nextTxn = some x ∧ x.tgt.vregs = [i.pre.vphys vd] ∧ ∃ d, x.op = .value d ∧ d.vecs = [v]

theorem givesVec_of_pending {v : VReg} {t : State} {o : Host.Outcome State Fault Refusal} (hi : s.issue = some i) (ho : o = .next t)
    (ht : VecPending s i vd v t) : GivesVec s i vd v o := by
  obtain ⟨x, d, htxn, htgt, hop, hvecs⟩ := ht.txn
  exact ⟨t, x, ho, ht.issue.trans hi, ht.mem, htxn, htgt, d, hop, hvecs⟩

theorem givesVec_of_laterV {v : VReg} {o : Host.Outcome State Fault Refusal} (mask : BitVec 256) (fl : Word) (lat : Nat)
    (hi : s.issue = some i) (ho : o = .next (s.laterV i vd mask (v, fl) lat)) : GivesVec s i vd v o :=
  givesVec_of_pending hi ho (laterV_pending s i vd mask (v, fl) lat)

/-- The active lanes of a register. -/
def activeLanes (i : Issue) (w : Nat) (va : BitVec 5) (p : BitVec 3) : List Nat :=
  ((List.range (2048 / w)).filter fun j => (i.pre.pget p).getLsbD j).map (laneAt w (i.oldV va))

theorem reduce_int {t : VTy} {ff : Fmt → Rm → List Nat → Nat × Word} {fi : List Int → Int}
    (harm : exec e s = finish s (reduce s t vd va p ff fi)) (ht : laneFmt t = none) (hi : s.issue = some i) (hd : freeW s i vd = .ok ())
    (ha : freeV i va = .ok ()) :
    GivesVec s i vd (BitVec.ofNat 2048 (wrapLane (laneWidth t) (fi ((activeLanes i (laneWidth t) va p).map (laneInt t))))) (exec e s) := by
  refine givesVec_of_laterV wholeReg 0 16 hi ?_
  simp only [harm, reduce, cur_some hi, ok_bind, readV_ok ha, hd, ht, activeLanes, finish_ok]
  rfl

theorem reduce_float {t : VTy} {f : Fmt} {ff : Fmt → Rm → List Nat → Nat × Word} {fi : List Int → Int}
    (harm : exec e s = finish s (reduce s t vd va p ff fi)) (ht : laneFmt t = some f) (hi : s.issue = some i) (hd : freeW s i vd = .ok ())
    (ha : freeV i va = .ok ()) :
    GivesVec s i vd (BitVec.ofNat 2048 (ff f i.vrm (activeLanes i (laneWidth t) va p)).1) (exec e s) := by
  refine givesVec_of_laterV wholeReg (ff f i.vrm (activeLanes i (laneWidth t) va p)).2 40 hi ?_
  simp only [harm, reduce, cur_some hi, ok_bind, readV_ok ha, hd, ht, activeLanes, finish_ok]
  rfl

/-- The cell of `vredx` without its flags. -/
theorem foldl_cellAdd_fst (l : List Nat) (a : Int × Word) :
    (l.foldl (fun (c : Int × Word) x => ((cellAdd32 c.1 x).1, c.2 ||| (cellAdd32 c.1 x).2)) a).1 =
      l.foldl (fun c x => (cellAdd32 c x).1) a.1 := by
  induction l generalizing a with
  | nil => rfl
  | cons x l ih => rw [List.foldl_cons, List.foldl_cons, ih]

theorem vredx_gives (hi : s.issue = some i) (hd : freeW s i vd = .ok ()) (ha : freeV i va = .ok ()) :
    GivesVec s i vd ((BitVec.ofInt 576 ((activeLanes i 32 va p).foldl (fun c x => (cellAdd32 c x).1) 0)).setWidth 2048)
      (exec (.vredx vd va p) s) := by
  have harm : exec (.vredx vd va p) s = execVredx vd va p s := rfl
  refine givesVec_of_laterV wholeReg ((activeLanes i 32 va p).foldl
    (fun (c : Int × Word) x => ((cellAdd32 c.1 x).1, c.2 ||| (cellAdd32 c.1 x).2)) (0, 0)).2 40 hi ?_
  rw [← foldl_cellAdd_fst (activeLanes i 32 va p) (0, 0)]
  simp only [harm, execVredx, cur_some hi, ok_bind, readV_ok ha, hd, finish_ok]
  rfl

/-! ### Comparison and predicate logic (R336, R342) -/

/-- Bit `j` of what a comparison writes. -/
def cmpBit (i : Issue) (c : VCond) (t : VTy) (va vb : BitVec 5) (p : BitVec 3) (j : Nat) : Bool :=
  (i.pre.pget p).getLsbD j && (cmpLane c t (laneAt (laneWidth t) (i.oldV va) j) (laneAt (laneWidth t) (i.oldV vb) j)).1

/-- What a comparison writes, and its flags. -/
def cmpReg (i : Issue) (c : VCond) (t : VTy) (va vb : BitVec 5) (p : BitVec 3) : Nat × Word :=
  (List.range (2048 / laneWidth t)).foldl (fun (acc : Nat × Word) j =>
    if (i.pre.pget p).getLsbD j then
      let v := cmpLane c t (laneAt (laneWidth t) (i.oldV va) j) (laneAt (laneWidth t) (i.oldV vb) j)
      (if v.1 then acc.1 + 2 ^ j else acc.1, acc.2 ||| v.2)
    else acc) (0, 0)

theorem cmpReg_fst (i : Issue) (c : VCond) (t : VTy) (va vb : BitVec 5) (p : BitVec 3) :
    (cmpReg i c t va vb p).1 = (List.range (2048 / laneWidth t)).foldl (fun n j => if cmpBit i c t va vb p j then n + 2 ^ j else n) 0 := by
  have hfst (l : List Nat) (a : Nat × Word) : (l.foldl (fun (acc : Nat × Word) j =>
      if (i.pre.pget p).getLsbD j then
        let v := cmpLane c t (laneAt (laneWidth t) (i.oldV va) j) (laneAt (laneWidth t) (i.oldV vb) j)
        (if v.1 then acc.1 + 2 ^ j else acc.1, acc.2 ||| v.2)
      else acc) a).1 = l.foldl (fun n j => if cmpBit i c t va vb p j then n + 2 ^ j else n) a.1 := by
    induction l generalizing a with
    | nil => rfl
    | cons j l ih =>
      rw [List.foldl_cons, List.foldl_cons, ih, cmpBit]
      cases (i.pre.pget p).getLsbD j <;> rfl
  exact hfst _ _

theorem vcmp_bits (c : VCond) (t : VTy) {pd : BitVec 3} (hp : pd ≠ 0) (hi : s.issue = some i) (ha : freeV i va = .ok ())
    (hb : freeV i vb = .ok ()) :
    ∃ u : State, exec (.vcmp c t pd va vb p) s = .next u ∧ u.issue = some i ∧ u.mem = s.mem ∧
      ∀ j < 128, ((u.proc i.proc).pget pd).getLsbD j = (decide (j < 2048 / laneWidth t) && cmpBit i c t va vb p j) := by
  have harm : exec (.vcmp c t pd va vb p) s = execVcmp c t pd va vb p s := rfl
  have hproc (q : Proc) (fl : Word) : ((s.setProc i.proc q).setFlags i fl).proc i.proc = { q with flags := q.flags ||| fl } := by
    rw [setFlags_frame, State.proc_setProc_same, State.proc_setProc_same]
  refine ⟨(s.setProc i.proc ((s.proc i.proc).pset pd (BitVec.ofNat 128 (cmpReg i c t va vb p).1))).setFlags i (cmpReg i c t va vb p).2,
    ?_, hi, rfl, fun j hj => ?_⟩
  · simp only [harm, execVcmp, cur_some hi, ok_bind, readV_ok ha, readV_ok hb, finish_ok]
    rfl
  · rw [hproc]
    refine (congrArg (fun r : PReg => r.getLsbD j) (Proc.pget_pset_same _ _ hp)).trans ?_
    rw [cmpReg_fst, getLsbD_foldl_bits _ hj]

/-- A form of predicate registers. -/
theorem predForm_spec {pd : BitVec 3} {f : Proc → PReg} (harm : exec e s = finish s (predForm s pd f)) (hp : pd ≠ 0) (hi : s.issue = some i) :
    ∃ u : State, exec e s = .next u ∧ (u.proc i.proc).pget pd = f i.pre ∧ u.issue = some i ∧
      ∀ r, r ≠ pd → (u.proc i.proc).pget r = (s.proc i.proc).pget r := by
  refine ⟨s.setProc i.proc ((s.proc i.proc).pset pd (f i.pre)), ?_, ?_, hi, fun r hr => ?_⟩
  · simp only [harm, predForm, cur_some hi, ok_bind, State.modProc_eq, finish_ok]
  · rw [State.proc_setProc_same, Proc.pget_pset_same _ _ hp]
  · rw [State.proc_setProc_same, Proc.pget_pset_other _ _ hr]

/-! ### Splitting (R343) -/

/-- The lanes that a split writes. -/
def splitLane (i : Issue) (va : BitVec 5) (src dst j : Nat) : Nat :=
  if j = src then (halves (laneAt 32 (i.oldV va) src)).1
  else if j = dst then (halves (laneAt 32 (i.oldV va) src)).2.1 else laneAt 32 (i.oldV va) j

/-- The predicate of a split: both lanes, and those that are active. -/
def splitOn (i : Issue) (p : BitVec 3) (src dst j : Nat) : Bool := j == src || j == dst || (i.pre.pget p).getLsbD j

/-- The register that a split delivers. -/
def splitReg (i : Issue) (vd va : BitVec 5) (p : BitVec 3) (src dst : Nat) : VReg × Word :=
  let v := halves (laneAt 32 (i.oldV va) src)
  mapLanes 32 (BitVec.ofNat 128 ((List.range 64).foldl (fun n j => if splitOn i p src dst j then n + 2 ^ j else n) 0)) (i.oldV vd) fun j =>
    if j = src then (v.1, 0) else if j = dst then (v.2.1, 0) else (laneAt 32 (i.oldV va) j, 0)

theorem splitReg_lane {src dst j : Nat} (hj : j < 64) :
    laneAt 32 (splitReg i vd va p src dst).1 j =
      if splitOn i p src dst j then splitLane i va src dst j % 2 ^ 32 else laneAt 32 (i.oldV vd) j := by
  rw [splitReg, mapLanes_lane _ _ _ rfl hj, getLsbD_foldl_bits _ (hj.trans (by decide)), decide_eq_true hj, Bool.true_and, splitLane]
  split
  · split
    · rfl
    · split <;> rfl
  · rfl

theorem vsplit_spec {k : BitVec 5} {kv : Word} {src dst : Nat} (hi : s.issue = some i) (hd : freeW s i vd = .ok ())
    (ha : freeV i va = .ok ()) (hk : readSrc i (.n k) = .ok kv) (hsrc : src < 64) (hdst : dst < 64) (hne : src ≠ dst)
    (hkv : kv.toNat = src + 256 * dst) (hown : (s.core i.pre.core).owner = none ∨ (s.core i.pre.core).owner = some i.proc) :
    ∃ (u : State) (x : Txn) (d : Deliver), exec (.vsplit vd va k p) s = .next u ∧ u.issue = some i ∧
      nget? u.txns s.nextTxn = some x ∧ x.op = .value d ∧ d.vecs = [(splitReg i vd va p src dst).1] ∧
      dmapAt (u.core i.pre.core).dmap dst = src ∧ (u.core i.pre.core).owner = some i.proc := by
  have harm : exec (.vsplit vd va k p) s = execVsplit vd va k p s := rfl
  obtain ⟨c, hclaim, hc, hcore⟩ := claimMatrix_ok hown
  have hmod : kv.toNat % 64 = src := by omega
  have hbits : bits kv.toNat 13 8 = dst := by
    rw [bits]
    omega
  have hcheck : (kv.toNat == src + dst * 256 && src != dst) = true := by
    rw [hkv, Nat.mul_comm 256, beq_self_eq_true, Bool.true_and, bne_iff_ne]
    exact hne
  have hissue : c.issue = some i := by rw [hc]; exact hi
  have hnext : c.nextTxn = s.nextTxn := by rw [hc]
  have hexec : exec (.vsplit vd va k p) s = .next ((c.setCore i.pre.core { c.core i.pre.core with dmap := dmapSet (c.core i.pre.core).dmap dst src }).laterV
      i vd (laneBytes 32 (splitOn i p src dst)) ((splitReg i vd va p src dst).1, (halves (laneAt 32 (i.oldV va) src)).2.2) 16) := by
    simp only [harm, execVsplit, cur_some hi, ok_bind, readV_ok ha, hd, hk, hmod, hbits, hcheck, check_true, hclaim, finish_ok]
    rfl
  have hpend := laterV_pending (c.setCore i.pre.core { c.core i.pre.core with dmap := dmapSet (c.core i.pre.core).dmap dst src })
    i vd (laneBytes 32 (splitOn i p src dst)) ((splitReg i vd va p src dst).1, (halves (laneAt 32 (i.oldV va) src)).2.2) 16
  obtain ⟨x, d, htxn, _, hop, hvecs⟩ := hpend.txn
  have hlast : (c.setCore i.pre.core { c.core i.pre.core with dmap := dmapSet (c.core i.pre.core).dmap dst src }).core i.pre.core =
      { c.core i.pre.core with dmap := dmapSet (c.core i.pre.core).dmap dst src } := State.core_setCore_same ..
  refine ⟨_, x, d, hexec, hpend.issue.trans hissue, hnext ▸ htxn, hop, hvecs, ?_, ?_⟩
  · exact (congrArg (fun q : Core => dmapAt q.dmap dst) hlast).trans (dmapAt_dmapSet hdst hsrc)
  · refine (congrArg Core.owner hlast).trans ?_
    exact congrArg Core.owner hcore

/-! ### Quantising (R344, R345) -/

/-- A run of the elements of a function. -/
theorem drop_take_map_range {α : Type} (f : Nat → α) {n b c : Nat} (h : b + c ≤ n) :
    (((List.range n).map f).drop b).take c = (List.range c).map fun l => f (b + l) := by
  refine List.ext_getElem (by simp; omega) fun j h1 h2 => ?_
  simp

theorem count_blocks (f : BlkFmt) {m : Nat} (hm : m < 64 / (blkOfName f).count) : (blkOfName f).count * m + (blkOfName f).count ≤ 64 := by
  have hcount : (blkOfName f).count = 16 ∨ (blkOfName f).count = 32 := by cases f <;> decide
  rcases hcount with h | h <;> rw [h] at hm ⊢ <;> omega

/-- The elements of block `m` of a register, and what quantising makes of them. -/
def blockOf (i : Issue) (va : BitVec 5) (p : BitVec 3) (g : Blk) (m : Nat) :=
  g.quant ((List.range g.count).map fun l =>
    exactOf32 (if (i.pre.pget p).getLsbD (g.count * m + l) then laneAt 32 (i.oldV va) (g.count * m + l) else 0))

theorem vqnt_gives (f : BlkFmt) (hi : s.issue = some i) (hd : freeW s i vd = .ok ()) (ha : freeV i va = .ok ()) :
    GivesVec s i vd (BitVec.ofNat 2048 (leNat ((List.range (64 / (blkOfName f).count)).flatMap fun m =>
      leBytes (blkOfName f).sb (blockOf i va p (blkOfName f) m).1 ++
        leBytes (blkOfName f).eb ((blkOfName f).field (blockOf i va p (blkOfName f) m).2.1)))) (exec (.vqnt f vd va p) s) := by
  have harm : exec (.vqnt f vd va p) s = execVqnt f vd va p s := rfl
  have hblocks : ((List.range (64 / (blkOfName f).count)).map fun b => (blkOfName f).quant
      ((((List.range 64).map fun j => exactOf32 (if (i.pre.pget p).getLsbD j then laneAt 32 (i.oldV va) j else 0)).drop
        ((blkOfName f).count * b)).take (blkOfName f).count)) =
      (List.range (64 / (blkOfName f).count)).map (blockOf i va p (blkOfName f)) := by
    refine List.map_congr_left fun m hm => ?_
    rw [drop_take_map_range _ (count_blocks f (List.mem_range.mp hm)), blockOf]
  rw [← List.flatMap_map (blockOf i va p (blkOfName f))
    (fun q => leBytes (blkOfName f).sb q.1 ++ leBytes (blkOfName f).eb ((blkOfName f).field q.2.1))]
  refine givesVec_of_laterV wholeReg
    (((List.range (64 / (blkOfName f).count)).map (blockOf i va p (blkOfName f))).foldl (fun acc q => acc ||| q.2.2) 0) 40 hi ?_
  simp only [harm, execVqnt, cur_some hi, ok_bind, readV_ok ha, hd, hblocks, finish_ok]

theorem vdqnt_lanes (f : BlkFmt) (hi : s.issue = some i) (hd : freeW s i vd = .ok ()) (ha : freeV i va = .ok ()) :
    LanePending s i vd 32 (fun j => decide (j < 64) && (i.pre.pget p).getLsbD j) (fun j =>
      let g := blkOfName f
      let o := (i.oldV va).toNat / 2 ^ (8 * (j / g.count * (g.eb + g.sb)))
      written32 (g.value (o % 2 ^ (8 * g.sb)) (o / 2 ^ (8 * g.sb) % 2 ^ (8 * g.eb)) (j % g.count))) (exec (.vdqnt f vd va p) s) := by
  have harm : exec (.vdqnt f vd va p) s = execVdqnt f vd va p s := rfl
  refine lanePending_of_pending (v := (mapLanes 32 (i.pre.pget p &&& BitVec.ofNat 128 (2 ^ 64 - 1)) (i.oldV vd) fun j =>
      let g := blkOfName f
      let o := (i.oldV va).toNat / 2 ^ (8 * (j / g.count * (g.eb + g.sb)))
      (written32 (g.value (o % 2 ^ (8 * g.sb)) (o / 2 ^ (8 * g.sb) % 2 ^ (8 * g.eb)) (j % g.count)), 0)).1) ?_
    (laterV_pending s i vd (laneBytes 32 fun j => (i.pre.pget p).getLsbD j) (_,
      (List.range (64 / (blkOfName f).count)).foldl (fun x b => x ||| (blkOfName f).scaleFlag
        ((i.oldV va).toNat / 2 ^ (8 * ((blkOfName f).count * b / (blkOfName f).count * ((blkOfName f).eb + (blkOfName f).sb))) %
          2 ^ (8 * (blkOfName f).sb))) 0) 24) fun j hj => ?_
  · simp only [harm, execVdqnt, cur_some hi, ok_bind, readV_ok ha, hd, finish_ok]
  · have hbit : (i.pre.pget p &&& BitVec.ofNat 128 (2 ^ 64 - 1)).getLsbD j = (decide (j < 64) && (i.pre.pget p).getLsbD j) := by
      rw [BitVec.getLsbD_and, BitVec.getLsbD_ofNat, Nat.testBit_two_pow_sub_one, Bool.and_comm]
      have hlt : j < 128 := hj.trans (by decide)
      rw [decide_eq_true hlt, Bool.true_and]
    rw [mapLanes_lane _ _ _ rfl hj, hbit]

end Reduce

/-- Settles O29: each form by the lemma of its kind. -/
theorem vectorReduceAndQuantise : Obligations.VectorReduceAndQuantise := by
  intro s i vd va vb k p kv hi hd ha hb hk a b on active gives
  refine ⟨fun t ht => ?int, fun t f ht => ?float, vredx_gives hi hd ha, fun c t pd hp => ?cmp, fun pd pa pb hp => ?logic,
    fun src dst hsrc hdst hne hkv hown => ?split, fun f => ⟨vqnt_gives f hi hd ha, vdqnt_lanes f hi hd ha⟩⟩
  case int =>
    have hf := laneFmt_of_int ht
    have hsum := reduce_int (e := .vredadd t vd va p) rfl hf hi hd ha
    rw [← List.sum_eq_foldl] at hsum
    exact ⟨hsum, reduce_int (fi := fun l => l.foldl min (laneHi t)) rfl hf hi hd ha,
      reduce_int (fi := fun l => l.foldl max (laneLo t)) rfl hf hi hd ha⟩
  case float =>
    exact ⟨reduce_float (ff := sumLanes) rfl ht hi hd ha, reduce_float (ff := fun f _ => extremeLanes f false) rfl ht hi hd ha,
      reduce_float (ff := fun f _ => extremeLanes f true) rfl ht hi hd ha⟩
  case cmp =>
    obtain ⟨u, hexec, hissue, hmem, hbits⟩ := vcmp_bits c t hp hi ha hb
    refine ⟨u, hexec, hissue, hmem, fun j hj => ?_⟩
    rw [hbits j hj, cmpBit, Bool.and_assoc]
  case logic =>
    exact ⟨predForm_spec (f := fun q => q.pget pa &&& q.pget pb) rfl hp hi, predForm_spec (f := fun q => q.pget pa ||| q.pget pb) rfl hp hi,
      predForm_spec (f := fun q => ~~~(q.pget pa)) rfl hp hi⟩
  case split =>
    obtain ⟨u, x, d, hexec, hissue, htxn, hop, hvecs, hmap, howner⟩ := vsplit_spec (p := p) hi hd ha hk hsrc hdst hne hkv hown
    refine ⟨u, x, d, _, hexec, hissue, htxn, hop, hvecs, ?_, ?_, fun j hj hjs hjd hon => ?_, hmap, howner⟩
    · simp [splitReg_lane hsrc, splitOn, splitLane, a]
    · simp [splitReg_lane hdst, splitOn, splitLane, a, hne.symm]
    · have hact : splitOn i p src dst j = true := by
        rw [splitOn, show (i.pre.pget p).getLsbD j = true from hon, Bool.or_true]
      rw [splitReg_lane hj, if_pos hact, splitLane, if_neg hjs, if_neg hjd, Nat.mod_eq_of_lt (laneAt_lt ..)]

end Sys2Proof.Machine
end

section
/-! SUPPORT. Vector and tile memory words (O30): one equation per word. -/

namespace Sys2Proof.Machine

section Words

variable {s : State} {i : Issue} {vd vb : BitVec 5} {x y : Src} {p : BitVec 3} {a n : Word} {c : Access}

/-! ### Contiguous forms (R329, R330) -/

theorem exec_vld {half : Bool} (hi : s.issue = some i) (hd : freeW s i vd = .ok ()) (hx : readSrc i x = .ok a)
    (hal : pOff a % (halfWidth half / 8) = 0)
    (hc : vecAccess s i .load a ((laneRanges (halfWidth half) (i.pre.pget p)).map fun e => ((e.1 : Int), e.2)) = .ok c) :
    exec (.vld half vd x p) s = .next
      ((c.st.issueVec i (accessTxn i c (.vload (shareParts (laneRanges (halfWidth half) (i.pre.pget p)) c.parts) (i.oldV vd))) vd
        (laneBytes (halfWidth half) fun j => (i.pre.pget p).getLsbD j) false).afterLoad i c s.nextTxn) := by
  have harm : exec (.vld half vd x p) s = execVld half vd x p s := rfl
  simp only [harm, execVld, cur_some hi, ok_bind, hd, hx, hal, beq_self_eq_true, Bool.or_true, check_true, hc, finish_ok]

theorem exec_vst {half : Bool} {u : State} (hi : s.issue = some i) (hv : freeV i vd = .ok ()) (hx : readSrc i x = .ok a)
    (hal : pOff a % (halfWidth half / 8) = 0)
    (hc : vecAccess s i .store a ((laneRanges (halfWidth half) (i.pre.pget p)).map fun e => ((e.1 : Int), e.2)) = .ok c)
    (hu : s.issueVst i c ((shareParts (laneRanges (halfWidth half) (i.pre.pget p)) c.parts).map fun e =>
      (e.2, regBytes (i.oldV vd) e.1 e.2.len)) = .ok u) :
    exec (.vst half vd x p) s = .next (u.watch i false true c.parts) := by
  have harm : exec (.vst half vd x p) s = execVst half vd x p s := rfl
  simp only [harm, execVst, cur_some hi, ok_bind, readV_ok hv, hx, hal, beq_self_eq_true, Bool.or_true, check_true, hc, hu, finish_ok]

/-- Whole interleaved blocks. -/
theorem exec_vldb_blocks {f : Blk} (hi : s.issue = some i) (hd : freeW s i vd = .ok ()) (hx : readSrc i x = .ok a) (hbl : pBl a = 0)
    (hplain : plainSize (pFmt a) = none) (hblk : blkOfCode (pFmt a) = some (f, false))
    (hc : vecAccess s i .load a [(0, 64 / f.count * (f.eb + f.sb))] = .ok c) :
    exec (.vldb vd x p) s = .next
      ((c.st.issueVec i { accessTxn i c (.vldb c.parts (pFmt a) (i.oldV vd) (i.pre.pget p)) with due := s.cycle + c.lat + 8 } vd
        (laneBytes 32 fun j => (i.pre.pget p).getLsbD j) false).afterLoad i c s.nextTxn) := by
  have harm : exec (.vldb vd x p) s = execVldb vd x p s := rfl
  simp only [harm, execVldb, cur_some hi, ok_bind, hd, hx, hbl, beq_self_eq_true, check_true, hplain, hblk, List.map_cons, List.map_nil,
    Nat.cast_zero, hc, finish_ok]

/-- Plain elements of `m` bytes under the predicate. -/
theorem exec_vldb_plain {m : Nat} (hi : s.issue = some i) (hd : freeW s i vd = .ok ()) (hx : readSrc i x = .ok a) (hbl : pBl a = 0)
    (hplain : plainSize (pFmt a) = some m) (hal : pOff a % m = 0)
    (hc : vecAccess s i .load a (((runs (i.pre.pget p) 0 64).map fun e => (m * e.1, m * e.2)).map fun e => ((e.1 : Int), e.2)) = .ok c) :
    exec (.vldb vd x p) s = .next
      ((c.st.issueVec i { accessTxn i c (.vldb c.parts (pFmt a) (i.oldV vd) (i.pre.pget p)) with due := s.cycle + c.lat + 8 } vd
        (laneBytes 32 fun j => (i.pre.pget p).getLsbD j) false).afterLoad i c s.nextTxn) := by
  have harm : exec (.vldb vd x p) s = execVldb vd x p s := rfl
  simp only [harm, execVldb, cur_some hi, ok_bind, hd, hx, hbl, beq_self_eq_true, check_true, hplain, hal, Bool.or_true, if_true, hc,
    finish_ok]

/-! ### Gathers and scatters (R331) -/

/-- Every lane of a register: its byte and its length. -/
def everyLane (w : Nat) : List (Nat × Nat) := (List.range (2048 / w)).map fun j => (w / 8 * j, w / 8)

theorem gather_ok {w : Nat} (hi : s.issue = some i) (hb : freeV i vb = .ok ()) (hd : freeW s i vd = .ok ()) (hx : readSrc i x = .ok a)
    (hal : gatherAlign a (gatherAt w (i.oldV vb)) = .ok ()) (hc : vecAccess s i .load a (gatherAt w (i.oldV vb)) = .ok c) :
    gather s w vd x vb = .ok
      ((c.st.issueVec i (accessTxn i c (.vload (shareParts (everyLane w) c.parts) (i.oldV vd))) vd wholeReg false).afterLoad i c
        s.nextTxn) := by
  simp only [gather, cur_some hi, ok_bind, readV_ok hb, hd, hx, hal, hc, everyLane]

theorem scatter_ok {w : Nat} {u : State} (hi : s.issue = some i) (hb : freeV i vb = .ok ()) (hv : freeV i vd = .ok ())
    (hx : readSrc i x = .ok a) (hal : gatherAlign a (gatherAt w (i.oldV vb)) = .ok ())
    (hc : vecAccess s i .store a (gatherAt w (i.oldV vb)) = .ok c)
    (hu : s.issueVst i c ((shareParts (everyLane w) c.parts).map fun e => (e.2, regBytes (i.oldV vd) e.1 e.2.len)) = .ok u) :
    scatter s w vd x vb = .ok (u.watch i false true c.parts) := by
  rw [everyLane] at hu
  simp only [scatter, cur_some hi, ok_bind, readV_ok hb, readV_ok hv, hx, hal, hc, hu]

/-! ### Tiles (R361) -/

theorem exec_tld {t : BitVec 3} {v : State} (hi : s.issue = some i) (hx : readSrc i x = .ok a) (hy : readSrc i y = .ok n)
    (hfree : matFree s i [t.toNat] = .ok ()) (hclaim : s.claimMatrix i = .ok v) (hheld : s.tileHeld i.pre.core t.toNat i.pre.opened = false)
    (hform : matForm (pFmt a) a n = .ok ())
    (hc : rangeAccess v i .tile .load a (tileRanges (pFmt a) (pBl a) n.toInt) = .ok c) :
    exec (.tld t x y) s = .next
      ((c.st.issueMat i (accessTxn i c (.tld c.parts (BitVec.ofNat 6 (pFmt a)))) [t.toNat] false).afterLoad i c v.nextTxn) := by
  have harm : exec (.tld t x y) s = execTld t x y s := rfl
  simp only [harm, execTld, cur_some hi, ok_bind, hx, hy, hfree, hheld, Bool.not_false, check_true, hclaim, hform, hc, finish_ok]

theorem exec_tst {t : BitVec 3} {v u : State} {code rb m : Nat} (hi : s.issue = some i) (hx : readSrc i x = .ok a) (hy : readSrc i y = .ok n)
    (hready : matReady s i [t.toNat] = .ok ()) (hclaim : s.claimMatrix i = .ok v)
    (hcode : storeCode ((v.matrix i).tile t.toNat).tag (pFmt a) = some code) (hform : matForm code a n = .ok ())
    (hrow : rowOfCode code = some (rb, m)) (hpitch : (splitOf code).isSome = true ∨ (rb : Int) ≤ n.toInt)
    (hc : rangeAccess v i .tile .store a (tileRanges code (pBl a) n.toInt) = .ok c)
    (hu : v.issueVst i c (dealBytes c.parts (tileBytes ((v.matrix i).tile t.toNat) rb)) = .ok u) :
    exec (.tst t x y) s = .next (u.watch i false true c.parts) := by
  have harm : exec (.tst t x y) s = execTst t x y s := rfl
  have hcheck : ((splitOf code).isSome || decide ((rb : Int) ≤ n.toInt)) = true := by simpa using hpitch
  simp only [harm, execTst, cur_some hi, ok_bind, hx, hy, hready, hclaim, hcode, hform, hrow, Option.map_some, Option.getD_some, hcheck,
    check_true, hc, hu, finish_ok]

end Words

/-- Settles O30: each word by its equation. -/
theorem vectorMemoryIssue : Obligations.VectorMemoryIssue := by
  intro s i vd vb x y p a n half c hi hd hv hb hx hy w pr l flat every
  refine ⟨fun hal hc => exec_vld hi hd hx hal hc, fun u hal hc hu => exec_vst hi hv hx hal hc hu,
    fun f hbl hplain hblk hc => exec_vldb_blocks hi hd hx hbl hplain hblk hc,
    fun m hbl hplain hal hc => exec_vldb_plain hi hd hx hbl hplain hal hc, fun hal hc => ?gather, fun u hal hc hu => ?scatter,
    fun t v hfree hready hclaim => ⟨fun hheld hform hc => exec_tld hi hx hy hfree hclaim hheld hform hc,
      fun code rb m u hcode hform hrow hpitch hc hu => exec_tst hi hx hy hready hclaim hcode hform hrow hpitch hc hu⟩⟩
  case gather =>
    have harm : exec (if half then .vgat16 vd x vb else .vgat32 vd x vb) s = finish s (gather s w vd x vb) := by cases half <;> rfl
    rw [harm, gather_ok hi hb hd hx hal hc, finish_ok]
    rfl
  case scatter =>
    have harm : exec (if half then .vsca16 vd x vb else .vsca32 vd x vb) s = finish s (scatter s w vd x vb) := by cases half <;> rfl
    rw [harm, scatter_ok hi hb hv hx hal hc hu, finish_ok]

end Sys2Proof.Machine
end

section
/-! SUPPORT. The word in issue stays in the latch while its accesses are translated, placed and issued (O31). -/

namespace Sys2Proof.Machine

/-! ### Translation and placement -/

@[simp] theorem mergeLog_issue (s : State) (core : Nat) : (s.mergeLog core).issue = s.issue := by
  obtain ⟨m, h⟩ := setD_eq s (s.core core).dirtyLog
  rw [State.mergeLog, h]
  rfl

@[simp] theorem markDirty_issue (s : State) (core part vpn : Nat) : (s.markDirty core part vpn).issue = s.issue := by
  unfold State.markDirty
  dsimp only
  split
  · rfl
  · split
    · rfl
    · split
      · exact mergeLog_issue s core
      · rfl

@[simp] theorem lookupEng_issue (s : State) (u part vpn : Nat) : (s.lookupEng u part vpn).1.issue = s.issue := by
  obtain ⟨lines, hot, mbds, hcount⟩ := State.Counts.countWalk s part vpn
  unfold State.lookupEng
  dsimp only
  split
  · rfl
  · split
    · rw [hcount]
    · rename_i e _
      obtain ⟨m, hd⟩ := setD_eq (s.countWalk part vpn)
        (((if ((s.countWalk part vpn).engine u).tlb.length < 512 then [] else ((s.countWalk part vpn).engine u).tlb.take 1).filter
          TlbEnt.dirty).map fun t => (t.part, t.vpn))
      rw [hd, hcount]
      rfl

@[simp] theorem unitLookup_issue (s : State) (u : Option Nat) (core part vpn : Nat) :
    (s.unitLookup u core part vpn).1.issue = s.issue := by
  cases u with
  | none => exact lookup_issue s core part vpn
  | some k => exact lookupEng_issue s k part vpn

@[simp] theorem unitDirty_issue (s : State) (u : Option Nat) (core part vpn : Nat) : (s.unitDirty u core part vpn).issue = s.issue := by
  cases u with
  | none => exact markDirty_issue s core part vpn
  | some k => rfl

/-- An access leaves the latch as it is. -/
def Access.KeepsIssue (o : Option Issue) (a : Access) : Prop := a.st.issue = o

section Place

variable {o : Option Issue}

theorem globalPiece_issue {a : Access} (i : Issue) (core : Nat) (k : Acc5) (size sp off n : Nat) (h : a.KeepsIssue o) :
    OkAll (Access.KeepsIssue o) (globalPiece a i core k size sp off n) := by
  have hlook (u : Option Nat) : (a.st.unitLookup u core (partOf i.proc) (off / 2 ^ 16)).1.issue = o := (unitLookup_issue ..).trans h
  unfold globalPiece
  dsimp only
  refine .ite (.ok h) (.ite .error ?_)
  split
  · refine .ite (.ok ?_) (.ite (.ok (hlook _)) .error)
    split
    · exact (unitDirty_issue ..).trans (hlook _)
    · exact hlook _
  · exact .ite .error (.ok (hlook _))
  · exact .ite (.ok ((isolate_issue ..).trans (hlook _))) .error

theorem spadPiece_issue {a : Access} (core owner : Nat) (rd wr : Bool) (va off len : Nat) (h : a.KeepsIssue o) :
    OkAll (Access.KeepsIssue o) (spadPiece a core owner rd wr va off len) := by
  unfold spadPiece
  split
  · exact .error
  · exact .ok h

theorem placeAccess_issue {s : State} (i : Issue) (k : Acc5) (w : Option (Nat × WRegion)) (sp off len : Nat) (h : s.issue = o) :
    OkAll (Access.KeepsIssue o) (placeAccess s i k w sp off len) := by
  have hnew : Access.KeepsIssue o { st := s } := h
  have hone (a : Access) (ha : a.st = s) : Access.KeepsIssue o a := (congrArg State.issue ha).trans h
  unfold placeAccess
  dsimp only
  refine .ite (spadPiece_issue _ _ _ _ _ _ _ hnew) (.ite (spadPiece_issue _ _ _ _ _ _ _ hnew) (.ite ?_ ?_))
  · split
    · exact spadPiece_issue _ _ _ _ _ _ _ hnew
    · exact .ok (hone _ rfl)
    · exact .ok hnew
  · exact .ite (.ok (hone _ rfl)) (.ite (.ok (hone _ rfl)) (.ite (.ok (hone _ rfl))
      (.foldlM (fun _ _ ha => globalPiece_issue _ _ _ _ _ _ _ ha) hnew)))

theorem rangeAccess_issue {s : State} {i : Issue} {f : Form} {k : Acc5} {p : Word} {l : List (Int × Nat)} {a : Access}
    (h : rangeAccess s i f k p l = .ok a) : a.st.issue = s.issue := by
  have hall : OkAll (Access.KeepsIssue s.issue) (rangeAccess s i f k p l) := by
    refine .pass fun _ => .foldlM (fun b e (hb : b.st.issue = s.issue) => ?_) rfl
    exact .bind (placeAccess_issue _ _ _ _ _ _ hb) fun c hc => .ok hc
  exact hall a h

end Place

/-! ### Watches -/

/-- A watch of an access ends or keeps the issue, but the latch holds the word (class A). -/
@[simp] theorem watch_issue (s : State) (i : Issue) (rd wr : Bool) (l : List Part8) : (s.watch i rd wr l).issue = s.issue := by
  unfold State.watch
  split
  · rfl
  · split
    · rfl
    · unfold State.raiseAfter
      split
      · rfl
      · split
        · rfl
        · exact takeFault_issue ..

/-- With both watches off, an access raises none. -/
theorem watch_calm {s : State} {i : Issue} {rd wr : Bool} {l : List Part8} (h0 : i.pre.watch0 = 0) (h1 : i.pre.watch1 = 0) :
    s.watch i rd wr l = s := by
  have hhit : watchHit i.pre rd wr l = none := by
    simp [watchHit, h0, h1, bits]
  unfold State.watch
  rw [hhit, ite_self]

@[simp] theorem tagArrival_issue (s : State) (x : Txn) (past : Clock) : (s.tagArrival x past).issue = s.issue := by
  unfold State.tagArrival
  split <;> rfl

@[simp] theorem holdAccess_issue (s : State) (i : Issue) (a : Access) (t : Nat) : (s.holdAccess i a t).issue = s.issue := by
  unfold State.holdAccess
  split <;> rfl

/-! ### Vector stores of translated parts -/

theorem dealBytes_parts (l : List Part8) (bs : List Byte) : (dealBytes l bs).map Prod.fst = l := by
  induction l generalizing bs with
  | nil => rfl
  | cons p t ih => rw [dealBytes, List.map_cons, ih]

/-- A store whose parts all have places issues, and nothing of it goes to the side log. -/
theorem issueVst_translated {s : State} {i : Issue} {c : Access} {l : List (Part8 × List Byte)}
    (hparts : ∀ e ∈ l, ∀ o, e.1.at_ ≠ .virt o) (hlog : (s.sideLogOf i.proc).length ≤ 64) :
    ∃ u, s.issueVst i c l = .ok u ∧ u.issue = c.st.issue := by
  have hsmall : ¬ 64 < (s.sideLogOf i.proc).length := by omega
  unfold State.issueVst
  dsimp only
  rw [List.filterMap_eq_nil_iff.mpr]
  · simp only [List.foldl_nil, List.length_nil, Nat.add_zero, hsmall, if_false]
    split
    · exact ⟨_, rfl, rfl⟩
    · refine ⟨_, rfl, ?_⟩
      split
      · exact tagArrival_issue ..
      · split
        · rfl
        · exact holdAccess_issue ..
  · intro e he
    split
    · next o h => exact absurd h (hparts e he o)
    · rfl

end Sys2Proof.Machine
end

section
/-! SUPPORT. Matrix words on a set that is free or the issuer's (O31). -/

namespace Sys2Proof.Machine

/-! ### The set in the hands of its issuer -/

/-- A word reads of the set what it held before the issuer took it. -/
theorem claimed_matrix {s u : State} {i : Issue} (hcore : u.core i.pre.core = { s.core i.pre.core with owner := some i.proc }) :
    { u.matrix i with owner := (u.core i.pre.core).owner } = { s.matrix i with owner := some i.proc } := by
  unfold State.matrix
  cases i.kpre with
  | none => rw [Option.getD_none, Option.getD_none, hcore]
  | some c => rw [Option.getD_some, Option.getD_some, hcore]

theorem claimed_acc {s u : State} {i : Issue} (hcore : u.core i.pre.core = { s.core i.pre.core with owner := some i.proc }) (a : Nat) :
    (u.matrix i).acc a = (s.matrix i).acc a := by
  have h := congrArg (fun c : Core => c.acc a) (claimed_matrix hcore)
  exact h

theorem claimMatrix_other {s : State} {i : Issue} {k : Nat} (h : (s.core i.pre.core).owner = some k) (hk : k ≠ i.proc) :
    s.claimMatrix i = .error (.trap { kind := .illegalOperand }) := by
  rw [State.claimMatrix, h]
  exact if_neg hk

/-- A set that can be claimed is free or the issuer's. -/
theorem owner_of_claim {s u : State} {i : Issue} (h : s.claimMatrix i = .ok u) : (s.core i.pre.core).owner.getD i.proc = i.proc := by
  unfold State.claimMatrix at h
  split at h
  · next ho => rw [ho, Option.getD_none]
  · next k ho =>
    split at h
    · next hk => rw [ho, Option.getD_some, hk]
    · cases h

/-! ### Operations that mark registers of the set -/

theorem issueMat_txn (s : State) (i : Issue) (x : Txn) (mats : List Nat) (push : Bool) :
    ∃ g : Tgt, nget? (s.issueMat i x mats push).txns s.nextTxn = some { x with tgt := g } ∧ g.mats = mats :=
  ⟨_, nget?_nset_same _ _ _, rfl⟩

@[simp] theorem issueMat_issue (s : State) (i : Issue) (x : Txn) (mats : List Nat) (push : Bool) :
    (s.issueMat i x mats push).issue = s.issue := rfl
@[simp] theorem issueMat_mem (s : State) (i : Issue) (x : Txn) (mats : List Nat) (push : Bool) :
    (s.issueMat i x mats push).mem = s.mem := rfl

theorem issueMat_owner (s : State) (i : Issue) (x : Txn) (mats : List Nat) (push : Bool) :
    ((s.issueMat i x mats push).core i.pre.core).owner = (s.core i.pre.core).owner := by
  rw [State.issueMat, State.modCore_eq, State.core_setCore_same]
  rfl

section Words

variable {s : State} {i : Issue} {ab ac : BitVec 2}

/-- `mzero` and `mdup` write a group with a value known at issue. -/
theorem writeGroup_spec (s u : State) (v : Acc) (hu : u = { s with cores := u.cores })
    (hcore : u.core i.pre.core = { s.core i.pre.core with owner := some i.proc }) :
    (writeGroup u i ab ac v).issue = s.issue ∧ ((writeGroup u i ab ac v).core i.pre.core).owner = some i.proc ∧
      (writeGroup u i ab ac v).mem = s.mem ∧
      ∃ x d, nget? (writeGroup u i ab ac v).txns s.nextTxn = some x ∧ x.tgt.mats = groupOf ab ac ∧
        x.op = .value d ∧ d.vals = [0] ∧ d.accs = List.replicate (acCount ac) { v with dirty := true } := by
  obtain ⟨g, htxn, hg⟩ := issueMat_txn u i
    (mkTxn u i (.value { vals := [0], accs := List.replicate (acCount ac) { v with dirty := true } }) (4 * acCount ac)) (groupOf ab ac) true
  have hnext : u.nextTxn = s.nextTxn := by rw [hu]
  have hissue : u.issue = s.issue := by rw [hu]
  have hmem : u.mem = s.mem := by rw [hu]
  rw [hnext] at htxn
  exact ⟨hissue, (issueMat_owner ..).trans (by rw [hcore]), hmem, _, _, htxn, hg, rfl, rfl, rfl⟩

theorem exec_mzero {u : State} (hi : s.issue = some i) (hfree : matFree s i (groupOf ab ac) = .ok ()) (hclaim : s.claimMatrix i = .ok u) :
    exec (.mzero ab ac) s = .next (writeGroup u i ab ac {}) := by
  have harm : exec (.mzero ab ac) s = execMzero ab ac s := rfl
  simp only [harm, execMzero, cur_some hi, ok_bind, hfree, hclaim, finish_ok]

theorem exec_mdup {u : State} {as : BitVec 2} (hi : s.issue = some i) (hfree : matFree s i (groupOf ab ac) = .ok ())
    (hready : matReady s i [8 + as.toNat] = .ok ()) (hclaim : s.claimMatrix i = .ok u) :
    exec (.mdup ab ac as) s = .next (writeGroup u i ab ac ((u.matrix i).acc as.toNat)) := by
  have harm : exec (.mdup ab ac as) s = execMdup ab ac as s := rfl
  simp only [harm, execMdup, cur_some hi, ok_bind, hfree, hready, hclaim, finish_ok]

theorem exec_mstat {u : State} (hi : s.issue = some i) (hclaim : s.claimMatrix i = .ok u) :
    exec .mstat s = .next (u.pushLater i (mstatWord { u.matrix i with owner := (u.core i.pre.core).owner }) 0 none 4) := by
  have harm : exec .mstat s = execMstat s := rfl
  simp only [harm, execMstat, cur_some hi, ok_bind, hclaim, finish_ok]

/-- A set of another process: the word faults. -/
theorem exec_mzero_other {k : Nat} (hi : s.issue = some i) (hfree : matFree s i (groupOf ab ac) = .ok ())
    (h : (s.core i.pre.core).owner = some k) (hk : k ≠ i.proc) : exec (.mzero ab ac) s = .next (s.raise { kind := .illegalOperand }) := by
  have harm : exec (.mzero ab ac) s = execMzero ab ac s := rfl
  simp only [harm, execMzero, cur_some hi, ok_bind, hfree, claimMatrix_other h hk, error_bind, finish_trap]

theorem exec_mstat_other {k : Nat} (hi : s.issue = some i) (h : (s.core i.pre.core).owner = some k) (hk : k ≠ i.proc) :
    exec .mstat s = .next (s.raise { kind := .illegalOperand }) := by
  have harm : exec .mstat s = execMstat s := rfl
  simp only [harm, execMstat, cur_some hi, ok_bind, claimMatrix_other h hk, error_bind, finish_trap]

/-! ### mrest (R365) -/

/-- A range of space 0x0 within its 51 bits passes. -/
theorem spaceRange_zero {f : Form} {wr : Bool} {off : Int} {len : Nat} (h0 : 0 ≤ off) (h1 : off + len ≤ 2 ^ 51) :
    spaceRange s i f wr 0 off len = .ok none := by
  have hin : (decide (0 ≤ off) && decide (off + len ≤ 2 ^ 51)) = true := by rw [decide_eq_true h0, decide_eq_true h1]; rfl
  unfold spaceRange
  dsimp only
  rw [hin]
  simp [spaceCheck, check, ok_bind]

theorem mapM_ok {α β : Type} {f : α → Except Abort β} {g : α → β} {l : List α} (h : ∀ e ∈ l, f e = .ok (g e)) :
    l.mapM f = .ok (l.map g) := by
  induction l with
  | nil => rfl
  | cons a l ih =>
    rw [List.mapM_cons, h a List.mem_cons_self, ok_bind, ih fun e he => h e (List.mem_cons_of_mem _ he), ok_bind]
    rfl

theorem rangeChecks_zero {p : Word} {l : List (Int × Nat)} (k : Acc5) (hsp : pSpace p = 0)
    (hl : ∀ e ∈ l, 0 ≤ e.1 ∧ (pOff p : Int) + e.1 + e.2 ≤ 2 ^ 51) :
    ∃ ws, rangeChecks s i .vector k p l = .ok ws := by
  by_cases hnil : l.isEmpty
  · exact ⟨[], by simp only [rangeChecks, hnil, if_true]⟩
  · have hmap : (l.mapM fun e => do
        let w ← spaceRange s i .vector k.writes 0 ((pOff p : Int) + e.1) e.2
        .ok (e, w)) = (.ok (l.map fun e => (e, none)) : Except Abort _) := by
      refine mapM_ok fun e he => ?_
      obtain ⟨h0, h1⟩ := hl e he
      rw [spaceRange_zero (by omega) h1, ok_bind]
    refine ⟨l.map fun e => (e, none), ?_⟩
    simp only [rangeChecks, hnil, hsp, permitted, hmap, check]
    rfl

/-- The ranges of the tiles of a group. -/
def restRanges (n : Nat) : List (Int × Nat) := (List.range n).map fun j => (((accBytes * j : Nat) : Int), accBytes)

theorem exec_mrest {dp : BitVec 4} {p : Word} {u : State} (hi : s.issue = some i) (hmgr : s.isMgr i.proc = true)
    (hp : readSrc i (.n (BitVec.ofNat 5 (2 * dp.toNat))) = .ok p) (hfree : matFree s i (groupOf ab ac) = .ok ())
    (hclaim : s.claimMatrix i = .ok u) (hsp : pSpace p = 0) (hoff : pOff p + accBytes * acCount ac ≤ 2 ^ 51) :
    exec (.mrest ab ac dp) s = .next
      ((u.issueMat i (mkTxn u i (.mrest ab.toNat (acCount ac) p) 300) (groupOf ab ac) true).watch i true false
        [{ at_ := .virt (pOff p), len := accBytes * acCount ac, va := fatOf (pSpace p) (pOff p) }]) := by
  have harm : exec (.mrest ab ac dp) s = execMrest ab ac dp s := rfl
  obtain ⟨ws, hws⟩ := rangeChecks_zero (s := u) (i := i) (l := restRanges (acCount ac)) .load hsp (by
    intro e he
    obtain ⟨j, hj, rfl⟩ := List.mem_map.mp he
    have hlt : accBytes * j + accBytes ≤ accBytes * acCount ac := by
      rw [← Nat.mul_succ]
      exact Nat.mul_le_mul_left _ (List.mem_range.mp hj)
    dsimp only
    omega)
  rw [restRanges] at hws
  simp only [harm, execMrest, cur_some hi, ok_bind, needMgr_of_mgr hmgr, hp, hfree, hclaim, hws, finish_ok]

/-! ### mdrain (R366) -/

/-- Bytes gathered in two lists, each step adding as many. -/
theorem length_foldl_append {α : Type} {f g : α → List Byte} {h : α → Word} {x y : Nat} (hf : ∀ b, (f b).length = x)
    (hg : ∀ b, (g b).length = y) (l : List α) (a : List Byte × List Byte × Word) :
    let r := l.foldl (fun (a : List Byte × List Byte × Word) b => (a.1 ++ f b, a.2.1 ++ g b, a.2.2 ||| h b)) a
    r.1.length = a.1.length + l.length * x ∧ r.2.1.length = a.2.1.length + l.length * y := by
  induction l generalizing a with
  | nil => simp
  | cons b l ih =>
    obtain ⟨h1, h2⟩ := ih (a.1 ++ f b, a.2.1 ++ g b, a.2.2 ||| h b)
    rw [List.length_append, hf] at h1
    rw [List.length_append, hg] at h2
    rw [List.length_cons, Nat.succ_mul, Nat.succ_mul, Nat.add_comm _ x, Nat.add_comm _ y, ← Nat.add_assoc, ← Nat.add_assoc]
    exact ⟨h1, h2⟩

/-- The bytes of a row that is drained as blocks. -/
theorem drainRow_blocks {code : Nat} {f : Blk} (h : splitOf code = some f) (rm : Rm) (cells : List Int) :
    (drainRow code rm cells).1.length = cells.length / 32 * f.eb ∧ (drainRow code rm cells).2.1.length = cells.length / 32 * f.sb := by
  obtain ⟨h1, h2⟩ := length_foldl_append
    (f := fun b => leBytes f.eb (f.field (f.quant (((cells.drop (32 * b)).take 32).map cellExact)).2.1))
    (g := fun b => leBytes f.sb (f.quant (((cells.drop (32 * b)).take 32).map cellExact)).1)
    (h := fun b => (f.quant (((cells.drop (32 * b)).take 32).map cellExact)).2.2)
    (fun _ => leBytes_length ..) (fun _ => leBytes_length ..) (List.range (cells.length / 32)) ([], [], 0)
  rw [List.length_nil, Nat.zero_add, List.length_range] at h1 h2
  simp only [drainRow, h]
  exact ⟨h1, h2⟩

/-- The bytes of a row that is drained as plain elements. -/
theorem drainRow_plain {code : Nat} (h : splitOf code = none) (rm : Rm) (cells : List Int) :
    (drainRow code rm cells).1.length = cells.length * ((if code = 0x09 then binary32 else bfloat16).width / 8) := by
  have hfold (fm : Fmt) (l : List Int) (a : List Byte × List Byte × Word) : (l.foldl (fun (a : List Byte × List Byte × Word) c =>
      let v := cellRound fm rm c
      (a.1 ++ leBytes (fm.width / 8) v.1, a.2.1, a.2.2 ||| v.2)) a).1.length = a.1.length + l.length * (fm.width / 8) := by
    induction l generalizing a with
    | nil => simp
    | cons c l ih =>
      rw [List.foldl_cons, ih, List.length_cons, Nat.succ_mul]
      dsimp only
      rw [List.length_append, leBytes_length, Nat.add_assoc, Nat.add_comm (fm.width / 8)]
  simp only [drainRow, h]
  rw [hfold, List.length_nil, Nat.zero_add]

/-- A block format with a scale of its own. -/
def drainMx (code : Nat) : Bool := decide (0x20 ≤ code) && decide (code ≤ 0x25)

/-- The cells of row `row` of a drain. -/
def drainCells (c : Core) (ab : BitVec 2) (n row : Nat) : List Int :=
  (List.range n).map fun k => (nget 0 (c.acc (ab.toNat + k / 128)).cells (128 * row + k % 128)).toInt

theorem drainCells_length (c : Core) (ab : BitVec 2) (n row : Nat) : (drainCells c ab n row).length = n := by
  rw [drainCells, List.length_map, List.length_range]

/-- Sixteen rows, one after the other. -/
def rowRanges (len : Nat) : List (Int × Nat) := (List.range 16).map fun (row : Nat) => (((row * len : Nat) : Int), len)

theorem acCount_le (ac : BitVec 2) : acCount ac ≤ 4 := by
  revert ac
  decide

theorem acCount_pos (ac : BitVec 2) : 0 < acCount ac := by
  revert ac
  decide

/-- A drain without pitches whose operands pass its checks and whose rows all have places issues: its stores, and a pending 0. -/
theorem exec_mdrain {dp : BitVec 4} {nr : BitVec 5} {r : Rm} {p z w : Word} {u : State} {a b : Access} {eb sb : Nat} (hi : s.issue = some i)
    (hp : readSrc i (.n (BitVec.ofNat 5 (2 * dp.toNat))) = .ok p)
    (hz : (if drainMx (pFmt p) then readSrc i (.n (BitVec.ofNat 5 (2 * dp.toNat + 1))) else .ok 0 : Except Abort Word) = .ok z)
    (hw : readSrc i (.n nr) = .ok w) (hready : matReady s i (groupOf ab ac) = .ok ()) (hclaim : s.claimMatrix i = .ok u)
    (hplain : (drainMx (pFmt p) || ((pFmt p == 0x09 || pFmt p == 0x0B) && pBl p == 0)) = true)
    (hscale : (!drainMx (pFmt p) || (pFmt z == 0x26 && pBl z == 0)) = true)
    (hpos : 0 < w.toNat) (hle : w.toNat ≤ 128 * acCount ac) (hmul : (!drainMx (pFmt p) || w.toNat % 32 == 0) = true)
    (heb : (drainRow (pFmt p) (i.rm r) (drainCells (u.matrix i) ab w.toNat 0)).1.length = eb)
    (hsb : (drainRow (pFmt p) (i.rm r) (drainCells (u.matrix i) ab w.toNat 0)).2.1.length = sb)
    (ha : rangeAccess u i .tile .store p (rowRanges eb) = .ok a)
    (hb : (if drainMx (pFmt p) then rangeAccess a.st i .tile .store z (rowRanges sb) else .ok { st := a.st } : Except Abort Access) = .ok b)
    (hparts : ∀ q ∈ a.parts ++ b.parts, ∀ o, q.at_ ≠ .virt o) (hlog : (b.st.sideLogOf i.proc).length ≤ 64) :
    ∃ (v : State) (l : List Nat) (f : Word) (lat : Nat), exec (.mdrain ab ac dp nr r) s = .next
      ((v.issuePend i (mkTxn v i (.mdrain l f) lat) none).watch i false true (a.parts ++ b.parts)) ∧ v.issue = b.st.issue := by
  have harm : exec (.mdrain ab ac dp nr r) s = execMdrain ab ac dp nr r s := rfl
  have hcount : acCount ac ≤ 4 := acCount_le ac
  have hn : bits w.toNat 9 0 = w.toNat := by rw [bits]; omega
  have hhigh : bits w.toNat 15 10 = 0 := by rw [bits]; omega
  have hep : bits w.toNat 47 16 = 0 := by rw [bits]; omega
  have hsp : bits w.toNat 63 48 = 0 := by rw [bits]; omega
  have heb' : (((List.range 16).map fun row => drainRow (pFmt p) (i.rm r) ((List.range w.toNat).map fun c =>
      (nget 0 ((u.matrix i).acc (ab.toNat + c / 128)).cells (128 * row + c % 128)).toInt)).head?.map fun v => v.1.length).getD 0 = eb := heb
  have hsb' : (((List.range 16).map fun row => drainRow (pFmt p) (i.rm r) ((List.range w.toNat).map fun c =>
      (nget 0 ((u.matrix i).acc (ab.toNat + c / 128)).cells (128 * row + c % 128)).toInt)).head?.map fun v => v.2.1.length).getD 0 = sb := hsb
  obtain ⟨v, hv, hvissue⟩ := issueVst_translated (s := b.st) (i := i) (c := a.join b)
    (l := dealBytes (a.parts ++ b.parts) (((List.range 16).map fun row => drainRow (pFmt p) (i.rm r) ((List.range w.toNat).map fun c =>
      (nget 0 ((u.matrix i).acc (ab.toNat + c / 128)).cells (128 * row + c % 128)).toInt)).flatMap (fun v => v.1) ++
      ((List.range 16).map fun row => drainRow (pFmt p) (i.rm r) ((List.range w.toNat).map fun c =>
      (nget 0 ((u.matrix i).acc (ab.toNat + c / 128)).cells (128 * row + c % 128)).toInt)).flatMap (fun v => v.2.1)))
    (fun e he => hparts e.1 (dealBytes_parts (a.parts ++ b.parts) _ ▸ List.mem_map_of_mem he)) hlog
  simp only [rowRanges] at ha hb
  refine ⟨v, (List.range (v.nextTxn - b.st.nextTxn)).map (b.st.nextTxn + ·), ((List.range 16).map fun row => drainRow (pFmt p) (i.rm r)
    ((List.range w.toNat).map fun c => (nget 0 ((u.matrix i).acc (ab.toNat + c / 128)).cells (128 * row + c % 128)).toInt)).foldl
      (fun f v => f ||| v.2.2) 0, max a.lat b.lat, ?_, hvissue⟩
  cases hmx : drainMx (pFmt p)
  case' false => have hcode : (decide (0x20 ≤ pFmt p) && decide (pFmt p ≤ 0x25)) = false := hmx
  case' true => have hcode : (decide (0x20 ≤ pFmt p) && decide (pFmt p ≤ 0x25)) = true := hmx
  all_goals
    rw [hmx] at hz hplain hscale hmul hb
    simp only [Bool.false_eq_true, if_false, if_true, Bool.not_true, Bool.not_false, Bool.true_or, Bool.false_or] at hz hplain hscale hmul hb
  case' false =>
    cases Except.ok.inj hz
    cases Except.ok.inj hb
  all_goals
    simp only [Access.join] at hv
    simp only [harm, execMdrain, cur_some hi, ok_bind, hp, hcode, hz, hw, hready, hclaim, hplain, hscale, check_true, hn, hhigh, hpos, hle,
      decide_true, Bool.and_self, hmul, hep, hsp, heb', hsb', ha, hb, hv, Access.join, finish_ok, beq_self_eq_true, Bool.true_or, Bool.false_or,
      Bool.or_true, Bool.not_true, Bool.not_false, Bool.false_eq_true, if_false, if_true]

/-- A drain leaves the word in the latch. -/
theorem drained_issue {v : State} {x : Txn} {l : List Part8} (h : v.issue = some i) :
    ((v.issuePend i x none).watch i false true l).issue = some i := by
  rw [watch_issue, issuePend_issue, h]

/-- The pending 0 of a drain, where no watch stands. -/
theorem drained_txn {v : State} {l : List Nat} {f : Word} {lat : Nat} {ps : List Part8} (h0 : i.pre.watch0 = 0) (h1 : i.pre.watch1 = 0) :
    ∃ n y l' f', nget? ((v.issuePend i (mkTxn v i (.mdrain l f) lat) none).watch i false true ps).txns n = some y ∧
      y.op = .mdrain l' f' ∧ y.issuer = i.proc := by
  rw [watch_calm h0 h1]
  exact ⟨_, _, l, f, issuePend_txn .., rfl, rfl⟩

/-! ### mgang (R362, R363) -/

theorem exec_mgang_opened {ta : BitVec 3} {b : MgangB} {nr : BitVec 5} {zero : Bool} {t : Nat} (hi : s.issue = some i)
    (ho : i.pre.opened = some t) : exec (.mgang ab ac ta b nr zero) s = .next (s.issueOpened i t none) := by
  have harm : exec (.mgang ab ac ta b nr zero) s = execMgang ab ac ta b nr zero s := rfl
  simp only [harm, execMgang, hi, Option.bind_some, ho, Option.map_some, finish_ok]

/-- A word whose barrier has opened pushes a pending entry for its pass. -/
theorem issueOpened_spec {t : Nat} {x : Txn} (k : Keep) (hx : nget? s.txns t = some x) :
    (s.issueOpened i t k).issue = s.issue ∧ ((s.issueOpened i t k).proc i.proc).opened = none ∧
      ((s.issueOpened i t k).proc i.proc).qpend 0 = true ∧ (s.issueOpened i t k).mem = s.mem ∧
      (nget? (s.issueOpened i t k).txns t).map (fun y => y.tgt.slots) = some [(s.proc i.proc).push + 1] := by
  have heq : s.issueOpened i t k =
      let p := { s.proc i.proc with opened := none }
      let r := p.pushPend t (i.keep k)
      ((s.setProc i.proc p).setTxn t { x with tgt := { r.2 with mats := x.tgt.mats } }).setProc i.proc
        { r.1 with out := r.1.out ++ [t] } := by
    unfold State.issueOpened
    simp only [State.modProc_eq, State.proc_setProc_same, State.setProc_txns, hx]
  rw [heq]
  refine ⟨rfl, ?_, ?_, rfl, ?_⟩
  · rw [State.proc_setProc_same, pushPend_frame]
  · rw [State.proc_setProc_same]
    exact pushPend_qpend_zero ..
  · refine (congrArg (Option.map fun y : Txn => y.tgt.slots) (nget?_nset_same ..)).trans ?_
    exact congrArg some (pushPend_slots ..)

/-- Operands that pass are the issuer's, on a set that it may take. -/
theorem mgangOperands_ok {ta : BitVec 3} {b : MgangB} {nr : BitVec 5} {m : MgangIn} (hi : s.issue = some i)
    (h : mgangOperands s ab ac ta b nr = .ok m) : m.i = i ∧ (s.core i.pre.core).owner.getD i.proc = i.proc := by
  have hall : OkAll (fun m : MgangIn => m.i = i ∧ (s.core i.pre.core).owner.getD i.proc = i.proc) (mgangOperands s ab ac ta b nr) := by
    unfold mgangOperands
    rw [cur_some hi, ok_bind]
    refine .pass fun _ => .pass fun _ => .pass fun _ => .pass fun _ => ?_
    exact .bind (P := fun _ => (s.core i.pre.core).owner.getD i.proc = i.proc) (fun u hu => owner_of_claim hu) fun _ ho => .ok ⟨rfl, ho⟩
  exact hall m h

/-- A single core at a barrier does not open it. -/
theorem openBarrier_lone {u : State} {g core t : Nat} {v : Gang} (hg : nget? u.gangs g = some v) (hb : v.barrier = [(core, t)]) :
    u.openBarrier g = u := by
  have hheads : ((List.range 8).filterMap fun j => v.barrier.find? fun e => e.1 == v.cluster * 8 + j).length < 8 := by
    rw [hb]
    refine List.length_filterMap_lt_length_iff_exists.mpr ?_
    by_cases hc : core = v.cluster * 8
    · exact ⟨1, by decide, by simp [hc]⟩
    · exact ⟨0, by decide, by simp [hc]⟩
  simp only [State.openBarrier, hg, barrierHeads, if_pos hheads]

/-- An operation of the issuer with a token and its accumulators pending. -/
def State.tokenOp (u : State) (i : Issue) (x : Txn) (mats : List Nat) : State :=
  ((u.newTxn { x with tgt := { mats := mats } }).1.takeToken i.pre.core).modCore i.pre.core fun c =>
    { c with mPend := c.mPend ++ mats.map fun a => (a, u.nextTxn) }

/-- An operation of a core comes to the barrier of a gang. -/
def State.addBarrier (s : State) (g core t : Nat) : State :=
  { s with gangs := nmod s.gangs g fun v => { v with barrier := v.barrier ++ [(core, t)] } }

/-- The word in issue leaves the latch without having issued. -/
def State.emptyLatch (s : State) : State := { s with issue := none }

/-- It stands at its gang's barrier, its issuer held. -/
def State.atBarrier (u : State) (i : Issue) (x : Txn) (mats : List Nat) : State :=
  ((u.tokenOp i x mats).holdAtWord i).addBarrier i.pre.gang i.pre.core u.nextTxn

section Barrier

variable (s : State) (g core t k : Nat)

@[simp] theorem addBarrier_proc : (s.addBarrier g core t).proc k = s.proc k := rfl
@[simp] theorem addBarrier_core : (s.addBarrier g core t).core k = s.core k := rfl
@[simp] theorem holdAtWord_core (i : Issue) : (s.holdAtWord i).core k = s.core k := rfl
@[simp] theorem holdAtWord_gangs (i : Issue) : (s.holdAtWord i).gangs = s.gangs := rfl
@[simp] theorem tokenOp_gangs (i : Issue) (x : Txn) (mats : List Nat) : (s.tokenOp i x mats).gangs = s.gangs := rfl
@[simp] theorem tokenOp_proc (i : Issue) (x : Txn) (mats : List Nat) : (s.tokenOp i x mats).proc k = s.proc k := rfl

@[simp] theorem emptyLatch_issue : s.emptyLatch.issue = none := rfl
@[simp] theorem emptyLatch_proc : s.emptyLatch.proc k = s.proc k := rfl
@[simp] theorem emptyLatch_core : s.emptyLatch.core k = s.core k := rfl
@[simp] theorem emptyLatch_gangs : s.emptyLatch.gangs = s.gangs := rfl

theorem addBarrier_gang {v : Gang} (h : nget? s.gangs g = some v) :
    nget? (s.addBarrier g core t).gangs g = some { v with barrier := v.barrier ++ [(core, t)] } := by
  rw [State.addBarrier, nget?_nmod, if_pos rfl, h, Option.map_some]

end Barrier

theorem tokenOp_core (u : State) (x : Txn) (mats : List Nat) :
    ((u.tokenOp i x mats).core i.pre.core).owner = (u.core i.pre.core).owner ∧
      ((u.tokenOp i x mats).core i.pre.core).free = (u.core i.pre.core).free - 1 := by
  have htoken (v : State) : (v.takeToken i.pre.core).core i.pre.core = { v.core i.pre.core with free := (v.core i.pre.core).free - 1 } := by
    rw [State.takeToken, State.modCore_eq, State.core_setCore_same]
  rw [State.tokenOp, State.modCore_eq, State.core_setCore_same, htoken]
  exact ⟨rfl, rfl⟩

theorem holdAtWord_proc (u : State) : (u.holdAtWord i).proc i.proc =
    { u.proc i.proc with st := if (u.proc i.proc).st = .running then .parked else (u.proc i.proc).st, hold := some .barrier } := by
  rw [State.holdAtWord, State.modProc_eq, State.proc_setProc_same]

theorem atBarrier_gang {u : State} {g : Gang} (x : Txn) (mats : List Nat) (hg : nget? u.gangs i.pre.gang = some g) (hb : g.barrier = []) :
    nget? (u.atBarrier i x mats).gangs i.pre.gang = some { g with barrier := [(i.pre.core, u.nextTxn)] } := by
  rw [State.atBarrier, addBarrier_gang _ _ _ _ (by rw [holdAtWord_gangs, tokenOp_gangs, hg]), hb, List.nil_append]

theorem atBarrier_proc (u : State) (x : Txn) (mats : List Nat) :
    ((u.atBarrier i x mats).proc i.proc).hold = some .barrier ∧ ((u.atBarrier i x mats).proc i.proc).opened = (u.proc i.proc).opened := by
  rw [State.atBarrier, addBarrier_proc, holdAtWord_proc, tokenOp_proc]
  exact ⟨rfl, rfl⟩

theorem atBarrier_core (u : State) (x : Txn) (mats : List Nat) :
    ((u.atBarrier i x mats).core i.pre.core).owner = (u.core i.pre.core).owner ∧
      ((u.atBarrier i x mats).core i.pre.core).free = (u.core i.pre.core).free - 1 := by
  rw [State.atBarrier, addBarrier_core, holdAtWord_core]
  exact tokenOp_core u x mats

/-- The first `mgang` at a barrier, with tiles for both operands, waits there with a token. -/
theorem mgang_waits {u : State} {m : MgangIn} {ta tb : BitVec 3} {zero : Bool} {g : Gang} {tag : BitVec 6} (hm : m.i = i)
    (hfull : gangFull u i = true) (htag : ((u.matrix i).tile ta.toNat).tag = some tag) (hpos : 0 < m.n.toNat) (hmul : m.n.toNat % 16 = 0)
    (hle : m.n.toNat ≤ 128) (hfree : 0 < (u.core i.pre.core).free) (hopened : (u.proc i.proc).opened = none)
    (hg : nget? u.gangs i.pre.gang = some g) (hb : g.barrier = []) :
    ∃ x, mgangIssue u m ab ac ta (.tile tb) zero = .ok (u.atBarrier i x (groupOf ab ac)).emptyLatch := by
  have hcount := acCount_pos ac
  have hcols : (decide (0 < m.n.toNat) && m.n.toNat % 16 == 0 && decide (m.n.toNat ≤ 128 * acCount ac) &&
      (!true || decide (m.n.toNat ≤ 128))) = true := by
    rw [decide_eq_true hpos, decide_eq_true (show m.n.toNat ≤ 128 * acCount ac by omega), decide_eq_true hle, hmul]
    rfl
  have htoken : needToken u i = .ok () := by rw [needToken, decide_eq_true hfree, check_true]
  subst hm
  unfold mgangIssue
  extract_lets i core cnt n tiles t dp map tile
  rw [show gangFull u i = true from hfull, check_true, ok_bind, show ((u.matrix i).tile ta.toNat).tag = some tag from htag]
  dsimp -zeta only
  rw [show (decide (0 < n) && n % 16 == 0 && decide (n ≤ 128 * cnt) && (!tiles || decide (n ≤ 128))) = true from hcols, check_true, ok_bind]
  extract_lets code rb
  rw [show tiles = true from rfl, Bool.true_or, check_true, ok_bind, Bool.true_or, check_true, ok_bind]
  rw [if_pos rfl, ok_bind, if_neg Bool.false_ne_true, show needToken u i = .ok () from htoken, ok_bind]
  extract_lets w x s1 s2 s3 s4 s5
  have hlast : s5 = u.atBarrier i x (groupOf ab ac) := openBarrier_lone (atBarrier_gang x _ hg hb) rfl
  have hstill : (s5.proc i.proc).opened = none := by
    rw [hlast]
    exact (atBarrier_proc u x _).2.trans hopened
  rw [hstill, hlast]
  exact ⟨x, rfl⟩

end Words

/-- Settles O31: each word by its equation, and the barrier by what the first `mgang` finds there. -/
theorem matrixWords : Obligations.MatrixWords := by
  intro s i ab ac hi hready hfree core mine calm
  refine ⟨fun hmine => ?mine, fun ta b nr zero t x ho hx => ?opened,
    fun ta tb nr zero m g tag hm hop ho hfull htag hpos hmul hle htok hg hb => ?first,
    fun k hk hne => ⟨exec_mzero_other hi hfree hk hne, exec_mstat_other hi hk hne⟩⟩
  case mine =>
    obtain ⟨u, hclaim, hu, hcore⟩ := claimMatrix_ok hmine
    have hnext : u.nextTxn = s.nextTxn := by rw [hu]
    have hissue : u.issue = some i := by rw [hu]; exact hi
    have hmem : u.mem = s.mem := by rw [hu]
    refine ⟨?zero, fun as has => ?dup, ⟨u, ?_, by rw [hcore], hmem⟩, fun dp p hmgr hp hsp hoff => ?rest,
      fun dp nr r p w u' a hp hw hu' hfmt hbl hpos hle ha hparts hlog => ?plain,
      fun dp nr r p z w f u' a b hp hz hw hu' hf hlo hhi hfmt hbl hpos hle hmul ha hb hparts hlog => ?blocks⟩
    case zero =>
      obtain ⟨h1, h2, h3, x, d, h4, h5, h6⟩ := writeGroup_spec (ab := ab) (ac := ac) s u {} hu hcore
      exact ⟨_, x, exec_mzero hi hfree hclaim, h1.trans hi, h2, h3, h4, h5, d, h6⟩
    case dup =>
      obtain ⟨h1, h2, h3, x, d, h4, h5, h6⟩ := writeGroup_spec (ab := ab) (ac := ac) s u ((s.matrix i).acc as.toNat) hu hcore
      refine ⟨_, x, ?_, h1.trans hi, h2, h3, h4, h5, d, h6⟩
      rw [exec_mdup hi hfree has hclaim, claimed_acc hcore]
    · rw [exec_mstat hi hclaim, claimed_matrix hcore]
    case rest =>
      refine ⟨_, exec_mrest hi hmgr hp hfree hclaim hsp hoff, ?_, fun hcalm => ?_⟩
      · rw [watch_issue]
        exact hissue
      · obtain ⟨h0, h1⟩ := hcalm
        obtain ⟨x, htxn, hmats⟩ := issueMat_txn u i (mkTxn u i (.mrest ab.toNat (acCount ac) p) 300) (groupOf ab ac) true
        rw [watch_calm h0 h1, ← hnext]
        exact ⟨_, htxn, rfl, hmats, hmem⟩
    case plain =>
      obtain rfl : u = u' := Except.ok.inj (hclaim.symm.trans hu')
      have hmx : drainMx (pFmt p) = false := by rcases hfmt with h | h <;> rw [h] <;> rfl
      have hsplit : splitOf (pFmt p) = none := by rcases hfmt with h | h <;> rw [h] <;> rfl
      have hwidth : (if pFmt p = 0x09 then binary32 else bfloat16).width / 8 = if pFmt p = 0x09 then 4 else 2 := by
        split <;> rfl
      have heb : (drainRow (pFmt p) (i.rm r) (drainCells (u.matrix i) ab w.toNat 0)).1.length = (if pFmt p = 0x09 then 4 else 2) * w.toNat := by
        rw [drainRow_plain hsplit, hwidth, drainCells_length, Nat.mul_comm]
      have hcode : (pFmt p == 0x09 || pFmt p == 0x0B) = true := by simpa using hfmt
      obtain ⟨v, l, f, lat, hexec, hv⟩ := exec_mdrain (b := { st := a.st }) (z := 0) hi hp (by rw [hmx]; rfl) hw hready hclaim
        (by rw [hmx, hcode, hbl]; rfl) (by rw [hmx]; rfl) hpos hle (by rw [hmx]; rfl) heb rfl ha (by rw [hmx]; rfl)
        (by rw [List.append_nil]; exact hparts) hlog
      exact ⟨_, hexec, drained_issue (hv.trans ((rangeAccess_issue (a := a) ha).trans hissue)), fun hcalm => drained_txn hcalm.1 hcalm.2⟩
    case blocks =>
      obtain rfl : u = u' := Except.ok.inj (hclaim.symm.trans hu')
      have hmx : drainMx (pFmt p) = true := by rw [drainMx, decide_eq_true hlo, decide_eq_true hhi]; rfl
      obtain ⟨heb, hsb⟩ := drainRow_blocks hf (i.rm r) (drainCells (u.matrix i) ab w.toNat 0)
      rw [drainCells_length] at heb hsb
      obtain ⟨v, l, f', lat, hexec, hv⟩ := exec_mdrain (b := b) hi hp (by rw [hmx]; exact hz) hw hready hclaim (by rw [hmx]; rfl)
        (by rw [hmx, hfmt, hbl]; rfl) hpos hle (by rw [hmx, hmul]; rfl) heb hsb ha (by rw [hmx]; exact hb) hparts hlog
      exact ⟨_, hexec, drained_issue ((hv.trans (rangeAccess_issue hb)).trans ((rangeAccess_issue ha).trans hissue)),
        fun hcalm => drained_txn hcalm.1 hcalm.2⟩
  case opened =>
    obtain ⟨h1, h2, h3, h4, h5⟩ := issueOpened_spec (i := i) none hx
    exact ⟨_, exec_mgang_opened hi ho, h1.trans hi, h2, h3, h4, h5⟩
  case first =>
    obtain ⟨hmi, howner⟩ := mgangOperands_ok hi hm
    have hu := State.core_setCore_same s i.pre.core { s.core i.pre.core with owner := some i.proc }
    have htile : (((s.setCore i.pre.core { s.core i.pre.core with owner := some i.proc }).matrix i).tile ta.toNat).tag = some tag := by
      have h := congrArg (fun c : Core => (c.tile ta.toNat).tag) (claimed_matrix hu)
      exact h.trans htag
    obtain ⟨x, hx⟩ := mgang_waits (ab := ab) (ac := ac) (tb := tb) (zero := zero)
      (u := s.setCore i.pre.core { s.core i.pre.core with owner := some i.proc }) hmi hfull htile hpos hmul hle (by rw [hu]; exact htok) ho hg hb
    have harm : exec (.mgang ab ac ta (.tile tb) nr zero) s = execMgang ab ac ta (.tile tb) nr zero s := rfl
    have hexec : exec (.mgang ab ac ta (.tile tb) nr zero) s = .next
        ((s.setCore i.pre.core { s.core i.pre.core with owner := some i.proc }).atBarrier i x (groupOf ab ac)).emptyLatch := by
      simp only [harm, execMgang, hi, Option.bind_some, hop, Option.map_none, hm, hmi, howner, State.modCore_eq, hx, finish_ok]
    refine ⟨_, hexec, emptyLatch_issue _, ?_, ?_, ?_, ?_⟩
    · rw [emptyLatch_proc]
      exact (atBarrier_proc ..).1
    · rw [emptyLatch_gangs]
      exact atBarrier_gang x _ hg hb
    · rw [emptyLatch_core, (atBarrier_core ..).1, hu]
    · rw [emptyLatch_core, (atBarrier_core ..).2, hu]

end Sys2Proof.Machine
end

section
/-! SUPPORT. An engine command takes a completion object, and its ranges touch buffers and scoreboards alone (O34, O35). -/

namespace Sys2Proof.Machine

/-! ### What the ranges and register targets of a command change -/

theorem core_modCore_same (s : State) (c : Nat) (f : Core → Core) : (s.modCore c f).core c = f (s.core c) :=
  State.core_setCore_same ..

@[simp] theorem Core.obj_setObj_same (c : Core) (j : Nat) (o : Obj) : (c.setObj j o).obj j = o := nget_nset_same ..
theorem Core.obj_setObj_other (c : Core) {j m : Nat} (o : Obj) (h : m ≠ j) : (c.setObj j o).obj m = c.obj m := nget_nset_other _ _ _ h

/-- Two cores have the same completion objects and free tokens. -/
def Core.SameObjs (c d : Core) : Prop := d.objs = c.objs ∧ d.free = c.free

theorem Core.SameObjs.obj {c d : Core} (h : c.SameObjs d) (j : Nat) : d.obj j = c.obj j := by
  rw [Core.obj, Core.obj, h.1]

/-- `u` differs from `s` in its cores alone, whose objects and tokens stand. -/
def State.SameObjs (s u : State) : Prop := u = { s with cores := u.cores } ∧ ∀ c, (s.core c).SameObjs (u.core c)

namespace State.SameObjs

variable {s u : State}

theorem refl (s : State) : s.SameObjs s := ⟨rfl, fun _ => ⟨rfl, rfl⟩⟩

theorem setCore {c : Nat} {d : Core} (h : s.SameObjs u) (hd : (u.core c).SameObjs d) : s.SameObjs (u.setCore c d) := by
  obtain ⟨hu, hc⟩ := h
  refine ⟨?_, fun j => ?_⟩
  · rw [hu]
    rfl
  · rw [State.core_setCore]
    split
    · next e =>
      subst e
      exact ⟨hd.1.trans (hc j).1, hd.2.trans (hc j).2⟩
    · exact hc j

theorem enterRanges {t core : Nat} {l : List SpadRange} (h : s.SameObjs u) : s.SameObjs (u.enterRanges t core l) := by
  unfold State.enterRanges
  induction l generalizing u with
  | nil => exact h
  | cons r l ih => exact ih (h.setCore ⟨rfl, rfl⟩)

theorem startRanges {l : List SpadRange} (h : s.SameObjs u) : OkAll s.SameObjs (startRanges u l) := by
  unfold Machine.startRanges
  refine .foldlM (fun v r hv => ?_) h
  split
  · next c hc =>
    have hsame : OptAll (v.core r.core).SameObjs ((v.core r.core).startRange r.incoming r.lo r.len) := by
      refine .foldlM (fun d e hd => .ite (fun b hb => ?_) (.some hd)) ⟨rfl, rfl⟩
      obtain ⟨x, -, rfl⟩ := Option.map_eq_some_iff.mp hb
      exact hd
    exact .ok (hv.setCore (hsame c hc))
  · exact .error

end State.SameObjs

/-- Copies are counted in records of processes alone. -/
theorem countRegs_eq (s : State) (l : List Nat) : ∃ ps, s.countRegs l = { s with procs := ps } := by
  unfold State.countRegs
  induction l generalizing s with
  | nil => exact ⟨s.procs, rfl⟩
  | cons k l ih =>
    rw [List.foldl_cons]
    split
    · obtain ⟨ps, h⟩ := ih (s.modProc k fun p => { p with cpyreg := p.cpyreg + 1 })
      exact ⟨ps, h⟩
    · exact ih s

/-! ### The object, the handle and the status -/

/-- A state where a command has taken object `j`: it runs for the issuer, the handle stands at `q1` and the pending status at `q0`. -/
structure State.Taken (s : State) (i : Issue) (e : EngCmd) (j : Nat) (t : State) : Prop where
  obj : (t.core i.pre.core).obj j =
    { st := .running, gen := (((s.core i.pre.core).obj j).gen + 1) % 256, issuer := i.proc, txn := s.nextTxn }
  others : ∀ m, m ≠ j → (t.core i.pre.core).obj m = (s.core i.pre.core).obj m
  free : (t.core i.pre.core).free = if e.heavy then (s.core i.pre.core).free - 1 else (s.core i.pre.core).free
  handle : (t.proc i.proc).qget 1 = handleWord i.pre.core ((((s.core i.pre.core).obj j).gen + 1) % 256) j
  ready : (t.proc i.proc).qpend 1 = false
  status : (t.proc i.proc).qpend 0 = true
  mem : t.mem = s.mem
  issue : t.issue = s.issue
  next : t.nextTxn = s.nextTxn + 1
  txn : ∃ x, nget? t.txns s.nextTxn = some x ∧ x.op = .eng i.pre.core j e.op ∧ x.issuer = i.proc ∧ x.regs = e.regs

/-- The handle, then the pending status. -/
theorem push_issuePend_slots (s : State) (i : Issue) (w : Word) (x : Txn) :
    let p := ((s.push i w none).issuePend i x none).proc i.proc
    p.qget 1 = w ∧ p.qpend 1 = false ∧ p.qpend 0 = true := by
  intro p
  have hone : (0 : BitVec 4) + 1 = 1 := rfl
  have hp := issuePend_proc (s.push i w none) i x none
  rw [push_proc] at hp
  have hsucc := pushPend_succ ((s.proc i.proc).pushVal w (i.keep none)) (s.push i w none).nextTxn (i.keep none) (j := 0) (by decide)
  rw [hone] at hsucc
  rw [show p = _ from hp]
  exact ⟨hsucc.1.trans (pushVal_qget0 ..), hsucc.2.trans (pushVal_qpend_zero ..), pushPend_qpend_zero ..⟩

/-- A command takes its object, its ranges and its token in the cores alone; then its targets are counted and its entries pushed. -/
theorem takeObj_eq (s : State) (i : Issue) (e : EngCmd) (j : Nat) :
    let gen := (((s.core i.pre.core).obj j).gen + 1) % 256
    ∃ (d : State) (x : Txn), s.takeObj i e j = ((d.countRegs e.regs).push i (handleWord i.pre.core gen j) none).issuePend i x none ∧
      d = { s with cores := d.cores } ∧
      (d.core i.pre.core).objs =
        ((s.core i.pre.core).setObj j { st := .running, gen := gen, issuer := i.proc, txn := s.nextTxn }).objs ∧
      (d.core i.pre.core).free = (if e.heavy then (s.core i.pre.core).free - 1 else (s.core i.pre.core).free) ∧
      x.op = .eng i.pre.core j e.op ∧ x.issuer = i.proc ∧ x.regs = e.regs := by
  intro gen
  let u := s.modCore i.pre.core fun c => c.setObj j { st := .running, gen := gen, issuer := i.proc, txn := s.nextTxn }
  obtain ⟨heq, hsame⟩ := (State.SameObjs.refl u).enterRanges (t := s.nextTxn) (core := i.pre.core) (l := e.ranges)
  obtain ⟨hobjs, hfree⟩ := hsame i.pre.core
  have hu : u.core i.pre.core = _ := core_modCore_same ..
  rw [hu] at hobjs hfree
  have heq' : u.enterRanges s.nextTxn i.pre.core e.ranges =
      { s with cores := (u.enterRanges s.nextTxn i.pre.core e.ranges).cores } := heq
  refine ⟨_, _, rfl, ?_, ?_, ?_, rfl, rfl, rfl⟩
  · split
    · rw [State.takeToken, State.modCore, heq']
      rfl
    · exact heq'
  · split
    · rw [State.takeToken, core_modCore_same]
      exact hobjs
    · exact hobjs
  · split
    · rw [State.takeToken, core_modCore_same]
      exact congrArg (· - 1) hfree
    · exact hfree

theorem takeObj_taken {s r : State} (h : s.SameObjs r) (i : Issue) (e : EngCmd) (j : Nat) : s.Taken i e j (r.takeObj i e j) := by
  obtain ⟨hr, hsame⟩ := h
  have hobj := (hsame i.pre.core).obj
  have hnext : r.nextTxn = s.nextTxn := by rw [hr]
  obtain ⟨d, x, htake, hd, hobjs, hfree, hop, hissuer, hregs⟩ := takeObj_eq r i e j
  obtain ⟨ps, hcount⟩ := countRegs_eq d e.regs
  have hdobj (m : Nat) : (d.core i.pre.core).obj m = Core.obj _ m := congrArg (fun l => nget ({} : Obj) l m) hobjs
  have hslots := push_issuePend_slots (d.countRegs e.regs) i (handleWord i.pre.core ((((r.core i.pre.core).obj j).gen + 1) % 256) j) x
  have hcores : (d.countRegs e.regs).cores = d.cores := by rw [hcount]
  have hn : (d.countRegs e.regs).nextTxn = s.nextTxn := by rw [hcount, ← hnext, hd]
  rw [htake]
  generalize hw : handleWord i.pre.core ((((r.core i.pre.core).obj j).gen + 1) % 256) j = w at hslots ⊢
  have hcore : (((d.countRegs e.regs).push i w none).issuePend i x none).core i.pre.core = d.core i.pre.core :=
    congrArg (fun l => nget ({} : Core) l i.pre.core) hcores
  have htxn := issuePend_txn ((d.countRegs e.regs).push i w none) i x none
  rw [show ((d.countRegs e.regs).push i w none).nextTxn = s.nextTxn from hn] at htxn
  refine ⟨?_, fun m hm => ?_, ?_, hslots.1.trans ?_, hslots.2.1, hslots.2.2, ?_, ?_, ?_, _, htxn, hop, hissuer, hregs⟩
  · rw [hcore, hdobj, ← hobj, ← hnext]
    exact Core.obj_setObj_same ..
  · rw [hcore, hdobj, ← hobj]
    exact Core.obj_setObj_other _ _ hm
  · rw [hcore, hfree, (hsame i.pre.core).2]
  · rw [← hw, hobj]
  · rw [issuePend_mem, push_mem, hcount]
    dsimp only
    rw [hd, hr]
  · rw [issuePend_issue, push_issue, hcount]
    dsimp only
    rw [hd, hr]
  · rw [issuePend_nextTxn]
    exact congrArg (· + 1) hn

/-! ### The beginning of a command -/

theorem freeObj_isFree {c : Core} {b : Bool} {j : Nat} (h : c.freeObj b = some j) : (c.obj j).st = .free := by
  simpa using List.find?_some h

section Begin

variable {s r : State} {i : Issue} {e : EngCmd} {j : Nat}

/-- With a token for a heavy command, a command goes on to its object. -/
theorem needToken_bind {α : Type} (ht : e.heavy = true → 0 < (s.core i.pre.core).free) (f : Unit → Except Abort α) :
    (if e.heavy = true then needToken s i >>= f else Except.ok () >>= f) = f () := by
  split
  · next h => rw [needToken, decide_eq_true (ht h)]; rfl
  · rfl

theorem beginEng_ok (hr : startRanges s e.ranges = .ok r) (ht : e.heavy = true → 0 < (s.core i.pre.core).free)
    (hj : (s.core i.pre.core).freeObj e.shared = some j)
    (hroom : (s.core i.pre.core).sbRoom (ownRanges i.pre.core e.ranges + e.later) = true) :
    s.beginEng i e = .ok (r.takeObj i e j) := by
  unfold State.beginEng
  rw [hr, ok_bind]
  refine (needToken_bind ht _).trans ?_
  rw [hj]
  dsimp only
  rw [hroom]
  rfl

theorem beginEng_taken (hr : startRanges s e.ranges = .ok r) (ht : e.heavy = true → 0 < (s.core i.pre.core).free)
    (hj : (s.core i.pre.core).freeObj e.shared = some j)
    (hroom : (s.core i.pre.core).sbRoom (ownRanges i.pre.core e.ranges + e.later) = true) :
    ∃ t, s.beginEng i e = .ok t ∧ s.Taken i e j t :=
  ⟨_, beginEng_ok hr ht hj hroom, takeObj_taken ((State.SameObjs.refl s).startRanges _ hr) i e j⟩

theorem beginEng_noToken (hr : startRanges s e.ranges = .ok r) (hh : e.heavy = true) (hf : (s.core i.pre.core).free = 0) :
    s.beginEng i e = .error (.trap { kind := .powerBudget, e5 := (s.core i.pre.core).tokens }) := by
  have hno : (decide (0 < (s.core i.pre.core).free)) = false := by simp [hf]
  unfold State.beginEng needToken
  rw [hr, ok_bind, if_pos hh, hno]
  rfl

theorem beginEng_noObject (hr : startRanges s e.ranges = .ok r) (ht : e.heavy = true → 0 < (s.core i.pre.core).free)
    (hj : (s.core i.pre.core).freeObj e.shared = none) : s.beginEng i e = .error (.hold .object) := by
  unfold State.beginEng
  rw [hr, ok_bind]
  refine (needToken_bind ht _).trans ?_
  rw [hj]

end Begin

/-- Settles O35: the command takes the lowest free object where there is one, and is held or refused before it takes anything else. -/
theorem engineObject : Obligations.EngineObject := by
  intro s i e hranges hlater core c hsb
  have hr : startRanges s e.ranges = .ok s := by rw [hranges]; rfl
  have hroom : (s.core i.pre.core).sbRoom (ownRanges i.pre.core e.ranges + e.later) = true := by
    rw [hranges, hlater]
    exact decide_eq_true hsb
  refine ⟨fun j hj ht => ?_, beginEng_noToken hr, fun hj ht => beginEng_noObject hr ht hj⟩
  obtain ⟨t, ht, hobj, hothers, hfree, hhandle, hready, hstatus, hmem, -, -, x, hx, hop, -⟩ := beginEng_taken hr ht hj hroom
  refine ⟨t, ht, ?_, ?_, ?_, hfree, hhandle, hready, hstatus, hothers, hmem, ?_, freeObj_isFree hj⟩
  · rw [hobj]
  · rw [hobj]
  · rw [hobj]
  · rw [hx, ← hop]
    rfl

end Sys2Proof.Machine
end

section
/-! SUPPORT. A transaction that has gone does not come back while channels come to rest, and the word in issue stays in the latch
(O34). -/

namespace Sys2Proof.Machine

/-- The latch holds `o`, and no transaction has number `n`. -/
def State.Lacks (o : Option Issue) (n : Nat) (s : State) : Prop := s.issue = o ∧ nget? s.txns n = none

@[simp] theorem newEpisode_txns (s : State) (k : Nat) : (s.newEpisode k).txns = s.txns := by
  unfold State.newEpisode
  dsimp only
  split <;> rfl

@[simp] theorem ready_txns (s : State) (k : Nat) (head : Bool) : (s.ready k head).txns = s.txns := by
  unfold State.ready
  dsimp only
  split_ifs
  case neg => exact newEpisode_txns s k
  all_goals exact newEpisode_txns s k

/-- The entry of a pair of a map is present. -/
theorem nget?_ne_none_of_mem {α : Type} {m : NMap α} {e : Nat × α} (h : e ∈ m) : nget? m e.1 ≠ none := by
  induction m with
  | nil => cases h
  | cons a l ih =>
    rw [nget?]
    split
    · simp
    · next hne =>
      obtain rfl | hl := List.mem_cons.mp h
      · exact absurd rfl hne
      · exact ih hl

namespace State.Lacks

variable {o : Option Issue} {n : Nat} {s u : State}

theorem upd (h : s.Lacks o n) (hi : u.issue = s.issue) (ht : u.txns = s.txns) : u.Lacks o n :=
  ⟨hi.trans h.1, (congrArg (nget? · n) ht).trans h.2⟩

theorem setTxn {j : Nat} {x : Txn} (h : s.Lacks o n) (hj : j ≠ n) : (s.setTxn j x).Lacks o n :=
  ⟨h.1, (nget?_nset_other _ _ (Ne.symm hj)).trans h.2⟩

theorem dropTxn {j : Nat} (h : s.Lacks o n) : (s.dropTxn j).Lacks o n := by
  refine ⟨h.1, (nget?_ndel ..).trans ?_⟩
  rw [h.2, ite_self]

theorem dropTxn_self (h : s.issue = o) : (s.dropTxn n).Lacks o n := ⟨h, (nget?_ndel ..).trans (if_pos rfl)⟩

theorem modTxn {j : Nat} {f : Txn → Txn} (h : s.Lacks o n) : (s.modTxn j f).Lacks o n := by
  refine ⟨h.1, (nget?_nmod ..).trans ?_⟩
  rw [h.2, Option.map_none, ite_self]

/-- A transaction that is present has another number. -/
theorem ne {j : Nat} {x : Txn} (h : s.Lacks o n) (hx : nget? s.txns j = some x) : j ≠ n := by
  rintro rfl
  rw [h.2] at hx
  cases hx

theorem ite {c : Prop} [Decidable c] (h : s.Lacks o n) (g : u.Lacks o n) : (if c then s else u).Lacks o n := by
  split
  · exact h
  · exact g

theorem iteThen {c : Prop} [Decidable c] (h : s.Lacks o n) (g : s.Lacks o n → u.Lacks o n) : (if c then u else s).Lacks o n :=
  .ite (g h) h

theorem foldlMem {α : Type} {f : State → α → State} {l : List α} (hf : ∀ s, ∀ a ∈ l, s.Lacks o n → (f s a).Lacks o n)
    (h : s.Lacks o n) : (l.foldl f s).Lacks o n := by
  induction l generalizing s with
  | nil => exact h
  | cons a l ih => exact ih (fun s b hb => hf s b (List.mem_cons_of_mem a hb)) (hf s a List.mem_cons_self h)

theorem foldl {α : Type} {f : State → α → State} {l : List α} (hf : ∀ s a, s.Lacks o n → (f s a).Lacks o n) (h : s.Lacks o n) :
    (l.foldl f s).Lacks o n := h.foldlMem fun s a _ => hf s a

/-! ### Operations of `Machine/Ops` -/

theorem setChan {part ch : Nat} {c : Chan} (h : s.Lacks o n) : (s.setChan part ch c).Lacks o n := h.upd rfl rfl
theorem modChan {part ch : Nat} {f : Chan → Chan} (h : s.Lacks o n) : (s.modChan part ch f).Lacks o n := h.upd rfl rfl
theorem ready {k : Nat} {head : Bool} (h : s.Lacks o n) : (s.ready k head).Lacks o n := h.upd (ready_issue ..) (ready_txns ..)
theorem raiseFloor {k : Nat} {c : Clock} (h : s.Lacks o n) : (s.raiseFloor k c).Lacks o n := .ite h (h.upd rfl rfl)

theorem blockLate {k : Nat} {w : Wait} {obj : W32} {d : Word} (h : s.Lacks o n) : (s.blockLate k w obj d).Lacks o n :=
  h.upd (blockLate_issue ..) (blockLate_txns ..)

theorem putSlot {part ch sender : Nat} {bs : List Byte} (h : s.Lacks o n) : (s.putSlot part ch sender bs).Lacks o n := by
  unfold State.putSlot
  split
  · exact h
  · exact .setChan (h.upd rfl rfl)

theorem failThread {k : Nat} {t : Trap} {loc : Word} {bword : Bool} (h : s.Lacks o n) : (s.failThread k t loc bword).Lacks o n := by
  have hproc {p : Proc} : (s.setProc k p).Lacks o n := h.upd rfl rfl
  unfold State.failThread
  dsimp only
  split
  · exact h
  · refine .ite h ?_
    split
    · exact hproc
    · exact .modTxn hproc

theorem failC {t : Nat} {x : Txn} {r : FRec} (h : s.Lacks o n) : (s.failC t x r).Lacks o n := .ite (.failThread h) (h.upd rfl rfl)

theorem failWait {part ch t : Nat} {kind : Kind} {addr : Word} (h : s.Lacks o n) : (s.failWait part ch t kind addr).Lacks o n := by
  unfold State.failWait
  dsimp only
  split
  · exact .iteThen (.modChan (.dropTxn (.ite h (.failC h)))) .ready
  · exact h

theorem reapChan {part ch : Nat} (h : s.Lacks o n) : (s.reapChan part ch).Lacks o n := by
  unfold State.reapChan
  split
  · exact h
  · exact .ite (h.upd rfl rfl) h

theorem closeTx {part ch k : Nat} (h : s.Lacks o n) : (s.closeTx part ch k).Lacks o n := by
  unfold State.closeTx
  dsimp only
  split
  · exact h
  · exact .ite (.setChan h) (.reapChan (.ite (.foldl (fun _ _ => .failWait) (.setChan h)) (.setChan h)))

theorem closeRx {part ch : Nat} (h : s.Lacks o n) : (s.closeRx part ch).Lacks o n := by
  unfold State.closeRx
  dsimp only
  split
  · exact h
  · exact .reapChan (.foldl (fun _ _ => .failWait) (.setChan h))

theorem closeAll {k : Nat} (h : s.Lacks o n) : (s.closeAll k).Lacks o n :=
  .foldl (fun _ _ h1 => .iteThen (.ite (.closeTx h1) h1) .closeRx) h

theorem endDormants {m : Nat} (h : s.Lacks o n) : (s.endDormants m).Lacks o n := by
  induction m generalizing s with
  | zero => exact h
  | succ m ih =>
    unfold State.endDormants
    split
    · exact h
    · exact ih (.closeAll (h.upd rfl rfl))

/-! ### Operations of `Machine/Fabric` and `Machine/Channels` -/

theorem countFlit {port slot : Nat} (h : s.Lacks o n) : (s.countFlit port slot).Lacks o n := by
  unfold State.countFlit
  split
  · exact h.upd rfl rfl
  · exact h.upd rfl rfl

theorem emit {port slot : Nat} {f : Nat × FabMsg} (h : s.Lacks o n) : (s.emit port slot f).Lacks o n :=
  .ite h (.ite (h.upd rfl rfl) (.countFlit (h.upd rfl rfl)))

theorem sendFab {m part : Nat} {msg : FabMsg} (h : s.Lacks o n) : (s.sendFab m part msg).Lacks o n := .foldl (fun _ _ => .emit) h

theorem leaveQueue {ch t : Nat} {x : Txn} (h : s.Lacks o n) : (s.leaveQueue ch t x).Lacks o n := .modChan h

theorem startSide {t : Nat} {x : Txn} (h : s.Lacks o n) : (s.startSide t x).Lacks o n := by
  unfold State.startSide
  split
  · exact h
  · split
    · exact h
    · exact h.upd rfl rfl

theorem matchPair {ch t : Nat} {x : Txn} {r : Nat} {y : Txn} (h : s.Lacks o n) (ht : t ≠ n) (hr : r ≠ n) :
    (s.matchPair ch t x r y).Lacks o n := by
  unfold State.matchPair
  dsimp only
  refine .setTxn (.setTxn ?_ ht) hr
  exact .iteThen (.raiseFloor (.startSide (.startSide (.leaveQueue (.leaveQueue h))))) .raiseFloor

theorem putMsg {ch t : Nat} {x : Txn} (h : s.Lacks o n) (ht : t ≠ n) : (s.putMsg ch t x).Lacks o n :=
  .setTxn (.modChan (.putSlot (.startSide (.leaveQueue h)))) ht

theorem takeMsg {ch r : Nat} {y : Txn} {bs : List Byte} (h : s.Lacks o n) (hr : r ≠ n) : (s.takeMsg ch r y bs).Lacks o n :=
  .setTxn (.modChan (.raiseFloor (.startSide (.leaveQueue h)))) hr

theorem startAlone {ch t : Nat} {x : Txn} (h : s.Lacks o n) (ht : t ≠ n) : (s.startAlone ch t x).Lacks o n :=
  .setTxn (.modChan (.startSide (.leaveQueue h))) ht

theorem blockFar {t : Nat} (h : s.Lacks o n) : (s.blockFar t).Lacks o n := by
  unfold State.blockFar
  split
  · next hx => exact .ite h (.blockLate (.setTxn h (h.ne hx)))
  · exact h

theorem sendRemote {ch t : Nat} {x : Txn} {c : Chan} (h : s.Lacks o n) (ht : t ≠ n) : (s.sendRemote ch t x c).Lacks o n :=
  .iteThen (.setTxn (.sendFab (.startSide (.leaveQueue h))) ht) .blockFar

theorem sideFault {part ch t : Nat} {x : Txn} (h : s.Lacks o n) : OptAll (State.Lacks o n) (s.sideFault part ch t x) :=
  .ite (.some (.failWait h)) (.mapPass fun _ => .failWait h)

theorem firstSender_ne {c : Chan} {p : Nat → Bool} {e : Nat × Txn} (h : s.Lacks o n) (he : s.firstSender c p = some e) : e.1 ≠ n := by
  obtain ⟨t, -, ht⟩ := Option.bind_eq_some_iff.mp he
  obtain ⟨x, hx, rfl⟩ := Option.map_eq_some_iff.mp ht
  exact h.ne hx

theorem chanStep {part ch : Nat} (h : s.Lacks o n) : OptAll (State.Lacks o n) (s.chanStep part ch) := by
  unfold State.chanStep
  split
  · exact .none
  · extract_lets broken recv room solo
    have hrecv (e : Nat × Txn) (he : recv = some e) : e.1 ≠ n := by
      obtain ⟨r, -, hr⟩ := Option.bind_eq_some_iff.mp (Option.filter_eq_some_iff.mp he).1
      obtain ⟨y, hy, rfl⟩ := Option.map_eq_some_iff.mp hr
      exact h.ne hy
    have hsolo (e : Nat × Txn) (he : solo = some e) : e.1 ≠ n := by
      dsimp only [solo] at he
      split at he
      · exact h.firstSender_ne he
      · cases he
    have hroom (e : Nat × Txn) (he : room = some e) : e.1 ≠ n := by
      dsimp only [room] at he
      split at he
      · exact h.firstSender_ne he
      · cases he
    clear_value broken recv room solo
    split
    · exact .some (.failWait h)
    · split
      · have hn := hrecv _ rfl
        refine .ite (.or (sideFault h) (.ite (.some (.startAlone h hn)) .none)) (.ite ?_ ?_)
        · split
          · exact .some (.failWait h)
          · exact .or (sideFault h) (.ite (.some (.takeMsg h hn)) .none)
        · split
          · exact .none
          · next ht => exact .or (.or (sideFault h) (sideFault h)) (.ite (.some (.matchPair h (h.firstSender_ne ht) hn)) .none)
      · have hn := hsolo _ rfl
        exact .or (sideFault h) (.ite (.some (.ite (.startAlone h hn) (.sendRemote h hn))) .none)
      · split
        · exact .none
        · exact .or (sideFault h) (.ite (.some (.putMsg h (hroom _ rfl))) .none)

theorem settleChan {part ch m : Nat} (h : s.Lacks o n) : (s.settleChan part ch m).Lacks o n := by
  induction m generalizing s with
  | zero => exact h
  | succ m ih =>
    unfold State.settleChan
    split
    · next e => exact ih (chanStep h _ e)
    · exact h

theorem pumpChan {part ch : Nat} (h : s.Lacks o n) : (s.pumpChan part ch).Lacks o n := by
  unfold State.pumpChan
  split
  · exact h
  · exact .settleChan h

theorem pumpAll (h : s.Lacks o n) : s.pumpAll.Lacks o n :=
  .foldl (fun _ _ h1 => .foldl (fun _ _ h2 => .ite h2 (.pumpChan h2)) h1) h

theorem takeGuard {j hd : Nat} (h : s.Lacks o n) : (s.takeGuard j hd).Lacks o n := by
  unfold State.takeGuard
  dsimp only
  split
  · exact h
  · exact .ite (h.upd rfl rfl) h

theorem endAlt {j : Nat} {x : Txn} {w : Word} (h : s.Lacks o n) (hj : j ≠ n) : (s.endAlt j x w).Lacks o n :=
  .setTxn (h.upd rfl rfl) hj

theorem wakeAlts (h : s.Lacks o n) : s.wakeAlts.Lacks o n := by
  have hd : (s.endDormants s.procs.length).Lacks o n := .endDormants h
  unfold State.wakeAlts
  refine hd.foldlMem fun u e he hu => ?_
  have hne : e.1 ≠ n := fun heq => nget?_ne_none_of_mem he (heq ▸ hd.2)
  split
  · split
    · exact hu
    · exact .endAlt (.takeGuard hu) hne
  · exact hu

end State.Lacks

end Sys2Proof.Machine
end

section
/-! SUPPORT. Engine words issue, and a copy of no bytes completes (O34). -/

namespace Sys2Proof.Machine

/-! ### The end of a command -/

@[simp] theorem uncache_issue (s : State) (t : Nat) (x : Txn) : (s.uncache t x).issue = s.issue := by
  unfold State.uncache
  split <;> rfl

@[simp] theorem dropLines_issue (s : State) (t : Nat) (x : Txn) : (s.dropLines t x).issue = s.issue :=
  foldl_issue s (fun s e => by exact uncache_issue s e.1 e.2) _

@[simp] theorem unpark_issue (s : State) (k : Nat) : (s.unpark k).issue = s.issue := by
  unfold State.unpark
  dsimp only
  split <;> rfl

@[simp] theorem deliver_issue (s : State) (t : Nat) (x : Txn) (d : Deliver) : (s.deliver t x d).issue = s.issue :=
  (unpark_issue ..).trans (ite_issue (ite_issue rfl (lateImg_issue ..)) (ite_issue rfl (lateImg_issue ..)))

@[simp] theorem pokeBufs_issue (s : State) (core : Nat) : (s.pokeBufs core).issue = s.issue :=
  foldl_issue s (fun s e => by
    split
    · split
      · exact ite_issue ((ready_issue ..).trans (deliver_issue ..)) rfl
      · rfl
    · rfl) _

@[simp] theorem leaveRanges_issue (s : State) (t : Nat) : (s.leaveRanges t).issue = s.issue :=
  foldl_issue s (fun s e => by exact ite_issue ((pokeBufs_issue ..).trans (breakQueries_issue ..)) rfl) _

@[simp] theorem raiseFloor_issue (s : State) (k : Nat) (c : Clock) : (s.raiseFloor k c).issue = s.issue := ite_issue rfl rfl

@[simp] theorem settleTxn_issue (s : State) (x : Txn) : (s.settleTxn x).issue = s.issue := ite_issue rfl rfl

@[simp] theorem unpark_txns (s : State) (k : Nat) : (s.unpark k).txns = s.txns := by
  unfold State.unpark
  dsimp only
  split <;> rfl

@[simp] theorem lateImg_txns (s : State) (k : Nat) : (s.lateImg k).txns = s.txns := by
  unfold State.lateImg State.writeImg
  dsimp only
  split_ifs <;> rfl

@[simp] theorem deliver_txns (s : State) (t : Nat) (x : Txn) (d : Deliver) : (s.deliver t x d).txns = s.txns := by
  rw [State.deliver, unpark_txns]
  split_ifs <;> simp

/-- A command that has counted no targets and completes with a status is gone, and the word in issue stays. -/
theorem endEng_gone (s : State) (t : Nat) (x : Txn) (core obj : Nat) (w : Word) (hregs : x.regs = []) :
    (s.endEng t x core obj (.ok w)).Lacks s.issue t := by
  unfold State.endEng
  extract_lets o fl js s1 s2 s3 s4 past s5 s6 s7 gone _ _ _ _ s8 s9
  have h2 : s2.issue = s.issue := by
    have hid : s2 = s1 := by
      dsimp only [s2]
      rw [hregs]
      rfl
    rw [hid]
    exact (leaveRanges_issue ..).trans (dropLines_issue ..)
  have h4 : s4.issue = s.issue := by
    have h3 : s3.issue = s.issue := (settleTxn_issue ..).trans h2
    exact ite_issue h3 h3
  have h7 : s7.issue = s.issue :=
    (foldl_issue s6 (fun u j => raiseFloor_issue ..) js).trans ((raiseFloor_issue ..).trans ((tagArrival_issue ..).trans h4))
  have h8 : State.Lacks s.issue t s8 := by
    refine .foldl (fun u j h => .dropTxn (h.upd (deliver_issue ..) (deliver_txns ..))) (?_ : State.Lacks s.issue t _)
    exact .dropTxn_self ((deliver_issue ..).trans h7)
  have h9 : State.Lacks s.issue t s9 := .foldl (fun _ _ => .ready) h8
  have hend : State.Lacks s.issue t (x.regs.foldl State.tryExit s9) := by
    rw [hregs]
    exact h9
  exact .wakeAlts (.pumpAll hend)

/-! ### The beginning of a command, as a word issues it -/

section Issue

variable {s t : State} {i : Issue} {e : EngCmd} {j : Nat}

/-- Where its parts are free, a command begins. -/
theorem EngReady.begin (h : EngReady s i e) :
    ∃ t j, s.beginEng i e = .ok t ∧ (s.core i.pre.core).freeObj e.shared = some j ∧ s.Taken i e j t := by
  obtain ⟨hranges, htoken, hobject, hroom⟩ := h
  obtain ⟨j, hj⟩ := Option.isSome_iff_exists.mp hobject
  cases hr : startRanges s e.ranges with
  | error tr =>
    rw [hr] at hranges
    cases hranges
  | ok r =>
    obtain ⟨t, ht, htaken⟩ := beginEng_taken hr htoken hj hroom
    exact ⟨t, j, ht, hj, htaken⟩

theorem State.Taken.issued (h : s.Taken i e j t) (hj : (s.core i.pre.core).freeObj e.shared = some j) : EngIssued s i e (.next t) := by
  obtain ⟨hobj, -, -, hhandle, hready, hstatus, hmem, hissue, -, x, hx, hop, -⟩ := h
  refine ⟨t, j, rfl, hissue, hj, ?_, ?_, ?_, hhandle, hready, hstatus, hmem⟩
  · rw [hobj]
  · rw [hobj]
  · rw [hx, ← hop]
    rfl

/-- A word whose checks pass and which then begins its command issues. -/
theorem engIssued_begin (h : EngReady s i e) : EngIssued s i e (finish s (s.beginEng i e)) := by
  obtain ⟨t, j, ht, hj, htaken⟩ := h.begin
  rw [ht, finish_ok]
  exact htaken.issued hj

theorem State.Taken.setEngine (h : s.Taken i e j t) (u : Nat) (g : Engine) : s.Taken i e j (t.setEngine u g) := by
  obtain ⟨hobj, hothers, hfree, hhandle, hready, hstatus, hmem, hissue, hnext, htxn⟩ := h
  exact ⟨hobj, hothers, hfree, hhandle, hready, hstatus, hmem, hissue, hnext, htxn⟩

theorem needEngine_ok {k : ForkKind} (h : (unitKey s (partOf i.proc) k i.pre.core).isSome = true) : needEngine s i k = .ok () := by
  rw [needEngine, h, check_true]

/-- The ends off chip need a copy engine of the partition. -/
theorem needCopier_bind {α : Type} {chip : Bool} (h : chip = false → (unitKey s (partOf i.proc) .sharedCopy i.pre.core).isSome = true)
    (f : Unit → Except Abort α) :
    (if chip = true then Except.ok () >>= f else needEngine s i .sharedCopy >>= f) = f () := by
  cases chip with
  | true => rfl
  | false => exact congrArg (· >>= f) (needEngine_ok (h rfl))

end Issue

/-! ### Copies (R351, R352) -/

section Words

variable {s : State} {i : Issue} {x y z : Src} {k : Keep} {d r n : Word}

theorem exec_copy {t : State} {v : Txn} {c j : Nat} {op : EngOp} (hi : s.issue = some i) (hx : readSrc i x = .ok d)
    (hy : readSrc i y = .ok r) (hz : readSrc i z = .ok n) (hlen : n.toNat < 2 ^ 40)
    (hd : endOperand s i.pre.core (partOf i.proc) true d n.toNat = true)
    (hr : endOperand s i.pre.core (partOf i.proc) false r n.toNat = true)
    (hapart : (pSpace d == pSpace r && overlap (pOff d) n.toNat (pOff r) n.toNat) = false)
    (hunit : (onChip d || onChip r) = false → (unitKey s (partOf i.proc) .sharedCopy i.pre.core).isSome = true)
    (hed : endRange s i d n.toNat n.toNat = .ok ()) (her : endRange s i r n.toNat n.toNat = .ok ())
    (hbegin : s.beginEng i (copyCmd s i d r n.toNat) = .ok t) (hv : nget? t.txns s.nextTxn = some v) (hop : v.op = .eng c j op) :
    exec (.copy x y z) s = .next (if n.toNat = 0 then t.endEng s.nextTxn v c j (.ok 0) else t) := by
  have harm : exec (.copy x y z) s = execCopy x y z s := rfl
  rw [harm, execCopy, cur_some hi, ok_bind, hx, ok_bind, hy, ok_bind, hz, ok_bind]
  extract_lets len core part chip new go
  rw [decide_eq_true hlen, check_true, ok_bind, hd, check_true, ok_bind, hr, check_true, ok_bind, hapart, Bool.not_false, check_true,
    ok_bind]
  refine (congrArg (finish s) (needCopier_bind hunit _)).trans ?_
  dsimp only [go]
  rw [hed, ok_bind, her, ok_bind, hbegin, ok_bind]
  dsimp only [new]
  rw [hv]
  dsimp only
  rw [hop, finish_ok]

theorem exec_copyt (hi : s.issue = some i) (hx : readSrc i x = .ok d) (hy : readSrc i y = .ok r) (hz : readSrc i z = .ok n)
    (hd : endOperand s i.pre.core (partOf i.proc) true d 0 = true) (hr : endOperand s i.pre.core (partOf i.proc) false r 1 = true)
    (hdesc : descOk n = true)
    (hunit : (onChip d || onChip r) = false → (unitKey s (partOf i.proc) .sharedCopy i.pre.core).isSome = true)
    (hed : endRange s i d 1 0 = .ok ()) (her : endRange s i r 1 0 = .ok ()) (hen : endRange s i n 16 16 = .ok ()) :
    exec (.copyt x y z) s = finish s (s.beginEng i (copytCmd s i d r n)) := by
  have harm : exec (.copyt x y z) s = execCopyt x y z s := rfl
  rw [harm, execCopyt, cur_some hi, ok_bind, hx, ok_bind, hy, ok_bind, hz, ok_bind]
  extract_lets core part chip go
  rw [hd, check_true, ok_bind, hr, check_true, ok_bind, hdesc, check_true, ok_bind]
  refine congrArg (finish s) ((needCopier_bind hunit _).trans ?_)
  dsimp only [go]
  rw [hed, ok_bind, her, ok_bind, hen, ok_bind]

/-! ### Collectives and compression (R353 to R355) -/

theorem exec_coll (hi : s.issue = some i) (hx : readSrc i x = .ok d) (hdesc : descOk d = true)
    (hunit : (unitKey s (partOf i.proc) .collective i.pre.core).isSome = true) (hed : endRange s i d 64 64 = .ok ()) :
    exec (.coll x) s = finish s (s.beginEng i (collCmd s i d)) := by
  have harm : exec (.coll x) s = execColl x s := rfl
  rw [harm, execColl, cur_some hi, ok_bind, hx, ok_bind, hdesc, check_true, ok_bind, needEngine_ok hunit, ok_bind, hed, ok_bind]

theorem exec_press (expand : Bool) (hi : s.issue = some i) (hx : readSrc i x = .ok d) (hy : readSrc i y = .ok r)
    (hz : readSrc i z = .ok n) (hlen : n.toNat < 2 ^ 40) (hline : expand = true ∨ n.toNat % 64 = 0)
    (hd : endOperand s i.pre.core (partOf i.proc) true d (pressOut n.toNat expand) = true)
    (hr : endOperand s i.pre.core (partOf i.proc) false r (pressIn n.toNat expand) = true)
    (hapart : (pSpace d == pSpace r && overlap (pOff d) (pressOut n.toNat expand) (pOff r) (pressIn n.toNat expand)) = false)
    (hunit : (unitKey s (partOf i.proc) .compression i.pre.core).isSome = true)
    (hed : endRange s i d (pressOut n.toNat expand) (pressOut n.toNat expand) = .ok ())
    (her : endRange s i r (pressIn n.toNat expand) (pressIn n.toNat expand) = .ok ()) :
    exec (if expand then .dcmp x y z else .cmpr x y z) s = finish s (s.beginEng i (pressCmd s i d r n.toNat expand)) := by
  have harm : exec (if expand then .dcmp x y z else .cmpr x y z) s = finish s (pressForm s x y z expand) := by
    cases expand <;> rfl
  have hshape : (decide (n.toNat < 2 ^ 40) && (expand || n.toNat % 64 == 0)) = true := by
    simpa using ⟨hlen, hline⟩
  rw [harm, pressForm, cur_some hi, ok_bind, hx, ok_bind, hy, ok_bind, hz, ok_bind]
  extract_lets len core part out inp
  rw [hshape, check_true, ok_bind, hd, check_true, ok_bind, hr, check_true, ok_bind, hapart, Bool.not_false, check_true, ok_bind,
    needEngine_ok hunit, ok_bind, hed, ok_bind, her, ok_bind]

/-! ### Engine programs and page moves (R356, R359) -/

theorem exec_fork {kind : ForkKind} {u : Nat} {t : State} (hi : s.issue = some i) (hx : readSrc i x = .ok d) (hy : readSrc i y = .ok r)
    (hunit : unitKey s (partOf i.proc) kind i.pre.core = some u)
    (hbegin : s.beginEng i { op := .fork kind d r, heavy := false, shared := true } = .ok t) :
    exec (.fork x y kind) s =
      .next (t.setEngine u { t.engine u with forks := (t.engine u).forks ++ [s.nextTxn] }) := by
  have harm : exec (.fork x y kind) s = execFork x y kind s := rfl
  rw [harm, execFork, cur_some hi, ok_bind, hx, ok_bind, hy, ok_bind, hunit]
  dsimp only
  rw [hbegin, ok_bind, finish_ok]

/-- Every `mig` word is one form. -/
theorem exec_mig {e : Instr}
    (he : e ∈ [Instr.migMove x y, .migCancel x y, .migPinSet x y, .migPinClear x y, .migTakePage x y, .migReturnPage x y]) :
    exec e s = finish s (migForm s x y) := by
  simp only [List.mem_cons, List.not_mem_nil, or_false] at he
  obtain rfl | rfl | rfl | rfl | rfl | rfl := he <;> rfl

theorem migForm_begin (hi : s.issue = some i) (hx : readSrc i x = .ok d) (hy : readSrc i y = .ok r) (hsp : pSpace d = 0)
    (hsmall : r.toNat < 2 ^ 9) (hcode : r.toNat % 8 ≤ 5)
    (htier : r.toNat % 8 = 0 ∨ r.toNat % 8 = 4 → tierThere s (bits r.toNat 4 3) = true)
    (hstack : (r.toNat % 8 = 0 ∧ r.toNat.testBit 8 = false ∨ r.toNat % 8 = 4) → bits r.toNat 4 3 = 2 → bits r.toNat 7 5 < 4)
    (hmgr : r.toNat % 8 = 4 ∨ r.toNat % 8 = 5 → s.isMgr i.proc = true) (hmask : (s.part (partOf i.proc)).budget.berylmask ≠ 0) :
    migForm s x y = s.beginEng i { op := .mig d r, heavy := false, shared := true, lat := 200 } := by
  have hop : (decide (r.toNat < 2 ^ 9) && decide (r.toNat % 8 ≤ 5)) = true := by simpa using ⟨hsmall, hcode⟩
  have ht : ((r.toNat % 8 != 0 && r.toNat % 8 != 4) || tierThere s (bits r.toNat 4 3)) = true := by
    by_cases h : r.toNat % 8 = 0 ∨ r.toNat % 8 = 4
    · rw [htier h, Bool.or_true]
    · obtain ⟨h0, h4⟩ := not_or.mp h
      simp [h0, h4]
  have hs : (!((r.toNat % 8 == 0 && !r.toNat.testBit 8 || r.toNat % 8 == 4) && bits r.toNat 4 3 == 2 &&
      decide (4 ≤ bits r.toNat 7 5))) = true := by
    by_cases hbit : (r.toNat % 8 = 0 ∧ r.toNat.testBit 8 = false ∨ r.toNat % 8 = 4) ∧ bits r.toNat 4 3 = 2
    · simp [Nat.not_le.mpr (hstack hbit.1 hbit.2)]
    · have hno : ((r.toNat % 8 == 0 && !r.toNat.testBit 8 || r.toNat % 8 == 4) && bits r.toNat 4 3 == 2) = false := by
        rw [← Bool.not_eq_true]
        simpa using hbit
      rw [hno, Bool.false_and, Bool.not_false]
  have hm : ((r.toNat % 8 != 4 && r.toNat % 8 != 5) || s.isMgr i.proc) = true := by
    by_cases h : r.toNat % 8 = 4 ∨ r.toNat % 8 = 5
    · rw [hmgr h, Bool.or_true]
    · obtain ⟨h4, h5⟩ := not_or.mp h
      simp [h4, h5]
  have hb : ((s.part (partOf i.proc)).budget.berylmask != 0) = true := bne_iff_ne.mpr hmask
  rw [migForm, cur_some hi, ok_bind, hx, ok_bind, hy, ok_bind]
  extract_lets op tier st any
  rw [hsp, beq_self_eq_true, check_true, ok_bind, hop, check_true, ok_bind, ht, check_true, ok_bind, hs, check_true, ok_bind, hm,
    check_true, ok_bind, hb, check_true, ok_bind]

/-! ### join and hot (R357, R360) -/

theorem exec_join_past (hi : s.issue = some i) (hx : readSrc i x = .ok d) (hsmall : d.toNat < 2 ^ 25) (hobj : d.toNat % 256 < 192)
    (hpast : ((s.core (handleCore s i d)).obj (d.toNat % 256)).st = .free ∨
      ((s.core (handleCore s i d)).obj (d.toNat % 256)).gen ≠ bits d.toNat 15 8) :
    exec (.join x k) s = .next (s.pushLater i (BitVec.ofNat 64 (2 ^ 64 - 1)) 0 k 12) := by
  have harm : exec (.join x k) s = execJoin x k s := rfl
  rw [harm, execJoin, cur_some hi, ok_bind, hx, ok_bind]
  extract_lets core gen obj o
  rw [decide_eq_true hsmall, decide_eq_true hobj, Bool.and_self, check_true, ok_bind, if_pos hpast, finish_ok]
  rfl

theorem exec_join_own (hi : s.issue = some i) (hx : readSrc i x = .ok d) (hsmall : d.toNat < 2 ^ 25) (hobj : d.toNat % 256 < 192)
    (hst : ((s.core (handleCore s i d)).obj (d.toNat % 256)).st ≠ .free)
    (hgen : ((s.core (handleCore s i d)).obj (d.toNat % 256)).gen = bits d.toNat 15 8)
    (hown : ((s.core (handleCore s i d)).obj (d.toNat % 256)).issuer = i.proc) :
    exec (.join x k) s = .next
      ((s.issuePend i { mkTxn s i (.join (handleCore s i d) (d.toNat % 256) (bits d.toNat 15 8)) 0 with stage := .waiting } k).block
        i.proc .join (d.setWidth 32) 0) := by
  have harm : exec (.join x k) s = execJoin x k s := rfl
  rw [harm, execJoin, cur_some hi, ok_bind, hx, ok_bind]
  extract_lets core gen obj o
  have hlive : ¬ (o.st = .free ∨ o.gen ≠ gen) := not_or.mpr ⟨hst, not_not.mpr hgen⟩
  have hissuer : (o.issuer == i.proc) = true := beq_iff_eq.mpr hown
  rw [decide_eq_true hsmall, decide_eq_true hobj, Bool.and_self, check_true, ok_bind, if_neg hlive, hissuer, check_true, ok_bind,
    finish_ok]

theorem exec_hot_heap (hi : s.issue = some i) (hx : readSrc i x = .ok d) (hsp : pSpace d ≤ 1)
    (hheap : pSpace d = 1 ∧ heapRel i.pre (pOff d) < (s.inst i.pre.inst).heapLim) :
    exec (.hot x k) s = .next (s.pushLater i 0 0 k 100) := by
  have harm : exec (.hot x k) s = execHot x k s := rfl
  rw [harm, execHot, cur_some hi, ok_bind, hx, ok_bind, decide_eq_true hsp, check_true, ok_bind, if_pos hheap, finish_ok]

theorem exec_hot_page {e : TlbEnt} (hi : s.issue = some i) (hx : readSrc i x = .ok d) (hsp : pSpace d ≤ 1)
    (hheap : ¬ (pSpace d = 1 ∧ heapRel i.pre (pOff d) < (s.inst i.pre.inst).heapLim))
    (hbusy : s.unitBusy none i.pre.core (partOf i.proc) (pOff d / 2 ^ 16) = false)
    (he : (s.lookup i.pre.core (partOf i.proc) (pOff d / 2 ^ 16)).2 = .ok e) :
    let u := (s.lookup i.pre.core (partOf i.proc) (pOff d / 2 ^ 16)).1
    exec (.hot x k) s = .next (u.pushLater i (BitVec.ofNat 64 (nget 0 u.hot (u.live (e.frame * 2 ^ 16) / 2 ^ 16))) 0 k 100) := by
  intro u
  have harm : exec (.hot x k) s = execHot x k s := rfl
  rw [harm, execHot, cur_some hi, ok_bind, hx, ok_bind, decide_eq_true hsp, check_true, ok_bind, if_neg hheap]
  extract_lets vpn va w
  rw [hbusy, if_neg Bool.false_ne_true, he, finish_ok]

end Words

/-- A copy of no bytes touches no ranges and counts no targets. -/
theorem copyCmd_zero_regs (s : State) (i : Issue) (d r : Word) : (copyCmd s i d r 0).regs = [] :=
  if_neg fun h => h.2.1 rfl

/-- Settles O34: each word's checks pass, and its command begins; a copy of no bytes then ends at once. -/
theorem engineWords : Obligations.EngineWords := by
  intro s i x y z k d r n hi hx hy hz core part len apart chip
  refine ⟨fun hlen hd hr hapart hunit hed her hready => ?_, fun hd hr hdesc hunit hed her hen hready => ?_,
    fun hdesc hunit hed hready => ?_, fun expand hlen hline hd hr hapart hunit hed her hready => ?_,
    fun e hunit hready => ?_, fun hsp hsmall hcode htier hstack hmgr hmask hready e he => ?_,
    fun hsmall hobj => ⟨exec_join_past hi hx hsmall hobj, exec_join_own hi hx hsmall hobj⟩,
    fun hsp => ⟨exec_hot_heap hi hx hsp, fun hheap hbusy e he => ⟨_, rfl, exec_hot_page hi hx hsp hheap hbusy he⟩⟩⟩
  · obtain ⟨t, j, hbegin, hj, htaken⟩ := hready.begin
    obtain ⟨v, hv, hop, -, hregs⟩ := htaken.txn
    have hexec := exec_copy hi hx hy hz hlen hd hr hapart hunit hed her hbegin hv hop
    refine ⟨fun hpos => ?_, fun hzero => ?_⟩
    · rw [hexec, if_neg (Nat.ne_of_gt hpos)]
      exact htaken.issued hj
    · have hnone : v.regs = [] := by
        rw [hregs, hzero]
        exact copyCmd_zero_regs s i d r
      obtain ⟨hissue, hgone⟩ := endEng_gone t s.nextTxn v i.pre.core j 0 hnone
      exact ⟨_, hexec.trans (congrArg _ (if_pos hzero)), hissue.trans (htaken.issue.trans hi), hgone⟩
  · rw [exec_copyt hi hx hy hz hd hr hdesc hunit hed her hen]
    exact engIssued_begin hready
  · rw [exec_coll hi hx hdesc hunit hed]
    exact engIssued_begin hready
  · rw [exec_press expand hi hx hy hz hlen hline hd hr hapart hunit hed her]
    exact engIssued_begin hready
  · obtain ⟨u, hu⟩ := Option.isSome_iff_exists.mp hunit
    obtain ⟨t, j, hbegin, hj, htaken⟩ := hready.begin
    rw [exec_fork hi hx hy hu hbegin]
    exact (htaken.setEngine u _).issued hj
  · rw [exec_mig he, migForm_begin hi hx hy hsp hsmall hcode htier hstack hmgr hmask]
    exact engIssued_begin hready

end Sys2Proof.Machine
end

section
/-! SUPPORT. Events of the engines: a command completes, a thread starts, a message of an engine channel is taken, and a gang's barrier
times out (O42). -/

namespace Sys2Proof.Machine

/-! ### Completion (R347) -/

theorem engStep_known {s : State} {t core obj : Nat} {x : Txn} {op : EngOp} (hx : nget? s.txns t = some x)
    (hop : x.op = .eng core obj op) (hst : (engStatus x op).isSome = true) : s.engStep t = none := by
  unfold State.engStep
  rw [hx]
  dsimp only
  rw [hop]
  dsimp only
  rw [hst, Bool.or_true, Bool.true_or, if_pos rfl]

theorem engRun_rest {s : State} {t : Nat} (h : s.engStep t = none) (n : Nat) : s.engRun t n = s := by
  cases n with
  | zero => rfl
  | succ n =>
    unfold State.engRun
    rw [h]

/-- An operation other than a collective whose status is known completes with it. -/
theorem exec_engineCompletion {s : State} {t core obj : Nat} {x : Txn} {op : EngOp} {w : Word} (hx : nget? s.txns t = some x)
    (hcoll : ∀ d, op ≠ .coll d) (hop : x.op = .eng core obj op) (hstage : x.stage = .sent) (hst : engStatus x op = some w)
    (hfrozen : s.frozen x = false) (hquiet : s.threadQuiet (engineKey t x.issuer) = true) :
    exec (.engineCompletion t) s = .next (s.endEng t x core obj (.ok w)) := by
  have harm : exec (.engineCompletion t) s = execEngineCompletion t s := rfl
  have hrun : s.engRun t (engFuel x) = s := engRun_rest (engStep_known hx hop (by rw [hst, Option.isSome_some])) _
  rw [harm, execEngineCompletion, hx]
  dsimp only
  rw [hrun, hx]
  dsimp only
  rw [hop]
  dsimp only
  rw [hquiet, hfrozen, Bool.not_true, Bool.or_self, if_neg Bool.false_ne_true, hstage]
  dsimp only
  rw [hst]
  dsimp only
  split
  · exact absurd rfl (hcoll _)
  · rfl

/-! ### Threads (R356, R358) -/

theorem startThread_ok {s : State} {t : Nat} {x : Txn} {prog pc : Word} (kind : ForkKind) (par handle : Word)
    (hpc : regTarget prog = .ok pc) :
    ∃ v, s.startThread t x kind prog par handle = v ∧ v.mem = s.mem ∧
      (let p := v.proc (engineKey t x.issuer)
       p.st = .running ∧ p.pc = pc ∧ p.n = ((Vector.replicate 32 (0 : Word)).set 0 par |>.set 1 handle) ∧
       p.engine = some { kind := kind, txn := t, forkLoc := x.loc }) := by
  refine ⟨_, rfl, ?_⟩
  unfold State.startThread
  rw [hpc]
  dsimp only
  rw [State.proc_setProc_same]
  exact ⟨rfl, rfl, rfl, rfl, rfl⟩

theorem forkCap_pos (kind : ForkKind) : 0 < forkCap kind := by cases kind <;> decide

/-- The one fork that waits for a unit starts its thread. -/
theorem exec_forkThreadStart {s : State} {t core obj u : Nat} {x : Txn} {kind : ForkKind} {prog par : Word}
    (hx : nget? s.txns t = some x) (hop : x.op = .eng core obj (.fork kind prog par)) (hstage : x.stage = .sent)
    (hord : s.ordered t x = true) (hunit : engUnit s x (.fork kind prog par) = some u) (hforks : (s.engine u).forks = [t])
    (hnew : x.started = false) :
    exec (.forkThreadStart t) s =
      .next (s.startThread t x kind prog par (handleWord core ((s.core core).obj obj).gen obj)) := by
  have harm : exec (.forkThreadStart t) s = execForkThreadStart t s := rfl
  rw [harm, execForkThreadStart, hx]
  dsimp only
  rw [hop]
  dsimp only
  rw [hunit]
  dsimp only
  have hpos := forkCap_pos kind
  simp [hforks, hx, hnew, hstage, hord, hpos]

/-- The oldest message of a buffered engine channel is taken, and a thread starts for its sender. -/
theorem exec_engineChannelDispatch {s : State} {part ch u j : Nat} {c : Chan} {kind : ForkKind} {m : Nat × List Byte}
    {rest : List (Nat × List Byte)} (hch : ch < 2 ^ 24) (hc : s.chan? part ch = some c) (hbind : c.bkind = 2)
    (hkind : kindOf (c.ep[0].toNat % 8) = some kind) (hmsgs : c.msgs = m :: rest)
    (hunit : unitKey s part kind (if m.1 = 0 then c.home else (s.proc m.1).core) = some u)
    (hobj : (s.core (if m.1 = 0 then c.home else (s.proc m.1).core)).freeObj true = some j)
    (hroom : (s.engine u).forks.length < forkCap kind) (hgo : s.halted part = false) :
    exec (.engineChannelDispatch (part * 2 ^ 24 + ch)) s = .next
      (((s.modChan part ch fun c => c.dropMsg 1).threadFor part (if m.1 = 0 then c.home else (s.proc m.1).core) m.1 0 kind u c.ep[1]
        m.2 j).chanChanged part ch) := by
  have harm : exec (.engineChannelDispatch (part * 2 ^ 24 + ch)) s = execEngineChannelDispatch (part * 2 ^ 24 + ch) s := rfl
  have hpart : (part * 2 ^ 24 + ch) / 2 ^ 24 = part := by omega
  have hchan : (part * 2 ^ 24 + ch) % 2 ^ 24 = ch := by omega
  have hbusy : ¬ (forkCap kind ≤ (s.engine u).forks.length ∨ s.halted part = true) := by
    rw [hgo]
    exact not_or.mpr ⟨Nat.not_le.mpr hroom, Bool.false_ne_true⟩
  rw [harm, execEngineChannelDispatch, hpart, hchan]
  dsimp only
  rw [hc]
  dsimp only
  rw [if_pos hbind, hkind]
  dsimp only
  rw [hmsgs]
  dsimp only
  rw [hunit, hobj]
  dsimp only
  rw [if_neg hbusy]
  rfl

/-! ### The timeout of a barrier (R363) -/

/-- What undoing an `mgang` changes: barriers, cores, its transaction and the hold of its issuer. -/
theorem undoMgang_frame {s : State} {t : Nat} {x : Txn} (hx : nget? s.txns t = some x) :
    ∃ gangs cores, s.undoMgang t =
      ({ s with gangs := gangs, cores := cores, txns := ndel s.txns t } : State).setProc x.issuer
        { (s.proc x.issuer).run with hold := none } := by
  unfold State.undoMgang
  rw [hx]
  dsimp only
  split
  · exact ⟨_, _, rfl⟩
  · exact ⟨_, _, rfl⟩

/-- A process runs on: its place in the machine stands. -/
theorem Proc.run_frame (p : Proc) : ∃ st was, p.run = { p with st := st, was := was } := by
  unfold Proc.run
  split
  · exact ⟨_, _, rfl⟩
  · split
    · exact ⟨_, _, rfl⟩
    · exact ⟨_, _, rfl⟩

theorem undoMgang_proc {s : State} {t : Nat} {x : Txn} (hx : nget? s.txns t = some x) :
    ∃ st was, (s.undoMgang t).proc x.issuer = { s.proc x.issuer with st := st, was := was, hold := none } := by
  obtain ⟨gangs, cores, h⟩ := undoMgang_frame hx
  obtain ⟨st, was, hrun⟩ := Proc.run_frame (s.proc x.issuer)
  refine ⟨st, was, ?_⟩
  rw [h, State.proc_setProc_same, hrun]

theorem State.Handled.undoMgang {s : State} {t : Nat} {x : Txn} (hx : nget? s.txns t = some x) (h : s.Handled x.issuer) :
    (s.undoMgang t).Handled x.issuer := by
  obtain ⟨hm, hh, hi, hr⟩ := h
  obtain ⟨st, was, hp⟩ := undoMgang_proc hx
  obtain ⟨gangs, cores, hu⟩ := undoMgang_frame hx
  have hinst : ((s.undoMgang t).proc x.issuer).inst = (s.proc x.issuer).inst := by rw [hp]
  exact {
    manager := by rw [hu]; exact hm
    handler := by rw [hp]; exact hh
    index := by rw [hinst, hu]; exact hi
    room := by rw [hinst, hu]; exact hr }

/-- A fault whose record goes to the handler queue leaves the transactions. -/
theorem takeFault_txns {s : State} {k : Nat} {r : FRec} (pc : Word) (hth : (s.proc k).engine = none) (h : s.Handled k)
    (hk : r.handle = k) (hi : r.inst = (s.proc k).inst) (ha : r.area = 0) : (s.takeFault k r pc).txns = s.txns := by
  subst hk
  have hi' : r.inst = ((s.faultAt r.handle pc).proc r.handle).inst := by rw [proc_faultAt, hi]; rfl
  have hr : nget? ((s.faultAt r.handle pc).recorded r).recs (s.faultAt r.handle pc).nextId =
    some ((s.faultAt r.handle pc).writeRec r).2 := nget?_nset_same ..
  obtain ⟨cores, procs, hf⟩ := faultAt_frame s r.handle pc
  rw [takeFault_eq r pc hth, file_new ha,
    route_queues (r := ((s.faultAt r.handle pc).writeRec r).2) ((h.faultAt pc).recorded r) hi' hr]
  have htxns : (s.faultAt r.handle pc).txns = s.txns := by rw [hf]
  exact htxns

/-- With no word in issue, failing an `mgang` undoes it and takes the fault at its word. -/
theorem failMgang_idle {s : State} {t : Nat} {x : Txn} (tr : Trap) (hx : nget? s.txns t = some x) (hi : s.issue = none) :
    s.failMgang t tr = (s.undoMgang t).takeFault x.issuer (mkRec (s.undoMgang t) x.issuer .p tr x.loc x.bword) x.loc := by
  obtain ⟨gangs, cores, hu⟩ := undoMgang_frame hx
  have hissue : (s.undoMgang t).issue = none := by
    rw [hu]
    exact hi
  unfold State.failMgang
  rw [hx]
  dsimp only
  rw [hissue]

theorem failMgang_spec {s : State} {t : Nat} {x : Txn} (tr : Trap) (hx : nget? s.txns t = some x) (hi : s.issue = none)
    (hth : (s.proc x.issuer).engine = none) (h : s.Handled x.issuer) (hlt : x.issuer < 2 ^ 32) :
    ((s.failMgang t tr).proc x.issuer).st = .faulted ∧ ((s.failMgang t tr).proc x.issuer).pc = x.loc ∧
      nget? (s.failMgang t tr).txns t = none := by
  obtain ⟨st, was, hp⟩ := undoMgang_proc hx
  obtain ⟨gangs, cores, hu⟩ := undoMgang_frame hx
  have hengine : ((s.undoMgang t).proc x.issuer).engine = none := by
    rw [hp]
    exact hth
  have hhandle : (mkRec (s.undoMgang t) x.issuer .p tr x.loc x.bword).handle = x.issuer := Nat.mod_eq_of_lt hlt
  have hdone := h.undoMgang hx
  rw [failMgang_idle tr hx hi]
  obtain ⟨-, hproc, -⟩ := takeFault_queues x.loc hengine hdone hhandle rfl rfl
  refine ⟨?_, ?_, ?_⟩
  · rw [hproc]
    rfl
  · rw [hproc]
    rfl
  · rw [takeFault_txns x.loc hengine hdone hhandle rfl rfl, hu]
    exact (nget?_ndel ..).trans (if_pos rfl)

/-- The barrier whose one `mgang` has waited 65,536 cycles fails it. -/
theorem exec_gangTimeout {s : State} {g t core : Nat} {v : Gang} {x : Txn} (hg : nget? s.gangs g = some v)
    (hbar : v.barrier = [(core, t)]) (hx : nget? s.txns t = some x) (hlate : x.issued + 65536 ≤ s.cycle) :
    exec (.gangTimeout g) s = .next (s.failMgang t { kind := .gangTimeout, other := BitVec.ofNat 32 g }) := by
  have harm : exec (.gangTimeout g) s = execGangTimeout g s := rfl
  rw [harm, execGangTimeout, hg]
  simp [hbar, hx, hlate]

/-- Settles O42, event by event. -/
theorem engineEvents : Obligations.EngineEvents := by
  refine ⟨fun s t core obj x op w hx hcoll hop hstage hst hfrozen hquiet =>
      exec_engineCompletion hx hcoll hop hstage hst hfrozen hquiet,
    fun s t core obj u x kind prog par pc hx hop hstage hord hpc hunit hforks hnew => ?_,
    fun s part ch u j c kind m rest hch hc hbind hkind hmsgs hunit hobj hroom hgo =>
      exec_engineChannelDispatch hch hc hbind hkind hmsgs hunit hobj hroom hgo,
    fun s g t core v x hg hbar hx hlate hi hth hh hidx hm hroom hlt =>
      ⟨_, exec_gangTimeout hg hbar hx hlate, failMgang_spec _ hx hi hth ⟨hm, hh, hidx, hroom⟩ hlt⟩⟩
  have hexec := exec_forkThreadStart hx hop hstage hord hunit hforks hnew
  obtain ⟨v, hv, hmem, hst, hat, hn, heng⟩ :=
    startThread_ok (s := s) (t := t) (x := x) kind par (handleWord core ((s.core core).obj obj).gen obj) hpc
  refine ⟨v, hexec.trans (congrArg _ hv), ⟨hst, hat, ?_, ?_, fun r hr => ?_, heng⟩, hmem⟩
  · rw [Proc.nget, hn]
    rfl
  · rw [Proc.nget, hn]
    rfl
  · have h0 : 0 ≠ r.toNat := by omega
    have h1 : 1 ≠ r.toNat := by omega
    rw [Proc.nget, hn]
    simp [h0, h1]

end Sys2Proof.Machine
end
